-- ==== Sys2Proof/Word.lean ====
section
/-! DEFINITION. The words of the machine and their plainest arithmetic (R5, R10). -/

namespace Sys2Proof

/-- A byte of memory. -/
abbrev Byte := BitVec 8
/-- A lane or uniform register (R71). -/
abbrev Word := BitVec 32
/-- An instruction word, a program counter, a global address (R140, R24, R343). -/
abbrev DWord := BitVec 64

/-- `bits(x, hi, lo)` of R10, on a natural number. -/
def natBits (x hi lo : Nat) : Nat := (x >>> lo) % 2 ^ (hi + 1 - lo)

/-- `sext(x, n)` of R10: the low `n` bits of `x` read as signed. -/
def natSext (x n : Nat) : Int :=
  if n = 0 then 0
  else
    let y := x % 2 ^ n
    if y < 2 ^ (n - 1) then (y : Int) else (y : Int) - (2 ^ n : Nat)

/-- Bit `i` of a natural number. -/
def natBit (x i : Nat) : Bool := (x >>> i) % 2 == 1

/-- The unsigned value of the low `n` bits of an integer. -/
def wrapNat (x : Int) (n : Nat) : Nat := (x % (2 ^ n : Nat)).toNat

end Sys2Proof
end

