-- ==== Sys2Proof/Syntax.lean ====
section
/-! DEFINITION. The instructions and events of spec/opcode_table.json, one constructor each.
Kernel words carry the fields of their form (R141 to R154); dray commands carry the fields of
R288; events carry the agent they concern and whatever comes from outside the package. -/

namespace Sys2Proof

/-- Types of R144 (codes 0xE and 0xF are reserved and have no constructor). -/
inductive Ty where
  | i32 | n32 | i64 | n64 | i16 | n16 | i8 | n8 | f32 | bf16 | f16 | e4m3 | e5m2 | mx4
  deriving DecidableEq, Repr

/-- Rounding modes of R55. -/
inductive Rm where
  | rn | rz | ru | rd | rs
  deriving DecidableEq, Repr

/-- Kind of field C (R143). -/
inductive Ck where
  | lane | uni | imm
  deriving DecidableEq, Repr

/-- Scopes of R96, narrowest first. -/
inductive Scope where
  | g | t | d | f | h
  deriving DecidableEq, Repr

/-- Ordering field of R146. -/
inductive MOrd where
  | relaxed | acq | rel | ar
  deriving DecidableEq, Repr

/-- Engine classes of R20, in code order. -/
inductive EClass where
  | K | M | A | F | B | W
  deriving DecidableEq, Repr

/-- Integer comparisons of R190. -/
inductive ICmp where
  | eq | ne | lt | le | gt | ge
  deriving DecidableEq, Repr

/-- Floating-point comparisons of R204. -/
inductive FCmp where
  | eq | ne | lt | le | gt | ge | un | ord
  deriving DecidableEq, Repr

/-- Modes of SHFL (R216). -/
inductive ShflMode where
  | lane | below | above | flip
  deriving DecidableEq, Repr

/-- Operators of SCAN (R219). -/
inductive ScanOp where
  | add | min | max | and | or | xor
  deriving DecidableEq, Repr

/-- Functions of FSEED (R210). -/
inductive SeedFn where
  | rcp | rsq | lg2 | ex2
  deriving DecidableEq, Repr

/-- Atomic operators of R229. -/
inductive AtomOp where
  | add | min | max | and | or | xor | exch
  deriving DecidableEq, Repr

/-- The guard of a full-format word (R150). -/
structure Guard where
  pg : BitVec 3
  ps : Bool
  deriving DecidableEq, Repr

/-- R-form fields (R141, R143); the minor function is the constructor. -/
structure RForm where
  d : BitVec 8
  a : BitVec 8
  b : BitVec 8
  c : BitVec 8
  g : Guard
  ty : Ty
  rm : Rm
  sat : Bool
  ftz : Bool
  ua : Bool
  ub : Bool
  ck : Ck
  x : Bool
  deriving DecidableEq, Repr

/-- I-form fields (R145). -/
structure IForm where
  d : BitVec 8
  a : BitVec 8
  g : Guard
  imm : BitVec 32
  deriving DecidableEq, Repr

/-- M-form fields (R146); `ofs` is OFSH and OFSL joined. -/
structure MForm where
  d : BitVec 8
  a : BitVec 8
  ofs : BitVec 21
  g : Guard
  ubase : Bool
  ac : BitVec 4
  sc : Scope
  ord : MOrd
  sp : Bool
  far : Bool
  deriving DecidableEq, Repr

/-- B-form fields (R148). -/
structure BForm where
  ofs : BitVec 32
  g : Guard
  l : BitVec 8
  deriving DecidableEq, Repr

/-- E-form fields (R149). -/
structure EForm where
  e1 : BitVec 8
  e2 : BitVec 8
  e3 : BitVec 8
  e4 : BitVec 8
  g : Guard
  emod : BitVec 16
  deriving DecidableEq, Repr

/-- Pair opcodes of R153. -/
inductive PairOp where
  | add | sub | addI | and | or | xor | andI | orI | xorI | shl | shr | sar | mov | movI
  | minI32 | maxI32 | minN32 | maxN32 | leaS
  | faddF32 | fsubF32 | fmulF32 | ffmaF32 | fminF32 | fmaxF32
  | paddBf16 | pmulBf16 | pfmaBf16 | paddF16 | pmulF16 | pfmaF16
  deriving DecidableEq, Repr

/-- One slot of a pair word (R151). -/
structure Slot where
  pop : PairOp
  pd : BitVec 6
  pa : BitVec 6
  pi : BitVec 13
  deriving DecidableEq, Repr

/-- The repeat prefix (R154): count code and the four step codes. -/
structure RepForm where
  cnt : BitVec 6
  sd : BitVec 2
  sa : BitVec 2
  sb : BitVec 2
  sc : BitVec 2
  deriving DecidableEq, Repr

/-- The R-form integer operations that have both a lane form and a uniform form (R157, R158). -/
inductive IntOp where
  | add | sub | neg | abs
  | mul | mulHi | mulWide | mad | madHi | madWide
  | min | max
  | and | or | xor | not | andn | orn | xnor
  | shl | shr | sar | rol | ror
  | bfe | bfi | popc | clz | brev
  | mov | movI64
  | lea | leaN | leaS
  deriving DecidableEq, Repr

/-- The I-form integer operations of R193. -/
inductive IntImmOp where
  | add | sub | and | or | xor | min | max | mov | movI64
  deriving DecidableEq, Repr

/-- A uniform form (R158). -/
inductive UniForm where
  | r (op : IntOp) (o : RForm)
  | i (op : IntImmOp) (o : IForm)
  deriving DecidableEq, Repr

/-- A depot line: a stack, an extent of it and a 128-byte line of the extent's data (R81, R82). -/
structure LineId where
  stack : Nat
  ext : Nat
  line : Nat
  deriving DecidableEq, Repr

/-- A row of a bank: (stack, pseudo-channel, bank group, bank, bank row) (R11, R86). -/
structure RowId where
  stack : Nat
  pch : Nat
  bg : Nat
  bank : Nat
  row : Nat
  deriving DecidableEq, Repr

/-- A dray: (stack, pseudo-channel, bank group) (R11). -/
structure DrayId where
  stack : Nat
  pch : Nat
  bg : Nat
  deriving DecidableEq, Repr

/-- A value that comes from outside the package: a number and its tag. -/
structure ExtVal where
  val : Nat
  tag : Bool
  deriving DecidableEq, Repr

/-- What a peer answers to a request of this package (R419, R420); a value of up to 16 bytes has a tag for each word. -/
inductive PeerAnswer where
  | done (val : Nat) (tags : BitVec 32)
  | retry
  | stale
  | absent
  | badAttribute
  | permission
  | poisonStore
  | notOwner
  | owner
  | withdrawn
  deriving DecidableEq, Repr

/-- What an inbound fabric request asks for (R416). A plain load or store names its group in the source package, for
the open marks (R110, R112); `clear` is a release of such a group (R111), `withdraw` a halt's withdrawal of a queued
lock (R240), `other` a request type that is not accepted. -/
inductive InboundOp where
  | read (size : Nat) (group : Option Nat)
  | write (bytes : List (BitVec 8)) (tags : List Bool) (group : Option Nat)
  | rstWrite (bytes : List (BitVec 8)) (tags : List Bool)
  | rstFlag
  | atom (op : AtomOp) (ac : BitVec 4) (operand : Nat) (tag : Bool)
  | cas (ac : BitVec 4) (cmp swap : Nat) (tag : Bool)
  | lock (ctx grid group lane : Nat)
  | unlock (ctx grid group lane : Nat)
  | clean
  | inval
  | walk (image : List (BitVec 8)) (step : Nat) (ptr : Nat) (crossings : Nat) (acq : Bool)
      (originPkg : Nat) (originOp : Nat) (pasid : Nat)
  | clear (group : Nat) (scope : Scope)
  | withdraw (ctx grid group lane : Nat)
  | drainAdd (ac : BitVec 4) (mask : Nat) (bytes : List (BitVec 8)) (tags : List Bool)
  | retire (group : Nat)
  | other
  deriving DecidableEq, Repr

/-- A request that arrives from the fabric (R416, R420); `off` is an offset in the peer window, `nc` and `res` the
page settings of the source's page (R349). -/
structure Inbound where
  src : Nat
  seq : Nat
  fabgen : Nat
  pasid : Nat
  off : Nat
  nc : Bool
  res : Nat
  op : InboundOp
  deriving DecidableEq, Repr

/-- The result a waybill brings home (R274, R275), with a tag for each byte of its data. -/
structure WalkResult where
  status : Nat
  step : Nat
  crossings : Nat
  addr : Nat
  data : List (BitVec 8)
  tags : List Bool
  deriving DecidableEq, Repr

/-- A host answer to a page request (R359). -/
inductive PageAnswer where
  | success | invalid | failure
  deriving DecidableEq, Repr

/-- What stage 2 of bring-up finds (R432, R435, R436): the images as read from their places. -/
structure BootImages where
  slotA : List (BitVec 8)
  slotB : List (BitVec 8)
  record : List (BitVec 8)
  die : List (BitVec 8)
  dispatcher : List (BitVec 8)
  bases : List (List (BitVec 8))
  stackTrainOk : Bool
  dieTrainOk : Bool
  deriving DecidableEq, Repr

/-- The instructions and events of the opcode table. -/
inductive Instr where
  -- events of issue, caches and memory
  | sideIssueCycle (side : Nat)
  | loadReturn (req : Nat) (ext : Option ExtVal)
  | icacheFill (core pasid vline : Nat)
  | pageWalkComplete (walk : Nat) (host : List (BitVec 64))
  | storeAtHome (req : Nat)
  | heldWriteApply (line : LineId)
  | homeAtomic (req : Nat) (ext : Option ExtVal)
  | depotFill (line : LineId)
  | lineMaintenance (op : Nat) (line : LineId)
  | stackPortRequest (req : Nat)
  | holdQueueRelease (row : RowId)
  | mswitchApply (op : Nat)
  | rowsControllerOwned (row : RowId)
  | engineOpComplete (op : Nat)
  | copyGranuleWritten (op : Nat) (ext : List ExtVal)
  | lockRequest (req : Nat)
  | unlockRequest (req : Nat)
  | acqGrant (team side : Nat)
  -- events of drays, power and cores
  | drayLaunch (op : Nat)
  | drayOperationStart (op stack : Nat)
  | bcastStep (stack : Nat)
  | powerEvaluation (watts : Nat)
  | coreEligibilitySample (core tempC droop : Nat)
  -- events of halting, frames and traps
  | frameRetry (ctx : Nat)
  | impreciseTrapTaken (gid code : Nat)
  -- events of reliability and configuration
  | scrubVisit (stack : Nat)
  | rowStrengthen (row : RowId)
  | extentClassWrite (stack ext : Nat)
  | extentFormatDone (stack ext : Nat)
  | translationBlockReload (line : Nat)
  | contextRecordWrite (ctx : Nat)
  -- events of the fabric
  | fabricRequestReceive (r : Inbound)
  | fabricResponse (tgt seq : Nat) (ans : PeerAnswer)
  | fabricResend (tgt seq : Nat)
  | fabricRetryResend (tgt seq : Nat)
  | fabricNoRouteTimeout (tgt seq : Nat)
  | flitReplay (port : Nat)
  | portRetrainDone (port lanes : Nat)
  | d2dFlitReplay (req : Nat)
  | waybillHop (walk : Nat)
  | waybillReturn (op : Nat) (res : WalkResult)
  | walkTimeout (op : Nat)
  | rstFlagAdd (op : Nat)
  | redxCommandApply (op idx : Nat) (ext : Option ExtVal)
  | marshalSectorWrite (op : Nat)
  | peerLockRelease (pkg grid : Nat)
  -- events of the host
  | hostRead (addr size : Nat)
  | hostWrite (addr : Nat) (bytes : List (BitVec 8)) (poison : Bool)
  | backInvalidateAnswer (line : LineId)
  | atsInvalidate (pasid base len : Nat)
  | pageResponse (id : Nat) (ans : PageAnswer)
  | pageRequestTimeout (id : Nat)
  -- events of the Dispatcher
  | postBoxTake (ctx : Nat)
  | replayDivergence (grid : Nat) (addr : Nat)
  -- events of reset, bring-up and management
  | bringUp (img : BootImages)
  | registerWrite (offset : Nat) (value : BitVec 32)
  -- pair words, the prefix and control
  | pairWord (a b : Slot)
  | rep (o : RepForm)
  | bra (o : BForm)
  | call (o : BForm)
  | brx (o : RForm)
  | ret (o : RForm)
  | exit (o : RForm)
  | yield (o : RForm)
  | yieldW (o : MForm)
  | waitc (c : EClass) (o : RForm)
  | ppoint (o : IForm)
  | rgn (o : RForm)
  | rgnEnd (o : RForm)
  | brk (o : IForm)
  | trap (o : IForm)
  -- integer
  | add (o : RForm)
  | sub (o : RForm)
  | addc (o : RForm)
  | subc (o : RForm)
  | neg (o : RForm)
  | abs (o : RForm)
  | addImm (o : IForm)
  | subImm (o : IForm)
  | andImm (o : IForm)
  | orImm (o : IForm)
  | xorImm (o : IForm)
  | minImm (o : IForm)
  | maxImm (o : IForm)
  | movImm (o : IForm)
  | movI64Imm (o : IForm)
  | mul (o : RForm)
  | mulHi (o : RForm)
  | mulWide (o : RForm)
  | mad (o : RForm)
  | madHi (o : RForm)
  | madWide (o : RForm)
  | min (o : RForm)
  | max (o : RForm)
  | and (o : RForm)
  | or (o : RForm)
  | xor (o : RForm)
  | not (o : RForm)
  | andn (o : RForm)
  | orn (o : RForm)
  | xnor (o : RForm)
  | shl (o : RForm)
  | shr (o : RForm)
  | sar (o : RForm)
  | rol (o : RForm)
  | ror (o : RForm)
  | bfe (o : RForm)
  | bfi (o : RForm)
  | popc (o : RForm)
  | clz (o : RForm)
  | brev (o : RForm)
  | icmpp (cmp : ICmp) (o : RForm)
  | sel (o : RForm)
  | mov (o : RForm)
  | movI64 (o : RForm)
  | lea (o : RForm)
  | leaN (o : RForm)
  | leaS (o : RForm)
  | dot4 (o : RForm)
  | uniformForm (u : UniForm)
  -- predicates
  | pand (o : RForm)
  | por (o : RForm)
  | pxor (o : RForm)
  | pandn (o : RForm)
  | porn (o : RForm)
  | pnot (o : RForm)
  | pmov (o : RForm)
  | p2s (o : RForm)
  | s2p (o : RForm)
  -- cross-lane
  | shfl (mode : ShflMode) (o : RForm)
  | voteOr (o : RForm)
  | voteAnd (o : RForm)
  | voteMask (o : RForm)
  | matchPeers (o : RForm)
  | matchSame (o : RForm)
  | scan (op : ScanOp) (o : RForm)
  -- floating point
  | fadd (o : RForm)
  | fsub (o : RForm)
  | fmul (o : RForm)
  | ffma (o : RForm)
  | ffms (o : RForm)
  | ffnma (o : RForm)
  | fmin (o : RForm)
  | fmax (o : RForm)
  | fcmpp (cmp : FCmp) (o : RForm)
  | fclass (o : RForm)
  | cvt (src : Ty) (o : RForm)
  | padd (o : RForm)
  | pmul (o : RForm)
  | pfma (o : RForm)
  | pmin (o : RForm)
  | pmax (o : RForm)
  | fseed (fn : SeedFn) (o : RForm)
  | frred (o : RForm)
  | fscale (o : RForm)
  | fexp (o : RForm)
  | fmant (o : RForm)
  | cvtblk (src : Ty) (o : RForm)
  -- memory and synchronisation
  | ld (o : MForm)
  | st (o : MForm)
  | ldu (o : MForm)
  | prefetchL1 (o : MForm)
  | prefetchDep (o : MForm)
  | atom (op : AtomOp) (o : MForm)
  | red (op : AtomOp) (o : MForm)
  | cas (o : MForm)
  | gateInit (o : MForm)
  | gateExpect (o : MForm)
  | gateArrive (o : MForm)
  | gatePeek (o : MForm)
  | gateWait (o : MForm)
  | gateWaitLim (o : MForm)
  | lock (o : MForm)
  | unlock (o : MForm)
  | barrier (o : RForm)
  | acqBlk (o : RForm)
  | acqOpt (o : RForm)
  | acqAcc (o : RForm)
  | relBlk (o : RForm)
  | relOpt (o : RForm)
  | relAcc (o : RForm)
  | clean (o : RForm)
  | inval (o : RForm)
  | fenceAcq (o : RForm)
  | fenceRel (o : RForm)
  | fenceAr (o : RForm)
  | fenceSc (o : RForm)
  | mswitchBank (o : RForm)
  | mswitchCtl (o : RForm)
  -- tiles and engines
  | tld (o : MForm)
  | tst (o : MForm)
  | tzero (o : RForm)
  | mma (o : RForm)
  | mmag (o : RForm)
  | tmask (o : MForm)
  | tdrain (o : MForm)
  | tdrainAdd (o : MForm)
  | tdrainAddSplit (o : MForm)
  | tcvt (o : RForm)
  | cpyIn (o : EForm)
  | cpyOut (o : EForm)
  | tdesc (o : EForm)
  | tdescAlias (o : EForm)
  | mrs (o : EForm)
  | rst (o : EForm)
  | wbl (o : EForm)
  | wblAcq (o : EForm)
  | redx (o : EForm)
  | imxLoad (o : EForm)
  | imxVec (o : EForm)
  | imxRun (o : EForm)
  | imxBcast (o : EForm)
  | imxCollect (o : EForm)
  | imxStat (o : EForm)
  | grid (o : EForm)
  -- system
  | sget (o : RForm)
  | sput (o : RForm)
  | eret (o : RForm)
  | faultackRetry (o : RForm)
  | faultackSkip (o : RForm)
  | faultackRegion (o : RForm)
  | faultackKill (o : RForm)
  | faultackHold (o : RForm)
  | dbgstep (o : RForm)
  | preempt (o : RForm)
  | kill (o : RForm)
  | resume (o : RForm)
  | tlbinv (o : RForm)
  -- dray commands
  | dsel (k : Bool) (r : BitVec 13) (l h : BitVec 6)
  | dadv (k : Bool) (n : BitVec 16)
  | dvset (v : BitVec 6) (s : BitVec 11)
  | dlset (k a : Bool) (n : BitVec 16)
  | dloop (k : Bool) (s : BitVec 6)
  | dwait (n : BitVec 16)
  | dmac (c : BitVec 4)
  | dmacx (c : BitVec 4)
  | dscol (n : BitVec 8)
  | dvld (k : Bool)
  | dvst (k : Bool)
  | dadd (t d : Bool)
  | dscale (c : BitVec 4) (t y : Bool)
  | dazero (m : BitVec 16)
  | dald (h : Bool)
  | dstore (t h : Bool)
  -- rows without fields: they act on the agent of the turn (the lane, group, team, grid or dray
  -- that the state names), or on the package as a whole
  | repetition
  | yieldBackoffExpiry
  | yieldWBackoffExpiry
  | gateWaitDeadline
  | lockGrant
  | lockWithdrawalAnswer
  | fencePerformed
  | drayRowOpen
  | drayStopped
  | drayBankYield
  | ppointWindowExpiry
  | groupHalt
  | groupFrameWrite
  | teamFrameWrite
  | trapDelivery
  | trapRecordPost
  | ceWindowClear
  | fabricBlockWrite
  | pageWaitReframe
  | teamPlacement
  | scratchpadClearDone
  | placementReservation
  | dispatcherPreempt
  | teamEnd
  | gridRetire
  | doneWrite
  | coldReset
  | packageReset
  | mboxUpdate
  | mboxFloor
  | quote
  | aliasCert
  | dikcert
  | idekey
  | mboxCommandDone
  | dend
  | dacvt
  | lockUnitAnswer
  | drayIllegalCommand
  deriving DecidableEq, Repr

end Sys2Proof
end

