-- ==== Sys2Proof/Machine/Forms.lean ====
section
/-! DEFINITION. The operand forms of the kernel words: for each word its major opcode, its minor
function and what each of its fields names (R142, R156 to R161, R181, R201 and the description of
the instruction); from these, whether a word is legal and which registers it reads and writes. -/

namespace Sys2Proof

/-- A register or tile that a word names; `x` is a state register (R73, R326). -/
inductive RegName where
  | v (n : Nat) | s (n : Nat) | p (n : Nat) | t (n : Nat) | a (n : Nat) | x (n : Nat)
  deriving DecidableEq, Repr

/-- What a register field names (R142); the number is how many registers. -/
inductive FK where
  | zero
  | lane (w : Nat)
  | reg (w : Nat)
  | uni (w : Nat)
  | pred
  | opTile
  | accTile
  | number
  deriving DecidableEq, Repr

/-- What field C holds (R143, R169). -/
inductive CKind where
  | zero
  | alt
  | reg (w : Nat)
  | regOnly (w : Nat)
  | uniOnly
  | imm (lo hi : Nat)
  deriving DecidableEq, Repr

/-- The form of an R-form word. -/
structure RDesc where
  op : Nat
  fn : Nat
  d : FK := .zero
  a : FK := .zero
  b : FK := .zero
  c : CKind := .zero
  tys : List Ty := [.i32]
  rmMax : Nat := 0
  sat : Bool := false
  ftz : Bool := false
  x : Bool := false
  dRead : Bool := false
  uniform : Bool := false
  extra : Bool := true
  deriving DecidableEq, Repr

/-- The form of an M-form word; `fields` says that AC, SC, ORD, SP and FAR are admitted. -/
structure MDesc where
  op : Nat
  mfn : Nat
  d : FK
  dRead : Bool
  dWrite : Bool
  a : FK
  fields : Bool
  deriving DecidableEq, Repr

/-- The form of an E-form word. -/
structure EDesc where
  op : Nat
  efn : Nat
  e1 : FK := .zero
  e2 : FK := .zero
  e3 : FK := .zero
  e4 : FK := .zero
  e1Write : Bool := false
  e1Read : Bool := true
  e3Read : Bool := true
  e4Read : Bool := true
  emod : Bool
  deriving DecidableEq, Repr

/-- The form of an I-form word. -/
structure IDesc where
  op : Nat
  ifn : Nat
  d : FK := .zero
  a : FK := .zero
  immOk : Bool := true
  deriving DecidableEq, Repr

/-- An instruction seen through its form. -/
inductive View where
  | r (d : RDesc) (o : RForm)
  | i (d : IDesc) (o : IForm)
  | m (d : MDesc) (o : MForm)
  | b (op : Nat) (o : BForm)
  | e (d : EDesc) (o : EForm)
  | pair (x y : Slot)
  | rep (o : RepForm)
  | other
  deriving DecidableEq, Repr

/-- Type codes of R144. -/
def Ty.code : Ty → Nat
  | .i32 => 0 | .n32 => 1 | .i64 => 2 | .n64 => 3 | .i16 => 4 | .n16 => 5 | .i8 => 6 | .n8 => 7
  | .f32 => 8 | .bf16 => 9 | .f16 => 10 | .e4m3 => 11 | .e5m2 => 12 | .mx4 => 13

/-- The type a code names, by R144. -/
def Ty.ofCode : Nat → Option Ty
  | 0 => some .i32 | 1 => some .n32 | 2 => some .i64 | 3 => some .n64 | 4 => some .i16
  | 5 => some .n16 | 6 => some .i8 | 7 => some .n8 | 8 => some .f32 | 9 => some .bf16
  | 10 => some .f16 | 11 => some .e4m3 | 12 => some .e5m2 | 13 => some .mx4 | _ => none

/-- The width of a type in bits (R51, R52); an MXFP4 element has 4. -/
def Ty.bits : Ty → Nat
  | .i32 | .n32 | .f32 => 32
  | .i64 | .n64 => 64
  | .i16 | .n16 | .bf16 | .f16 => 16
  | .i8 | .n8 | .e4m3 | .e5m2 => 8
  | .mx4 => 4

/-- Whether a type is a signed integer type. -/
def Ty.signed : Ty → Bool
  | .i32 | .i64 | .i16 | .i8 => true
  | _ => false

/-- Whether a type is a floating-point format. -/
def Ty.isFloat : Ty → Bool
  | .f32 | .bf16 | .f16 | .e4m3 | .e5m2 | .mx4 => true
  | _ => false

/-- Registers of an integer operand: a pair under `.i64` and `.n64` (R157). -/
def Ty.regs (t : Ty) : Nat := if t.bits = 64 then 2 else 1

def Rm.code : Rm → Nat
  | .rn => 0 | .rz => 1 | .ru => 2 | .rd => 3 | .rs => 4

def Rm.ofCode : Nat → Option Rm
  | 0 => some .rn | 1 => some .rz | 2 => some .ru | 3 => some .rd | 4 => some .rs | _ => none

def Ck.code : Ck → Nat
  | .lane => 0 | .uni => 1 | .imm => 2

def Ck.ofCode : Nat → Option Ck
  | 0 => some .lane | 1 => some .uni | 2 => some .imm | _ => none

def Scope.code : Scope → Nat
  | .g => 0 | .t => 1 | .d => 2 | .f => 3 | .h => 4

def Scope.ofCode : Nat → Option Scope
  | 0 => some .g | 1 => some .t | 2 => some .d | 3 => some .f | 4 => some .h | _ => none

def MOrd.code : MOrd → Nat
  | .relaxed => 0 | .acq => 1 | .rel => 2 | .ar => 3

def MOrd.ofCode : Nat → MOrd
  | 1 => .acq | 2 => .rel | 3 => .ar | _ => .relaxed

def EClass.code : EClass → Nat
  | .K => 0 | .M => 1 | .A => 2 | .F => 3 | .B => 4 | .W => 5

def EClass.ofCode : Nat → Option EClass
  | 0 => some .K | 1 => some .M | 2 => some .A | 3 => some .F | 4 => some .B | 5 => some .W
  | _ => none

def ICmp.code : ICmp → Nat
  | .eq => 0 | .ne => 1 | .lt => 2 | .le => 3 | .gt => 4 | .ge => 5

def ICmp.ofCode : Nat → Option ICmp
  | 0 => some .eq | 1 => some .ne | 2 => some .lt | 3 => some .le | 4 => some .gt | 5 => some .ge
  | _ => none

def FCmp.code : FCmp → Nat
  | .eq => 0 | .ne => 1 | .lt => 2 | .le => 3 | .gt => 4 | .ge => 5 | .un => 6 | .ord => 7

def FCmp.ofCode : Nat → Option FCmp
  | 0 => some .eq | 1 => some .ne | 2 => some .lt | 3 => some .le | 4 => some .gt | 5 => some .ge
  | 6 => some .un | 7 => some .ord | _ => none

def ShflMode.code : ShflMode → Nat
  | .lane => 0 | .below => 1 | .above => 2 | .flip => 3

def ShflMode.ofCode : Nat → Option ShflMode
  | 0 => some .lane | 1 => some .below | 2 => some .above | 3 => some .flip | _ => none

def ScanOp.code : ScanOp → Nat
  | .add => 0 | .min => 1 | .max => 2 | .and => 3 | .or => 4 | .xor => 5

def ScanOp.ofCode : Nat → Option ScanOp
  | 0 => some .add | 1 => some .min | 2 => some .max | 3 => some .and | 4 => some .or
  | 5 => some .xor | _ => none

def SeedFn.code : SeedFn → Nat
  | .rcp => 0 | .rsq => 1 | .lg2 => 2 | .ex2 => 3

def SeedFn.ofCode : Nat → Option SeedFn
  | 0 => some .rcp | 1 => some .rsq | 2 => some .lg2 | 3 => some .ex2 | _ => none

def AtomOp.code : AtomOp → Nat
  | .add => 0 | .min => 1 | .max => 2 | .and => 3 | .or => 4 | .xor => 5 | .exch => 6

def AtomOp.ofCode : Nat → Option AtomOp
  | 0 => some .add | 1 => some .min | 2 => some .max | 3 => some .and | 4 => some .or
  | 5 => some .xor | 6 => some .exch | _ => none

/-- Pair opcodes of R153. -/
def PairOp.code : PairOp → Nat
  | .add => 0x01 | .sub => 0x02 | .addI => 0x03 | .and => 0x04 | .or => 0x05 | .xor => 0x06
  | .andI => 0x07 | .orI => 0x08 | .xorI => 0x09 | .shl => 0x0A | .shr => 0x0B | .sar => 0x0C
  | .mov => 0x0D | .movI => 0x0E | .minI32 => 0x0F | .maxI32 => 0x10 | .minN32 => 0x11
  | .maxN32 => 0x12 | .leaS => 0x13 | .faddF32 => 0x20 | .fsubF32 => 0x21 | .fmulF32 => 0x22
  | .ffmaF32 => 0x23 | .fminF32 => 0x24 | .fmaxF32 => 0x25 | .paddBf16 => 0x26 | .pmulBf16 => 0x27
  | .pfmaBf16 => 0x28 | .paddF16 => 0x29 | .pmulF16 => 0x2A | .pfmaF16 => 0x2B

def PairOp.ofCode : Nat → Option PairOp
  | 0x01 => some .add | 0x02 => some .sub | 0x03 => some .addI | 0x04 => some .and
  | 0x05 => some .or | 0x06 => some .xor | 0x07 => some .andI | 0x08 => some .orI
  | 0x09 => some .xorI | 0x0A => some .shl | 0x0B => some .shr | 0x0C => some .sar
  | 0x0D => some .mov | 0x0E => some .movI | 0x0F => some .minI32 | 0x10 => some .maxI32
  | 0x11 => some .minN32 | 0x12 => some .maxN32 | 0x13 => some .leaS | 0x20 => some .faddF32
  | 0x21 => some .fsubF32 | 0x22 => some .fmulF32 | 0x23 => some .ffmaF32 | 0x24 => some .fminF32
  | 0x25 => some .fmaxF32 | 0x26 => some .paddBf16 | 0x27 => some .pmulBf16
  | 0x28 => some .pfmaBf16 | 0x29 => some .paddF16 | 0x2A => some .pmulF16
  | 0x2B => some .pfmaF16 | _ => none

/-- The kinds of pair slot of R153. -/
inductive PairKind where
  | RR | RI | RS | MV | MI | FR | FA
  deriving DecidableEq, Repr

def PairOp.kind : PairOp → PairKind
  | .add | .sub | .and | .or | .xor | .minI32 | .maxI32 | .minN32 | .maxN32 | .leaS => .RR
  | .addI | .andI | .orI | .xorI => .RI
  | .shl | .shr | .sar => .RS
  | .mov => .MV
  | .movI => .MI
  | .faddF32 | .fsubF32 | .fmulF32 | .fminF32 | .fmaxF32 | .paddBf16 | .pmulBf16
  | .paddF16 | .pmulF16 => .FR
  | .ffmaF32 | .pfmaBf16 | .pfmaF16 => .FA

/-- Whether a slot runs on an FMA pipe (R153). -/
def PairOp.isFma (p : PairOp) : Bool := p.kind = .FR || p.kind = .FA

/-- Field PB of a slot, in PI[12:7]. -/
def Slot.pb (s : Slot) : Nat := natBits s.pi.toNat 12 7

/-- The registers a slot reads (R152). -/
def Slot.reads (s : Slot) : List Nat :=
  match s.pop.kind with
  | .RR | .FR => [s.pa.toNat, s.pb]
  | .RI | .RS | .MV => [s.pa.toNat]
  | .MI => []
  | .FA => [s.pa.toNat, s.pb, s.pd.toNat]

/-- A slot's fields are legal for its kind (R153). -/
def Slot.ok (s : Slot) : Bool :=
  let lo := natBits s.pi.toNat 6 0
  match s.pop.kind with
  | .RR => match s.pop with
    | .add | .sub => natBits lo 5 0 = 0
    | .leaS => natBits lo 4 0 = 0
    | _ => lo = 0
  | .RI => true
  | .RS => natBits s.pi.toNat 12 5 = 0
  | .MV => s.pi = 0
  | .MI => s.pa = 0
  | .FR => natBits lo 2 0 = 0 && (match s.pop with
    | .fminF32 | .fmaxF32 => natBits lo 6 4 = 0
    | _ => natBits lo 6 4 ≤ 3)
  | .FA => natBits lo 2 0 = 0 && natBits lo 6 4 ≤ 3

/-- The legality of a pair word (R152). -/
def pairOk (x y : Slot) : Bool :=
  x.ok && y.ok
  && x.reads.all (fun m => y.reads.all (fun n => m % 4 ≠ n % 4))
  && x.pd ≠ y.pd
  && !(y.reads.contains x.pd.toNat)

def Guard.ok (g : Guard) : Bool := !(g.pg = 0 && g.ps)

/-- A field value is in the legal set of its kind (R142); `u` is UA or UB. -/
def FK.legal (k : FK) (u : Bool) (f : Nat) : Bool :=
  match k with
  | .zero => f = 0 && !u
  | .lane w => f % w = 0 && !u
  | .reg w => f % w = 0 && (!u || f < 64)
  | .uni w => f % w = 0 && f < 64 && !u
  | .pred => f < 8 && !u
  | .opTile => f < 16 && !u
  | .accTile => f < 8 && !u
  | .number => !u

/-- As `legal`, for a field whose register kind is fixed to uniform by UA or UB = 1 (R332, R334). -/
def FK.legalFixed (k : FK) (u : Bool) (f : Nat) : Bool :=
  match k with
  | .uni w => f % w = 0 && f < 64 && u
  | _ => k.legal u f

/-- The registers a field names. -/
def FK.names (k : FK) (u : Bool) (f : Nat) : List RegName :=
  match k with
  | .zero | .number => []
  | .lane w => (List.range w).map fun i => .v (f + i)
  | .reg w => (List.range w).map fun i => if u then .s (f + i) else .v (f + i)
  | .uni w => (List.range w).map fun i => .s (f + i)
  | .pred => if f = 0 then [] else [.p f]
  | .opTile => [.t f]
  | .accTile => [.a f]

/-- Whether the field is a register field (R154). -/
def FK.isReg : FK → Bool
  | .zero | .number => false
  | _ => true

/-- Integer types of a full-width operation (R157). -/
def tysInt : List Ty := [.i32, .n32, .i64, .n64]
def tysW : List Ty := [.i32, .n32]
def tysF : List Ty := [.f32, .f16]
def tysP : List Ty := [.bf16, .f16]

/-- The lane form of the integer operations of R157 and R181. -/
def intDesc (op : IntOp) (o : RForm) : RDesc :=
  let w := o.ty.regs
  match op with
  | .add => { op := 0x10, fn := 0, d := .lane w, a := .reg w, b := .reg w, c := .alt, tys := tysInt, sat := true }
  | .sub => { op := 0x10, fn := 1, d := .lane w, a := .reg w, b := .reg w, c := .alt, tys := tysInt, sat := true }
  | .neg => { op := 0x10, fn := 4, d := .lane w, a := .reg w, tys := tysInt, sat := true }
  | .abs => { op := 0x10, fn := 5, d := .lane w, a := .reg w, tys := [.i32, .i64], sat := true }
  | .mul => { op := 0x12, fn := 0, d := .lane w, a := .reg w, b := .reg w, c := .alt, tys := tysInt, sat := true }
  | .mulHi => { op := 0x12, fn := 1, d := .lane 1, a := .reg 1, b := .reg 1, c := .alt, tys := tysW }
  | .mulWide => { op := 0x12, fn := 2, d := .lane 2, a := .reg 1, b := .reg 1, c := .alt, tys := tysW }
  | .mad => { op := 0x12, fn := 3, d := .lane w, a := .reg w, b := .reg w, c := .reg w, tys := tysInt, sat := true }
  | .madHi => { op := 0x12, fn := 4, d := .lane 1, a := .reg 1, b := .reg 1, c := .reg 1, tys := tysW }
  | .madWide => { op := 0x12, fn := 5, d := .lane 2, a := .reg 1, b := .reg 1, c := .reg 2, tys := tysW }
  | .min => { op := 0x13, fn := 0, d := .lane w, a := .reg w, b := .reg w, c := .alt, tys := tysInt }
  | .max => { op := 0x13, fn := 1, d := .lane w, a := .reg w, b := .reg w, c := .alt, tys := tysInt }
  | .and => { op := 0x14, fn := 0, d := .lane w, a := .reg w, b := .reg w, c := .alt, tys := tysInt }
  | .or => { op := 0x14, fn := 1, d := .lane w, a := .reg w, b := .reg w, c := .alt, tys := tysInt }
  | .xor => { op := 0x14, fn := 2, d := .lane w, a := .reg w, b := .reg w, c := .alt, tys := tysInt }
  | .not => { op := 0x14, fn := 3, d := .lane w, a := .reg w, tys := tysInt }
  | .andn => { op := 0x14, fn := 4, d := .lane w, a := .reg w, b := .reg w, c := .alt, tys := tysInt }
  | .orn => { op := 0x14, fn := 5, d := .lane w, a := .reg w, b := .reg w, c := .alt, tys := tysInt }
  | .xnor => { op := 0x14, fn := 6, d := .lane w, a := .reg w, b := .reg w, c := .alt, tys := tysInt }
  | .shl => { op := 0x15, fn := 0, d := .lane w, a := .reg w, b := .reg w, c := .alt, tys := tysInt }
  | .shr => { op := 0x15, fn := 1, d := .lane w, a := .reg w, b := .reg w, c := .alt, tys := tysInt }
  | .sar => { op := 0x15, fn := 2, d := .lane w, a := .reg w, b := .reg w, c := .alt, tys := tysInt }
  | .rol => { op := 0x15, fn := 3, d := .lane w, a := .reg w, b := .reg w, c := .alt, tys := tysInt }
  | .ror => { op := 0x15, fn := 4, d := .lane w, a := .reg w, b := .reg w, c := .alt, tys := tysInt }
  | .bfe => { op := 0x16, fn := 0, d := .lane 1, a := .reg 1, b := .reg 1, tys := tysW }
  | .bfi => { op := 0x16, fn := 1, d := .lane 1, a := .reg 1, b := .reg 1, c := .regOnly 1, tys := tysW }
  | .popc => { op := 0x16, fn := 2, d := .lane 1, a := .reg 1, tys := tysW }
  | .clz => { op := 0x16, fn := 3, d := .lane 1, a := .reg 1, tys := tysW }
  | .brev => { op := 0x16, fn := 4, d := .lane 1, a := .reg 1, tys := tysW }
  | .mov => { op := 0x19, fn := 0, d := .lane 1, a := .reg 1 }
  | .movI64 => { op := 0x19, fn := 1, d := .lane 2, a := .reg 2 }
  | .lea => { op := 0x1A, fn := 0, d := .lane 2, a := .reg 2, b := .reg 1, c := .imm 0 7 }
  | .leaN => { op := 0x1A, fn := 1, d := .lane 2, a := .reg 2, b := .reg 1, c := .imm 0 7 }
  | .leaS => { op := 0x1A, fn := 2, d := .lane 1, a := .reg 1, b := .reg 1, c := .imm 0 7 }

/-- A register kind in the uniform forms of R158. -/
def FK.toUni : FK → FK
  | .lane w | .reg w => .uni w
  | k => k

/-- The uniform form of an integer operation (R158). -/
def uniDesc (op : IntOp) (o : RForm) : RDesc :=
  let d := intDesc op o
  { d with op := d.op + 0x10, d := d.d.toUni, a := d.a.toUni, b := d.b.toUni, uniform := true }

/-- The I-form operations of R193. -/
def immDesc : IntImmOp → IDesc
  | .add => { op := 0x11, ifn := 0, d := .lane 1, a := .lane 1 }
  | .sub => { op := 0x11, ifn := 1, d := .lane 1, a := .lane 1 }
  | .and => { op := 0x11, ifn := 2, d := .lane 1, a := .lane 1 }
  | .or => { op := 0x11, ifn := 3, d := .lane 1, a := .lane 1 }
  | .xor => { op := 0x11, ifn := 4, d := .lane 1, a := .lane 1 }
  | .min => { op := 0x11, ifn := 5, d := .lane 1, a := .lane 1 }
  | .max => { op := 0x11, ifn := 6, d := .lane 1, a := .lane 1 }
  | .mov => { op := 0x11, ifn := 7, d := .lane 1 }
  | .movI64 => { op := 0x11, ifn := 8, d := .lane 2 }

/-- The uniform form of an I-form operation (R158). -/
def uniImmDesc (op : IntImmOp) : IDesc :=
  let d := immDesc op
  { d with op := 0x21, d := d.d.toUni, a := d.a.toUni }

/-- The state numbers of R73 and R326 that name a 64-bit register. -/
def stateWide (n : Nat) : Bool :=
  n = 0x06 || n = 0x07 || n = 0x0D || (0x28 ≤ n && n ≤ 0x2F)
  || n = 0x80 || n = 0x81 || n = 0x82 || n = 0x83

/-- The state numbers of R73 and R326. -/
def stateNumber (n : Nat) : Bool :=
  n ≤ 0x0D || (0x10 ≤ n && n ≤ 0x15) || n = 0x18 || n = 0x19 || (0x20 ≤ n && n ≤ 0x2F)
  || (0x80 ≤ n && n ≤ 0x88)

/-- The control byte of CVT is admitted (R207). -/
def cvtCtlOk (src dst : Ty) (o : RForm) : Bool :=
  let c := o.c.toNat
  let sel := natBits c 1 0
  let ins := natBits c 3 2
  let pk := natBit c 4
  natBits c 7 5 = 0
  && (if src.bits ≥ 32 then sel = 0 else if src.bits = 16 then sel ≤ 1 else true)
  && (if dst.bits ≥ 32 then ins = 0 else if dst.bits = 16 then ins ≤ 1 else true)
  && (if pk then (src = .f32 || src = .i32 || src = .n32) && dst.bits = 16 && sel = 0 && ins = 0
      else o.b = 0 && !o.ub)

def cvtDesc (src : Ty) (o : RForm) : RDesc :=
  let pk := natBit o.c.toNat 4
  { op := 0x46, fn := src.code, d := .lane o.ty.regs, a := .reg src.regs
    b := if pk then .reg 1 else .zero
    c := .imm 0 255
    tys := [.i32, .n32, .i64, .n64, .i16, .n16, .i8, .n8, .f32, .bf16, .f16, .e4m3, .e5m2]
    rmMax := 4, sat := true
    dRead := o.ty.bits < 32 && !pk
    extra := src ≠ .mx4 && cvtCtlOk src o.ty o }

def cvtblkDesc (src : Ty) (o : RForm) : RDesc :=
  let c := o.c.toNat
  { op := 0x4C, fn := src.code, d := .lane 1, a := .reg 1, c := .imm 0 3, tys := [.mx4], rmMax := 4
    extra := src.isFloat && src ≠ .mx4
      && (if src.bits ≥ 32 then c = 0 else if src.bits = 16 then c ≤ 1 else true) }

/-- A comparison or min/max of R201: two floating operands. -/
def fDesc (op fn : Nat) (d : FK) (tys : List Ty) (rmMax : Nat) : RDesc :=
  { op := op, fn := fn, d := d, a := .reg 1, b := .reg 1, c := .alt, tys := tys, rmMax := rmMax, ftz := true }

def pDesc (fn : Nat) (two : Bool) : RDesc :=
  { op := 0x30, fn := fn, d := .pred, a := .pred, b := if two then .pred else .zero }

def sgetDesc (o : RForm) : RDesc :=
  let n := if stateWide o.a.toNat then 2 else 1
  { op := 0x7E, fn := 0, a := .number, x := true
    d := if o.x then .uni n else .lane n
    extra := !(o.x && o.a = 0) }

def sysDesc (fn : Nat) (a b : FK) (c : CKind) : RDesc :=
  { op := 0x7E, fn := fn, a := a, b := b, c := c }

def memRegs (ac : Nat) : Nat := if ac = 5 then 2 else if ac = 6 then 4 else 1

def atomRegs (ac : Nat) : Nat := if ac = 2 || ac = 3 then 2 else 1

/-- The base of an M-form word (R220). -/
def mBase (o : MForm) (global : Bool) : FK :=
  let w := if global then 2 else 1
  if o.ubase then .uni w else .lane w

/-- SC is 0 on a relaxed LD, LDU or ST (R146). -/
def plainScOk (o : MForm) : Bool := o.ord ≠ .relaxed || o.sc = .g

def farOk (o : MForm) : Bool := !(o.far && o.sp)

def zeroMods (o : MForm) : Bool := o.sc = .g && o.ord = .relaxed && !o.sp && !o.far

/-- The operator and type table of R229. -/
def atomTypeOk (op : AtomOp) (ac : Nat) : Bool :=
  match op with
  | .add => ac ≤ 6
  | .min | .max | .exch => ac ≤ 4
  | .and | .or | .xor => ac ≤ 3

def gateDesc (mfn : Nat) (d : FK) (r w : Bool) (o : MForm) : MDesc :=
  { op := 0x63, mfn := mfn, d := d, dRead := r, dWrite := w, a := mBase o false
    fields := o.ac = 4 && zeroMods o }

def lockDesc (mfn : Nat) (o : MForm) : MDesc :=
  { op := 0x64, mfn := mfn, d := .zero, dRead := false, dWrite := false, a := mBase o true
    fields := o.ac = 4 && o.ord = .relaxed && !o.sp && !o.far }

def drainDesc (mfn : Nat) (o : MForm) : MDesc :=
  { op := 0x75, mfn := mfn, d := .accTile, dRead := true, dWrite := false, a := mBase o (!o.sp)
    fields := o.ubase && (o.ac = 0 || o.ac = 4) && o.sc = .g && o.ord = .relaxed && !o.far
      && !(mfn = 2 && o.sp) }

/-- EMOD bit 0 (NOGATE, MX). -/
def EForm.flag (o : EForm) : Bool := o.emod.getLsbD 0

def emodFlag (o : EForm) : Bool := natBits o.emod.toNat 15 1 = 0

/-- The EMOD of REDX (R270). -/
def redxEmodOk (o : EForm) : Bool :=
  let m := o.emod.toNat
  let ty := natBits m 6 3
  let op := natBits m 2 0
  natBits m 15 7 = 0 && op ≤ 2 && (ty = 0 || ty = 1 || ty = 4 || ((ty = 5 || ty = 6) && op = 0))

def imxDesc (efn : Nat) (o : EForm) : EDesc :=
  { op := 0x7C, efn := efn, e1 := .uni 1, e2 := .uni 2, e3 := .uni 1, e4 := .uni 1, emod := o.emod = 0 }

/-- The form of each kernel word; `other` for events, repetitions and dray commands. S2P has UA 0 (log 67). -/
def Instr.view : Instr → View
  | .pairWord x y => .pair x y
  | .rep o => .rep o
  | .bra o => .b 0x01 o
  | .call o => .b 0x02 o
  | .brx o => .r { op := 0x03, fn := 0, a := .reg 2 } o
  | .ret o => .r { op := 0x03, fn := 1, a := .reg 2 } o
  | .exit o => .r { op := 0x04, fn := 0 } o
  | .yield o => .r { op := 0x05, fn := 0 } o
  | .yieldW o => .m { op := 0x06, mfn := 0, d := .lane (memRegs o.ac.toNat), dRead := true, dWrite := true
                      a := mBase o true, fields := (o.ac = 4 || o.ac = 5) && zeroMods o } o
  | .waitc c o => .r { op := 0x07, fn := c.code, c := .imm 0 255 } o
  | .ppoint o => .i { op := 0x08, ifn := 0, immOk := natBits o.imm.toNat 31 24 = 0 } o
  | .rgn o => .r { op := 0x09, fn := 0 } o
  | .rgnEnd o => .r { op := 0x09, fn := 1 } o
  | .brk o => .i { op := 0x0A, ifn := 0 } o
  | .trap o => .i { op := 0x0B, ifn := 0 } o
  | .add o => .r (intDesc .add o) o
  | .sub o => .r (intDesc .sub o) o
  | .addc o => .r { op := 0x10, fn := 2, d := .lane 1, a := .reg 1, b := .reg 1, c := .imm 1 7, tys := tysW } o
  | .subc o => .r { op := 0x10, fn := 3, d := .lane 1, a := .reg 1, b := .reg 1, c := .imm 1 7, tys := tysW } o
  | .neg o => .r (intDesc .neg o) o
  | .abs o => .r (intDesc .abs o) o
  | .addImm o => .i (immDesc .add) o
  | .subImm o => .i (immDesc .sub) o
  | .andImm o => .i (immDesc .and) o
  | .orImm o => .i (immDesc .or) o
  | .xorImm o => .i (immDesc .xor) o
  | .minImm o => .i (immDesc .min) o
  | .maxImm o => .i (immDesc .max) o
  | .movImm o => .i (immDesc .mov) o
  | .movI64Imm o => .i (immDesc .movI64) o
  | .mul o => .r (intDesc .mul o) o
  | .mulHi o => .r (intDesc .mulHi o) o
  | .mulWide o => .r (intDesc .mulWide o) o
  | .mad o => .r (intDesc .mad o) o
  | .madHi o => .r (intDesc .madHi o) o
  | .madWide o => .r (intDesc .madWide o) o
  | .min o => .r (intDesc .min o) o
  | .max o => .r (intDesc .max o) o
  | .and o => .r (intDesc .and o) o
  | .or o => .r (intDesc .or o) o
  | .xor o => .r (intDesc .xor o) o
  | .not o => .r (intDesc .not o) o
  | .andn o => .r (intDesc .andn o) o
  | .orn o => .r (intDesc .orn o) o
  | .xnor o => .r (intDesc .xnor o) o
  | .shl o => .r (intDesc .shl o) o
  | .shr o => .r (intDesc .shr o) o
  | .sar o => .r (intDesc .sar o) o
  | .rol o => .r (intDesc .rol o) o
  | .ror o => .r (intDesc .ror o) o
  | .bfe o => .r (intDesc .bfe o) o
  | .bfi o => .r (intDesc .bfi o) o
  | .popc o => .r (intDesc .popc o) o
  | .clz o => .r (intDesc .clz o) o
  | .brev o => .r (intDesc .brev o) o
  | .icmpp k o => .r { op := 0x17, fn := k.code, d := .pred, a := .reg o.ty.regs, b := .reg o.ty.regs
                       c := .alt, tys := tysInt } o
  | .sel o => .r { op := 0x18, fn := 0, d := .lane 1, a := .reg 1, b := .reg 1, c := .imm 0 15, tys := tysW } o
  | .mov o => .r (intDesc .mov o) o
  | .movI64 o => .r (intDesc .movI64 o) o
  | .lea o => .r (intDesc .lea o) o
  | .leaN o => .r (intDesc .leaN o) o
  | .leaS o => .r (intDesc .leaS o) o
  | .dot4 o => .r { op := 0x1B, fn := 0, d := .lane 1, a := .reg 1, b := .reg 1, c := .reg 1
                    tys := [.i8, .n8], sat := true, x := true, extra := !(o.x && o.ty = .n8) } o
  | .uniformForm (.r op o) => .r (uniDesc op o) o
  | .uniformForm (.i op o) => .i (uniImmDesc op) o
  | .pand o => .r (pDesc 0 true) o
  | .por o => .r (pDesc 1 true) o
  | .pxor o => .r (pDesc 2 true) o
  | .pandn o => .r (pDesc 3 true) o
  | .porn o => .r (pDesc 4 true) o
  | .pnot o => .r (pDesc 5 false) o
  | .pmov o => .r (pDesc 6 false) o
  | .p2s o => .r { op := 0x31, fn := 0, d := .uni 1, a := .pred } o
  | .s2p o => .r { op := 0x31, fn := 1, d := .pred, a := .uni 1 } o
  | .shfl k o => .r { op := 0x32, fn := k.code, d := .lane o.ty.regs, a := .reg o.ty.regs, b := .reg 1
                      c := .alt, tys := [.i32, .i64] } o
  | .voteOr o => .r { op := 0x33, fn := 0, d := .pred, a := .pred } o
  | .voteAnd o => .r { op := 0x33, fn := 1, d := .pred, a := .pred } o
  | .voteMask o => .r { op := 0x33, fn := 2, d := .uni 1, a := .pred } o
  | .matchPeers o => .r { op := 0x34, fn := 0, d := .lane 1, a := .reg o.ty.regs, tys := [.i32, .i64] } o
  | .matchSame o => .r { op := 0x34, fn := 1, d := .lane 1, a := .reg o.ty.regs, tys := [.i32, .i64] } o
  | .scan k o => .r { op := 0x35, fn := k.code, d := .lane 1, a := .reg 1, c := .imm 0 7, x := true
                      tys := if k.code ≤ 2 then [.i32, .n32, .f32] else [.i32, .n32] } o
  | .fadd o => .r (fDesc 0x40 0 (.lane 1) tysF 3) o
  | .fsub o => .r (fDesc 0x40 1 (.lane 1) tysF 3) o
  | .fmul o => .r (fDesc 0x41 0 (.lane 1) tysF 3) o
  | .ffma o => .r { fDesc 0x42 0 (.lane 1) tysF 3 with c := .reg 1 } o
  | .ffms o => .r { fDesc 0x42 1 (.lane 1) tysF 3 with c := .reg 1 } o
  | .ffnma o => .r { fDesc 0x42 2 (.lane 1) tysF 3 with c := .reg 1 } o
  | .fmin o => .r (fDesc 0x43 0 (.lane 1) tysF 0) o
  | .fmax o => .r (fDesc 0x43 1 (.lane 1) tysF 0) o
  | .fcmpp k o => .r (fDesc 0x44 k.code .pred tysF 0) o
  | .fclass o => .r { op := 0x45, fn := 0, d := .lane 1, a := .reg 1, tys := [.f32, .f16, .bf16] } o
  | .cvt src o => .r (cvtDesc src o) o
  | .padd o => .r (fDesc 0x47 0 (.lane 1) tysP 3) o
  | .pmul o => .r (fDesc 0x47 1 (.lane 1) tysP 3) o
  | .pfma o => .r { fDesc 0x47 2 (.lane 1) tysP 3 with c := .reg 1 } o
  | .pmin o => .r (fDesc 0x47 3 (.lane 1) tysP 0) o
  | .pmax o => .r (fDesc 0x47 4 (.lane 1) tysP 0) o
  | .fseed k o => .r { op := 0x48, fn := k.code, d := .lane 1, a := .reg 1, tys := [.f32] } o
  | .frred o => .r { op := 0x49, fn := 0, d := .lane 2, a := .reg 1, tys := [.f32], rmMax := 3 } o
  | .fscale o => .r { fDesc 0x4A 0 (.lane 1) tysF 3 with ftz := false } o
  | .fexp o => .r { op := 0x4B, fn := 0, d := .lane 1, a := .reg 1, tys := tysF } o
  | .fmant o => .r { op := 0x4B, fn := 1, d := .lane 1, a := .reg 1, tys := tysF } o
  | .cvtblk src o => .r (cvtblkDesc src o) o
  | .ld o => .m { op := 0x50, mfn := 0, d := .lane (memRegs o.ac.toNat), dRead := false, dWrite := true
                  a := mBase o (!o.sp)
                  fields := o.ac.toNat ≤ 6 && (o.ord = .relaxed || o.ord = .acq) && plainScOk o && farOk o } o
  | .st o => .m { op := 0x51, mfn := 0, d := .lane (memRegs o.ac.toNat), dRead := true, dWrite := false
                  a := mBase o (!o.sp)
                  fields := o.ac.toNat ≤ 6 && (o.ord = .relaxed || o.ord = .rel) && plainScOk o && farOk o } o
  | .ldu o => .m { op := 0x52, mfn := 0, d := .uni (memRegs o.ac.toNat), dRead := false, dWrite := true
                   a := mBase o true
                   fields := o.ubase && o.ac.toNat ≤ 5 && (o.ord = .relaxed || o.ord = .acq) && plainScOk o
                     && !o.sp && !o.far } o
  | .prefetchL1 o => .m { op := 0x53, mfn := 0, d := .zero, dRead := false, dWrite := false
                          a := mBase o true, fields := o.ac = 0 && zeroMods o } o
  | .prefetchDep o => .m { op := 0x53, mfn := 1, d := .zero, dRead := false, dWrite := false
                           a := mBase o true, fields := o.ac = 0 && zeroMods o } o
  | .atom k o => .m { op := 0x60, mfn := k.code, d := .lane (atomRegs o.ac.toNat), dRead := true, dWrite := true
                      a := mBase o (!o.sp), fields := atomTypeOk k o.ac.toNat && farOk o } o
  | .red k o => .m { op := 0x61, mfn := k.code, d := .lane (atomRegs o.ac.toNat), dRead := true, dWrite := false
                     a := mBase o (!o.sp)
                     fields := k ≠ .exch && atomTypeOk k o.ac.toNat && farOk o
                       && (o.ord = .relaxed || o.ord = .rel) } o
  | .cas o => .m { op := 0x62, mfn := 0, d := .lane (2 * atomRegs o.ac.toNat), dRead := true, dWrite := true
                   a := mBase o (!o.sp), fields := o.ac.toNat ≤ 3 && farOk o } o
  | .gateInit o => .m (gateDesc 0 (.lane 1) true false o) o
  | .gateExpect o => .m (gateDesc 1 (.lane 1) true false o) o
  | .gateArrive o => .m (gateDesc 2 (.lane 1) true false o) o
  | .gatePeek o => .m (gateDesc 3 (.lane 2) false true o) o
  | .gateWait o => .m (gateDesc 4 (.lane 1) true false o) o
  | .gateWaitLim o => .m (gateDesc 5 (.lane 2) true true o) o
  | .lock o => .m (lockDesc 0 o) o
  | .unlock o => .m (lockDesc 1 o) o
  | .barrier o => .r { op := 0x65, fn := 0 } o
  | .acqBlk o => .r { op := 0x66, fn := 0, c := .imm 1 16 } o
  | .acqOpt o => .r { op := 0x66, fn := 1, c := .imm 1 16 } o
  | .acqAcc o => .r { op := 0x66, fn := 2, c := .imm 1 16 } o
  | .relBlk o => .r { op := 0x66, fn := 3, c := .imm 1 16 } o
  | .relOpt o => .r { op := 0x66, fn := 4, c := .imm 1 16 } o
  | .relAcc o => .r { op := 0x66, fn := 5, c := .imm 1 16 } o
  | .clean o => .r { op := 0x68, fn := 0, a := .reg 2, b := .reg 1 } o
  | .inval o => .r { op := 0x69, fn := 0, a := .reg 2, b := .reg 1 } o
  | .fenceAcq o => .r { op := 0x6A, fn := 1, c := .imm 0 4 } o
  | .fenceRel o => .r { op := 0x6A, fn := 2, c := .imm 0 4 } o
  | .fenceAr o => .r { op := 0x6A, fn := 3, c := .imm 0 4 } o
  | .fenceSc o => .r { op := 0x6A, fn := 4, c := .imm 0 4 } o
  | .mswitchBank o => .r { op := 0x6B, fn := 0, a := .reg 2, b := .reg 1 } o
  | .mswitchCtl o => .r { op := 0x6B, fn := 1, a := .reg 2, b := .reg 1 } o
  | .tld o => .m { op := 0x70, mfn := 0, d := .opTile, dRead := false, dWrite := true, a := mBase o false
                   fields := 1 ≤ o.ac.toNat && o.ac.toNat ≤ 6 && zeroMods o && !(o.ac = 5 && !o.ubase) } o
  | .tst o => .m { op := 0x70, mfn := 1, d := .opTile, dRead := true, dWrite := false, a := mBase o false
                   fields := o.ac = 0 && zeroMods o } o
  | .tzero o => .r { op := 0x71, fn := 0, d := .accTile } o
  | .mma o => .r { op := 0x72, fn := 0, d := .accTile, a := .opTile, b := .opTile, dRead := true } o
  | .mmag o => .r { op := 0x73, fn := 0, d := .accTile, a := .lane 1, b := .opTile, dRead := true
                    tys := [.bf16, .f16, .e4m3, .e5m2, .i8] } o
  | .tmask o => .m { op := 0x74, mfn := 0, d := .zero, dRead := false, dWrite := false, a := mBase o false
                     fields := o.ubase && o.ac = 0 && zeroMods o } o
  | .tdrain o => .m (drainDesc 0 o) o
  | .tdrainAdd o => .m (drainDesc 1 o) o
  | .tdrainAddSplit o => .m (drainDesc 2 o) o
  | .tcvt o => .r { op := 0x76, fn := 0, d := .opTile, a := .accTile, dRead := true, rmMax := 3, sat := true
                    c := .imm 0 (if o.ty = .mx4 then 3 else if o.ty.bits = 8 then 1 else 0)
                    tys := [.bf16, .f16, .e4m3, .e5m2, .mx4] } o
  | .cpyIn o => .e { op := 0x78, efn := 0, e1 := .uni 1, e2 := .uni 2, e3 := .uni 1, e4 := .uni 2
                     e3Read := !o.flag, emod := emodFlag o } o
  | .cpyOut o => .e { op := 0x78, efn := 1, e1 := .uni 1, e2 := .uni 2, e3 := .uni 1, e4 := .uni 2
                      e3Read := !o.flag, emod := emodFlag o } o
  | .tdesc o => .e { op := 0x79, efn := 0, e1 := .uni 1, e2 := .uni 1, e3 := .uni 1
                     e1Write := true, e1Read := false, emod := o.emod = 0 } o
  | .tdescAlias o => .e { op := 0x79, efn := 1, e1 := .uni 1, e2 := .uni 1, e3 := .uni 1
                          e1Write := true, e1Read := false, emod := o.emod = 0 } o
  | .mrs o => .e { op := 0x79, efn := 2, e1 := .uni 1, e2 := .uni 2, e3 := if o.flag then .uni 1 else .zero
                   e4 := .uni 2, emod := emodFlag o } o
  | .rst o => .e { op := 0x7A, efn := 0, e1 := .uni 1, e2 := .uni 2, e3 := .uni 2, e4 := .uni 1
                   emod := o.emod = 0 } o
  | .wbl o => .e { op := 0x7A, efn := 1, e1 := .uni 1, e2 := .uni 1, e3 := .uni 1, e4 := .uni 2
                   e3Read := !o.flag, emod := emodFlag o } o
  | .wblAcq o => .e { op := 0x7A, efn := 2, e1 := .uni 1, e2 := .uni 1, e3 := .uni 1, e4 := .uni 2
                      e3Read := !o.flag, emod := emodFlag o } o
  | .redx o => .e { op := 0x7B, efn := 0, e1 := .uni 1, e2 := .uni 2, e3 := .uni 1, emod := redxEmodOk o } o
  | .imxLoad o => .e (imxDesc 0 o) o
  | .imxVec o => .e (imxDesc 1 o) o
  | .imxRun o => .e (imxDesc 2 o) o
  | .imxBcast o => .e (imxDesc 3 o) o
  | .imxCollect o => .e { imxDesc 4 o with e4Read := !o.flag, emod := emodFlag o } o
  | .imxStat o => .e { imxDesc 5 o with e1 := .uni 2, e1Write := true, e1Read := false } o
  | .grid o => .e { op := 0x7D, efn := 0, e1 := .uni 2, e2 := .uni 2, e1Write := true, e1Read := false
                    emod := o.emod = 0 } o
  | .sget o => .r (sgetDesc o) o
  | .sput o => .r { op := 0x7E, fn := 1, a := .number, b := .reg 1 } o
  | .eret o => .r (sysDesc 2 .zero .zero .zero) o
  | .faultackRetry o | .faultackSkip o | .faultackRegion o | .faultackKill o | .faultackHold o =>
    .r (sysDesc 3 (.uni 2) (.uni 1) .zero) o
  | .dbgstep o => .r (sysDesc 4 (.uni 2) .zero .zero) o
  | .preempt o => .r (sysDesc 32 (.uni 1) .zero .zero) o
  | .kill o => .r (sysDesc 33 (.uni 1) .zero .zero) o
  | .resume o => .r (sysDesc 34 (.uni 2) .zero .zero) o
  | .tlbinv o => .r (sysDesc 35 (.uni 2) (.uni 1) .uniOnly) o
  | _ => .other

/-- The word is one whose operands A and B are uniform by UA = UB = 1 (R332, R334, R342). -/
def RDesc.sysFixed (d : RDesc) : Bool := d.op = 0x7E && 3 ≤ d.fn

/-- The legality of an R-form word: R142, R143, R156 and the acceptance tables R181 and R201. -/
def RDesc.ok (d : RDesc) (o : RForm) : Bool :=
  let fld := fun (k : FK) (u : Bool) (f : Nat) => if d.sysFixed then k.legalFixed u f else k.legal u f
  o.g.ok && d.extra
  && d.tys.contains o.ty && decide (o.rm.code ≤ d.rmMax)
  && (d.sat || !o.sat) && (d.ftz || !o.ftz) && (d.x || !o.x)
  && d.d.legal false o.d.toNat && fld d.a o.ua o.a.toNat
  && (match d.c with
      | .alt => (match o.ck with
        | .lane => o.c = 0 && fld d.b o.ub o.b.toNat
        | .uni => false
        | .imm => o.b = 0 && !o.ub)
      | _ => fld d.b o.ub o.b.toNat)
  && (match d.c with
      | .zero => o.ck = .lane && o.c = 0
      | .alt => true
      | .reg w => (match o.ck with
        | .lane => decide (o.c.toNat % w = 0) && (!d.uniform || decide (o.c.toNat < 64))
        | .uni => !d.uniform && decide (o.c.toNat % w = 0) && decide (o.c.toNat < 64)
        | .imm => true)
      | .regOnly w => (match o.ck with
        | .lane => decide (o.c.toNat % w = 0) && (!d.uniform || decide (o.c.toNat < 64))
        | .uni => !d.uniform && decide (o.c.toNat % w = 0) && decide (o.c.toNat < 64)
        | .imm => false)
      | .uniOnly => o.ck = .uni && decide (o.c.toNat < 64)
      | .imm lo hi => o.ck = .imm && decide (lo ≤ o.c.toNat) && decide (o.c.toNat ≤ hi))

def IDesc.ok (d : IDesc) (o : IForm) : Bool :=
  o.g.ok && d.immOk && d.d.legal false o.d.toNat && d.a.legal false o.a.toNat

def MDesc.ok (d : MDesc) (o : MForm) : Bool :=
  o.g.ok && d.fields && d.d.legal false o.d.toNat && d.a.legal false o.a.toNat

def EDesc.ok (d : EDesc) (o : EForm) : Bool :=
  o.g.ok && d.emod && d.e1.legal false o.e1.toNat && d.e2.legal false o.e2.toNat
  && d.e3.legal false o.e3.toNat && d.e4.legal false o.e4.toNat

/-- BRA has L = 0, CALL an even L (R148, R172). -/
def bOk (op : Nat) (o : BForm) : Bool :=
  o.g.ok && (if op = 1 then o.l = 0 else decide (o.l.toNat % 2 = 0))

/-- A kernel word is legal on its own (R156). -/
def View.ok : View → Bool
  | .r d o => d.ok o
  | .i d o => d.ok o
  | .m d o => d.ok o
  | .b op o => bOk op o
  | .e d o => d.ok o
  | .pair x y => pairOk x y
  | .rep _ => true
  | .other => false

/-- The registers that field C names. -/
def RDesc.cNames (d : RDesc) (o : RForm) : List RegName :=
  let names := fun w => match o.ck with
    | .lane => (List.range w).map fun i => if d.uniform then RegName.s (o.c.toNat + i) else .v (o.c.toNat + i)
    | .uni => (List.range w).map fun i => RegName.s (o.c.toNat + i)
    | .imm => []
  match d.c with
  | .reg w | .regOnly w => names w
  | .uniOnly => [.s o.c.toNat]
  | _ => []

/-- A predicate that a word reads through an immediate C (R183, R191, R219); p0 is constant. -/
def predC : Instr → Option Nat
  | .addc o | .subc o => some o.c.toNat
  | .sel o => some (o.c.toNat % 8)
  | .scan _ o => some o.c.toNat
  | _ => none

def Guard.names (g : Guard) : List RegName := if g.pg = 0 then [] else [.p g.pg.toNat]

/-- The guard of a full-format word; pair words and the prefix have none (R150). -/
def View.guard : View → Option Guard
  | .r _ o => some o.g
  | .i _ o => some o.g
  | .m _ o => some o.g
  | .b _ o => some o.g
  | .e _ o => some o.g
  | _ => none

/-- The registers a word reads, its guard apart. -/
def View.reads : View → List RegName
  | .r d o =>
    d.a.names o.ua o.a.toNat
    ++ (if d.c = .alt && o.ck = .imm then [] else d.b.names o.ub o.b.toNat)
    ++ d.cNames o ++ (if d.dRead then d.d.names false o.d.toNat else [])
  | .i d o => d.a.names false o.a.toNat
  | .m d o => d.a.names false o.a.toNat ++ (if d.dRead then d.d.names false o.d.toNat else [])
  | .b _ _ => []
  | .e d o =>
    (if d.e1Read then d.e1.names false o.e1.toNat else []) ++ d.e2.names false o.e2.toNat
    ++ (if d.e3Read then d.e3.names false o.e3.toNat else [])
    ++ (if d.e4Read then d.e4.names false o.e4.toNat else [])
  | .pair x y => (x.reads ++ y.reads).map .v
  | .rep _ | .other => []

/-- The registers a word writes. -/
def View.writes : View → List RegName
  | .r d o => d.d.names false o.d.toNat
  | .i d o => d.d.names false o.d.toNat
  | .m d o => if d.dWrite then d.d.names false o.d.toNat else []
  | .b op o => if op = 2 then [.v o.l.toNat, .v (o.l.toNat + 1)] else []
  | .e d o => if d.e1Write then d.e1.names false o.e1.toNat else []
  | .pair x y => [.v x.pd.toNat, .v y.pd.toNat]
  | .rep _ | .other => []

/-- The registers an instruction reads, with its guard, the predicate its C names and SGET's state register (R26). -/
def Instr.reads (i : Instr) : List RegName :=
  i.view.reads ++ ((i.view.guard.map Guard.names).getD [])
  ++ (match predC i with
      | some n => if n = 0 then [] else [.p n]
      | none => [])
  ++ (match i with
      | .sget o => [.x o.a.toNat]
      | _ => [])

/-- The registers an instruction writes, with the carry predicate of ADDC and SUBC (R183) and SPUT's state register. -/
def Instr.writes (i : Instr) : List RegName :=
  i.view.writes ++ (match i with
    | .addc o | .subc o => [.p o.c.toNat]
    | .sput o => [.x o.a.toNat]
    | _ => [])

/-- The step codes of R154 as integers. -/
def stepValue (c : BitVec 2) : Int :=
  match c.toNat with
  | 0 => 0 | 1 => 1 | 2 => 2 | _ => -1

/-- The count of a prefix (R154). -/
def RepForm.count (o : RepForm) : Nat := if o.cnt = 0 then 64 else o.cnt.toNat

/-- Fields D, A, B, C of a word are register fields (R154). -/
def View.stepFields : View → Bool × Bool × Bool × Bool
  | .r d o =>
    (d.d.isReg, d.a.isReg, d.b.isReg && !(d.c = .alt && o.ck = .imm),
     (match d.c with
      | .reg _ | .regOnly _ | .uniOnly => o.ck ≠ .imm
      | _ => false))
  | .i d _ => (d.d.isReg, d.a.isReg, false, false)
  | .m d _ => (d.d.isReg, d.a.isReg, false, false)
  | .e d _ => (d.e1.isReg, d.e2.isReg, d.e3.isReg, d.e4.isReg)
  | _ => (false, false, false, false)

/-- The next word uses every field that the prefix steps as a register field (R154). -/
def stepsAllowed (o : RepForm) (v : View) : Bool :=
  let (d, a, b, c) := v.stepFields
  (o.sd = 0 || d) && (o.sa = 0 || a) && (o.sb = 0 || b) && (o.sc = 0 || c)

end Sys2Proof
end

