-- ==== Sys2Proof/WellFormed.lean ====
section
/-! DEFINITION. Which instructions are well formed: a kernel word as R142 to R161 admit it, a dray
command as R288 lays it out, an event whose agent exists (R2, R11, R12). -/

namespace Sys2Proof

def LineId.ok (l : LineId) : Bool := decide (l.stack < 16) && decide (l.ext < 256)

def RowId.ok (r : RowId) : Bool :=
  decide (r.stack < 16) && decide (r.pch < 64) && decide (r.bg < 16) && decide (r.bank < 4)
    && decide (r.row < 8192)

def DrayId.ok (d : DrayId) : Bool := decide (d.stack < 16) && decide (d.pch < 64) && decide (d.bg < 16)

/-- The fields of a dray command that R288 marks 0 under a condition. -/
def drayWf : Instr → Bool
  | .dlset _ a n => !(a && n ≠ 0)
  | .dstore t h => t || !h
  | _ => true

/-- The agent an event names exists. -/
def eventWf : Instr → Bool
  | .sideIssueCycle s => decide (s < 1024)
  | .icacheFill c _ _ => decide (c < 256)
  | .coreEligibilitySample c _ _ => decide (c < 256)
  | .heldWriteApply l | .depotFill l | .lineMaintenance _ l | .backInvalidateAnswer l => l.ok
  | .holdQueueRelease r | .rowsControllerOwned r | .rowStrengthen r => r.ok
  | .acqGrant _ s => decide (s < 4)
  | .drayOperationStart _ s | .bcastStep s | .scrubVisit s => decide (s < 16)
  | .extentClassWrite s e | .extentFormatDone s e => decide (s < 16) && decide (e < 256)
  | _ => true

/-- An instruction is well formed. -/
def Instr.wf (i : Instr) : Bool :=
  match i.view with
  | .other => drayWf i && eventWf i
  | v => v.ok

end Sys2Proof
end

