-- ==== Sys2Proof/Machine/State.lean ====
section
/-! DEFINITION. The state of the machine as plain data: one package, and the state after reset (R430).
Numbers of groups, teams, requests and operations are the model's own keys. -/

namespace Sys2Proof.Machine

/-- Sparse data by key, in one canonical form: keys strictly rising, no entry equal to the default. -/
abbrev SMap (α : Type) := List (Nat × α)

/-- A register word with its poison tag (R71). -/
structure TW where
  val : Word
  tag : Bool
  deriving DecidableEq, Repr

/-- A predicate register: one bit and one tag a lane (R71). -/
structure PW where
  bits : Word
  tags : Word
  deriving DecidableEq, Repr

/-- An operand tile (R71, R72, R54); `fmt` is the format tag. -/
structure Tile where
  bytes : SMap Byte
  rowTags : Word
  fmt : Nat
  scales : SMap Byte
  deriving DecidableEq, Repr

/-- Why a running lane does not issue (R26, R44). -/
inductive Wait where
  | none
  /-- Back-off after YIELD until a cycle of the side (R175). -/
  | yield (until_ : Nat)
  /-- A poll of YIELD.W is out (R176). -/
  | poll
  /-- Back-off after an unchanged poll (R176). -/
  | backoff (until_ : Nat)
  /-- WAITC of a class until its COUNT is `n` or less (R177). -/
  | waitc (c : EClass) (n : Nat)
  /-- A gate wait: gate offset, parity and, for the timed form, deadline and outcome register (R235). -/
  | gate (ofs : Nat) (parity : Bool) (lim : Option (Nat × Nat))
  /-- LOCK has sent its request, or is queued (R238). -/
  | lock
  /-- UNLOCK has sent its request (R239). -/
  | unlock
  | barrier
  | acq
  /-- A fence that is not yet performed (R108). -/
  | fence (acq rel sc : Bool) (scope : Scope)
  /-- The word waits for a translation (R350, R365). -/
  | walk
  /-- TLBINV has dropped translations and waits for the accesses before `n` that used them (R354). -/
  | drop (n : Nat) (pasid : Option Nat)
  /-- DBGSTEP waits until the frame is rewritten (R342). -/
  | step (frame : Nat)
  /-- A word of a KP group that the outrider has still to compare (R406). -/
  | held
  deriving DecidableEq, Repr

/-- A lane of a group (R24); the counts of its path are kept with each of its lanes (R28, R176), and the side cycle
from which its next word may issue (R45). `cnt` is the number of repetitions of the prefix under which the lane waits
in a repeated word, 0 for a word of its own (R155). -/
structure Lane where
  exited : Bool
  pc : BitVec 64
  region : BitVec 64
  inRegion : Bool
  k : Nat
  cnt : Nat
  rnd : Word
  wait : Wait
  passed : Nat
  polls : Nat
  readyAt : Nat
  deriving DecidableEq, Repr

/-- A held engine error of R116. -/
structure EngErr where
  cls : EClass
  status : Nat
  addr : Nat
  deriving DecidableEq, Repr

/-- A register write that is still to come: ready at a side cycle, or with a request (R26, R45). -/
inductive Ready where
  | at (cycle : Nat)
  | req (id : Nat)
  deriving DecidableEq, Repr

/-- What produces a pending register write (R26, R50). -/
inductive PendSrc where
  | result | scratch | global_ | matrix
  /-- An MMA's or MMAG's accumulation (R26). -/
  | mma
  /-- No write: a word still reads a tile, which REL awaits (R242). -/
  | used
  deriving DecidableEq, Repr

structure PendWrite where
  reg : RegName
  ready : Ready
  src : PendSrc
  deriving DecidableEq, Repr

/-- Why a group halts (R44, R331, R342, R358, R364). -/
inductive HaltCause where
  | preempt | trap | page | step
  deriving DecidableEq, Repr

/-- The halt state of a group (R44, R331, R339). -/
inductive HaltState where
  | running
  /-- Pre-emption pending with tiles held, until a tick (R44 item 2). -/
  | window (until_ : Nat)
  | halting (c : HaltCause)
  | halted (c : HaltCause)
  | framed (c : HaltCause)
  deriving DecidableEq, Repr

/-- A trap on its way to delivery (R328, R331). -/
structure TrapInfo where
  code : Nat
  lane : Nat
  info : Nat
  full : Nat
  pc : BitVec 64
  tick : Nat
  deriving DecidableEq, Repr

/-- What a trap record of a group still waits for (R332, R364). -/
structure TrapRec where
  addr : Nat
  gid : Option Nat
  code : Nat
  hold : Bool
  twin : Option Nat
  handler : Option Nat
  pc : BitVec 64
  ctx : Nat
  deriving DecidableEq, Repr

/-- The values of some registers, each of a lane (of lane 0 for a uniform one). -/
abbrev RegVals := List (RegName × Nat × TW)

/-- An entry of the leader's queue (R405); `rep` is the repetition and the count under a repeat prefix, `seen` what the
word names as the leader read it, `took` the values it returned, and `seq` the number of its accesses while their values
may still come. An entry is `done` once the leader has performed its word, or stands to be asked. -/
structure OutEntry where
  pc : BitVec 64
  mask : Word
  instr : Instr
  rep : Option (Nat × Nat)
  vals : List (Nat × TW)
  seen : RegVals
  took : RegVals
  seq : Option Nat
  done : Bool
  deriving DecidableEq, Repr

/-- A word that has issued and whose effect waits, for a translation or for the outrider: its lanes, the registers that
it will write, the unit that writes them, and what it read at its issue. -/
structure Stash where
  pc : BitVec 64
  lanes : Word
  writes : List RegName
  src : PendSrc
  seen : RegVals
  deriving DecidableEq, Repr

/-- The outrider of a KP group: its own registers, their pending writes, and its queue (R26, R405, R406). -/
structure Outrider where
  v : SMap TW
  s : SMap TW
  p : SMap PW
  pend : List PendWrite
  queue : List OutEntry
  deriving DecidableEq, Repr

/-- One return of a framed group that is still to come (R336). -/
structure RetEntry where
  req : Nat
  reg : Nat
  uni : Bool
  mask : Word
  width : Nat
  deriving DecidableEq, Repr

/-- What a group knows of its open marks in a peer's slices (R105, R111): the peer, one more than the sequence number of
its last plain store there, and for each scope code the number before which its entries have recorded a clearing. -/
structure PeerMark where
  pkg : Nat
  upto : Nat
  cleared : SMap Nat
  deriving DecidableEq, Repr

/-- A group (R17, R71, R73). -/
structure Group where
  gid : Nat
  team : Nat
  grid : Nat
  ctx : Nat
  pasid : Nat
  groupId : Nat
  teamId : Nat
  core : Nat
  side : Nat
  slot : Nat
  kclass : Nat
  cls : Nat
  depth : Nat
  sup : Bool
  kernel : Nat
  cntGrant : Bool
  lanes : List Lane
  v : SMap TW
  s : SMap TW
  p : SMap PW
  t : SMap Tile
  a : SMap TW
  h : Nat
  j : Nat
  m : Nat
  gen : Nat
  blkGen : SMap Nat
  fpstat : BitVec 7
  srseed : Word
  dropret : Word
  faultInfo : BitVec 64
  maskRows : SMap Word
  maskMode : Word
  maskFill : Word
  errs : List EngErr
  lost : List EClass
  recErrs : List EngErr
  recLost : List EClass
  counterRec : Option Nat
  barriers : Nat
  atBarrier : Bool
  pend : List PendWrite
  stash : List Stash
  seq : Nat
  halt : HaltState
  ppoint : Option Word
  imprecise : Word
  impInfo : SMap Nat
  trap : Option TrapInfo
  hold : Bool
  stepFrame : Option Nat
  dbgHalt : Word
  dbgPath : BitVec 64
  restarts : List (BitVec 64 × Nat)
  frame : Option Nat
  returns : List RetEntry
  dead : SMap Word
  frameWait : Bool
  haltedAt : Nat
  parked : Bool
  trapRec : Nat
  ctxNum : Nat
  outrider : Option Outrider
  peerMarks : List PeerMark
  ended : Bool
  deriving DecidableEq, Repr

/-- A tensor descriptor slot (R258). -/
structure Desc where
  base : BitVec 64
  esize : Nat
  rank : Nat
  read : Bool
  write : Bool
  pad : Nat
  dims : List Nat
  strides : List Int
  box : List Nat
  padLo : List Nat
  padHi : List Nat
  alias_ : Bool
  deriving DecidableEq, Repr

inductive AcqKind where
  | blk | opt | acc
  deriving DecidableEq, Repr

structure AcqReq where
  gid : Nat
  side : Nat
  kind : AcqKind
  n : Nat
  deriving DecidableEq, Repr

inductive TeamState where
  | clearing | running | framing | framed | ended
  deriving DecidableEq, Repr

/-- A team that has been placed at least once (R36, R258, R338). -/
structure Team where
  id : Nat
  grid : Nat
  teamId : Nat
  core : Nat
  spBase : Nat
  spSize : Nat
  groups : List Nat
  state : TeamState
  descs : SMap Desc
  acqQ : List AcqReq
  barrier : Nat
  frame : Option Nat
  savedReload : SMap Nat
  frameWait : Bool
  waitFor : Option (Nat × Nat)
  since : Nat
  handler : Bool
  deriving DecidableEq, Repr

/-- A declared region (R168, R280). -/
structure Region where
  base : Nat
  len : Nat
  read : Bool
  write : Bool
  valid : Bool
  deriving DecidableEq, Repr

/-- A kernel record (R168). -/
structure Kernel where
  addr : Nat
  entry : BitVec 64
  groups : Nat
  kclass : Nat
  blocks : Nat
  optiles : Nat
  acctiles : Nat
  spbytes : Nat
  liveCount : Nat
  liveTab : Nat
  regions : List Region
  deriving DecidableEq, Repr

/-- Record and replay mode of a root task (R385). -/
inductive TaskMode where
  | plain | record | replay
  deriving DecidableEq, Repr

/-- An entry of the task table (R370), or a handler's (R331): its record, code and context. `preds` are the
predecessors that have not retired (R372), `peers` the packages whose locks its lanes have been granted (R240). -/
structure Grid where
  id : Nat
  ctx : Nat
  parent : Option Nat
  parentTeam : Option Nat
  root : Nat
  depth : Nat
  cls : Nat
  mode : TaskMode
  kernel : Kernel
  teams : Nat
  args : BitVec 64
  done : Nat
  regions : List Region
  accept : Nat
  preds : List Nat
  nextTeam : Nat
  peers : List Nat
  killed : Option Nat
  retired : Bool
  readyAt : Nat
  sup : Option (Nat × Nat × Nat)
  deriving DecidableEq, Repr

/-- A side (R27, R29, R46, R48); `upsets` is how many of the next checksums of its matrix slice an upset
spoils (R67), an input of the model (log 23). -/
structure Side where
  cycle : Nat
  last : Nat
  carried : Option (Nat × BitVec 64)
  hold : Nat
  holdBy : Nat
  intBusy : Nat
  fmaBusy : Nat
  fmaBusy2 : Nat
  memBusy : Nat
  matBusy : Nat
  evsel : SMap Word
  evcnt : SMap (BitVec 64)
  upsets : Nat
  deriving DecidableEq, Repr

structure Elig where
  eligible : Bool
  badAt : Nat
  tempC : Nat
  droop : Nat
  deriving DecidableEq, Repr

/-- The cores: scratchpads with their word tags (R74, R77), sides, eligibility (R377). -/
structure Cores where
  spad : SMap Byte
  gate : SMap Bool
  poison : SMap Bool
  reload : SMap Nat
  sides : SMap Side
  elig : SMap Elig
  deriving DecidableEq, Repr

/-- An open-mark entry (R111): group, byte mask of the sector, widest scope of its clearing. -/
structure Mark where
  gid : Nat
  bytes : BitVec 64
  cleared : Option Scope
  deriving DecidableEq, Repr

/-- A depot line (R82, R83, R111); the depot lists its lines least recently used first. -/
structure DepotLine where
  line : LineId
  bytes : List Byte
  dirty : Bool
  res : Nat
  poison : Word
  marks0 : List Mark
  marks1 : List Mark
  deriving DecidableEq, Repr

/-- Where a physical access goes (R13, R344); `nc` says that the page of a peer's place is non-cacheable. -/
inductive Place where
  | line (l : LineId) (ofs : Nat)
  | raw (stack ext ofs : Nat)
  | host (a : Nat)
  | peer (pkg ofs : Nat) (nc : Bool)
  deriving DecidableEq, Repr

/-- A write at a home slice: whose open marks it makes (R110) and the widest scope at which that group has released
since it was accepted (R111), its request, operation, or request of a peer (R416), and whether it is a CLEAN or, when
true, an INVAL of its line (R124). One that names a line in `after` waits for the device's held writes there (R403). -/
structure WriteOp where
  place : Place
  bytes : List Byte
  tags : List Bool
  marker : Option Nat
  cleared : Option Scope
  req : Option Nat
  op : Option Nat
  peer : Option Inbound
  res : Nat
  maint : Option Bool
  after : Option LineId
  deriving DecidableEq, Repr

/-- A depot miss that waits for its line (R83), with whom it is charged to; `drop` says that only prefetches ask for it,
which are dropped where it would need an entry of a hold queue (R227). -/
structure Want where
  line : LineId
  res : Nat
  ctx : Option Nat
  gid : Option Nat
  drop : Bool
  deriving DecidableEq, Repr

/-- A PREFETCH.L1 whose line is not in the depot yet, or waits behind held writes (R227). -/
structure Prefetch where
  line : LineId
  core : Nat
  pasid : Nat
  vline : Nat
  ctx : Nat
  deriving DecidableEq, Repr

/-- A first-level line (R78, R79). -/
structure L1Line where
  core : Nat
  pasid : Nat
  vline : Nat
  line : LineId
  bytes : List Byte
  poison : Word
  expiry : Nat
  deriving DecidableEq, Repr

/-- An instruction-cache line (R444). -/
structure ICLine where
  core : Nat
  pasid : Nat
  vline : Nat
  bytes : List Byte
  poison : Word
  expiry : Nat
  deriving DecidableEq, Repr

/-- A requester of a lock (R237). -/
structure Locker where
  pkg : Nat
  ctx : Nat
  grid : Nat
  gid : Nat
  lane : Nat
  deriving DecidableEq, Repr

/-- A lock record of a queue-lock unit (R237). -/
structure LockRec where
  line : LineId
  ofs : Nat
  holder : Locker
  queue : List Locker
  deriving DecidableEq, Repr

/-- Answers of a queue-lock unit (R238 to R240). -/
inductive LockAns where
  | granted | owner | acked | notOwner
  deriving DecidableEq, Repr

/-- An answer on its way to a lane of this package. -/
structure LockAnswer where
  gid : Nat
  lane : Nat
  ans : LockAns
  va : Nat
  deriving DecidableEq, Repr

inductive RowState where
  | controller | bank | returning
  deriving DecidableEq, Repr

/-- What waits in a hold queue, or for a bank (R93, R306). -/
inductive HeldWork where
  | req (id : Nat)
  | fill (l : LineId)
  /-- A write-back, with the operation or the peer's request that it is made for. -/
  | writeback (l : LineId) (bytes : List Byte) (poison : Word) (op : Option Nat) (peer : Option Inbound)
  | op (id : Nat)
  | walk (id : Nat)
  deriving DecidableEq, Repr

structure HoldEntry where
  row : RowId
  work : HeldWork
  deriving DecidableEq, Repr

/-- A request of the stack port that waits for a bank in which a dray holds another row open, its class, and the dray's
column accesses to the bank since it came, 64 once the dray has closed its row (R306). -/
structure BankEntry where
  row : RowId
  work : HeldWork
  express : Bool
  count : Nat
  deriving DecidableEq, Repr

/-- Structures that the device watches, when a write to them has been applied (R325, R346, R368, R393, R417). -/
inductive Watch where
  | block (line : Nat)
  | ext (stack ext : Nat)
  | ctx (n : Nat) (valid budget : Bool)
  | fabric
  | post (n : Nat)
  deriving DecidableEq, Repr

/-- The memory system; `grants` counts, for each place where requests of the express class have a share, the grants since
the last of theirs (R381). -/
structure Mem where
  raw : List Host.Cell
  depot : List DepotLine
  leases : List (LineId × Nat)
  held : List (LineId × WriteOp)
  wants : List Want
  prefetches : List Prefetch
  hostLines : List LineId
  snoops : List LineId
  locks : List LockRec
  lockWait : List (LineId × Nat × Locker)
  lockAns : List LockAnswer
  l1 : List L1Line
  ic : List ICLine
  rows : List (RowId × RowState)
  bankQ : List BankEntry
  holdQ : List HoldEntry
  linkQ : List HoldEntry
  dquota : Word
  watch : List Watch
  grants : SMap Nat
  deriving DecidableEq, Repr

/-- A TLB entry (R353). -/
structure TlbEntry where
  cluster : Nat
  pasid : Nat
  va : Nat
  size : Nat
  pa : Nat
  write : Bool
  exec : Bool
  nc : Bool
  res : Nat
  victim : Bool
  deriving DecidableEq, Repr

/-- Kinds of access a translation is judged for (R351). -/
inductive AccKind where
  | read | write | fetch
  deriving DecidableEq, Repr

/-- Who waits for a walk: a lane word, an engine operation, or an instruction fetch. -/
inductive Walker where
  | group (gid : Nat) (pc : BitVec 64) (lane : Nat)
  | fetch (gid : Nat) (pc : BitVec 64)
  | op (id : Nat)
  | prefetch (gid : Nat) (l1 : Bool)
  /-- A word that looks at addresses without asking the pager (R267, R279). -/
  | look (gid : Nat) (pc : BitVec 64)
  /-- A reader of the device's, by a key of its own. -/
  | device (asker : Nat)
  /-- A completion write, which the pager may serve (R282). -/
  | done (grid : Nat)
  deriving DecidableEq, Repr

structure Walk where
  id : Nat
  cluster : Nat
  pasid : Nat
  va : Nat
  kind : AccKind
  who : Walker
  answered : Bool
  reason : Nat
  deriving DecidableEq, Repr

/-- What a walk without a page request has found for the one that asked: an address that does not translate (R274). -/
structure Denial where
  who : Walker
  pasid : Nat
  va : Nat
  kind : AccKind
  reason : Nat
  deriving DecidableEq, Repr

structure PageReq where
  id : Nat
  pasid : Nat
  page : Nat
  kind : AccKind
  walks : List Walk
  sent : Option Nat
  deriving DecidableEq, Repr

/-- A class window (R346, R347). -/
structure Window where
  base : Nat
  slots : Nat
  deriving DecidableEq, Repr

/-- A walker profile (R349). -/
structure Profile where
  granule : Nat
  levels : Nat
  present : Nat
  write : Nat
  noexec : Nat
  leaf : Nat
  acc : Nat
  dirty : Nat
  attr : Nat
  frameHi : Nat
  flags : Nat
  zero : Bool
  deriving DecidableEq, Repr

/-- The decoder's copy of the translation block (R346). -/
structure TBlock where
  pasidTab : Nat
  pasidCount : Nat
  hdmBase : Nat
  peerBase : Nat
  wins : List Window
  slotList : Nat
  profiles : List Profile
  deriving DecidableEq, Repr

/-- A slot entry of R347. -/
structure SlotEntry where
  valid : Bool
  changing : Bool
  stack : Nat
  ext : Nat
  deriving DecidableEq, Repr

/-- An upper-level entry that the walker keeps (R353). -/
structure UpperEntry where
  pasid : Nat
  table : Nat
  idx : Nat
  word : BitVec 64
  deriving DecidableEq, Repr

/-- An invalidation of the host's whose completion has still to be sent: its PASID and range, and the number before which
requests may have used what it dropped (R354, R427). -/
structure Inval where
  pasid : Nat
  base : Nat
  len : Nat
  before : Nat
  deriving DecidableEq, Repr

/-- Translation (R343 to R366). -/
structure Xlate where
  tb : TBlock
  slots : SMap SlotEntry
  tlb : List TlbEntry
  upper : List UpperEntry
  walks : List Walk
  pageReqs : List PageReq
  barred : List Nat
  denied : List Denial
  invals : List Inval
  deriving DecidableEq, Repr

/-- Extent classes of R394. -/
inductive ExtClass where
  | N | D | P | pool
  deriving DecidableEq, Repr

structure Extent where
  cls : ExtClass
  busy : Bool
  deriving DecidableEq, Repr

/-- The reliability block's fields that supervisors write (R393). -/
structure RelBlock where
  scrubHrs : Nat
  ceThresh : Nat
  ceWindow : Nat
  logBase : Nat
  logSize : Nat
  deriving DecidableEq, Repr

/-- Structures of the device whose state carries no poison (R404). -/
inductive DevStruct where
  | lock | hold | task | gate | desc | counter
  deriving DecidableEq, Repr

/-- What a check code covers beside stacks and links (R402, R404): a word of a register of a group (by lane, or by its place
in a tile), of a scratchpad, of a depot line, of a dray's vector buffer or accumulators; a first-level line; a structure. -/
inductive Site where
  | reg (gid : Nat) (r : RegName) (k : Nat)
  | spad (w : Nat)
  | depot (l : LineId) (w : Nat)
  | l1 (core : Nat) (l : LineId)
  | vb (dray w : Nat)
  | acc (dray c : Nat)
  | device (x : DevStruct)
  deriving DecidableEq, Repr

/-- A verification that fails when it is next made, in one bit or in two (R401, R402): an input of the model (log 23). -/
structure Upset where
  site : Site
  two : Bool
  deriving DecidableEq, Repr

/-- Reliability (R390 to R404). -/
structure Rel where
  block : RelBlock
  ext : SMap Extent
  strong : List (RowId × Nat × Nat)
  ceCount : SMap Nat
  reinforcing : List Nat
  capacity : List Nat
  scrub : SMap Nat
  skipped : List RowId
  due : List RowId
  windowAt : Nat
  newest : Option (Nat × Nat × Nat × Nat)
  upsets : List Upset
  deriving DecidableEq, Repr

/-- A context (R325) as the device holds it, its remaining budget (R399) and the pages its frames use (R339). -/
structure Ctx where
  pasid : Nat
  cntGrant : Bool
  brkHold : Bool
  valid : Bool
  lease : Nat
  budgetField : Nat
  ebudget : Nat
  frameArea : Nat
  frameLen : Nat
  lateQ : Nat
  frames : List (Nat × Nat)
  deriving DecidableEq, Repr

/-- Dray cursors (R286). -/
structure Cursor where
  row : Nat
  col : Nat
  lo : Nat
  hi : Nat
  beyond : Bool
  deriving DecidableEq, Repr

/-- The dray status word's fields (R299). -/
structure DStat where
  err : Nat
  slot : Nat
  inexact : Bool
  poison : Bool
  corr : Nat
  state : Nat
  deriving DecidableEq, Repr

/-- A row that a dray holds open: 64 columns of 32 bytes by byte, with a mark for each word of 4 bytes (R294, R303), and the
sectors that are verified and that are written. -/
structure OpenRow where
  row : RowId
  bytes : SMap Byte
  verified : Word
  written : Word
  poison : BitVec 512
  deriving DecidableEq, Repr

/-- A dray (R283, R284, R299). `waitSteps` counts broadcast steps that pass without a new access, `atStep` says that a
column command waits for its step, `granted` that the step at hand is the dray's, `free3` counts its commands since the
last step (R302), `reopen` lists the rows that it has closed to yield their banks (R306). -/
structure Dray where
  store : SMap (BitVec 32)
  vb : SMap Byte
  vbTag : SMap Bool
  acc : SMap TW
  latch : SMap (List (BitVec 32))
  x : Cursor
  y : Cursor
  vp : Nat
  vsp : Nat
  sl : List Byte
  slTags : List Bool
  slp : Nat
  l0 : Nat
  l1 : Nat
  slot : Nat
  cc : Nat
  dstat : DStat
  owner : Option Nat
  op : Option Nat
  arg : Nat
  rows : List RowId
  sectors : Nat
  bcast : Bool
  waitSteps : Nat
  atStep : Bool
  granted : Bool
  free3 : Nat
  open_ : List OpenRow
  reopen : List RowId
  deriving DecidableEq, Repr

/-- A broadcast of a stack: operation and the steps that remain (R302). -/
structure Bcast where
  op : Nat
  left : Nat
  deriving DecidableEq, Repr

/-- Drays and launch logic. -/
structure Drays where
  drays : SMap Dray
  queue : SMap (List Nat)
  bcast : SMap Bcast
  deriving DecidableEq, Repr

/-- Kinds of request in flight (one lane's access). -/
inductive ReqKind where
  | load (signed : Bool) (bytes : Nat)
  | uload (signed : Bool)
  | store
  | atom (op : AtomOp) (ac : Nat)
  | red (op : AtomOp) (ac : Nat)
  | cas (ac : Nat)
  | poll
  | lock
  | unlock
  /-- A part of a TDRAIN (R255): store or add-on-store, type code, and the elements that are written. -/
  | drain (add : Bool) (ac : Nat) (mask : Nat)
  /-- The task record of a GRID (R280). -/
  | record
  deriving DecidableEq, Repr

/-- A lane's memory access that has issued and has not had its effect or return (R99, R100, R105); `replays` counts
the die-to-die link's (R402); `sent` says that a request to a peer has gone out; `also` names the lanes beside `lane`
whose accesses of the word it stands for, and `noFill` says that its translation has been dropped, so that its line is
not kept (R354). -/
structure Req where
  id : Nat
  gid : Nat
  gen : Nat
  core : Nat
  side : Nat
  slot : Nat
  ctx : Nat
  lane : Nat
  pc : BitVec 64
  kind : ReqKind
  place : Place
  va : Nat
  size : Nat
  res : Nat
  reg : Nat
  bytes : List Byte
  tags : List Bool
  acq : Bool
  rel : Bool
  scope : Scope
  seq : Nat
  op : Option Nat
  accepted : Bool
  queued : Bool
  sent : Bool
  noFill : Bool
  replays : Nat
  also : Word
  deriving DecidableEq, Repr

/-- A range of a maintenance or dray operation. -/
structure Span where
  base : Nat
  len : Nat
  deriving DecidableEq, Repr

/-- What a waybill carries (R272 to R275). -/
structure Waybill where
  image : List Byte
  start : BitVec 64
  ptr : BitVec 64
  step : Nat
  crossings : Nat
  acq : Bool
  deriving DecidableEq, Repr

/-- A command of a REDX (R271). -/
structure RedxCmd where
  index : Nat
  value : Nat
  itag : Bool
  vtag : Bool
  done : Bool
  deriving DecidableEq, Repr

/-- The payload of an engine operation. -/
inductive OpKind where
  /-- CPY: direction in, the slot's contents, scratchpad offset, coordinates, gate (R261, R262). -/
  | cpy (isIn : Bool) (d : Desc) (so : Nat) (coord : List Int) (gate : Option Nat)
  /-- A RED, a TDRAIN: only its applications are still to come (R114). -/
  | red
  | lines (inval : Bool)
  | mswitch (toBank : Bool) (applied : Bool)
  | mrs (d : Desc) (sc : Option Desc) (dest : Nat) (c0 c1 : Int)
  | rst (dest flag : Nat) (data : List Byte) (tags : List Bool) (phase : Nat)
  | wbl (w : Waybill) (result : Nat) (gate : Option Nat)
  | redx (op : AtomOp) (ac : Nat) (base : Nat) (cmds : List RedxCmd)
  | imxLoad (cmds : List (BitVec 32)) (first : Nat)
  | imxVec (bytes : List Byte) (tags : List Bool) (at_ : Nat)
  | imxRun (slot arg : Nat)
  | imxBcast (slot steps : Nat)
  | imxCollect (dest : Nat) (gate : Option Nat) (data : List (Nat × List TW))
  deriving DecidableEq, Repr

/-- What came back for a part of an operation, or a fault that a part met. -/
structure OpGot where
  idx : Nat
  val : Nat
  tags : BitVec 32
  status : Nat
  addr : Nat
  deriving DecidableEq, Repr

/-- An engine operation that has not retired (R114, R115): its parts up to `pos` have been started, `left` of
them are still to be applied; `ahead` is what the last source word read holds for the parts that come next, so that no
word is seen torn (R98); the failure kept is the one of the lowest part `failAt`, with its reason of R352. `lost`
are the rows of a dray operation that have become returning since its launch (R305), `started` the stacks where it has
started (R278), `flits` the replays of its next flit on the die-to-die link (R402). -/
structure Op where
  id : Nat
  gid : Nat
  team : Nat
  core : Nat
  ctx : Nat
  pasid : Nat
  cls : EClass
  kind : OpKind
  span : List Span
  launched : Bool
  drays : List Nat
  rows : List RowId
  lost : List RowId
  started : List Nat
  pos : Nat
  left : Nat
  got : List OpGot
  ahead : List (Byte × Bool)
  complete : Bool
  status : Nat
  addr : Nat
  failAt : Nat
  moved : Bool
  fault : Option (Nat × Nat)
  reason : Nat
  issued : Nat
  flits : Nat
  deriving DecidableEq, Repr

/-- Requests and operations in flight. -/
structure Eng where
  reqs : List Req
  ops : List Op
  deriving DecidableEq, Repr

/-- What a fabric request of this package carries (R416). -/
inductive FabWork where
  | req (id : Nat)
  | op (id : Nat) (idx : Nat) (va : Nat)
  | flag (op : Nat)
  | walk (op : Nat)
  | lockFree (grid : Nat)
  /-- A completion write of a context: the value added at an address (R282, R378). -/
  | done (ctx va val : Nat)
  /-- A group's release at `.f` or `.h`: its entries in the peer's slices record the clearing (R105, R111). -/
  | clear (gid : Nat) (scope : Scope) (upto : Nat)
  /-- A group's grid has retired: its entries there are freed (R111). -/
  | retire (gid : Nat)
  /-- A halt withdraws a LOCK that waits at the peer (R240). -/
  | withdraw (req : Nat)
  deriving DecidableEq, Repr

/-- Where a request to a peer acts: its virtual address, the offset in the peer's window, and the page settings of its page
here (R13, R416). -/
structure FabPlace where
  va : Nat
  ofs : Nat
  nc : Bool
  res : Nat
  deriving DecidableEq, Repr

/-- A numbered request to a peer (R416, R420): the issuing context's PASID and this package's FABGEN when it was numbered,
its place, the port it left by, when it was last sent, since when it has found no route, how often it was refused, whether
a refusal is waited out, whether it has gone out, and whether its translation has been dropped (R354). -/
structure FabReq where
  tgt : Nat
  seq : Nat
  work : FabWork
  pasid : Nat
  fabgen : Nat
  at_ : FabPlace
  port : Option Nat
  sent : Nat
  noRoute : Option Nat
  tries : Nat
  retry : Bool
  live : Bool
  dropped : Bool
  deriving DecidableEq, Repr

/-- A duplicate-filter entry of an executed request (R420): its answer, or none while its effect is still to come, and
then the request. -/
structure FilterEntry where
  src : Nat
  seq : Nat
  ans : Option PeerAnswer
  req : Option Inbound
  deriving DecidableEq, Repr

/-- A waybill of another package that this one holds (R422). -/
structure HeldWalk where
  id : Nat
  src : Nat
  srcOp : Nat
  pasid : Nat
  bill : Waybill
  deriving DecidableEq, Repr

/-- A fabric port (R414, R415). -/
structure Port where
  lanes : Nat
  retraining : Bool
  replays : Nat
  deriving DecidableEq, Repr

/-- The fabric interface's copy of the fabric block, and its own state (R417 to R420). -/
structure Fab where
  self : Nat
  valid : Bool
  fabgen : Nat
  porten : Nat
  reach : SMap Bool
  route : SMap Nat
  seqs : SMap Nat
  out : List FabReq
  filter : List FilterEntry
  walks : List HeldWalk
  ports : List Port
  deriving DecidableEq, Repr

/-- A team that holds a reservation of a core (R376). -/
structure Resv where
  grid : Nat
  teamId : Nat
  core : Nat
  deriving DecidableEq, Repr

/-- A replayed or recorded task (R386 to R388): the group that had the last turn, its issues from launch, how far
its log is written or read, whether an entry did not fit, and its grids in acceptance order. -/
structure Serial where
  root : Nat
  ctx : Nat
  mode : TaskMode
  turn : Nat
  count : Nat
  head : Nat
  full : Bool
  grids : List Nat
  deriving DecidableEq, Repr

/-- The Dispatcher. -/
structure Disp where
  grids : List Grid
  nextGrid : Nat
  accepts : Nat
  resv : List Resv
  preempts : List (Nat × Nat × Nat)
  supPreempts : List Nat
  serials : List Serial
  deriving DecidableEq, Repr

/-- Supervisor registers of R326, the trap queue (R331), and the late-fault statuses that wait for a launch in their
address space (R118), each by its PASID. -/
structure Sup where
  vecBase : BitVec 64
  trapQ : BitVec 64
  ctxTab : BitVec 64
  haltCnt : Word
  trapNext : Nat
  recs : List TrapRec
  waiting : List (TrapInfo × Option Nat × Nat)
  late : List (Nat × EngErr)
  deriving DecidableEq, Repr

/-- Power (R307, R308). -/
structure Power where
  level : Nat
  below : Nat
  pwrAvg : Nat
  deriving DecidableEq, Repr

/-- The device record (R438). -/
structure DevRecord where
  serial : List Byte
  stepping : Nat
  defClass : Nat
  poolDef : Nat
  dikCert : List Byte
  linkMax : Nat
  deriving DecidableEq, Repr

/-- The link protocol that a CXL IDE key is for (R440). -/
inductive IdeLink where
  | io | cache | mem
  deriving DecidableEq, Repr, Inhabited

/-- The management controller (R430 to R441). `outcome` is the MBOXSTAT that the command at work comes to, 0 until
its work is done; `upload` holds the pieces of an image so far; `slotANew` and `slotBNew` say that UPDATE has written the
slot since the last cold reset (R437); `quotedAt` is the LTICK of the last quote since a reset (R441). -/
structure Yuren where
  ready : Bool
  recovery : Bool
  lastReset : Nat
  err : Nat
  stage : Nat
  mboxCmd : Word
  mboxStat : Nat
  mboxLen : Nat
  mboxBuf : SMap Byte
  outcome : Nat
  mr : List (List Byte)
  floor : Nat
  version : Nat
  slotA : List Byte
  slotB : List Byte
  slotAOk : Bool
  slotBOk : Bool
  slotANew : Bool
  slotBNew : Bool
  runsB : Bool
  upload : List Byte
  quotedAt : Option Nat
  secret : List Byte
  record : DevRecord
  ideKeys : List (IdeLink × List Byte)
  deriving DecidableEq, Repr

/-- A message that the package sends to the host (R359, R282, R425, R427, R428, R431). -/
inductive HostMsg where
  | pageRequest (id pasid page : Nat) (kind : AccKind)
  | readData (addr : Nat) (bytes : List Byte) (poison : Bool)
  | write (addr : Nat) (bytes : List Byte)
  | atom (addr : Nat) (op : AtomOp) (ac : Nat) (operand : Nat)
  | snoop (l : LineId)
  | invalidateDone (pasid : Nat)
  | msix
  | response (src seq : Nat) (ans : PeerAnswer)
  /-- A request to a peer, by a port, with the sending package's number (R416, R418). -/
  | toPeer (src port : Nat) (r : FabReq)
  /-- The result of a walk goes home (R422). -/
  | walkReturn (pkg op : Nat) (res : WalkResult)
  deriving DecidableEq, Repr

/-- The issuing path of the turn, or the agent of an event. -/
structure Cur where
  gid : Nat
  pc : BitVec 64
  lanes : Word
  rep : Option (Nat × Nat)
  lane : Nat
  team : Nat
  grid : Nat
  dray : DrayId
  bank : Nat
  deriving DecidableEq, Repr

/-- A turn of the agenda: who moves next. The model's own (log 1). -/
inductive Turn where
  | issue (gid : Nat) (pc : BitVec 64) (lanes : Word)
  | outrider (gid : Nat)
  | dray (d : DrayId)
  | event (c : Cur) (i : Instr)
  | tick (n : Nat)
  deriving DecidableEq, Repr, Inhabited

/-- The state of the package. -/
structure State where
  agenda : List Turn
  cur : Cur
  free : Nat
  nextId : Nat
  ltick : Nat
  groups : List Group
  teams : List Team
  cores : Cores
  mem : Mem
  xl : Xlate
  rel : Rel
  ctxs : SMap Ctx
  drays : Drays
  eng : Eng
  fab : Fab
  disp : Disp
  sup : Sup
  power : Power
  yuren : Yuren
  sent : List HostMsg
  deriving DecidableEq, Repr

/-- The model's stops. None is raised for ordinary data: traps are next states. -/
inductive Fault where
  /-- A kernel word is executed while no path is issuing: raised by every kernel word's meaning when
  the state names no such group. No step reaches it. Safe. -/
  | noIssuingPath
  deriving DecidableEq, Repr

/-- Refusals. -/
inductive Refusal where
  /-- An instruction without a meaning; raised by an arm of `exec` alone. Safe. -/
  | notModelled (mnemonic : String)
  deriving DecidableEq, Repr

/-- No agent. -/
def Cur.none : Cur :=
  { gid := 0, pc := 0, lanes := 0, rep := Option.none, lane := 0, team := 0, grid := 0, dray := ⟨0, 0, 0⟩, bank := 0 }

/-- A side after reset (R27, R48). -/
def Side.reset : Side :=
  { cycle := 0, last := 7, carried := none, hold := 0, holdBy := 0, intBusy := 0, fmaBusy := 0
    fmaBusy2 := 0, memBusy := 0, matBusy := 0, evsel := [], evcnt := [], upsets := 0 }

/-- A cursor after reset (R284). -/
def Cursor.reset : Cursor := { row := 0, col := 0, lo := 0, hi := 0, beyond := false }

/-- A dray after reset (R284). -/
def Dray.reset : Dray :=
  { store := [], vb := [], vbTag := [], acc := [], latch := [], x := Cursor.reset, y := Cursor.reset
    vp := 0, vsp := 0, sl := [], slTags := [], slp := 0, l0 := 0, l1 := 0, slot := 0, cc := 0
    dstat := ⟨0, 0, false, false, 0, 0⟩, owner := none, op := none, arg := 0, rows := [], sectors := 28
    bcast := false, waitSteps := 0, atStep := false, granted := false, free3 := 0, open_ := [], reopen := [] }

/-- An eligible core that has never read hot (R377; log 14). -/
def Elig.reset : Elig := { eligible := true, badAt := 0, tempC := 0, droop := 0 }

def Extent.reset : Extent := ⟨.N, false⟩

/-- DQUOTA after reset: 16 ways for each class (R83). -/
def dquotaReset : Word := 0x84210#32

/-- The fields that stand in the model's store outside the spec's resets (R436 to R438; logs 19, 20). -/
def Yuren.reset : Yuren :=
  { ready := false, recovery := false, lastReset := 0, err := 0, stage := 0
    mboxCmd := 0, mboxStat := 0, mboxLen := 0, mboxBuf := [], outcome := 0
    mr := List.replicate 4 (List.replicate 64 0), floor := 0, version := 0
    slotA := [], slotB := [], slotAOk := true, slotBOk := true, slotANew := false, slotBNew := false
    runsB := false, upload := [], quotedAt := none, secret := [], ideKeys := []
    record := { serial := List.replicate 16 0, stepping := 0, defClass := 2, poolDef := 4
                dikCert := [], linkMax := 0 } }

/-- An empty translation block (R433). -/
def TBlock.reset : TBlock :=
  { pasidTab := 0, pasidCount := 0, hdmBase := 0, peerBase := 0
    wins := [⟨0, 0⟩, ⟨0, 0⟩, ⟨0, 0⟩], slotList := 0, profiles := [] }

/-- The machine right after a cold reset (R430), before bring-up writes its structures (R433). -/
def State.reset : State :=
  { agenda := [], cur := Cur.none, free := 0, nextId := 1, ltick := 0, groups := [], teams := []
    cores := { spad := [], gate := [], poison := [], reload := [], sides := [], elig := [] }
    mem := { raw := [], depot := [], leases := [], held := [], wants := [], prefetches := [], hostLines := [], snoops := []
             locks := [], lockWait := [], lockAns := [], l1 := [], ic := [], rows := [], bankQ := [], holdQ := [], linkQ := []
             dquota := dquotaReset, watch := [], grants := [] }
    xl := { tb := TBlock.reset, slots := [], tlb := [], upper := [], walks := [], pageReqs := [], barred := [], denied := [], invals := [] }
    rel := { block := ⟨0, 0, 0, 0, 0⟩, ext := [], strong := [], ceCount := [], reinforcing := [], capacity := []
             scrub := [], skipped := [], due := [], windowAt := 0, newest := none, upsets := [] }
    ctxs := []
    drays := { drays := [], queue := [], bcast := [] }
    eng := { reqs := [], ops := [] }
    fab := { self := 0, valid := false, fabgen := 0, porten := 0, reach := [], route := [], seqs := [], out := []
             filter := [], walks := [], ports := List.replicate 8 ⟨64, false, 0⟩ }
    disp := { grids := [], nextGrid := 1, accepts := 0, resv := [], preempts := [], supPreempts := []
              serials := [] }
    sup := { vecBase := 0x1800000, trapQ := 0x1C00000, ctxTab := 0, haltCnt := 0, trapNext := 0, recs := []
             waiting := [], late := [] }
    power := { level := 0, below := 0, pwrAvg := 0 }
    yuren := Yuren.reset
    sent := [] }

end Sys2Proof.Machine
end

