-- ==== Sys2Proof/Config.lean ====
section
/-! DEFINITION. What an implementation fixes and the free values: opaque constants, which no proof can
see (logs 2, 3, 9). -/

namespace Sys2Proof.Config

/-- The turn that comes when the agenda is empty: an event with its agent, a command of a dray, or ticks that pass
(log 1). -/
opaque nextTurn : Nat → Machine.Turn
/-- What a side's CLOCK read at package reset, by core (R23: readings on different cores are not
comparable; log 9). -/
opaque clockStart : Nat → Nat
/-- The set of a depot line within its slice (R82: the device does not describe the hash). -/
opaque depotSet : LineId → Nat
/-- Which way of a first-level set a fill replaces (R78 states none; log 3). -/
opaque l1Victim : Nat → Nat
/-- Which instruction-cache line a fill replaces (R444 states none; log 3). -/
opaque icVictim : Nat → Nat
/-- Which TLB way a fill replaces (R353 states none; log 3). -/
opaque tlbVictim : Nat → Nat
/-- Bytes that a TLB entry takes in victim storage (R356 states none; log 54). -/
opaque victimBytes : Nat
/-- At a moment, the parity of an entry of victim storage fails (R356; log 54). -/
opaque victimFails : Nat → Bool
/-- At a moment, a place of a peer (package, offset) is memory of class N: the package that stores there is not told
by the spec how it knows (R91, R344, R347; log 25). -/
opaque peerHoldsN : Nat → Nat → Nat → Bool
/-- SHA3-512 of a byte string (R436; log 4). -/
opaque sha3_512 : List (BitVec 8) → Vector (BitVec 8) 64
/-- ML-DSA-87 verification: key, message, signature (R436; log 4). -/
opaque mldsaVerify : List (BitVec 8) → List (BitVec 8) → List (BitVec 8) → Bool
/-- ML-DSA-87 signature of a message by the device identity key, which derives from a secret alone (R439; log 4). -/
opaque identitySign : List (BitVec 8) → List (BitVec 8) → Vector (BitVec 8) 4627
/-- The public alias signing key of a secret and measurements (R439; log 4). -/
opaque aliasPublic : List (BitVec 8) → List (List (BitVec 8)) → Vector (BitVec 8) 2592
/-- ML-DSA-87 signature of a message by the alias signing key of a secret and measurements (R439, R440; log 4). -/
opaque aliasSign : List (BitVec 8) → List (List (BitVec 8)) → List (BitVec 8) → Vector (BitVec 8) 4627
/-- The public alias encapsulation key of a secret and measurements (R439; log 4). -/
opaque aliasEncap : List (BitVec 8) → List (List (BitVec 8)) → List (BitVec 8)
/-- ML-KEM-1024 decapsulation by the private alias encapsulation key; none when it fails (R440; log 4). -/
opaque mlkemDecap : List (BitVec 8) → List (List (BitVec 8)) → List (BitVec 8) → Option (List (BitVec 8))
/-- The protocol that an IDE_KM message of IDEKEY brings a key for (R440 gives no layout; log 4). -/
opaque ideLink : List (BitVec 8) → Machine.IdeLink
/-- The SHA3-512 digest of Beywistad's public key in the boot ROM (R436; log 4). -/
opaque romDigest : Vector (BitVec 8) 64
/-- The package's own serial number (R438; log 4). -/
opaque ownSerial : List (BitVec 8)

end Sys2Proof.Config
end

