-- ==== Sys2Proof/Decode.lean ====
section
/-! DEFINITION. Reading and writing instruction words: kernel words of 64 bits (R140 to R161), dray
commands of 32 bits (R287, R288), and the host's table decoder. -/

namespace Sys2Proof

/-- Why a word is refused. -/
inductive DecodeError where
  /-- A major opcode or pair opcode that is not assigned (R156). -/
  | reservedMajor
  /-- A minor function that its major does not assign (R156). -/
  | reservedMinor
  /-- A reserved value of a type, rounding, kind, scope or other field (R143 to R149). -/
  | reservedField
  /-- A word whose fields break the limits of its instruction (R142, R152, R156). -/
  | illFormed
  /-- A dray command with an unassigned opcode or a nonzero field that R288 marks 0 (R287). -/
  | illegalCommand
  deriving DecidableEq, Repr

/-- Field `[hi:lo]` of a kernel word. -/
def fieldOf (w : BitVec 64) (lo n : Nat) : BitVec n := BitVec.extractLsb' lo n w

/-- Guard at [23:20] (R141, R146, R148, R149). -/
def guardAt (w : BitVec 64) : Guard := ⟨fieldOf w 21 3, w.getLsbD 20⟩

/-- The integer operations by the major and minor of their lane form (R157). -/
def intOpOf : Nat → Nat → Option IntOp
  | 0x10, 0 => some .add | 0x10, 1 => some .sub | 0x10, 4 => some .neg | 0x10, 5 => some .abs
  | 0x12, 0 => some .mul | 0x12, 1 => some .mulHi | 0x12, 2 => some .mulWide
  | 0x12, 3 => some .mad | 0x12, 4 => some .madHi | 0x12, 5 => some .madWide
  | 0x13, 0 => some .min | 0x13, 1 => some .max
  | 0x14, 0 => some .and | 0x14, 1 => some .or | 0x14, 2 => some .xor | 0x14, 3 => some .not
  | 0x14, 4 => some .andn | 0x14, 5 => some .orn | 0x14, 6 => some .xnor
  | 0x15, 0 => some .shl | 0x15, 1 => some .shr | 0x15, 2 => some .sar | 0x15, 3 => some .rol
  | 0x15, 4 => some .ror
  | 0x16, 0 => some .bfe | 0x16, 1 => some .bfi | 0x16, 2 => some .popc | 0x16, 3 => some .clz
  | 0x16, 4 => some .brev
  | 0x19, 0 => some .mov | 0x19, 1 => some .movI64
  | 0x1A, 0 => some .lea | 0x1A, 1 => some .leaN | 0x1A, 2 => some .leaS
  | _, _ => none

def immOpOf : Nat → Option IntImmOp
  | 0 => some .add | 1 => some .sub | 2 => some .and | 3 => some .or | 4 => some .xor
  | 5 => some .min | 6 => some .max | 7 => some .mov | 8 => some .movI64 | _ => none

/-- The lane form of an integer operation as a constructor of its own. -/
def intInstr (op : IntOp) (o : RForm) : Instr :=
  match op with
  | .add => .add o | .sub => .sub o | .neg => .neg o | .abs => .abs o
  | .mul => .mul o | .mulHi => .mulHi o | .mulWide => .mulWide o
  | .mad => .mad o | .madHi => .madHi o | .madWide => .madWide o
  | .min => .min o | .max => .max o
  | .and => .and o | .or => .or o | .xor => .xor o | .not => .not o
  | .andn => .andn o | .orn => .orn o | .xnor => .xnor o
  | .shl => .shl o | .shr => .shr o | .sar => .sar o | .rol => .rol o | .ror => .ror o
  | .bfe => .bfe o | .bfi => .bfi o | .popc => .popc o | .clz => .clz o | .brev => .brev o
  | .mov => .mov o | .movI64 => .movI64 o
  | .lea => .lea o | .leaN => .leaN o | .leaS => .leaS o

def immInstr (op : IntImmOp) (o : IForm) : Instr :=
  match op with
  | .add => .addImm o | .sub => .subImm o | .and => .andImm o | .or => .orImm o | .xor => .xorImm o
  | .min => .minImm o | .max => .maxImm o | .mov => .movImm o | .movI64 => .movI64Imm o

/-- The form a major opcode is laid out in (R157 to R161). -/
inductive Layout where
  | R | I | M | B | E | X
  deriving DecidableEq, Repr

def layoutOf (op : Nat) : Option Layout :=
  if op = 0x01 ∨ op = 0x02 then some .B
  else if op = 0x06 then some .M
  else if op = 0x08 ∨ op = 0x0A ∨ op = 0x0B ∨ op = 0x11 ∨ op = 0x21 then some .I
  else if op = 0x03 ∨ op = 0x04 ∨ op = 0x05 ∨ op = 0x07 ∨ op = 0x09 then some .R
  else if op = 0x10 ∨ (0x12 ≤ op ∧ op ≤ 0x1B) then some .R
  else if op = 0x20 ∨ (0x22 ≤ op ∧ op ≤ 0x26) ∨ op = 0x29 ∨ op = 0x2A then some .R
  else if 0x30 ≤ op ∧ op ≤ 0x35 then some .R
  else if 0x40 ≤ op ∧ op ≤ 0x4C then some .R
  else if 0x50 ≤ op ∧ op ≤ 0x53 then some .M
  else if 0x60 ≤ op ∧ op ≤ 0x64 then some .M
  else if op = 0x65 ∨ op = 0x66 ∨ (0x68 ≤ op ∧ op ≤ 0x6B) then some .R
  else if op = 0x70 ∨ op = 0x74 ∨ op = 0x75 then some .M
  else if op = 0x71 ∨ op = 0x72 ∨ op = 0x73 ∨ op = 0x76 then some .R
  else if 0x78 ≤ op ∧ op ≤ 0x7D then some .E
  else if op = 0x7E then some .R
  else if op = 0x7F then some .X
  else none

/-- The R-form instruction of a major and minor (R157 to R161). The five dispositions of FAULTACK
share one word; the step reads which from the register (R332). -/
def rInstr (op fn : Nat) (o : RForm) : Option Instr :=
  if 0x20 ≤ op ∧ op ≤ 0x2A then (intOpOf (op - 0x10) fn).map fun k => .uniformForm (.r k o)
  else match intOpOf op fn with
  | some k => some (intInstr k o)
  | none => match op, fn with
    | 0x03, 0 => some (.brx o) | 0x03, 1 => some (.ret o)
    | 0x04, 0 => some (.exit o) | 0x05, 0 => some (.yield o)
    | 0x07, n => (EClass.ofCode n).map fun c => .waitc c o
    | 0x09, 0 => some (.rgn o) | 0x09, 1 => some (.rgnEnd o)
    | 0x10, 2 => some (.addc o) | 0x10, 3 => some (.subc o)
    | 0x17, n => (ICmp.ofCode n).map fun c => .icmpp c o
    | 0x18, 0 => some (.sel o) | 0x1B, 0 => some (.dot4 o)
    | 0x30, 0 => some (.pand o) | 0x30, 1 => some (.por o) | 0x30, 2 => some (.pxor o)
    | 0x30, 3 => some (.pandn o) | 0x30, 4 => some (.porn o) | 0x30, 5 => some (.pnot o)
    | 0x30, 6 => some (.pmov o)
    | 0x31, 0 => some (.p2s o) | 0x31, 1 => some (.s2p o)
    | 0x32, n => (ShflMode.ofCode n).map fun c => .shfl c o
    | 0x33, 0 => some (.voteOr o) | 0x33, 1 => some (.voteAnd o) | 0x33, 2 => some (.voteMask o)
    | 0x34, 0 => some (.matchPeers o) | 0x34, 1 => some (.matchSame o)
    | 0x35, n => (ScanOp.ofCode n).map fun c => .scan c o
    | 0x40, 0 => some (.fadd o) | 0x40, 1 => some (.fsub o) | 0x41, 0 => some (.fmul o)
    | 0x42, 0 => some (.ffma o) | 0x42, 1 => some (.ffms o) | 0x42, 2 => some (.ffnma o)
    | 0x43, 0 => some (.fmin o) | 0x43, 1 => some (.fmax o)
    | 0x44, n => (FCmp.ofCode n).map fun c => .fcmpp c o
    | 0x45, 0 => some (.fclass o)
    | 0x46, n => (Ty.ofCode n).map fun t => .cvt t o
    | 0x47, 0 => some (.padd o) | 0x47, 1 => some (.pmul o) | 0x47, 2 => some (.pfma o)
    | 0x47, 3 => some (.pmin o) | 0x47, 4 => some (.pmax o)
    | 0x48, n => (SeedFn.ofCode n).map fun c => .fseed c o
    | 0x49, 0 => some (.frred o) | 0x4A, 0 => some (.fscale o)
    | 0x4B, 0 => some (.fexp o) | 0x4B, 1 => some (.fmant o)
    | 0x4C, n => (Ty.ofCode n).map fun t => .cvtblk t o
    | 0x65, 0 => some (.barrier o)
    | 0x66, 0 => some (.acqBlk o) | 0x66, 1 => some (.acqOpt o) | 0x66, 2 => some (.acqAcc o)
    | 0x66, 3 => some (.relBlk o) | 0x66, 4 => some (.relOpt o) | 0x66, 5 => some (.relAcc o)
    | 0x68, 0 => some (.clean o) | 0x69, 0 => some (.inval o)
    | 0x6A, 1 => some (.fenceAcq o) | 0x6A, 2 => some (.fenceRel o) | 0x6A, 3 => some (.fenceAr o)
    | 0x6A, 4 => some (.fenceSc o)
    | 0x6B, 0 => some (.mswitchBank o) | 0x6B, 1 => some (.mswitchCtl o)
    | 0x71, 0 => some (.tzero o) | 0x72, 0 => some (.mma o) | 0x73, 0 => some (.mmag o)
    | 0x76, 0 => some (.tcvt o)
    | 0x7E, 0 => some (.sget o) | 0x7E, 1 => some (.sput o) | 0x7E, 2 => some (.eret o)
    | 0x7E, 3 => some (.faultackRetry o) | 0x7E, 4 => some (.dbgstep o)
    | 0x7E, 32 => some (.preempt o) | 0x7E, 33 => some (.kill o) | 0x7E, 34 => some (.resume o)
    | 0x7E, 35 => some (.tlbinv o)
    | _, _ => none

def iInstr (op ifn : Nat) (o : IForm) : Option Instr :=
  match op, ifn with
  | 0x08, 0 => some (.ppoint o) | 0x0A, 0 => some (.brk o) | 0x0B, 0 => some (.trap o)
  | 0x11, n => (immOpOf n).map fun k => immInstr k o
  | 0x21, n => (immOpOf n).map fun k => .uniformForm (.i k o)
  | _, _ => none

def mInstr (op mfn : Nat) (o : MForm) : Option Instr :=
  match op, mfn with
  | 0x06, 0 => some (.yieldW o)
  | 0x50, 0 => some (.ld o) | 0x51, 0 => some (.st o) | 0x52, 0 => some (.ldu o)
  | 0x53, 0 => some (.prefetchL1 o) | 0x53, 1 => some (.prefetchDep o)
  | 0x60, n => (AtomOp.ofCode n).map fun k => .atom k o
  | 0x61, n => (AtomOp.ofCode n).map fun k => .red k o
  | 0x62, 0 => some (.cas o)
  | 0x63, 0 => some (.gateInit o) | 0x63, 1 => some (.gateExpect o) | 0x63, 2 => some (.gateArrive o)
  | 0x63, 3 => some (.gatePeek o) | 0x63, 4 => some (.gateWait o) | 0x63, 5 => some (.gateWaitLim o)
  | 0x64, 0 => some (.lock o) | 0x64, 1 => some (.unlock o)
  | 0x70, 0 => some (.tld o) | 0x70, 1 => some (.tst o)
  | 0x74, 0 => some (.tmask o)
  | 0x75, 0 => some (.tdrain o) | 0x75, 1 => some (.tdrainAdd o) | 0x75, 2 => some (.tdrainAddSplit o)
  | _, _ => none

def eInstr (op efn : Nat) (o : EForm) : Option Instr :=
  match op, efn with
  | 0x78, 0 => some (.cpyIn o) | 0x78, 1 => some (.cpyOut o)
  | 0x79, 0 => some (.tdesc o) | 0x79, 1 => some (.tdescAlias o) | 0x79, 2 => some (.mrs o)
  | 0x7A, 0 => some (.rst o) | 0x7A, 1 => some (.wbl o) | 0x7A, 2 => some (.wblAcq o)
  | 0x7B, 0 => some (.redx o)
  | 0x7C, 0 => some (.imxLoad o) | 0x7C, 1 => some (.imxVec o) | 0x7C, 2 => some (.imxRun o)
  | 0x7C, 3 => some (.imxBcast o) | 0x7C, 4 => some (.imxCollect o) | 0x7C, 5 => some (.imxStat o)
  | 0x7D, 0 => some (.grid o)
  | _, _ => none

/-- The R-form fields of a word (R141, R143), where no field value is reserved. -/
def rFields (w : BitVec 64) : Option RForm :=
  match Ty.ofCode (fieldOf w 10 4).toNat, Rm.ofCode (fieldOf w 7 3).toNat, Ck.ofCode (fieldOf w 1 2).toNat with
  | some ty, some rm, some ck =>
    some { d := fieldOf w 48 8, a := fieldOf w 40 8, b := fieldOf w 32 8, c := fieldOf w 24 8
           g := guardAt w, ty := ty, rm := rm, sat := w.getLsbD 6, ftz := w.getLsbD 5
           ua := w.getLsbD 4, ub := w.getLsbD 3, ck := ck, x := w.getLsbD 0 }
  | _, _, _ => none

def iFields (w : BitVec 64) : IForm :=
  { d := fieldOf w 48 8, a := fieldOf w 40 8, g := ⟨fieldOf w 33 3, w.getLsbD 32⟩, imm := fieldOf w 0 32 }

def mFields (w : BitVec 64) : Option MForm :=
  match Scope.ofCode (fieldOf w 4 3).toNat with
  | some sc =>
    some { d := fieldOf w 48 8, a := fieldOf w 40 8, ofs := fieldOf w 24 16 ++ fieldOf w 15 5
           g := guardAt w, ubase := w.getLsbD 14, ac := fieldOf w 7 4, sc := sc
           ord := MOrd.ofCode (fieldOf w 2 2).toNat, sp := w.getLsbD 1, far := w.getLsbD 0 }
  | none => none

def bFields (w : BitVec 64) : BForm := { ofs := fieldOf w 24 32, g := guardAt w, l := fieldOf w 8 8 }

def eFields (w : BitVec 64) : EForm :=
  { e1 := fieldOf w 48 8, e2 := fieldOf w 40 8, e3 := fieldOf w 32 8, e4 := fieldOf w 24 8
    g := guardAt w, emod := fieldOf w 0 16 }

def repFields (w : BitVec 64) : RepForm :=
  { cnt := fieldOf w 50 6, sd := fieldOf w 48 2, sa := fieldOf w 46 2, sb := fieldOf w 44 2, sc := fieldOf w 42 2 }

/-- One slot of a pair word (R151). -/
def slotFields (s : BitVec 31) : Option Slot :=
  (PairOp.ofCode (BitVec.extractLsb' 25 6 s).toNat).map fun p =>
    { pop := p, pd := BitVec.extractLsb' 19 6 s, pa := BitVec.extractLsb' 13 6 s
      pi := BitVec.extractLsb' 0 13 s }

def orErr {α : Type} (e : DecodeError) : Option α → Except DecodeError α
  | some a => .ok a
  | none => .error e

/-- The instruction a full-format word names, before its fields are judged. -/
def rawFull (w : BitVec 64) : Except DecodeError Instr :=
  let op := (fieldOf w 56 7).toNat
  match layoutOf op with
  | none => .error .reservedMajor
  | some .R => match rFields w with
    | none => .error .reservedField
    | some o => orErr .reservedMinor (rInstr op (fieldOf w 14 6).toNat o)
  | some .I => orErr .reservedMinor (iInstr op (fieldOf w 36 4).toNat (iFields w))
  | some .M => match mFields w with
    | none => .error .reservedField
    | some o => orErr .reservedMinor (mInstr op (fieldOf w 11 3).toNat o)
  | some .B =>
    if fieldOf w 16 4 ≠ 0 then .error .reservedMinor
    else if fieldOf w 0 8 ≠ 0 then .error .reservedField
    else if op = 1 then .ok (.bra (bFields w)) else .ok (.call (bFields w))
  | some .E => orErr .reservedMinor (eInstr op (fieldOf w 16 4).toNat (eFields w))
  | some .X => if fieldOf w 0 42 ≠ 0 then .error .reservedField else .ok (.rep (repFields w))

/-- The instruction a word names, before its fields are judged. -/
def rawDecode (w : BitVec 64) : Except DecodeError Instr :=
  if w.getLsbD 63 then
    if w.getLsbD 0 then .error .reservedField
    else match slotFields (fieldOf w 32 31), slotFields (fieldOf w 1 31) with
      | some x, some y => .ok (.pairWord x y)
      | _, _ => .error .reservedMajor
  else rawFull w

/-- The decoder of kernel words; an error is the illegal-instruction trap of R156. -/
def decodeWord (w : BitVec 64) : Except DecodeError Instr :=
  match rawDecode w with
  | .ok i => if i.view.ok then .ok i else .error .illFormed
  | .error e => .error e

/-- A dray command, before its conditional zeros are judged (R288). -/
def rawCommand (w : BitVec 32) : Option Instr :=
  let f := fun lo n => BitVec.extractLsb' lo n w
  let z := fun lo n => (f lo n).toNat = 0
  match (f 26 6).toNat with
  | 0x00 => if z 0 26 then some .dend else none
  | 0x01 => some (.dsel (w.getLsbD 25) (f 12 13) (f 6 6) (f 0 6))
  | 0x02 => if z 16 9 then some (.dadv (w.getLsbD 25) (f 0 16)) else none
  | 0x03 => if z 17 9 then some (.dvset (f 11 6) (f 0 11)) else none
  | 0x04 => if z 16 8 then some (.dlset (w.getLsbD 25) (w.getLsbD 24) (f 0 16)) else none
  | 0x05 => if z 6 19 then some (.dloop (w.getLsbD 25) (f 0 6)) else none
  | 0x06 => if z 16 10 then some (.dwait (f 0 16)) else none
  | 0x08 => if z 0 22 then some (.dmac (f 22 4)) else none
  | 0x09 => if z 0 22 then some (.dmacx (f 22 4)) else none
  | 0x0A => if z 8 18 then some (.dscol (f 0 8)) else none
  | 0x0B => if z 0 25 then some (.dvld (w.getLsbD 25)) else none
  | 0x0C => if z 0 25 then some (.dvst (w.getLsbD 25)) else none
  | 0x0D => if z 0 24 then some (.dadd (w.getLsbD 25) (w.getLsbD 24)) else none
  | 0x0E => if z 0 20 then some (.dscale (f 22 4) (w.getLsbD 21) (w.getLsbD 20)) else none
  | 0x10 => if z 16 10 then some (.dazero (f 0 16)) else none
  | 0x11 => if z 0 25 then some (.dald (w.getLsbD 25)) else none
  | 0x12 => if z 0 26 then some .dacvt else none
  | 0x13 => if z 0 24 then some (.dstore (w.getLsbD 25) (w.getLsbD 24)) else none
  | _ => none

/-- The decoder of dray commands; an error is ILLEGAL_COMMAND (R287). -/
def decodeCommand (w : BitVec 32) : Except DecodeError Instr :=
  match rawCommand w with
  | some i => if drayWf i then .ok i else .error .illegalCommand
  | none => .error .illegalCommand

/-- Bytes of a word, the lowest first (R5, R140). -/
def leBytes (n w : Nat) : List Byte := (List.range n).map fun i => BitVec.ofNat 8 (w >>> (8 * i))

/-- The number that little-endian bytes hold. -/
def leNat : List Byte → Nat
  | [] => 0
  | b :: bs => b.toNat + 256 * leNat bs

/-- The decoder on bytes: eight bytes are a kernel word, and the rest is returned. -/
def decode (bs : List Byte) : Except DecodeError (Instr × List Byte) :=
  if bs.length < 8 then .error .illFormed
  else match decodeWord (BitVec.ofNat 64 (leNat (bs.take 8))) with
    | .ok i => .ok (i, bs.drop 8)
    | .error e => .error e

/-- What the decoder reads from the bits of an opcode-table row: a dray command of 32 bits, a kernel
word of 64 bits; an event row has no word. -/
def decodeTableWord (nbits w : Nat) : Option Instr :=
  if nbits = 32 then
    match decodeCommand (BitVec.ofNat 32 w) with
    | .ok i => some i
    | .error _ => none
  else if nbits = 64 then
    match decode (leBytes 8 w) with
    | .ok (i, _) => some i
    | .error _ => none
  else none

/-! The encoder, from the same tables. -/

def encGuard (g : Guard) : BitVec 4 := g.pg ++ BitVec.ofBool g.ps

/-- An R-form word (R141, R143). -/
def encR (op fn : Nat) (o : RForm) : BitVec 64 :=
  (0#1 ++ BitVec.ofNat 7 op ++ o.d ++ o.a ++ o.b ++ o.c ++ encGuard o.g ++ BitVec.ofNat 6 fn
    ++ BitVec.ofNat 4 o.ty.code ++ BitVec.ofNat 3 o.rm.code ++ BitVec.ofBool o.sat ++ BitVec.ofBool o.ftz
    ++ BitVec.ofBool o.ua ++ BitVec.ofBool o.ub ++ BitVec.ofNat 2 o.ck.code ++ BitVec.ofBool o.x : BitVec _).cast rfl

/-- An I-form word (R145). -/
def encI (op ifn : Nat) (o : IForm) : BitVec 64 :=
  (0#1 ++ BitVec.ofNat 7 op ++ o.d ++ o.a ++ BitVec.ofNat 4 ifn ++ encGuard o.g ++ o.imm : BitVec _).cast rfl

/-- An M-form word (R146). -/
def encM (op mfn : Nat) (o : MForm) : BitVec 64 :=
  (0#1 ++ BitVec.ofNat 7 op ++ o.d ++ o.a ++ BitVec.extractLsb' 5 16 o.ofs ++ encGuard o.g
    ++ BitVec.extractLsb' 0 5 o.ofs ++ BitVec.ofBool o.ubase ++ BitVec.ofNat 3 mfn ++ o.ac
    ++ BitVec.ofNat 3 o.sc.code ++ BitVec.ofNat 2 o.ord.code ++ BitVec.ofBool o.sp ++ BitVec.ofBool o.far
    : BitVec _).cast rfl

/-- A B-form word (R148). -/
def encB (op : Nat) (o : BForm) : BitVec 64 :=
  (0#1 ++ BitVec.ofNat 7 op ++ o.ofs ++ encGuard o.g ++ 0#4 ++ o.l ++ 0#8 : BitVec _).cast rfl

/-- An E-form word (R149). -/
def encE (op efn : Nat) (o : EForm) : BitVec 64 :=
  (0#1 ++ BitVec.ofNat 7 op ++ o.e1 ++ o.e2 ++ o.e3 ++ o.e4 ++ encGuard o.g ++ BitVec.ofNat 4 efn
    ++ o.emod : BitVec _).cast rfl

def encSlot (s : Slot) : BitVec 31 := (BitVec.ofNat 6 s.pop.code ++ s.pd ++ s.pa ++ s.pi : BitVec _).cast rfl

/-- A pair word (R151). -/
def encPair (x y : Slot) : BitVec 64 := (1#1 ++ encSlot x ++ encSlot y ++ 0#1 : BitVec _).cast rfl

/-- The repeat prefix (R154). -/
def encRep (o : RepForm) : BitVec 64 :=
  (0#1 ++ 0x7F#7 ++ o.cnt ++ o.sd ++ o.sa ++ o.sb ++ o.sc ++ 0#42 : BitVec _).cast rfl

/-- The word of a kernel instruction; 0, an illegal word, for what has none. -/
def encode (i : Instr) : BitVec 64 :=
  match i.view with
  | .r d o => encR d.op d.fn o
  | .i d o => encI d.op d.ifn o
  | .m d o => encM d.op d.mfn o
  | .b op o => encB op o
  | .e d o => encE d.op d.efn o
  | .pair x y => encPair x y
  | .rep o => encRep o
  | .other => 0

/-- The command of a dray instruction (R288); an unassigned opcode for what is none. -/
def encodeCommand : Instr → BitVec 32
  | .dend => 0
  | .dsel k r l h => (0x01#6 ++ BitVec.ofBool k ++ r ++ l ++ h : BitVec _).cast rfl
  | .dadv k n => (0x02#6 ++ BitVec.ofBool k ++ 0#9 ++ n : BitVec _).cast rfl
  | .dvset v s => (0x03#6 ++ 0#9 ++ v ++ s : BitVec _).cast rfl
  | .dlset k a n => (0x04#6 ++ BitVec.ofBool k ++ BitVec.ofBool a ++ 0#8 ++ n : BitVec _).cast rfl
  | .dloop k s => (0x05#6 ++ BitVec.ofBool k ++ 0#19 ++ s : BitVec _).cast rfl
  | .dwait n => (0x06#6 ++ 0#10 ++ n : BitVec _).cast rfl
  | .dmac c => (0x08#6 ++ c ++ 0#22 : BitVec _).cast rfl
  | .dmacx c => (0x09#6 ++ c ++ 0#22 : BitVec _).cast rfl
  | .dscol n => (0x0A#6 ++ 0#18 ++ n : BitVec _).cast rfl
  | .dvld k => (0x0B#6 ++ BitVec.ofBool k ++ 0#25 : BitVec _).cast rfl
  | .dvst k => (0x0C#6 ++ BitVec.ofBool k ++ 0#25 : BitVec _).cast rfl
  | .dadd t d => (0x0D#6 ++ BitVec.ofBool t ++ BitVec.ofBool d ++ 0#24 : BitVec _).cast rfl
  | .dscale c t y => (0x0E#6 ++ c ++ BitVec.ofBool t ++ BitVec.ofBool y ++ 0#20 : BitVec _).cast rfl
  | .dazero m => (0x10#6 ++ 0#10 ++ m : BitVec _).cast rfl
  | .dald h => (0x11#6 ++ BitVec.ofBool h ++ 0#25 : BitVec _).cast rfl
  | .dacvt => 0x48000000#32
  | .dstore t h => (0x13#6 ++ BitVec.ofBool t ++ BitVec.ofBool h ++ 0#24 : BitVec _).cast rfl
  | _ => 0xFFFFFFFF#32

/-- The dispositions of FAULTACK share one word (R332): the representative the decoder answers. -/
def Instr.canon : Instr → Instr
  | .faultackSkip o | .faultackRegion o | .faultackKill o | .faultackHold o => .faultackRetry o
  | i => i

end Sys2Proof
end

