-- ==== Sys2Proof/Machine/Ops.lean ====
section
/-! DEFINITION. The named operations over registers, the scratchpad, groups and halts; taking a trap
(R328, R330, R331) and standing a group on its feet again (R332). -/

namespace Sys2Proof.Machine

/-- What a meaning answers. -/
abbrev Out := Host.Outcome State Fault Refusal

/-! Sparse maps. -/

/-- The value at a key. -/
def sget {α : Type} (d : α) : SMap α → Nat → α
  | [], _ => d
  | (k', a) :: m, k => if k = k' then a else sget d m k

/-- Write a value at a key, keeping the canonical form. -/
def sset {α : Type} [DecidableEq α] (d : α) : SMap α → Nat → α → SMap α
  | [], k, a => if a = d then [] else [(k, a)]
  | (k', b) :: m, k, a =>
    if k < k' then (if a = d then (k', b) :: m else (k, a) :: (k', b) :: m)
    else if k = k' then (if a = d then m else (k, a) :: m)
    else (k', b) :: sset d m k a

/-- The canonical form: keys rising, no entry at the default. -/
def swf {α : Type} [DecidableEq α] (d : α) : SMap α → Bool
  | [] => true
  | [(_, a)] => a ≠ d
  | (k, a) :: (k', b) :: m => a ≠ d && decide (k < k') && swf d ((k', b) :: m)

/-- The canonical form of memory: addresses rising, no entry at the value 0 that an unlisted byte reads as
(R430: zero data; log 5). -/
def Memory.wf (m : List Host.Cell) : Bool := swf (0 : Byte) m

/-- Bit `L` of a lane mask. -/
def bitOf (w : Word) (L : Nat) : Bool := w.getLsbD L

/-- A lane mask from a predicate on lanes. -/
def maskOf (f : Nat → Bool) : Word :=
  (List.range 32).foldl (fun w L => if f L then w ||| (1#32 <<< L) else w) 0#32

/-- The lanes of a mask, ascending. -/
def lanesOf (w : Word) : List Nat := (List.range 32).filter (bitOf w)

/-- The lowest lane of a mask, 0 for none. -/
def lowest (w : Word) : Nat := (lanesOf w).head?.getD 0

/-- Fold over the lanes of a mask, ascending. -/
def eachLane {α : Type} (w : Word) (f : α → Nat → α) (a : α) : α := (lanesOf w).foldl f a

/-! Registers (R71). -/

def rdV (g : Group) (r L : Nat) : TW := sget ⟨0, false⟩ g.v (32 * r + L)

def rdS (g : Group) (r : Nat) : TW := sget ⟨0, false⟩ g.s r

/-- p0 reads as all ones with no poison (R71). -/
def rdP (g : Group) (n : Nat) : PW := if n = 0 then ⟨0xFFFFFFFF#32, 0⟩ else sget ⟨0, 0⟩ g.p n

def wrV (g : Group) (r L : Nat) (x : TW) : Group := { g with v := sset ⟨0, false⟩ g.v (32 * r + L) x }

def wrS (g : Group) (r : Nat) (x : TW) : Group := { g with s := sset ⟨0, false⟩ g.s r x }

/-- A write to p0 is ignored (R71). -/
def wrP (g : Group) (n : Nat) (x : PW) : Group :=
  if n = 0 then g else { g with p := sset ⟨0, 0⟩ g.p n x }

/-- Write bit `L` of a predicate register. -/
def wrPBit (g : Group) (n L : Nat) (b t : Bool) : Group :=
  let old := rdP g n
  let put := fun (w : Word) (b : Bool) => if b then w ||| (1#32 <<< L) else w &&& ~~~(1#32 <<< L)
  wrP g n ⟨put old.bits b, put old.tags t⟩

/-- A number with its poison tag. -/
structure Val where
  n : Nat
  tag : Bool
  deriving DecidableEq, Repr

/-- `w` successive lane registers, the first the lowest word (R169). -/
def rdVs (g : Group) (r w L : Nat) : Val :=
  (List.range w).foldr (fun i acc =>
    let x := rdV g (r + i) L
    ⟨x.val.toNat + 2 ^ 32 * acc.n, x.tag || acc.tag⟩) ⟨0, false⟩

def rdSs (g : Group) (r w : Nat) : Val :=
  (List.range w).foldr (fun i acc =>
    let x := rdS g (r + i)
    ⟨x.val.toNat + 2 ^ 32 * acc.n, x.tag || acc.tag⟩) ⟨0, false⟩

/-- Write a number into `w` successive lane registers. -/
def wrVs (g : Group) (r w L n : Nat) (tag : Bool) : Group :=
  (List.range w).foldl (fun g i => wrV g (r + i) L ⟨BitVec.ofNat 32 (n >>> (32 * i)), tag⟩) g

def wrSs (g : Group) (r w n : Nat) (tag : Bool) : Group :=
  (List.range w).foldl (fun g i => wrS g (r + i) ⟨BitVec.ofNat 32 (n >>> (32 * i)), tag⟩) g

/-- The lane registers the group may name (R36). -/
def regHeld (g : Group) : RegName → Bool
  | .v n => decide (n < 64 + 32 * g.h)
  | .t n => decide (n < g.j)
  | .a n => decide (n < g.m)
  | _ => true

def regNumber : RegName → Nat
  | .v n | .s n | .p n | .t n | .a n | .x n => n

def emptyTile : Tile := ⟨[], 0, 0, []⟩

def rdT (g : Group) (n : Nat) : Tile := sget emptyTile g.t n

def wrT (g : Group) (n : Nat) (t : Tile) : Group := { g with t := sset emptyTile g.t n t }

/-- Element (i, j) of an accumulator tile. -/
def rdA (g : Group) (n i j : Nat) : TW := sget ⟨0, false⟩ g.a (1024 * n + 32 * i + j)

def wrA (g : Group) (n i j : Nat) (x : TW) : Group :=
  { g with a := sset ⟨0, false⟩ g.a (1024 * n + 32 * i + j) x }

/-! Lanes and paths (R24, R25). -/

def defaultLane : Lane :=
  { exited := true, pc := 0, region := 0, inRegion := false, k := 0, cnt := 0, rnd := 0, wait := .none, passed := 0, polls := 0, readyAt := 0 }

def Group.lane (g : Group) (L : Nat) : Lane := g.lanes.getD L defaultLane

def mapLanes (g : Group) (f : Nat → Lane → Lane) : Group :=
  { g with lanes := g.lanes.mapIdx fun L ln => f L ln }

/-- The running lanes. -/
def Group.running (g : Group) : Word := maskOf fun L => !(g.lane L).exited

/-- The running lanes that stand at a program counter: a path (R25). -/
def Group.path (g : Group) (pc : BitVec 64) : Word := maskOf fun L => !(g.lane L).exited && (g.lane L).pc = pc

/-- The paths of a group, each by its program counter and lanes. -/
def Group.paths (g : Group) : List (BitVec 64 × Word) :=
  ((List.range 32).filterMap fun L => if (g.lane L).exited then none else some (g.lane L).pc).eraseDups.map
    fun pc => (pc, g.path pc)

/-- A lane goes on from a word at `pc`: to the next word, or inside a repeat prefix to the next repetition, and past
the pair of words after the last (R140, R155). -/
def Lane.past (ln : Lane) (pc : BitVec 64) : Option (Nat × Nat) → Lane
  | none => { ln with pc := pc + 8, polls := 0 }
  | some (n, cnt) => if n < cnt then { ln with k := n + 1 } else { ln with k := 0, pc := pc + 16 }

/-- Lanes of the issue go on, but for those of `stay`. -/
def Group.advance (g : Group) (c : Cur) (stay : Word) : Group :=
  mapLanes g fun L ln => if bitOf c.lanes L && !bitOf stay L then ln.past c.pc c.rep else ln

/-- The address of the word at which a lane that stands at `pc` waits: under a repeat prefix the word after it (R155). -/
def Lane.wordPc (ln : Lane) (pc : BitVec 64) : BitVec 64 := if ln.cnt = 0 then pc else pc + 8

/-- The lanes of a mask, which waited at their word, go on from it and wait for nothing; `cnt` says whether the word
is a repeated one (R155). -/
def Group.leave (g : Group) (lanes : Word) : Group :=
  mapLanes g fun L ln =>
    if bitOf lanes L then
      { ln.past ln.pc (if ln.cnt = 0 then none else some (ln.k, ln.cnt)) with wait := .none, polls := 0, cnt := 0 }
    else ln

/-- The lanes of a mask go on, their next word from a cycle of their side (R228). -/
def Group.goOn (g : Group) (lanes : Word) (cycle : Nat) : Group :=
  mapLanes (g.leave lanes) fun L ln => if bitOf lanes L then { ln with readyAt := cycle } else ln

/-- Lanes of the issue wait at its word. -/
def Group.await (g : Group) (c : Cur) (lanes : Word) (w : Nat → Wait) : Group :=
  mapLanes g fun L ln => if bitOf lanes L then { ln with wait := w L, cnt := (c.rep.map (·.2)).getD 0 } else ln

def Group.setWait (g : Group) (lanes : Word) (w : Wait) : Group :=
  mapLanes g fun L ln => if bitOf lanes L then { ln with wait := w } else ln

/-! Finding things. -/

def State.group? (s : State) (gid : Nat) : Option Group := s.groups.find? (fun g => g.gid = gid)

def State.onGroup (s : State) (gid : Nat) (f : Group → Group) : State :=
  { s with groups := s.groups.map fun g => if g.gid = gid then f g else g }

def State.team? (s : State) (id : Nat) : Option Team := s.teams.find? (fun t => t.id = id)

def State.onTeam (s : State) (id : Nat) (f : Team → Team) : State :=
  { s with teams := s.teams.map fun t => if t.id = id then f t else t }

def State.grid? (s : State) (id : Nat) : Option Grid := s.disp.grids.find? (fun d => d.id = id)

def State.onGrid (s : State) (id : Nat) (f : Grid → Grid) : State :=
  { s with disp := { s.disp with grids := s.disp.grids.map fun d => if d.id = id then f d else d } }

def emptyCtx : Ctx :=
  { pasid := 0, cntGrant := false, brkHold := false, valid := false, lease := 0, budgetField := 0, ebudget := 0
    frameArea := 0, frameLen := 0, lateQ := 0, frames := [] }

def State.ctx (s : State) (n : Nat) : Ctx := sget emptyCtx s.ctxs n

def State.onCtx (s : State) (n : Nat) (f : Ctx → Ctx) : State :=
  { s with ctxs := sset emptyCtx s.ctxs n (f (s.ctx n)) }

/-- The lease length of a context in ticks (R79, R325). -/
def leaseOf (c : Ctx) : Nat := if c.lease = 0 then 128 else c.lease

def sideKey (core side : Nat) : Nat := 4 * core + side

def State.side (s : State) (k : Nat) : Side := sget Side.reset s.cores.sides k

def State.onSide (s : State) (k : Nat) (f : Side → Side) : State :=
  { s with cores := { s.cores with sides := sset Side.reset s.cores.sides k (f (s.side k)) } }

def drayKey (d : DrayId) : Nat := (d.stack * 64 + d.pch) * 16 + d.bg

def drayOfKey (k : Nat) : DrayId := ⟨k / 1024, k / 16 % 64, k % 16⟩

def State.dray (s : State) (k : Nat) : Dray := sget Dray.reset s.drays.drays k

def State.onDray (s : State) (k : Nat) (f : Dray → Dray) : State :=
  { s with drays := { s.drays with drays := sset Dray.reset s.drays.drays k (f (s.dray k)) } }

def State.req? (s : State) (id : Nat) : Option Req := s.eng.reqs.find? (fun r => r.id = id)

def State.onReq (s : State) (id : Nat) (f : Req → Req) : State :=
  { s with eng := { s.eng with reqs := s.eng.reqs.map fun r => if r.id = id then f r else r } }

def State.dropReq (s : State) (id : Nat) : State :=
  { s with eng := { s.eng with reqs := s.eng.reqs.filter fun r => r.id ≠ id } }

def State.op? (s : State) (id : Nat) : Option Op := s.eng.ops.find? (fun o => o.id = id)

def State.onOp (s : State) (id : Nat) (f : Op → Op) : State :=
  { s with eng := { s.eng with ops := s.eng.ops.map fun o => if o.id = id then f o else o } }

def State.send (s : State) (m : HostMsg) : State := { s with sent := s.sent ++ [m] }

/-- A fresh key (log 2). -/
def State.fresh (s : State) : Nat × State := (s.nextId, { s with nextId := s.nextId + 1 })

/-- Put turns at the front of the agenda. -/
def State.push (s : State) (ts : List Turn) : State := { s with agenda := ts ++ s.agenda }

/-! The scratchpad (R74 to R77). -/

/-- The physical scratchpad byte address, over all cores. -/
def spAddr (core base off : Nat) : Nat := core * 393216 + base + off

def spByte (c : Cores) (a : Nat) : Byte := sget 0 c.spad a

def spBytes (c : Cores) (a n : Nat) : List Byte := (List.range n).map fun i => spByte c (a + i)

def spPoison (c : Cores) (a : Nat) : Bool := sget false c.poison (a / 4)

def spGate (c : Cores) (a : Nat) : Bool := sget false c.gate (a / 4)

def spPutByte (c : Cores) (a : Nat) (b : Byte) : Cores := { c with spad := sset 0 c.spad a b }

def spPutPoison (c : Cores) (a : Nat) (t : Bool) : Cores := { c with poison := sset false c.poison (a / 4) t }

/-- Store bytes with one tag a word touched: an untagged store clears a word's poison only where it
writes the whole word (R90). -/
def spPut (c : Cores) (a : Nat) (bs : List Byte) (tag : Nat → Bool) : Cores :=
  let c := (bs.zipIdx).foldl (fun c (b, i) => spPutByte c (a + i) b) c
  let n := bs.length
  let words := ((List.range n).map fun i => (a + i) / 4).eraseDups
  words.foldl (fun c w =>
    let whole := decide (a ≤ 4 * w) && decide (4 * w + 4 ≤ a + n)
    let t := tag (4 * w - a)
    if whole then spPutPoison c (4 * w) t else if t then spPutPoison c (4 * w) true else c) c

/-- The fields of a live gate (R77). -/
structure Gate where
  expect : Nat
  arrived : Nat
  phase : Bool
  deriving DecidableEq, Repr

def gateLive (c : Cores) (a : Nat) : Bool := (List.range 4).all fun i => spGate c (a + 4 * i)

def gateRead (c : Cores) (a : Nat) : Gate :=
  ⟨leNat (spBytes c a 4), leNat (spBytes c (a + 4) 4), (spByte c (a + 8)).getLsbD 0⟩

def gateWrite (c : Cores) (a : Nat) (g : Gate) : Cores :=
  let bs := leBytes 4 g.expect ++ leBytes 4 g.arrived ++ [if g.phase then 1 else 0] ++ List.replicate 7 0
  (bs.zipIdx).foldl (fun c (b, i) => spPutByte c (a + i) b) c

/-- GATE.INIT of one gate (R233). -/
def gateInitAt (c : Cores) (a n : Nat) : Cores :=
  let c := gateWrite c a ⟨n, 0, false⟩
  let c := (List.range 4).foldl (fun c i =>
    { c with gate := sset false c.gate (a / 4 + i) true, poison := sset false c.poison (a / 4 + i) false }) c
  { c with reload := sset 0 c.reload (a / 4) n }

/-- An arrival of `n` (R234); an engine's excess flips the phase and is discarded. The second answer
says that the phase flipped, the third that there was an excess. -/
def gateArriveAt (c : Cores) (a n : Nat) : Cores × Bool × Bool :=
  let g := gateRead c a
  if g.arrived + n < g.expect then (gateWrite c a { g with arrived := g.arrived + n }, false, false)
  else (gateWrite c a ⟨sget 0 c.reload (a / 4), 0, !g.phase⟩, true, decide (g.arrived + n > g.expect))

/-- The scratchpad address of an offset of a team. -/
def Team.sp (t : Team) (off : Nat) : Nat := spAddr t.core t.spBase off

/-- The recorded or replayed task that a grid belongs to (R385). -/
def State.serialOf (s : State) (grid : Nat) : Option Serial :=
  (s.grid? grid).bind fun d => s.disp.serials.find? fun x => x.root = d.root

/-- The tick that a group reads: LTICK, or the issue count of a recorded or replayed task (R386). -/
def State.tickOf (s : State) (g : Group) : Nat :=
  match s.serialOf g.grid with
  | some x => x.count
  | none => s.ltick

/-- The values of some registers of a group: a lane register's in the lanes of `act`, a predicate's bit and tag in those of
`lanes`. -/
def regVals (g : Group) (regs : List RegName) (lanes act : Word) : RegVals :=
  regs.flatMap fun r => match r with
    | .v n => (lanesOf act).map fun L => (r, L, rdV g n L)
    | .s n => [(r, 0, rdS g n)]
    | .p n => (lanesOf lanes).map fun L => (r, L, ⟨if bitOf (rdP g n).bits L then 1 else 0, bitOf (rdP g n).tags L⟩)
    | .t _ | .a _ | .x _ => []

/-- Put values into registers. -/
def Group.putVals (g : Group) (vs : RegVals) : Group :=
  vs.foldl (fun g (r, L, x) => match r with
    | .v n => wrV g n L x
    | .s n => wrS g n x
    | .p n => wrPBit g n L (x.val ≠ 0) x.tag
    | .t _ | .a _ | .x _ => g) g

/-- The values that a request returns reach the registers of a group, and those of its outrider through the entry of the
word in the leader's queue while it is still there (R406). -/
def Group.returned (g : Group) (r : Req) (vs : RegVals) : Group :=
  let others := fun (ps : List PendWrite) => ps.filter fun p => p.ready ≠ .req r.id
  { g.putVals vs with
    pend := others g.pend
    outrider := g.outrider.map fun o =>
      if o.queue.any fun e => e.seq = some r.seq then
        { o with queue := o.queue.map fun e => if e.seq = some r.seq then { e with took := e.took ++ vs } else e }
      else
        let q := Group.putVals { g with v := o.v, s := o.s, p := o.p } vs
        { o with v := q.v, s := q.s, p := q.p, pend := others o.pend } }

/-- A return that is dropped is awaited no more. -/
def Group.forget (g : Group) (r : Req) : Group :=
  let others := fun (ps : List PendWrite) => ps.filter fun p => p.ready ≠ .req r.id
  { g with pend := others g.pend, outrider := g.outrider.map fun o => { o with pend := others o.pend } }

/-- The same register effect on a leader and on its outrider (R406). -/
def Group.both (g : Group) (f : Group → Group) : Group :=
  let h := f g
  match g.outrider with
  | none => h
  | some o =>
    let q := f { g with v := o.v, s := o.s, p := o.p }
    { h with outrider := some { o with v := q.v, s := q.s, p := q.p } }

/-- The lanes of a group that wait on a gate test their conditions (R235): the outcome of a timed wait is 1 where the
phase has flipped no later than the deadline, and 0 where the deadline has come; a recorded or replayed task's lane
goes by the phase at its group's turn (R386). -/
def State.testGates (s : State) (t : Team) (x : Group) : Group :=
  let now := s.tickOf x
  let turn := (s.serialOf x.grid).isSome
  let flipped := fun (o : Nat) (p : Bool) => decide ((gateRead s.cores (t.sp o)).phase ≠ p)
  let hit := maskOf fun L => !(x.lane L).exited && match (x.lane L).wait with
    | .gate o p lim => flipped o p || lim.any fun d => decide (d.1 ≤ now)
    | _ => false
  (eachLane hit (fun (x : Group) L => match (x.lane L).wait with
    | .gate o p (some (dl, r)) => x.both fun y => wrV y r L ⟨if flipped o p && (turn || decide (now ≤ dl)) then 1 else 0, false⟩
    | _ => x) x).goOn hit ((s.side (sideKey x.core x.side)).cycle + 24)

/-- Every lane of the team that waits on a gate tests its condition (R233, R235); a recorded or replayed task's lanes
test theirs at their group's turn (R386). -/
def wakeGate (s : State) (t : Team) : State :=
  { s with groups := s.groups.map fun x =>
      if x.team = t.id && (s.serialOf x.grid).isNone then s.testGates t x else x }

/-! Events counted by a side (R48, R49). -/

/-- Count `n` events of a code on a side, attributed to a slot. -/
def countEvent (s : State) (sk slot code n : Nat) : State :=
  s.onSide sk fun d =>
    { d with evcnt := (List.range 8).foldl (fun m k =>
        let e := (sget 0 d.evsel k).toNat
        let on := natBit e 31 && natBits e 7 0 = code
          && (code = 1 || !natBit e 30 || natBits e 10 8 = slot)
        if on then sset 0 m k (sget 0 m k + BitVec.ofNat 64 n) else m) d.evcnt }

/-! Traps (R327 to R331). -/

/-- What a word asks to be raised: code, lane, INFO and full address. -/
structure TrapReq where
  code : Nat
  lane : Nat
  info : Nat
  full : Nat
  deriving DecidableEq, Repr

/-- FAULTINFO of a trap (R328). -/
def faultWord (code lane info : Nat) : BitVec 64 :=
  BitVec.ofNat 64 (code * 2 ^ 59 + lane % 32 * 2 ^ 54 + info % 2 ^ 54)

/-- The halt state once a trap is taken: one halt, whose cause is the trap (R331, R341), but for a debug step's (R342). -/
def HaltState.trapped : HaltState → HaltState
  | .running | .window _ => .halting .trap
  | .halting .step => .halting .step
  | .halting _ => .halting .trap
  | .halted .step => .halted .step
  | .halted _ => .halted .trap
  | .framed .step => .framed .step
  | .framed _ => .framed .trap

/-- Taking a trap: FAULTINFO is written and the group halts; a group that has a trap to deliver
already takes no second one (R328, R329, R331, R341). -/
def takeTrap (s : State) (gid : Nat) (t : TrapReq) (pc : BitVec 64) : State :=
  match s.group? gid with
  | none => s
  | some g =>
    if g.trap.isSome then s
    else
      let s := countEvent s (sideKey g.core g.side) g.slot 0x41 1
      s.onGroup gid fun g =>
        { g with
          faultInfo := faultWord t.code t.lane t.info
          trap := some { code := t.code, lane := t.lane, info := t.info, full := t.full, pc := pc, tick := s.ltick }
          halt := g.halt.trapped }

/-- A precise trap of the issuing word: no lane moves; inside a repeat prefix the word named is the
repeated one (R155, R330). -/
def raise (s : State) (t : TrapReq) : State :=
  takeTrap s s.cur.gid t (if s.cur.rep.isSome then s.cur.pc + 8 else s.cur.pc)

/-- A trap record with FRAME = 0 waits to be posted (R330, R339, R397). -/
def raiseRecord (s : State) (ctx code info full : Nat) : State :=
  { s with sup := { s.sup with waiting := s.sup.waiting ++
      [(⟨code, 0, info, full, 0, s.ltick⟩, none, ctx)] } }

/-- The group stands up again from its frame: nothing of the halt remains (R332 RETRY, R359). -/
def Group.resumeRun (g : Group) : Group :=
  { g with halt := .running, trap := none, ppoint := none, frame := none, hold := false, parked := false
           stepFrame := none
           lanes := g.lanes.map fun ln => { ln with wait := .none, passed := 0, polls := 0 } }

/-- The issuing group. -/
def onPath (s : State) (k : Group → State) : Out :=
  match s.group? s.cur.gid with
  | some g => .next (k g)
  | none => .fault .noIssuingPath

/-- The active lanes of the issue under a guard (R25, R150). -/
def activeOf (g : Group) (c : Cur) (gd : Guard) : Word :=
  let p := (rdP g gd.pg.toNat).bits
  c.lanes &&& (if gd.ps then ~~~p else p)

/-- A guard bit of an active lane carries poison (R91). -/
def guardPoison (g : Group) (act : Word) (gd : Guard) : Option TrapReq :=
  let bad := act &&& (rdP g gd.pg.toNat).tags
  if bad = 0 then none else some ⟨0x07, lowest bad, 0, 0⟩

/-- The first register a word names that the group does not hold (R38). -/
def mapTrap (i : Instr) (g : Group) (act : Word) : Option TrapReq :=
  match (i.writes ++ i.reads).find? (fun r => !regHeld g r) with
  | some r => some ⟨0x03, lowest act, regNumber r, 0⟩
  | none => none

/-- The path holds every lane of the group and the guard all 32 bits (R34). -/
def convergeTrap (g : Group) (c : Cur) (act : Word) : Option TrapReq :=
  if c.lanes = 0xFFFFFFFF#32 && act = 0xFFFFFFFF#32 && g.running = 0xFFFFFFFF#32 then none
  else some ⟨0x04, lowest act, 0, 0⟩

/-- The checks of every word whatever its guard: R38, R34 where it is collective, then the guard (R91). -/
def wordTrap (i : Instr) (coll : Bool) (g : Group) (c : Cur) (gd : Guard) : Option TrapReq :=
  let act := activeOf g c gd
  match mapTrap i g act with
  | some t => some t
  | none =>
    match (if coll then convergeTrap g c act else none) with
    | some t => some t
    | none => guardPoison g act gd

/-- A word that only changes its group's registers: the checks, the effect over the active lanes, and
on to the next word (R171). -/
def execRegs (i : Instr) (gd : Guard) (f : Group → Word → Group) (s : State) : Out :=
  onPath s fun g =>
    match wordTrap i false g s.cur gd with
    | some t => raise s t
    | none =>
      let act := activeOf g s.cur gd
      s.onGroup s.cur.gid fun g => (if act = 0 then g else f g act).advance s.cur 0

/-- The lanes of the path, advanced. -/
def State.go (s : State) (stay : Word) : State := s.onGroup s.cur.gid fun g => g.advance s.cur stay

/-- The checks of a word that acts on more than registers, then its effect, which moves the path. -/
def execWord (i : Instr) (coll : Bool) (gd : Guard) (f : State → Group → Word → State) (s : State) : Out :=
  onPath s fun g =>
    match wordTrap i coll g s.cur gd with
    | some t => raise s t
    | none =>
      let act := activeOf g s.cur gd
      if act = 0 then s.go 0 else f s g act

end Sys2Proof.Machine
end

