-- ==== Sys2Proof/Machine/Flags.lean ====
section
/-! DEFINITION. The flags of FPSTAT (R60) and the clamping of `.sat` (R51, R170). -/

namespace Sys2Proof.Machine

/-- A set of FPSTAT flags (R60). -/
abbrev Flags := BitVec 7

def fDEN : Flags := 1
def fINV : Flags := 2
def fDZ : Flags := 4
def fOVF : Flags := 8
def fUNF : Flags := 16
def fINX : Flags := 32
def fSAT : Flags := 64

def flagIf (b : Bool) (f : Flags) : Flags := if b then f else 0

/-- FPSTAT is sticky: flags are ORed in (R60). -/
def orFlags (g : Group) (f : Flags) : Group := { g with fpstat := g.fpstat ||| f }

/-- The range of an integer type (R51). -/
def intMin (t : Ty) : Int := if t.signed then -(2 ^ (t.bits - 1) : Nat) else 0

def intMax (t : Ty) : Int := if t.signed then (2 ^ (t.bits - 1) : Nat) - 1 else (2 ^ t.bits : Nat) - 1

def inRange (t : Ty) (x : Int) : Bool := decide (intMin t ≤ x) && decide (x ≤ intMax t)

/-- The nearest bound of a type's range (R170). -/
def clampTo (t : Ty) (x : Int) : Int := if x < intMin t then intMin t else if intMax t < x then intMax t else x

/-- `sat(x)` of R170: the clamped value and the SAT flag. -/
def satTo (on : Bool) (t : Ty) (x : Int) : Int × Flags :=
  if on && !inRange t x then (clampTo t x, fSAT) else (x, 0)

/-- `num(x)` of R170, for a value of the type's width. -/
def numOf (t : Ty) (n : Nat) : Int := if t.signed then natSext n t.bits else (n % 2 ^ t.bits : Nat)

end Sys2Proof.Machine
end

