-- ==== Sys2Proof/Machine/Float.lean ====
section
/-! DEFINITION. Floating-point values and arithmetic: formats (R52 to R54), rounding (R55 to R57), special
values (R58, R59), conversions (R62, R63), all on exact integers. -/

namespace Sys2Proof.Machine

/-- A format of R52: exponent bits, fraction bits, and whether it has infinities. -/
structure Fmt where
  e : Nat
  f : Nat
  inf : Bool
  deriving DecidableEq, Repr

def Fmt.bias (t : Fmt) : Nat := 2 ^ (t.e - 1) - 1

def fF32 : Fmt := ⟨8, 23, true⟩
def fBF16 : Fmt := ⟨8, 7, true⟩
def fF16 : Fmt := ⟨5, 10, true⟩
def fE4M3 : Fmt := ⟨4, 3, false⟩
def fE5M2 : Fmt := ⟨5, 2, true⟩
def fE2M1 : Fmt := ⟨2, 1, false⟩

/-- The format of a type. -/
def fmtOf : Ty → Fmt
  | .bf16 => fBF16
  | .f16 => fF16
  | .e4m3 => fE4M3
  | .e5m2 => fE5M2
  | .mx4 => fE2M1
  | _ => fF32

/-- A value: NaN, an infinity, or (−1)^neg × m × 2^e. -/
inductive FVal where
  | nan (signalling : Bool)
  | inf (neg : Bool)
  | fin (neg : Bool) (m : Nat) (e : Int)
  deriving DecidableEq, Repr

/-- The exponent of the unit of the subnormals. -/
def Fmt.qmin (t : Fmt) : Int := 1 - (t.bias : Int) - t.f

def Fmt.width (t : Fmt) : Nat := 1 + t.e + t.f

/-- The code of the largest finite magnitude (R53). -/
def Fmt.maxCode (t : Fmt) : Nat :=
  if t = fE4M3 then 0x7E else if t = fE2M1 then 7 else (2 ^ t.e - 1) * 2 ^ t.f - 1

/-- The canonical NaN (R53). -/
def Fmt.nan (t : Fmt) : Nat :=
  if t = fE4M3 then 0x7F else (2 ^ t.e - 1) * 2 ^ t.f + 2 ^ (t.f - 1)

def Fmt.infCode (t : Fmt) : Nat := (2 ^ t.e - 1) * 2 ^ t.f

def Fmt.sign (t : Fmt) (neg : Bool) : Nat := if neg then 2 ^ (t.e + t.f) else 0

/-- Read a bit pattern (R52). -/
def unpack (t : Fmt) (n : Nat) : FVal :=
  let neg := natBit n (t.e + t.f)
  let E := natBits n (t.e + t.f - 1) t.f
  let F := n % 2 ^ t.f
  if t.inf && E = 2 ^ t.e - 1 then (if F = 0 then .inf neg else .nan (!natBit F (t.f - 1)))
  else if t = fE4M3 && E = 15 && F = 7 then .nan false
  else if E = 0 then .fin neg F t.qmin
  else .fin neg (2 ^ t.f + F) (E - 1 + t.qmin)

/-- A subnormal pattern. -/
def isSubnormal (t : Fmt) (n : Nat) : Bool := natBits n (t.e + t.f - 1) t.f = 0 && n % 2 ^ t.f ≠ 0

/-- What a rounding yields: the code without its sign, flags, and whether the magnitude went up. -/
structure Rounded where
  code : Nat
  flags : Flags
  up : Bool
  beyond : Bool
  deriving DecidableEq, Repr

/-- Round `m × 2^e`, and a little more where `sticky`, to a format (R55 to R57); `draw` is N of R56. -/
def roundMag (t : Fmt) (rm : Rm) (draw : Nat) (neg : Bool) (m : Nat) (e : Int) (sticky : Bool) : Rounded :=
  if m = 0 && !sticky then ⟨0, 0, false, false⟩
  else
    let q := max ((Nat.log2 m : Int) + e - t.f) t.qmin
    let sh := (q - e).toNat
    let kept := if e ≥ q then m <<< (e - q).toNat else m >>> sh
    let rem := if e ≥ q then 0 else m % 2 ^ sh
    let half := if e ≥ q then 0 else 2 ^ sh / 2
    let inexact := rem ≠ 0 || sticky
    let up := match rm with
      | .rn => if e ≥ q || half = 0 then false
               else if rem > half then true
               else if rem = half then sticky || kept % 2 = 1 else false
      | .rz => false
      | .ru => inexact && !neg
      | .rd => inexact && neg
      | .rs => inexact && decide ((rem <<< 24) >>> sh + draw ≥ 2 ^ 24)
    let mag := if up then kept + 1 else kept
    let code := if mag = 0 then 0 else mag + (q - t.qmin).toNat * 2 ^ t.f
    if code > t.maxCode then
      let toInf := match rm with
        | .rn => true
        | .rz => false
        | .ru => !neg
        | .rd => neg
        | .rs => up
      let c := if t = fE4M3 then t.nan
               else if t.inf && toInf then t.infCode else t.maxCode
      ⟨c, fOVF ||| fINX, up, true⟩
    else ⟨code, flagIf inexact fINX ||| flagIf (inexact && mag ≠ 0 && mag < 2 ^ t.f) fUNF, up, false⟩

/-- Round a signed exact value. -/
def roundTo (t : Fmt) (rm : Rm) (neg : Bool) (m : Nat) (e : Int) (sticky : Bool) : Nat × Flags :=
  let r := roundMag t rm 0 neg m e sticky
  (t.sign neg + r.code, r.flags)

/-- A subnormal result is written as zero under `.ftz` (R59). -/
def flushOut (t : Fmt) (ftz : Bool) (r : Nat × Flags) : Nat × Flags :=
  if ftz && isSubnormal t r.1 then (t.sign (natBit r.1 (t.e + t.f)), r.2 ||| fUNF ||| fINX) else r

/-- A subnormal input is read as zero under `.ftz` (R59). -/
def flushIn (t : Fmt) (ftz : Bool) (n : Nat) : Nat × Flags :=
  if ftz && isSubnormal t n then (t.sign (natBit n (t.e + t.f)), fDEN) else (n, 0)

def isNan : FVal → Bool
  | .nan _ => true
  | _ => false

def isSnan : FVal → Bool
  | .nan s => s
  | _ => false

def FVal.negate : FVal → FVal
  | .inf n => .inf (!n)
  | .fin n m e => .fin (!n) m e
  | v => v

/-- The exact value as a signed integer over a common exponent. -/
def alignTo (neg : Bool) (m : Nat) (e b : Int) : Int :=
  let x : Int := (m * 2 ^ (e - b).toNat : Nat)
  if neg then -x else x

/-- The exact sum of two finite values, the sign of an exact zero by R58. -/
def addFin (rm : Rm) (n1 : Bool) (m1 : Nat) (e1 : Int) (n2 : Bool) (m2 : Nat) (e2 : Int) : Bool × Nat × Int :=
  let b := min e1 e2
  let s := alignTo n1 m1 e1 b + alignTo n2 m2 e2 b
  if s = 0 then
    (if m1 = 0 && m2 = 0 && n1 = n2 then n1 else rm = .rd, 0, b)
  else (decide (s < 0), s.natAbs, b)

/-- The exact sum of two values, rounded once (R202, R57, R58). -/
def fAddV (t : Fmt) (rm : Rm) (x y : FVal) : Nat × Flags :=
  if isNan x || isNan y then (t.nan, flagIf (isSnan x || isSnan y) fINV)
  else match x, y with
    | .inf a, .inf b => if a = b then (t.sign a + t.infCode, 0) else (t.nan, fINV)
    | .inf a, _ => (t.sign a + t.infCode, 0)
    | _, .inf b => (t.sign b + t.infCode, 0)
    | .fin n1 m1 e1, .fin n2 m2 e2 =>
      let (n, m, e) := addFin rm n1 m1 e1 n2 m2 e2
      roundTo t rm n m e false
    | _, _ => (t.nan, 0)

/-- The exact product of two values; INV for 0 × ∞ (R58). -/
def mulV (x y : FVal) : FVal × Flags :=
  match x, y with
  | .nan a, .nan b => (.nan false, flagIf (a || b) fINV)
  | .nan a, _ => (.nan false, flagIf a fINV)
  | _, .nan b => (.nan false, flagIf b fINV)
  | .inf a, .inf b => (.inf (a ≠ b), 0)
  | .inf a, .fin b m _ => if m = 0 then (.nan false, fINV) else (.inf (a ≠ b), 0)
  | .fin a m _, .inf b => if m = 0 then (.nan false, fINV) else (.inf (a ≠ b), 0)
  | .fin a m e, .fin b n f => (.fin (a ≠ b) (m * n) (e + f), 0)

/-- Round a value to a format. -/
def roundV (t : Fmt) (rm : Rm) : FVal → Nat × Flags
  | .nan s => (t.nan, flagIf s fINV)
  | .inf n => (t.sign n + t.infCode, 0)
  | .fin n m e => roundTo t rm n m e false

def fMulV (t : Fmt) (rm : Rm) (x y : FVal) : Nat × Flags :=
  let (p, fl) := mulV x y
  let (r, fl') := roundV t rm p
  (r, fl ||| fl')

/-- x × y + z, rounded once (R202, R58). -/
def fFmaV (t : Fmt) (rm : Rm) (x y z : FVal) : Nat × Flags :=
  let (p, fl) := mulV x y
  let (r, fl') := fAddV t rm p z
  (r, fl ||| fl')

/-- A comparison of two values that are not NaN: −1, 0 or 1; zeros compare equal. -/
def fCmpV (x y : FVal) : Int :=
  match x, y with
  | .inf a, .inf b => if a = b then 0 else if a then -1 else 1
  | .inf a, _ => if a then -1 else 1
  | _, .inf b => if b then 1 else -1
  | .fin n1 m1 e1, .fin n2 m2 e2 =>
    let b := min e1 e2
    let d := alignTo n1 m1 e1 b - alignTo n2 m2 e2 b
    if d < 0 then -1 else if d = 0 then 0 else 1
  | _, _ => 0

def isNegZero : FVal → Bool
  | .fin true 0 _ => true
  | _ => false

/-- FMIN and FMAX on patterns (R203): −0 is less than +0. -/
def fMinMax (t : Fmt) (isMax : Bool) (a b : Nat) : Nat × Flags :=
  let x := unpack t a
  let y := unpack t b
  let fl := flagIf (isSnan x || isSnan y) fINV
  if isNan x && isNan y then (t.nan, fl)
  else if isNan x then (b, fl)
  else if isNan y then (a, fl)
  else
    let c := fCmpV x y
    let less := c < 0 || (c = 0 && isNegZero x && !isNegZero y)
    let more := c > 0 || (c = 0 && isNegZero y && !isNegZero x)
    if isMax then (if less then b else a, fl) else (if more then b else a, fl)

/-- FCMPP on patterns (R204). -/
def fCompare (t : Fmt) (k : FCmp) (a b : Nat) : Bool × Flags :=
  let x := unpack t a
  let y := unpack t b
  let anyNan := isNan x || isNan y
  let sn := isSnan x || isSnan y
  let c := fCmpV x y
  match k with
  | .eq => (!anyNan && c = 0, flagIf sn fINV)
  | .ne => (anyNan || c ≠ 0, flagIf sn fINV)
  | .lt => (!anyNan && c < 0, flagIf anyNan fINV)
  | .le => (!anyNan && c ≤ 0, flagIf anyNan fINV)
  | .gt => (!anyNan && c > 0, flagIf anyNan fINV)
  | .ge => (!anyNan && c ≥ 0, flagIf anyNan fINV)
  | .un => (anyNan, flagIf sn fINV)
  | .ord => (!anyNan, flagIf sn fINV)

/-- The class bit of FCLASS (R205). -/
def fClassBit (t : Fmt) (n : Nat) : Nat :=
  match unpack t n with
  | .nan s => if s then 0 else 1
  | .inf neg => if neg then 2 else 9
  | .fin neg m _ =>
    if m = 0 then (if neg then 5 else 6)
    else if isSubnormal t n then (if neg then 4 else 7)
    else (if neg then 3 else 8)

/-- The step of a lane's stochastic register (R56). -/
def lfsr (s : Word) : Word := (s >>> 1) ^^^ (if s.getLsbD 0 then 0x80200003#32 else 0)

/-- The seed of a lane (R56). -/
def seedLane (w : Word) (L : Nat) : Word :=
  let x := w ^^^ BitVec.ofNat 32 (L * 0x9E3779B9)
  if x = 0 then 1 else x

/-- Round an exact magnitude to an integer by a mode (R62, R211); the answer with inexactness. -/
def roundInt (rm : Rm) (draw : Nat) (neg : Bool) (m : Nat) (e : Int) : Int × Bool :=
  if e ≥ 0 then (alignTo neg m e 0, false)
  else
    let sh := (-e).toNat
    let kept := m >>> sh
    let rem := m % 2 ^ sh
    let inexact := decide (rem ≠ 0)
    let up := match rm with
      | .rn => decide (2 * rem > 2 ^ sh) || (2 * rem = 2 ^ sh && kept % 2 = 1)
      | .rz => false
      | .ru => inexact && !neg
      | .rd => inexact && neg
      | .rs => inexact && decide ((rem <<< 24) >>> sh + draw ≥ 2 ^ 24)
    let k : Int := (if up then kept + 1 else kept : Nat)
    (if neg then -k else k, inexact)

/-- One float format holds every value of another (R62). -/
def wider (dst src : Ty) : Bool :=
  match dst, src with
  | .f32, .f32 => false
  | .f32, _ => true
  | .f16, .e4m3 | .f16, .e5m2 | .bf16, .e4m3 | .bf16, .e5m2 => true
  | _, _ => false

/-- A conversion of R62: destination, source, mode, `.sat`, draw, pattern. An infinity that `.sat` makes the largest value
of a narrower float sets SAT alone (log 64). -/
def convert (dst src : Ty) (rm : Rm) (sat : Bool) (draw n : Nat) : Nat × Flags :=
  if src.isFloat then
    let x := unpack (fmtOf src) n
    if dst.isFloat then
      let t := fmtOf dst
      match x with
      | .nan s => if dst = src then (n, 0) else (t.nan, flagIf s fINV)
      | .inf neg =>
        if dst = src then (n, 0)
        else if sat && !wider dst src then (t.sign neg + t.maxCode, fSAT)
        else if t = fE4M3 then (t.sign neg + t.nan, fOVF ||| fINX)
        else (t.sign neg + t.infCode, 0)
      | .fin neg m e =>
        if dst = src then (n, 0)
        else
          let r := roundMag t rm draw neg m e false
          if sat && r.beyond then (t.sign neg + t.maxCode, r.flags ||| fSAT)
          else (t.sign neg + r.code, r.flags)
    else
      match x with
      | .nan _ => (0, fINV)
      | .inf neg => (wrapNat (if neg then intMin dst else intMax dst) dst.bits, fSAT)
      | .fin neg m e =>
        let (i, inx) := roundInt rm draw neg m e
        (wrapNat (clampTo dst i) dst.bits, flagIf inx fINX ||| flagIf (!inRange dst i) fSAT)
  else
    let v := numOf src n
    if dst.isFloat then
      let t := fmtOf dst
      let r := roundMag t rm draw (v < 0) v.natAbs 0 false
      if sat && r.beyond then (t.sign (v < 0) + t.maxCode, r.flags ||| fSAT)
      else (t.sign (v < 0) + r.code, r.flags)
    else if dst = src then (n % 2 ^ dst.bits, 0)
    else if sat then (wrapNat (clampTo dst v) dst.bits, flagIf (!inRange dst v) fSAT)
    else (wrapNat v dst.bits, 0)

/-- NaN → any float comes first in R62, so a NaN of the same format is made canonical too. -/
def convertTo (dst src : Ty) (rm : Rm) (sat : Bool) (draw n : Nat) : Nat × Flags :=
  if src.isFloat && dst.isFloat && isNan (unpack (fmtOf src) n) then
    ((fmtOf dst).nan, flagIf (isSnan (unpack (fmtOf src) n)) fINV)
  else convert dst src rm sat draw n

/-- The order of magnitudes of two finite values. -/
def magLess (m1 : Nat) (e1 : Int) (m2 : Nat) (e2 : Int) : Bool :=
  let b := min e1 e2
  decide (m1 * 2 ^ (e1 - b).toNat < m2 * 2 ^ (e2 - b).toNat)

/-- The MXFP4 block of 32 values with their draws (R63): scale code, element codes, flags. -/
def mxBlock (rm : Rm) (xs : List (FVal × Nat)) : Nat × List Nat × Flags :=
  if xs.any fun (x, _) => match x with
      | .fin _ _ _ => false
      | _ => true
  then (0xFF, xs.map fun _ => 0, fINV)
  else
    let top := xs.foldl (fun (best : Nat × Int) (x : FVal × Nat) => match x.1 with
      | .fin _ m e => if magLess best.1 best.2 m e then (m, e) else best
      | _ => best) (0, 0)
    if top.1 = 0 then
      (0, xs.map fun (x, _) => match x with
        | .fin true _ _ => 8
        | _ => 0, 0)
    else
      let k0 : Int := (Nat.log2 top.1 : Int) + top.2 - 2
      let k : Int := max (-127) (min 127 k0)
      let rs := xs.map fun (x, dr) => match x with
        | .fin neg m e =>
          let r := roundMag fE2M1 rm dr neg m (e - k) false
          -- a block never sets OVF; beyond 6 it clamps with SAT and INX
          let fl := if r.beyond then fSAT ||| fINX else r.flags
          ((if neg then 8 else 0) + r.code, fl)
        | _ => (0, 0)
      ((k + 127).toNat, rs.map (·.1), rs.foldl (fun f r => f ||| r.2) 0)

/-! Seeds of R210: the exact function value to a 12-bit fraction, ties to even. -/

/-- Round to a 12-bit fraction in FP32's exponent range, or to FP32's subnormal grid where coarser. -/
def roundSeed (neg : Bool) (m : Nat) (e : Int) (sticky : Bool) : Nat × Flags :=
  let t : Fmt := ⟨8, 12, true⟩
  let E : Int := (Nat.log2 m : Int) + e
  if E - 12 < fF32.qmin then roundTo fF32 .rn neg m e sticky
  else
    -- the 12-bit grid without FP32's lower bound, then exactly an FP32 value
    let q := E - 12
    let sh := (q - e).toNat
    let kept := if e ≥ q then m <<< (e - q).toNat else m >>> sh
    let rem := if e ≥ q then 0 else m % 2 ^ sh
    let half := if e ≥ q then 0 else 2 ^ sh / 2
    let up := decide (rem > half) || (decide (0 < half) && rem = half && (sticky || kept % 2 = 1))
    let (r, fl) := roundTo fF32 .rn neg (if up then kept + 1 else kept) q false
    let inx := rem ≠ 0 || sticky
    let sub := isSubnormal fF32 r
    let _ := t
    (r, fl ||| flagIf inx fINX ||| flagIf (inx && sub) fUNF)

/-- 1/x for finite nonzero x: the quotient to 64 bits with a sticky rest. -/
def seedRcp (neg : Bool) (m : Nat) (e : Int) : Nat × Flags :=
  let n := 2 ^ (Nat.log2 m + 64)
  roundSeed neg (n / m) (-(Nat.log2 m + 64 : Nat) - e) (n % m ≠ 0)

/-- 1/√x for finite positive x. -/
def seedRsq (m : Nat) (e : Int) : Nat × Flags :=
  -- x = m2 × 4^h; 1/√x = √(4^j / m2) / 2^(j + h)
  let (m2, h) := if e % 2 = 0 then (m, e / 2) else (2 * m, (e - 1) / 2)
  let j := Nat.log2 m2 + 64
  let n := 4 ^ j / m2
  let r := Nat.sqrt n
  roundSeed false r (-(j : Int) - h) (r * r * m2 ≠ 4 ^ j)

/-- Bits of precision of the fixed-point evaluations below. -/
def fxBits : Nat := 128

/-- ln 2 in fixed point: the sum of 1/(k 2^k). -/
def fxLn2 : Nat := (List.range 140).foldl (fun a k => a + 2 ^ fxBits / ((k + 1) * 2 ^ (k + 1))) 0

/-- ln(1 + z) for 0 ≤ z < 1 in fixed point, by 2 artanh(z / (2 + z)). -/
def fxLn1p (z : Nat) : Nat :=
  let one := 2 ^ fxBits
  let w := z * one / (2 * one + z)
  let w2 := w * w / one
  2 * ((List.range 60).foldl (fun (acc : Nat × Nat) k => (acc.1 + acc.2 / (2 * k + 1), acc.2 * w2 / one)) (0, w)).1

/-- e^z for 0 ≤ z < 1 in fixed point. -/
def fxExp (z : Nat) : Nat :=
  let one := 2 ^ fxBits
  ((List.range 45).foldl (fun (acc : Nat × Nat) k => (acc.1 + acc.2, acc.2 * z / one / (k + 1))) (0, one)).1

/-- log2 of a finite positive value other than a power of two. -/
def seedLg2 (m : Nat) (e : Int) : Nat × Flags :=
  let E : Int := (Nat.log2 m : Int) + e
  let one := 2 ^ fxBits
  if m = 2 ^ Nat.log2 m then roundSeed (E < 0) E.natAbs 0 false
  else
    let z := (m * one) / 2 ^ Nat.log2 m - one
    let v : Int := E * one + (fxLn1p z * one / fxLn2 : Nat)
    roundSeed (v < 0) v.natAbs (-(fxBits : Int)) true

/-- 2^x for finite x in range. -/
def seedEx2 (neg : Bool) (m : Nat) (e : Int) : Nat × Flags :=
  let one : Nat := 2 ^ fxBits
  let x : Int := alignTo neg (if e + fxBits ≥ 0 then m * 2 ^ (e + fxBits).toNat else m >>> (-(e + fxBits)).toNat) 0 0
  let n : Int := x / (one : Int)
  let f : Nat := (x % (one : Int)).toNat
  let exact := (decide (e + fxBits ≥ 0) || m % 2 ^ (-(e + fxBits)).toNat = 0) && f = 0
  if exact then roundSeed false 1 n false
  else roundSeed false (fxExp (f * fxLn2 / one)) (n - fxBits) true

/-- FSEED of a pattern (R210). -/
def fSeed (k : SeedFn) (n : Nat) : Nat × Flags :=
  match unpack fF32 n with
  | .nan s => (fF32.nan, flagIf s fINV)
  | .inf neg => match k with
    | .rcp => (fF32.sign neg, 0)
    | .rsq => if neg then (fF32.nan, fINV) else (0, 0)
    | .lg2 => if neg then (fF32.nan, fINV) else (fF32.infCode, 0)
    | .ex2 => if neg then (0, 0) else (fF32.infCode, 0)
  | .fin neg m e =>
    match k with
    | .rcp => if m = 0 then (fF32.sign neg + fF32.infCode, fDZ) else seedRcp neg m e
    | .rsq => if m = 0 then (fF32.sign neg + fF32.infCode, fDZ)
              else if neg then (fF32.nan, fINV) else seedRsq m e
    | .lg2 => if m = 0 then (fF32.sign true + fF32.infCode, fDZ)
              else if neg then (fF32.nan, fINV) else seedLg2 m e
    | .ex2 =>
      let b := min e 0
      let x := alignTo neg m e b
      if x ≥ 128 * 2 ^ (-b).toNat then (fF32.infCode, fOVF ||| fINX)
      else if x < -150 * 2 ^ (-b).toNat then (0, fUNF ||| fINX)
      else seedEx2 neg m e

/-- FRRED (R211): the integer part and the fraction's pattern; the zero fraction of −0 is +0 (log 69). -/
def fRred (rm : Rm) (n : Nat) : Int × Nat × Flags :=
  match unpack fF32 n with
  | .nan s => (0, fF32.nan, flagIf s fINV)
  | .inf neg => (if neg then -512 else 512, 0, 0)
  | .fin neg m e =>
    let b := min e 0
    if alignTo false m e b > 512 * 2 ^ (-b).toNat then (if neg then -512 else 512, 0, 0)
    else
      let (i, _) := roundInt rm 0 neg m e
      let d := alignTo neg m e b - i * 2 ^ (-b).toNat
      if d = 0 then (i, 0, 0)
      else
        let (f, fl) := roundTo fF32 .rn (d < 0) d.natAbs b false
        (i, f, fl &&& fINX)

/-- FSCALE (R212). -/
def fScale (t : Fmt) (rm : Rm) (n : Nat) (k : Int) : Nat × Flags :=
  match unpack t n with
  | .fin neg m e => roundTo t rm neg m (e + max (-2000) (min 2000 k)) false
  | v => roundV t rm v

/-- FEXP (R213). -/
def fExp (t : Fmt) (n : Nat) : Nat × Flags :=
  match unpack t n with
  | .nan _ => (0x7FFFFFFF, fINV)
  | .inf _ => (0x7FFFFFFF, 0)
  | .fin _ m e => if m = 0 then (0x80000000, 0) else (wrapNat ((Nat.log2 m : Int) + e) 32, 0)

/-- FMANT (R213). -/
def fMant (t : Fmt) (n : Nat) : Nat × Flags :=
  match unpack t n with
  | .nan s => (t.nan, flagIf s fINV)
  | .inf _ => (n, 0)
  | .fin neg m _ => if m = 0 then (n, 0) else roundTo t .rn neg m (-(Nat.log2 m : Int)) false

/-- The FP32 add of the adders and drains: `.rn`, no flag (R76, R230). -/
def addF32 (a b : Nat) : Nat := (fAddV fF32 .rn (unpack fF32 a) (unpack fF32 b)).1

/-- A packed add of two 16-bit elements (R230). -/
def addPair (t : Fmt) (a b : Nat) : Nat :=
  let el := fun k => (fAddV t .rn (unpack t (natBits a (16 * k + 15) (16 * k)))
    (unpack t (natBits b (16 * k + 15) (16 * k)))).1
  el 0 + 2 ^ 16 * el 1

end Sys2Proof.Machine
end

