-- ==== Sys2Proof/Machine/Operands.lean ====
section
/-! DEFINITION. The operand forms: lane and uniform sources, immediates (R169, R200), memory bases and
offsets (R220), and the stepped fields of the repeat prefix (R154). -/

namespace Sys2Proof.Machine

/-- The immediate of R169: `sext(C, 8)` as `w` bits. -/
def immW (c : BitVec 8) (w : Nat) : Nat := wrapNat (natSext c.toNat 8) w

/-- Field A of lane `L`, `n` registers wide (R169); in a uniform form the field names uniform registers. -/
def srcA (uni : Bool) (g : Group) (o : RForm) (n L : Nat) : Val :=
  if uni || o.ua then rdSs g o.a.toNat n else rdVs g o.a.toNat n L

/-- Field B, or the immediate of a two-source word under CK = 0b10 (R169). -/
def srcB (uni : Bool) (g : Group) (o : RForm) (n L : Nat) (two : Bool) : Val :=
  if two && o.ck = .imm then ⟨immW o.c (32 * n), false⟩
  else if uni || o.ub then rdSs g o.b.toNat n else rdVs g o.b.toNat n L

/-- Field C of a three-source word (R169). -/
def srcC (uni : Bool) (g : Group) (o : RForm) (n L : Nat) : Val :=
  match o.ck with
  | .imm => ⟨immW o.c (32 * n), false⟩
  | .uni => rdSs g o.c.toNat n
  | .lane => if uni then rdSs g o.c.toNat n else rdVs g o.c.toNat n L

/-- A number from an E-form uniform register. -/
def uniN (g : Group) (r : BitVec 8) : Nat := (rdS g r.toNat).val.toNat

/-- A 64-bit number from a uniform pair. -/
def uniPair (g : Group) (r : BitVec 8) : Nat := (rdSs g r.toNat 2).n

/-- The signed offset of an M-form word (R220). -/
def mOfs (o : MForm) : Int := natSext o.ofs.toNat 21

/-- The base of a lane (R220): a pair for a global access, a word for the scratchpad. -/
def mBaseVal (g : Group) (o : MForm) (global : Bool) (L : Nat) : Val :=
  let w := if global then 2 else 1
  if o.ubase then rdSs g o.a.toNat w else rdVs g o.a.toNat w L

/-- `adr(L)` of R220. -/
def globalAddr (g : Group) (o : MForm) (L : Nat) : Nat :=
  wrapNat ((mBaseVal g o true L).n + mOfs o) 64

/-- `off(L)` of R220, an unbounded integer. -/
def spOffset (g : Group) (o : MForm) (L : Nat) : Int := (mBaseVal g o false L).n + mOfs o

/-- A field value after `n - 1` steps; none outside 0 to 255 (R154). -/
def stepField (f : BitVec 8) (st : BitVec 2) (n : Nat) : Option (BitVec 8) :=
  let v : Int := f.toNat + (n - 1 : Nat) * stepValue st
  if 0 ≤ v ∧ v ≤ 255 then some (BitVec.ofInt 8 v) else none

/-- Repetition `n` of a word: its stepped fields, decoded again (R154). -/
def stepWord (p : RepForm) (w : BitVec 64) (n : Nat) : Option Instr :=
  match stepField (fieldOf w 48 8) p.sd n, stepField (fieldOf w 40 8) p.sa n,
        stepField (fieldOf w 32 8) p.sb n, stepField (fieldOf w 24 8) p.sc n with
  | some d, some a, some b, some c =>
    let w' : BitVec 64 := (fieldOf w 56 8 ++ d ++ a ++ b ++ c ++ fieldOf w 0 24 : BitVec _).cast rfl
    match decodeWord w' with
    | .ok i => some i
    | .error _ => none
  | _, _, _, _ => none

/-- A word may be repeated (R155). -/
def repeatable (w : BitVec 64) : Bool :=
  let op := (fieldOf w 56 7).toNat
  !w.getLsbD 63 && decide (0x10 ≤ op) && op ≠ 0x7E && op ≠ 0x7F

end Sys2Proof.Machine
end

