-- ==== Sys2Proof/Machine/FloatOps.lean ====
section
/-! DEFINITION. Floating-point instructions (R200 to R214). -/

namespace Sys2Proof.Machine

/-- The pattern of fimm in a format (R200): every integer from −128 to 127 is exact. -/
def fimm (t : Fmt) (c : BitVec 8) : Nat :=
  let x := natSext c.toNat 8
  (roundTo t .rn (x < 0) x.natAbs 0 false).1

/-- A floating operand: the register's element, or fimm; packed operands hold two elements (R200). -/
def fImmOr (ty : Ty) (packed : Bool) (isImm : Bool) (c : BitVec 8) (v : Val) : Val :=
  if isImm then
    let x := fimm (fmtOf ty) c
    ⟨if packed then x + 2 ^ 16 * x else x, false⟩
  else if packed then v else ⟨v.n % 2 ^ ty.bits, v.tag⟩

def fA (packed : Bool) (o : RForm) (g : Group) (L : Nat) : Val :=
  fImmOr o.ty packed false o.c (srcA false g o 1 L)

def fB (packed : Bool) (o : RForm) (g : Group) (L : Nat) (two : Bool) : Val :=
  fImmOr o.ty packed (two && o.ck = .imm) o.c (srcB false g o 1 L false)

def fC (packed : Bool) (o : RForm) (g : Group) (L : Nat) : Val :=
  fImmOr o.ty packed (o.ck = .imm) o.c (srcC false g o 1 L)

/-- The arithmetic of R202. -/
inductive FOp where
  | add | sub | mul | fma | fms | fnma | min | max
  deriving DecidableEq, Repr

/-- One element of R202 and R203, on patterns. -/
def fCompute (op : FOp) (t : Fmt) (rm : Rm) (ftz : Bool) (a b c : Nat) : Nat × Flags :=
  let (a, f1) := flushIn t ftz a
  let (b, f2) := flushIn t ftz b
  let three := op = .fma || op = .fms || op = .fnma
  let (c, f3) := if three then flushIn t ftz c else (c, 0)
  let x := unpack t a
  let y := unpack t b
  let z := unpack t c
  let r := match op with
    | .add => fAddV t rm x y
    | .sub => fAddV t rm x y.negate
    | .mul => fMulV t rm x y
    | .fma => fFmaV t rm x y z
    | .fms => fFmaV t rm x y z.negate
    | .fnma => fFmaV t rm x.negate y z
    | .min => fMinMax t false a b
    | .max => fMinMax t true a b
  let (r, f) := flushOut t ftz r
  (r, f ||| f1 ||| f2 ||| f3)

/-- Two packed elements (R206). -/
def pCompute (op : FOp) (t : Fmt) (rm : Rm) (ftz : Bool) (a b c : Nat) : Nat × Flags :=
  let el := fun k => fCompute op t rm ftz (natBits a (16 * k + 15) (16 * k)) (natBits b (16 * k + 15) (16 * k))
    (natBits c (16 * k + 15) (16 * k))
  let (r0, f0) := el 0
  let (r1, f1) := el 1
  (r0 + 2 ^ 16 * r1, f0 ||| f1)

/-- The effect of an arithmetic word over its lanes. -/
def fBody (op : FOp) (packed three : Bool) (o : RForm) (g : Group) (act : Word) : Group :=
  eachLane act (fun x L =>
    let a := fA packed o g L
    let b := fB packed o g L (!three)
    let c := if three then fC packed o g L else ⟨0, false⟩
    let (r, f) := (if packed then pCompute else fCompute) op (fmtOf o.ty) o.rm o.ftz a.n b.n c.n
    orFlags (wrVs x o.d.toNat 1 L r (a.tag || b.tag || c.tag)) f) g

def execFadd (o : RForm) (s : State) : Out := execRegs (.fadd o) o.g (fBody .add false false o) s
def execFsub (o : RForm) (s : State) : Out := execRegs (.fsub o) o.g (fBody .sub false false o) s
def execFmul (o : RForm) (s : State) : Out := execRegs (.fmul o) o.g (fBody .mul false false o) s
def execFfma (o : RForm) (s : State) : Out := execRegs (.ffma o) o.g (fBody .fma false true o) s
def execFfms (o : RForm) (s : State) : Out := execRegs (.ffms o) o.g (fBody .fms false true o) s
def execFfnma (o : RForm) (s : State) : Out := execRegs (.ffnma o) o.g (fBody .fnma false true o) s
def execFmin (o : RForm) (s : State) : Out := execRegs (.fmin o) o.g (fBody .min false false o) s
def execFmax (o : RForm) (s : State) : Out := execRegs (.fmax o) o.g (fBody .max false false o) s
def execPadd (o : RForm) (s : State) : Out := execRegs (.padd o) o.g (fBody .add true false o) s
def execPmul (o : RForm) (s : State) : Out := execRegs (.pmul o) o.g (fBody .mul true false o) s
def execPfma (o : RForm) (s : State) : Out := execRegs (.pfma o) o.g (fBody .fma true true o) s
def execPmin (o : RForm) (s : State) : Out := execRegs (.pmin o) o.g (fBody .min true false o) s
def execPmax (o : RForm) (s : State) : Out := execRegs (.pmax o) o.g (fBody .max true false o) s

/-- FCMPP (R204). -/
def fcmpBody (k : FCmp) (o : RForm) (g : Group) (act : Word) : Group :=
  eachLane act (fun x L =>
    let a := fA false o g L
    let b := fB false o g L true
    let (an, f1) := flushIn (fmtOf o.ty) o.ftz a.n
    let (bn, f2) := flushIn (fmtOf o.ty) o.ftz b.n
    let (r, f) := fCompare (fmtOf o.ty) k an bn
    orFlags (wrPBit x o.d.toNat L r (a.tag || b.tag)) (f ||| f1 ||| f2)) g

def execFcmpp (k : FCmp) (o : RForm) (s : State) : Out := execRegs (.fcmpp k o) o.g (fcmpBody k o) s

/-- A one-source word: pattern to result and flags, over the lanes. -/
def oneBody (f : Nat → Nat × Flags) (nd : Nat) (o : RForm) (g : Group) (act : Word) : Group :=
  eachLane act (fun x L =>
    let a := fA false o g L
    let (r, fl) := f a.n
    orFlags (wrVs x o.d.toNat nd L r a.tag) fl) g

def execFclass (o : RForm) (s : State) : Out :=
  execRegs (.fclass o) o.g (oneBody (fun n => (2 ^ fClassBit (fmtOf o.ty) n, 0)) 1 o) s

def execFseed (k : SeedFn) (o : RForm) (s : State) : Out := execRegs (.fseed k o) o.g (oneBody (fSeed k) 1 o) s

/-- FRRED writes the integer part, then the fraction (R211). -/
def execFrred (o : RForm) (s : State) : Out :=
  execRegs (.frred o) o.g (oneBody (fun n =>
    let (i, f, fl) := fRred o.rm n
    (wrapNat i 32 + 2 ^ 32 * f, fl)) 2 o) s

/-- FSCALE: b is an integer operand (R212). -/
def fscaleBody (o : RForm) (g : Group) (act : Word) : Group :=
  eachLane act (fun x L =>
    let a := fA false o g L
    let b := srcB false g o 1 L true
    let (r, f) := fScale (fmtOf o.ty) o.rm a.n (natSext b.n 32)
    orFlags (wrVs x o.d.toNat 1 L r (a.tag || b.tag)) f) g

def execFscale (o : RForm) (s : State) : Out := execRegs (.fscale o) o.g (fscaleBody o) s

def execFexp (o : RForm) (s : State) : Out := execRegs (.fexp o) o.g (oneBody (fExp (fmtOf o.ty)) 1 o) s

def execFmant (o : RForm) (s : State) : Out := execRegs (.fmant o) o.g (oneBody (fMant (fmtOf o.ty)) 1 o) s

/-- The draw of a stochastic conversion: the lane's register steps once an element (R56). -/
def drawLane (rm : Rm) (g : Group) (L : Nat) : Group × Nat :=
  if rm = .rs then
    let r := lfsr (g.lane L).rnd
    (mapLanes g fun K ln => if K = L then { ln with rnd := r } else ln, r.toNat % 2 ^ 24)
  else (g, 0)

/-- CVT (R207, R208). -/
def cvtBody (src : Ty) (o : RForm) (g : Group) (act : Word) : Group :=
  let c := o.c.toNat
  let sel := natBits c 1 0
  let ins := natBits c 3 2
  let pk := natBit c 4
  let dst := o.ty
  eachLane act (fun x L =>
    let a := srcA false g o src.regs L
    let b := if pk then srcB false g o 1 L false else ⟨0, false⟩
    let sb := min src.bits 32
    let x0 := if src.bits < 32 then natBits a.n (sb * sel + sb - 1) (sb * sel) else a.n
    let (x, d0) := drawLane o.rm x L
    let (r0, f0) := convertTo dst src o.rm o.sat d0 x0
    if pk then
      let (x, d1) := drawLane o.rm x L
      let (r1, f1) := convertTo dst src o.rm o.sat d1 b.n
      orFlags (wrVs x o.d.toNat 1 L (r0 + 2 ^ 16 * r1) (a.tag || b.tag)) (f0 ||| f1)
    else if dst.bits < 32 then
      let old := rdVs g o.d.toNat 1 L
      let w := dst.bits
      let n := old.n - natBits old.n (w * ins + w - 1) (w * ins) * 2 ^ (w * ins) + r0 * 2 ^ (w * ins)
      orFlags (wrVs x o.d.toNat 1 L n (a.tag || old.tag)) f0
    else orFlags (wrVs x o.d.toNat dst.regs L r0 a.tag) f0) g

def execCvt (src : Ty) (o : RForm) (s : State) : Out := execRegs (.cvt src o) o.g (cvtBody src o) s

/-- Pack element codes two a byte (R54). -/
def packNibbles : List Nat → List Byte
  | a :: b :: rest => BitVec.ofNat 8 (a + 16 * b) :: packNibbles rest
  | [a] => [BitVec.ofNat 8 a]
  | [] => []

/-- CVTBLK over the path (R209). -/
def cvtblkBody (src : Ty) (o : RForm) (g : Group) (act : Word) : Group :=
  let sel := natBits o.c.toNat 1 0
  let sb := src.bits
  let (g', xs, tag) := (List.range 32).foldl (fun (acc : Group × List (FVal × Nat) × Bool) i =>
      if bitOf act i then
        let a := srcA false g o 1 i
        let n := if sb < 32 then natBits a.n (sb * sel + sb - 1) (sb * sel) else a.n
        let (h, d) := drawLane o.rm acc.1 i
        (h, acc.2.1 ++ [(unpack (fmtOf src) n, d)], acc.2.2 || a.tag)
      else (acc.1, acc.2.1 ++ [(.fin false 0 0, 0)], acc.2.2)) (g, [], false)
  let (scale, es, f) := mxBlock o.rm xs
  let w := leNat (packNibbles es)
  eachLane act (fun x L =>
    let r := if L ≤ 3 then natBits w (32 * L + 31) (32 * L) else if L = 4 then scale else 0
    wrVs x o.d.toNat 1 L r tag) (orFlags g' f)

def execCvtblk (src : Ty) (o : RForm) (s : State) : Out := execRegs (.cvtblk src o) o.g (cvtblkBody src o) s

end Sys2Proof.Machine
end

