-- ==== Sys2Proof/Machine/Integer.lean ====
section
/-! DEFINITION. Integer, address and predicate instructions (R181 to R197). -/

namespace Sys2Proof.Machine

/-- The logic, shift and bit-field results as `w`-bit numbers (R186 to R189). -/
def shlN (w x n : Nat) : Nat := if n < w then (x <<< n) % 2 ^ w else 0

def shrN (w x n : Nat) : Nat := if n < w then (x % 2 ^ w) >>> n else 0

def sarN (w x n : Nat) : Nat := wrapNat (natSext x w / (2 ^ min n (w - 1) : Nat)) w

def rolN (w x n : Nat) : Nat :=
  let m := n % w
  ((x % 2 ^ w) <<< m + (x % 2 ^ w) >>> (w - m)) % 2 ^ w

def rorN (w x n : Nat) : Nat :=
  let m := n % w
  ((x % 2 ^ w) >>> m + (x % 2 ^ w) <<< (w - m)) % 2 ^ w

def bfeN (signed : Bool) (a ctl : Nat) : Nat :=
  let pos := min (ctl % 256) 32
  let len := min (ctl / 256 % 256) (32 - pos)
  let f := (a >>> pos) % 2 ^ len
  if signed && len > 0 then wrapNat (natSext f len) 32 else f

def bfiN (a b ctl : Nat) : Nat :=
  let pos := min (ctl % 256) 32
  let len := min (ctl / 256 % 256) (32 - pos)
  b - ((b >>> pos) % 2 ^ len) <<< pos + (a % 2 ^ len) <<< pos

def popcN (a : Nat) : Nat := (List.range 32).countP (natBit a)

def clzN (a : Nat) : Nat := if a % 2 ^ 32 = 0 then 32 else 31 - Nat.log2 (a % 2 ^ 32)

def brevN (a : Nat) : Nat := (List.range 32).foldl (fun r i => if natBit a i then r + 2 ^ (31 - i) else r) 0

def notN (w a : Nat) : Nat := 2 ^ w - 1 - a % 2 ^ w

/-- The result of an integer operation on operand values (R182 to R194), with its flags. -/
def intCompute (op : IntOp) (ty : Ty) (sat : Bool) (sh a b c : Nat) : Nat × Flags :=
  let w := ty.bits
  let na := numOf ty a
  let nb := numOf ty b
  let fin := fun (x : Int) => let (y, f) := satTo sat ty x; (wrapNat y w, f)
  match op with
  | .add => fin (na + nb)
  | .sub => fin (na - nb)
  | .neg => fin (-na)
  | .abs => fin na.natAbs
  | .mul => fin (na * nb)
  | .mulHi => (wrapNat (na * nb / (2 ^ 32 : Nat)) 32, 0)
  | .mulWide => (wrapNat (na * nb) 64, 0)
  | .mad => fin (na * nb + numOf ty c)
  | .madHi => (wrapNat (na * nb / (2 ^ 32 : Nat) + numOf ty c) 32, 0)
  | .madWide => (wrapNat (na * nb + c) 64, 0)
  | .min => (wrapNat (min na nb) w, 0)
  | .max => (wrapNat (max na nb) w, 0)
  | .and => (a &&& b, 0)
  | .or => (a ||| b, 0)
  | .xor => (a ^^^ b, 0)
  | .not => (notN w a, 0)
  | .andn => (a &&& notN w b, 0)
  | .orn => (a ||| notN w b, 0)
  | .xnor => (notN w (a ^^^ b), 0)
  | .shl => (shlN w a (b % 256), 0)
  | .shr => (shrN w a (b % 256), 0)
  | .sar => (sarN w a (b % 256), 0)
  | .rol => (rolN w a (b % 256), 0)
  | .ror => (rorN w a (b % 256), 0)
  | .bfe => (bfeN (ty = .i32) a b, 0)
  | .bfi => (bfiN a b c, 0)
  | .popc => (popcN a, 0)
  | .clz => (clzN a, 0)
  | .brev => (brevN a, 0)
  | .mov | .movI64 => (a, 0)
  | .lea => (wrapNat (a + natSext b 32 * (2 ^ sh : Nat)) 64, 0)
  | .leaN => ((a + b <<< sh) % 2 ^ 64, 0)
  | .leaS => ((a + b <<< sh) % 2 ^ 32, 0)

/-- How many registers the operands a, b, c and d of an operation have, and whether an immediate may
stand for b (R169, R181): a shift reads its count from the low word of pair b. The tag of either word of a pair tags both
words of a result (log 64). -/
def intWidths (op : IntOp) (ty : Ty) : Nat × Nat × Nat × Nat × Bool :=
  let w := ty.regs
  match op with
  | .neg | .abs | .not => (w, 0, 0, w, false)
  | .mulHi => (1, 1, 0, 1, true)
  | .mulWide => (1, 1, 0, 2, true)
  | .mad => (w, w, w, w, false)
  | .madHi => (1, 1, 1, 1, false)
  | .madWide => (1, 1, 2, 2, false)
  | .bfe => (1, 1, 0, 1, false)
  | .bfi => (1, 1, 1, 1, false)
  | .popc | .clz | .brev | .mov => (1, 0, 0, 1, false)
  | .movI64 => (2, 0, 0, 2, false)
  | .shl | .shr | .sar | .rol | .ror => (w, 1, 0, w, true)
  | .lea | .leaN => (2, 1, 0, 2, false)
  | .leaS => (1, 1, 0, 1, false)
  | _ => (w, w, 0, w, true)

/-- The effect of an integer R-form word over its lanes, or once in its uniform form (R171, R158). -/
def intBody (uni : Bool) (op : IntOp) (o : RForm) (g : Group) (act : Word) : Group :=
  let (na, nb, nc, nd, two) := intWidths op o.ty
  let one := fun L =>
    let a := srcA uni g o na L
    let b := if nb = 0 then ⟨0, false⟩ else srcB uni g o nb L two
    let c := if nc = 0 then ⟨0, false⟩ else srcC uni g o nc L
    let (r, f) := intCompute op o.ty o.sat o.c.toNat a.n b.n c.n
    (r, a.tag || b.tag || c.tag, f)
  if uni then
    let (r, t, f) := one 0
    orFlags (wrSs g o.d.toNat nd r t) f
  else
    eachLane act (fun x L => let (r, t, f) := one L; orFlags (wrVs x o.d.toNat nd L r t) f) g

/-- The shared meaning of the integer operations of R181. -/
def execInt (op : IntOp) (i : Instr) (o : RForm) (s : State) : Out :=
  execRegs i o.g (intBody false op o) s

def execAdd (o : RForm) (s : State) : Out := execInt .add (.add o) o s
def execSub (o : RForm) (s : State) : Out := execInt .sub (.sub o) o s
def execNeg (o : RForm) (s : State) : Out := execInt .neg (.neg o) o s
def execAbs (o : RForm) (s : State) : Out := execInt .abs (.abs o) o s
def execMul (o : RForm) (s : State) : Out := execInt .mul (.mul o) o s
def execMulHi (o : RForm) (s : State) : Out := execInt .mulHi (.mulHi o) o s
def execMulWide (o : RForm) (s : State) : Out := execInt .mulWide (.mulWide o) o s
def execMad (o : RForm) (s : State) : Out := execInt .mad (.mad o) o s
def execMadHi (o : RForm) (s : State) : Out := execInt .madHi (.madHi o) o s
def execMadWide (o : RForm) (s : State) : Out := execInt .madWide (.madWide o) o s
def execMin (o : RForm) (s : State) : Out := execInt .min (.min o) o s
def execMax (o : RForm) (s : State) : Out := execInt .max (.max o) o s
def execAnd (o : RForm) (s : State) : Out := execInt .and (.and o) o s
def execOr (o : RForm) (s : State) : Out := execInt .or (.or o) o s
def execXor (o : RForm) (s : State) : Out := execInt .xor (.xor o) o s
def execNot (o : RForm) (s : State) : Out := execInt .not (.not o) o s
def execAndn (o : RForm) (s : State) : Out := execInt .andn (.andn o) o s
def execOrn (o : RForm) (s : State) : Out := execInt .orn (.orn o) o s
def execXnor (o : RForm) (s : State) : Out := execInt .xnor (.xnor o) o s
def execShl (o : RForm) (s : State) : Out := execInt .shl (.shl o) o s
def execShr (o : RForm) (s : State) : Out := execInt .shr (.shr o) o s
def execSar (o : RForm) (s : State) : Out := execInt .sar (.sar o) o s
def execRol (o : RForm) (s : State) : Out := execInt .rol (.rol o) o s
def execRor (o : RForm) (s : State) : Out := execInt .ror (.ror o) o s
def execBfe (o : RForm) (s : State) : Out := execInt .bfe (.bfe o) o s
def execBfi (o : RForm) (s : State) : Out := execInt .bfi (.bfi o) o s
def execPopc (o : RForm) (s : State) : Out := execInt .popc (.popc o) o s
def execClz (o : RForm) (s : State) : Out := execInt .clz (.clz o) o s
def execBrev (o : RForm) (s : State) : Out := execInt .brev (.brev o) o s
def execMov (o : RForm) (s : State) : Out := execInt .mov (.mov o) o s
def execMovI64 (o : RForm) (s : State) : Out := execInt .movI64 (.movI64 o) o s
def execLea (o : RForm) (s : State) : Out := execInt .lea (.lea o) o s
def execLeaN (o : RForm) (s : State) : Out := execInt .leaN (.leaN o) o s
def execLeaS (o : RForm) (s : State) : Out := execInt .leaS (.leaS o) o s

/-- The result of an I-form operation (R193). -/
def immCompute (op : IntImmOp) (a imm : Nat) : Nat :=
  match op with
  | .add => (a + imm) % 2 ^ 32
  | .sub => wrapNat ((a : Int) - imm) 32
  | .and => a &&& imm
  | .or => a ||| imm
  | .xor => a ^^^ imm
  | .min => wrapNat (min (natSext a 32) (natSext imm 32)) 32
  | .max => wrapNat (max (natSext a 32) (natSext imm 32)) 32
  | .mov => imm
  | .movI64 => wrapNat (natSext imm 32) 64

def immBody (uni : Bool) (op : IntImmOp) (o : IForm) (g : Group) (act : Word) : Group :=
  let nd := if op = .movI64 then 2 else 1
  let noA := op = .mov || op = .movI64
  let one := fun L =>
    let a : Val := if noA then ⟨0, false⟩ else if uni then rdSs g o.a.toNat 1 else rdVs g o.a.toNat 1 L
    (immCompute op a.n o.imm.toNat, a.tag)
  if uni then let (r, t) := one 0; wrSs g o.d.toNat nd r t
  else eachLane act (fun x L => let (r, t) := one L; wrVs x o.d.toNat nd L r t) g

/-- The shared meaning of the I-form operations (R193). -/
def execImm (op : IntImmOp) (i : Instr) (o : IForm) (s : State) : Out :=
  execRegs i o.g (immBody false op o) s

def execAddImm (o : IForm) (s : State) : Out := execImm .add (.addImm o) o s
def execSubImm (o : IForm) (s : State) : Out := execImm .sub (.subImm o) o s
def execAndImm (o : IForm) (s : State) : Out := execImm .and (.andImm o) o s
def execOrImm (o : IForm) (s : State) : Out := execImm .or (.orImm o) o s
def execXorImm (o : IForm) (s : State) : Out := execImm .xor (.xorImm o) o s
def execMinImm (o : IForm) (s : State) : Out := execImm .min (.minImm o) o s
def execMaxImm (o : IForm) (s : State) : Out := execImm .max (.maxImm o) o s
def execMovImm (o : IForm) (s : State) : Out := execImm .mov (.movImm o) o s
def execMovI64Imm (o : IForm) (s : State) : Out := execImm .movI64 (.movI64Imm o) o s

/-- A uniform form computes once (R158). -/
def execUniformForm (u : UniForm) (s : State) : Out :=
  match u with
  | .r op o => execRegs (.uniformForm u) o.g (intBody true op o) s
  | .i op o => execRegs (.uniformForm u) o.g (immBody true op o) s

/-- ADDC and SUBC (R183). -/
def carryBody (sub : Bool) (o : RForm) (g : Group) (act : Word) : Group :=
  eachLane act (fun x L =>
    let a := srcA false g o 1 L
    let b := srcB false g o 1 L false
    let p := rdP g o.c.toNat
    let cin : Int := if bitOf p.bits L then 1 else 0
    let t := a.tag || b.tag || bitOf p.tags L
    let r : Int := if sub then (a.n : Int) - b.n - cin else a.n + b.n + cin
    let cout := if sub then decide (r < 0) else decide (r ≥ 2 ^ 32)
    wrPBit (wrVs x o.d.toNat 1 L (wrapNat r 32) t) o.c.toNat L cout t) g

def execAddc (o : RForm) (s : State) : Out := execRegs (.addc o) o.g (carryBody false o) s
def execSubc (o : RForm) (s : State) : Out := execRegs (.subc o) o.g (carryBody true o) s

def icmpB (k : ICmp) (a b : Int) : Bool :=
  match k with
  | .eq => decide (a = b)
  | .ne => decide (a ≠ b)
  | .lt => decide (a < b)
  | .le => decide (a ≤ b)
  | .gt => decide (a > b)
  | .ge => decide (a ≥ b)

/-- ICMPP (R190). -/
def icmpBody (k : ICmp) (o : RForm) (g : Group) (act : Word) : Group :=
  eachLane act (fun x L =>
    let a := srcA false g o o.ty.regs L
    let b := srcB false g o o.ty.regs L true
    wrPBit x o.d.toNat L (icmpB k (numOf o.ty a.n) (numOf o.ty b.n)) (a.tag || b.tag)) g

def execIcmpp (k : ICmp) (o : RForm) (s : State) : Out := execRegs (.icmpp k o) o.g (icmpBody k o) s

/-- SEL (R191): the tag of the source selected, or of the bit that chose it (R90). -/
def selBody (o : RForm) (g : Group) (act : Word) : Group :=
  let p := rdP g (o.c.toNat % 8)
  let sense := natBit o.c.toNat 3
  eachLane act (fun x L =>
    let v := if bitOf p.bits L != sense then srcA false g o 1 L else srcB false g o 1 L false
    wrVs x o.d.toNat 1 L v.n (v.tag || bitOf p.tags L)) g

def execSel (o : RForm) (s : State) : Out := execRegs (.sel o) o.g (selBody o) s

/-- DOT4 (R195). -/
def dot4Compute (ty : Ty) (mixed sat : Bool) (a b c : Nat) : Nat × Flags :=
  let signed := ty = .i8
  let el := fun (sg : Bool) (x i : Nat) =>
    let e := natBits x (8 * i + 7) (8 * i)
    if sg then natSext e 8 else (e : Int)
  let t : Ty := if signed then .i32 else .n32
  let x := (List.range 4).foldl (fun (acc : Int) i => acc + el signed a i * el (signed && !mixed) b i) (numOf t c)
  let (y, f) := satTo sat t x
  (wrapNat y 32, f)

def dot4Body (o : RForm) (g : Group) (act : Word) : Group :=
  eachLane act (fun x L =>
    let a := srcA false g o 1 L
    let b := srcB false g o 1 L false
    let c := srcC false g o 1 L
    let (r, f) := dot4Compute o.ty o.x o.sat a.n b.n c.n
    orFlags (wrVs x o.d.toNat 1 L r (a.tag || b.tag || c.tag)) f) g

def execDot4 (o : RForm) (s : State) : Out := execRegs (.dot4 o) o.g (dot4Body o) s

/-- The predicate operations of R196, bitwise over the lanes. -/
def predBody (f : Word → Word → Word) (two : Bool) (o : RForm) (g : Group) (act : Word) : Group :=
  let a := rdP g o.a.toNat
  let b := if two then rdP g o.b.toNat else ⟨0, 0⟩
  let r := f a.bits b.bits
  let t := a.tags ||| b.tags
  let old := rdP g o.d.toNat
  wrP g o.d.toNat ⟨(r &&& act) ||| (old.bits &&& ~~~act), (t &&& act) ||| (old.tags &&& ~~~act)⟩

def execPand (o : RForm) (s : State) : Out := execRegs (.pand o) o.g (predBody (· &&& ·) true o) s
def execPor (o : RForm) (s : State) : Out := execRegs (.por o) o.g (predBody (· ||| ·) true o) s
def execPxor (o : RForm) (s : State) : Out := execRegs (.pxor o) o.g (predBody (· ^^^ ·) true o) s
def execPandn (o : RForm) (s : State) : Out := execRegs (.pandn o) o.g (predBody (fun a b => a &&& ~~~b) true o) s
def execPorn (o : RForm) (s : State) : Out := execRegs (.porn o) o.g (predBody (fun a b => a ||| ~~~b) true o) s
def execPnot (o : RForm) (s : State) : Out := execRegs (.pnot o) o.g (predBody (fun a _ => ~~~a) false o) s
def execPmov (o : RForm) (s : State) : Out := execRegs (.pmov o) o.g (predBody (fun a _ => a) false o) s

/-- P2S writes the whole predicate once (R197). -/
def execP2s (o : RForm) (s : State) : Out :=
  execRegs (.p2s o) o.g (fun g _ =>
    let p := rdP g o.a.toNat
    wrS g o.d.toNat ⟨p.bits, p.tags ≠ 0⟩) s

/-- S2P sets the active lanes' bits (R197). -/
def execS2p (o : RForm) (s : State) : Out :=
  execRegs (.s2p o) o.g (fun g act =>
    let x := rdS g o.a.toNat
    eachLane act (fun h L => wrPBit h o.d.toNat L (bitOf x.val L) x.tag) g) s

end Sys2Proof.Machine
end

