-- ==== Sys2Proof/Machine/Codes.lean ====
section
/-! DEFINITION. The codes at rest (R390, R391, R392): CRC16, RS4 and RS8 over GF(2^16), poison
patterns, and what reading a sector finds. -/

namespace Sys2Proof.Machine

/-- Bit of the code order: pin column by pin column, word 0 to 15 within each (R390, R391). -/
def codeBit (d : List Byte) (n : Nat) : Bool :=
  let j := n / 16
  let w := n % 16
  (d.getD (4 * w + j / 8) 0).getLsbD (j % 8)

/-- CRC16 of a sector (R391). -/
def crc16 (d : List Byte) : Nat :=
  (List.range 512).foldl (fun r n =>
    let top := (decide (r ≥ 2 ^ 15)) ^^ codeBit d n
    let r := (2 * r) % 2 ^ 16
    if top then r ^^^ 0x8BB7 else r) 0

/-- Multiplication by x in GF(2^16) with polynomial x^16 + x^12 + x^3 + x + 1 (R391). -/
def gfX (a : Nat) : Nat := if a ≥ 2 ^ 15 then (2 * a) % 2 ^ 16 ^^^ 0x100B else 2 * a

/-- Multiplication in GF(2^16). -/
def gfMul (a b : Nat) : Nat :=
  (List.range 16).foldl (fun r i => gfX r ^^^ (if natBit b (15 - i) then a else 0)) 0

/-- `a` to the power `n` in GF(2^16). -/
def gfPow (a n : Nat) : Nat :=
  (List.range 20).foldl (fun r i =>
    let r := gfMul r r
    if natBit n (19 - i) then gfMul r a else r) 1

def gfInv (a : Nat) : Nat := gfPow a (2 ^ 16 - 2)

/-- Product of (x − α^i), i below r, lowest coefficient first. -/
def rsGen (r : Nat) : List Nat :=
  (List.range r).foldl (fun p i =>
    let a := gfPow 2 i
    let lo := p.map (gfMul a) ++ [0]
    let hi := 0 :: p
    lo.zipWith (· ^^^ ·) hi) [1]

/-- The symbols of a sector, i = 0 to 31 (R390). -/
def rsSymbols (d : List Byte) : List Nat :=
  (List.range 32).map fun i => (d.getD (2 * i) 0).toNat + 256 * (d.getD (2 * i + 1) 0).toNat

/-- The check symbols of a sector, check symbol 0 first (R391). -/
def rsCheck (r : Nat) (d : List Byte) : List Nat :=
  let g := rsGen r
  (rsSymbols d).foldl (fun rem sym =>
    let fb := (rem.getD (r - 1) 0) ^^^ sym
    (List.range r).map fun k =>
      (if k = 0 then 0 else rem.getD (k - 1) 0) ^^^ gfMul fb (g.getD k 0)) (List.replicate r 0)

/-- The syndromes of check symbols that are off by `diff`. -/
def rsSyndromes (r : Nat) (diff : List Nat) : List Nat :=
  (List.range r).map fun i =>
    (diff.zipIdx).foldl (fun a (c, k) => a ^^^ gfMul c (gfPow 2 (i * k))) 0

/-- One elimination step of a linear system over GF(2^16): pivot column `c`. -/
def gfEliminate (m : List (List Nat)) (c : Nat) : Option (List (List Nat)) :=
  match (m.drop c).findIdx? (fun row => row.getD c 0 ≠ 0) with
  | none => none
  | some k =>
    let p := m.getD (c + k) []
    let m := (m.set (c + k) (m.getD c [])).set c p
    let p := p.map (gfMul (gfInv (p.getD c 0)))
    some ((m.zipIdx).map fun (row, i) =>
      if i = c then p else
        let f := row.getD c 0
        (row.zipWith (fun a b => a ^^^ gfMul f b) p))

/-- Solve a square system given as rows with the right-hand side last. -/
def gfSolve (m : List (List Nat)) : Option (List Nat) :=
  let n := m.length
  ((List.range n).foldl (fun (a : Option (List (List Nat))) c => a.bind fun m => gfEliminate m c) (some m)).map
    fun m => m.map fun row => row.getD n 0

/-- Errors (position, value) of at most `t` symbols that give the syndromes, if there are such. -/
def rsLocate (r : Nat) (syn : List Nat) (v : Nat) : Option (List (Nat × Nat)) :=
  let s := fun i => syn.getD i 0
  match gfSolve ((List.range v).map fun i => (List.range v).map (fun j => s (i + j)) ++ [s (i + v)]) with
  | none => none
  | some lam =>
    let roots := (List.range (32 + r)).filter fun p =>
      let x := gfPow 2 p
      (lam.zipIdx).foldl (fun a (c, j) => a ^^^ gfMul c (gfPow x j)) (gfPow x v) = 0
    if roots.length ≠ v then none
    else
      match gfSolve ((List.range v).map fun i => roots.map (fun p => gfPow (gfPow 2 p) i) ++ [s i]) with
      | none => none
      | some vals =>
        let es := roots.zip vals
        let again := (List.range r).map fun i =>
          es.foldl (fun a (p, e) => a ^^^ gfMul e (gfPow 2 (i * p))) 0
        if again = syn then some es else none

/-- The correction of a sector with check difference `diff`: the fewest symbols first. -/
def rsCorrect (r t : Nat) (d : List Byte) (diff : List Nat) : Option (List Byte) :=
  let syn := rsSyndromes r diff
  match ((List.range t).filterMap fun v => rsLocate r syn (v + 1)).head? with
  | none => none
  | some es =>
    some (es.foldl (fun d (p, e) =>
      if p < r then d
      else
        let i := r + 31 - p
        let put := fun (d : List Byte) (k x : Nat) => d.set k (d.getD k 0 ^^^ BitVec.ofNat 8 x)
        put (put d (2 * i) e) (2 * i + 1) (e / 256)) d)

/-- The class under which a sector is coded: P+ is a strengthened row of class P (R85, R87). -/
inductive Code where
  | N | D | P | PP
  deriving DecidableEq, Repr

/-- Poison patterns of R392, as bytes. -/
def Code.pattern : Code → List Byte
  | .N => []
  | .D => leBytes 2 0xA5A5
  | .P => [0x9E37, 0x79B9, 0x7F4A, 0x7C15].flatMap (leBytes 2)
  | .PP => [0x9E37, 0x79B9, 0x7F4A, 0x7C15, 0xF39C, 0xC060, 0x5CED, 0xC834].flatMap (leBytes 2)

/-- The code bytes of a sector (R390). -/
def Code.of : Code → List Byte → List Byte
  | .N, _ => []
  | .D, d => leBytes 2 (crc16 d)
  | .P, d => (rsCheck 4 d).flatMap (leBytes 2)
  | .PP, d => (rsCheck 8 d).flatMap (leBytes 2)

/-- The code bytes stored with a sector, poisoned or not (R392). -/
def Code.stored (c : Code) (d : List Byte) (poison : Bool) : List Byte :=
  if poison then (c.of d).zipWith (· ^^^ ·) c.pattern else c.of d

/-- What a read of a sector finds (R89, R392). -/
inductive Verdict where
  | clean | poison | corrected | uncorrectable
  deriving DecidableEq, Repr

/-- Read a sector against its code: the data as returned and the verdict. -/
def Code.check (c : Code) (d code : List Byte) : List Byte × Verdict :=
  let diff := (c.of d).zipWith (· ^^^ ·) code
  if diff.all (· = 0) then (d, .clean)
  else if diff = c.pattern then (d, .poison)
  else
    let sym := fun n => (List.range n).map fun k => (diff.getD (2 * k) 0).toNat + 256 * (diff.getD (2 * k + 1) 0).toNat
    match c with
    | .N => (d, .clean)
    | .D => (d, .uncorrectable)
    | .P => match rsCorrect 4 1 d (sym 4) with
      | some d' => (d', .corrected)
      | none => (d, .uncorrectable)
    | .PP => match rsCorrect 8 4 d (sym 8) with
      | some d' => (d', .corrected)
      | none => (d, .uncorrectable)

end Sys2Proof.Machine
end

