-- ==== Sys2Proof/Machine/Rows.lean ====
section
/-! DEFINITION. Stack rows and lines: where data stands (R81, R85, R86, R395), the class windows
(R347), reading and writing sectors under their codes (R89, R90, R392), the device's own reads and
writes of its structures and what they set going (R346, R368, R393, R417), budget and log (R396 to
R404). -/

namespace Sys2Proof.Machine

/-! Places in the stacks. -/

/-- The model's number of the first byte of a row (R11, R85). -/
def rowBase (r : RowId) : Nat :=
  ((((r.stack * 64 + r.pch) * 16 + r.bg) * 4 + r.bank) * 8192 + r.row) * 2048

def bankKey (r : RowId) : Nat := ((r.stack * 64 + r.pch) * 16 + r.bg) * 4 + r.bank

def rawBytes (m : Mem) (a n : Nat) : List Byte := (List.range n).map fun i => sget 0 m.raw (a + i)

def rawPut (m : Mem) (a : Nat) (bs : List Byte) : Mem :=
  { m with raw := (bs.zipIdx).foldl (fun r (b, i) => sset 0 r (a + i) b) m.raw }

/-- Data sectors per row (R85). -/
def ExtClass.sectors : ExtClass → Nat
  | .N => 32 | .D => 31 | .P => 28 | .pool => 0

/-- Data bytes per extent, E(c) of R347; a pool extent holds none. -/
def ExtClass.size : ExtClass → Nat
  | .N => 0x10000000 | .D => 0xF800000 | .P => 0xE000000 | .pool => 0

def State.extent (s : State) (stack e : Nat) : Extent := sget Extent.reset s.rel.ext (256 * stack + e)

def State.onExtent (s : State) (stack e : Nat) (f : Extent → Extent) : State :=
  { s with rel := { s.rel with ext := sset Extent.reset s.rel.ext (256 * stack + e) (f (s.extent stack e)) } }

/-- Row and slot of data sector `n` of an extent (R86). -/
def sectorPlace (c : ExtClass) (stack e n : Nat) : RowId × Nat :=
  let k := n / c.sectors
  ({ stack := stack, pch := k % 64, bg := k / 64 % 16, bank := k / 1024 % 4, row := 32 * e + k / 4096 }, n % c.sectors)

/-- The data sector of its extent that a slot of a row holds (R86). -/
def State.rowSector (s : State) (r : RowId) (slot : Nat) : Nat :=
  (((r.row % 32 * 4 + r.bank) * 16 + r.bg) * 64 + r.pch) * (s.extent r.stack (r.row / 32)).cls.sectors + slot

/-- The rows that hold data sectors `a` to `b` of an extent, in order. -/
def sectorRows (c : ExtClass) (stack e a b : Nat) : List RowId :=
  if c.sectors = 0 then []
  else (List.range (b / c.sectors + 1 - a / c.sectors)).map fun i =>
    (sectorPlace c stack e ((a / c.sectors + i) * c.sectors)).1

/-- The pool entry of a strengthened row (R395). -/
def State.strong? (s : State) (r : RowId) : Option (Nat × Nat) :=
  (s.rel.strong.find? fun x => x.1 = r).map (·.2)

/-- The code a row stands under. -/
def State.rowCode (s : State) (r : RowId) : Code :=
  match (s.extent r.stack (r.row / 32)).cls with
  | .N | .pool => .N
  | .D => .D
  | .P => if (s.strong? r).isSome then .PP else .P

/-- The bits that two of three copies of a byte have. -/
def majority (a b c : Byte) : Byte := (a &&& b) ||| (a &&& c) ||| (b &&& c)

/-- The pool entry of a strengthened row, as the majority of the three copies in its slot 31 names it (R395). -/
def State.poolRef (s : State) (r : RowId) : Nat × Nat :=
  let b := rawBytes s.mem (rowBase r + 64 * 31) 12
  let m := (List.range 3).map fun i => majority (b.getD i 0) (b.getD (4 + i) 0) (b.getD (8 + i) 0)
  (leNat (m.take 2), leNat (m.drop 2))

/-- First byte of a slot; slots 24 to 27 of a strengthened row stand in its pool entry (R395). -/
def State.slotBase (s : State) (r : RowId) (slot : Nat) : Nat :=
  match (s.strong? r).map fun _ => s.poolRef r with
  | some (pr, q) =>
    if 24 ≤ slot && slot < 28 then rowBase { r with row := pr } + 64 * (4 * q + (slot - 24)) else rowBase r + 64 * slot
  | none => rowBase r + 64 * slot

/-- First byte and length of a slot's code (R390). -/
def codeBase (c : Code) (r : RowId) (slot : Nat) : Nat × Nat :=
  match c with
  | .N => (rowBase r, 0)
  | .D => (rowBase r + 64 * 31 + 2 * slot, 2)
  | .P => (rowBase r + 64 * (28 + slot / 8) + 8 * (slot % 8), 8)
  | .PP => (rowBase r + 64 * (24 + slot / 4) + 16 * (slot % 4), 16)

/-- What stands in a sector. -/
def State.peekSector (s : State) (r : RowId) (slot : Nat) : List Byte × Verdict :=
  let c := s.rowCode r
  let (ca, cn) := codeBase c r slot
  c.check (rawBytes s.mem (s.slotBase r slot) 64) (rawBytes s.mem ca cn)

/-- Write a sector and its code (R95, R392); class N holds no poison. -/
def State.pokeSector (s : State) (r : RowId) (slot : Nat) (d : List Byte) (poison : Bool) : State :=
  let c := s.rowCode r
  let m := rawPut s.mem (s.slotBase r slot) d
  { s with mem := rawPut m (codeBase c r slot).1 (c.stored d poison) }

def Verdict.tagged : Verdict → Bool
  | .poison | .uncorrectable => true
  | _ => false

/-! Class windows (R347). -/

inductive Dec where
  | ok (stack ext d : Nat)
  | absent
  | changing
  deriving DecidableEq, Repr

def windowClass : Nat → ExtClass
  | 0 => .N | 1 => .D | _ => .P

def emptySlot : SlotEntry := ⟨false, false, 0, 0⟩

/-- The decoder's slot entry `i` of class window `c`. -/
def Xlate.slot (x : Xlate) (c i : Nat) : SlotEntry := sget emptySlot x.slots (4096 * c + i)

/-- Decode a local-space address (R347); an access of context 0 is never held (R365). -/
def State.decodeLocal (s : State) (pa : Nat) (ctx0 : Bool) : Dec :=
  let hit := (List.range 3).find? fun c =>
    let w := s.xl.tb.wins.getD c ⟨0, 0⟩
    decide (w.base ≤ pa) && decide (pa < w.base + w.slots * (windowClass c).size)
  match hit with
  | none => .absent
  | some c =>
    let o := pa - (s.xl.tb.wins.getD c ⟨0, 0⟩).base
    let e := (windowClass c).size
    let x := s.xl.slot c (o / e)
    if !x.valid then .absent
    else if x.changing && !ctx0 then .changing
    else if o % e < (s.extent x.stack x.ext).cls.size then .ok x.stack x.ext (o % e) else .absent

/-- The local-space addresses of a data byte of an extent, one for each valid slot that names the extent (R347). -/
def State.addressesOf (s : State) (stack e d : Nat) : List Nat :=
  (s.xl.slots.filter fun (_, x) => x.valid && x.stack = stack && x.ext = e).map fun (k, _) =>
    (s.xl.tb.wins.getD (k / 4096) ⟨0, 0⟩).base + (k % 4096) * (windowClass (k / 4096)).size + d

/-- The first of them. -/
def State.addressOf (s : State) (stack e d : Nat) : Option Nat := (s.addressesOf stack e d).head?

/-- Home slice of a line (R81). -/
def homeSlice (l : LineId) : Nat :=
  let d := 128 * l.line
  let i := natBits d 17 12 ^^^ natBits d 23 18 ^^^ natBits d 27 24 ^^^ (16 * (l.stack % 4)) ^^^ (l.ext % 64)
  64 * (l.stack / 4) + i

/-! Lines. -/

def State.line? (s : State) (l : LineId) : Option DepotLine := s.mem.depot.find? fun x => x.line = l

/-- Change a depot line and make it the most recently used. -/
def State.onLine (s : State) (l : LineId) (f : DepotLine → DepotLine) : State :=
  match s.line? l with
  | none => s
  | some x => { s with mem := { s.mem with depot := (s.mem.depot.filter fun y => y.line ≠ l) ++ [f x] } }

def lineSector (s : State) (l : LineId) (h : Nat) : RowId × Nat :=
  sectorPlace (s.extent l.stack l.ext).cls l.stack l.ext (2 * l.line + h)

/-- The rows of a line's two sectors. -/
def State.lineRows (s : State) (l : LineId) : List RowId :=
  [(lineSector s l 0).1, (lineSector s l 1).1].eraseDups

/-- A line as the stack holds it, with its word tags. -/
def State.stackLine (s : State) (l : LineId) : List Byte × Word :=
  let (r0, n0) := lineSector s l 0
  let (r1, n1) := lineSector s l 1
  let (d0, v0) := s.peekSector r0 n0
  let (d1, v1) := s.peekSector r1 n1
  (d0 ++ d1, (if v0.tagged then 0xFFFF#32 else 0) ||| (if v1.tagged then 0xFFFF0000#32 else 0))

/-- A line as its home slice holds it. -/
def State.homeLine (s : State) (l : LineId) : List Byte × Word :=
  match s.line? l with
  | some x => (x.bytes, x.poison)
  | none => s.stackLine l

/-- Put bytes over a list of bytes. -/
def putBytes (d : List Byte) (ofs : Nat) (bs : List Byte) : List Byte :=
  d.mapIdx fun i b => if ofs ≤ i && i < ofs + bs.length then bs.getD (i - ofs) 0 else b

/-- Word tags after a write of `n` bytes at `ofs` with a tag per byte: a whole untagged word is cleared (R90). -/
def putTags (p : Word) (ofs n : Nat) (tag : Nat → Bool) : Word :=
  maskOf fun w =>
    let whole := decide (ofs ≤ 4 * w) && decide (4 * w + 4 ≤ ofs + n)
    let touched := (List.range 4).filter fun k => decide (ofs ≤ 4 * w + k) && decide (4 * w + k < ofs + n)
    let t := touched.any fun k => tag (4 * w + k - ofs)
    if touched.isEmpty then bitOf p w else if whole then t else bitOf p w || t

/-- Write at the stack port, within one sector: a partial write of a sector that is poison or
uncorrectable leaves it poison (R90). -/
def State.writeSector (s : State) (r : RowId) (slot ofs : Nat) (bs : List Byte) (tag : Bool) : State :=
  let (d, v) := s.peekSector r slot
  s.pokeSector r slot (putBytes d ofs bs) (tag || (v.tagged && bs.length < 64))

/-- Write bytes of one line straight to the stack. -/
def State.stackWrite (s : State) (l : LineId) (ofs : Nat) (bs : List Byte) (tag : Nat → Bool) : State :=
  (List.range 2).foldl (fun s h =>
    let lo := max ofs (64 * h)
    let hi := min (ofs + bs.length) (64 * h + 64)
    if lo < hi then
      let (r, slot) := lineSector s l h
      s.writeSector r slot (lo - 64 * h) ((bs.drop (lo - ofs)).take (hi - lo))
        ((List.range (hi - lo)).any fun i => tag (lo - ofs + i))
    else s) s

/-! What watches memory. -/

def slotList (s : State) : Nat := s.xl.tb.slotList

/-- The structures that a write of `n` bytes at a local-space address meets. -/
def State.watched (s : State) (pa n : Nat) : List Watch :=
  let meets := fun (b len : Nat) => decide (pa < b + len) && decide (b < pa + n)
  let ct := s.sup.ctxTab.toNat
  let sl := slotList s
  (if meets ct 256 || meets sl 0x6000 || meets (sl + 0x7000) 64 then [.block (pa / 128)] else [])
  ++ (if meets (sl + 0x6000) 4096 then
        (List.range n).filterMap fun i =>
          if meets (sl + 0x6000) 4096 && decide (sl + 0x6000 ≤ pa + i) && decide (pa + i < sl + 0x7000)
          then some (.ext ((pa + i - sl - 0x6000) / 256) ((pa + i - sl - 0x6000) % 256)) else none
      else [])
  ++ (if meets (sl + 0x7800) 2048 then [.fabric] else [])
  ++ (if meets (ct + 256) (256 * 65535) then
        let c := (pa - (ct + 256)) / 256
        let b := ct + 256 * (c + 1)
        [.ctx c (meets (b + 7) 1) (meets (b + 12) 4)]
      else [])
  ++ (s.ctxs.filterMap fun (c, x) => if meets x.frameArea 128 then some (.post c) else none)

/-- The step of the table that a watched write sets going. -/
def Watch.step : Watch → Instr
  | .block line => .translationBlockReload line
  | .ext st e => .extentClassWrite st e
  | .ctx n _ _ => .contextRecordWrite n
  | .fabric => .fabricBlockWrite
  | .post n => .postBoxTake n

/-- A PASID table entry that is written may make page requests again (R359). -/
def State.unbar (s : State) (pa n : Nat) : State :=
  { s with xl := { s.xl with barred := s.xl.barred.filter fun p =>
      !(decide (pa < s.xl.tb.pasidTab + 32 * p + 32) && decide (s.xl.tb.pasidTab + 32 * p < pa + n)) } }

/-- A write of bytes at a local-space address has been applied. -/
def State.noticedAt (s : State) (n pa : Nat) : State :=
  let w := s.watched pa n
  let s := s.unbar pa n
  { s with
    mem := { s.mem with watch := s.mem.watch ++ w }
    agenda := (w.map fun x => Turn.event s.cur x.step) ++ s.agenda }

/-- A write has been applied at its home slice: at each address that its bytes have. -/
def State.noticed (s : State) (l : LineId) (ofs n : Nat) : State :=
  (s.addressesOf l.stack l.ext (128 * l.line + ofs)).foldl (fun s pa => s.noticedAt n pa) s

/-- The bits of a byte of local space that only the device writes: the reserved bits of a slot entry (R347), BUSY and
the reserved bits of an extent state byte (R394). -/
def State.readOnlyBits (s : State) (pa : Nat) : Byte :=
  let sl := slotList s
  if decide (sl ≤ pa) && decide (pa < sl + 0x6000) then (if (pa - sl) % 2 = 1 then 0x30 else 0)
  else if decide (sl + 0x6000 ≤ pa) && decide (pa < sl + 0x7000) then 0xFC
  else 0

/-- What a write of bytes of a line leaves of them where fields are RO, with what stands there (R7). -/
def State.keepOnly (s : State) (l : LineId) (ofs : Nat) (old bs : List Byte) : List Byte :=
  let pas := s.addressesOf l.stack l.ext (128 * l.line + ofs)
  bs.mapIdx fun i b =>
    let ro := (pas.map fun pa => s.readOnlyBits (pa + i)).foldl (· ||| ·) 0
    (b &&& ~~~ro) ||| (old.getD i 0 &&& ro)

/-- What a program's or the host's write leaves of its bytes at its home. -/
def State.writableBytes (s : State) (l : LineId) (ofs : Nat) (bs : List Byte) : List Byte :=
  s.keepOnly l ofs (((s.homeLine l).1.drop ofs).take bs.length) bs

/-- Apply a write of bytes of one line at its home slice, open marks apart (R80, R82, R90). -/
def State.applyLine (s : State) (l : LineId) (ofs : Nat) (bs : List Byte) (tag : Nat → Bool) : State :=
  let s := match s.line? l with
    | some _ => s.onLine l fun x =>
        { x with bytes := putBytes x.bytes ofs bs, dirty := true, poison := putTags x.poison ofs bs.length tag }
    | none => s.stackWrite l ofs bs tag
  s.noticed l ofs bs.length

/-! Row ownership (R92). -/

def State.rowState (s : State) (r : RowId) : RowState :=
  match s.mem.rows.find? fun x => x.1 = r with
  | some x => x.2
  | none => .controller

def State.setRow (s : State) (r : RowId) (x : RowState) : State :=
  let rest := s.mem.rows.filter fun y => y.1 ≠ r
  { s with mem := { s.mem with rows := if x = .controller then rest else rest ++ [(r, x)] } }

/-- The first of some rows that is not controller-owned. -/
def State.blockedRow (s : State) (rs : List RowId) : Option RowId :=
  rs.find? fun r => s.rowState r ≠ .controller

/-! Rows that are in the way (R93, R306). -/

/-- The dray of a row's bank group. -/
def drayOfRow (r : RowId) : Nat := drayKey ⟨r.stack, r.pch, r.bg⟩

/-- Two rows share a bank. -/
def sameBank (a b : RowId) : Bool := drayOfRow a = drayOfRow b && a.bank = b.bank

/-- A dray holds another row of a row's bank open (R306). -/
def State.bankHeld (s : State) (r : RowId) : Bool :=
  (s.dray (drayOfRow r)).open_.any fun o => o.row.bank = r.bank && o.row ≠ r

/-- What waits for a row, oldest first: what came while only its bank was in the way, then the hold queue, then the link. -/
def State.rowQueue (s : State) (r : RowId) : List HeldWork :=
  ((s.mem.bankQ.filter fun x => x.row = r).map (·.work)) ++ ((s.mem.holdQ.filter fun x => x.row = r).map (·.work))
    ++ (s.mem.linkQ.filter fun x => x.row = r).map (·.work)

/-- A row is not controller-owned, or has requests of its own that wait. -/
def State.rowWaits (s : State) (r : RowId) : Bool := s.rowState r ≠ .controller || !(s.rowQueue r).isEmpty

/-- A row that a new request has to wait for. -/
def State.rowBusy (s : State) (r : RowId) : Bool := s.rowWaits r || s.bankHeld r

def State.busyRow (s : State) (rs : List RowId) : Option RowId := rs.find? s.rowBusy

/-- Some work waits at a row. -/
def State.heldAt (s : State) (w : HeldWork) (r : RowId) : Bool := (s.rowQueue r).contains w

/-- Some work waits somewhere. -/
def State.isHeld (s : State) (w : HeldWork) : Bool :=
  s.mem.bankQ.any (fun x => x.work = w) || s.mem.holdQ.any (fun x => x.work = w) || s.mem.linkQ.any (fun x => x.work = w)

/-- Work cannot pass a row: the row is away, its bank is held, or other work waits there before it. -/
def State.rowStops (s : State) (w : HeldWork) (r : RowId) : Bool :=
  s.rowState r ≠ .controller || s.bankHeld r || (s.rowQueue r).head?.any (· ≠ w)

/-- Work may pass some rows. -/
def State.rowsPass (s : State) (rs : List RowId) (w : HeldWork) : Bool := !rs.any fun r => s.rowStops w r

/-! Writes that a home slice holds (R80). -/

def State.leaseEnd (s : State) (l : LineId) : Nat :=
  match s.mem.leases.find? fun x => x.1 = l with
  | some x => x.2
  | none => 0

/-- A line is under a lease (R80). -/
def State.leased (s : State) (l : LineId) : Bool := decide (s.ltick < s.leaseEnd l)

def State.heldOn (s : State) (l : LineId) : List WriteOp :=
  (s.mem.held.filter fun x => x.1 = l).map (·.2)

/-- Residency of the device's own accesses, which has no quota: no line is allocated for them (log 21). -/
def deviceRes : Nat := 4

/-- A line as its home slice holds it, with the device's own writes that still wait there. -/
def State.devLine (s : State) (l : LineId) : List Byte × Word :=
  (s.heldOn l).foldl (fun (acc : List Byte × Word) w =>
    match w.place with
    | .line _ ofs =>
      if w.res = deviceRes then
        (putBytes acc.1 ofs w.bytes, putTags acc.2 ofs w.bytes.length fun i => w.tags.getD i false)
      else acc
    | _ => acc) (s.homeLine l)

/-- A write of the device's has been held at a line. -/
def State.devHeld (s : State) (l : LineId) : Bool := (s.heldOn l).any fun w => w.res = deviceRes

/-- A write of the device arrives at a home slice: applied, or held like any other (R80, R93, R425), and while a write of
the device's is held at a line that it comes after (R403). -/
def State.devArrive (s : State) (l : LineId) (ofs : Nat) (bs : List Byte) (after : Option LineId := none) : State :=
  if !after.any s.devHeld && !s.leased l && (s.heldOn l).isEmpty && !s.mem.hostLines.contains l
      && ((s.line? l).isSome || (s.busyRow (s.lineRows l)).isNone) then
    s.applyLine l ofs bs fun _ => false
  else
    let w : WriteOp :=
      { place := .line l ofs, bytes := bs, tags := [], marker := none, cleared := none, req := none, op := none
        peer := none, res := deviceRes, maint := none, after := after }
    { s with mem := { s.mem with held := s.mem.held ++ [(l, w)] } }

/-- A device read of a line would have to wait for a row (R93). -/
def State.lineAway (s : State) (l : LineId) : Bool := (s.line? l).isNone && (s.busyRow (s.lineRows l)).isSome

/-! The device's own structures (log 21). -/

/-- The part of [pa, pa + n) that lies in the line of `pa`, then the rest. -/
def chunks : Nat → Nat → Nat → List (Nat × Nat)
  | 0, _, _ => []
  | fuel + 1, pa, n =>
    if n = 0 then []
    else
      let k := min n (128 - pa % 128)
      (pa, k) :: chunks fuel (pa + k) (n - k)

def lineChunks (pa n : Nat) : List (Nat × Nat) := chunks (n / 128 + 2) pa n

/-- Bytes of local space as the home slices hold them, and whether any word carries the tag; an absent
byte reads 0 with the tag. -/
def State.devRead (s : State) (pa n : Nat) : List Byte × Bool :=
  (lineChunks pa n).foldl (fun (acc : List Byte × Bool) (a, k) =>
    match s.decodeLocal a true with
    | .ok st e d =>
      let (bs, p) := s.devLine ⟨st, e, d / 128⟩
      let o := d % 128
      (acc.1 ++ (bs.drop o).take k, acc.2 || (List.range k).any fun i => bitOf p ((o + i) / 4))
    | _ => (acc.1 ++ List.replicate k 0, true)) ([], false)

def State.devNat (s : State) (pa n : Nat) : Nat := leNat (s.devRead pa n).1

/-- What a read of the error log's own words corrects is rewritten (R392); it makes no entry of its own (log 36). -/
def State.devMend (s : State) (pa n : Nat) : State :=
  (lineChunks pa n).foldl (fun s (a, _) => match s.decodeLocal a true with
    | .ok st e d =>
      let l : LineId := ⟨st, e, d / 128⟩
      if (s.line? l).isSome then s
      else (List.range 2).foldl (fun s h =>
        let (r, k) := lineSector s l h
        let (b, v) := s.peekSector r k
        if v = .corrected then s.pokeSector r k b false else s) s
    | _ => s) s

/-- A device read of bytes of local space would have to wait for a row that is not controller-owned (R93). -/
def State.devAway (s : State) (pa n : Nat) : Bool :=
  (lineChunks pa n).any fun (a, _) => match s.decodeLocal a true with
    | .ok st e d => s.lineAway ⟨st, e, d / 128⟩
    | _ => false

/-- Write the device's own bytes of local space; a byte at an absent address is dropped. -/
def State.devWrite (s : State) (pa : Nat) (bs : List Byte) (after : Option LineId := none) : State :=
  (lineChunks pa bs.length).foldl (fun s (a, k) =>
    match s.decodeLocal a true with
    | .ok st e d => s.devArrive ⟨st, e, d / 128⟩ (d % 128) ((bs.drop (a - pa)).take k) after
    | _ => s) s

/-- The device's own writes have all been applied. -/
def State.devQuiet (s : State) : Bool := s.mem.held.all fun (_, w) => w.res ≠ deviceRes

def State.devPut (s : State) (pa n x : Nat) : State := s.devWrite pa (leBytes n x)

/-! Budget and log. -/

/-- Who is charged for an access (R399). -/
structure Who where
  ctx : Option Nat
  gid : Option Nat
  deriving DecidableEq, Repr

/-- An imprecise event of a resident group: pending until the next boundary, in the frame's PENDING too where the group
is framed (R330, R335). -/
def raiseImprecise (s : State) (gid code info : Nat) : State :=
  let s := s.onGroup gid fun g =>
    { g with imprecise := g.imprecise ||| (1#32 <<< code), impInfo := sset 0 g.impInfo code info }
  match (s.group? gid).bind (·.frame) with
  | some a => s.devPut (a + 0x58) 4 (s.devNat (a + 0x58) 4 ||| 2 ^ code)
  | none => s

/-- An imprecise event of a group, or a record with FRAME = 0 when it is not resident (R330). -/
def State.imprecise (s : State) (w : Who) (code info full : Nat) : State :=
  match w.gid with
  | some g =>
    if (s.group? g).any (fun x => !x.ended) then raiseImprecise s g code info
    else raiseRecord s (w.ctx.getD 0) code info full
  | none => raiseRecord s (w.ctx.getD 0) code info full

/-- Charge a context (R400); a context without a budget is not charged (R399). -/
def State.charge (s : State) (w : Who) (c : Nat) : State :=
  match w.ctx with
  | none => s
  | some n =>
    let x := s.ctx n
    if x.budgetField = 0 || c = 0 then s
    else
      let left := x.ebudget - c
      let s := s.onCtx n fun x => { x with ebudget := left }
      if x.ebudget > 0 && left = 0 then s.imprecise w 0x17 0 0 else s

/-- What a log entry names (R403). -/
structure LogAt where
  stack : Nat
  pch : Nat
  bank : Nat
  row : Nat
  slot : Nat
  addr : Nat
  deriving DecidableEq, Repr

def LogAt.none : LogAt := ⟨0, 0, 0, 0, 0xFF, 0⟩

def State.logAt (s : State) (r : RowId) (slot : Nat) : LogAt :=
  ⟨r.stack, r.pch, 4 * r.bg + r.bank, r.row, slot, (s.addressOf r.stack (r.row / 32) (64 * s.rowSector r slot)).getD 0⟩

/-- An event of the error log (R403): a new entry, with the interrupt of KIND 3, 6 and 8 (R428), or one more of the newest.
What reading the ring's words corrects is rewritten (R392). -/
def State.log (s : State) (kind : Nat) (at_ : LogAt) (ctx : Nat) : State :=
  let rb := slotList s + 0x7000
  let b := s.rel.block
  if b.logSize = 0 then s
  else
    let s := s.devMend (rb + 0x1C) 12
    let put := s.devNat (rb + 0x1C) 4
    let get_ := s.devNat (rb + 0x20) 4
    let used := (put + 2 ^ 32 - get_) % 2 ^ 32
    let sector := (((at_.stack * 64 + at_.pch) * 64 + at_.bank) * 8192 + at_.row) * 256 + at_.slot
    match s.rel.newest with
    | some (k, sec, n, t) =>
      if k = kind && sec = sector && s.ltick ≤ t + 1000000 && used ≠ 0 && n = (put + 2 ^ 32 - 1) % 2 ^ 32 then
        let a := b.logBase + 32 * (n % b.logSize) + 0x14
        let s := s.devMend a 4
        s.devPut a 4 (s.devNat a 4 + 1)
      else write s rb b put used sector
    | none => write s rb b put used sector
where
  /-- A new entry, or LOGLOST when the ring is full. -/
  write (s : State) (rb : Nat) (b : RelBlock) (put used sector : Nat) : State :=
    if used = b.logSize then s.devPut (rb + 0x24) 4 (s.devNat (rb + 0x24) 4 + 1)
    else
      let a := b.logBase + 32 * (put % b.logSize)
      let s := if kind = 3 || kind = 6 || kind = 8 then s.send .msix else s
      let s := s.devWrite a
        (leBytes 1 kind ++ leBytes 1 at_.stack ++ leBytes 1 at_.pch ++ leBytes 1 at_.bank ++ leBytes 2 at_.row
          ++ leBytes 1 at_.slot ++ [0] ++ leBytes 8 s.ltick ++ leBytes 4 ctx ++ leBytes 4 1 ++ leBytes 8 at_.addr)
      let s := s.devWrite (rb + 0x1C) (leBytes 4 (put + 1)) (match s.decodeLocal a true with
        | .ok st e d => some ⟨st, e, d / 128⟩
        | _ => none)
      { s with rel := { s.rel with newest := some (kind, sector, put, s.ltick) } }

/-- A machine check (R404). -/
def State.machineCheck (s : State) (w : Who) (info : Nat) (at_ : LogAt) : State :=
  (s.imprecise w 0x18 info info).log 8 at_ (w.ctx.getD 0)

/-- The threshold of R393 and R396. -/
def RelBlock.threshold (b : RelBlock) : Nat := if b.ceThresh = 0 then 16 else b.ceThresh

/-- The number of the correction window at hand (R393, R396). -/
def State.windowNow (s : State) : Nat :=
  let w := s.rel.block.ceWindow
  s.ltick / ((if w = 0 || 86400 < w then 3600 else w) * 1000000000)

/-- The counts are cleared when LTICK has crossed a multiple of the window (R396). -/
def State.clearWindow (s : State) : State :=
  if s.windowNow = s.rel.windowAt then s else { s with rel := { s.rel with ceCount := [], windowAt := s.windowNow } }

/-- A row is due to be strengthened, at once where it can be (R396). -/
def State.dueRow (s : State) (r : RowId) : State :=
  { s with rel := { s.rel with due := (s.rel.due.filter (· ≠ r)) ++ [r] }
           agenda := .event s.cur (.rowStrengthen r) :: s.agenda }

/-- A corrected error of a row's bank, counted in the window at hand (R396); a class P row of a reinforcing bank is then due
to be strengthened at once. -/
def State.countCorrected (s : State) (r : RowId) : State :=
  let s := s.clearWindow
  let k := bankKey r
  let n := sget 0 s.rel.ceCount k + 1
  let s := { s with rel := { s.rel with ceCount := sset 0 s.rel.ceCount k n } }
  let s := if n ≥ s.rel.block.threshold && !s.rel.reinforcing.contains k then
      ({ s with rel := { s.rel with reinforcing := s.rel.reinforcing ++ [k] } }).log 5 { s.logAt r 0xFF with addr := 0 } 0
    else s
  if s.rel.reinforcing.contains k && s.rowCode r = .P then s.dueRow r else s

/-- A demand read of a sector: corrected data is rewritten, errors are charged and logged (R89, R392, R399). -/
def State.demandSector (s : State) (w : Who) (r : RowId) (slot : Nat) : (List Byte × Bool) × State :=
  let (d, v) := s.peekSector r slot
  match v with
  | .clean => ((d, false), s)
  | .poison => ((d, true), s)
  | .corrected =>
    let s := s.pokeSector r slot d false
    let s := (s.charge w 1).log 1 (s.logAt r slot) (w.ctx.getD 0)
    ((d, false), s.countCorrected r)
  | .uncorrectable => ((d, true), (s.charge w 64).log 3 (s.logAt r slot) (w.ctx.getD 0))

/-- A partial write of a sector meets the errors that stand there (R392, R399); a whole one reads nothing. -/
def State.meetSector (s : State) (w : Who) (r : RowId) (slot n : Nat) : State :=
  if 64 ≤ n then s else (s.demandSector w r slot).2

/-- A write of bytes of a line that goes straight to the stack meets them in each sector. -/
def State.meetLine (s : State) (w : Who) (l : LineId) (ofs n : Nat) : State :=
  if (s.line? l).isSome then s
  else (List.range 2).foldl (fun s h =>
    let lo := max ofs (64 * h)
    let hi := min (ofs + n) (64 * h + 64)
    let (r, slot) := lineSector s l h
    if lo < hi then s.meetSector w r slot (hi - lo) else s) s

/-- A demand read of a line from its stack. -/
def State.demandLine (s : State) (w : Who) (l : LineId) : (List Byte × Word) × State :=
  let (r0, n0) := lineSector s l 0
  let (r1, n1) := lineSector s l 1
  let ((d0, t0), s) := s.demandSector w r0 n0
  let ((d1, t1), s) := s.demandSector w r1 n1
  ((d0 ++ d1, (if t0 then 0xFFFF#32 else 0) ||| (if t1 then 0xFFFF0000#32 else 0)), s)

/-- A read of the device's own from the stack is a demand read too: what it corrects is rewritten, charged to no context
(R392, R399). -/
def State.devTouch (s : State) (pa n : Nat) : State :=
  (lineChunks pa n).foldl (fun s (a, _) => match s.decodeLocal a true with
    | .ok st e d =>
      let l : LineId := ⟨st, e, d / 128⟩
      if (s.line? l).isSome then s else (s.demandLine ⟨none, none⟩ l).2
    | _ => s) s

/-- A sector of a line stands with an error that its code corrects. -/
def State.corrects (s : State) (l : LineId) : Bool :=
  (List.range 2).any fun h => let (r, k) := lineSector s l h; (s.peekSector r k).2 = .corrected

/-- A line as its home slice holds it, read on demand where the depot does not hold it (R392). -/
def State.homeDemand (s : State) (w : Who) (l : LineId) : (List Byte × Word) × State :=
  match s.line? l with
  | some x => ((x.bytes, x.poison), s)
  | none => s.demandLine w l

/-- The words of a line are verified as it is written back (R401): what fails is only logged, and a word that is not corrected
is poisoned (R399, R402). -/
def State.verifyLine (s : State) (l : LineId) (poison : Word) : Word × State :=
  let wordOf := fun (u : Upset) => match u.site with
    | .depot k w => if k = l then some w else none
    | _ => none
  if s.rel.upsets.isEmpty then (poison, s)
  else s.rel.upsets.foldl (fun (p, s) u => match wordOf u with
    | some w =>
      let (r, k) := lineSector s l (w / 16)
      (if u.two then p ||| (1#32 <<< w) else p, s.log (if u.two then 3 else 1) (s.logAt r k) 0)
    | none => (p, s))
    (poison, { s with rel := { s.rel with upsets := s.rel.upsets.filter fun u => (wordOf u).isNone } })

/-- Write a dirty line back, sector by sector (R82, R90); a poisoned word of class N raises a machine
check that names the sector (R91). -/
def State.writeBack (s : State) (w : Who) (l : LineId) (bytes : List Byte) (poison : Word) : State :=
  let (poison, s) := s.verifyLine l poison
  (List.range 2).foldl (fun s h =>
    let (r, slot) := lineSector s l h
    let p := (List.range 16).any fun k => bitOf poison (16 * h + k)
    let d := (bytes.drop (64 * h)).take 64
    if p && s.rowCode r = .N then
      let at_ := s.logAt r slot
      (s.pokeSector r slot d false).machineCheck w at_.addr at_
    else s.pokeSector r slot d p) s

/-- Entries of a pseudo-channel's hold queue that are taken. -/
def State.holdLoad (s : State) (r : RowId) : Nat :=
  (s.mem.holdQ.filter fun x => x.row.stack = r.stack && x.row.pch = r.pch).length

/-- A request that comes to a row waits for its bank alone. -/
def State.waitsBank (s : State) (r : RowId) : Bool :=
  s.rowState r = .controller && !(s.mem.holdQ.any fun x => x.row = r) && !(s.mem.linkQ.any fun x => x.row = r)

/-- Work of an express group (R27, R306). -/
def State.workExpress (s : State) (w : HeldWork) : Bool :=
  let gid : Option Nat := match w with
    | .req id => (s.req? id).map (·.gid)
    | .fill l => (s.mem.wants.find? fun x => x.line = l).bind (·.gid)
    | .op id | .walk id | .writeback _ _ _ (some id) _ => (s.op? id).map (·.gid)
    | .writeback _ _ _ none _ => none
  (gid.bind s.group?).any fun g => g.cls = 0

/-- A request waits for a row's bank (R306). -/
def State.holdBank (s : State) (r : RowId) (w : HeldWork) : State :=
  { s with mem := { s.mem with bankQ := s.mem.bankQ ++ [⟨r, w, s.workExpress w, 0⟩] } }

/-- A request waits for its row: for the bank, in its pseudo-channel's hold queue, or at the die-to-die link (R93, R306). -/
def State.hold (s : State) (r : RowId) (w : HeldWork) : State :=
  if s.waitsBank r then s.holdBank r w
  else if s.holdLoad r < 32 then { s with mem := { s.mem with holdQ := s.mem.holdQ ++ [⟨r, w⟩] } }
  else { s with mem := { s.mem with linkQ := s.mem.linkQ ++ [⟨r, w⟩] } }

/-- An entry leaves a hold queue, and the oldest request at the link of that pseudo-channel enters (R93). -/
def State.unhold (s : State) (h : HoldEntry) : State :=
  let q := s.mem.holdQ.erase h
  let same := fun (x : HoldEntry) => x.row.stack = h.row.stack && x.row.pch = h.row.pch
  match s.mem.linkQ.find? same with
  | some x => { s with mem := { s.mem with holdQ := q ++ [x], linkQ := s.mem.linkQ.erase x } }
  | none => { s with mem := { s.mem with holdQ := q } }

/-- Work waits no more at some rows. -/
def State.dropHold (s : State) (rs : List RowId) (w : HeldWork) : State :=
  let s := { s with mem := { s.mem with
    bankQ := s.mem.bankQ.filter fun x => !(x.work = w && rs.contains x.row)
    linkQ := s.mem.linkQ.filter fun x => !(x.work = w && rs.contains x.row) } }
  (s.mem.holdQ.filter fun x => x.work = w && rs.contains x.row).foldl (fun s h => s.unhold h) s

/-- Work waits at a row that stops it: with a new entry, or, where it is the oldest of a hold queue's and only the bank is
in the way any more, for the bank (R93, R306). -/
def State.awaitRow (s : State) (r : RowId) (w : HeldWork) : State :=
  if !s.heldAt w r then s.hold r w
  else if s.rowState r = .controller && (s.rowQueue r).head? = some w && s.mem.holdQ.contains ⟨r, w⟩ then
    (s.unhold ⟨r, w⟩).holdBank r w
  else s

/-- Work passes some rows: on, with its entries gone, or waiting at the first that stops it, and the state that waits
(R93, R306). -/
def State.passRows (s : State) (rs : List RowId) (w : HeldWork) : Except State State :=
  match rs.find? fun r => s.rowStops w r with
  | some r => .error (s.awaitRow r w)
  | none => .ok (s.dropHold rs w)

/-- A read of a line that is to come straight from the stack takes an entry of the hold queue (R93). -/
def State.awaitRows (s : State) (l : LineId) : State :=
  match s.passRows (s.lineRows l) (.fill l) with
  | .error s => s
  | .ok _ => s

/-- The device's reads of local space likewise. -/
def State.devAwait (s : State) (pa n : Nat) : State :=
  (lineChunks pa n).foldl (fun s (a, _) => match s.decodeLocal a true with
    | .ok st e d => let l : LineId := ⟨st, e, d / 128⟩; if s.lineAway l then s.awaitRows l else s
    | _ => s) s

/-- The device reads bytes of its own structures at their home: it waits for rows that are away (R93), or has the bytes,
and whether any word carries the tag, and the state that reading on demand leaves (R392). -/
def State.devFetch (s : State) (pa n : Nat) : Except State ((List Byte × Bool) × State) :=
  if s.devAway pa n then .error (s.devAwait pa n) else .ok (s.devRead pa n, s.devTouch pa n)

end Sys2Proof.Machine
end

