-- ==== Sys2Proof/Machine/Record.lean ====
section
/-! DEFINITION. Record and replay of a root task (R385 to R389): the log, and what a task reads from the host. -/

namespace Sys2Proof.Machine

def State.serialOfGroup (s : State) (gid : Nat) : Option Serial := (s.group? gid).bind fun g => s.serialOf g.grid

def State.onSerial (s : State) (root : Nat) (f : Serial → Serial) : State :=
  { s with disp := { s.disp with serials := s.disp.serials.map fun x => if x.root = root then f x else x } }

/-- The record-log header of a task's context (R367, R387). -/
def State.logHeader (s : State) (x : Serial) : Nat := (s.ctx x.ctx).frameArea + 0x80

/-- Entry types of R387. -/
def logLaunch : Nat := 1
def logPlace : Nat := 2
def logFabric : Nat := 3
def logHostRead : Nat := 4
def logEnd : Nat := 5

/-- Append an entry in record mode; one that does not fit sets LOGSTAT to 1, and nothing follows it (R387). -/
def State.logAppend (s : State) (x : Serial) (type addr : Nat) (payload : List Byte) : State :=
  if x.mode ≠ .record || x.full then s
  else
    let h := s.logHeader x
    let s := s.devTouch h 32
    let n := 32 + (payload.length + 31) / 32 * 32
    if s.devNat (h + 8) 8 < x.head + n then (s.devPut (h + 0x1C) 4 1).onSerial x.root fun x => { x with full := true }
    else
      let s := s.devWrite (s.devNat h 8 + x.head)
        (leBytes 1 type ++ leBytes 3 0 ++ leBytes 4 payload.length ++ leBytes 8 x.count ++ leBytes 8 s.ltick
          ++ leBytes 8 addr ++ payload ++ List.replicate (n - 32 - payload.length) 0)
      (s.devPut (h + 0x10) 8 (x.head + n)).onSerial x.root fun x => { x with head := x.head + n }

/-- An entry of the log. -/
structure LogEntry where
  type : Nat
  count : Nat
  addr : Nat
  payload : List Byte
  next : Nat
  deriving DecidableEq, Repr

/-- The entry that a replayed task takes next; none at the log's end (R388, R389). -/
def State.logNext (s : State) (x : Serial) : Option LogEntry :=
  let h := s.logHeader x
  if s.devNat (h + 0x10) 8 < x.head + 32 then none
  else
    let a := s.devNat h 8 + x.head
    let n := s.devNat (a + 4) 4
    some ⟨s.devNat a 1, s.devNat (a + 8) 8, s.devNat (a + 0x18) 8, (s.devRead (a + 32) n).1,
      x.head + 32 + (n + 31) / 32 * 32⟩

/-- A replayed task has taken an entry, which it has read with its header (R392). -/
def State.logTake (s : State) (x : Serial) (e : LogEntry) : State :=
  let h := s.logHeader x
  ((s.devTouch h 32).devTouch (s.devNat h 8 + x.head) (e.next - x.head)).onSerial x.root fun x => { x with head := e.next }

/-- What a read of the host by a group returns: the event's value, or the log's (R387, R388). -/
def State.hostValue (s : State) (gid va n : Nat) (ext : Option ExtVal) : Option (List Byte × Bool × State) :=
  match s.serialOfGroup gid with
  | some x =>
    if x.mode = .replay then
      match s.logNext x with
      | some e => if e.type = logHostRead && e.addr = va then some (e.payload.take n, false, s.logTake x e) else none
      | none => none
    else ext.map fun v => (leBytes n v.val, v.tag, s.logAppend x logHostRead va (leBytes n v.val))
  | none => ext.map fun v => (leBytes n v.val, v.tag, s)

/-! FABRIC entries (R387): the model's layout (log 32). -/

/-- The kind and the numbers of an inbound operation, its data and their tags. -/
def inboundFields : InboundOp → Nat × List Nat × List Byte × List Bool
  | .read n g => (0, [n, g.getD 0, if g.isSome then 1 else 0], [], [])
  | .write b t g => (1, [g.getD 0, if g.isSome then 1 else 0], b, t)
  | .rstWrite b t => (2, [], b, t)
  | .rstFlag => (3, [], [], [])
  | .atom op ac x t =>
    let o := match op with
      | .add => 0 | .min => 1 | .max => 2 | .and => 3 | .or => 4 | .xor => 5 | .exch => 6
    (4, [o, ac.toNat, x, if t then 1 else 0], [], [])
  | .cas ac a b t => (5, [ac.toNat, a, b, if t then 1 else 0], [], [])
  | .lock c d g L => (6, [c, d, g, L], [], [])
  | .unlock c d g L => (7, [c, d, g, L], [], [])
  | .clean => (8, [], [], [])
  | .inval => (9, [], [], [])
  | .walk image step ptr crossings acq pkg op pasid =>
    (10, [step, ptr, crossings, if acq then 1 else 0, pkg, op, pasid], image, [])
  | .clear g sc => (11, [g, sc.code], [], [])
  | .withdraw c d g L => (12, [c, d, g, L], [], [])
  | .other => (13, [], [], [])
  | .drainAdd ac mask b t => (14, [ac.toNat], leBytes 128 mask ++ b, List.replicate 128 false ++ t)
  | .retire g => (15, [g], [], [])

/-- A result: its kind, the tags and the value of up to 128 bytes. -/
def answerBytes : PeerAnswer → List Byte
  | .done v t => leBytes 4 0 ++ leBytes 4 t.toNat ++ leBytes 128 v
  | .retry => leBytes 136 1
  | .stale => leBytes 136 2
  | .absent => leBytes 136 3
  | .badAttribute => leBytes 136 4
  | .permission => leBytes 136 5
  | .poisonStore => leBytes 136 6
  | .notOwner => leBytes 136 7
  | .owner => leBytes 136 8
  | .withdrawn => leBytes 136 9

/-- The request's bytes and its result, as the model's log holds them. -/
def inboundLog (r : Inbound) (result : PeerAnswer) : List Byte :=
  let (k, ns, b, t) := inboundFields r.op
  leBytes 4 r.src ++ leBytes 4 k ++ (List.range 8).flatMap (fun i => leBytes 8 (ns.getD i 0))
  ++ leBytes 4 r.res ++ leBytes 4 (if r.nc then 1 else 0) ++ leBytes 4 b.length ++ leBytes 4 0
  ++ answerBytes result ++ b ++ t.map fun x => if x then 1 else 0

/-- Record an inbound request that acts on a recorded task's PASID (R387). -/
def State.logInbound (s : State) (r : Inbound) (result : PeerAnswer) : State :=
  match s.disp.serials.find? fun x => x.mode = .record && (s.ctx x.ctx).pasid = r.pasid with
  | some x => s.logAppend x logFabric r.off (inboundLog r result)
  | none => s

end Sys2Proof.Machine
end

