-- ==== Sys2Proof/Machine/Xlate.lean ====
section
/-! DEFINITION. Translation: the TLBs (R353, R356), walking the host-format tables (R345, R348 to R352),
the windows of the device physical address space (R344), and where an access goes (R13, R14). -/

namespace Sys2Proof.Machine

/-- Bits [63:56] are all equal (R343). -/
def canonical (va : Nat) : Bool := natBits va 63 56 = 0 || natBits va 63 56 = 255

/-- The cluster of a core (R11). -/
def clusterOf (core : Nat) : Nat := core / 8

/-- What a TLB answers. -/
inductive Tr where
  | hit (pa : Nat) (nc : Bool) (res : Nat)
  | miss
  | fault (reason : Nat)
  deriving DecidableEq, Repr

def State.tlbFind (s : State) (cluster pasid va : Nat) : Option TlbEntry :=
  s.xl.tlb.find? fun e => e.cluster = cluster && e.pasid = pasid && e.va = va / e.size * e.size

/-- Judge an access against a translation (R351). -/
def TlbEntry.judge (e : TlbEntry) (va : Nat) (k : AccKind) : Tr :=
  match k with
  | .write => if e.write then .hit (e.pa + va % e.size) e.nc e.res else .fault 4
  | .fetch => if e.exec then .hit (e.pa + va % e.size) e.nc e.res else .fault 5
  | .read => .hit (e.pa + va % e.size) e.nc e.res

/-- Translation at the TLB of a core's cluster. -/
def State.translate (s : State) (core pasid va : Nat) (k : AccKind) : Tr :=
  match s.tlbFind (clusterOf core) pasid va with
  | some e => e.judge va k
  | none => .miss

/-- Where a device physical address lies (R344). -/
inductive Where where
  | local_ (a : Nat)
  | host (a : Nat)
  | peer (n a : Nat)
  | absent
  deriving DecidableEq, Repr

/-- The windows of R344, the package's own peer window being local space. -/
def State.window (s : State) (pa : Nat) : Where :=
  if pa < 2 ^ 41 then .local_ pa
  else if 2 ^ 50 ≤ pa && pa < 2 ^ 51 then .host (pa - 2 ^ 50)
  else if 2 ^ 51 ≤ pa && pa < 2 ^ 52 then
    let n := (pa - 2 ^ 51) / 2 ^ 41
    let o := (pa - 2 ^ 51) % 2 ^ 41
    if n = s.fab.self % 1024 then .local_ o else .peer n o
  else .absent

/-- Where an access goes, with the class of its extent. -/
inductive Placed where
  | at (p : Place) (cls : Option ExtClass)
  | absent
  | changing
  deriving DecidableEq, Repr

/-- Place an access of a physical address (R13, R14, R344, R347). -/
def State.placeOf (s : State) (pa : Nat) (nc ctx0 : Bool) : Placed :=
  match s.window pa with
  | .local_ a => match s.decodeLocal a ctx0 with
    | .ok st e d => .at (if nc then .raw st e d else .line ⟨st, e, d / 128⟩ (d % 128)) (some (s.extent st e).cls)
    | .absent => .absent
    | .changing => .changing
  | .host a => .at (.host a) none
  | .peer n a => .at (.peer n a nc) none
  | .absent => .absent

/-! Walks. -/

/-- devaddr of R345. -/
def TBlock.devaddr (t : TBlock) (f : Nat) : Option Nat :=
  if t.hdmBase ≤ f && f < t.hdmBase + 2 ^ 41 then some (f - t.hdmBase)
  else if t.peerBase ≠ 0 && t.peerBase ≤ f && f < t.peerBase + 2 ^ 51 then some (2 ^ 51 + (f - t.peerBase))
  else if f < 2 ^ 50 then some (2 ^ 50 + f) else none

/-- A profile stands within the table of R349. -/
def Profile.ok (p : Profile) : Bool :=
  let bit := fun b => decide (b ≤ 63)
  let opt := fun b => decide (b ≤ 63) || b = 0xFF
  ((p.granule = 0 && (p.levels = 4 || p.levels = 5)) || (p.granule = 1 && (p.levels = 3 || p.levels = 4)))
  && bit p.present && bit p.write && opt p.noexec && bit p.leaf && opt p.acc && opt p.dirty
  && decide (p.attr ≤ 60) && decide (39 ≤ p.frameHi) && decide (p.frameHi ≤ 51) && decide (p.flags ≤ 3) && p.zero

def emptyProfile : Profile := ⟨0, 0, 0, 0, 0, 0, 0, 0, 0, 0, 0, false⟩

/-- A PASID table entry (R348). -/
structure PasidEntry where
  root : Nat
  profile : Nat
  valid : Bool
  pri : Bool
  allocTab : Nat
  allocCount : Nat
  deriving DecidableEq, Repr

/-- Read a PASID's entry; `none` when it is out of the table or not valid. Its bytes are used as they stand, also where
their words are poisoned (R350, log 73). -/
def State.pasidEntry (s : State) (p : Nat) : Option PasidEntry :=
  if s.xl.tb.pasidCount ≤ p then none
  else
    let b := (s.devRead (s.xl.tb.pasidTab + 32 * p) 32).1
    let f := fun o n => leNat ((b.drop o).take n)
    if natBit (f 9 1) 0 then some ⟨f 0 8, f 8 1, true, natBit (f 9 1) 1, f 16 8, f 24 4⟩ else none

/-- The result of a walk. -/
inductive WalkOut where
  | fill (e : TlbEntry)
  | fault (reason : Nat)
  /-- A host word is missing, a table stands in a slot that is changing, or its row is away (R93). -/
  | stuck
  deriving DecidableEq, Repr

/-- A table read (R350): the word, the host words left. -/
inductive TableRead where
  | word (x : Nat) (rest : List (BitVec 64))
  | fault (reason : Nat)
  | stuck
  deriving DecidableEq, Repr

/-- Read a table word at a device physical address (R345, R350). -/
def State.tableRead (s : State) (pa : Nat) (ctx0 : Bool) (host : List (BitVec 64)) : TableRead :=
  match s.window pa with
  | .local_ a => match s.decodeLocal a ctx0 with
    | .ok .. =>
      let (b, t) := s.devRead a 8
      if s.devAway a 8 then .stuck else if t then .fault 7 else .word (leNat b) host
    | .absent => .fault 8
    | .changing => .stuck
  | .host _ => match host with
    | x :: rest => .word x.toNat rest
    | [] => .stuck
  | .peer .. => .fault 7
  | .absent => .fault 8

/-- An atomic OR of the device's arrives at a home slice, and is applied there like any other (R80, R351). -/
def State.devOr (s : State) (a bits : Nat) : State :=
  match s.decodeLocal a true with
  | .ok st e d =>
    let l : LineId := ⟨st, e, d / 128⟩
    let (n, s) := s.fresh
    let r : Req :=
      { id := n, gid := 0, gen := 0, core := 0, side := 0, slot := 0, ctx := 65535, lane := 33, pc := 0, kind := .red .or 3
        place := .line l (d % 128), va := 0, size := 8, res := deviceRes, reg := 0, bytes := leBytes 8 bits
        tags := List.replicate 8 false, acq := false, rel := false, scope := .d, seq := 0, op := none, accepted := true
        queued := false, sent := false, noFill := false, replays := 0, also := 0 }
    let w : WriteOp :=
      { place := r.place, bytes := r.bytes, tags := r.tags, marker := none, cleared := none, req := some n, op := none
        peer := none, res := deviceRes, maint := none, after := none }
    State.push { s with eng := { s.eng with reqs := s.eng.reqs ++ [r] }, mem := { s.mem with held := s.mem.held ++ [(l, w)] } }
      [.event s.cur (.heldWriteApply l)]
  | _ => s

/-- Set bits of a table word at its executor (R351). -/
def State.tableOr (s : State) (pa x bits : Nat) : State :=
  if x ||| bits = x then s
  else match s.window pa with
    | .local_ a => s.devOr a bits
    | .host a => s.send (.atom a .or 3 bits)
    | _ => s

/-- A table read from the stack that has to wait takes an entry of the hold queue (R93). -/
def State.tableAwait (s : State) (pa : Nat) : State :=
  match s.window pa with
  | .local_ a => s.devAwait a 8
  | _ => s

/-- A table read from the stack rewrites what it corrects (R392). -/
def State.tableTouch (s : State) (pa : Nat) : State :=
  match s.window pa with
  | .local_ a => s.devTouch a 8
  | _ => s

/-- Keep an upper-level entry (R353). -/
def State.keepUpper (s : State) (pasid table idx : Nat) (word : Nat) : State :=
  let e : UpperEntry := ⟨pasid, table, idx, BitVec.ofNat 64 word⟩
  if s.xl.upper.contains e then s
  else
    let u := if s.xl.upper.length < 256 then s.xl.upper else s.xl.upper.eraseIdx (Config.tlbVictim s.free % 256)
    { s with xl := { s.xl with upper := u ++ [e] } }

/-- The levels of a walk, from `lvl` down (R350); the order in which the faults of a leaf are looked for is the model's
(R351, log 74). -/
def walkLevels (w : Walk) (pf : Profile) (ctx0 : Bool) : Nat → Nat → List (BitVec 64) → State → WalkOut × State
  | 0, _, _, s => (.fault 6, s)
  | lvl + 1, t, host, s =>
    let g := if pf.granule = 0 then 12 else 16
    let b := if pf.granule = 0 then 9 else 13
    let cover := min (g + b * pf.levels) 57
    let idx := natBits w.va (min (g + b * (lvl + 1)) cover - 1) (g + b * lvl)
    match s.xl.tb.devaddr t with
    | none => (.fault 8, s)
    | some base =>
      let a := base + 8 * idx
      let kept := s.xl.upper.find? fun u => u.pasid = w.pasid && u.table = t && u.idx = idx
      let rd := match kept with
        | some u => TableRead.word u.word.toNat host
        | none => s.tableRead a ctx0 host
      match rd with
      | .fault r => (.fault r, s)
      | .stuck => (.stuck, s.tableAwait a)
      | .word x host =>
        let s := if kept.isSome then s else s.tableTouch a
        if !natBit x pf.present then (.fault 3, s)
        else
          let isLeaf := lvl = 0 || (natBit x pf.leaf ^^ natBit pf.flags 0)
          if isLeaf then
            let sz := g + b * lvl
            let okSize := if pf.granule = 0 then sz = 12 || sz = 21 || sz = 30 else sz = 16
            if !okSize then (.fault 6, s)
            else if natBit x (pf.attr + 3) then (.fault 9, s)
            else if w.kind = .write && !natBit x pf.write then (.fault 4, s)
            else if w.kind = .fetch && pf.noexec ≠ 0xFF && natBit x pf.noexec then (.fault 5, s)
            else
              let frame := natBits x pf.frameHi sz * 2 ^ sz
              match s.xl.tb.devaddr frame with
              | none => (.fault 8, s)
              | some pa =>
                let bits := if natBit pf.flags 1 then
                    (if pf.acc = 0xFF then 0 else 2 ^ pf.acc)
                    ||| (if w.kind = .write && pf.dirty ≠ 0xFF then 2 ^ pf.dirty else 0)
                  else 0
                let s := s.tableOr a x bits
                (.fill { cluster := w.cluster, pasid := w.pasid, va := w.va / 2 ^ sz * 2 ^ sz, size := 2 ^ sz, pa := pa
                         write := natBit x pf.write
                         exec := pf.noexec = 0xFF || !natBit x pf.noexec
                         nc := natBit x (pf.attr + 2), res := natBits x (pf.attr + 1) pf.attr, victim := false }, s)
          else
            walkLevels w pf ctx0 lvl (natBits x pf.frameHi g * 2 ^ g) host (s.keepUpper w.pasid t idx x)

/-- The translation block lies where R346 requires. -/
def State.blockPlaced (s : State) : Bool :=
  match s.decodeLocal s.sup.ctxTab.toNat true with
  | .ok st e _ => let c := (s.extent st e).cls; c = .D || c = .P
  | _ => false

/-- A walk (R350), with the words that its host reads return. -/
def State.walk (s : State) (w : Walk) (ctx0 : Bool) (host : List (BitVec 64)) : WalkOut × State :=
  let at_ := s.xl.tb.pasidTab + 32 * w.pasid
  if !s.blockPlaced then (.fault 7, s)
  else if decide (w.pasid < s.xl.tb.pasidCount) && s.devAway at_ 32 then (.stuck, s.devAwait at_ 32)
  else match s.pasidEntry w.pasid with
    | none => (.fault 2, s)
    | some e =>
      let s := s.devTouch at_ 32
      let pf := s.xl.tb.profiles.getD e.profile emptyProfile
      if !pf.ok then (.fault 10, s)
      else
        let g := if pf.granule = 0 then 12 else 16
        let b := if pf.granule = 0 then 9 else 13
        let cover := min (g + b * pf.levels) 57
        let top := natBits w.va 56 (cover - 1)
        if top ≠ 0 && top ≠ 2 ^ (58 - cover) - 1 then (.fault 1, s)
        else walkLevels w pf ctx0 pf.levels e.root host s

/-- Bytes of a cluster that may hold victims: scratchpad that no resident team covers, and instruction-cache lines that
hold nothing (R356). -/
def State.victimSpace (s : State) (cluster : Nat) : Nat :=
  let taken := (s.teams.filter fun t => clusterOf t.core = cluster && (t.state = .clearing || t.state = .running || t.state = .framing)).map
    fun t => t.spSize
  let lines := (s.mem.ic.filter fun x => clusterOf x.core = cluster && s.ltick < x.expiry).length
  8 * 393216 - taken.foldl (· + ·) 0 + 128 * (8 * 512 - lines)

/-- Victims beyond the space of their cluster are dropped, the oldest first (R356; log 54). -/
def State.trimVictims (s : State) (cluster : Nat) : State :=
  let vs := s.xl.tlb.filter fun e => e.victim && e.cluster = cluster
  if vs.isEmpty then s else
  let gone := vs.take (vs.length - s.victimSpace cluster / Config.victimBytes)
  { s with xl := { s.xl with tlb := s.xl.tlb.filter fun e => !gone.contains e } }

/-- Fill a TLB: 512 sets of 8 ways; what is replaced goes to victim storage (R353, R356), unless its parity fails. -/
def State.tlbFill (s : State) (e : TlbEntry) : State :=
  let setOf := fun (x : TlbEntry) => x.va / x.size % 512
  let old := s.xl.tlb.filter fun x => !(x.cluster = e.cluster && x.pasid = e.pasid && x.va = e.va && x.size = e.size)
  let live := old.filter fun x => !x.victim && x.cluster = e.cluster && setOf x = setOf e
  let old := if live.length < 8 then old
    else match live[Config.tlbVictim s.free % 8]? with
      | some v =>
        if Config.victimFails s.free then old.filter (· ≠ v) else old.filter (· ≠ v) ++ [{ v with victim := true }]
      | none => old
  ({ s with xl := { s.xl with tlb := old ++ [e] }, free := s.free + 1 }).trimVictims e.cluster

/-- Queue a walk, unless the same one is out or waits for the pager. -/
def State.askWalk (s : State) (cluster pasid va : Nat) (kind : AccKind) (who : Walker) : State :=
  let same := fun (w : Walk) => w.cluster = cluster && w.pasid = pasid && w.va = va && w.kind = kind && w.who = who
  if s.xl.walks.any (same ·) || s.xl.pageReqs.any (fun q => q.walks.any (same ·)) then s
  else
    let (n, s) := s.fresh
    { s with xl := { s.xl with walks := s.xl.walks ++ [⟨n, cluster, pasid, va, kind, who, false, 0⟩] } }

/-- The PASID that a request is made for: its group's, or one that the device names (gid 0). -/
def State.reqPasid (s : State) (r : Req) : Option Nat :=
  if r.gid = 0 then (if r.reg = 0 then none else some (r.reg - 1)) else (s.group? r.gid).map (·.pasid)

/-- Remove translations and first-level and instruction lines of a PASID (all when none) that meet a
range (R354, R427); the length 0 means every address. A load or prefetch in flight there keeps no line, and requests that
are out at peers are marked. -/
def State.dropTranslations (s : State) (pasid : Option Nat) (base len : Nat) : State :=
  let named := fun p => pasid.all (· = p)
  let meets := fun (a n : Nat) => len = 0 || (decide (a < base + len) && decide (base < a + n))
  { s with
    eng := { s.eng with reqs := s.eng.reqs.map fun r =>
      if (s.reqPasid r).any named && meets r.va r.size then { r with noFill := true } else r }
    fab := { s.fab with out := s.fab.out.map fun f =>
      { f with dropped := f.dropped || (named f.pasid && meets f.at_.va 128) } }
    xl := { s.xl with
      tlb := s.xl.tlb.filter fun e => !(named e.pasid && meets e.va e.size)
      upper := s.xl.upper.filter fun e => !named e.pasid }
    mem := { s.mem with
      prefetches := s.mem.prefetches.filter fun x => !(named x.pasid && meets (128 * x.vline) 128)
      l1 := s.mem.l1.filter fun x => !(named x.pasid && meets (128 * x.vline) 128)
      ic := s.mem.ic.filter fun x => !(named x.pasid && meets (128 * x.vline) 128) } }

/-- A request to a peer that is a part of an engine operation. -/
def FabWork.parts : FabWork → Bool
  | .op .. | .flag _ | .walk _ | .done .. => true
  | _ => false

/-- The accesses before `n` that used what was dropped are accepted at their executors: requests, and parts of engine
operations that are out at peers (R354). -/
def State.dropsOver (s : State) (n : Nat) (pasid : Option Nat) : Bool :=
  (s.eng.reqs.all fun r => r.accepted || !r.noFill || decide (n ≤ r.id) || !(s.reqPasid r).any fun p => pasid.all (· = p))
  && s.fab.out.all fun f => !f.dropped || !f.work.parts || !pasid.all (· = f.pasid)

end Sys2Proof.Machine
end

