-- ==== Sys2Proof/Machine/MemSys.lean ====
section
/-! DEFINITION. The memory system behind the cores: delivery of returns (R40, R336), leases and open
marks (R79, R80, R110 to R112), performing accesses (R99, R100, R105), depot fills (R83), writes and
atomics at their executors (R80, R84, R230), and the stack ports (R92, R93). -/

namespace Sys2Proof.Machine

/-! Returns to registers. -/

/-- The generation tag of a lane register's allocation (R40). -/
def Group.regGen (g : Group) (n : Nat) : Nat := if n < 64 then g.gen else sget 0 g.blkGen ((n - 64) / 32)

/-- Where a frame holds a lane register (R335). -/
def frameReg (a n L : Nat) : Nat :=
  if n < 64 then a + 0x800 + 128 * n + 4 * L else a + 0x3000 + 4096 * ((n - 64) / 32) + 128 * ((n - 64) % 32) + 4 * L

/-- Put one bit of a 32-bit word of memory. -/
def State.devBit (s : State) (a L : Nat) (b : Bool) : State :=
  let w := BitVec.ofNat 32 (s.devNat a 4)
  s.devPut a 4 (if b then w ||| (1#32 <<< L) else w &&& ~~~(1#32 <<< L)).toNat

/-- Write a returned word into a frame. -/
def State.frameWord (s : State) (a : Nat) (uni : Bool) (n L : Nat) (x : TW) : State :=
  if uni then (s.devPut (a + 0x540 + 4 * n) 4 x.val.toNat).devBit (a + 0x640 + 4 * (n / 32)) (n % 32) x.tag
  else (s.devPut (frameReg a n L) 4 x.val.toNat).devBit (a + 0x2800 + 4 * n) L x.tag

/-- A lane's access has returned to a framed group: its words go to the frame, and RETCOUNT falls when the
last lane of the word has returned (R336). -/
def State.frameReturn (s : State) (g : Group) (a : Nat) (r : Req) (uni : Bool) (ws : List TW) : State :=
  let s := (ws.zipIdx).foldl (fun s (x, i) => s.frameWord a uni (r.reg + i) r.lane x) s
  let rets := g.returns.map fun e => if e.req = r.seq then { e with mask := e.mask &&& ~~~(1#32 <<< r.lane) } else e
  let left := rets.filter fun e => e.mask ≠ 0
  let s := if left.length < rets.length then s.devPut (a + 0x40) 4 left.length else s
  s.onGroup g.gid fun g => { g with returns := left }

/-- An acquire at `.d` or wider has returned: the core fetches afresh (R444). -/
def State.freshFetch (s : State) (core pasid : Nat) : State :=
  { s with mem := { s.mem with ic := s.mem.ic.filter fun x => !(x.core = core && x.pasid = pasid) } }

/-- The registers of a return are no longer the group's, or were granted anew since the request (R40). -/
def lostReturn (g : Group) (r : Req) (uni : Bool) (n : Nat) : Bool :=
  !uni && (!((List.range n).all fun i => regHeld g (.v (r.reg + i))) || g.regGen r.reg ≠ r.gen)

/-- The values of a return, register by register. -/
def returnVals (r : Req) (uni : Bool) (ws : List TW) : RegVals :=
  (ws.zipIdx).map fun (x, i) => if uni then (.s (r.reg + i), 0, x) else (.v (r.reg + i), r.lane, x)

/-- A return is dropped: DROPRET counts it, and the side of the request's issue (R40, R49). -/
def State.dropReturn (s : State) (r : Req) : State :=
  countEvent (s.onGroup r.gid fun g => { g.forget r with dropret := g.dropret + 1 })
    (sideKey r.core r.side) r.slot 0x40 1

/-- A framed group counts a dropped return in its frame too, from which it resumes (R40, R335). -/
def State.dropFramed (s : State) (gid a : Nat) : State :=
  match s.group? gid with
  | some g => s.devPut (a + 0x20) 4 g.dropret.toNat
  | none => s

/-- Deliver the words of a return (R40): to the registers, to the frame, or dropped. -/
def State.deliver (s : State) (r : Req) (uni : Bool) (ws : List TW) : State :=
  let s := s.dropReq r.id
  match s.group? r.gid with
  | none => countEvent s (sideKey r.core r.side) r.slot 0x40 1
  | some g =>
    let s := if r.acq && decide (2 ≤ r.scope.code) then s.freshFetch g.core g.pasid else s
    if g.ended then s.dropReturn r
    else match g.frame with
    | some a => if g.returns.any (fun e => e.req = r.seq) then s.frameReturn g a r uni ws else (s.dropReturn r).dropFramed g.gid a
    | none => if lostReturn g r uni ws.length then s.dropReturn r
      else s.onGroup r.gid fun g => g.returned r (returnVals r uni ws)

/-- The register words of a loaded value (R224): bytes, a tag per byte, sign extension. -/
def loadWords (bs : List Byte) (tags : List Bool) (signed : Bool) : List TW :=
  if bs.length < 4 then
    let n := leNat bs
    [⟨BitVec.ofNat 32 (if signed then wrapNat (natSext n (8 * bs.length)) 32 else n), tags.any id⟩]
  else (List.range (bs.length / 4)).map fun i =>
    ⟨BitVec.ofNat 32 (leNat ((bs.drop (4 * i)).take 4)), ((tags.drop (4 * i)).take 4).any id⟩

/-! Leases and open marks. -/

/-- Grant a lease until `x` (R79, R80). -/
def State.grant (s : State) (l : LineId) (x : Nat) : State :=
  let e := max x (s.leaseEnd l)
  { s with mem := { s.mem with leases := (s.mem.leases.filter fun y => y.1 ≠ l) ++ [(l, e)] } }

/-- Ways a residency class may hold in a set (R83). -/
def State.quota (s : State) (res : Nat) : Nat := min 16 (natBits s.mem.dquota.toNat (5 * res + 4) (5 * res))

/-- The mark entries of a sector of a line. -/
def DepotLine.marks (x : DepotLine) (h : Nat) : List Mark := if h = 0 then x.marks0 else x.marks1

def DepotLine.setMarks (x : DepotLine) (h : Nat) (m : List Mark) : DepotLine :=
  if h = 0 then { x with marks0 := m } else { x with marks1 := m }

/-- The byte mask of a sector. -/
def byteMask (h ofs n : Nat) : BitVec 64 :=
  (List.range n).foldl (fun m i => if (ofs + i) / 64 = h then m ||| (1#64 <<< ((ofs + i) % 64)) else m) 0

/-- A plain store of a group marks the sectors it meets (R111); `cl` is the widest scope at which the group has released
while the store was held, and one at `.h` leaves no mark (log 53). -/
def markSector (ms : List Mark) (gid : Nat) (b : BitVec 64) (cl : Option Scope) : List Mark :=
  if cl = some .h then ms
  else match ms.find? fun m => m.gid = gid with
  | some _ => ms.map fun m =>
      if m.gid = gid then (if m.cleared.isNone && cl.isNone then { m with bytes := m.bytes ||| b } else ⟨gid, b, cl⟩) else m
  | none => if ms.length < 2 then ms ++ [⟨gid, b, cl⟩] else ms.drop 1 ++ [⟨gid, b, cl⟩]

def DepotLine.mark (x : DepotLine) (gid ofs n : Nat) (cl : Option Scope) : DepotLine :=
  (List.range 2).foldl (fun x h =>
    let b := byteMask h ofs n
    if b = 0 then x else x.setMarks h (markSector (x.marks h) gid b cl)) x

def State.mark (s : State) (l : LineId) (gid ofs n : Nat) (cl : Option Scope) : State :=
  let d := s.mem.depot.map fun x => if x.line = l then x.mark gid ofs n cl else x
  { s with mem := { s.mem with depot := d } }

/-- The wider of a clearing so far and a scope. -/
def widen (c : Option Scope) (sc : Scope) : Option Scope :=
  match c with
  | none => some sc
  | some c => if c.code < sc.code then some sc else some c

/-- A release of a group at a scope clears its entries (R111). -/
def clearMark (gid : Nat) (sc : Scope) (ms : List Mark) : List Mark :=
  (ms.map fun m => if m.gid = gid then { m with cleared := widen m.cleared sc } else m).filter fun m =>
    !(m.gid = gid && m.cleared = some .h)

/-- A release of a group at a scope: its entries are cleared, and its stores that are held will be marked so (log 53). -/
def State.clearMarks (s : State) (gid : Nat) (sc : Scope) : State :=
  { s with mem := { s.mem with
      depot := s.mem.depot.map fun x =>
        { x with marks0 := clearMark gid sc x.marks0, marks1 := clearMark gid sc x.marks1 }
      held := s.mem.held.map fun (l, w) => (l, if w.marker = some gid then { w with cleared := widen w.cleared sc } else w) } }

/-- Free every entry of the groups that a predicate names (R111). -/
def State.freeMarks (s : State) (p : Nat → Bool) : State :=
  { s with mem := { s.mem with depot := s.mem.depot.map fun x =>
      { x with marks0 := x.marks0.filter fun m => !p m.gid, marks1 := x.marks1.filter fun m => !p m.gid } } }

/-- How a group of a peer is named among the groups (R110, R111): by its package, and by its number there, which holds its
team's number from bit 32 on (log 53). -/
def peerGroup (src group : Nat) : Nat := 2 ^ 64 * (src + 1) + group

/-- A scope of a clearing by group `g` covers group `k` (R96); a peer's group is named with its package and its team
(`peerGroup`). -/
def State.covers (s : State) (sc : Scope) (g k : Nat) : Bool :=
  match sc with
  | .g => g = k
  | .t => match s.group? g, s.group? k with
    | some a, some b => a.team = b.team
    | _, _ => decide (2 ^ 64 ≤ g) && g / 2 ^ 32 = k / 2 ^ 32
  | .d => g / 2 ^ 64 = k / 2 ^ 64
  | _ => true

/-- A plain load by group `k` of bytes of a line meets an open store in word `w` (R112). -/
def State.openWord (s : State) (x : DepotLine) (k ofs n w : Nat) : Bool :=
  let h := w / 16
  let lo := max ofs (4 * w)
  let hi := min (ofs + n) (4 * w + 4)
  (x.marks h).any fun m =>
    m.gid ≠ k
    && (byteMask h lo (hi - lo) &&& m.bytes) ≠ 0
    && (match m.cleared with
        | none => true
        | some sc => !s.covers sc m.gid k)

/-! The order of a lane's accesses. -/

/-- Two places share a byte. -/
def placesMeet (p : Place) (n : Nat) (q : Place) (m : Nat) : Bool :=
  let o := fun (a b : Nat) => decide (a < b + m) && decide (b < a + n)
  match p, q with
  | .line l a, .line k b => l.stack = k.stack && l.ext = k.ext && o (128 * l.line + a) (128 * k.line + b)
  | .raw st e a, .raw st' e' b => st = st' && e = e' && o a b
  | .host a, .host b => o a b
  | .peer k a _, .peer k' b _ => k = k' && o a b
  | _, _ => false

def ReqKind.isStore : ReqKind → Bool
  | .store => true
  | _ => false

/-- A plain store's request, or a part of a storing drain's, makes open marks (R110). -/
def ReqKind.marks : ReqKind → Bool
  | .store | .drain false .. => true
  | _ => false

def ReqKind.isRed : ReqKind → Bool
  | .red .. | .drain .. => true
  | _ => false

/-- A read whose value, once it has come, waits for the word's other reads: a poll, a task record. -/
def ReqKind.isHeldRead : ReqKind → Bool
  | .poll | .record => true
  | _ => false

/-- A request that only reads. -/
def ReqKind.isRead : ReqKind → Bool
  | .load .. | .uload _ | .poll | .record => true
  | _ => false

/-- A request stands for an access of a lane: its own, or one that it was made for as well. -/
def Req.of (q : Req) (L : Nat) : Bool := q.lane = L || bitOf q.also L

/-- Two requests stand for accesses of one lane. -/
def Req.shares (q r : Req) : Bool := q.of r.lane || (lanesOf r.also).any q.of

/-- The requests before one, in issue order. -/
def State.earlier (s : State) (r : Req) : List Req := s.eng.reqs.takeWhile fun q => q.id ≠ r.id

/-- The number before which a group's entries in a peer's slices have recorded a clearing at a scope or a wider one (R111). -/
def PeerMark.clearedAt (m : PeerMark) (sc : Scope) : Nat :=
  ((List.range 5).map fun c => if sc.code ≤ c then sget 0 m.cleared c else 0).foldl max 0

/-- Entries have recorded a clearing at a scope. -/
def PeerMark.record (m : PeerMark) (sc : Scope) (n : Nat) : PeerMark :=
  { m with cleared := sset 0 m.cleared sc.code (max n (sget 0 m.cleared sc.code)) }

/-- Of what a group stored in peers before `seq`, every entry has recorded the clearing at a scope (R105). -/
def State.peersCleared (s : State) (gid seq : Nat) (sc : Scope) : Bool :=
  match s.group? gid with
  | some g => g.peerMarks.all fun m => decide (min seq m.upto ≤ m.clearedAt sc)
  | none => true

/-- Every access of a lane that is earlier than `seq` and has to be done for a release or fence at a scope (R105). -/
def State.performed (s : State) (gid lane seq : Nat) (sc : Scope) : Bool :=
  s.peersCleared gid seq sc && s.eng.reqs.all fun q =>
    !(q.gid = gid && q.of lane && decide (q.seq < seq)) || q.kind.isRed || (q.accepted && q.kind.isHeldRead)
    || (q.kind.isStore && q.accepted
        && (match q.place with
            | .line .. | .raw .. => sc.code < 2
            | .peer .. => sc.code < 3
            | .host _ => sc.code < 4))

/-- An earlier MSWITCH of the group over the request's bytes has changed no row yet, and the request would
reach the stack port (R122). -/
def State.behindSwitch (s : State) (r : Req) : Bool :=
  let port := match r.place with
    | .line l _ => (s.line? l).isNone
    | .raw .. => true
    | _ => false
  port && s.eng.ops.any fun o =>
    o.gid = r.gid && decide (o.id < r.id)
    && (match o.kind with
        | .mswitch _ applied => !applied
        | _ => false)
    && o.span.any fun x => decide (r.va < x.base + x.len) && decide (x.base < r.va + r.size)

/-- A release at `.f` or wider of the lane stands between an earlier request to the same peer that is still out and this one
(R126). -/
def State.behindRelease (s : State) (r : Req) : Bool :=
  match r.place with
  | .peer k _ _ => (s.earlier r).any fun x => x.gid = r.gid && x.shares r && x.rel && decide (3 ≤ x.scope.code)
      && (s.earlier x).any fun q => q.gid = r.gid && q.shares x && (match q.place with
        | .peer j _ _ => j = k
        | _ => false)
  | _ => false

/-- A request still has to wait for an earlier one: the same bytes (R99), where its core's first level may have shown a store
of another lane too, an acquire of its lane (R100), or, as a release, everything it releases (R105). -/
def State.reqWaits (s : State) (r : Req) : Bool :=
  ((s.earlier r).any fun q =>
    !(q.accepted && q.kind.isHeldRead)
    && ((q.gid = r.gid && q.shares r && q.acq)
        || (((q.gid = r.gid && (q.shares r || (q.seq = r.seq && !r.kind.isRead))) || (q.core = r.core && q.kind.marks))
            && placesMeet q.place q.size r.place r.size)))
  || (r.rel && !(s.performed r.gid r.lane r.seq r.scope && (lanesOf r.also).all fun L => s.performed r.gid L r.seq r.scope))
  || s.behindSwitch r || s.behindRelease r

/-- The release of a request clears its group's marks before it takes effect (R105, R111). -/
def State.release (s : State) (r : Req) : State := if r.rel then s.clearMarks r.gid r.scope else s

/-- Who is charged for a request (R399): none for what stands in no context or in no group. -/
def Req.who (r : Req) : Who := ⟨if r.ctx < 65535 then some r.ctx else none, if r.gid = 0 then none else some r.gid⟩

/-! The depot (R82, R83). -/

/-- A depot miss asks for its line. -/
def State.want (s : State) (l : LineId) (res : Nat) (w : Who) : State :=
  if s.mem.wants.any fun x => x.line = l then
    { s with mem := { s.mem with wants := s.mem.wants.map fun x => if x.line = l then { x with drop := false } else x } }
  else { s with mem := { s.mem with wants := s.mem.wants ++ [⟨l, res, w.ctx, w.gid, false⟩] } }

/-- A prefetch asks for a line that the depot does not hold (R227). -/
def State.wish (s : State) (l : LineId) (res : Nat) (w : Who) : State :=
  if s.mem.wants.any fun x => x.line = l then s
  else { s with mem := { s.mem with wants := s.mem.wants ++ [⟨l, res, w.ctx, w.gid, true⟩] } }

/-- A line that only prefetches ask for is dropped without trace (R227). -/
def State.dropWish (s : State) (l : LineId) : State :=
  { s with mem := { s.mem with
    wants := s.mem.wants.filter fun x => x.line ≠ l, prefetches := s.mem.prefetches.filter fun p => p.line ≠ l } }

/-- Two lines compete for ways (R82: the set is a hash the device does not describe). -/
def sameSet (a b : LineId) : Bool := homeSlice a = homeSlice b && Config.depotSet a % 1536 = Config.depotSet b % 1536

def DepotLine.marked (x : DepotLine) : Bool := !(x.marks0.isEmpty && x.marks1.isEmpty)

/-- First-level lines that still hold (R79). -/
def State.l1Find (s : State) (core pasid va : Nat) : Option L1Line :=
  s.mem.l1.find? fun x => x.core = core && x.pasid = pasid && x.vline = va / 128 && s.ltick < x.expiry

/-- Bytes over a line, for those of `mask` elements of 4 bytes where one is given. -/
def overlay (acc : List Byte × Word) (ofs : Nat) (bs : List Byte) (tags : List Bool) (mask : Option Nat) : List Byte × Word :=
  match mask with
  | none => (putBytes acc.1 ofs bs, putTags acc.2 ofs bs.length fun i => tags.getD i false)
  | some m => (List.range (bs.length / 4)).foldl (fun (acc : List Byte × Word) i =>
      if natBit m i then
        (putBytes acc.1 (ofs + 4 * i) ((bs.drop (4 * i)).take 4), putTags acc.2 (ofs + 4 * i) 4 fun _ => tags.getD (4 * i) false)
      else acc) acc

/-- A copy, whose writes are its core's own stores (R262). -/
def OpKind.isCopy : OpKind → Bool
  | .cpy .. => true
  | _ => false

/-- What a core's copy of a line holds when it is filled: the home's bytes under the core's own stores that are not
applied there yet (R78, R107). -/
def State.ownCopy (s : State) (core : Nat) (l : LineId) (d : List Byte) (p : Word) : List Byte × Word :=
  let reqs := s.eng.reqs.foldl (fun acc q =>
    match q.place, q.kind with
    | .line k ofs, .store => if q.core = core && k = l then overlay acc ofs (s.writableBytes l ofs q.bytes) q.tags none else acc
    | .line k ofs, .drain false _ m =>
      if q.core = core && k = l then overlay acc ofs (s.writableBytes l ofs q.bytes) q.tags (some m) else acc
    | _, _ => acc) (d, p)
  (s.heldOn l).foldl (fun acc w =>
    match w.place with
    | .line _ ofs =>
      if w.req.isNone && (w.op.bind s.op?).any (fun o => o.core = core && o.kind.isCopy) then
        overlay acc ofs (s.writableBytes l ofs w.bytes) w.tags none
      else acc
    | _ => acc) reqs

/-- Fill a first-level line: one copy of a physical line in a core (R78, R355), 128 sets of 8 ways. -/
def State.l1Fill (s : State) (n : L1Line) : State :=
  let keep := s.mem.l1.filter fun x => !(x.core = n.core && (x.line = n.line || (x.pasid = n.pasid && x.vline = n.vline)))
  let keep := keep.filter fun x => s.ltick < x.expiry
  let set := keep.filter fun x => x.core = n.core && x.vline % 128 = n.vline % 128
  let keep := if set.length < 8 then keep
    else match set[Config.l1Victim s.free % 8]? with
      | some v => keep.filter (· ≠ v)
      | none => keep
  { s with mem := { s.mem with l1 := keep ++ [n] }, free := s.free + 1 }

/-- A line is granted to a core's first level, with a lease (R79). -/
def State.l1Grant (s : State) (ctx core pasid vline : Nat) (l : LineId) (d : List Byte) (p : Word) : State :=
  let e := s.ltick + leaseOf (s.ctx ctx)
  let (d, p) := s.ownCopy core l d p
  (s.grant l e).l1Fill ⟨core, pasid, vline, l, d, p, e⟩

/-- A core's own copy of a physical line, under whatever tag, while its lease runs (R355). -/
def State.l1Copy (s : State) (core : Nat) (l : LineId) : Option L1Line :=
  s.mem.l1.find? fun x => x.core = core && x.line = l && s.ltick < x.expiry

/-- The prefetches of a line fill the first level once the depot holds it and no write waits there (R79, R227). -/
def State.servePrefetch (s : State) (l : LineId) : State :=
  match s.line? l with
  | some x =>
    if !(s.heldOn l).isEmpty then s
    else (s.mem.prefetches.filter fun p => p.line = l).foldl
      (fun s p => match s.l1Copy p.core l with
        | some y => s.l1Fill { y with pasid := p.pasid, vline := p.vline }
        | none => s.l1Grant p.ctx p.core p.pasid p.vline l x.bytes x.poison)
      { s with mem := { s.mem with prefetches := s.mem.prefetches.filter fun p => p.line ≠ l } }
  | none => s

/-- What a fill does to make room (R83). -/
inductive Victim where
  | free
  | evict (l : LineId)
  | wait
  deriving DecidableEq, Repr

/-- The victim of a fill of class `res` (R80, R83, R111); the depot lists lines least recently used first. -/
def State.victim (s : State) (l : LineId) (res : Nat) : Victim :=
  let set := s.mem.depot.filter fun x => sameSet x.line l
  let mine := set.filter fun x => x.res = res
  let pick := fun (c : List DepotLine) =>
    let c := c.filter fun x => !s.leased x.line
    match c.find? fun x => !x.marked with
    | some x => Victim.evict x.line
    | none => match c.head? with
      | some x => .evict x.line
      | none => .wait
  if s.quota res ≤ mine.length then pick mine
  else if set.length < 16 then .free
  else pick set

/-- Evict a line: dirty data goes back, or waits in the hold queue (R82, R93). -/
def State.evict (s : State) (l : LineId) : State :=
  match s.line? l with
  | none => s
  | some x =>
    let s := { s with mem := { s.mem with depot := s.mem.depot.filter fun y => y.line ≠ l } }
    if !x.dirty then s
    else match s.busyRow (s.lineRows l) with
      | some r => s.hold r (.writeback l x.bytes x.poison none none)
      | none => s.writeBack ⟨none, none⟩ l x.bytes x.poison

/-- Fill a wanted line from its stack. -/
def State.fill (s : State) (w : Want) : State :=
  let fillNow := fun (s : State) =>
    let ((d, p), s) := s.demandLine ⟨w.ctx, w.gid⟩ w.line
    let s : State := { s with mem := { s.mem with
      wants := s.mem.wants.filter fun x => x.line ≠ w.line
      depot := s.mem.depot ++ [⟨w.line, d, false, w.res, p, [], []⟩] } }
    s.servePrefetch w.line
  match s.victim w.line w.res with
  | .free => fillNow s
  | .evict v => fillNow (s.evict v)
  | .wait => s

/-- DEPOT_FILL may act: the line is wanted and absent. -/
def State.wantOf (s : State) (l : LineId) : Option Want :=
  if (s.line? l).isSome then none else s.mem.wants.find? fun x => x.line = l

/-- A wanted line is filled once its rows can be passed; what only prefetches ask for is dropped where it would need an entry
of a hold queue (R83, R93, R227, R306). -/
def State.fillWanted (s : State) (w : Want) : State :=
  if s.victim w.line w.res = .wait then s
  else if w.drop && (s.lineRows w.line).any fun r => s.rowStops (.fill w.line) r && !s.waitsBank r then s.dropWish w.line
  else match s.passRows (s.lineRows w.line) (.fill w.line) with
    | .error s => s
    | .ok s => s.fill w

/-- DEPOT_FILL (R83): the fill, an entry of the hold queue (R93), or the wait for a bank (R306). -/
def doDepotFill (l : LineId) (s : State) : State :=
  match s.wantOf l with
  | none => s
  | some w => s.fillWanted w

def execDepotFill (l : LineId) (s : State) : Out := .next (doDepotFill l s)

/-! Atomics (R230). -/

/-- An operator of R229 on the word's bits. -/
def atomCompute (op : AtomOp) (ac : Nat) (m o : Nat) : Nat :=
  let w := if ac = 2 || ac = 3 then 64 else 32
  let lt := if ac = 0 || ac = 2 then decide (natSext m w < natSext o w) else decide (m < o)
  match op with
  | .add =>
    if ac = 4 then (fAddV fF32 .rn (unpack fF32 m) (unpack fF32 o)).1
    else if ac = 5 then addPair fBF16 m o
    else if ac = 6 then addPair fF16 m o
    else (m + o) % 2 ^ w
  | .min => if ac = 4 then (fMinMax fF32 false m o).1 else if lt then m else o
  | .max => if ac = 4 then (fMinMax fF32 true m o).1 else if lt then o else m
  | .and => m &&& o
  | .or => m ||| o
  | .xor => m ^^^ o
  | .exch => o

/-- What an atomic writes: the new bytes and tag, or nothing (a CAS that does not match). -/
def atomResult (k : ReqKind) (m : Nat) (mt : Bool) (o : List Byte) (ot : List Bool) : Option (Nat × Bool) :=
  match k with
  | .atom op ac | .red op ac => some (atomCompute op ac m (leNat o), mt || ot.any id)
  | .cas ac =>
    let w := if ac = 2 || ac = 3 then 8 else 4
    if m = leNat (o.take w) then some (leNat (o.drop w), mt || ot.any id) else none
  | _ => none

/-- The width of an atomic's word in bytes. -/
def atomBytes (ac : Nat) : Nat := if ac = 2 || ac = 3 then 8 else 4

def ReqKind.ac : ReqKind → Nat
  | .atom _ ac | .red _ ac | .cas ac => ac
  | _ => 0

/-- Part `key` of an operation has failed: the failure of the lowest part is kept (R114, R257). -/
def State.opFail (s : State) (id key status addr : Nat) : State :=
  s.onOp id fun o =>
    if status ≠ 0 && (o.status = 0 || key < o.failAt) then { o with status := status, addr := addr, failAt := key } else o

/-- An operation that has completed retires next, if its turn in its class has come (R114, R115). -/
def State.opDue (s : State) (id : Nat) : State :=
  if (s.op? id).any fun o => o.complete && o.left = 0 then s.push [.event s.cur (.engineOpComplete id)] else s

/-- One application of a counted operation is done (R114). -/
def State.opDone (s : State) (id : Nat) : State := (s.onOp id fun o => { o with left := o.left - 1 }).opDue id

/-- A walk or a device's agent that its atomic was made for still waits for the old value. -/
def State.atomWaited (s : State) (r : Req) : Bool :=
  r.op.any fun id => decide (2 ^ 64 ≤ id) || (s.op? id).any (fun o => !o.complete) || s.fab.walks.any fun h => h.id = id

/-- The request of an atomic has been applied: an old value returns, to the lane, or to the walk whose last step it is
(lane 32 of no group), or a RED is counted. -/
def State.atomDone (s : State) (r : Req) (m : List Byte) (mt : Bool) : State :=
  if r.gid = 0 && r.lane = 32 then
    if s.atomWaited r then s.onReq r.id fun q => { q with kind := .record, bytes := m, tags := m.map fun _ => mt }
    else s.dropReq r.id
  else match r.kind with
  | .red .. => match r.op with
    | some id => (s.dropReq r.id).opDone id
    | none => s.dropReq r.id
  | _ => s.deliver r false (loadWords m (m.map fun _ => mt) false)

/-- A part of a drain is done in the state that its writes give. -/
def State.drainDone (s : State) (r : Req) : State :=
  match r.op with
  | some id => (s.dropReq r.id).opDone id
  | none => s.dropReq r.id

/-! Writes at a home slice (R80). -/

/-- The lines that a write meets: an add-on-store of a whole tile has 32 (R255). -/
def writeLines (l : LineId) (w : WriteOp) : List LineId :=
  (List.range ((w.bytes.length + 127) / 128)).map fun i => { l with line := l.line + i }

/-- Apply a program's or the host's write of bytes of one line: what only the device writes stays (R7). -/
def State.applyHome (s : State) (l : LineId) (ofs : Nat) (bs : List Byte) (tag : Nat → Bool) : State :=
  s.applyLine l ofs (s.writableBytes l ofs bs) tag

/-- A write that reads nothing: where it goes straight to the stack, a partial write meets what stands there (R399). -/
def State.applyStore (s : State) (who : Who) (l : LineId) (ofs : Nat) (bs : List Byte) (tag : Nat → Bool) : State :=
  (s.meetLine who l ofs bs.length).applyHome l ofs bs tag

/-- The open mark that a write makes, if it makes one (R110, R111). -/
def State.markFor (s : State) (w : WriteOp) (l : LineId) (ofs n : Nat) : State :=
  match w.marker with
  | some g => if s.quota w.res = 0 then s else s.mark l g ofs n w.cleared
  | none => s

/-- Apply a part of a TDRAIN (R255): the elements of its mask, each stored with an open mark, or added. -/
def State.drainLines (s : State) (who : Who) (w : WriteOp) (add : Bool) (ac mask : Nat) (l : LineId) (ofs : Nat) : State :=
  (List.range (w.bytes.length / 4)).foldl (fun s i =>
    if !natBit mask i then s
    else
      let k : LineId := { l with line := l.line + (ofs + 4 * i) / 128 }
      let o := (ofs + 4 * i) % 128
      let b := (w.bytes.drop (4 * i)).take 4
      let t := w.tags.getD (4 * i) false
      if add then
        let ((d, p), s) := s.homeDemand who k
        let m := leNat ((d.drop o).take 4)
        s.applyHome k o (leBytes 4 (atomCompute .add ac m (leNat b))) fun _ => bitOf p (o / 4) || t
      else (s.applyStore who k o b fun _ => t).markFor w k o 4) s

/-- An atomic on a word of a line (R84, R230): the old bytes and tag. -/
def State.atomLine (s : State) (who : Who) (w : WriteOp) (k : ReqKind) (l : LineId) (ofs : Nat) : List Byte × Bool × State :=
  let n := atomBytes k.ac
  let ((d, p), s) := s.homeDemand who l
  let m := (d.drop ofs).take n
  let mt := bitOf p (ofs / 4) || bitOf p ((ofs + n - 1) / 4)
  match atomResult k (leNat m) mt w.bytes w.tags with
  | some (x, t) => (m, mt, s.applyHome l ofs (leBytes n x) fun _ => t)
  | none => (m, mt, s)

/-! Requests of peers (R416, R420). -/

/-- The atomic that a peer's request asks for. -/
def inboundAtomKind : InboundOp → Option ReqKind
  | .atom op ac .. => some (.atom op ac.toNat)
  | .cas ac .. => some (.cas ac.toNat)
  | .rstFlag => some (.red .add 1)
  | _ => none

/-- A tag for each word of a value, from a tag for each byte. -/
def wordTags (ts : List Bool) : Word := maskOf fun i => ((ts.drop (4 * i)).take 4).any id

/-- The answer of a value with one tag. -/
def answerOf (bs : List Byte) (t : Bool) : PeerAnswer := .done (leNat bs) (wordTags (bs.map fun _ => t))

/-- The effect of a peer's write or atomic at its line, and what it answers. -/
def State.peerEffect (s : State) (who : Who) (r : Inbound) (w : WriteOp) (l : LineId) (ofs : Nat) : PeerAnswer × State :=
  match inboundAtomKind r.op, r.op with
  | some k, _ =>
    let (m, mt, s) := s.atomLine who w k l ofs
    (answerOf m mt, s)
  | none, .drainAdd ac mask .. => (.done 0 0, s.drainLines who w true ac.toNat mask l ofs)
  | none, _ => (.done 0 0, (s.applyStore who l ofs w.bytes fun i => w.tags.getD i false).markFor w l ofs w.bytes.length)

/-- The number of a request that a log holds, which no package's own number is (R388). -/
def isLogged (seq : Nat) : Bool := decide (2 ^ 32 ≤ seq)

/-- A request that was held has had its effect: its answer is logged, saved, and sent, but for one that a log holds (R387,
R388, R420). -/
def State.answerPeer (s : State) (src seq : Nat) (ans : PeerAnswer) : State :=
  match s.fab.filter.find? fun f => f.src = src && f.seq = seq && f.ans.isNone with
  | some f =>
    let s := match f.req with
      | some r => s.logInbound r ans
      | none => s
    let filter := s.fab.filter.map fun x => if x = f then { x with ans := some ans, req := none } else x
    let s := { s with fab := { s.fab with filter := filter } }
    if isLogged seq then s else s.send (.response src seq ans)
  | none => s

/-- One of a peer's held writes has been applied; the last of its request answers it. -/
def State.peerApplied (s : State) (r : Inbound) (ans : PeerAnswer) : State :=
  if s.mem.held.any fun x => x.2.peer = some r then s else s.answerPeer r.src r.seq ans

/-- A count of an operation falls, if there is one. -/
def State.opDone? (s : State) (id : Option Nat) : State :=
  match id with
  | some n => s.opDone n
  | none => s

/-- CLEAN or INVAL of a line is done, for an operation or for a peer's request (R124, R420). -/
def State.maintained (s : State) (op : Option Nat) (peer : Option Inbound) : State :=
  match peer with
  | some r => s.peerApplied r (.done 0 0)
  | none => s.opDone? op

/-- CLEAN or INVAL of a line (R124, R245); a write-back that meets a row that is not controller-owned waits
in the hold queue (R94). -/
def State.maintain (s : State) (who : Who) (l : LineId) (inval : Bool) (op : Option Nat) (peer : Option Inbound) : State :=
  match s.line? l with
  | none => s.maintained op peer
  | some x =>
    if inval then
      ({ s with mem := { s.mem with depot := s.mem.depot.filter fun y => y.line ≠ l } }).maintained op peer
    else if !x.dirty then s.maintained op peer
    else
      let d := s.mem.depot.map fun y => if y.line = l then { y with dirty := false } else y
      let s := { s with mem := { s.mem with depot := d } }
      match s.busyRow (s.lineRows l) with
      | some r => s.hold r (.writeback l x.bytes x.poison op peer)
      | none => (s.writeBack who l x.bytes x.poison).maintained op peer

/-- The context of a PASID, which a peer's request is charged to (R399). -/
def State.inboundCtx (s : State) (pasid : Nat) : Option Nat :=
  (s.ctxs.find? fun x => x.2.valid && x.2.pasid = pasid).map (·.1)

/-- Who is charged for a request that no lane has made: the operation that it serves (R399). -/
def State.reqWho (s : State) (r : Req) : Who :=
  match if r.gid = 0 then r.op.bind s.op? else none with
  | some o => ⟨some o.ctx, some o.gid⟩
  | none => r.who

/-- Who is charged for a write at its home slice (R399). -/
def State.writeWho (s : State) (w : WriteOp) : Who :=
  match w.req.bind s.req?, w.op.bind s.op?, w.peer with
  | some r, _, _ => s.reqWho r
  | none, some o, _ => ⟨some o.ctx, some o.gid⟩
  | none, none, some r => ⟨s.inboundCtx r.pasid, none⟩
  | none, none, none => ⟨none, none⟩

/-- Apply a write or an atomic at its home slice, where nothing holds it. -/
def State.applyWrite (s : State) (l : LineId) (w : WriteOp) : State :=
  match w.maint with
  | some inval => s.maintain (s.writeWho w) l inval w.op w.peer
  | none =>
  let ofs := match w.place with
    | .line _ o => o
    | _ => 0
  match w.req.bind s.req? with
  | some r =>
    let s := s.release r
    match r.kind with
    | .drain add ac mask => (s.drainLines r.who w add ac mask l ofs).drainDone r
    | _ =>
    if r.kind.isStore then
      ((s.applyStore r.who l ofs w.bytes fun i => w.tags.getD i false).markFor w l ofs w.bytes.length).dropReq r.id
    else
      let (m, mt, s) := s.atomLine (s.reqWho r) w r.kind l ofs
      s.atomDone r m mt
  | none => match w.peer with
    | some r =>
      let (ans, s) := s.peerEffect (s.writeWho w) r w l ofs
      s.peerApplied r ans
    | none =>
      if w.res = deviceRes then s.applyLine l ofs w.bytes fun _ => false
      else ((s.applyStore (s.writeWho w) l ofs w.bytes fun i => w.tags.getD i false).markFor w l ofs w.bytes.length).opDone? w.op

/-- Nothing holds a write of the line: no lease, no host copy (R80, R425). -/
def State.lineFree (s : State) (l : LineId) : Bool := !s.leased l && !s.mem.hostLines.contains l

/-- The line is where a write of class `res` is applied: in the depot, or at the one-line buffer of a class
with quota 0 (R83). -/
def State.lineReady (s : State) (l : LineId) (res : Nat) : Bool :=
  (s.line? l).isSome || (s.quota res = 0 && s.rowsPass (s.lineRows l) (.fill l))

/-- A write is the host's own, which its copy of the line does not hold up (R425). -/
def WriteOp.isHost (w : WriteOp) : Bool :=
  w.req.isNone && w.op.isNone && w.peer.isNone && w.maint.isNone && w.res ≠ deviceRes && !w.tags.isEmpty

/-- A write can be applied at its line; a CLEAN or INVAL waits for leases alone (R124). -/
def State.canApply (s : State) (l : LineId) (w : WriteOp) : Bool :=
  if w.maint.isSome then !s.leased l
  else !s.leased l && (w.isHost || !s.mem.hostLines.contains l) && !w.after.any s.devHeld && s.lineReady l w.res

/-- Ask the host for its copy of a line that is about to be written, once (R425). -/
def State.snoop (s : State) (l : LineId) : State :=
  if s.mem.hostLines.contains l && !s.mem.snoops.contains l then
    { (s.send (.snoop l)) with mem := { s.mem with snoops := s.mem.snoops ++ [l] } }
  else s

/-- Ask for the line that a waiting write needs (R83, R93). -/
def State.prepareLine (s : State) (l : LineId) (res : Nat) (w : Who) : State :=
  if (s.line? l).isSome then s
  else if s.quota res = 0 then s.awaitRows l
  else s.want l res w

/-- What a write that cannot be applied yet asks for: the host's copy, and its line (R83, R93, R425). -/
def State.prepare (s : State) (l : LineId) (w : WriteOp) (who : Who) : State :=
  if w.maint.isSome then s else (if w.isHost then s else s.snoop l).prepareLine l w.res who

/-- A write arrives at its home slice: it is applied, or held in arrival order at each of its lines (R80). -/
def State.arrive (s : State) (l : LineId) (w : WriteOp) (who : Who) : State :=
  let ls := writeLines l w
  if ls.all fun k => s.canApply k w && (s.heldOn k).isEmpty then s.applyWrite l w
  else
    let s := ls.foldl (fun s k => s.prepare k w who) s
    { s with mem := { s.mem with held := s.mem.held ++ ls.map fun k => (k, w) } }

/-- Drop the first held write of a line. -/
def dropHeld (l : LineId) : List (LineId × WriteOp) → List (LineId × WriteOp)
  | [] => []
  | x :: xs => if x.1 = l then xs else x :: dropHeld l xs

/-- The first line of a write. -/
def WriteOp.base (w : WriteOp) (l : LineId) : LineId :=
  match w.place with
  | .line k _ => k
  | _ => l

/-- HELD_WRITE_APPLY (R80): the oldest held write of a line, once nothing holds it. -/
def doHeldWriteApply (l : LineId) (s : State) : State :=
  match s.heldOn l with
  | [] => s
  | w :: _ =>
    let ls := writeLines (w.base l) w
    if ls.all fun k => s.canApply k w && (s.heldOn k).head? = some w then
      let held := ls.foldl (fun h k => dropHeld k h) s.mem.held
      ({ s with mem := { s.mem with held := held } }).applyWrite (w.base l) w |>.servePrefetch l
    else ls.foldl (fun s k => s.prepare k w (s.writeWho w)) s

def execHeldWriteApply (l : LineId) (s : State) : Out := .next (doHeldWriteApply l s)

/-- The write of a request. -/
def Req.write (r : Req) : WriteOp :=
  { place := r.place, bytes := r.bytes, tags := r.tags
    marker := if r.kind.marks && !r.rel then some r.gid else none
    cleared := none, req := some r.id, op := r.op, peer := none, res := r.res, maint := none, after := none }

/-- STORE_AT_HOME may act on a store, or a part of a storing drain, that has not been accepted. -/
def canStoreAtHome (id : Nat) (s : State) : Option Req :=
  match s.req? id with
  | some r =>
    let mine := match r.kind with
      | .store | .drain false .. => true
      | _ => false
    if mine && !r.accepted && !s.reqWaits r then some r else none
  | none => none

/-- Write a part of a storing drain to the host, element by element (R424). -/
def State.drainHost (s : State) (r : Req) (mask a : Nat) : State :=
  (List.range (r.bytes.length / 4)).foldl (fun s i =>
    if natBit mask i then s.send (.write (a + 4 * i) ((r.bytes.drop (4 * i)).take 4)) else s) s

/-- STORE_AT_HOME (R80): a store arrives at its executor and is accepted; a store to the host is complete
there (R105). -/
def doStoreAtHome (id : Nat) (s : State) : State :=
  match canStoreAtHome id s with
  | none => s
  | some r => match r.place with
    | .line l _ => (s.onReq id fun r => { r with accepted := true }).arrive l r.write r.who
    | .host a => match r.kind with
      | .drain _ _ mask => (s.drainHost r mask a).drainDone r
      | _ => ((s.release r).send (.write a r.bytes)).dropReq id
    | _ => s

def execStoreAtHome (id : Nat) (s : State) : Out := .next (doStoreAtHome id s)

/-- A lower row of the same add-on-store has not been applied: rows apply in ascending order (R255). -/
def State.rowsBefore (s : State) (r : Req) : Bool := (s.earlier r).any fun q => q.op = r.op

/-- HOME_ATOMIC may act. -/
def canHomeAtomic (id : Nat) (s : State) : Option Req :=
  match s.req? id with
  | some r => match r.kind with
    | .atom .. | .red .. | .cas _ => if !r.accepted && !s.reqWaits r then some r else none
    | .drain true .. => if !r.accepted && !s.rowsBefore r && !s.reqWaits r then some r else none
    | _ => none
  | none => none

/-- HOME_ATOMIC (R84, R230, R231): a home slice's arithmetic unit, or the host link with the host's old
value. -/
def doHomeAtomic (id : Nat) (ext : Option ExtVal) (s : State) : State :=
  match canHomeAtomic id s with
  | none => s
  | some r => match r.place with
    | .line l _ => (s.onReq id fun r => { r with accepted := true }).arrive l r.write r.who
    | .host a => match s.hostValue r.gid r.va (atomBytes r.kind.ac) ext with
      | none => s
      | some (old, tag, s) =>
        let s := s.release r
        let s := match atomResult r.kind (leNat old) tag r.bytes r.tags with
          | some (y, _) => s.send (.write a (leBytes (atomBytes r.kind.ac) y))
          | none => s
        s.atomDone r old tag
    | _ => s

def execHomeAtomic (id : Nat) (ext : Option ExtVal) (s : State) : Out := .next (doHomeAtomic id ext s)

/-! Loads. -/

/-- What serving a read comes to. -/
inductive Served where
  | wait (s : State)
  | done (bytes : List Byte) (tags : List Bool) (s : State)

/-- The tag of each byte of a read, by word. -/
def byteTags (ofs n : Nat) (p : Nat → Bool) : List Bool := (List.range n).map fun i => p ((ofs + i) / 4)

def ReqKind.isPoll : ReqKind → Bool
  | .poll => true
  | _ => false

/-- A copy of the core's own is held at a line: its first level may have shown it already (R78, R99). -/
def State.coreHeld (s : State) (core : Nat) (l : LineId) : Bool :=
  (s.heldOn l).any fun w => w.req.isNone && (w.op.bind s.op?).any fun o => o.core = core && o.kind.isCopy

/-- Serve a read of a cacheable line at its home slice (R80, R83, R106, R112, R355). -/
def State.serveLine (s : State) (r : Req) (l : LineId) (ofs : Nat) : Served :=
  let atHome := (r.acq && decide (2 ≤ r.scope.code)) || r.kind.isPoll
  let moved := if atHome || r.noFill then none
    else s.l1Copy r.core l
  match moved, s.group? r.gid with
  | some x, some g =>
    let s := s.l1Fill { x with pasid := g.pasid, vline := r.va / 128 }
    .done ((x.bytes.drop ofs).take r.size) (byteTags ofs r.size fun w => bitOf x.poison w) s
  | _, _ =>
    if (if atHome then s.coreHeld r.core l else !(s.heldOn l).isEmpty) then .wait s
    else
      let body := fun (d : List Byte) (p : Word) (x : Option DepotLine) (s : State) =>
        let openW := fun w => !(r.acq || r.kind.isPoll) && x.any fun x => s.openWord x r.gid ofs r.size w
        let met := (List.range r.size).any fun i => openW ((ofs + i) / 4)
        let out := byteTags ofs r.size fun w => bitOf p w || openW w
        let bs := (d.drop ofs).take r.size
        if atHome || met || r.noFill then Served.done bs out s
        else match s.group? r.gid with
          | none => .done bs out s
          | some g => .done bs out (s.l1Grant r.ctx r.core g.pasid (r.va / 128) l d p)
      match s.line? l with
      | some x => body x.bytes x.poison (some x) (s.onLine l id)
      | none =>
        if s.quota r.res ≠ 0 then .wait (s.want l r.res r.who)
        else match s.passRows (s.lineRows l) (.req r.id) with
          | .error s => .wait s
          | .ok s =>
            let ((d, p), s) := s.demandLine r.who l
            body d p none s

/-- Interval of an unchanged poll in cycles (R176). -/
def pollBackoff (k cls : Nat) : Nat := min (64 * 2 ^ (k - 1)) 4096 * 2 ^ cls

/-- Every poll of a YIELD.W issue has returned (R176): a trap that finds the whole path at the word, or the lanes that
leave, the inactive ones among them, and the back-off, which counts from the next cycle (log 39). -/
def State.pollsBack (s : State) (r : Req) (rs : List Req) : State :=
  match s.group? r.gid with
  | none => s
  | some g =>
    let s := rs.foldl (fun s q => s.dropReq q.id) s
    let waits := rs.filter fun q => (g.lane q.lane).wait = .poll && (g.lane q.lane).pc = q.pc
    match waits.find? fun q => q.tags.any id with
    | some q =>
      takeTrap (s.onGroup g.gid fun g => g.setWait (maskOf fun L => (g.lane L).wait = .poll && (g.lane L).pc = q.pc) .none) g.gid
        ⟨0x07, q.lane, q.va % 2 ^ 54, q.va⟩ q.pc
    | none =>
      let same := fun (q : Req) =>
        (rdVs g q.reg (q.size / 4) q.lane).n = leNat q.bytes
      let go := waits.filter fun q => !same q
      let stay := maskOf fun L => waits.any fun q => q.lane = L && same q
      let k := (waits.map fun q => (g.lane q.lane).polls).foldl max 0 + 1
      let rest := maskOf fun L => (g.lane L).wait = .poll && (g.lane L).pc = r.pc && !rs.any fun q => q.lane = L
      let cyc := (s.side (sideKey g.core g.side)).cycle + pollBackoff k g.cls + 1
      s.onGroup g.gid fun g =>
        let g := go.foldl (fun (g : Group) q =>
          let g := g.returned q (returnVals q false (loadWords q.bytes [] false))
          mapLanes g fun L ln => if L = q.lane then { ln with pc := q.pc + 8, wait := .none, polls := 0 } else ln) g
        mapLanes (g.leave rest) fun L ln => if bitOf stay L then { ln with wait := .backoff cyc, polls := k } else ln

/-- A load has its value: to its registers, or to the other polls of its word; with the words of a flit that could
not be replayed poisoned (R402). -/
def State.loaded (s : State) (r : Req) (bs : List Byte) (tags0 : List Bool) : State :=
  let tags := if 8 < r.replays then tags0.map fun _ => true else tags0
  match r.kind with
  | .load signed _ => s.deliver r false (loadWords bs tags signed)
  | .uload signed => s.deliver r true (loadWords bs tags signed)
  | .poll =>
    let s := s.onReq r.id fun q => { q with bytes := bs, tags := tags, accepted := true }
    let rs := s.eng.reqs.filter fun q => q.gid = r.gid && q.seq = r.seq && q.kind.isPoll
    if rs.all fun q => q.accepted then s.pollsBack r rs else s
  | .record => s.onReq r.id fun q => { q with bytes := bs, tags := tags, accepted := true }
  | _ => s

/-- LOAD_RETURN may act. -/
def canLoadReturn (id : Nat) (s : State) : Option Req :=
  match s.req? id with
  | some r => match r.kind with
    | .load .. | .uload _ | .poll | .record => if !r.accepted && !s.reqWaits r then some r else none
    | _ => none
  | none => none

/-- LOAD_RETURN (R224, R226, R176): the value as the executor holds it now; a host's comes with the event. -/
def doLoadReturn (id : Nat) (ext : Option ExtVal) (s : State) : State :=
  match canLoadReturn id s with
  | none => s
  | some r => match r.place with
    | .line l ofs => match s.serveLine r l ofs with
      | .wait s => s
      | .done bs tags s => s.loaded r bs tags
    | .host _ => match s.hostValue r.gid r.va r.size ext with
      | some (bs, tag, s) => s.loaded r bs (List.replicate r.size tag)
      | none => s
    | _ => s

/-! The stack port (R13, R92, R93). -/

/-- Write bytes of one sector at the stack port: what only the device writes stays (R7), and what watches the bytes
notices (R346). -/
def State.portPut (s : State) (st e d : Nat) (bs : List Byte) (t : Bool) : State :=
  let l : LineId := ⟨st, e, d / 128⟩
  let (row, slot) := sectorPlace (s.extent st e).cls st e (d / 64)
  (s.writeSector row slot (d % 64) (s.writableBytes l (d % 128) bs) t).noticed l (d % 128) bs.length

/-- A write at the stack port that reads nothing (R399). -/
def State.portStore (s : State) (who : Who) (st e d : Nat) (bs : List Byte) (t : Bool) : State :=
  let (row, slot) := sectorPlace (s.extent st e).cls st e (d / 64)
  (s.meetSector who row slot bs.length).portPut st e d bs t

/-- Serve a request at the stack port, the row being controller-owned. -/
def State.portServe (s : State) (r : Req) (st e ofs : Nat) : State :=
  let cls := (s.extent st e).cls
  let (row, slot) := sectorPlace cls st e (ofs / 64)
  let o := ofs % 64
  match r.kind with
  | .record =>
    let ((d, t), s) := s.demandLine r.who ⟨st, e, ofs / 128⟩
    s.loaded r d (byteTags 0 128 fun w => bitOf t w)
  | .load .. | .uload _ | .poll =>
    let ((d, t), s) := s.demandSector r.who row slot
    s.loaded r ((d.drop o).take r.size) (List.replicate r.size t)
  | .store =>
    ((s.release r).portStore r.who st e ofs r.bytes (r.tags.any id)).dropReq r.id
  | .drain _ _ mask =>
    ((List.range (r.bytes.length / 4)).foldl (fun s i =>
      if natBit mask i then
        s.portStore r.who st e (ofs + 4 * i) ((r.bytes.drop (4 * i)).take 4) (r.tags.getD (4 * i) false)
      else s) s).drainDone r
  | .atom .. | .red .. | .cas _ =>
    let s := s.release r
    let ((d, t), s) := s.demandSector r.who row slot
    let n := atomBytes r.kind.ac
    let m := (d.drop o).take n
    let s := match atomResult r.kind (leNat m) t r.bytes r.tags with
      | some (x, t') => s.portPut st e ofs (leBytes n x) t'
      | none => s
    s.atomDone r m t
  | _ => s

/-- A request that writes. -/
def ReqKind.writes : ReqKind → Bool
  | .store | .drain .. | .atom .. | .red .. | .cas _ => true
  | _ => false

/-- A request that reads and writes. -/
def ReqKind.isAtomic : ReqKind → Bool
  | .atom .. | .red .. | .cas _ => true
  | _ => false

/-- A write of the stack port waits for the host's copy of its line (R128, R425). -/
def State.hostHolds (s : State) (r : Req) (st e ofs : Nat) : Bool :=
  r.kind.writes && s.mem.hostLines.contains ⟨st, e, ofs / 128⟩

/-- STACK_PORT_REQUEST may act: a non-cacheable access that has not been served. -/
def canStackPortRequest (id : Nat) (s : State) : Option (Req × Nat × Nat × Nat) :=
  match s.req? id with
  | some r => match r.place with
    | .raw st e ofs =>
      if !(r.accepted && !r.kind.isStore) && !r.queued && !s.reqWaits r then some (r, st, e, ofs) else none
    | _ => none
  | none => none

/-- An access of the stack port, which waits for the host's copy, its row or its bank, or is served (R93, R306, R425). -/
def State.portGo (s : State) (r : Req) (st e ofs : Nat) : State :=
  let row := (sectorPlace (s.extent st e).cls st e (ofs / 64)).1
  if s.hostHolds r st e ofs then (s.onReq r.id fun r => { r with accepted := r.kind.isStore }).snoop ⟨st, e, ofs / 128⟩
  else match s.passRows [row] (.req r.id) with
    | .error s => s.onReq r.id fun r => { r with queued := true, accepted := r.kind.isStore }
    | .ok s => s.portServe r st e ofs

/-- STACK_PORT_REQUEST (R13, R93, R306): accepted at the port, and served or held. -/
def doStackPortRequest (id : Nat) (s : State) : State :=
  match canStackPortRequest id s with
  | none => s
  | some (r, st, e, ofs) => s.portGo r st e ofs

def execStackPortRequest (id : Nat) (s : State) : Out := .next (doStackPortRequest id s)

/-- Work that waits for a row is no longer there to be done. -/
def State.workGone (s : State) (w : HeldWork) : Bool :=
  match w with
  | .req id => (s.req? id).isNone
  | .op id => (s.op? id).all fun o => o.complete
  | .walk id => decide (id < 2 ^ 64) && (s.op? id).all (fun o => o.complete) && !s.fab.walks.any fun h => h.id = id
  | _ => false

/-- Held work executes where it can pass the rows that it needs (R93, R94): an operation's or a waybill's goes on by its own
event. -/
def State.runHeld (s : State) (row : RowId) (w : HeldWork) : State :=
  if s.workGone w then s.dropHold [row] w
  else match w with
  | .req id => match s.req? id with
    | some r => match r.place with
      | .raw st e ofs => s.portGo r st e ofs
      | .line l ofs => match s.serveLine r l ofs with
        | .wait s => s
        | .done bs tags s => (s.dropHold (s.lineRows l) w).loaded r bs tags
      | _ => s
    | none => s
  | .fill l => match s.wantOf l with
    | some x => s.fillWanted x
    | none =>
      if s.rowsPass (s.lineRows l) w then (doHeldWriteApply l s).dropHold (s.lineRows l) w
      else match s.passRows (s.lineRows l) w with
        | .error s => s
        | .ok s => s
  | .writeback l b p op peer => match s.passRows (s.lineRows l) w with
    | .error s => s
    | .ok s =>
      let who := match op.bind s.op?, peer with
        | some o, _ => ⟨some o.ctx, some o.gid⟩
        | none, some r => ⟨s.inboundCtx r.pasid, none⟩
        | none, none => ⟨none, none⟩
      (s.writeBack who l b p).maintained op peer
  | .op _ | .walk _ => if s.rowStops w row then s.awaitRow row w else s

/-- HOLD_QUEUE_RELEASE (R93, R306): the oldest request that waits for a controller-owned row executes. -/
def doHoldQueueRelease (row : RowId) (s : State) : State :=
  if s.rowState row ≠ .controller then s
  else match (s.rowQueue row).head? with
    | none => s
    | some w => s.runHeld row w

def execHoldQueueRelease (row : RowId) (s : State) : Out := .next (doHoldQueueRelease row s)

/-! Instruction fetch (R444). -/

/-- The instruction line that a core holds and may use. -/
def State.icFind (s : State) (core pasid va : Nat) : Option ICLine :=
  s.mem.ic.find? fun x => x.core = core && x.pasid = pasid && x.vline = va / 128 && s.ltick < x.expiry

/-- The word at an address in the instruction cache, with its tag. -/
def State.fetchWord (s : State) (core pasid : Nat) (pc : BitVec 64) : Option (BitVec 64 × Bool) :=
  (s.icFind core pasid pc.toNat).map fun x =>
    let o := pc.toNat % 128
    (BitVec.ofNat 64 (leNat ((x.bytes.drop o).take 8)), bitOf x.poison (o / 4) || bitOf x.poison (o / 4 + 1))

/-- Fill an instruction line: 64 KiB, 512 lines a core; valid lines displace victim entries (R356, R444). -/
def State.icFill (s : State) (n : ICLine) : State :=
  let keep := s.mem.ic.filter fun x => !(x.core = n.core && x.pasid = n.pasid && x.vline = n.vline) && s.ltick < x.expiry
  let mine := keep.filter fun x => x.core = n.core
  let keep := if mine.length < 512 then keep
    else match mine[Config.icVictim s.free % 512]? with
      | some v => keep.filter (· ≠ v)
      | none => keep
  State.trimVictims (cluster := clusterOf n.core) { s with
    mem := { s.mem with ic := keep ++ [n] }, free := s.free + 1 }

/-- A word is the repeat prefix (R154). -/
def isPrefixWord (w : BitVec 64) : Bool := natBits w.toNat 63 56 = 0x7F

/-- A program counter of the group that waits for a word of a line, and the word's address: its own word,
or the word after a prefix (R155, R444). -/
def State.fetchPc (s : State) (g : Group) (vline : Nat) : Option (BitVec 64 × Nat) :=
  (g.paths.filterMap fun (pc, _) =>
    if pc.toNat / 128 = vline then some (pc, pc.toNat)
    else match s.fetchWord g.core g.pasid pc with
      | some (w, _) => if isPrefixWord w && (pc + 8).toNat / 128 = vline then some (pc, (pc + 8).toNat) else none
      | none => none).head?

/-- The group still issues: it has no trap and is not halted, or halts only for a step it has yet to make (R342). -/
def Group.issues (g : Group) : Bool :=
  !g.ended && g.trap.isNone && match g.halt with
    | .running | .window _ => true
    | .halting .step => g.stepFrame.isSome
    | _ => false

/-- The group of a core that waits for an instruction line and can still issue. -/
def State.fetcher (s : State) (core pasid vline : Nat) : Option Group :=
  s.groups.find? fun g => g.core = core && g.pasid = pasid && g.issues && (s.fetchPc g vline).isSome

/-- The fetch translation trap at the word that cannot be fetched (R140, R155, R358). -/
def State.fetchTrap (s : State) (g : Group) (vline : Nat) : State :=
  match s.fetchPc g vline with
  | some (pc, a) => takeTrap s g.gid ⟨0x0C, lowest (g.path pc), a % 2 ^ 54, a⟩ pc
  | none => s

/-- ICACHE_FILL (R444): the line from its home slice, or from the stack port, with a lease. -/
def doIcacheFill (core pasid vline : Nat) (s : State) : State :=
  match s.fetcher core pasid vline with
  | none => s
  | some g =>
    if (s.icFind core pasid (128 * vline)).isSome then s
    else if !canonical (128 * vline) then s.fetchTrap g vline
    else match s.translate core pasid (128 * vline) .fetch with
      | .miss | .fault _ =>
        s.askWalk (clusterOf core) pasid (128 * vline) .fetch (.fetch g.gid (BitVec.ofNat 64 (128 * vline)))
      | .hit pa nc res => match s.placeOf pa nc (g.ctx = 0) with
        | .at (.line l _) _ =>
          if !(s.heldOn l).isEmpty then s
          else
            let put := fun (d : List Byte) (p : Word) (s : State) =>
              let e := s.ltick + leaseOf (s.ctx g.ctx)
              (s.grant l e).icFill ⟨core, pasid, vline, d, p, e⟩
            match s.line? l with
            | some x => put x.bytes x.poison (s.onLine l id)
            | none =>
              if s.quota res ≠ 0 then s.want l res ⟨some g.ctx, some g.gid⟩
              else if (s.busyRow (s.lineRows l)).isSome then s.awaitRows l
              else
                let ((d, p), s) := s.demandLine ⟨some g.ctx, some g.gid⟩ l
                put d p s
        | .at (.raw st e d) _ =>
          let l : LineId := ⟨st, e, d / 128⟩
          if (s.busyRow (s.lineRows l)).isSome then s.awaitRows l
          else
            let ((b, p), s) := s.demandLine ⟨some g.ctx, some g.gid⟩ l
            s.icFill ⟨core, pasid, vline, b, p, s.ltick + leaseOf (s.ctx g.ctx)⟩
        | .changing => s
        | _ => s.fetchTrap g vline

def execIcacheFill (core pasid vline : Nat) (s : State) : Out := .next (doIcacheFill core pasid vline s)

end Sys2Proof.Machine
end

