-- ==== Sys2Proof/Machine/Access.lean ====
section
/-! DEFINITION. What issuing a memory word does: the checks of R221, the requests it puts in flight, the
operations it counts (R114, R117), and requests to peers (R418, R420). -/

namespace Sys2Proof.Machine

/-- The first lane of a mask that a check fails, ascending (R221). -/
def firstTrap (act : Word) (f : Nat → Option TrapReq) : Option TrapReq := ((lanesOf act).filterMap f).head?

/-- A trap that names a lane and an address. -/
def addrTrap (code L a : Nat) : TrapReq := ⟨code, L, a % 2 ^ 54, a⟩

/-! Peers. -/

/-- The enabled, working ports of the route to a package (R418). -/
def State.routePorts (s : State) (n : Nat) : List Nat :=
  (List.range 8).filter fun k =>
    natBit (sget 0 s.fab.route n) k && natBit s.fab.porten k
    && (match s.fab.ports[k]? with
        | some p => decide (16 ≤ p.lanes) && !p.retraining
        | none => false)

/-- A package is reachable (R418); a retraining port is not down. -/
def State.reachable (s : State) (n : Nat) : Bool :=
  s.fab.valid && n ≠ s.fab.self % 1024 && sget false s.fab.reach n
  && (List.range 8).any fun k =>
      natBit (sget 0 s.fab.route n) k && natBit s.fab.porten k
      && (match s.fab.ports[k]? with
          | some p => decide (16 ≤ p.lanes)
          | none => false)

/-- The PASID of the context that a request to a peer is made for (R416). -/
def State.workPasid (s : State) (w : FabWork) : Nat :=
  let ofCtx := fun (n : Nat) => (s.ctx n).pasid
  let ofGroup := fun (gid : Nat) => ((s.group? gid).map (·.pasid)).getD 0
  match w with
  | .req id | .withdraw id => match s.req? id with
    | some r => if r.gid = 0 then r.reg - 1 else ofCtx r.ctx
    | none => 0
  | .op id .. | .flag id => ((s.op? id).map (·.pasid)).getD 0
  | .walk id => ((s.op? id).map (·.pasid)).getD (((s.fab.walks.find? fun h => h.id = id).map (·.pasid)).getD 0)
  | .lockFree d => ((s.grid? d).map fun d => ofCtx d.ctx).getD 0
  | .done c _ _ => ofCtx c
  | .clear gid .. | .retire gid => ofGroup gid

/-- The requests to a package that have gone out and are not acknowledged (R420). -/
def State.unacked (s : State) (n : Nat) : Nat := (s.fab.out.filter fun f => f.tgt = n && f.live).length

/-- A request goes out by the port that its number selects among the working ones of its route (R418), or finds no route
(R419). -/
def State.depart (s : State) (f : FabReq) : FabReq × State :=
  let ports := s.routePorts f.tgt
  match ports[f.seq % ports.length]? with
  | some k =>
    let f := { f with port := some k, sent := s.ltick, noRoute := none, live := true }
    (f, s.send (.toPeer (s.fab.self % 1024) k f))
  | none => ({ f with port := none, sent := s.ltick, noRoute := f.noRoute <|> some s.ltick, live := true }, s)

/-- A place without an address. -/
def FabPlace.none : FabPlace := ⟨0, 0, false, 3⟩

/-- Number a request to a peer; at most 256 per target are out, and a further one waits (R420). -/
def State.sendPeer (s : State) (n : Nat) (w : FabWork) (at_ : FabPlace := FabPlace.none) : State :=
  let q := sget 0 s.fab.seqs n
  let f : FabReq :=
    { tgt := n, seq := q, work := w, pasid := s.workPasid w, fabgen := s.fab.fabgen, at_ := at_, port := none
      sent := s.ltick, noRoute := none, tries := 0, retry := false, live := false, dropped := false }
  let (f, s) := if s.unacked n < 256 then s.depart f else (f, s)
  { s with fab := { s.fab with seqs := sset 0 s.fab.seqs n ((q + 1) % 2 ^ 32), out := s.fab.out ++ [f] } }

/-! Counted operations (R114 to R117). -/

/-- COUNT of a class: operations issued and not retired, those of the counter record included (R115, R119). -/
def State.countOf (s : State) (gid : Nat) (c : EClass) : Nat :=
  (s.eng.ops.filter fun o => o.gid = gid && o.cls = c).length

/-- A class can take one more operation (R117). -/
def State.room (s : State) (gid : Nat) (c : EClass) : Bool := decide (s.countOf gid c < 255)

/-- Issue an operation of a group. -/
def State.newOp (s : State) (g : Group) (c : EClass) (k : OpKind) (spans : List Span) : Nat × State :=
  let (n, s) := s.fresh
  (n, { s with eng := { s.eng with ops := s.eng.ops ++
    [{ id := n, gid := g.gid, team := g.team, core := g.core, ctx := g.ctx, pasid := g.pasid, cls := c, kind := k
       span := spans, launched := false, drays := [], rows := [], lost := [], started := [], pos := 0, left := 0, got := [], ahead := [], complete := false
       status := 0, addr := 0, failAt := 0, moved := false, fault := none, reason := 0, issued := s.ltick, flits := 0 }] } })

/-- Give an operation its number of applications, after which nothing more starts (R114). -/
def State.opLeft (s : State) (id n : Nat) : State := (s.onOp id fun o => { o with left := n, complete := true }).opDue id

/-- The task table is full (R370). -/
def State.tableFull (s : State) : Bool :=
  decide (4096 ≤ (s.disp.grids.filter fun d => !d.retired && d.sup.isNone).length)

/-! Where a lane's access goes. -/

/-- What check 5 of R221 finds for a lane. -/
inductive Resolved where
  | ok (p : Place) (cls : Option ExtClass) (nc : Bool) (res : Nat)
  | trap (t : TrapReq)
  | walk (va : Nat)
  | stall
  deriving DecidableEq, Repr

/-- Canonical form, translation, window and reachability of an access (R221 check 5, R343, R344). -/
def State.resolve (s : State) (g : Group) (L va : Nat) (k : AccKind) (red : Bool) : Resolved :=
  if !canonical va then .trap (addrTrap 0x0B L va)
  else match s.translate g.core g.pasid va k with
    | .miss | .fault _ => .walk va
    | .hit pa nc res => match s.placeOf pa nc (g.ctx = 0) with
      | .at p cls => match p with
        | .peer n _ _ => if red || s.reachable n then .ok p cls nc res else .trap (addrTrap 0x0D L va)
        | _ => .ok p cls nc res
      | .absent => .trap (addrTrap 0x0B L va)
      | .changing => .stall

/-- Non-cacheable memory of this package or of a peer (R13, R14). -/
def Place.uncached : Place → Bool
  | .raw .. => true
  | .peer _ _ nc => nc
  | _ => false

/-- A lane's access, resolved. -/
structure Acc where
  lane : Nat
  va : Nat
  place : Place
  cls : Option ExtClass
  nc : Bool
  res : Nat
  deriving DecidableEq, Repr

/-- What check 5 finds for all lanes: the first lane that fails decides. -/
inductive AllResolved where
  | ok (a : List Acc)
  | trap (t : TrapReq)
  | walk (lane va : Nat)
  | stall
  deriving DecidableEq, Repr

/-- Resolve the accesses of some lanes, ascending. -/
def State.resolveAll (s : State) (g : Group) (k : AccKind) (red : Bool) (va : Nat → Nat) : List Nat → AllResolved
  | [] => .ok []
  | L :: Ls =>
    match s.resolve g L (va L) k red with
    | .trap t => .trap t
    | .walk a => .walk L a
    | .stall => .stall
    | .ok p cls nc res => match s.resolveAll g k red va Ls with
      | .ok as => .ok (⟨L, va L, p, cls, nc, res⟩ :: as)
      | r => r

/-- The word waits for a translation: the path stays before it (R350). -/
def State.waitWalk (s : State) (g : Group) (L va : Nat) (k : AccKind) : State :=
  (s.askWalk (clusterOf g.core) g.pasid va k (.group g.gid s.cur.pc L)).onGroup g.gid fun g =>
    g.await s.cur s.cur.lanes fun _ => .walk

/-- Go on with the resolved accesses, or trap, wait for the walk, or be held at the decoder (R365). -/
def State.withAccess (s : State) (g : Group) (act : Word) (k : AccKind) (red : Bool) (va : Nat → Nat)
    (f : List Acc → State) : State :=
  match s.resolveAll g k red va (lanesOf act) with
  | .ok as => f as
  | .trap t => raise s t
  | .walk L a => s.waitWalk g L a k
  | .stall => s

/-- Poison in the base of an active lane (R221 check 3). -/
def poisonBase (g : Group) (o : MForm) (global : Bool) (act : Word) : Option TrapReq :=
  firstTrap act fun L =>
    if (mBaseVal g o global L).tag then
      some (if global then addrTrap 0x07 L (globalAddr g o L) else addrTrap 0x07 L (wrapNat (spOffset g o L) 64))
    else none

/-- Misalignment of a global address (R221 check 4). -/
def misalignedGlobal (g : Group) (o : MForm) (size : Nat) (act : Word) : Option TrapReq :=
  firstTrap act fun L => if globalAddr g o L % size ≠ 0 then some (addrTrap 0x09 L (globalAddr g o L)) else none

/-- Misalignment, then bounds, of scratchpad offsets (R74, R221). -/
def scratchTrap (g : Group) (o : MForm) (size spSize : Nat) (act : Word) : Option TrapReq :=
  (firstTrap act fun L =>
    if spOffset g o L % (size : Int) ≠ 0 then some (addrTrap 0x09 L (wrapNat (spOffset g o L) 64)) else none)
  <|> (firstTrap act fun L =>
    let a := spOffset g o L
    if a < 0 ∨ a + size > spSize then some (addrTrap 0x0A L (wrapNat a 64)) else none)

/-- Store data bound for class N or the host window carries poison (R91, R221 check 8); `n` is the moment. -/
def poisonStore (n : Nat) (as : List Acc) (tag : Nat → Bool) : Option TrapReq :=
  (as.find? fun a =>
    tag a.lane && (match a.place with
      | .host _ => true
      | .peer p o _ => Config.peerHoldsN n p o
      | _ => a.cls = some .N)).map fun a => addrTrap 0x08 a.lane a.va

/-- The performing condition of a releasing word that acts at once (R100, R105). -/
def State.allPerformed (s : State) (g : Group) (act : Word) (sc : Scope) : Bool :=
  (lanesOf act).all fun L => s.performed g.gid L g.seq sc

/-- A plain store of the group goes to a peer, where it will make open marks (R110). -/
def Group.markPeer (g : Group) (k : Nat) : Group :=
  let m := (g.peerMarks.find? fun m => m.pkg = k).getD ⟨k, 0, []⟩
  { g with peerMarks := (g.peerMarks.filter fun m => m.pkg ≠ k) ++ [{ m with upto := g.seq + 1 }] }

/-- Send a request to its peer, once nothing that it comes after is still out (R99, R100, R126). -/
def State.sendReq (s : State) (r : Req) : State :=
  match r.place with
  | .peer k ofs nc =>
    if r.sent || s.reqWaits r then s
    else (s.onReq r.id fun r => { r with sent := true }).sendPeer k (.req r.id) ⟨r.va, ofs, nc, r.res⟩
  | _ => s

/-- The requests of a group to its peers that waited and need not any more. -/
def State.sendDue (s : State) (gid : Nat) : State :=
  (s.eng.reqs.filter fun r => r.gid = gid && !r.sent).foldl (fun s r => s.sendReq r) s

/-- Put a lane's request in flight; its registers wait for it (R26). -/
def State.putReq (s : State) (g : Group) (a : Acc) (r : Req) (regs : List RegName) : State :=
  let (n, s) := s.fresh
  let s := { s with eng := { s.eng with reqs := s.eng.reqs ++ [{ r with id := n }] } }
  let s := s.onGroup g.gid fun g => { g with pend := g.pend ++ regs.map fun x => ⟨x, .req n, .global_⟩ }
  match a.place with
  | .peer k _ _ =>
    let s := if r.kind.marks && !r.rel then s.onGroup g.gid fun g => g.markPeer k else s
    s.sendReq { r with id := n }
  | _ => s

/-- Ask the peers that a group has stored in for the clearing that a release of the accesses before `seq` needs there: of the
entries that its answered stores have made (R105, R111). -/
def State.clearPeers (s : State) (g : Group) (seq : Nat) (sc : Scope) : State :=
  g.peerMarks.foldl (fun s m =>
    let asked := s.fab.out.any fun f => f.tgt = m.pkg && (match f.work with
      | .clear gid _ _ => gid = g.gid
      | _ => false)
    let out := s.eng.reqs.filter fun q => q.gid = g.gid && q.kind.marks && (match q.place with
      | .peer k _ _ => k = m.pkg
      | _ => false)
    let n := (out.map (·.seq)).foldl min g.seq
    if asked || decide (min seq m.upto ≤ m.clearedAt sc) || decide (n ≤ m.clearedAt sc) then s
    else s.sendPeer m.pkg (.clear g.gid sc n)) s

/-- A request of a lane with nothing particular to it. -/
def baseReq (g : Group) (c : Cur) (a : Acc) (k : ReqKind) (size reg : Nat) : Req :=
  { id := 0, gid := g.gid, gen := g.regGen reg, core := g.core, side := g.side, slot := g.slot, ctx := g.ctx, lane := a.lane, pc := c.pc, kind := k
    place := a.place, va := a.va, size := size, res := a.res, reg := reg, bytes := [], tags := [], acq := false
    rel := false, scope := .d, seq := g.seq, op := none, accepted := false, queued := false, sent := false, noFill := false, replays := 0, also := 0 }

/-- The next issue of the group has the next sequence number. -/
def State.bumpSeq (s : State) (gid : Nat) : State := s.onGroup gid fun g => { g with seq := g.seq + 1 }

/-- A first-level copy is updated by its own core's store (R78, R355), but for what only the device writes (R7). -/
def State.l1Store (s : State) (core : Nat) (l : LineId) (ofs : Nat) (bs : List Byte) (tag : Nat → Bool) : State :=
  { s with mem := { s.mem with l1 := s.mem.l1.map fun x =>
      if x.core = core && x.line = l then
        { x with bytes := putBytes x.bytes ofs (s.writableBytes l ofs bs), poison := putTags x.poison ofs bs.length tag }
      else x } }

/-- An atomic takes its core's own copy of the line away (log 22). -/
def State.l1Drop (s : State) (core : Nat) (l : LineId) : State :=
  { s with mem := { s.mem with l1 := s.mem.l1.filter fun x => !(x.core = core && x.line = l) } }

end Sys2Proof.Machine
end

