-- ==== Sys2Proof/Machine/Control.lean ====
section
/-! DEFINITION. Control flow (R172, R173), yielding and waiting (R175, R177), pre-emption points, regions,
breaks (R178 to R180), and the repeat prefix (R154, R155). -/

namespace Sys2Proof.Machine

/-- Active lanes transfer, the other lanes of the path go on at PC + 8 (R172). -/
def Group.jump (g : Group) (c : Cur) (act : Word) (t : Nat → BitVec 64) : Group :=
  mapLanes (g.advance c act) fun L ln => if bitOf act L then { ln with pc := t L, polls := 0 } else ln

/-- The target of a B-form word (R148, R172). -/
def branchTarget (c : Cur) (o : BForm) : BitVec 64 := c.pc + BitVec.ofInt 64 (8 * natSext o.ofs.toNat 32)

def execBra (o : BForm) (s : State) : Out :=
  execWord (.bra o) false o.g (fun s _ act => s.onGroup s.cur.gid fun g => g.jump s.cur act fun _ => branchTarget s.cur o) s

/-- CALL writes the link pair of the active lanes (R172). -/
def linkPair (g : Group) (c : Cur) (act : Word) (l : Nat) : Group :=
  eachLane act (fun g L => wrVs g l 2 L (c.pc + 8).toNat false) g

def execCall (o : BForm) (s : State) : Out :=
  execWord (.call o) false o.g (fun s _ act => s.onGroup s.cur.gid fun g =>
    (linkPair g s.cur act o.l.toNat).jump s.cur act fun _ => branchTarget s.cur o) s

/-- An indexed transfer (R173): poison, then alignment, over all active lanes before any lane moves. -/
def indexedJump (o : RForm) (s : State) (g : Group) (act : Word) : State :=
  let a := fun L => srcA false g o 2 L
  match firstTrap act fun L => if (a L).tag then some ⟨0x07, L, 0, 0⟩ else none with
  | some t => raise s t
  | none => match firstTrap act fun L => if (a L).n % 8 ≠ 0 then some ⟨0x01, L, 0, 0⟩ else none with
    | some t => raise s t
    | none => s.onGroup s.cur.gid fun g => g.jump s.cur act fun L => BitVec.ofNat 64 (a L).n

def execBrx (o : RForm) (s : State) : Out := execWord (.brx o) false o.g (indexedJump o) s
def execRet (o : RForm) (s : State) : Out := execWord (.ret o) false o.g (indexedJump o) s

/-- YIELD: the whole path goes on and is not ready for 32 cycles (R175); a halt in that time finds it before the word
(R44; log 39). -/
def yieldEffect (s : State) (g : Group) (_ : Word) : State :=
  let c := (s.side (sideKey g.core g.side)).cycle
  s.onGroup s.cur.gid fun g => (g.advance s.cur 0).setWait s.cur.lanes (.yield (c + 33))

def execYield (o : RForm) (s : State) : Out := execWord (.yield o) false o.g yieldEffect s

/-- A lane's back-off has ended. -/
def backoffOver (s : State) (ln : Lane) (g : Group) : Bool :=
  let c := (s.side (sideKey g.core g.side)).cycle
  match ln.wait with
  | .yield u | .backoff u => decide (u ≤ c)
  | _ => false

/-- YIELD_BACKOFF_EXPIRY (R175): lanes of the agent's group whose YIELD back-off has passed are ready again. -/
def doYieldBackoffExpiry (s : State) : State :=
  match s.group? s.cur.gid with
  | none => s
  | some g => s.onGroup s.cur.gid fun x => mapLanes x fun _ ln =>
      match ln.wait with
      | .yield _ => if backoffOver s ln g then { ln with wait := .none } else ln
      | _ => ln

def execYieldBackoffExpiry (s : State) : Out := .next (doYieldBackoffExpiry s)

/-- YIELD_W_BACKOFF_EXPIRY (R176). -/
def doYieldWBackoffExpiry (s : State) : State :=
  match s.group? s.cur.gid with
  | none => s
  | some g => s.onGroup s.cur.gid fun x => mapLanes x fun _ ln =>
      match ln.wait with
      | .backoff _ => if backoffOver s ln g then { ln with wait := .none } else ln
      | _ => ln

def execYieldWBackoffExpiry (s : State) : Out := .next (doYieldWBackoffExpiry s)

/-- The oldest held error of a class. -/
def Group.heldError (g : Group) (c : EClass) : Option EngErr := g.errs.find? fun e => e.cls = c

/-- Drop the oldest held error of a class. -/
def dropError (c : EClass) : List EngErr → List EngErr
  | [] => []
  | e :: es => if e.cls = c then es else e :: dropError c es

/-- INFO of the engine-error trap (R116, R327). -/
def engineInfo (lost : Bool) (e : EngErr) : Nat := (if lost then 2048 else 0) + 256 * e.cls.code + e.status

/-- WAITC (R116, R177); where another path of the cycle has trapped before it, it is issued again (R329). -/
def waitcEffect (c : EClass) (o : RForm) (s : State) (g : Group) (act : Word) : State :=
  if s.countOf g.gid c ≤ o.c.toNat then
    match g.heldError c with
    | some e =>
      if g.trap.isSome then s else
      let t : TrapReq := ⟨0x12, lowest act, engineInfo (g.lost.contains c) e, e.addr⟩
      (raise s t).onGroup s.cur.gid fun g =>
        { g with errs := dropError c g.errs, lost := g.lost.filter (· ≠ c) }
    | none => s.go 0
  else s.onGroup s.cur.gid fun g => (g.advance s.cur act).await s.cur act fun _ => .waitc c o.c.toNat

def execWaitc (c : EClass) (o : RForm) (s : State) : Out := execWord (.waitc c o) false o.g (waitcEffect c o) s

/-- A pre-emption is pending and the group is in its window, which ends at a tick (R44). -/
def Group.inWindow (g : Group) (now : Nat) : Bool :=
  match g.halt with
  | .window u => decide (now < u)
  | _ => false

/-- PPOINT (R44, R178): in the window, with the one path of all running lanes, the group halts after the
word and only the masked tiles are saved. -/
def ppointEffect (o : IForm) (s : State) (g : Group) (_ : Word) : State :=
  if g.inWindow s.ltick && s.cur.lanes = g.running then
    s.onGroup s.cur.gid fun g =>
      { g.advance s.cur 0 with halt := .halting .preempt, ppoint := some o.imm }
  else s.go 0

def execPpoint (o : IForm) (s : State) : Out := execWord (.ppoint o) false o.g (ppointEffect o) s

/-- PPOINT_WINDOW_EXPIRY (R44): the window has ended; the group halts at its boundaries and saves every tile. -/
def doPpointWindowExpiry (s : State) : State :=
  s.onGroup s.cur.gid fun g =>
    match g.halt with
    | .window u => if u ≤ s.ltick then { g with halt := .halting .preempt } else g
    | _ => g

def execPpointWindowExpiry (s : State) : Out := .next (doPpointWindowExpiry s)

/-- RGN (R179); the restart counts of R408 start afresh. -/
def execRgn (o : RForm) (s : State) : Out :=
  execWord (.rgn o) false o.g (fun s _ act => s.onGroup s.cur.gid fun g =>
    let g := mapLanes g fun L ln => if bitOf act L then { ln with region := s.cur.pc + 8, inRegion := true } else ln
    { g.advance s.cur 0 with restarts := [] }) s

def execRgnEnd (o : RForm) (s : State) : Out :=
  execWord (.rgnEnd o) false o.g (fun s _ act => s.onGroup s.cur.gid fun g =>
    let g := mapLanes g fun L ln => if bitOf act L then { ln with inRegion := false } else ln
    { g.advance s.cur 0 with restarts := [] }) s

/-- BRK: the lanes stay at the word (R180). -/
def execBrk (o : IForm) (s : State) : Out :=
  execWord (.brk o) false o.g (fun s _ act => raise s ⟨0x15, lowest act, o.imm.toNat, 0⟩) s

/-- TRAP: the trapping lanes stand at PC + 8 (R180, R330), unless another path of the cycle trapped before (R329). -/
def execTrap (o : IForm) (s : State) : Out :=
  execWord (.trap o) false o.g (fun s g act =>
    if g.trap.isSome then s else (raise s ⟨0x16, lowest act, o.imm.toNat, 0⟩).onGroup s.cur.gid fun g =>
      g.advance s.cur (s.cur.lanes &&& ~~~act)) s

/-- What the prefix finds at P + 8 (R155). -/
inductive NextWord where
  | ok (w : BitVec 64)
  | illegal
  | missing
  | poisoned
  deriving DecidableEq, Repr

/-- The word after a prefix, judged (R154, R155). -/
def State.afterPrefix (s : State) (g : Group) (o : RepForm) : NextWord :=
  match s.fetchWord g.core g.pasid (s.cur.pc + 8) with
  | none => .missing
  | some (w, t) =>
    if t then .poisoned
    else if !repeatable w then .illegal
    else match decodeWord w with
      | .ok i => if stepsAllowed o i.view then .ok w else .illegal
      | .error _ => .illegal

/-- REP at k = 0: the prefix issues (R155). A word that is not in the instruction cache yet leaves the path
where it is. -/
def repEffect (o : RepForm) (s : State) (g : Group) : State :=
  match s.afterPrefix g o with
  | .missing => s
  | .illegal => raise s ⟨0x01, lowest s.cur.lanes, 0, 0⟩
  | .poisoned => raise s (addrTrap 0x07 (lowest s.cur.lanes) (s.cur.pc + 8).toNat)
  | .ok _ => s.onGroup s.cur.gid fun g => mapLanes g fun L ln => if bitOf s.cur.lanes L then { ln with k := 1 } else ln

def execRep (o : RepForm) (s : State) : Out := onPath s fun g => repEffect o s g

end Sys2Proof.Machine
end

