-- ==== Sys2Proof/Machine/Memory.lean ====
section
/-! DEFINITION. Loads, stores, prefetches, polls and atomics (R220 to R231, R176), in both address spaces. -/

namespace Sys2Proof.Machine

/-- Access size of an access code (R147). -/
def acSize (ac : Nat) : Nat := if ac ≤ 1 then 1 else if ac ≤ 3 then 2 else if ac = 4 then 4 else if ac = 5 then 8 else 16

/-- Sign extension of an access code (R147). -/
def acSigned (ac : Nat) : Bool := ac = 1 || ac = 3

/-- The scratchpad size of the team. -/
def teamSize (s : State) (g : Group) : Nat := ((s.team? g.team).map (·.spSize)).getD 0

/-- The physical scratchpad address of an offset of the group's team. -/
def spPhys (s : State) (g : Group) (off : Nat) : Nat :=
  match s.team? g.team with
  | some t => t.sp off
  | none => spAddr g.core 0 off

/-- The offset of a lane as a natural number. -/
def offN (g : Group) (o : MForm) (L : Nat) : Nat := (spOffset g o L).toNat

/-- Bytes of the scratchpad meet a live gate (R77). -/
def meetsGate (c : Cores) (a n : Nat) : Bool := (List.range n).any fun i => spGate c (a + i)

/-- Scratchpad checks 3, 4, 5 of R221. -/
def spTrap (s : State) (g : Group) (o : MForm) (size : Nat) (act : Word) : Option TrapReq :=
  poisonBase g o false act <|> scratchTrap g o size (teamSize s g) act

/-- Check 7 for a word that writes (R77). -/
def clobberTrap (s : State) (g : Group) (o : MForm) (size : Nat) (act : Word) : Option TrapReq :=
  firstTrap act fun L =>
    if meetsGate s.cores (spPhys s g (offN g o L)) size then some (addrTrap 0x0F L (offN g o L)) else none

/-- Global checks 3 and 4 of R221. -/
def glTrap (g : Group) (o : MForm) (size : Nat) (act : Word) : Option TrapReq :=
  poisonBase g o true act <|> misalignedGlobal g o size act

/-- A scratchpad release waits until it is performed at `.t`, then clears the group's marks (R96, R105, R111). -/
def State.spRelease (s : State) (g : Group) (act : Word) (rel : Bool) (k : State → State) : State :=
  if rel then (if s.allPerformed g act .t then k (s.clearMarks g.gid .t) else s) else k s

def ordAcq : MOrd → Bool
  | .acq | .ar => true
  | _ => false

def ordRel : MOrd → Bool
  | .rel | .ar => true
  | _ => false

/-! Loads. -/

/-- A scratchpad load (R224): words with their poison bits. -/
def spLoad (o : MForm) (s : State) (g : Group) (act : Word) : State :=
  let size := acSize o.ac.toNat
  match spTrap s g o size act with
  | some t => raise s t
  | none =>
    s.onGroup s.cur.gid fun x =>
      (eachLane act (fun (x : Group) L =>
        let a := spPhys s g (offN g o L)
        let ws := loadWords (spBytes s.cores a size) ((List.range size).map fun i => spPoison s.cores (a + i))
          (acSigned o.ac.toNat)
        (ws.zipIdx).foldl (fun x (w, i) => wrV x (o.d.toNat + i) L w) x) x).advance s.cur 0

/-- A lane's earlier atomic to the same bytes is still out, so its first-level copy does not serve it (R99); its stores
have changed the copy at once (R78). -/
def State.laneBusy (s : State) (g : Group) (L va n : Nat) : Bool :=
  s.eng.reqs.any fun q => q.gid = g.gid && q.of L && !q.kind.marks
    && (q.acq || (decide (q.va < va + n) && decide (va < q.va + q.size)))

/-- A first-level hit of a lane (R79, R106). -/
def State.l1Hit (s : State) (g : Group) (o : MForm) (L va n : Nat) : Option (List Byte × List Bool) :=
  if (ordAcq o.ord && decide (2 ≤ o.sc.code)) || s.laneBusy g L va n then none
  else (s.l1Find g.core g.pasid va).map fun x =>
    ((x.bytes.drop (va % 128)).take n, byteTags (va % 128) n fun w => bitOf x.poison w)

/-- The lanes of a load that miss, in flight (R224). -/
def putLoads (o : MForm) (s : State) (g : Group) (as : List Acc) : State :=
  let size := acSize o.ac.toNat
  as.foldl (fun s a =>
    let r := baseReq g s.cur a (.load (acSigned o.ac.toNat) size) size o.d.toNat
    s.putReq g a { r with acq := ordAcq o.ord, scope := o.sc }
      ((List.range (memRegs o.ac.toNat)).map fun i => .v (o.d.toNat + i))) s

/-- What the first level has for a lane of a load. -/
def State.loadHit (s : State) (g : Group) (o : MForm) (L : Nat) : Option (List Byte × List Bool) :=
  if canonical (globalAddr g o L) then s.l1Hit g o L (globalAddr g o L) (acSize o.ac.toNat) else none

/-- The lanes of a load that the first level does not serve. -/
def State.loadMiss (s : State) (g : Group) (o : MForm) (act : Word) : Word :=
  maskOf fun L => bitOf act L && (s.loadHit g o L).isNone

/-- A global load (R224). -/
def glLoad (o : MForm) (s : State) (g : Group) (act : Word) : State :=
  let size := acSize o.ac.toNat
  match glTrap g o size act with
  | some t => raise s t
  | none =>
    let miss := s.loadMiss g o act
    s.withAccess g miss .read false (globalAddr g o) fun as =>
      let s' := s.onGroup s.cur.gid fun x =>
        eachLane (act &&& ~~~miss) (fun (x : Group) L =>
          match s.loadHit g o L with
          | some (bs, ts) =>
            ((loadWords bs ts (acSigned o.ac.toNat)).zipIdx).foldl (fun x (w, i) => wrV x (o.d.toNat + i) L w) x
          | none => x) x
      ((putLoads o s' g as).bumpSeq g.gid).go 0

def execLd (o : MForm) (s : State) : Out :=
  execWord (.ld o) false o.g (if o.sp then spLoad o else glLoad o) s

/-- What the first level has for an LDU. -/
def State.lduHit (s : State) (g : Group) (o : MForm) (act : Word) : Option (List Byte × List Bool) :=
  let va := globalAddr g o (lowest act)
  let size := acSize o.ac.toNat
  if canonical va && !(lanesOf act).any fun K => s.laneBusy g K va size then s.l1Hit g o (lowest act) va size else none

/-- LDU: one load for the group (R226). -/
def lduEffect (o : MForm) (s : State) (g : Group) (act : Word) : State :=
  let size := acSize o.ac.toNat
  let one := 1#32 <<< lowest act
  match glTrap g o size act with
  | some t => raise s t
  | none =>
    let L := lowest act
    let va := globalAddr g o L
    match s.lduHit g o act with
    | some (bs, ts) =>
      s.onGroup s.cur.gid fun x =>
        (((loadWords bs ts (acSigned o.ac.toNat)).zipIdx).foldl (fun x (w, i) => wrS x (o.d.toNat + i) w) x).advance s.cur 0
    | none =>
      s.withAccess g one .read false (fun _ => va) fun as =>
        let s' := as.foldl (fun s a =>
          let r := baseReq g s.cur a (.uload (acSigned o.ac.toNat)) size o.d.toNat
          s.putReq g a { r with acq := ordAcq o.ord, scope := o.sc, also := act }
            ((List.range (memRegs o.ac.toNat)).map fun i => .s (o.d.toNat + i))) s
        (s'.bumpSeq g.gid).go 0

def execLdu (o : MForm) (s : State) : Out := execWord (.ldu o) false o.g (lduEffect o) s

/-! Prefetches (R227). -/

/-- Bring one line in: into the depot, and into the first level with a lease, at once or when the depot has it and no
write waits there; a copy that the core holds under another tag moves (R355). Dropped where R227 says. -/
def State.prefetchLine (s : State) (g : Group) (va : Nat) (l1 : Bool) : State :=
  match s.translate g.core g.pasid va .read with
  | .hit pa nc res => match s.placeOf pa nc (g.ctx = 0) with
    | .at (.line l _) _ =>
      if s.quota res = 0 then s
      else
        let ask := fun (s : State) =>
          let p : Prefetch := ⟨l, g.core, g.pasid, va / 128, g.ctx⟩
          if !l1 || s.mem.prefetches.contains p then s
          else { s with mem := { s.mem with prefetches := s.mem.prefetches ++ [p] } }
        let copy := s.mem.l1.find? fun y => y.core = g.core && y.line = l && s.ltick < y.expiry
        let move := fun (s : State) (y : L1Line) =>
          if l1 then s.l1Fill { y with pasid := g.pasid, vline := va / 128 } else s
        match s.line? l, copy with
        | none, c =>
          if (s.busyRow (s.lineRows l)).isSome then s
          else
            let s := s.wish l res ⟨some g.ctx, some g.gid⟩
            match c with
            | some y => move s y
            | none => ask s
        | some _, some y => move s y
        | some x, none =>
          if !l1 then s
          else if !(s.heldOn l).isEmpty then ask s
          else s.l1Grant g.ctx g.core g.pasid (va / 128) l x.bytes x.poison
    | _ => s
  | .miss => s.askWalk (clusterOf g.core) g.pasid va .read (.prefetch g.gid l1)
  | .fault _ => s

/-- PREFETCH: one request a line, checks 1 to 3 only (R227). -/
def prefetchEffect (l1 : Bool) (o : MForm) (s : State) (g : Group) (act : Word) : State :=
  match poisonBase g o true act with
  | some t => raise s t
  | none =>
    let lines := ((lanesOf act).map fun L => globalAddr g o L / 128 * 128).eraseDups
    (lines.foldl (fun s va => if canonical va then s.prefetchLine g va l1 else s) s).go 0

def execPrefetchL1 (o : MForm) (s : State) : Out := execWord (.prefetchL1 o) false o.g (prefetchEffect true o) s
def execPrefetchDep (o : MForm) (s : State) : Out := execWord (.prefetchDep o) false o.g (prefetchEffect false o) s

/-! Stores (R225). -/

/-- The low bytes of a lane's data registers. -/
def storeBytes (g : Group) (o : MForm) (L : Nat) : List Byte :=
  leBytes (acSize o.ac.toNat) (rdVs g o.d.toNat (memRegs o.ac.toNat) L).n

/-- The tag of each byte of a lane's data. -/
def storeTags (g : Group) (o : MForm) (L : Nat) : List Bool :=
  (List.range (acSize o.ac.toNat)).map fun i => (rdV g (o.d.toNat + i / 4) L).tag

def storeTag (g : Group) (o : MForm) (L : Nat) : Bool := (storeTags g o L).any id

/-- A scratchpad store: ascending lanes, so that the highest-numbered lane's bytes stay (R75, R222). All are written
when the word issues (log 65). -/
def spStore (o : MForm) (s : State) (g : Group) (act : Word) : State :=
  let size := acSize o.ac.toNat
  match spTrap s g o size act <|> clobberTrap s g o size act with
  | some t => raise s t
  | none =>
    s.spRelease g act (ordRel o.ord) fun s =>
      { s with cores := eachLane act (fun c L =>
          spPut c (spPhys s g (offN g o L)) (storeBytes g o L) fun i => (storeTags g o L).getD i false) s.cores }.go 0

/-- Of the lanes that name one address, the highest (R222). -/
def lastLanes (as : List Acc) : List Acc :=
  as.filter fun a => !as.any fun b => decide (a.lane < b.lane) && b.va = a.va

/-- A global store: the core's own copy at once, then on its way home (R78, R225). The lanes that name one
address store once, with the highest lane's value. -/
def putStores (o : MForm) (s : State) (g : Group) (as : List Acc) : State :=
  (lastLanes as).foldl (fun s a =>
    let bs := storeBytes g o a.lane
    let ts := storeTags g o a.lane
    let s := match a.place with
      | .line l ofs => s.l1Store g.core l ofs bs fun i => ts.getD i false
      | _ => s
    let r := baseReq g s.cur a .store (acSize o.ac.toNat) 0
    s.putReq g a { r with bytes := bs, tags := ts, rel := ordRel o.ord, scope := o.sc
                          also := maskOf fun L => as.any fun b => b.lane = L && b.va = a.va } []) s

def glStore (o : MForm) (s : State) (g : Group) (act : Word) : State :=
  match glTrap g o (acSize o.ac.toNat) act with
  | some t => raise s t
  | none =>
    s.withAccess g act .write false (globalAddr g o) fun as =>
      match poisonStore s.free as (storeTag g o) with
      | some t => raise s t
      | none => ((putStores o s g as).bumpSeq g.gid).go 0

def execSt (o : MForm) (s : State) : Out :=
  execWord (.st o) false o.g (if o.sp then spStore o else glStore o) s

/-! Atomics (R229 to R231). -/

/-- Operand registers of an atomic word: one, a pair, or compare and swap. -/
def atomData (k : ReqKind) : Nat :=
  match k with
  | .cas ac => 2 * atomRegs ac
  | k => atomRegs k.ac

/-- The operand of a lane, by bytes. -/
def atomOperand (g : Group) (k : ReqKind) (d L : Nat) : List Byte × List Bool :=
  let n := atomData k
  (leBytes (4 * n) (rdVs g d n L).n, (List.range (4 * n)).map fun i => (rdV g (d + i / 4) L).tag)

/-- The registers an atomic's old value returns to. -/
def atomDest (k : ReqKind) (d : Nat) : List RegName :=
  match k with
  | .red .. => []
  | k => (List.range (atomRegs k.ac)).map fun i => .v (d + i)

/-- One lane of a scratchpad atomic, at the bank's adder (R76, R230). -/
def spAtomLane (s : State) (g : Group) (o : MForm) (k : ReqKind) (acc : Cores × Group) (L : Nat) : Cores × Group :=
  let (c, x) := acc
  let n := atomBytes k.ac
  let a := spPhys s g (offN g o L)
  let m := spBytes c a n
  let mt := (List.range n).any fun i => spPoison c (a + i)
  let (ob, ot) := atomOperand g k o.d.toNat L
  let c := match atomResult k (leNat m) mt ob ot with
    | some (y, t) => spPut c a (leBytes n y) fun _ => t
    | none => c
  let x := match k with
    | .red .. => x
    | _ => ((loadWords m (m.map fun _ => mt) false).zipIdx).foldl (fun x (w, i) => wrV x (o.d.toNat + i) L w) x
  (c, x)

def spAtom (k : ReqKind) (o : MForm) (s : State) (g : Group) (act : Word) : State :=
  let n := atomBytes k.ac
  match spTrap s g o n act <|> clobberTrap s g o n act with
  | some t => raise s t
  | none =>
    s.spRelease g act (ordRel o.ord) fun s =>
      let (c, x) := eachLane act (spAtomLane s g o k) (s.cores, g)
      ({ s with cores := c }).onGroup s.cur.gid fun _ => x.advance s.cur 0

/-- Check 6 for an atomic (R14, R221): non-cacheable memory, local or a peer's, needs `.far`. -/
def attributeTrap (far : Bool) (as : List Acc) : Option TrapReq :=
  (as.find? fun a => !far && a.place.uncached).map fun a => addrTrap 0x0E a.lane a.va

/-- Classes in which a RED counts (R114, R231). -/
def redClass (a : Acc) : EClass :=
  match a.place with
  | .peer .. => .F
  | _ => .A

/-- The requests of a global atomic, in ascending lane order (R222). -/
def putAtoms (k : ReqKind) (o : MForm) (ops : EClass → Option Nat) (s : State) (g : Group) (as : List Acc) : State :=
  as.foldl (fun s a =>
    let (ob, ot) := atomOperand g k o.d.toNat a.lane
    let s := match a.place with
      | .line l _ => s.l1Drop g.core l
      | _ => s
    let op := match k with
      | .red .. => ops (redClass a)
      | _ => none
    let gone := match a.place with
      | .peer n _ _ => !s.reachable n
      | _ => false
    if gone then (match op with
      | some id => (s.opFail id a.lane 0x04 a.va).opDone id
      | none => s)
    else
      let r := baseReq g s.cur a k (atomBytes k.ac) o.d.toNat
      s.putReq g a { r with bytes := ob, tags := ot, acq := ordAcq o.ord, rel := ordRel o.ord, scope := o.sc, op := op }
        (atomDest k o.d.toNat)) s

/-- A global ATOM or CAS. -/
def glAtom (k : ReqKind) (o : MForm) (s : State) (g : Group) (act : Word) : State :=
  match glTrap g o (atomBytes k.ac) act with
  | some t => raise s t
  | none =>
    s.withAccess g act .write false (globalAddr g o) fun as =>
      match attributeTrap o.far as <|> poisonStore s.free as (fun L => (atomOperand g k o.d.toNat L).2.any id) with
      | some t => raise s t
      | none => ((putAtoms k o (fun _ => none) s g as).bumpSeq g.gid).go 0

/-- A class that a RED reaches is full (R117). -/
def State.redFull (s : State) (g : Group) (as : List Acc) : Bool := as.any fun a => !s.room g.gid (redClass a)

/-- A global RED: one operation a class (R114), not ready while a class it reaches is full (R117). -/
def glRed (k : ReqKind) (o : MForm) (s : State) (g : Group) (act : Word) : State :=
  match glTrap g o (atomBytes k.ac) act with
  | some t => raise s t
  | none =>
    s.withAccess g act .write true (globalAddr g o) fun as =>
      match attributeTrap o.far as <|> poisonStore s.free as (fun L => (atomOperand g k o.d.toNat L).2.any id) with
      | some t => raise s t
      | none =>
        let inA := (as.filter fun a => redClass a = .A).length
        let inF := (as.filter fun a => redClass a = .F).length
        if s.redFull g as then s
        else
          let (a, s) := if inA = 0 then (none, s) else let (n, s) := s.newOp g .A .red []; (some n, s.opLeft n inA)
          let (f, s) := if inF = 0 then (none, s) else let (n, s) := s.newOp g .F .red []; (some n, s.opLeft n inF)
          ((putAtoms k o (fun c => if c = .A then a else f) s g as).bumpSeq g.gid).go 0

def execAtom (op : AtomOp) (o : MForm) (s : State) : Out :=
  execWord (.atom op o) false o.g
    (if o.sp then spAtom (.atom op o.ac.toNat) o else glAtom (.atom op o.ac.toNat) o) s

def execRed (op : AtomOp) (o : MForm) (s : State) : Out :=
  execWord (.red op o) false o.g
    (if o.sp then spAtom (.red op o.ac.toNat) o else glRed (.red op o.ac.toNat) o) s

def execCas (o : MForm) (s : State) : Out :=
  execWord (.cas o) false o.g
    (if o.sp then spAtom (.cas o.ac.toNat) o else glAtom (.cas o.ac.toNat) o) s

/-! YIELD.W (R176). -/

def yieldWEffect (o : MForm) (s : State) (g : Group) (act : Word) : State :=
  let size := acSize o.ac.toNat
  match misalignedGlobal g o size act with
  | some t => raise s t
  | none =>
    s.withAccess g act .read false (globalAddr g o) fun as =>
      match firstTrap act fun L =>
          if (mBaseVal g o true L).tag || (rdVs g o.d.toNat (memRegs o.ac.toNat) L).tag
          then some (addrTrap 0x07 L (globalAddr g o L)) else none with
      | some t => raise s t
      | none =>
        let s' := as.foldl (fun s a => s.putReq g a (baseReq g s.cur a .poll size o.d.toNat) []) s
        (s'.bumpSeq g.gid).onGroup s.cur.gid fun x =>
          mapLanes x fun L ln =>
            if bitOf s.cur.lanes L then { ln with wait := .poll } else ln

def execYieldW (o : MForm) (s : State) : Out := execWord (.yieldW o) false o.g (yieldWEffect o) s

end Sys2Proof.Machine
end

