-- ==== Sys2Proof/Machine/Sync.lean ====
section
/-! DEFINITION. Gates (R232 to R236), locks (R237 to R240), the team barrier (R241), acquisition of
registers and tiles (R36 to R39, R242), and fences (R108, R243). -/

namespace Sys2Proof.Machine

/-! Gates. -/

/-- Poison in the D operand of a gate word (R232). -/
def poisonD (g : Group) (o : MForm) (w : Nat) (act : Word) : Option TrapReq :=
  firstTrap act fun L => if (rdVs g o.d.toNat w L).tag then some (addrTrap 0x07 L (wrapNat (spOffset g o L) 64)) else none

/-- Checks 3 to 5 of a gate word with `w` D registers to read (R221, R232). -/
def gateTrap (s : State) (g : Group) (o : MForm) (w : Nat) (act : Word) : Option TrapReq :=
  (firstTrap act fun L =>
    if (mBaseVal g o false L).tag || (w ≠ 0 && (rdVs g o.d.toNat w L).tag)
    then some (addrTrap 0x07 L (wrapNat (spOffset g o L) 64)) else none)
  <|> scratchTrap g o 16 (teamSize s g) act

/-- Check 7: every gate named is live (R232). -/
def liveTrap (s : State) (g : Group) (o : MForm) (act : Word) : Option TrapReq :=
  firstTrap act fun L =>
    if gateLive s.cores (spPhys s g (offN g o L)) then none else some (addrTrap 0x10 L (offN g o L))

/-- The lanes that wait on gates of the group's team test their conditions (R233, R235). -/
def wakeLanes (s : State) (g : Group) : State :=
  match s.team? g.team with
  | some t => wakeGate s t
  | none => s

/-- GATE.INIT (R233). -/
def gateInitEffect (o : MForm) (s : State) (g : Group) (act : Word) : State :=
  match gateTrap s g o 1 act with
  | some t => raise s t
  | none =>
    let c := eachLane act (fun c L => gateInitAt c (spPhys s g (offN g o L)) (rdV g o.d.toNat L).val.toNat) s.cores
    wakeLanes ({ s with cores := c }.go 0) g

def execGateInit (o : MForm) (s : State) : Out := execWord (.gateInit o) false o.g (gateInitEffect o) s

/-- Lanes in ascending order on the gates, each seeing the ones below it; the trap of the lowest lane whose gate is
not live or that may not act (check 7). -/
def gateLanes (s : State) (g : Group) (o : MForm) (f : Cores → Nat → Nat → Option Cores) :
    List Nat → Cores → Except TrapReq Cores
  | [], c => .ok c
  | L :: Ls, c =>
    let a := spPhys s g (offN g o L)
    match (if gateLive s.cores a then f c a (rdV g o.d.toNat L).val.toNat else none) with
    | some c => gateLanes s g o f Ls c
    | none => .error (addrTrap 0x10 L (offN g o L))

/-- GATE.EXPECT of one lane (R232, R234). -/
def expectLane (c : Cores) (a n : Nat) : Option Cores :=
  let g := gateRead c a
  if g.expect + n > 0xFFFFFFFF then none else some (gateWrite c a { g with expect := g.expect + n })

/-- GATE.ARRIVE of one lane (R232, R234). -/
def arriveLane (c : Cores) (a n : Nat) : Option Cores :=
  let g := gateRead c a
  if g.arrived + n > g.expect then none else some (gateArriveAt c a n).1

def gateExpectEffect (o : MForm) (s : State) (g : Group) (act : Word) : State :=
  match gateTrap s g o 1 act with
  | some t => raise s t
  | none => match gateLanes s g o expectLane (lanesOf act) s.cores with
    | .error t => raise s t
    | .ok c => { s with cores := c }.go 0

def execGateExpect (o : MForm) (s : State) : Out := execWord (.gateExpect o) false o.g (gateExpectEffect o) s

/-- GATE.ARRIVE is a release at `.t` (R101, R105): it waits until it is performed. -/
def gateArriveEffect (o : MForm) (s : State) (g : Group) (act : Word) : State :=
  match gateTrap s g o 1 act with
  | some t => raise s t
  | none => match gateLanes s g o arriveLane (lanesOf act) s.cores with
    | .error t => raise s t
    | .ok c => s.spRelease g act true fun s => wakeLanes ({ s with cores := c }.go 0) g

def execGateArrive (o : MForm) (s : State) : Out := execWord (.gateArrive o) false o.g (gateArriveEffect o) s

/-- GATE.PEEK (R236). -/
def gatePeekEffect (o : MForm) (s : State) (g : Group) (act : Word) : State :=
  match gateTrap s g o 0 act <|> liveTrap s g o act with
  | some t => raise s t
  | none => s.onGroup s.cur.gid fun x =>
      (eachLane act (fun (x : Group) L =>
        let t := gateRead s.cores (spPhys s g (offN g o L))
        wrV (wrV x o.d.toNat L ⟨BitVec.ofNat 32 t.arrived, false⟩) (o.d.toNat + 1) L
          ⟨if t.phase then 1 else 0, false⟩) x).advance s.cur 0

def execGatePeek (o : MForm) (s : State) : Out := execWord (.gatePeek o) false o.g (gatePeekEffect o) s

/-- The lane's condition: the phase differs from its parity (R235). -/
def gateOpen (s : State) (g : Group) (o : MForm) (L : Nat) : Bool :=
  (gateRead s.cores (spPhys s g (offN g o L))).phase ≠ (rdV g o.d.toNat L).val.getLsbD 0

/-- GATE.WAIT: each lane leaves by its own condition (R235). -/
def gateWaitEffect (o : MForm) (s : State) (g : Group) (act : Word) : State :=
  match gateTrap s g o 1 act <|> liveTrap s g o act with
  | some t => raise s t
  | none =>
    let stay := maskOf fun L => bitOf act L && !gateOpen s g o L
    s.onGroup s.cur.gid fun x => (x.advance s.cur stay).await s.cur stay fun L =>
      .gate (offN g o L) ((rdV g o.d.toNat L).val.getLsbD 0) none

def execGateWait (o : MForm) (s : State) : Out := execWord (.gateWait o) false o.g (gateWaitEffect o) s

/-- GATE.WAIT.LIM: a limit of 0 tests the gate once (R235). -/
def gateWaitLimEffect (o : MForm) (s : State) (g : Group) (act : Word) : State :=
  match gateTrap s g o 2 act <|> liveTrap s g o act with
  | some t => raise s t
  | none =>
    let d := o.d.toNat
    let lim := fun L => (rdV g (d + 1) L).val.toNat
    let stay := maskOf fun L => bitOf act L && !gateOpen s g o L && decide (lim L ≠ 0)
    s.onGroup s.cur.gid fun x =>
      let x := eachLane (act &&& ~~~stay) (fun x L => wrV x (d + 1) L ⟨if gateOpen s g o L then 1 else 0, false⟩) x
      (x.advance s.cur stay).await s.cur stay fun L =>
        .gate (offN g o L) ((rdV g d L).val.getLsbD 0) (some (s.tickOf g + lim L, d + 1))

def execGateWaitLim (o : MForm) (s : State) : Out := execWord (.gateWaitLim o) false o.g (gateWaitLimEffect o) s

/-- GATE_WAIT_DEADLINE (R235): the lanes of the agent's group whose deadline has come leave; those of a recorded or
replayed task do so at the group's turn (R386). -/
def doGateWaitDeadline (s : State) : State :=
  match s.group? s.cur.gid with
  | none => s
  | some g => match s.team? g.team, s.serialOf g.grid with
    | some t, none => s.onGroup g.gid (s.testGates t)
    | _, _ => s

def execGateWaitDeadline (s : State) : Out := .next (doGateWaitDeadline s)

/-! Locks. -/

/-- Check 6 for a lock word: cacheable memory, local or in a peer window (R237). -/
def lockTrap (as : List Acc) : Option TrapReq :=
  (as.find? fun a => a.place.uncached || (match a.place with
    | .host _ => true
    | _ => false)).map fun a => addrTrap 0x0E a.lane a.va

/-- Send the requests of a LOCK or UNLOCK; some lanes of the path wait for the answers, the others go on. -/
def putLocks (k : ReqKind) (w : Wait) (o : MForm) (s : State) (g : Group) (stay : Word) (as : List Acc) : State :=
  let s' := as.foldl (fun s a =>
    s.putReq g a { baseReq g s.cur a k 4 0 with scope := o.sc, acq := (match k with
      | .lock => true
      | _ => false) } []) s
  (s'.bumpSeq g.gid).onGroup s.cur.gid fun x => (x.advance s.cur stay).await s.cur stay fun _ => w

/-- LOCK (R238). -/
def lockEffect (o : MForm) (s : State) (g : Group) (act : Word) : State :=
  match glTrap g o 4 act with
  | some t => raise s t
  | none => s.withAccess g act .write false (globalAddr g o) fun as =>
      match lockTrap as with
      | some t => raise s t
      | none => putLocks .lock .lock o s g act as

def execLock (o : MForm) (s : State) : Out := execWord (.lock o) false o.g (lockEffect o) s

/-- UNLOCK (R239): the release first; until it is performed the path stays, and then until it completes. -/
def unlockEffect (o : MForm) (s : State) (g : Group) (act : Word) : State :=
  match glTrap g o 4 act with
  | some t => raise s t
  | none => s.withAccess g act .write false (globalAddr g o) fun as =>
      match lockTrap as with
      | some t => raise s t
      | none =>
        if s.allPerformed g act o.sc then putLocks .unlock .unlock o (s.clearMarks g.gid o.sc) g s.cur.lanes as
        else s

def execUnlock (o : MForm) (s : State) : Out := execWord (.unlock o) false o.g (unlockEffect o) s

/-- The requester of a peer's LOCK or UNLOCK. -/
def inboundLocker (r : Inbound) : Option Locker :=
  match r.op with
  | .lock c d g L | .unlock c d g L => some ⟨r.src, c, d, g, L⟩
  | _ => none

/-- A peer's requester is answered, if its request still waits. -/
def State.answerLocker (s : State) (w : Locker) (ans : PeerAnswer) : State :=
  match s.fab.filter.find? fun f => f.src = w.pkg && f.ans.isNone && f.req.bind inboundLocker = some w with
  | some f => s.answerPeer f.src f.seq ans
  | none => s

/-- An answer to a requester: a lane of this package, or a peer's (R237). -/
def State.answerLock (s : State) (w : Locker) (a : LockAns) (va : Nat) : State :=
  if w.pkg = s.fab.self % 1024 then
    { s with mem := { s.mem with lockAns := s.mem.lockAns ++ [⟨w.gid, w.lane, a, va⟩] } }
  else s.answerLocker w (match a with
    | .granted | .acked => PeerAnswer.done 0 0
    | .owner => .owner
    | .notOwner => .notOwner)

/-- The unit writes the lock word (R237): an ordinary write, held under R80. -/
def State.lockWord (s : State) (l : LineId) (ofs x : Nat) : State :=
  let w : WriteOp :=
    { place := .line l ofs, bytes := leBytes 4 x, tags := [], marker := none, cleared := none, req := none
      op := none, peer := none, res := ((s.line? l).map (·.res)).getD 3, maint := none, after := none }
  s.arrive l w ⟨none, none⟩

def State.lockRec (s : State) (l : LineId) (ofs : Nat) : Option LockRec :=
  s.mem.locks.find? fun r => r.line = l && r.ofs = ofs

def State.onLock (s : State) (l : LineId) (ofs : Nat) (f : LockRec → LockRec) : State :=
  let m := s.mem.locks.map fun r => if r.line = l && r.ofs = ofs then f r else r
  { s with mem := { s.mem with locks := m } }

/-- Records and waiter entries in use at a slice (R237). -/
def State.lockUse (s : State) (slice : Nat) : Nat × Nat :=
  let rs := s.mem.locks.filter fun r => homeSlice r.line = slice
  (rs.length, (rs.map fun r => r.queue.length).foldl (· + ·) 0)

/-- A LOCK request at the unit (R238); one that finds no record or entry free waits at the slice. -/
def State.lockAt (s : State) (l : LineId) (ofs : Nat) (w : Locker) (va : Nat) : State :=
  let (recs, waits) := s.lockUse (homeSlice l)
  match s.lockRec l ofs with
  | none =>
    if recs < 1024 then
      let rec_ : LockRec := ⟨l, ofs, w, []⟩
      let s := { s with mem := { s.mem with locks := s.mem.locks ++ [rec_] } }
      (s.lockWord l ofs 1).answerLock w .granted 0
    else { s with mem := { s.mem with lockWait := s.mem.lockWait ++ [(l, ofs, w)] } }
  | some r =>
    if r.holder = w then s.answerLock w .owner va
    else if waits < 8192 then s.onLock l ofs fun r => { r with queue := r.queue ++ [w] }
    else { s with mem := { s.mem with lockWait := s.mem.lockWait ++ [(l, ofs, w)] } }

/-- The unit has what a request that waits at its slice needs. -/
def State.lockRoom (s : State) (x : LineId × Nat × Locker) : Bool :=
  let (recs, waits) := s.lockUse (homeSlice x.1)
  match s.lockRec x.1 x.2.1 with
  | none => decide (recs < 1024)
  | some r => r.holder = x.2.2 || decide (waits < 8192)

/-- After records or entries are freed, the requests that wait at the slice and now find one are taken, in arrival
order; the others keep their places (R238). -/
def State.lockFreed (s : State) (slice : Nat) : State :=
  (s.mem.lockWait.filter fun x => homeSlice x.1 = slice).foldl (fun s x =>
    if s.lockRoom x then ({ s with mem := { s.mem with lockWait := s.mem.lockWait.erase x } }).lockAt x.1 x.2.1 x.2.2 0
    else s) s

/-- The lock leaves its holder (R239, R240). -/
def State.lockPass (s : State) (l : LineId) (ofs : Nat) : State :=
  match s.lockRec l ofs with
  | none => s
  | some r => match r.queue with
    | [] =>
      let s := { s with mem := { s.mem with locks := s.mem.locks.filter fun x => !(x.line = l && x.ofs = ofs) } }
      (s.lockWord l ofs 0).lockFreed (homeSlice l)
    | w :: ws =>
      let s := s.onLock l ofs fun r => { r with holder := w, queue := ws }
      ((s.lockWord l ofs 1).answerLock w .granted 0).lockFreed (homeSlice l)

/-- An UNLOCK request at the unit (R239). -/
def State.unlockAt (s : State) (l : LineId) (ofs : Nat) (w : Locker) (va : Nat) : State :=
  match s.lockRec l ofs with
  | some r => if r.holder = w then (s.answerLock w .acked 0).lockPass l ofs else s.answerLock w .notOwner va
  | none => s.answerLock w .notOwner va

/-- The requester of a request (R237). -/
def State.locker (s : State) (r : Req) : Locker :=
  ⟨s.fab.self % 1024, r.ctx, ((s.group? r.gid).map (·.grid)).getD 0, r.gid, r.lane⟩

/-- A request of a kind that may be served at its home slice. -/
def canLockReq (id : Nat) (s : State) (unlock : Bool) : Option (Req × LineId × Nat) :=
  match s.req? id with
  | some r => match r.place with
    | .line l ofs =>
      let mine := match r.kind with
        | .lock => !unlock
        | .unlock => unlock
        | _ => false
      if mine && !s.reqWaits r then some (r, l, ofs) else none
    | _ => none
  | none => none

/-- LOCK_REQUEST (R238). -/
def doLockRequest (id : Nat) (s : State) : State :=
  match canLockReq id s false with
  | some (r, l, ofs) => (s.dropReq id).lockAt l ofs (s.locker r) r.va
  | none => s

def execLockRequest (id : Nat) (s : State) : Out := .next (doLockRequest id s)

/-- UNLOCK_REQUEST (R239). -/
def doUnlockRequest (id : Nat) (s : State) : State :=
  match canLockReq id s true with
  | some (r, l, ofs) => (s.dropReq id).unlockAt l ofs (s.locker r) r.va
  | none => s

def execUnlockRequest (id : Nat) (s : State) : Out := .next (doUnlockRequest id s)

/-- The first answer for a lane. -/
def State.lockAnswer (s : State) (gid L : Nat) : Option LockAnswer :=
  s.mem.lockAns.find? fun a => a.gid = gid && a.lane = L

def State.dropAnswer (s : State) (a : LockAnswer) : State :=
  { s with mem := { s.mem with lockAns := s.mem.lockAns.erase a } }

/-- LOCK_GRANT (R238): the agent lane's LOCK completes as an acquire; the core fetches afresh (R444). -/
def doLockGrant (s : State) : State :=
  match s.lockAnswer s.cur.gid s.cur.lane, s.group? s.cur.gid with
  | some a, some g =>
    if a.ans = .granted then
      let s := (s.dropAnswer a).freshFetch g.core g.pasid
      if (g.lane a.lane).wait = .lock then s.onGroup g.gid fun g => g.leave (1#32 <<< a.lane) else s
    else s
  | _, _ => s

/-- The lanes of a recorded or replayed task test their conditions at their group's turn alone (R386). -/
def execLockGrant (s : State) : Out := .next (if (s.serialOfGroup s.cur.gid).isSome then s else doLockGrant s)

/-- Take some requesters' entries out of the queues (R240); what they free is taken by those that wait. -/
def State.withdrawEntries (s : State) (mine : Locker → Bool) : State :=
  let s : State := { s with mem := { s.mem with
    locks := s.mem.locks.map fun (r : LockRec) => { r with queue := r.queue.filter fun w => !mine w }
    lockWait := s.mem.lockWait.filter fun x => !mine x.2.2 } }
  (s.mem.lockWait.map fun x => homeSlice x.1).eraseDups.foldl (fun s k => s.lockFreed k) s

/-- Take a lane's entry out of the queues. -/
def State.withdrawLane (s : State) (gid L : Nat) : State :=
  s.withdrawEntries fun w => w.pkg = s.fab.self % 1024 && w.gid = gid && w.lane = L

/-- A request is at a peer. -/
def Req.away (r : Req) : Bool :=
  match r.place with
  | .peer .. => true
  | _ => false

def ReqKind.isLock : ReqKind → Bool
  | .lock => true
  | _ => false

def ReqKind.isUnlock : ReqKind → Bool
  | .unlock => true
  | _ => false

/-- The LOCK request of a lane that has not been answered. -/
def State.lockReq (s : State) (g : Group) (L : Nat) : Option Req :=
  s.eng.reqs.find? fun r => r.gid = g.gid && r.lane = L && r.pc = (g.lane L).pc && r.kind.isLock

/-- The lanes still queued at a word are withdrawn, as at a halt (R238); those that wait at a peer are withdrawn by the
halt itself. -/
def State.withdrawQueued (s : State) (g : Group) (pc : BitVec 64) : State :=
  let qs := maskOf fun L => (g.lane L).pc = pc && (g.lane L).wait = .lock && (s.lockAnswer g.gid L).isNone
    && (s.lockReq g L).isNone
  let s := (lanesOf qs).foldl (fun s L => s.withdrawLane g.gid L) s
  s.onGroup g.gid fun x => x.setWait qs .none

/-- LOCK requests of a group's lanes at a word that no unit of this package has answered or queued yet. -/
def State.lockOut (s : State) (gid : Nat) (pc : BitVec 64) : Bool :=
  s.eng.reqs.any fun r => r.gid = gid && r.pc = pc && r.kind.isLock && !r.away

/-- The lanes told "owner" or "not owner" at a word raise the lock-owner trap, which names the lowest of them, and inside a
repeat prefix the repeated word (R155). -/
def State.lockOwnerTrap (s : State) (g : Group) (pc : BitVec 64) : State :=
  let bad := s.mem.lockAns.filter fun b => b.gid = g.gid && (b.ans = .owner || b.ans = .notOwner)
    && (g.lane b.lane).pc = pc
  let m := maskOf fun L => bad.any fun b => b.lane = L
  if m = 0 then s
  else
    let va := ((bad.find? fun b => b.lane = lowest m).map (·.va)).getD 0
    let s := { s with mem := { s.mem with lockAns := s.mem.lockAns.filter fun b => !bad.contains b } }
    let s := s.onGroup g.gid fun x => x.setWait m .none
    takeTrap (s.withdrawQueued g pc) g.gid (addrTrap 0x11 (lowest m) va) ((g.lane (lowest m)).wordPc pc)

/-- UNLOCK completes once every request of its word is answered (R239): the lanes go on, but for those told "not owner",
which stay, the inactive lanes with them. -/
def State.unlockDone (s : State) (g : Group) (pc : BitVec 64) : State :=
  if s.eng.reqs.any fun r => r.gid = g.gid && r.pc = pc && r.kind.isUnlock then s
  else
    let here := fun L => (g.lane L).pc = pc && (g.lane L).wait = .unlock && !(g.lane L).exited
    let told := fun (a : LockAns) L => s.mem.lockAns.any fun b => b.gid = g.gid && b.lane = L && b.ans = a
    let bad := (List.range 32).any fun L => here L && told .notOwner L
    let go := maskOf fun L => here L && (!bad || told .acked L)
    let s := { s with mem := { s.mem with
      lockAns := s.mem.lockAns.filter fun b => !(b.gid = g.gid && b.ans = LockAns.acked && here b.lane) } }
    let s := s.onGroup g.gid fun x => (x.leave go).setWait (maskOf fun L => here L && !bitOf go L) .none
    s.lockOwnerTrap g pc

/-- LOCK_UNIT_ANSWER (R238, R239): UNLOCK's answers count once they are all there; once every LOCK request of the word
has been answered or queued, the lanes told "owner" trap. -/
def doLockUnitAnswer (s : State) : State :=
  match s.lockAnswer s.cur.gid s.cur.lane, s.group? s.cur.gid with
  | some a, some g =>
    let pc := (g.lane a.lane).pc
    match a.ans with
    | .acked | .notOwner => s.unlockDone g pc
    | .owner => if s.lockOut g.gid pc then s else s.lockOwnerTrap g pc
    | .granted => s
  | _, _ => s

def execLockUnitAnswer (s : State) : Out := .next (doLockUnitAnswer s)

/-- The withdrawal of a LOCK goes to its peer, once; the LOCK's own answer says what came of it (R240). -/
def State.withdrawAway (s : State) (r : Req) : State :=
  match r.place with
  | .peer k _ _ => if s.fab.out.any fun f => f.work = .withdraw r.id then s else s.sendPeer k (.withdraw r.id)
  | _ => s

/-- LOCK_WITHDRAWAL_ANSWER (R240): the slice answers the withdrawal of a halting group's waiting lane: its
queue entry is taken out and the lane stays at the LOCK, or the grant had come and the lane is past it. A
lane whose lock is a peer's hears from the fabric. -/
def doLockWithdrawalAnswer (s : State) : State :=
  let L := s.cur.lane
  match s.group? s.cur.gid with
  | none => s
  | some g =>
    let halting := match g.halt with
      | .halting _ => true
      | _ => false
    if !halting || (g.lane L).wait ≠ .lock then s
    else match s.lockAnswer g.gid L with
      | some a =>
        if a.ans = .granted then
          ((s.dropAnswer a).freshFetch g.core g.pasid).onGroup g.gid fun x => x.leave (1#32 <<< L)
        else s
      | none => match s.lockReq g L with
        | some r =>
          if r.away then s.withdrawAway r
          else (s.dropReq r.id).onGroup g.gid fun x => x.setWait (1#32 <<< L) .none
        | none => (s.withdrawLane g.gid L).onGroup g.gid fun x => x.setWait (1#32 <<< L) .none

def execLockWithdrawalAnswer (s : State) : Out := .next (doLockWithdrawalAnswer s)

/-- Free every lock whose holder a predicate names, as an UNLOCK without a release (R240). -/
def State.freeLocks (s : State) (p : Locker → Bool) : State :=
  (s.mem.locks.filter fun r => p r.holder).foldl (fun s r => s.lockPass r.line r.ofs) s

/-- PEER_LOCK_RELEASE (R240): a peer has retired a grid whose lanes hold locks here. -/
def doPeerLockRelease (pkg grid : Nat) (s : State) : State :=
  s.freeLocks fun w => w.pkg = pkg && w.grid = grid && pkg ≠ s.fab.self % 1024

def execPeerLockRelease (pkg grid : Nat) (s : State) : Out := .next (doPeerLockRelease pkg grid s)

/-! The team barrier (R241). -/

/-- The groups of a team that have not ended. -/
def State.live (s : State) (team : Nat) : List Group := s.groups.filter fun g => g.team = team && !g.ended

/-- Complete the team's barrier when every group that has not ended has reached it. -/
def State.checkBarrier (s : State) (team : Nat) : State :=
  match s.team? team with
  | none => s
  | some t =>
    let gs := s.live team
    if gs.isEmpty || !(gs.all fun g => decide (t.barrier < g.barriers) && g.atBarrier) then s
    else
      let s := s.onTeam team fun t => { t with barrier := t.barrier + 1 }
      { s with groups := s.groups.map fun g =>
          if g.team = team && !g.ended then
            { g.goOn (maskOf fun L => (g.lane L).wait = .barrier) ((s.side (sideKey g.core g.side)).cycle + 32) with
              atBarrier := false }
          else g }

/-! Acquisition (R36, R37, R39, R242). -/

/-- Limits of R37. -/
def AcqKind.limit : AcqKind → Nat
  | .blk => 6 | .opt => 16 | .acc => 8

/-- Units that a group holds. -/
def Group.holds (g : Group) : AcqKind → Nat
  | .blk => g.h | .opt => g.j | .acc => g.m

/-- Units that the kernel declares for each group. -/
def Kernel.units (k : Kernel) : AcqKind → Nat
  | .blk => k.blocks | .opt => k.optiles | .acc => k.acctiles

/-- The team's share of a kind on a side (R36, R375). -/
def State.share (s : State) (t : Team) (side : Nat) (k : AcqKind) : Nat :=
  let n := (s.groups.filter fun g => g.team = t.id && g.side = side).length
  ((s.grid? t.grid).map fun d => d.kernel.units k * n).getD 0

/-- What is free of the share. -/
def State.freeUnits (s : State) (t : Team) (side : Nat) (k : AcqKind) : Nat :=
  s.share t side k
    - ((s.groups.filter fun g => g.team = t.id && g.side = side && !g.ended).map fun g => g.holds k).foldl (· + ·) 0

/-- The granted units: registers 0 with a new generation, tiles empty, accumulators 0.0 (R37, R40). -/
def Group.gain (g : Group) (k : AcqKind) (n fresh : Nat) : Group :=
  match k with
  | .blk =>
    let lo := 64 + 32 * g.h
    let hi := 64 + 32 * (g.h + n)
    { g.both fun g => { g with v := g.v.filter fun (r, _) => !(decide (32 * lo ≤ r) && decide (r < 32 * hi)) } with
      h := g.h + n
      blkGen := (List.range n).foldl (fun m i => sset 0 m (g.h + i) fresh) g.blkGen }
  | .opt => { g with t := g.t.filter fun (i, _) => !(decide (g.j ≤ i) && decide (i < g.j + n)), j := g.j + n }
  | .acc =>
    { g with a := g.a.filter fun (i, _) => !(decide (1024 * g.m ≤ i) && decide (i < 1024 * (g.m + n))), m := g.m + n }

/-- The highest-numbered units are released (R37). -/
def Group.lose (g : Group) (k : AcqKind) (n : Nat) : Group :=
  match k with
  | .blk => { g with h := g.h - n }
  | .opt => { g with j := g.j - n }
  | .acc => { g with m := g.m - n }

/-- The request at the head of a side's queue. -/
def Team.head (t : Team) (side : Nat) : Option AcqReq := t.acqQ.find? fun q => q.side = side

/-- The head of a side's queue can be granted. -/
def State.grantable (s : State) (t : Team) (side : Nat) : Bool :=
  match t.head side with
  | some q => decide (q.n ≤ s.freeUnits t side q.kind)
  | none => false

/-- A group is blocked in ACQ. -/
def Group.inAcq (g : Group) : Bool := g.lanes.any fun ln => !ln.exited && ln.wait = .acq

/-- Pool deadlock on a side (R39): the head request's group takes the trap and its ACQ has no effect. -/
def State.checkDeadlock (s : State) (team side : Nat) : State :=
  match s.team? team with
  | none => s
  | some t =>
    let gs := (s.live team).filter fun g => g.side = side
    let behind := fun (g : Group) => gs.any fun x => x.inAcq && decide (x.barriers < g.barriers)
    let stuck := gs.all fun g => g.inAcq || (g.atBarrier && behind g)
    match t.head side with
    | some q =>
      if stuck && !s.grantable t side then
        let s := s.onTeam team fun t => { t with acqQ := t.acqQ.filter (· ≠ q) }
        match s.group? q.gid with
        | some g =>
          let m := maskOf fun L => (g.lane L).wait = .acq
          takeTrap (s.onGroup q.gid fun g => g.setWait m .none) q.gid ⟨0x06, lowest m, 0, 0⟩
            ((g.lane (lowest m)).wordPc (g.lane (lowest m)).pc)
        | none => s
      else s
    | none => s

/-- BARRIER: an acquire-release at `.t` (R101): it waits until the release is performed, then counts. -/
def barrierEffect (s : State) (g : Group) (act : Word) : State :=
  s.spRelease g act true fun s =>
    let s := s.onGroup s.cur.gid fun x =>
      { x.await s.cur act (fun _ => .barrier) with barriers := x.barriers + 1, atBarrier := true }
    ((s.checkBarrier g.team).checkDeadlock g.team g.side)

def execBarrier (o : RForm) (s : State) : Out := execWord (.barrier o) true o.g barrierEffect s

/-- ACQ (R37, R242): the request is queued; ACQ_GRANT serves it. -/
def acqEffect (k : AcqKind) (n : Nat) (s : State) (g : Group) (act : Word) : State :=
  match s.team? g.team with
  | none => s
  | some t =>
    if g.holds k + n > k.limit || n > s.share t g.side k then raise s ⟨0x03, lowest act, n, 0⟩
    else
      let s := s.onTeam g.team fun t => { t with acqQ := t.acqQ ++ [⟨g.gid, g.side, k, n⟩] }
      (s.onGroup s.cur.gid fun x => x.await s.cur act fun _ => .acq).checkDeadlock g.team g.side

def execAcqBlk (o : RForm) (s : State) : Out := execWord (.acqBlk o) true o.g (acqEffect .blk o.c.toNat) s
def execAcqOpt (o : RForm) (s : State) : Out := execWord (.acqOpt o) true o.g (acqEffect .opt o.c.toNat) s
def execAcqAcc (o : RForm) (s : State) : Out := execWord (.acqAcc o) true o.g (acqEffect .acc o.c.toNat) s

/-- ACQ_GRANT may act: the head fits. -/
def canAcqGrant (team side : Nat) (s : State) : Option AcqReq :=
  match s.team? team with
  | some t => if s.grantable t side then t.head side else none
  | none => none

/-- The head of a team's requests on a side is granted (R37). -/
def State.acqGrant (s : State) (team side : Nat) : State :=
  match canAcqGrant team side s with
  | some q =>
    let s := s.onTeam team fun t => { t with acqQ := t.acqQ.filter (· ≠ q) }
    let (n, s) := s.fresh
    s.onGroup q.gid fun g => (g.gain q.kind q.n n).leave (maskOf fun L => (g.lane L).wait = .acq)
  | none => s

/-- ACQ_GRANT (R37); in a recorded or replayed task the request is tested at its group's turn (R386). -/
def doAcqGrant (team side : Nat) (s : State) : State :=
  if (s.team? team).any fun t => (s.serialOf t.grid).isSome then s else s.acqGrant team side

def execAcqGrant (team side : Nat) (s : State) : Out := .next (doAcqGrant team side s)

/-- REL (R37, R242). -/
def relEffect (k : AcqKind) (n : Nat) (s : State) (g : Group) (act : Word) : State :=
  if n > g.holds k then raise s ⟨0x03, lowest act, n, 0⟩
  else s.onGroup s.cur.gid fun g => (g.lose k n).advance s.cur 0

def execRelBlk (o : RForm) (s : State) : Out := execWord (.relBlk o) true o.g (relEffect .blk o.c.toNat) s
def execRelOpt (o : RForm) (s : State) : Out := execWord (.relOpt o) true o.g (relEffect .opt o.c.toNat) s
def execRelAcc (o : RForm) (s : State) : Out := execWord (.relAcc o) true o.g (relEffect .acc o.c.toNat) s

/-! Fences (R108, R243). -/

/-- The path waits until the fence is performed for every active lane (R243). -/
def fenceEffect (acq rel sc : Bool) (c : BitVec 8) (s : State) (_ : Group) (act : Word) : State :=
  let scope := (Scope.ofCode c.toNat).getD .h
  s.onGroup s.cur.gid fun x => x.await s.cur s.cur.lanes fun L =>
    if bitOf act L then .fence acq rel sc scope else .fence false false false scope

def execFenceAcq (o : RForm) (s : State) : Out := execWord (.fenceAcq o) false o.g (fenceEffect true false false o.c) s
def execFenceRel (o : RForm) (s : State) : Out := execWord (.fenceRel o) false o.g (fenceEffect false true false o.c) s
def execFenceAr (o : RForm) (s : State) : Out := execWord (.fenceAr o) false o.g (fenceEffect true true false o.c) s
def execFenceSc (o : RForm) (s : State) : Out := execWord (.fenceSc o) false o.g (fenceEffect true true true o.c) s

/-- A lane's fence is performed (R105, R108): the loads have returned, the stores are performed at the
scope, for FENCE.sc applied under R80 whatever the scope. -/
def fenceReady (s : State) (g : Group) (L : Nat) (acq rel sc : Bool) (scope : Scope) : Bool :=
  let loads := s.eng.reqs.all fun q => !(q.gid = g.gid && q.of L) || q.kind.isStore || q.kind.isRed
  (!acq || loads)
  && (!rel || s.performed g.gid L g.seq (if sc && decide (scope.code < 2) then .d else scope))

/-- The lanes that wait at the fence of a lane, the path's inactive lanes among them. -/
def fenceLanes (g : Group) (L : Nat) : Word :=
  maskOf fun K => !(g.lane K).exited && (g.lane K).pc = (g.lane L).pc && (match (g.lane K).wait with
    | .fence .. => true
    | _ => false)

/-- A lane that waits at a fence is ready by its own wait. -/
def fenceOver (s : State) (g : Group) (L : Nat) : Bool :=
  match (g.lane L).wait with
  | .fence acq rel sc scope => fenceReady s g L acq rel sc scope
  | _ => false

/-- A lane's fence is a release. -/
def fenceReleases (g : Group) (L : Nat) : Bool :=
  match (g.lane L).wait with
  | .fence _ rel .. => rel
  | _ => false

/-- FENCE_PERFORMED may act on the agent's group and lane. -/
def canFencePerformed (s : State) : Option (Group × Word × Bool × Scope) :=
  match s.group? s.cur.gid with
  | none => none
  | some g => match (g.lane s.cur.lane).wait with
    | .fence _ _ _ scope =>
      let m := fenceLanes g s.cur.lane
      if (lanesOf m).all fun K => fenceOver s g K then some (g, m, (lanesOf m).any fun K => fenceReleases g K, scope)
      else none
    | _ => none

/-- FENCE_PERFORMED (R108): the path continues; a release clears the group's marks (R111), and the words
that follow at `.d` or wider are fetched afresh (R444). -/
def doFencePerformed (s : State) : State :=
  match canFencePerformed s with
  | none => s
  | some (g, m, rel, scope) =>
    let s := if rel then s.clearMarks g.gid scope else s
    let s := if 2 ≤ scope.code then s.freshFetch g.core g.pasid else s
    s.onGroup g.gid fun x => x.leave m

def execFencePerformed (s : State) : Out := .next (if (s.serialOfGroup s.cur.gid).isSome then s else doFencePerformed s)

end Sys2Proof.Machine
end

