-- ==== Sys2Proof/Machine/Tiles.lean ====
section
/-! DEFINITION. Tiles and the matrix slice (R34, R64 to R67, R247 to R256). -/

namespace Sys2Proof.Machine

/-! Tile contents. -/

/-- Row `i` of an operand tile. -/
def Tile.row (t : Tile) (i : Nat) : List Byte := (List.range 64).map fun k => sget 0 t.bytes (64 * i + k)

/-- The scale vector of an operand tile. -/
def Tile.scaleVec (t : Tile) : List Byte := (List.range 128).map fun k => sget 0 t.scales k

/-- Write bytes of an operand tile. -/
def Tile.put (t : Tile) (a : Nat) (bs : List Byte) : Tile :=
  { t with bytes := (bs.zipIdx).foldl (fun m (b, k) => sset 0 m (a + k) b) t.bytes }

/-- Write scale bytes of an operand tile. -/
def Tile.putScales (t : Tile) (a : Nat) (bs : List Byte) : Tile :=
  { t with scales := (bs.zipIdx).foldl (fun m (b, k) => sset 0 m (a + k) b) t.scales }

/-- Set the tag of row `i`. -/
def Tile.tagRow (t : Tile) (i : Nat) (b : Bool) : Tile :=
  { t with rowTags := if b then t.rowTags ||| (1#32 <<< i) else t.rowTags &&& ~~~(1#32 <<< i) }

/-- The format tag of a type (R72). -/
def tagOf : Ty → Nat
  | .bf16 => 1 | .f16 => 2 | .e4m3 => 3 | .e5m2 => 4 | .mx4 => 5 | .i8 => 6 | _ => 0

/-! TLD and TST (R247, R248). -/

/-- The scratchpad offset of tile row `i` (R247). -/
def tileRowOff (g : Group) (o : MForm) (i : Nat) : Int :=
  if o.ubase then spOffset g o 0 + 64 * i else spOffset g o i

/-- Checks 3 to 5 of R221 over all rows, and over the scale vector where one moves (R248). -/
def tileTrap (s : State) (g : Group) (o : MForm) (mx : Bool) : Option TrapReq :=
  let off := tileRowOff g o
  let sv := spOffset g o 0 + 2048
  let size : Int := teamSize s g
  let at_ := fun (code L : Nat) (a : Int) => addrTrap code L (wrapNat a 64)
  let rows := List.range 32
  (rows.filterMap fun i => if (mBaseVal g o false i).tag then some (at_ 0x07 i (off i)) else none).head?
  <|> (rows.filterMap fun i => if off i % 64 ≠ 0 then some (at_ 0x09 i (off i)) else none).head?
  <|> (rows.filterMap fun i => if off i < 0 ∨ off i + 64 > size then some (at_ 0x0A i (off i)) else none).head?
  <|> (if mx && decide (sv + 128 > size) then some (at_ 0x0A 0 sv) else none)

/-- The tile that TLD loads (R248). -/
def tldTile (s : State) (g : Group) (o : MForm) : Tile :=
  let phys := fun (a : Int) => spPhys s g a.toNat
  let mx := decide (o.ac = 5)
  let sv := phys (spOffset g o 0 + 2048)
  let t : Tile := { emptyTile with fmt := o.ac.toNat }
  let t := if mx then t.putScales 0 (spBytes s.cores sv 128) else t
  (List.range 32).foldl (fun (t : Tile) i =>
    let a := phys (tileRowOff g o i)
    let bad := (List.range 16).any fun k => spPoison s.cores (a + 4 * k)
    (t.put (64 * i) (spBytes s.cores a 64)).tagRow i (bad || (mx && spPoison s.cores (sv + 4 * i)))) t

def tldEffect (o : MForm) (s : State) (g : Group) (_ : Word) : State :=
  match tileTrap s g o (o.ac = 5) with
  | some t => raise s t
  | none => s.onGroup s.cur.gid fun x => (wrT x o.d.toNat (tldTile s g o)).advance s.cur 0

def execTld (o : MForm) (s : State) : Out := execWord (.tld o) true o.g (tldEffect o) s

/-- Check 7 over the ranges that TST writes (R77, R248). -/
def tstClobber (s : State) (g : Group) (o : MForm) (mx : Bool) : Option TrapReq :=
  ((List.range 32).filterMap fun i =>
    let a := (tileRowOff g o i).toNat
    if meetsGate s.cores (spPhys s g a) 64 then some (addrTrap 0x0F i a) else none).head?
  <|> (let sv := (spOffset g o 0 + 2048).toNat
       if mx && meetsGate s.cores (spPhys s g sv) 128 then some (addrTrap 0x0F 0 sv) else none)

/-- The scratchpad after TST (R248). -/
def tstCores (s : State) (g : Group) (o : MForm) (t : Tile) : Cores :=
  let phys := fun (a : Int) => spPhys s g a.toNat
  let empty := t.fmt = 0
  let c := (List.range 32).foldl (fun c i =>
    let a := phys (tileRowOff g o i)
    if empty then spPut c a (List.replicate 64 0) fun _ => false
    else spPut c a (t.row i) fun _ => bitOf t.rowTags i) s.cores
  if t.fmt = 5 then spPut c (phys (spOffset g o 0 + 2048)) t.scaleVec fun k => bitOf t.rowTags (k / 4) else c

def tstEffect (o : MForm) (s : State) (g : Group) (_ : Word) : State :=
  let t := rdT g o.d.toNat
  let mx := t.fmt = 5 && o.ubase
  match tileTrap s g o mx <|> tstClobber s g o mx with
  | some t => raise s t
  | none =>
    if t.fmt = 5 && !o.ubase then raise s ⟨0x14, 0, 0, 0⟩
    else { s with cores := tstCores s g o t }.go 0

def execTst (o : MForm) (s : State) : Out := execWord (.tst o) true o.g (tstEffect o) s

/-! TZERO, MMA, MMAG (R250 to R252). -/

/-- Every element of an accumulator tile becomes 0, untagged (R250). -/
def zeroA (g : Group) (n : Nat) : Group :=
  { g with a := g.a.filter fun (k, _) => !(decide (1024 * n ≤ k) && decide (k < 1024 * (n + 1))) }

def execTzero (o : RForm) (s : State) : Out :=
  execWord (.tzero o) true o.g (fun s _ _ => s.onGroup s.cur.gid fun g => (zeroA g o.d.toNat).advance s.cur 0) s

/-- Elements of a row in the inner dimension (R64). -/
def innerOf (fmt : Nat) : Nat := if fmt = 1 || fmt = 2 then 32 else if fmt = 5 then 128 else 64

/-- R64 admits the pairing. -/
def pairing (a b : Nat) : Bool :=
  match a, b with
  | 1, 1 | 2, 2 | 5, 5 | 6, 6 => true
  | 3, 3 | 3, 4 | 4, 3 | 4, 4 => true
  | _, _ => false

/-- A block scale applied to an element (R54). -/
def scaled (code : Nat) (x : FVal) : FVal :=
  if code = 0xFF then .nan false
  else match x with
    | .fin n m e => .fin n m (e + code - 127)
    | v => v

/-- A row of floating-point elements (R251). -/
def floatRow (fmt : Nat) (row scales : List Byte) (i : Nat) : List FVal :=
  let byte := fun k => (row.getD k 0).toNat
  (List.range (innerOf fmt)).map fun k =>
    match fmt with
    | 1 => unpack fBF16 (byte (2 * k) + 256 * byte (2 * k + 1))
    | 2 => unpack fF16 (byte (2 * k) + 256 * byte (2 * k + 1))
    | 3 => unpack fE4M3 (byte k)
    | 4 => unpack fE5M2 (byte k)
    | _ => scaled (scales.getD (4 * i + k / 32) 0).toNat (unpack fE2M1 (byte (k / 2) >>> (4 * (k % 2)) % 16))

/-- A row of integer elements (R64). -/
def intRow (row : List Byte) : List Int := row.map fun b => natSext b.toNat 8

def signOf : FVal → Option Bool
  | .inf n => some n
  | _ => none

/-- The exact sum of finite values, over the exponent `b`. -/
def sumOver (b : Int) (xs : List FVal) : Int :=
  (xs.map fun x => match x with
    | .fin n m e => alignTo n m e b
    | _ => 0).foldl (· + ·) 0

/-- The lowest exponent of some finite values. -/
def lowExp (xs : List FVal) : Int :=
  xs.foldl (fun b x => match x with
    | .fin _ _ e => min b e
    | _ => b) 0

/-- An accumulator word and products to one rounding of their exact total (R65, R66). -/
def mmaTotal (c : Nat) (prods : List FVal) : Nat :=
  let all := unpack fF32 c :: prods
  if all.any isNan then fF32.nan
  else match (all.filterMap signOf) with
    | n :: ns => if ns.all (· = n) then fF32.sign n + fF32.infCode else fF32.nan
    | [] =>
      let b := lowExp all
      let x := sumOver b all
      if x = 0 then fF32.sign (all.all isNegZero)
      else (roundTo fF32 .rn (decide (x < 0)) x.natAbs b false).1

/-- Element (i, j) from a row of A and a row of B (R65, R66). -/
def mmaFloat (c : Nat) (a b : List FVal) : Nat := mmaTotal c (a.zipWith (fun x y => (mulV x y).1) b)

def mmaInt (c : Nat) (a b : List Int) : Nat :=
  wrapNat (c + (a.zipWith (· * ·) b).foldl (· + ·) 0) 32

/-- The A operand: a tile or the gather latch (R252). -/
structure AOperand where
  fmt : Nat
  rows : List (List Byte)
  scales : List Byte
  tags : Word
  deriving DecidableEq, Repr

def Tile.operand (t : Tile) : AOperand := ⟨t.fmt, (List.range 32).map t.row, t.scaleVec, t.rowTags⟩

/-- The accumulator after an MMA (R64 to R66), with its tags (R90). -/
def mmaResult (g : Group) (d : Nat) (a b : AOperand) : Group :=
  let tag := fun i j => (rdA g d i j).tag || bitOf a.tags i || decide (b.tags ≠ 0)
  let put := fun (f : Nat → Nat → Nat) =>
    (List.range 1024).foldl (fun x n =>
      wrA x d (n / 32) (n % 32) ⟨BitVec.ofNat 32 (f (n / 32) (n % 32)), tag (n / 32) (n % 32)⟩) g
  if a.fmt = 6 then
    let ra := a.rows.map intRow
    let rb := b.rows.map intRow
    put fun i j => mmaInt (rdA g d i j).val.toNat (ra.getD i []) (rb.getD j [])
  else
    let ra := (a.rows.zipIdx).map fun (r, i) => floatRow a.fmt r a.scales i
    let rb := (b.rows.zipIdx).map fun (r, i) => floatRow b.fmt r b.scales i
    put fun i j => mmaFloat (rdA g d i j).val.toNat (ra.getD i []) (rb.getD j [])

/-- The checksum of R67: an upset spoils it once or twice. A second mismatch leaves the accumulator, raises
a machine check and charges 256; each is logged (R403). -/
def mmaChecked (s : State) (g : Group) (f : Group → Group) : State :=
  let sk := sideKey g.core g.side
  let n := (s.side sk).upsets
  let s := s.onSide sk fun d =>
    { d with upsets := n - 2, matBusy := if n = 0 then d.matBusy else max d.matBusy d.cycle + 32 }
  let s := if n = 0 then s else (countEvent s sk g.slot 0x0B 1).log 10 LogAt.none 0
  if n < 2 then s.onGroup g.gid fun x => (f x).advance s.cur 0
  else
    let w : Who := ⟨some g.ctx, some g.gid⟩
    (((s.log 10 LogAt.none g.ctx).machineCheck w 0 LogAt.none).charge w 256).go 0

def execMma (o : RForm) (s : State) : Out :=
  execWord (.mma o) true o.g (fun s g _ =>
    let a := rdT g o.a.toNat
    let b := rdT g o.b.toNat
    if pairing a.fmt b.fmt then mmaChecked s g fun x => mmaResult x o.d.toNat a.operand b.operand
    else raise s ⟨0x14, 0, 0, 0⟩) s

/-- The gathered rows of MMAG (R252). -/
def gatherOperand (s : State) (g : Group) (fmt r : Nat) : AOperand :=
  let at_ := fun i => spPhys s g (rdV g r i).val.toNat
  { fmt := fmt
    rows := (List.range 32).map fun i => spBytes s.cores (at_ i) 64
    scales := []
    tags := maskOf fun i => (List.range 16).any fun k => spPoison s.cores (at_ i + 4 * k) }

/-- Checks 3 to 5 of the index operand of MMAG (R252). -/
def gatherTrap (s : State) (g : Group) (r : Nat) (act : Word) : Option TrapReq :=
  let x := fun L => (rdV g r L).val.toNat
  (firstTrap act fun L => if (rdV g r L).tag then some ⟨0x07, L, 0, 0⟩ else none)
  <|> (firstTrap act fun L => if x L % 64 ≠ 0 then some (addrTrap 0x09 L (x L)) else none)
  <|> (firstTrap act fun L => if x L + 64 > teamSize s g then some (addrTrap 0x0A L (x L)) else none)

def execMmag (o : RForm) (s : State) : Out :=
  execWord (.mmag o) true o.g (fun s g act =>
    match gatherTrap s g o.a.toNat act with
    | some t => raise s t
    | none =>
      let b := rdT g o.b.toNat
      let f := tagOf o.ty
      if pairing f b.fmt then
        mmaChecked s g fun x => mmaResult x o.d.toNat (gatherOperand s g f o.a.toNat) b.operand
      else raise s ⟨0x14, 0, 0, 0⟩) s

/-! TMASK and TDRAIN (R253 to R255). -/

/-- TMASK (R253). -/
def tmaskEffect (o : MForm) (s : State) (g : Group) (act : Word) : State :=
  let off := spOffset g o 0
  let a := spPhys s g off.toNat
  let here := fun (code : Nat) => addrTrap code (lowest act) (wrapNat off 64)
  if (mBaseVal g o false 0).tag then raise s (here 0x07)
  else if off % 128 ≠ 0 then raise s (here 0x09)
  else if off < 0 ∨ off + 256 > teamSize s g then raise s (here 0x0A)
  else match (List.range 64).find? fun k => spPoison s.cores (a + 4 * k) with
    | some k => raise s (addrTrap 0x07 (lowest act) (off.toNat + 4 * k))
    | none =>
      let b := spBytes s.cores a 256
      let word := fun k => BitVec.ofNat 32 (leNat ((b.drop (4 * k)).take 4))
      let mode := word 32
      if mode &&& 3 = 3 || mode &&& ~~~0x103#32 ≠ 0 || (b.drop 0x88).any (· ≠ 0) then raise s ⟨0x13, lowest act, 0, 0⟩
      else s.onGroup s.cur.gid fun x =>
        let rows := (List.range 32).foldl (fun m k => sset 0 m k (word k)) x.maskRows
        { x with maskRows := rows, maskMode := mode, maskFill := word 33 }.advance s.cur 0

def execTmask (o : MForm) (s : State) : Out := execWord (.tmask o) true o.g (tmaskEffect o) s

/-- What a drain does to element (i, j). -/
inductive DrainElem where
  | elem | fill | skip
  deriving DecidableEq, Repr

/-- The mask's verdict on an element for a store or an add-on-store (R255). -/
def drainElem (g : Group) (add : Bool) (i j : Nat) : DrainElem :=
  let mode := g.maskMode.toNat % 4
  if mode = 0 || bitOf (sget 0 g.maskRows i) j then .elem
  else if mode = 1 && !add then .fill else .skip

/-- ONCE returns MODE to 0 (R253, R255). -/
def maskOnce (g : Group) : Group :=
  if g.maskMode.getLsbD 8 then { g with maskMode := 0 } else g

/-- The value and tag of element `n` = 32 i + j of a drain; nothing where it is skipped. -/
def drainValue (g : Group) (d : Nat) (add : Bool) (n : Nat) : Option TW :=
  match drainElem g add (n / 32) (n % 32) with
  | .elem => some (rdA g d (n / 32) (n % 32))
  | .fill => some ⟨g.maskFill, false⟩
  | .skip => none

/-- A drain into the scratchpad, each element in turn (R76, R255). -/
def drainSp (g : Group) (d : Nat) (add : Bool) (ac a : Nat) (c : Cores) : Cores :=
  (List.range 1024).foldl (fun c n =>
    match drainValue g d add n with
    | none => c
    | some x =>
      let p := a + 4 * n
      if add then
        spPut c p (leBytes 4 (atomCompute .add ac (leNat (spBytes c p 4)) x.val.toNat)) fun _ => spPoison c p || x.tag
      else spPut c p (leBytes 4 x.val.toNat) fun _ => x.tag) c

/-- Checks of a drain to the scratchpad. -/
def drainSpTrap (s : State) (g : Group) (o : MForm) (act : Word) : Option TrapReq :=
  let off := spOffset g o 0
  let here := fun (code : Nat) => some (addrTrap code (lowest act) (wrapNat off 64))
  if (mBaseVal g o false 0).tag then here 0x07
  else if off % 128 ≠ 0 then here 0x09
  else if off < 0 ∨ off + 4096 > teamSize s g then here 0x0A
  else if meetsGate s.cores (spPhys s g off.toNat) 4096 then here 0x0F
  else none

/-- A request for a part of a drain: elements `n0` to `n0 + k − 1`. -/
def drainReq (s : State) (g : Group) (o : MForm) (add : Bool) (id k : Nat) (a : Acc) : Req :=
  let n0 := k * a.lane
  let vals := (List.range k).map fun i => drainValue g o.d.toNat add (n0 + i)
  let mask := (vals.zipIdx).foldl (fun m (v, i) => if v.isSome then m + 2 ^ i else m) 0
  let r := baseReq g s.cur a (.drain add o.ac.toNat mask) (4 * k) 0
  { r with
    lane := 32, op := some id, also := 0xFFFFFFFF
    bytes := vals.flatMap fun v => leBytes 4 ((v.map fun x => x.val.toNat).getD 0)
    tags := vals.flatMap fun v => List.replicate 4 ((v.map fun x : TW => x.tag).getD false) }

/-- Check 6 and check 8 of a drain to global memory (R255); `n` is the moment. -/
def drainMemTrap (n : Nat) (g : Group) (o : MForm) (add : Bool) (k : Nat) (L : Nat) (as : List Acc) : Option TrapReq :=
  ((as.find? fun a => add && (a.place.uncached || (match a.place with
    | .host _ => true
    | _ => false))).map fun a => addrTrap 0x0E L a.va)
  <|> (as.filterMap fun a =>
    let toN : Bool := match a.place with
      | .host _ => true
      | .peer p ofs _ => Config.peerHoldsN n p ofs
      | _ => decide (a.cls = some .N)
    if toN then
      ((List.range k).find? fun i => (drainValue g o.d.toNat add (k * a.lane + i)).any fun x : TW => x.tag).map fun i =>
        addrTrap 0x08 L (a.va + 4 * i)
    else none).head?

/-- Elements of a part of a drain to global memory (R255). -/
def drainPart (add split : Bool) : Nat := if add && !split then 1024 else if split then 32 else 16

/-- Where the parts of a drain go, and what check 5 finds for them. -/
def State.drainPlaces (s : State) (g : Group) (o : MForm) (add split : Bool) : AllResolved :=
  let k := drainPart add split
  s.resolveAll g .write false (fun i => wrapNat (globalAddr g o 0 + 4 * k * i) 64) (List.range (1024 / k))

/-- What a part of a drain does to its core's own copies at once: a store updates them (R78), an add-on-store takes them
away (log 22). -/
def State.drainCopy (s : State) (core : Nat) (r : Req) (add : Bool) (mask : Nat) : State :=
  match r.place with
  | .line l ofs =>
    (List.range (r.bytes.length / 4)).foldl (fun s i =>
      let k : LineId := { l with line := l.line + (ofs + 4 * i) / 128 }
      if !natBit mask i then s
      else if add then s.l1Drop core k
      else s.l1Store core k ((ofs + 4 * i) % 128) ((r.bytes.drop (4 * i)).take 4) fun _ => r.tags.getD (4 * i) false) s
  | _ => s

/-- Put a part of a drain in flight. -/
def State.putDrain (s : State) (g : Group) (a : Acc) (r : Req) : State :=
  let s := match r.kind with
    | .drain add _ mask => s.drainCopy g.core r add mask
    | _ => s
  s.putReq g a r []

/-- A drain to global memory, in parts of `k` elements that start on lines of their own (R255). R416 has no form for an
add-on-store to a peer, which R255 admits: it goes there as one numbered request for each part, the whole tile or a row
(log 55). -/
def drainGlobal (add split : Bool) (o : MForm) (s : State) (g : Group) (act : Word) : State :=
  let k := drainPart add split
  let base := globalAddr g o 0
  let L := lowest act
  if (mBaseVal g o true 0).tag then raise s (addrTrap 0x07 L base)
  else if base % (if add && !split then 4096 else 128) ≠ 0 then raise s (addrTrap 0x09 L base)
  else match s.drainPlaces g o add split with
    | .trap t => raise s { t with lane := L }
    | .walk _ a => s.waitWalk g L a .write
    | .stall => s
    | .ok as => match drainMemTrap s.free g o add k L as with
      | some t => raise s t
      | none =>
        if !s.room g.gid .M then s
        else
          let (id, s) := s.newOp g .M .red []
          let s := s.opLeft id as.length
          let s := as.foldl (fun s a => s.putDrain g a (drainReq s g o add id k a)) s
          (s.bumpSeq g.gid).onGroup s.cur.gid fun x => (maskOnce x).advance s.cur 0

/-- A drain to the scratchpad completes at once, and retires from class M in its turn. -/
def drainScratch (add : Bool) (o : MForm) (s : State) (g : Group) (act : Word) : State :=
  match drainSpTrap s g o act with
  | some t => raise s t
  | none =>
    if !s.room g.gid .M then s
    else
      let c := drainSp g o.d.toNat add o.ac.toNat (spPhys s g (offN g o 0)) s.cores
      let (id, s) := { s with cores := c }.newOp g .M .red []
      (s.opLeft id 0).onGroup s.cur.gid fun x => (maskOnce x).advance s.cur 0

def execTdrain (o : MForm) (s : State) : Out :=
  execWord (.tdrain o) true o.g (if o.sp then drainScratch false o else drainGlobal false false o) s
def execTdrainAdd (o : MForm) (s : State) : Out :=
  execWord (.tdrainAdd o) true o.g (if o.sp then drainScratch true o else drainGlobal true false o) s
def execTdrainAddSplit (o : MForm) (s : State) : Out :=
  execWord (.tdrainAddSplit o) true o.g (drainGlobal true true o) s

/-! TCVT (R256). -/

/-- Row `i` of TCVT: the tile and the flags so far. -/
def tcvtRow (g : Group) (o : RForm) (acc : Tile × Flags) (i : Nat) : Tile × Flags :=
  let xs := (List.range 32).map fun j => rdA g o.a.toNat i j
  let part := o.c.toNat
  let tag := bitOf acc.1.rowTags i || xs.any (·.tag)
  let (t, f) :=
    if o.ty = .mx4 then
      let (sc, es, f) := mxBlock o.rm (xs.map fun x => (unpack fF32 x.val.toNat, 0))
      ((acc.1.put (64 * i + 16 * part) (packNibbles es)).putScales (4 * i + part) [BitVec.ofNat 8 sc], f)
    else
      let rs := xs.map fun x => convertTo o.ty .f32 o.rm o.sat 0 x.val.toNat
      let w := o.ty.bits / 8
      (acc.1.put (64 * i + 32 * part) (rs.flatMap fun r => leBytes w r.1), rs.foldl (fun f r => f ||| r.2) 0)
  (t.tagRow i tag, acc.2 ||| f)

/-- The tile and flags of TCVT. -/
def tcvtTile (g : Group) (o : RForm) : Tile × Flags :=
  let t0 := rdT g o.d.toNat
  let t := if t0.fmt = tagOf o.ty then t0 else { emptyTile with fmt := tagOf o.ty }
  (List.range 32).foldl (tcvtRow g o) (t, 0)

def execTcvt (o : RForm) (s : State) : Out :=
  execWord (.tcvt o) true o.g (fun s g _ =>
    let (t, f) := tcvtTile g o
    s.onGroup s.cur.gid fun x => (orFlags (wrT x o.d.toNat t) f).advance s.cur 0) s

end Sys2Proof.Machine
end

