-- ==== Sys2Proof/Machine/Dray.lean ====
section
/-! DEFINITION. Drays: open rows (R301, R303 to R306), block arithmetic (R68), and the commands (R285 to
R300). -/

namespace Sys2Proof.Machine

/-! Cursors (R285, R286). -/

def Dray.cursor (d : Dray) (k : Bool) : Cursor := if k then d.y else d.x

def Dray.setCursor (d : Dray) (k : Bool) (c : Cursor) : Dray := if k then { d with y := c } else { d with x := c }

/-- Advance a cursor by `n` (R286), up to row 8,191 (R285). -/
def Cursor.advance (c : Cursor) (n : Nat) : Cursor :=
  if n = 0 then c
  else
    let w := if c.lo ≤ c.hi then c.hi - c.lo + 1 else 1
    let o := c.col - c.lo + n
    let r := c.row + o / w
    if r > 8191 then { c with row := 8191, col := c.lo + o % w, beyond := true }
    else { c with row := r, col := c.lo + o % w }

def Dray.bump (d : Dray) (k : Bool) : Dray := d.setCursor k ((d.cursor k).advance 1)

/-! Open rows. -/

def Dray.openRow? (d : Dray) (r : RowId) : Option OpenRow := d.open_.find? fun o => o.row = r

def Dray.onRow (d : Dray) (r : RowId) (f : OpenRow → OpenRow) : Dray :=
  { d with open_ := d.open_.map fun o => if o.row = r then f o else o }

def OpenRow.sector (o : OpenRow) (n : Nat) : List Byte := (List.range 64).map fun i => sget 0 o.bytes (64 * n + i)

/-- Close an open row: each written sector goes back under its class, as poison where a word of it is
marked (R303). -/
def State.closeRow (s : State) (key : Nat) (r : RowId) : State :=
  match (s.dray key).openRow? r with
  | none => s
  | some o =>
    let s := (lanesOf o.written).foldl (fun s n =>
      s.pokeSector r n (o.sector n) ((List.range 16).any fun i => o.poison.getLsbD (16 * n + i))) s
    s.onDray key fun d => { d with open_ := d.open_.filter fun o => o.row ≠ r }

/-- The dray has closed its row of a bank: the requests that wait for the bank are served before it opens another (R306). -/
def State.bankOpen (s : State) (r : RowId) : State :=
  let mine := s.mem.bankQ.filter fun x => sameBank x.row r
  let q := s.mem.bankQ.map fun x => if sameBank x.row r then { x with count := 64 } else x
  State.push { s with mem := { s.mem with bankQ := q } }
    (((mine.map (·.row)).eraseDups).map fun r => .event s.cur (.holdQueueRelease r))

/-- A request waits for a row's bank and makes the dray yield it: one of the express class at once, any other after the
dray's 64th access to the bank (R306). -/
def BankEntry.due (x : BankEntry) : Bool := x.express || decide (64 ≤ x.count)

/-- A due request waits for a row's bank. -/
def State.bankDue (s : State) (r : RowId) : Bool := s.mem.bankQ.any fun x => sameBank x.row r && x.due

/-- A column access of a dray to an open row counts for the requests that wait for its bank (R306). -/
def State.bankUsed (s : State) (r : RowId) : State :=
  { s with mem := { s.mem with bankQ := s.mem.bankQ.map fun x => if sameBank x.row r then { x with count := x.count + 1 } else x } }

/-- A dray closes a row, and its bank serves what waits for it (R303, R306). -/
def State.shutRow (s : State) (key : Nat) (r : RowId) : State := (s.closeRow key r).bankOpen r

/-- The row of its bank that a dray holds open, in place of which it would open a row. -/
def Dray.rival (d : Dray) (r : RowId) : Option OpenRow := d.open_.find? fun o => o.row.bank = r.bank

/-- Open a row; the row that its bank has open closes first (R301). -/
def State.openRow (s : State) (key : Nat) (r : RowId) : State :=
  if ((s.dray key).openRow? r).isSome then s
  else
    let s := match (s.dray key).rival r with
      | some o => s.shutRow key o.row
      | none => s
    s.onDray key fun d => { d with open_ := d.open_ ++ [⟨r, [], 0, 0, 0⟩], reopen := d.reopen.filter (· ≠ r) }

/-- Who a dray's run is charged to (R399). -/
def State.drayWho (s : State) (key : Nat) : Who :=
  match (s.dray key).op.bind s.op? with
  | some o => ⟨some o.ctx, some o.gid⟩
  | none => ⟨none, none⟩

/-- The first access to a sector of an open row verifies it under its class (R303). -/
def State.verify (s : State) (key : Nat) (r : RowId) (n : Nat) : State :=
  match (s.dray key).openRow? r with
  | none => s
  | some o =>
    if bitOf o.verified n then s
    else
      let (d, v) := s.peekSector r n
      let bad := v.tagged
      let mark : BitVec 512 := if bad then 0xFFFF#512 <<< (16 * n) else 0
      let s := s.onDray key fun x =>
        let x := x.onRow r fun o =>
          { o with
            bytes := (d.zipIdx).foldl (fun m (b, i) => sset 0 m (64 * n + i) b) o.bytes
            verified := o.verified ||| (1#32 <<< n)
            written := if v = .corrected then o.written ||| (1#32 <<< n) else o.written
            poison := o.poison ||| mark }
        let c := if v = .corrected then min 255 (x.dstat.corr + 1) else x.dstat.corr
        { x with dstat := { x.dstat with corr := c, poison := x.dstat.poison || bad } }
      let w := s.drayWho key
      match v with
      | .corrected => ((s.charge w 1).log 1 (s.logAt r n) (w.ctx.getD 0)).countCorrected r
      | .uncorrectable => (s.charge w 64).log 3 (s.logAt r n) (w.ctx.getD 0)
      | _ => s

/-- The marks of the 8 words of a column. -/
def OpenRow.colTags (o : OpenRow) (c : Nat) : List Bool := (List.range 8).map fun i => o.poison.getLsbD (8 * c + i)

/-- Read a column of a row: its bytes and a mark for each word. -/
def State.readCol (s : State) (key : Nat) (r : RowId) (c : Nat) : (List Byte × List Bool) × State :=
  let s := (s.openRow key r).verify key r (c / 2)
  match (s.dray key).openRow? r with
  | none => (([], []), s)
  | some o =>
    let p := o.colTags c
    let s := (s.bankUsed r).onDray key fun x =>
      { x with dstat := { x.dstat with poison := x.dstat.poison || p.any id } }
    (((List.range 32).map fun i => sget 0 o.bytes (32 * c + i), p), s)

/-- The word marks of a row after a write of a column with a tag for each word. -/
def putColTags (p : BitVec 512) (c : Nat) (tag : Nat → Bool) : BitVec 512 :=
  (List.range 8).foldl (fun (p : BitVec 512) i =>
    if tag i then p ||| (1#512 <<< (8 * c + i)) else p &&& ~~~(1#512 <<< (8 * c + i))) p

/-- What a dray's write of a column leaves of its bytes where fields are RO (R7). -/
def State.colKeep (s : State) (o : OpenRow) (c : Nat) (bs : List Byte) : List Byte :=
  let d := 64 * s.rowSector o.row (c / 2) + 32 * (c % 2)
  s.keepOnly ⟨o.row.stack, o.row.row / 32, d / 128⟩ (d % 128) ((List.range 32).map fun i => sget 0 o.bytes (32 * c + i)) bs

/-- Write a column of a row, with the tags of its words (R294, R303). -/
def State.writeCol (s : State) (key : Nat) (r : RowId) (c : Nat) (bs : List Byte) (tag : Nat → Bool) : State :=
  let s := (s.openRow key r).verify key r (c / 2)
  (s.bankUsed r).onDray key fun x =>
    let x := x.onRow r fun o =>
      { o with
        bytes := ((s.colKeep o c bs).zipIdx).foldl (fun m (b, i) => sset 0 m (32 * c + i) b) o.bytes
        written := o.written ||| (1#32 <<< (c / 2))
        poison := putColTags o.poison c tag }
    { x with dstat := { x.dstat with poison := x.dstat.poison || (List.range 8).any tag } }

/-! Block arithmetic (R68). -/

/-- floor(log2 |P|) of a nonzero finite product. -/
def topBit : FVal → Option Int
  | .fin _ m e => if m = 0 then none else some (Nat.log2 m + e)
  | _ => none

/-- A block applied to an accumulator: the new word and whether a product was truncated. -/
def blockApply (c : Nat) (prods : List FVal) (scales : Option (Nat × Nat)) : Nat × Bool :=
  let ps := match scales with
    | some (a, b) => if a = 0xFF || b = 0xFF then prods.map fun _ => FVal.nan false else prods
    | none => prods
  let all := unpack fF32 c :: ps
  if all.any isNan then (fF32.nan, false)
  else match all.filterMap signOf with
    | n :: ns => (if ns.all (· = n) then fF32.sign n + fF32.infCode else fF32.nan, false)
    | [] =>
      match ps.filterMap topBit with
      | [] => (c, false)
      | e :: es =>
        let q0 := es.foldl max e - 24
        let part := fun (m : Nat) (e : Int) => if e ≥ q0 then m * 2 ^ (e - q0).toNat else m / 2 ^ (q0 - e).toNat
        let cut := ps.any fun p => match p with
          | .fin _ m e => decide (e < q0) && decide (m % 2 ^ (q0 - e).toNat ≠ 0)
          | _ => false
        let t : Int := (ps.map fun p => match p with
          | .fin n m e => (if n then -(part m e : Int) else (part m e : Int))
          | _ => (0 : Int)).foldl (· + ·) 0
        let k : Int := match scales with
          | some (a, b) => a + b - 254
          | none => 0
        let v := FVal.fin (decide (t < 0)) t.natAbs (q0 + k)
        ((fAddV fF32 .rn (unpack fF32 c) v).1, cut)

/-- The BF16 product that a latch holds as two patterns. -/
def latchProduct (w : BitVec 32) : FVal :=
  (mulV (unpack fBF16 (w.toNat % 65536)) (unpack fBF16 (w.toNat / 65536))).1

def Dray.accOf (d : Dray) (c : Nat) : TW := sget ⟨0, false⟩ d.acc c

def Dray.setAcc (d : Dray) (c : Nat) (x : TW) : Dray := { d with acc := sset ⟨0, false⟩ d.acc c x }

/-- Apply a block to accumulator `c`, keeping its tag; a tagged accumulator is a tagged value read (R299). -/
def Dray.block (d : Dray) (c : Nat) (prods : List FVal) (scales : Option (Nat × Nat)) : Dray :=
  let (x, cut) := blockApply (d.accOf c).val.toNat prods scales
  let t := (d.accOf c).tag
  let d := d.setAcc c ⟨BitVec.ofNat 32 x, t⟩
  { d with dstat := { d.dstat with inexact := d.dstat.inexact || cut, poison := d.dstat.poison || t } }

/-- Close a half-block latch: 16 products of +0 complete the block (R292). -/
def Dray.closeLatch (d : Dray) (c : Nat) : Dray :=
  match sget [] d.latch c with
  | [] => d
  | h => { d.block c (h.map latchProduct ++ List.replicate 16 (.fin false 0 0)) none with latch := sset [] d.latch c [] }

def Dray.closeAll (d : Dray) : Dray := (List.range 16).foldl Dray.closeLatch d

/-! The vector buffer. -/

def Dray.vbBytes (d : Dray) (a n : Nat) : List Byte := (List.range n).map fun i => sget 0 d.vb (a + i)

/-- A word of the vector buffer, by the byte address in it, is tagged. -/
def Dray.vbTagged (d : Dray) (a : Nat) : Bool := sget false d.vbTag (a / 4)

/-- A unit of the vector buffer is tagged in some word. -/
def Dray.unitTagged (d : Dray) : Bool := (List.range 8).any fun i => d.vbTagged (32 * d.vp + 4 * i)

def Dray.vbPut (d : Dray) (a : Nat) (bs : List Byte) (tag : Nat → Bool) : Dray :=
  { d with
    vb := (bs.zipIdx).foldl (fun m (b, i) => sset 0 m (a + i) b) d.vb
    vbTag := (List.range (bs.length / 4)).foldl (fun m k => sset false m (a / 4 + k) (tag k)) d.vbTag }

/-- A tagged value has been read (R299). -/
def Dray.readTag (d : Dray) (t : Bool) : Dray := { d with dstat := { d.dstat with poison := d.dstat.poison || t } }

/-! Runs. -/

/-- Steps that a stack's broadcast still has. -/
def State.stepsLeft (s : State) (stack : Nat) : Nat := (sget ⟨0, 0⟩ s.drays.bcast stack).left

/-- An operation, other than one that is named, has reached a dray's stack and has not started there. -/
def State.queuedFor (s : State) (key : Nat) (but : Option Nat) : Bool :=
  (sget [] s.drays.queue (key / 1024)).any fun id =>
    but ≠ some id && (s.op? id).any fun o => o.drays.contains key && !o.started.contains (key / 1024)

/-- The drays of an operation in a stack. -/
def Op.draysIn (o : Op) (stack : Nat) : List Nat := o.drays.filter fun k => k / 1024 = stack

/-- An operation has ended in a stack: it leaves the queue there, and completes when it is in none (R300). -/
def State.leaveStack (s : State) (id stack : Nat) : State :=
  let q := (sget [] s.drays.queue stack).filter (· ≠ id)
  let s := { s with drays := { s.drays with queue := sset [] s.drays.queue stack q } }
  let s := if (sget ⟨0, 0⟩ s.drays.bcast stack).op = id then
      { s with drays := { s.drays with bcast := sset ⟨0, 0⟩ s.drays.bcast stack ⟨0, 0⟩ } }
    else s
  if s.drays.queue.any fun x => x.2.contains id then s
  else s.onOp id fun o => match o.kind with
    | .imxCollect .. => o
    | _ => { o with complete := true }

/-- The end of a dray's run (R289, R300). -/
def State.drayEnd (s : State) (key err : Nat) : State :=
  let d := s.dray key
  match d.op with
  | none => s
  | some id =>
    let s := s.onDray key Dray.closeAll
    let s := (s.dray key).open_.foldl (fun s o => s.shutRow key o.row) s
    let s := s.onDray key fun d =>
      { d with op := none, rows := [], waitSteps := 0, atStep := false, granted := false, free3 := 0, bcast := false, reopen := []
               dstat := { d.dstat with err := err, slot := d.slot } }
    let s := s.opFail id key err 0
    let s := match s.op? id with
      | some o =>
        if (o.draysIn (key / 1024)).any fun k => (s.dray k).op = some id then s else s.leaveStack id (key / 1024)
      | none => s
    s.onDray key fun d => { d with dstat := { d.dstat with state := if s.queuedFor key (some id) then 3 else 0 } }

/-- A dray that may go on: it runs, and none of its rows has become returning since the launch (R305). -/
def State.drayRuns (s : State) (key : Nat) : Bool :=
  let d := s.dray key
  d.op.isSome && d.rows.all fun r =>
    s.rowState r = .bank && (d.op.bind s.op?).all fun o => !o.lost.contains r

/-- The slot after the one at hand; past slot 63 the run ends (R289). -/
def State.nextSlot (s : State) (key : Nat) : State :=
  if (s.dray key).slot = 63 then s.drayEnd key 0x41
  else s.onDray key fun d => { d with slot := d.slot + 1 }

/-- Under a broadcast, a dray executes at most 3 commands without an access between two steps, and none
while steps pass under DWAIT or under a command of several accesses (R302). -/
def State.freeTurn (s : State) (key : Nat) : Bool :=
  let d := s.dray key
  s.drayRuns key && !(d.bcast && decide (0 < s.stepsLeft (key / 1024)) && (decide (3 ≤ d.free3) || decide (0 < d.waitSteps)))

/-- A dray has made a command without an access: it counts, and the dray waits for a step where it may make no more of
them (R299, R302); `left` steps remain. -/
def Dray.freeDone (d : Dray) (left : Nat) : Dray :=
  let waits := d.bcast && decide (0 < left) && (decide (2 ≤ d.free3) || decide (0 < d.waitSteps))
  { d with free3 := d.free3 + 1, dstat := { d.dstat with state := if waits then 2 else d.dstat.state } }

/-- A command without a column access. -/
def drayFree (f : Dray → Dray) (s : State) : State :=
  let key := drayKey s.cur.dray
  if !s.freeTurn key then s
  else (s.onDray key fun d => (f d).freeDone (s.stepsLeft (key / 1024))).nextSlot key

/-- The checks of R291 on the cursors that a command uses. -/
def Dray.check (d : Dray) (cs : List Cursor) (k : Nat) : Option Nat :=
  if cs.any fun c => c.beyond || decide (d.rows.length ≤ c.row) then some 0x42
  else if cs.any fun c => decide (c.hi < c.lo) || decide (2 * d.sectors ≤ c.hi) then some 0x43
  else if d.cc + k > 65536 then some 0x44
  else none

def Dray.rowOf (d : Dray) (c : Cursor) : RowId := d.rows.getD c.row ⟨0, 0, 0, 0, 0⟩

/-- A cursor's row is open, or a cursor before it in the command has the same bank, so that the row opens
within the command. -/
def Dray.opened (d : Dray) (cs : List Cursor) : Bool :=
  (cs.zipIdx).all fun (c, i) =>
    let r := d.rowOf c
    (d.openRow? r).isSome || (cs.take i).any fun b => (d.rowOf b).bank = r.bank

/-- The effect of a column command, or the status that stops the run. -/
abbrev ColEffect := State → Nat → Except Nat State

/-- A column command of `k` accesses on some cursors (R291, R297, R302). -/
def drayColumn (k : Nat) (use : Dray → List Cursor) (f : ColEffect) (s : State) : State :=
  let key := drayKey s.cur.dray
  let d := s.dray key
  let left := s.stepsLeft (key / 1024)
  if !s.drayRuns key then s
  else if d.bcast && !d.granted then
    if 0 < d.waitSteps && 0 < left then s
    else if left < k then s.drayEnd key 0x46
    else s.onDray key fun d => { d with atStep := true, dstat := { d.dstat with state := 2 } }
  else match d.check (use d) k with
    | some e => s.drayEnd key e
    | none =>
      if !d.opened (use d) then s
      else
        let s0 := s.onDray key fun d =>
          { d with granted := false, cc := d.cc + k, waitSteps := if d.bcast then k - 1 else 0
                   dstat := { d.dstat with state := if d.bcast && decide (1 < k) then 2 else 1 } }
        match f s0 key with
        | .error e => s.drayEnd key e
        | .ok t => t.nextSlot key

/-! Commands. -/

def execDsel (k : Bool) (r : BitVec 13) (l h : BitVec 6) (s : State) : Out :=
  .next (drayFree (fun d => d.setCursor k ⟨r.toNat, l.toNat, l.toNat, h.toNat, false⟩) s)

def execDadv (k : Bool) (n : BitVec 16) (s : State) : Out :=
  .next (drayFree (fun d => d.setCursor k ((d.cursor k).advance n.toNat)) s)

def execDvset (v : BitVec 6) (vs : BitVec 11) (s : State) : Out :=
  .next (drayFree (fun d => { d with vp := v.toNat, vsp := vs.toNat }) s)

/-- DLSET (R290): a half of ARG under A; 0 under a broadcast. -/
def dlsetDray (k a : Bool) (n : BitVec 16) (d : Dray) : Dray :=
  let v := if a then (if d.bcast then 0 else if k then d.arg / 65536 else d.arg % 65536) else n.toNat
  if k then { d with l1 := v } else { d with l0 := v }

def execDlset (k a : Bool) (n : BitVec 16) (s : State) : Out := .next (drayFree (dlsetDray k a n) s)

/-- DLOOP (R290). -/
def doDloop (k : Bool) (t : BitVec 6) (s : State) : State :=
  let key := drayKey s.cur.dray
  let d := s.dray key
  let n := if k then d.l1 else d.l0
  let put := fun (d : Dray) (v : Nat) => if k then { d with l1 := v } else { d with l0 := v }
  if !s.freeTurn key then s
  else if n > 1 then s.onDray key fun d => { (put d (n - 1)).freeDone (s.stepsLeft (key / 1024)) with slot := t.toNat }
  else drayFree (fun d => put d 0) s

def execDloop (k : Bool) (t : BitVec 6) (s : State) : Out := .next (doDloop k t s)

/-- DWAIT (R290, R302). -/
def execDwait (n : BitVec 16) (s : State) : Out :=
  .next (drayFree (fun d => if d.bcast then { d with waitSteps := n.toNat } else d) s)

def execDazero (m : BitVec 16) (s : State) : Out :=
  .next (drayFree (fun d =>
    (List.range 16).foldl (fun (d : Dray) i =>
      if m.getLsbD i then { d.setAcc i ⟨0, false⟩ with latch := sset [] d.latch i [] } else d) d) s)

/-- The accumulators rounded to BF16, two a word, with a tag per word (R290, R296). -/
def Dray.bf16s (d : Dray) : List Byte × (Nat → Bool) :=
  ((List.range 16).flatMap fun i => leBytes 2 (roundV fBF16 .rn (unpack fF32 (d.accOf i).val.toNat)).1,
   fun k => (d.accOf (2 * k)).tag || (d.accOf (2 * k + 1)).tag)

/-- Some accumulator is tagged. -/
def Dray.accTagged (d : Dray) : Bool := (List.range 16).any fun i => (d.accOf i).tag

def execDacvt (s : State) : Out :=
  .next (drayFree (fun d =>
    let d := (d.closeAll).readTag d.accTagged
    let (bs, t) := d.bf16s
    { d.vbPut (32 * d.vp) bs t with vp := (d.vp + 1) % 64 }) s)

def doDend (s : State) : State :=
  let key := drayKey s.cur.dray
  if s.freeTurn key then s.drayEnd key 0 else s

def execDend (s : State) : Out := .next (doDend s)

/-- The command at hand is illegal (R287). -/
def doDrayIllegal (s : State) : State :=
  let key := drayKey s.cur.dray
  if s.freeTurn key then s.drayEnd key 0x40 else s

def execDrayIllegalCommand (s : State) : Out := .next (doDrayIllegal s)

/-- Pairs of bytes as numbers. -/
def halves (bs : List Byte) : List Nat := (List.range (bs.length / 2)).map fun i => leNat ((bs.drop (2 * i)).take 2)

/-- Read the column at a cursor. -/
def State.atCursor (s : State) (key : Nat) (c : Cursor) : (List Byte × List Bool) × State :=
  s.readCol key ((s.dray key).rowOf c) c.col

/-- DMAC (R292). -/
def dmacEffect (c : Nat) (s : State) (key : Nat) : State :=
  let ((bs, p), s) := s.atCursor key (s.dray key).x
  s.onDray key fun d =>
    let t := p.any id || d.unitTagged
    let ws := (halves bs).zipWith (fun x v => BitVec.ofNat 32 (x + 65536 * v)) (halves (d.vbBytes (32 * d.vp) 32))
    let d := match sget [] d.latch c with
      | [] => { d with latch := sset [] d.latch c ws }
      | h => { d.block c ((h ++ ws).map latchProduct) none with latch := sset [] d.latch c [] }
    let a := d.accOf c
    let d := (d.setAcc c ⟨a.val, a.tag || t⟩).readTag t
    { d.bump false with vp := (d.vp + 1) % 64 }

def execDmac (c : BitVec 4) (s : State) : Out :=
  .next (drayColumn 1 (fun d => [d.x]) (fun s k => .ok (dmacEffect c.toNat s k)) s)

/-- The 64 E2M1 elements of 32 bytes (R54). -/
def nibbles (bs : List Byte) : List FVal := bs.flatMap fun b => [unpack fE2M1 (b.toNat % 16), unpack fE2M1 (b.toNat / 16)]

/-- DMACX (R293). -/
def dmacxEffect (c : Nat) (s : State) (key : Nat) : State :=
  let ((bs, p), s) := s.atCursor key (s.dray key).x
  s.onDray key fun d =>
    let d := d.closeLatch c
    let sl := fun k => (d.sl.getD ((d.slp + k) % 32) 0).toNat
    let vs := fun k => (d.vbBytes ((d.vsp + k) % 2048) 1).map (·.toNat) |>.headD 0
    let t := p.any id || d.unitTagged || d.slTags.getD (d.slp % 32) false || d.slTags.getD ((d.slp + 1) % 32) false
      || d.vbTagged (d.vsp % 2048) || d.vbTagged ((d.vsp + 1) % 2048)
    let ps := (nibbles bs).zipWith (fun x v => (mulV x v).1) (nibbles (d.vbBytes (32 * d.vp) 32))
    let d := d.block c (ps.take 32) (some (sl 0, vs 0))
    let d := d.block c (ps.drop 32) (some (sl 1, vs 1))
    let a := d.accOf c
    let d := (d.setAcc c ⟨a.val, a.tag || t⟩).readTag t
    { d.bump false with vp := (d.vp + 1) % 64, slp := (d.slp + 2) % 32, vsp := (d.vsp + 2) % 2048 }

def execDmacx (c : BitVec 4) (s : State) : Out :=
  .next (drayColumn 1 (fun d => [d.x]) (fun s k => .ok (dmacxEffect c.toNat s k)) s)

/-- DSCOL (R293): the checks are made at the position it reads (R291). -/
def dscolEffect (n : Nat) (s : State) (key : Nat) : State :=
  let ((bs, p), s) := s.atCursor key ((s.dray key).x.advance n)
  s.onDray key fun d => { d with sl := bs, slTags := (List.range 32).map fun i => p.getD (i / 4) false, slp := 0 }

def execDscol (n : BitVec 8) (s : State) : Out :=
  .next (drayColumn 1 (fun d => [d.x.advance n.toNat]) (fun s k => .ok (dscolEffect n.toNat s k)) s)

/-- DVLD (R294). -/
def dvldEffect (k : Bool) (s : State) (key : Nat) : State :=
  let ((bs, p), s) := s.atCursor key ((s.dray key).cursor k)
  s.onDray key fun d =>
    { (d.vbPut (32 * d.vp) bs fun i => p.getD i false).bump k with vp := (d.vp + 1) % 64 }

def execDvld (k : Bool) (s : State) : Out :=
  .next (drayColumn 1 (fun d => [d.cursor k]) (fun s key => .ok (dvldEffect k s key)) s)

/-- A tagged value may not go to a row of class N (R304). -/
def State.stopsPoison (s : State) (r : RowId) (tag : Bool) : Bool := tag && s.rowCode r = .N

/-- DVST (R294, R304). -/
def dvstEffect (k : Bool) (s : State) (key : Nat) : Except Nat State :=
  let d := s.dray key
  let c := d.cursor k
  let t := d.unitTagged
  if s.stopsPoison (d.rowOf c) t then .error 0x45
  else
    let s := s.writeCol key (d.rowOf c) c.col (d.vbBytes (32 * d.vp) 32) fun i => d.vbTagged (32 * d.vp + 4 * i)
    .ok (s.onDray key fun d => { d.bump k with vp := (d.vp + 1) % 64 })

def execDvst (k : Bool) (s : State) : Out := .next (drayColumn 1 (fun d => [d.cursor k]) (dvstEffect k) s)

/-- Elements of a column in BF16 or FP32. -/
def elems (f32 : Bool) (bs : List Byte) : List FVal :=
  if f32 then (List.range 8).map fun i => unpack fF32 (leNat ((bs.drop (4 * i)).take 4))
  else (halves bs).map (unpack fBF16)

def elemBytes (f32 : Bool) (xs : List Nat) : List Byte := xs.flatMap fun x => leBytes (if f32 then 4 else 2) x

def elemFmt (f32 : Bool) : Fmt := if f32 then fF32 else fBF16

/-- DADD (R295). -/
def daddEffect (f32 toY : Bool) (s0 : State) (key : Nat) : Except Nat State :=
  let d := s0.dray key
  let ((a, pa), s) := s0.atCursor key d.x
  let ((b, pb), s) := s.atCursor key d.y
  let r := (elems f32 a).zipWith (fun x y => (fAddV (elemFmt f32) .rn x y).1) (elems f32 b)
  let c := if toY then d.y else d.x
  let tag := fun i => pa.getD i false || pb.getD i false
  if s0.stopsPoison (d.rowOf c) ((List.range 8).any tag) then .error 0x45
  else
    let s := s.writeCol key (d.rowOf c) c.col (elemBytes f32 r) tag
    .ok (s.onDray key fun d => (d.bump false).bump true)

def execDadd (t d : Bool) (s : State) : Out := .next (drayColumn 3 (fun d => [d.x, d.y]) (daddEffect t d) s)

/-- DSCALE (R295). -/
def dscaleEffect (c : Nat) (f32 ya : Bool) (s0 : State) (key : Nat) : Except Nat State :=
  let s := s0.onDray key fun d => d.closeLatch c
  let d := s.dray key
  let f := d.accOf c
  let fv := unpack fF32 f.val.toNat
  let ((a, pa), s) := s.atCursor key d.x
  let ((b, pb), s) := if ya then s.atCursor key d.y else (([], []), s)
  let t := elemFmt f32
  let r := if ya then (elems f32 a).zipWith (fun x y => (fFmaV t .rn x fv y).1) (elems f32 b)
    else (elems f32 a).map fun x => (fMulV t .rn x fv).1
  let tag := fun i => pa.getD i false || pb.getD i false || f.tag
  if s.stopsPoison (d.rowOf d.x) ((List.range 8).any tag) then .error 0x45
  else
    let s := s.writeCol key (d.rowOf d.x) d.x.col (elemBytes f32 r) tag
    .ok (s.onDray key fun d => let e := d.bump false; if ya then e.bump true else e)

def execDscale (c : BitVec 4) (t y : Bool) (s : State) : Out :=
  .next (drayColumn (if y then 3 else 2) (fun d => if y then [d.x, d.y] else [d.x]) (dscaleEffect c.toNat t y) s)

/-- DALD (R296). -/
def daldEffect (h : Bool) (s : State) (key : Nat) : State :=
  let ((bs, p), s) := s.atCursor key (s.dray key).x
  s.onDray key fun d =>
    let k := if h then 8 else 0
    let d := (List.range 8).foldl (fun (d : Dray) i =>
      (d.closeLatch (k + i)).setAcc (k + i) ⟨BitVec.ofNat 32 (leNat ((bs.drop (4 * i)).take 4)), p.getD i false⟩) d
    d.bump false

def execDald (h : Bool) (s : State) : Out :=
  .next (drayColumn 1 (fun d => [d.x]) (fun s k => .ok (daldEffect h s k)) s)

/-- DSTORE (R296): T = 1 is FP32. -/
def dstoreEffect (f32 h : Bool) (s : State) (key : Nat) : Except Nat State :=
  let k := if h then 8 else 0
  let s := s.onDray key fun d => if f32 then (List.range 8).foldl (fun d i => d.closeLatch (k + i)) d else d.closeAll
  let d := s.dray key
  let bs := if f32 then (List.range 8).flatMap fun i => leBytes 4 (d.accOf (k + i)).val.toNat else d.bf16s.1
  let tag := fun i => if f32 then (d.accOf (k + i)).tag else d.bf16s.2 i
  if s.stopsPoison (d.rowOf d.x) ((List.range 8).any tag) then .error 0x45
  else
    let s := s.writeCol key (d.rowOf d.x) d.x.col bs tag
    .ok (s.onDray key fun d => d.bump false)

def execDstore (t h : Bool) (s : State) : Out := .next (drayColumn 1 (fun d => [d.x]) (dstoreEffect t h) s)

/-! Events of drays. -/

/-- The command at a slot of a dray's store. -/
def Dray.command (d : Dray) (slot : Nat) : Except DecodeError Instr := decodeCommand (sget 0 d.store slot)

/-- A column command's accesses and cursors; none for any other command. -/
def columnUse : Instr → Option (Nat × (Dray → List Cursor))
  | .dmac _ | .dmacx _ | .dald _ | .dstore _ _ => some (1, fun d => [d.x])
  | .dscol n => some (1, fun d => [d.x.advance n.toNat])
  | .dvld k | .dvst k => some (1, fun d => [d.cursor k])
  | .dadd _ _ => some (3, fun d => [d.x, d.y])
  | .dscale _ _ y => some (if y then 3 else 2, fun d => if y then [d.x, d.y] else [d.x])
  | _ => none

/-- The accesses and cursors of the command at hand, if it is a column command. -/
def Dray.nextUse (d : Dray) : Option (Nat × List Cursor) :=
  match d.command d.slot with
  | .ok i => (columnUse i).map fun (k, u) => (k, u d)
  | .error _ => none

/-- The row a dray opens: one that it has closed to yield its bank (R306), one that its command needs and that passes the checks, else in advance the row
of the next row index in another bank (R301). -/
def Dray.rowToOpen (d : Dray) : Option RowId :=
  match d.reopen.head?, d.nextUse with
  | some r, _ => some r
  | none, none => none
  | none, some (k, cs) =>
    if (d.check cs k).isSome then none
    else match (cs.zipIdx).find? fun (c, i) =>
        ((d.openRow? (d.rowOf c)).isNone && !(cs.take i).any fun b => (d.rowOf b).bank = (d.rowOf c).bank : Bool) with
      | some (c, _) => some (d.rowOf c)
      | none => (cs.filterMap fun c =>
          match d.rows[c.row + 1]? with
          | some r => if (d.openRow? r).isNone && cs.all fun b => (d.rowOf b).bank ≠ r.bank then some r else none
          | none => none).head?

/-- DRAY_ROW_OPEN (R301): a row that closes for it lets the requests that wait for the bank go first (R306). -/
def doDrayRowOpen (s : State) : State :=
  let key := drayKey s.cur.dray
  if !s.drayRuns key then s
  else match (s.dray key).rowToOpen with
    | some r =>
      if s.bankDue r then s
      else match (s.dray key).rival r with
        | some o => if s.mem.bankQ.any fun x => sameBank x.row r then s.shutRow key o.row else s.openRow key r
        | none => s.openRow key r
    | none => s

def execDrayRowOpen (s : State) : Out := .next (doDrayRowOpen s)

/-- DRAY_STOPPED (R305): a row of the run is no longer bank-owned. -/
def doDrayStopped (s : State) : State :=
  let key := drayKey s.cur.dray
  if (s.dray key).op.isSome && !s.drayRuns key then s.drayEnd key 0x47 else s

def execDrayStopped (s : State) : Out := .next (doDrayStopped s)

/-- DRAY_BANK_YIELD (R306): the dray closes the row it holds in a bank that a due request waits for, the waiting requests are
served next, and the row is opened again. -/
def doDrayBankYield (s : State) : State :=
  let key := drayKey s.cur.dray
  match (s.dray key).open_.find? fun o => o.row.bank = s.cur.bank with
  | some o =>
    if s.bankDue o.row then (s.shutRow key o.row).onDray key fun d => { d with reopen := d.reopen ++ [o.row] } else s
  | none => s

def execDrayBankYield (s : State) : Out := .next (doDrayBankYield s)

/-- A dray of a broadcast is settled before a step: it waits for the step with its rows open, passes it, has
used its three commands, or has ended (R302). -/
def State.settled (s : State) (id key : Nat) : Bool :=
  let d := s.dray key
  d.op ≠ some id
  || (s.drayRuns key && d.reopen.isEmpty
      && (decide (0 < d.waitSteps)
          || (match d.nextUse with
              | some (k, cs) => d.atStep && ((d.check cs k).isSome || d.opened cs)
              | none => decide (3 ≤ d.free3))))

/-- BCAST_STEP (R302): the launch logic gives a step; the drays that wait for it make their access next. -/
def doBcastStep (stack : Nat) (s : State) : State :=
  let b := sget ⟨0, 0⟩ s.drays.bcast stack
  match s.op? b.op with
  | none => s
  | some o =>
    let ks := o.draysIn stack
    if b.left = 0 || !(ks.all fun k => s.settled o.id k) then s
    else
      let s := { s with drays := { s.drays with bcast := sset ⟨0, 0⟩ s.drays.bcast stack ⟨b.op, b.left - 1⟩ } }
      let ready := ks.filter fun k =>
        let d := s.dray k
        d.op = some o.id && d.waitSteps = 0 && d.atStep
      let s := ks.foldl (fun s k => s.onDray k fun d =>
        if d.op = some o.id then
          { d with free3 := 0, waitSteps := d.waitSteps - 1, atStep := d.atStep && !ready.contains k, granted := ready.contains k
                   dstat := { d.dstat with state := if decide (1 < d.waitSteps) && decide (1 < b.left) then 2 else 1 } }
        else d) s
      s.push (ready.map fun k => .dray (drayOfKey k))

def execBcastStep (stack : Nat) (s : State) : Out := .next (doBcastStep stack s)

end Sys2Proof.Machine
end

