-- ==== Sys2Proof/Machine/EngineOps.lean ====
section
/-! DEFINITION. Shared operations of the engines (R257, R361, R410): checks at issue, translating and
accessing memory for an operation, arrivals at gates (R120, R234), and retirement (R114 to R119). -/

namespace Sys2Proof.Machine

/-! Issue. -/

/-- A register's poison. -/
def regPoison (g : Group) (r : RegName) : Bool :=
  match r with
  | .s n => (rdS g n).tag
  | _ => false

/-- An engine-parameter fault that names an operand (R257, R327). -/
def paramTrap (act : Word) (n : Nat) : TrapReq := ⟨0x13, lowest act, n, 0⟩

/-- The first of some (operand, violated) pairs that is violated. -/
def paramCheck (act : Word) (cs : List (Nat × Bool)) : Option TrapReq :=
  (cs.find? fun c : Nat × Bool => c.2).map fun c => paramTrap act c.1

/-- An E-form word's checks 1 to 3 of R257, then the word; it is not ready while its class is full (R117). -/
def execEngine (i : Instr) (coll : Bool) (c : Option EClass) (gd : Guard) (f : State → Group → Word → State)
    (s : State) : Out :=
  execWord i coll gd (fun s g act =>
    if c.any fun c => !s.room g.gid c then s
    else if i.reads.any (regPoison g) then raise s ⟨0x07, lowest act, 0, 0⟩ else f s g act) s

/-- Checks 4 and 5 of R221 on the scratchpad ranges (offset, length, alignment) that an engine word names, and on its
gate, if it names one: every alignment, then every bound, then the gate's life (R261, R272). -/
def rangesTrap (s : State) (g : Group) (act : Word) (rs : List (Nat × Nat × Nat)) (gate : Option Nat) : Option TrapReq :=
  let all := rs ++ (match gate with
    | some off => [(off, 16, 16)]
    | none => [])
  let trap := fun (code : Nat) (x : Nat × Nat × Nat) => addrTrap code (lowest act) x.1
  ((all.find? fun x => x.1 % x.2.2 ≠ 0).map (trap 0x09))
  <|> ((all.find? fun x => decide (x.1 + x.2.1 > teamSize s g)).map (trap 0x0A))
  <|> gate.bind fun off =>
    if gateLive s.cores (spPhys s g off) then none else some (addrTrap 0x10 (lowest act) off)

/-- The same of one range. -/
def rangeTrap (s : State) (g : Group) (act : Word) (off len align : Nat) : Option TrapReq :=
  if off % align ≠ 0 then some (addrTrap 0x09 (lowest act) off)
  else if off + len > teamSize s g then some (addrTrap 0x0A (lowest act) off) else none

/-- The gate operand of a word with a NOGATE bit. -/
def gateOf (g : Group) (nogate : Bool) (r : BitVec 8) : Option Nat := if nogate then none else some (uniN g r)

/-- A signed 32-bit number of a uniform register. -/
def uniInt (g : Group) (r : Nat) : Int := natSext (rdS g r).val.toNat 32

/-- The scratchpad bytes of a team's offset, with a tag for each byte. -/
def teamBytes (s : State) (t : Team) (off n : Nat) : List Byte × List Bool :=
  (spBytes s.cores (t.sp off) n, (List.range n).map fun i => spPoison s.cores (t.sp off + i))

/-- Issue a counted operation (R114). -/
def issueOp (c : EClass) (k : OpKind) (spans : List Span) (s : State) (g : Group) : State :=
  ((s.newOp g c k spans).2.bumpSeq g.gid).go 0

/-! Addresses. -/

/-- The status of engine work for a walk fault (R352). -/
def faultStatus (reason : Nat) : Nat := if reason = 4 then 0x02 else 0x01

/-- What an address of an operation comes to. -/
inductive OpPlace where
  | at (p : Place) (cls : Option ExtClass) (res : Nat)
  | fail (status : Nat)
  | wait (s : State)

/-- Translate an address of an operation; a miss or fault waits for its walk and the pager (R361). -/
def State.opPlace (s : State) (o : Op) (va : Nat) (k : AccKind) : OpPlace :=
  if !canonical va then .fail 0x01
  else match o.fault with
    | some (a, r) => if a / 4096 = va / 4096 then .fail (faultStatus r) else look
    | none => look
where
  look : OpPlace :=
    match s.translate o.core o.pasid va k with
    | .miss | .fault _ => .wait (s.askWalk (clusterOf o.core) o.pasid va k (.op o.id))
    | .hit pa nc res => match s.placeOf pa nc (o.ctx = 0) with
      | .at p cls => match p with
        | .peer n _ _ => if s.reachable n then .at p cls res else .fail 0x04
        | _ => .at p cls res
      | .absent => .fail 0x01
      | .changing => .wait s

/-- Why an address of an operation does not translate (R352): what its walk found, or its form or place. -/
def Op.reasonOf (o : Op) (addr : Nat) : Nat :=
  match o.fault with
  | some (_, r) => r
  | none => if canonical addr then 8 else 1

/-- A failed part of an operation; a fault that its walk brought has been used. -/
def State.partFail (s : State) (id key status addr : Nat) : State :=
  (s.opFail id key status addr).onOp id fun o =>
    { o with fault := none, reason := if o.failAt = key then o.reasonOf addr else o.reason }

/-- The operation starts nothing more. -/
def State.opEnd (s : State) (id : Nat) : State := (s.onOp id fun o => { o with complete := true }).opDue id

def Op.who (o : Op) : Who := ⟨some o.ctx, some o.gid⟩

/-- An access of the operation's group, issued before it, that meets some bytes: one that writes, or any where the operation
writes there (R99, R104, R262). -/
def State.accessBefore (s : State) (o : Op) (p : Place) (n : Nat) (write : Bool) : Bool :=
  s.eng.reqs.any fun q => q.gid = o.gid && decide (q.id < o.id)
    && (q.kind.writes || (write && q.kind.isRead && !(q.accepted && q.kind.isHeldRead))) && placesMeet q.place q.size p n

/-- An earlier MSWITCH of the group over some bytes has not changed its rows (R122). -/
def State.opBehind (s : State) (o : Op) (va n : Nat) : Bool :=
  s.eng.ops.any fun x =>
    x.gid = o.gid && decide (x.id < o.id)
    && (match x.kind with
        | .mswitch _ applied => !applied && !x.complete
        | _ => false)
    && x.span.any fun y => decide (va < y.base + y.len) && decide (y.base < va + n)

/-- An access crosses the die-to-die link: its executor is in another quarter than its core (R402). -/
def Place.crosses (p : Place) (core : Nat) : Bool :=
  match p with
  | .line l _ => homeSlice l / 64 ≠ core / 64
  | .raw st _ _ => st / 4 ≠ core / 64
  | _ => false

/-- What the log names of a flit's words: their local-space address (R403, R404). -/
def State.flitAt (s : State) (p : Place) : LogAt :=
  { LogAt.none with addr := match p with
    | .line l ofs => (s.addressOf l.stack l.ext (128 * l.line + ofs)).getD 0
    | .raw st e d => (s.addressOf st e d).getD 0
    | _ => 0 }

/-- An access of an operation across the link: its words' tags, all set where the flit could not be replayed (R402, R404);
the next flit's replays count afresh. -/
def State.opFlit (s : State) (id core : Nat) (who : Who) (p : Place) (tags : List Bool) : List Bool × State :=
  match if p.crosses core then s.op? id else none with
  | some o =>
    let s := s.onOp id fun o => { o with flits := 0 }
    if o.flits < 9 then (tags, s)
    else (tags.map fun _ => true, (s.charge who 64).machineCheck who (s.flitAt p).addr (s.flitAt p))
  | none => (tags, s)

/-- What reading or writing for an operation comes to. -/
inductive OpAcc where
  | done (bytes : List Byte) (tags : List Bool) (s : State)
  | fail (status : Nat)
  | wait (s : State)

/-- What has been read for an operation has come across the link. -/
def OpAcc.flit (x : OpAcc) (id core : Nat) (who : Who) (p : Place) : OpAcc :=
  match x with
  | .done bs ts s => let (ts, s) := s.opFlit id core who p ts; .done bs ts s
  | x => x

/-- Ask a peer for a part of an operation, once. -/
def State.askPeer (s : State) (o : Op) (n idx : Nat) (at_ : FabPlace) : State :=
  if s.fab.out.any fun f => f.work = .op o.id idx at_.va then s else s.sendPeer n (.op o.id idx at_.va) at_

/-- What stands before a write of an operation at a place: accesses of its group (R99, R104), an MSWITCH (R122), the host's
copy (R128, R425), its row (R93). The state that waits, or that goes on. -/
def State.opEnter (s : State) (o : Op) (p : Place) (va n : Nat) : Except State State :=
  if s.accessBefore o p n true then .error s
  else match p with
    | .line l _ => if (s.line? l).isNone && s.opBehind o va n then .error s else .ok s
    | .raw st e ofs =>
      if s.opBehind o va n then .error s
      else if s.mem.hostLines.contains ⟨st, e, ofs / 128⟩ then .error (s.snoop ⟨st, e, ofs / 128⟩)
      else s.passRows [(sectorPlace (s.extent st e).cls st e (ofs / 64)).1] (.op o.id)
    | _ => .ok s

/-- Read `n` bytes within one 64-byte unit at their executor: never a first-level copy, with open marks met
as a plain load of the group meets them (R112, R262). The host's value comes with the event. -/
def State.opRead (s : State) (o : Op) (idx va n : Nat) (ext : Option ExtVal) : OpAcc :=
  match s.opPlace o va .read with
  | .fail st => .fail st
  | .wait s => .wait s
  | .at p _ res =>
    if s.accessBefore o p n false then .wait s
    else OpAcc.flit (id := o.id) (core := o.core) (who := o.who) (p := p) <| match p with
      | .line l ofs =>
        let word := fun (x : Option DepotLine) (t : Word) =>
          byteTags ofs n fun w => bitOf t w || x.any fun x => s.openWord x o.gid ofs n w
        match s.line? l with
        | some x => .done ((x.bytes.drop ofs).take n) (word (some x) x.poison) (s.onLine l id)
        | none =>
          if s.opBehind o va n then .wait s
          else if s.quota res ≠ 0 then .wait (s.want l res o.who)
          else match s.passRows (s.lineRows l) (.op o.id) with
            | .error s => .wait s
            | .ok s =>
              let ((d, t), s) := s.demandLine o.who l
              .done ((d.drop ofs).take n) (word none t) s
      | .raw st e ofs =>
        let (row, slot) := sectorPlace (s.extent st e).cls st e (ofs / 64)
        if s.opBehind o va n then .wait s
        else match s.passRows [row] (.op o.id) with
          | .error s => .wait s
          | .ok s =>
            let ((d, t), s) := s.demandSector o.who row slot
            .done ((d.drop (ofs % 64)).take n) (List.replicate n t) s
      | .host _ => match s.hostValue o.gid va n ext with
        | some (bs, _, s) => .done bs (List.replicate n false) s
        | none => .wait s
      | .peer k ofs nc => match (s.op? o.id).bind fun o => o.got.find? fun x => x.idx = idx with
        | some x =>
          let s := s.onOp o.id fun o => { o with got := o.got.filter fun y => y.idx ≠ idx }
          if x.status ≠ 0 then .fail x.status
          else .done (leBytes n x.val) ((List.range n).map fun i => x.tags.getLsbD (i / 4)) s
        | none => .wait (s.askPeer o k idx ⟨va, ofs, nc, res⟩)

/-- Poison that its destination cannot hold (R410). -/
def bindsPoison (p : Place) (cls : Option ExtClass) (tags : List Bool) : Bool :=
  tags.any id && (match p with
    | .host _ => true
    | .peer .. => false
    | _ => cls = some .N)

/-- Write bytes within one 64-byte unit at their executor, a plain store where `mark` (R110, R410). -/
def State.opWrite (s : State) (o : Op) (idx va : Nat) (bs : List Byte) (tags : List Bool) (mark : Bool) : OpAcc :=
  match s.opPlace o va .write with
  | .fail st => .fail st
  | .wait s => .wait s
  | .at p cls res =>
    if bindsPoison p cls tags then .fail 0x05
    else match s.opEnter o p va bs.length with
      | .error s => .wait s
      | .ok s =>
        let (tags, s) := s.opFlit o.id o.core o.who p tags
        match p with
        | .line l ofs =>
          let w : WriteOp :=
            { place := p, bytes := bs, tags := tags, marker := if mark then some o.gid else none, cleared := none
              req := none, op := some o.id, peer := none, res := res, maint := none, after := none }
          let s := if o.kind.isCopy then s.l1Store o.core l ofs bs fun i => tags.getD i false else s
          .done [] [] ((s.onOp o.id fun o => { o with left := o.left + 1 }).arrive l w o.who)
        | .raw st e ofs => .done [] [] (s.portStore o.who st e ofs bs (tags.any id))
        | .host a => .done [] [] (s.send (.write a bs))
        | .peer k ofs nc =>
          .done [] [] ((s.onOp o.id fun o => { o with left := o.left + 1 }).sendPeer k (.op o.id idx va) ⟨va, ofs, nc, res⟩)

/-! Arrivals. -/

/-- The key of a failure that any other failure of the operation comes before: GATE_OVERRUN is reported
only where the operation's own work completed OK (R234). -/
def overrunKey : Nat := 2 ^ 64

/-- An arrival of an engine at a gate of its team (R120, R234). -/
def State.engineArrive (s : State) (o : Op) (gate : Option Nat) (n : Nat) : State :=
  match gate, s.team? o.team with
  | some off, some t =>
    let (c, flip, excess) := gateArriveAt s.cores (t.sp off) n
    let s := { s with cores := c }
    let s := if flip then wakeGate s t else s
    if excess then s.opFail o.id overrunKey 0x07 off else s
  | _, _ => s

/-! Retirement. -/

/-- Hold an error of a class, at most 16, or mark that one was lost (R116). -/
def holdError (held : List EngErr × List EClass) (e : EngErr) : List EngErr × List EClass :=
  if (held.1.filter fun x => x.cls = e.cls).length < 16 then (held.1 ++ [e], held.2)
  else (held.1, if held.2.contains e.cls then held.2 else held.2 ++ [e.cls])

/-- A kernel has exited: its grid has no group that still runs (R118). -/
def State.kernelGone (s : State) (gid : Nat) : Bool :=
  match s.group? gid with
  | some g => !(s.groups.any fun x => x.grid = g.grid && !x.ended)
  | none => true

/-- An entry of a context's late-fault queue (R362). -/
def State.lateFault (s : State) (ctx addr status cls reason : Nat) : State :=
  let q := (s.ctx ctx).lateQ
  let s := s.devTouch q 16
  let put := s.devNat q 4
  let get_ := s.devNat (q + 4) 4
  let size := s.devNat (q + 8) 4
  if (put + 2 ^ 32 - get_) % 2 ^ 32 = size then s.devPut (q + 12) 4 ((s.devNat (q + 12) 4 + 1) % 2 ^ 32)
  else
    let s := s.devWrite (q + 0x40 + 32 * (put % size))
      (leBytes 8 addr ++ leBytes 8 s.ltick ++ leBytes 4 (s.ctx ctx).pasid ++ leBytes 1 status ++ leBytes 1 cls
        ++ leBytes 1 reason ++ List.replicate 9 0)
    s.devPut q 4 ((put + 1) % 2 ^ 32)

/-- The lanes of a group that wait for a class re-evaluate: with no error held they go on, with one the word
issues again and traps (R116, R177). -/
def State.wakeWaitc (s : State) (gid : Nat) : State :=
  s.onGroup gid fun g =>
    let ready := maskOf fun L => match (g.lane L).wait with
      | .waitc c n => !(g.lane L).exited && decide (s.countOf gid c ≤ n)
      | _ => false
    let err := maskOf fun L => bitOf ready L && (match (g.lane L).wait with
      | .waitc c _ => (g.heldError c).isSome
      | _ => false)
    (g.setWait err .none).leave (ready &&& ~~~err)

/-- An error of an operation is held: by its group, or by its counter record, which a framed group joins (R116, R119). -/
def Group.keepError (g : Group) (moved : Bool) (e : EngErr) : Group :=
  if moved || g.frame.isSome then let h := holdError (g.recErrs, g.recLost) e; { g with recErrs := h.1, recLost := h.2 }
  else let h := holdError (g.errs, g.lost) e; { g with errs := h.1, lost := h.2 }

/-- A late-fault status (R118): held in class A of the issuing context, at its first group that runs, or until the next
launch in the address space (log 56). -/
def State.lateStatus (s : State) (o : Op) : State :=
  let e : EngErr := ⟨.A, 0x08, o.addr⟩
  match s.groups.find? fun g => g.ctx = o.ctx && !g.ended with
  | some g => (s.onGroup g.gid fun g => g.keepError false e).wakeWaitc g.gid
  | none => { s with sup := { s.sup with late := s.sup.late ++ [(o.pasid, e)] } }

/-- The counter record is freed when its counts reach zero: its errors join the group's (R119). -/
def Group.joinRecord (g : Group) : Group :=
  let held := (g.recErrs ++ g.errs).foldl holdError ([], g.recLost)
  { g with errs := held.1, lost := (held.2 ++ g.lost).eraseDups, recErrs := [], recLost := [], counterRec := none }

/-- A group's counter record has no operation left. -/
def State.recordEmpty (s : State) (gid : Nat) : Bool := !s.eng.ops.any fun x => x.gid = gid && x.moved

/-- Retire an operation with its status (R115 to R119); the record of a group that is framed is joined at its
resumption. -/
def State.retireOp (s : State) (o : Op) : State :=
  let s := { s with eng := { s.eng with ops := s.eng.ops.filter fun x => x.id ≠ o.id } }
  if (o.status = 0x01 || o.status = 0x02 || o.status = 0x08) && s.kernelGone o.gid then
    let reason := if o.reason ≠ 0 then o.reason else if o.status = 0x02 then 4 else 8
    (s.lateFault o.ctx o.addr 0x08 o.cls.code reason).lateStatus o
  else
    let e : EngErr := ⟨o.cls, o.status, o.addr⟩
    let s := s.onGroup o.gid fun g => if o.status = 0 then g else g.keepError o.moved e
    let s := if o.moved && s.recordEmpty o.gid && (s.group? o.gid).all (fun g => g.frame.isNone) then
        s.onGroup o.gid Group.joinRecord
      else s
    s.wakeWaitc o.gid

/-- Every lease on a line that has a sector in some rows has expired (R122). -/
def State.leasesOver (s : State) (rs : List RowId) : Bool :=
  s.mem.leases.all fun x => decide (x.2 ≤ s.ltick) || !((s.lineRows x.1).any fun r => rs.contains r)

/-- What an MSWITCH waits for beyond its change of state (R122, R425). -/
def State.switchOver (s : State) (o : Op) : Bool :=
  match o.kind with
  | .mswitch toBank applied =>
    !applied || (if toBank then
        s.leasesOver o.rows && !(s.mem.hostLines.any fun l => (s.lineRows l).any fun r => o.rows.contains r)
      else o.rows.all fun r => s.rowState r = .controller)
  | _ => true

/-- ENGINE_OP_COMPLETE may act: the operation has completed, and none of its class before it is out (R115). -/
def canOpComplete (id : Nat) (s : State) : Option Op :=
  match s.op? id with
  | some o =>
    if o.complete && o.left = 0 && s.switchOver o
      && !(s.eng.ops.any fun x => x.gid = o.gid && x.cls = o.cls && decide (x.id < o.id)) then some o else none
  | none => none

/-- The oldest operation of a class that a group has out is due, if it is done (R115). -/
def State.nextDue (s : State) (gid : Nat) (c : EClass) : State :=
  match s.eng.ops.find? fun x => x.gid = gid && x.cls = c with
  | some x => s.opDue x.id
  | none => s

/-- ENGINE_OP_COMPLETE (R115): the operation retires, and the next of its class that is done. -/
def doEngineOpComplete (id : Nat) (s : State) : State :=
  match canOpComplete id s with
  | some o => (s.retireOp o).nextDue o.gid o.cls
  | none => s

def execEngineOpComplete (id : Nat) (s : State) : Out := .next (doEngineOpComplete id s)

/-! Translation for the device and at issue: no page request is made. -/

/-- What a walk has found for one that asked: an address does not translate for its kind of access. -/
def State.denial? (s : State) (who : Walker) (pasid va : Nat) (k : AccKind) : Option Denial :=
  s.xl.denied.find? fun d => d.who = who && d.pasid = pasid && d.va = va && d.kind = k

/-- One that asked needs what its walks found no more (R353). -/
def State.undeny (s : State) (who : Walker) : State :=
  { s with xl := { s.xl with denied := s.xl.denied.filter fun d => d.who ≠ who } }

/-- Translate without a page request: a place, a wait for the walk, or no translation (R274). -/
def State.devPlace (s : State) (who : Walker) (core pasid va : Nat) (k : AccKind) (ctx0 : Bool) : OpPlace :=
  if !canonical va then .fail 0x11
  else match s.translate core pasid va k with
    | .hit pa nc res => match s.placeOf pa nc ctx0 with
      | .at p cls => .at p cls res
      | .absent => .fail 0x11
      | .changing => .wait s
    | _ => if (s.denial? who pasid va k).isSome then .fail 0x11 else .wait (s.askWalk (clusterOf core) pasid va k who)

/-- The device's own reader or writer of an address space, and the walker of a waybill, as they ask for walks. -/
def deviceWalker (pasid : Nat) : Walker := .device (2 * pasid)
def billWalker (id : Nat) : Walker := .device (2 * id + 1)

/-- What looking at some pages at issue comes to (R267, R279): a page whose walk is to be made, a page whose slot is changing
(R365), or every page looked at. -/
inductive Look where
  | miss (va : Nat)
  | stall
  | done
  deriving DecidableEq, Repr

/-- Look at some pages: each is walked once for the word, without a page request. -/
def State.look (s : State) (g : Group) (pc : BitVec 64) (k : AccKind) : List Nat → Look
  | [] => .done
  | a :: as =>
    if !canonical a then s.look g pc k as
    else match s.translate g.core g.pasid a k with
      | .hit pa nc _ => match s.placeOf pa nc (g.ctx = 0) with
        | .changing => .stall
        | _ => s.look g pc k as
      | _ => if (s.denial? (.look g.gid pc) g.pasid a k).isSome then s.look g pc k as else .miss a

/-- A word that looks at pages waits for a walk of its own, or goes on with what it has found. -/
def State.afterLook (s : State) (g : Group) (k : AccKind) (vas : List Nat) (f : State → State) : State :=
  let who : Walker := .look g.gid s.cur.pc
  match s.look g s.cur.pc k vas with
  | .miss a => (s.askWalk (clusterOf g.core) g.pasid a k who).onGroup g.gid fun x => x.await s.cur s.cur.lanes fun _ => .walk
  | .stall => s
  | .done => f (s.undeny who)

end Sys2Proof.Machine
end

