-- ==== Sys2Proof/Machine/Engines.lean ====
section
/-! DEFINITION. Tensor descriptors and copies (R258 to R263), the Marshal (R264 to R266), remote stores
(R267, R268), indexed reduce (R270, R271), CLEAN, INVAL and MSWITCH (R244 to R246, R122, R124). -/

namespace Sys2Proof.Machine

/-! Descriptors. -/

/-- An invalid slot. -/
def Desc.invalid : Desc :=
  { base := 0, esize := 0, rank := 0, read := false, write := false, pad := 0, dims := [], strides := []
    box := [], padLo := [], padHi := [], alias_ := false }

def Desc.valid (d : Desc) : Bool := d.rank ≠ 0

/-- The contents of a descriptor image (R258). -/
def Desc.ofImage (b : List Byte) (alias_ : Bool) : Desc :=
  let f := fun o n => leNat ((b.drop o).take n)
  let four := fun (h : Nat → Nat) => (List.range 4).map h
  { base := BitVec.ofNat 64 (f 0 8), esize := f 8 1, rank := f 9 1, read := natBit (f 10 2) 0, write := natBit (f 10 2) 1
    pad := f 12 4, dims := four fun k => f (0x10 + 4 * k) 4
    strides := (List.range 4).map fun k => natSext (f (0x20 + 8 * k) 8) 64
    box := four fun k => f (0x40 + 2 * k) 2, padLo := four fun k => f (0x48 + k) 1
    padHi := four fun k => f (0x4C + k) 1, alias_ := alias_ }

def Desc.dim (d : Desc) (k : Nat) : Nat := d.dims.getD k 1
def Desc.stride (d : Desc) (k : Nat) : Int := d.strides.getD k 0
def Desc.boxOf (d : Desc) (k : Nat) : Nat := d.box.getD k 1
def Desc.lo (d : Desc) (k : Nat) : Nat := d.padLo.getD k 0
def Desc.hi (d : Desc) (k : Nat) : Nat := d.padHi.getD k 0

/-- The element size in bytes. -/
def Desc.elem (d : Desc) : Nat := 2 ^ d.esize

/-- An image breaks R258 or its alignment (status 1 of R259). -/
def imageBad (b : List Byte) : Bool :=
  let d := Desc.ofImage b false
  let flags := leNat ((b.drop 10).take 2)
  decide (3 < d.esize) || d.rank = 0 || decide (4 < d.rank) || decide (3 < flags) || flags = 0
  || (b.drop 0x50).any (· ≠ 0)
  || ((List.range 4).any fun k =>
        d.dim k = 0 || decide (2 ^ 31 ≤ d.dim k) || d.boxOf k = 0
        || (decide (d.rank ≤ k) && (d.dim k ≠ 1 || d.boxOf k ≠ 1 || d.stride k ≠ 0 || d.lo k ≠ 0 || d.hi k ≠ 0))
        || d.stride k % (d.elem : Int) ≠ 0)
  || d.base.toNat % d.elem ≠ 0

/-- The lowest and the highest byte of V, with or without padding (R259). -/
def Desc.span (d : Desc) (pad : Bool) : Int × Int :=
  let ends := (List.range 4).map fun k =>
    let a : Int := if pad then -(d.lo k : Int) else 0
    let b : Int := (d.dim k : Int) - 1 + (if pad then (d.hi k : Int) else 0)
    (min (a * d.stride k) (b * d.stride k), max (a * d.stride k) (b * d.stride k))
  ((d.base.toNat : Int) + (ends.map (·.1)).foldl (· + ·) 0,
   (d.base.toNat : Int) + (ends.map (·.2)).foldl (· + ·) 0 + d.elem - 1)

/-- The flags of the allocation record that holds a range of a PASID, if one does (R259, R363). -/
def State.allocOf (s : State) (pasid : Nat) (r : Int × Int) : Option Nat :=
  match s.pasidEntry pasid with
  | none => none
  | some e =>
    let recs := (List.range e.allocCount).map fun k =>
      (s.devNat (e.allocTab + 16 * k) 8, s.devNat (e.allocTab + 16 * k + 8) 6, s.devNat (e.allocTab + 16 * k + 14) 2)
    let best := recs.foldl (fun (b : Option (Nat × Nat × Nat)) x =>
      if (x.1 : Int) ≤ r.1 && b.all (fun y => decide (y.1 < x.1)) then some x else b) none
    match best with
    | some (base, len, flags) => if r.2 < (base : Int) + len then some flags else none
    | none => none

/-- What reading a PASID's allocation table corrects is rewritten (R392). -/
def State.allocTouch (s : State) (pasid : Nat) : State :=
  match s.pasidEntry pasid with
  | none => s
  | some e => (s.devTouch (s.xl.tb.pasidTab + 32 * pasid) 32).devTouch e.allocTab (16 * e.allocCount)

/-- Insert by absolute stride, ties in order. -/
def insertStride (x : Nat × Nat) : List (Nat × Nat) → List (Nat × Nat)
  | [] => [x]
  | y :: ys => if x.1 < y.1 then x :: y :: ys else y :: insertStride x ys

/-- The aliasing test of R260. -/
def Desc.distinct (d : Desc) : Bool :=
  let dims := (List.range 4).filterMap fun k =>
    let e := d.dim k + d.lo k + d.hi k
    if 1 < e then some ((d.stride k).natAbs, e) else none
  let sorted := dims.foldl (fun l x => insertStride x l) []
  (sorted.foldl (fun (a : Bool × Nat) (x : Nat × Nat) => (a.1 && decide (a.2 ≤ x.1), a.2 + x.1 * (x.2 - 1)))
    (true, d.elem)).1

/-- The status of TDESC (R259). -/
def tdescStatus (s : State) (pasid : Nat) (b : List Byte) (alias_ : Bool) : Nat :=
  let d := Desc.ofImage b alias_
  if imageBad b then 1
  else match s.allocOf pasid (d.span true) with
    | none => if (s.allocOf pasid (d.span false)).isSome then 3 else 2
    | some f =>
      if (d.read && !natBit f 0) || (d.write && !natBit f 1) then 4
      else if d.write && !alias_ && !d.distinct then 5 else 0

/-- TDESC and TDESC.ALIAS (R259). -/
def tdescEffect (alias_ : Bool) (o : EForm) (s : State) (g : Group) (act : Word) : State :=
  let slot := uniN g o.e2
  let off := uniN g o.e3
  match paramCheck act [(2, decide (31 < slot))] <|> rangeTrap s g act off 128 128 with
  | some t => raise s t
  | none =>
    let b := spBytes s.cores (spPhys s g off) 128
    let st := tdescStatus s g.pasid b alias_
    let d := if st = 0 then Desc.ofImage b alias_ else Desc.invalid
    let s := if imageBad b then s else s.allocTouch g.pasid
    let s := s.onTeam g.team fun t => { t with descs := sset Desc.invalid t.descs slot d }
    s.onGroup s.cur.gid fun x => (wrS x o.e1.toNat ⟨BitVec.ofNat 32 st, false⟩).advance s.cur 0

def execTdesc (o : EForm) (s : State) : Out := execEngine (.tdesc o) false none o.g (tdescEffect false o) s
def execTdescAlias (o : EForm) (s : State) : Out := execEngine (.tdescAlias o) false none o.g (tdescEffect true o) s

/-- A slot of the group's team. -/
def slotOf (s : State) (g : Group) (n : Nat) : Desc :=
  match s.team? g.team with
  | some t => if n ≤ 31 then sget Desc.invalid t.descs n else Desc.invalid
  | none => Desc.invalid

/-! Copies. -/

/-- Elements of the box. -/
def Desc.count (d : Desc) : Nat := d.boxOf 0 * d.boxOf 1 * d.boxOf 2 * d.boxOf 3

/-- Box indices of element `e`, dimension 0 fastest (R258, R262). -/
def Desc.index (d : Desc) (e k : Nat) : Nat :=
  let q := (List.range k).foldl (fun q i => q / d.boxOf i) e
  q % d.boxOf k

/-- Inside, padded, and the address of a place of the tensor (R262). -/
def Desc.at_ (d : Desc) (x : Nat → Int) : Bool × Bool × Nat :=
  let all := fun (f : Nat → Bool) => (List.range 4).all f
  (all fun k => decide (0 ≤ x k) && decide (x k < (d.dim k : Int)),
   all fun k => decide (-(d.lo k : Int) ≤ x k) && decide (x k < (d.dim k : Int) + d.hi k),
   wrapNat ((d.base.toNat : Int) + ((List.range 4).map fun k => x k * d.stride k).foldl (· + ·) 0) 64)

/-- PADVAL as an element (R258). -/
def Desc.padBytes (d : Desc) : List Byte :=
  if d.esize = 3 then leBytes 4 d.pad ++ leBytes 4 d.pad else leBytes d.elem d.pad

/-- CPY (R261). -/
def cpyEffect (isIn : Bool) (o : EForm) (s : State) (g : Group) (act : Word) : State :=
  let d := slotOf s g (uniN g o.e1)
  let so := uniN g o.e2
  let w := (rdS g (o.e2.toNat + 1)).val.toNat
  let gate := gateOf g o.flag o.e3
  match paramCheck act [(1, !d.valid || !(if isIn then d.read else d.write)), (2, so % d.elem ≠ 0)]
      <|> rangesTrap s g act [(so, d.count * d.elem, 1)] gate with
  | some t => raise s t
  | none =>
    let coord := [uniInt g o.e4.toNat, uniInt g (o.e4.toNat + 1), natSext (w % 65536) 16, natSext (w / 65536) 16]
    issueOp .K (.cpy isIn d so coord gate) [] s g

def execCpyIn (o : EForm) (s : State) : Out := execEngine (.cpyIn o) false (some .K) o.g (cpyEffect true o) s
def execCpyOut (o : EForm) (s : State) : Out := execEngine (.cpyOut o) false (some .K) o.g (cpyEffect false o) s

/-- What doing some parts of an operation, from one of them on, comes to: how many are done, and the values of the host
that are left. -/
inductive Part where
  | ok (s : State) (done : Nat) (ext : List ExtVal)
  | fail (status addr : Nat)
  | wait (s : State)

/-- Write copied bytes word by word, past live gate words; the second answer says that one was skipped (R77). -/
def spCopy (c : Cores) (a : Nat) (bs : List Byte) (tags : List Bool) : Cores × Bool :=
  (List.range ((bs.length + 3) / 4)).foldl (fun (acc : Cores × Bool) i =>
    if spGate acc.1 (a + 4 * i) then (acc.1, true)
    else (spPut acc.1 (a + 4 * i) ((bs.drop (4 * i)).take 4) fun k => tags.getD (4 * i + k) false, acc.2)) (c, false)

/-- Element `e` of a copy: inside, padded, and its address (R262). -/
def Desc.place (d : Desc) (coord : List Int) (e : Nat) : Bool × Bool × Nat := d.at_ fun k => coord.getD k 0 + d.index e k

/-- How many of the `m` elements from `e` on follow one another in one aligned word of memory, with the same source: they
are moved as one, so that no word of a copy is seen torn (R98). -/
def Desc.joined (d : Desc) (coord : List Int) (e m : Nat) : Nat :=
  let x := d.place coord e
  1 + ((List.range (m - 1)).takeWhile fun i =>
    let y := d.place coord (e + i + 1)
    y.1 = x.1 && y.2.1 = x.2.1 && y.2.2 = x.2.2 + (i + 1) * d.elem && y.2.2 / 4 = x.2.2 / 4).length

/-- Read `m` elements of a copy in from `e` on, and those that share the last word with them; `fuel` is at least `m`. A
failure names its element and address. -/
def cpyRead (o : Op) (d : Desc) (coord : List Int) : Nat → Nat → Nat → List ExtVal → State →
    Except (State ⊕ Nat × Nat) (List (Byte × Bool) × List ExtVal × State)
  | 0, _, _, ext, s => .ok ([], ext, s)
  | fuel + 1, e, m, ext, s =>
    if m = 0 then .ok ([], ext, s)
    else
      let k := d.joined coord e (d.count - e)
      let (inside, _, adr) := d.place coord e
      let one : OpAcc := if inside then s.opRead o e adr (k * d.elem) ext.head?
        else .done ((List.range k).flatMap fun _ => d.padBytes) (List.replicate (k * d.elem) false) s
      match one with
      | .fail st => .error (.inr (st, adr))
      | .wait s => .error (.inl s)
      | .done bs ts s =>
        match cpyRead o d coord fuel (e + k) (m - k) (if inside then ext.drop 1 else ext) s with
        | .ok (bs', ext, s) => .ok (bs.zip ts ++ bs', ext, s)
        | .error x => .error x

/-- What an operation has read ahead. -/
def State.opAhead (s : State) (id : Nat) : List (Byte × Bool) := ((s.op? id).map (·.ahead)).getD []

/-- `m` elements of a copy in from `e` on: those read ahead, then what is read now, and what is left of the last word. -/
def cpyTake (o : Op) (d : Desc) (coord : List Int) (e m : Nat) (ext : List ExtVal) (s : State) :
    Except (State ⊕ Nat × Nat) (List (Byte × Bool) × List (Byte × Bool) × List ExtVal × State) :=
  let a := s.opAhead o.id
  let h := a.length / d.elem
  (cpyRead o d coord m (e + h) (m - h) ext s).map fun (bs, ext, s) =>
    ((a ++ bs).take (m * d.elem), (a ++ bs).drop (m * d.elem), ext, s)

/-- The read of the host that stops a copy's reads from element `e` on, and the state in which it stops them. -/
def cpyHostWait (o : Op) (d : Desc) (coord : List Int) : Nat → Nat → Nat → State → Option (Nat × State)
  | 0, _, _, _ => none
  | fuel + 1, e, m, s =>
    let k := d.joined coord e (d.count - e)
    let (inside, _, adr) := d.place coord e
    if m = 0 then none
    else if !inside then cpyHostWait o d coord fuel (e + k) (m - k) s
    else match s.opRead o e adr (k * d.elem) none, s.opPlace o adr .read with
      | .done _ _ s, _ => cpyHostWait o d coord fuel (e + k) (m - k) s
      | .wait _, .at (.host _) _ _ => some (adr, s)
      | _, _ => none

/-- The read of the host that a copy waits for. -/
def State.copyWait (s : State) (o : Op) : Option (Nat × State) :=
  match o.kind, s.team? o.team with
  | .cpy true d so coord _, some t =>
    if o.complete then none
    else
      let a := t.sp (so + o.pos * d.elem)
      let m := max 1 (min (d.count - o.pos) ((4 - a % 4) / d.elem))
      let h := o.ahead.length / d.elem
      cpyHostWait o d coord m (o.pos + h) (m - h) s
  | _, _ => none

/-- The elements of a copy in from `e` on, before `e1`, that share an aligned word of the scratchpad (R98, R262): read,
and written at once. A copy that fails at the first of them stops; at a later one, it does those before it alone. -/
def cpyInElem (s : State) (o : Op) (t : Team) (d : Desc) (so : Nat) (coord : List Int) (e e1 : Nat)
    (ext : List ExtVal) : Part :=
  let a := t.sp (so + e * d.elem)
  let m := max 1 (min (e1 - e) ((4 - a % 4) / d.elem))
  let got := ((s.op? o.id).map (·.got)).getD []
  let put := fun (m : Nat) (bs rest : List (Byte × Bool)) (ext : List ExtVal) (s : State) =>
    let (c, clob) := spCopy s.cores a (bs.map (·.1)) (bs.map (·.2))
    let s := State.onOp { s with cores := c } o.id fun o => { o with ahead := rest }
    Part.ok (if clob then s.opFail o.id e 0x06 (so + e * d.elem) else s) m ext
  match cpyTake o d coord e m ext s with
  | .ok (bs, rest, ext, s) => put m bs rest ext s
  | .error (.inl u) =>
    .wait (State.onOp { u with disp := s.disp } o.id fun o =>
      { o with got := got ++ o.got.filter fun x => !got.any fun y => y.idx = x.idx })
  | .error (.inr f) => match cpyTake o d coord e 1 ext s with
    | .ok (bs, rest, ext, s) => put 1 bs rest ext s
    | .error (.inl s) => .wait s
    | .error (.inr _) => .fail f.1 f.2

/-- An element that went to a peer is not answered yet: it may fail there, and none after it is then done (R262). -/
def State.elemOut (s : State) (o : Op) : Bool :=
  s.fab.out.any fun f => match f.work with
    | .op id _ _ => id = o.id
    | _ => false

/-- The failure of an element that has gone out already. -/
def State.elemFailed (s : State) (o : Op) : Option (Nat × Nat) :=
  (s.op? o.id).bind fun x => if x.status ≠ 0 && x.failAt < overrunKey then some (x.status, x.addr) else none

/-- `n` bytes of a copy out from the scratchpad offset `a` on: those read ahead, then whole words of the scratchpad, up to
the copy's end `hi`; and what is left of the last word (R98). -/
def State.spTake (s : State) (o : Op) (t : Team) (a n hi : Nat) : List (Byte × Bool) × List (Byte × Bool) :=
  let h := s.opAhead o.id
  let lo := a + h.length
  let e := min hi ((t.sp (a + n) + 3) / 4 * 4 - t.sp a + a)
  let (bs, ts) := teamBytes s t lo (e - lo)
  ((h ++ bs.zip ts).take n, (h ++ bs.zip ts).drop n)

/-- Element `e` of a copy out, with those after it that share its word (R98). -/
def cpyOutElem (s : State) (o : Op) (t : Team) (d : Desc) (so : Nat) (coord : List Int) (e : Nat) : Part :=
  if s.elemOut o then .wait s
  else match s.elemFailed o with
  | some (st, a) => .fail st a
  | none =>
  let k := d.joined coord e (d.count - e)
  let (inside, padded, adr) := d.place coord e
  let (bs, rest) := if inside then s.spTake o t (so + e * d.elem) (k * d.elem) (so + d.count * d.elem)
    else (((List.range k).flatMap fun _ => d.padBytes).map fun b => (b, false), (s.opAhead o.id).drop (k * d.elem))
  let keep := fun (s : State) => s.onOp o.id fun o => { o with ahead := rest }
  if inside || padded then
    match s.opWrite o e adr (bs.map (·.1)) (bs.map (·.2)) true with
    | .done _ _ s => .ok (keep s) k []
    | .fail st => .fail st adr
    | .wait s => .wait s
  else .ok (keep s) k []

/-- The next `n` parts of an operation are done. -/
def State.stepOp (s : State) (id : Nat) (n : Nat := 1) : State := s.onOp id fun o => { o with pos := o.pos + n, fault := none }

/-- Parts in order from `e`, up to `e1`, until one fails or waits; the answer says that all are done. -/
def runParts (f : State → Nat → List ExtVal → Part) (id e1 : Nat) : Nat → Nat → List ExtVal → State → State × Bool
  | 0, _, _, s => (s, true)
  | fuel + 1, e, ext, s =>
    if e1 ≤ e then (s, true)
    else match f s e ext with
    | .ok s n ext => runParts f id e1 fuel (e + n) ext (s.stepOp id n)
    | .fail st a => ((s.partFail id e st a).opEnd id, false)
    | .wait s => (s, false)

/-- The bytes of a copy that are done when its elements up to `e` are, in the granule that ends there (R120). -/
def granuleBytes (so elem e : Nat) : Nat :=
  let hi := so + e * elem
  hi - max so ((hi - 1) / 64 * 64)

/-- One granule of a copy (R120, R262). A copy out keeps the granule's end in `got` until all of it is applied; a word
that two granules share is written with the first (R98). -/
def cpyGranule (s : State) (o : Op) (t : Team) (isIn : Bool) (d : Desc) (so : Nat) (coord : List Int)
    (gate : Option Nat) (ext : List ExtVal) : State :=
  let n := d.count
  let arrive := fun (s : State) (e : Nat) =>
    let s := s.engineArrive o gate (granuleBytes so d.elem e)
    if e = n then s.opEnd o.id else s
  if o.launched then
    if o.left ≠ 0 then s
    else if (s.elemFailed o).isSome then s.opEnd o.id
    else arrive (s.onOp o.id fun o => { o with launched := false, got := [] }) ((o.got.head?.map (·.idx)).getD o.pos)
  else
    let e1 := min n ((((so + o.pos * d.elem) / 64 + 1) * 64 - so) / d.elem)
    let f := fun (s : State) e x => if isIn then cpyInElem s o t d so coord e e1 x else cpyOutElem s o t d so coord e
    match runParts f o.id e1 (e1 - o.pos) o.pos ext s with
    | (s, true) => if isIn then arrive s e1 else s.onOp o.id fun o => { o with launched := true, got := [⟨e1, 0, 0, 0, 0⟩] }
    | (s, false) => s

/-- One dray's 64 bytes of an IMX.COLLECT (R277). -/
def collectGranule (s : State) (o : Op) (t : Team) (dest : Nat) (gate : Option Nat) (data : List (Nat × List TW)) : State :=
  match (o.drays[o.pos]?).bind fun k => data.find? fun x => x.1 = k with
  | none => s
  | some (_, ws) =>
    let a := dest + 64 * o.pos
    let (c, clob) := spCopy s.cores (t.sp a) (ws.flatMap fun w => leBytes 4 w.val.toNat)
      (ws.flatMap fun w => List.replicate 4 w.tag)
    let s := { s with cores := c }
    let s := if clob then s.opFail o.id o.pos 0x06 a else s
    let s := (s.stepOp o.id).engineArrive o gate 64
    if o.pos + 1 = o.drays.length then s.opEnd o.id else s

/-- COPY_GRANULE_WRITTEN (R120). -/
def doCopyGranuleWritten (id : Nat) (ext : List ExtVal) (s : State) : State :=
  match s.op? id with
  | none => s
  | some o =>
    if o.complete then s
    else match s.team? o.team with
      | none => s
      | some t => match o.kind with
        | .cpy isIn d so coord gate => cpyGranule s o t isIn d so coord gate ext
        | .imxCollect dest gate data => collectGranule s o t dest gate data
        | _ => s

def execCopyGranuleWritten (id : Nat) (ext : List ExtVal) (s : State) : Out := .next (doCopyGranuleWritten id ext s)

/-! The Marshal. -/

/-- MRS (R264). -/
def mrsEffect (o : EForm) (s : State) (g : Group) (act : Word) : State :=
  let mx := o.flag
  let d := slotOf s g (uniN g o.e1)
  let sd := slotOf s g (uniN g o.e3)
  let c0 := uniInt g o.e4.toNat
  let bad := fun (d : Desc) => d.rank ≠ 2 || !d.read
  match paramCheck act [(1, bad d), (1, mx && d.esize ≠ 0), (3, mx && bad sd), (4, mx && c0 % 16 ≠ 0)] with
  | some t => raise s t
  | none =>
    issueOp .B (.mrs d (if mx then some sd else none) (uniPair g o.e2) c0 (uniInt g (o.e4.toNat + 1))) [] s g

def execMrs (o : EForm) (s : State) : Out := execEngine (.mrs o) false (some .B) o.g (mrsEffect o) s

/-- The Marshal's chunks per row that hold elements, and in all (R265). -/
def marshalRow (d : Desc) (sc : Option Desc) : Nat × Nat :=
  let je := (d.boxOf 0 * d.elem + 31) / 32
  (je, je + (if sc.isSome then (d.boxOf 0 / 16 + 31) / 32 else 0))

/-- The byte of the destination extent where chunk (h, j) goes (R265). -/
def marshalByte (s d0 jj h j : Nat) : Nat :=
  let p := h / 1024 * jj + j
  64 * s * (d0 / (64 * s) + 1024 * (p / (2 * s)) + h % 1024) + 32 * (p % (2 * s))

/-- What a chunk holds: whose slot, its coordinates, how many bytes, of a row of element bytes or of the BOX0 div 16 scale
bytes (R264, R265), and how many bytes of the row are left with it. -/
def marshalElems (d : Desc) (sc : Option Desc) (c0 c1 : Int) (h j : Nat) : Desc × Int × Int × Nat × Nat :=
  let (je, _) := marshalRow d sc
  let row := fun (x : Desc) (start : Int) (len k : Nat) =>
    (x, start + (k * (32 / x.elem) : Nat), c1 + (h : Int), min 32 (len - 32 * k), len - 32 * k)
  match (if j < je then none else sc) with
  | none => row d c0 (d.boxOf 0 * d.elem) j
  | some sd => row sd (c0 / 16) (d.boxOf 0 / 16) (j - je)

/-- A Marshal source lies in local memory, whose stack's Marshal reads it (R266). -/
def State.marshalSource (s : State) (o : Op) (va : Nat) : OpPlace :=
  match s.opPlace o va .read with
  | .at (.host _) _ _ | .at (.peer ..) _ _ | .fail 0x04 => .fail 0x03
  | r => r

/-- Read the elements of a chunk in order. -/
def marshalRead (o : Op) (d : Desc) (x0 x1 : Int) (idx : Nat) : List Nat → State → OpAcc
  | [], s => .done [] [] s
  | b :: bs, s =>
    let (inside, _, adr) := d.at_ fun k => if k = 0 then x0 + b else if k = 1 then x1 else 0
    let one : OpAcc :=
      if inside then
        match s.marshalSource o adr with
        | .at .. => s.opRead o idx adr d.elem none
        | .fail st => .fail (256 * adr + st)
        | .wait s => .wait s
      else .done d.padBytes (List.replicate d.elem false) s
    match one with
    | .done x t s => match marshalRead o d x0 x1 idx bs s with
      | .done y u s => .done (x ++ y) (t ++ u) s
      | r => r
    | .fail st => .fail (if st < 256 then 256 * adr + st else st)
    | .wait s => .wait s

/-- The stack, extent, offset and sectors of a train's base; a status where it is none (R265). -/
inductive TrainBase where
  | ok (stack ext d0 sectors : Nat)
  | fail (status : Nat)
  | wait (s : State)

def State.trainBase (s : State) (o : Op) (dest : Nat) : TrainBase :=
  match s.opPlace o dest .write with
  | .wait s => .wait s
  | .fail 0x04 => .fail 0x0C
  | .fail st => .fail st
  | .at p cls _ =>
    let sec := (cls.getD .pool).sectors
    let at_ := fun (st e d : Nat) => if sec ≠ 0 && d % (64 * sec * 1024) = 0 then TrainBase.ok st e d sec else .fail 0x0C
    match p with
    | .line l ofs => at_ l.stack l.ext (128 * l.line + ofs)
    | .raw st e d => at_ st e d
    | _ => .fail 0x0C

/-- Chunk `k` in order (h, j) of the train stands where R265 puts it. -/
def marshalPlace (s : State) (o : Op) (dest st e d0 sec jj : Nat) (k : Nat) : Part :=
  let b := marshalByte sec d0 jj (k / jj) (k % jj)
  let va := wrapNat (dest + (b : Int) - d0) 64
  let same := fun (st' e' d' : Nat) => if st' = st && e' = e && d' = b then Part.ok s 1 [] else .fail 0x0C va
  match s.opPlace o va .write with
  | .wait s => .wait s
  | .fail x => .fail (if x = 0x04 then 0x0C else x) va
  | .at (.line l ofs) _ _ => same l.stack l.ext (128 * l.line + ofs)
  | .at (.raw st' e' d) _ _ => same st' e' d
  | .at .. => .fail 0x0C va

/-- Look at every place of the train before anything is written (R266): up to a place that does not translate. -/
def marshalScan (o : Op) (dest st e d0 sec jj : Nat) : List Nat → State → State
  | [], s => s.onOp o.id fun o => { o with launched := true, pos := 0 }
  | k :: ks, s =>
    match marshalPlace s o dest st e d0 sec jj k with
    | .ok s .. => marshalScan o dest st e d0 sec jj ks (s.stepOp o.id)
    | .wait s => s
    | .fail x va =>
      if x = 0x0C then (s.partFail o.id 0 x va).opEnd o.id
      else s.onOp o.id fun o => { o with launched := true, pos := 0, fault := none, got := [⟨k, o.reasonOf va, 0, x, va⟩] }

/-- How many elements of a row after the first `n` share the word of the last of them, and are read with it (R98). -/
def marshalMore (d : Desc) (x0 x1 : Int) (n len : Nat) : Nat :=
  let at_ := fun (b : Nat) => d.at_ fun k => if k = 0 then x0 + b else if k = 1 then x1 else 0
  let x := at_ (n - 1)
  ((List.range len).takeWhile fun i =>
    let y := at_ (n + i)
    x.1 && y.1 && y.2.2 = x.2.2 + (i + 1) * d.elem && y.2.2 / 4 = x.2.2 / 4).length

/-- Read and write chunk `k`: what the chunk before it in its row has read ahead, then its elements in whole words (R98). -/
def marshalChunk (s : State) (o : Op) (d : Desc) (sc : Option Desc) (c0 c1 : Int) (dest d0 sec jj k : Nat) : Part :=
  let (x, x0, x1, n, len) := marshalElems d sc c0 c1 (k / jj) (k % jj)
  let va := wrapNat (dest + (marshalByte sec d0 jj (k / jj) (k % jj) : Int) - d0) 64
  let a := if n < len || k % jj ≠ 0 then s.opAhead o.id else []
  let h := a.length / x.elem
  let m := (n + x.elem - 1) / x.elem
  let more := marshalMore x x0 x1 m ((len - n) / x.elem)
  match marshalRead o x x0 x1 k ((List.range (m + more - h)).map (h + ·)) s with
  | .wait s => .wait s
  | .fail f => .fail (f % 256) (f / 256)
  | .done bs tags s =>
    let all := a ++ bs.zip tags
    let row := all.take n
    match s.opWrite o k va (row.map (·.1) ++ List.replicate (32 - n) 0) (row.map (·.2)) true with
    | .done _ _ s => .ok (s.onOp o.id fun o => { o with ahead := all.drop n }) 1 []
    | .fail st => .fail st va
    | .wait s => .wait s

/-- MARSHAL_SECTOR_WRITE (R266): the chunks of the next sector, in chunk order. -/
def doMarshalSectorWrite (id : Nat) (s : State) : State :=
  match s.op? id with
  | none => s
  | some o => if o.complete then s else match o.kind with
    | .mrs d sc dest c0 c1 =>
      let jj := (marshalRow d sc).2
      let n := d.boxOf 1 * jj
      match s.trainBase o dest with
      | .wait s => s
      | .fail st => (s.partFail id 0 st dest).opEnd id
      | .ok st e d0 sec =>
        if !o.launched then
          marshalScan o dest st e d0 sec jj ((List.range (n - o.pos)).map (o.pos + ·)) s
        else
          match o.got.head? with
          | some stop => if o.pos = stop.idx then
              ((s.partFail id stop.idx stop.status stop.addr).onOp id fun o => { o with reason := stop.val }).opEnd id else go s o d sc c0 c1 dest d0 sec jj n
          | none => go s o d sc c0 c1 dest d0 sec jj n
    | _ => s
where
  /-- The next chunk, and the one after it where it shares its sector. -/
  go (s : State) (o : Op) (d : Desc) (sc : Option Desc) (c0 c1 : Int) (dest d0 sec jj n : Nat) : State :=
    let k := o.pos
    let sect := fun k => marshalByte sec d0 jj (k / jj) (k % jj) / 64
    let last := (o.got.head?.map (·.idx)).getD n
    let e1 := if k + 1 < last && sect (k + 1) = sect k then k + 2 else k + 1
    match runParts (fun s k _ => marshalChunk s o d sc c0 c1 dest d0 sec jj k) o.id e1 2 k [] s with
    | (s, true) => if e1 = n then s.opEnd o.id else s
    | (s, false) => s

def execMarshalSectorWrite (id : Nat) (s : State) : Out := .next (doMarshalSectorWrite id s)

/-! Remote stores. -/

/-- Where a page of an RST lies, when it translates (R267). -/
inductive RstPlace where
  | open_ | local_ | peer (n : Nat) | host
  deriving DecidableEq, Repr

/-- The first addresses of the pages of a range. -/
def pagesOf (a len : Nat) : List Nat :=
  (List.range ((a % 4096 + len + 4095) / 4096)).map fun i => if i = 0 then a else (a / 4096 + i) * 4096

def State.rstPlace (s : State) (core pasid ctx va : Nat) : RstPlace :=
  match s.translate core pasid va .write with
  | .hit pa _ _ => match s.window pa with
    | .local_ _ => if (match s.placeOf pa false (ctx = 0) with
        | .at .. => true
        | _ => false) then .local_ else .open_
    | .peer n _ => .peer n
    | .host _ => .host
    | .absent => .open_
  | _ => .open_

/-- The places that translate are not one admitted place (R267). -/
def rstSplit (ps : List RstPlace) : Bool :=
  let known := (ps.filter (· ≠ .open_)).eraseDups
  known.contains .host || decide (1 < known.length)

/-- The value checks of RST. -/
def rstCheck (g : Group) (o : EForm) (act : Word) : Option TrapReq :=
  let n := uniN g o.e4
  paramCheck act [(4, decide (n < 4) || decide (65536 < n) || n % 4 ≠ 0), (1, uniN g o.e1 % 4 ≠ 0), (2, uniPair g o.e2 % 4 ≠ 0),
    (3, uniPair g o.e3 % 4 ≠ 0)]

/-- The pages of RST: its flag's, and those of its destination. -/
def rstPages (g : Group) (o : EForm) : List Nat := uniPair g o.e3 :: pagesOf (uniPair g o.e2) (uniN g o.e4)

/-- RST (R267). -/
def rstEffect (o : EForm) (s : State) (g : Group) (act : Word) : State :=
  let so := uniN g o.e1
  let dst := uniPair g o.e2
  let flag := uniPair g o.e3
  let n := uniN g o.e4
  match rstCheck g o act with
  | some t => raise s t
  | none =>
    let pages := rstPages g o
    s.afterLook g .write pages fun s =>
      let places := pages.map fun a => s.rstPlace g.core g.pasid g.ctx a
      match paramCheck act [(3, rstSplit places)] <|> rangeTrap s g act so n 4 with
      | some t => raise s t
      | none => match s.team? g.team with
        | none => s
        | some t =>
          let (bs, tags) := teamBytes s t so n
          issueOp .F (.rst dst flag bs tags 0) [] s g

def execRst (o : EForm) (s : State) : Out := execEngine (.rst o) false (some .F) o.g (rstEffect o) s

/-- Put an RST into a phase. -/
def State.rstPhase (s : State) (id n : Nat) : State :=
  s.onOp id fun o => { o with kind := match o.kind with
    | .rst a b c d _ => .rst a b c d n
    | k => k }

/-- Translate every page of an RST, in order (R267). -/
def rstLook (o : Op) : List Nat → State → OpAcc
  | [], s => .done [] [] s
  | a :: as, s =>
    match s.opPlace o a .write with
    | .at .. => rstLook o as s
    | .fail st => .fail (256 * a + st)
    | .wait s => .wait s

/-- A RED of an operation at its home slice or stack port, counted with the operation. -/
def State.opRed (s : State) (o : Op) (p : Place) (va res : Nat) (op : AtomOp) (ac x : Nat) (tag : Bool) : State :=
  let (n, s) := s.fresh
  let (tags, s) := s.opFlit o.id o.core o.who p (List.replicate 4 tag)
  let r : Req :=
    { id := n, gid := o.gid, gen := 0, core := o.core, side := 0, slot := 0, ctx := o.ctx, lane := 32, pc := 0, kind := .red op ac
      place := p, va := va, size := 4, res := res, reg := 0, bytes := leBytes 4 x, tags := tags
      acq := false, rel := false, scope := .d, seq := 0, op := some o.id, accepted := true, queued := false, sent := false
      noFill := false, replays := 0, also := 0 }
  let s := { s with eng := { s.eng with reqs := s.eng.reqs ++ [r] } }
  match p with
  | .line l _ => s.arrive l r.write r.who
  | .raw st e ofs => s.portServe r st e ofs
  | _ => s

/-- Send the next 64-byte unit of an RST's data. -/
def rstData (s : State) (o : Op) (dst : Nat) (data : List Byte) (tags : List Bool) (p : Nat) : Part :=
  let a := wrapNat (dst + (p : Int)) 64
  let n := min (data.length - p) (64 - a % 64)
  match s.opWrite o p a ((data.drop p).take n) ((tags.drop p).take n) false with
  | .done _ _ s => .ok (s.onOp o.id fun o => { o with pos := p + n, fault := none }) n []
  | .fail st => .fail st a
  | .wait s => .wait s

/-- RST_FLAG_ADD (R125, R268): the addresses are judged, the data goes out, and once all of it is applied
the flag is incremented. -/
def doRstFlagAdd (id : Nat) (s : State) : State :=
  match s.op? id with
  | none => s
  | some o => if o.complete then s else match o.kind with
    | .rst dst flag data _ 0 =>
      let pages := flag :: pagesOf dst data.length
      match rstLook o pages s with
      | .wait s => s
      | .fail f => (s.partFail id 0 (f % 256) (f / 256)).opEnd id
      | .done _ _ s =>
        let places := pages.map fun a => s.rstPlace o.core o.pasid o.ctx a
        if rstSplit places then (s.partFail id 0 0x03 flag).opEnd id
        else s.rstPhase id 1
    | .rst dst flag data tags 1 =>
      if o.pos < data.length then
        match rstData s o dst data tags o.pos with
        | .ok s .. => s
        | .fail st a => (s.partFail id o.pos st a).opEnd id
        | .wait s => s
      else if o.left ≠ 0 then s
      else if o.status ≠ 0 then s.opEnd id
      else match s.opPlace o flag .write with
        | .wait s => s
        | .fail st => (s.partFail id o.pos st flag).opEnd id
        | .at p _ res => match p with
          | .line .. => match s.opEnter o p flag 4 with
            | .error s => s
            | .ok s =>
              let s := (s.rstPhase id 2).onOp id fun o => { o with left := 1, complete := true }
              s.opRed o p flag res .add 0 1 false
          | .peer n ofs nc =>
            let s := (s.rstPhase id 2).onOp id fun o => { o with left := 1, complete := true }
            s.sendPeer n (.flag id) ⟨flag, ofs, nc, res⟩
          | _ => (s.partFail id o.pos 0x03 flag).opEnd id
    | _ => s

def execRstFlagAdd (id : Nat) (s : State) : Out := .next (doRstFlagAdd id s)

/-! Indexed reduce. -/

/-- The access code of EMOD's TYPE (R270). -/
def redxType (o : EForm) : Nat := natBits o.emod.toNat 6 3

/-- The operator of EMOD's OP. -/
def redxOp (o : EForm) : AtomOp :=
  match natBits o.emod.toNat 2 0 with
  | 1 => .min
  | 2 => .max
  | _ => .add

/-- The commands of the lines; empty slots are left out (R271). -/
def redxCommands (bs : List Byte) (tags : List Bool) : List RedxCmd :=
  (List.range (bs.length / 8)).filterMap fun i =>
    let idx := leNat ((bs.drop (8 * i + 4)).take 4)
    let it := ((tags.drop (8 * i + 4)).take 4).any id
    if idx = 0xFFFFFFFF && !it then none
    else some ⟨idx, leNat ((bs.drop (8 * i)).take 4), it, ((tags.drop (8 * i)).take 4).any id, false⟩

/-- REDX (R270). -/
def redxEffect (o : EForm) (s : State) (g : Group) (act : Word) : State :=
  let so := uniN g o.e1
  let base := uniPair g o.e2
  let n := uniN g o.e3
  match paramCheck act [(2, base % 4 ≠ 0), (3, n = 0 || decide (4096 < n))] <|> rangeTrap s g act so (64 * n) 64 with
  | some t => raise s t
  | none => match s.team? g.team with
    | none => s
    | some t =>
      let (bs, tags) := teamBytes s t so (64 * n)
      let cmds := redxCommands bs tags
      let (id, s) := s.newOp g .A (.redx (redxOp o) (redxType o) base cmds) []
      ((s.opLeft id cmds.length).bumpSeq g.gid).go 0

def execRedx (o : EForm) (s : State) : Out := execEngine (.redx o) false (some .A) o.g (redxEffect o) s

/-- The address of a command. -/
def redxAddr (base : Nat) (c : RedxCmd) : Nat := wrapNat (base + (4 * c.index : Int)) 64

/-- An address of an operation may name the word that stands at a place: by the same address, or by another one of the
same page offset that translates there or has no translation yet (R355). -/
def State.mayName (s : State) (o : Op) (a b : Nat) (p : Place) : Bool :=
  b = a || (b % 4096 = a % 4096 && match s.translate o.core o.pasid b .write with
    | .hit pa nc _ => (match s.placeOf pa nc (o.ctx = 0) with
        | .at q _ => placesMeet q 4 p 4
        | .changing => true
        | .absent => false)
    | _ => true)

/-- A command to the word at `p`, earlier in the order of R271, has not been applied; `a` is the word's address here. -/
def State.redxBefore (s : State) (o : Op) (cmds : List RedxCmd) (base idx a : Nat) (p : Place) : Bool :=
  let open_ := fun (b : Nat) (c : RedxCmd) => !c.done && !c.itag && s.mayName o a (redxAddr b c) p
  (cmds.take idx).any (open_ base)
  || s.eng.ops.any fun x => x.gid = o.gid && decide (x.id < o.id) && (match x.kind with
      | .redx _ _ b cs => cs.any (open_ b)
      | _ => false)

/-- A command of a REDX has been started or dropped. -/
def State.redxDone (s : State) (id idx : Nat) : State :=
  s.onOp id fun o => { o with kind := match o.kind with
    | .redx op ac base cmds => .redx op ac base (cmds.mapIdx fun i c => if i = idx then { c with done := true } else c)
    | k => k }

/-- REDX_COMMAND_APPLY (R271). -/
def doRedxCommandApply (id idx : Nat) (_ext : Option ExtVal) (s : State) : State :=
  match s.op? id with
  | none => s
  | some o => match o.kind with
    | .redx op ac base cmds => match cmds[idx]? with
      | none => s
      | some c =>
        let a := redxAddr base c
        let drop := fun (s : State) (st : Nat) => ((s.partFail id idx st a).redxDone id idx).opDone id
        if c.done then s
        else if c.itag then drop s 0x0D
        else match s.opPlace o a .write with
          | .wait s => s
          | .fail st => drop s (if st = 0x04 then 0x03 else st)
          | .at p cls res =>
            if s.redxBefore o cmds base idx a p then s
            else if (match p with
              | .host _ | .peer .. => true
              | _ => false) then drop s 0x03
            else if bindsPoison p cls [c.vtag] then drop s 0x05
            else match s.opEnter o p a 4 with
              | .error s => s
              | .ok s => (s.redxDone id idx).opRed o p a res op ac c.value c.vtag
    | _ => s

def execRedxCommandApply (id idx : Nat) (ext : Option ExtVal) (s : State) : Out :=
  .next (doRedxCommandApply id idx ext s)

/-! CLEAN, INVAL and MSWITCH. -/

/-- The range of a lane (R244). -/
def rangeOf (g : Group) (o : RForm) (L : Nat) : Val × Val := (srcA false g o 2 L, srcB false g o 1 L false)

/-- Checks 1 to 3 and the canonical check of a range word (R244). -/
def rangeWordTrap (g : Group) (o : RForm) (act : Word) : Option TrapReq :=
  (firstTrap act fun L =>
    let (a, b) := rangeOf g o L
    if a.tag || b.tag then some (addrTrap 0x07 L a.n) else none)
  <|> (firstTrap act fun L =>
    let (a, b) := rangeOf g o L
    let last := wrapNat (a.n + b.n - 1 : Int) 64
    if b.n = 0 then none
    else if !canonical a.n then some (addrTrap 0x0B L a.n)
    else if !canonical last then some (addrTrap 0x0B L last) else none)

/-- A word that names ranges, counted in a class (R244). -/
def execRange (i : Instr) (c : EClass) (k : OpKind) (o : RForm) (s : State) : Out :=
  execWord i false o.g (fun s g act =>
    if !s.room g.gid c then s
    else match rangeWordTrap g o act with
      | some t => raise s t
      | none =>
        let spans := (lanesOf act).map fun L => let (a, b) := rangeOf g o L; (⟨a.n, b.n⟩ : Span)
        issueOp c k spans s g) s

def execClean (o : RForm) (s : State) : Out := execRange (.clean o) .A (.lines false) o s
def execInval (o : RForm) (s : State) : Out := execRange (.inval o) .A (.lines true) o s
def execMswitchBank (o : RForm) (s : State) : Out := execRange (.mswitchBank o) .B (.mswitch true false) o s
def execMswitchCtl (o : RForm) (s : State) : Out := execRange (.mswitchCtl o) .B (.mswitch false false) o s

/-- Units of `u` bytes that a range meets. -/
def Span.units (x : Span) (u : Nat) : Nat := if x.len = 0 then 0 else (x.base + x.len - 1) / u - x.base / u + 1

/-- Unit `n` of some ranges: the lane's place in the list, its address, and the number of the unit after the
last one of its range. -/
def spanUnit (u : Nat) : Nat → Nat → Nat → List Span → Option (Nat × Nat × Nat)
  | _, _, _, [] => none
  | n, i, past, x :: xs =>
    if n < x.units u then
      some (i, wrapNat (if n = 0 then x.base else (x.base / u + n) * u : Nat) 64, past + x.units u)
    else spanUnit u (n - x.units u) (i + 1) (past + x.units u) xs

def Op.unit (o : Op) (u : Nat) : Option (Nat × Nat × Nat) := spanUnit u o.pos 0 0 o.span

/-- A write of the group before the operation, atomics among them, has not been accepted at the line's home (R99, R124). -/
def State.storeOut (s : State) (o : Op) (l : LineId) : Bool :=
  s.eng.reqs.any fun q => q.gid = o.gid && decide (q.id < o.id) && !q.accepted && (match q.place with
    | .line k _ => decide (k.stack = l.stack) && decide (k.ext = l.ext) && decide (k.line ≤ l.line)
        && decide (l.line ≤ k.line + q.bytes.length / 128)
    | _ => false) && q.kind.writes

/-- A write of the group before the operation to a line of a peer has not been answered (R99, R124). -/
def State.peerStoreOut (s : State) (o : Op) (pkg ofs : Nat) : Bool :=
  s.eng.reqs.any fun q => q.gid = o.gid && decide (q.id < o.id) && q.kind.writes
    && placesMeet q.place (max q.size q.bytes.length) (.peer pkg ofs false) 128

/-- LINE_MAINTENANCE (R124, R245): the operation's next line, which lies at `line`. -/
def doLineMaintenance (id : Nat) (line : LineId) (s : State) : State :=
  match s.op? id with
  | none => s
  | some o => if o.complete then s else match o.kind with
    | .lines inval => match o.unit 128 with
      | none => s.opEnd id
      | some (i, a, past) =>
        let va := a / 128 * 128
        let next := fun (s : State) =>
          let s := s.stepOp id
          if ((s.op? id).bind fun o => o.unit 128).isNone then s.opEnd id else s
        match s.opPlace o va (if inval then .write else .read) with
        | .wait s => s
        | .fail st =>
          let s := (s.partFail id i st (max a va)).onOp id fun o => { o with pos := past }
          if ((s.op? id).bind fun o => o.unit 128).isNone then s.opEnd id else s
        | .at p _ res => match p with
          | .line l _ =>
            if l ≠ line || s.storeOut o l then s
            else
              let w : WriteOp :=
                { place := .line l 0, bytes := List.replicate 128 0, tags := [], marker := none, cleared := none
                  req := none, op := some id, peer := none, res := res, maint := some inval, after := none }
              next ((s.onOp id fun o => { o with left := o.left + 1 }).arrive l w o.who)
          | .peer n ofs nc =>
            if s.peerStoreOut o n ofs then s
            else next ((s.onOp id fun o => { o with left := o.left + 1 }).sendPeer n (.op id o.pos va) ⟨va, ofs, nc, res⟩)
          | _ => next s
    | _ => s

def execLineMaintenance (id : Nat) (line : LineId) (s : State) : Out := .next (doLineMaintenance id line s)

/-- The rows of a page's part of a range. -/
def State.rowsAt (s : State) (p : Place) (n : Nat) : List RowId :=
  let rows := fun (st e d : Nat) => sectorRows (s.extent st e).cls st e (d / 64) ((d + n - 1) / 64)
  match p with
  | .line l ofs => rows l.stack l.ext (128 * l.line + ofs)
  | .raw st e d => rows st e d
  | _ => []

/-- Bytes from an address to the end of its page or of its range. -/
def spanBytes (x : Span) (a : Nat) : Nat :=
  min (4096 - a % 4096) (wrapNat (x.base + x.len - (a : Int)) 64)

/-- An address of an operation translates to a place outside the local class windows (R244, R276). -/
def State.outside (s : State) (o : Op) (va : Nat) (k : AccKind) : Bool :=
  match s.translate o.core o.pasid va k with
  | .hit pa _ _ => match s.window pa with
    | .local_ a => !(List.range 3).any fun c =>
        let w := s.xl.tb.wins.getD c ⟨0, 0⟩
        decide (w.base ≤ a) && decide (a < w.base + w.slots * (windowClass c).size)
    | _ => true
  | _ => false

/-- Translate the pages of an operation's ranges, `n` of them at most, in order, and collect their rows;
a page that does not translate ends its lane's range, a page outside the local class windows ends all. -/
def rangeScan (id : Nat) (k : AccKind) : Nat → State → Except State State
  | 0, s => .ok s
  | n + 1, s =>
    match s.op? id with
    | none => .error s
    | some o => match o.unit 4096 with
      | none => .ok s
      | some (i, a, past) =>
        if s.outside o a k then .error (((s.onOp id fun o => { o with status := 0 }).partFail id 0 0x09 a).opEnd id)
        else match s.opPlace o a k with
          | .wait s => .error s
          | .fail st => rangeScan id k n ((s.partFail id i st a).onOp id fun o => { o with pos := past })
          | .at p _ _ =>
            let rs := s.rowsAt p (spanBytes (o.span.getD i ⟨0, 0⟩) a)
            rangeScan id k n ((s.onOp id fun o =>
              { o with rows := o.rows ++ rs.filter fun r => !o.rows.contains r }).stepOp id)

/-- Pages that an operation still has to look at. -/
def Op.pagesLeft (o : Op) : Nat := ((o.span.map fun x => x.units 4096).foldl (· + ·) 0) - o.pos + 1

/-- What an MSWITCH waits for before it changes a row: the group's stores, CLEAN, INVAL and MSWITCH operations before it
on the range (R92, R122, R314). -/
def State.switchWaits (s : State) (o : Op) : Bool :=
  let meets := fun (b n : Nat) => o.span.any fun x => decide (b < x.base + x.len) && decide (x.base < b + n)
  (s.eng.reqs.any fun q => q.gid = o.gid && decide (q.id < o.id) && (q.kind.isStore || q.kind.isRed) && meets q.va q.size)
  || (s.eng.ops.any fun x => x.gid = o.gid && decide (x.id < o.id) && !(x.complete && x.left = 0) && (match x.kind with
      | .lines _ | .mswitch _ false => x.span.any fun y => meets y.base y.len
      | _ => false))

/-- A row can be handed to its bank: nothing of it is held, and it is not returning (R92). -/
def State.rowFree (s : State) (r : RowId) : Bool := s.rowState r = .bank || !s.rowWaits r

/-- Back-invalidate the lines that the host caches of some rows (R425). -/
def State.snoopRows (s : State) (rs : List RowId) : State :=
  (s.mem.hostLines.filter fun l => !s.mem.snoops.contains l && (s.lineRows l).any fun r => rs.contains r).foldl
    (fun s l => { (s.send (.snoop l)) with mem := { s.mem with snoops := s.mem.snoops ++ [l] } }) s

/-- A row becomes returning: the dray operations that have been launched over it will not run in a dray that uses it
(R305). -/
def State.rowReturns (s : State) (r : RowId) : State :=
  let gone := fun (o : Op) => if o.rows.contains r && !o.drays.isEmpty then { o with lost := o.lost ++ [r] } else o
  let s := s.setRow r .returning
  { s with eng := { s.eng with ops := s.eng.ops.map gone } }

/-- MSWITCH_APPLY (R92, R122): all rows of the range at once. -/
def doMswitchApply (id : Nat) (s : State) : State :=
  match s.op? id with
  | none => s
  | some o => if o.complete then s else match o.kind with
    | .mswitch toBank _ =>
      match (if o.launched then .ok s else rangeScan id .write o.pagesLeft s) with
      | .error s => s
      | .ok s =>
        let s := s.onOp id fun o => { o with launched := true }
        match s.op? id with
        | none => s
        | some o =>
          if s.switchWaits o || (toBank && !o.rows.all s.rowFree) then s
          else
            let s := o.rows.foldl (fun s r =>
              if toBank then s.setRow r .bank
              else if s.rowState r = .bank then s.rowReturns r else s) s
            let s := if toBank then s.snoopRows o.rows else s
            (s.onOp id fun o => { o with kind := .mswitch toBank true }).opEnd id
    | _ => s

def execMswitchApply (id : Nat) (s : State) : Out := .next (doMswitchApply id s)

/-- ROWS_CONTROLLER_OWNED (R92): no dray run touches the returning row any more. -/
def doRowsControllerOwned (row : RowId) (s : State) : State :=
  if s.rowState row = .returning
      && !(s.drays.drays.any fun x => x.2.op.isSome && (x.2.rows.contains row || x.2.open_.any fun o => o.row = row)) then
    s.setRow row .controller
  else s

def execRowsControllerOwned (row : RowId) (s : State) : Out := .next (doRowsControllerOwned row s)

end Sys2Proof.Machine
end

