-- ==== Sys2Proof/Machine/Waybill.lean ====
section
/-! DEFINITION. Waybills: issue (R272, R273), the walk (R274, R422) and its return (R275). -/

namespace Sys2Proof.Machine

/-- A field of a waybill's image. -/
def imageField (b : List Byte) (o n : Nat) : Nat := leNat ((b.drop o).take n)

def Waybill.field (w : Waybill) (o n : Nat) : Nat := imageField w.image o n

/-- An operator and type code that R229 admits. -/
def waybillAtomOk (op ac : Nat) : Bool :=
  match op with
  | 0 => decide (ac ≤ 6)
  | 1 | 2 | 6 => decide (ac ≤ 4)
  | 3 | 4 | 5 => decide (ac ≤ 3)
  | _ => false

/-- A reserved byte of the image is not 0 (R273). -/
def imageReserved (b : List Byte) : Bool :=
  imageField b 5 3 ≠ 0 || imageField b 0x0C 4 ≠ 0 || imageField b 0x18 40 ≠ 0
  || (List.range 8).any fun i => imageField b (0x45 + 16 * i) 3 ≠ 0

/-- The image breaks R273. -/
def waybillBad (b : List Byte) : Bool :=
  let steps := imageField b 0 1
  let first := imageField b 1 1
  let action := imageField b 2 1
  let len := imageField b 3 1
  imageReserved b || decide (1 < action)
  || (decide (steps ≤ 8) && (first = 0 || decide (steps + 1 < first)
        || (List.range 8).any fun i =>
            let w := imageField b (0x44 + 16 * i) 1
            decide (first ≤ i + 1) && decide (i + 1 ≤ steps) && w ≠ 4 && w ≠ 8))
  || (if action = 0 then decide (len < 4) || decide (64 < len) || len % 4 ≠ 0
      else !waybillAtomOk (imageField b 4 1) len)

/-- WBL and WBL.ACQ (R272). -/
def wblEffect (acq : Bool) (o : EForm) (s : State) (g : Group) (act : Word) : State :=
  let img := uniN g o.e1
  let res := uniN g o.e2
  let gate := gateOf g o.flag o.e3
  match rangesTrap s g act [(img, 192, 64), (res, 80, 16)] gate with
  | some t => raise s t
  | none =>
    let b := spBytes s.cores (spPhys s g img) 192
    if waybillBad b then raise s (paramTrap act 1)
    else
      let start := BitVec.ofNat 64 (uniPair g o.e4)
      issueOp .W (.wbl ⟨b, start, start, imageField b 1 1, 0, acq⟩ res gate) [] s g

def execWbl (o : EForm) (s : State) : Out := execEngine (.wbl o) false (some .W) o.g (wblEffect false o) s
def execWblAcq (o : EForm) (s : State) : Out := execEngine (.wblAcq o) false (some .W) o.g (wblEffect true o) s

/-! The walk. -/

/-- Who walks: the number that names the walk, and what its accesses are made as. -/
structure WalkBy where
  id : Nat
  core : Nat
  pasid : Nat
  who : Who
  deriving DecidableEq, Repr

/-- What one step of a walk comes to. -/
inductive Hop where
  | wait (s : State)
  | go (s : State) (w : Waybill)
  | forward (s : State) (pkg : Nat) (w : Waybill) (at_ : FabPlace)
  | done (s : State) (r : WalkResult)

/-- The walk has come to its final action. -/
def Waybill.last (w : Waybill) : Bool := decide (w.field 0 1 < w.step)

/-- The address of the step at hand. -/
def Waybill.addr (w : Waybill) : Nat :=
  let ofs := if w.last then w.field 8 4 else w.field (0x40 + 16 * (w.step - 1)) 4
  wrapNat (w.ptr.toNat + natSext ofs 32) 64

/-- The bytes that the step at hand reads. -/
def Waybill.width (w : Waybill) : Nat :=
  if !w.last then w.field (0x44 + 16 * (w.step - 1)) 1
  else if w.field 2 1 = 0 then w.field 3 1 else atomBytes (w.field 3 1)

/-- The alignment of the step at hand fails (R274). -/
def Waybill.misaligned (w : Waybill) : Bool :=
  let a := w.addr
  if w.last && w.field 2 1 = 0 then a % 4 ≠ 0 || decide (64 < a % 64 + w.width) else a % w.width ≠ 0

/-- The walk ends at the step at hand with a failure (R274, R275). -/
def Waybill.fail (w : Waybill) (st : Nat) : WalkResult :=
  ⟨st, w.step, w.crossings, w.addr, leBytes 8 w.ptr.toNat, []⟩

/-- The walk ends well, with these bytes. -/
def Waybill.result (w : Waybill) (bs : List Byte) (tags : List Bool) : WalkResult :=
  ⟨0, 0, w.crossings, w.addr, bs, tags⟩

/-- The atomic operator of MFN 0 to 6 (R229). -/
def waybillOp (n : Nat) : AtomOp :=
  match n with
  | 1 => .min | 2 => .max | 3 => .and | 4 => .or | 5 => .xor | 6 => .exch
  | _ => .add

/-- Read at the executor, with memory-error poison alone (R127). -/
def State.walkRead (s : State) (y : WalkBy) (p : Place) (res n : Nat) : OpAcc :=
  match p with
  | .line l ofs =>
    let out := fun (d : List Byte) (t : Word) (s : State) =>
      OpAcc.done ((d.drop ofs).take n) (byteTags ofs n fun w => bitOf t w) s
    match s.line? l with
    | some x => out x.bytes x.poison (s.onLine l id)
    | none =>
      if s.quota res ≠ 0 then .wait (s.want l res y.who)
      else match s.passRows (s.lineRows l) (.walk y.id) with
        | .error s => .wait s
        | .ok s => let ((d, t), s) := s.demandLine y.who l; out d t s
  | .raw st e ofs =>
    let (row, slot) := sectorPlace (s.extent st e).cls st e (ofs / 64)
    match s.passRows [row] (.walk y.id) with
    | .error s => .wait s
    | .ok s =>
      let ((d, t), s) := s.demandSector y.who row slot
      .done ((d.drop (ofs % 64)).take n) (List.replicate n t) s
  | _ => .wait s

/-- A place is free to be written: no lease, no write that waits, no host copy (R80, R128). -/
def State.placeFree (s : State) (p : Place) (res : Nat) : Bool :=
  match p with
  | .line l _ => s.lineFree l && s.lineReady l res && (s.heldOn l).isEmpty
  | .raw st e d => !s.mem.hostLines.contains ⟨st, e, d / 128⟩
  | _ => true

/-- What a place that is not free is asked for. -/
def State.placeAsk (s : State) (p : Place) (res : Nat) (w : Who) : State :=
  match p with
  | .line l _ => s.prepareLine l res w
  | .raw st e d => s.snoop ⟨st, e, d / 128⟩
  | _ => s

/-- The atomic of a walk at a line, held there like any other (R80): it is made once, and its old value is taken when it has
been applied. -/
def State.lineAtom (s : State) (y : WalkBy) (l : LineId) (ofs va res : Nat) (op : AtomOp) (ac x : Nat) : OpAcc :=
  let mine := fun (r : Req) => r.gid = 0 && r.lane = 32 && r.op = some y.id
  let take := fun (s : State) => match s.eng.reqs.find? mine with
    | some r => if r.kind = .record then OpAcc.done r.bytes r.tags (s.dropReq r.id) else .wait s
    | none => .wait s
  if s.eng.reqs.any mine then take s
  else
    let (n, s) := s.fresh
    let k := atomBytes ac
    let r : Req :=
      { id := n, gid := 0, gen := 0, core := y.core, side := 0, slot := 0, ctx := y.who.ctx.getD 65535, lane := 32, pc := 0
        kind := .atom op ac, place := .line l ofs, va := va, size := k, res := res, reg := y.pasid + 1
        bytes := leBytes k (x % 2 ^ (8 * k)), tags := List.replicate k false, acq := false, rel := false, scope := .d, seq := 0
        op := some y.id, accepted := true, queued := false, sent := false, noFill := false, replays := 0, also := 0 }
    take ((State.arrive { s with eng := { s.eng with reqs := s.eng.reqs ++ [r] } }) l r.write (s.reqWho r))

/-- An atomic of a walk at its executor (R84, R230): at a line, or at the stack port once the place is free. -/
def State.walkAtom (s : State) (y : WalkBy) (p : Place) (va res : Nat) (op : AtomOp) (ac x : Nat) : OpAcc :=
  let n := atomBytes ac
  match p with
  | .line l ofs => s.lineAtom y l ofs va res op ac x
  | .raw st e ofs =>
    if !s.placeFree p res then .wait (s.placeAsk p res y.who)
    else match s.walkRead y p res n with
      | .done m mt s =>
        let bs := leBytes n (atomCompute op ac (leNat m) (x % 2 ^ (8 * n)))
        .done m mt (s.portPut st e ofs bs (mt.any id))
      | r => r
  | _ => .wait s

/-- The step at hand, at the owner of its address in this package. -/
def walkHere (s : State) (y : WalkBy) (w : Waybill) (p : Place) (res : Nat) : Hop :=
  if !w.last then
    match (s.walkRead y p res w.width).flit y.id y.core y.who p with
    | .done bs ts s =>
      if ts.any id then .done s (w.fail 0x12)
      else
        let m := BitVec.ofNat 64 (w.field (0x48 + 16 * (w.step - 1)) 8)
        .go s { w with ptr := BitVec.ofNat 64 (leNat bs) &&& m, step := w.step + 1 }
    | .wait s => .wait s
    | .fail st => .done s (w.fail st)
  else if w.field 2 1 = 0 then
    match (s.walkRead y p res w.width).flit y.id y.core y.who p with
    | .done bs ts s => .done s (w.result bs ts)
    | .wait s => .wait s
    | .fail st => .done s (w.fail st)
  else match s.walkAtom y p w.addr res (waybillOp (w.field 4 1)) (w.field 3 1) (w.field 0x10 8) with
    | .done bs ts s => .done s (w.result bs ts)
    | .wait s => .wait s
    | .fail st => .done s (w.fail st)

/-- The step at hand where its address has been translated (R274). -/
def walkAt (s : State) (y : WalkBy) (w : Waybill) (p : Place) (res : Nat) : Hop :=
  match p with
  | .host _ => .done s (w.fail 0x03)
  | .peer n ofs nc =>
    if !s.reachable n then .done s (w.fail 0x04)
    else
      let w := { w with crossings := w.crossings + 1 }
      if 16 < w.crossings then .done s (w.fail 0x10) else .forward s n w ⟨w.addr, ofs, nc, res⟩
  | _ => walkHere s y w p res

/-- The page of a final atomic has to permit writes (R274, R351). -/
def walkPermit (s : State) (y : WalkBy) (w : Waybill) (p : Place) (res : Nat) (ctx0 : Bool) : Hop :=
  match s.devPlace (billWalker y.id) y.core y.pasid w.addr .write ctx0 with
  | .wait s => .wait s
  | .fail _ => match p with
    | .host _ => .done (s.undeny (billWalker y.id)) (w.fail 0x03)
    | _ => .done (s.undeny (billWalker y.id)) (w.fail 0x02)
  | .at .. => walkAt s y w p res

/-- One step of the walk (R274), its address translated by this package's own walker, of a walk that another package has
handed on too (R422). A relaxed step is made as an acquire one is: of the outcomes of R138 that only relaxed steps may
have, the last does not occur here (log 57). -/
def walkStep (s : State) (y : WalkBy) (w : Waybill) : Hop :=
  let ctx0 := y.who.ctx = some 0
  if w.misaligned then .done s (w.fail 0x0E)
  else match s.devPlace (billWalker y.id) y.core y.pasid w.addr .read ctx0 with
    | .wait s => .wait s
    | .fail st => .done (s.undeny (billWalker y.id)) (w.fail st)
    | .at p _ res => if w.last && w.field 2 1 ≠ 0 then walkPermit s y w p res ctx0 else walkAt s y w p res

/-- The result area of R275. -/
def resultArea (r : WalkResult) : List Byte :=
  r.data.take 64 ++ List.replicate (64 - r.data.length) 0
  ++ leBytes 1 r.status ++ leBytes 1 r.step ++ leBytes 1 r.crossings ++ List.replicate 5 0 ++ leBytes 8 r.addr

/-- A walk's result at its source (R275): the result area, the arrival, and the status. A word of the area that belongs to a
live gate is left as it is (log 70). -/
def State.walkBack (s : State) (o : Op) (result : Nat) (gate : Option Nat) (r : WalkResult) : State :=
  match s.team? o.team with
  | none => s.opEnd o.id
  | some t =>
    let tags := if r.status = 0 then r.tags else []
    let c := (List.range 20).foldl (fun c i =>
      let a := t.sp result + 4 * i
      if spGate c a then c
      else spPut c a (((resultArea r).drop (4 * i)).take 4) fun k => tags.getD (4 * i + k) false) s.cores
    let s := ({ s with cores := c }).opFail o.id 0 r.status r.addr
    (s.engineArrive o gate 80).opEnd o.id

/-- Keep an operation's waybill as it stands. -/
def State.setBill (s : State) (id : Nat) (w : Waybill) : State :=
  s.onOp id fun o => { o with kind := match o.kind with
    | .wbl _ r g => .wbl w r g
    | k => k }

/-- A walk that this package holds for itself takes its next step; STEPS above 8 ends it at once (R273). -/
def ownHop (s : State) (o : Op) (w : Waybill) (result : Nat) (gate : Option Nat) : State :=
  if 8 < w.field 0 1 then s.walkBack o result gate ⟨0x10, 9, 0, 0, leBytes 8 w.start.toNat, []⟩
  else match walkStep s ⟨o.id, o.core, o.pasid, o.who⟩ w with
    | .wait s => s
    | .go s w => s.setBill o.id w
    | .forward s n w at_ => ((s.setBill o.id w).onOp o.id fun o => { o with launched := true }).sendPeer n (.walk o.id) at_
    | .done s r => s.walkBack o result gate r

/-- Another package's walk. -/
def State.heldWalk? (s : State) (id : Nat) : Option HeldWalk := s.fab.walks.find? fun h => h.id = id

def State.dropWalk (s : State) (id : Nat) : State :=
  { s with fab := { s.fab with walks := s.fab.walks.filter fun h => h.id ≠ id } }

def State.onWalk (s : State) (id : Nat) (f : HeldWalk → HeldWalk) : State :=
  { s with fab := { s.fab with walks := s.fab.walks.map fun h => if h.id = id then f h else h } }

/-- A walk has been sent on and is not answered. -/
def State.walkSent (s : State) (id : Nat) : Bool := s.fab.out.any fun f => f.work = .walk id

/-- A walk of another package takes its next step here (R422). -/
def guestHop (s : State) (h : HeldWalk) : State :=
  if s.walkSent h.id then s
  else match walkStep s ⟨h.id, 0, h.pasid, ⟨s.inboundCtx h.pasid, none⟩⟩ h.bill with
    | .wait s => s
    | .go s w => s.onWalk h.id fun h => { h with bill := w }
    | .forward s n w at_ => (s.onWalk h.id fun h => { h with bill := w }).sendPeer n (.walk h.id) at_
    | .done s r => (s.dropWalk h.id).send (.walkReturn h.src h.srcOp r)

/-- WAYBILL_HOP (R274). -/
def doWaybillHop (walk : Nat) (s : State) : State :=
  match s.op? walk with
  | some o => if o.complete || o.launched then s else match o.kind with
    | .wbl w result gate => ownHop s o w result gate
    | _ => s
  | none => match s.heldWalk? walk with
    | some h => guestHop s h
    | none => s

def execWaybillHop (walk : Nat) (s : State) : Out := .next (doWaybillHop walk s)

/-- WAYBILL_RETURN (R275): a result comes home from the package where the walk ended. -/
def doWaybillReturn (op : Nat) (res : WalkResult) (s : State) : State :=
  match s.op? op with
  | some o => if o.complete || !o.launched then s else match o.kind with
    | .wbl _ result gate => s.walkBack o result gate res
    | _ => s
  | none => s

def execWaybillReturn (op : Nat) (res : WalkResult) (s : State) : Out := .next (doWaybillReturn op res s)

/-- WALK_TIMEOUT (R422): 10 ms after the issue. -/
def doWalkTimeout (op : Nat) (s : State) : State :=
  match s.op? op with
  | some o => if o.complete || decide (s.ltick < o.issued + 10000000) then s else match o.kind with
    | .wbl w result gate =>
      s.walkBack o result gate ⟨0x13, w.field 1 1, 0, w.start.toNat, leBytes 8 w.start.toNat, []⟩
    | _ => s
  | none => s

def execWalkTimeout (op : Nat) (s : State) : Out := .next (doWalkTimeout op s)

end Sys2Proof.Machine
end

