-- ==== Sys2Proof/Machine/Imx.lean ====
section
/-! DEFINITION. Dray control (R276 to R279): issue of the IMX instructions, their launch at the stack ports,
and their start in each stack (R278, R283, R284). -/

namespace Sys2Proof.Machine

/-- The value checks of R277; `efn` is the function. Bits 15:12 and 31:28 of IMX.VEC's fourth value must be 0 (log 71). -/
def imxCheck (efn e1 len e4 : Nat) (act : Word) : Option TrapReq :=
  let align := match efn with
    | 0 => 4
    | 1 => 32
    | 4 => 64
    | _ => 1
  let bad4 : Bool := match efn with
    | 0 => natBit e4 7 || natBits e4 31 14 ≠ 0 || natBits e4 6 0 = 0 || decide (64 < natBits e4 6 0 + natBits e4 13 8)
    | 1 => natBits e4 15 12 ≠ 0 || natBits e4 31 28 ≠ 0 || decide (natBits e4 11 0 < 32) || decide (2048 < natBits e4 11 0)
        || natBits e4 4 0 ≠ 0 || natBits e4 20 16 ≠ 0 || decide (2048 < natBits e4 11 0 + natBits e4 27 16)
    | 3 => e4 = 0 || decide (65536 < e4)
    | 5 => e4 ≠ 0
    | _ => false
  paramCheck act [(3, len = 0), (1, e1 % align ≠ 0 || ((efn = 2 || efn = 3) && decide (63 < e1))), (4, bad4)]

/-- The range operand. -/
def imxSpan (g : Group) (o : EForm) : Span := ⟨uniPair g o.e2, uniN g o.e3⟩

/-- Checks, then the payload, then the operation (R277). -/
def imxIssue (efn : Nat) (o : EForm) (trap : State → Group → Word → Option TrapReq) (k : State → Group → OpKind)
    (s : State) (g : Group) (act : Word) : State :=
  let e4 := if efn = 4 then 0 else uniN g o.e4
  match imxCheck efn (uniN g o.e1) (uniN g o.e3) e4 act <|> trap s g act with
  | some t => raise s t
  | none => issueOp .B (k s g) [imxSpan g o] s g

/-- The bytes of a scratchpad range of the group, with their tags. -/
def groupBytes (s : State) (g : Group) (off n : Nat) : List Byte × List Bool :=
  (spBytes s.cores (spPhys s g off) n, (List.range n).map fun i => spPoison s.cores (spPhys s g off + i))

def execImxLoad (o : EForm) (s : State) : Out :=
  execEngine (.imxLoad o) false (some .B) o.g (imxIssue 0 o
    (fun s g act => rangeTrap s g act (uniN g o.e1) (4 * natBits (uniN g o.e4) 6 0) 4)
    (fun s g =>
      let n := natBits (uniN g o.e4) 6 0
      let bs := (groupBytes s g (uniN g o.e1) (4 * n)).1
      .imxLoad ((List.range n).map fun i => BitVec.ofNat 32 (leNat ((bs.drop (4 * i)).take 4)))
        (natBits (uniN g o.e4) 13 8))) s

def execImxVec (o : EForm) (s : State) : Out :=
  execEngine (.imxVec o) false (some .B) o.g (imxIssue 1 o
    (fun s g act => rangeTrap s g act (uniN g o.e1) (natBits (uniN g o.e4) 11 0) 32)
    (fun s g =>
      let b := groupBytes s g (uniN g o.e1) (natBits (uniN g o.e4) 11 0)
      .imxVec b.1 b.2 (natBits (uniN g o.e4) 27 16))) s

def execImxRun (o : EForm) (s : State) : Out :=
  execEngine (.imxRun o) false (some .B) o.g (imxIssue 2 o (fun _ _ _ => none)
    (fun _ g => .imxRun (uniN g o.e1) (uniN g o.e4))) s

def execImxBcast (o : EForm) (s : State) : Out :=
  execEngine (.imxBcast o) false (some .B) o.g (imxIssue 3 o (fun _ _ _ => none)
    (fun _ g => .imxBcast (uniN g o.e1) (uniN g o.e4))) s

def execImxCollect (o : EForm) (s : State) : Out :=
  execEngine (.imxCollect o) false (some .B) o.g (imxIssue 4 o
    (fun s g act => rangesTrap s g act [] (gateOf g o.flag o.e4))
    (fun _ g => .imxCollect (uniN g o.e1) (gateOf g o.flag o.e4) [])) s

/-! IMX.STAT (R279). -/

/-- The page units of a range, each with its first address. -/
def statUnits (x : Span) : List (Nat × Nat) :=
  (List.range (x.units 4096)).filterMap fun k => (spanUnit 4096 k 0 0 [x]).map fun u => (k, u.2.1)

/-- The rows of a range's pages, and whether some part of it is missing (R279). -/
def statRows (s : State) (g : Group) (x : Span) : List RowId × Bool :=
  (statUnits x).foldl (fun (acc : List RowId × Bool) (_, a) =>
    let part := match (if canonical a then s.translate g.core g.pasid a .read else .miss) with
      | .hit pa nc _ => match s.placeOf pa nc (g.ctx = 0) with
        | .at (.line l ofs) _ => some (s.rowsAt (.line l ofs) (spanBytes x a))
        | .at (.raw st e d) _ => some (s.rowsAt (.raw st e d) (spanBytes x a))
        | _ => none
      | _ => none
    match part with
    | some rs => (acc.1 ++ rs, acc.2)
    | none => (acc.1, true)) ([], false)

/-- The summary word of some drays. -/
def statWord (s : State) (keys : List Nat) (part : Bool) : Nat :=
  let n := fun (f : Dray → Bool) => (keys.filter fun k => f (s.dray k)).length
  (if part then 2 ^ 63 else 0) + n (·.dstat.inexact) * 2 ^ 32 + n (fun d => d.dstat.err ≠ 0) * 2 ^ 16
  + n (fun d => d.dstat.state ≠ 0)

/-- IMX.STAT (R279): it changes no dray, and leaves their owner (R284, log 72). -/
def imxStatEffect (o : EForm) (s : State) (g : Group) (act : Word) : State :=
  match imxCheck 5 0 (uniN g o.e3) (uniN g o.e4) act with
  | some t => raise s t
  | none =>
    let x := imxSpan g o
    s.afterLook g .read ((statUnits x).map (·.2)) fun s =>
      let (rows, part) := statRows s g x
      let w := statWord s (rows.map drayOfRow).eraseDups part
      s.onGroup s.cur.gid fun g => (wrSs g o.e1.toNat 2 w false).advance s.cur 0

def execImxStat (o : EForm) (s : State) : Out := execEngine (.imxStat o) false none o.g (imxStatEffect o) s

/-! Launch. -/

def OpKind.isRun : OpKind → Bool
  | .imxRun .. | .imxBcast .. => true
  | _ => false

def OpKind.isImx : OpKind → Bool
  | .imxLoad .. | .imxVec .. | .imxRun .. | .imxBcast .. | .imxCollect .. => true
  | _ => false

def OpKind.isSwitch : OpKind → Bool
  | .mswitch .. => true
  | _ => false

/-- The launch waits: for the group's operations before it, and for an MSWITCH on an overlapping range (R122,
R278). -/
def State.launchWaits (s : State) (o : Op) : Bool :=
  s.eng.ops.any fun x => x.gid = o.gid && decide (x.id < o.id)
    && ((x.kind.isImx && !x.launched && !x.complete)
        || (o.kind.isRun && x.kind.isSwitch && x.span.any fun y => o.span.any fun z =>
              decide (y.base < z.base + z.len) && decide (z.base < y.base + y.len)))

/-- Insert a number into a rising list. -/
def insertNat (x : Nat) : List Nat → List Nat
  | [] => [x]
  | y :: ys => if x < y then x :: y :: ys else if x = y then y :: ys else y :: insertNat x ys

/-- The status that a launch ends with, its rows known (R278, R285, R277). -/
def State.launchStatus (s : State) (o : Op) (keys : List Nat) : Nat :=
  let classes := (o.rows.map fun r => (s.extent r.stack (r.row / 32)).cls).eraseDups
  if o.kind.isRun then
    if o.rows.any fun r => s.rowState r ≠ .bank then 0x0A
    else if 1 < classes.length then 0x48 else 0
  else match o.kind, s.team? o.team with
    | .imxCollect dest .., some t => if dest + 64 * keys.length > t.spSize then 0x0B else 0
    | _, _ => 0

/-- An operation reaches the launch logic of each of its stacks (R278). -/
def State.enqueue (s : State) (id : Nat) (keys : List Nat) : State :=
  let ports := (keys.map (· / 1024)).eraseDups
  let s := ports.foldl (fun s st =>
    { s with drays := { s.drays with queue := sset [] s.drays.queue st (sget [] s.drays.queue st ++ [id]) } }) s
  keys.foldl (fun s k => s.onDray k fun d =>
    if d.op.isNone then { d with dstat := { d.dstat with state := 3 } } else d) s

/-- DRAY_LAUNCH (R276, R278). -/
def doDrayLaunch (id : Nat) (s : State) : State :=
  match s.op? id with
  | none => s
  | some o =>
    if !o.kind.isImx || o.complete || o.launched || s.launchWaits o then s
    else match rangeScan id (if o.kind.isRun then .write else .read) o.pagesLeft s with
      | .error s => s
      | .ok s => match s.op? id with
        | none => s
        | some o =>
          if o.status ≠ 0 then s.opEnd id
          else
            let keys := o.rows.foldl (fun l r => insertNat (drayOfRow r) l) []
            let st := s.launchStatus o keys
            if st ≠ 0 then (s.opFail id 0 st 0).opEnd id
            else (s.onOp id fun o => { o with launched := true, drays := keys, pos := 0 }).enqueue id keys

def execDrayLaunch (op : Nat) (s : State) : Out := .next (doDrayLaunch op s)

/-! Start. -/

/-- The address space of an operation owns the dray; another's state is cleared first (R284). -/
def Dray.ownBy (d : Dray) (pasid : Nat) : Dray :=
  if d.owner.all (· = pasid) then { d with owner := some pasid }
  else { Dray.reset with owner := some pasid, dstat := { Dray.reset.dstat with state := d.dstat.state } }

/-- The settings of a launch (R283). -/
def Dray.launch (d : Dray) (id : Nat) (rows : List RowId) (sectors slot arg : Nat) (bc : Bool) : Dray :=
  let c : Cursor := { row := 0, col := 0, lo := 0, hi := 2 * sectors - 1, beyond := false }
  { d with
    reopen := []
    x := c, y := c, vp := 0, vsp := 0, sl := [], slTags := [], slp := 0
    l0 := arg % 65536, l1 := arg / 65536, slot := slot, cc := 0
    dstat := { err := 0, slot := 0, inexact := false, poison := false, corr := 0, state := 1 }
    op := some id, arg := arg, rows := rows, sectors := sectors, bcast := bc, waitSteps := 0, atStep := false
    granted := false, free3 := 0 }

/-- An operation may start in a stack: its drays there are free, and no operation before it that shares one has yet to
start (R278, R302). -/
def State.canStart (s : State) (o : Op) (stack : Nat) : Bool :=
  let q := sget [] s.drays.queue stack
  let mine := o.draysIn stack
  let before := q.takeWhile (· ≠ o.id)
  let isBcast := fun (k : OpKind) => match k with
    | .imxBcast .. => true
    | _ => false
  q.contains o.id && !o.started.contains stack && mine.all (fun k => (s.dray k).op.isNone)
  && before.all (fun id => (s.op? id).all fun x =>
      (x.started.contains stack || !(x.drays.any fun k => mine.contains k)) && !(isBcast o.kind && isBcast x.kind))
  && (!isBcast o.kind || (sget ⟨0, 0⟩ s.drays.bcast stack).op = 0)

/-- A run starts on the drays of a stack; those with a row that is no longer bank-owned stop at once. -/
def State.startRun (s : State) (o : Op) (stack slot arg : Nat) (bc : Bool) : State :=
  let ks := o.draysIn stack
  let s := ks.foldl (fun s k =>
    let rows := o.rows.filter fun r => drayOfRow r = k
    let sectors := match rows with
      | r :: _ => (s.extent r.stack (r.row / 32)).cls.sectors
      | [] => 0
    s.onDray k fun d => d.launch o.id rows sectors slot arg bc) s
  let (go, stop) := ks.partition fun k => s.drayRuns k
  (stop.foldl (fun s k => s.drayEnd k 0x47) s).push (go.map fun k => .dray (drayOfKey k))

/-- After an operation that acts at once, a dray is idle or has one queued (R299). -/
def State.idleDrays (s : State) (ks : List Nat) : State :=
  ks.foldl (fun s k =>
    let st := if s.queuedFor k none then 3 else 0
    s.onDray k fun d => { d with dstat := { d.dstat with state := st } }) s

/-- DRAY_OPERATION_START (R278). -/
def doDrayOperationStart (id stack : Nat) (s : State) : State :=
  match s.op? id with
  | none => s
  | some o =>
    if !s.canStart o stack then s
    else
      let ks := o.draysIn stack
      let s := s.onOp id fun o => { o with started := o.started ++ [stack] }
      let s := ks.foldl (fun s k => s.onDray k fun d => d.ownBy o.pasid) s
      let atOnce := fun (f : Dray → Dray) =>
        ((ks.foldl (fun s k => s.onDray k f) s).leaveStack id stack).idleDrays ks
      match o.kind with
      | .imxLoad cmds first => atOnce fun d =>
          { d with store := (cmds.zipIdx).foldl (fun m (c, i) => sset 0 m (first + i) c) d.store }
      | .imxVec bytes tags at_ => atOnce fun d => d.vbPut at_ bytes fun i => tags.getD (4 * i) false
      | .imxRun slot arg => s.startRun o stack slot arg false
      | .imxBcast slot steps =>
        ({ s with drays := { s.drays with bcast := sset ⟨0, 0⟩ s.drays.bcast stack ⟨id, steps⟩ } }).startRun o stack slot 0 true
      | .imxCollect dest gate data =>
        let got := ks.map fun k => (k, (List.range 16).map fun c => (s.dray k).accOf c)
        let s := s.onOp id fun o => { o with kind := .imxCollect dest gate (data ++ got) }
        (s.leaveStack id stack).idleDrays ks
      | _ => s

def execDrayOperationStart (op stack : Nat) (s : State) : Out := .next (doDrayOperationStart op stack s)

end Sys2Proof.Machine
end

