-- ==== Sys2Proof/Machine/Frames.lean ====
section
/-! DEFINITION. Halting groups (R44, R337), the frames of groups and teams (R335 to R339), and the ends of
groups (R174, R378). -/

namespace Sys2Proof.Machine

/-! Structures in a context's address space, read by the device. -/

inductive VirtRead where
  | done (bs : List Byte)
  | bad (s : State)
  | wait (s : State)

/-- The bytes of a line that was read, where no word of theirs is tagged. -/
def lineBytes (s : State) (d : List Byte) (t : Word) (ofs n : Nat) : VirtRead :=
  if (List.range n).any fun i => bitOf t ((ofs + i) / 4) then .bad s else .done ((d.drop ofs).take n)

/-- A line that the device reads from its stack: it waits for rows that are away (R93) and once more where the read has
corrected a sector, which is rewritten (R392). -/
def State.virtStack (s : State) (l : LineId) (ofs n : Nat) : VirtRead :=
  if (s.busyRow (s.lineRows l)).isSome then .wait (s.awaitRows l)
  else
    let ((d, t), u) := s.demandLine ⟨none, none⟩ l
    if s.corrects l then .wait u else lineBytes u d t ofs n

/-- The device's read of the host or of a peer, for an address space: a request of no group (log 59). -/
def State.deviceRead? (s : State) (pasid va n : Nat) : Option Req :=
  s.eng.reqs.find? fun r => r.gid = 0 && r.lane = 0 && r.reg = pasid + 1 && r.va = va && r.size = n

def State.putDeviceRead (s : State) (pasid va n res : Nat) (p : Place) : State :=
  let (id, s) := s.fresh
  let r : Req :=
    { id := id, gid := 0, gen := 0, core := 0, side := 0, slot := 0, ctx := (s.inboundCtx pasid).getD 65535, lane := 0, pc := 0, kind := .record
      place := p, va := va, size := n, res := 3, reg := pasid + 1, bytes := [], tags := [], acq := false, rel := false
      scope := .d, seq := 0, op := none, accepted := false, queued := false, sent := false, noFill := false, replays := 0, also := 0 }
  let s := { s with eng := { s.eng with reqs := s.eng.reqs ++ [r] } }
  match p with
  | .peer k ofs nc => (s.onReq id fun r => { r with sent := true }).sendPeer k (.req id) ⟨va, ofs, nc, res⟩
  | _ => s

/-- The device's reads for an address space have served their purpose. -/
def State.readsDone (s : State) (pasid : Nat) : State :=
  { s with eng := { s.eng with reqs := s.eng.reqs.filter fun r => !(r.gid = 0 && r.lane = 0 && r.reg = pasid + 1 && r.accepted) } }

/-- Bytes of one line of an address space, at the executor; a tagged byte, or one of a peer that is not reachable, is
unreadable. -/
def State.virtChunk (s : State) (core pasid va n : Nat) (ctx0 : Bool) : VirtRead :=
  match s.devPlace (deviceWalker pasid) core pasid va .read ctx0 with
  | .wait s => .wait s
  | .fail _ => .bad (s.undeny (deviceWalker pasid))
  | .at p _ res =>
    let away := match s.deviceRead? pasid va n with
      | none => VirtRead.wait (s.putDeviceRead pasid va n res p)
      | some r => if !r.accepted then .wait s else if r.tags.any id then .bad s else .done r.bytes
    match p with
    | .line l ofs => match s.line? l with
      | some x => lineBytes s x.bytes x.poison ofs n
      | none => s.virtStack l ofs n
    | .raw st e d => s.virtStack ⟨st, e, d / 128⟩ (d % 128) n
    | .host _ => away
    | .peer k _ _ => if s.reachable k then away else .bad s

def State.virtChunks (s : State) (core pasid : Nat) (ctx0 : Bool) : List (Nat × Nat) → VirtRead
  | [] => .done []
  | (a, n) :: rest => match s.virtChunk core pasid a n ctx0 with
    | .done x => match s.virtChunks core pasid ctx0 rest with
      | .done y => .done (x ++ y)
      | r => r
    | r => r

/-- Bytes of an address space. -/
def State.virtRead (s : State) (core pasid va n : Nat) (ctx0 : Bool) : VirtRead :=
  s.virtChunks core pasid ctx0 (lineChunks va n)

/-! Halting (R44). -/

/-- A request of a group whose answer a halt waits for: a lock's or an unlock's, and the parts of an issued TDRAIN, which is
complete before the group is halted (R44 item 5, R340). -/
def State.haltOut (s : State) (g : Group) : Bool :=
  g.lanes.any (fun ln => !ln.exited && (ln.wait = .lock || ln.wait = .unlock))
  || (s.eng.reqs.any fun r => r.gid = g.gid && (match r.kind with
      | .lock | .unlock | .drain .. => true
      | _ => false))
  || s.eng.ops.any fun o => o.gid = g.gid && o.cls = .M

/-- GROUP_HALT may act on a halting group: every withdrawal is answered, issued TDRAINs are complete, and the outrider has
caught up (R44, R240, R337, R340). -/
def canGroupHalt (s : State) (g : Group) : Option HaltCause :=
  match g.halt with
  | .halting c =>
    if s.haltOut g || (c = .step && g.trap.isNone) || (g.outrider.any fun o => o.queue.any (·.done)) then none else some c
  | _ => none

/-- The barrier arrival and the ACQ request of a group are withdrawn, and its polls (R44, R241). -/
def State.withdraw (s : State) (g : Group) : State :=
  let s := s.onTeam g.team fun t => { t with acqQ := t.acqQ.filter fun q => q.gid ≠ g.gid }
  let rs := s.eng.reqs.filter fun r => !(r.gid = g.gid && (match r.kind with
    | .poll => true
    | _ => false))
  { s with eng := { s.eng with reqs := rs } }

/-- A lane of a halted group stands before the word that it waits in; a YIELD whose back-off still runs is issued again
(R44 item 4; log 39). -/
def Lane.halted (ln : Lane) (cycle : Nat) : Lane :=
  match ln.wait with
  | .yield u => { ln with wait := .none, pc := if cycle < u then ln.pc - 8 else ln.pc }
  | _ => { ln with wait := .none }

/-- The record of a debug step whose word had waited, once its group is halted (R342): with INFO 1 where lanes of the step
stand before the word, and with INFO 0 where its wait had ended before. -/
def Group.stepInfo (g : Group) : Group :=
  let before := fun (pc : BitVec 64) => (List.range 32).any fun L =>
    let ln := g.lane L
    !ln.exited && !bitOf g.dbgHalt L && ln.pc = pc && (ln.cnt ≠ 0 || ln.k = 0)
  match g.trap with
  | some t =>
    if g.stepFrame.isSome && t.code = 0x1A && t.info = 1 && !before t.pc then
      { g with faultInfo := faultWord 0x1A t.lane 0, trap := some { t with info := 0 } }
    else g
  | none => g

/-- GROUP_HALT (R44): the group stands before its waiting words. -/
def doGroupHalt (s : State) : State :=
  match s.group? s.cur.gid with
  | none => s
  | some g => match canGroupHalt s g with
    | none => s
    | some c =>
      (s.withdraw g).onGroup g.gid fun g => Group.stepInfo
        { g with
          halt := .halted c, haltedAt := s.ltick
          barriers := if g.atBarrier then g.barriers - 1 else g.barriers
          atBarrier := false
          stash := []
          outrider := g.outrider.map fun o => { o with queue := [] }
          lanes := g.lanes.map fun ln => ln.halted (s.side (sideKey g.core g.side)).cycle }

def execGroupHalt (s : State) : Out := .next (doGroupHalt s)

/-! Liveness (R165, R168). -/

/-- What is live at a PC: the liveness entry's masks, or everything. -/
inductive Live where
  | all
  | some_ (base blocks : Nat)
  | wait (s : State)

/-- Look through the liveness entries of a kernel; one that cannot be read leaves every held register to be saved
(log 60). -/
def State.liveAt (s : State) (g : Group) (k : Kernel) (ofs : Nat) : Nat → Live
  | 0 => .all
  | n + 1 => match s.virtRead g.core g.pasid (k.liveTab + 24 * (k.liveCount - (n + 1))) 24 (g.ctx = 0) with
    | .wait s => .wait s
    | .bad _ => .all
    | .done b =>
      if leNat (b.take 4) ≤ ofs && ofs < leNat ((b.drop 4).take 4) then
        .some_ (leNat ((b.drop 8).take 8)) (leNat ((b.drop 16).take 1))
      else s.liveAt g k ofs n

/-- The entries of the lanes, in order. -/
def State.liveLanes (s : State) (g : Group) (k : Kernel) : List Nat → Except State (List (Option (Nat × Nat)))
  | [] => .ok []
  | L :: Ls => match s.liveAt g k (wrapNat ((g.lane L).pc.toNat - (k.entry.toNat : Int)) 64) k.liveCount with
    | .wait s => .error s
    | .all => (s.liveLanes g k Ls).map (none :: ·)
    | .some_ b c => (s.liveLanes g k Ls).map (some (b, c) :: ·)

/-- A lane register is dead under an entry (R165). -/
def deadUnder (x : Option (Nat × Nat)) (n : Nat) : Bool :=
  match x with
  | none => false
  | some (b, c) => if n < 64 then !natBit b n else !natBit c ((n - 64) / 32)

/-- What a request returns to registers: the bytes, and whether to uniform ones; 0 for one that returns nothing (R336). -/
def Req.returns (r : Req) : Nat × Bool :=
  match r.kind with
  | .load _ n => (n, false)
  | .uload _ => (r.size, true)
  | .atom _ ac | .cas ac => (atomBytes ac, false)
  | .record => (8, true)
  | _ => (0, false)

/-- Outstanding returns of a group, by word (R336); those to registers that it has released are dropped (R40). -/
def State.returnsOf (s : State) (g : Group) : List RetEntry :=
  s.eng.reqs.foldl (fun l r =>
    let (width, uni) := r.returns
    if r.gid ≠ g.gid || width = 0 || lostReturn g r uni ((width + 3) / 4) then l
    else if l.any fun e => e.req = r.seq then
      l.map fun e => if e.req = r.seq then { e with mask := e.mask ||| (1#32 <<< r.lane) } else e
    else l ++ [⟨r.seq, r.reg, uni, 1#32 <<< r.lane, width⟩]) []

/-- A lane register is the destination of an outstanding return. -/
def returning (rs : List RetEntry) (n L : Nat) : Bool :=
  rs.any fun e => !e.uni && bitOf e.mask L && decide (e.reg ≤ n) && decide (n < e.reg + (e.width + 3) / 4)

/-- The dead lanes of each register of a group. -/
def deadMap (g : Group) (live : List (Option (Nat × Nat))) (rs : List RetEntry) : SMap Word :=
  (List.range (64 + 32 * g.h)).foldl (fun m n =>
    sset 0 m n (maskOf fun L => deadUnder ((live[L]?).getD none) n && !returning rs n L)) []

/-! The frame of a group (R335). -/

def tileBase (a h : Nat) : Nat := a + 0x3000 + 4096 * h

def accBase (a h j : Nat) : Nat := tileBase a h + 2304 * j

def returnBase (a h j m : Nat) : Nat := accBase a h j + 4352 * m

/-- Bytes that a group frame extends over. -/
def frameSize (g : Group) (rets : Nat) : Nat := returnBase 0 g.h g.j g.m + 16 * rets

/-- The tiles that a frame holds (R44, R336). -/
def tileMask (g : Group) : Word :=
  let held := maskOf fun i => if i < 16 then decide (i < g.j) else decide (i - 16 < g.m)
  match g.ppoint with
  | some m => m &&& held
  | none => held

/-- Blocks that some lane holds live. -/
def blockMask (g : Group) (dead : SMap Word) : Nat :=
  (List.range g.h).foldl (fun m b =>
    if (List.range 32).any fun r => sget 0 dead (64 + 32 * b + r) ≠ 0xFFFFFFFF#32 then m + 2 ^ b else m) 0

def maskWord (f : Nat → Bool) (n : Nat) : Nat := (List.range n).foldl (fun m i => if f i then m + 2 ^ i else m) 0

/-- CNTERR (R335). -/
def cntErr (g : Group) : Nat :=
  maskWord (fun i => (EClass.ofCode i).any fun c => (g.heldError c).isSome) 6
  + 256 * maskWord (fun i => (EClass.ofCode i).any fun c => g.lost.contains c) 6

/-- The header of a group frame (R335). -/
def frameHeader (g : Group) (dead : SMap Word) (rets : Nat) : List Byte :=
  let w := fun (n : Nat) => leBytes 4 n
  w g.ctx ++ w g.groupId ++ w g.teamId ++ w (16 * g.depth + 4 * g.kclass + g.cls) ++ w (512 * g.m + 16 * g.j + g.h)
  ++ w g.fpstat.toNat ++ leBytes 8 g.faultInfo.toNat ++ w g.dropret.toNat ++ w g.srseed.toNat
  ++ w (maskOf fun L => (g.lane L).exited).toNat ++ w g.dbgHalt.toNat ++ leBytes 8 g.dbgPath.toNat
  ++ w (tileMask g).toNat ++ w (blockMask g dead) ++ w rets ++ w (cntErr g) ++ leBytes 8 (g.counterRec.getD 0)
  ++ leBytes 8 g.kernel ++ w g.imprecise.toNat
  ++ w ((if g.ppoint.isSome then 1 else 0) + (if g.kclass = 2 then 2 else 0)) ++ List.replicate 160 0

/-- The 32 bytes of a lane. -/
def laneBytes (ln : Lane) : List Byte :=
  leBytes 8 ln.pc.toNat ++ leBytes 8 ln.region.toNat ++ leBytes 4 ln.k ++ leBytes 4 ln.rnd.toNat
  ++ leBytes 1 ((if ln.inRegion then 1 else 0) + (if ln.exited then 2 else 0)) ++ List.replicate 7 0

/-- Lanes, predicates, uniform registers and mask state. -/
def frameState (g : Group) : List Byte :=
  (List.range 32).flatMap (fun L => laneBytes (g.lane L))
  ++ (List.range 8).flatMap (fun n => leBytes 4 (rdP g n).bits.toNat)
  ++ (List.range 8).flatMap (fun n => leBytes 4 (rdP g n).tags.toNat)
  ++ (List.range 64).flatMap (fun n => leBytes 4 (rdS g n).val.toNat)
  ++ leBytes 8 (maskWord (fun n => (rdS g n).tag) 64)
  ++ (List.range 32).flatMap (fun i => leBytes 4 (sget 0 g.maskRows i).toNat)
  ++ leBytes 4 g.maskMode.toNat ++ leBytes 4 g.maskFill.toNat ++ List.replicate 304 0

/-- The held errors of a class, as the frame holds them. -/
def errorBytes (g : Group) (c : Nat) : List Byte :=
  let es := g.errs.filter fun e => e.cls.code = c
  (List.range 16).flatMap fun i => match es[i]? with
    | some e => leBytes 8 (2 ^ 56 * e.status + e.addr % 2 ^ 54)
    | none => leBytes 8 0

/-- The live lane registers of a group, in its frame. -/
def State.saveRegs (s : State) (g : Group) (a : Nat) (dead : SMap Word) : State :=
  let n := 64 + 32 * g.h
  let s := (List.range n).foldl (fun s r => (List.range 32).foldl (fun s L =>
    if bitOf (sget 0 dead r) L then s else s.devPut (frameReg a r L) 4 (rdV g r L).val.toNat) s) s
  s.devWrite (a + 0x2800) ((List.range 256).flatMap fun r =>
    leBytes 4 (if r < n then maskWord (fun L => !bitOf (sget 0 dead r) L && (rdV g r L).tag) 32 else 0))

def tileFrame (t : Tile) : List Byte :=
  (List.range 2048).map (fun i => sget 0 t.bytes i) ++ (List.range 128).map (fun i => sget 0 t.scales i)
  ++ leBytes 4 t.rowTags.toNat ++ leBytes 1 t.fmt ++ List.replicate 123 0

def accFrame (g : Group) (i : Nat) : List Byte :=
  (List.range 1024).flatMap (fun n => leBytes 4 (rdA g i (n / 32) (n % 32)).val.toNat)
  ++ leBytes 128 (maskWord (fun n => (rdA g i (n / 32) (n % 32)).tag) 1024) ++ List.replicate 128 0

/-- The tiles of the mask, in the frame. -/
def State.saveTiles (s : State) (g : Group) (a : Nat) : State :=
  let m := tileMask g
  let s := (List.range g.j).foldl (fun s i =>
    if bitOf m i then s.devWrite (tileBase a g.h + 2304 * i) (tileFrame (rdT g i)) else s) s
  (List.range g.m).foldl (fun s i =>
    if bitOf m (16 + i) then s.devWrite (accBase a g.h g.j + 4352 * i) (accFrame g i) else s) s

/-- Write a group's frame (R335, R336). -/
def State.saveGroup (s : State) (g : Group) (a : Nat) (dead : SMap Word) (rets : List RetEntry) : State :=
  let s := s.devWrite a (frameHeader g dead rets.length)
  let s := s.devWrite (a + 0x100) (frameState g)
  let s := (s.saveRegs g a dead).devWrite (a + 0x2C00) ((List.range 6).flatMap (errorBytes g) ++ List.replicate 256 0)
  let s := s.saveTiles g a
  s.devWrite (returnBase a g.h g.j g.m)
    (rets.flatMap fun e => leBytes 4 e.reg ++ leBytes 4 e.mask.toNat ++ leBytes 4 e.width ++ leBytes 4 0)

/-! The page map (R339). -/

/-- The lowest run of `n` free pages of a context's frame area. -/
def Ctx.freeRun (c : Ctx) (n : Nat) : Option Nat :=
  let fits := fun (p : Nat) => decide (p + n ≤ c.frameLen / 4096)
    && c.frames.all fun f => decide (p + n ≤ f.1) || decide (f.1 + f.2 ≤ p)
  ((1 :: c.frames.map fun f => f.1 + f.2).filter (fun p => (fits p : Bool))).foldl
    (fun (b : Option Nat) p => if b.all fun q => decide (p < q) then some p else b) none

def pagesFor (bytes : Nat) : Nat := (bytes + 4095) / 4096

/-- Take pages for a frame, answering its address. -/
def State.takePages (s : State) (ctx bytes : Nat) : Option (Nat × State) :=
  ((s.ctx ctx).freeRun (pagesFor bytes)).map fun p =>
    ((s.ctx ctx).frameArea + 4096 * p, s.onCtx ctx fun c => { c with frames := c.frames ++ [(p, pagesFor bytes)] })

/-- Free the pages of a frame. -/
def State.freePages (s : State) (ctx a : Nat) : State :=
  s.onCtx ctx fun c => { c with frames := c.frames.filter fun f => c.frameArea + 4096 * f.1 ≠ a }

/-! Framing a group. -/

/-- The frame writer found no room: the group waits in place, and one record says so (R339). -/
def State.noRoom (s : State) (g : Group) : State :=
  if g.frameWait then s
  else (raiseRecord s g.ctx 0x19 0 0).onGroup g.gid fun g => { g with frameWait := true }

/-- The group's frame stands at `a`; its operations move to the counter record (R119, R336). -/
def State.framed (s : State) (g : Group) (a : Nat) (c : HaltCause) (dead : SMap Word) (rets : List RetEntry) : State :=
  let out := s.eng.ops.any fun o => o.gid = g.gid
  let g := { g with counterRec := if out then some a else none }
  let s := s.saveGroup g a dead rets
  let ops := s.eng.ops.map fun o => if o.gid = g.gid then { o with moved := true } else o
  let s := { s with eng := { s.eng with ops := ops } }
  let s := s.onGroup g.gid fun x =>
    { x with
      halt := .framed c, frame := some a, returns := rets, dead := dead, frameWait := false, pend := []
      counterRec := if out then some a else none }
  if g.stepFrame.isSome then
    { s with groups := s.groups.map fun x => x.leave (maskOf fun L => (x.lane L).wait = .step a) }
  else s

/-- GROUP_FRAME_WRITE of a halted group (R336). -/
def State.frameGroup (s : State) (g : Group) : State :=
  match g.halt, s.grid? g.grid with
  | .halted c, some d => match s.liveLanes g d.kernel (List.range 32) with
    | .error s => s
    | .ok live =>
      let rets := s.returnsOf g
      let dead := deadMap g live rets
      match g.stepFrame with
      | some a => (s.framed g a c dead rets).readsDone g.pasid
      | none => match s.takePages g.ctx (frameSize g rets.length) with
        | some (a, s) => (s.framed g a c dead rets).readsDone g.pasid
        | none => s.noRoom g
  | _, _ => s

/-- GROUP_FRAME_WRITE (R336). -/
def doGroupFrameWrite (s : State) : State :=
  match s.group? s.cur.gid with
  | some g => s.frameGroup g
  | none => s

def execGroupFrameWrite (s : State) : Out := .next (doGroupFrameWrite s)

/-! Resuming from a frame. -/

/-- A lane as its frame holds it. -/
def State.loadLane (s : State) (a L : Nat) : Lane :=
  let b := a + 0x100 + 32 * L
  let f := s.devNat (b + 24) 1
  { pc := BitVec.ofNat 64 (s.devNat b 8), region := BitVec.ofNat 64 (s.devNat (b + 8) 8), k := s.devNat (b + 16) 4
    rnd := BitVec.ofNat 32 (s.devNat (b + 20) 4), inRegion := natBit f 0, exited := natBit f 1, wait := .none
    passed := 0, polls := 0, readyAt := 0, cnt := 0 }

/-- The lane, uniform and predicate registers of a frame. -/
def State.loadRegs (s : State) (g : Group) (a : Nat) : Group :=
  let word := fun (x : Nat) => BitVec.ofNat 32 (s.devNat x 4)
  let g := (List.range (64 + 32 * g.h)).foldl (fun g n =>
    let tags := word (a + 0x2800 + 4 * n)
    (List.range 32).foldl (fun g L =>
      wrV g n L (if bitOf (sget 0 g.dead n) L then ⟨0, false⟩ else ⟨word (frameReg a n L), bitOf tags L⟩)) g) g
  let st := s.devNat (a + 0x640) 8
  let g := (List.range 64).foldl (fun g n => wrS g n ⟨word (a + 0x540 + 4 * n), natBit st n⟩) g
  (List.range 8).foldl (fun g n => wrP g n ⟨word (a + 0x500 + 4 * n), word (a + 0x520 + 4 * n)⟩) g

/-- The tiles of a frame; a tile outside TILEMASK is empty (R44). -/
def State.loadTiles (s : State) (g : Group) (a : Nat) : Group :=
  let m := BitVec.ofNat 32 (s.devNat (a + 0x38) 4)
  let bytes := fun (x n : Nat) => (s.devRead x n).1
  let fill := fun (b : List Byte) => (b.zipIdx).foldl (fun (t : SMap Byte) (x, i) => sset 0 t i x) []
  let g := (List.range g.j).foldl (fun g i =>
    let b := tileBase a g.h + 2304 * i
    wrT g i (if bitOf m i then
      { bytes := fill (bytes b 2048), scales := fill (bytes (b + 2048) 128)
        rowTags := BitVec.ofNat 32 (s.devNat (b + 2176) 4), fmt := s.devNat (b + 2180) 1 }
    else emptyTile)) g
  (List.range g.m).foldl (fun g i =>
    let b := accBase a g.h g.j + 4352 * i
    let tags := s.devNat (b + 4096) 128
    (List.range 1024).foldl (fun g n =>
      wrA g i (n / 32) (n % 32) (if bitOf m (16 + i) then
        ⟨BitVec.ofNat 32 (s.devNat (b + 4 * n) 4), natBit tags n⟩ else ⟨0, false⟩)) g) g

/-- The held errors and lost marks of a frame (R116). -/
def State.loadErrors (s : State) (a : Nat) : List EngErr × List EClass :=
  let cls := (List.range 6).filterMap EClass.ofCode
  let lost := s.devNat (a + 0x44) 4
  (cls.flatMap fun c => (List.range 16).filterMap fun i =>
      let x := s.devNat (a + 0x2C00 + 128 * c.code + 8 * i) 8
      if x / 2 ^ 56 = 0 then none else some ⟨c, x / 2 ^ 56, x % 2 ^ 54⟩,
   cls.filter fun c => natBit lost (8 + c.code))

/-- A group as its frame holds it (R332 RETRY, R335); a counter record that has emptied meanwhile joins it (R119). -/
def State.loadGroup (s : State) (g : Group) (a : Nat) : Group :=
  let word := fun (x : Nat) => BitVec.ofNat 32 (s.devNat (a + x) 4)
  let g := s.loadTiles (s.loadRegs g a) a
  let es := s.loadErrors a
  let g := { g with
    lanes := (List.range 32).map (s.loadLane a)
    fpstat := BitVec.ofNat 7 (s.devNat (a + 0x14) 4), faultInfo := BitVec.ofNat 64 (s.devNat (a + 0x18) 8)
    dropret := word 0x20, srseed := word 0x24, dbgHalt := word 0x2C
    dbgPath := BitVec.ofNat 64 (s.devNat (a + 0x30) 8), imprecise := word 0x58
    maskRows := (List.range 32).foldl (fun m i => sset 0 m i (word (0x648 + 4 * i))) []
    maskMode := word 0x6C8, maskFill := word 0x6CC, errs := es.1, lost := es.2, dead := [] }
  let g := { g with outrider := g.outrider.map fun _ => { v := g.v, s := g.s, p := g.p, pend := [], queue := [] } }
  if s.recordEmpty g.gid then g.joinRecord else g

/-- A framed group that may run resumes, once nothing is still to return (R332, R336) and its frame can be read; its pages
are freed. -/
def State.tryResume (s : State) (gid : Nat) : State :=
  match s.group? gid with
  | none => s
  | some g => match g.halt, g.frame, s.team? g.team with
    | .framed .preempt, some a, some t =>
      if t.state = .running && g.returns.isEmpty && !g.ended then
        match s.devFetch a (frameSize g 0) with
        | .error s => s
        | .ok (_, u) => (u.freePages g.ctx a).onGroup gid fun g => (s.loadGroup g a).resumeRun
      else s
    | _, _, _ => s

/-- A framed group may run again: it resumes when its team is resident (R332, R341). -/
def State.release_ (s : State) (gid : Nat) : State :=
  (s.onGroup gid fun g => match g.halt with
    | .framed _ => { g with halt := .framed .preempt, hold := false, parked := false, trap := none }
    | _ => g).tryResume gid

/-! Frames of teams (R338). -/

/-- A descriptor as an image (R258). -/
def Desc.image (d : Desc) : List Byte :=
  let f := fun (n : Nat) (h : Nat → Nat) => (List.range 4).flatMap fun k => leBytes n (h k)
  leBytes 8 d.base.toNat ++ leBytes 1 d.esize ++ leBytes 1 d.rank
  ++ leBytes 2 ((if d.read then 1 else 0) + (if d.write then 2 else 0)) ++ leBytes 4 d.pad
  ++ f 4 d.dim ++ f 8 (fun k => wrapNat (d.stride k) 64) ++ f 2 d.boxOf ++ f 1 d.lo ++ f 1 d.hi
  ++ leBytes 1 (if d.alias_ then 1 else 0) ++ List.replicate 47 0

def teamFrameSize (t : Team) : Nat := 256 + 4096 + 64 + t.spSize + t.spSize / 16

/-- The groups of a team in the order of their GROUPID. -/
def State.teamGroups (s : State) (t : Team) : List Group := t.groups.filterMap s.group?

/-- An operation reads or writes its team's scratchpad (R42, R44, R340). -/
def Op.onScratch (o : Op) : Bool :=
  match o.kind with
  | .cpy .. | .wbl .. | .imxCollect .. => true
  | _ => false

/-- The tag bits of a scratchpad, gate then poison for each word (R338). -/
def tagBytes (c : Cores) (a n : Nat) : List Byte :=
  leBytes (n / 16) (maskWord (fun i => if i % 2 = 0 then spGate c (a + 2 * i) else spPoison c (a + 4 * (i / 2))) (n / 2))

/-- Write a team's frame (R338). -/
def State.saveTeam (s : State) (t : Team) (a : Nat) : State :=
  let gs := s.teamGroups t
  let s := s.devWrite a (leBytes 4 t.grid ++ leBytes 4 t.teamId ++ leBytes 4 t.spSize ++ leBytes 4 gs.length
    ++ List.replicate 240 0)
  let s := s.devWrite (a + 256) ((List.range 32).flatMap fun i => (sget Desc.invalid t.descs i).image)
  let s := s.devWrite (a + 4352) ((List.range 16).flatMap fun i => leBytes 4 ((gs[i]?.map (·.barriers)).getD 0))
  let s := s.devWrite (a + 4416) (spBytes s.cores (t.sp 0) t.spSize)
  s.devWrite (a + 4416 + t.spSize) (tagBytes s.cores (t.sp 0) t.spSize)

/-- A team has ended, or none of its groups is left to frame. -/
def State.allFramed (s : State) (t : Team) : Bool :=
  (s.teamGroups t).all fun g => g.ended || (match g.halt with
    | .framed _ => true
    | _ => false)

/-- A team that occupies its core. -/
def Team.resident (t : Team) : Bool := t.state = .clearing || t.state = .running || t.state = .framing

/-- Pre-emption requests of a core complete when every team of it is framed (R334, R340). -/
def State.preemptDone (s : State) (core : Nat) : State :=
  if s.teams.any fun t => t.core = core && t.state = .framing then s
  else
    let n := (s.disp.supPreempts.filter (· = core)).length + (s.disp.preempts.filter fun x => x.1 = core).length
    { s with
      sup := { s.sup with haltCnt := s.sup.haltCnt + BitVec.ofNat 32 n }
      disp := { s.disp with
        supPreempts := s.disp.supPreempts.filter (· ≠ core), preempts := s.disp.preempts.filter fun x => x.1 ≠ core } }

/-- TEAM_FRAME_WRITE of a team whose groups are all framed, once its copies have completed (R338, R340). -/
def State.frameTeam (s : State) (t : Team) : State :=
  if t.state ≠ .framing || !s.allFramed t || s.eng.ops.any (fun o => o.team = t.id && o.onScratch) then s
  else match s.grid? t.grid with
    | none => s
    | some d => match s.takePages d.ctx (teamFrameSize t) with
      | none =>
        if t.frameWait then s
        else (raiseRecord s d.ctx 0x19 0 0).onTeam t.id fun t => { t with frameWait := true }
      | some (a, s) =>
        let lo := t.sp 0 / 4
        let saved := (s.cores.reload.filter fun x => decide (lo ≤ x.1) && decide (x.1 < lo + t.spSize / 4)).map
          fun x => (x.1 - lo, x.2)
        let s := (s.saveTeam t a).onTeam t.id fun t =>
          { t with state := .framed, frame := some a, savedReload := saved, frameWait := false, since := s.ltick, acqQ := [] }
        s.preemptDone t.core

/-- TEAM_FRAME_WRITE (R338). -/
def doTeamFrameWrite (s : State) : State :=
  match s.team? s.cur.team with
  | some t => s.frameTeam t
  | none => s

def execTeamFrameWrite (s : State) : Out := .next (doTeamFrameWrite s)

/-- FRAME_RETRY (R339): the frame writer tries again for the groups and teams of a context that wait. -/
def doFrameRetry (ctx : Nat) (s : State) : State :=
  let s := (s.groups.filter fun g => g.ctx = ctx && g.frameWait && !g.ended).foldl (fun s g => s.frameGroup g) s
  (s.teams.filter fun t => t.frameWait && (s.grid? t.grid).any fun d => d.ctx = ctx).foldl (fun s t => s.frameTeam t) s

def execFrameRetry (ctx : Nat) (s : State) : Out := .next (doFrameRetry ctx s)

/-- A team's scratchpad and slots as its frame holds them, in its new allocation (R281, R338). -/
def State.loadTeam (s : State) (t : Team) (a : Nat) : State :=
  let base := t.sp 0
  let bytes := (s.devRead (a + 4416) t.spSize).1
  let tags := s.devNat (a + 4416 + t.spSize) (t.spSize / 16)
  let words := List.range (t.spSize / 4)
  let c := s.cores
  let c := { c with
    spad := (bytes.zipIdx).foldl (fun m (b, i) => sset 0 m (base + i) b) c.spad
    gate := words.foldl (fun m i => sset false m (base / 4 + i) (natBit tags (2 * i))) c.gate
    poison := words.foldl (fun m i => sset false m (base / 4 + i) (natBit tags (2 * i + 1))) c.poison
    reload := words.foldl (fun m i => sset 0 m (base / 4 + i) (sget 0 t.savedReload i)) c.reload }
  let descs := (List.range 32).foldl (fun m i =>
    let b := (s.devRead (a + 256 + 128 * i) 128).1
    sset Desc.invalid m i (if leNat ((b.drop 9).take 1) = 0 then Desc.invalid
      else Desc.ofImage b (natBit (leNat ((b.drop 0x50).take 1)) 0))) []
  let s := { s with cores := c }
  let s := s.onTeam t.id fun t => { t with descs := descs, frame := none, savedReload := [] }
  (((s.teamGroups t).zipIdx).foldl (fun s (g, i) =>
    s.onGroup g.gid fun g => { g with barriers := s.devNat (a + 4352 + 4 * i) 4 }) s)

/-! Ends of groups. -/

/-- A group ends (R37, R174): it gives back what it holds, and waits for nothing. -/
def State.endGroup (s : State) (gid : Nat) : State :=
  match s.group? gid with
  | none => s
  | some g =>
    let s := (List.range 32).foldl (fun s L => if (g.lane L).wait = .lock then s.withdrawLane gid L else s) (s.withdraw g)
    let s := match g.frame with
      | some a => s.freePages g.ctx a
      | none => s
    let s := s.onGroup gid fun g =>
      { g with
        ended := true, h := 0, j := 0, m := 0, t := [], a := [], pend := [], frame := none, returns := []
        trap := none, hold := false, parked := false, frameWait := false, atBarrier := false, halt := .running
        stepFrame := none
        lanes := g.lanes.map fun ln => { ln with exited := true, wait := .none } }
    s.checkBarrier g.team

/-- Every grid of a root task, its own included. -/
def State.family (s : State) (root : Nat) : List Grid := s.disp.grids.filter fun d => d.root = root

/-- The GRIDs of killed groups that have not been accepted launch nothing. -/
def State.dropRecords (s : State) (mine : Nat → Bool) : State :=
  { s with eng := { s.eng with reqs := s.eng.reqs.filter fun r => !(r.kind = .record && r.gid ≠ 0 && mine r.gid) } }

/-- KILL (R332, R378): every group of the root task ends, placed or not. -/
def State.killRoot (s : State) (root code : Nat) : State :=
  let ds := s.family root
  let s := ds.foldl (fun s d => s.onGrid d.id fun d =>
    if d.retired then d
    else { d with killed := if d.killed.isNone then some code else d.killed, nextTeam := d.teams }) s
  let mine := fun (gid : Nat) => ds.any fun d => d.id = gid
  let s := s.dropRecords fun gid => (s.group? gid).any fun g => mine g.grid
  let s := (s.groups.filter fun g => mine g.grid && !g.ended).foldl (fun s g => s.endGroup g.gid) s
  (s.teams.filter fun t => mine t.grid && t.frame.isSome).foldl (fun s t =>
    match t.frame, s.grid? t.grid with
    | some a, some d => (s.freePages d.ctx a).onTeam t.id fun t => { t with frame := none }
    | _, _ => s) s

/-- The root task of a group. -/
def State.rootOf (s : State) (gid : Nat) : Option Nat := (s.group? gid).bind fun g => (s.grid? g.grid).map (·.root)

end Sys2Proof.Machine
end

