-- ==== Sys2Proof/Machine/Privileged.lean ====
section
/-! DEFINITION. State registers: SGET and SPUT (R12, R23, R43, R48, R60, R73, R198, R199, R324, R326). -/

namespace Sys2Proof.Machine

/-- PLACE (R12). -/
def placeOfGroup (s : State) (g : Group) : Nat := s.fab.self % 1024 * 2 ^ 13 + g.core * 32 + g.side * 8 + g.slot

/-- TASKCTX (R43). -/
def taskCtx (g : Group) : Nat := 16 * g.depth + 4 * g.kclass + g.cls

/-- HELD (R73). -/
def heldWord (g : Group) : Nat := 512 * g.m + 16 * g.j + g.h

/-- A counter of R115. -/
def counterWord (s : State) (g : Group) (c : EClass) : Nat :=
  (if (g.heldError c).isSome then 2 ^ 31 else 0) + s.countOf g.gid c

/-- The cycles of a core: those of the side that is furthest, the four sides of a core sharing one clock (R23). -/
def State.coreCycles (s : State) (core : Nat) : Nat :=
  ((List.range 4).map fun k => (s.side (sideKey core k)).cycle).foldl max 0

/-- CLOCK (R23, R386). -/
def clockOf (s : State) (g : Group) : Nat :=
  match s.serialOf g.grid with
  | some x => x.count
  | none => (Config.clockStart g.core + s.coreCycles g.core) % 2 ^ 64

/-- The value of a state register (R73, R326); LANEID is given by the lane. -/
def stateValue (s : State) (g : Group) (n L : Nat) : Nat :=
  let d := s.side (sideKey g.core g.side)
  if n = 0x00 then L
  else if n = 0x01 then g.groupId
  else if n = 0x02 then g.teamId
  else if n = 0x03 then g.grid
  else if n = 0x04 then placeOfGroup s g
  else if n = 0x05 then taskCtx g
  else if n = 0x06 then clockOf s g
  else if n = 0x07 then s.tickOf g
  else if n = 0x09 then g.fpstat.toNat
  else if n = 0x0A then g.srseed.toNat
  else if n = 0x0B then g.dropret.toNat
  else if n = 0x0C then (s.ctx g.ctx).ebudget
  else if n = 0x0D then g.faultInfo.toNat
  else if 0x10 ≤ n ∧ n ≤ 0x15 then ((EClass.ofCode (n - 0x10)).map (counterWord s g)).getD 0
  else if n = 0x18 then teamSize s g
  else if n = 0x19 then heldWord g
  else if 0x20 ≤ n ∧ n ≤ 0x27 then (sget 0 d.evsel (n - 0x20)).toNat
  else if 0x28 ≤ n ∧ n ≤ 0x2F then (sget 0 d.evcnt (n - 0x28)).toNat
  else if n = 0x80 then g.trapRec
  else if n = 0x81 then s.sup.vecBase.toNat
  else if n = 0x82 then s.sup.trapQ.toNat
  else if n = 0x83 then s.sup.ctxTab.toNat
  else if n = 0x84 then s.power.level
  else if n = 0x85 then s.power.pwrAvg
  else if n = 0x86 then g.ctxNum
  else if n = 0x87 then s.sup.haltCnt.toNat
  else if n = 0x88 then s.mem.dquota.toNat
  else 0

/-- A number names a counter register of R48. -/
def counterReg (n : Nat) : Bool := decide (0x20 ≤ n) && decide (n ≤ 0x2F)

/-- The checks of SGET (R198): privilege, number, counter access. -/
def sgetTrap (g : Group) (n : Nat) (act : Word) : Option TrapReq :=
  if 0x80 ≤ n && !g.sup then some ⟨0x02, lowest act, n, 0⟩
  else if !stateNumber n then some ⟨0x01, lowest act, 0, 0⟩
  else if counterReg n && !g.sup && !g.cntGrant then some ⟨0x02, lowest act, n, 0⟩
  else none

/-- A register that SPUT may write at the group's privilege (R73, R326). -/
def writable (g : Group) (n : Nat) : Bool :=
  n = 0x09 || n = 0x0A || (0x20 ≤ n && n ≤ 0x27)
  || (g.sup && (n = 0x81 || n = 0x82 || n = 0x83 || n = 0x88))

/-- The checks of SPUT (R199). -/
def sputTrap (g : Group) (n : Nat) (act : Word) : Option TrapReq :=
  match sgetTrap g n act with
  | some t => some t
  | none => if writable g n then none else some ⟨0x02, lowest act, n, 0⟩

/-- The checks of a word of major 0x7E in ascending order of their codes (R329), its own before the register map and the
guard, then the word (log 39). -/
def execChecked (i : Instr) (gd : Guard) (chk : Group → Word → Option TrapReq)
    (f : State → Group → Word → State) (s : State) : Out :=
  onPath s fun g =>
    let act := activeOf g s.cur gd
    match chk g act <|> mapTrap i g act <|> guardPoison g act gd with
    | some t => raise s t
    | none => if act = 0 then s.go 0 else f s g act

/-- SGET (R198): never tagged. Its uniform form reads LANEID as lane 0's (log 75). -/
def sgetEffect (o : RForm) (s : State) (_ : Group) (act : Word) : State :=
  let n := o.a.toNat
  let w := if stateWide n then 2 else 1
  s.onGroup s.cur.gid fun x =>
    (if o.x then wrSs x o.d.toNat w (stateValue s x n 0) false
     else eachLane act (fun y L => wrVs y o.d.toNat w L (stateValue s x n L) false) x).advance s.cur 0

def execSget (o : RForm) (s : State) : Out :=
  execChecked (.sget o) o.g (fun g act => sgetTrap g o.a.toNat act) (sgetEffect o) s

/-- Reading some bytes of local space meets an error that is corrected. -/
def State.devCorrects (s : State) (pa n : Nat) : Bool :=
  (lineChunks pa n).any fun (a, _) => match s.decodeLocal a true with
    | .ok st e d => (s.line? ⟨st, e, d / 128⟩).isNone && s.corrects ⟨st, e, d / 128⟩
    | _ => false

/-- The contexts that the device holds, and those whose records a table at `b` gives as valid, or whose reading has something
to rewrite (R325, R392). -/
def State.tableContexts (s : State) (b : Nat) : List Nat :=
  (s.ctxs.map (·.1) ++ (List.range 65535).filter fun n =>
    let a := b + 256 * (n + 1)
    natBit (s.devNat (a + 4) 4) 31 || s.devCorrects a 256).eraseDups

/-- Write a state register by its access codes (R7, R48, R56, R60, R326): a 64-bit one takes the source in its lower
word, and 0 above (log 62). A new CTXTAB has its translation block and its contexts' records taken up. -/
def putState (s : State) (g : Group) (n : Nat) (x : Word) : State :=
  let sk := sideKey g.core g.side
  if n = 0x09 then s.onGroup g.gid fun g => { g with fpstat := g.fpstat &&& ~~~(x.setWidth 7) }
  else if n = 0x0A then s.onGroup g.gid fun g =>
    { mapLanes g fun L ln => { ln with rnd := seedLane x L } with srseed := x }
  else if 0x20 ≤ n ∧ n ≤ 0x27 then s.onSide sk fun d => { d with evsel := sset 0 d.evsel (n - 0x20) (x &&& 0xC00007FF#32) }
  else if n = 0x81 then { s with sup := { s.sup with vecBase := x.setWidth 64 &&& ~~~0x1FF#64 } }
  else if n = 0x82 then { s with sup := { s.sup with trapQ := x.setWidth 64 &&& ~~~0x3FFFF#64 } }
  else if n = 0x83 then
    let b := x.setWidth 64 &&& ~~~0xFF#64
    { s with
      sup := { s.sup with ctxTab := b }
      mem := { s.mem with watch := s.mem.watch ++ [.block (b.toNat / 128), .block (b.toNat / 128 + 1)]
        ++ (s.tableContexts b.toNat).map fun n => .ctx n true true }
      agenda := [.event s.cur (.translationBlockReload (b.toNat / 128)),
                 .event s.cur (.translationBlockReload (b.toNat / 128 + 1))]
        ++ (s.tableContexts b.toNat).map (fun n => .event s.cur (.contextRecordWrite n)) ++ s.agenda }
  else if n = 0x88 then { s with mem := { s.mem with dquota := x &&& 0xFFFFF#32 } }
  else s

/-- SPUT (R199). -/
def sputEffect (o : RForm) (s : State) (g : Group) (act : Word) : State :=
  let x := if o.ub then rdS g o.b.toNat else rdV g o.b.toNat (lowest act)
  if x.tag then raise s ⟨0x07, lowest act, 0, 0⟩ else (putState s g o.a.toNat x.val).go 0

def execSput (o : RForm) (s : State) : Out :=
  execChecked (.sput o) o.g (fun g act => sputTrap g o.a.toNat act) (sputEffect o) s

end Sys2Proof.Machine
end

