-- ==== Sys2Proof/Machine/Traps.lean ====
section
/-! DEFINITION. Delivery of traps (R327 to R331), dispositions (R332, R408), the ends of handlers and groups
(R174, R333), and the supervisor's words (R334, R342, R354). -/

namespace Sys2Proof.Machine

/-! Kernel records. -/

/-- The regions of a record, at `o` (R168, R280). -/
def regionsAt (b : List Byte) (o : Nat) : List Region :=
  (List.range 6).map fun i =>
    let f := leNat ((b.drop (o + 16 * i + 12)).take 4)
    { base := leNat ((b.drop (o + 16 * i)).take 8), len := leNat ((b.drop (o + 16 * i + 8)).take 4)
      read := natBit f 0, write := natBit f 1, valid := natBit f 31 }

/-- A region's flags hold a bit that R168 does not give. -/
def regionsBad (b : List Byte) (o : Nat) : Bool :=
  (List.range 6).any fun i => natBits (leNat ((b.drop (o + 16 * i + 12)).take 4)) 30 2 ≠ 0

/-- A kernel record's contents; none where they break R168. An ENTRY that is not a multiple of 8 is taken as it stands
(log 60). -/
def Kernel.ofBytes (addr : Nat) (b : List Byte) : Option Kernel :=
  let f := fun o n => leNat ((b.drop o).take n)
  if addr % 128 ≠ 0 || f 8 1 = 0 || decide (16 < f 8 1) || decide (2 < f 9 1) || decide (6 < f 10 1)
      || decide (16 < f 11 1) || decide (8 < f 12 1) || f 13 3 ≠ 0 || f 0x10 4 % 768 ≠ 0 || regionsBad b 0x20 then none
  else some
    { addr := addr, entry := BitVec.ofNat 64 (f 0 8), groups := f 8 1, kclass := f 9 1, blocks := f 10 1
      optiles := f 11 1, acctiles := f 12 1, spbytes := f 0x10 4, liveCount := f 0x14 4, liveTab := f 0x18 8
      regions := regionsAt b 0x20 }

/-- What reading a kernel record comes to. -/
inductive KernelRead where
  | ok (k : Kernel)
  | bad (s : State)
  | wait (s : State)

def State.readKernel (s : State) (core pasid addr : Nat) (ctx0 : Bool) : KernelRead :=
  match s.virtRead core pasid addr 128 ctx0 with
  | .wait s => .wait s
  | .bad s => .bad s
  | .done b => match Kernel.ofBytes addr b with
    | some k => .ok k
    | none => .bad s

/-- Groups of a team of `n` on a side (R375). -/
def sideGroups (n side : Nat) : Nat := (n + 3 - side) / 4

/-- The team fits an empty core (R17 to R19, R36). -/
def Kernel.fitsEmpty (k : Kernel) : Bool :=
  decide (k.spbytes ≤ 393216) && (List.range 4).all fun i =>
    let n := sideGroups k.groups i
    decide ((if k.kclass = 2 then 2 else 1) * n ≤ 8) && decide (k.blocks * n ≤ 48) && decide (k.optiles * n ≤ 32)
    && decide (k.acctiles * n ≤ 16)

/-! Trap records (R331). -/

/-- The next free entry of the trap queue: one without an unacknowledged or held record. -/
def State.freeRecord (s : State) : Option Nat :=
  let addr := fun n => s.sup.trapQ.toNat + 64 * ((s.sup.trapNext + n) % 4096)
  (List.range 4096).find? fun n => !(s.sup.recs.any fun r => r.addr = addr n)

/-- Write a trap record, if an entry is free. -/
def State.writeRecord (s : State) (t : TrapInfo) (g : Option Group) (ctx : Nat) : Option (TrapRec × State) :=
  s.freeRecord.map fun n =>
    let i := (s.sup.trapNext + n) % 4096
    let a := s.sup.trapQ.toNat + 64 * i
    let w := fun (f : Group → Nat) => (g.map f).getD 0
    let s := s.devWrite a
      (leBytes 8 ((g.bind (·.frame)).getD 0) ++ leBytes 8 (faultWord t.code t.lane t.info).toNat ++ leBytes 8 t.full
        ++ leBytes 8 t.pc.toNat ++ leBytes 4 ctx ++ leBytes 4 (s.ctx ctx).pasid ++ leBytes 4 (w (·.groupId))
        ++ leBytes 4 (w (·.teamId)) ++ leBytes 8 t.tick ++ [0xFF] ++ List.replicate 7 0)
    let r : TrapRec :=
      { addr := a, gid := g.map (·.gid), code := t.code, hold := false, twin := none, handler := none, pc := t.pc, ctx := ctx }
    (r, { s with sup := { s.sup with trapNext := (i + 1) % 4096, recs := s.sup.recs ++ [r] } })

def State.rec? (s : State) (a : Nat) : Option TrapRec := s.sup.recs.find? fun r => r.addr = a

def State.onRec (s : State) (a : Nat) (f : TrapRec → TrapRec) : State :=
  { s with sup := { s.sup with recs := s.sup.recs.map fun r => if r.addr = a then f r else r } }

/-- The record's DISP byte; a record that is not held leaves the queue (R332). -/
def State.setDisp (s : State) (a d : Nat) : State :=
  let s := s.devPut (a + 0x38) 1 d
  if d = 4 then s.onRec a fun r => { r with hold := true }
  else { s with sup := { s.sup with recs := s.sup.recs.filter fun r => r.addr ≠ a } }

/-- The running lanes of a frame. -/
def State.frameLanes (s : State) (a : Nat) : List Lane := ((List.range 32).map (s.loadLane a)).filter fun ln => !ln.exited

/-- A record's group is of class KD or KP and framed inside a region (R327, R408). -/
def State.inRegion (s : State) (r : TrapRec) : Bool :=
  (r.gid.bind s.group?).any fun g => g.kclass ≠ 0 && g.frame.any fun a => (s.frameLanes a).all (·.inRegion)

/-- The default disposition of a record (R327). -/
def State.defaultDisp (s : State) (r : TrapRec) : Nat :=
  if r.code = 0x15 then (if (s.ctx r.ctx).brkHold then 4 else 3)
  else if r.code = 0x19 || r.code = 0x1A then 4
  else if (r.code = 0x07 || r.code = 0x08 || r.code = 0x1B) && s.inRegion r then 2 else 3

/-- Codes of imprecise traps (R327). -/
def impreciseCode (code : Nat) : Bool := code = 0x17 || code = 0x18 || code = 0x1B

/-- Edit the lanes of a frame. -/
def State.editLanes (s : State) (a : Nat) (f : Lane → Lane) : State :=
  (List.range 32).foldl (fun s L =>
    let ln := s.loadLane a L
    if f ln = ln then s else s.devWrite (a + 0x100 + 32 * L) (laneBytes (f ln))) s

/-- KILL of a record's group, or, without a group, of its context's tasks. -/
def State.killRec (s : State) (r : TrapRec) : State :=
  match r.gid.bind s.rootOf with
  | some root => s.killRoot root r.code
  | none =>
    if r.gid.isSome then s
    else (s.disp.grids.filter fun d => d.ctx = r.ctx && d.parent.isNone && d.sup.isNone).foldl
      (fun s d => s.killRoot d.id r.code) s

/-- How often a group has been restarted at a region entry since its last RGN or RGN.END (R408). -/
def Group.restartsAt (g : Group) (entry : BitVec 64) : Nat := ((g.restarts.find? fun x => x.1 = entry).map (·.2)).getD 0

/-- One restart more at some entries (R408). -/
def Group.countRestart (g : Group) (entries : List (BitVec 64)) : Group :=
  { g with restarts := g.restarts.filter (fun x => !entries.contains x.1) ++ entries.map fun e => (e, g.restartsAt e + 1) }

/-- REGION (R408): every running lane restarts at its region entry, or KILL. -/
def State.restart (s : State) (r : TrapRec) (g : Group) (a : Nat) : State :=
  let lanes := s.frameLanes a
  let entries := (lanes.map (·.region)).eraseDups
  if g.kclass = 0 || lanes.any (fun ln => !ln.inRegion) || entries.any (fun e => decide (16 ≤ g.restartsAt e)) then s.killRec r
  else
    let s := s.editLanes a fun ln => if ln.exited then ln else { ln with pc := ln.region, k := 0 }
    (s.onGroup g.gid fun g => g.countRestart entries).release_ g.gid

/-- A held translation record parks its group and posts a capacity record (R364). -/
def State.park (s : State) (r : TrapRec) (g : Group) : State :=
  let info := g.faultInfo.toNat
  let s := s.onGroup g.gid fun g => { g with parked := true, haltedAt := s.ltick }
  let t : TrapInfo := ⟨0x19, natBits info 58 54, natBits info 53 0, (s.devNat (r.addr + 0x10) 8), r.pc, s.ltick⟩
  if r.twin.isSome then s
  else { s with sup := { s.sup with waiting := s.sup.waiting ++ [(t, some g.gid, r.ctx)] } }

/-- A disposition acts on the record's framed group (R332). -/
def State.actOn (s : State) (r : TrapRec) (d : Nat) : State :=
  match r.gid.bind s.group? with
  | none => if d = 3 then s.killRec r else s
  | some g => match g.frame with
    | none => if d = 3 then s.killRec r else s
    | some a =>
      let s := s.devTouch (a + 0x100) 1024
      if d = 0 then s.release_ g.gid
      else if d = 1 then
        if impreciseCode r.code || r.code = 0x16 then s.release_ g.gid
        else (s.editLanes a fun ln => if ln.pc = r.pc && !ln.exited then { ln with pc := ln.pc + 8 } else ln).release_ g.gid
      else if d = 2 then s.restart r g a
      else if d = 3 then s.killRec r
      else
        let s := s.onGroup g.gid fun g => { g with hold := true }
        if r.code = 0x0B || r.code = 0x0C then s.park r g else s

/-- Acknowledge a record with a disposition; a twin takes the same one unless it is HOLD (R332, R364). -/
def State.dispose (s : State) (r : TrapRec) (d : Nat) : State :=
  let s := s.setDisp r.addr d
  let s := match r.twin with
    | some b => if d = 4 then s else s.setDisp b d
    | none => s
  s.actOn r d

/-- A handler's grid (R331): one team of one group, express, at supervisor privilege. One whose shape fits no empty core
stays in the ready pool (log 61). -/
def State.placeHandler (s : State) (k : Kernel) (r : TrapRec) : State :=
  let id := s.disp.nextGrid
  let d : Grid :=
    { id := id, ctx := 0, parent := none, parentTeam := none, root := id, depth := 1, cls := 0, mode := .plain
      kernel := { k with groups := 1 }, teams := 1, args := BitVec.ofNat 64 r.addr, done := 0, regions := []
      accept := s.disp.accepts, preds := [], nextTeam := 0, peers := [], killed := none, retired := false
      readyAt := s.ltick, sup := some (r.addr, r.code, r.ctx) }
  let s := { s with disp := { s.disp with
    grids := s.disp.grids ++ [d], nextGrid := id + 1, accepts := s.disp.accepts + 1 } }
  s.onRec r.addr fun r => { r with handler := some id }

/-- Who handles a code: a vector's kernel, or the default disposition. -/
def State.vector (s : State) (code : Nat) : KernelRead :=
  let b := (s.devRead (s.sup.vecBase.toNat + 16 * code) 16).1
  if natBit (leNat ((b.drop 8).take 4)) 0 then s.readKernel 0 (s.ctx 0).pasid (leNat (b.take 8)) true else .bad s

/-- Post a record and place its handler, or take the default disposition at once (R331). Nothing while the
queue is full, or while the handler's record is being translated. -/
def State.deliverTrap (s : State) (t : TrapInfo) (g : Option Group) (ctx : Nat) : Option (State × Nat) :=
  let s := s.devTouch (s.sup.vecBase.toNat + 16 * t.code) 16
  match s.vector t.code with
  | .wait _ => none
  | .ok k => (s.writeRecord t g ctx).map fun (r, s) => ((s.placeHandler k r).readsDone (s.ctx 0).pasid, r.addr)
  | .bad s => (s.writeRecord t g ctx).map fun (r, s) => (s.dispose r (s.defaultDisp r), r.addr)

/-- What looking up a vector leaves behind: a walk that it asked for. -/
def State.vectorWait (s : State) (code : Nat) : State :=
  match s.vector code with
  | .wait s => s
  | _ => s

/-- The record of a debug step: no handler is placed, and the group stays under HOLD (R342). -/
def State.stepRecord (s : State) (t : TrapInfo) (g : Group) : State :=
  match s.writeRecord t (some g) g.ctx with
  | none => s
  | some (r, s) =>
    (s.setDisp r.addr 4).onGroup g.gid fun g => { g with trap := none, stepFrame := none, hold := true }

/-- TRAP_DELIVERY (R331) for the agent's framed group. -/
def doTrapDelivery (s : State) : State :=
  match s.group? s.cur.gid with
  | none => s
  | some g => match g.halt, g.trap with
    | .framed _, some t =>
      if g.stepFrame.isSome then s.stepRecord t g
      else
        let s' := s.onGroup g.gid fun g => { g with trap := none }
        match s'.deliverTrap t (some g) g.ctx with
        | some (s, _) => s
        | none => s.vectorWait t.code
    | _, _ => s

def execTrapDelivery (s : State) : Out := .next (doTrapDelivery s)

/-- TRAP_RECORD_POST (R330, R331, R364): the oldest record that waits is posted once an entry is free; a
capacity record of a parked group becomes the twin of its held record. -/
def doTrapRecordPost (s : State) : State :=
  match s.sup.waiting with
  | [] => s
  | (t, gid, ctx) :: rest =>
    let held := gid.bind fun n => s.sup.recs.find? fun r => r.gid = some n && r.hold
    let s' := { s with sup := { s.sup with waiting := rest } }
    if gid.isSome && held.isNone then s'
    else match s'.deliverTrap t (gid.bind s.group?) ctx with
      | none => s.vectorWait t.code
      | some (s, a) => match held with
        | some r => (s.onRec a fun x => { x with twin := some r.addr }).onRec r.addr fun x => { x with twin := some a }
        | none => s

def execTrapRecordPost (s : State) : Out := .next (doTrapRecordPost s)

/-- The paths of a group in the order of R28: promoted ones by their count, then by running lanes. -/
def Group.rankBefore (g : Group) (p q : BitVec 64 × Word) : Bool :=
  let n := fun (x : BitVec 64 × Word) => (lanesOf x.2).length
  let c := fun (x : BitVec 64 × Word) => ((lanesOf x.2).map fun L => (g.lane L).passed).foldl max 0
  let pr := fun x => decide (32 ≤ c x)
  if pr p && pr q then decide (c q < c p) || (c p = c q && decide (p.1.toNat < q.1.toNat))
  else if pr p then true
  else if pr q then false
  else decide (n q < n p) || (n p = n q && decide (p.1.toNat < q.1.toNat))

def insertPath (g : Group) (p : BitVec 64 × Word) : List (BitVec 64 × Word) → List (BitVec 64 × Word)
  | [] => [p]
  | q :: qs => if g.rankBefore p q then p :: q :: qs else q :: insertPath g p qs

def Group.ranked (g : Group) (ps : List (BitVec 64 × Word)) : List (BitVec 64 × Word) :=
  ps.foldl (fun l p => insertPath g p l) []

/-- IMPRECISE_TRAP_TAKEN (R330): the lowest pending code of a running group is raised at a boundary; a
group that halts or is halted keeps its bit. -/
def doImpreciseTrapTaken (gid code : Nat) (s : State) : State :=
  match s.group? gid with
  | none => s
  | some g =>
    let may : Bool := match g.halt with
      | .running | .window _ => true
      | _ => false
    if !may || g.ended || !natBit g.imprecise.toNat code || natBits g.imprecise.toNat (code - 1) 0 ≠ 0 && code ≠ 0 then s
    else
      let info := sget 0 g.impInfo code
      let pc := ((g.ranked g.paths).head?.map (·.1)).getD 0
      let lane := ((g.ranked g.paths).head?.map fun p => lowest p.2).getD 0
      takeTrap (s.onGroup gid fun g =>
        { g with imprecise := g.imprecise &&& ~~~(1#32 <<< code), impInfo := sset 0 g.impInfo code 0 })
        gid ⟨code, lane, info % 2 ^ 54, info⟩ pc

def execImpreciseTrapTaken (gid code : Nat) (s : State) : Out := .next (doImpreciseTrapTaken gid code s)

/-! EXIT and ERET. -/

/-- ERET (R333): the handler ends, and its records that are not acknowledged take their default. -/
def State.endHandler (s : State) (g : Group) : State :=
  let s := s.endGroup g.gid
  (s.sup.recs.filter fun r => r.handler = some g.grid && !r.hold).foldl (fun s r =>
    match s.rec? r.addr with
    | some r => s.dispose r (s.defaultDisp r)
    | none => s) s

/-- EXIT (R174); in a handler group it acts as ERET (R333). -/
def exitEffect (s : State) (g : Group) (act : Word) : State :=
  if g.sup then s.endHandler g
  else
    let s := s.onGroup s.cur.gid fun g =>
      mapLanes (g.advance s.cur act) fun L ln => if bitOf act L then { ln with exited := true } else ln
    match s.group? s.cur.gid with
    | some g => if g.running = 0 then (s.endGroup g.gid).checkDeadlock g.team g.side else s
    | none => s

def execExit (o : RForm) (s : State) : Out := execWord (.exit o) false o.g exitEffect s

/-- A uniform operand that a word reads is poisoned (R91). -/
def operandPoison (i : Instr) (g : Group) (act : Word) : Option TrapReq :=
  if i.reads.any (regPoison g) then some ⟨0x07, lowest act, 0, 0⟩ else none

/-- The privileged words: the mode check (R324), the guard, the checks that an issue with no active lane makes too
(R332, R354), then the word. -/
def execSystem (i : Instr) (gd : Guard) (early : Group → Word → Option TrapReq)
    (f : State → Group → Word → State) (s : State) : Out :=
  execChecked i gd (fun g act => (if g.sup then none else some ⟨0x02, lowest act, 0, 0⟩) <|> guardPoison g act gd <|> early g act)
    f s

/-- The words whose operands are looked at by active lanes alone. -/
def execOperands (i : Instr) (gd : Guard) (f : State → Group → Word → State) (s : State) : Out :=
  execSystem i gd (fun _ _ => none) (fun s g act =>
    match operandPoison i g act with
    | some t => raise s t
    | none => f s g act) s

/-- The words whose operands are looked at even with no active lane (R332, R342). -/
def execPoisonFirst (i : Instr) (gd : Guard) (f : State → Group → Word → State) (s : State) : Out :=
  execSystem i gd (operandPoison i) f s

def execEret (o : RForm) (s : State) : Out := execOperands (.eret o) o.g (fun s g _ => s.endHandler g) s

/-- The group of a held record makes a debug step (R342): its frame is to be rewritten first. -/
def State.recStepping (s : State) (r : TrapRec) : Bool := (r.gid.bind s.group?).any fun g => g.stepFrame.isSome

/-- FAULTACK with a disposition (R332), a release at `.d`. -/
def faultackEffect (d : Nat) (o : RForm) (s : State) (g : Group) (act : Word) : State :=
  match s.rec? (uniPair g o.a) with
  | none => raise s (paramTrap act 1)
  | some r =>
    if 4 < (rdS g o.b.toNat).val.toNat || (r.gid.isNone && d ≠ 0 && d ≠ 3) then raise s (paramTrap act 2)
    else if !s.allPerformed g act .d || s.recStepping r then s
    else ((s.clearMarks g.gid .d).go 0).dispose { r with hold := false } d

def execFaultackRetry (o : RForm) (s : State) : Out := execPoisonFirst (.faultackRetry o) o.g (faultackEffect 0 o) s
def execFaultackSkip (o : RForm) (s : State) : Out := execPoisonFirst (.faultackSkip o) o.g (faultackEffect 1 o) s
def execFaultackRegion (o : RForm) (s : State) : Out := execPoisonFirst (.faultackRegion o) o.g (faultackEffect 2 o) s
def execFaultackKill (o : RForm) (s : State) : Out := execPoisonFirst (.faultackKill o) o.g (faultackEffect 3 o) s
def execFaultackHold (o : RForm) (s : State) : Out := execPoisonFirst (.faultackHold o) o.g (faultackEffect 4 o) s

/-! Debug step (R342). -/

/-- The path that a step issues: its program counter and lanes. -/
def Group.stepPath (g : Group) : Option (BitVec 64 × Word) :=
  let live := maskOf fun L => !(g.lane L).exited && !bitOf g.dbgHalt L
  let at_ := fun (pc : BitVec 64) => maskOf fun L => bitOf live L && (g.lane L).pc = pc
  if live = 0 then none
  else if at_ g.dbgPath ≠ 0 then some (g.dbgPath, at_ g.dbgPath)
  else let pc := (g.lane (lowest live)).pc; some (pc, at_ pc)

/-- The group of a frame that is held under HOLD, the one that makes a step from it among them (R342). -/
def State.heldFrame (s : State) (a : Nat) : Option Group :=
  s.groups.find? fun x => (x.frame = some a || x.stepFrame = some a) && x.hold && !x.ended

/-- A held group has a step out, or returns that are still to come to its frame (R336, R342). -/
def Group.stepOut (x : Group) : Bool := x.stepFrame.isSome || !x.returns.isEmpty

/-- DBGSTEP (R342): the held group stands up for one word of its path, and is halted again. -/
def dbgstepEffect (o : RForm) (s : State) (g : Group) (act : Word) : State :=
  let a := uniPair g o.a
  match s.heldFrame a with
  | none => raise s (paramTrap act 1)
  | some x =>
    let y := s.loadGroup x a
    let put := fun (info : Nat) => (s.devPut (a + 0x18) 8 (faultWord 0x1A 0 info).toNat).go 0
    if x.stepFrame.isSome then s
    else if !(s.team? x.team).any fun t => t.state = .running then put 2
    else match y.stepPath with
      | none => put 1
      | some _ =>
        if !x.returns.isEmpty then s
        else
          let s := s.onGroup x.gid fun _ => { y.resumeRun with halt := .halting .step, stepFrame := some a, hold := true }
          s.onGroup s.cur.gid fun g => g.setWait s.cur.lanes (.step a)

def execDbgstep (o : RForm) (s : State) : Out := execPoisonFirst (.dbgstep o) o.g (dbgstepEffect o) s

/-! The supervisor forms of R334. -/

/-- A team is to be framed (R44): its running groups halt, those with tiles within their window. -/
def State.preemptTeam (s : State) (t : Team) (waiter : Option (Nat × Nat)) : State :=
  let s := s.onTeam t.id fun t => { t with state := .framing, waitFor := waiter }
  { s with groups := s.groups.map fun g =>
      if g.team = t.id && !g.ended then
        match g.halt with
        | .running =>
          if g.j + g.m = 0 then { g with halt := .halting .preempt } else { g with halt := .window (s.ltick + 4000) }
        | _ => g
      else g }

/-- Pre-emption of a core (R44, R334, R384). -/
def State.preemptCore (s : State) (core : Nat) (waiter : Option (Nat × Nat)) : State :=
  ((s.teams.filter fun t => t.core = core && (t.state = .clearing || t.state = .running)).foldl
    (fun s t => s.preemptTeam t waiter) s).preemptDone core

def preemptEffect (o : RForm) (s : State) (g : Group) (act : Word) : State :=
  let core := uniN g o.a
  if 255 < core then raise s (paramTrap act 1)
  else
    let s := s.go 0
    ({ s with disp := { s.disp with supPreempts := s.disp.supPreempts ++ [core] } }).preemptCore core none

def execPreempt (o : RForm) (s : State) : Out := execOperands (.preempt o) o.g (preemptEffect o) s

/-- KILL (R334, R378): every root task of a context. -/
def killEffect (o : RForm) (s : State) (g : Group) (_ : Word) : State :=
  let ctx := uniN g o.a
  (s.disp.grids.filter fun d => d.ctx = ctx && d.parent.isNone && d.sup.isNone).foldl
    (fun s d => s.killRoot d.id 0xFF) (s.go 0)

def execKill (o : RForm) (s : State) : Out := execOperands (.kill o) o.g (killEffect o) s

/-- RESUME (R334): the framed team may be placed, whatever its pre-emption waits for. -/
def resumeEffect (o : RForm) (s : State) (g : Group) (_ : Word) : State :=
  let a := uniPair g o.a
  let s := s.go 0
  { s with teams := s.teams.map fun t => if t.frame = some a then { t with waitFor := none } else t }

def execResume (o : RForm) (s : State) : Out := execOperands (.resume o) o.g (resumeEffect o) s

/-- The checks of TLBINV (R354). -/
def tlbinvTrap (o : RForm) (g : Group) (act : Word) : Option TrapReq :=
  let p := (rdS g o.c.toNat).val.toNat
  match operandPoison (.tlbinv o) g act with
  | some t => some t
  | none => if 0xFFFFF < p && p ≠ 0xFFFFFFFF then some (paramTrap act 3) else none

/-- TLBINV (R354): a release at `.h`, then the translations of the range are dropped, and the path goes on once the
accesses that used them are accepted. -/
def tlbinvEffect (o : RForm) (s : State) (g : Group) (act : Word) : State :=
  let p := (rdS g o.c.toNat).val.toNat
  let all := p = 0xFFFFFFFF
  let busy := s.xl.walks.any fun w => all || w.pasid = p
  if busy || !s.allPerformed g act .h then s
  else
    let named := if all then none else some p
    let s := (s.clearMarks g.gid .h).dropTranslations named (uniPair g o.a) (uniN g o.b)
    if s.dropsOver s.nextId named then (s.freshFetch g.core g.pasid).go 0
    else s.onGroup s.cur.gid fun x => x.await s.cur s.cur.lanes fun _ => .drop s.nextId named

/-- The lanes of a group that wait in TLBINV go on (R354). -/
def State.wakeDrop (s : State) (g : Group) : State :=
  let m := maskOf fun L => match (g.lane L).wait with
    | .drop n p => !(g.lane L).exited && s.dropsOver n p
    | _ => false
  if m = 0 then s else (s.freshFetch g.core g.pasid).onGroup g.gid fun x => x.leave m

def execTlbinv (o : RForm) (s : State) : Out := execSystem (.tlbinv o) o.g (tlbinvTrap o) (tlbinvEffect o) s

end Sys2Proof.Machine
end

