-- ==== Sys2Proof/Machine/Walks.lean ====
section
/-! DEFINITION. Walks that finish (R350, R353), page requests (R358 to R361), and the units that watch their
structures in memory (R325, R346, R399, R417, R419, R427). -/

namespace Sys2Proof.Machine

/-! Walks. -/

/-- The walk is made for context 0 (R365). -/
def State.walkCtx0 (s : State) (w : Walk) : Bool :=
  match w.who with
  | .group g _ _ | .fetch g _ | .prefetch g _ | .look g _ => (s.group? g).any fun g => g.ctx = 0
  | .op o => (s.op? o).any fun o => o.ctx = 0
  | .device _ => w.pasid = (s.ctx 0).pasid
  | .done d => (s.grid? d).any fun d => d.ctx = 0

def State.dropWalkOf (s : State) (id : Nat) : State :=
  { s with xl := { s.xl with walks := s.xl.walks.filter fun w => w.id ≠ id } }

/-- The lanes of a group that wait for a translation at a word go on with it, its issue having been counted (R49); those of a
group that halts stand before it. -/
def State.wakeWalk (s : State) (gid : Nat) (pc : BitVec 64) : State :=
  match s.group? gid with
  | none => s
  | some g =>
    let m := maskOf fun L => (g.lane L).wait = .walk && (g.lane L).pc = pc
    if g.issues then
      s.push (((lanesOf m).map fun L => (g.lane L).k).eraseDups.map fun k =>
        .issue gid pc (maskOf fun L => bitOf m L && (g.lane L).k = k))
    else (s.undeny (.look gid pc)).onGroup gid fun g => g.setWait m .none

/-- The group of a walk can still halt for it: it runs, or makes a debug step (R342), and stands at the word or line of the
walk. -/
def State.walkGroup (s : State) (w : Walk) : Option Group :=
  let running := fun (g : Group) => !g.ended && (match g.halt with
    | .running | .window _ => true
    | .halting .step => g.stepFrame.isSome && g.trap.isNone
    | _ => false)
  match w.who with
  | .group gid pc _ => (s.group? gid).bind fun g =>
    if running g && (lanesOf (g.path pc)).any (fun L => (g.lane L).wait = .walk) then some g else none
  | .fetch gid _ => (s.group? gid).bind fun g => if running g && (s.fetchPc g (w.va / 128)).isSome then some g else none
  | _ => none

/-- The translation trap of a walk's group (R155, R358): `0x0B` for data, `0x0C` for a fetch. -/
def State.walkTrap (s : State) (w : Walk) : State :=
  match w.who with
  | .group gid pc L => takeTrap s gid (addrTrap 0x0B L w.va) (((s.group? gid).map fun g => (g.lane L).wordPc pc).getD pc)
  | .fetch gid _ => match s.group? gid with
    | some g => s.fetchTrap g (w.va / 128)
    | none => s
  | _ => s

/-- FAULTINFO of a trap of a framed group stands in its frame (R335). -/
def State.frameFault (s : State) (gid : Nat) : State :=
  match s.group? gid with
  | some g => match g.frame with
    | some a => s.devPut (a + 0x18) 8 g.faultInfo.toNat
    | none => s
  | none => s

/-- A walk without a page request has found no translation for the one that asked (R267, R274, R279). -/
def State.deny (s : State) (w : Walk) : State :=
  { s with xl := { s.xl with denied := s.xl.denied ++ [⟨w.who, w.pasid, w.va, w.kind, w.reason⟩] } }

/-- The pager has failed a walk: the trap of R358, or the operation's status (R361). -/
def State.walkFailed (s : State) (w : Walk) : State :=
  match w.who with
  | .group gid .. | .fetch gid _ => (s.walkTrap w).frameFault gid
  | .op id => s.onOp id fun o => { o with fault := some (w.va, w.reason) }
  | .prefetch .. => s
  | .look gid pc => (s.deny w).wakeWalk gid pc
  | .device _ | .done _ => s.deny w

/-- A page request is admitted: the reason, the PASID entry's PRI, and no earlier failure (R358, R359). -/
def State.mayRequest (s : State) (w : Walk) (reason : Nat) : Bool :=
  (reason = 3 || reason = 4 || reason = 5)
  && (s.pasidEntry w.pasid).any (fun e => e.pri) && !s.xl.barred.contains w.pasid

/-- Send the page request messages that have one of the 256 places, in fault order (R359). -/
def State.sendRequests (s : State) : State :=
  s.xl.pageReqs.foldl (fun s q =>
    let out := (s.xl.pageReqs.filter fun x => x.sent.isSome).length
    if q.sent.isSome || 256 ≤ out then s
    else
      let reqs := s.xl.pageReqs.map fun x => if x.id = q.id then { x with sent := some s.ltick } else x
      ({ s with xl := { s.xl with pageReqs := reqs } }).send (.pageRequest q.id q.pasid q.page q.kind)) s

/-- Ask the pager for a walk's page; requests for one page and kind are merged (R359). -/
def State.pageRequest (s : State) (w : Walk) : State :=
  let page := w.va / 4096 * 4096
  let same := fun (q : PageReq) => q.pasid = w.pasid && q.page = page && q.kind = w.kind
  if s.xl.pageReqs.any (same ·) then
    let reqs := s.xl.pageReqs.map fun q => if same q then { q with walks := q.walks ++ [w] } else q
    { s with xl := { s.xl with pageReqs := reqs } }
  else
    let (n, s) := s.fresh
    let q : PageReq := ⟨n, w.pasid, page, w.kind, [w], none⟩
    ({ s with xl := { s.xl with pageReqs := s.xl.pageReqs ++ [q] } }).sendRequests

/-- A group halts on a page request, without a trap (R358). -/
def State.haltForPage (s : State) (gid : Nat) : State :=
  s.onGroup gid fun g => match g.halt with
    | .running | .window _ => { g with halt := .halting .page }
    | _ => g

/-- A first fault of a walk (R358, R361): a page request, or the trap or status at once; a debug step's own trap is the one
that its record gives (R342; log 24). -/
def State.walkFault (s : State) (w : Walk) : State :=
  match w.who with
  | .group gid .. | .fetch gid _ => match s.walkGroup w with
    | none => match w.who with
      | .group gid pc _ => s.wakeWalk gid pc
      | _ => s
    | some g =>
      if g.stepFrame.isNone && s.mayRequest w w.reason then (s.pageRequest w).haltForPage gid else s.walkTrap w
  | .op _ | .done _ => if s.mayRequest w w.reason then s.pageRequest w else s.walkFailed w
  | _ => s.walkFailed w

/-- A walk has filled the TLB: what waits for it goes on. A group that was answered resumes from its frame. -/
def State.walkFilled (s : State) (w : Walk) : State :=
  match w.who with
  | .group gid pc _ => if w.answered then s.release_ gid else s.wakeWalk gid pc
  | .fetch gid _ => if w.answered then s.release_ gid else s
  | .look gid pc => s.wakeWalk gid pc
  | .prefetch gid l1 => match s.group? gid with
    | some g => if g.ended then s else s.prefetchLine g w.va l1
    | none => s
  | _ => s

/-- An answered group stands in its frame before it resumes. -/
def State.walkReady (s : State) (w : Walk) : Bool :=
  match w.who with
  | .group gid .. | .fetch gid _ => !w.answered || (s.group? gid).all fun g => g.ended || g.frame.isSome
  | _ => true

/-- PAGE_WALK_COMPLETE (R350), with the words that its host reads return. -/
def doPageWalkComplete (id : Nat) (host : List (BitVec 64)) (s : State) : State :=
  match s.xl.walks.find? fun w => w.id = id with
  | none => s
  | some w =>
    if !s.walkReady w then s
    else match s.walk w (s.walkCtx0 w) host with
      | (.stuck, s) => s
      | (.fill e, s) => ((s.dropWalkOf id).tlbFill e).walkFilled w
      | (.fault r, s) =>
        let w := { w with reason := r }
        if w.answered then (s.dropWalkOf id).walkFailed w else (s.dropWalkOf id).walkFault w

def execPageWalkComplete (walk : Nat) (host : List (BitVec 64)) (s : State) : Out :=
  .next (doPageWalkComplete walk host s)

/-! The host's answers (R359). -/

def State.dropRequest (s : State) (id : Nat) : State :=
  { s with xl := { s.xl with pageReqs := s.xl.pageReqs.filter fun q => q.id ≠ id } }

/-- The walks of a request fail. -/
def State.failRequest (s : State) (q : PageReq) : State :=
  q.walks.foldl (fun s w => s.walkFailed w) (s.dropRequest q.id)

/-- Response Failure, or no response: no further request of the PASID is sent (R359). -/
def State.barRequest (s : State) (q : PageReq) : State :=
  let s := (s.failRequest q)
  let s := { s with xl := { s.xl with barred := s.xl.barred ++ [q.pasid] } }
  ((s.xl.pageReqs.filter fun x => x.pasid = q.pasid && x.sent.isNone).foldl (fun s x => s.failRequest x) s).sendRequests

/-- PAGE_RESPONSE (R359, R361). -/
def doPageResponse (id : Nat) (ans : PageAnswer) (s : State) : State :=
  match s.xl.pageReqs.find? fun q => q.id = id && q.sent.isSome with
  | none => s
  | some q => match ans with
    | .success =>
      let again := q.walks.map fun w => { w with answered := true }
      ({ s with xl := { s.xl with walks := s.xl.walks ++ again } }.dropRequest id).sendRequests
    | .invalid => (s.failRequest q).sendRequests
    | .failure => s.barRequest q

def execPageResponse (id : Nat) (ans : PageAnswer) (s : State) : Out := .next (doPageResponse id ans s)

/-- PAGE_REQUEST_TIMEOUT (R359): no response within 1 s. -/
def doPageRequestTimeout (id : Nat) (s : State) : State :=
  match s.xl.pageReqs.find? fun q => q.id = id with
  | some q => match q.sent with
    | some t => if s.ltick < t + 1000000000 then s else s.barRequest q
    | none => s
  | none => s

def execPageRequestTimeout (id : Nat) (s : State) : Out := .next (doPageRequestTimeout id s)

/-- A group stays halted on the pager: on a page request, or parked (R360). -/
def Group.onPager (g : Group) : Bool :=
  !g.ended && (g.parked || (match g.halt with
    | .halting .page | .halted .page | .framed .page => true
    | _ => false))

/-- A pre-emption of the Dispatcher's is in flight in the quarter of a core (R384). -/
def State.preempting (s : State) (core : Nat) : Bool := s.disp.preempts.any fun x => x.1 / 64 = core / 64

/-- PAGE_WAIT_REFRAME (R360, R384): after 20 µs the agent's group makes the Dispatcher frame its team, once no other
pre-emption of the Dispatcher's is in flight in the quarter. -/
def doPageWaitReframe (s : State) : State :=
  match s.group? s.cur.gid with
  | none => s
  | some g =>
    if !g.onPager || g.frame.isNone || decide (s.ltick < g.haltedAt + 20000) then s
    else match s.team? g.team with
      | some t =>
        if t.state = .running && !s.preempting t.core then
          ({ s with disp := { s.disp with preempts := s.disp.preempts ++ [(t.core, t.grid, t.teamId)] } }).preemptTeam t none
        else s
      | none => s

def execPageWaitReframe (s : State) : Out := .next (doPageWaitReframe s)

/-- The completions of the invalidations that are over are sent (R427). -/
def State.finishInvals (s : State) : State :=
  let done := fun (x : Inval) => s.dropsOver x.before (some x.pasid)
  (s.xl.invals.filter (done ·)).foldl (fun s x => s.send (.invalidateDone x.pasid))
    { s with xl := { s.xl with invals := s.xl.invals.filter (!done ·) } }

/-- ATS_INVALIDATE (R427): TLBINV's effect without the release, once the walks of the PASID have finished; each completion
follows the accesses that used what was dropped. Before READY, and in recovery, there is no such service (R431, R435). -/
def doAtsInvalidate (pasid base len : Nat) (s : State) : State :=
  if !s.yuren.ready || s.yuren.recovery || (s.xl.walks.any fun w => w.pasid = pasid) then s
  else
    let s := s.dropTranslations (some pasid) base len
    let x : Inval := ⟨pasid, base, len, s.nextId⟩
    State.finishInvals { s with xl := { s.xl with invals := s.xl.invals ++ [x] } }

def execAtsInvalidate (pasid base len : Nat) (s : State) : Out := .next (doAtsInvalidate pasid base len s)

/-! Structures that units watch. -/

/-- A watched write that waits for its unit. -/
def State.watches (s : State) (p : Watch → Bool) : Option Watch := s.mem.watch.find? p

def State.unwatch (s : State) (w : Watch) : State := { s with mem := { s.mem with watch := s.mem.watch.erase w } }

def fieldOf (b : List Byte) (o n : Nat) : Nat := leNat ((b.drop o).take n)

/-- A profile of the translation block (R349). -/
def Profile.ofBytes (b : List Byte) : Profile :=
  { granule := fieldOf b 0 1, levels := fieldOf b 1 1, present := fieldOf b 2 1, write := fieldOf b 3 1
    noexec := fieldOf b 4 1, leaf := fieldOf b 5 1, acc := fieldOf b 6 1, dirty := fieldOf b 7 1, attr := fieldOf b 8 1
    frameHi := fieldOf b 9 1, flags := fieldOf b 10 1, zero := fieldOf b 11 21 = 0 }

/-- The translation block (R346). -/
def TBlock.ofBytes (b : List Byte) : TBlock :=
  { pasidTab := fieldOf b 0 8, pasidCount := fieldOf b 8 4, hdmBase := fieldOf b 0x10 8, peerBase := fieldOf b 0x18 8
    wins := (List.range 3).map fun c => ⟨fieldOf b (0x20 + 16 * c) 8, fieldOf b (0x28 + 16 * c) 4⟩
    slotList := fieldOf b 0x50 8
    profiles := (List.range 4).map fun i => Profile.ofBytes ((b.drop (0x58 + 32 * i)).take 32) }

/-- A slot entry (R347). -/
def SlotEntry.ofNat (x : Nat) : SlotEntry := ⟨natBit x 15, natBit x 14, natBits x 11 8, natBits x 7 0⟩

/-- Reload the slot entries from index `lo`, `n` of them; one whose line carries the tag stays. -/
def State.loadSlots (s : State) (lo n : Nat) : State :=
  let b := (s.devRead (slotList s + 2 * lo) (2 * n)).1
  let tagged := ((lineChunks (slotList s + 2 * lo) (2 * n)).filter fun x => (s.devRead x.1 x.2).2).map fun x => x.1 / 128
  (List.range n).foldl (fun s i =>
    if tagged.contains ((slotList s + 2 * (lo + i)) / 128) then s
    else { s with xl := { s.xl with slots := sset emptySlot s.xl.slots (lo + i) (SlotEntry.ofNat (fieldOf b (2 * i) 2)) } }) s

/-- The reliability block (R393). -/
def State.loadRel (s : State) : State :=
  let (b, t) := s.devRead (slotList s + 0x7000) 64
  if t then s
  else { s with rel := { s.rel with
    block := ⟨fieldOf b 0 4, fieldOf b 4 4, fieldOf b 8 4, fieldOf b 0x10 8, fieldOf b 0x18 4⟩ } }

/-- A profile's bytes. -/
def Profile.image (p : Profile) : List Byte :=
  [p.granule, p.levels, p.present, p.write, p.noexec, p.leaf, p.acc, p.dirty, p.attr, p.frameHi, p.flags,
    if p.zero then 0 else 1].map (BitVec.ofNat 8) ++ List.replicate 20 0

/-- The bytes that the copy of the translation block stands for. -/
def TBlock.image (t : TBlock) : List Byte :=
  leBytes 8 t.pasidTab ++ leBytes 4 t.pasidCount ++ leBytes 4 0 ++ leBytes 8 t.hdmBase ++ leBytes 8 t.peerBase
  ++ (List.range 3).flatMap (fun c =>
      let w := t.wins.getD c ⟨0, 0⟩
      leBytes 8 w.base ++ leBytes 4 w.slots ++ leBytes 4 0)
  ++ leBytes 8 t.slotList ++ (List.range 4).flatMap (fun i => (t.profiles.getD i emptyProfile).image) ++ List.replicate 40 0

/-- The bytes of the translation block, a line that carries the tag as the copy has it. -/
def State.blockBytes (s : State) : List Byte :=
  let ct := s.sup.ctxTab.toNat
  let (b, t) := s.devRead ct 256
  if !t then b
  else (List.range 2).flatMap fun i =>
    let (x, t) := s.devRead (ct + 128 * i) 128
    if t then (s.xl.tb.image.drop (128 * i)).take 128 else x

/-- Reload the translation block; a line of it that cannot be read leaves the copy. When it names other slot lists, these
and the reliability block are read whole. -/
def State.loadBlock (s : State) : State :=
  let old := slotList s
  let s := { s with xl := { s.xl with tb := TBlock.ofBytes s.blockBytes } }
  if slotList s = old then s else (s.loadSlots 0 12288).loadRel

/-- The slot entries that a line of memory holds. -/
def slotsOfLine (sl line : Nat) : List Nat :=
  let lo := (128 * line - sl) / 2
  (List.range 65).filterMap fun i =>
    let a := sl + 2 * (lo + i)
    if lo + i < 12288 && decide (128 * line < a + 2) && decide (a < 128 * line + 128) then some (lo + i) else none

/-- TRANSLATION_BLOCK_RELOAD (R346, R365, R393): the units that watch a line reload it. -/
def doTranslationBlockReload (line : Nat) (s : State) : State :=
  match s.watches fun w => w = .block line with
  | none => s
  | some w => match s.devFetch (128 * line) 128 with
    | .error s => s
    | .ok (_, s) =>
    let s := s.unwatch w
    let meets := fun (b n : Nat) => decide (128 * line < b + n) && decide (b < 128 * line + 128)
    let s := if meets s.sup.ctxTab.toNat 256 then s.loadBlock else s
    let s := (slotsOfLine (slotList s) line).foldl (fun s i => s.loadSlots i 1) s
    if meets (slotList s + 0x7000) 64 then s.loadRel else s

def execTranslationBlockReload (line : Nat) (s : State) : Out := .next (doTranslationBlockReload line s)

/-- The context a record describes, over what the device holds of it (R325). -/
def Ctx.ofBytes (x : Ctx) (b : List Byte) : Ctx :=
  let f := fieldOf b 4 4
  { x with
    pasid := fieldOf b 0 4, cntGrant := natBit f 0, brkHold := natBit f 1, valid := natBit f 31, lease := fieldOf b 8 4
    budgetField := fieldOf b 12 4, frameArea := fieldOf b 0x10 8, frameLen := fieldOf b 0x18 8, lateQ := fieldOf b 0x20 8 }

/-- CONTEXT_RECORD_WRITE (R325, R339, R399): the record as it now stands; EBUDGET is set when a write that sets VALID,
or one of BUDGET, has been applied, the page map is free when VALID is set, and frames that wait for room are tried again. -/
def doContextRecordWrite (ctx : Nat) (s : State) : State :=
  match s.watches fun w => match w with
    | .ctx n .. => n = ctx
    | _ => false with
  | some (.ctx n v bu) =>
    match s.devFetch (s.sup.ctxTab.toNat + 256 * (ctx + 1)) 256 with
    | .error s => s
    | .ok ((b, t), s) =>
    let s := s.unwatch (.ctx n v bu)
    if t then s
    else
      let s := s.onCtx ctx fun x =>
        let y := x.ofBytes b
        let y := if !x.valid && y.valid then { y with frames := [] } else y
        if (v && !x.valid && y.valid) || bu then { y with ebudget := y.budgetField } else y
      doFrameRetry ctx s
  | _ => s

def execContextRecordWrite (ctx : Nat) (s : State) : Out := .next (doContextRecordWrite ctx s)

/-- The fabric interface's copy of the fabric block (R417). -/
def Fab.ofBytes (f : Fab) (b : List Byte) : Fab :=
  { f with
    self := fieldOf b 0 4, valid := natBit (fieldOf b 0 4) 31, fabgen := fieldOf b 4 4, porten := fieldOf b 8 1
    reach := (List.range 1024).foldl (fun m n => sset false m n (natBit (fieldOf b (0x40 + n / 8) 1) (n % 8))) []
    route := (List.range 1024).foldl (fun m n => sset 0 m n (fieldOf b (0xC0 + n) 1)) [] }

/-- Requests of peers that wait for rows wait no more: those of another FABGEN are refused (R419). -/
def State.dropInbound (s : State) : State :=
  let mine := fun (w : HeldWork) => match w with
    | .walk id => decide (2 ^ 64 ≤ id) && decide (id < 2 ^ 120)
    | _ => false
  { s with mem := { s.mem with
    bankQ := s.mem.bankQ.filter (!mine ·.work), holdQ := s.mem.holdQ.filter (!mine ·.work)
    linkQ := s.mem.linkQ.filter (!mine ·.work) } }

/-- FABRIC_BLOCK_WRITE (R417, R419): a change of FABGEN resets the duplicate filters and sequence numbers. -/
def doFabricBlockWrite (s : State) : State :=
  match s.watches fun w => w = .fabric with
  | none => s
  | some w =>
    match s.devFetch (slotList s + 0x7800) 2048 with
    | .error s => s
    | .ok ((b, t), s) =>
    let s := s.unwatch w
    if t then s
    else
      let f := s.fab.ofBytes b
      if f.fabgen = s.fab.fabgen then { s with fab := f }
      else { s.dropInbound with fab := { f with filter := [], seqs := [] } }

def execFabricBlockWrite (s : State) : Out := .next (doFabricBlockWrite s)

end Sys2Proof.Machine
end

