-- ==== Sys2Proof/Machine/Dispatcher.lean ====
section
/-! DEFINITION. The Dispatcher: posts (R367 to R369, R385), GRID (R280, R281), the task graph (R370 to R373),
placement (R374 to R376, R443), eligibility (R377), pre-emption (R384), retirement and completion (R42, R282,
R378), and the replay that diverges (R389). -/

namespace Sys2Proof.Machine

/-! Task records (R280). -/

/-- A task record's fields. -/
structure TaskRec where
  kernel : Nat
  teams : Nat
  cls : Nat
  flags : Nat
  args : BitVec 64
  done : Nat
  regions : List Region
  bad : Bool
  deriving DecidableEq, Repr

/-- A task record, judged against R280; `flags` is the largest FLAGS byte that is admitted. -/
def TaskRec.ofBytes (b : List Byte) (flags : Nat) : TaskRec :=
  let f := fieldOf b
  let kreg := natBit (f 0x0D 1) 0
  { kernel := f 0 8, teams := f 8 4, cls := f 0x0C 1, flags := f 0x0D 1, args := BitVec.ofNat 64 (f 0x10 8)
    done := f 0x18 8, regions := regionsAt b 0x20
    bad := f 8 4 = 0 || decide (2 ^ 20 < f 8 4) || decide (3 < f 0x0C 1) || decide (flags < f 0x0D 1)
      || f 0x18 8 % 4 ≠ 0 || (!kreg && regionsBad b 0x20) }

/-- The regions of a task (R280). -/
def TaskRec.declared (t : TaskRec) (k : Kernel) : List Region := if natBit t.flags 0 then k.regions else t.regions

/-! The task graph. -/

/-- Two regions make a dependence (R372); one of LENGTH 0 holds no address. -/
def regionsMeet (r q : Region) : Bool :=
  r.valid && q.valid && (r.write || q.write) && r.len ≠ 0 && q.len ≠ 0
  && decide (r.base < q.base + q.len) && decide (q.base < r.base + r.len)

/-- The unretired tasks of a new task's graph (R371). -/
def State.graph (s : State) (ctx : Nat) (parent : Option Nat) : List Grid :=
  s.disp.grids.filter fun d => !d.retired && d.sup.isNone && d.parent = parent && (parent.isSome || d.ctx = ctx)

/-- What a new grid is accepted with. -/
structure Accept where
  ctx : Nat
  parent : Option Nat
  parentTeam : Option Nat
  root : Option Nat
  depth : Nat
  cls : Nat
  mode : TaskMode
  deriving DecidableEq, Repr

/-- Accept a grid into the task table (R370, R372). -/
def State.accept (s : State) (a : Accept) (t : TaskRec) (k : Kernel) : Nat × State :=
  let id := s.disp.nextGrid
  let rs := t.declared k
  let preds := (s.graph a.ctx a.parent).filter fun u => u.regions.any fun q => rs.any fun r => regionsMeet r q
  let d : Grid :=
    { id := id, ctx := a.ctx, parent := a.parent, parentTeam := a.parentTeam, root := a.root.getD id, depth := a.depth
      cls := a.cls, mode := a.mode, kernel := k, teams := t.teams, args := t.args, done := t.done, regions := rs
      accept := s.disp.accepts, preds := preds.map (·.id), nextTeam := 0, peers := [], killed := none, retired := false
      readyAt := s.ltick, sup := none }
  let s := { s with disp := { s.disp with
    grids := s.disp.grids ++ [d], nextGrid := id + 1, accepts := s.disp.accepts + 1 } }
  (id, s.onSerial d.root fun x => { x with grids := x.grids ++ [id] })

/-! GRID (R280, R281). -/

/-- GRID (R280, R281): the task record is read at issue as a global load, and the status pair waits for it; not ready while
the task table is full. -/
def gridEffect (o : EForm) (s : State) (g : Group) (act : Word) : State :=
  let a := uniPair g o.e2
  let d := o.e1.toNat
  if s.tableFull then s
  else if (Instr.grid o).reads.any (regPoison g) then raise s ⟨0x07, lowest act, 0, 0⟩
  else if a % 128 ≠ 0 then raise s (addrTrap 0x09 0 a)
  else s.withAccess g act .read false (fun _ => a) fun as =>
    match as with
    | x :: _ => ((s.putReq g x (baseReq g s.cur x .record 128 d) [.s d, .s (d + 1)]).bumpSeq g.gid).go 0
    | [] => s

/-- GRID's answer: the status, and the new grid's number, or 0. -/
def gridDone (s : State) (g : Group) (r : Req) (status id : Nat) : State :=
  (s.readsDone g.pasid).deliver r true [⟨BitVec.ofNat 32 status, false⟩, ⟨BitVec.ofNat 32 id, false⟩]

/-- The Dispatcher can judge a GRID: its lane's release is performed, an earlier GRID of the group has been judged, and the
task table has room (R281, R370). -/
def State.gridReady (s : State) (r : Req) : Bool :=
  s.performed r.gid r.lane r.seq .d && !s.tableFull
  && !(s.earlier r).any fun q => q.gid = r.gid && q.kind = .record

/-- GRID with its record at hand (R281): the release, then the statuses in their order. -/
def State.gridLaunch (s : State) (r : Req) : State :=
  match s.group? r.gid with
  | none => s
  | some g => match s.grid? g.grid with
    | none => s
    | some p =>
      let go := fun (s : State) => s.clearMarks g.gid .d
      let t := TaskRec.ofBytes r.bytes 1
      let bad := t.bad || r.tags.any id || fieldOf r.bytes 0x0E 2 ≠ 0
      if !s.gridReady r then s
      else if 10 ≤ p.depth then gridDone (go s) g r 0x20 0
      else if bad then gridDone (go s) g r 0x22 0
      else match s.readKernel g.core g.pasid t.kernel (g.ctx = 0) with
        | .wait s => s
        | .bad s => gridDone (go s) g r 0x22 0
        | .ok k =>
          if !k.fitsEmpty then gridDone (go s) g r 0x21 0
          else
            let a : Accept :=
              { ctx := g.ctx, parent := some p.id, parentTeam := some g.team, root := some p.root, depth := p.depth + 1
                cls := max t.cls p.cls, mode := p.mode }
            let (id, s) := (go s).accept a t k
            gridDone s g r 0 id

/-- LOAD_RETURN of a task record that has come is its GRID's turn at the Dispatcher (R281; log 58). -/
def State.returnRecord (s : State) (id : Nat) : State :=
  match s.req? id with
  | some r => if r.kind = .record && r.gid ≠ 0 && r.accepted then s.gridLaunch r else s
  | none => s

def execLoadReturn (id : Nat) (ext : Option ExtVal) (s : State) : Out := .next ((doLoadReturn id ext s).returnRecord id)

/-- An active lane other than the team leader's (R34). -/
def launchTrap (g : Group) (act : Word) : Option TrapReq :=
  if act = 0 || (act = 1#32 && g.groupId = 0) then none else some ⟨0x05, lowest act, 0, 0⟩

def execGrid (o : EForm) (s : State) : Out := execChecked (.grid o) o.g launchTrap (gridEffect o) s

/-! Posts (R367 to R369). -/

/-- The class of the memory at a local-space address. -/
def State.classAt (s : State) (pa : Nat) : Option ExtClass :=
  match s.decodeLocal pa true with
  | .ok st e _ => some (s.extent st e).cls
  | _ => none

/-- A context record as it stands breaks R325, or is not valid, or its PASID's entry is not (R368). -/
def State.contextBad (s : State) (ctx : Nat) : Bool :=
  let (b, t) := s.devRead (s.sup.ctxTab.toNat + 256 * (ctx + 1)) 256
  let f := fieldOf b
  let lease := f 8 4
  let area := s.classAt (f 0x10 8)
  t || decide (65534 < ctx) || !natBit (f 4 4) 31 || natBits (f 4 4) 30 2 ≠ 0 || decide (2 ^ 20 ≤ f 0 4)
  || (lease ≠ 0 && (decide (lease < 16) || decide (1024 < lease)))
  || f 0x10 8 % 4096 ≠ 0 || f 0x18 8 % 4096 ≠ 0 || !(area = some .D || area = some .P)
  || fieldOf b 0x28 216 ≠ 0 || (s.pasidEntry (f 0 4)).isNone

/-- The post page of a context (R367). -/
def State.postPage (s : State) (ctx : Nat) : Nat := (s.ctx ctx).frameArea

/-- Write POSTSTAT once (R368). -/
def State.postStat (s : State) (ctx st : Nat) : State := s.devPut (s.postPage ctx + 0x0E) 1 st

/-- Write bytes of an address space, chunk by chunk; a byte without a translation, or of a peer, is dropped (log 32). -/
def State.virtWrite (s : State) (core pasid : Nat) (ctx0 : Bool) : List (Nat × List Byte) → Except State State
  | [] => .ok s
  | (a, b) :: rest => match s.devPlace (deviceWalker pasid) core pasid a .write ctx0 with
    | .wait s => .error s
    | .fail _ => (s.undeny (deviceWalker pasid)).virtWrite core pasid ctx0 rest
    | .at p _ _ => match p with
      | .raw st e d =>
        let l : LineId := ⟨st, e, d / 128⟩
        if (s.busyRow (s.lineRows l)).isSome then .error (s.awaitRows l)
        else (s.stackWrite l (d % 128) b fun _ => false).virtWrite core pasid ctx0 rest
      | .line l ofs => (s.devArrive l ofs b).virtWrite core pasid ctx0 rest
      | .host a => (s.send (.write a b)).virtWrite core pasid ctx0 rest
      | .peer .. => s.virtWrite core pasid ctx0 rest

/-- Bytes in chunks of one line. -/
def lineParts (va : Nat) (b : List Byte) : List (Nat × List Byte) :=
  (lineChunks va b.length).map fun (a, n) => (a, (b.drop (a - va)).take n)

/-- The mode that a post selects (R385). -/
def postMode (flags : Nat) : TaskMode := if natBit flags 1 then .record else if natBit flags 2 then .replay else .plain

/-- The task record of a post, or none where it cannot be read: the post box's, or in replay mode the log's (R388). -/
def State.postRecord (s : State) (ctx : Nat) : Option (List Byte) × Option LogEntry :=
  let (b, t) := s.devRead (s.postPage ctx) 128
  if t then (none, none)
  else if postMode (fieldOf b 0x0D 1) = .replay then
    match s.logNext ⟨0, ctx, .replay, 0, 0, 0, false, []⟩ with
    | some e => if e.type = logLaunch then (some (e.payload.take 128), some e) else (none, none)
    | none => (none, none)
  else (some b, none)

/-- The argument block that a recorded task logs (R387); unreadable bytes read 0. -/
def State.argBytes (s : State) (ctx : Nat) (args : BitVec 64) : Except State (List Byte) :=
  let n := min 65536 (s.devNat (s.postPage ctx + 0x98) 4)
  match s.virtRead 0 (s.ctx ctx).pasid args.toNat n (ctx = 0) with
  | .wait s => .error s
  | .bad _ => .ok (List.replicate n 0)
  | .done b => .ok b

/-- A root task is accepted: its log begins in record mode, and is taken up in replay mode (R385 to R388). -/
def State.acceptRoot (s : State) (ctx : Nat) (mode : TaskMode) (b : List Byte) (e : Option LogEntry) (t : TaskRec)
    (k : Kernel) : State :=
  let a : Accept :=
    { ctx := ctx, parent := none, parentTeam := none, root := none, depth := 1, cls := t.cls, mode := mode }
  let start := fun (s : State) (head : Nat) =>
    let (id, s) := s.accept a t k
    let x : Serial := ⟨id, ctx, mode, 0, 0, head, false, [id]⟩
    (x, { s with disp := { s.disp with serials := s.disp.serials ++ [x] } })
  match mode with
  | .plain => ((s.accept a t k).2).postStat ctx 0
  | .record => match s.argBytes ctx t.args with
    | .error s => s
    | .ok args =>
      let (x, s) := start s 0
      let s := (s.devPut (s.logHeader x + 0x10) 8 0).devPut (s.logHeader x + 0x1C) 4 0
      (s.logAppend x logLaunch 0 (b ++ args)).postStat ctx 0
  | .replay =>
    match s.virtWrite 0 (s.ctx ctx).pasid (ctx = 0) (lineParts t.args.toNat (((e.map (·.payload)).getD []).drop 128)) with
    | .error s => s
    | .ok s => ((start s ((e.map (·.next)).getD 0)).2).postStat ctx 0

/-- POST_BOX_TAKE with a record at hand (R368, R369): the statuses, or acceptance. -/
def State.takePost (s : State) (ctx : Nat) : State :=
  let flags := s.devNat (s.postPage ctx + 0x0D) 1
  let mode := postMode flags
  let again := mode ≠ .plain && s.disp.serials.any fun x => x.ctx = ctx
  if s.contextBad ctx then s.postStat ctx 0x23
  else match s.postRecord ctx with
  | (none, _) => s.postStat ctx 0x22
  | (some b, e) =>
    let t := TaskRec.ofBytes b 7
    if t.bad || 6 ≤ flags || again || (mode ≠ .replay && fieldOf b 0x0F 1 ≠ 0) then s.postStat ctx 0x22
    else match s.readKernel 0 (s.ctx ctx).pasid t.kernel (ctx = 0) with
      | .wait s => s
      | .bad s => (s.readsDone (s.ctx ctx).pasid).postStat ctx 0x22
      | .ok k =>
        let s := s.readsDone (s.ctx ctx).pasid
        if k.fitsEmpty then s.acceptRoot ctx mode b e t k else s.postStat ctx 0x21

/-- The post box and the context's record are read on demand, or waited for (R93, R392). -/
def State.readPost (s : State) (ctx : Nat) : Except State State :=
  match s.devFetch (s.postPage ctx) 128 with
  | .error s => .error s
  | .ok (_, s) => (s.devFetch (s.sup.ctxTab.toNat + 256 * (ctx + 1)) 256).map (·.2)

/-- POST_BOX_TAKE (R368). A full task table leaves the post unread. -/
def doPostBoxTake (ctx : Nat) (s : State) : State :=
  match s.watches fun w => w = .post ctx with
  | none => s
  | some w =>
    let stat := s.devNat (s.postPage ctx + 0x0E) 1
    if stat ≠ 0xFF then s.unwatch w
    else if s.tableFull then s
    else match s.readPost ctx with
      | .error s => s
      | .ok s => s.takePost ctx

def execPostBoxTake (ctx : Nat) (s : State) : Out := .next (doPostBoxTake ctx s)

/-! Eligibility and the configuration block (R377, R379). -/

/-- A field of the Dispatcher configuration block. -/
def State.config (s : State) (o n : Nat) : Nat := s.devNat (s.postPage 0 + 0x800 + o) n

def State.reserved (s : State) (core : Nat) : Bool := natBit (s.config (core / 8) 1) (core % 8)

def State.droopLimit (s : State) : Nat :=
  let x := s.config 0x24 4
  if 10 ≤ x ∧ x ≤ 200 then x else 50

/-- EXPSHARE (R379): the grants among which one is the express class's, or 0. -/
def State.expShare (s : State) : Nat :=
  let x := s.config 0x20 1
  if 2 ≤ x ∧ x ≤ 8 then x else 0

/-- The next grant at a place is due to an express request, if one waits there (R381). -/
def State.expressDue (s : State) (k : Nat) : Bool :=
  s.expShare ≠ 0 && decide (s.expShare ≤ sget 0 s.mem.grants k + 1)

/-- A grant at a place. -/
def State.granted (s : State) (k : Nat) (express : Bool) : State :=
  if s.expShare = 0 then s
  else { s with mem := { s.mem with grants := sset 0 s.mem.grants k (if express then 0 else min 7 (sget 0 s.mem.grants k + 1)) } }

def State.elig (s : State) (core : Nat) : Elig := sget Elig.reset s.cores.elig core

/-- A sample of a core (R377). -/
def Elig.sample (e : Elig) (now temp droop limit : Nat) : Elig :=
  let good := decide (temp ≤ 90) && decide (droop < limit)
  let badAt := if good then e.badAt else now
  { eligible := if 95 < temp || limit < droop then false else e.eligible || (good && decide (badAt + 1000000 ≤ now))
    badAt := badAt, tempC := temp, droop := droop }

/-- CORE_ELIGIBILITY_SAMPLE (R377). -/
def doCoreEligibilitySample (core temp droop : Nat) (s : State) : State :=
  if 256 ≤ core then s
  else { s with cores := { s.cores with
    elig := sset Elig.reset s.cores.elig core ((s.elig core).sample s.ltick temp droop s.droopLimit) } }

def execCoreEligibilitySample (core tempC droop : Nat) (s : State) : Out :=
  .next (doCoreEligibilitySample core tempC droop s)

/-! What a core has free (R18, R19, R36, R375). -/

/-- The teams that occupy a core. -/
def State.onCore (s : State) (core : Nat) : List Team := s.teams.filter fun t => t.core = core && t.resident

/-- The slots that a group holds: two in class KP (R405). -/
def Group.slots (g : Group) : List Nat := if g.kclass = 2 then [g.slot, g.slot + 1] else [g.slot]

/-- The free slots of a side. -/
def State.freeSlots (s : State) (core side : Nat) : List Nat :=
  let ts := (s.onCore core).map (·.id)
  let used := (s.groups.filter fun g => ts.contains g.team && g.side = side).flatMap Group.slots
  (List.range 8).filter fun n => !used.contains n

/-- Units of a pool that the resident teams of a core reserve on a side. -/
def State.unitsUsed (s : State) (core side : Nat) (f : Kernel → Nat) : Nat :=
  ((s.onCore core).map fun t => ((s.grid? t.grid).map fun d => f d.kernel * sideGroups d.kernel.groups side).getD 0).foldl
    (· + ·) 0

/-- The lowest slots for `n` groups, two consecutive ones each in class KP. -/
def takeSlots (kp : Bool) : Nat → List Nat → Option (List Nat)
  | 0, _ => some []
  | n + 1, free => match (if kp then free.find? fun x => free.contains (x + 1) else free.head?) with
    | none => none
    | some x => (takeSlots kp n (free.filter fun y => y ≠ x && !(kp && y = x + 1))).map (x :: ·)

/-- A scratchpad place for a team: the lowest multiple of 768 with room (R19, R375). -/
def State.spPlace (s : State) (core size : Nat) : Option Nat :=
  let used := (s.onCore core).map fun t => (t.spBase, t.spSize)
  (List.range 512).findSome? fun i =>
    let b := 768 * i
    if b + size ≤ 393216 && used.all (fun u => decide (b + size ≤ u.1) || decide (u.1 + u.2 ≤ b)) then some b else none

/-- Where a team would stand on a core: the slots of each side and its scratchpad, if it fits (R375). -/
def State.fits (s : State) (k : Kernel) (core : Nat) : Option (List (List Nat) × Nat) :=
  let side := fun i =>
    let n := sideGroups k.groups i
    if s.unitsUsed core i (·.blocks) + k.blocks * n ≤ 48 && s.unitsUsed core i (·.optiles) + k.optiles * n ≤ 32
        && s.unitsUsed core i (·.acctiles) + k.acctiles * n ≤ 16 then
      takeSlots (k.kclass = 2) n (s.freeSlots core i)
    else none
  match side 0, side 1, side 2, side 3, s.spPlace core k.spbytes with
  | some a, some b, some c, some d, some sp => some ([a, b, c, d], sp)
  | _, _, _, _, _ => none

def State.slotCount (s : State) (core : Nat) : Nat := ((List.range 4).map fun i => (s.freeSlots core i).length).foldl (· + ·) 0

/-! The ready pool (R374). -/

/-- A team of the ready pool. -/
structure Cand where
  grid : Grid
  teamId : Nat
  team : Option Team
  deriving DecidableEq, Repr

/-- The order of R374. -/
def Cand.before (a b : Cand) : Bool :=
  let key := fun (c : Cand) => [c.grid.cls, if c.team.isSome then 0 else 1, c.grid.accept, c.teamId]
  decide (key a < key b)

def insertCand (c : Cand) : List Cand → List Cand
  | [] => [c]
  | x :: xs => if c.before x then c :: x :: xs else x :: insertCand c xs

/-- A framed team may be placed: the team that took its core has been placed, no group of it waits for the pager (R341,
R360, R384), and its frame can be read (R93). -/
def State.mayReturn (s : State) (t : Team) : Bool :=
  t.state = .framed && t.waitFor.isNone && !(s.teamGroups t).any Group.onPager
  && (t.frame.all fun a => !s.devAway a (teamFrameSize t))
  && (s.teamGroups t).any fun g => !g.ended

/-- The ready pool in the order of R374; of a grid's unplaced teams the next one stands for all. -/
def State.pool (s : State) : List Cand :=
  let grids := s.disp.grids.filter fun d => !d.retired
  let framed := s.teams.filterMap fun t =>
    if s.mayReturn t then (s.grid? t.grid).map fun d => (⟨d, t.teamId, some t⟩ : Cand) else none
  let fresh := grids.filterMap fun d =>
    if d.preds.isEmpty && d.nextTeam < d.teams && d.killed.isNone then some (⟨d, d.nextTeam, none⟩ : Cand) else none
  (framed ++ fresh).foldl (fun l c => insertCand c l) []

/-- Since when a team of the pool has waited. -/
def Cand.since (c : Cand) : Nat := (c.team.map (·.since)).getD c.grid.readyAt

/-! Choosing a core (R376, R380, R388). -/

/-- The grids that the PLACE entries of a log name, from an entry on. -/
def State.logGrids (s : State) (x : Serial) : Nat → List Nat
  | 0 => []
  | fuel + 1 => match s.logNext x with
    | none => []
    | some e => (if e.type = logPlace then [fieldOf e.payload 0 4] else []) ++ s.logGrids { x with head := e.next } fuel

/-- A PLACE entry's GRIDID names a grid of the task: the one of the same place in acceptance order (log 76). -/
def State.placeNames (s : State) (x : Serial) (gridId grid : Nat) : Bool :=
  let all := (s.logGrids { x with head := 0 } (s.devNat (s.logHeader x + 0x10) 8 / 32)).eraseDups
  (all.filter fun n => decide (n < gridId)).length = (x.grids.takeWhile fun n => n ≠ grid).length

/-- The core that a replayed team must take: PLACE's, or its own when it has been placed before. -/
def State.replayCore (s : State) (c : Cand) : Option (Nat × Option LogEntry) :=
  match c.team with
  | some t => some (t.core, none)
  | none => (s.serialOf c.grid.id).bind fun x => (s.logNext x).bind fun e =>
    if e.type = logPlace && fieldOf e.payload 4 4 = c.teamId && s.placeNames x (fieldOf e.payload 0 4) c.grid.id then
      some (fieldOf e.payload 8 2, some e)
    else none

/-- A higher-ranked team holds a reservation of the core. -/
def State.heldFor (s : State) (c : Cand) (core : Nat) : Bool :=
  s.disp.resv.any fun r => r.core = core && s.pool.any fun x =>
    x.grid.id = r.grid && x.teamId = r.teamId && x.before c

/-- The cores that a team may take now. -/
def State.coresFor (s : State) (c : Cand) : List Nat :=
  (List.range 256).filter fun k =>
    (s.elig k).eligible && (c.grid.cls = 0 || !s.reserved k) && (s.fits c.grid.kernel k).isSome && !s.heldFor c k
    && (c.grid.mode ≠ .replay || (s.replayCore c).any fun x => x.1 = k)

/-- The best of some cores: the parent's quarter, the most free slots, the lowest number (R376). -/
def State.bestCore (s : State) (c : Cand) (ks : List Nat) : Option Nat :=
  let near := fun (k : Nat) => match c.grid.parentTeam.bind s.team? with
    | some t => if k / 64 = t.core / 64 then 1 else 0
    | none => 0
  ks.foldl (fun (b : Option Nat) k => match b with
    | none => some k
    | some j =>
      if near j < near k || (near j = near k && s.slotCount j < s.slotCount k) then some k else b) none

/-- The core of a team (R376, R380). -/
def State.chooseCore (s : State) (c : Cand) : Option Nat :=
  let ks := s.coresFor c
  if c.grid.cls = 0 then
    match s.bestCore c (ks.filter s.reserved) with
    | some k => some k
    | none => s.bestCore c ks
  else s.bestCore c ks

/-! Starting groups (R281, R331). -/

/-- The uniform registers that a group starts with. -/
def startRegs (d : Grid) : SMap TW :=
  let put := fun (m : SMap TW) (i : Nat) (n : Nat) => sset ⟨0, false⟩ m i ⟨BitVec.ofNat 32 n, false⟩
  let m := put (put [] 0 d.args.toNat) 1 (d.args.toNat / 2 ^ 32)
  put m 2 (match d.sup with
    | some (_, code, _) => code
    | none => d.teams)

/-- A group at its first issue (R281). -/
def startGroup (d : Grid) (x : Ctx) (gid team teamId i core slot : Nat) : Group :=
  let s0 := startRegs d
  { gid := gid, team := team, grid := d.id, ctx := d.ctx, pasid := x.pasid, groupId := i, teamId := teamId
    core := core, side := i % 4, slot := slot, kclass := d.kernel.kclass, cls := d.cls, depth := d.depth
    sup := d.sup.isSome, kernel := d.kernel.addr, cntGrant := x.cntGrant
    lanes := (List.range 32).map fun L =>
      { exited := false, pc := d.kernel.entry, region := 0, inRegion := false, k := 0, rnd := seedLane 1#32 L
        wait := .none, passed := 0, polls := 0, readyAt := 0, cnt := 0 }
    v := [], s := s0, p := [], t := [], a := [], h := 0, j := 0, m := 0, gen := gid, blkGen := [], fpstat := 0
    srseed := 1, dropret := 0, faultInfo := 0, maskRows := [], maskMode := 0, maskFill := 0, errs := [], lost := []
    recErrs := [], recLost := [], counterRec := none, barriers := 0, atBarrier := false, pend := [], stash := [], seq := 0
    halt := .running, ppoint := none, imprecise := 0, impInfo := [], trap := none, hold := false, stepFrame := none
    dbgHalt := 0, dbgPath := 0, restarts := [], frame := none, returns := [], dead := []
    frameWait := false, haltedAt := 0, parked := false
    trapRec := (d.sup.map fun x => x.1).getD 0, ctxNum := (d.sup.map fun x => x.2.2).getD 0
    outrider := if d.kernel.kclass = 2 then some { v := [], s := s0, p := [], pend := [], queue := [] } else none
    peerMarks := [], ended := false }

/-- Clear a scratchpad allocation, tags included (R281, R443). -/
def Cores.clear (c : Cores) (a n : Nat) : Cores :=
  let out := fun (lo hi k : Nat) => !(decide (lo ≤ k) && decide (k < hi))
  { c with
    spad := c.spad.filter fun x => out a (a + n) x.1
    gate := c.gate.filter fun x => out (a / 4) ((a + n) / 4) x.1
    poison := c.poison.filter fun x => out (a / 4) ((a + n) / 4) x.1
    reload := c.reload.filter fun x => out (a / 4) ((a + n) / 4) x.1 }

/-- The slot of group `i` of a team. -/
def slotFor (slots : List (List Nat)) (i : Nat) : Nat := (slots.getD (i % 4) []).getD (i / 4) 0

/-- The late-fault statuses of an address space are held in class A of a group that is launched there (R118; log 56). -/
def State.takeLate (s : State) (g : Group) : Group :=
  let held := ((s.sup.late.filter fun x => x.1 = g.pasid).map (·.2)).foldl holdError (g.errs, g.lost)
  { g with errs := held.1, lost := held.2 }

/-- Place a team for the first time: its allocation is cleared, and its groups stand at ENTRY (R281, R376). -/
def State.placeNew (s : State) (d : Grid) (core : Nat) (slots : List (List Nat)) (sp : Nat) : State :=
  let (tid, s) := s.fresh
  let n := d.kernel.groups
  let gids := (List.range n).map fun i => s.nextId + i
  let gs := (List.range n).map fun i => startGroup d (s.ctx d.ctx) (s.nextId + i) tid d.nextTeam i core (slotFor slots i)
  let t : Team :=
    { id := tid, grid := d.id, teamId := d.nextTeam, core := core, spBase := sp, spSize := d.kernel.spbytes, groups := gids
      state := .clearing, descs := [], acqQ := [], barrier := 0, frame := none, savedReload := [], frameWait := false
      waitFor := none, since := s.ltick, handler := d.sup.isSome }
  let gs := match gs with
    | g :: rest => s.takeLate g :: rest
    | [] => []
  let s := { s with
    nextId := s.nextId + n, groups := s.groups ++ gs, teams := s.teams ++ [t]
    cores := s.cores.clear (spAddr core sp 0) d.kernel.spbytes
    sup := { s.sup with late := s.sup.late.filter fun x => x.1 ≠ (s.ctx d.ctx).pasid } }
  (s.onGrid d.id fun d => { d with nextTeam := d.nextTeam + 1 }).trimVictims (clusterOf core)

/-- Place a framed team: its frame is loaded, and its groups move to their new slots (R338, R339), where
they fetch afresh: what they have acquired before counts there too (R444). -/
def State.placeFramed (s : State) (t : Team) (core : Nat) (slots : List (List Nat)) (sp : Nat) : State :=
  let s := s.onTeam t.id fun t => { t with core := core, spBase := sp, state := .running, since := s.ltick }
  let grant := (s.grid? t.grid).any fun d => (s.ctx d.ctx).cntGrant
  let s := t.groups.foldl (fun s gid =>
    let (n, s) := s.fresh
    s.onGroup gid fun g =>
      { g with
        core := core, slot := slotFor slots g.groupId, gen := n, cntGrant := grant
        blkGen := (List.range g.h).foldl (fun m b => sset 0 m b n) [] }) s
  let s := (t.groups.filterMap s.group?).foldl (fun s g => s.freshFetch core g.pasid) s
  let s := match t.frame, s.team? t.id with
    | some a, some t =>
      let s := (s.devTouch a (teamFrameSize t)).loadTeam t a
      match s.grid? t.grid with
      | some d => s.freePages d.ctx a
      | none => s
    | _, _ => s
  (t.groups.foldl (fun s gid => s.tryResume gid) s).trimVictims (clusterOf core)

/-- What a placement ends: the team's reservation, and the waits of the teams that made room for it (R376, R384). -/
def State.placed (s : State) (grid teamId : Nat) : State :=
  { s with
    disp := { s.disp with resv := s.disp.resv.filter fun r => !(r.grid = grid && r.teamId = teamId) }
    teams := s.teams.map fun t => if t.waitFor = some (grid, teamId) then { t with waitFor := none } else t }

/-- The PLACE entry of a recorded task, or the one that a replayed task takes (R387, R388). -/
def State.logPlaced (s : State) (c : Cand) (core : Nat) : State :=
  match s.serialOf c.grid.id, c.team with
  | some x, none =>
    if x.mode = .replay then
      match s.replayCore c with
      | some (_, some e) => s.logTake x e
      | _ => s
    else s.logAppend x logPlace 0 (leBytes 4 c.grid.id ++ leBytes 4 c.teamId ++ leBytes 2 core ++ List.replicate 6 0)
  | _, _ => s

/-- Place a team on a core, where it fits. -/
def State.placeOn (s : State) (c : Cand) (core : Nat) : State :=
  match s.fits c.grid.kernel core with
  | none => s
  | some (slots, sp) =>
    let s := s.logPlaced c core
    let s := match c.team with
      | some t => s.placeFramed t core slots sp
      | none => s.placeNew c.grid core slots sp
    s.placed c.grid.id c.teamId

/-- The first team of the pool that has a core. -/
def State.firstPlace (s : State) : Option (Cand × Nat) := s.pool.findSome? fun c => (s.chooseCore c).map fun k => (c, k)

/-- TEAM_PLACEMENT (R376). -/
def doTeamPlacement (s : State) : State :=
  match s.firstPlace with
  | some (c, k) => s.placeOn c k
  | none => s

def execTeamPlacement (s : State) : Out := .next (doTeamPlacement s)

/-- SCRATCHPAD_CLEAR_DONE (R443): the agent's team begins to issue. -/
def doScratchpadClearDone (s : State) : State :=
  s.onTeam s.cur.team fun t => if t.state = .clearing then { t with state := .running } else t

def execScratchpadClearDone (s : State) : Out := .next (doScratchpadClearDone s)

/-- PLACEMENT_RESERVATION (R376): the first team that has been passed over for 1 ms reserves the eligible core
with the most free slots. -/
def doPlacementReservation (s : State) : State :=
  match s.pool.find? fun c => decide (c.since + 1000000 ≤ s.ltick) && (s.chooseCore c).isNone
      && !(s.disp.resv.any fun r => r.grid = c.grid.id && r.teamId = c.teamId) with
  | none => s
  | some c =>
    let ks := (List.range 256).filter fun k => (s.elig k).eligible && (c.grid.cls = 0 || !s.reserved k)
    match ks.foldl (fun (b : Option Nat) k => match b with
        | none => some k
        | some j => if s.slotCount j < s.slotCount k then some k else b) none with
    | some k => { s with disp := { s.disp with resv := s.disp.resv ++ [⟨c.grid.id, c.teamId, k⟩] } }
    | none => s

def execPlacementReservation (s : State) : Out := .next (doPlacementReservation s)

/-- The ticks after which a class asks for a core (R379, R384). -/
def State.patience (s : State) (cls : Nat) : Option Nat :=
  let us := fun (x d : Nat) => some (1000 * if x = 0 then d else x)
  if cls = 1 then us (s.config 0x28 4) 200 else if cls = 2 then us (s.config 0x2C 4) 2000 else none

/-- The core that the Dispatcher pre-empts for a team (R384): emptied, every such core would have as many free
slots, so the lowest number decides. -/
def State.victimCore (s : State) (c : Cand) : Option Nat :=
  (List.range 256).find? fun k =>
    (s.elig k).eligible && !s.reserved k
    && (s.onCore k).all (fun t => (s.grid? t.grid).any fun d => decide (c.grid.cls < d.cls))
    && !(s.onCore k).isEmpty
    && !s.preempting k

/-- DISPATCHER_PREEMPT (R384). -/
def doDispatcherPreempt (s : State) : State :=
  let waiting := s.pool.filter fun c =>
    (s.patience c.grid.cls).any (fun n => decide (c.since + n ≤ s.ltick)) && (s.chooseCore c).isNone
    && !(s.disp.preempts.any fun x => x.2 = (c.grid.id, c.teamId))
    && !(s.teams.any fun t => t.waitFor = some (c.grid.id, c.teamId))
  match waiting.findSome? fun c => (s.victimCore c).map fun k => (c, k) with
  | none => s
  | some (c, k) =>
    let w := (c.grid.id, c.teamId)
    ({ s with disp := { s.disp with preempts := s.disp.preempts ++ [(k, w.1, w.2)] } }).preemptCore k (some w)

def execDispatcherPreempt (s : State) : Out := .next (doDispatcherPreempt s)

/-! Ends (R42, R378). -/

/-- TEAM_END (R42): the agent's team has ended, and every engine write into its scratchpad has completed. -/
def doTeamEnd (s : State) : State :=
  match s.team? s.cur.team with
  | none => s
  | some t =>
    if t.state = .ended || !(s.teamGroups t).all (fun g => g.ended)
        || s.eng.ops.any (fun o => o.team = t.id && o.onScratch) then s
    else
      let s := match t.frame, s.grid? t.grid with
        | some a, some d => s.freePages d.ctx a
        | _, _ => s
      let s := s.onTeam t.id fun t => { t with state := .ended, frame := none, descs := [], acqQ := [], frameWait := false }
      s.preemptDone t.core

def execTeamEnd (s : State) : Out := .next (doTeamEnd s)

/-- A lock word that a queue-lock unit has written and that is still held (R80, R237). -/
def WriteOp.isLockWord (w : WriteOp) : Bool :=
  w.req.isNone && w.op.isNone && w.peer.isNone && w.maint.isNone && w.tags.isEmpty && w.res ≠ deviceRes

/-- A grid may retire (R42); lock words that are held, whose group the write does not name, are waited for too. -/
def State.mayRetire (s : State) (d : Grid) : Bool :=
  let mine := fun (gid : Nat) => s.groups.any fun g => g.gid = gid && g.grid = d.id
  !d.retired && d.nextTeam = d.teams
  && (s.teams.all fun t => t.grid ≠ d.id || t.state = .ended)
  && (s.disp.grids.all fun c => c.parent ≠ some d.id || c.retired)
  && !(s.eng.reqs.any fun r => mine r.gid && (r.kind.isStore || r.kind.isRed || r.kind = .record))
  && !(s.eng.ops.any fun o => mine o.gid)
  && !(s.mem.held.any fun h => h.2.marker.any mine || h.2.isLockWord)

/-- A retired grid is a predecessor of none (R372, R373). -/
def State.freeSuccessors (s : State) (id : Nat) : State :=
  let grids := s.disp.grids.map fun d =>
    if d.preds.contains id then
      let left := d.preds.filter (· ≠ id)
      { d with preds := left, readyAt := if left.isEmpty then s.ltick else d.readyAt }
    else d
  { s with disp := { s.disp with grids := grids } }

/-- The grid's entry is dropped. -/
def State.dropGrid (s : State) (id : Nat) : State :=
  { s with disp := { s.disp with grids := s.disp.grids.filter fun d => d.id ≠ id } }

/-- The recorded or replayed task of a root grid has ended (R387). -/
def State.endSerial (s : State) (d : Grid) : State :=
  match s.disp.serials.find? fun x => x.root = d.id with
  | some x =>
    let s := s.logAppend x logEnd 0 []
    { s with disp := { s.disp with serials := s.disp.serials.filter fun x => x.root ≠ d.id } }
  | none => s

/-- GRID_RETIRE (R42, R111, R240, R370, R373): the agent's grid retires. -/
def doGridRetire (s : State) : State :=
  match s.grid? s.cur.grid with
  | none => s
  | some d =>
    if !s.mayRetire d then s
    else
      let s := s.endSerial d
      let gids := (s.groups.filter fun g => g.grid = d.id).map (·.gid)
      let s := s.freeLocks fun w => w.pkg = s.fab.self % 1024 && w.grid = d.id
      let s := d.peers.foldl (fun s n => s.sendPeer n (.lockFree d.id)) s
      let s := (s.groups.filter fun g => g.grid = d.id).foldl (fun s g =>
        g.peerMarks.foldl (fun s m => s.sendPeer m.pkg (.retire g.gid)) s) s
      let s := (s.freeMarks fun g => gids.contains g).freeSuccessors d.id
      let s := { s with groups := s.groups.filter fun g => g.grid ≠ d.id, teams := s.teams.filter fun t => t.grid ≠ d.id }
      if d.done = 0 then s.dropGrid d.id else s.onGrid d.id fun d => { d with retired := true, regions := [] }

def execGridRetire (s : State) : Out := .next (doGridRetire s)

/-- What a completion write adds (R378). -/
def Grid.doneValue (d : Grid) : Nat :=
  match d.killed with
  | some code => code * 2 ^ 16 + 1
  | none => 1

/-- A completion write that is not made (R118, R282), with its reason of R352. -/
def State.doneLate (s : State) (d : Grid) (reason : Nat) : State :=
  (s.lateFault d.ctx d.done 0x08 EClass.A.code reason).dropGrid d.id

/-- How a grid's completion write is made: as a walk of the device's with a key of its own. -/
def Grid.doneBy (d : Grid) (pasid : Nat) : WalkBy := ⟨2 ^ 140 + d.id, 0, pasid, ⟨some d.ctx, none⟩⟩

/-- DONE_WRITE (R282, R378): the agent's retired grid adds to its completion word. -/
def doDoneWrite (s : State) : State :=
  match s.grid? s.cur.grid with
  | none => s
  | some d =>
    if !d.retired then s
    else
      let pasid := (s.ctx d.ctx).pasid
      let who : Walker := .done d.id
      if !canonical d.done then s.doneLate d 1
      else match s.translate 0 pasid d.done .write with
        | .miss | .fault _ => match s.denial? who pasid d.done .write with
          | some x => (s.undeny who).doneLate d x.reason
          | none => s.askWalk 0 pasid d.done .write who
        | .hit pa nc res => match s.placeOf pa nc (d.ctx = 0) with
          | .at (.line l ofs) _ =>
            match s.lineAtom (d.doneBy pasid) l ofs d.done res .add 1 d.doneValue with
            | .wait s => s
            | .done _ _ s => s.dropGrid d.id
            | .fail _ => s.doneLate d 0
          | .at (.peer n ofs false) _ =>
            if s.reachable n then (s.sendPeer n (.done d.ctx d.done d.doneValue) ⟨d.done, ofs, false, res⟩).dropGrid d.id
            else s.doneLate d 0
          | .at _ _ => s.doneLate d 0
          | .absent => s.doneLate d 8
          | .changing => s

def execDoneWrite (s : State) : Out := .next (doDoneWrite s)

/-! Divergence (R389). -/

/-- The addresses at which a task reads the host now, each with the state in which its turn in the log comes: those of its
lanes, and those of its copies. -/
def State.hostReads (s : State) (root : Nat) : List (Nat × State) :=
  let mine := fun (gid : Nat) => (s.serialOfGroup gid).any fun x => x.root = root
  (s.eng.reqs.filterMap fun r => match r.place with
    | .host _ => if mine r.gid && (!r.kind.writes || r.kind.isAtomic) && !(r.accepted && r.kind.isHeldRead) then some (r.va, s) else none
    | _ => none)
  ++ s.eng.ops.filterMap fun o => if mine o.gid then s.copyWait o else none

/-- A team of a task waits for its first place. -/
def State.needsPlace (s : State) (root : Nat) : Bool := s.pool.any fun c => c.team.isNone && c.grid.root = root

/-- What a log holds next is not a read of the host at an address: another entry's read, an entry that is not due, or the
end (R389). -/
def State.notRead (s : State) (x : Serial) (addr : Nat) : Bool :=
  match s.logNext x with
  | none => true
  | some e =>
    if e.type = logHostRead then e.addr ≠ addr
    else if e.type = logFabric then decide (x.count < e.count)
    else if e.type = logPlace then !s.needsPlace x.root
    else true

/-- None of the reads of the host that a replayed task waits for, one of them at an address, is what its log holds next
(R389). -/
def State.diverges (s : State) (root addr : Nat) : Bool :=
  let rs := s.hostReads root
  rs.any (fun r => r.1 = addr)
  && rs.all fun r => (r.2.disp.serials.find? fun x => x.root = root).any fun x => r.2.notRead x r.1

/-- The log has ended before its task: no entry is left, or END is next and the task has issued more, or has teams to
place (R389). -/
def State.logOver (s : State) (x : Serial) : Bool :=
  match s.logNext x with
  | none => true
  | some e => e.type = logEnd && (decide (e.count < x.count) || s.needsPlace x.root)

/-- REPLAY_DIVERGENCE (R389): the reads of the host at an address are not those of the log's next entry, or the log has
ended. -/
def doReplayDivergence (grid addr : Nat) (s : State) : State :=
  match s.disp.serials.find? fun x => x.root = grid && x.mode = .replay with
  | none => s
  | some x =>
    if s.logOver x || s.diverges grid addr then (s.devPut (s.logHeader x + 0x1C) 4 2).killRoot grid 0xFE else s

def execReplayDivergence (grid addr : Nat) (s : State) : Out := .next (doReplayDivergence grid addr s)

end Sys2Proof.Machine
end

