-- ==== Sys2Proof/Machine/Reliability.lean ====
section
/-! DEFINITION. Scrubbing (R398), reinforcement (R87, R395 to R397), formatting of extents (R411), and the power
controller (R307, R308). -/

namespace Sys2Proof.Machine

/-! Strengthening. -/

/-- The pool rows and entries of a stack, in ascending order (R395). -/
def State.poolEntries (s : State) (stack : Nat) : List (Nat × Nat) :=
  ((List.range 256).filter fun e => (s.extent stack e).cls = .pool && !(s.extent stack e).busy).flatMap fun e =>
    (List.range 32).flatMap fun i => (List.range 8).map fun q => (32 * e + i, q)

/-- A free entry in a row's bank. -/
def State.freeEntry (s : State) (r : RowId) : Option (Nat × Nat) :=
  (s.poolEntries r.stack).find? fun x =>
    !(s.rel.strong.any fun y => bankKey y.1 = bankKey r && y.2.1 = x.1 && y.2.2 = x.2)

/-- The reference in slot 31 of a strengthened row (R395). -/
def poolReference (pr q : Nat) : List Byte :=
  (List.range 3).flatMap (fun _ => leBytes 2 pr ++ leBytes 1 q ++ [0xA5]) ++ List.replicate 52 0

/-- A row's data sectors as they stand, with their poison. -/
def State.rowData (s : State) (r : RowId) (n : Nat) : List (List Byte × Bool) :=
  (List.range n).map fun i => let x := s.peekSector r i; (x.1, x.2.tagged)

/-- An error that strengthening has met in a sector is logged, and charged to none (R399). -/
def State.logMet (s : State) (r : RowId) (slot : Nat) (v : Verdict) : State :=
  match v with
  | .corrected => s.log 1 (s.logAt r slot) 0
  | .uncorrectable => s.log 3 (s.logAt r slot) 0
  | _ => s

/-- Strengthen a row into a pool entry (R397); what it has met is logged after. -/
def State.strengthen (s : State) (r : RowId) (e : Nat × Nat) : State :=
  let data := s.rowData r 28
  let met := (List.range 28).map fun i => (i, (s.peekSector r i).2)
  let s := { s with rel := { s.rel with strong := s.rel.strong ++ [(r, e)] }
                    mem := rawPut s.mem (rowBase r + 64 * 31) (poolReference e.1 e.2) }
  let s := (data.zipIdx).foldl (fun s (x, i) => s.pokeSector r i x.1 x.2) s
  met.foldl (fun s (i, v) => s.logMet r i v) s

/-- No entry is free: the bank's capacity event, once until a pool extent is added (R397). -/
def State.noEntry (s : State) (r : RowId) : State :=
  if s.rel.capacity.contains (bankKey r) then s
  else
    let at_ := s.logAt r 0
    let s := { s with rel := { s.rel with capacity := s.rel.capacity ++ [bankKey r] } }
    (raiseRecord s 0 0x19 at_.addr at_.addr).log 6 { at_ with slot := 0xFF } 0

/-- ROW_STRENGTHEN (R396, R397): a due row of a reinforcing bank, once it is controller-owned. -/
def doRowStrengthen (r : RowId) (s : State) : State :=
  if !s.rel.due.contains r || s.rowState r ≠ .controller || s.bankHeld r then s
  else
    let s := { s with rel := { s.rel with due := s.rel.due.filter (· ≠ r) } }
    if s.rowCode r ≠ .P || !s.rel.reinforcing.contains (bankKey r) then s
    else match s.freeEntry r with
      | some e => s.strengthen r e
      | none => s.noEntry r

def execRowStrengthen (row : RowId) (s : State) : Out := .next (doRowStrengthen row s)

/-- CE_WINDOW_CLEAR (R396): the counts are cleared when LTICK crosses a multiple of CEWINDOW × 10^9. -/
def doCeWindowClear (s : State) : State := s.clearWindow

def execCeWindowClear (s : State) : Out := .next (doCeWindowClear s)

/-! The scrubber (R398). -/

/-- The row at a position of a stack's pass: all banks of a bank row, then the next bank row. -/
def scrubRow (stack p : Nat) : RowId := ⟨stack, p % 64, p / 64 % 16, p / 1024 % 4, p / 4096⟩

/-- Positions of a pass. -/
def scrubEnd : Nat := 8192 * 4096

/-- The scrubber visits an extent. -/
def State.scrubs (s : State) (stack e : Nat) : Bool :=
  let x := s.extent stack e
  !x.busy && (x.cls = .D || x.cls = .P)

/-- The next position, from one on, that lies in an extent to visit. -/
def State.scrubFrom (s : State) (stack : Nat) : Nat → Nat → Option Nat
  | 0, _ => none
  | n + 1, p =>
    if scrubEnd ≤ p then none
    else if s.scrubs stack (p / 131072) then some p
    else s.scrubFrom stack n ((p / 131072 + 1) * 131072)

/-- Visit one sector. -/
def State.scrubSector (s : State) (r : RowId) (slot : Nat) : State :=
  let (d, v) := s.peekSector r slot
  match v with
  | .corrected => ((s.pokeSector r slot d false).log 2 (s.logAt r slot) 0).countCorrected r
  | .uncorrectable => (s.pokeSector r slot d true).log 4 (s.logAt r slot) 0
  | _ => s

/-- Visit a row: every data sector, moved ones included; in a bank that was reinforcing, a class P row is then due. -/
def State.scrubVisit (s : State) (r : RowId) : State :=
  let due := s.rel.reinforcing.contains (bankKey r) && s.rowCode r = .P
  let s := (List.range (s.extent r.stack (r.row / 32)).cls.sectors).foldl (fun s i => s.scrubSector r i) s
  if due then s.dueRow r else s

def State.setScrub (s : State) (stack p : Nat) : State :=
  { s with rel := { s.rel with scrub := sset 0 s.rel.scrub stack p } }

/-- SCRUB_VISIT (R398): the next row of the stack's pass; a row that is not controller-owned is skipped, and
visited at the pass's end. -/
def doScrubVisit (stack : Nat) (s : State) : State :=
  if 16 ≤ stack then s
  else match s.scrubFrom stack 257 (sget 0 s.rel.scrub stack) with
    | some p =>
      let r := scrubRow stack p
      if s.rowState r = .controller && s.bankHeld r then s
      else
      let s := s.setScrub stack (p + 1)
      if s.rowState r = .controller then s.scrubVisit r
      else { s with rel := { s.rel with skipped := s.rel.skipped ++ [r] } }
    | none => match s.rel.skipped.find? fun r => r.stack = stack with
      | none => s.setScrub stack 0
      | some r =>
        if s.rowState r = .controller && s.bankHeld r then s
        else
        let s := { s with rel := { s.rel with skipped := s.rel.skipped.erase r } }
        let s := s.setScrub stack scrubEnd
        if s.rowState r = .controller && s.scrubs stack (r.row / 32) then s.scrubVisit r else s

def execScrubVisit (stack : Nat) (s : State) : Out := .next (doScrubVisit stack s)

/-! Formatting (R394, R411). -/

/-- The class that an extent state byte names. -/
def classOfByte (b : Nat) : ExtClass :=
  match b % 4 with
  | 0 => .N | 1 => .D | 2 => .P | _ => .pool

def ExtClass.code : ExtClass → Nat
  | .N => 0 | .D => 1 | .P => 2 | .pool => 3

/-- The address of an extent's state byte (R393). -/
def State.extByte (s : State) (stack e : Nat) : Nat := slotList s + 0x6000 + 256 * stack + e

def extLog (stack e : Nat) : LogAt := ⟨stack, 0, 0, 32 * e, 0xFF, 0⟩

/-- A class change is refused: the extent stands in a valid slot, or a pool entry of it is in use. -/
def State.formatRefused (s : State) (stack e : Nat) : Bool :=
  (s.xl.slots.any fun x => x.2.valid && x.2.stack = stack && x.2.ext = e)
  || ((s.extent stack e).cls = .pool && s.rel.strong.any fun y => y.1.stack = stack && y.2.1 / 32 = e)

/-- An extent of the stack is being formatted. -/
def State.formatting (s : State) (stack : Nat) : Bool := (List.range 256).any fun e => (s.extent stack e).busy

/-- EXTENT_CLASS_WRITE (R411): a write that changes CLASS starts a format, or is refused; one extent of a stack
is formatted at a time. -/
def doExtentClassWrite (stack e : Nat) (s : State) : State :=
  match s.watches fun w => w = .ext stack e with
  | none => s
  | some w =>
    let x := s.extent stack e
    let c := classOfByte (s.devNat (s.extByte stack e) 1)
    if c = x.cls then s.unwatch w
    else if s.formatting stack then s
    else
      let s := s.unwatch w
      if s.formatRefused stack e then (s.devPut (s.extByte stack e) 1 x.cls.code).log 12 (extLog stack e) 0
      else
        let s := s.onExtent stack e fun _ => ⟨c, true⟩
        let strong := s.rel.strong.filter fun y => !(y.1.stack = stack && y.1.row / 32 = e)
        let s := { s with rel := { s.rel with strong := strong } }
        s.devPut (s.extByte stack e) 1 (0x80 + c.code)

def execExtentClassWrite (stack ext : Nat) (s : State) : Out := .next (doExtentClassWrite stack ext s)

/-- Zero data and valid codes in every row of an extent: under every class the code of zeros is zero (R391, R411). -/
def Mem.format (m : Mem) (stack e : Nat) : Mem :=
  { m with raw := m.raw.filter fun x => !(x.1 / 2 ^ 36 = stack && x.1 / 65536 % 256 = e) }

/-- EXTENT_FORMAT_DONE (R411). -/
def doExtentFormatDone (stack e : Nat) (s : State) : State :=
  let x := s.extent stack e
  if !x.busy then s
  else
    let s := { s with mem := s.mem.format stack e }
    let s := s.onExtent stack e fun x => { x with busy := false }
    let s := if x.cls = .pool then
        { s with rel := { s.rel with capacity := s.rel.capacity.filter fun k => k / 4096 ≠ stack } }
      else s
    let again := s.mem.watch.filterMap fun w => match w with
      | .ext st e => if st = stack then some (Turn.event s.cur (.extentClassWrite st e)) else none
      | _ => none
    ((s.devPut (s.extByte stack e) 1 (s.devNat (s.extByte stack e) 1 % 128)).log 11 (extLog stack e) 0).push again

def execExtentFormatDone (stack ext : Nat) (s : State) : Out := .next (doExtentFormatDone stack ext s)

/-! Power (R307, R308). -/

/-- POWER_EVALUATION (R308), with the package power of the last microsecond. -/
def doPowerEvaluation (watts : Nat) (s : State) : State :=
  let p := s.power
  let p := { p with pwrAvg := watts }
  { s with power :=
      if 3850 < watts then { p with level := min 9 (p.level + 1), below := 0 }
      else if watts < 3600 then
        if p.below + 1 = 10 then { p with level := p.level - 1, below := 0 } else { p with below := p.below + 1 }
      else { p with below := 0 } }

def execPowerEvaluation (watts : Nat) (s : State) : Out := .next (doPowerEvaluation watts s)

end Sys2Proof.Machine
end

