-- ==== Sys2Proof/Machine/Fabric.lean ====
section
/-! DEFINITION. The fabric: requests that arrive (R416, R419, R420), answers to this package's own (R344, R419 to
R422), sending again, ports and links (R402, R415), and the host link (R425, R431). -/

namespace Sys2Proof.Machine

/-! Requests of peers. -/

/-- What executing an inbound request comes to. -/
inductive Inb where
  | wait (s : State)
  | retry (s : State)
  | done (ans : PeerAnswer) (s : State)
  /-- Executed, and answered when a lock is granted. -/
  | pending (s : State)

/-- The key of an inbound request in the hold queues. -/
def inboundKey (r : Inbound) : Nat := 2 ^ 64 * (r.src + 1) + r.seq

/-- How an inbound request accesses memory. -/
def State.inboundBy (s : State) (r : Inbound) : WalkBy := ⟨(inboundKey r), 0, r.pasid, ⟨s.inboundCtx r.pasid, none⟩⟩

/-- A request would need an entry of a hold queue that is full: it is refused with retry (R93). -/
def State.refused (s : State) (rs : List RowId) (w : HeldWork) : Bool :=
  !s.isHeld w && (rs.find? fun r => s.rowStops w r).any fun r => !s.waitsBank r && decide (32 ≤ s.holdLoad r)

/-- The rows that an access of `n` bytes needs where the depot does not hold its line. -/
def State.placeRows (s : State) (p : Place) (n : Nat) : List RowId :=
  match p with
  | .line l _ => if (s.line? l).isSome then [] else s.lineRows l
  | .raw st e d => sectorRows (s.extent st e).cls st e (d / 64) ((d + n - 1) / 64)
  | _ => []

/-- What waits at those rows for a read: the fill of the line, or the read itself (R83, R93). -/
def State.readWork (s : State) (p : Place) (res key : Nat) : HeldWork :=
  match p with
  | .line l _ => if s.quota res = 0 then .walk key else .fill l
  | _ => .walk key

/-- A read of a peer at its executor, or its retry. -/
def State.inboundRead (s : State) (r : Inbound) (p : Place) (n : Nat) (f : List Byte → List Bool → State → Inb) : Inb :=
  if s.refused (s.placeRows p n) (s.readWork p r.res (inboundKey r)) then .retry s
  else match s.walkRead (s.inboundBy r) p r.res n with
    | .wait s => .wait s
    | .fail _ => .done .badAttribute s
    | .done bs ts s => f bs ts s

/-- A plain load by a peer's group takes the tag of open stores, word by word (R112). -/
def State.peerTags (s : State) (r : Inbound) (p : Place) (n : Nat) (group : Option Nat) (ts : List Bool) : List Bool :=
  match p, group with
  | .line l ofs, some k => match s.line? l with
    | some x => ts.mapIdx fun i t => t || s.openWord x (peerGroup r.src k) ofs n ((ofs + i) / 4)
    | none => ts
  | _, _ => ts

/-- The part of an inbound write that goes to one line. -/
def inboundPart (r : Inbound) (l : LineId) (ofs : Nat) (bs : List Byte) (ts : List Bool) (group : Option Nat) : WriteOp :=
  { place := .line l ofs, bytes := bs, tags := ts, marker := group.map (peerGroup r.src), cleared := none, req := none
    op := none, peer := some r, res := r.res, maint := none, after := none }

/-- The parts of an inbound write, line by line. -/
def inboundParts (r : Inbound) (l : LineId) (ofs : Nat) (bs : List Byte) (ts : List Bool) (group : Option Nat) :
    List (LineId × WriteOp) :=
  (lineChunks ofs bs.length).map fun (a, n) =>
    let k : LineId := { l with line := l.line + a / 128 }
    (k, inboundPart r k (a % 128) ((bs.drop (a - ofs)).take n) ((ts.drop (a - ofs)).take n) group)

/-- A line that the depot would have to fetch from rows whose hold queue is full (R93). -/
def State.lineRefused (s : State) (l : LineId) : Bool := s.refused (s.placeRows (.line l 0) 0) (.fill l)

/-- Writes of a peer arrive at their lines, held behind leases like any other; the answer comes when they have been applied
(R80, R105, R416; log 37). -/
def State.inboundArrive (s : State) (r : Inbound) (parts : List (LineId × WriteOp)) : Inb :=
  if parts.any fun x => (writeLines x.1 x.2).any s.lineRefused then .retry s
  else .pending (parts.foldl (fun s x => s.arrive x.1 x.2 (s.inboundBy r).who) s)

/-- Write bytes at the stack port, sector by sector. -/
def State.portWrite (s : State) (who : Who) (st e d : Nat) (bs : List Byte) (ts : List Bool) : State :=
  (List.range ((d % 64 + bs.length + 63) / 64)).foldl (fun s i =>
    let lo := max d (64 * (d / 64 + i))
    let hi := min (d + bs.length) (64 * (d / 64 + i) + 64)
    s.portStore who st e lo ((bs.drop (lo - d)).take (hi - lo)) (((ts.drop (lo - d)).take (hi - lo)).any id)) s

/-- The lines of some bytes of an extent that the host caches (R128, R425). -/
def State.hostCached (s : State) (st e d n : Nat) : List LineId :=
  ((lineChunks d n).map fun x => (⟨st, e, x.1 / 128⟩ : LineId)).filter s.mem.hostLines.contains

/-- A write of a peer to non-cacheable memory: it waits for the host's copies and for its rows, or is made (R93, R425). -/
def State.inboundRaw (s : State) (r : Inbound) (st e d : Nat) (bs : List Byte) (ts : List Bool) : Inb :=
  let rs := s.placeRows (.raw st e d) bs.length
  let w : HeldWork := .walk (inboundKey r)
  let cached := s.hostCached st e d bs.length
  if !cached.isEmpty then .wait (cached.foldl (fun s l => s.snoop l) s)
  else if s.refused rs w then .retry s
  else match s.passRows rs w with
    | .error s => .wait s
    | .ok s => .done (.done 0 0) (s.portWrite (s.inboundBy r).who st e d bs ts)

/-- A write of a peer. -/
def State.inboundWrite (s : State) (r : Inbound) (p : Place) (cls : ExtClass) (bs : List Byte) (ts : List Bool)
    (group : Option Nat) : Inb :=
  if ts.any id && cls = .N then .done .poisonStore s
  else match p with
    | .line l ofs => s.inboundArrive r (inboundParts r l ofs bs ts group)
    | .raw st e d => s.inboundRaw r st e d bs ts
    | _ => .done .absent s

/-- An atomic of a peer, with its operands as a request's bytes (R230). -/
def State.inboundAtom (s : State) (r : Inbound) (p : Place) (cls : ExtClass) (k : ReqKind) (ob : List Byte) (tag : Bool) : Inb :=
  if tag && cls = .N then .done .poisonStore s
  else match p with
    | .line l ofs => s.inboundArrive r [(l, inboundPart r l ofs ob (ob.map fun _ => tag) none)]
    | .raw st e d =>
      if !s.placeFree p r.res then .wait (s.placeAsk p r.res (s.inboundBy r).who)
      else s.inboundRead r p (atomBytes k.ac) fun m mt s =>
        .done (answerOf m (mt.any id)) (match atomResult k (leNat m) (mt.any id) ob [tag] with
          | some (x, t) => s.portPut st e d (leBytes (atomBytes k.ac) x) t
          | none => s)
    | _ => .done .absent s

/-- CLEAN or INVAL of a peer: it waits for leases and for its write-back, or is refused where that would need an entry of a
full hold queue (R93, R124). -/
def State.inboundMaint (s : State) (r : Inbound) (l : LineId) (inval : Bool) : Inb :=
  let full := !inval && (s.line? l).any fun x =>
    x.dirty && s.refused (s.lineRows l) (.writeback l x.bytes x.poison none (some r))
  if full then .retry s
  else .pending (s.arrive l { inboundPart r l 0 [] [] none with maint := some inval } (s.inboundBy r).who)

/-- A waybill's next read would meet a full hold queue here (R93, R422). -/
def State.walkRefused (s : State) (w : Waybill) (pasid : Nat) : Bool :=
  match s.translate 0 pasid w.addr .read with
  | .hit pa nc res => match s.placeOf pa nc (s.inboundCtx pasid = some 0) with
    | .at p _ => s.refused (s.placeRows p w.width) (s.readWork p res s.nextId)
    | _ => false
  | _ => false

/-- A waybill is taken, unless its next read would meet a full hold queue (R93, R317, R422). -/
def State.inboundWalk (s : State) (w : Waybill) (pkg op pasid : Nat) : Inb :=
  if s.walkRefused w pasid then .retry s
  else
    let (n, s) := s.fresh
    .done (.done 0 0) { s with fab := { s.fab with walks := s.fab.walks ++ [⟨n, pkg, op, pasid, w⟩] } }

/-- Execute an inbound request at its place (R416). -/
def State.inboundDo (s : State) (r : Inbound) (p : Place) (cls : ExtClass) : Inb :=
  match r.op with
  | .read n group =>
    s.inboundRead r p n fun bs ts s => .done (.done (leNat bs) (wordTags (s.peerTags r p n group ts))) s
  | .write bs ts group => s.inboundWrite r p cls bs ts group
  | .rstWrite bs ts => s.inboundWrite r p cls bs ts none
  | .rstFlag => match p with
    | .line .. => s.inboundAtom r p cls (.red .add 1) (leBytes 4 1) false
    | _ => .done .badAttribute s
  | .atom op ac x tag => s.inboundAtom r p cls (.atom op ac.toNat) (leBytes (atomBytes ac.toNat) x) tag
  | .cas ac a b tag =>
    s.inboundAtom r p cls (.cas ac.toNat) (leBytes (atomBytes ac.toNat) a ++ leBytes (atomBytes ac.toNat) b) tag
  | .drainAdd _ _ bs ts => match p with
    | .line l ofs =>
      if ts.any id && cls = .N then .done .poisonStore s else s.inboundArrive r [(l, inboundPart r l ofs bs ts none)]
    | _ => .done .badAttribute s
  | .lock ctx grid g L => match p with
    | .line l ofs => .pending (s.lockAt l ofs ⟨r.src, ctx, grid, g, L⟩ 0)
    | _ => .done .badAttribute s
  | .unlock ctx grid g L => match p with
    | .line l ofs => .pending (s.unlockAt l ofs ⟨r.src, ctx, grid, g, L⟩ 0)
    | _ => .done .badAttribute s
  | .clean | .inval => match p with
    | .line l _ => s.inboundMaint r l (r.op = .inval)
    | _ => .done (.done 0 0) s
  | .walk b step ptr crossings acq pkg op pasid =>
    s.inboundWalk ⟨b, BitVec.ofNat 64 ptr, BitVec.ofNat 64 ptr, step, crossings, acq⟩ pkg op pasid
  | .clear g sc => .done (.done 0 0) (s.clearMarks (peerGroup r.src g) sc)
  | .retire g => .done (.done 0 0) (s.freeMarks fun n => n = peerGroup r.src g)
  | .withdraw ctx grid g L =>
    let w : Locker := ⟨r.src, ctx, grid, g, L⟩
    if s.mem.locks.any fun x => x.holder = w then .done (.done 0 0) s
    else .done (.done 0 0) ((s.withdrawEntries fun x => x = w).answerLocker w .withdrawn)
  | .other => .done .absent s

/-- A request's offset does not matter to it, or not at once. -/
def inboundPlaceless : InboundOp → Bool
  | .walk .. | .clear .. | .retire .. | .withdraw .. => true
  | _ => false

/-- Execute an inbound request: its offset names a local-space address (R344). -/
def State.inbound (s : State) (r : Inbound) : Inb :=
  if inboundPlaceless r.op then s.inboundDo r (.host 0) .N
  else match s.decodeLocal r.off false with
    | .absent => .done .absent s
    | .changing => .wait s
    | .ok st e d => s.inboundDo r (if r.nc then .raw st e d else .line ⟨st, e, d / 128⟩ (d % 128)) (s.extent st e).cls

/-! The duplicate filter (R420). -/

def State.filterEntry (s : State) (src seq : Nat) : Option FilterEntry :=
  s.fab.filter.find? fun f => f.src = src && f.seq = seq

/-- A number is older than the 256 most recent ones before another. -/
def olderThan (new old : Nat) : Bool :=
  let d := (new + 2 ^ 32 - old) % 2 ^ 32
  decide (256 ≤ d) && decide (d < 2 ^ 31)

/-- A sequence number is older than the 256 most recent of its source. -/
def State.tooOld (s : State) (src seq : Nat) : Bool :=
  s.fab.filter.any fun f => f.src = src && !isLogged f.seq && olderThan f.seq seq

/-- Mark a request executed, with its answer if it has one; the filter keeps the 256 most recent numbers of its source, and
every request whose effect is still to come. -/
def State.marked (s : State) (r : Inbound) (ans : Option PeerAnswer) : State :=
  let keep := s.fab.filter.filter fun f =>
    f.ans.isNone || isLogged f.seq || isLogged r.seq || !(f.src = r.src && olderThan r.seq f.seq)
  let e : FilterEntry := ⟨r.src, r.seq, ans, if ans.isNone then some r else none⟩
  { s with fab := { s.fab with filter := keep ++ [e] } }

/-- A request that could not be executed yet is not marked. -/
def State.unmarked (s : State) (r : Inbound) : State :=
  { s with fab := { s.fab with filter := s.fab.filter.filter fun f => !(f.src = r.src && f.seq = r.seq) } }

/-! The FABRIC entries of a log (R387, R388). -/

/-- The operation that a log's bytes hold. -/
def loggedOp (k : Nat) (n : Nat → Nat) (b : List Byte) (t : List Bool) : Option InboundOp :=
  match k with
  | 0 => some (.read (n 0) (if n 2 = 1 then some (n 1) else none))
  | 1 => some (.write b t (if n 1 = 1 then some (n 0) else none))
  | 2 => some (.rstWrite b t)
  | 3 => some .rstFlag
  | 4 => some (.atom (waybillOp (n 0)) (BitVec.ofNat 4 (n 1)) (n 2) (n 3 = 1))
  | 5 => some (.cas (BitVec.ofNat 4 (n 0)) (n 1) (n 2) (n 3 = 1))
  | 6 => some (.lock (n 0) (n 1) (n 2) (n 3))
  | 7 => some (.unlock (n 0) (n 1) (n 2) (n 3))
  | 8 => some .clean
  | 9 => some .inval
  | 10 => some (.walk b (n 0) (n 1) (n 2) (n 3 = 1) (n 4) (n 5) (n 6))
  | 11 => (Scope.ofCode (n 1)).map fun sc => .clear (n 0) sc
  | 12 => some (.withdraw (n 0) (n 1) (n 2) (n 3))
  | 14 => some (.drainAdd (BitVec.ofNat 4 (n 0)) (leNat (b.take 128)) (b.drop 128) (t.drop 128))
  | 15 => some (.retire (n 0))
  | _ => none

/-- The request of a FABRIC entry. -/
def LogEntry.request (e : LogEntry) (pasid : Nat) : Option Inbound :=
  let f := fieldOf e.payload
  let n := f 80 4
  let b := (e.payload.drop 224).take n
  let t := ((e.payload.drop (224 + n)).take n).map fun x => decide (x = 1)
  (loggedOp (f 4 4) (fun i => f (8 + 8 * i) 8) b t).map fun op =>
    { src := f 0 4, seq := 2 ^ 32 + e.next, fabgen := 0, pasid := pasid, off := e.addr, nc := f 76 4 = 1, res := f 72 4, op := op }

/-- A replayed task holds the requests of its PASID at the port (R388). -/
def State.replayHolds (s : State) (pasid : Nat) : Bool :=
  s.disp.serials.any fun x => x.mode = .replay && (s.ctx x.ctx).pasid = pasid

/-- The FABRIC entry that is due before a replayed task's next issue: its COUNT has come (R388). -/
def State.loggedDue (s : State) (x : Serial) : Option LogEntry :=
  (s.logNext x).filter fun e => e.type = logFabric && decide (e.count ≤ x.count)

/-- The FABRIC entry that is due takes its effect; it is taken from the log once it has had it (R388). -/
def State.applyLogged (s : State) (x : Serial) : State :=
  match s.loggedDue x with
  | none => s
  | some e => match e.request (s.ctx x.ctx).pasid with
    | none => s.logTake x e
    | some r => match s.filterEntry r.src r.seq with
      | some f => if f.ans.isSome then (s.unmarked r).logTake x e else s
      | none => match (s.marked r none).inbound r with
        | .wait s | .retry s => s.unmarked r
        | .done _ s => (s.unmarked r).logTake x e
        | .pending s => s

/-! FABRIC_REQUEST_RECEIVE. -/

/-- Execute a request that is new, and answer it, at once or when it has had its effect. -/
def State.receive (s : State) (r : Inbound) : State :=
  match (s.marked r none).inbound r with
  | .wait s => s.unmarked r
  | .retry s => (s.unmarked r).send (.response r.src r.seq .retry)
  | .done ans s => (((s.unmarked r).logInbound r ans).marked r (some ans)).send (.response r.src r.seq ans)
  | .pending s => s

/-- A request that the duplicate filter judges (R420). -/
def State.filtered (s : State) (r : Inbound) : State :=
  match s.filterEntry r.src r.seq with
  | some f => match f.ans with
    | some a => s.send (.response r.src r.seq a)
    | none => s
  | none =>
    if s.tooOld r.src r.seq then s.log 7 LogAt.none 0
    else if s.replayHolds r.pasid then s
    else s.receive r

/-- FABRIC_REQUEST_RECEIVE (R416, R419, R420, R431). -/
def doFabricRequestReceive (r : Inbound) (s : State) : State :=
  if !s.yuren.ready then s.send (.response r.src r.seq .stale)
  else if r.op = .other then s.log 7 LogAt.none 0
  else if r.fabgen ≠ s.fab.fabgen then s.send (.response r.src r.seq .stale)
  else s.filtered r

def execFabricRequestReceive (r : Inbound) (s : State) : Out := .next (doFabricRequestReceive r s)

/-! Answers to this package's requests. -/

def State.fabReq? (s : State) (tgt seq : Nat) : Option FabReq :=
  s.fab.out.find? fun f => f.tgt = tgt && f.seq = seq && f.live

def State.onFab (s : State) (f : FabReq) (k : FabReq → FabReq) : State :=
  { s with fab := { s.fab with out := s.fab.out.map fun x => if x = f then k x else x } }

/-- The class of a group is express (R27). -/
def State.express (s : State) (gid : Nat) : Bool := (s.group? gid).any fun g => g.cls = 0

/-- The work of an express group. -/
def State.fabExpress (s : State) (w : FabWork) : Bool :=
  match w with
  | .req id => (s.req? id).any fun r => s.express r.gid
  | .op id .. | .flag id | .walk id => (s.op? id).any fun o => s.express o.gid
  | .clear gid .. => s.express gid
  | _ => false

/-- The key of the way to a package among the places of R381 (log 63). -/
def fabKey (tgt : Nat) : Nat := 2 ^ 20 + tgt

/-- A request that is out goes out again, by the port that its number now selects (R418, R420). -/
def State.redepart (s : State) (f : FabReq) : State :=
  let (x, s) := s.depart f
  s.onFab f fun _ => x

/-- A request that has waited for its turn goes out; an engine's judges then whether its target can be reached (R418). -/
def State.firstDepart (s : State) (f : FabReq) : State :=
  if f.work.parts && !s.reachable f.tgt then
    (s.onFab f fun f => { f with live := true, sent := s.ltick }).push [.event s.cur (.fabricResponse f.tgt f.seq .stale)]
  else s.redepart f

/-- The request is over: the oldest that waits for its target goes out (R420), an express one where its share is due
(R381). -/
def State.fabOver (s : State) (f : FabReq) : State :=
  let out := s.fab.out.erase f
  let s := { s with fab := { s.fab with out := out } }
  let ws := out.filter fun x => x.tgt = f.tgt && !x.live
  let first := if s.expressDue (fabKey f.tgt) then (ws.find? fun x => s.fabExpress x.work) <|> ws.head? else ws.head?
  match first with
  | some x => (s.granted (fabKey f.tgt) (s.fabExpress x.work)).firstDepart x
  | none => s

/-- The status of a counted operation for an answer (R257, R344, R419). -/
def answerStatus : PeerAnswer → Nat
  | .done .. => 0
  | .absent => 0x01
  | .permission => 0x02
  | .badAttribute => 0x03
  | .poisonStore => 0x05
  | _ => 0x04

/-- A register return: the value with a tag for each word, or 0 with the tag (R112, R344, R419). -/
def State.peerLoaded (s : State) (r : Req) (ans : PeerAnswer) : State :=
  match ans with
  | .done v t => s.loaded r (leBytes r.size v) ((List.range r.size).map fun i => bitOf t (i / 4))
  | _ => s.loaded r (List.replicate r.size 0) (List.replicate r.size true)

/-- A store's answer: one that names no address there, or whose poison cannot be held, is dropped with an entry in
the late-fault queue (R344). -/
def State.peerStored (s : State) (r : Req) (ans : PeerAnswer) : State :=
  let s := (s.release r).dropReq r.id
  match ans with
  | .absent => s.lateFault r.ctx r.va 0x01 EClass.F.code 8
  | .poisonStore => s.lateFault r.ctx r.va 0x05 EClass.F.code 0
  | _ => s

/-- What a lock unit's answer comes to at its lane (R238, R239, R344): a LOCK that is refused as stale, or finds no route,
returns like any other (R419). -/
def lockAnswerOf (unlock : Bool) (ans : PeerAnswer) : Option LockAns :=
  match ans with
  | .done .. => some (if unlock then .acked else .granted)
  | .withdrawn => none
  | .stale => some (if unlock then .notOwner else .granted)
  | _ => some (if unlock then .notOwner else .owner)

/-- A lock unit's answer, at its lane; a grant's package is one of the grid's (R240). -/
def State.peerLocked (s : State) (r : Req) (unlock : Bool) (tgt : Nat) (ans : PeerAnswer) : State :=
  let s := s.dropReq r.id
  let s := match ans, unlock, s.group? r.gid with
    | .done .., false, some g =>
      s.onGrid g.grid fun d => { d with peers := if d.peers.contains tgt then d.peers else d.peers ++ [tgt] }
    | _, _, _ => s
  match lockAnswerOf unlock ans with
  | some a => { s with mem := { s.mem with lockAns := s.mem.lockAns ++ [⟨r.gid, r.lane, a, r.va⟩] } }
  | none => s.onGroup r.gid fun g => g.setWait (1#32 <<< r.lane) .none

/-- A request's answer (R344, R419). -/
def State.reqAnswered (s : State) (r : Req) (tgt : Nat) (ans : PeerAnswer) : State :=
  match r.kind with
  | .load .. | .uload _ | .poll | .record => s.peerLoaded r ans
  | .store => s.peerStored r ans
  | .atom _ ac | .cas ac =>
    let n := atomBytes ac
    let s := s.release r
    match ans with
    | .done v t => s.atomDone r (leBytes n v) (t ≠ 0)
    | _ => s.atomDone r (leBytes n 0) true
  | .red .. | .drain .. =>
    let s := match r.op with
      | some id => (s.opFail id r.lane (answerStatus ans) r.va).opDone id
      | none => s
    (s.release r).dropReq r.id
  | .lock => s.peerLocked r false tgt ans
  | .unlock => s.peerLocked r true tgt ans

/-- A part of an operation is answered: a read's value is kept for it, a write is done; a copy's has made an open mark
(R110). -/
def State.opAnswered (s : State) (o : Op) (tgt idx va : Nat) (ans : PeerAnswer) : State :=
  let reads : Bool := match o.kind with
    | .cpy isIn .. => isIn
    | _ => false
  if reads then
    let g : OpGot := match ans with
      | .done v t => ⟨idx, v, t, 0, va⟩
      | _ => ⟨idx, 0, 0, answerStatus ans, va⟩
    s.onOp o.id fun o => { o with got := o.got ++ [g] }
  else
    let s := if o.kind.isCopy then s.onGroup o.gid fun g => { g.markPeer tgt with seq := g.seq + 1 } else s
    (s.opFail o.id idx (answerStatus ans) va).opDone o.id

/-- A forwarded walk is answered: the next package has it, or it ends here (R274, R419). -/
def State.walkAnswered (s : State) (id : Nat) (ans : PeerAnswer) : State :=
  let ok : Bool := match ans with
    | .done .. => true
    | _ => false
  match s.op? id with
  | some o => match o.kind with
    | .wbl w result gate => if ok || o.complete then s else s.walkBack o result gate (w.fail 0x04)
    | _ => s
  | none => match s.heldWalk? id with
    | some h => if ok then s.dropWalk id else (s.dropWalk id).send (.walkReturn h.src h.srcOp (h.bill.fail 0x04))
    | none => s

/-- A request of this package has its answer. -/
def State.fabAnswered (s : State) (f : FabReq) (ans : PeerAnswer) : State :=
  let s := s.fabOver f
  match f.work with
  | .req id => match s.req? id with
    | some r => s.reqAnswered r f.tgt ans
    | none => s
  | .op id idx va => match s.op? id with
    | some o => s.opAnswered o f.tgt idx va ans
    | none => s
  | .flag id => match s.op? id with
    | some o => match o.kind with
      | .rst _ flag .. => (s.opFail id o.pos (answerStatus ans) flag).opDone id
      | _ => s
    | none => s
  | .walk id => s.walkAnswered id ans
  | .lockFree _ | .retire _ | .withdraw _ => s
  | .clear gid sc n =>
    let told := fun (m : PeerMark) => if m.pkg = f.tgt then m.record sc n else m
    s.onGroup gid fun g => { g with peerMarks := g.peerMarks.map told }
  | .done ctx va _ => if answerStatus ans = 0 then s else s.lateFault ctx va 0x08 EClass.A.code (if ans = .absent then 8 else 0)

/-- A flit has passed: the replays of the ports count afresh. -/
def State.flitPassed (s : State) : State :=
  { s with fab := { s.fab with ports := s.fab.ports.map fun p => { p with replays := 0 } } }

/-- FABRIC_RESPONSE (R420): a retry is kept for sending again, any other answer completes the request. -/
def doFabricResponse (tgt seq : Nat) (ans : PeerAnswer) (s : State) : State :=
  match s.fabReq? tgt seq with
  | none => s
  | some f =>
    match ans with
    | .retry => s.flitPassed.onFab f fun f => { f with retry := true, sent := s.ltick }
    | _ => s.flitPassed.fabAnswered f ans

def execFabricResponse (tgt seq : Nat) (ans : PeerAnswer) (s : State) : Out := .next (doFabricResponse tgt seq ans s)

/-- The port that a request left by is retraining or down (R415), or it had none and there is one now. -/
def State.portLost (s : State) (f : FabReq) : Bool :=
  match f.port with
  | some k => s.fab.ports[k]?.any fun p => p.retraining || decide (p.lanes < 16)
  | none => !(s.routePorts f.tgt).isEmpty

/-- FABRIC_RESEND (R415, R420): after 50 µs, or when the request's port is lost. -/
def doFabricResend (tgt seq : Nat) (s : State) : State :=
  match s.fabReq? tgt seq with
  | none => s
  | some f => if f.retry || (decide (s.ltick < f.sent + 50000) && !s.portLost f) then s else s.redepart f

def execFabricResend (tgt seq : Nat) (s : State) : Out := .next (doFabricResend tgt seq s)

/-- The wait before a refused request is sent again (R421). -/
def retryDelay (tries : Nat) : Nat := 1000 * 2 ^ (min tries 6)

/-- A waybill that is sent again counts one more crossing; none when there are too many (R274, R421). -/
def State.recross (s : State) (f : FabReq) : Option State :=
  let bump := fun (w : Waybill) => { w with crossings := w.crossings + 1 }
  match f.work with
  | .walk id => match s.op? id with
    | some o => match o.kind with
      | .wbl w result gate =>
        if 16 < w.crossings + 1 then some ((s.fabOver f).walkBack o result gate ((bump w).fail 0x10)) else none
      | _ => none
    | none => match s.heldWalk? id with
      | some h =>
        if 16 < h.bill.crossings + 1 then
          some (((s.fabOver f).dropWalk id).send (.walkReturn h.src h.srcOp ((bump h.bill).fail 0x10)))
        else none
      | none => none
  | _ => none

/-- The waybill's count of crossings after it has been sent again. -/
def State.crossed (s : State) (f : FabReq) : State :=
  match f.work with
  | .walk id =>
    let s := s.onOp id fun o => { o with kind := match o.kind with
      | .wbl w r g => .wbl { w with crossings := w.crossings + 1 } r g
      | k => k }
    s.onWalk id fun h => { h with bill := { h.bill with crossings := h.bill.crossings + 1 } }
  | _ => s

/-- FABRIC_RETRY_RESEND (R421). -/
def doFabricRetryResend (tgt seq : Nat) (s : State) : State :=
  match s.fabReq? tgt seq with
  | none => s
  | some f =>
    if !f.retry || decide (s.ltick < f.sent + retryDelay f.tries) then s
    else match s.recross f with
      | some s => s
      | none =>
        let (x, s) := s.depart { f with retry := false, tries := f.tries + 1 }
        (s.onFab f fun _ => x).crossed f

def execFabricRetryResend (tgt seq : Nat) (s : State) : Out := .next (doFabricRetryResend tgt seq s)

/-- FABRIC_NO_ROUTE_TIMEOUT (R402, R419): no route for 1 ms. -/
def doFabricNoRouteTimeout (tgt seq : Nat) (s : State) : State :=
  match s.fabReq? tgt seq with
  | none => s
  | some f =>
    if (s.routePorts tgt).isEmpty && f.noRoute.any fun t => decide (t + 1000000 ≤ s.ltick) then
      (s.log 7 LogAt.none 0).fabAnswered f .stale
    else s

def execFabricNoRouteTimeout (tgt seq : Nat) (s : State) : Out := .next (doFabricNoRouteTimeout tgt seq s)

/-! Links. -/

def State.onPort (s : State) (k : Nat) (f : Port → Port) : State :=
  { s with fab := { s.fab with ports := s.fab.ports.mapIdx fun i p => if i = k then f p else p } }

/-- FLIT_REPLAY (R402, R415): the replay is logged; after 8 that failed the port retrains. -/
def doFlitReplay (port : Nat) (s : State) : State :=
  match s.fab.ports[port]? with
  | none => s
  | some p =>
    if p.retraining || decide (p.lanes < 16) then s
    else if p.replays = 8 then s.onPort port fun p => { p with retraining := true, replays := 0 }
    else (s.log 7 LogAt.none 0).onPort port fun p => { p with replays := p.replays + 1 }

def execFlitReplay (port : Nat) (s : State) : Out := .next (doFlitReplay port s)

/-- The widest of 64, 32 or 16 among some working lanes; fewer are none (R415). -/
def portWidth (lanes : Nat) : Nat := if 64 ≤ lanes then 64 else if 32 ≤ lanes then 32 else if 16 ≤ lanes then 16 else 0

/-- PORT_RETRAIN_DONE (R415). -/
def doPortRetrainDone (port lanes : Nat) (s : State) : State :=
  s.onPort port fun p => if p.retraining then ⟨portWidth lanes, false, 0⟩ else p

def execPortRetrainDone (port lanes : Nat) (s : State) : Out := .next (doPortRetrainDone port lanes s)

/-- A request crosses the die-to-die link: its executor is in another quarter (R402). -/
def Req.crosses (r : Req) : Bool := r.place.crosses r.core

/-- D2D_FLIT_REPLAY of a lane's request (R402, R404): after 8 that failed the flit's words are poisoned. -/
def State.reqFlit (s : State) (r : Req) : State :=
  let at_ := s.flitAt r.place
  if !r.crosses || decide (8 < r.replays) || (r.accepted && r.kind.isStore) then s
  else if r.replays < 8 then (s.log 7 at_ 0).onReq r.id fun r => { r with replays := r.replays + 1 }
  else
    let s := s.onReq r.id fun r => { r with replays := 9, tags := r.tags.map fun _ => true }
    (s.charge r.who 64).machineCheck r.who at_.addr at_

/-- The same of an operation's next flit, whose words its next access across the link finds poisoned (R402). -/
def State.opReplay (s : State) (o : Op) : State :=
  if o.complete || decide (8 < o.flits) then s
  else (if o.flits < 8 then s.log 7 LogAt.none 0 else s).onOp o.id fun o => { o with flits := o.flits + 1 }

/-- D2D_FLIT_REPLAY (R402, R404): the replay of a flit of a request or of an operation is logged. -/
def doD2dFlitReplay (id : Nat) (s : State) : State :=
  match s.req? id, s.op? id with
  | some r, _ => s.reqFlit r
  | none, some o => s.opReplay o
  | none, none => s

def execD2dFlitReplay (req : Nat) (s : State) : Out := .next (doD2dFlitReplay req s)

/-! The host link (R425, R431). -/

/-- The local-space address of a host physical address: device memory is one range of 2 TiB at HDMBASE (R424, R425). -/
def State.hostPa (s : State) (addr : Nat) : Option Nat :=
  if s.xl.tb.hdmBase ≤ addr && addr < s.xl.tb.hdmBase + 2 ^ 41 then some (addr - s.xl.tb.hdmBase) else none

/-- The host's read of bytes of a line, which it then caches. -/
def State.hostGets (s : State) (addr size : Nat) (l : LineId) (ofs : Nat) (b : List Byte) (t : Word) : State :=
  let s := if s.mem.hostLines.contains l then s
    else { s with mem := { s.mem with hostLines := s.mem.hostLines ++ [l] } }
  s.send (.readData addr ((b.drop ofs).take size) ((List.range size).any fun i => bitOf t ((ofs + i) / 4)))

/-- HOST_READ (R425): the data at its home slice, with CXL poison for a tagged byte and for an absent address; the
line is then one that the host caches. -/
def doHostRead (addr size : Nat) (s : State) : State :=
  let bad := HostMsg.readData addr (List.replicate size 0) true
  match if s.yuren.ready then s.hostPa addr else none with
  | none => s.send bad
  | some pa => match s.decodeLocal pa false with
    | .absent => s.send bad
    | .changing => s
    | .ok st e d =>
      let l : LineId := ⟨st, e, d / 128⟩
      if 128 < d % 128 + size then s.send bad
      else match s.line? l with
        | some x => (s.onLine l id).hostGets addr size l (d % 128) x.bytes x.poison
        | none => match s.passRows (s.lineRows l) (.walk (2 ^ 120 + addr)) with
          | .error s => s
          | .ok s => let ((b, t), s) := s.demandLine ⟨none, none⟩ l; s.hostGets addr size l (d % 128) b t

def execHostRead (addr size : Nat) (s : State) : Out := .next (doHostRead addr size s)

/-- HOST_WRITE (R425): a write at the home slice without an open mark. -/
def doHostWrite (addr : Nat) (bytes : List Byte) (poison : Bool) (s : State) : State :=
  match if s.yuren.ready then s.hostPa addr else none with
  | none => s
  | some pa => (lineParts pa bytes).foldl (fun s (a, b) => match s.decodeLocal a false with
      | .ok st e d =>
        if poison && (s.extent st e).cls = .N then s.log 3 { LogAt.none with addr := a } 0
        else
          let l : LineId := ⟨st, e, d / 128⟩
          let w : WriteOp :=
            { place := .line l (d % 128), bytes := b, tags := List.replicate b.length poison, marker := none, cleared := none
              req := none, op := none, peer := none, res := 3, maint := none, after := none }
          s.arrive l w ⟨none, none⟩
      | _ => s) s

/-- A part of a host write stands at the class decoder (R365). -/
def State.hostHeld (s : State) (addr n : Nat) : Bool :=
  (s.hostPa addr).any fun pa => (lineChunks pa n).any fun x => s.decodeLocal x.1 false = .changing

def execHostWrite (addr : Nat) (bytes : List Byte) (poison : Bool) (s : State) : Out :=
  .next (if s.hostHeld addr bytes.length then s else doHostWrite addr bytes poison s)

/-- BACK_INVALIDATE_ANSWER (R425): the host no longer caches the line. -/
def doBackInvalidateAnswer (l : LineId) (s : State) : State :=
  if s.mem.snoops.contains l then
    { s with mem := { s.mem with
      snoops := s.mem.snoops.filter (· ≠ l), hostLines := s.mem.hostLines.filter (· ≠ l) } }
  else s

def execBackInvalidateAnswer (line : LineId) (s : State) : Out := .next (doBackInvalidateAnswer line s)

end Sys2Proof.Machine
end

