-- ==== Sys2Proof/Machine/Bringup.lean ====
section
/-! DEFINITION. Resets (R430), bring-up and secure boot (R432, R433, R435, R436, R438), the management registers
(R434) and the mailbox (R437, R440, R441). -/

namespace Sys2Proof.Machine

/-! Images (R436; log 4 for their layout). -/

/-- Bytes of the key and of the signature of an image. -/
def keyBytes : Nat := 2592
def sigBytes : Nat := 4627

def imageVersion (b : List Byte) : Nat := fieldOf b keyBytes 4

/-- The body of an image: what stands between the version and the signature. -/
def imageBody (b : List Byte) : List Byte := (b.drop (keyBytes + 4)).take (b.length - keyBytes - 4 - sigBytes)

/-- The key's digest matches and the signature verifies. -/
def imageSigned (b : List Byte) : Bool :=
  let key := b.take keyBytes
  decide (keyBytes + 4 + sigBytes ≤ b.length) && Config.sha3_512 key = Config.romDigest
  && Config.mldsaVerify key (Config.sha3_512 ((b.drop keyBytes).take (b.length - keyBytes - sigBytes))).toList
      (b.drop (b.length - sigBytes))

/-- An image verifies against a version floor (R436). -/
def imageVerifies (b : List Byte) (floor : Nat) : Bool := imageSigned b && decide (floor ≤ imageVersion b)

/-- A measurement register extended by images in turn (R436). -/
def extendMr (m : List Byte) (bs : List (List Byte)) : List Byte :=
  bs.foldl (fun m b => (Config.sha3_512 (m ++ (Config.sha3_512 b).toList)).toList) m

/-- The device record's fields, from its body (R438; log 20 for their places). -/
def DevRecord.ofBody (b : List Byte) : DevRecord :=
  { serial := b.take 16, stepping := fieldOf b 16 4, defClass := fieldOf b 20 1, poolDef := min 16 (fieldOf b 21 1)
    linkMax := fieldOf b 22 2, dikCert := b.drop 24 }

/-! Resets (R430). -/

/-- Yuren as a reset leaves it: its store is kept, the measurement registers restart, and a command at work is
abandoned (R430, R441). After a cold reset what UPDATE wrote may run (R437). -/
def Yuren.afterReset (y : Yuren) (kind : Nat) : Yuren :=
  let update := y.mboxStat = 1 && y.mboxCmd = 1
  { y with
    ready := false, recovery := false, lastReset := kind, err := 0, stage := 0
    mboxStat := if y.mboxStat = 1 then 4 else y.mboxStat, outcome := 0, upload := [], quotedAt := none
    mr := List.replicate 4 (List.replicate 64 0)
    slotANew := y.slotANew && decide (kind ≠ 0), slotBNew := y.slotBNew && decide (kind ≠ 0)
    slotAOk := y.slotAOk && !(update && y.runsB), slotBOk := y.slotBOk && !(update && !y.runsB) }

/-- What neither reset touches: the model's counters, what has been sent, the fabric's working lanes, Yuren's store. -/
def State.afterReset (s : State) (kind : Nat) : State :=
  { State.reset with
    free := s.free, nextId := s.nextId, sent := s.sent, yuren := s.yuren.afterReset kind
    fab := { State.reset.fab with ports := s.fab.ports.map fun p => ⟨p.lanes, false, 0⟩ } }

/-- COLD_RESET (R430). -/
def execColdReset (s : State) : Out := .next (s.afterReset 0)

/-- PACKAGE_RESET (R430): stack contents and the structures in them are kept; dirty lines are lost. -/
def doPackageReset (s : State) : State :=
  let r := s.afterReset 1
  { r with
    mem := { r.mem with raw := s.mem.raw }
    rel := { r.rel with
      ext := s.rel.ext, strong := s.rel.strong }
    ctxs := (s.ctxs.map fun x => (x.1, { x.2 with frames := [] })).filter fun x => x.2 ≠ emptyCtx
    fab := { r.fab with self := s.fab.self % 2 ^ 31, porten := s.fab.porten, reach := s.fab.reach, route := s.fab.route } }

def execPackageReset (s : State) : Out := .next (doPackageReset s)

/-! Bring-up (R432, R433). -/

/-- Boot stops (R436). -/
def Yuren.stop (y : Yuren) (stage err : Nat) : Yuren := { y with recovery := true, stage := stage, err := err }

/-- What stands in a firmware slot: what UPDATE wrote, or the image from outside. -/
def slotImage (own img : List Byte) : List Byte := if own = [] then img else own

/-- Stage 1: slot A, then slot B (R436); what UPDATE wrote waits for a cold reset (R437). -/
def bootStage1 (y : Yuren) (img : BootImages) : Yuren :=
  let a := slotImage y.slotA img.slotA
  let b := slotImage y.slotB img.slotB
  let run := fun (x : List Byte) (isB : Bool) => { y with stage := 1, runsB := isB, version := imageVersion x }
  if y.slotAOk && !y.slotANew && imageVerifies a y.floor then run a false
  else if y.slotBOk && !y.slotBNew && imageVerifies b y.floor then run b true
  else y.stop 1 1

/-- The firmware that stage 1 chose. -/
def Yuren.running (y : Yuren) (img : BootImages) : List Byte :=
  if y.runsB then slotImage y.slotB img.slotB else slotImage y.slotA img.slotA

/-- The ERR that verifying an image of stage 2 ends in; `err` is the one of a bad signature (R435). -/
def imageErr (floor : Nat) (b : List Byte) (err : Nat) : Option Nat :=
  if !imageSigned b then some err else if imageVersion b < floor then some 2 else none

/-- The base-die firmware of the sixteen stacks, stack 0 first; what was not brought is empty and does not verify. -/
def baseImages (img : BootImages) : List (List Byte) := (List.range 16).map fun k => img.bases.getD k []

/-- Stage 2: the device record, then the firmware of the dies; the measurement registers are extended when all has
verified (R432, R436, R438). -/
def bootStage2 (y : Yuren) (img : BootImages) : Yuren :=
  if y.recovery then y
  else
    let r := DevRecord.ofBody (imageBody img.record)
    let bad := if imageVerifies img.record y.floor && r.serial ≠ Config.ownSerial then some 4 else imageErr y.floor img.record 3
    match bad with
    | some e => y.stop 2 e
    | none =>
      match (img.die :: img.dispatcher :: baseImages img).findSome? fun b => imageErr y.floor b 5 with
      | some e => { y with record := r }.stop 2 e
      | none =>
        { y with
          stage := 2, record := r
          mr := y.mr.zipWith extendMr [[y.running img], [img.record], [img.die, img.dispatcher], baseImages img] }

/-- Stage 3: the die-to-die links and the stacks train. -/
def bootStage3 (y : Yuren) (img : BootImages) : Yuren :=
  if y.recovery then y
  else if !img.dieTrainOk then y.stop 3 7
  else if !img.stackTrainOk then y.stop 3 6
  else { y with stage := 3 }

/-- The class of an extent at a cold reset (R433). -/
def bootClass (r : DevRecord) (stack e : Nat) : ExtClass :=
  if stack = 0 && e = 0 then .P
  else if 256 - r.poolDef ≤ e then .pool
  else match r.defClass with
    | 0 => .N
    | 1 => .D
    | _ => .P

/-- The translation block of R433. -/
def bootBlock : TBlock :=
  { pasidTab := 0x1010000, pasidCount := 0, hdmBase := 0, peerBase := 0
    wins := [⟨0, 0⟩, ⟨0, 0⟩, ⟨0, 1⟩], slotList := 0x1000000, profiles := List.replicate 4 ⟨0, 0, 0, 0, 0, 0, 0, 0, 0, 0, 0, true⟩ }

/-- The bytes of the translation block of R433. -/
def bootBlockBytes : List Byte :=
  leBytes 8 0x1010000 ++ List.replicate 0x38 0 ++ leBytes 8 0 ++ leBytes 4 1 ++ leBytes 4 0 ++ leBytes 8 0x1000000
  ++ List.replicate 168 0

/-- The record of context 0 (R433). -/
def bootContextBytes : List Byte :=
  leBytes 4 0 ++ leBytes 4 0x80000000 ++ leBytes 8 0 ++ leBytes 8 0x2000000 ++ leBytes 8 0x1000000 ++ leBytes 8 0x1F00000
  ++ List.replicate 216 0

/-- The decoder's copies that let bring-up reach the bootstrap extent. -/
def State.bootDecoder (s : State) : State :=
  { s with xl := { s.xl with tb := bootBlock, slots := sset emptySlot [] (4096 * 2) ⟨true, false, 0, 0⟩ } }

/-- The classes of every extent. -/
def bootExtents (r : DevRecord) : SMap Extent :=
  (List.range 4096).filterMap fun i =>
    let x : Extent := ⟨bootClass r (i / 256) (i % 256), false⟩
    if x = Extent.reset then none else some (i, x)

/-- Stage 4 of a cold reset: every extent is formatted, and the bootstrap structures are written (R433). -/
def State.bootCold (s : State) : State :=
  let r := s.yuren.record
  let s := { s with mem := { s.mem with raw := [] }, rel := { s.rel with ext := bootExtents r } }
  let s := s.bootDecoder
  let s := s.devWrite 0 bootBlockBytes
  let s := s.devWrite 0x100 bootContextBytes
  let s := s.devPut (0x1000000 + 8192 * 2) 2 0x8000
  let s := s.devWrite 0x1006000 ((List.range 4096).map fun i => BitVec.ofNat 8 (bootClass r (i / 256) (i % 256)).code)
  { s with ctxs := sset emptyCtx [] 0 (emptyCtx.ofBytes bootContextBytes) }

/-- The extent that a state byte names (R394). -/
def Extent.ofByte (b : Nat) : Extent := ⟨classOfByte b, natBit b 7⟩

/-- The classes of every extent as the extent state table has them; a line of it that cannot be read leaves the copies. -/
def State.loadExtents (s : State) : State :=
  (List.range 32).foldl (fun s i =>
    let (b, t) := s.devRead (s.extByte 0 (128 * i)) 128
    if t then s
    else (List.range 128).foldl (fun s j => s.onExtent 0 (128 * i + j) fun _ => Extent.ofByte (fieldOf b j 1)) s) s

/-- Stage 4 of a package reset: the units load their copies of the structures that were kept (R430); SELF.VALID and
FABGEN become 0. -/
def State.bootKept (s : State) : State :=
  let s := s.bootDecoder
  let s := (((s.loadSlots 0 12288).loadBlock).loadRel).loadExtents
  let s := (0 :: s.ctxs.map (·.1)).foldl (fun s n =>
    let (b, t) := s.devRead (256 * (n + 1)) 256
    if t then s else s.onCtx n fun x => x.ofBytes b) s
  let f := slotList s + 0x7800
  let s := (s.devPut f 4 (s.devNat f 4 % 2 ^ 31)).devPut (f + 4) 4 0
  let (b, t) := s.devRead f 2048
  if t then s else { s with fab := s.fab.ofBytes b }

/-- BRING_UP (R432): the stages in order, to READY or to recovery. -/
def doBringUp (img : BootImages) (s : State) : State :=
  if s.yuren.ready || s.yuren.recovery || s.yuren.stage ≠ 0 then s
  else
    let y := bootStage3 (bootStage2 (bootStage1 s.yuren img) img) img
    let s := { s with yuren := y }
    if y.recovery then s
    else
      let t := if y.lastReset = 0 then s.bootCold else s.bootKept
      { t with
        mem := { t.mem with watch := [] }, agenda := s.agenda
        yuren := { y with stage := 7, ready := true } }

def execBringUp (img : BootImages) (s : State) : Out := .next (doBringUp img s)

/-! Management registers (R434, R435). -/

/-- BOOTSTAT (R435). -/
def Yuren.bootstat (y : Yuren) : Nat :=
  (if y.ready then 2 ^ 31 else 0) + (if y.recovery then 2 ^ 30 else 0) + 2 ^ 28 * y.lastReset + 256 * y.err + y.stage

/-- What a management register reads (R434): MGMTID, BOOTSTAT, RESETCTL as 0, STEPPING and the mailbox; the rest of the
region as 0. -/
def State.registerRead (s : State) (off : Nat) : Word :=
  let y := s.yuren
  if off = 0x0000 then 0x4B4A0100#32
  else if off = 0x0004 then BitVec.ofNat 32 y.bootstat
  else if off = 0x000C then BitVec.ofNat 32 y.record.stepping
  else if off = 0x0010 then y.mboxCmd
  else if off = 0x0014 then BitVec.ofNat 32 y.mboxStat
  else if off = 0x0018 then BitVec.ofNat 32 y.mboxLen
  else if 0x2000 ≤ off ∧ off < 0x4000 then
    BitVec.ofNat 32 (leNat ((List.range 4).map fun i => sget 0 y.mboxBuf (off - 0x2000 + i)))
  else 0

/-- The event of a mailbox command (R437, R440). -/
def mboxEvent (cmd : Nat) : Option Instr :=
  match cmd with
  | 1 => some .mboxUpdate | 2 => some .mboxFloor | 3 => some .quote
  | 4 => some .aliasCert | 5 => some .dikcert | 6 => some .idekey
  | _ => none

/-- A write to MBOXCMD starts a command; one while another runs is refused, and so are other values (R440, R441). -/
def State.mboxStart (s : State) (x : Word) : State :=
  if s.yuren.mboxStat = 1 then s
  else match mboxEvent x.toNat with
    | some i => ({ s with yuren := { s.yuren with mboxCmd := x, mboxStat := 1, outcome := 0 } }).push [.event s.cur i]
    | none => { s with yuren := { s.yuren with mboxCmd := x, mboxStat := 3 } }

/-- REGISTER_WRITE (R434): a host write of a management register. -/
def doRegisterWrite (off : Nat) (x : Word) (s : State) : State :=
  if off = 0x0008 then
    if x = 0x5A#32 then s.push [.event s.cur .packageReset]
    else if x = 0xC0#32 then s.push [.event s.cur .coldReset] else s
  else if off = 0x0010 then s.mboxStart x
  else if off = 0x0018 then
    if x.toNat ≤ 8192 then { s with yuren := { s.yuren with mboxLen := x.toNat } } else s
  else if 0x2000 ≤ off ∧ off < 0x4000 ∧ off % 4 = 0 then
    { s with yuren := { s.yuren with mboxBuf := (List.range 4).foldl (fun m i =>
        sset 0 m (off - 0x2000 + i) (x.extractLsb' (8 * i) 8)) s.yuren.mboxBuf } }
  else s

def execRegisterWrite (offset : Nat) (value : Word) (s : State) : Out := .next (doRegisterWrite offset value s)

/-! The mailbox. -/

/-- The bytes in MBOXBUF. -/
def Yuren.boxed (y : Yuren) : List Byte := (List.range y.mboxLen).map fun i => sget 0 y.mboxBuf i

/-- Put an answer in MBOXBUF, which holds 8,192 bytes (R434; log 38). -/
def Yuren.answer (y : Yuren) (b : List Byte) : Yuren :=
  let b := b.take 8192
  { y with mboxBuf := (b.zipIdx).foldl (fun m (x, i) => sset 0 m i x) [], mboxLen := b.length, outcome := 2 }

/-- Work of a command that is running and has not been done. -/
def State.onMbox (s : State) (cmd : Nat) (f : Yuren → Yuren) : State :=
  let y := s.yuren
  if y.mboxStat = 1 && y.mboxCmd.toNat = cmd && y.outcome = 0 then { s with yuren := f y } else s

/-- UPDATE (R437): pieces of 8,192 bytes are collected; a shorter one ends the image, which is verified first. -/
def updateWork (y : Yuren) : Yuren :=
  let img := y.upload ++ y.boxed
  if y.mboxLen = 8192 then { y with upload := img, outcome := 2 }
  else
    let y := { y with upload := [] }
    if !imageVerifies img y.floor then { y with outcome := 3 }
    else if y.runsB then { y with slotA := img, slotAOk := true, slotANew := true, outcome := 2 }
    else { y with slotB := img, slotBOk := true, slotBNew := true, outcome := 2 }

/-- MBOX_UPDATE (R437). -/
def execMboxUpdate (s : State) : Out := .next (s.onMbox 1 updateWork)

/-- MBOX_FLOOR (R437): the floor never falls. -/
def execMboxFloor (s : State) : Out :=
  .next (s.onMbox 2 fun y => { y with floor := max y.floor y.version, outcome := 2 })

/-- The signed part of a quote (R440). -/
def quoteBytes (s : State) (y : Yuren) : List Byte :=
  (List.range 64).map (fun i => sget 0 y.mboxBuf i) ++ y.mr.flatten ++ leBytes 8 s.ltick ++ leBytes 4 s.fab.self
  ++ leBytes 4 s.fab.fabgen

/-- QUOTE (R440); refused before STAGE 2 ends, and no two quotes carry one LTICK (R441): the command goes on until the
clock has moved. -/
def execQuote (s : State) : Out :=
  .next (s.onMbox 3 fun y =>
    if y.stage < 3 then { y with outcome := 3 }
    else if y.quotedAt = some s.ltick then y
    else
      let q := quoteBytes s y
      { y.answer (q ++ (Config.aliasSign y.secret y.mr (Config.sha3_512 q).toList).toList) with quotedAt := some s.ltick })

/-- The alias certificate: both public alias keys, signed by the identity key (R439; log 4). -/
def Yuren.aliasCert (y : Yuren) : List Byte :=
  let keys := (Config.aliasPublic y.secret y.mr).toList ++ Config.aliasEncap y.secret y.mr
  keys ++ (Config.identitySign y.secret (Config.sha3_512 keys).toList).toList

/-- ALIAS_CERT (R440): the alias keys stand once every measurement does (R439). -/
def execAliasCert (s : State) : Out :=
  .next (s.onMbox 4 fun y => if y.stage < 3 then { y with outcome := 3 } else y.answer y.aliasCert)

/-- DIKCERT (R440), from the device record (R438). -/
def execDikcert (s : State) : Out :=
  .next (s.onMbox 5 fun y => if y.stage < 3 then { y with outcome := 3 } else y.answer y.record.dikCert)

/-- IDEKEY (R440): a key for one protocol of the CXL link; there are no alias keys before every measurement stands. -/
def execIdekey (s : State) : Out :=
  .next (s.onMbox 6 fun y =>
    match if y.stage < 3 then none else Config.mlkemDecap y.secret y.mr y.boxed with
    | some k => { y with ideKeys := y.ideKeys ++ [(Config.ideLink y.boxed, k)], outcome := 2 }
    | none => { y with outcome := 3 })

/-- MBOX_COMMAND_DONE (R441): MBOXSTAT shows done or refused. -/
def doMboxCommandDone (s : State) : State :=
  let y := s.yuren
  if y.mboxStat = 1 && y.outcome ≠ 0 then { s with yuren := { y with mboxStat := y.outcome, outcome := 0 } } else s

def execMboxCommandDone (s : State) : Out := .next (doMboxCommandDone s)

end Sys2Proof.Machine
end

