-- ==== Sys2Proof/Machine/Timing.lean ====
section
/-! DEFINITION. The pipes that a word needs and how long it holds them (R30, R45 to R47, R75, R228, R249, R252). -/

namespace Sys2Proof.Machine

/-- What a word asks of the pipes (R30). -/
structure Demand where
  int : Nat
  fma : Nat
  mem : Nat
  mat : Nat
  deriving DecidableEq, Repr

/-- A pair word's demands: one a slot, two integer slots together one. -/
def pairDemand (x y : Slot) : Demand :=
  { int := if x.pop.isFma && y.pop.isFma then 0 else 1
    fma := (if x.pop.isFma then 1 else 0) + (if y.pop.isFma then 1 else 0), mem := 0, mat := 0 }

/-- An R-form word's pipe; MMAG holds the memory pipe while it gathers (R252). -/
def rDemand (d : RDesc) (o : RForm) : Demand :=
  if d.op = 0x1B || (d.op = 0x35 && o.ty = .f32) || (decide (0x40 ≤ d.op) && decide (d.op ≤ 0x4C)) then ⟨0, 1, 0, 0⟩
  else if decide (0x65 ≤ d.op) && decide (d.op ≤ 0x6B) then ⟨0, 0, 1, 0⟩
  else if d.op = 0x73 then ⟨0, 0, 1, 1⟩
  else if d.op = 0x71 || d.op = 0x72 || d.op = 0x76 then ⟨0, 0, 0, 1⟩
  else ⟨1, 0, 0, 0⟩

/-- The pipes of a word (R30). -/
def demandOf (i : Instr) : Demand :=
  match i.view with
  | .pair x y => pairDemand x y
  | .r d o => rDemand d o
  | .m d _ => if d.op = 0x75 then ⟨0, 0, 0, 1⟩ else ⟨0, 0, 1, 0⟩
  | .e .. => ⟨0, 0, 1, 0⟩
  | .rep _ | .i .. | .b .. => ⟨1, 0, 0, 0⟩
  | .other => ⟨0, 0, 0, 0⟩

/-- A word of major 0x7E other than SGET and SPUT (R29). -/
def isSystem (i : Instr) : Bool :=
  match i.view with
  | .r d _ => d.op = 0x7E && decide (2 ≤ d.fn)
  | _ => false

/-- The lane registers that a word reads (R29, R46). -/
def laneReads (i : Instr) : List Nat :=
  (i.reads.filterMap fun r => match r with
    | .v n => some n
    | _ => none).eraseDups

/-- The most distinct registers of one bank (R46). -/
def bankLoad (rs : List Nat) : Nat := (rs.map fun n => (rs.filter fun m => m % 4 = n % 4).length).foldl max 0

/-- `e` of R46. -/
def extraReads (i : Instr) : Nat := bankLoad (laneReads i) - 1

/-- How long a word holds its pipe, its latency, and its gather (R45, R252). -/
structure Timing where
  occ : Nat
  lat : Nat
  gather : Nat
  deriving DecidableEq, Repr

/-- Entries that the fullest bank serves (R75). -/
def waves (dist : Bool) (ws : List Nat) : Nat :=
  let ws := if dist then ws.eraseDups else ws
  (ws.map fun w => (ws.filter fun x => x % 192 = w % 192).length).foldl max 1

/-- The wavefronts of a scratchpad word (R75). -/
def wavesOf (g : Group) (o : MForm) (act : Word) (dist : Bool) (size : Nat) : Nat :=
  waves dist ((lanesOf act).flatMap fun L => (List.range (max 1 (size / 4))).map fun i => offN g o L / 4 + i)

/-- The cycles of a tile transfer (R249); a stored tile has scale vectors by its format tag. -/
def tileCycles (g : Group) (o : MForm) (storesTile : Bool) : Nat :=
  let blk := fun i => (tileRowOff g o i).toNat / 64 % 12
  ((List.range 16).map fun i => if blk (2 * i) = blk (2 * i + 1) then 2 else 1).foldl (· + ·) 0
    + (if o.ac = 5 || (storesTile && (rdT g o.d.toNat).fmt = tagOf .mx4) then 1 else 0)

/-- The gather cycles of MMAG (R252). -/
def gatherCycles (g : Group) (r : Nat) : Nat :=
  let os := ((List.range 32).map fun L => (rdV g r L).val.toNat).eraseDups
  (os.map fun a => (os.filter fun b => b / 64 % 12 = a / 64 % 12).length).foldl max 1

def rTiming (g : Group) (d : RDesc) (o : RForm) : Timing :=
  let op := if 0x20 ≤ d.op ∧ d.op ≤ 0x2A then d.op - 0x10 else d.op
  if op = 0x12 then (if d.fn = 2 || d.fn = 5 || o.ty.regs = 2 then ⟨2, 8, 0⟩ else ⟨1, 6, 0⟩)
  else if op = 0x1B then ⟨1, 6, 0⟩
  else if op = 0x32 then ⟨1, 8, 0⟩
  else if op = 0x34 then ⟨4, 12, 0⟩
  else if op = 0x35 then ⟨5, if o.ty = .f32 then 30 else 20, 0⟩
  else if 0x48 ≤ op ∧ op ≤ 0x4B then ⟨1, 8, 0⟩
  else if 0x40 ≤ op ∧ op ≤ 0x4C then ⟨1, 6, 0⟩
  else if op = 0x72 then ⟨32, 48, 0⟩
  else if op = 0x73 then let n := gatherCycles g o.a.toNat; ⟨n + 32, n + 48, n⟩
  else if op = 0x76 then ⟨8, 16, 0⟩
  else if op = 0x7E then ⟨1, 8, 0⟩
  else ⟨1, 4, 0⟩

/-- A word of M-form; a latency of 0 says that nothing returns at a cycle known at issue. -/
def mTiming (g : Group) (d : MDesc) (o : MForm) (act : Word) : Timing :=
  let size := acSize o.ac.toNat
  if d.op = 0x50 && o.sp then let w := wavesOf g o act true size; ⟨w, 23 + w, 0⟩
  else if d.op = 0x51 && o.sp then ⟨wavesOf g o act true size, 0, 0⟩
  else if (d.op = 0x60 || d.op = 0x62) && o.sp then let w := wavesOf g o act false (atomBytes o.ac.toNat); ⟨w, 39 + w, 0⟩
  else if d.op = 0x61 && o.sp then ⟨wavesOf g o act false (atomBytes o.ac.toNat), 0, 0⟩
  else if d.op = 0x63 then let w := wavesOf g o act false 4; ⟨w, if d.dWrite then 39 + w else 0, 0⟩
  else if d.op = 0x70 then let n := tileCycles g o (d.mfn = 1); ⟨n, 24 + n, 0⟩
  else if d.op = 0x74 then ⟨2, 0, 0⟩
  else if d.op = 0x75 then ⟨32, 48, 0⟩
  else ⟨1, 0, 0⟩

def eTiming (d : EDesc) : Timing :=
  if d.op = 0x7B then ⟨2, 0, 0⟩
  else if d.op = 0x79 && decide (d.efn ≤ 1) then ⟨1, 40, 0⟩
  else if d.op = 0x7C && d.efn = 5 then ⟨1, 1500, 0⟩
  else if d.op = 0x7D then ⟨1, 120, 0⟩
  else ⟨1, 0, 0⟩

/-- The timing of a word. -/
def timingOf (g : Group) (i : Instr) (act : Word) : Timing :=
  match i.view with
  | .r d o => rTiming g d o
  | .i .. => ⟨1, 4, 0⟩
  | .m d o => mTiming g d o act
  | .e d _ => eTiming d
  | .b .. => ⟨1, 1, 0⟩
  | .pair .. | .rep _ | .other => ⟨1, 1, 0⟩

/-- The latency of a pair slot's class (R45). -/
def slotLatency (x : Slot) : Nat := if x.pop.isFma then 6 else 4

/-- What a pending write of a word waits for, for the stall codes (R50; log 24). -/
def sourceOf (i : Instr) : PendSrc :=
  match i.view with
  | .m d _ => if d.op = 0x70 || d.op = 0x75 then .matrix else .scratch
  | .r d _ => if d.op = 0x72 || d.op = 0x73 then .mma else if d.op = 0x71 || d.op = 0x76 then .matrix else .result
  | .e .. => .global_
  | _ => .result

/-- A tile, of either kind. -/
def isTile : RegName → Bool
  | .t _ | .a _ => true
  | _ => false

/-- The writes that a word issued in cycle `t` leaves pending, and the tiles that it reads until then (R242; log 24). -/
def pendsOf (g : Group) (i : Instr) (act : Word) (t : Nat) : List PendWrite :=
  let e := extraReads i
  match i.view with
  | .pair x y =>
    [⟨.v x.pd.toNat, .at (t + slotLatency x + e), .result⟩, ⟨.v y.pd.toNat, .at (t + slotLatency y + e), .result⟩]
  | _ =>
    let n := (timingOf g i act).lat
    if n = 0 then []
    else i.writes.map (fun r => ⟨r, .at (t + n + e), sourceOf i⟩)
      ++ (i.reads.filter isTile).map fun r => ⟨r, .at (t + n + e), .used⟩

/-- The lanes of an issue that a word's guard makes active (R25). -/
def activeIn (g : Group) (i : Instr) (lanes : Word) : Word :=
  match i.view.guard with
  | some gd => activeOf g { Cur.none with lanes := lanes } gd
  | none => lanes

/-- The class in which a word is counted (R114, R117); RED may reach two (`redClass`). -/
def countedClass : Instr → Option EClass
  | .cpyIn _ | .cpyOut _ => some .K
  | .wbl _ | .wblAcq _ => some .W
  | .rst _ => some .F
  | .redx _ | .clean _ | .inval _ => some .A
  | .mrs _ | .imxLoad _ | .imxVec _ | .imxRun _ | .imxBcast _ | .imxCollect _ | .mswitchBank _ | .mswitchCtl _ => some .B
  | .tdrain _ | .tdrainAdd _ | .tdrainAddSplit _ => some .M
  | _ => none

end Sys2Proof.Machine
end

