-- ==== Sys2Proof/Machine/Outrider.lean ====
section
/-! DEFINITION. The outrider of a KP group (R405 to R407): which words it executes on its own registers, what the
leader's queue carries, and the comparison of the others. -/

namespace Sys2Proof.Machine

/-- What a word does in the leader and in the outrider (R406). -/
inductive KpKind where
  /-- Each executes it on its own registers. -/
  | own
  /-- The leader performs it once, and the outrider compares what it names and takes what it returned. -/
  | leads
  /-- The leader holds it until the outrider agrees. -/
  | held
  deriving DecidableEq, Repr

/-- How a word is paired (R406): register-only words, cross-lane words and transfers of control are each group's own; loads,
polls, GATE.PEEK, SGET, TDESC and the words on tiles are the leader's alone; every other word is held. -/
def kpWord (i : Instr) : KpKind :=
  match i with
  | .ld _ | .ldu _ | .yieldW _ | .gatePeek _ | .sget _ | .tdesc _ | .tdescAlias _ | .tld _ | .tst _ | .tzero _ | .mma _
  | .mmag _ | .tmask _ | .tdrain _ | .tdrainAdd _ | .tdrainAddSplit _ | .tcvt _ => .leads
  | i => match i.view with
    | .pair .. | .rep _ | .b .. => .own
    | .r d _ => if d.op = 0x03 || (decide (0x10 ≤ d.op) && decide (d.op ≤ 0x4C)) then .own else .held
    | .i d _ => if 0x10 ≤ d.op then .own else .held
    | _ => .held

/-- What a word names, as a group reads it: over its active lanes, and of a predicate the bits of the lanes that issue. -/
def seenBy (g : Group) (i : Instr) (lanes : Word) : RegVals := regVals g i.reads lanes (activeIn g i lanes)

/-- A queue entry (R405): PC, mask and word, the SRSEED streams, and what the word names. -/
def entryOf (g : Group) (c : Cur) (i : Instr) : OutEntry :=
  { pc := c.pc, mask := c.lanes, instr := i, rep := c.rep, seen := seenBy g i c.lanes, took := [], seq := none, done := true
    vals := (lanesOf c.lanes).map fun L => (64 + L, ⟨(g.lane L).rnd, false⟩) }

/-- A word of an issue that waits, as its group stood at the issue. -/
def stashOf (g : Group) (c : Cur) (i : Instr) : Stash :=
  { pc := c.pc, lanes := c.lanes, writes := i.writes, src := sourceOf i, seen := seenBy g i c.lanes }

/-- A stash is that of an issue. -/
def Stash.of (x : Stash) (c : Cur) : Bool := x.pc = c.pc && x.lanes &&& c.lanes ≠ 0

/-- The leader's lanes after the word, as two words each. -/
def laneTargets (g : Group) (m : Word) : List (Nat × TW) :=
  (lanesOf m).flatMap fun L =>
    let pc := (g.lane L).pc.toNat
    [(2 * L, ⟨BitVec.ofNat 32 pc, false⟩), (2 * L + 1, ⟨BitVec.ofNat 32 (pc / 2 ^ 32), false⟩)]

/-- A word that transfers control. -/
def isTransfer (i : Instr) : Bool :=
  match i.view with
  | .b .. => true
  | .r d _ => d.op = 0x03
  | _ => false

/-- Put an entry at the end of the leader's queue. -/
def Group.enqueue (g : Group) (e : OutEntry) : Group :=
  { g with outrider := g.outrider.map fun o => { o with queue := o.queue ++ [e] } }

/-- The leader has issued a word that the outrider will execute. -/
def State.outQueue (s : State) (before : Group) (i : Instr) : State :=
  let e := entryOf before s.cur i
  s.onGroup before.gid fun g =>
    g.enqueue (if isTransfer i then { e with vals := laneTargets g s.cur.lanes ++ e.vals } else e)

/-- The leader has issued a word that it holds: the word's lanes stand at it until the entry's turn (R406; log 45). -/
def State.holdWord (s : State) (g : Group) (i : Instr) : State :=
  s.onGroup g.gid fun x =>
    Group.enqueue { x.setWait s.cur.lanes .held with stash := x.stash ++ [stashOf g s.cur i] } (entryOf g s.cur i)

/-- A lane of an issue waits for a translation: the word is not performed yet. -/
def Group.walking (g : Group) (lanes : Word) : Bool := (lanesOf lanes).any fun L => (g.lane L).wait = .walk

/-- What the entry of a word that the leader alone performs holds once it has been tried: the values in its registers, and
the number of its accesses. -/
def OutEntry.performed (e : OutEntry) (before after : Group) (c : Cur) : OutEntry :=
  { e with
    took := regVals after e.instr.writes c.lanes (activeIn before e.instr c.lanes)
    seq := if after.seq = before.seq then none else some before.seq
    done := !after.walking c.lanes }

/-- The leader has performed a word, or waits for a translation of it; `again` says that it had waited. -/
def State.leadQueue (s : State) (before : Group) (i : Instr) (again : Bool) : State :=
  s.onGroup before.gid fun g =>
    if again then
      { g with outrider := g.outrider.map fun o => { o with queue := o.queue.map fun e =>
          if !e.done && e.pc = s.cur.pc && e.mask &&& s.cur.lanes ≠ 0 then e.performed before g s.cur else e } }
    else g.enqueue ((entryOf before s.cur i).performed before g s.cur)

/-- The entry at the head of a leader's queue, and the rest: words that a halting leader has not performed are passed over,
since it stands before them. -/
def Group.outHead (g : Group) : Option (Outrider × OutEntry × List OutEntry) :=
  g.outrider.bind fun o =>
    let q := match g.halt with
      | .halting _ => o.queue.filter (fun e : OutEntry => e.done)
      | _ => o.queue
    match q with
    | e :: es => if e.done then some (o, e, es) else none
    | [] => none

/-- The outrider's registers in the leader's place, its lanes at an entry's word. -/
def shadowGroup (g : Group) (o : Outrider) (e : OutEntry) : Group :=
  let g := mapLanes g fun L ln =>
    if bitOf e.mask L then { ln with pc := e.pc, k := 0, exited := false, rnd := (sget ⟨0, false⟩ e.vals (64 + L)).val } else ln
  { g with v := o.v, s := o.s, p := o.p, trap := none, outrider := none }

/-- The state in which an outrider executes its entry. -/
def State.shadow (s : State) (g : Group) (o : Outrider) (e : OutEntry) : State :=
  { s.onGroup g.gid fun _ => shadowGroup g o e with
    cur := { Cur.none with gid := g.gid, pc := e.pc, lanes := e.mask } }

/-- A mismatch (R407): nothing more leaves the group. In the catch-up of a halt it takes the place of the halt's own
cause (R337). -/
def State.mismatch (s : State) (g : Group) : State :=
  let w : Who := ⟨some g.ctx, some g.gid⟩
  let s := s.onGroup g.gid fun g =>
    let held := maskOf fun L => (g.lane L).wait = .held
    { g.setWait held .none with
      stash := g.stash.filter fun x => x.lanes &&& held = 0
      outrider := g.outrider.map fun o => { o with queue := [] } }
  let s := match g.halt with
    | .halting _ =>
      let (pc, lanes) := (((g.ranked g.paths).head?).getD (0#64, 0#32) : BitVec 64 × Word)
      takeTrap (s.onGroup g.gid fun g => { g with trap := none }) g.gid ⟨0x1B, lowest lanes, 0, 0⟩ pc
    | _ => raiseImprecise s g.gid 0x1B 0
  (s.charge w 256).log 9 LogAt.none g.ctx

/-- The outrider's registers as a group's. -/
def outReg (g : Group) (o : Outrider) : Group := { g with v := o.v, s := o.s, p := o.p }

/-- An outrider's registers become a group's, and it goes on to the rest of the queue. -/
def Outrider.next (o : Outrider) (x : Group) (rest : List OutEntry) : Outrider :=
  { o with v := x.v, s := x.s, p := x.p, queue := rest }

/-- The outrider has executed its entry in `t`: its registers are taken, and its lanes compared with the leader's. -/
def State.outriderDone (s t : State) (gid : Nat) (e : OutEntry) : State :=
  match s.group? gid, t.group? gid with
  | some g, some x =>
    let agree := x.trap.isNone
      && (!isTransfer e.instr || laneTargets x e.mask = e.vals.filter fun v => decide (v.1 < 64))
    let rest := (g.outHead.map (·.2.2)).getD []
    if agree then s.onGroup gid fun y => { y with outrider := y.outrider.map fun o => o.next x rest } else s.mismatch g
  | _, _ => s

/-- Leader and outrider agree on what a word names (R406). -/
def agreeOn (g : Group) (o : Outrider) (e : OutEntry) : Bool := seenBy (outReg g o) e.instr e.mask = e.seen

/-- The outrider compares a word that its leader has performed, and takes what it returned (R406): values that are still to
come are awaited by the outrider too. -/
def State.outriderTakes (s : State) (g : Group) (o : Outrider) (e : OutEntry) (rest : List OutEntry) : State :=
  if agreeOn g o e then
    let out := s.eng.reqs.filter fun r => r.gid = g.gid && e.seq = some r.seq
    let pend := g.pend.filter fun p => out.any fun r => p.ready = .req r.id
    let o' := { o.next ((outReg g o).putVals e.took) rest with pend := o.pend ++ pend }
    s.onGroup g.gid fun y => { y with outrider := some o' }
  else s.mismatch g

/-- Both hold the values that a held word has written, and await those that are still to come (R406). -/
def takeWritten (before g : Group) (i : Instr) (lanes : Word) : Group :=
  let new := g.pend.filter fun p => !before.pend.contains p
  { g with outrider := g.outrider.map fun o =>
      { o.next ((outReg g o).putVals (regVals g i.writes lanes (activeIn before i lanes))) o.queue with pend := o.pend ++ new } }

end Sys2Proof.Machine
end

