-- ==== Sys2Proof/Machine/Issue.lean ====
section
/-! DEFINITION. The issue stage of a side: which paths are ready, which issue, and what the cycle counts (R26 to R31,
R46 to R50, R386, R405). -/

namespace Sys2Proof.Machine

/-! What a path would issue. -/

/-- The word that a path finds (R140, R155, R156, R444). -/
inductive Fetched where
  /-- Not in the instruction cache. -/
  | missing
  /-- Carries the poison tag: the poison trap at its address. -/
  | poisoned
  /-- Illegal on its own. -/
  | illegal
  | word (i : Instr)
  /-- Repetition `n` of `cnt`; none where a stepped field leaves its legal set. -/
  | repeated (i : Option Instr) (n cnt : Nat)
  /-- Repetition `n` of `cnt` of a word that carries the poison tag (R91, R444). -/
  | spoiled (n cnt : Nat)
  deriving DecidableEq, Repr

/-- The least repeat progress among some lanes (R155). -/
def leastK (g : Group) (lanes : Word) : Nat :=
  ((lanesOf lanes).map fun L => (g.lane L).k).foldl min 64

/-- The lanes that issue: at a prefix, those of least progress (R155). -/
def issueLanes (g : Group) (lanes : Word) (w : Fetched) : Word :=
  match w with
  | .word (.rep _) | .repeated .. | .spoiled .. => maskOf fun L => bitOf lanes L && (g.lane L).k = leastK g lanes
  | _ => lanes

/-- What lanes of progress `k` find after a prefix. -/
def State.repetitionAt (s : State) (g : Group) (pc : BitVec 64) (o : RepForm) (k : Nat) : Fetched :=
  match s.fetchWord g.core g.pasid (pc + 8) with
  | none => .missing
  | some (w, tag) => if tag then .spoiled k o.count else .repeated (stepWord o w k) k o.count

/-- The word at a path's program counter. -/
def State.wordAt (s : State) (g : Group) (pc : BitVec 64) (lanes : Word) : Fetched :=
  match s.fetchWord g.core g.pasid pc with
  | none => .missing
  | some (w, tag) =>
    if tag then .poisoned
    else match decodeWord w with
      | .error _ => .illegal
      | .ok (.rep o) =>
        if leastK g lanes = 0 then
          (if (s.fetchWord g.core g.pasid (pc + 8)).isNone then .missing else .word (.rep o))
        else s.repetitionAt g pc o (leastK g lanes)
      | .ok i => .word i

/-- The instruction of a found word. -/
def Fetched.instr? : Fetched → Option Instr
  | .word i => some i
  | .repeated i _ _ => i
  | _ => none

/-! Serial issue (R386). -/

/-- The groups of a task in the order of their turns, from the one after the last turn. -/
def State.turnOrder (s : State) (x : Serial) : List Group :=
  let key := fun (g : Group) =>
    ((g.depth * 2 ^ 32 + ((s.grid? g.grid).map (·.accept)).getD 0) * 2 ^ 32 + g.teamId) * 16 + g.groupId
  let mine := s.groups.filter fun g => !g.ended && ((s.serialOf g.grid).any fun y => y.root = x.root)
  let sorted := mine.foldl (fun l g => (l.takeWhile fun h => decide (key h < key g)) ++ g ::
    (l.dropWhile fun h => decide (key h < key g))) []
  match s.group? x.turn with
  | none => sorted
  | some t => (sorted.filter fun g => decide (key t < key g)) ++ sorted.filter fun g => decide (key g ≤ key t)

/-- Everything that the task's last issue started has completed. -/
def State.taskQuiet (s : State) (x : Serial) : Bool :=
  let mine := fun (gid : Nat) => (s.serialOfGroup gid).any fun y => y.root = x.root
  s.eng.reqs.all (fun r => !mine r.gid) && s.eng.ops.all (fun o => !mine o.gid)
  && s.groups.all fun g => !mine g.gid || (!g.lanes.any (fun ln => !ln.exited && (ln.wait = .walk || ln.wait = .held))
    && g.outrider.all fun o => o.queue.isEmpty)

/-! Readiness. -/

/-- A lane stands in no wait, or its back-off is over (R175, R176); in serial issue a back-off ends at the turn. -/
def State.laneFree (s : State) (g : Group) (ln : Lane) : Bool :=
  match ln.wait with
  | .none => true
  | .yield _ | .backoff _ => backoffOver s ln g || (s.serialOf g.grid).isSome
  | _ => false

/-- A lane of the path stands in a poll, or in a back-off that is not over: the whole path is not ready (R25, R26, R175, R176). -/
def State.pathBacksOff (s : State) (g : Group) (lanes : Word) : Bool :=
  (lanesOf lanes).any fun L => (match (g.lane L).wait with
    | .yield _ | .backoff _ | .poll => true
    | _ => false) && !s.laneFree g (g.lane L)

/-- The lanes of a path that may issue: a debug step takes its own path only (R342). -/
def State.freeLanes (s : State) (g : Group) (p : BitVec 64 × Word) : Word :=
  let m := if s.pathBacksOff g p.2 then 0 else maskOf fun L => bitOf p.2 L && s.laneFree g (g.lane L)
  if g.stepFrame.isNone then m
  else match g.stepPath with
    | some (pc, lanes) => if pc = p.1 then m &&& lanes else 0
    | none => 0

/-- The paths of a group with the lanes that may issue, in the order of R28. -/
def State.freePaths (s : State) (g : Group) : List (BitVec 64 × Word) :=
  g.ranked ((g.paths.map fun p => (p.1, s.freeLanes g p)).filter fun p => p.2 ≠ 0)

/-- The group is not halted or halting, and nothing stands before its next issue (R26, R330, R342). -/
def State.mayIssue (s : State) (g : Group) : Bool :=
  !g.ended && g.trap.isNone
  && (match g.halt with
      | .running => g.imprecise = 0
      | .window _ => g.inWindow s.ltick && g.imprecise = 0
      | .halting .step => g.stepFrame.isSome
      | _ => false)
  && (s.team? g.team).any fun t => t.state = .running || t.state = .framing

/-- REL of tiles (R242). -/
def isTileRelease : Instr → Bool
  | .relOpt _ | .relAcc _ => true
  | _ => false

/-- A pending write is still to come in cycle `c`; the accumulator of an MMA or MMAG does not hold an MMA or MMAG that
accumulates into it (R26). A tile that a word still reads holds REL alone (R242). -/
def stillPending (i : Instr) (c : Nat) (p : PendWrite) : Bool :=
  let chained : Bool := match i, p.reg with
    | .mma o, .a n | .mmag o, .a n => p.src = .mma && o.d.toNat = n
    | _, _ => false
  (match p.ready with
    | .at u => decide (c < u)
    | .req _ => true) && !chained && (p.src ≠ .used || isTileRelease i)

/-- The stall codes of R50 that pending registers give; the table names none for a tile or accumulator that TLD, TZERO, TCVT,
MMA or MMAG has yet to write, or that a word still reads (log 24). -/
def PendSrc.code : PendSrc → Nat
  | .result => 0x32 | .scratch => 0x33 | .global_ => 0x34 | .matrix | .mma | .used => 0x35

/-- The stall code of a wait (R50, R176, R228, R365); the table has none for UNLOCK's acknowledgement, a translation, a
debug step or a comparison of the outrider's (log 24). -/
def Wait.code : Wait → Nat
  | .none | .held => 0x35
  | .yield _ | .backoff _ => 0x3A
  | .poll => 0x34
  | .waitc .. => 0x36
  | .gate .. => 0x37
  | .lock | .unlock => 0x3B
  | .barrier => 0x38
  | .acq => 0x39
  | .fence .. | .walk | .drop .. => 0x34
  | .step _ => 0x30

def minCode (cs : List Nat) : Option Nat :=
  cs.foldl (fun (m : Option Nat) c => if m.all fun x => decide (c < x) then some c else m) none

/-- Free pipes for one word, or for two (R30, R47). -/
def pipesFree (d : Side) (x : Demand) : Bool :=
  let c := d.cycle
  let fma := (if d.fmaBusy ≤ c then 1 else 0) + (if d.fmaBusy2 ≤ c then 1 else 0)
  (x.int = 0 || (decide (x.int ≤ 1) && decide (d.intBusy ≤ c)))
  && decide (x.fma ≤ fma)
  && (x.mem = 0 || (decide (x.mem ≤ 1) && decide (d.memBusy ≤ c)))
  && (x.mat = 0 || (decide (x.mat ≤ 1) && decide (d.matBusy ≤ c)))

/-- A lane of the issue waits for the return of an acquire, after which its later accesses come (R100). -/
def State.acquiring (s : State) (g : Group) (lanes : Word) : Bool :=
  s.eng.reqs.any fun r => r.gid = g.gid && r.acq && (bitOf lanes r.lane || r.also &&& lanes ≠ 0)

/-- The scope at which a word releases before it takes effect (R101, R105). -/
def releaseOf (i : Instr) : Option Scope :=
  let sp := fun (o : MForm) => if o.sp && ordRel o.ord then some Scope.t else none
  match i with
  | .barrier _ | .gateArrive _ => some .t
  | .st o | .atom _ o | .red _ o | .cas o => sp o
  | .unlock o => some o.sc
  | .tlbinv _ => some .h
  | .faultackRetry _ | .faultackSkip _ | .faultackRegion _ | .faultackKill _ | .faultackHold _ => some .d
  | _ => none

/-- The tiles that a word releases, which words issued before it may still be to write (R242). -/
def releasedTiles (g : Group) (i : Instr) : List RegName :=
  match i with
  | .relOpt o => (List.range o.c.toNat).map fun k => .t (g.j - 1 - k)
  | .relAcc o => (List.range o.c.toNat).map fun k => .a (g.m - 1 - k)
  | _ => []

/-- Where the accesses of a global word go, if it comes that far in the checks of R221. -/
def State.reaches (s : State) (g : Group) (act : Word) (i : Instr) : AllResolved :=
  let dest := fun (o : MForm) (n : Nat) (k : AccKind) (red : Bool) (m : Word) =>
    if o.sp || (glTrap g o n act).isSome then .ok [] else s.resolveAll g k red (globalAddr g o) (lanesOf m)
  match i with
  | .ld o => dest o (acSize o.ac.toNat) .read false (s.loadMiss g o act)
  | .ldu o => if act = 0 || (s.lduHit g o act).isSome then .ok []
      else dest o (acSize o.ac.toNat) .read false (1#32 <<< lowest act)
  | .yieldW o => dest o (acSize o.ac.toNat) .read false act
  | .st o => dest o (acSize o.ac.toNat) .write false act
  | .atom _ o | .cas o => dest o (atomBytes o.ac.toNat) .write false act
  | .red _ o => dest o (atomBytes o.ac.toNat) .write true act
  | .lock o | .unlock o => dest o 4 .write false act
  | .tdrain o => if o.sp || act = 0 then .ok [] else s.drainPlaces g o false false
  | .tdrainAdd o => if o.sp || act = 0 then .ok [] else s.drainPlaces g o true false
  | .tdrainAddSplit o => if act = 0 then .ok [] else s.drainPlaces g o true true
  | .grid o =>
    let a := uniPair g o.e2
    if (Instr.grid o).reads.any (regPoison g) || a % 128 ≠ 0 then .ok []
    else s.resolveAll g .read false (fun _ => a) (lanesOf act)
  | _ => .ok []

/-- The pages that an engine word looks at when it issues, where its values pass the checks before that (R267, R279). -/
def lookPages (g : Group) (act : Word) (i : Instr) : Option (AccKind × List Nat) :=
  if act = 0 || i.reads.any (regPoison g) then none
  else match i with
  | .rst o => if (rstCheck g o act).isSome then none else some (.write, rstPages g o)
  | .imxStat o => if (imxCheck 5 0 (uniN g o.e3) (uniN g o.e4) act).isSome then none
      else some (.read, (statUnits (imxSpan g o)).map (·.2))
  | _ => none

/-- A word that looks at pages is held at the class decoder (R365). -/
def State.lookStall (s : State) (g : Group) (pc : BitVec 64) (act : Word) (i : Instr) : List Nat :=
  match lookPages g act i with
  | some (k, vas) => if s.look g pc k vas = .stall then [0x34] else []
  | none => []

/-- Requests to a package that have not been acknowledged or have not gone out yet (R420). -/
def State.peerLoad (s : State) (n : Nat) : Nat :=
  (s.fab.out.filter fun f => f.tgt = n).length + (s.eng.reqs.filter fun r => !r.sent && r.away && (match r.place with
    | .peer k _ _ => k = n
    | _ => false)).length

/-- The package that a place lies in, if it is a peer's. -/
def Place.pkg? : Place → Option Nat
  | .peer n _ _ => some n
  | _ => none

/-- A word's requests to some package would be more than 256 that are not acknowledged (R420). -/
def State.peersFull (s : State) (as : List Acc) : Bool :=
  let ns := as.filterMap fun a => a.place.pkg?
  ns.any fun n => decide (256 < s.peerLoad n + (ns.filter (· = n)).length)

/-- Where an engine word's first address lies, of those that may be a peer's (R244, R262, R267). -/
def engineTarget (s : State) (g : Group) (act : Word) (i : Instr) : Option (Nat × AccKind) :=
  let copy := fun (o : EForm) (k : AccKind) =>
    let d := slotOf s g (uniN g o.e1)
    let w := (rdS g (o.e2.toNat + 1)).val.toNat
    let coord := [uniInt g o.e4.toNat, uniInt g (o.e4.toNat + 1), natSext (w % 65536) 16, natSext (w / 65536) 16]
    some ((d.place coord 0).2.2, k)
  match i with
  | .cpyIn o => copy o .read
  | .cpyOut o => copy o .write
  | .rst o => some (uniPair g o.e3, .write)
  | .clean o => some ((rangeOf g o (lowest act)).1.n, .read)
  | .inval o => some ((rangeOf g o (lowest act)).1.n, .write)
  | _ => none

/-- An engine word waits while the package that it names has 256 requests that are not acknowledged (R420; log 24). -/
def State.engineStall (s : State) (g : Group) (act : Word) (i : Instr) : List Nat :=
  if act = 0 then [] else match engineTarget s g act i with
  | some (va, k) => match s.translate g.core g.pasid va k with
    | .hit pa _ _ => match s.window pa with
      | .peer n _ => if 256 ≤ s.peerLoad n then [0x35] else []
      | _ => []
    | _ => []
  | none => []

/-- A word of TDRAIN, whose accesses come after an outstanding acquire like those of the memory pipe's words. -/
def isDrain : Instr → Bool
  | .tdrain _ | .tdrainAdd _ | .tdrainAddSplit _ => true
  | _ => false

/-- DBGSTEP or FAULTACK of a group that has a debug step out waits (R342; the table names no code, log 24). -/
def State.stepStall (s : State) (g : Group) (act : Word) (i : Instr) : List Nat :=
  let busy : Bool := match i with
    | .dbgstep o => (s.heldFrame (uniPair g o.a)).any Group.stepOut
    | .faultackRetry o | .faultackSkip o | .faultackRegion o | .faultackKill o | .faultackHold o =>
      (s.rec? (uniPair g o.a)).any s.recStepping
    | _ => false
  if act ≠ 0 && busy then [0x30] else []

/-- A word is held at the class decoder (R365), a RED by a full class that it reaches (R117), or a word by the requests that a
package has not acknowledged (R420; a drain's count as an engine's, log 24). -/
def State.targetStall (s : State) (g : Group) (pc : BitVec 64) (act : Word) (i : Instr) : List Nat :=
  (match s.reaches g act i with
  | .stall => [0x34]
  | .ok as =>
    (match i with
    | .red .. => if s.redFull g as then [0x35] else []
    | _ => [])
    ++ if s.peersFull as then [if isDrain i then 0x35 else 0x34] else []
  | _ => [])
  ++ s.lookStall g pc act i ++ s.engineStall g act i ++ s.stepStall g act i

/-- GRID is not ready while the task table is full (R280, R370). -/
def State.gridStall (s : State) (i : Instr) : List Nat :=
  match i with
  | .grid _ => if s.tableFull then [0x35] else []
  | _ => []

/-- Why a word may not issue in this cycle: the lowest code of R50 that applies, or nothing. The table names no code for the
next-word latency of R45 after a branch or a system word, for a release that is not performed, or for an outstanding acquire
(log 24). A leader that is 256 words ahead of its outrider waits (R405). -/
def State.wordStall (s : State) (g : Group) (lanes : Word) (i : Instr) : Option Nat :=
  let d := s.side (sideKey g.core g.side)
  let act := activeIn g i lanes
  let regs := i.reads ++ i.writes ++ releasedTiles g i
  let pends := (g.pend.filter fun p => regs.contains p.reg && stillPending i d.cycle p).map fun p => p.src.code
  let stashed := (g.stash.filter fun x => x.writes.any regs.contains).map fun x => x.src.code
  let late := if (lanesOf lanes).any fun L => decide (d.cycle < (g.lane L).readyAt) then [0x32] else []
  let acq := if ((demandOf i).mem ≠ 0 || isDrain i) && s.acquiring g lanes then [0x34] else []
  let rel := if (releaseOf i).all fun sc => s.allPerformed g act sc then [] else [0x34]
  let full := match countedClass i with
    | some c => if s.room g.gid c then [] else [0x35]
    | none => []
  let pipes := if pipesFree d (demandOf i) then [] else [0x35]
  let behind := if g.outrider.any fun o => decide (256 ≤ o.queue.length) then [0x35] else []
  let pc := (g.lane (lowest lanes)).pc
  minCode (pends ++ stashed ++ late ++ acq ++ rel ++ full ++ pipes ++ behind ++ s.targetStall g pc act i ++ s.gridStall i)

/-- Why a path may not issue (R26, R50). -/
def State.pathStall (s : State) (g : Group) (p : BitVec 64 × Word) : Option Nat :=
  if !s.mayIssue g then some 0x30
  else match s.wordAt g p.1 p.2 with
    | .missing => some 0x31
    | w => w.instr?.bind (s.wordStall g p.2)

/-- A path that may issue. -/
structure Pick where
  pc : BitVec 64
  path : Word
  lanes : Word
  word : Fetched
  deriving DecidableEq, Repr

/-- The ready paths of a group in the order of R28. -/
def State.readyPaths (s : State) (g : Group) : List Pick :=
  ((s.freePaths g).filter fun p => (s.pathStall g p).isNone).map fun p =>
    let w := s.wordAt g p.1 p.2
    ⟨p.1, p.2, issueLanes g p.2 w, w⟩

/-- The waiting instructions of a group test their conditions at its turn (R386). -/
def State.testTurn (s : State) (h : Group) : State :=
  let s := match s.team? h.team with
    | some t => s.onGroup h.gid (s.testGates t)
    | none => s
  let s := match canAcqGrant h.team h.side s with
    | some q => if q.gid = h.gid then s.acqGrant h.team h.side else s
    | none => s
  let cur := s.cur
  let s := (List.range 32).foldl (fun (s : State) L =>
    doFencePerformed (doLockGrant { s with cur := { cur with gid := h.gid, lane := L } })) s
  { s with cur := cur }

/-- The groups of a task take turns, up to the first that can issue (R386). -/
def State.testTurns (s : State) : List Group → State
  | [] => s
  | h :: hs =>
    let s := s.testTurn h
    if (s.group? h.gid).any fun g => !(s.readyPaths g).isEmpty then s else s.testTurns hs

/-- The turns of recorded and replayed tasks whose last issue has completed (R386). -/
def State.serialTurns (s : State) : State :=
  s.disp.serials.foldl (fun s x => if s.taskQuiet x then s.testTurns (s.turnOrder x) else s) s

/-- In serial issue only the first group of the turn order that can issue is ready, once the task is quiet and no
logged request is due (R386, R388). -/
def State.serialReady (s : State) (g : Group) : Bool :=
  match s.serialOf g.grid with
  | none => true
  | some x =>
    s.taskQuiet x && !(x.mode = .replay && (s.loggedDue x).isSome)
    && (match (s.turnOrder x).find? fun h => !(s.readyPaths h).isEmpty with
        | some h => h.gid = g.gid
        | none => false)

/-- The ready paths, under serial issue where the task has it. -/
def State.ready (s : State) (g : Group) : List Pick := if s.serialReady g then s.readyPaths g else []

/-- Why the outrider may not issue the entry at its queue's head (R26, R405). -/
def State.entryStall (s : State) (g : Group) (o : Outrider) (e : OutEntry) : Option Nat :=
  let d := s.side (sideKey g.core g.side)
  let regs := e.instr.reads ++ e.instr.writes
  let pends := (o.pend.filter fun p => regs.contains p.reg && stillPending e.instr d.cycle p).map fun p => p.src.code
  minCode (pends ++ if pipesFree d (demandOf e.instr) then [] else [0x35])

/-- The outrider may issue the entry at its queue's head (R405). -/
def State.outriderReady (s : State) (g : Group) : Option OutEntry :=
  let alive : Bool := match g.halt with
    | .halted _ | .framed _ => false
    | _ => true
  g.outHead.bind fun x => if alive && (s.entryStall g x.1 x.2.1).isNone then some x.2.1 else none

/-! Conflict (R29). -/

def Demand.plus (a b : Demand) : Demand := ⟨a.int + b.int, a.fma + b.fma, a.mem + b.mem, a.mat + b.mat⟩

def pickReads (p : Pick) : List Nat := (p.word.instr?.map laneReads).getD []
def pickDemand (p : Pick) : Demand := (p.word.instr?.map demandOf).getD ⟨0, 0, 0, 0⟩
def pickSystem (p : Pick) : Bool := p.word.instr?.any isSystem

/-- Two paths of one cycle are in conflict. -/
def conflict (d : Side) (p q : Pick) : Bool :=
  decide (1 < bankLoad (pickReads p ++ pickReads q).eraseDups)
  || !pipesFree d ((pickDemand p).plus (pickDemand q))
  || pickSystem p || pickSystem q

/-- What a cycle issues: the group, the paths, and the path that is carried. -/
structure Choice where
  gid : Nat
  picks : List Pick
  carry : Option Pick
  out : Option OutEntry
  deriving DecidableEq, Repr

/-- The two paths that R28 puts first, under R29. -/
def choosePaths (d : Side) (g : Group) (serial : Bool) (ps : List Pick) : Choice :=
  match ps with
  | [] => ⟨g.gid, [], none, none⟩
  | [p] => ⟨g.gid, [p], none, none⟩
  | p :: q :: _ =>
    if serial then ⟨g.gid, [p], none, none⟩
    else if !conflict d p q then ⟨g.gid, [p, q], none, none⟩
    else
      let n := fun (x : Pick) => (lanesOf x.path).length
      if n q < n p || (n p = n q && p.pc.toNat < q.pc.toNat) then ⟨g.gid, [p], some q, none⟩
      else ⟨g.gid, [q], some p, none⟩

/-- A carried path issues first; a path that joins it is carried in its turn where they conflict (R29). Of two paths that
issue, the one that R28 puts first comes first (R329). -/
def chooseCarried (d : Side) (g : Group) (pc : BitVec 64) (ps : List Pick) : Option Choice :=
  match ps.find? fun p => p.pc = pc with
  | none => none
  | some p => match (ps.filter fun q => q.pc ≠ pc).head? with
    | none => some ⟨g.gid, [p], none, none⟩
    | some q =>
      if conflict d p q then some ⟨g.gid, [p], some q, none⟩
      else some ⟨g.gid, if g.rankBefore (q.pc, q.path) (p.pc, p.path) then [q, p] else [p, q], none, none⟩

/-- The groups that count as resident in a side (R49): those of teams that are past their clearing (log 66). -/
def State.residents (s : State) (key : Nat) : List Group :=
  s.groups.filter fun g => sideKey g.core g.side = key && !g.ended
    && (s.team? g.team).any fun t => t.state = .running || t.state = .framing

/-- Candidates of R27: a group, or its outrider in the slot after it. -/
structure Cand27 where
  g : Group
  slot : Nat
  outr : Bool

/-- The groups and outriders of a side in the order of R27. -/
def rotation (last : Nat) (gs : List Group) : List Cand27 :=
  let cs := gs.flatMap fun g =>
    (⟨g, g.slot, false⟩ : Cand27) :: (if g.outrider.isSome then [⟨g, g.slot + 1, true⟩] else [])
  let key := fun (c : Cand27) => 8 * c.g.cls + (c.slot + 15 - last) % 8
  cs.foldl (fun l c => (l.takeWhile fun x => decide (key x ≤ key c)) ++ c ::
    (l.dropWhile fun x => decide (key x ≤ key c))) []

/-- What a candidate would issue. -/
def State.offer (s : State) (d : Side) (c : Cand27) : Option Choice :=
  if c.outr then (s.outriderReady c.g).map fun e => ⟨c.g.gid, [], none, some e⟩
  else match s.ready c.g with
    | [] => none
    | ps => some (choosePaths d c.g (s.serialOf c.g.grid).isSome ps)

/-- The choice of a cycle: the carried path, or the first candidate that has something to issue (R27, R29). -/
def State.choose (s : State) (key : Nat) (gs : List Group) : Option (Choice × Nat) :=
  let d := s.side key
  let carried := d.carried.bind fun (gid, pc) =>
    (gs.find? fun g => g.gid = gid).bind fun g => (chooseCarried d g pc (s.ready g)).map fun c => (c, g.slot)
  match carried with
  | some c => some c
  | none => ((rotation d.last gs).filterMap fun c => (s.offer d c).map fun x => (x, c.slot)).head?

/-! The cycle. -/

/-- Events of one issue of a word by the group in a slot, a leader or its outrider (R49). -/
def State.countIssue (s : State) (key slot : Nat) (g : Group) (i : Option Instr) (lanes : Word) (rep promoted : Bool) : State :=
  let n := fun (s : State) (code k : Nat) => if k = 0 then s else countEvent s key slot code k
  let one := fun (b : Bool) => if b then 1 else 0
  let act := (i.map fun i => activeIn g i lanes).getD 0
  let s := n s 0x04 1
  let s := n s 0x05 (one (i.any fun i => match i with
    | .pairWord .. => true
    | _ => false))
  let s := n s 0x06 (one rep)
  let s := n s 0x07 (lanesOf act).length
  let s := n s 0x08 (one promoted)
  n s 0x0A (one (i.any fun i => match i with
    | .mma _ | .mmag _ => true
    | _ => false))

/-- A side's pipes take a word of the group in a slot in its cycle (R45, R46). -/
def Side.take (d : Side) (g : Group) (slot : Nat) (i : Instr) (act : Word) : Side :=
  let x := demandOf i
  let t := timingOf g i act
  let c := d.cycle
  let d := if x.int ≠ 0 then { d with intBusy := c + t.occ } else d
  let fma := fun (d : Side) => if d.fmaBusy ≤ c then { d with fmaBusy := c + t.occ } else { d with fmaBusy2 := c + t.occ }
  let d := if x.fma = 0 then d else if x.fma = 1 then fma d else fma (fma d)
  let d := if x.mem ≠ 0 then { d with memBusy := c + (if x.mat ≠ 0 then t.gather else t.occ) } else d
  let d := if x.mat ≠ 0 then { d with matBusy := c + t.occ } else d
  if extraReads i = 0 then d else { d with hold := c + extraReads i, holdBy := slot }

/-- The pending writes once those whose cycle has come are gone. -/
def stillDue (c : Nat) (ps : List PendWrite) : List PendWrite :=
  ps.filter fun q => match q.ready with
    | .at u => decide (c < u)
    | .req _ => true

/-- A path issues: the side's pipes and the scoreboard take its word. -/
def State.takeWord (s : State) (key : Nat) (g : Group) (p : Pick) : State :=
  let rep : Bool := match p.word with
    | .repeated .. | .spoiled .. => true
    | _ => false
  let s := s.countIssue key g.slot g p.word.instr? p.lanes rep
    ((lanesOf p.path).any fun L => decide (32 ≤ (g.lane L).passed))
  match p.word.instr? with
  | none => s
  | some i =>
    let c := (s.side key).cycle
    let act := activeIn g i p.lanes
    (s.onSide key fun d => d.take g g.slot i act).onGroup g.gid fun x =>
      { x with pend := stillDue c x.pend ++ pendsOf g i act c }

/-- An outrider issues its entry (R405): counted in its slot, with the pipes and its own scoreboard. -/
def State.takeEntry (s : State) (key slot : Nat) (g : Group) (o : Outrider) (e : OutEntry) : State :=
  let x := outReg g o
  let c := (s.side key).cycle
  let act := activeIn x e.instr e.mask
  let s := countEvent (s.countIssue key slot x (some e.instr) e.mask e.rep.isSome false) key slot 0x09 1
  (s.onSide key fun d => { d.take x slot e.instr act with last := slot, carried := none }).onGroup g.gid fun y =>
    { y with outrider := y.outrider.map fun o => { o with pend := stillDue c o.pend ++ pendsOf x e.instr act c } }

/-- The pass-over counts after an issue opportunity (R28). -/
def passOver (g : Group) (ready issued : List Pick) : Group :=
  let hit := (issued.map (·.path)).foldl (· ||| ·) 0
  ready.foldl (fun (g : Group) p =>
    if p.path &&& hit ≠ 0 then g
    else
      let n := min 255 (((lanesOf p.path).map fun L => (g.lane L).passed).foldl max 0 + 1)
      mapLanes g fun L ln => if bitOf p.path L then { ln with passed := n } else ln)
    (mapLanes g fun L ln => if bitOf hit L then { ln with passed := 0 } else ln)

/-- The chosen paths of a group issue. -/
def State.issueChoice (s : State) (key slot : Nat) (ch : Choice) : State :=
  match s.group? ch.gid with
  | none => s
  | some g =>
    let s := countEvent s key slot 0x02 1
    match ch.out, g.outrider with
    | some e, some o => (s.takeEntry key slot g o e).push [.outrider g.gid]
    | some _, none => s
    | none, _ =>
      let ready := s.ready g
      let s := if ch.picks.length = 2 then countEvent s key g.slot 0x03 1 else s
      let s := if ch.carry.isSome then countEvent s key g.slot 0x21 1 else s
      let s := ch.picks.foldl (fun s p => s.takeWord key g p) s
      let s := s.onSide key fun d => { d with last := slot, carried := ch.carry.map fun p => (g.gid, p.pc) }
      let s := s.onGroup g.gid fun x => passOver x ready (ch.picks ++ ch.carry.toList)
      s.push (ch.picks.map fun p => .issue g.gid p.pc p.lanes)

/-- The code of a leader: the lowest that applies to its first path, ready or not. -/
def State.leaderCode (s : State) (g : Group) : Nat :=
  match (g.ranked g.paths).head? with
  | none => 0x30
  | some p =>
    let waits := ((lanesOf p.2).filter fun L => !s.laneFree g (g.lane L)).map fun L => (g.lane L).wait.code
    if s.mayIssue g then (minCode (waits ++ (s.pathStall g p).toList)).getD 0x35 else 0x30

/-- The code of an outrider; the table has none for an empty queue (log 24). -/
def State.outriderCode (s : State) (g : Group) : Nat :=
  match g.halt, g.outHead with
  | .halted _, _ | .framed _, _ => 0x30
  | _, some (o, e, _) => (s.entryStall g o e).getD 0x35
  | _, none => 0x35

/-- The code that a cycle without an issue is charged to, and the slot (R50): of the first group or outrider in the order
of R27. -/
def State.idleCode (s : State) (key : Nat) (gs : List Group) : Option (Nat × Nat) :=
  (rotation (s.side key).last gs).head?.map fun c =>
    (if c.outr then s.outriderCode c.g else s.leaderCode c.g, c.slot)

/-- A cycle in which nothing issues; a carry outlives a cycle that the stage is held (R29, R46). -/
def State.idleCycle (s : State) (key : Nat) (gs : List Group) : State :=
  let d := s.side key
  if d.cycle ≤ d.hold then countEvent (countEvent s key d.holdBy 0x11 1) key d.holdBy 0x20 1
  else
    let s := s.onSide key fun d => { d with carried := none }
    match s.idleCode key gs with
    | some (code, slot) => countEvent (countEvent s key slot 0x11 1) key slot code 1
    | none => s

/-- Logged requests of replayed tasks that are due take their effect before the next issue, and where the issue at hand
waits for the host (R388). -/
def State.applyDue (s : State) : State :=
  s.disp.serials.foldl (fun s x =>
    if x.mode = .replay && (s.taskQuiet x || !(s.hostReads x.root).isEmpty) then s.applyLogged x else s) s

/-- The releases of a group that wait, or that its next words make: the number they cover, and the scope (R101, R105). -/
def State.releasesDue (s : State) (g : Group) : List (Nat × Scope) :=
  (g.lanes.filterMap fun ln => match ln.wait with
    | .fence _ true _ sc => some (g.seq, sc)
    | _ => none)
  ++ (s.eng.reqs.filter fun r => r.gid = g.gid && (r.rel || r.kind = .record)).map (fun r => (r.seq, r.scope))
  ++ g.paths.filterMap fun p => ((s.wordAt g p.1 p.2).instr?.bind releaseOf).map fun sc => (g.seq, sc)

/-- What a group's waits need is seen to before a cycle: clearings in peers (R105), requests to peers that come after others
(R100, R126), TLBINV (R354), a halt's resumption. -/
def State.attend (s : State) (g : Group) : State :=
  (((s.releasesDue g).eraseDups.foldl (fun s x => s.clearPeers g x.1 x.2) s).sendDue g.gid).wakeDrop g |>.tryResume g.gid

/-- One cycle of a side (R27). A cycle with no group resident is attributed to no slot (R48). -/
def doSideIssueCycle (key : Nat) (s : State) : State :=
  let s := s.onSide key fun d => { d with cycle := d.cycle + 1 }
  let s := countEvent s.finishInvals.applyDue.serialTurns key 0 0x01 1
  let s := (s.groups.filter fun g => sideKey g.core g.side = key).foldl (fun s g => s.attend g) s
  let gs := s.residents key
  if gs.isEmpty then countEvent (s.onSide key fun d => { d with carried := none }) key 8 0x10 1
  else if (s.side key).cycle ≤ (s.side key).hold then s.idleCycle key gs
  else match s.choose key gs with
    | some (ch, slot) => s.issueChoice key slot ch
    | none => s.idleCycle key gs

def execSideIssueCycle (side : Nat) (s : State) : Out := .next (doSideIssueCycle side s)

end Sys2Proof.Machine
end

