-- ==== Sys2Proof/Machine/Lanes.lean ====
section
/-! DEFINITION. Cross-lane instructions (R215 to R219) and pair words (R32, R151 to R153). -/

namespace Sys2Proof.Machine

/-- The source lane of SHFL (R216). -/
def shflSource (m : ShflMode) (L n : Nat) : Nat :=
  match m with
  | .lane => n
  | .below => if L < n then L else L - n
  | .above => if L + n > 31 then L else L + n
  | .flip => L ^^^ n

/-- SHFL (R216): the value's own tag goes with it (R90). -/
def shflBody (m : ShflMode) (o : RForm) (g : Group) (act : Word) : Group :=
  let w := o.ty.regs
  eachLane act (fun x L =>
    let b := srcB false g o 1 L true
    let src := shflSource m L (b.n % 32)
    let v := if bitOf act src then srcA false g o w src else ⟨0, false⟩
    wrVs x o.d.toNat w L v.n v.tag) g

def execShfl (m : ShflMode) (o : RForm) (s : State) : Out := execRegs (.shfl m o) o.g (shflBody m o) s

/-- VOTE.OR and VOTE.AND (R217). -/
def voteBody (isAnd : Bool) (o : RForm) (g : Group) (act : Word) : Group :=
  let p := rdP g o.a.toNat
  let r := if isAnd then (p.bits &&& act) = act else (p.bits &&& act) ≠ 0
  let t := decide ((p.tags &&& act) ≠ 0)
  eachLane act (fun x L => wrPBit x o.d.toNat L r t) g

def execVoteOr (o : RForm) (s : State) : Out := execRegs (.voteOr o) o.g (voteBody false o) s
def execVoteAnd (o : RForm) (s : State) : Out := execRegs (.voteAnd o) o.g (voteBody true o) s

/-- VOTE.MASK writes one uniform register (R217). -/
def execVoteMask (o : RForm) (s : State) : Out :=
  execRegs (.voteMask o) o.g (fun g act =>
    let p := rdP g o.a.toNat
    wrS g o.d.toNat ⟨p.bits &&& act, (p.tags &&& act) ≠ 0⟩) s

/-- MATCH (R218): each lane compares its value with every active lane's. -/
def matchBody (same : Bool) (o : RForm) (g : Group) (act : Word) : Group :=
  let w := o.ty.regs
  let a := fun K => srcA false g o w K
  let t := (lanesOf act).any fun K => (a K).tag
  let all := (lanesOf act).all fun K => (a K).n = (a (lowest act)).n
  eachLane act (fun x L =>
    let m := if same then (if all then act else 0)
             else maskOf fun K => bitOf act K && (a K).n = (a L).n
    wrVs x o.d.toNat 1 L m.toNat t) g

def execMatchPeers (o : RForm) (s : State) : Out := execRegs (.matchPeers o) o.g (matchBody false o) s
def execMatchSame (o : RForm) (s : State) : Out := execRegs (.matchSame o) o.g (matchBody true o) s

/-- The head lane of lane `i` (R69, R219). -/
def headOf (heads : Word) (i : Nat) : Nat :=
  (List.range (i + 1)).foldl (fun h j => if bitOf heads j then j else h) 0

/-- An integer operator of SCAN. -/
def scanInt (op : ScanOp) (ty : Ty) (a b : Nat) : Nat :=
  match op with
  | .add => (a + b) % 2 ^ 32
  | .min => wrapNat (min (numOf ty a) (numOf ty b)) 32
  | .max => wrapNat (max (numOf ty a) (numOf ty b)) 32
  | .and => a &&& b
  | .or => a ||| b
  | .xor => a ^^^ b

/-- The exclusive identities (R219). -/
def scanIdentity (op : ScanOp) (ty : Ty) : Nat :=
  match op with
  | .and => 0xFFFFFFFF
  | .min => if ty = .f32 then 0x7F800000 else if ty = .i32 then 0x7FFFFFFF else 0xFFFFFFFF
  | .max => if ty = .f32 then 0xFF800000 else if ty = .i32 then 0x80000000 else 0
  | _ => 0

/-- A floating operator of SCAN on patterns (R69, R203). -/
def scanFloat (op : ScanOp) (a b : Nat) : Nat × Flags :=
  match op with
  | .add => fAddV fF32 .rn (unpack fF32 a) (unpack fF32 b)
  | .min => fMinMax fF32 false a b
  | _ => fMinMax fF32 true a b

/-- One doubling step of the tree of R69 over a column of lane values. -/
def scanStep (f : Nat → Nat → Nat × Flags) (heads : Word) (d : Nat) (ys : List Val) (fl : Flags) : List Val × Flags :=
  (List.range 32).foldl (fun (acc : List Val × Flags) i =>
    let y := ys.getD i ⟨0, false⟩
    if i ≥ d && headOf heads i + d ≤ i then
      let z := ys.getD (i - d) ⟨0, false⟩
      let (r, f1) := f y.n z.n
      (acc.1 ++ [⟨r, y.tag || z.tag⟩], acc.2 ||| f1)
    else (acc.1 ++ [y], acc.2)) ([], fl)

/-- SCAN (R69, R219). A tagged head bit tags every active lane, whose segment it may set (log 64). -/
def scanBody (op : ScanOp) (o : RForm) (g : Group) (act : Word) : Group :=
  let heads := (rdP g o.c.toNat).bits
  let htag := (rdP g o.c.toNat).tags ≠ 0
  let x := fun i => if bitOf act i then srcA false g o 1 i else ⟨0, false⟩
  let start := (List.range 32).map fun i =>
    if o.x then (if i > headOf heads i then x (i - 1) else ⟨scanIdentity op o.ty, false⟩) else x i
  let f := fun a b => if o.ty = .f32 then scanFloat op a b else (scanInt op o.ty a b, 0)
  let (ys, fl) := [1, 2, 4, 8, 16].foldl (fun (acc : List Val × Flags) d => scanStep f heads d acc.1 acc.2) (start, 0)
  orFlags (eachLane act (fun h L =>
    let y := ys.getD L ⟨0, false⟩
    wrVs h o.d.toNat 1 L y.n (y.tag || htag)) g) fl

def execScan (op : ScanOp) (o : RForm) (s : State) : Out := execRegs (.scan op o) o.g (scanBody op o) s

/-- The result of one slot in a lane (R153). -/
def slotCompute (x : Slot) (g : Group) (L : Nat) : Val × Flags :=
  let pi := x.pi.toNat
  let a := rdVs g x.pa.toNat 1 L
  let b := rdVs g x.pb 1 L
  let d := rdVs g x.pd.toNat 1 L
  let imm := wrapNat (natSext pi 13) 32
  let rm := (Rm.ofCode (natBits pi 6 4)).getD .rn
  let ftz := natBit pi 3
  let rr := fun (r : Nat × Flags) => ((⟨r.1, a.tag || b.tag⟩ : Val), r.2)
  let ri := fun (op : IntOp) (ty : Ty) => rr (intCompute op ty false 0 a.n b.n 0)
  let i1 := fun (op : IntOp) (n : Nat) =>
    let r := intCompute op .i32 false 0 a.n n 0
    ((⟨r.1, a.tag⟩ : Val), r.2)
  let ff := fun (op : FOp) => rr (fCompute op fF32 rm ftz a.n b.n 0)
  let pp := fun (op : FOp) (t : Fmt) => rr (pCompute op t rm ftz a.n b.n 0)
  let p3 := fun (t : Fmt) =>
    let r := pCompute .fma t rm ftz a.n b.n d.n
    ((⟨r.1, a.tag || b.tag || d.tag⟩ : Val), r.2)
  match x.pop with
  | .add => rr (intCompute .add .i32 (natBit pi 6) 0 a.n b.n 0)
  | .sub => rr (intCompute .sub .i32 (natBit pi 6) 0 a.n b.n 0)
  | .addI => i1 .add imm
  | .and => ri .and .i32
  | .or => ri .or .i32
  | .xor => ri .xor .i32
  | .andI => i1 .and imm
  | .orI => i1 .or imm
  | .xorI => i1 .xor imm
  | .shl => i1 .shl (pi % 32)
  | .shr => i1 .shr (pi % 32)
  | .sar => i1 .sar (pi % 32)
  | .mov => (a, 0)
  | .movI => (⟨imm, false⟩, 0)
  | .minI32 => ri .min .i32
  | .maxI32 => ri .max .i32
  | .minN32 => ri .min .n32
  | .maxN32 => ri .max .n32
  | .leaS => rr (intCompute .leaS .i32 false (natBits pi 6 5) a.n b.n 0)
  | .faddF32 => ff .add
  | .fsubF32 => ff .sub
  | .fmulF32 => ff .mul
  | .ffmaF32 =>
    let r := fCompute .fma fF32 rm ftz a.n b.n d.n
    (⟨r.1, a.tag || b.tag || d.tag⟩, r.2)
  | .fminF32 => ff .min
  | .fmaxF32 => ff .max
  | .paddBf16 => pp .add fBF16
  | .pmulBf16 => pp .mul fBF16
  | .pfmaBf16 => p3 fBF16
  | .paddF16 => pp .add fF16
  | .pmulF16 => pp .mul fF16
  | .pfmaF16 => p3 fF16

/-- Both slots read the values held before the word (R32, R152). -/
def pairBody (x y : Slot) (g : Group) (act : Word) : Group :=
  eachLane act (fun h L =>
    let (u, f1) := slotCompute x g L
    let (v, f2) := slotCompute y g L
    orFlags (wrVs (wrVs h x.pd.toNat 1 L u.n u.tag) y.pd.toNat 1 L v.n v.tag) (f1 ||| f2)) g

/-- A pair word: every lane of the path is active (R150). -/
def execPairWord (x y : Slot) (s : State) : Out :=
  execRegs (.pairWord x y) ⟨0, false⟩ (pairBody x y) s

end Sys2Proof.Machine
end

