-- ==== Sys2Proof/Machine/Words.lean ====
section
/-! DEFINITION. REPETITION (R33, R154, R155): the word after a repeat prefix, once, with its fields stepped. -/

namespace Sys2Proof.Machine

/-- The meaning of a word that may stand after a prefix; no other word does (R155). -/
def runWord (i : Instr) (s : State) : Out :=
  match i with
  | .add o => execAdd o s
  | .sub o => execSub o s
  | .addc o => execAddc o s
  | .subc o => execSubc o s
  | .neg o => execNeg o s
  | .abs o => execAbs o s
  | .addImm o => execAddImm o s
  | .subImm o => execSubImm o s
  | .andImm o => execAndImm o s
  | .orImm o => execOrImm o s
  | .xorImm o => execXorImm o s
  | .minImm o => execMinImm o s
  | .maxImm o => execMaxImm o s
  | .movImm o => execMovImm o s
  | .movI64Imm o => execMovI64Imm o s
  | .mul o => execMul o s
  | .mulHi o => execMulHi o s
  | .mulWide o => execMulWide o s
  | .mad o => execMad o s
  | .madHi o => execMadHi o s
  | .madWide o => execMadWide o s
  | .min o => execMin o s
  | .max o => execMax o s
  | .and o => execAnd o s
  | .or o => execOr o s
  | .xor o => execXor o s
  | .not o => execNot o s
  | .andn o => execAndn o s
  | .orn o => execOrn o s
  | .xnor o => execXnor o s
  | .shl o => execShl o s
  | .shr o => execShr o s
  | .sar o => execSar o s
  | .rol o => execRol o s
  | .ror o => execRor o s
  | .bfe o => execBfe o s
  | .bfi o => execBfi o s
  | .popc o => execPopc o s
  | .clz o => execClz o s
  | .brev o => execBrev o s
  | .icmpp cmp o => execIcmpp cmp o s
  | .sel o => execSel o s
  | .mov o => execMov o s
  | .movI64 o => execMovI64 o s
  | .lea o => execLea o s
  | .leaN o => execLeaN o s
  | .leaS o => execLeaS o s
  | .dot4 o => execDot4 o s
  | .uniformForm u => execUniformForm u s
  | .pand o => execPand o s
  | .por o => execPor o s
  | .pxor o => execPxor o s
  | .pandn o => execPandn o s
  | .porn o => execPorn o s
  | .pnot o => execPnot o s
  | .pmov o => execPmov o s
  | .p2s o => execP2s o s
  | .s2p o => execS2p o s
  | .shfl mode o => execShfl mode o s
  | .voteOr o => execVoteOr o s
  | .voteAnd o => execVoteAnd o s
  | .voteMask o => execVoteMask o s
  | .matchPeers o => execMatchPeers o s
  | .matchSame o => execMatchSame o s
  | .scan op o => execScan op o s
  | .fadd o => execFadd o s
  | .fsub o => execFsub o s
  | .fmul o => execFmul o s
  | .ffma o => execFfma o s
  | .ffms o => execFfms o s
  | .ffnma o => execFfnma o s
  | .fmin o => execFmin o s
  | .fmax o => execFmax o s
  | .fcmpp cmp o => execFcmpp cmp o s
  | .fclass o => execFclass o s
  | .cvt src o => execCvt src o s
  | .padd o => execPadd o s
  | .pmul o => execPmul o s
  | .pfma o => execPfma o s
  | .pmin o => execPmin o s
  | .pmax o => execPmax o s
  | .fseed fn o => execFseed fn o s
  | .frred o => execFrred o s
  | .fscale o => execFscale o s
  | .fexp o => execFexp o s
  | .fmant o => execFmant o s
  | .cvtblk src o => execCvtblk src o s
  | .ld o => execLd o s
  | .st o => execSt o s
  | .ldu o => execLdu o s
  | .prefetchL1 o => execPrefetchL1 o s
  | .prefetchDep o => execPrefetchDep o s
  | .atom op o => execAtom op o s
  | .red op o => execRed op o s
  | .cas o => execCas o s
  | .gateInit o => execGateInit o s
  | .gateExpect o => execGateExpect o s
  | .gateArrive o => execGateArrive o s
  | .gatePeek o => execGatePeek o s
  | .gateWait o => execGateWait o s
  | .gateWaitLim o => execGateWaitLim o s
  | .lock o => execLock o s
  | .unlock o => execUnlock o s
  | .barrier o => execBarrier o s
  | .acqBlk o => execAcqBlk o s
  | .acqOpt o => execAcqOpt o s
  | .acqAcc o => execAcqAcc o s
  | .relBlk o => execRelBlk o s
  | .relOpt o => execRelOpt o s
  | .relAcc o => execRelAcc o s
  | .clean o => execClean o s
  | .inval o => execInval o s
  | .fenceAcq o => execFenceAcq o s
  | .fenceRel o => execFenceRel o s
  | .fenceAr o => execFenceAr o s
  | .fenceSc o => execFenceSc o s
  | .mswitchBank o => execMswitchBank o s
  | .mswitchCtl o => execMswitchCtl o s
  | .tld o => execTld o s
  | .tst o => execTst o s
  | .tzero o => execTzero o s
  | .mma o => execMma o s
  | .mmag o => execMmag o s
  | .tmask o => execTmask o s
  | .tdrain o => execTdrain o s
  | .tdrainAdd o => execTdrainAdd o s
  | .tdrainAddSplit o => execTdrainAddSplit o s
  | .tcvt o => execTcvt o s
  | .cpyIn o => execCpyIn o s
  | .cpyOut o => execCpyOut o s
  | .tdesc o => execTdesc o s
  | .tdescAlias o => execTdescAlias o s
  | .mrs o => execMrs o s
  | .rst o => execRst o s
  | .wbl o => execWbl o s
  | .wblAcq o => execWblAcq o s
  | .redx o => execRedx o s
  | .imxLoad o => execImxLoad o s
  | .imxVec o => execImxVec o s
  | .imxRun o => execImxRun o s
  | .imxBcast o => execImxBcast o s
  | .imxCollect o => execImxCollect o s
  | .imxStat o => execImxStat o s
  | .grid o => execGrid o s
  | .sideIssueCycle .. | .loadReturn .. | .icacheFill .. | .pageWalkComplete .. | .storeAtHome ..
  | .heldWriteApply .. | .homeAtomic .. | .depotFill .. | .lineMaintenance .. | .stackPortRequest ..
  | .holdQueueRelease .. | .mswitchApply .. | .rowsControllerOwned .. | .engineOpComplete ..
  | .copyGranuleWritten .. | .lockRequest .. | .unlockRequest .. | .acqGrant .. | .drayLaunch ..
  | .drayOperationStart .. | .bcastStep .. | .powerEvaluation .. | .coreEligibilitySample .. | .frameRetry ..
  | .impreciseTrapTaken .. | .scrubVisit .. | .rowStrengthen .. | .extentClassWrite .. | .extentFormatDone ..
  | .translationBlockReload .. | .contextRecordWrite .. | .fabricRequestReceive .. | .fabricResponse ..
  | .fabricResend .. | .fabricRetryResend .. | .fabricNoRouteTimeout .. | .flitReplay .. | .portRetrainDone ..
  | .d2dFlitReplay .. | .waybillHop .. | .waybillReturn .. | .walkTimeout .. | .rstFlagAdd .. | .redxCommandApply ..
  | .marshalSectorWrite .. | .peerLockRelease .. | .hostRead .. | .hostWrite .. | .backInvalidateAnswer ..
  | .atsInvalidate .. | .pageResponse .. | .pageRequestTimeout .. | .postBoxTake .. | .replayDivergence ..
  | .bringUp .. | .registerWrite .. | .pairWord .. | .rep .. | .bra .. | .call .. | .brx .. | .ret .. | .exit ..
  | .yield .. | .yieldW .. | .waitc .. | .ppoint .. | .rgn .. | .rgnEnd .. | .brk .. | .trap .. | .sget ..
  | .sput .. | .eret .. | .faultackRetry .. | .faultackSkip .. | .faultackRegion .. | .faultackKill ..
  | .faultackHold .. | .dbgstep .. | .preempt .. | .kill .. | .resume .. | .tlbinv .. | .dsel .. | .dadv ..
  | .dvset .. | .dlset .. | .dloop .. | .dwait .. | .dmac .. | .dmacx .. | .dscol .. | .dvld .. | .dvst ..
  | .dadd .. | .dscale .. | .dazero .. | .dald .. | .dstore .. | .repetition .. | .yieldBackoffExpiry ..
  | .yieldWBackoffExpiry .. | .gateWaitDeadline .. | .lockGrant .. | .lockWithdrawalAnswer .. | .fencePerformed ..
  | .drayRowOpen .. | .drayStopped .. | .drayBankYield .. | .ppointWindowExpiry .. | .groupHalt ..
  | .groupFrameWrite .. | .teamFrameWrite .. | .trapDelivery .. | .trapRecordPost .. | .ceWindowClear ..
  | .fabricBlockWrite .. | .pageWaitReframe .. | .teamPlacement .. | .scratchpadClearDone ..
  | .placementReservation .. | .dispatcherPreempt .. | .teamEnd .. | .gridRetire .. | .doneWrite .. | .coldReset ..
  | .packageReset .. | .mboxUpdate .. | .mboxFloor .. | .quote .. | .aliasCert .. | .dikcert .. | .idekey ..
  | .mboxCommandDone .. | .dend .. | .dacvt .. | .lockUnitAnswer .. | .drayIllegalCommand .. => .next s

/-- One repetition for the issuing path; a stepped field outside its legal set is the illegal-instruction trap at that
repetition (R154), and a poisoned word the poison trap (R444). -/
def execRepetition (s : State) : Out :=
  match s.group? s.cur.gid with
  | none => .fault .noIssuingPath
  | some g => match s.wordAt g s.cur.pc s.cur.lanes with
    | .repeated (some i) _ _ => runWord i s
    | .spoiled _ _ => .next (raise s (addrTrap 0x07 (lowest s.cur.lanes) (s.cur.pc + 8).toNat))
    | .repeated none _ _ => .next (raise s ⟨0x01, lowest s.cur.lanes, 0, 0⟩)
    | _ => .next s

end Sys2Proof.Machine
end

