-- ==== Sys2Proof/Machine/Dispatch.lean ====
section
/-! DEFINITION. The dispatch of the opcode table: one arm per constructor, each one direct call. -/

namespace Sys2Proof.Machine

def exec (i : Instr) (s : State) : Host.Outcome State Fault Refusal :=
  match i with
  | .sideIssueCycle side => Sys2Proof.Machine.execSideIssueCycle side s
  | .loadReturn req ext => Sys2Proof.Machine.execLoadReturn req ext s
  | .icacheFill core pasid vline => Sys2Proof.Machine.execIcacheFill core pasid vline s
  | .pageWalkComplete walk host => Sys2Proof.Machine.execPageWalkComplete walk host s
  | .storeAtHome req => Sys2Proof.Machine.execStoreAtHome req s
  | .heldWriteApply line => Sys2Proof.Machine.execHeldWriteApply line s
  | .homeAtomic req ext => Sys2Proof.Machine.execHomeAtomic req ext s
  | .depotFill line => Sys2Proof.Machine.execDepotFill line s
  | .lineMaintenance op line => Sys2Proof.Machine.execLineMaintenance op line s
  | .stackPortRequest req => Sys2Proof.Machine.execStackPortRequest req s
  | .holdQueueRelease row => Sys2Proof.Machine.execHoldQueueRelease row s
  | .mswitchApply op => Sys2Proof.Machine.execMswitchApply op s
  | .rowsControllerOwned row => Sys2Proof.Machine.execRowsControllerOwned row s
  | .engineOpComplete op => Sys2Proof.Machine.execEngineOpComplete op s
  | .copyGranuleWritten op ext => Sys2Proof.Machine.execCopyGranuleWritten op ext s
  | .lockRequest req => Sys2Proof.Machine.execLockRequest req s
  | .unlockRequest req => Sys2Proof.Machine.execUnlockRequest req s
  | .acqGrant team side => Sys2Proof.Machine.execAcqGrant team side s
  | .drayLaunch op => Sys2Proof.Machine.execDrayLaunch op s
  | .drayOperationStart op stack => Sys2Proof.Machine.execDrayOperationStart op stack s
  | .bcastStep stack => Sys2Proof.Machine.execBcastStep stack s
  | .powerEvaluation watts => Sys2Proof.Machine.execPowerEvaluation watts s
  | .coreEligibilitySample core tempC droop => Sys2Proof.Machine.execCoreEligibilitySample core tempC droop s
  | .frameRetry ctx => Sys2Proof.Machine.execFrameRetry ctx s
  | .impreciseTrapTaken gid code => Sys2Proof.Machine.execImpreciseTrapTaken gid code s
  | .scrubVisit stack => Sys2Proof.Machine.execScrubVisit stack s
  | .rowStrengthen row => Sys2Proof.Machine.execRowStrengthen row s
  | .extentClassWrite stack ext => Sys2Proof.Machine.execExtentClassWrite stack ext s
  | .extentFormatDone stack ext => Sys2Proof.Machine.execExtentFormatDone stack ext s
  | .translationBlockReload line => Sys2Proof.Machine.execTranslationBlockReload line s
  | .contextRecordWrite ctx => Sys2Proof.Machine.execContextRecordWrite ctx s
  | .fabricRequestReceive r => Sys2Proof.Machine.execFabricRequestReceive r s
  | .fabricResponse tgt seq ans => Sys2Proof.Machine.execFabricResponse tgt seq ans s
  | .fabricResend tgt seq => Sys2Proof.Machine.execFabricResend tgt seq s
  | .fabricRetryResend tgt seq => Sys2Proof.Machine.execFabricRetryResend tgt seq s
  | .fabricNoRouteTimeout tgt seq => Sys2Proof.Machine.execFabricNoRouteTimeout tgt seq s
  | .flitReplay port => Sys2Proof.Machine.execFlitReplay port s
  | .portRetrainDone port lanes => Sys2Proof.Machine.execPortRetrainDone port lanes s
  | .d2dFlitReplay req => Sys2Proof.Machine.execD2dFlitReplay req s
  | .waybillHop walk => Sys2Proof.Machine.execWaybillHop walk s
  | .waybillReturn op res => Sys2Proof.Machine.execWaybillReturn op res s
  | .walkTimeout op => Sys2Proof.Machine.execWalkTimeout op s
  | .rstFlagAdd op => Sys2Proof.Machine.execRstFlagAdd op s
  | .redxCommandApply op idx ext => Sys2Proof.Machine.execRedxCommandApply op idx ext s
  | .marshalSectorWrite op => Sys2Proof.Machine.execMarshalSectorWrite op s
  | .peerLockRelease pkg grid => Sys2Proof.Machine.execPeerLockRelease pkg grid s
  | .hostRead addr size => Sys2Proof.Machine.execHostRead addr size s
  | .hostWrite addr bytes poison => Sys2Proof.Machine.execHostWrite addr bytes poison s
  | .backInvalidateAnswer line => Sys2Proof.Machine.execBackInvalidateAnswer line s
  | .atsInvalidate pasid base len => Sys2Proof.Machine.execAtsInvalidate pasid base len s
  | .pageResponse id ans => Sys2Proof.Machine.execPageResponse id ans s
  | .pageRequestTimeout id => Sys2Proof.Machine.execPageRequestTimeout id s
  | .postBoxTake ctx => Sys2Proof.Machine.execPostBoxTake ctx s
  | .replayDivergence grid addr => Sys2Proof.Machine.execReplayDivergence grid addr s
  | .bringUp img => Sys2Proof.Machine.execBringUp img s
  | .registerWrite offset value => Sys2Proof.Machine.execRegisterWrite offset value s
  | .pairWord a b => Sys2Proof.Machine.execPairWord a b s
  | .rep o => Sys2Proof.Machine.execRep o s
  | .bra o => Sys2Proof.Machine.execBra o s
  | .call o => Sys2Proof.Machine.execCall o s
  | .brx o => Sys2Proof.Machine.execBrx o s
  | .ret o => Sys2Proof.Machine.execRet o s
  | .exit o => Sys2Proof.Machine.execExit o s
  | .yield o => Sys2Proof.Machine.execYield o s
  | .yieldW o => Sys2Proof.Machine.execYieldW o s
  | .waitc c o => Sys2Proof.Machine.execWaitc c o s
  | .ppoint o => Sys2Proof.Machine.execPpoint o s
  | .rgn o => Sys2Proof.Machine.execRgn o s
  | .rgnEnd o => Sys2Proof.Machine.execRgnEnd o s
  | .brk o => Sys2Proof.Machine.execBrk o s
  | .trap o => Sys2Proof.Machine.execTrap o s
  | .add o => Sys2Proof.Machine.execAdd o s
  | .sub o => Sys2Proof.Machine.execSub o s
  | .addc o => Sys2Proof.Machine.execAddc o s
  | .subc o => Sys2Proof.Machine.execSubc o s
  | .neg o => Sys2Proof.Machine.execNeg o s
  | .abs o => Sys2Proof.Machine.execAbs o s
  | .addImm o => Sys2Proof.Machine.execAddImm o s
  | .subImm o => Sys2Proof.Machine.execSubImm o s
  | .andImm o => Sys2Proof.Machine.execAndImm o s
  | .orImm o => Sys2Proof.Machine.execOrImm o s
  | .xorImm o => Sys2Proof.Machine.execXorImm o s
  | .minImm o => Sys2Proof.Machine.execMinImm o s
  | .maxImm o => Sys2Proof.Machine.execMaxImm o s
  | .movImm o => Sys2Proof.Machine.execMovImm o s
  | .movI64Imm o => Sys2Proof.Machine.execMovI64Imm o s
  | .mul o => Sys2Proof.Machine.execMul o s
  | .mulHi o => Sys2Proof.Machine.execMulHi o s
  | .mulWide o => Sys2Proof.Machine.execMulWide o s
  | .mad o => Sys2Proof.Machine.execMad o s
  | .madHi o => Sys2Proof.Machine.execMadHi o s
  | .madWide o => Sys2Proof.Machine.execMadWide o s
  | .min o => Sys2Proof.Machine.execMin o s
  | .max o => Sys2Proof.Machine.execMax o s
  | .and o => Sys2Proof.Machine.execAnd o s
  | .or o => Sys2Proof.Machine.execOr o s
  | .xor o => Sys2Proof.Machine.execXor o s
  | .not o => Sys2Proof.Machine.execNot o s
  | .andn o => Sys2Proof.Machine.execAndn o s
  | .orn o => Sys2Proof.Machine.execOrn o s
  | .xnor o => Sys2Proof.Machine.execXnor o s
  | .shl o => Sys2Proof.Machine.execShl o s
  | .shr o => Sys2Proof.Machine.execShr o s
  | .sar o => Sys2Proof.Machine.execSar o s
  | .rol o => Sys2Proof.Machine.execRol o s
  | .ror o => Sys2Proof.Machine.execRor o s
  | .bfe o => Sys2Proof.Machine.execBfe o s
  | .bfi o => Sys2Proof.Machine.execBfi o s
  | .popc o => Sys2Proof.Machine.execPopc o s
  | .clz o => Sys2Proof.Machine.execClz o s
  | .brev o => Sys2Proof.Machine.execBrev o s
  | .icmpp cmp o => Sys2Proof.Machine.execIcmpp cmp o s
  | .sel o => Sys2Proof.Machine.execSel o s
  | .mov o => Sys2Proof.Machine.execMov o s
  | .movI64 o => Sys2Proof.Machine.execMovI64 o s
  | .lea o => Sys2Proof.Machine.execLea o s
  | .leaN o => Sys2Proof.Machine.execLeaN o s
  | .leaS o => Sys2Proof.Machine.execLeaS o s
  | .dot4 o => Sys2Proof.Machine.execDot4 o s
  | .uniformForm u => Sys2Proof.Machine.execUniformForm u s
  | .pand o => Sys2Proof.Machine.execPand o s
  | .por o => Sys2Proof.Machine.execPor o s
  | .pxor o => Sys2Proof.Machine.execPxor o s
  | .pandn o => Sys2Proof.Machine.execPandn o s
  | .porn o => Sys2Proof.Machine.execPorn o s
  | .pnot o => Sys2Proof.Machine.execPnot o s
  | .pmov o => Sys2Proof.Machine.execPmov o s
  | .p2s o => Sys2Proof.Machine.execP2s o s
  | .s2p o => Sys2Proof.Machine.execS2p o s
  | .shfl mode o => Sys2Proof.Machine.execShfl mode o s
  | .voteOr o => Sys2Proof.Machine.execVoteOr o s
  | .voteAnd o => Sys2Proof.Machine.execVoteAnd o s
  | .voteMask o => Sys2Proof.Machine.execVoteMask o s
  | .matchPeers o => Sys2Proof.Machine.execMatchPeers o s
  | .matchSame o => Sys2Proof.Machine.execMatchSame o s
  | .scan op o => Sys2Proof.Machine.execScan op o s
  | .fadd o => Sys2Proof.Machine.execFadd o s
  | .fsub o => Sys2Proof.Machine.execFsub o s
  | .fmul o => Sys2Proof.Machine.execFmul o s
  | .ffma o => Sys2Proof.Machine.execFfma o s
  | .ffms o => Sys2Proof.Machine.execFfms o s
  | .ffnma o => Sys2Proof.Machine.execFfnma o s
  | .fmin o => Sys2Proof.Machine.execFmin o s
  | .fmax o => Sys2Proof.Machine.execFmax o s
  | .fcmpp cmp o => Sys2Proof.Machine.execFcmpp cmp o s
  | .fclass o => Sys2Proof.Machine.execFclass o s
  | .cvt src o => Sys2Proof.Machine.execCvt src o s
  | .padd o => Sys2Proof.Machine.execPadd o s
  | .pmul o => Sys2Proof.Machine.execPmul o s
  | .pfma o => Sys2Proof.Machine.execPfma o s
  | .pmin o => Sys2Proof.Machine.execPmin o s
  | .pmax o => Sys2Proof.Machine.execPmax o s
  | .fseed fn o => Sys2Proof.Machine.execFseed fn o s
  | .frred o => Sys2Proof.Machine.execFrred o s
  | .fscale o => Sys2Proof.Machine.execFscale o s
  | .fexp o => Sys2Proof.Machine.execFexp o s
  | .fmant o => Sys2Proof.Machine.execFmant o s
  | .cvtblk src o => Sys2Proof.Machine.execCvtblk src o s
  | .ld o => Sys2Proof.Machine.execLd o s
  | .st o => Sys2Proof.Machine.execSt o s
  | .ldu o => Sys2Proof.Machine.execLdu o s
  | .prefetchL1 o => Sys2Proof.Machine.execPrefetchL1 o s
  | .prefetchDep o => Sys2Proof.Machine.execPrefetchDep o s
  | .atom op o => Sys2Proof.Machine.execAtom op o s
  | .red op o => Sys2Proof.Machine.execRed op o s
  | .cas o => Sys2Proof.Machine.execCas o s
  | .gateInit o => Sys2Proof.Machine.execGateInit o s
  | .gateExpect o => Sys2Proof.Machine.execGateExpect o s
  | .gateArrive o => Sys2Proof.Machine.execGateArrive o s
  | .gatePeek o => Sys2Proof.Machine.execGatePeek o s
  | .gateWait o => Sys2Proof.Machine.execGateWait o s
  | .gateWaitLim o => Sys2Proof.Machine.execGateWaitLim o s
  | .lock o => Sys2Proof.Machine.execLock o s
  | .unlock o => Sys2Proof.Machine.execUnlock o s
  | .barrier o => Sys2Proof.Machine.execBarrier o s
  | .acqBlk o => Sys2Proof.Machine.execAcqBlk o s
  | .acqOpt o => Sys2Proof.Machine.execAcqOpt o s
  | .acqAcc o => Sys2Proof.Machine.execAcqAcc o s
  | .relBlk o => Sys2Proof.Machine.execRelBlk o s
  | .relOpt o => Sys2Proof.Machine.execRelOpt o s
  | .relAcc o => Sys2Proof.Machine.execRelAcc o s
  | .clean o => Sys2Proof.Machine.execClean o s
  | .inval o => Sys2Proof.Machine.execInval o s
  | .fenceAcq o => Sys2Proof.Machine.execFenceAcq o s
  | .fenceRel o => Sys2Proof.Machine.execFenceRel o s
  | .fenceAr o => Sys2Proof.Machine.execFenceAr o s
  | .fenceSc o => Sys2Proof.Machine.execFenceSc o s
  | .mswitchBank o => Sys2Proof.Machine.execMswitchBank o s
  | .mswitchCtl o => Sys2Proof.Machine.execMswitchCtl o s
  | .tld o => Sys2Proof.Machine.execTld o s
  | .tst o => Sys2Proof.Machine.execTst o s
  | .tzero o => Sys2Proof.Machine.execTzero o s
  | .mma o => Sys2Proof.Machine.execMma o s
  | .mmag o => Sys2Proof.Machine.execMmag o s
  | .tmask o => Sys2Proof.Machine.execTmask o s
  | .tdrain o => Sys2Proof.Machine.execTdrain o s
  | .tdrainAdd o => Sys2Proof.Machine.execTdrainAdd o s
  | .tdrainAddSplit o => Sys2Proof.Machine.execTdrainAddSplit o s
  | .tcvt o => Sys2Proof.Machine.execTcvt o s
  | .cpyIn o => Sys2Proof.Machine.execCpyIn o s
  | .cpyOut o => Sys2Proof.Machine.execCpyOut o s
  | .tdesc o => Sys2Proof.Machine.execTdesc o s
  | .tdescAlias o => Sys2Proof.Machine.execTdescAlias o s
  | .mrs o => Sys2Proof.Machine.execMrs o s
  | .rst o => Sys2Proof.Machine.execRst o s
  | .wbl o => Sys2Proof.Machine.execWbl o s
  | .wblAcq o => Sys2Proof.Machine.execWblAcq o s
  | .redx o => Sys2Proof.Machine.execRedx o s
  | .imxLoad o => Sys2Proof.Machine.execImxLoad o s
  | .imxVec o => Sys2Proof.Machine.execImxVec o s
  | .imxRun o => Sys2Proof.Machine.execImxRun o s
  | .imxBcast o => Sys2Proof.Machine.execImxBcast o s
  | .imxCollect o => Sys2Proof.Machine.execImxCollect o s
  | .imxStat o => Sys2Proof.Machine.execImxStat o s
  | .grid o => Sys2Proof.Machine.execGrid o s
  | .sget o => Sys2Proof.Machine.execSget o s
  | .sput o => Sys2Proof.Machine.execSput o s
  | .eret o => Sys2Proof.Machine.execEret o s
  | .faultackRetry o => Sys2Proof.Machine.execFaultackRetry o s
  | .faultackSkip o => Sys2Proof.Machine.execFaultackSkip o s
  | .faultackRegion o => Sys2Proof.Machine.execFaultackRegion o s
  | .faultackKill o => Sys2Proof.Machine.execFaultackKill o s
  | .faultackHold o => Sys2Proof.Machine.execFaultackHold o s
  | .dbgstep o => Sys2Proof.Machine.execDbgstep o s
  | .preempt o => Sys2Proof.Machine.execPreempt o s
  | .kill o => Sys2Proof.Machine.execKill o s
  | .resume o => Sys2Proof.Machine.execResume o s
  | .tlbinv o => Sys2Proof.Machine.execTlbinv o s
  | .dsel k r l h => Sys2Proof.Machine.execDsel k r l h s
  | .dadv k n => Sys2Proof.Machine.execDadv k n s
  | .dvset v st => Sys2Proof.Machine.execDvset v st s
  | .dlset k a n => Sys2Proof.Machine.execDlset k a n s
  | .dloop k st => Sys2Proof.Machine.execDloop k st s
  | .dwait n => Sys2Proof.Machine.execDwait n s
  | .dmac c => Sys2Proof.Machine.execDmac c s
  | .dmacx c => Sys2Proof.Machine.execDmacx c s
  | .dscol n => Sys2Proof.Machine.execDscol n s
  | .dvld k => Sys2Proof.Machine.execDvld k s
  | .dvst k => Sys2Proof.Machine.execDvst k s
  | .dadd t d => Sys2Proof.Machine.execDadd t d s
  | .dscale c t y => Sys2Proof.Machine.execDscale c t y s
  | .dazero m => Sys2Proof.Machine.execDazero m s
  | .dald h => Sys2Proof.Machine.execDald h s
  | .dstore t h => Sys2Proof.Machine.execDstore t h s
  | .repetition => Sys2Proof.Machine.execRepetition s
  | .yieldBackoffExpiry => Sys2Proof.Machine.execYieldBackoffExpiry s
  | .yieldWBackoffExpiry => Sys2Proof.Machine.execYieldWBackoffExpiry s
  | .gateWaitDeadline => Sys2Proof.Machine.execGateWaitDeadline s
  | .lockGrant => Sys2Proof.Machine.execLockGrant s
  | .lockWithdrawalAnswer => Sys2Proof.Machine.execLockWithdrawalAnswer s
  | .fencePerformed => Sys2Proof.Machine.execFencePerformed s
  | .drayRowOpen => Sys2Proof.Machine.execDrayRowOpen s
  | .drayStopped => Sys2Proof.Machine.execDrayStopped s
  | .drayBankYield => Sys2Proof.Machine.execDrayBankYield s
  | .ppointWindowExpiry => Sys2Proof.Machine.execPpointWindowExpiry s
  | .groupHalt => Sys2Proof.Machine.execGroupHalt s
  | .groupFrameWrite => Sys2Proof.Machine.execGroupFrameWrite s
  | .teamFrameWrite => Sys2Proof.Machine.execTeamFrameWrite s
  | .trapDelivery => Sys2Proof.Machine.execTrapDelivery s
  | .trapRecordPost => Sys2Proof.Machine.execTrapRecordPost s
  | .ceWindowClear => Sys2Proof.Machine.execCeWindowClear s
  | .fabricBlockWrite => Sys2Proof.Machine.execFabricBlockWrite s
  | .pageWaitReframe => Sys2Proof.Machine.execPageWaitReframe s
  | .teamPlacement => Sys2Proof.Machine.execTeamPlacement s
  | .scratchpadClearDone => Sys2Proof.Machine.execScratchpadClearDone s
  | .placementReservation => Sys2Proof.Machine.execPlacementReservation s
  | .dispatcherPreempt => Sys2Proof.Machine.execDispatcherPreempt s
  | .teamEnd => Sys2Proof.Machine.execTeamEnd s
  | .gridRetire => Sys2Proof.Machine.execGridRetire s
  | .doneWrite => Sys2Proof.Machine.execDoneWrite s
  | .coldReset => Sys2Proof.Machine.execColdReset s
  | .packageReset => Sys2Proof.Machine.execPackageReset s
  | .mboxUpdate => Sys2Proof.Machine.execMboxUpdate s
  | .mboxFloor => Sys2Proof.Machine.execMboxFloor s
  | .quote => Sys2Proof.Machine.execQuote s
  | .aliasCert => Sys2Proof.Machine.execAliasCert s
  | .dikcert => Sys2Proof.Machine.execDikcert s
  | .idekey => Sys2Proof.Machine.execIdekey s
  | .mboxCommandDone => Sys2Proof.Machine.execMboxCommandDone s
  | .dend => Sys2Proof.Machine.execDend s
  | .dacvt => Sys2Proof.Machine.execDacvt s
  | .lockUnitAnswer => Sys2Proof.Machine.execLockUnitAnswer s
  | .drayIllegalCommand => Sys2Proof.Machine.execDrayIllegalCommand s

end Sys2Proof.Machine
end

