-- ==== Sys2Proof/Machine/Upsets.lean ====
section
/-! DEFINITION. Check codes that fail where a word, a command or an event reads what they cover (R399, R401, R402, R404). The
verifications that fail are an input of the model (log 23); with none, nothing here changes a state. -/

namespace Sys2Proof.Machine

/-- The number by which a machine check's log entry names a structure, in SLOT (R404; log 36). -/
def DevStruct.code : DevStruct → Nat
  | .lock => 0xE0 | .hold => 0xE1 | .task => 0xE2 | .gate => 0xE3 | .desc => 0xE4 | .counter => 0xE5

/-- The word's poison tag is set (R402). -/
def State.spoil (s : State) (x : Site) : State :=
  match x with
  | .reg gid r k => s.onGroup gid fun g => match r with
    | .v n => wrV g n k { rdV g n k with tag := true }
    | .s n => wrS g n { rdS g n with tag := true }
    | .t n => wrT g n { rdT g n with rowTags := (rdT g n).rowTags ||| (1#32 <<< (k / 16)) }
    | .a n => wrA g n (k / 32) (k % 32) { rdA g n (k / 32) (k % 32) with tag := true }
    | .p _ | .x _ => g
  | .spad w => { s with cores := spPutPoison s.cores (4 * w) true }
  | .depot l w =>
    let d := s.mem.depot.map fun x => if x.line = l then { x with poison := x.poison ||| (1#32 <<< w) } else x
    { s with mem := { s.mem with depot := d } }
  | .vb k w => s.onDray k fun d => { d with vbTag := sset false d.vbTag w true }
  | .acc k c => s.onDray k fun d => d.setAcc c { d.accOf c with tag := true }
  | .l1 .. | .device _ => s

/-- A verification fails (R402, R404): a word is corrected or poisoned, a first-level line is dropped, a structure is a machine
check. -/
def State.fails (s : State) (who : Who) (u : Upset) : State :=
  match u.site with
  | .l1 core l => (s.charge who 1).l1Drop core l
  | .device x => s.machineCheck who 0 { LogAt.none with slot := x.code }
  | x => if u.two then (s.spoil x).charge who 64 else s.charge who 1

/-- What is read is verified. -/
def State.meet (s : State) (who : Who) (p : Site → Bool) : State :=
  if s.rel.upsets.isEmpty then s
  else (s.rel.upsets.filter fun u => p u.site).foldl (fun s u => s.fails who u)
    { s with rel := { s.rel with upsets := s.rel.upsets.filter fun u => !p u.site } }

/-! Words. -/

/-- The scratchpad bytes that a word reads: first byte and length. -/
def spReads (s : State) (g : Group) (i : Instr) (act : Word) : List (Nat × Nat) :=
  let at_ := fun (ofs n : Nat) => (spPhys s g ofs, n)
  let lanes := fun (o : MForm) (n : Nat) => (lanesOf act).map fun L => at_ (offN g o L) n
  match i with
  | .ld o => if o.sp then lanes o (acSize o.ac.toNat) else []
  | .st o => if o.sp && decide (acSize o.ac.toNat < 4) then lanes o (acSize o.ac.toNat) else []
  | .atom _ o | .red _ o | .cas o => if o.sp then lanes o (atomBytes o.ac.toNat) else []
  | .gateExpect o | .gateArrive o | .gatePeek o | .gateWait o | .gateWaitLim o => lanes o 16
  | .tld o =>
    (List.range 32).map (fun r => at_ (tileRowOff g o r).toNat 64) ++ if o.ac = 5 then [at_ (offN g o 0 + 2048) 128] else []
  | .mmag o => (List.range 32).map fun r => at_ (rdV g o.a.toNat r).val.toNat 64
  | .tmask o => [at_ (offN g o 0) 256]
  | .tdesc o | .tdescAlias o => [at_ (uniN g o.e3) 128]
  | .wbl o | .wblAcq o => [at_ (uniN g o.e1) 192]
  | .rst o => [at_ (uniN g o.e1) (uniN g o.e4)]
  | .redx o => [at_ (uniN g o.e1) (64 * uniN g o.e3)]
  | .imxLoad o => [at_ (uniN g o.e1) (4 * natBits (uniN g o.e4) 6 0)]
  | .imxVec o => [at_ (uniN g o.e1) (natBits (uniN g o.e4) 11 0)]
  | _ => []

/-- A word of memory lies in some bytes. -/
def inBytes (w : Nat) (x : Nat × Nat) : Bool := decide (x.1 < 4 * w + 4) && decide (4 * w < x.1 + x.2)

/-- The lanes whose loads look in the first level. -/
def l1Reads (i : Instr) (act : Word) : Option (MForm × List Nat) :=
  match i with
  | .ld o => if o.sp then none else some (o, lanesOf act)
  | .ldu o => some (o, (lanesOf act).take 1)
  | _ => none

/-- A word reads what stands at a site. -/
def wordReads (s : State) (g : Group) (i : Instr) (act : Word) (x : Site) : Bool :=
  match x with
  | .reg gid r k => gid = g.gid && i.reads.contains r && (match r with
    | .v _ => bitOf act k
    | _ => true)
  | .spad w => (spReads s g i act).any (inBytes w)
  | .l1 core l => core = g.core && (l1Reads i act).any fun (o, ls) =>
    ls.any fun L => (s.l1Find g.core g.pasid (globalAddr g o L)).any fun y => y.line = l
  | .device .gate => match i with
    | .gateExpect _ | .gateArrive _ | .gatePeek _ | .gateWait _ | .gateWaitLim _ => act ≠ 0
    | _ => false
  | .device .desc => match i with
    | .cpyIn _ | .cpyOut _ | .mrs _ => act ≠ 0
    | _ => false
  | _ => false

/-- What a path's word reads is verified before it takes effect. -/
def State.meetWord (s : State) (g : Group) (i : Option Instr) (lanes : Word) : State :=
  match i with
  | none => s
  | some i => s.meet ⟨some g.ctx, some g.gid⟩ (wordReads s g i (activeIn g i lanes))

/-! Commands of a dray. -/

/-- The words of the vector buffer and the accumulators that a command reads. -/
def drayReads (d : Dray) (i : Instr) : List Nat × List Nat :=
  let unit := (List.range 8).map fun k => 8 * d.vp + k
  match i with
  | .dmac c => (unit, [c.toNat])
  | .dmacx c => (unit ++ [d.vsp % 2048 / 4, (d.vsp + 1) % 2048 / 4], [c.toNat])
  | .dvst _ => (unit, [])
  | .dscale c _ _ => ([], [c.toNat])
  | .dacvt | .dstore .. => ([], List.range 16)
  | _ => ([], [])

/-- What a command reads is verified; its run is charged to the context that launched it (R399). -/
def State.meetCommand (s : State) (key : Nat) (i : Instr) : State :=
  let d := s.dray key
  s.meet (((d.op.bind s.op?).map (·.who)).getD ⟨none, none⟩) fun x => match x with
    | .vb k w => k = key && (drayReads d i).1.contains w
    | .acc k c => k = key && (drayReads d i).2.contains c
    | _ => false

/-! Events. -/

/-- The words of a depot line that an access of `n` bytes reads. -/
def lineReads (p : Place) (n : Nat) (x : Site) : Bool :=
  match p, x with
  | .line l ofs, .depot k w => k = l && inBytes w (ofs, n)
  | _, _ => false

/-- A request's access reads its words; a store only where it writes a part of one. -/
def State.reqReads (s : State) (id : Nat) (x : Site) : Bool :=
  (s.req? id).any fun r => (!r.kind.isStore || decide (r.size < 4)) && lineReads r.place r.size x

/-- The address that an operation accesses next, for REDX of the command given or the first that is left. -/
def Op.nextAccess (o : Op) (idx : Option Nat) : Option (Nat × AccKind) :=
  match o.kind with
  | .cpy isIn d _ coord _ =>
    let x := d.place coord o.pos
    if x.1 then some (x.2.2, if isIn then .read else .write) else none
  | .rst dest _ data _ _ => if o.pos < data.length then some (wrapNat (dest + (o.pos : Int)) 64, .write) else none
  | .wbl w .. => some (w.addr, .read)
  | .redx _ _ base cmds =>
    let left := fun (c : RedxCmd) => !c.done
    ((match idx with
      | some i => cmds[i]?.filter left
      | none => cmds.find? left)).map fun c => (redxAddr base c, .write)
  | .lines inval => (o.unit 128).map fun x => (x.2.1, if inval then .write else .read)
  | .mrs d sc _ c0 c1 =>
    let jj := max 1 (marshalRow d sc).2
    let (x, x0, x1, _) := marshalElems d sc c0 c1 (o.pos / jj) (o.pos % jj)
    some ((x.at_ fun k => if k = 0 then x0 else if k = 1 then x1 else 0).2.2, .read)
  | _ => none

/-- Where that access goes, with its residency. -/
def State.nextPlace (s : State) (o : Op) (idx : Option Nat) : Option (Place × Nat × AccKind) :=
  (o.nextAccess idx).bind fun (va, k) => match s.translate o.core o.pasid va k with
    | .hit pa nc res => match s.placeOf pa nc (o.ctx = 0) with
      | .at p _ => some (p, res, k)
      | _ => none
    | _ => none

/-- An operation's next access reads a site: a word in memory, and for a copy out its word of the scratchpad. -/
def State.opReads (s : State) (id : Nat) (idx : Option Nat) (x : Site) : Bool :=
  (s.op? id).any fun o => (match x, o.kind with
    | .spad w, .cpy false d so _ _ => (s.team? o.team).any fun t => inBytes w (t.sp (so + o.pos * d.elem), d.elem)
    | .device .counter, _ => o.moved
    | _, .cpy false .. => false
    | _, _ => (s.nextPlace o idx).any fun y => lineReads y.1 4 x)

/-- An instruction fetch reads a line. -/
def State.fetchReads (s : State) (core pasid vline : Nat) (x : Site) : Bool :=
  match s.translate core pasid (128 * vline) .fetch with
  | .hit pa nc _ => match s.placeOf pa nc false with
    | .at (.line l _) _ => lineReads (.line l 0) 128 x
    | _ => false
  | _ => false

/-- An event reads what stands at a site. -/
def State.eventReads (s : State) (i : Instr) (x : Site) : Bool :=
  match i with
  | .loadReturn id _ | .homeAtomic id _ | .storeAtHome id => s.reqReads id x
  | .copyGranuleWritten id _ | .marshalSectorWrite id | .waybillHop id => x ≠ .device .counter && s.opReads id none x
  | .redxCommandApply id idx _ => x ≠ .device .counter && s.opReads id (some idx) x
  | .icacheFill core pasid vline => s.fetchReads core pasid vline x
  | .lockRequest _ | .unlockRequest _ | .lockUnitAnswer | .lockGrant | .peerLockRelease .. => x = .device .lock
  | .holdQueueRelease _ => x = .device .hold
  | .teamPlacement | .gridRetire | .doneWrite | .postBoxTake _ => x = .device .task
  | .gateWaitDeadline => x = .device .gate
  | .engineOpComplete id => x = .device .counter && s.opReads id none x
  | _ => false

/-- Who is charged for what an event reads (R399). -/
def State.eventWho (s : State) (c : Cur) (i : Instr) : Who :=
  let none_ : Who := ⟨none, none⟩
  let ofGroup := fun (g : Group) => (⟨some g.ctx, some g.gid⟩ : Who)
  match i with
  | .loadReturn id _ | .homeAtomic id _ | .storeAtHome id | .lockRequest id | .unlockRequest id =>
    ((s.req? id).map s.reqWho).getD none_
  | .copyGranuleWritten id _ | .marshalSectorWrite id | .waybillHop id | .redxCommandApply id _ _ | .engineOpComplete id =>
    ((s.op? id).map (·.who)).getD none_
  | .icacheFill core pasid vline => ((s.fetcher core pasid vline).map ofGroup).getD none_
  | _ => ((s.group? c.gid).map ofGroup).getD none_

/-- What an event reads is verified before it takes effect. -/
def State.meetEvent (s : State) (c : Cur) (i : Instr) : State := s.meet (s.eventWho c i) (s.eventReads i)

end Sys2Proof.Machine
end

