-- ==== Sys2Proof/Machine/Turns.lean ====
section
/-! DEFINITION. The turns of the machine: what each comes to, and what follows the meaning of its instruction (R26, R155,
R342, R386, R405). -/

namespace Sys2Proof.Machine

/-! Turns (R26, R155, R342, R386, R405). -/

/-- What follows the meaning of a turn's instruction: nothing, the end of an issue of a group as it stood, or the end
of an outrider's issue in a state. -/
inductive After where
  | nothing
  | word (before : Group) (i : Instr)
  /-- The end of a word that had waited: the group as it stood at the word's issue, and the registers to put back. -/
  | resumed (before : Group) (i : Instr) (back : RegVals)
  | outrider (s : State) (gid : Nat) (e : OutEntry)

/-- What a turn comes to: a state, or an instruction to execute and what follows it. -/
inductive Plan where
  | done (s : State)
  | run (i : Instr) (s : State) (a : After)

/-- The lanes of an issue leave their back-off. -/
def Group.startWord (g : Group) (lanes : Word) : Group :=
  mapLanes g fun L ln => if bitOf lanes L then { ln with wait := .none } else ln

/-- FAULTACK's disposition stands in a register (R332): the word means the one of the five that it names. -/
def chooseAck (g : Group) (i : Instr) : Instr :=
  match i with
  | .faultackRetry o => match uniN g o.b with
    | 1 => .faultackSkip o
    | 2 => .faultackRegion o
    | 3 => .faultackKill o
    | 4 => .faultackHold o
    | _ => i
  | _ => i

/-- A word that had waited goes on with what it read at its issue: the path is named in `t`. -/
def State.planResumed (t : State) (g : Group) (i : Instr) : Plan :=
  let c := t.cur
  let b := g.putVals ((g.stash.filter fun x => x.of c).flatMap (·.seen))
  let back := regVals g (i.reads.filter fun r => !i.writes.contains r) c.lanes (activeIn b i c.lanes)
  .run (if c.rep.isSome then .repetition else chooseAck b i)
    (t.onGroup g.gid fun x =>
      { x.putVals ((g.stash.filter fun x => x.of c).flatMap (·.seen)) with stash := x.stash.filter fun x => !x.of c })
    (.resumed b i back)

/-- A recorded or replayed task's group has issued a word (R386). -/
def State.countTurn (s : State) (g : Group) : State :=
  match s.serialOf g.grid with
  | some x => s.onSerial x.root fun x => { x with turn := g.gid, count := x.count + 1 }
  | none => s

/-- The turn of a word that its path has found, named in `t`: it has waited for a translation, or is held for the outrider,
or runs. -/
def State.planWord (t : State) (g : Group) (i : Instr) : Plan :=
  if (lanesOf t.cur.lanes).all fun L => (g.lane L).wait = .walk then t.planResumed g i
  else if g.outrider.isSome && kpWord i = .held then .done ((t.holdWord g i).countTurn g)
  else .run (if t.cur.rep.isSome then .repetition else chooseAck g i) t (.word g i)

/-- The turn of a path: the word it finds, with the issuing path named. -/
def State.planIssue (s : State) (gid : Nat) (pc : BitVec 64) (lanes : Word) : Plan :=
  match s.group? gid with
  | none => .done s
  | some g =>
    let w := s.wordAt g pc lanes
    let m := issueLanes g lanes w
    let s := s.meetWord g w.instr? m
    let g := (s.group? gid).getD g
    let at_ := fun (rep : Option (Nat × Nat)) =>
      { s.onGroup gid fun g => g.startWord m with
        cur := { Cur.none with gid := gid, pc := pc, lanes := m, rep := rep, team := g.team, grid := g.grid } }
    match w with
    | .missing => .done (at_ none)
    | .poisoned => .done (raise (at_ none) (addrTrap 0x07 (lowest m) pc.toNat))
    | .illegal => .done (raise (at_ none) ⟨0x01, lowest m, 0, 0⟩)
    | .word i => (at_ none).planWord g i
    | .repeated none n cnt | .spoiled n cnt => .run .repetition (at_ (some (n, cnt))) .nothing
    | .repeated (some i) n cnt => (at_ (some (n, cnt))).planWord g i

/-- Cycles until the next word of a lane of an issue, from the groups before and after it (R45, R173, R228). The inactive
lanes of a BRX, or of a RET whose targets differ, have the 8 of the others (log 68). -/
def nextWordAfter (i : Instr) (before after : Group) (c : Cur) (L : Nat) : Nat :=
  let act := activeIn before i c.lanes
  let branch := fun (n : Nat) => if bitOf act L then n else 1
  let one := (lanesOf act).all fun K => (after.lane K).pc = (after.lane (lowest act)).pc
  match i with
  | .bra _ | .call _ => branch 6
  | .brx _ => if act = 0 then 1 else 8
  | .ret _ => if one then branch 6 else 8
  | .gateWait _ | .gateWaitLim _ => if act = 0 then 1 else 23 + (timingOf before i act).occ
  | .barrier _ => 32
  | .acqBlk _ | .acqOpt _ | .acqAcc _ => 8
  | .relBlk _ | .relOpt _ | .relAcc _ => 4
  | _ => if isSystem i then 16 else 1

/-- The word of a step has issued and is done, or waits and is halted before it (R44, R342): the trap of the step's
record. A word that has not moved a lane and waits only for a translation or an earlier access is issued again first. -/
def State.stepped (s : State) (before : Group) (i : Instr) : State :=
  s.onGroup before.gid fun g =>
    match g.stepFrame, g.trap with
    | some _, none =>
      let ls := (lanesOf s.cur.lanes).map fun L => (before.lane L, g.lane L)
      let idle := ls.any fun (x, y) =>
        x.pc = y.pc && x.k = y.k && !y.exited && (y.wait = .none || y.wait = .walk || y.wait = .held)
      let waits := ls.any fun (_, y) => match y.wait with
        | .none | .unlock => false
        | _ => true
      if idle && !isTransfer i then g
      else
        let info := if waits then 1 else 0
        let act := activeIn before i s.cur.lanes
        let L := lowest (if act = 0 then s.cur.lanes else act)
        { g with faultInfo := faultWord 0x1A L info, trap := some ⟨0x1A, L, info, 0, s.cur.pc, s.ltick⟩ }
    | _, _ => g

/-- After an issue of a word, or after one that had waited went on: when its lanes may issue again, the outrider's queue, and
what the word read where it waits for a translation. -/
def State.settleWord (s : State) (before : Group) (i : Instr) (again : Bool) : State :=
  let gid := before.gid
  let trapped := (s.group? gid).any fun g => g.trap.isSome
  let t := (s.side (sideKey before.core before.side)).cycle
  let s := s.onGroup gid fun g => mapLanes g fun L ln =>
    if bitOf s.cur.lanes L || isSystem i then { ln with readyAt := t + nextWordAfter i before g s.cur L } else ln
  let s := if before.outrider.isNone || trapped then s
    else match kpWord i with
      | .own => s.outQueue before i
      | .leads => s.leadQueue before i again
      | .held => s.onGroup gid fun g => takeWritten before g i s.cur.lanes
  s.onGroup gid fun g => if g.walking s.cur.lanes then { g with stash := g.stash ++ [stashOf before s.cur i] } else g

/-- After the word of an issue: what settles it, the turn of a serial task, a debug step. -/
def State.afterIssue (s : State) (before : Group) (i : Instr) : State :=
  ((s.settleWord before i false).countTurn before).stepped before i

/-- After a word that had waited: the registers that had changed since its issue have their values again. -/
def State.afterWait (s : State) (before : Group) (i : Instr) (back : RegVals) : State :=
  ((s.onGroup before.gid fun g => g.putVals back).settleWord before i true).stepped before i

/-- What follows the instruction of a turn. -/
def After.apply (a : After) (t : State) : State :=
  match a with
  | .nothing => t
  | .word g i => t.afterIssue g i
  | .resumed g i back => t.afterWait g i back
  | .outrider s gid e => s.outriderDone t gid e

/-- Commands of a dray (R288). -/
def isCommand : Instr → Bool
  | .dsel .. | .dadv .. | .dvset .. | .dlset .. | .dloop .. | .dwait .. | .dmac .. | .dmacx .. | .dscol .. | .dvld ..
  | .dvst .. | .dadd .. | .dscale .. | .dazero .. | .dald .. | .dstore .. | .dend | .dacvt => true
  | _ => false

/-- A row of the table that is an event: neither a word nor a command, nor a repetition, which a turn of its path
makes, nor a dray's stop at an illegal command, which a turn of the dray makes. -/
def isEvent (i : Instr) : Bool :=
  match i with
  | .repetition | .drayIllegalCommand => false
  | i => i.view = .other && !isCommand i

/-- The outrider reaches a word that its leader holds (R406): where they agree the word takes effect. -/
def State.planHeld (s : State) (g : Group) (o : Outrider) (e : OutEntry) (rest : List OutEntry) : Plan :=
  let t := { s.onGroup g.gid fun g =>
      { g.setWait e.mask .none with outrider := some { o with queue := rest } } with
    cur := { Cur.none with gid := g.gid, pc := e.pc, lanes := e.mask, rep := e.rep, team := g.team, grid := g.grid } }
  if agreeOn g o e then t.planResumed g e.instr else .done (s.mismatch g)

/-- The turn of an outrider. -/
def State.planOutrider (s : State) (gid : Nat) : Plan :=
  match s.group? gid with
  | none => .done s
  | some g => match g.outHead with
    | none => .done s
    | some (o, e, rest) => match kpWord e.instr with
      | .own => .run e.instr (s.shadow g o e) (.outrider s gid e)
      | .leads => .done (s.outriderTakes g o e rest)
      | .held => s.planHeld g o e rest

/-- The turn of a dray: its command at hand, or its stop (R287, R288). -/
def State.planDray (s : State) (d : DrayId) : Plan :=
  let x := s.dray (drayKey d)
  let s := { s with cur := { Cur.none with dray := d } }
  match x.command x.slot with
  | .ok i => .run i (s.meetCommand (drayKey d) i) .nothing
  | .error _ => .run .drayIllegalCommand s .nothing

/-! The express share (R381). -/

/-- The places whose grant an access from a core needs (log 63): its home slice or stack port, and the die-to-die link. -/
def grantKeys (core : Nat) (p : Place) : List Nat :=
  let link := fun (quarter : Nat) => if p.crosses core then [8192 + 4 * (core / 64) + quarter] else []
  match p with
  | .line l _ => homeSlice l :: link (homeSlice l / 64)
  | .raw st _ _ => (4096 + st) :: link (st / 4)
  | _ => []

/-- A request can have its grant now. -/
def State.mayGrant (s : State) (r : Req) : Bool :=
  match r.place, r.kind with
  | .raw .., _ => (canStackPortRequest r.id s).isSome
  | .line .., .lock => (canLockReq r.id s false).isSome
  | .line .., .unlock => (canLockReq r.id s true).isSome
  | .line .., .store | .line .., .drain false .. => (canStoreAtHome r.id s).isSome
  | .line .., .atom .. | .line .., .red .. | .line .., .cas _ | .line .., .drain true .. => (canHomeAtomic r.id s).isSome
  | .line l ofs, .load .. | .line l ofs, .uload _ | .line l ofs, .poll | .line l ofs, .record =>
    (canLoadReturn r.id s).isSome && match s.serveLine r l ofs with
      | .done .. => true
      | .wait _ => false
  | _, _ => false

/-- A grant: whether it is of the express class, and its places. -/
structure Grant where
  express : Bool
  keys : List Nat
  deriving DecidableEq, Repr

/-- The grant of a lane's request. -/
def State.reqGrant (s : State) (id : Nat) : Option Grant :=
  ((s.req? id).filter fun r => s.mayGrant r).map fun r => ⟨s.express r.gid, grantKeys r.core r.place⟩

/-- The grant of an operation's next access, which its line or its row does not hold up. -/
def State.opGrant (s : State) (id : Nat) (idx : Option Nat) : Option Grant :=
  ((s.op? id).filter fun o => !o.complete).bind fun o => (s.nextPlace o idx).bind fun (p, res, k) =>
    let free : Bool := match p with
      | .line l _ => s.lineReady l res
      | .raw st e d => s.rowsPass [(sectorPlace (s.extent st e).cls st e (d / 64)).1] (.op id)
      | _ => false
    if free && !s.accessBefore o p 1 (k = .write) then some ⟨s.express o.gid, grantKeys o.core p⟩ else none

/-- The grant of a fill at its stack port. -/
def State.fillGrant (s : State) (l : LineId) : Option Grant :=
  (s.wantOf l).bind fun w =>
    if s.victim l w.res ≠ .wait && s.rowsPass (s.lineRows l) (.fill l) then some ⟨w.gid.any s.express, [4096 + l.stack]⟩ else none

/-- The grant of the oldest work that waits at a row, but for what goes on by an event of its own. -/
def State.rowGrant (s : State) (row : RowId) : Option Grant :=
  ((s.rowQueue row).head?.filter fun w => s.rowsPass [row] w).bind fun w => match w with
    | .op _ | .walk _ => none
    | w => some ⟨s.workExpress w, [4096 + row.stack]⟩

/-- The grant that an event makes, if it can be had now. -/
def State.grantOf (s : State) (i : Instr) : Option Grant :=
  match i with
  | .loadReturn id _ | .storeAtHome id | .homeAtomic id _ | .lockRequest id | .unlockRequest id | .stackPortRequest id =>
    s.reqGrant id
  | .copyGranuleWritten id _ | .rstFlagAdd id | .lineMaintenance id _ | .marshalSectorWrite id | .waybillHop id => s.opGrant id none
  | .redxCommandApply id idx _ => s.opGrant id (some idx)
  | .depotFill l => s.fillGrant l
  | .holdQueueRelease row => s.rowGrant row
  | _ => none

/-- What waits for a grant: requests, operations, fills, and rows where something waits. -/
def State.grantsWaiting (s : State) : List Grant :=
  s.eng.reqs.filterMap (fun r => s.reqGrant r.id) ++ s.eng.ops.filterMap (fun o => s.opGrant o.id none)
  ++ s.mem.wants.filterMap (fun w => s.fillGrant w.line)
  ++ (s.mem.bankQ.map (·.row) ++ (s.mem.holdQ ++ s.mem.linkQ).map (·.row)).eraseDups.filterMap s.rowGrant

/-- A grant of the express class waits at a place. -/
def State.expressWaits (s : State) (k : Nat) : Bool := s.grantsWaiting.any fun x => x.express && x.keys.contains k

/-- The grants that an event makes are counted; nothing where they are due to the express class (R381). -/
def State.grantShare (s : State) (i : Instr) : Option State :=
  match if s.expShare = 0 then none else s.grantOf i with
  | none => some s
  | some x =>
    if !x.express && x.keys.any fun k => s.expressDue k && s.expressWaits k then none
    else some (x.keys.foldl (fun s k => s.granted k x.express) s)

/-- An event of the machine comes. -/
def State.planEvent (s : State) (c : Cur) (i : Instr) : Plan :=
  if !(isEvent i && i.wf) then .done s
  else match s.grantShare i with
    | none => .done s
    | some s => .run i { s.meetEvent c i with cur := c } .nothing

/-- What a turn comes to; the lease clock starts in stage 3 of bring-up (R432). -/
def State.plan (s : State) (t : Turn) : Plan :=
  match t with
  | .tick n => .done (if 3 ≤ s.yuren.stage then { s with ltick := s.ltick + n } else s)
  | .event c i => s.planEvent c i
  | .dray d => if d.ok then s.planDray d else .done s
  | .issue gid pc lanes => s.planIssue gid pc lanes
  | .outrider gid => s.planOutrider gid

/-- The next turn: the agenda's first, else a free one, which is never a turn of a path (log 1). -/
def State.takeTurn (s : State) : Turn × State :=
  match s.agenda with
  | t :: ts => (t, { s with agenda := ts })
  | [] =>
    let t := match Config.nextTurn s.free with
      | .issue .. | .outrider _ => .tick 0
      | t => t
    (t, { s with free := s.free + 1 })

/-! Placing one instruction where the next step fetches it. -/

/-- A group of 32 lanes at address 0 of core 0, with the word in its instruction line. -/
def State.placeWord (s : State) (w : Nat) : State :=
  let gid := s.nextId
  let lane : Lane := { defaultLane with exited := false, rnd := 1 }
  let g : Group :=
    { gid := gid, team := gid, grid := 0, ctx := 0, pasid := 0, groupId := 0, teamId := 0, core := 0, side := 0, slot := 0
      kclass := 0, cls := 2, depth := 1, sup := false, kernel := 0, cntGrant := false, lanes := List.replicate 32 lane
      v := [], s := [], p := [], t := [], a := [], h := 0, j := 0, m := 0, gen := gid, blkGen := [], fpstat := 0, srseed := 1
      dropret := 0, faultInfo := 0, maskRows := [], maskMode := 0, maskFill := 0, errs := [], lost := [], recErrs := []
      recLost := [], counterRec := none, barriers := 0, atBarrier := false, pend := [], stash := [], seq := 0, halt := .running
      ppoint := none, imprecise := 0, impInfo := [], trap := none, hold := false, stepFrame := none, dbgHalt := 0
      dbgPath := 0, restarts := [], peerMarks := [], frame := none, returns := [], dead := [], frameWait := false
      haltedAt := 0, parked := false, trapRec := 0, ctxNum := 0, outrider := none, ended := false }
  let line : ICLine :=
    { core := 0, pasid := 0, vline := 0, bytes := leBytes 8 w ++ List.replicate 120 0, poison := 0, expiry := s.ltick + 1 }
  { s with
    agenda := [.issue gid 0 0xFFFFFFFF#32], nextId := gid + 1, groups := s.groups ++ [g]
    mem := { s.mem with ic := line :: s.mem.ic } }

/-- A command in slot 0 of the first dray, which runs. -/
def State.placeCommand (s : State) (w : Nat) : State :=
  let s := s.onDray 0 fun d =>
    { d with store := sset 0 d.store 0 (BitVec.ofNat 32 w), slot := 0, op := some s.nextId, rows := [], bcast := false }
  { s with agenda := [.dray ⟨0, 0, 0⟩], nextId := s.nextId + 1 }

end Sys2Proof.Machine
end

