-- ==== Sys2Proof/Machine/Step.lean ====
section
/-! DEFINITION. One step: the next turn, its instruction's meaning, and what follows it. -/

namespace Sys2Proof.Machine

def step (s : State) : Host.Outcome State Fault Refusal :=
  match s.takeTurn.2.plan s.takeTurn.1 with
  | .done t => .next t
  | .run i t a => match exec i t with
    | .next u => .next (a.apply u)
    | .fault f => .fault f
    | .refused r => .refused r

/-- The state in which the next step fetches the instruction of `nbits` bits whose bits are `w`: a dray command in a
running dray, or a kernel word in the instruction line of a resident group (log 1). -/
def State.withFetchWord (s : State) (nbits w : Nat) : State :=
  if nbits ≤ 32 then s.placeCommand w else s.placeWord w

end Sys2Proof.Machine
end

