-- ==== Sys2Proof/Safety.lean ====
section
/-! DEFINITION. The terms in which the statements speak: when a word goes ahead, what stays as it was, what a result
is by the rules' own arithmetic, and the canonical form that every step keeps. -/

namespace Sys2Proof.Machine

/-! Canonical states. -/

/-- An operand tile whose byte maps are canonical. -/
abbrev Tile.Canonical (t : Tile) : Prop := swf 0 t.bytes = true ∧ swf 0 t.scales = true

/-- A group of 32 lanes (R17) whose register maps are canonical. -/
abbrev Group.Canonical (g : Group) : Prop :=
  g.lanes.length = 32 ∧ swf ⟨0, false⟩ g.v = true ∧ swf ⟨0, false⟩ g.s = true ∧ swf ⟨0, 0⟩ g.p = true
    ∧ (∀ o ∈ g.outrider, swf ⟨0, false⟩ o.v = true ∧ swf ⟨0, false⟩ o.s = true ∧ swf ⟨0, 0⟩ o.p = true)
    ∧ swf ⟨0, false⟩ g.a = true ∧ swf emptyTile g.t = true ∧ (∀ x ∈ g.t, x.2.Canonical)
    ∧ swf 0 g.maskRows = true ∧ swf 0 g.impInfo = true ∧ swf 0 g.blkGen = true

/-- The maps of the scratchpads and of the sides are canonical. -/
abbrev Cores.Canonical (c : Cores) : Prop :=
  swf 0 c.spad = true ∧ swf false c.gate = true ∧ swf false c.poison = true ∧ swf 0 c.reload = true
    ∧ swf Side.reset c.sides = true ∧ (∀ x ∈ c.sides, swf 0 x.2.evsel = true ∧ swf 0 x.2.evcnt = true)
    ∧ swf Elig.reset c.elig = true

/-- The maps of a dray are canonical. -/
abbrev Dray.Canonical (d : Dray) : Prop :=
  swf 0 d.store = true ∧ swf 0 d.vb = true ∧ swf false d.vbTag = true ∧ swf ⟨0, false⟩ d.acc = true
    ∧ swf [] d.latch = true ∧ ∀ x ∈ d.open_, swf 0 x.bytes = true

/-- Memory, the scratchpads, every group's registers and every other map are canonical, a depot line has its 128 bytes
(R82), scratchpad sizes are multiples of 768 bytes (R168), and numbers of operations, requests, teams and groups are
below the next fresh one. -/
abbrev State.Canonical (s : State) : Prop :=
  Memory.wf s.mem.raw = true ∧ s.cores.Canonical ∧ (∀ g ∈ s.groups, g.Canonical)
    ∧ (∀ x ∈ s.mem.depot, x.bytes.length = 128) ∧ 0 < s.nextId
    ∧ (∀ o ∈ s.eng.ops, o.id < s.nextId) ∧ (∀ r ∈ s.eng.reqs, r.id < s.nextId)
    ∧ swf emptyCtx s.ctxs = true ∧ swf Extent.reset s.rel.ext = true ∧ (∀ t ∈ s.teams, swf Desc.invalid t.descs = true)
    ∧ swf Dray.reset s.drays.drays = true ∧ (∀ x ∈ s.drays.drays, x.2.Canonical)
    ∧ swf [] s.drays.queue = true ∧ swf ⟨0, 0⟩ s.drays.bcast = true
    ∧ swf 0 s.rel.scrub = true ∧ swf emptySlot s.xl.slots = true
    ∧ (∀ t ∈ s.teams, t.id < s.nextId) ∧ (∀ g ∈ s.groups, g.gid < s.nextId)
    ∧ (∀ d ∈ s.disp.grids, d.kernel.spbytes % 768 = 0) ∧ swf 0 s.yuren.mboxBuf = true ∧ swf 0 s.mem.grants = true

/-! When a word has its own effect. -/

/-- The word is legal, its group issues and holds every register that the word names (R38), and no active lane's guard
bit carries poison (R91). -/
abbrev GoesAhead (i : Instr) (gd : Guard) (s : State) (g : Group) : Prop :=
  i.wf = true ∧ s.group? s.cur.gid = some g ∧ g.Canonical
    ∧ (∀ r ∈ i.writes ++ i.reads, regHeld g r = true)
    ∧ activeOf g s.cur gd &&& (rdP g gd.pg.toNat).tags = 0

/-- As `GoesAhead`, for a word that needs every lane of its group at it (R34). -/
abbrev GoesTogether (i : Instr) (gd : Guard) (s : State) (g : Group) : Prop :=
  GoesAhead i gd s g ∧ s.cur.lanes = 0xFFFFFFFF#32 ∧ activeOf g s.cur gd = 0xFFFFFFFF#32 ∧ g.running = 0xFFFFFFFF#32

/-- Lane `L` is active at the issue under a guard (R25, R150). -/
abbrev active (s : State) (g : Group) (gd : Guard) (L : Nat) : Prop := bitOf (activeOf g s.cur gd) L = true

/-! What stays as it was. -/

/-- Nothing of the machine differs but the issuing group: all of memory, the scratchpads, every other group. -/
abbrev OnlyIssuer (s t : State) : Prop :=
  { t with groups := s.groups } = s ∧ ∀ k, k ≠ s.cur.gid → t.group? k = s.group? k

/-- The instruction runs to a state in which only the issuing group differs, and that group meets `P`. -/
abbrev RunsTo (i : Instr) (s : State) (P : Group → Prop) : Prop :=
  ∃ t g', exec i s = .next t ∧ OnlyIssuer s t ∧ t.group? s.cur.gid = some g' ∧ P g'

/-- As `RunsTo`, for a word that also changes its team: nothing but groups and teams differs. -/
abbrev RunsTo' (i : Instr) (s : State) (g : Group) (P : State → Group → Prop) : Prop :=
  ∃ t g', exec i s = .next t ∧ { t with groups := s.groups, teams := s.teams } = s
    ∧ (∀ k, k ≠ s.cur.gid → t.group? k = s.group? k) ∧ t.group? g.gid = some g' ∧ P t g'

/-- A lane of the issue after the word: on at PC + 8, or inside a repeat prefix at the next repetition, and past both
words after the last (R140, R155). -/
def nextLane (c : Cur) (ln : Lane) : Lane :=
  match c.rep with
  | none => { ln with pc := c.pc + 8, polls := 0 }
  | some (n, cnt) => if n < cnt then { ln with k := n + 1 } else { ln with k := 0, pc := c.pc + 16 }

/-- A lane of the issue that waits at the word; under a prefix the repetitions are kept (R155). -/
def waitingLane (c : Cur) (ln : Lane) (w : Wait) : Lane :=
  { ln with wait := w, cnt := match c.rep with | some x => x.2 | none => 0 }

/-- A lane that waited at its word goes on from it: past it, or at the next repetition of its prefix (R155). -/
def leftLane (ln : Lane) : Lane :=
  { (if ln.cnt = 0 then { ln with pc := ln.pc + 8 }
     else if ln.k < ln.cnt then { ln with k := ln.k + 1 } else { ln with k := 0, pc := ln.pc + 16 }) with
    wait := .none, polls := 0, cnt := 0 }

/-- The lanes of the issue go on, but for those of `stay`; no other lane changes. -/
abbrev MovesOn (c : Cur) (stay : Word) (g g' : Group) : Prop :=
  ∀ L < 32, g'.lane L = if bitOf c.lanes L && !bitOf stay L then nextLane c (g.lane L) else g.lane L

/-- Of the lanes of the issue the active ones become what `t` says and the others go on; no other lane changes. -/
abbrev LanesBecome (s : State) (gd : Guard) (g g' : Group) (t : Nat → Lane → Lane) : Prop :=
  ∀ L < 32, g'.lane L =
    if bitOf (activeOf g s.cur gd) L then t L (g.lane L)
    else if bitOf s.cur.lanes L then nextLane s.cur (g.lane L) else g.lane L

/-- Nothing of a group differs but its lanes' places and waits. -/
abbrev OnlyLanes (g g' : Group) : Prop := { g' with lanes := g.lanes } = g

/-- `L` is the lowest active lane that meets `p`. -/
abbrev FirstLane (s : State) (g : Group) (gd : Guard) (p : Nat → Prop) (L : Nat) : Prop :=
  L < 32 ∧ active s g gd L ∧ p L ∧ ∀ K < L, active s g gd K → ¬ p K

/-- Every active lane's scratchpad access is untagged, aligned and within its team's allocation (R221). -/
abbrev SpReaches (s : State) (g : Group) (gd : Guard) (o : MForm) (size : Nat) : Prop :=
  ∀ L < 32, active s g gd L → (mBaseVal g o false L).tag = false ∧ spOffset g o L % (size : Int) = 0
    ∧ 0 ≤ spOffset g o L ∧ spOffset g o L + size ≤ teamSize s g

/-- No active lane's access meets a live gate (R77). -/
abbrev NoGate (s : State) (g : Group) (gd : Guard) (o : MForm) (size : Nat) : Prop :=
  ∀ L < 32, active s g gd L → ∀ i < size, spGate s.cores (spPhys s g (offN g o L) + i) = false

/-- Only the issuing group, scratchpad bytes and their poison, and where the word releases, the open marks of its
group differ. -/
abbrev OnlyScratch (s t : State) (rel : Bool) : Prop :=
  { t with groups := s.groups, cores := s.cores, mem := s.mem } = s
    ∧ { t.cores with spad := s.cores.spad, poison := s.cores.poison } = s.cores
    ∧ t.mem = (if rel then (s.clearMarks s.cur.gid .t).mem else s.mem)
    ∧ ∀ k, k ≠ s.cur.gid → t.group? k = s.group? k

/-- Every active lane's global access is untagged and aligned (R221). -/
abbrev GlReaches (s : State) (g : Group) (gd : Guard) (o : MForm) (size : Nat) : Prop :=
  ∀ L < 32, active s g gd L → (mBaseVal g o true L).tag = false ∧ globalAddr g o L % size = 0

/-- The requests `rs` are in flight in `t`; those to peers that nothing holds back have gone out (R99, R100, R126). -/
abbrev Outgoing (s t : State) (rs : List Req) : Prop :=
  ∃ qs, t.eng.reqs = s.eng.reqs ++ qs ∧ qs.map (fun q => { q with sent := false }) = rs
    ∧ ∀ q ∈ qs, (q.sent = true ↔ (∃ k ofs nc, q.place = .peer k ofs nc) ∧ t.reqWaits q = false)

/-- The word puts the requests `rs` and the operations `ops` in flight, and changes nothing else but its group, the
numbering of requests, the fabric's queue for requests to peers, and its core's own first-level copies. -/
abbrev PutsInFlight (i : Instr) (s : State) (rs : List Req) (ops : List Op) (P : State → Group → Prop) : Prop :=
  (∀ q ∈ s.eng.reqs, q.id < s.nextId) → ∃ t g', exec i s = .next t
    ∧ { t with groups := s.groups, eng := s.eng, nextId := s.nextId, fab := s.fab, sent := s.sent, mem := s.mem } = s
    ∧ { t.mem with l1 := s.mem.l1 } = s.mem
    ∧ { t.fab with seqs := s.fab.seqs, out := s.fab.out } = s.fab
    ∧ (∀ g, s.group? s.cur.gid = some g →
        (t.mem.l1.filter fun x => x.core ≠ g.core) = s.mem.l1.filter fun x => x.core ≠ g.core)
    ∧ Outgoing s t rs ∧ t.eng.ops = s.eng.ops ++ ops
    ∧ (∀ k, k ≠ s.cur.gid → t.group? k = s.group? k) ∧ t.group? s.cur.gid = some g' ∧ P t g'

/-- A register reads the same in two states of a group. -/
abbrev SameReg (g g' : Group) : RegName → Prop
  | .v n => ∀ L < 32, rdV g' n L = rdV g n L
  | .s n => rdS g' n = rdS g n
  | .p n => rdP g' n = rdP g n
  | .t n => rdT g' n = rdT g n
  | .a n => ∀ i < 32, ∀ j < 32, rdA g' n i j = rdA g n i j
  | .x _ => True

/-- A group differs at most in its lane, uniform and predicate registers, FPSTAT and where its lanes stand. -/
abbrev OnlyRegs (g g' : Group) : Prop :=
  { g' with v := g.v, s := g.s, p := g.p, fpstat := g.fpstat, lanes := g.lanes } = g

/-- The words that act on nothing but their own group's lane, uniform and predicate registers. -/
def regWord : Instr → Bool
  | .pairWord .. | .add _ | .sub _ | .addc _ | .subc _ | .neg _ | .abs _
  | .addImm _ | .subImm _ | .andImm _ | .orImm _ | .xorImm _ | .minImm _ | .maxImm _ | .movImm _ | .movI64Imm _
  | .mul _ | .mulHi _ | .mulWide _ | .mad _ | .madHi _ | .madWide _ | .min _ | .max _
  | .and _ | .or _ | .xor _ | .not _ | .andn _ | .orn _ | .xnor _ | .shl _ | .shr _ | .sar _ | .rol _ | .ror _
  | .bfe _ | .bfi _ | .popc _ | .clz _ | .brev _ | .icmpp .. | .sel _ | .mov _ | .movI64 _
  | .lea _ | .leaN _ | .leaS _ | .dot4 _ | .uniformForm _
  | .pand _ | .por _ | .pxor _ | .pandn _ | .porn _ | .pnot _ | .pmov _ | .p2s _ | .s2p _
  | .shfl .. | .voteOr _ | .voteAnd _ | .voteMask _ | .matchPeers _ | .matchSame _ | .scan ..
  | .fadd _ | .fsub _ | .fmul _ | .ffma _ | .ffms _ | .ffnma _ | .fmin _ | .fmax _ | .fcmpp .. | .fclass _
  | .cvt .. | .padd _ | .pmul _ | .pfma _ | .pmin _ | .pmax _ | .fseed .. | .frred _ | .fscale _ | .fexp _ | .fmant _
  | .cvtblk .. => true
  | _ => false

/-- The guard of a word; a pair word and the prefix have none, so that every lane of the path is active (R150). -/
def guardOf (i : Instr) : Guard := (i.view.guard).getD ⟨0, false⟩

/-- A group that has taken a trap: FAULTINFO holds code, lane and INFO, the group halts, and no lane, register or tile
changes (R328, R330, R331). -/
def Group.trapped (g : Group) (t : TrapReq) (pc : BitVec 64) (tick : Nat) : Group :=
  { g with
    faultInfo := BitVec.ofNat 5 t.code ++ BitVec.ofNat 5 t.lane ++ BitVec.ofNat 54 t.info
    trap := some { code := t.code, lane := t.lane, info := t.info, full := t.full, pc := pc, tick := tick }
    halt := match g.halt with
      | .running | .window _ => .halting .trap
      | .halting c => .halting (if c = .step then .step else .trap)
      | .halted c => .halted (if c = .step then .step else .trap)
      | .framed c => .framed (if c = .step then .step else .trap) }

/-- Nothing differs but the issuing group and what its side counts: no byte of memory or of a scratchpad. -/
abbrev OnlyIssuerTrapped (s t : State) : Prop :=
  { t with groups := s.groups, cores := s.cores } = s ∧ { t.cores with sides := s.cores.sides } = s.cores
    ∧ ∀ k, k ≠ s.cur.gid → t.group? k = s.group? k

/-- The instruction raises a precise trap in its group, which has none to deliver: the trap names the word, and
nothing else happens (R330). -/
abbrev Traps (i : Instr) (s : State) (g : Group) (t : TrapReq) : Prop :=
  ∃ u, exec i s = .next u ∧ OnlyIssuerTrapped s u
    ∧ u.group? s.cur.gid = some (g.trapped t (if s.cur.rep.isSome then s.cur.pc + 8 else s.cur.pc) s.ltick)

/-- The word draws from its lanes' stochastic registers (R56). -/
def draws : Instr → Bool
  | .cvt _ o | .cvtblk _ o => o.rm = .rs
  | _ => false

/-! What the integer words compute, in the arithmetic of bit vectors and integers (R170, R182 to R194). -/

/-- `num(x)` of R170. -/
def numBV {w : Nat} (signed : Bool) (x : BitVec w) : Int := if signed then x.toInt else x.toNat

/-- The exact result of the operations that `.sat` may clamp; none for the others. -/
def exactInt (op : IntOp) (ty : Ty) (a b c : Nat) : Option Int :=
  let n := fun x => numBV ty.signed (BitVec.ofNat ty.bits x)
  match op with
  | .add => some (n a + n b)
  | .sub => some (n a - n b)
  | .neg => some (-n a)
  | .abs => some |n a|
  | .mul => some (n a * n b)
  | .mad => some (n a * n b + n c)
  | _ => none

/-- The least and greatest number of a type (R51). -/
def tyMin (ty : Ty) : Int := if ty.signed then -2 ^ (ty.bits - 1) else 0
def tyMax (ty : Ty) : Int := if ty.signed then 2 ^ (ty.bits - 1) - 1 else 2 ^ ty.bits - 1

/-- The result of an integer operation; `sh` is the shift of LEA. -/
def intMeaning (op : IntOp) (ty : Ty) (sat : Bool) (sh a b c : Nat) : Nat :=
  let w := ty.bits
  let A := BitVec.ofNat w a
  let B := BitVec.ofNat w b
  let n := fun x => numBV ty.signed (BitVec.ofNat w x)
  let A32 := BitVec.ofNat 32 a
  let pos := min (b % 256) 32
  let len := min (b / 256 % 256) (32 - pos)
  let cpos := min (c % 256) 32
  let clen := min (c / 256 % 256) (32 - cpos)
  let low := (BitVec.allOnes clen).setWidth 32
  match exactInt op ty a b c with
  | some x => (BitVec.ofInt w (if sat then max (tyMin ty) (min (tyMax ty) x) else x)).toNat
  | none => match op with
    | .mulHi => ((BitVec.ofInt 64 (n a * n b)).extractLsb' 32 32).toNat
    | .mulWide => (BitVec.ofInt 64 (n a * n b)).toNat
    | .madHi => ((BitVec.ofInt 64 (n a * n b)).extractLsb' 32 32 + BitVec.ofNat 32 c).toNat
    | .madWide => (BitVec.ofInt 64 (n a * n b) + BitVec.ofNat 64 c).toNat
    | .min => if n a ≤ n b then A.toNat else B.toNat
    | .max => if n a ≤ n b then B.toNat else A.toNat
    | .and => (A &&& B).toNat
    | .or => (A ||| B).toNat
    | .xor => (A ^^^ B).toNat
    | .not => (~~~A).toNat
    | .andn => (A &&& ~~~B).toNat
    | .orn => (A ||| ~~~B).toNat
    | .xnor => (~~~(A ^^^ B)).toNat
    | .shl => (A <<< (b % 256)).toNat
    | .shr => (A >>> (b % 256)).toNat
    | .sar => (A.sshiftRight (b % 256)).toNat
    | .rol => (A.rotateLeft (b % 256)).toNat
    | .ror => (A.rotateRight (b % 256)).toNat
    | .bfe => (if ty = .i32 then ((A32 >>> pos).setWidth len).signExtend 32 else ((A32 >>> pos).setWidth len).setWidth 32).toNat
    | .bfi => ((BitVec.ofNat 32 b &&& ~~~(low <<< cpos)) ||| ((A32 &&& low) <<< cpos)).toNat
    | .popc => (List.range 32).countP fun i => A32.getLsbD i
    | .clz => ((List.range 32).find? fun i => A32.getLsbD (31 - i)).getD 32
    | .brev => A32.reverse.toNat
    | .lea => (BitVec.ofNat 64 a + ((BitVec.ofNat 32 b).signExtend 64 <<< sh)).toNat
    | .leaN => (BitVec.ofNat 64 a + ((BitVec.ofNat 32 b).setWidth 64 <<< sh)).toNat
    | .leaS => (A32 + (BitVec.ofNat 32 b <<< sh)).toNat
    | _ => a

/-- The operands of an integer R-form word in a lane (R169, R181): a, b and c, and the registers of d. -/
def intOperands (uni : Bool) (op : IntOp) (o : RForm) (g : Group) (L : Nat) : Val × Val × Val :=
  let w := intWidths op o.ty
  (srcA uni g o w.1 L, if w.2.1 = 0 then ⟨0, false⟩ else srcB uni g o w.2.1 L w.2.2.2.2,
    if w.2.2.1 = 0 then ⟨0, false⟩ else srcC uni g o w.2.2.1 L)

/-- An integer operation on its operands: value and tag (R90), and whether `.sat` clamped. -/
def intAnswer (op : IntOp) (o : RForm) (x : Val × Val × Val) : Val × Bool :=
  (⟨intMeaning op o.ty o.sat o.c.toNat x.1.n x.2.1.n x.2.2.n, x.1.tag || x.2.1.tag || x.2.2.tag⟩,
    o.sat && (exactInt op o.ty x.1.n x.2.1.n x.2.2.n).any fun y => !(decide (tyMin o.ty ≤ y) && decide (y ≤ tyMax o.ty)))

/-- The result of an I-form operation (R193). -/
def immMeaning (op : IntImmOp) (a : Nat) (imm : BitVec 32) : Nat :=
  let A := BitVec.ofNat 32 a
  match op with
  | .add => (A + imm).toNat
  | .sub => (A - imm).toNat
  | .and => (A &&& imm).toNat
  | .or => (A ||| imm).toNat
  | .xor => (A ^^^ imm).toNat
  | .min => (if A.toInt ≤ imm.toInt then A else imm).toNat
  | .max => (if A.toInt ≤ imm.toInt then imm else A).toNat
  | .mov => imm.toNat
  | .movI64 => (imm.signExtend 64).toNat

/-- The word of an access that fills register `i` of its destination (R147, R224). -/
def loadMeaning (signed : Bool) (bs : List Byte) (i : Nat) : Word :=
  let b := fun (k : Nat) => bs.getD k 0
  match bs.length with
  | 1 => if signed then (b 0).signExtend 32 else (b 0).setWidth 32
  | 2 => if signed then (b 1 ++ b 0).signExtend 32 else (b 1 ++ b 0).setWidth 32
  | _ => b (4 * i + 3) ++ b (4 * i + 2) ++ b (4 * i + 1) ++ b (4 * i)

/-! What the floating-point words compute, in the arithmetic of rational numbers (R52, R55, R57, R202). -/

/-- The number that a finite value stands for. -/
def FVal.rat : FVal → ℚ
  | .fin neg m e => (if neg then -1 else 1) * m * (2 : ℚ) ^ e
  | _ => 0

/-- A value that is neither a NaN nor an infinity. -/
def FVal.finite : FVal → Bool
  | .fin .. => true
  | _ => false

/-- The number of a code without a sign, up to the largest finite one. -/
def codeRat (t : Fmt) (c : Nat) : ℚ := (unpack t c).rat

/-- The formats of R52. -/
def formats : List Fmt := [fF32, fBF16, fF16, fE4M3, fE5M2, fE2M1]

/-- Of two values that are not NaN, the first is less than the second; zeros are equal. -/
def FVal.below : FVal → FVal → Bool
  | .inf a, .inf b => a && !b
  | .inf a, _ => a
  | _, .inf b => !b
  | x, y => decide (x.rat < y.rat)

/-- As `FVal.below`, with −0 less than +0 (R203). -/
def FVal.smaller (x y : FVal) : Bool := x.below y || (!y.below x && isNegZero x && !isNegZero y)

/-- FMIN and FMAX of two patterns, and INV (R203). -/
def minMaxMeaning (t : Fmt) (isMax : Bool) (a b : Nat) : Nat × Flags :=
  let x := unpack t a
  let y := unpack t b
  (if isNan x && isNan y then t.nan else if isNan x then b else if isNan y then a
   else if (if isMax then x.smaller y else y.smaller x) then b else a,
   if isSnan x || isSnan y then fINV else 0)

/-- A comparison of two patterns, and INV (R204). -/
def compareMeaning (t : Fmt) (k : FCmp) (a b : Nat) : Bool × Flags :=
  let x := unpack t a
  let y := unpack t b
  let nan := isNan x || isNan y
  let inv := fun (p : Bool) => if p then fINV else 0
  let quiet := inv (isSnan x || isSnan y)
  match k with
  | .eq => (!nan && !x.below y && !y.below x, quiet)
  | .ne => (nan || x.below y || y.below x, quiet)
  | .lt => (!nan && x.below y, inv nan)
  | .le => (!nan && !y.below x, inv nan)
  | .gt => (!nan && y.below x, inv nan)
  | .ge => (!nan && !x.below y, inv nan)
  | .un => (nan, quiet)
  | .ord => (!nan, quiet)

/-- A subnormal under `.ftz` is zero of its sign (R59). -/
def flushed (t : Fmt) (ftz : Bool) (n : Nat) : Nat :=
  if ftz && isSubnormal t n then t.sign (natBit n (t.e + t.f)) else n

/-- One element of R202 and R203, with the flags: `.ftz` on the inputs and on the result (R59). -/
def arithMeaning (op : FOp) (t : Fmt) (rm : Rm) (ftz : Bool) (a b c : Nat) : Nat × Flags :=
  let v := fun n => unpack t (flushed t ftz n)
  let used := if op = .fma ∨ op = .fms ∨ op = .fnma then [a, b, c] else [a, b]
  let r := match op with
    | .add => fAddV t rm (v a) (v b)
    | .sub => fAddV t rm (v a) (v b).negate
    | .mul => fMulV t rm (v a) (v b)
    | .fma => fFmaV t rm (v a) (v b) (v c)
    | .fms => fFmaV t rm (v a) (v b) (v c).negate
    | .fnma => fFmaV t rm (v a).negate (v b) (v c)
    | .min => minMaxMeaning t false (flushed t ftz a) (flushed t ftz b)
    | .max => minMaxMeaning t true (flushed t ftz a) (flushed t ftz b)
  (flushed t ftz r.1,
    r.2 ||| (if ftz && isSubnormal t r.1 then fUNF ||| fINX else 0) ||| if ftz && used.any (isSubnormal t) then fDEN else 0)

/-- Two packed elements (R206). -/
def packMeaning (op : FOp) (t : Fmt) (rm : Rm) (ftz : Bool) (a b c : Nat) : Nat × Flags :=
  let el := fun k => arithMeaning op t rm ftz (a / 2 ^ (16 * k) % 2 ^ 16) (b / 2 ^ (16 * k) % 2 ^ 16) (c / 2 ^ (16 * k) % 2 ^ 16)
  ((el 0).1 + 2 ^ 16 * (el 1).1, (el 0).2 ||| (el 1).2)

/-- The tree of R69: what stands in lane `i` after the steps `ds`, and the flags of every rounding. -/
def scanTree (f : Nat → Nat → Nat × Flags) (h : Nat → Nat) : List Nat → (Nat → Nat) → Nat → Nat
  | [], y, i => y i
  | d :: ds, y, i => scanTree f h ds (fun k => if h k + d ≤ k then (f (y k) (y (k - d))).1 else y k) i
def scanFlags (f : Nat → Nat → Nat × Flags) (h : Nat → Nat) : List Nat → (Nat → Nat) → Flags
  | [], _ => 0
  | d :: ds, y =>
    ((List.range 32).filter fun k => decide (h k + d ≤ k)).foldl (fun fl k => fl ||| (f (y k) (y (k - d))).2) 0
    ||| scanFlags f h ds (fun k => if h k + d ≤ k then (f (y k) (y (k - d))).1 else y k)

/-- The operator of a floating SCAN (R69, R203). -/
def scanOperator (op : ScanOp) (a b : Nat) : Nat × Flags :=
  match op with
  | .add => fAddV fF32 .rn (unpack fF32 a) (unpack fF32 b)
  | .min => minMaxMeaning fF32 false a b
  | _ => minMaxMeaning fF32 true a b

/-- The result of a pair slot from its registers a, b and d (R153): the full-format operation, with the slot's
immediate, shift or modifiers from PI. -/
def slotMeaning (x : Slot) (a b d : Nat) : Nat :=
  let pi := x.pi.toNat
  let imm := (x.pi.signExtend 32).toNat
  let rm := (Rm.ofCode (natBits pi 6 4)).getD .rn
  let ftz := natBit pi 3
  let int := fun op (ty : Ty) sat sh y => intMeaning op ty sat sh a y 0
  let fl := fun op => (arithMeaning op fF32 rm ftz a b d).1
  let pk := fun op t => (packMeaning op t rm ftz a b d).1
  match x.pop with
  | .add => int .add .i32 (natBit pi 6) 0 b
  | .sub => int .sub .i32 (natBit pi 6) 0 b
  | .addI => int .add .i32 false 0 imm
  | .and => int .and .i32 false 0 b
  | .or => int .or .i32 false 0 b
  | .xor => int .xor .i32 false 0 b
  | .andI => int .and .i32 false 0 imm
  | .orI => int .or .i32 false 0 imm
  | .xorI => int .xor .i32 false 0 imm
  | .shl => int .shl .i32 false 0 (pi % 32)
  | .shr => int .shr .i32 false 0 (pi % 32)
  | .sar => int .sar .i32 false 0 (pi % 32)
  | .mov => a
  | .movI => imm
  | .minI32 => int .min .i32 false 0 b
  | .maxI32 => int .max .i32 false 0 b
  | .minN32 => int .min .n32 false 0 b
  | .maxN32 => int .max .n32 false 0 b
  | .leaS => int .leaS .i32 false (natBits pi 6 5) b
  | .faddF32 => fl .add
  | .fsubF32 => fl .sub
  | .fmulF32 => fl .mul
  | .ffmaF32 => fl .fma
  | .fminF32 => fl .min
  | .fmaxF32 => fl .max
  | .paddBf16 => pk .add fBF16
  | .pmulBf16 => pk .mul fBF16
  | .pfmaBf16 => pk .fma fBF16
  | .paddF16 => pk .add fF16
  | .pmulF16 => pk .mul fF16
  | .pfmaF16 => pk .fma fF16

/-! Tiles and the matrix slice. -/

/-- Every row's scratchpad access of a tile word is untagged, aligned and within its team's allocation, and where a
scale vector moves, that too (R221, R248). -/
abbrev RowsReach (s : State) (g : Group) (o : MForm) (mx : Bool) : Prop :=
  (∀ i < 32, (mBaseVal g o false i).tag = false ∧ tileRowOff g o i % 64 = 0
    ∧ 0 ≤ tileRowOff g o i ∧ tileRowOff g o i + 64 ≤ teamSize s g)
  ∧ (mx = true → spOffset g o 0 + 2048 + 128 ≤ teamSize s g)

/-- `L` is the lowest lane, or tile row, that meets `p`. -/
abbrev FirstOf (p : Nat → Prop) (L : Nat) : Prop := L < 32 ∧ p L ∧ ∀ K < L, ¬ p K

/-- Element `k` of row `i` of an operand tile (R251), with its block scale (R54). -/
def tileElem (t : Tile) (i k : Nat) : FVal :=
  let b := fun n => (sget 0 t.bytes (64 * i + n)).toNat
  match t.fmt with
  | 1 => unpack fBF16 (b (2 * k) + 256 * b (2 * k + 1))
  | 2 => unpack fF16 (b (2 * k) + 256 * b (2 * k + 1))
  | 3 => unpack fE4M3 (b k)
  | 4 => unpack fE5M2 (b k)
  | _ =>
    let scale := (sget 0 t.scales (4 * i + k / 32)).toNat
    if scale = 255 then .nan false
    else match unpack fE2M1 (b (k / 2) / 16 ^ (k % 2) % 16) with
      | .fin n m e => .fin n m (e + scale - 127)
      | x => x

/-- The infinity that a product is, if it is one; R66 decides 0 × ∞ before. -/
def infOf : FVal → FVal → List Bool
  | .inf a, .inf b => [a != b]
  | .inf a, .fin b m _ => if m = 0 then [] else [a != b]
  | .fin a m _, .inf b => if m = 0 then [] else [a != b]
  | _, _ => []

/-- 0 × ∞. -/
def zeroTimesInf : FVal → FVal → Bool
  | .inf _, .fin _ m _ => m = 0
  | .fin _ m _, .inf _ => m = 0
  | _, _ => false

/-- A product that is −0. -/
def negZeroProduct : FVal → FVal → Bool
  | .fin a m _, .fin b n _ => (m = 0 || n = 0) && a != b
  | _, _ => false

/-- R65, R66: accumulator tile `d` after the products of two operand tiles, element by element: the exact total,
rounded once to the nearest, or wrapped to 32 bits. -/
def Multiplied (g g' : Group) (d : Nat) (A B : Tile) : Prop :=
  ∀ i < 32, ∀ j < 32,
    let c := (rdA g d i j).val
    let r := (rdA g' d i j).val
    let xs := (List.range (innerOf A.fmt)).map fun k => (tileElem A i k, tileElem B j k)
    let cv := unpack fF32 c.toNat
    let infs := (match cv with | .inf n => [n] | _ => []) ++ xs.flatMap fun x => infOf x.1 x.2
    let nan := isNan cv || xs.any (fun x => isNan x.1 || isNan x.2 || zeroTimesInf x.1 x.2)
      || (infs.contains true && infs.contains false)
    let q := cv.rat + (xs.map fun x => x.1.rat * x.2.rat).sum
    (rdA g' d i j).tag = ((rdA g d i j).tag || bitOf A.rowTags i || decide (B.rowTags ≠ 0))
    ∧ (A.fmt = 6 → r = c + BitVec.ofInt 32
        ((List.range 64).map fun k => (sget 0 A.bytes (64 * i + k)).toInt * (sget 0 B.bytes (64 * j + k)).toInt).sum)
    ∧ (A.fmt ≠ 6 →
        (nan = true → r = 0x7FC00000#32)
        ∧ (nan = false → true ∈ infs → r = 0xFF800000#32)
        ∧ (nan = false → false ∈ infs → r = 0x7F800000#32)
        ∧ (nan = false → infs = [] →
            (q = 0 → r = if isNegZero cv && xs.all (fun x => negZeroProduct x.1 x.2) then 0x80000000#32 else 0)
            ∧ (q ≠ 0 → ∃ (neg : Bool) (m : Nat) (e : Int), (FVal.fin neg m e).rat = q
                ∧ r.toNat = (roundTo fF32 .rn neg m e false).1)))

/-- Whether element (i, j) passes the mask (R255). -/
def passes (g : Group) (n : Nat) : Bool :=
  decide (g.maskMode.toNat % 4 = 0) || bitOf (sget 0 g.maskRows (n / 32)) (n % 32)

/-- Element `n` = 32 i + j as a drain writes it: the accumulator's, FILL, or nothing (R255). -/
def drained (g : Group) (d : Nat) (add : Bool) (n : Nat) : Option TW :=
  if passes g n then some (rdA g d (n / 32) (n % 32))
  else if g.maskMode.toNat % 4 = 1 && !add then some ⟨g.maskFill, false⟩ else none

/-! Engines. -/

/-- An engine word's class, where it is counted, and its fields. -/
def engineForm : Instr → Option (Option EClass × EForm)
  | .tdesc o | .tdescAlias o | .imxStat o => some (none, o)
  | .cpyIn o | .cpyOut o => some (some .K, o)
  | .mrs o | .imxLoad o | .imxVec o | .imxRun o | .imxBcast o | .imxCollect o => some (some .B, o)
  | .rst o => some (some .F, o)
  | .wbl o | .wblAcq o => some (some .W, o)
  | .redx o => some (some .A, o)
  | _ => none

/-- The values of its operands that an engine word refuses, by operand, in the order of the checks (R257, R259, R261,
R264, R267, R270, R277, R279). -/
def engineParams (i : Instr) (s : State) (g : Group) : List (Nat × Bool) :=
  let n := fun r => uniN g r
  let out := fun (x lo hi : Nat) => decide (x < lo) || decide (hi < x)
  let imx := fun (o : EForm) (align : Nat) (bad4 : Bool) =>
    [(3, decide (n o.e3 = 0)), (1, decide (n o.e1 % align ≠ 0)), (4, bad4)]
  let slot := fun (o : EForm) (bad4 : Bool) => [(3, decide (n o.e3 = 0)), (1, decide (63 < n o.e1)), (4, bad4)]
  let copy := fun (o : EForm) (read : Bool) =>
    let d := slotOf s g (n o.e1)
    [(1, decide (d.rank = 0) || !(if read then d.read else d.write)), (2, decide (n o.e2 % 2 ^ d.esize ≠ 0))]
  match i with
  | .tdesc o | .tdescAlias o => [(2, decide (31 < n o.e2))]
  | .cpyIn o => copy o true
  | .cpyOut o => copy o false
  | .mrs o =>
    let d := slotOf s g (n o.e1)
    let sd := slotOf s g (n o.e3)
    let bad := fun (d : Desc) => decide (d.rank ≠ 2) || !d.read
    [(1, bad d), (1, o.flag && decide (d.esize ≠ 0)), (3, o.flag && bad sd), (4, o.flag && decide (uniInt g o.e4.toNat % 16 ≠ 0))]
  | .rst o =>
    [(4, out (n o.e4) 4 65536 || decide (n o.e4 % 4 ≠ 0)), (1, decide (n o.e1 % 4 ≠ 0)),
      (2, decide (uniPair g o.e2 % 4 ≠ 0)), (3, decide (uniPair g o.e3 % 4 ≠ 0))]
  | .redx o => [(2, decide (uniPair g o.e2 % 4 ≠ 0)), (3, out (n o.e3) 1 4096)]
  | .imxLoad o =>
    let x := n o.e4
    let count := x % 128
    let first := x / 256 % 64
    imx o 4 (decide (x / 128 % 2 = 1) || decide (2 ^ 14 ≤ x) || decide (count = 0) || decide (64 < count + first))
  | .imxVec o =>
    let x := n o.e4
    let len := x % 4096
    let at_ := x / 65536 % 4096
    imx o 32 (decide (x / 4096 % 16 ≠ 0) || decide (2 ^ 28 ≤ x) || out len 32 2048 || decide (len % 32 ≠ 0)
      || decide (at_ % 32 ≠ 0) || decide (2048 < len + at_))
  | .imxRun o => slot o false
  | .imxBcast o => slot o (out (n o.e4) 1 65536)
  | .imxCollect o => imx o 64 false
  | .imxStat o => [(3, decide (n o.e3 = 0)), (4, decide (n o.e4 ≠ 0))]
  | _ => []

/-- The scratchpad ranges that an engine word names: offset, length and alignment. -/
def engineRanges (i : Instr) (s : State) (g : Group) : List (Nat × Nat × Nat) :=
  let n := fun r => uniN g r
  match i with
  | .tdesc o | .tdescAlias o => [(n o.e3, 128, 128)]
  | .cpyIn o | .cpyOut o => let d := slotOf s g (n o.e1); [(n o.e2, d.count * 2 ^ d.esize, 1)]
  | .rst o => [(n o.e1, n o.e4, 4)]
  | .redx o => [(n o.e1, 64 * n o.e3, 64)]
  | .wbl o | .wblAcq o => [(n o.e1, 192, 64), (n o.e2, 80, 16)]
  | .imxLoad o => [(n o.e1, 4 * (n o.e4 % 128), 4)]
  | .imxVec o => [(n o.e1, n o.e4 % 4096, 32)]
  | _ => []

/-- The gate that an engine word names. -/
def engineGate (i : Instr) (g : Group) : Option Nat :=
  match i with
  | .cpyIn o | .cpyOut o | .wbl o | .wblAcq o => if o.flag then none else some (uniN g o.e3)
  | .imxCollect o => if o.flag then none else some (uniN g o.e4)
  | _ => none

/-- An engine word passes every check of its operands, and its class has room (R117, R221, R257). -/
abbrev EngineOk (i : Instr) (s : State) (g : Group) : Prop :=
  (∀ c, (engineForm i).bind (·.1) = some c → s.countOf g.gid c < 255)
  ∧ (∀ n, RegName.s n ∈ i.reads → (rdS g n).tag = false)
  ∧ (∀ x ∈ engineParams i s g, x.2 = false)
  ∧ (∀ x ∈ engineRanges i s g, x.1 % x.2.2 = 0 ∧ x.1 + x.2.1 ≤ teamSize s g)
  ∧ ∀ off ∈ engineGate i g, off % 16 = 0 ∧ off + 16 ≤ teamSize s g ∧ gateLive s.cores (spPhys s g off) = true

/-- Every page has been looked at for a word at issue, without a page request: it translates, or its walk has found that it
does not (R267, R279). -/
abbrev LookedAt (s : State) (g : Group) (k : AccKind) (pages : List Nat) : Prop :=
  ∀ a ∈ pages, canonical a = true →
    (∃ pa nc res, s.translate g.core g.pasid a k = .hit pa nc res ∧ s.placeOf pa nc (g.ctx = 0) ≠ .changing)
    ∨ ((∀ pa nc res, s.translate g.core g.pasid a k ≠ .hit pa nc res) ∧ (s.denial? (.look g.gid s.cur.pc) g.pasid a k).isSome = true)

/-- The pages of an RST that translate lie in one place that it admits (R267). -/
abbrev RstAdmits (s : State) (g : Group) (pages : List Nat) : Prop :=
  let place := fun a => s.rstPlace g.core g.pasid g.ctx a
  (∀ a ∈ pages, place a = .local_ ∨ place a = .open_) ∨ ∃ p, ∀ a ∈ pages, place a = .peer p ∨ place a = .open_

/-- The word counts one new operation of a class, which meets `P`, and moves on; nothing else changes, but from `s` to `b`. -/
abbrev Issues (i : Instr) (s : State) (g : Group) (c : EClass) (P : Op → Prop) (b : State := s) : Prop :=
  ∃ t g' x, exec i s = .next t ∧ { t with groups := s.groups, eng := s.eng, nextId := s.nextId } = b
    ∧ t.eng = { s.eng with ops := s.eng.ops ++ [x] } ∧ t.nextId = s.nextId + 1
    ∧ x.id = s.nextId ∧ x.gid = g.gid ∧ x.team = g.team ∧ x.core = g.core ∧ x.ctx = g.ctx ∧ x.pasid = g.pasid
    ∧ x.cls = c ∧ x.pos = 0 ∧ x.status = 0 ∧ x.launched = false
    ∧ (∀ k, k ≠ s.cur.gid → t.group? k = s.group? k) ∧ t.group? s.cur.gid = some g'
    ∧ { g' with lanes := g.lanes } = { g with seq := g.seq + 1 } ∧ MovesOn s.cur 0 g g' ∧ P x

/-- No flit of the operation has been replayed on a die-to-die link since its last access (R402). -/
abbrev NoReplay (s : State) (o : Op) : Prop := ∀ x ∈ s.eng.ops, x.id = o.id → x.flits = 0

/-- An operation's read of `n` bytes finds `bs` in a line of the depot, behind no write of its group (R99), its flits not
replayed. -/
abbrev Finds (s : State) (o : Op) (va n : Nat) (bs : List Byte) : Prop :=
  ∃ l ofs cls res x, s.opPlace o va .read = .at (.line l ofs) cls res ∧ s.accessBefore o (.line l ofs) n false = false
    ∧ NoReplay s o ∧ s.line? l = some x ∧ bs = (x.bytes.drop ofs).take n

/-- Element `e` of a box, from its coordinates: the tensor's element, or padding outside the tensor (R258, R262). -/
abbrev ElementIs (s : State) (o : Op) (d : Desc) (x : Nat → Int) (bs : List Byte) : Prop :=
  let place := d.at_ x
  (place.1 = false ∧ bs = d.padBytes) ∨ (place.1 = true ∧ Finds s o place.2.2 d.elem bs)

/-- `k` elements of a box from `e` on, that stand in one word of the tensor: their bytes, found together, or padding. -/
abbrev ElementsAre (s : State) (o : Op) (d : Desc) (coord : List Int) (e k : Nat) (bs : List Byte) : Prop :=
  let place := d.place coord e
  (place.1 = false ∧ bs = (List.range k).flatMap fun _ => d.padBytes)
    ∨ (place.1 = true ∧ Finds s o place.2.2 (k * d.elem) bs)

/-- A line of the depot that a write would be applied to at once. -/
abbrev Open (s : State) (l : LineId) (x : DepotLine) : Prop :=
  s.line? l = some x ∧ x.bytes.length = 128 ∧ s.lineFree l = true ∧ s.heldOn l = []

/-- The bytes meet no field of the slot list or of the extent state bytes that only the device writes (R7, R347, R394). -/
abbrev Writable (s : State) (l : LineId) (ofs : Nat) (bs : List Byte) : Prop :=
  ∀ pa ∈ s.addressesOf l.stack l.ext (128 * l.line + ofs), ∀ i < bs.length, s.readOnlyBits (pa + i) = 0

/-- The bits of byte `i` of a line that only the device writes (R7, R347, R394). -/
def roBits (s : State) (l : LineId) (i : Nat) : Byte :=
  ((s.addressesOf l.stack l.ext (128 * l.line + i)).map s.readOnlyBits).foldl (· ||| ·) 0

/-- Bytes at an offset of a line, and no other stored byte, become `bs`. -/
abbrev Stored (s t : State) (l : LineId) (ofs : Nat) (bs : List Byte) : Prop :=
  (∀ i < 128, (t.homeLine l).1[i]? = if ofs ≤ i ∧ i < ofs + bs.length then bs[i - ofs]? else (s.homeLine l).1[i]?)
  ∧ ∀ k, k ≠ l → t.homeLine k = s.homeLine k

/-! Drays. -/

/-- Nothing differs but one dray, and `n` more column accesses to the bank of a row are counted for each request that waits
for that bank (R306). -/
abbrev OnlyDray (s t : State) (key : Nat) (n : RowId → Nat := fun _ => 0) : Prop :=
  { t with drays := s.drays, mem := s.mem } = s
    ∧ t.mem = { s.mem with bankQ := s.mem.bankQ.map fun x => { x with count := x.count + n x.row } }
    ∧ { t.drays with drays := s.drays.drays } = s.drays ∧ ∀ k, k ≠ key → t.dray k = s.dray k

/-- The command runs to a state in which only the dray at hand differs, and that dray meets `P`. -/
abbrev DrayRuns (i : Instr) (s : State) (P : Dray → Prop) : Prop :=
  let key := drayKey s.cur.dray
  ∃ t, exec i s = .next t ∧ OnlyDray s t key ∧ P (t.dray key)

/-- The run of the dray at hand ends with a status (R289, R299, R300): its rows are closed, and its operation keeps the
first status other than 0. -/
abbrev RunEnds (i : Instr) (s : State) (err : Nat) : Prop :=
  let key := drayKey s.cur.dray
  ∃ t, exec i s = .next t ∧ (t.dray key).op = none ∧ (t.dray key).dstat.err = err ∧ (t.dray key).open_ = []
    ∧ ∀ id o, (s.dray key).op = some id → s.op? id = some o → o.status = 0 → ∃ x, t.op? id = some x ∧ x.status = err

/-- The column at a cursor: its row is open, its sector verified, its bytes and the marks of its 8 words. -/
abbrev Column (d : Dray) (c : Cursor) (bs : List Byte) (p : Nat → Bool) : Prop :=
  ∃ o, d.openRow? (d.rowOf c) = some o ∧ bitOf o.verified (c.col / 2) = true
    ∧ bs = (List.range 32).map (fun i => sget 0 o.bytes (32 * c.col + i)) ∧ ∀ i < 8, p i = o.poison.getLsbD (8 * c.col + i)

/-- A column of an open row, and no other column, holds the bytes and the marks. -/
abbrev ColumnWritten (d e : Dray) (c : Cursor) (bs : List Byte) (p : Nat → Bool) : Prop :=
  Column e c bs p ∧ (∀ o, e.openRow? (e.rowOf c) = some o → bitOf o.written (c.col / 2) = true)
    ∧ ∀ k b q, (d.rowOf k ≠ d.rowOf c ∨ k.col ≠ c.col) → Column d k b q → Column e k b q

/-- What a dray's write of a column leaves of its bytes where only the device writes (R7). -/
def colWrites (s : State) (d : Dray) (c : Cursor) (old bs : List Byte) : List Byte :=
  let r := d.rowOf c
  let ofs := 64 * s.rowSector r (c.col / 2) + 32 * (c.col % 2)
  (List.range 32).map fun i =>
    let ro := roBits s ⟨r.stack, r.row / 32, ofs / 128⟩ (ofs % 128 + i)
    (bs.getD i 0 &&& ~~~ro) ||| (old.getD i 0 &&& ro)

/-- Closing a half-block latch cuts a product (R68, R292). -/
def latchCut (d : Dray) (c : Nat) : Bool :=
  let h := sget [] d.latch c
  decide (h ≠ []) && (blockApply (d.accOf c).val.toNat (h.map latchProduct ++ List.replicate 16 (.fin false 0 0)) none).2

/-- As `DrayRuns`, for a command that accesses the columns at some cursors, each access counted for the requests that wait for
its bank (R306). -/
abbrev DrayAccesses (i : Instr) (s : State) (cs : List Cursor) (P : Dray → Prop) : Prop :=
  let key := drayKey s.cur.dray
  ∃ t, exec i s = .next t
    ∧ OnlyDray s t key (fun r => cs.countP fun c => sameBank r ((s.dray key).rowOf c)) ∧ P (t.dray key)

/-- Some word of a column is marked. -/
def anyWord (p : Nat → Bool) : Bool := (List.range 8).any p

/-- The bytes of a unit of the vector buffer. -/
def vbUnit (d : Dray) (u : Nat) : List Byte := (List.range 32).map fun i => sget 0 d.vb (32 * u + i)

/-- BF16 element `i` of 32 bytes, as a pattern. -/
def half (bs : List Byte) (i : Nat) : Nat := (bs.getD (2 * i) 0).toNat + 256 * (bs.getD (2 * i + 1) 0).toNat

/-- Word `i` of some bytes. -/
def word32 (bs : List Byte) (i : Nat) : Nat := half bs (2 * i) + 65536 * half bs (2 * i + 1)

/-- E2M1 element `i` of some bytes (R54). -/
def nibble (bs : List Byte) (i : Nat) : FVal := unpack fE2M1 ((bs.getD (i / 2) 0).toNat / 16 ^ (i % 2) % 16)

/-- The elements of a column under a `.t`, and a result column from element patterns. -/
def columnElem (f32 : Bool) (bs : List Byte) (i : Nat) : FVal :=
  if f32 then unpack fF32 (word32 bs i) else unpack fBF16 (half bs i)
def columnOf (f32 : Bool) (r : Nat → Nat) : List Byte :=
  if f32 then (List.range 8).flatMap fun i => leBytes 4 (r i) else (List.range 16).flatMap fun i => leBytes 2 (r i)

/-- The integer part of a rational number, toward zero. -/
def towardZero (x : ℚ) : Int := if 0 ≤ x then ⌊x⌋ else ⌈x⌉

/-! State registers and the supervisor's words. -/

/-- The state numbers of R73 and R326, those of 64 bits, and the counters of R48. -/
def StateNumber (n : Nat) : Prop :=
  n ≤ 0x0D ∨ (0x10 ≤ n ∧ n ≤ 0x15) ∨ n = 0x18 ∨ n = 0x19 ∨ (0x20 ≤ n ∧ n ≤ 0x2F) ∨ (0x80 ≤ n ∧ n ≤ 0x88)
def WideNumber (n : Nat) : Prop :=
  n = 0x06 ∨ n = 0x07 ∨ n = 0x0D ∨ (0x28 ≤ n ∧ n ≤ 0x2F) ∨ (0x80 ≤ n ∧ n ≤ 0x83)
def CounterNumber (n : Nat) : Prop := 0x20 ≤ n ∧ n ≤ 0x2F

/-- A counter of R115: ERR and COUNT. -/
def counter (s : State) (g : Group) (c : EClass) : Nat :=
  (if g.errs.any (fun e => e.cls = c) then 2 ^ 31 else 0) + (s.eng.ops.countP fun o => o.gid = g.gid && o.cls = c)

/-- What a state register reads as in a lane (R73, R326). -/
def stateReads (s : State) (g : Group) (n L : Nat) : Nat :=
  let side := s.side (4 * g.core + g.side)
  match n with
  | 0x00 => L
  | 0x01 => g.groupId
  | 0x02 => g.teamId
  | 0x03 => g.grid
  | 0x04 => s.fab.self % 1024 * 8192 + g.core * 32 + g.side * 8 + g.slot
  | 0x05 => 16 * g.depth + 4 * g.kclass + g.cls
  | 0x06 => match s.serialOf g.grid with
    | some x => x.count
    | none => (Config.clockStart g.core + s.coreCycles g.core) % 2 ^ 64
  | 0x07 => match s.serialOf g.grid with
    | some x => x.count
    | none => s.ltick
  | 0x09 => g.fpstat.toNat
  | 0x0A => g.srseed.toNat
  | 0x0B => g.dropret.toNat
  | 0x0C => (s.ctx g.ctx).ebudget
  | 0x0D => g.faultInfo.toNat
  | 0x10 => counter s g .K
  | 0x11 => counter s g .M
  | 0x12 => counter s g .A
  | 0x13 => counter s g .F
  | 0x14 => counter s g .B
  | 0x15 => counter s g .W
  | 0x18 => teamSize s g
  | 0x19 => 512 * g.m + 16 * g.j + g.h
  | 0x80 => g.trapRec
  | 0x81 => s.sup.vecBase.toNat
  | 0x82 => s.sup.trapQ.toNat
  | 0x83 => s.sup.ctxTab.toNat
  | 0x84 => s.power.level
  | 0x85 => s.power.pwrAvg
  | 0x86 => g.ctxNum
  | 0x87 => s.sup.haltCnt.toNat
  | 0x88 => s.mem.dquota.toNat
  | k =>
    if k < 0x20 ∨ 0x30 ≤ k then 0
    else if k < 0x28 then (sget 0 side.evsel (k - 0x20)).toNat else (sget 0 side.evcnt (k - 0x28)).toNat

/-- A value of one or two registers from `d` on, in the register `r`; none for another register. -/
def landsIn (wide : Bool) (d value r : Nat) : Option TW :=
  if r = d then some ⟨BitVec.ofNat 32 value, false⟩
  else if wide && decide (r = d + 1) then some ⟨BitVec.ofNat 32 (value / 2 ^ 32), false⟩ else none

/-- The words that only a handler may issue (R324). -/
def supervisorWord : Instr → Option Guard
  | .eret o | .faultackRetry o | .faultackSkip o | .faultackRegion o | .faultackKill o | .faultackHold o | .dbgstep o
  | .preempt o | .kill o | .resume o | .tlbinv o => some o.g
  | _ => none

/-- KILL of a root task (R332, R378): its groups have ended, and none of its grids places another team. -/
abbrev Killed (s t : State) (root : Nat) : Prop :=
  (∀ k y, s.group? k = some y → (∃ d ∈ s.disp.grids, d.root = root ∧ d.id = y.grid) → ∃ z, t.group? k = some z ∧ z.ended = true)
  ∧ ∀ d ∈ t.disp.grids, d.root = root → d.retired = true ∨ (d.killed.isSome = true ∧ d.nextTeam = d.teams)

/-- The bytes that a group's frame takes, its return list included (R335). -/
def groupFrameLen (g : Group) (rets : Nat) : Nat := 0x3000 + 4096 * g.h + 2304 * g.j + 4352 * g.m + 16 * rets

/-- A framed group stands up as its frame, at `a` of the state `m`, holds it, if its team runs, nothing is still to
return and the frame can be read there; otherwise it only may run again. -/
abbrev Resumes (s t m : State) (x : Group) (a : Nat) : Prop :=
  ∃ y, t.group? x.gid = some y ∧ y.hold = false ∧ y.parked = false ∧ y.trap = none ∧
    if ((s.team? x.team).any fun t => t.state = .running) ∧ x.returns = [] ∧ m.devAway a (groupFrameLen x 0) = false then
      y.halt = .running ∧ y.frame = none ∧ y.stepFrame = none
      ∧ ∀ L < 32, y.lane L = { m.loadLane a L with wait := .none, passed := 0, polls := 0 }
    else y.halt = .framed .preempt ∧ y.frame = some a

/-! Frames and trap records. -/

/-- The number whose bit `i` below `n` is `f i`. -/
def bitsOf (n : Nat) (f : Nat → Bool) : Nat := ((List.range n).map fun i => if f i then 2 ^ i else 0).sum

/-- Bytes of local space from `a` on that the depot holds, each 128 of them in a line of their own. -/
abbrev Laid (s : State) (a n : Nat) : Prop :=
  ∀ i < n, ∃ st e d, s.decodeLocal (a + i) true = .ok st e d ∧ d % 128 = (a + i) % 128
    ∧ (s.line? ⟨st, e, d / 128⟩).isSome = true
    ∧ ∀ j < n, ∀ st' e' d', s.decodeLocal (a + j) true = .ok st' e' d' →
        ((a + i) / 128 = (a + j) / 128 ↔ (⟨st, e, d / 128⟩ : LineId) = ⟨st', e', d' / 128⟩)

/-- Fields, by offset, size and value, stand in local space at `a`. -/
abbrev HoldsFields (t : State) (a : Nat) (fs : List (Nat × Nat × Nat)) : Prop :=
  ∀ f ∈ fs, t.devNat (a + f.1) f.2.1 = f.2.2 % 256 ^ f.2.1

/-- Page `p` begins the lowest run of `n` free pages of a context's frame area past its post page (R339). -/
abbrev FreeRun (c : Ctx) (n p : Nat) : Prop :=
  1 ≤ p ∧ p + n ≤ c.frameLen / 4096 ∧ ∀ f ∈ c.frames, p + n ≤ f.1 ∨ f.1 + f.2 ≤ p
abbrev LowestRun (c : Ctx) (n p : Nat) : Prop := FreeRun c n p ∧ ∀ q < p, ¬ FreeRun c n q

/-- A tile, 0 to 15 for operand and 16 on for accumulator tiles, that a frame holds (R44). -/
def tileSaved (g : Group) (i : Nat) : Bool :=
  decide (i < 32) && (if i < 16 then decide (i < g.j) else decide (i - 16 < g.m)) && (g.ppoint.all fun m => bitOf m i)

/-- The fields of a group's frame (R335, R336); `rec` is its counter record's address. -/
def groupFields (g : Group) (dead : SMap Word) (rets : List RetEntry) (rec : Nat) : List (Nat × Nat × Nat) :=
  let live := fun n L => !bitOf (sget 0 dead n) L
  let regs := List.range (64 + 32 * g.h)
  let lanes := List.range 32
  let err := fun (i : Nat) => g.errs.filter fun e => e.cls.code = i
  let tb := fun i => 0x3000 + 4096 * g.h + 2304 * i
  let ab := fun i => tb g.j + 4352 * i
  [(0x00, 4, g.ctx), (0x04, 4, g.groupId), (0x08, 4, g.teamId), (0x0C, 4, 16 * g.depth + 4 * g.kclass + g.cls),
   (0x10, 4, 512 * g.m + 16 * g.j + g.h), (0x14, 4, g.fpstat.toNat), (0x18, 8, g.faultInfo.toNat),
   (0x20, 4, g.dropret.toNat), (0x24, 4, g.srseed.toNat), (0x28, 4, bitsOf 32 fun L => (g.lane L).exited),
   (0x2C, 4, g.dbgHalt.toNat), (0x30, 8, g.dbgPath.toNat), (0x38, 4, bitsOf 32 (tileSaved g)),
   (0x3C, 4, bitsOf g.h fun b => (List.range 32).any fun r => lanes.any fun L => live (64 + 32 * b + r) L),
   (0x40, 4, rets.length),
   (0x44, 4, bitsOf 6 (fun i => !(err i).isEmpty) + 256 * bitsOf 6 fun i => g.lost.any fun c => c.code = i),
   (0x48, 8, rec), (0x50, 8, g.kernel), (0x58, 4, g.imprecise.toNat),
   (0x5C, 4, (if g.ppoint.isSome then 1 else 0) + if g.kclass = 2 then 2 else 0)]
  ++ (lanes.flatMap fun L => let ln := g.lane L
      [(0x100 + 32 * L, 8, ln.pc.toNat), (0x108 + 32 * L, 8, ln.region.toNat), (0x110 + 32 * L, 4, ln.k),
       (0x114 + 32 * L, 4, ln.rnd.toNat), (0x118 + 32 * L, 1, (if ln.inRegion then 1 else 0) + if ln.exited then 2 else 0)])
  ++ ((List.range 8).flatMap fun n => [(0x500 + 4 * n, 4, (rdP g n).bits.toNat), (0x520 + 4 * n, 4, (rdP g n).tags.toNat)])
  ++ ((List.range 64).map fun n => (0x540 + 4 * n, 4, (rdS g n).val.toNat)) ++ [(0x640, 8, bitsOf 64 fun n => (rdS g n).tag)]
  ++ (lanes.map fun i => (0x648 + 4 * i, 4, (sget 0 g.maskRows i).toNat))
  ++ [(0x6C8, 4, g.maskMode.toNat), (0x6CC, 4, g.maskFill.toNat)]
  ++ (regs.flatMap fun n => (lanes.filter (live n)).map fun L =>
      (if n < 64 then 0x800 + 128 * n + 4 * L else 0x3000 + 4096 * ((n - 64) / 32) + 128 * ((n - 64) % 32) + 4 * L, 4,
        (rdV g n L).val.toNat))
  ++ ((regs.take 256).map fun n => (0x2800 + 4 * n, 4, bitsOf 32 fun L => live n L && (rdV g n L).tag))
  ++ ((List.range 6).flatMap fun c => (List.range 16).map fun e =>
      (0x2C00 + 128 * c + 8 * e, 8, (((err c)[e]?).map fun x => 2 ^ 56 * x.status + x.addr % 2 ^ 54).getD 0))
  ++ (((List.range g.j).filter (tileSaved g)).flatMap fun i => let x := rdT g i
      ((List.range 2048).map fun k => (tb i + k, 1, (sget 0 x.bytes k).toNat))
      ++ ((List.range 128).map fun k => (tb i + 2048 + k, 1, (sget 0 x.scales k).toNat))
      ++ [(tb i + 2176, 4, x.rowTags.toNat), (tb i + 2180, 1, x.fmt)])
  ++ (((List.range g.m).filter fun i => tileSaved g (16 + i)).flatMap fun i =>
      ((List.range 1024).map fun n => (ab i + 4 * n, 4, (rdA g i (n / 32) (n % 32)).val.toNat))
      ++ [(ab i + 4096, 128, bitsOf 1024 fun n => (rdA g i (n / 32) (n % 32)).tag)])
  ++ (rets.zipIdx.flatMap fun (e, i) =>
      let b := ab g.m + 16 * i
      [(b, 4, e.reg), (b + 4, 4, e.mask.toNat), (b + 8, 4, e.width)])

/-- The fields of a team's frame after its header (R258, R338). -/
def teamFields (s : State) (t : Team) : List (Nat × Nat × Nat) :=
  ((List.range 32).flatMap fun i =>
    let d := sget Desc.invalid t.descs i
    let b := 256 + 128 * i
    [(b, 8, d.base.toNat), (b + 8, 1, d.esize), (b + 9, 1, d.rank),
     (b + 10, 2, (if d.read then 1 else 0) + if d.write then 2 else 0), (b + 12, 4, d.pad)]
    ++ (List.range 4).flatMap fun k =>
      [(b + 16 + 4 * k, 4, d.dim k), (b + 32 + 8 * k, 8, wrapNat (d.stride k) 64), (b + 64 + 2 * k, 2, d.boxOf k),
       (b + 72 + k, 1, d.lo k), (b + 76 + k, 1, d.hi k)])
  ++ ((t.groups.filterMap s.group?).zipIdx.map fun (g, i) => (4352 + 4 * i, 4, g.barriers))
  ++ ((List.range t.spSize).map fun i => (4416 + i, 1, (spByte s.cores (spAddr t.core t.spBase i)).toNat))
  ++ ((List.range (t.spSize / 16)).map fun i => (4416 + t.spSize + i, 1, bitsOf 8 fun b =>
      let w := spAddr t.core t.spBase (4 * (4 * i + b / 2))
      if b % 2 = 0 then spGate s.cores w else spPoison s.cores w))

/-- The fields of a trap record (R331). -/
def recordFields (s : State) (ti : TrapInfo) (g : Option Group) (ctx disp : Nat) : List (Nat × Nat × Nat) :=
  [(0x00, 8, (g.bind (·.frame)).getD 0), (0x08, 8, 2 ^ 59 * ti.code + 2 ^ 54 * (ti.lane % 32) + ti.info % 2 ^ 54),
   (0x10, 8, ti.full), (0x18, 8, ti.pc.toNat), (0x20, 4, ctx), (0x24, 4, (s.ctx ctx).pasid),
   (0x28, 4, (g.map (·.groupId)).getD 0), (0x2C, 4, (g.map (·.teamId)).getD 0), (0x30, 8, ti.tick), (0x38, 1, disp)]

/-- Some bytes of local space can be read at once: no row of theirs is away (R93), and no sector of theirs stands in the
stack with an error, which a demand read would rewrite or log (R392). -/
abbrev Readable (s : State) (a n : Nat) : Prop := s.devAway a n = false ∧ s.devTouch a n = s

/-- No sector that the device may read stands in the stacks with an error (R392). -/
abbrev Sound (s : State) : Prop := ∀ a n, s.devTouch a n = s

/-- The address of the next free entry of the trap queue (R331). -/
abbrev NextEntry (s : State) (a : Nat) : Prop :=
  let at_ := fun n => s.sup.trapQ.toNat + 64 * ((s.sup.trapNext + n) % 4096)
  ∃ n < 4096, a = at_ n ∧ (∀ r ∈ s.sup.recs, r.addr ≠ a) ∧ ∀ m < n, ∃ r ∈ s.sup.recs, r.addr = at_ m

/-- A vector's entry: bit 0 of its FLAGS, and its kernel record's address (R331). -/
def vectorEntry (s : State) (code : Nat) : List Byte := (s.devRead (s.sup.vecBase.toNat + 16 * code) 16).1
def vectorValid (s : State) (code : Nat) : Bool := natBit (leNat (((vectorEntry s code).drop 8).take 4)) 0
def vectorKernel (s : State) (code : Nat) : Nat := leNat ((vectorEntry s code).take 8)

/-- A handler stands in the task table for a record: one team of one group, express, its argument the record's address
(R331). -/
abbrev HandlerPlaced (s t : State) (a code ctx : Nat) (k : Kernel) : Prop :=
  ∃ d, t.disp.grids = s.disp.grids ++ [d] ∧ d.id = s.disp.nextGrid ∧ d.sup = some (a, code, ctx) ∧ d.ctx = 0
    ∧ d.cls = 0 ∧ d.teams = 1 ∧ d.kernel = { k with groups := 1 } ∧ d.args = BitVec.ofNat 64 a ∧ d.nextTeam = 0
    ∧ ∃ r ∈ t.sup.recs, r.addr = a ∧ r.handler = some d.id

/-- Path `p` precedes path `q` in the order of R28. -/
def pathBefore (g : Group) (p q : BitVec 64) : Prop :=
  let at_ := fun pc => (List.range 32).filter fun L => !(g.lane L).exited && (g.lane L).pc = pc
  let n := fun pc => (at_ pc).length
  let c := fun pc => ((at_ pc).map fun L => (g.lane L).passed).foldl max 0
  if 32 ≤ c p ∧ 32 ≤ c q then c q < c p ∨ (c p = c q ∧ p.toNat < q.toNat)
  else if 32 ≤ c p then True else if 32 ≤ c q then False else n q < n p ∨ (n p = n q ∧ p.toNat < q.toNat)

/-! Tasks. -/

/-- The bits of six regions' FLAGS that R168 does not give are 0. -/
abbrev RegionsLegal (b : List Byte) : Prop := ∀ i < 6, natBits (fieldOf b (0x20 + 16 * i + 12) 4) 30 2 = 0

/-- A kernel record within R168. -/
abbrev KernelLegal (addr : Nat) (b : List Byte) : Prop :=
  addr % 128 = 0 ∧ 1 ≤ fieldOf b 8 1 ∧ fieldOf b 8 1 ≤ 16 ∧ fieldOf b 9 1 ≤ 2 ∧ fieldOf b 10 1 ≤ 6 ∧ fieldOf b 11 1 ≤ 16
    ∧ fieldOf b 12 1 ≤ 8 ∧ fieldOf b 13 3 = 0 ∧ fieldOf b 0x10 4 % 768 = 0 ∧ RegionsLegal b

/-- A task record within R280; `flags` is the largest FLAGS byte admitted. -/
abbrev TaskLegal (b : List Byte) (flags : Nat) : Prop :=
  1 ≤ fieldOf b 8 4 ∧ fieldOf b 8 4 ≤ 2 ^ 20 ∧ fieldOf b 0x0C 1 ≤ 3 ∧ fieldOf b 0x0D 1 ≤ flags ∧ fieldOf b 0x18 8 % 4 = 0
    ∧ (fieldOf b 0x0D 1 % 2 = 0 → RegionsLegal b)

/-- The regions of a record (R168, R280). -/
def regionsOf (b : List Byte) : List Region :=
  (List.range 6).map fun i =>
    let f := fieldOf b (0x20 + 16 * i + 12) 4
    ⟨fieldOf b (0x20 + 16 * i) 8, fieldOf b (0x20 + 16 * i + 8) 4, natBit f 0, natBit f 1, natBit f 31⟩

/-- The groups of a team of `n` that run on a side (R375). -/
def groupsOn (n side : Nat) : Nat := (List.range n).countP fun i => i % 4 = side

/-- A kernel's team fits an empty core (R19). -/
abbrev FitsEmpty (k : Kernel) : Prop :=
  k.spbytes ≤ 393216 ∧ ∀ i < 4, let n := groupsOn k.groups i
    (if k.kclass = 2 then 2 * n else n) ≤ 8 ∧ k.blocks * n ≤ 48 ∧ k.optiles * n ≤ 32 ∧ k.acctiles * n ≤ 16

/-- Two regions make a dependence: both valid, one written, and some byte in common (R372). -/
abbrev Meet (r q : Region) : Prop :=
  r.valid = true ∧ q.valid = true ∧ (r.write = true ∨ q.write = true) ∧ 0 < r.len ∧ 0 < q.len
    ∧ r.base < q.base + q.len ∧ q.base < r.base + r.len

/-- A grid stands in the task table as a task record asks, behind the unretired tasks of its graph that its regions
meet (R280, R370 to R372). -/
abbrev Accepted (s : State) (d : Grid) (b : List Byte) (k : Kernel) (ctx : Nat) (parent : Option Nat) (cls depth : Nat) : Prop :=
  d.id = s.disp.nextGrid ∧ d.ctx = ctx ∧ d.parent = parent ∧ d.cls = cls ∧ d.depth = depth ∧ d.kernel = k
    ∧ d.teams = fieldOf b 8 4 ∧ d.args = BitVec.ofNat 64 (fieldOf b 0x10 8) ∧ d.done = fieldOf b 0x18 8
    ∧ d.regions = (if fieldOf b 0x0D 1 % 2 = 1 then k.regions else regionsOf b)
    ∧ d.nextTeam = 0 ∧ d.killed = none ∧ d.retired = false ∧ d.sup = none
    ∧ ∀ n, n ∈ d.preds ↔ ∃ u ∈ s.disp.grids, u.id = n ∧ u.retired = false ∧ u.sup = none ∧ u.parent = parent
        ∧ (parent = none → u.ctx = ctx) ∧ ∃ q ∈ u.regions, ∃ r ∈ d.regions, Meet r q

/-- A group at its first issue (R281): at ENTRY, its registers, counts and flags cleared but for the arguments. -/
abbrev Starts (d : Grid) (g : Group) : Prop :=
  (∀ L < 32, let r := 1#32 ^^^ BitVec.ofNat 32 L * 0x9E3779B9#32
    g.lane L = { exited := false, pc := d.kernel.entry, region := 0, inRegion := false, k := 0, cnt := 0
                 rnd := if r = 0 then 1 else r, wait := .none, passed := 0, polls := 0, readyAt := 0 })
  ∧ (∀ r L, rdV g r L = ⟨0, false⟩) ∧ (∀ n, n ≠ 0 → rdP g n = ⟨0, 0⟩)
  ∧ (∀ r, rdS g r = ⟨match r with
      | 0 => BitVec.ofNat 32 d.args.toNat
      | 1 => BitVec.ofNat 32 (d.args.toNat / 2 ^ 32)
      | 2 => BitVec.ofNat 32 (match d.sup with | some x => x.2.1 | none => d.teams)
      | _ => 0, false⟩)
  ∧ g.fpstat = 0 ∧ g.h = 0 ∧ g.j = 0 ∧ g.m = 0 ∧ g.dropret = 0 ∧ g.srseed = 1 ∧ g.maskMode = 0
  ∧ g.faultInfo = 0 ∧ g.halt = .running ∧ g.ended = false ∧ g.barriers = 0

/-- The order of the ready pool (R374). -/
abbrev Precedes (a b : Cand) : Prop :=
  let f := fun (c : Cand) => if c.team.isSome then 0 else 1
  a.grid.cls < b.grid.cls ∨ (a.grid.cls = b.grid.cls ∧ (f a < f b ∨ (f a = f b ∧
    (a.grid.accept < b.grid.accept ∨ (a.grid.accept = b.grid.accept ∧ a.teamId < b.teamId)))))

/-! The issue stage. -/

/-- The words that need every lane of their group at them (R34). -/
def collective : Instr → Bool
  | .barrier _ | .acqBlk _ | .acqOpt _ | .acqAcc _ | .relBlk _ | .relOpt _ | .relAcc _ | .tld _ | .tst _ | .tzero _
  | .mma _ | .mmag _ | .tmask _ | .tdrain _ | .tdrainAdd _ | .tdrainAddSplit _ | .tcvt _ => true
  | _ => false

/-- The words that look at a state register's number, at a supervisor or at a team leader before their guard (R34,
R198, R324). -/
def checkedEarly (i : Instr) : Bool :=
  (supervisorWord i).isSome || match i with
    | .sget _ | .sput _ | .grid _ => true
    | _ => false

/-- A lane's back-off, if it stands in one, is over; it stands in no other wait (R26, R175, R176). -/
def waitOver (s : State) (g : Group) (ln : Lane) : Prop :=
  match ln.wait with
  | .none => True
  | .yield u | .backoff u => u ≤ (s.side (4 * g.core + g.side)).cycle ∨ (s.serialOf g.grid).isSome = true
  | _ => False

/-- No write that an earlier issue left pending stands before the word, but for an MMA's to the accumulator of an MMA
(R26); a tile that is only read still holds a REL of tiles alone (R242). -/
def noPending (s : State) (g : Group) (i : Instr) : Prop :=
  let regs := i.reads ++ i.writes ++ releasedTiles g i
  (∀ r ∈ regs, ∀ w ∈ g.pend, w.reg = r →
    (∃ u, w.ready = .at u ∧ u ≤ (s.side (4 * g.core + g.side)).cycle)
    ∨ (w.src = .mma ∧ ∃ o : RForm, (i = .mma o ∨ i = .mmag o) ∧ r = .a o.d.toNat)
    ∨ (w.src = .used ∧ ∀ o, i ≠ .relOpt o ∧ i ≠ .relAcc o))
  ∧ ∀ x ∈ g.stash, ∀ r ∈ x.writes, r ∉ regs

/-- Every pipe that a demand names accepts work in the side's cycle (R30, R47). -/
def pipesTake (d : Side) (x : Demand) : Prop :=
  let c := d.cycle
  x.int ≤ (if d.intBusy ≤ c then 1 else 0) ∧ x.mem ≤ (if d.memBusy ≤ c then 1 else 0)
    ∧ x.mat ≤ (if d.matBusy ≤ c then 1 else 0)
    ∧ x.fma ≤ (if d.fmaBusy ≤ c then 1 else 0) + (if d.fmaBusy2 ≤ c then 1 else 0)

/-- One of two ready paths precedes the other (R28). -/
def pickBefore (g : Group) (p q : Pick) : Prop :=
  let n := fun (x : Pick) => (List.range 32).countP fun L => bitOf x.path L
  let c := fun (x : Pick) => (((List.range 32).filter fun L => bitOf x.path L).map fun L => (g.lane L).passed).foldl max 0
  if 32 ≤ c p ∧ 32 ≤ c q then c q < c p ∨ (c p = c q ∧ p.pc.toNat < q.pc.toNat)
  else if 32 ≤ c p then True else if 32 ≤ c q then False else n q < n p ∨ (n p = n q ∧ p.pc.toNat < q.pc.toNat)

/-- Two paths are in conflict in a cycle (R29). -/
def clash (d : Side) (p q : Pick) : Prop :=
  let word := fun (x : Pick) (f : Instr → Prop) => ∃ i, x.word.instr? = some i ∧ f i
  let readsLane := fun (x : Pick) (r : Nat) => word x fun i => RegName.v r ∈ i.reads
  let demand := fun (x : Pick) => (x.word.instr?.map demandOf).getD ⟨0, 0, 0, 0⟩
  let a := demand p
  let b := demand q
  (∃ r k, r ≠ k ∧ r % 4 = k % 4 ∧ (readsLane p r ∨ readsLane q r) ∧ (readsLane p k ∨ readsLane q k))
  ∨ ¬ pipesTake d ⟨a.int + b.int, a.fma + b.fma, a.mem + b.mem, a.mat + b.mat⟩
  ∨ word p (fun i => isSystem i = true) ∨ word q (fun i => isSystem i = true)

/-! Images (R436; log 4 for their layout). -/

/-- An image's version. -/
def versionOf (b : List Byte) : Nat := leNat ((b.drop 2592).take 4)

/-- The key's digest is the ROM's, and the signature over the digest of version and body verifies. -/
abbrev Signed (b : List Byte) : Prop :=
  2592 + 4 + 4627 ≤ b.length ∧ Config.sha3_512 (b.take 2592) = Config.romDigest
    ∧ Config.mldsaVerify (b.take 2592) (Config.sha3_512 ((b.drop 2592).take (b.length - 2592 - 4627))).toList (b.drop (b.length - 4627))
        = true

/-- A measurement register extended (R436). -/
def extended (m b : List Byte) : List Byte := (Config.sha3_512 (m ++ (Config.sha3_512 b).toList)).toList

/-- What decides bring-up, in its order: what must hold, and the STAGE and ERR where it does not (R432, R435, R436). -/
def bootChecks (y : Yuren) (img : BootImages) : List (Bool × Nat × Nat) :=
  let own := fun (a b : List Byte) => if a = [] then b else a
  let current := fun b => decide (Signed b ∧ y.floor ≤ versionOf b)
  let image : List Byte → Nat → List (Bool × Nat × Nat) := fun b err => [(decide (Signed b), 2, err), (decide (y.floor ≤ versionOf b), 2, 2)]
  let body := (img.record.drop 2596).take (img.record.length - 2596 - 4627)
  let base := fun (k : Nat) => match img.bases[k]? with | some b => b | none => []
  [((y.slotAOk && !y.slotANew && current (own y.slotA img.slotA))
     || (y.slotBOk && !y.slotBNew && current (own y.slotB img.slotB)), 1, 1),
   (!current img.record || body.take 16 = Config.ownSerial, 2, 4)]
  ++ image img.record 3 ++ image img.die 5 ++ image img.dispatcher 5 ++ (List.range 16).flatMap (fun k => image (base k) 5)
  ++ [(img.dieTrainOk, 3, 7), (img.stackTrainOk, 3, 6)]

end Sys2Proof.Machine
end

