-- ==== Sys2Proof/Certificates/Slice0/Obligations.lean ====
section
/-! DEFINITION. The statements for the provers. -/

open Sys2Proof Sys2Proof.Machine

/-- The frame of the register words (R25, R71, R140, R150, R171): each runs; only its group changes, in the registers
that the word writes and the lanes that are active; FPSTAT only gains flags (R60); the lanes of the path go on; a
stochastic register changes only where the word draws from it (R56). -/
def Obligations.RegisterWordsChangeOnlyTheirResults : Prop :=
  ∀ (i : Instr) (s : State) (g : Group), regWord i = true → GoesAhead i (guardOf i) s g →
    RunsTo i s fun g' =>
      OnlyRegs g g' ∧ g'.Canonical
      ∧ (∀ r, r ∉ i.writes → SameReg g g' r)
      ∧ (∀ n, ∀ L < 32, ¬ active s g (guardOf i) L →
          rdV g' n L = rdV g n L ∧ bitOf (rdP g' n).bits L = bitOf (rdP g n).bits L
            ∧ bitOf (rdP g' n).tags L = bitOf (rdP g n).tags L)
      ∧ g.fpstat &&& g'.fpstat = g.fpstat
      ∧ MovesOn s.cur 0 { g with lanes := g.lanes.mapIdx fun L ln => { ln with rnd := (g'.lane L).rnd } } g'
      ∧ ∀ L < 32, (g'.lane L).rnd = (g.lane L).rnd ∨ (draws i = true ∧ active s g (guardOf i) L)

/-- R181 to R194: each integer word writes its operation's result, with the operands' poison, to d of every active
lane; `.sat` that clamps sets FPSTAT.SAT; the words with a 32-bit immediate likewise. Their frame is
`RegisterWordsChangeOnlyTheirResults`.
The model's own choices in it: log 64. -/
def Obligations.IntegerWordsWriteTheirResults : Prop :=
  (
    ∀ (op : IntOp) (o : RForm) (s : State) (g : Group), GoesAhead (intInstr op o) o.g s g →
      RunsTo (intInstr op o) s fun g' =>
        (∀ L < 32, active s g o.g L →
          rdVs g' o.d.toNat (intWidths op o.ty).2.2.2.1 L = (intAnswer op o (intOperands false op o g L)).1)
        ∧ g'.fpstat = g.fpstat |||
            (if (lanesOf (activeOf g s.cur o.g)).any fun L => (intAnswer op o (intOperands false op o g L)).2 then fSAT else 0))
  ∧ (
    ∀ (op : IntImmOp) (o : IForm) (s : State) (g : Group), GoesAhead (immInstr op o) o.g s g →
      RunsTo (immInstr op o) s fun g' =>
        g'.fpstat = g.fpstat ∧ ∀ L < 32, active s g o.g L →
          match op with
          | .mov => rdV g' o.d.toNat L = ⟨o.imm, false⟩
          | .movI64 => rdVs g' o.d.toNat 2 L = ⟨immMeaning .movI64 0 o.imm, false⟩
          | op => rdV g' o.d.toNat L =
              ⟨BitVec.ofNat 32 (immMeaning op (rdV g o.a.toNat L).val.toNat o.imm), (rdV g o.a.toNat L).tag⟩)

/-- R158: a uniform form computes once, from uniform registers, and writes a uniform register; no lane register
changes.
The model's own choices in it: log 64. -/
def Obligations.UniformFormsComputeOnce : Prop :=
  ∀ (u : UniForm) (s : State) (g : Group), GoesAhead (.uniformForm u) (guardOf (.uniformForm u)) s g →
    activeOf g s.cur (guardOf (.uniformForm u)) ≠ 0 →
    RunsTo (.uniformForm u) s fun g' =>
      (∀ n, ∀ L < 32, rdV g' n L = rdV g n L)
      ∧ match u with
        | .r op o =>
          rdSs g' o.d.toNat (intWidths op o.ty).2.2.2.1 = (intAnswer op o (intOperands true op o g 0)).1
          ∧ g'.fpstat = g.fpstat ||| (if (intAnswer op o (intOperands true op o g 0)).2 then fSAT else 0)
        | .i .mov o => rdS g' o.d.toNat = ⟨o.imm, false⟩
        | .i .movI64 o => rdSs g' o.d.toNat 2 = ⟨immMeaning .movI64 0 o.imm, false⟩
        | .i op o => rdS g' o.d.toNat =
            ⟨BitVec.ofNat 32 (immMeaning op (rdS g o.a.toNat).val.toNat o.imm), (rdS g o.a.toNat).tag⟩

/-- R183, R190, R191, R195: carries, comparisons, selection and the dot product. A write to p0 has no effect. -/
def Obligations.CarryCompareSelectDot : Prop :=
  ∀ (o : RForm) (s : State) (g : Group),
    let a := fun n L => srcA false g o n L
    let b := fun n L two => srcB false g o n L two
    (∀ sub : Bool, GoesAhead (if sub then .subc o else .addc o) o.g s g →
      RunsTo (if sub then .subc o else .addc o) s fun g' => ∀ L < 32, active s g o.g L →
        let cin : Nat := if bitOf (rdP g o.c.toNat).bits L then 1 else 0
        let x : Int := if sub then ((a 1 L).n : Int) - (b 1 L false).n - cin else (a 1 L).n + (b 1 L false).n + cin
        let t := (a 1 L).tag || (b 1 L false).tag || bitOf (rdP g o.c.toNat).tags L
        rdV g' o.d.toNat L = ⟨BitVec.ofInt 32 x, t⟩
        ∧ bitOf (rdP g' o.c.toNat).bits L = (if sub then decide (x < 0) else decide (2 ^ 32 ≤ x))
        ∧ bitOf (rdP g' o.c.toNat).tags L = t)
    ∧ (∀ k, GoesAhead (.icmpp k o) o.g s g → RunsTo (.icmpp k o) s fun g' =>
        rdP g' 0 = ⟨0xFFFFFFFF#32, 0⟩ ∧ ∀ L < 32, active s g o.g L → o.d ≠ 0 →
          let x := numBV o.ty.signed (BitVec.ofNat o.ty.bits (a o.ty.regs L).n)
          let y := numBV o.ty.signed (BitVec.ofNat o.ty.bits (b o.ty.regs L true).n)
          (bitOf (rdP g' o.d.toNat).bits L = true ↔ match k with
            | .eq => x = y | .ne => x ≠ y | .lt => x < y | .le => x ≤ y | .gt => x > y | .ge => x ≥ y)
          ∧ bitOf (rdP g' o.d.toNat).tags L = ((a o.ty.regs L).tag || (b o.ty.regs L true).tag))
    ∧ (GoesAhead (.sel o) o.g s g → RunsTo (.sel o) s fun g' => ∀ L < 32, active s g o.g L →
        let p := rdP g (o.c.toNat % 8)
        let x := if xor (bitOf p.bits L) (o.c.getLsbD 3) then a 1 L else b 1 L false
        rdV g' o.d.toNat L = ⟨BitVec.ofNat 32 x.n, x.tag || bitOf p.tags L⟩)
    ∧ (GoesAhead (.dot4 o) o.g s g → RunsTo (.dot4 o) s fun g' => ∀ L < 32, active s g o.g L →
        let A := BitVec.ofNat 32 (a 1 L).n
        let B := BitVec.ofNat 32 (b 1 L false).n
        let c := srcC false g o 1 L
        let signed := decide (o.ty = .i8)
        let e := fun (i : Nat) => numBV signed (A.extractLsb' (8 * i) 8) * numBV (signed && !o.x) (B.extractLsb' (8 * i) 8)
        let x := numBV signed (BitVec.ofNat 32 c.n) + e 0 + e 1 + e 2 + e 3
        let t : Ty := if signed then .i32 else .n32
        rdV g' o.d.toNat L = ⟨BitVec.ofInt 32 (if o.sat then max (tyMin t) (min (tyMax t) x) else x),
          (a 1 L).tag || (b 1 L false).tag || c.tag⟩)

/-- R196, R197: the predicate words act on the active lanes' bits and tags; P2S writes a whole predicate to a uniform
register, S2P takes the active lanes' bits from one. p0 stays all ones (R71). -/
def Obligations.PredicateWordsWriteTheirBits : Prop :=
  ∀ (o : RForm) (s : State) (g : Group),
    let a := fun L => bitOf (rdP g o.a.toNat).bits L
    let b := fun L => bitOf (rdP g o.b.toNat).bits L
    let at_ := fun L => bitOf (rdP g o.a.toNat).tags L
    let bt := fun L => bitOf (rdP g o.b.toNat).tags L
    let writes := fun (i : Instr) (r t : Nat → Bool) => GoesAhead i o.g s g → RunsTo i s fun g' =>
      rdP g' 0 = ⟨0xFFFFFFFF#32, 0⟩ ∧ ∀ L < 32, active s g o.g L → o.d ≠ 0 →
        bitOf (rdP g' o.d.toNat).bits L = r L ∧ bitOf (rdP g' o.d.toNat).tags L = t L
    writes (.pand o) (fun L => a L && b L) (fun L => at_ L || bt L)
    ∧ writes (.por o) (fun L => a L || b L) (fun L => at_ L || bt L)
    ∧ writes (.pxor o) (fun L => xor (a L) (b L)) (fun L => at_ L || bt L)
    ∧ writes (.pandn o) (fun L => a L && !b L) (fun L => at_ L || bt L)
    ∧ writes (.porn o) (fun L => a L || !b L) (fun L => at_ L || bt L)
    ∧ writes (.pnot o) (fun L => !a L) at_
    ∧ writes (.pmov o) a at_
    ∧ writes (.s2p o) (fun L => bitOf (rdS g o.a.toNat).val L) (fun _ => (rdS g o.a.toNat).tag)
    ∧ (GoesAhead (.p2s o) o.g s g → activeOf g s.cur o.g ≠ 0 → RunsTo (.p2s o) s fun g' =>
        rdS g' o.d.toNat = ⟨(rdP g o.a.toNat).bits, decide ((rdP g o.a.toNat).tags ≠ 0)⟩)

/-- R216 to R218: exchange between the active lanes, votes and matches. -/
def Obligations.LaneExchangeWordsCombineActiveLanes : Prop :=
  ∀ (o : RForm) (s : State) (g : Group),
    let S := activeOf g s.cur o.g
    let w := o.ty.regs
    (∀ m, GoesAhead (.shfl m o) o.g s g → RunsTo (.shfl m o) s fun g' => ∀ L < 32, active s g o.g L →
        let n : Int := ((srcB false g o 1 L true).n % 32 : Nat)
        let from_ : Int := match m with
          | .lane => n | .below => L - n | .above => L + n | .flip => ((L ^^^ n.toNat : Nat) : Int)
        let src := if from_ < 0 ∨ from_ > 31 then L else from_.toNat
        rdVs g' o.d.toNat w L = if bitOf S src then srcA false g o w src else ⟨0, false⟩)
    ∧ (∀ all : Bool, GoesAhead (if all then .voteAnd o else .voteOr o) o.g s g →
        RunsTo (if all then .voteAnd o else .voteOr o) s fun g' => ∀ L < 32, active s g o.g L → o.d ≠ 0 →
          bitOf (rdP g' o.d.toNat).bits L =
            (if all then (lanesOf S).all (bitOf (rdP g o.a.toNat).bits) else (lanesOf S).any (bitOf (rdP g o.a.toNat).bits))
          ∧ bitOf (rdP g' o.d.toNat).tags L = (lanesOf S).any (bitOf (rdP g o.a.toNat).tags))
    ∧ (GoesAhead (.voteMask o) o.g s g → S ≠ 0 → RunsTo (.voteMask o) s fun g' =>
        rdS g' o.d.toNat = ⟨(rdP g o.a.toNat).bits &&& S, decide ((rdP g o.a.toNat).tags &&& S ≠ 0)⟩)
    ∧ (GoesAhead (.matchPeers o) o.g s g → RunsTo (.matchPeers o) s fun g' => ∀ L < 32, active s g o.g L →
        (rdV g' o.d.toNat L).tag = ((lanesOf S).any fun K => (srcA false g o w K).tag)
        ∧ ∀ K < 32, bitOf (rdV g' o.d.toNat L).val K =
            (bitOf S K && decide ((srcA false g o w K).n = (srcA false g o w L).n)))
    ∧ (GoesAhead (.matchSame o) o.g s g → RunsTo (.matchSame o) s fun g' => ∀ L < 32, active s g o.g L →
        rdV g' o.d.toNat L =
          ⟨if (lanesOf S).all fun K => (srcA false g o w K).n = (srcA false g o w (lowest S)).n then S else 0,
            (lanesOf S).any fun K => (srcA false g o w K).tag⟩)

/-- R219: an integer SCAN gives each active lane its operator over the lanes from its head lane to itself, or without
itself; a floating SCAN combines them in the tree of R69, with its flags. A result carries the poison of the values it
folds.
The model's own choices in it: log 64. -/
def Obligations.ScanFoldsFromTheHeadLane : Prop :=
  ∀ (op : ScanOp) (o : RForm) (s : State) (g : Group), GoesAhead (.scan op o) o.g s g →
    let S := activeOf g s.cur o.g
    let v := fun i => if bitOf S i then srcA false g o 1 i else ⟨0, false⟩
    let x := fun i => (v i).n
    let h := fun i => ((List.range (i + 1)).reverse.find? fun j => bitOf (rdP g o.c.toNat).bits j).getD 0
    let start := fun i => if o.x then (if h i < i then x (i - 1) else scanIdentity op o.ty) else x i
    let steps := [1, 2, 4, 8, 16]
    RunsTo (.scan op o) s fun g' =>
      (∀ L < 32, active s g o.g L →
        (o.ty ≠ .f32 →
          (rdV g' o.d.toNat L).val.toNat =
            if o.x then
              (if L = h L then scanIdentity op o.ty
               else ((List.range (L - h L - 1)).map fun k => x (h L + 1 + k)).foldl (scanInt op o.ty) (x (h L)))
            else ((List.range (L - h L)).map fun k => x (h L + 1 + k)).foldl (scanInt op o.ty) (x (h L)))
        ∧ (o.ty = .f32 → (rdV g' o.d.toNat L).val.toNat = scanTree (scanOperator op) h steps start L)
        ∧ (rdV g' o.d.toNat L).tag = (decide ((rdP g o.c.toNat).tags ≠ 0)
            || (List.range 32).any fun j => decide (h L ≤ j) && decide (if o.x then j < L else j ≤ L) && (v j).tag))
      ∧ g'.fpstat = g.fpstat ||| if S ≠ 0 ∧ o.ty = .f32 then scanFlags (scanOperator op) h steps start else 0

/-- R32, R152: a pair word runs both slots on the values held before it, in every lane of the path, and each slot's
operation is that of its full-format word (R153). -/
def Obligations.PairSlotsReadBeforeEitherWrites : Prop :=
  ∀ (x y : Slot) (s : State) (g : Group), GoesAhead (.pairWord x y) ⟨0, false⟩ s g →
    let reg := fun (r L : Nat) => (rdV g r L).val.toNat
    let res := fun (z : Slot) (L : Nat) =>
      TW.mk (BitVec.ofNat 32 (slotMeaning z (reg z.pa.toNat L) (reg z.pb L) (reg z.pd.toNat L)))
        (z.reads.any fun r => (rdV g r L).tag)
    RunsTo (.pairWord x y) s fun g' =>
      (∀ L < 32, bitOf s.cur.lanes L = true → rdV g' x.pd.toNat L = res x L ∧ rdV g' y.pd.toNat L = res y L)
      ∧ g'.fpstat = (lanesOf s.cur.lanes).foldl (fun f L => f ||| (slotCompute x g L).2 ||| (slotCompute y g L).2) g.fpstat

/-- R201 to R206: the floating-point words and their packed forms write their element results, with the operands'
poison, to the active lanes, and their flags to FPSTAT; fimm stands for a register under CK = 0b10 (R200). -/
def Obligations.FloatWordsWriteTheirElements : Prop :=
  ∀ (o : RForm) (s : State) (g : Group),
    let runs := fun (i : Instr) (op : FOp) (packed three : Bool) => GoesAhead i o.g s g →
      let ans := fun L => (if packed then packMeaning else arithMeaning) op (fmtOf o.ty) o.rm o.ftz (fA packed o g L).n
        (fB packed o g L (!three)).n (if three then (fC packed o g L).n else 0)
      RunsTo i s fun g' =>
        (∀ L < 32, active s g o.g L → rdV g' o.d.toNat L = ⟨BitVec.ofNat 32 (ans L).1,
          (fA packed o g L).tag || (fB packed o g L (!three)).tag || (three && (fC packed o g L).tag)⟩)
        ∧ g'.fpstat = (lanesOf (activeOf g s.cur o.g)).foldl (fun f L => f ||| (ans L).2) g.fpstat
    runs (.fadd o) .add false false ∧ runs (.fsub o) .sub false false ∧ runs (.fmul o) .mul false false
    ∧ runs (.ffma o) .fma false true ∧ runs (.ffms o) .fms false true ∧ runs (.ffnma o) .fnma false true
    ∧ runs (.fmin o) .min false false ∧ runs (.fmax o) .max false false
    ∧ runs (.padd o) .add true false ∧ runs (.pmul o) .mul true false ∧ runs (.pfma o) .fma true true
    ∧ runs (.pmin o) .min true false ∧ runs (.pmax o) .max true false
    ∧ ∀ k, GoesAhead (.fcmpp k o) o.g s g →
        let t := fmtOf o.ty
        let a := fun L => fA false o g L
        let b := fun L => fB false o g L true
        let cmp := fun L => compareMeaning t k (flushed t o.ftz (a L).n) (flushed t o.ftz (b L).n)
        let den := fun L => if o.ftz && (isSubnormal t (a L).n || isSubnormal t (b L).n) then fDEN else 0
        RunsTo (.fcmpp k o) s fun g' => rdP g' 0 = ⟨0xFFFFFFFF#32, 0⟩
          ∧ g'.fpstat = (lanesOf (activeOf g s.cur o.g)).foldl (fun f L => f ||| (cmp L).2 ||| den L) g.fpstat
          ∧ ∀ L < 32, active s g o.g L → o.d ≠ 0 →
            bitOf (rdP g' o.d.toNat).bits L = (cmp L).1 ∧ bitOf (rdP g' o.d.toNat).tags L = ((a L).tag || (b L).tag)

/-- R205, R207 to R213: classes, conversions, seeds, range reduction, scaling, exponents and significands. A stochastic
conversion draws the next number of its lane's register (R56).
The model's own choices in it: log 64. -/
def Obligations.ConversionAndHelperWordsWriteTheirResults : Prop :=
  ∀ (o : RForm) (s : State) (g : Group),
    let t := fmtOf o.ty
    let S := activeOf g s.cur o.g
    let a := fun L => fA false o g L
    let one := fun (i : Instr) (f : Nat → Nat × Flags) => GoesAhead i o.g s g → RunsTo i s fun g' =>
      (∀ L < 32, active s g o.g L → rdV g' o.d.toNat L = ⟨BitVec.ofNat 32 (f (a L).n).1, (a L).tag⟩)
      ∧ g'.fpstat = (lanesOf (activeOf g s.cur o.g)).foldl (fun x L => x ||| (f (a L).n).2) g.fpstat
    one (.fclass o) (fun n => (2 ^ fClassBit t n, 0))
    ∧ (∀ k, one (.fseed k o) (fSeed k))
    ∧ one (.fexp o) (fExp t) ∧ one (.fmant o) (fMant t)
    ∧ (GoesAhead (.frred o) o.g s g → RunsTo (.frred o) s fun g' =>
        let r := fun L => fRred o.rm (a L).n
        (∀ L < 32, active s g o.g L →
          rdV g' o.d.toNat L = ⟨BitVec.ofInt 32 (r L).1, (a L).tag⟩
          ∧ rdV g' (o.d.toNat + 1) L = ⟨BitVec.ofNat 32 (r L).2.1, (a L).tag⟩)
        ∧ g'.fpstat = (lanesOf S).foldl (fun f L => f ||| (r L).2.2) g.fpstat)
    ∧ (GoesAhead (.fscale o) o.g s g → RunsTo (.fscale o) s fun g' =>
        let b := fun L => srcB false g o 1 L true
        let r := fun L => fScale t o.rm (a L).n (BitVec.ofNat 32 (b L).n).toInt
        (∀ L < 32, active s g o.g L → rdV g' o.d.toNat L = ⟨BitVec.ofNat 32 (r L).1, (a L).tag || (b L).tag⟩)
        ∧ g'.fpstat = (lanesOf S).foldl (fun f L => f ||| (r L).2) g.fpstat)
    ∧ (∀ src, GoesAhead (.cvt src o) o.g s g → RunsTo (.cvt src o) s fun g' =>
        let w := o.ty.bits
        let c := o.c.toNat
        let pk := decide (c / 16 % 2 = 1)
        let x := fun L => srcA false g o src.regs L
        let y := fun L => srcB false g o 1 L false
        let old := fun L => rdV g o.d.toNat L
        let draw := fun (r : Word) => if o.rm = .rs then r.toNat % 2 ^ 24 else 0
        let r0 := fun L => if o.rm = .rs then lfsr (g.lane L).rnd else (g.lane L).rnd
        let r1 := fun L => if o.rm = .rs && pk then lfsr (r0 L) else r0 L
        let e0 := fun L => convertTo o.ty src o.rm o.sat (draw (r0 L))
          (if src.bits < 32 then (x L).n / 2 ^ (src.bits * (c % 4)) % 2 ^ src.bits else (x L).n)
        let e1 := fun L => if pk then convertTo o.ty src o.rm o.sat (draw (r1 L)) (y L).n else (0, 0)
        (∀ L < 32, active s g o.g L →
          (g'.lane L).rnd = r1 L
          ∧ (pk = true → rdV g' o.d.toNat L = ⟨BitVec.ofNat 32 ((e0 L).1 + 2 ^ 16 * (e1 L).1), (x L).tag || (y L).tag⟩)
          ∧ (pk = false → w < 32 → (rdV g' o.d.toNat L).tag = ((x L).tag || (old L).tag)
              ∧ ∀ k < 32 / w, (rdV g' o.d.toNat L).val.toNat / 2 ^ (w * k) % 2 ^ w =
                  if k = c / 4 % 4 then (e0 L).1 else (old L).val.toNat / 2 ^ (w * k) % 2 ^ w)
          ∧ (w = 32 → rdV g' o.d.toNat L = ⟨BitVec.ofNat 32 (e0 L).1, (x L).tag⟩)
          ∧ (w = 64 → rdVs g' o.d.toNat 2 L = ⟨(e0 L).1, (x L).tag⟩))
        ∧ g'.fpstat = (lanesOf S).foldl (fun f L => f ||| (e0 L).2 ||| (e1 L).2) g.fpstat)
    ∧ (∀ src, GoesAhead (.cvtblk src o) o.g s g → S ≠ 0 → RunsTo (.cvtblk src o) s fun g' =>
        let next := fun i => if o.rm = .rs then lfsr (g.lane i).rnd else (g.lane i).rnd
        let x := fun i => srcA false g o 1 i
        let xs := (List.range 32).map fun i =>
          if bitOf S i then
            (unpack (fmtOf src) (if src.bits < 32 then (x i).n / 2 ^ (src.bits * (o.c.toNat % 4)) % 2 ^ src.bits else (x i).n),
              if o.rm = .rs then (next i).toNat % 2 ^ 24 else 0)
          else (FVal.fin false 0 0, 0)
        let r := mxBlock o.rm xs
        (∀ L < 32, active s g o.g L →
          (g'.lane L).rnd = next L
          ∧ (rdV g' o.d.toNat L).tag = ((List.range 32).any fun i => bitOf S i && (x i).tag)
          ∧ (rdV g' o.d.toNat L).val.toNat =
            if L < 4 then ((List.range 8).map fun k => r.2.1.getD (8 * L + k) 0 * 16 ^ k).sum else if L = 4 then r.1 else 0)
        ∧ g'.fpstat = g.fpstat ||| r.2.2)

/-- R52, R55 to R57: a finite rounding whose result is not beyond the format gives the code that its mode asks for: the
nearest, the even one at a tie; toward zero the largest that is not greater; away from it the least that is not less; the
stochastic one by its draw. INX says that the number was not representable, UNF that a result below the normal ones was
not. Past the largest finite value the result overflows. -/
def Obligations.RoundingGivesTheCodeOfItsMode : Prop :=
  ∀ (t : Fmt) (rm : Rm) (neg : Bool) (m : Nat) (e : Int) (draw : Nat), t ∈ formats → draw < 2 ^ 24 →
    let r := roundMag t rm draw neg m e false
    let x : ℚ := m * (2 : ℚ) ^ e
    let top := codeRat t t.maxCode
    let gap := top - codeRat t (t.maxCode - 1)
    let away := (rm = .ru ∧ neg = false) ∨ (rm = .rd ∧ neg = true)
    let toward := rm = .rz ∨ (rm = .rd ∧ neg = false) ∨ (rm = .ru ∧ neg = true)
    let u : ℚ := (2 : ℚ) ^ max (Int.log 2 x - t.f) t.qmin
    let up := Int.fract (x / u) ≠ 0 ∧ 2 ^ 24 ≤ ⌊Int.fract (x / u) * 2 ^ 24⌋ + (draw : Int)
    let drawn : ℚ := if up then (⌊x / u⌋ + 1) * u else ⌊x / u⌋ * u
    (r.beyond = false →
      r.code ≤ t.maxCode
      ∧ (fINX &&& r.flags ≠ 0 ↔ codeRat t r.code ≠ x)
      ∧ (fUNF &&& r.flags ≠ 0 ↔ codeRat t r.code ≠ x ∧ 0 < r.code ∧ r.code < 2 ^ t.f)
      ∧ (toward → codeRat t r.code ≤ x ∧ ∀ c ≤ t.maxCode, codeRat t c ≤ x → codeRat t c ≤ codeRat t r.code)
      ∧ (away → x ≤ codeRat t r.code ∧ ∀ c ≤ t.maxCode, x ≤ codeRat t c → codeRat t r.code ≤ codeRat t c)
      ∧ (rm = .rn → ∀ c ≤ t.maxCode, |codeRat t r.code - x| ≤ |codeRat t c - x|
          ∧ (c ≠ r.code → |codeRat t r.code - x| = |codeRat t c - x| → r.code % 2 = 0))
      ∧ (rm = .rs → 0 < m → codeRat t r.code = drawn))
    ∧ (toward → (r.beyond = true ↔ top + gap ≤ x)) ∧ (away → (r.beyond = true ↔ top < x))
    ∧ (rm = .rn → (r.beyond = true ↔ top + gap / 2 < x ∨ (top + gap / 2 = x ∧ t.maxCode % 2 = 1)))
    ∧ (rm = .rs → 0 < m → (r.beyond = true ↔ top < drawn))
    ∧ (r.beyond = true → t ≠ fE2M1 → r.flags = fOVF ||| fINX
        ∧ r.code = if t = fE4M3 then 0x7F else if rm = .rn ∨ away ∨ (rm = .rs ∧ up) then t.infCode else t.maxCode)

/-- R53, R57 to R59, R202: a sum, a product and a fused multiply-add of finite values are the exact number, rounded
once; what NaNs, infinities and zeros give, and what `.ftz` makes of subnormals.
The model's own choices in it: log 7. -/
def Obligations.FloatArithmeticRoundsTheExactNumberOnce : Prop :=
  (
    ∀ (t : Fmt) (rm : Rm) (x y z : FVal), t ∈ formats → x.finite = true → y.finite = true → z.finite = true →
      let rounds := fun (q : ℚ) (r : Nat × Flags) => ∃ (neg : Bool) (m : Nat) (e : Int),
        (FVal.fin neg m e).rat = q ∧ r = roundTo t rm neg m e false
      rounds (x.rat + y.rat) (fAddV t rm x y) ∧ rounds (x.rat - y.rat) (fAddV t rm x y.negate)
      ∧ rounds (x.rat * y.rat) (fMulV t rm x y) ∧ rounds (x.rat * y.rat + z.rat) (fFmaV t rm x y z))
  ∧ (
    ∀ (t : Fmt) (rm : Rm) (x y : FVal), t ∈ formats →
      (isNan x = true ∨ isNan y = true →
        (fAddV t rm x y).1 = t.nan ∧ (fMulV t rm x y).1 = t.nan
        ∧ (fAddV t rm x y).2 = (if isSnan x || isSnan y then fINV else 0)
        ∧ (fMulV t rm x y).2 = (if isSnan x || isSnan y then fINV else 0))
      ∧ (∀ z n e, isSnan z = false → fFmaV t rm (.inf n) (.fin n 0 e) z = (t.nan, fINV) ∧ fFmaV t rm (.fin n 0 e) (.inf n) z = (t.nan, fINV))
      ∧ (∀ z, isNan x = true ∨ isNan y = true ∨ isNan z = true → (fFmaV t rm x y z).1 = t.nan)
      ∧ (∀ a b, fAddV t rm (.inf a) (.inf b) = if a = b then (t.sign a + t.infCode, 0) else (t.nan, fINV))
      ∧ (∀ a n m e, fAddV t rm (.inf a) (.fin n m e) = (t.sign a + t.infCode, 0)
          ∧ fMulV t rm (.inf a) (.fin n m e) = if m = 0 then (t.nan, fINV) else (t.sign (a ≠ n) + t.infCode, 0))
      ∧ (∀ n m e, m ≠ 0 → fAddV t rm (.fin n m e) (.fin (!n) m e) = (t.sign (decide (rm = .rd)), 0))
      ∧ (∀ n e f, fAddV t rm (.fin n 0 e) (.fin n 0 f) = (t.sign n, 0))
      ∧ ∀ op a b c, isSubnormal t a = true →
          fCompute op t rm true a b c =
            (let r := fCompute op t rm true (t.sign (natBit a (t.e + t.f))) b c
             (r.1, r.2 ||| fDEN)))

/-! Control. -/

/-- R148, R172, R173: a transfer moves the active lanes to its target and the others to PC + 8; CALL writes the link
pair; an indexed transfer that finds poison, then one that finds a misaligned target, is a trap, and no lane moves. -/
def Obligations.TransfersMoveTheActiveLanes : Prop :=
  ∀ (s : State) (g : Group),
    (∀ o : BForm, GoesAhead (.bra o) o.g s g → RunsTo (.bra o) s fun g' => OnlyLanes g g' ∧
      LanesBecome s o.g g g' fun _ ln => { ln with pc := s.cur.pc + BitVec.ofInt 64 (8 * o.ofs.toInt), polls := 0 })
    ∧ (∀ o : BForm, GoesAhead (.call o) o.g s g → RunsTo (.call o) s fun g' =>
      { g' with lanes := g.lanes, v := g.v } = g
      ∧ (LanesBecome s o.g g g' fun _ ln => { ln with pc := s.cur.pc + BitVec.ofInt 64 (8 * o.ofs.toInt), polls := 0 })
      ∧ (∀ L < 32, active s g o.g L → rdVs g' o.l.toNat 2 L = ⟨(s.cur.pc + 8).toNat, false⟩)
      ∧ ∀ n, ∀ L < 32, ¬ (active s g o.g L ∧ (n = o.l.toNat ∨ n = o.l.toNat + 1)) → rdV g' n L = rdV g n L)
    ∧ ∀ (ret : Bool) (o : RForm),
        let i := if ret then Instr.ret o else .brx o
        let a := fun L => srcA false g o 2 L
        GoesAhead i o.g s g →
          ((∀ L < 32, active s g o.g L → (a L).tag = false ∧ (a L).n % 8 = 0) → RunsTo i s fun g' => OnlyLanes g g' ∧
            LanesBecome s o.g g g' fun L ln => { ln with pc := BitVec.ofNat 64 (a L).n, polls := 0 })
          ∧ (∀ L, g.trap = none → FirstLane s g o.g (fun L => (a L).tag = true) L → Traps i s g ⟨0x07, L, 0, 0⟩)
          ∧ ∀ L, g.trap = none → (∀ K < 32, active s g o.g K → (a K).tag = false) →
              FirstLane s g o.g (fun L => (a L).n % 8 ≠ 0) L → Traps i s g ⟨0x01, L, 0, 0⟩

/-- R174: EXIT ends the active lanes; while another lane runs, the others go on and nothing else changes. When the
last lane exits, the group gives back its registers, tiles and accumulators. -/
def Obligations.ExitEndsLanesThenTheGroup : Prop :=
  ∀ (o : RForm) (s : State) (g : Group), GoesAhead (.exit o) o.g s g → g.sup = false →
    let act := activeOf g s.cur o.g
    (g.running &&& ~~~act ≠ 0 → RunsTo (.exit o) s fun g' => OnlyLanes g g' ∧
      LanesBecome s o.g g g' fun _ ln => { ln with exited := true })
    ∧ (act ≠ 0 → g.running &&& ~~~act = 0 →
        ∃ t g', exec (.exit o) s = .next t ∧ t.group? s.cur.gid = some g' ∧ g'.ended = true
          ∧ g'.h = 0 ∧ g'.j = 0 ∧ g'.m = 0 ∧ g'.running = 0)

/-- R177, R179, R180, R330: WAITC with its COUNT reached goes on, or takes the engine-error trap of the oldest held
error, which is consumed; otherwise the active lanes wait. RGN and RGN.END set the active lanes' region. BRK traps with
its immediate and no lane moves; TRAP's trapping lanes stand at PC + 8. -/
def Obligations.WaitcRegionsAndBreaks : Prop :=
  (
    ∀ (o : RForm) (s : State) (g : Group),
      (∀ c, GoesAhead (.waitc c o) o.g s g → activeOf g s.cur o.g ≠ 0 →
        (s.countOf g.gid c ≤ o.c.toNat → g.heldError c = none → RunsTo (.waitc c o) s fun g' =>
          OnlyLanes g g' ∧ MovesOn s.cur 0 g g')
        ∧ (o.c.toNat < s.countOf g.gid c → RunsTo (.waitc c o) s fun g' => OnlyLanes g g' ∧
            LanesBecome s o.g g g' fun _ ln => waitingLane s.cur ln (.waitc c o.c.toNat))
        ∧ (∀ e, s.countOf g.gid c ≤ o.c.toNat → g.heldError c = some e → g.trap = none →
            ∃ t, exec (.waitc c o) s = .next t ∧ OnlyIssuerTrapped s t ∧ t.group? s.cur.gid = some
              { g.trapped ⟨0x12, lowest (activeOf g s.cur o.g), engineInfo (g.lost.contains c) e, e.addr⟩
                  (if s.cur.rep.isSome then s.cur.pc + 8 else s.cur.pc) s.ltick with
                errs := g.errs.erase e, lost := g.lost.filter (· ≠ c) }))
      ∧ (GoesAhead (.rgn o) o.g s g → RunsTo (.rgn o) s fun g' =>
          { g' with lanes := g.lanes, restarts := g.restarts } = g ∧ ∀ L < 32, g'.lane L =
            let ln := g.lane L
            let ln := if bitOf (activeOf g s.cur o.g) L then { ln with region := s.cur.pc + 8, inRegion := true } else ln
            if bitOf s.cur.lanes L then nextLane s.cur ln else ln)
      ∧ (GoesAhead (.rgnEnd o) o.g s g → RunsTo (.rgnEnd o) s fun g' =>
          { g' with lanes := g.lanes, restarts := g.restarts } = g ∧ ∀ L < 32, g'.lane L =
            let ln := g.lane L
            let ln := if bitOf (activeOf g s.cur o.g) L then { ln with inRegion := false } else ln
            if bitOf s.cur.lanes L then nextLane s.cur ln else ln))
  ∧ (
    ∀ (o : IForm) (s : State) (g : Group), g.trap = none → activeOf g s.cur o.g ≠ 0 →
      let act := activeOf g s.cur o.g
      let pc := if s.cur.rep.isSome then s.cur.pc + 8 else s.cur.pc
      (GoesAhead (.brk o) o.g s g → Traps (.brk o) s g ⟨0x15, lowest act, o.imm.toNat, 0⟩)
      ∧ (GoesAhead (.trap o) o.g s g → ∃ t g', exec (.trap o) s = .next t ∧ OnlyIssuerTrapped s t
          ∧ t.group? s.cur.gid = some g'
          ∧ OnlyLanes (g.trapped ⟨0x16, lowest act, o.imm.toNat, 0⟩ pc s.ltick) g'
          ∧ MovesOn s.cur (s.cur.lanes &&& ~~~act) g g'))

/-- R44, R175, R176, R178: after YIELD no lane of the path is ready for 32 cycles, and the two expiries make ready the
lanes whose back-off has passed; PPOINT in the window, with the one path of all running lanes, halts the group after
the word with its mask of tiles, and at the window's end a group halts and saves every tile.
The model's own choices in it: logs 6, 39. -/
def Obligations.BackOffsAndWindowsExpire : Prop :=
  (
    ∀ (s : State) (g : Group),
      let cycle := (s.side (sideKey g.core g.side)).cycle
      (∀ o : RForm, GoesAhead (.yield o) o.g s g → activeOf g s.cur o.g ≠ 0 → RunsTo (.yield o) s fun g' =>
        OnlyLanes g g' ∧ ∀ L < 32, g'.lane L =
          if bitOf s.cur.lanes L then { nextLane s.cur (g.lane L) with wait := .yield (cycle + 33) } else g.lane L)
      ∧ (s.group? s.cur.gid = some g → g.lanes.length = 32 → RunsTo .yieldBackoffExpiry s fun g' =>
          OnlyLanes g g' ∧ ∀ L < 32, g'.lane L =
            match (g.lane L).wait with
            | .yield u => if u ≤ cycle then { g.lane L with wait := .none } else g.lane L
            | _ => g.lane L)
      ∧ (s.group? s.cur.gid = some g → g.lanes.length = 32 → RunsTo .yieldWBackoffExpiry s fun g' =>
          OnlyLanes g g' ∧ ∀ L < 32, g'.lane L =
            match (g.lane L).wait with
            | .backoff u => if u ≤ cycle then { g.lane L with wait := .none } else g.lane L
            | _ => g.lane L))
  ∧ (
    ∀ (s : State) (g : Group),
      (∀ o : IForm, GoesAhead (.ppoint o) o.g s g →
        ((∃ u, g.halt = .window u ∧ s.ltick < u) → s.cur.lanes = g.running → activeOf g s.cur o.g ≠ 0 → RunsTo (.ppoint o) s fun g' =>
          { g' with lanes := g.lanes } = { g with halt := .halting .preempt, ppoint := some o.imm } ∧ MovesOn s.cur 0 g g')
        ∧ ((∀ u, g.halt = .window u → u ≤ s.ltick) ∨ s.cur.lanes ≠ g.running ∨ activeOf g s.cur o.g = 0 → RunsTo (.ppoint o) s fun g' =>
          OnlyLanes g g' ∧ MovesOn s.cur 0 g g'))
      ∧ ∀ u, s.group? s.cur.gid = some g → g.halt = .window u → RunsTo .ppointWindowExpiry s fun g' =>
          g' = { g with halt := if u ≤ s.ltick then .halting .preempt else .window u })

/-- R154, R155: a prefix sets its path's lanes to the first repetition where a legal word follows, and repetition `n`
is the word with its fields stepped `n - 1` times, which completes where that word does; a word that may not be repeated, or a field stepped out of its
legal set, is the illegal-instruction trap. -/
def Obligations.PrefixRepeatsTheSteppedWord : Prop :=
  ∀ (o : RepForm) (s : State) (g : Group), s.group? s.cur.gid = some g → g.Canonical →
    (∀ w, s.afterPrefix g o = .ok w → RunsTo (.rep o) s fun g' => OnlyLanes g g' ∧ ∀ L < 32, g'.lane L =
      if bitOf s.cur.lanes L then { g.lane L with k := 1 } else g.lane L)
    ∧ (s.afterPrefix g o = .illegal → g.trap = none → Traps (.rep o) s g ⟨0x01, lowest s.cur.lanes, 0, 0⟩)
    ∧ (s.afterPrefix g o = .poisoned → g.trap = none → Traps (.rep o) s g
        ⟨0x07, lowest s.cur.lanes, (s.cur.pc + 8).toNat % 2 ^ 54, (s.cur.pc + 8).toNat⟩)
    ∧ (∀ p w n, n ≠ 0 → leastK g s.cur.lanes = n →
        s.fetchWord g.core g.pasid s.cur.pc = some (p, false) → decodeWord p = .ok (.rep o) →
        s.fetchWord g.core g.pasid (s.cur.pc + 8) = some (w, false) → repeatable w = true →
        (∀ i, stepWord o w n = some i → exec .repetition s = exec i s
          ∧ (regWord i = true → GoesAhead i (guardOf i) s g → RunsTo .repetition s fun g' =>
              OnlyRegs g g' ∧ (∀ r, r ∉ i.writes → SameReg g g' r)
              ∧ MovesOn s.cur 0 { g with lanes := g.lanes.mapIdx fun L ln => { ln with rnd := (g'.lane L).rnd } } g'))
        ∧ (stepWord o w n = none → g.trap = none → Traps .repetition s g ⟨0x01, lowest s.cur.lanes, 0, 0⟩))
    ∧ ∀ (f : BitVec 8) (st : BitVec 2) (n : Nat), n ≠ 0 →
        stepField f st n = (let v : Int := f.toNat + (n - 1) * stepValue st
          if 0 ≤ v ∧ v ≤ 255 then some (BitVec.ofInt 8 v) else none)

/-! Memory. -/

/-- R74, R75, R90, R221, R222, R224, R225: a scratchpad load reads each active lane's bytes, little endian, with the
words' poison; a scratchpad store writes them, the highest active lane's where lanes overlap, and no other byte, and sets
and clears the poison of the words it meets, lane by lane.
The model's own choices in it: log 65. -/
def Obligations.ScratchpadLoadsAndStores : Prop :=
  ∀ (o : MForm) (s : State) (g : Group), o.sp = true → s.cores.Canonical → SpReaches s g o.g o (acSize o.ac.toNat) →
    let n := acSize o.ac.toNat
    let a := fun L => spPhys s g (offN g o L)
    let regs := memRegs o.ac.toNat
    let covers := fun (L x : Nat) => decide (a L ≤ x) && decide (x < a L + n)
    (GoesAhead (.ld o) o.g s g → RunsTo (.ld o) s fun g' =>
      { g' with v := g.v, lanes := g.lanes } = g ∧ MovesOn s.cur 0 g g'
      ∧ (∀ L < 32, active s g o.g L → ∀ i < regs, rdV g' (o.d.toNat + i) L =
          ⟨loadMeaning (o.ac = 1 || o.ac = 3) (spBytes s.cores (a L) n) i,
            (List.range (min n 4)).any fun k => spPoison s.cores (a L + 4 * i + k)⟩)
      ∧ ∀ r, ∀ L < 32, ¬ (active s g o.g L ∧ o.d.toNat ≤ r ∧ r < o.d.toNat + regs) → rdV g' r L = rdV g r L)
    ∧ (GoesAhead (.st o) o.g s g → NoGate s g o.g o n →
        (o.ord = .relaxed ∨ ∀ L < 32, active s g o.g L → s.performed g.gid L g.seq .t = true) →
        ∃ t g', exec (.st o) s = .next t ∧ OnlyScratch s t (o.ord ≠ .relaxed && activeOf g s.cur o.g ≠ 0)
          ∧ t.group? s.cur.gid = some g' ∧ OnlyLanes g g' ∧ MovesOn s.cur 0 g g'
          ∧ (∀ x, spByte t.cores x = match (lanesOf (activeOf g s.cur o.g)).reverse.find? fun L => covers L x with
              | some L => (storeBytes g o L).getD (x - a L) 0
              | none => spByte s.cores x)
          ∧ ∀ w, spPoison t.cores (4 * w) = (lanesOf (activeOf g s.cur o.g)).foldl (fun p L =>
              let tag := (rdV g (o.d.toNat + (4 * w - a L) / 4) L).tag
              if (List.range 4).all fun k => covers L (4 * w + k) then tag
              else if (List.range 4).any fun k => covers L (4 * w + k) then p || tag else p) (spPoison s.cores (4 * w)))

/-- R76, R90, R222, R229, R230: the active lanes of a scratchpad atomic act in ascending order, each on the value that
the lower lanes left; ATOM and CAS return the value each met, with its poison. What the operators compute, in the
arithmetic of bit vectors and with roundings to the nearest, and that a CAS writes only on a match.
The model's own choices in it: log 65. -/
def Obligations.ScratchpadAtomicsActInLaneOrder : Prop :=
  (
    ∀ (k : ReqKind) (i : Instr) (o : MForm) (s : State) (g : Group), o.sp = true → s.cores.Canonical →
      ((∃ op, k = .atom op o.ac.toNat ∧ i = .atom op o) ∨ (∃ op, k = .red op o.ac.toNat ∧ i = .red op o)
        ∨ (k = .cas o.ac.toNat ∧ i = .cas o)) →
      SpReaches s g o.g o (atomBytes o.ac.toNat) → NoGate s g o.g o (atomBytes o.ac.toNat) → GoesAhead i o.g s g →
      ((o.ord = .relaxed ∨ o.ord = .acq) ∨ ∀ L < 32, active s g o.g L → s.performed g.gid L g.seq .t = true) →
      let n := atomBytes o.ac.toNat
      let a := fun L => spPhys s g (offN g o L)
      let rel := decide (o.ord = .rel ∨ o.ord = .ar) && activeOf g s.cur o.g ≠ 0
      ∃ t g', exec i s = .next t ∧ OnlyScratch s t rel ∧ t.group? s.cur.gid = some g'
        ∧ { g' with v := g.v, lanes := g.lanes } = g ∧ MovesOn s.cur 0 g g'
        ∧ (∀ x, (∀ L < 32, active s g o.g L → ¬ (a L ≤ x ∧ x < a L + n)) → spByte t.cores x = spByte s.cores x)
        ∧ ∃ m : Nat → Cores, m 0 = s.cores ∧ t.cores = m 32
            ∧ ∀ L < 32,
              let old := leNat (spBytes (m L) (a L) n)
              let tag := (List.range n).any fun i => spPoison (m L) (a L + i)
              let d := atomOperand g k o.d.toNat L
              (¬ active s g o.g L → m (L + 1) = m L)
              ∧ (active s g o.g L →
                  (m (L + 1) = match atomResult k old tag d.1 d.2 with
                    | some y => spPut (m L) (a L) (leBytes n y.1) fun _ => y.2
                    | none => m L)
                  ∧ ∀ r < atomRegs o.ac.toNat, rdV g' (o.d.toNat + r) L =
                      if k.isRed then rdV g (o.d.toNat + r) L
                      else ⟨BitVec.ofNat 32 (old / 2 ^ (32 * r)), tag⟩))
  ∧ (
    (∀ (op : AtomOp) (wide sgn : Bool) (m o : Nat),
      let w := if wide then 64 else 32
      let ac := (if wide then 2 else 0) + (if sgn then 0 else 1)
      let M := BitVec.ofNat w m
      let O := BitVec.ofNat w o
      m < 2 ^ w → o < 2 ^ w → atomCompute op ac m o = match op with
        | .add => (M + O).toNat
        | .min => if numBV sgn M ≤ numBV sgn O then m else o
        | .max => if numBV sgn M ≤ numBV sgn O then o else m
        | .and => (M &&& O).toNat
        | .or => (M ||| O).toNat
        | .xor => (M ^^^ O).toNat
        | .exch => o)
    ∧ (∀ m o, m < 2 ^ 32 → o < 2 ^ 32 →
        let sum := fun (t : Fmt) a b => (fAddV t .rn (unpack t a) (unpack t b)).1
        let pair := fun (t : Fmt) => sum t (m % 2 ^ 16) (o % 2 ^ 16) + 2 ^ 16 * sum t (m / 2 ^ 16) (o / 2 ^ 16)
        atomCompute .add 4 m o = sum fF32 m o ∧ atomCompute .min 4 m o = (minMaxMeaning fF32 false m o).1
        ∧ atomCompute .max 4 m o = (minMaxMeaning fF32 true m o).1 ∧ atomCompute .exch 4 m o = o
        ∧ atomCompute .add 5 m o = pair fBF16 ∧ atomCompute .add 6 m o = pair fF16)
    ∧ ∀ (wide : Bool) (ac m : Nat) (tag ct st : Bool) (c x : List Byte), ac = (if wide then 2 else 0) →
        c.length = (if wide then 8 else 4) → x.length = c.length →
        atomResult (.cas ac) m tag (c ++ x) (List.replicate c.length ct ++ List.replicate c.length st) =
          if m = leNat c then some (leNat x, tag || ct || st) else none)

/-- R14, R91, R221: the checks of a memory word over its active lanes, in their order: poison of an address operand,
alignment; for the scratchpad bounds and, where the word writes, a live gate; for global memory canonical form, the
translation and a peer that is not reached, of the lanes that the first level does not serve, then an atomic that names no
`.far`, and poisoned data bound for class N or the host. Each names the first lane that fails; a lane without a translation
asks for its walk, and the path waits. -/
def Obligations.MemoryChecksTrapInOrder : Prop :=
  ∀ (o : MForm) (s : State) (g : Group) (i : Instr) (L size : Nat), g.trap = none → GoesAhead i o.g s g →
    let atomic := (∃ op, i = .atom op o ∨ i = .red op o) ∨ i = .cas o
    ((i = .ld o ∨ i = .st o) ∧ size = acSize o.ac.toNat ∨ atomic ∧ size = atomBytes o.ac.toNat) →
    let ga := globalAddr g o
    let sa := fun K => wrapNat (spOffset g o K) 64
    let addr := fun K => if o.sp then sa K else ga K
    let clean := fun K => (mBaseVal g o (!o.sp) K).tag = false
    let aligned := fun K => if o.sp then spOffset g o K % (size : Int) = 0 else ga K % size = 0
    let inside := fun K => 0 ≤ spOffset g o K ∧ spOffset g o K + size ≤ teamSize s g
    let all := fun (p : Nat → Prop) => ∀ K < 32, active s g o.g K → p K
    let kind : AccKind := if i = .ld o then .read else .write
    let red := match i with
      | .red .. => true
      | _ => false
    let served := fun K => i = .ld o ∧ canonical (ga K) = true ∧ (s.l1Hit g o K (ga K) size).isSome = true
    let goesTo := fun K (p : Placed → Prop) =>
      ∃ pa nc res, s.translate g.core g.pasid (ga K) kind = .hit pa nc res ∧ p (s.placeOf pa nc (g.ctx = 0))
    let away := fun (x : Placed) => ∃ p q b c, x = .at (.peer p q b) c ∧ s.reachable p = false ∧ red = false
    let arrives := fun K => canonical (ga K) = true ∧ goesTo K fun x => (∃ p c, x = .at p c) ∧ ¬ away x
    let regs := match i with
      | .cas _ => 2 * atomRegs o.ac.toNat
      | .st _ => memRegs o.ac.toNat
      | _ => atomRegs o.ac.toNat
    let keeps := fun (a : Acc) => a.cls ≠ some .N ∧ (∀ x, a.place ≠ .host x) ∧ ∀ p q b, a.place = .peer p q b → Config.peerHoldsN s.free p q = false
    (FirstLane s g o.g (fun K => ¬ clean K) L → Traps i s g ⟨0x07, L, addr L % 2 ^ 54, addr L⟩)
    ∧ (all clean → FirstLane s g o.g (fun K => ¬ aligned K) L → Traps i s g ⟨0x09, L, addr L % 2 ^ 54, addr L⟩)
    ∧ (o.sp = true → all clean → all aligned → FirstLane s g o.g (fun K => ¬ inside K) L →
        Traps i s g ⟨0x0A, L, sa L % 2 ^ 54, sa L⟩)
    ∧ (o.sp = true → i ≠ .ld o → all clean → all aligned → all inside →
        FirstLane s g o.g (fun K => ∃ b < size, spGate s.cores (spPhys s g (offN g o K) + b) = true) L →
        Traps i s g ⟨0x0F, L, offN g o L % 2 ^ 54, offN g o L⟩)
    ∧ (o.sp = false → all clean → all aligned → L < 32 → active s g o.g L → ¬ served L →
        (∀ K < L, active s g o.g K → served K ∨ arrives K) →
        (canonical (ga L) = false ∨ (canonical (ga L) = true ∧ goesTo L (· = .absent)) → Traps i s g ⟨0x0B, L, ga L % 2 ^ 54, ga L⟩)
        ∧ (canonical (ga L) = true → goesTo L away → Traps i s g ⟨0x0D, L, ga L % 2 ^ 54, ga L⟩)
        ∧ (canonical (ga L) = true → (∀ pa nc res, s.translate g.core g.pasid (ga L) kind ≠ .hit pa nc res) →
            ∃ t g', exec i s = .next t ∧ { t with groups := s.groups, xl := s.xl, nextId := s.nextId } = s
              ∧ { t.xl with walks := s.xl.walks } = s.xl
              ∧ (∀ k, k ≠ s.cur.gid → t.group? k = s.group? k) ∧ t.group? s.cur.gid = some g' ∧ OnlyLanes g g'
              ∧ (∀ K < 32, g'.lane K = if bitOf s.cur.lanes K then waitingLane s.cur (g.lane K) .walk else g.lane K)
              ∧ ∃ w ∈ t.xl.walks ++ t.xl.pageReqs.flatMap (·.walks), w.pasid = g.pasid ∧ w.va = ga L ∧ w.kind = kind))
    ∧ ∀ as, o.sp = false → i ≠ .ld o → all clean → all aligned →
        s.resolveAll g .write red ga (lanesOf (activeOf g s.cur o.g)) = .ok as → ∀ a ∈ as,
        (atomic → o.far = false → a.place.uncached = true → (∀ b ∈ as, b.lane < a.lane → b.place.uncached = false) →
          Traps i s g ⟨0x0E, a.lane, a.va % 2 ^ 54, a.va⟩)
        ∧ ((atomic → o.far = true ∨ ∀ b ∈ as, b.place.uncached = false) →
            let spoilt := fun (b : Acc) => ¬ keeps b ∧ ∃ r < regs, (rdV g (o.d.toNat + r) b.lane).tag = true
            spoilt a → (∀ b ∈ as, b.lane < a.lane → ¬ spoilt b) → Traps i s g ⟨0x08, a.lane, a.va % 2 ^ 54, a.va⟩)

/-- R78, R79, R221, R224 to R226: a global load reads the first-level copies that serve its lanes, and puts a request
in flight for each other lane; a store puts one in flight for each address, with the highest lane's data; LDU puts
one in flight for the group. The destination registers wait for the returns.
The model's own choices in it: logs 3, 48. -/
def Obligations.GlobalLoadsAndStoresGoToTheirHomes : Prop :=
  ∀ (o : MForm) (s : State) (g : Group), o.sp = false → GlReaches s g o.g o (acSize o.ac.toNat) →
    activeOf g s.cur o.g ≠ 0 →
    let n := acSize o.ac.toNat
    let signed := decide (o.ac = 1 ∨ o.ac = 3)
    let regs := memRegs o.ac.toNat
    let ga := globalAddr g o
    let lanes := lanesOf (activeOf g s.cur o.g)
    let acq := decide (o.ord = .acq ∨ o.ord = .ar)
    let hit := fun L => if canonical (ga L) then s.l1Hit g o L (ga L) n else none
    (∀ as, GoesAhead (.ld o) o.g s g → s.resolveAll g .read false ga (lanes.filter fun L => (hit L).isNone) = .ok as →
      let rs := as.mapIdx fun k a =>
        { baseReq g s.cur a (.load signed n) n o.d.toNat with id := s.nextId + k, acq := acq, scope := o.sc }
      PutsInFlight (.ld o) s rs [] fun _ g' =>
        { g' with v := g.v, lanes := g.lanes, pend := g.pend } = { g with seq := g.seq + 1 } ∧ MovesOn s.cur 0 g g'
        ∧ (∀ r ∈ rs, ∀ i < regs, ⟨.v (o.d.toNat + i), .req r.id, .global_⟩ ∈ g'.pend)
        ∧ ∀ r, ∀ L < 32, rdV g' r L =
            (if active s g o.g L ∧ o.d.toNat ≤ r then
              ((hit L).bind fun x => (loadWords x.1 x.2 signed)[r - o.d.toNat]?).getD (rdV g r L)
            else rdV g r L))
    ∧ (∀ as, GoesAhead (.st o) o.g s g → s.resolveAll g .write false ga lanes = .ok as →
        poisonStore s.free as (storeTag g o) = none →
        let last := as.filter fun a => !as.any fun b => decide (a.lane < b.lane) && decide (b.va = a.va)
        let rs := last.mapIdx fun k a =>
          { baseReq g s.cur a .store n 0 with
            id := s.nextId + k, bytes := storeBytes g o a.lane, tags := storeTags g o a.lane
            rel := decide (o.ord = .rel ∨ o.ord = .ar), scope := o.sc
            also := maskOf fun L => as.any fun b => decide (b.lane = L) && decide (b.va = a.va) }
        PutsInFlight (.st o) s rs [] fun _ g' =>
          { g' with lanes := g.lanes, pend := g.pend, peerMarks := g.peerMarks } = { g with seq := g.seq + 1 }
          ∧ (∀ m, (∀ r ∈ rs, ∀ q b, r.place ≠ .peer m.pkg q b) → (m ∈ g'.peerMarks ↔ m ∈ g.peerMarks))
          ∧ MovesOn s.cur 0 g g')
    ∧ ∀ as, GoesAhead (.ldu o) o.g s g → s.resolveAll g .read false ga [lowest (activeOf g s.cur o.g)] = .ok as →
        (lanes.any (fun K => s.laneBusy g K (ga (lowest (activeOf g s.cur o.g))) n)
          || (hit (lowest (activeOf g s.cur o.g))).isNone) = true →
        let rs := as.mapIdx fun k a =>
          { baseReq g s.cur a (.uload signed) n o.d.toNat with
            id := s.nextId + k, acq := acq, scope := o.sc, also := activeOf g s.cur o.g }
        PutsInFlight (.ldu o) s rs [] fun _ g' =>
          { g' with lanes := g.lanes, pend := g.pend } = { g with seq := g.seq + 1 } ∧ MovesOn s.cur 0 g g'
          ∧ ∀ r ∈ rs, ∀ i < regs, ⟨.s (o.d.toNat + i), .req r.id, .global_⟩ ∈ g'.pend

/-- R176, R221, R229 to R231, R238, R239: atomics, polls and lock words put one request in flight for each active
lane; a RED goes on at once and counts in class A, the others' lanes wait for what returns.
The model's own choices in it: logs 22, 48. -/
def Obligations.AtomicsPollsAndLocksGoToTheirHomes : Prop :=
  ∀ (o : MForm) (s : State) (g : Group) (as : List Acc), o.sp = false → activeOf g s.cur o.g ≠ 0 →
    let ga := globalAddr g o
    let lanes := lanesOf (activeOf g s.cur o.g)
    let n := atomBytes o.ac.toNat
    let rel := decide (o.ord = .rel ∨ o.ord = .ar)
    let data := fun (k : ReqKind) L => atomOperand g k o.d.toNat L
    let req := fun (k : ReqKind) (first : Nat) (op : Option Nat) => as.mapIdx fun j a =>
      { baseReq g s.cur a k n o.d.toNat with
        id := first + j, bytes := (data k a.lane).1, tags := (data k a.lane).2
        acq := decide (o.ord = .acq ∨ o.ord = .ar), rel := rel, scope := o.sc, op := op }
    let stores := fun (k : ReqKind) => attributeTrap o.far as = none
      ∧ poisonStore s.free as (fun L => (data k L).2.any id) = none
    let goes := fun g' => { g' with lanes := g.lanes, pend := g.pend } = { g with seq := g.seq + 1 }
    (∀ (i : Instr) (k : ReqKind), (∃ op, k = .atom op o.ac.toNat ∧ i = .atom op o) ∨ (k = .cas o.ac.toNat ∧ i = .cas o) →
      GoesAhead i o.g s g → GlReaches s g o.g o n → s.resolveAll g .write false ga lanes = .ok as → stores k →
      PutsInFlight i s (req k s.nextId none) [] fun _ g' => goes g' ∧ MovesOn s.cur 0 g g'
        ∧ ∀ r ∈ req k s.nextId none, ∀ j < atomRegs o.ac.toNat, ⟨.v (o.d.toNat + j), .req r.id, .global_⟩ ∈ g'.pend)
    ∧ (∀ op, GoesAhead (.red op o) o.g s g → GlReaches s g o.g o n → s.resolveAll g .write true ga lanes = .ok as →
        stores (.red op o.ac.toNat) → (∀ a ∈ as, ∀ p q b, a.place ≠ .peer p q b) → s.countOf g.gid .A < 255 →
        (∀ x ∈ s.eng.ops, x.id < s.nextId) →
        ∃ x : Op, x.id = s.nextId ∧ x.gid = g.gid ∧ x.cls = .A ∧ x.kind = .red ∧ x.left = as.length ∧ x.complete = true
          ∧ x.status = 0
          ∧ PutsInFlight (.red op o) s (req (.red op o.ac.toNat) (s.nextId + 1) (some s.nextId)) [x] fun _ g' =>
              goes g' ∧ MovesOn s.cur 0 g g')
    ∧ (GoesAhead (.yieldW o) o.g s g → GlReaches s g o.g o (acSize o.ac.toNat) →
        (∀ L < 32, active s g o.g L → (rdVs g o.d.toNat (memRegs o.ac.toNat) L).tag = false) →
        s.resolveAll g .read false ga lanes = .ok as →
        PutsInFlight (.yieldW o) s (as.mapIdx fun j a =>
            { baseReq g s.cur a .poll (acSize o.ac.toNat) o.d.toNat with id := s.nextId + j }) [] fun _ g' =>
          goes g' ∧ ∀ L < 32, g'.lane L =
            if bitOf s.cur.lanes L then { g.lane L with wait := .poll } else g.lane L)
    ∧ ((∀ a ∈ as, (∀ x y z, a.place ≠ .raw x y z) ∧ (∀ x y, a.place ≠ .peer x y true) ∧ ∀ x, a.place ≠ .host x) → GlReaches s g o.g o 4 →
        s.resolveAll g .write false ga lanes = .ok as →
        (GoesAhead (.lock o) o.g s g →
          PutsInFlight (.lock o) s (as.mapIdx fun j a =>
              { baseReq g s.cur a .lock 4 0 with id := s.nextId + j, scope := o.sc, acq := true }) [] fun _ g' =>
            goes g' ∧ LanesBecome s o.g g g' fun _ ln => waitingLane s.cur ln .lock)
        ∧ (GoesAhead (.unlock o) o.g s g → (∀ q ∈ s.eng.reqs, q.id < s.nextId) →
          (∀ L < 32, active s g o.g L → s.performed g.gid L g.seq o.sc = true) →
          ∃ t g', exec (.unlock o) s = .next t ∧ t.mem = (s.clearMarks g.gid o.sc).mem
            ∧ Outgoing s t (as.mapIdx fun j a =>
                { baseReq g s.cur a .unlock 4 0 with id := s.nextId + j, scope := o.sc })
            ∧ t.group? s.cur.gid = some g' ∧ goes g' ∧ ∀ L < 32, g'.lane L =
                if bitOf s.cur.lanes L then waitingLane s.cur (g.lane L) .unlock else g.lane L))

/-- R7, R80, R82, R90, R227, R355: a prefetch moves its lanes on, changes no register and no stored byte, and asks for a line that
the depot lacks, or fills the first level with one that the depot holds, or with its core's own copy under another tag. A
store changes no bit that only the device writes. One that arrives at a line that no lease
and no host copy holds is applied; where one does it waits, accepted, and is applied once the line is free.
The model's own choices in it: log 3. -/
def Obligations.LinesComeInAndTakeWrites : Prop :=
  (
    ∀ (l1 : Bool) (o : MForm) (s : State) (g : Group),
      let i := if l1 then Instr.prefetchL1 o else .prefetchDep o
      GoesAhead i o.g s g → (∀ L < 32, active s g o.g L → (mBaseVal g o true L).tag = false) →
      ∃ t g', exec i s = .next t
        ∧ { t with groups := s.groups, mem := s.mem, xl := s.xl, free := s.free, nextId := s.nextId } = s
        ∧ t.mem.raw = s.mem.raw ∧ t.mem.depot = s.mem.depot
        ∧ (∀ k, k ≠ s.cur.gid → t.group? k = s.group? k) ∧ t.group? s.cur.gid = some g'
        ∧ OnlyLanes g g' ∧ MovesOn s.cur 0 g g'
        ∧ ∀ va pa nc res l ofs cls, activeOf g s.cur o.g ≠ 0 →
            (∀ L < 32, active s g o.g L → globalAddr g o L / 128 * 128 = va) → canonical va = true →
            s.translate g.core g.pasid va .read = .hit pa nc res → s.placeOf pa nc (g.ctx = 0) = .at (.line l ofs) cls →
            s.quota res ≠ 0 →
            (s.line? l = none → s.busyRow (s.lineRows l) = none → ∃ w ∈ t.mem.wants, w.line = l)
            ∧ (∀ x, l1 = true → s.line? l = some x → s.heldOn l = [] →
                s.l1Copy g.core l = none →
                ∃ y, t.l1Find g.core g.pasid va = some y
                  ∧ (y.bytes, y.poison) = s.ownCopy g.core l x.bytes x.poison ∧ s.leaseEnd l ≤ t.leaseEnd l)
            ∧ ∀ x y, l1 = true → s.line? l = some x → s.l1Copy g.core l = some y →
                t.l1Find g.core g.pasid va = some { y with pasid := g.pasid, vline := va / 128 })
  ∧ (
    ∀ (s : State) (l : LineId) (x : DepotLine) (ofs : Nat) (bs : List (BitVec 8)), s.line? l = some x → x.bytes.length = 128 →
      0 < bs.length → ofs + bs.length ≤ 128 →
      let applied := fun (t : State) =>
        (∀ i < 128, (t.homeLine l).1[i]? = if ofs ≤ i ∧ i < ofs + bs.length
          then some ((bs.getD (i - ofs) 0 &&& ~~~roBits s l i) ||| (x.bytes.getD i 0 &&& roBits s l i)) else x.bytes[i]?)
        ∧ ∀ k, k ≠ l → t.homeLine k = s.homeLine k
      (∀ id r, canStoreAtHome id s = some r → r.kind = .store → r.place = .line l ofs → r.bytes = bs → s.heldOn l = [] →
        (s.lineFree l = true → ∃ t, exec (.storeAtHome id) s = .next t ∧ applied t ∧ t.req? id = none)
        ∧ (s.lineFree l = false → ∃ t, exec (.storeAtHome id) s = .next t ∧ (∀ k, t.homeLine k = s.homeLine k)
            ∧ t.heldOn l = [r.write] ∧ t.req? id = some { r with accepted := true }))
      ∧ ∀ w ws, s.heldOn l = w :: ws → w.place = .line l ofs → w.bytes = bs → w.req = none → w.maint = none → w.peer = none →
          w.after = none → w.res ≠ deviceRes → s.lineFree l = true → ∃ t, exec (.heldWriteApply l) s = .next t ∧ applied t ∧ t.heldOn l = ws)

/-! Homes. -/

/-- R40, R80, R84, R224, R230: a load returns the bytes that its home holds at the return, and an atomic applies its
operator there and returns what it met, to the registers of a resident group; a return whose registers are released or have another
allocation is dropped and counted.
The model's own choices in it: log 13. -/
def Obligations.ReturnsBringTheHomesBytes : Prop :=
  ∀ (s : State) (id : Nat) (r : Req) (l : LineId) (ofs n : Nat) (x : DepotLine) (g : Group),
    s.req? id = some r → r.place = .line l ofs → s.line? l = some x → x.bytes.length = 128 → ofs + n ≤ 128 →
    s.group? r.gid = some g → g.Canonical → g.ended = false → g.frame = none → r.lane < 32 → r.replays ≤ 8 →
    s.mem.l1.all (fun y => !(y.core = r.core && y.line = l)) = true → s.heldOn l = [] →
    let old := (x.bytes.drop ofs).take n
    (∀ signed, canLoadReturn id s = some r → r.kind = .load signed n → r.size = n → n ∈ [1, 2, 4, 8, 16] → x.marked = false →
      ∃ t g', exec (.loadReturn id none) s = .next t ∧ t.req? id = none ∧ (∀ k, t.homeLine k = s.homeLine k)
        ∧ t.group? r.gid = some g'
        ∧ ((∀ i < (n + 3) / 4, regHeld g (.v (r.reg + i)) = true) → g.regGen r.reg = r.gen →
            (∀ i < (n + 3) / 4, (rdV g' (r.reg + i) r.lane).val = loadMeaning signed old i)
            ∧ ∀ k L, L < 32 → ¬ (L = r.lane ∧ r.reg ≤ k ∧ k < r.reg + (n + 3) / 4) → rdV g' k L = rdV g k L)
        ∧ (g.regGen r.reg ≠ r.gen ∨ (∃ i < (n + 3) / 4, regHeld g (.v (r.reg + i)) = false) → g'.v = g.v ∧ g'.dropret = g.dropret + 1))
    ∧ ∀ op ac, canHomeAtomic id s = some r → r.kind = .atom op ac → n = atomBytes ac → r.bytes.length = n →
        s.lineFree l = true → regHeld g (.v r.reg) = true → regHeld g (.v (r.reg + n / 4 - 1)) = true →
        g.regGen r.reg = r.gen → Writable s l ofs r.bytes →
        ∃ t g', exec (.homeAtomic id none) s = .next t ∧ t.req? id = none ∧ t.group? r.gid = some g'
          ∧ (∀ i < n / 4, (rdV g' (r.reg + i) r.lane).val = loadMeaning false old i)
          ∧ (∀ i < 128, (t.homeLine l).1[i]? = if ofs ≤ i ∧ i < ofs + n
              then some (BitVec.ofNat 8 (atomCompute op ac (leNat old) (leNat r.bytes) / 2 ^ (8 * (i - ofs))))
              else x.bytes[i]?)
          ∧ ∀ k, k ≠ l → t.homeLine k = s.homeLine k

/-- R13, R83, R92, R93, R444: a wanted line comes in from its stack; a non-cacheable access acts at the stack port;
held work goes on when its row is controller-owned again; an instruction line is filled from the depot.
The model's own choices in it: log 3. -/
def Obligations.StacksServeFillsAndPortRequests : Prop :=
  ∀ (s : State) (l : LineId), Memory.wf s.mem.raw = true →
    let plain := (s.extent l.stack l.ext).cls ≠ .pool ∧ 128 * l.line < (s.extent l.stack l.ext).cls.size
      ∧ ∀ r ∈ s.lineRows l, s.strong? r = none
    let sound := ∀ h < 2, (s.peekSector (lineSector s l h).1 (lineSector s l h).2).2 ∈ [Verdict.clean, .poison]
    (∀ w, plain → sound → s.wantOf l = some w → s.rowsPass (s.lineRows l) (.fill l) = true → s.victim l w.res = .free →
      ∃ t x, exec (.depotFill l) s = .next t ∧ t.line? l = some x ∧ (x.bytes, x.poison) = s.stackLine l ∧ x.dirty = false
        ∧ x.res = w.res ∧ (∀ k, k ≠ l → t.line? k = s.line? k) ∧ t.mem.raw = s.mem.raw)
    ∧ (∀ id r ofs, plain → canStackPortRequest id s = some (r, l.stack, l.ext, 128 * l.line + ofs) → ofs < 128 →
        s.rowsPass (s.lineRows l) (.req id) = true → s.mem.hostLines = [] →
        ofs % 64 + r.size ≤ 64 → r.rel = false →
        (∀ signed, sound → r.kind = .load signed r.size → r.size ∈ [1, 2, 4, 8, 16] → ∀ g, s.group? r.gid = some g →
          g.Canonical → g.ended = false → g.frame = none → g.regGen r.reg = r.gen → r.lane < 32 → r.replays ≤ 8 →
          (∀ i < (r.size + 3) / 4, regHeld g (.v (r.reg + i)) = true) →
          ∃ t g', exec (.stackPortRequest id) s = .next t ∧ t.mem.raw = s.mem.raw ∧ t.req? id = none
            ∧ t.group? r.gid = some g' ∧ ∀ i < (r.size + 3) / 4,
              (rdV g' (r.reg + i) r.lane).val = loadMeaning signed (((s.stackLine l).1.drop ofs).take r.size) i)
        ∧ (sound → r.kind = .store → r.bytes.length = r.size → Writable s l ofs r.bytes →
          ∃ t, exec (.stackPortRequest id) s = .next t ∧ t.req? id = none
            ∧ ∀ i < 128, (t.stackLine l).1[i]? =
                if ofs ≤ i ∧ i < ofs + r.size then r.bytes[i - ofs]? else (s.stackLine l).1[i]?))
    ∧ (∀ row bs, let w : HeldWork := .writeback l bs 0 none none
        plain → row ∈ s.lineRows l → s.rowState row = .controller → bs.length = 128 →
        (∀ u ∈ s.rel.upsets, ∀ k, u.site ≠ .depot l k) → (s.rowQueue row).head? = some w →
        s.rowsPass (s.lineRows l) w = true →
        ∃ t, exec (.holdQueueRelease row) s = .next t ∧ (t.stackLine l).1 = bs ∧ ∀ r ∈ s.lineRows l, t.heldAt w r = false)
    ∧ ∀ core pasid vline g x pa nc res ofs cls, s.fetcher core pasid vline = some g →
        s.icFind core pasid (128 * vline) = none → canonical (128 * vline) = true →
        s.translate core pasid (128 * vline) .fetch = .hit pa nc res →
        s.placeOf pa nc (g.ctx = 0) = .at (.line l ofs) cls → s.heldOn l = [] → s.line? l = some x →
        ∃ t y, exec (.icacheFill core pasid vline) s = .next t ∧ t.icFind core pasid (128 * vline) = some y
          ∧ y.bytes = x.bytes ∧ y.poison = x.poison ∧ y.expiry ≤ t.leaseEnd l

/-! Synchronisation. -/

/-- R77, R232 to R235: INIT makes a gate with its count, EXPECT raises the count by what the lanes name, ARRIVE counts
and flips the phase when the count is reached, which lets the waiters of the other parity go on; a gate that is not
live, or a count that would pass its bound, is trap 0x10. No other byte changes. -/
def Obligations.GateInitExpectArrive : Prop :=
  ∀ (o : MForm) (s : State) (g : Group) (tm : Team), s.team? g.team = some tm → s.cores.Canonical →
    SpReaches s g o.g o 16 → (∀ L < 32, active s g o.g L → (rdV g o.d.toNat L).tag = false) → activeOf g s.cur o.g ≠ 0 →
    let a := fun L => tm.sp (offN g o L)
    let n := fun L => (rdV g o.d.toNat L).val.toNat
    let live := ∀ L < 32, active s g o.g L → gateLive s.cores (a L) = true
    let on := fun (L : Nat) => (lanesOf (activeOf g s.cur o.g)).filter fun K => offN g o K = offN g o L
    let ran := fun (i : Instr) (P : State → Prop) => ∃ t g', exec i s = .next t ∧ { t with groups := s.groups, cores := s.cores, mem := s.mem } = s
      ∧ { t.cores with spad := s.cores.spad, gate := s.cores.gate, poison := s.cores.poison, reload := s.cores.reload } = s.cores
      ∧ (∀ x, (∀ L < 32, active s g o.g L → ¬ (a L ≤ x ∧ x < a L + 16)) → spByte t.cores x = spByte s.cores x)
      ∧ (∀ k x, k ≠ s.cur.gid → s.group? k = some x → (∀ L < 32, ∀ y p l, (x.lane L).wait ≠ .gate y p l) →
          t.group? k = some x)
      ∧ t.group? s.cur.gid = some g' ∧ (∀ r, rdS g' r = rdS g r ∧ rdP g' r = rdP g r)
      ∧ (∀ L < 32, bitOf s.cur.lanes L = true →
          (g'.lane L).pc = (nextLane s.cur (g.lane L)).pc ∧ ∀ r, rdV g' r L = rdV g r L) ∧ P t
    (∀ L < 32, bitOf s.cur.lanes L = true → (g.lane L).wait = .none) →
    (GoesAhead (.gateInit o) o.g s g → ran (.gateInit o) fun t => ∀ L < 32, active s g o.g L →
      (∀ K ∈ on L, K ≤ L) →
      gateRead t.cores (a L) = ⟨n L, 0, false⟩
        ∧ ∀ i < 4, spGate t.cores (a L + 4 * i) = true ∧ spPoison t.cores (a L + 4 * i) = false)
    ∧ (GoesAhead (.gateExpect o) o.g s g → live →
        ((∀ L < 32, active s g o.g L → (gateRead s.cores (a L)).expect + ((on L).map n).sum < 2 ^ 32) →
          ran (.gateExpect o) fun t => t.mem = s.mem ∧ ∀ L < 32, active s g o.g L →
            let b := gateRead s.cores (a L)
            gateRead t.cores (a L) = ⟨b.expect + ((on L).map n).sum, b.arrived, b.phase⟩)
        ∧ ∀ L, g.trap = none → activeOf g s.cur o.g = 1#32 <<< L → L < 32 → 2 ^ 32 ≤ (gateRead s.cores (a L)).expect + n L →
            Traps (.gateExpect o) s g ⟨0x10, L, offN g o L % 2 ^ 54, offN g o L⟩)
    ∧ (GoesAhead (.gateArrive o) o.g s g → live →
        ((∀ L < 32, active s g o.g L → s.performed g.gid L g.seq .t = true) →
          (∀ L < 32, active s g o.g L → on L = [L] ∧ (gateRead s.cores (a L)).arrived + n L ≤ (gateRead s.cores (a L)).expect) →
          ran (.gateArrive o) fun t => t.mem = (s.clearMarks g.gid .t).mem ∧ ∀ L < 32, active s g o.g L →
            let b := gateRead s.cores (a L)
            let flips := decide (b.arrived + n L = b.expect)
            gateRead t.cores (a L) =
              (if flips then ⟨sget 0 s.cores.reload (a L / 4) % 2 ^ 32, 0, !b.phase⟩ else ⟨b.expect, b.arrived + n L, b.phase⟩)
            ∧ (flips → ∀ k x K, K < 32 → s.group? k = some x → x.team = tm.id → x.Canonical → s.serialOf x.grid = none →
                (x.lane K).exited = false → (x.lane K).wait = .gate (offN g o L) b.phase none →
                ∃ x', t.group? k = some x' ∧ (x'.lane K).pc = (leftLane (x.lane K)).pc ∧ (x'.lane K).wait = .none))
        ∧ ∀ L, g.trap = none → activeOf g s.cur o.g = 1#32 <<< L → L < 32 →
            (gateRead s.cores (a L)).expect < (gateRead s.cores (a L)).arrived + n L →
            Traps (.gateArrive o) s g ⟨0x10, L, offN g o L % 2 ^ 54, offN g o L⟩)
    ∧ ∀ (i : Instr) (L : Nat), g.trap = none → (i = .gateExpect o ∨ i = .gateArrive o) → GoesAhead i o.g s g →
        (∀ K < L, active s g o.g K → on K = [K] ∧ (if i = .gateExpect o
          then (gateRead s.cores (a K)).expect + n K < 2 ^ 32
          else (gateRead s.cores (a K)).arrived + n K ≤ (gateRead s.cores (a K)).expect)) →
        FirstLane s g o.g (fun L => gateLive s.cores (a L) = false) L →
        Traps i s g ⟨0x10, L, offN g o L % 2 ^ 54, offN g o L⟩

/-- R235, R236: PEEK reads arrivals and phase; a WAIT lets each lane go on where its gate's phase differs from the
parity of its register, and the timed form writes 1 there, 0 at a limit of 0, and 0 when its deadline comes. -/
def Obligations.GatePeekAndWaits : Prop :=
  ∀ (o : MForm) (s : State) (g : Group), SpReaches s g o.g o 16 → activeOf g s.cur o.g ≠ 0 →
    (∀ L < 32, active s g o.g L → gateLive s.cores (spPhys s g (offN g o L)) = true) →
    let gate := fun L => gateRead s.cores (spPhys s g (offN g o L))
    let d := o.d.toNat
    let parity := fun L => (rdV g d L).val.getLsbD 0
    let opens := fun L => decide ((gate L).phase ≠ parity L)
    let frame := fun (g' : Group) (keep : Nat → Nat → Prop) => { g' with v := g.v, lanes := g.lanes } = g
      ∧ ∀ r, ∀ L < 32, (¬ active s g o.g L ∨ keep r L) → rdV g' r L = rdV g r L
    (GoesAhead (.gatePeek o) o.g s g → RunsTo (.gatePeek o) s fun g' => frame g' (fun r _ => r ≠ d ∧ r ≠ d + 1)
      ∧ MovesOn s.cur 0 g g' ∧ ∀ L < 32, active s g o.g L →
        rdV g' d L = ⟨BitVec.ofNat 32 (gate L).arrived, false⟩
        ∧ rdV g' (d + 1) L = ⟨if (gate L).phase then 1 else 0, false⟩)
    ∧ (GoesAhead (.gateWait o) o.g s g → (∀ L < 32, active s g o.g L → (rdV g d L).tag = false) →
        RunsTo (.gateWait o) s fun g' => OnlyLanes g g' ∧ ∀ L < 32, g'.lane L =
          if bitOf (activeOf g s.cur o.g) L && !opens L then waitingLane s.cur (g.lane L) (.gate (offN g o L) (parity L) none)
          else if bitOf s.cur.lanes L then nextLane s.cur (g.lane L) else g.lane L)
    ∧ (GoesAhead (.gateWaitLim o) o.g s g →
        (∀ L < 32, active s g o.g L → (rdV g d L).tag = false ∧ (rdV g (d + 1) L).tag = false) →
        let lim := fun L => (rdV g (d + 1) L).val.toNat
        let stays := fun L => bitOf (activeOf g s.cur o.g) L && !opens L && lim L ≠ 0
        RunsTo (.gateWaitLim o) s fun g' => frame g' (fun r L => r ≠ d + 1 ∨ stays L = true)
          ∧ (∀ L < 32, active s g o.g L → stays L = false → rdV g' (d + 1) L = ⟨if opens L then 1 else 0, false⟩)
          ∧ ∀ L < 32, g'.lane L =
            if stays L then waitingLane s.cur (g.lane L) (.gate (offN g o L) (parity L) (some (s.tickOf g + lim L, d + 1)))
            else if bitOf s.cur.lanes L then nextLane s.cur (g.lane L) else g.lane L)
    ∧ (∀ tm, s.group? s.cur.gid = some g → g.Canonical → g.outrider = none → s.team? g.team = some tm →
        s.serialOf g.grid = none → RunsTo .gateWaitDeadline s fun g' =>
        { g' with v := g.v, lanes := g.lanes } = g ∧ ∀ L < 32, match (g.lane L).wait with
          | .gate y p lim =>
            let flipped := decide ((gateRead s.cores (tm.sp y)).phase ≠ p)
            if (g.lane L).exited = false ∧ (flipped = true ∨ ∃ d ∈ lim, d.1 ≤ s.tickOf g) then
              (g'.lane L).pc = (leftLane (g.lane L)).pc ∧ (g'.lane L).k = (leftLane (g.lane L)).k ∧ (g'.lane L).wait = .none
              ∧ ∀ r, rdV g' r L = match lim with
                | some (t, d) => if r = d then ⟨if flipped = true ∧ s.tickOf g ≤ t then 1 else 0, false⟩ else rdV g r L
                | none => rdV g r L
            else g'.lane L = g.lane L ∧ ∀ r, rdV g' r L = rdV g r L
          | _ => g'.lane L = g.lane L ∧ ∀ r, rdV g' r L = rdV g r L)

/-- R34, R241: BARRIER holds every lane of its group until every group of the team that has not ended has reached it;
the last arrival lets them all go on. -/
def Obligations.BarrierCompletesWithTheLastGroup : Prop :=
  ∀ (o : RForm) (s : State) (g : Group) (tm : Team), GoesTogether (.barrier o) o.g s g → s.team? g.team = some tm →
    tm.head g.side = none → g.ended = false → (∀ L < 32, s.performed g.gid L g.seq .t = true) →
    let others := (s.live g.team).filter fun x => x.gid ≠ g.gid
    ∃ t g', exec (.barrier o) s = .next t ∧ t.group? g.gid = some g' ∧ g'.barriers = g.barriers + 1
      ∧ (∀ r, SameReg g g' r) ∧ t.cores = s.cores ∧ t.mem = (s.clearMarks g.gid .t).mem ∧ t.eng = s.eng
      ∧ ((∃ x ∈ others, x.atBarrier = false ∨ x.barriers ≤ tm.barrier) → t.teams = s.teams
          ∧ ∀ L < 32, g'.lane L = waitingLane s.cur (g.lane L) .barrier)
      ∧ (tm.barrier ≤ g.barriers → (∀ x ∈ s.groups, x.gid = g.gid → x = g) →
          (∀ x ∈ others, x.atBarrier = true ∧ tm.barrier < x.barriers) →
          (∀ L < 32, g'.lane L = leftLane (waitingLane s.cur (g.lane L) .barrier))
          ∧ (t.team? g.team).map (·.barrier) = some (tm.barrier + 1)
          ∧ ∀ x ∈ others, ∀ L < 32, (x.lane L).wait = .barrier →
              ∃ x' ∈ t.groups, x'.gid = x.gid ∧ x'.lane L = leftLane (x.lane L))

/-- R36 to R40, R242: ACQ queues a request that its share admits, and traps with 0x03 where it cannot be met; one
that leaves every group of the side blocked is the pool-deadlock trap of the group at the head of the queue (R39); the grant gives the units, cleared and with a new generation, and the lanes go on; REL gives the highest back.
The model's own choices in it: log 13. -/
def Obligations.AcquisitionGivesClearedUnits : Prop :=
  ∀ (k : AcqKind) (o : RForm) (s : State) (g : Group) (tm : Team), s.team? g.team = some tm →
    let acq := match k with | .blk => Instr.acqBlk o | .opt => .acqOpt o | .acc => .acqAcc o
    let rel := match k with | .blk => Instr.relBlk o | .opt => .relOpt o | .acc => .relAcc o
    let n := o.c.toNat
    let fits := g.holds k + n ≤ k.limit ∧ n ≤ s.share tm g.side k
    (GoesTogether acq o.g s g → fits → (∃ x ∈ s.live g.team, x.side = g.side ∧ x.gid ≠ g.gid ∧ x.inAcq = false ∧ x.atBarrier = false) →
      RunsTo' acq s g fun t g' => OnlyLanes g g' ∧ (∀ L < 32, g'.lane L = waitingLane s.cur (g.lane L) .acq)
        ∧ (t.team? g.team).map (·.acqQ) = some (tm.acqQ ++ [⟨g.gid, g.side, k, n⟩]))
    ∧ (GoesTogether acq o.g s g → ¬ fits → g.trap = none → Traps acq s g ⟨0x03, 0, n, 0⟩)
    ∧ (GoesTogether acq o.g s g → fits → g.trap = none → s.cur.rep = none → (∀ x ∈ s.groups, x.gid = g.gid → x = g) →
        let q : AcqReq := ⟨g.gid, g.side, k, n⟩
        let mine := (s.live g.team).filter fun x => x.side = g.side
        let asks := fun (x : Group) => x.gid = g.gid ∨ x.inAcq = true
        (∀ x ∈ mine, asks x ∨ (x.atBarrier = true ∧ ∃ y ∈ mine, asks y ∧ y.barriers < x.barriers)) →
        ∀ h, (tm.acqQ ++ [q]).find? (fun y => y.side = g.side) = some h → s.freeUnits tm g.side h.kind < h.n →
          let caught := fun (x x' : Group) (m : Word) (pc : BitVec 64) =>
            { x' with lanes := x.lanes } = x.trapped ⟨0x06, lowest m, 0, 0⟩ pc s.ltick
            ∧ ∀ L < 32, ((x'.lane L).wait = if bitOf m L then .none else (x.lane L).wait) ∧ (x'.lane L).pc = (x.lane L).pc
          ∃ t g', exec acq s = .next t ∧ t.group? g.gid = some g'
            ∧ (t.team? g.team).map (·.acqQ) = some ((tm.acqQ ++ [q]).filter (· ≠ h))
            ∧ (h = q → caught g g' 0xFFFFFFFF#32 (g.lane 0).pc)
            ∧ (h.gid ≠ g.gid → (∀ L < 32, g'.lane L = waitingLane s.cur (g.lane L) .acq)
              ∧ ∀ x, s.group? h.gid = some x → x.trap = none →
                let m := maskOf fun L => (x.lane L).wait = .acq
                ∃ x', t.group? h.gid = some x' ∧ caught x x' m ((x.lane (lowest m)).wordPc (x.lane (lowest m)).pc)))
    ∧ (∀ q side x, 0 < s.nextId → canAcqGrant tm.id side s = some q → q.kind = k → s.team? tm.id = some tm → s.group? q.gid = some x → x.lanes.length = 32 →
        s.serialOf tm.grid = none →
        ∃ t x', exec (.acqGrant tm.id side) s = .next t ∧ t.group? q.gid = some x'
          ∧ (∀ j, x'.holds j = x.holds j + if j = k then q.n else 0)
          ∧ (∀ r, 64 + 32 * x.h ≤ r → r < 64 + 32 * x'.h → ∀ L < 32, rdV x' r L = ⟨0, false⟩ ∧ x'.regGen r = s.nextId)
          ∧ (∀ i, x.j ≤ i → i < x'.j → rdT x' i = emptyTile)
          ∧ (∀ i, x.m ≤ i → i < x'.m → ∀ a < 32, ∀ b < 32, rdA x' i a b = ⟨0, false⟩)
          ∧ (∀ L < 32, x'.lane L = if (x.lane L).wait = .acq then leftLane (x.lane L) else x.lane L)
          ∧ (∀ r, (match r with | .v i => i < 64 + 32 * x.h | .t i => i < x.j | .a i => i < x.m | _ => True) → SameReg x x' r)
          ∧ (t.team? tm.id).map (·.acqQ) = some (tm.acqQ.filter (· ≠ q)))
    ∧ (GoesTogether rel o.g s g → n ≤ g.holds k → RunsTo rel s fun g' =>
        { g' with lanes := g.lanes, h := g.h, j := g.j, m := g.m } = g ∧ MovesOn s.cur 0 g g'
        ∧ ∀ j, g'.holds j = g.holds j - if j = k then n else 0)
    ∧ (GoesTogether rel o.g s g → g.holds k < n → g.trap = none → Traps rel s g ⟨0x03, 0, n, 0⟩)
    ∧ ∀ (i : Instr) (gd : Guard), (i = acq ∨ i = rel ∨ i = .barrier o) ∧ gd = o.g → GoesAhead i gd s g → g.trap = none →
        (s.cur.lanes ≠ 0xFFFFFFFF#32 ∨ activeOf g s.cur gd ≠ 0xFFFFFFFF#32 ∨ g.running ≠ 0xFFFFFFFF#32) →
        Traps i s g ⟨0x04, lowest (activeOf g s.cur gd), 0, 0⟩

/-- R105, R108, R111, R243, R444: a fence holds its path until what it orders is done for every active lane; then the
path goes on, a releasing one clears its group's marks, and one at `.d` or wider drops the core's instruction lines.
The model's own choices in it: log 53. -/
def Obligations.FencesHoldUntilPerformed : Prop :=
  ∀ (o : RForm) (s : State) (g : Group),
    let fence := fun (i : Instr) (acq rel sc : Bool) => GoesAhead i o.g s g → activeOf g s.cur o.g ≠ 0 →
      let scope := (Scope.ofCode o.c.toNat).getD .h
      RunsTo i s fun g' => OnlyLanes g g' ∧ ∀ L < 32, g'.lane L =
        if bitOf s.cur.lanes L then waitingLane s.cur (g.lane L)
          (if active s g o.g L then .fence acq rel sc scope else .fence false false false scope)
        else g.lane L
    fence (.fenceAcq o) true false false ∧ fence (.fenceRel o) false true false ∧ fence (.fenceAr o) true true false
    ∧ fence (.fenceSc o) true true true
    ∧ ∀ acq rel sc scope, s.group? s.cur.gid = some g → g.lanes.length = 32 → s.cur.lane < 32 → s.serialOfGroup s.cur.gid = none →
        (g.lane s.cur.lane).exited = false → (g.lane s.cur.lane).wait = .fence acq rel sc scope →
        let m := fenceLanes g s.cur.lane
        let releases := (List.range 32).any fun L => bitOf m L && fenceReleases g L
        let done := ∀ L < 32, bitOf m L = true → ∀ acq rel sc scope, (g.lane L).wait = .fence acq rel sc scope →
          (acq = true → ∀ q ∈ s.eng.reqs, q.gid = g.gid → q.of L = true → q.kind.isStore = true ∨ q.kind.isRed = true)
          ∧ (rel = true → s.performed g.gid L g.seq (if sc = true ∧ scope.code < 2 then .d else scope) = true)
        (done → ∃ t g', exec .fencePerformed s = .next t ∧ { t with groups := s.groups, mem := s.mem } = s
          ∧ { t.mem with ic := s.mem.ic } = (if releases then (s.clearMarks g.gid scope).mem else s.mem)
          ∧ t.mem.ic = (if 2 ≤ scope.code then s.mem.ic.filter fun x => !(decide (x.core = g.core) && decide (x.pasid = g.pasid)) else s.mem.ic)
          ∧ t.group? g.gid = some g' ∧ OnlyLanes g g' ∧ ∀ L < 32, g'.lane L =
            if bitOf m L then leftLane (g.lane L) else g.lane L)
        ∧ (¬ done → exec .fencePerformed s = .next s)

/-- R237 to R240: the lock unit. A request takes a free lock, queues behind a holder, or is told that it holds it; an
unlock passes the lock to the oldest waiter or frees it, writing the lock word; a grant lets its lane go on, and the
acknowledgements, once all are there, the whole path; a wrong owner traps, a halting group's waiter leaves the queue, and a retired peer grid's locks pass.
The model's own choices in it: log 43. -/
def Obligations.LocksPassInArrivalOrder : Prop :=
  ∀ (s : State) (l : LineId) (ofs : Nat) (x : DepotLine), s.line? l = some x → x.bytes.length = 128 → ofs + 4 ≤ 128 →
    s.lineFree l = true → s.heldOn l = [] → s.mem.lockWait = [] → Writable s l ofs (leBytes 4 0) →
    let word := fun (t : State) => leNat (((t.homeLine l).1.drop ofs).take 4)
    let me := s.fab.self % 1024
    (∀ id r, canLockReq id s false = some (r, l, ofs) → let w := s.locker r
      (s.lockRec l ofs = none → (s.lockUse (homeSlice l)).1 < 1024 → ∃ t, exec (.lockRequest id) s = .next t
        ∧ t.lockRec l ofs = some ⟨l, ofs, w, []⟩ ∧ t.mem.lockAns = s.mem.lockAns ++ [⟨r.gid, r.lane, .granted, 0⟩]
        ∧ word t = 1 ∧ t.req? id = none)
      ∧ (∀ c, s.lockRec l ofs = some c → c.holder ≠ w → (s.lockUse (homeSlice l)).2 < 8192 →
          ∃ t, exec (.lockRequest id) s = .next t ∧ t.lockRec l ofs = some { c with queue := c.queue ++ [w] }
            ∧ t.mem.lockAns = s.mem.lockAns ∧ word t = word s)
      ∧ (∀ c, s.lockRec l ofs = some c → c.holder = w → ∃ t, exec (.lockRequest id) s = .next t
          ∧ t.mem.locks = s.mem.locks ∧ t.mem.lockAns = s.mem.lockAns ++ [⟨r.gid, r.lane, .owner, r.va⟩]))
    ∧ (∀ id r, canLockReq id s true = some (r, l, ofs) → let w := s.locker r
      (∀ c, s.lockRec l ofs = some c → c.holder = w →
        (c.queue = [] → ∃ t, exec (.unlockRequest id) s = .next t ∧ t.lockRec l ofs = none ∧ word t = 0
          ∧ t.mem.lockAns = s.mem.lockAns ++ [⟨r.gid, r.lane, .acked, 0⟩])
        ∧ ∀ v vs, c.queue = v :: vs → v.pkg = me → ∃ t, exec (.unlockRequest id) s = .next t
            ∧ t.lockRec l ofs = some { c with holder := v, queue := vs } ∧ word t = 1
            ∧ t.mem.lockAns = s.mem.lockAns ++ [⟨r.gid, r.lane, .acked, 0⟩, ⟨v.gid, v.lane, .granted, 0⟩])
      ∧ ((∀ c, s.lockRec l ofs = some c → c.holder ≠ w) → ∃ t, exec (.unlockRequest id) s = .next t
          ∧ t.mem.locks = s.mem.locks ∧ t.mem.lockAns = s.mem.lockAns ++ [⟨r.gid, r.lane, .notOwner, r.va⟩]))
    ∧ (∀ (a : LockAnswer) (g : Group), s.group? s.cur.gid = some g → g.lanes.length = 32 → a.lane < 32 →
        s.lockAnswer s.cur.gid s.cur.lane = some a →
        (s.serialOfGroup s.cur.gid = none → a.ans = .granted → (g.lane a.lane).wait = .lock → ∃ t g', exec .lockGrant s = .next t ∧ t.group? g.gid = some g'
          ∧ t.mem.lockAns = s.mem.lockAns.erase a ∧ OnlyLanes g g' ∧ ∀ L < 32, g'.lane L =
            if L = a.lane then leftLane (g.lane L) else g.lane L)
        ∧ (let pc := (g.lane a.lane).pc
           let here := fun L => (g.lane L).exited = false ∧ (g.lane L).pc = pc ∧ (g.lane L).wait = .unlock
           let out := ∃ r ∈ s.eng.reqs, r.gid = g.gid ∧ r.pc = pc ∧ r.kind.isUnlock = true
           a.ans = .acked → (out → exec .lockUnitAnswer s = .next s)
           ∧ (¬ out → (∀ b ∈ s.mem.lockAns, b.gid = g.gid → b.ans ≠ .owner ∧ b.ans ≠ .notOwner) →
              ∃ t g', exec .lockUnitAnswer s = .next t ∧ t.group? g.gid = some g' ∧ OnlyLanes g g'
                ∧ (∀ L < 32, g'.lane L = if here L then leftLane (g.lane L) else g.lane L)
                ∧ ∀ b, b ∈ t.mem.lockAns ↔ b ∈ s.mem.lockAns ∧ ¬ (b.gid = g.gid ∧ b.ans = .acked ∧ here b.lane)))
        ∧ (a.ans = .owner ∨ a.ans = .notOwner → s.mem.lockAns = [a] → g.trap = none → (∀ L < 32, L = a.lane ∨ (g.lane L).wait = .none) →
            (∀ r ∈ s.eng.reqs, r.gid = g.gid → r.kind.isLock = false ∧ r.kind.isUnlock = false) →
            ∃ t g', exec .lockUnitAnswer s = .next t ∧ t.group? g.gid = some g' ∧ t.mem.lockAns = []
              ∧ g'.trap.map (fun x => (x.code, x.lane, x.full)) = some (0x11, a.lane, a.va) ∧ ∀ r, SameReg g g' r))
    ∧ (∀ (g : Group) (c : HaltCause) (L : Nat) (r : LockRec) (w : Locker), s.group? s.cur.gid = some g → g.lanes.length = 32 →
        s.cur.lane = L → L < 32 → g.halt = .halting c → (g.lane L).wait = .lock → s.lockAnswer g.gid L = none →
        (∀ q ∈ s.eng.reqs, q.gid ≠ g.gid) → s.mem.locks = [r] → w ∈ r.queue → w.pkg = me → w.gid = g.gid → w.lane = L →
        ∃ t g', exec .lockWithdrawalAnswer s = .next t ∧ t.group? g.gid = some g' ∧ (g'.lane L).wait = .none
          ∧ (g'.lane L).pc = (g.lane L).pc ∧ ∃ r', t.mem.locks = [r'] ∧ r'.holder = r.holder ∧ w ∉ r'.queue)
    ∧ ∀ pkg grid c, pkg ≠ me → s.mem.locks = [c] → c.line = l → c.ofs = ofs → c.holder.pkg = pkg → c.holder.grid = grid →
        c.queue = [] → ∃ t, exec (.peerLockRelease pkg grid) s = .next t ∧ t.mem.locks = [] ∧ word t = 0

/-! Tiles and the matrix slice. -/

/-- R247, R248, R253: TLD fills a tile from 32 rows of the scratchpad, with row tags and for MXFP4 the scale vector;
TST writes the rows back, zeros for an empty tile; TMASK takes the group's mask from its block. The first row that
fails a check is the trap. -/
def Obligations.TilesMoveThroughTheScratchpad : Prop :=
  ∀ (o : MForm) (s : State) (g : Group), s.cores.Canonical →
    let row := fun i => spPhys s g (tileRowOff g o i).toNat
    let sv := spPhys s g (spOffset g o 0 + 2048).toNat
    let any := fun (a n : Nat) => (List.range n).any fun k => spPoison s.cores (a + k)
    let d := o.d.toNat
    let addr := fun i => wrapNat (tileRowOff g o i) 64
    (GoesTogether (.tld o) o.g s g → RowsReach s g o (o.ac = 5) → RunsTo (.tld o) s fun g' =>
      { g' with t := g.t, lanes := g.lanes } = g ∧ MovesOn s.cur 0 g g' ∧ (∀ n, n ≠ d → rdT g' n = rdT g n)
      ∧ (rdT g' d).fmt = o.ac.toNat
      ∧ (∀ i < 32, (rdT g' d).row i = spBytes s.cores (row i) 64
          ∧ bitOf (rdT g' d).rowTags i = ((List.range 16).any (fun k => spPoison s.cores (row i + 4 * k))
              || (decide (o.ac = 5) && spPoison s.cores (sv + 4 * i))))
      ∧ (o.ac = 5 → (rdT g' d).scaleVec = spBytes s.cores sv 128))
    ∧ (let t := rdT g d
       let mx := decide (t.fmt = 5)
       let gates := (∀ i < 32, meetsGate s.cores (row i) 64 = false) ∧ (mx = true → meetsGate s.cores sv 128 = false)
       let covers := fun (i x : Nat) => decide (row i ≤ x) && decide (x < row i + 64)
       let inScale := fun (x : Nat) => mx && decide (sv ≤ x) && decide (x < sv + 128)
       GoesTogether (.tst o) o.g s g → RowsReach s g o (mx && o.ubase) → gates →
        ((t.fmt = 5 → o.ubase = true) → ∃ u g', exec (.tst o) s = .next u ∧ OnlyScratch s u false
          ∧ u.group? s.cur.gid = some g' ∧ OnlyLanes g g' ∧ MovesOn s.cur 0 g g'
          ∧ (∀ x, spByte u.cores x = if inScale x then t.scaleVec.getD (x - sv) 0
              else match (List.range 32).reverse.find? fun i => covers i x with
                | some i => if t.fmt = 0 then 0 else (t.row i).getD (x - row i) 0
                | none => spByte s.cores x)
          ∧ (∀ w, ∀ i < 32, (∀ k < 4, covers i (4 * w + k) = true ∧ inScale (4 * w + k) = false) →
              (∀ j < 32, i < j → ∀ k < 4, covers j (4 * w + k) = false) →
              spPoison u.cores (4 * w) = (decide (t.fmt ≠ 0) && bitOf t.rowTags i))
          ∧ ∀ w, (∀ k < 4, inScale (4 * w + k) = false ∧ ∀ i < 32, covers i (4 * w + k) = false) →
              spPoison u.cores (4 * w) = spPoison s.cores (4 * w))
        ∧ (t.fmt = 5 → o.ubase = false → g.trap = none → Traps (.tst o) s g ⟨0x14, 0, 0, 0⟩))
    ∧ (∀ (i : Instr) (mx : Bool) (L : Nat), (i = .tld o ∧ mx = decide (o.ac = 5)) ∨ (i = .tst o ∧ mx = ((rdT g d).fmt = 5 && o.ubase)) →
        GoesTogether i o.g s g → g.trap = none →
        let poisoned := fun i => (mBaseVal g o false i).tag = true
        let outside := fun i => tileRowOff g o i < 0 ∨ (teamSize s g : Int) < tileRowOff g o i + 64
        let skewed := fun i => tileRowOff g o i % 64 ≠ 0
        (FirstOf poisoned L → Traps i s g ⟨0x07, L, addr L % 2 ^ 54, addr L⟩)
        ∧ ((∀ i < 32, ¬ poisoned i) → FirstOf skewed L → Traps i s g ⟨0x09, L, addr L % 2 ^ 54, addr L⟩)
        ∧ ((∀ i < 32, ¬ poisoned i ∧ ¬ skewed i) → FirstOf outside L → Traps i s g ⟨0x0A, L, addr L % 2 ^ 54, addr L⟩))
    ∧ (let a := spPhys s g (spOffset g o 0).toNat
       let word := fun (k : Nat) => BitVec.ofNat 32 (leNat (spBytes s.cores (a + 4 * k) 4))
       let legal := word 32 &&& 3 ≠ 3 ∧ word 32 &&& ~~~0x103#32 = 0 ∧ ∀ i < 120, spByte s.cores (a + 0x88 + i) = 0
       GoesTogether (.tmask o) o.g s g → (mBaseVal g o false 0).tag = false → spOffset g o 0 % 128 = 0 →
       0 ≤ spOffset g o 0 → spOffset g o 0 + 256 ≤ teamSize s g → any a 256 = false →
        (legal → RunsTo (.tmask o) s fun g' =>
          { g' with lanes := g.lanes, maskRows := g.maskRows } = { g with maskMode := word 32, maskFill := word 33 }
          ∧ MovesOn s.cur 0 g g' ∧ ∀ i < 32, sget 0 g'.maskRows i = word i)
        ∧ (¬ legal → g.trap = none → Traps (.tmask o) s g ⟨0x13, 0, 0, 0⟩))

/-- R64 to R67, R90, R250 to R252: TZERO completes and clears an accumulator tile; MMA and MMAG complete and add the
exact sum of products, rounded once, to each element, after one checksum mismatch as after none, with 32 cycles of the
slice more; a pairing that R64 does not admit is the format trap; a second checksum mismatch leaves the accumulator,
raises a machine check and charges 256.
The model's own choices in it: logs 23, 45, 49. -/
def Obligations.MatrixWordsAddExactProducts : Prop :=
  ∀ (o : RForm) (s : State) (g : Group), s.cores.Canonical →
    let d := o.d.toNat
    let B := rdT g o.b.toNat
    let key := sideKey g.core g.side
    let others := fun (g' : Group) => { g' with a := g.a, lanes := g.lanes } = g ∧ MovesOn s.cur 0 g g'
      ∧ ∀ n, n ≠ d → SameReg g g' (.a n)
    let multiplies := fun (i : Instr) (A : Tile) =>
      (pairing A.fmt B.fmt = true → (s.side key).upsets < 2 → ∃ t g', exec i s = .next t
          ∧ ((s.side key).upsets = 0 → OnlyIssuer s t) ∧ { t.cores with sides := s.cores.sides } = s.cores
          ∧ (∀ k, k ≠ s.cur.gid → t.group? k = s.group? k)
          ∧ t.group? s.cur.gid = some g' ∧ others g' ∧ Multiplied g g' d A B
          ∧ (t.side key).upsets = 0 ∧ (∀ k, k ≠ key → t.side k = s.side k)
          ∧ ((s.side key).upsets = 1 → (t.side key).matBusy = max (s.side key).matBusy (s.side key).cycle + 32))
      ∧ (pairing A.fmt B.fmt = false → g.trap = none → Traps i s g ⟨0x14, 0, 0, 0⟩)
      ∧ (pairing A.fmt B.fmt = true → 2 ≤ (s.side key).upsets → ∃ t g', exec i s = .next t ∧ t.group? s.cur.gid = some g'
          ∧ (∀ n, SameReg g g' (.a n)) ∧ MovesOn s.cur 0 g g'
          ∧ (t.side key).upsets = (s.side key).upsets - 2
          ∧ (g.ended = false → natBit g'.imprecise.toNat 0x18 = true)
          ∧ (t.ctx g.ctx).ebudget = (if (s.ctx g.ctx).budgetField = 0 then (s.ctx g.ctx).ebudget else (s.ctx g.ctx).ebudget - 256))
    (GoesTogether (.tzero o) o.g s g → ∃ t g', exec (.tzero o) s = .next t ∧ OnlyIssuer s t ∧ t.group? s.cur.gid = some g'
      ∧ others g' ∧ ∀ i < 32, ∀ j < 32, rdA g' d i j = ⟨0, false⟩)
    ∧ (GoesTogether (.mma o) o.g s g → multiplies (.mma o) (rdT g o.a.toNat))
    ∧ (GoesTogether (.mmag o) o.g s g →
        let x := fun L => rdV g o.a.toNat L
        let off := fun L => (x L).val.toNat
        let clean := ∀ L < 32, (x L).tag = false
        let aligned := ∀ L < 32, off L % 64 = 0
        (clean → aligned → (∀ L < 32, off L + 64 ≤ teamSize s g) → ∀ A : Tile, A.fmt = tagOf o.ty →
          (∀ i < 32, (∀ k < 64, sget 0 A.bytes (64 * i + k) = spByte s.cores (spPhys s g (off i) + k))
            ∧ bitOf A.rowTags i = (List.range 16).any fun k => spPoison s.cores (spPhys s g (off i) + 4 * k)) →
          multiplies (.mmag o) A)
        ∧ ∀ L, g.trap = none →
          (FirstOf (fun L => (x L).tag = true) L → Traps (.mmag o) s g ⟨0x07, L, 0, 0⟩)
          ∧ (clean → FirstOf (fun L => off L % 64 ≠ 0) L → Traps (.mmag o) s g ⟨0x09, L, off L, off L⟩)
          ∧ (clean → aligned → FirstOf (fun L => teamSize s g < off L + 64) L → Traps (.mmag o) s g ⟨0x0A, L, off L, off L⟩))

/-- R253 to R256: a drain writes, or adds to memory, the elements that the mask passes, FILL where it fills, each with
its poison; to the scratchpad at once, to global memory as counted requests; ONCE ends the mask. TCVT converts an
accumulator tile into its part of an operand tile.
The model's own choices in it: log 55. -/
def Obligations.DrainsWriteTheMaskedTile : Prop :=
  ∀ (s : State) (g : Group), s.Canonical →
    (∀ (o : MForm) (add : Bool), o.sp = true →
      let i := if add then Instr.tdrainAdd o else .tdrain o
      let off := spOffset g o 0
      let a := spPhys s g off.toNat
      let sum := fun (x y : Nat) => if o.ac = 4 then (fCompute .add fF32 .rn false x y 0).1 else (x + y) % 2 ^ 32
      GoesTogether i o.g s g → (mBaseVal g o false 0).tag = false → off % 128 = 0 → 0 ≤ off → off + 4096 ≤ teamSize s g →
      meetsGate s.cores a 4096 = false → s.countOf g.gid .M < 255 →
      ∃ t g' x, exec i s = .next t
        ∧ { t with groups := s.groups, cores := s.cores, eng := s.eng, nextId := s.nextId } = s
        ∧ { t.cores with spad := s.cores.spad, poison := s.cores.poison } = s.cores
        ∧ t.eng = { s.eng with ops := s.eng.ops ++ [x] } ∧ x.id = s.nextId ∧ x.gid = g.gid ∧ x.cls = .M ∧ x.left = 0
        ∧ x.complete = true ∧ x.status = 0 ∧ (∀ k, k ≠ s.cur.gid → t.group? k = s.group? k)
        ∧ t.group? s.cur.gid = some g' ∧ MovesOn s.cur 0 g g'
        ∧ { g' with lanes := g.lanes } = { g with maskMode := if g.maskMode.getLsbD 8 then 0 else g.maskMode }
        ∧ (∀ y, ¬ (a ≤ y ∧ y < a + 4096) → spByte t.cores y = spByte s.cores y)
        ∧ ∀ n < 1024, let old := spBytes s.cores (a + 4 * n) 4
          match drained g o.d.toNat add n with
          | none => spBytes t.cores (a + 4 * n) 4 = old
          | some e => leNat (spBytes t.cores (a + 4 * n) 4) =
                (if add then sum (leNat old) e.val.toNat else e.val.toNat)
              ∧ (a % 4 = 0 → spPoison t.cores (a + 4 * n) = (e.tag || (add && spPoison s.cores (a + 4 * n)))))
    ∧ (∀ (o : MForm) (add split : Bool) (as : List Acc), o.sp = false → (split = true → add = true) →
      let i := if split then Instr.tdrainAddSplit o else if add then .tdrainAdd o else .tdrain o
      let k := if add && !split then 1024 else if split then 32 else 16
      let base := globalAddr g o 0
      let e := fun (a : Acc) n => drained g o.d.toNat add (k * a.lane + n)
      GoesTogether i o.g s g → (mBaseVal g o true 0).tag = false → base % (if add && !split then 4096 else 128) = 0 →
      s.countOf g.gid .M < 255 →
      s.resolveAll g .write false (fun p => wrapNat (base + 4 * k * p) 64) (List.range (1024 / k)) = .ok as →
      (∀ a ∈ as, add = true → (∀ x y z, a.place ≠ .raw x y z) ∧ (∀ x y, a.place ≠ .peer x y true) ∧ ∀ x, a.place ≠ .host x) →
      (∀ a ∈ as, (a.cls = some .N ∧ ∀ p q b, a.place ≠ .peer p q b) ∨ (∃ x, a.place = .host x)
          ∨ (∃ p q b, a.place = .peer p q b ∧ Config.peerHoldsN s.free p q = true) →
        ∀ n < k, ∀ x, e a n = some x → x.tag = false) →
      ∃ x : Op, x.id = s.nextId ∧ x.gid = g.gid ∧ x.cls = .M ∧ x.left = as.length ∧ x.complete = true ∧ x.status = 0
        ∧ PutsInFlight i s (as.mapIdx fun j a =>
            { baseReq g s.cur a (.drain add o.ac.toNat ((List.range k).map fun n => if (e a n).isSome then 2 ^ n else 0).sum) (4 * k) 0 with
              id := s.nextId + 1 + j, lane := 32, op := some s.nextId, also := 0xFFFFFFFF
              bytes := (List.range k).flatMap fun n => leBytes 4 (((e a n).map (·.val.toNat)).getD 0)
              tags := (List.range k).flatMap fun n => List.replicate 4 (((e a n).map (·.tag)).getD false) }) [x] fun _ g' =>
            { g' with lanes := g.lanes, peerMarks := g.peerMarks } =
                { g with maskMode := if g.maskMode.getLsbD 8 then 0 else g.maskMode, seq := g.seq + 1 }
            ∧ (∀ m, (add = true ∨ ∀ a ∈ as, ∀ q b, a.place ≠ .peer m.pkg q b) → (m ∈ g'.peerMarks ↔ m ∈ g.peerMarks))
            ∧ MovesOn s.cur 0 g g')
    ∧ ∀ o : RForm, GoesTogether (.tcvt o) o.g s g →
      let t := rdT g o.d.toNat
      let keep := decide (t.fmt = tagOf o.ty)
      let part := o.c.toNat
      let x := fun i j => rdA g o.a.toNat i j
      let w := o.ty.bits / 8
      let block := fun i => mxBlock o.rm ((List.range 32).map fun j => (unpack fF32 (x i j).val.toNat, 0))
      let conv := fun i j => convertTo o.ty .f32 o.rm o.sat 0 (x i j).val.toNat
      RunsTo (.tcvt o) s fun g' =>
        { g' with t := g.t, lanes := g.lanes, fpstat := g.fpstat } = g ∧ MovesOn s.cur 0 g g'
        ∧ (∀ n, n ≠ o.d.toNat → rdT g' n = rdT g n)
        ∧ (o.ty ≠ .mx4 → g'.fpstat = (List.range 1024).foldl (fun f n => f ||| (conv (n / 32) (n % 32)).2) g.fpstat)
        ∧ let t' := rdT g' o.d.toNat
          t'.fmt = tagOf o.ty ∧ ∀ i < 32,
            bitOf t'.rowTags i = ((keep && bitOf t.rowTags i) || (List.range 32).any fun j => (x i j).tag)
            ∧ (∀ k < 64, sget 0 t'.bytes (64 * i + k) =
                if o.ty = .mx4 ∧ 16 * part ≤ k ∧ k < 16 * part + 16 then
                  BitVec.ofNat 8 ((block i).2.1.getD (2 * (k - 16 * part)) 0 + 16 * (block i).2.1.getD (2 * (k - 16 * part) + 1) 0)
                else if o.ty ≠ .mx4 ∧ 32 * part ≤ k ∧ k < 32 * part + 32 * w then
                  BitVec.ofNat 8 ((conv i ((k - 32 * part) / w)).1 / 256 ^ ((k - 32 * part) % w))
                else if keep then sget 0 t.bytes (64 * i + k) else 0)
            ∧ ∀ p < 4, sget 0 t'.scales (4 * i + p) =
                if o.ty = .mx4 ∧ p = part then BitVec.ofNat 8 (block i).1
                else if keep then sget 0 t.scales (4 * i + p) else 0

/-! Engines. -/

/-- R117, R221, R257, R327: what holds or turns back an engine word, in order: a full class, which leaves the path
before the word; a poisoned operand; an operand's value; a scratchpad range, RST's after the places of its pages; a gate that
is not live.
The model's own choices in it: logs 8, 40. -/
def Obligations.EngineWordsCheckTheirOperands : Prop :=
  ∀ (i : Instr) (c : Option EClass) (o : EForm) (s : State) (g : Group), engineForm i = some (c, o) →
    GoesAhead i o.g s g → activeOf g s.cur o.g ≠ 0 → g.trap = none →
    let L := lowest (activeOf g s.cur o.g)
    let room := ∀ k, c = some k → s.countOf g.gid k < 255
    let clean := ∀ n, RegName.s n ∈ i.reads → (rdS g n).tag = false
    let values := ∀ x ∈ engineParams i s g, x.2 = false
    let all := engineRanges i s g ++ (engineGate i g).toList.map fun off => (off, 16, 16)
    (∀ k, c = some k → 255 ≤ s.countOf g.gid k → exec i s = .next s)
    ∧ (room → ¬ clean → Traps i s g ⟨0x07, L, 0, 0⟩)
    ∧ (∀ n, room → clean → ((engineParams i s g).find? (·.2)).map (·.1) = some n → Traps i s g ⟨0x13, L, n, 0⟩)
    ∧ (room → clean → values → (∀ o, i ≠ .rst o) →
        (∀ off len align, all.find? (fun x => x.1 % x.2.2 ≠ 0) = some (off, len, align) →
          Traps i s g ⟨0x09, L, off % 2 ^ 54, off⟩)
        ∧ ((∀ x ∈ all, x.1 % x.2.2 = 0) → ∀ off len align, all.find? (fun x => teamSize s g < x.1 + x.2.1) = some (off, len, align) →
          Traps i s g ⟨0x0A, L, off % 2 ^ 54, off⟩)
        ∧ ((∀ x ∈ all, x.1 % x.2.2 = 0 ∧ x.1 + x.2.1 ≤ teamSize s g) → ∀ off, engineGate i g = some off →
          gateLive s.cores (spPhys s g off) = false → Traps i s g ⟨0x10, L, off % 2 ^ 54, off⟩))
    ∧ ∀ o, i = .rst o → room → clean → values → s.undeny (.look g.gid s.cur.pc) = s → LookedAt s g .write (rstPages g o) →
        RstAdmits s g (rstPages g o) → teamSize s g < uniN g o.e1 + uniN g o.e4 →
        Traps i s g ⟨0x0A, L, uniN g o.e1 % 2 ^ 54, uniN g o.e1⟩

/-- R258 to R261, R264, R267, R270, R272: the engine words at issue. TDESC judges an image and fills or empties a slot
of the team; the others count one operation each, with its operands read once.
The model's own choices in it: log 40. -/
def Obligations.EngineWordsIssueTheirOperations : Prop :=
  ∀ (o : EForm) (s : State) (g : Group), s.Canonical →
    let ok := fun i => GoesAhead i o.g s g ∧ activeOf g s.cur o.g ≠ 0 ∧ EngineOk i s g
    let n := fun r => uniN g r
    let bytes := fun off k => spBytes s.cores (spPhys s g off) k
    let tags := fun off k => (List.range k).map fun j => spPoison s.cores (spPhys s g off + j)
    (∀ alias_ : Bool, let i := if alias_ then Instr.tdescAlias o else .tdesc o
      ok i → ∀ tm, s.team? g.team = some tm →
      let b := bytes (n o.e3) 128
      let d := Desc.ofImage b alias_
      let st := if imageBad b then 1 else match s.allocOf g.pasid (d.span true) with
        | none => if (s.allocOf g.pasid (d.span false)).isSome then 3 else 2
        | some f => if (d.read && f % 2 = 0) || (d.write && f / 2 % 2 = 0) then 4
            else if d.write && !alias_ && !d.distinct then 5 else 0
      ∃ t g', exec i s = .next t
        ∧ { t with groups := s.groups, teams := s.teams } = (if imageBad b then s else s.allocTouch g.pasid)
        ∧ (∀ k, k ≠ s.cur.gid → t.group? k = s.group? k) ∧ t.group? g.gid = some g'
        ∧ { g' with s := g.s, lanes := g.lanes } = g ∧ MovesOn s.cur 0 g g'
        ∧ rdS g' o.e1.toNat = ⟨BitVec.ofNat 32 st, false⟩ ∧ (∀ r, r ≠ o.e1.toNat → rdS g' r = rdS g r)
        ∧ ∃ tm', t.team? g.team = some tm' ∧ { tm' with descs := tm.descs } = tm
          ∧ ∀ k, sget Desc.invalid tm'.descs k =
              if k = n o.e2 then (if st = 0 then d else Desc.invalid) else sget Desc.invalid tm.descs k)
    ∧ (∀ isIn : Bool, let i := if isIn then Instr.cpyIn o else .cpyOut o
      let w := (rdS g (o.e2.toNat + 1)).val
      ok i → Issues i s g .K fun x => x.left = 0 ∧ x.complete = false
        ∧ x.kind = .cpy isIn (slotOf s g (n o.e1)) (n o.e2)
            [uniInt g o.e4.toNat, uniInt g (o.e4.toNat + 1), (w.extractLsb' 0 16).toInt, (w.extractLsb' 16 16).toInt]
            (engineGate i g))
    ∧ (ok (.mrs o) → Issues (.mrs o) s g .B fun x => x.left = 0 ∧ x.complete = false
        ∧ x.kind = .mrs (slotOf s g (n o.e1)) (if o.flag then some (slotOf s g (n o.e3)) else none)
            (uniPair g o.e2) (uniInt g o.e4.toNat) (uniInt g (o.e4.toNat + 1)))
    ∧ (let pages := uniPair g o.e3 :: pagesOf (uniPair g o.e2) (n o.e4)
       let looked := s.undeny (.look g.gid s.cur.pc)
       ok (.rst o) → LookedAt s g .write pages →
        (RstAdmits s g pages →
          Issues (.rst o) s g .F (fun x => x.left = 0 ∧ x.complete = false ∧ x.kind =
            .rst (uniPair g o.e2) (uniPair g o.e3) (bytes (n o.e1) (n o.e4)) (tags (n o.e1) (n o.e4)) 0) looked)
        ∧ (¬ RstAdmits s g pages → looked = s → g.trap = none →
            Traps (.rst o) s g ⟨0x13, lowest (activeOf g s.cur o.g), 3, 0⟩))
    ∧ (let cmds := redxCommands (bytes (n o.e1) (64 * n o.e3)) (tags (n o.e1) (64 * n o.e3))
       ok (.redx o) → Issues (.redx o) s g .A fun x => x.left = cmds.length ∧ x.complete = true ∧ x.kind =
        .redx (match (o.emod.extractLsb' 0 3).toNat with | 1 => .min | 2 => .max | _ => .add)
          (o.emod.extractLsb' 3 4).toNat (uniPair g o.e2) cmds)
    ∧ ∀ acq : Bool, let i := if acq then Instr.wblAcq o else .wbl o
      let b := bytes (n o.e1) 192
      let start := BitVec.ofNat 64 (uniPair g o.e4)
      ok i → (waybillBad b = false → Issues i s g .W fun x => x.left = 0 ∧ x.complete = false
          ∧ x.kind = .wbl ⟨b, start, start, (b.getD 1 0).toNat, 0, acq⟩ (n o.e2) (engineGate i g))
        ∧ (waybillBad b = true → g.trap = none → Traps i s g ⟨0x13, lowest (activeOf g s.cur o.g), 1, 0⟩)

/-- R244, R276, R277, R279: CLEAN, INVAL and MSWITCH count one operation with their lanes' ranges; the IMX words one
with its payload; IMX.STAT writes its summary of the range's drays and counts nothing.
The model's own choices in it: logs 8, 40. -/
def Obligations.RangeAndDrayWordsIssue : Prop :=
  ∀ (s : State) (g : Group), s.Canonical →
    (∀ (i : Instr) (c : EClass) (k : OpKind) (o : RForm),
      (i = .clean o ∧ c = .A ∧ k = .lines false) ∨ (i = .inval o ∧ c = .A ∧ k = .lines true)
        ∨ (i = .mswitchBank o ∧ c = .B ∧ k = .mswitch true false) ∨ (i = .mswitchCtl o ∧ c = .B ∧ k = .mswitch false false) →
      GoesAhead i o.g s g → activeOf g s.cur o.g ≠ 0 →
      let base := fun L => srcA false g o 2 L
      let len := fun L => srcB false g o 1 L false
      let last := fun L => ((base L).n + (len L).n - 1) % 2 ^ 64
      let clean := ∀ L < 32, active s g o.g L → (base L).tag = false ∧ (len L).tag = false
      (255 ≤ s.countOf g.gid c → exec i s = .next s)
      ∧ (s.countOf g.gid c < 255 →
        (clean → (∀ L < 32, active s g o.g L → (len L).n = 0 ∨ (canonical (base L).n = true ∧ canonical (last L) = true)) →
          Issues i s g c fun x => x.kind = k ∧ x.left = 0 ∧ x.complete = false
            ∧ x.span = (lanesOf (activeOf g s.cur o.g)).map fun L => ⟨(base L).n, (len L).n⟩)
        ∧ (∀ L, g.trap = none → FirstLane s g o.g (fun L => (base L).tag = true ∨ (len L).tag = true) L →
            Traps i s g ⟨0x07, L, (base L).n % 2 ^ 54, (base L).n⟩)
        ∧ ∀ L, g.trap = none → clean →
            FirstLane s g o.g (fun L => (len L).n ≠ 0 ∧ (canonical (base L).n = false ∨ canonical (last L) = false)) L →
            let a := if canonical (base L).n then last L else (base L).n
            Traps i s g ⟨0x0B, L, a % 2 ^ 54, a⟩))
    ∧ ∀ o : EForm,
      let ok := fun i => GoesAhead i o.g s g ∧ activeOf g s.cur o.g ≠ 0 ∧ EngineOk i s g
      let n := fun r => uniN g r
      let x4 := n o.e4
      let at_ := fun k => spPhys s g (n o.e1) + k
      let counts := fun (i : Instr) (k : OpKind) => ok i → Issues i s g .B fun x => x.kind = k ∧ x.left = 0
        ∧ x.complete = false ∧ x.span = [⟨uniPair g o.e2, n o.e3⟩]
      counts (.imxLoad o) (.imxLoad ((List.range (x4 % 128)).map fun j => BitVec.ofNat 32 (leNat (spBytes s.cores (at_ (4 * j)) 4)))
        (x4 / 256 % 64))
      ∧ counts (.imxVec o) (.imxVec (spBytes s.cores (at_ 0) (x4 % 4096))
          ((List.range (x4 % 4096)).map fun j => spPoison s.cores (at_ j)) (x4 / 65536 % 4096))
      ∧ counts (.imxRun o) (.imxRun (n o.e1) x4)
      ∧ counts (.imxBcast o) (.imxBcast (n o.e1) x4)
      ∧ counts (.imxCollect o) (.imxCollect (n o.e1) (engineGate (.imxCollect o) g) [])
      ∧ (ok (.imxStat o) →
          let a := uniPair g o.e2
          let rows := statRows s g ⟨a, n o.e3⟩
          let keys := (rows.1.map fun r => drayKey ⟨r.stack, r.pch, r.bg⟩).eraseDups
          let many := fun (f : Dray → Bool) => keys.countP fun k => f (s.dray k)
          keys.length < 2 ^ 16 → LookedAt s g .read ((statUnits ⟨a, n o.e3⟩).map (·.2)) →
          (∃ t g', exec (.imxStat o) s = .next t ∧ { t with groups := s.groups } = s.undeny (.look g.gid s.cur.pc)
            ∧ (∀ k, k ≠ s.cur.gid → t.group? k = s.group? k) ∧ t.group? s.cur.gid = some g'
            ∧ { g' with s := g.s, lanes := g.lanes } = g ∧ MovesOn s.cur 0 g g'
            ∧ rdS g' o.e1.toNat = ⟨BitVec.ofNat 32
                (many (fun d => decide (d.dstat.state ≠ 0)) + 2 ^ 16 * many fun d => decide (d.dstat.err ≠ 0)), false⟩
            ∧ rdS g' (o.e1.toNat + 1) = ⟨BitVec.ofNat 32 (many (·.dstat.inexact) + if rows.2 then 2 ^ 31 else 0), false⟩
            ∧ ∀ r, r ≠ o.e1.toNat → r ≠ o.e1.toNat + 1 → rdS g' r = rdS g r)
          ∧ (a % 4096 + n o.e3 ≤ 4096 →
              (∀ p cls pa nc res, canonical a = true → s.translate g.core g.pasid a .read = .hit pa nc res →
                s.placeOf pa nc (g.ctx = 0) = .at p cls →
                rows = match p with
                  | .line .. | .raw .. => (s.rowsAt p (n o.e3), false)
                  | _ => ([], true))
              ∧ ((canonical a = false ∨ ∀ pa nc res, s.translate g.core g.pasid a .read ≠ .hit pa nc res) → rows = ([], true))))

/-- R92, R114 to R116, R122, R124, R177, R245, R276, R278, R283, R284: an operation that has completed, with none of its
class before it out, retires with its status, and lets the lanes that wait for its COUNT go on. CLEAN writes a line
back and keeps it, INVAL drops it; MSWITCH changes all rows of its range together; a launch joins the queue of each
stack and starts there; a returning row is the controller's once no run touches it.
The model's own choices in it: logs 42, 47, 56. -/
def Obligations.OperationsActOnRowsAndRetire : Prop :=
  (
    ∀ (s : State) (id : Nat) (o : Op) (g : Group), canOpComplete id s = some o → s.group? o.gid = some g →
      g.lanes.length = 32 → o.moved = false → s.kernelGone o.gid = false →
      let e : EngErr := ⟨o.cls, o.status, o.addr⟩
      let held := fun (x : Group) => if g.frame = none then (x.errs, x.lost) else (x.recErrs, x.recLost)
      let rest := fun (x : Group) => if g.frame = none then (x.recErrs, x.recLost) else (x.errs, x.lost)
      let full := decide (16 ≤ (held g).1.countP fun x => x.cls = o.cls)
      ∃ t g', exec (.engineOpComplete id) s = .next t ∧ t.op? id = none ∧ (∀ k, k ≠ id → t.op? k = s.op? k)
        ∧ { t with groups := s.groups, eng := s.eng, agenda := s.agenda } = s ∧ t.eng.reqs = s.eng.reqs
        ∧ t.group? o.gid = some g' ∧ { g' with lanes := g.lanes, errs := g.errs, lost := g.lost, recErrs := g.recErrs, recLost := g.recLost } = g
        ∧ rest g' = rest g
        ∧ (held g').1 = (if o.status = 0 ∨ full = true then (held g).1 else (held g).1 ++ [e])
        ∧ (∀ c, c ∈ (held g').2 ↔ c ∈ (held g).2 ∨ (o.status ≠ 0 ∧ full = true ∧ c = o.cls))
        ∧ ∀ L < 32, g'.lane L = match (g.lane L).wait with
          | .waitc c n =>
            if (g.lane L).exited = false ∧ t.countOf o.gid c ≤ n then
              if g'.heldError c = none then leftLane (g.lane L)
              else { g.lane L with wait := .none }
            else g.lane L
          | _ => g.lane L)
  ∧ (
    ∀ (s : State), s.Canonical →
      (∀ (id : Nat) (o : Op) (inval : Bool) (l : LineId) (i a past ofs res : Nat) (cls : Option ExtClass) (x : DepotLine),
        s.op? id = some o → o.complete = false → o.kind = .lines inval → o.unit 128 = some (i, a, past) →
        s.opPlace o (a / 128 * 128) (if inval then .write else .read) = .at (.line l ofs) cls res → s.storeOut o l = false →
        s.leased l = false → s.heldOn l = [] → s.line? l = some x → x.bytes.length = 128 →
        (inval = false → x.dirty = true → (∀ u ∈ s.rel.upsets, ∀ k, u.site ≠ .depot l k)
          ∧ (x.poison = 0 ∨ ∀ r ∈ s.lineRows l, s.rowCode r ≠ .N)) →
        ∃ t y, exec (.lineMaintenance id l) s = .next t ∧ t.op? id = some y ∧ y.pos = o.pos + 1 ∧ y.status = o.status
          ∧ (∀ k, k ≠ l → t.line? k = s.line? k)
          ∧ (inval = true → t.line? l = none ∧ t.mem.raw = s.mem.raw ∧ y.left = o.left)
          ∧ (inval = false → t.line? l = some { x with dirty := false } ∧ (x.dirty = false → t.mem.raw = s.mem.raw ∧ y.left = o.left)
            ∧ ((s.extent l.stack l.ext).cls ≠ .pool → 128 * l.line < (s.extent l.stack l.ext).cls.size →
                (∀ r ∈ s.lineRows l, s.strong? r = none) → x.dirty = true → s.busyRow (s.lineRows l) = none →
                (t.stackLine l).1 = x.bytes ∧ y.left = o.left)))
      ∧ (∀ (id : Nat) (o : Op) (toBank applied : Bool), s.op? id = some o → o.complete = false → o.kind = .mswitch toBank applied →
        o.launched = true → s.switchWaits o = false → (toBank = true → ∀ r ∈ o.rows, s.rowFree r = true) →
        ∃ t y, exec (.mswitchApply id) s = .next t ∧ t.op? id = some y ∧ y.complete = true ∧ y.kind = .mswitch toBank true
          ∧ t.mem.raw = s.mem.raw ∧ (∀ l, t.line? l = s.line? l)
          ∧ ∀ r, t.rowState r = if r ∈ o.rows then (if toBank then .bank else if s.rowState r = .bank then .returning else s.rowState r)
              else s.rowState r)
      ∧ (∀ r, s.rowState r = .returning →
        (∀ x ∈ s.drays.drays, x.2.op = none ∨ (r ∉ x.2.rows ∧ ∀ w ∈ x.2.open_, w.row ≠ r)) →
        ∃ t, exec (.rowsControllerOwned r) s = .next t ∧ { t with mem := { t.mem with rows := s.mem.rows } } = s
          ∧ ∀ k, t.rowState k = if k = r then .controller else s.rowState k)
      ∧ (∀ (id : Nat) (o : Op) (keys : List Nat), s.op? id = some o → o.kind.isImx = true → o.complete = false →
        o.launched = false → s.launchWaits o = false → o.unit 4096 = none → o.status = 0 →
        keys.Pairwise (· < ·) → (∀ k, k ∈ keys ↔ ∃ r ∈ o.rows, drayOfRow r = k) → s.launchStatus o keys = 0 →
        ∃ t, exec (.drayLaunch id) s = .next t ∧ t.op? id = some { o with launched := true, drays := keys, pos := 0 }
          ∧ (∀ st, sget [] t.drays.queue st =
              if keys.any (fun k => k / 1024 = st) then sget [] s.drays.queue st ++ [id] else sget [] s.drays.queue st)
          ∧ ∀ k, t.dray k = if k ∈ keys ∧ (s.dray k).op = none
              then { s.dray k with dstat := { (s.dray k).dstat with state := 3 } } else s.dray k)
      ∧ ∀ (id stack : Nat) (o : Op), s.op? id = some o → s.canStart o stack = true →
        let mine := o.draysIn stack
        let owned := fun k => if (s.dray k).owner = none ∨ (s.dray k).owner = some o.pasid then s.dray k else Dray.reset
        (∀ cmds first, o.kind = .imxLoad cmds first → ∃ t, exec (.drayOperationStart id stack) s = .next t
          ∧ id ∉ sget [] t.drays.queue stack
          ∧ ∀ k, (k ∉ mine → t.dray k = s.dray k) ∧ (k ∈ mine → (t.dray k).owner = some o.pasid
            ∧ (t.dray k).vb = (owned k).vb ∧ (t.dray k).acc = (owned k).acc
            ∧ ∀ j, sget 0 (t.dray k).store j =
                if first ≤ j ∧ j < first + cmds.length then cmds.getD (j - first) 0 else sget 0 (owned k).store j))
        ∧ ∀ slot arg, o.kind = .imxRun slot arg → mine.Nodup → (∀ r ∈ o.rows, s.rowState r = .bank ∧ r ∉ o.lost) →
          (∀ k ∈ mine, ∃ r ∈ o.rows, drayOfRow r = k) → ∃ t, exec (.drayOperationStart id stack) s = .next t
          ∧ t.agenda = mine.map (fun k => .dray (drayOfKey k)) ++ s.agenda
          ∧ ∀ k, (k ∉ mine → t.dray k = s.dray k) ∧ (k ∈ mine → (t.dray k).op = some id ∧ (t.dray k).slot = slot
            ∧ (t.dray k).rows = (o.rows.filter fun r => drayOfRow r = k) ∧ (t.dray k).l0 = arg % 65536 ∧ (t.dray k).l1 = arg / 65536
            ∧ (t.dray k).x = (t.dray k).y ∧ (t.dray k).x.row = 0 ∧ (t.dray k).x.col = 0 ∧ (t.dray k).vp = 0
            ∧ (t.dray k).acc = (owned k).acc ∧ (t.dray k).store = (owned k).store ∧ (t.dray k).vb = (owned k).vb
            ∧ (t.dray k).dstat.err = 0))

/-- R120, R262, R265, R266, R268, R271: the steps of the engines. A copy's granule, a Marshal's chunk, a remote store's
unit and then its flag, and an indexed reduce's command are done where their lines are free.
The model's own choices in it: log 41. -/
def Obligations.EngineStepsMoveTheirData : Prop :=
  ∀ (s : State) (id : Nat) (o : Op), s.Canonical → s.op? id = some o → o.complete = false → NoReplay s o → o.gid ≠ 0 →
    let enters := fun (l : LineId) (ofs n res : Nat) => s.accessBefore o (.line l ofs) n true = false ∧ res ≠ deviceRes
    let after := fun (i : Instr) (P : State → Op → Prop) => ∃ t x, exec i s = .next t ∧ t.op? id = some x
      ∧ (∀ k, k ≠ id → t.op? k = s.op? k) ∧ P t x
    (∀ (tm : Team) (d : Desc) (so e1 : Nat) (coord : List Int) (f : Nat → List Byte),
      o.kind = .cpy true d so coord none → o.launched = false → s.team? o.team = some tm →
      let n := d.count
      let w := d.elem
      e1 = min n ((((so + o.pos * w) / 64 + 1) * 64 - so) / w) → o.pos < e1 →
      (∀ e, (f e).length = w) → let h := o.ahead.length / w
      o.ahead.map (·.1) = ((List.range h).flatMap fun i => f (o.pos + i)) →
      (∀ e, o.pos + h ≤ e → e < e1 → let k := d.joined coord e (n - e)
        ElementsAre s o d coord e k ((List.range k).flatMap fun i => f (e + i))) →
      (∀ x, tm.sp (so + o.pos * w) ≤ x → x < tm.sp (so + e1 * w) → spGate s.cores x = false) →
      after (.copyGranuleWritten id []) fun t x => x.pos = e1 ∧ x.complete = decide (e1 = n) ∧ x.status = o.status
        ∧ (∀ e, o.pos ≤ e → e < e1 → ∀ b < w, spByte t.cores (tm.sp (so + e * w) + b) = (f e).getD b 0)
        ∧ ∀ x, ¬ (tm.sp (so + o.pos * w) ≤ x ∧ x < tm.sp (so + e1 * w)) → spByte t.cores x = spByte s.cores x)
    ∧ (∀ (d : Desc) (sc : Option Desc) (dest st e d0 sec : Nat) (c0 c1 : Int) (f : Nat → List Byte),
      o.kind = .mrs d sc dest c0 c1 → o.launched = true → o.got = [] → s.trainBase o dest = .ok st e d0 sec →
      let jj := (marshalRow d sc).2
      let p := marshalElems d sc c0 c1 (o.pos / jj) (o.pos % jj)
      let va := wrapNat (dest + (marshalByte sec d0 jj (o.pos / jj) (o.pos % jj) : Int) - d0) 64
      o.pos + 1 = d.boxOf 1 * jj →
      let n := p.2.2.2.1
      let count := (n + p.1.elem - 1) / p.1.elem
      let h := if o.pos % jj = 0 then 0 else o.ahead.length / p.1.elem
      (∀ b, (f b).length = p.1.elem) → (o.pos % jj ≠ 0 → o.ahead.map (·.1) = (List.range h).flatMap f) →
      (∀ b, h ≤ b → b < count → ElementIs s o p.1 (fun k => if k = 0 then p.2.1 + b else if k = 1 then p.2.2.1 else 0) (f b)) →
      ∀ l ofs cls res y, s.opPlace o va .write = .at (.line l ofs) cls res → cls ≠ some .N → Open s l y → ofs + 32 ≤ 128 →
      enters l ofs 32 res →
      let bs := ((List.range count).flatMap f).take n
      let sector := bs ++ List.replicate (32 - bs.length) 0
      Writable s l ofs sector →
      after (.marshalSectorWrite id) fun t x => x.pos = o.pos + 1 ∧ x.complete = true ∧ x.status = o.status
        ∧ Stored s t l ofs sector)
    ∧ (∀ (dst flag : Nat) (data : List Byte) (tags : List Bool), o.kind = .rst dst flag data tags 1 →
      (∀ l ofs cls res y, o.pos < data.length →
        let a := wrapNat (dst + (o.pos : Int)) 64
        let n := min (data.length - o.pos) (64 - a % 64)
        s.opPlace o a .write = .at (.line l ofs) cls res → cls ≠ some .N → Open s l y → ofs + n ≤ 128 → enters l ofs n res →
        Writable s l ofs ((data.drop o.pos).take n) →
        after (.rstFlagAdd id) fun t x => x.pos = o.pos + n ∧ x.complete = false ∧ x.left = o.left
          ∧ Stored s t l ofs ((data.drop o.pos).take n))
      ∧ ∀ l ofs cls res y, data.length ≤ o.pos → o.left = 0 → o.status = 0 →
        s.opPlace o flag .write = .at (.line l ofs) cls res → Open s l y → ofs + 4 ≤ 128 → enters l ofs 4 res → Writable s l ofs (leBytes 4 0) →
        after (.rstFlagAdd id) fun t x => x.complete = true ∧ x.left = 0 ∧ x.status = 0
          ∧ Stored s t l ofs (leBytes 4 ((leNat ((y.bytes.drop ofs).take 4) + 1) % 2 ^ 32)))
    ∧ (∀ op ac base cmds idx c, o.kind = .redx op ac base cmds → cmds[idx]? = some c → c.done = false →
      let a := wrapNat (base + (4 * c.index : Int)) 64
      (c.itag = true → o.status = 0 → after (.redxCommandApply id idx none) fun t x => x.status = 0x0D ∧ x.addr = a
        ∧ x.left = o.left - 1 ∧ ∀ k, t.homeLine k = s.homeLine k)
      ∧ ∀ l ofs cls res y, c.itag = false → s.redxBefore o cmds base idx a (.line l ofs) = false →
        s.opPlace o a .write = .at (.line l ofs) cls res → Writable s l ofs (leBytes 4 0) → (cls = some .N → c.vtag = false) → Open s l y → ofs + 4 ≤ 128 →
        enters l ofs 4 res → ac ≠ 2 → ac ≠ 3 →
        after (.redxCommandApply id idx none) fun t x => x.left = o.left - 1 ∧ x.status = o.status
          ∧ Stored s t l ofs (leBytes 4 (atomCompute op ac (leNat ((y.bytes.drop ofs).take 4)) c.value)))

/-- R127, R274, R275, R422: a step of a waybill takes the next pointer through its mask; a walk that ends, here, well or
with a step that is not aligned, does not translate, lies in the host window or out of reach, crosses once too often or loads a
poisoned pointer, or from another package, or at 10 ms, writes its result area and completes with its status.
The model's own choices in it: logs 10, 57. -/
def Obligations.WaybillsFollowTheirPointers : Prop :=
  ∀ (s : State) (id : Nat) (o : Op) (tm : Team) (w : Waybill) (area : Nat), s.op? id = some o → o.complete = false →
    o.kind = .wbl w area none → s.team? o.team = some tm → s.cores.Canonical →
    (∀ j < 20, spGate s.cores (tm.sp area + 4 * j) = false) →
    let ends := fun (i : Instr) (r : WalkResult) => ∃ t x, exec i s = .next t ∧ t.op? id = some x ∧ x.complete = true
      ∧ (o.status = 0 → x.status = r.status)
      ∧ (r.status ≠ 0 → o.status = 0 → x.addr = r.addr) ∧ spBytes t.cores (tm.sp area) 80 = resultArea r
      ∧ ∀ y, ¬ (tm.sp area ≤ y ∧ y < tm.sp area + 80) → spByte t.cores y = spByte s.cores y
    let fails := fun st => ends (.waybillHop id) ⟨st, w.step, w.crossings, w.addr, leBytes 8 w.ptr.toNat, []⟩
    let place := s.devPlace (billWalker id) o.core o.pasid w.addr .read (o.ctx = 0)
    let reads := w.last = false ∨ imageField w.image 2 1 = 0
    (o.launched = false → (w.image.getD 0 0).toNat ≤ 8 → NoReplay s o →
      (w.misaligned = true → fails 0x0E)
      ∧ (w.misaligned = false → ∀ st, place = .fail st → st = 0x11 ∧ fails 0x11)
      ∧ (w.misaligned = false → reads →
        (∀ a cls res, place = .at (.host a) cls res → fails 0x03)
        ∧ (∀ n a nc cls res, place = .at (.peer n a nc) cls res → s.reachable n = false → fails 0x04)
        ∧ (∀ n a nc cls res, place = .at (.peer n a nc) cls res → s.reachable n = true → 16 ≤ w.crossings →
          ends (.waybillHop id) ⟨0x10, w.step, w.crossings + 1, w.addr, leBytes 8 w.ptr.toNat, []⟩)
        ∧ ∀ l ofs cls res x, place = .at (.line l ofs) cls res → s.line? l = some x →
          x.bytes.length = 128 → ofs + w.width ≤ 128 →
          let bs := (x.bytes.drop ofs).take w.width
          let clean := ∀ k < w.width, bitOf x.poison ((ofs + k) / 4) = false
          (w.last = false → clean → ∃ t y, exec (.waybillHop id) s = .next t ∧ t.op? id = some y ∧ t.cores = s.cores
              ∧ y.complete = false ∧ y.kind = .wbl { w with
                  ptr := BitVec.ofNat 64 (leNat bs) &&& BitVec.ofNat 64 (imageField w.image (0x48 + 16 * (w.step - 1)) 8)
                  step := w.step + 1 } area none)
          ∧ (w.last = false → ¬ clean → fails 0x12)
          ∧ (w.last = true → clean → w.width ≤ 64 →
              ends (.waybillHop id) ⟨0, 0, w.crossings, w.addr, bs, List.replicate w.width false⟩)))
    ∧ (o.launched = false → 8 < (w.image.getD 0 0).toNat → ends (.waybillHop id) ⟨0x10, 9, 0, 0, leBytes 8 w.start.toNat, []⟩)
    ∧ (∀ r, o.launched = true → ends (.waybillReturn id r) r)
    ∧ (o.issued + 10000000 ≤ s.ltick → ends (.walkTimeout id)
        ⟨0x13, (w.image.getD 1 0).toNat, 0, w.start.toNat, leBytes 8 w.start.toNat, []⟩)
    ∧ (s.ltick < o.issued + 10000000 → exec (.walkTimeout id) s = .next s)

/-! Drays. -/

/-- R286, R289, R290: the commands without a column access change their own state of their dray and go on to the next
slot; DLOOP goes back while its counter is above 1; past slot 63 the run ends with 0x41, after the command's effect; DEND ends it with 0, an
illegal command with 0x40. -/
def Obligations.DrayCommandsWithoutAccess : Prop :=
  ∀ s : State, s.Canonical →
    let key := drayKey s.cur.dray
    let d := s.dray key
    let state := fun (steps : Nat) =>
      if d.bcast && decide (0 < s.stepsLeft (key / 1024)) && (decide (2 ≤ d.free3) || decide (0 < steps)) then 2 else d.dstat.state
    let count := { d with free3 := d.free3 + 1, dstat := { d.dstat with state := state d.waitSteps } }
    let next := { count with slot := d.slot + 1 }
    s.freeTurn key = true →
    (d.slot ≠ 63 →
      (∀ k r l h, DrayRuns (.dsel k r l h) s fun e =>
        let c : Cursor := ⟨r.toNat, l.toNat, l.toNat, h.toNat, false⟩
        e = if k then { next with y := c } else { next with x := c })
      ∧ (∀ (k : Bool) (n : BitVec 16), DrayRuns (.dadv k n) s fun e =>
        let c := if k then d.y else d.x
        let wid := if c.lo ≤ c.hi then c.hi - c.lo + 1 else 1
        let at_ := c.col - c.lo + n.toNat
        let row := c.row + at_ / wid
        let c' : Cursor := if n = 0 then c
          else { c with row := min row 8191, col := c.lo + at_ % wid, beyond := c.beyond || decide (8191 < row) }
        e = if k then { next with y := c' } else { next with x := c' })
      ∧ (∀ v vs, DrayRuns (.dvset v vs) s fun e => e = { next with vp := v.toNat, vsp := vs.toNat })
      ∧ (∀ (k a : Bool) (n : BitVec 16), DrayRuns (.dlset k a n) s fun e =>
        let v := if !a then n.toNat else if d.bcast then 0 else if k then d.arg / 65536 else d.arg % 65536
        e = if k then { next with l1 := v } else { next with l0 := v })
      ∧ (∀ n, DrayRuns (.dwait n) s fun e => 
        e = if d.bcast then { next with waitSteps := n.toNat, dstat := { d.dstat with state := state n.toNat } } else next)
      ∧ (∀ m : BitVec 16, DrayRuns (.dazero m) s fun e => { e with acc := d.acc, latch := d.latch } = next
        ∧ ∀ c < 16, e.accOf c = (if m.getLsbD c then ⟨0, false⟩ else d.accOf c)
          ∧ sget [] e.latch c = if m.getLsbD c then [] else sget [] d.latch c)
      ∧ (DrayRuns .dacvt s fun e =>
        let a := fun i => d.closeAll.accOf i
        { e with acc := d.acc, latch := d.latch, vb := d.vb, vbTag := d.vbTag } = { next with
            vp := (d.vp + 1) % 64
            dstat := { next.dstat with inexact := d.dstat.inexact || (List.range 16).any (latchCut d)
                                       poison := d.dstat.poison || (List.range 16).any fun i => (a i).tag } }
        ∧ e.acc = d.closeAll.acc ∧ (∀ c < 16, sget [] e.latch c = [])
        ∧ vbUnit e d.vp = (List.range 16).flatMap (fun i => leBytes 2 (roundV fBF16 .rn (unpack fF32 (a i).val.toNat)).1)
        ∧ (∀ u, u ≠ d.vp → vbUnit e u = vbUnit d u)
        ∧ ∀ w < 8, sget false e.vbTag (8 * d.vp + w) = ((a (2 * w)).tag || (a (2 * w + 1)).tag)))
    ∧ (∀ (k : Bool) (t : BitVec 6),
        let n := if k then d.l1 else d.l0
        let put := fun (e : Dray) v => if k then { e with l1 := v } else { e with l0 := v }
        (1 < n → DrayRuns (.dloop k t) s fun e => e = put { count with slot := t.toNat } (n - 1))
        ∧ (n ≤ 1 → d.slot ≠ 63 → DrayRuns (.dloop k t) s fun e => e = put next 0)
        ∧ (n ≤ 1 → d.slot = 63 → RunEnds (.dloop k t) s 0x41))
    ∧ (∀ i, (∃ k r l h, i = .dsel k r l h) ∨ (∃ k n, i = .dadv k n) ∨ (∃ v w, i = .dvset v w) ∨ (∃ k a n, i = .dlset k a n)
          ∨ (∃ n, i = .dwait n) ∨ (∃ m, i = .dazero m) ∨ i = .dacvt ∨ (∃ k t, i = .dloop k t ∧ (if k then d.l1 else d.l0) ≤ 1) →
        d.slot = 63 → RunEnds i s 0x41
          ∧ ∃ t, exec i (s.onDray key fun d => { d with slot := 62 }) = .next t ∧ exec i s = .next (t.drayEnd key 0x41))
    ∧ RunEnds .dend s 0 ∧ RunEnds .drayIllegalCommand s 0x40

/-- R68: a block of products that are finite and not all 0 is cut, each product toward zero, 24 binades below the
largest, summed exactly and added with one rounding; INEXACT says that something was cut. -/
def Obligations.BlocksAreCutBelowTheirLargestProduct : Prop :=
  ∀ (c : Nat) (ps : List FVal) (scales : Option (Nat × Nat)) (E : Int),
    (unpack fF32 c).finite = true → (∀ p ∈ ps, p.finite = true) → (∀ a b, scales = some (a, b) → a ≠ 255 ∧ b ≠ 255) →
    (∃ p ∈ ps, (2 : ℚ) ^ E ≤ |p.rat|) → (∀ p ∈ ps, |p.rat| < (2 : ℚ) ^ (E + 1)) →
    let unit : ℚ := (2 : ℚ) ^ (E - 24)
    let cut := fun (p : FVal) => (towardZero (p.rat / unit) : ℚ) * unit
    let scale : ℚ := match scales with
      | some (a, b) => (2 : ℚ) ^ ((a : Int) + b - 254)
      | none => 1
    let q := (unpack fF32 c).rat + (ps.map cut).sum * scale
    let r := blockApply c ps scales
    (r.2 = true ↔ ∃ p ∈ ps, cut p ≠ p.rat)
    ∧ (q ≠ 0 → ∃ (neg : Bool) (m : Nat) (e : Int), (FVal.fin neg m e).rat = q ∧ r.1 = (roundTo fF32 .rn neg m e false).1)
    ∧ (q = 0 → r.1 = 0)

/-- R291 to R296, R302, R304: the column commands, where their rows are open and verified. Each reads its columns,
computes, writes back, moves its cursors and counts its accesses, with what DSTAT gains; the first access to a sector
verifies it; a check that fails, or poison bound for class N,
ends the run with no effect; past slot 63 the run ends after the command; under a broadcast the command waits for its step.
The model's own choices in it: log 47. -/
def Obligations.DrayColumnCommands : Prop :=
  ∀ s : State, s.Canonical →
    let key := drayKey s.cur.dray
    let d := s.dray key
    s.drayRuns key = true →
    let next := fun k => { d with slot := d.slot + 1, granted := false, cc := d.cc + k
                                  waitSteps := if d.bcast then k - 1 else 0
                                  dstat := { d.dstat with state := if d.bcast && decide (1 < k) then 2 else 1 } }
    let X := d.x
    let Y := d.y
    let unit := vbUnit d d.vp
    let unitTags := fun i => sget false d.vbTag (8 * d.vp + i)
    let unitTag := anyWord unitTags
    let goes := fun (i : Instr) => (d.bcast = false ∨ d.granted = true) ∧ d.slot ≠ 63
      ∧ ∃ k use, columnUse i = some (k, use) ∧ d.check (use d) k = none
    let forbids := fun (c : Cursor) (tag : Bool) => tag = true ∧ s.rowCode (d.rowOf c) = .N
    let vp' := (d.vp + 1) % 64
    let stat := fun k (cut tag : Bool) =>
      { (next k).dstat with inexact := d.dstat.inexact || cut, poison := d.dstat.poison || tag }
    (∀ i k use, columnUse i = some (k, use) →
      (d.bcast = true → d.granted = false →
        let left := s.stepsLeft (key / 1024)
        (0 < d.waitSteps → 0 < left → exec i s = .next s)
        ∧ (d.waitSteps = 0 ∨ left = 0 → k ≤ left → DrayRuns i s fun e => e = { d with atStep := true, dstat := { d.dstat with state := 2 } })
        ∧ (d.waitSteps = 0 ∨ left = 0 → left < k → RunEnds i s 0x46))
      ∧ (d.bcast = false ∨ d.granted = true →
        let rows := ∃ c ∈ use d, c.beyond = true ∨ d.rows.length ≤ c.row
        let cols := ∃ c ∈ use d, c.hi < c.lo ∨ 2 * d.sectors ≤ c.hi
        (rows → RunEnds i s 0x42) ∧ (¬ rows → cols → RunEnds i s 0x43)
        ∧ (¬ rows → ¬ cols → 65536 < d.cc + k → RunEnds i s 0x44)))
    ∧ (∀ (c : BitVec 4) bs p, goes (.dmac c) → Column d X bs p →
      let n := c.toNat
      let ws := (List.range 16).map fun i => BitVec.ofNat 32 (half bs i + 65536 * half unit i)
      let h := sget [] d.latch n
      let r := blockApply (d.accOf n).val.toNat ((h ++ ws).map latchProduct) none
      DrayAccesses (.dmac c) s [X] fun e =>
        { e with acc := d.acc, latch := d.latch } = { (next 1).bump false with
            vp := vp', dstat := stat 1 (decide (h ≠ []) && r.2) (anyWord p || unitTag || (decide (h ≠ []) && (d.accOf n).tag)) }
        ∧ (∀ j, j ≠ n → e.accOf j = d.accOf j ∧ sget [] e.latch j = sget [] d.latch j)
        ∧ (e.accOf n).tag = ((d.accOf n).tag || anyWord p || unitTag)
        ∧ (h = [] → (e.accOf n).val = (d.accOf n).val ∧ sget [] e.latch n = ws)
        ∧ (h ≠ [] → sget [] e.latch n = [] ∧ (e.accOf n).val = BitVec.ofNat 32 r.1))
    ∧ (∀ (c : BitVec 4) bs p, goes (.dmacx c) → Column d X bs p →
      let n := c.toNat
      let a := (d.closeLatch n).accOf n
      let sl := fun k => (d.sl.getD ((d.slp + k) % 32) 0).toNat
      let vs := fun k => (sget 0 d.vb ((d.vsp + k) % 2048)).toNat
      let block := fun k x => blockApply x ((List.range 32).map fun i =>
        (mulV (nibble bs (32 * k + i)) (nibble unit (32 * k + i))).1) (some (sl k, vs k))
      let b0 := block 0 a.val.toNat
      let b1 := block 1 (BitVec.ofNat 32 b0.1).toNat
      let t := anyWord p || unitTag || d.slTags.getD (d.slp % 32) false || d.slTags.getD ((d.slp + 1) % 32) false
        || sget false d.vbTag (d.vsp % 2048 / 4) || sget false d.vbTag ((d.vsp + 1) % 2048 / 4)
      DrayAccesses (.dmacx c) s [X] fun e =>
        { e with acc := d.acc, latch := d.latch } = { (next 1).bump false with
            vp := vp', slp := (d.slp + 2) % 32, vsp := (d.vsp + 2) % 2048
            dstat := stat 1 (latchCut d n || b0.2 || b1.2) (t || a.tag) }
        ∧ (∀ j, j ≠ n → e.accOf j = d.accOf j ∧ sget [] e.latch j = sget [] d.latch j)
        ∧ e.accOf n = ⟨BitVec.ofNat 32 b1.1, a.tag || t⟩ ∧ sget [] e.latch n = [])
    ∧ (∀ (n : BitVec 8) bs p, goes (.dscol n) → Column d (X.advance n.toNat) bs p →
      DrayAccesses (.dscol n) s [X.advance n.toNat] fun e => e =
        { next 1 with sl := bs, slTags := (List.range 32).map fun i => p (i / 4), slp := 0, dstat := stat 1 false (anyWord p) })
    ∧ (∀ (k : Bool) bs p, goes (.dvld k) → Column d (if k then Y else X) bs p →
      DrayAccesses (.dvld k) s [if k then Y else X] fun e =>
        { e with vb := d.vb, vbTag := d.vbTag } = { (next 1).bump k with vp := vp', dstat := stat 1 false (anyWord p) }
        ∧ vbUnit e d.vp = bs ∧ (∀ u, u ≠ d.vp → vbUnit e u = vbUnit d u)
        ∧ ∀ w < 8, sget false e.vbTag (8 * d.vp + w) = p w)
    ∧ (∀ (k : Bool) (o : OpenRow), goes (.dvld k) → let c := if k then Y else X
      let n := c.col / 2
      d.openRow? (d.rowOf c) = some o → bitOf o.verified n = false → n < 32 →
      let v := s.peekSector (d.rowOf c) n
      ∃ t x, exec (.dvld k) s = .next t ∧ (t.dray key).openRow? (d.rowOf c) = some x ∧ bitOf x.verified n = true
        ∧ bitOf x.written n = (bitOf o.written n || decide (v.2 = .corrected))
        ∧ (t.dray key).dstat.corr = (if v.2 = .corrected then min 255 (d.dstat.corr + 1) else d.dstat.corr)
        ∧ (v.2.tagged = true → (t.dray key).dstat.poison = true ∧ ∀ w < 8, sget false (t.dray key).vbTag (8 * d.vp + w) = true)
        ∧ vbUnit (t.dray key) d.vp = (v.1.drop (32 * (c.col % 2))).take 32)
    ∧ (∀ (k : Bool) bs p, goes (.dvst k) → Column d (if k then Y else X) bs p →
      let c := if k then Y else X
      (¬ forbids c unitTag → DrayAccesses (.dvst k) s [c] fun e =>
        { e with open_ := d.open_ } = { (next 1).bump k with vp := vp', dstat := stat 1 false unitTag }
        ∧ ColumnWritten d e c (colWrites s d c bs unit) unitTags)
      ∧ (forbids c unitTag → RunEnds (.dvst k) s 0x45))
    ∧ (∀ (f32 toY : Bool) a pa b pb, goes (.dadd f32 toY) → Column d X a pa → Column d Y b pb →
      let c := if toY then Y else X
      let t := if f32 then fF32 else fBF16
      let r := columnOf f32 fun i => (fAddV t .rn (columnElem f32 a i) (columnElem f32 b i)).1
      let tag := fun i => pa i || pb i
      (¬ forbids c (anyWord tag) → DrayAccesses (.dadd f32 toY) s [X, Y, c] fun e =>
        { e with open_ := d.open_ } = { ((next 3).bump false).bump true with dstat := stat 3 false (anyWord tag) }
        ∧ ColumnWritten d e c (colWrites s d c (if toY then b else a) r) tag)
      ∧ (forbids c (anyWord tag) → RunEnds (.dadd f32 toY) s 0x45))
    ∧ (∀ (c : BitVec 4) (f32 ya : Bool) a pa b pb, goes (.dscale c f32 ya) → Column d X a pa →
      (if ya then Column d Y b pb else pb = fun _ => false) →
      let g := d.closeLatch c.toNat
      let f := g.accOf c.toNat
      let fv := unpack fF32 f.val.toNat
      let t := if f32 then fF32 else fBF16
      let tag := fun i => pa i || pb i || f.tag
      let r := columnOf f32 fun i =>
        if ya then (fFmaV t .rn (columnElem f32 a i) fv (columnElem f32 b i)).1 else (fMulV t .rn (columnElem f32 a i) fv).1
      (¬ forbids X (anyWord tag) → DrayAccesses (.dscale c f32 ya) s (if ya then [X, Y, X] else [X, X]) fun e =>
        { e with open_ := d.open_, acc := d.acc, latch := d.latch } =
          (if ya then { ((next 3).bump false).bump true with dstat := stat 3 (latchCut d c.toNat) (anyWord tag) }
           else { (next 2).bump false with dstat := stat 2 (latchCut d c.toNat) (anyWord tag) })
        ∧ e.acc = g.acc ∧ e.latch = g.latch ∧ ColumnWritten d e X (colWrites s d X a r) tag)
      ∧ (forbids X (anyWord tag) → RunEnds (.dscale c f32 ya) s 0x45))
    ∧ (∀ (h : Bool) bs p, goes (.dald h) → Column d X bs p →
      let k := if h then 8 else 0
      DrayAccesses (.dald h) s [X] fun e =>
        { e with acc := d.acc, latch := d.latch } = { (next 1).bump false with
            dstat := stat 1 ((List.range 8).any fun i => latchCut d (k + i))
              (anyWord p || (List.range 8).any fun i => decide (sget [] d.latch (k + i) ≠ []) && (d.accOf (k + i)).tag) }
        ∧ (∀ j, ¬ (k ≤ j ∧ j < k + 8) → e.accOf j = d.accOf j ∧ sget [] e.latch j = sget [] d.latch j)
        ∧ ∀ i < 8, e.accOf (k + i) = ⟨BitVec.ofNat 32 (word32 bs i), p i⟩ ∧ sget [] e.latch (k + i) = [])
    ∧ (∀ (f32 h : Bool) bs p, goes (.dstore f32 h) → Column d X bs p →
      let k := if h then 8 else 0
      let g := if f32 then (List.range 8).foldl (fun d i => d.closeLatch (k + i)) d else d.closeAll
      let tag := fun i => if f32 then (g.accOf (k + i)).tag else (g.accOf (2 * i)).tag || (g.accOf (2 * i + 1)).tag
      let r := columnOf f32 fun i =>
        if f32 then (g.accOf (k + i)).val.toNat else (roundV fBF16 .rn (unpack fF32 (g.accOf i).val.toNat)).1
      (¬ forbids X (anyWord tag) → DrayAccesses (.dstore f32 h) s [X] fun e =>
        { e with open_ := d.open_, acc := d.acc, latch := d.latch } = { (next 1).bump false with
            dstat := stat 1 (if f32 then (List.range 8).any fun i => latchCut d (k + i) else (List.range 16).any (latchCut d)) (anyWord tag) }
        ∧ e.acc = g.acc ∧ e.latch = g.latch ∧ ColumnWritten d e X (colWrites s d X bs r) tag)
      ∧ (forbids X (anyWord tag) → RunEnds (.dstore f32 h) s 0x45))
    ∧ ∀ i k use, columnUse i = some (k, use) → (d.bcast = false ∨ d.granted = true) → d.slot = 63 →
        d.check (use d) k = none → (∀ c ∈ use d, ∃ bs p, Column d c bs p) →
        ∃ t, exec i (s.onDray key fun d => { d with slot := 62 }) = .next t
          ∧ ((t.dray key).op ≠ none → exec i s = .next (t.drayEnd key 0x41))
          ∧ ((t.dray key).op = none → RunEnds i s 0x45)

/-- R301 to R303, R305, R306: a dray opens the row that its command needs, after one that it yielded and while no due request
waits for the bank, yields a bank to a due request by closing its row, whose written sectors then stand in the stack, stops with 0x47 once a row of its run is no longer its own, and makes one
access at each step of a broadcast.
The model's own choices in it: log 47. -/
def Obligations.DraysOpenYieldStopAndStep : Prop :=
  ∀ s : State, s.Canonical →
    let key := drayKey s.cur.dray
    let d := s.dray key
    let due := fun (r : RowId) => ∃ q ∈ s.mem.bankQ, sameBank q.row r = true ∧ (q.express = true ∨ 64 ≤ q.count)
    (∀ r, s.drayRuns key = true → d.rowToOpen = some r → (∀ o ∈ d.open_, o.row.bank ≠ r.bank) →
      (¬ due r → DrayRuns .drayRowOpen s fun e =>
        e = { d with open_ := d.open_ ++ [⟨r, [], 0, 0, 0⟩], reopen := d.reopen.filter (· ≠ r) })
      ∧ (due r → exec .drayRowOpen s = .next s))
    ∧ (∀ r rs, d.reopen = r :: rs → d.rowToOpen = some r)
    ∧ (d.op ≠ none → s.drayRuns key = false → RunEnds .drayStopped s 0x47)
    ∧ ((∀ o ∈ d.open_, o.row.bank = s.cur.bank → ¬ due o.row) → exec .drayBankYield s = .next s)
    ∧ (∀ o, d.open_.find? (fun o => o.row.bank = s.cur.bank) = some o → due o.row →
      s.strong? o.row = none →
      (∀ n < 32, bitOf o.written n = true → n < (s.extent o.row.stack (o.row.row / 32)).cls.sectors) →
      ∃ t, exec .drayBankYield s = .next t
        ∧ t.dray key = { d with open_ := d.open_.filter fun x => x.row ≠ o.row, reopen := d.reopen ++ [o.row] }
        ∧ (∀ k, k ≠ key → t.dray k = s.dray k)
        ∧ { t with mem := { t.mem with raw := s.mem.raw, bankQ := s.mem.bankQ }, drays := s.drays, agenda := s.agenda } = s
        ∧ t.mem.bankQ = (s.mem.bankQ.map fun x => if sameBank x.row o.row then { x with count := 64 } else x)
        ∧ t.agenda = (((s.mem.bankQ.filter fun x => sameBank x.row o.row).map (·.row)).eraseDups.map fun r =>
            Turn.event s.cur (.holdQueueRelease r)) ++ s.agenda
        ∧ (o.written = 0 → t.mem.raw = s.mem.raw)
        ∧ ∀ n < 32, bitOf o.written n = true →
            (t.peekSector o.row n).1 = (List.range 64).map (fun i => sget 0 o.bytes (64 * n + i))
            ∧ ((t.peekSector o.row n).2 = .poison ↔ s.rowCode o.row ≠ .N
                ∧ ∃ i < 16, o.poison.getLsbD (16 * n + i) = true))
    ∧ ∀ (stack : Nat) (o : Op) (left : Nat), sget ⟨0, 0⟩ s.drays.bcast stack = ⟨o.id, left + 1⟩ → s.op? o.id = some o →
      (o.draysIn stack).Nodup → (∀ k ∈ o.draysIn stack, s.settled o.id k = true) →
      let waits := fun k => decide ((s.dray k).op = some o.id) && decide ((s.dray k).waitSteps = 0) && (s.dray k).atStep
      ∃ t, exec (.bcastStep stack) s = .next t ∧ sget ⟨0, 0⟩ t.drays.bcast stack = ⟨o.id, left⟩
        ∧ t.agenda = ((o.draysIn stack).filter waits).map (fun k => .dray (drayOfKey k)) ++ s.agenda
        ∧ ∀ k, t.dray k = if k ∈ o.draysIn stack ∧ (s.dray k).op = some o.id
            then { s.dray k with free3 := 0, waitSteps := (s.dray k).waitSteps - 1, atStep := (s.dray k).atStep && !waits k
                                 granted := waits k
                                 dstat := { (s.dray k).dstat with state := if 1 < (s.dray k).waitSteps ∧ 0 < left then 2 else 1 } }
            else s.dray k

/-! State registers and the supervisor's words. -/

/-- R48, R60, R73, R198, R199, R326: SGET reads the state register that its number names into lane or uniform
registers, untagged; SPUT writes one by its access code, or reseeds every lane (R56); what is turned back, and in which
order.
The model's own choices in it: logs 9, 39, 62, 75. -/
def Obligations.StateRegistersReadAndWrite : Prop :=
  ∀ (o : RForm) (s : State) (g : Group), s.Canonical →
    let n := o.a.toNat
    let d := o.d.toNat
    let act := activeOf g s.cur o.g
    let allowed := StateNumber n ∧ (0x80 ≤ n → g.sup = true) ∧ (CounterNumber n → g.sup = true ∨ g.cntGrant = true)
    let wide := stateWide n
    let key := 4 * g.core + g.side
    let x := if o.ub then rdS g o.b.toNat else rdV g o.b.toNat (lowest act)
    let puts := fun (P : State → Prop) => ∃ t g', exec (.sput o) s = .next t ∧ P t
      ∧ (∀ k, k ≠ s.cur.gid → t.group? k = s.group? k) ∧ t.group? s.cur.gid = some g' ∧ MovesOn s.cur 0 g g'
    let ready := GoesAhead (.sput o) o.g s g ∧ act ≠ 0 ∧ allowed ∧ x.tag = false
    let writables := [0x09, 0x0A, 0x20, 0x21, 0x22, 0x23, 0x24, 0x25, 0x26, 0x27, 0x81, 0x82, 0x83, 0x88]
    (WideNumber n ↔ wide = true)
    ∧ (GoesAhead (.sget o) o.g s g → allowed → RunsTo (.sget o) s fun g' =>
        { g' with v := g.v, s := g.s, lanes := g.lanes } = g ∧ MovesOn s.cur 0 g g'
        ∧ (∀ r, ∀ L < 32, rdV g' r L =
            if o.x = false ∧ active s g o.g L then (landsIn wide d (stateReads s g n L) r).getD (rdV g r L) else rdV g r L)
        ∧ ∀ r, rdS g' r = if o.x = true ∧ act ≠ 0 then (landsIn wide d (stateReads s g n 0) r).getD (rdS g r) else rdS g r)
    ∧ (∀ i : Instr, i = .sget o ∨ i = .sput o → s.group? s.cur.gid = some g → g.trap = none →
        let trap := fun code info => Traps i s g ⟨code, lowest act, info, 0⟩
        (0x80 ≤ n → g.sup = false → trap 0x02 n)
        ∧ ((0x80 ≤ n → g.sup = true) → ¬ StateNumber n → trap 0x01 0)
        ∧ (StateNumber n → CounterNumber n → g.sup = false → g.cntGrant = false → trap 0x02 n)
        ∧ (i = .sput o → allowed →
            n ∉ writables → trap 0x02 n))
    ∧ (GoesAhead (.sput o) o.g s g → act ≠ 0 → allowed → n ∈ writables → x.tag = true → g.trap = none →
        Traps (.sput o) s g ⟨0x07, lowest act, 0, 0⟩)
    ∧ (ready → n = 0x09 → RunsTo (.sput o) s fun g' => MovesOn s.cur 0 g g'
        ∧ { g' with lanes := g.lanes } = { g with fpstat := g.fpstat &&& ~~~(x.val.extractLsb' 0 7) })
    ∧ (ready → n = 0x0A → RunsTo (.sput o) s fun g' => { g' with lanes := g.lanes } = { g with srseed := x.val }
        ∧ ∀ L < 32, g'.lane L =
          let r := x.val ^^^ BitVec.ofNat 32 L * 0x9E3779B9#32
          let ln := { g.lane L with rnd := if r = 0 then 1 else r }
          if bitOf s.cur.lanes L then nextLane s.cur ln else ln)
    ∧ (ready → 0x20 ≤ n → n ≤ 0x27 → puts fun t => { t with groups := s.groups, cores := s.cores } = s
        ∧ { t.cores with sides := s.cores.sides } = s.cores ∧ (∀ k, k ≠ key → t.side k = s.side k)
        ∧ { t.side key with evsel := (s.side key).evsel } = s.side key
        ∧ ∀ k, sget 0 (t.side key).evsel k = if k = n - 0x20 then x.val &&& 0xC00007FF#32 else sget 0 (s.side key).evsel k)
    ∧ (ready → n = 0x81 → puts fun t => { t with groups := s.groups } =
        { s with sup := { s.sup with vecBase := x.val.setWidth 64 &&& 0xFFFFFFFFFFFFFE00#64 } })
    ∧ (ready → n = 0x82 → puts fun t => { t with groups := s.groups } =
        { s with sup := { s.sup with trapQ := x.val.setWidth 64 &&& 0xFFFFFFFFFFFC0000#64 } })
    ∧ (ready → n = 0x83 → puts fun t => { t with groups := s.groups, agenda := s.agenda, mem := s.mem } =
          { s with sup := { s.sup with ctxTab := x.val.setWidth 64 &&& 0xFFFFFFFFFFFFFF00#64 } }
        ∧ { t.mem with watch := s.mem.watch } = s.mem)
    ∧ (ready → n = 0x88 → puts fun t => { t with groups := s.groups } =
        { s with mem := { s.mem with dquota := x.val &&& 0xFFFFF#32 } })

/-- R324, R332 to R334, R342, R354, R408: the words of a handler. A task that issues one traps; ERET and EXIT end the
handler; FAULTACK acknowledges a record and acts on its group; DBGSTEP, PREEMPT, KILL, RESUME and TLBINV.
The model's own choices in it: logs 26, 30, 44. -/
def Obligations.SystemWordsActForTheSupervisor : Prop :=
  ∀ (s : State) (g : Group), s.Canonical →
    (∀ (i : Instr) (gd : Guard), supervisorWord i = some gd → s.group? s.cur.gid = some g → g.sup = false → g.trap = none →
      Traps i s g ⟨0x02, lowest (activeOf g s.cur gd), 0, 0⟩)
    ∧ ∀ o : RForm,
      let act := activeOf g s.cur o.g
      let a := uniPair g o.a
      let clean := fun (i : Instr) => ∀ n, RegName.s n ∈ i.reads → (rdS g n).tag = false
      let ok := fun (i : Instr) => GoesAhead i o.g s g ∧ act ≠ 0 ∧ g.sup = true ∧ clean i
      let trap := fun (i : Instr) code info => g.trap = none → Traps i s g ⟨code, lowest act, info, 0⟩
      let acks := [(Instr.faultackRetry o, 0), (.faultackSkip o, 1), (.faultackRegion o, 2), (.faultackKill o, 3), (.faultackHold o, 4)]
      (∀ i, i ∈ acks.map (·.1) ∨ i = .dbgstep o ∨ i = .tlbinv o → GoesAhead i o.g s g → g.sup = true → ¬ clean i → trap i 0x07 0)
      ∧ (ok (.eret o) → ∃ t g', exec (.eret o) s = .next t ∧ t.group? s.cur.gid = some g' ∧ g'.ended = true
          ∧ (∀ L < 32, (g'.lane L).exited = true) ∧ ∀ r ∈ t.sup.recs, r.handler = some g.grid → r.hold = true)
      ∧ (ok (.exit o) → ok (.eret o) → exec (.exit o) s = exec (.eret o) s)
      ∧ (∀ i d, (i, d) ∈ acks → ok i →
        ((∀ r ∈ s.sup.recs, r.addr ≠ a) → trap i 0x13 1)
        ∧ ∀ r, s.rec? a = some r →
          (4 < uniN g o.b ∨ (r.gid = none ∧ d ≠ 0 ∧ d ≠ 3) → trap i 0x13 2)
          ∧ (uniN g o.b ≤ 4 → (r.gid = none → d = 0 ∨ d = 3) →
            let steps := ∃ x, r.gid = some x.gid ∧ s.group? x.gid = some x ∧ x.stepFrame ≠ none
            (s.allPerformed g act .d = false ∨ steps → exec i s = .next s)
            ∧ (s.allPerformed g act .d = true → ¬ steps → ∃ t, exec i s = .next t
              ∧ (if d = 4 then ∃ q ∈ t.sup.recs, q.addr = a ∧ q.hold = true else ∀ q ∈ t.sup.recs, q.addr ≠ a)
              ∧ (∀ q ∈ s.sup.recs, q.addr ≠ a → r.twin ≠ some q.addr → q ∈ t.sup.recs)
              ∧ (d = 3 → r.gid = none → ∀ e ∈ s.disp.grids, e.ctx = r.ctx → e.parent = none → e.sup = none → Killed s t e.id)
              ∧ ∀ x f c, r.gid = some x.gid → s.group? x.gid = some x → x.gid ≠ g.gid → x.halt = .framed c →
                x.frame = some f → x.ended = false →
                let m0 := ((s.clearMarks g.gid .d).go 0).devPut (a + 0x38) 1 d
                let m := ((r.twin.map fun b => m0.devPut (b + 0x38) 1 d).getD m0).devTouch (f + 0x100) 1024
                let onlyIt := (∀ k, k ≠ s.cur.gid → k ≠ x.gid → t.group? k = s.group? k)
                  ∧ ∃ g', t.group? s.cur.gid = some g' ∧ OnlyLanes g g' ∧ MovesOn s.cur 0 g g'
                (d = 0 → onlyIt ∧ Resumes s t m x f)
                ∧ (d = 1 → onlyIt ∧ Resumes s t
                    (if r.code = 0x16 ∨ r.code = 0x17 ∨ r.code = 0x18 ∨ r.code = 0x1B then m
                     else m.editLanes f fun ln => if ln.pc = r.pc ∧ ln.exited = false then { ln with pc := ln.pc + 8 } else ln) x f)
                ∧ (d = 2 →
                  let run := ((List.range 32).map (m.loadLane f)).filter fun ln => !ln.exited
                  if x.kclass = 0 ∨ (∃ ln ∈ run, ln.inRegion = false ∨ 16 ≤ x.restartsAt ln.region) then
                    ∀ root, s.rootOf x.gid = some root → Killed s t root
                  else onlyIt
                    ∧ Resumes s t (m.editLanes f fun ln => if ln.exited then ln else { ln with pc := ln.region, k := 0 }) x f
                    ∧ ∀ y, t.group? x.gid = some y → ∀ e, y.restartsAt e = x.restartsAt e + if ∃ ln ∈ run, ln.region = e then 1 else 0)
                ∧ (d = 3 → ∀ root, s.rootOf x.gid = some root → Killed s t root)
                ∧ (d = 4 → onlyIt ∧ ∃ y, t.group? x.gid = some y ∧ y.hold = true ∧ y.halt = .framed c ∧ y.frame = some f
                    ∧ (r.code = 0x0B ∨ r.code = 0x0C → y.parked = true)))))
      ∧ (ok (.dbgstep o) →
        let held := fun (x : Group) => (x.frame = some a ∨ x.stepFrame = some a) ∧ x.hold = true ∧ x.ended = false
        let notes := fun (info : Nat) => ∃ t g', exec (.dbgstep o) s = .next t ∧ t.group? s.cur.gid = some g'
          ∧ t.mem = (s.devPut (a + 0x18) 8 (0x1A * 2 ^ 59 + info)).mem ∧ OnlyLanes g g' ∧ MovesOn s.cur 0 g g'
        ((∀ x ∈ s.groups, ¬ held x) → trap (.dbgstep o) 0x13 1)
        ∧ ∀ x, s.heldFrame a = some x → s.group? x.gid = some x → x.gid ≠ g.gid →
            (x.stepFrame ≠ none → exec (.dbgstep o) s = .next s) ∧ (x.stepFrame = none →
            let runs := ∃ tm, s.team? x.team = some tm ∧ tm.state = .running
            let ready := fun L => (s.loadLane a L).exited = false ∧ bitOf (BitVec.ofNat 32 (s.devNat (a + 0x2C) 4)) L = false
            (¬ runs → notes 2)
            ∧ (runs → (∀ L < 32, ¬ ready L) → notes 1)
            ∧ (runs → (∃ L < 32, ready L) → x.returns ≠ [] → exec (.dbgstep o) s = .next s)
            ∧ (runs → (∃ L < 32, ready L) → x.returns = [] → ∃ t g' y, exec (.dbgstep o) s = .next t
              ∧ { t with groups := s.groups } = s ∧ t.group? s.cur.gid = some g' ∧ t.group? x.gid = some y
              ∧ y.halt = .halting .step ∧ y.stepFrame = some a ∧ y.hold = true
              ∧ (∀ L < 32, y.lane L = { s.loadLane a L with wait := .none, passed := 0, polls := 0 })
              ∧ OnlyLanes g g' ∧ ∀ L < 32, g'.lane L = if bitOf s.cur.lanes L then { g.lane L with wait := .step a } else g.lane L)))
      ∧ (ok (.preempt o) →
        let core := uniN g o.a
        let asked := fun (tm : Team) => tm.core = core ∧ (tm.state = .clearing ∨ tm.state = .running)
        (255 < core → trap (.preempt o) 0x13 1)
        ∧ (core ≤ 255 → ∃ t, exec (.preempt o) s = .next t
          ∧ { t with groups := s.groups, teams := s.teams, disp := s.disp, sup := s.sup } = s
          ∧ (∀ k tm, s.team? k = some tm → asked tm → ∃ tm', t.team? k = some tm' ∧ tm'.state = .framing ∧ tm'.waitFor = none)
          ∧ (∀ k x, s.group? k = some x → ∃ y, t.group? k = some y ∧
              if (∃ tm ∈ s.teams, tm.id = x.team ∧ asked tm) ∧ x.ended = false ∧ x.halt = .running then
                y.halt = (if x.j + x.m = 0 then .halting .preempt else .window (s.ltick + 4000)) else y.halt = x.halt)
          ∧ (∃ g', t.group? s.cur.gid = some g' ∧ MovesOn s.cur 0 g g')
          ∧ if ∃ tm ∈ s.teams, asked tm ∨ (tm.core = core ∧ tm.state = .framing) then
              t.sup = s.sup ∧ t.disp = { s.disp with supPreempts := s.disp.supPreempts ++ [core] }
            else core ∉ s.disp.supPreempts → (∀ x ∈ s.disp.preempts, x.1 ≠ core) →
              t.sup = { s.sup with haltCnt := s.sup.haltCnt + 1 } ∧ t.disp = s.disp))
      ∧ (ok (.kill o) → ∃ t, exec (.kill o) s = .next t ∧
          ∀ e ∈ s.disp.grids, e.ctx = uniN g o.a → e.parent = none → e.sup = none → Killed s t e.id)
      ∧ (ok (.resume o) → RunsTo' (.resume o) s g fun t g' => OnlyLanes g g' ∧ MovesOn s.cur 0 g g' ∧
          ∀ k tm, s.team? k = some tm → t.team? k = some (if tm.frame = some a then { tm with waitFor := none } else tm))
      ∧ (ok (.tlbinv o) →
        let p := uniN g o.c
        let all := p = 0xFFFFFFFF
        let len := uniN g o.b
        let hits := fun (q at_ n : Nat) => (all ∨ q = p) ∧ (len = 0 ∨ (at_ < a + len ∧ a < at_ + n))
        let of_ := fun (r : Req) q => (r.gid = 0 ∧ r.reg = q + 1) ∨ (r.gid ≠ 0 ∧ ∃ x, s.group? r.gid = some x ∧ x.pasid = q)
        let used := fun (r : Req) => ∃ q, of_ r q ∧ (hits q r.va r.size ∨ ((all ∨ q = p) ∧ r.noFill = true))
        let goes := fun (f : FabReq) => f.work.parts = true ∧ (hits f.pasid f.at_.va 128 ∨ ((all ∨ f.pasid = p) ∧ f.dropped = true))
        let waits := (∃ r ∈ s.eng.reqs, used r ∧ r.accepted = false) ∨ ∃ f ∈ s.fab.out, goes f
        let named := if all then none else some p
        let may := (∀ w ∈ s.xl.walks, ¬ (all ∨ w.pasid = p)) ∧ s.allPerformed g act .h = true
        (0xFFFFF < p → ¬ all → trap (.tlbinv o) 0x13 3)
        ∧ (p ≤ 0xFFFFF ∨ all → ¬ may → exec (.tlbinv o) s = .next s)
        ∧ (p ≤ 0xFFFFF ∨ all → may → ∃ t g', exec (.tlbinv o) s = .next t
          ∧ { t with groups := s.groups, xl := s.xl, mem := s.mem, eng := s.eng, fab := s.fab } = s
          ∧ { t.xl with tlb := s.xl.tlb, upper := s.xl.upper } = s.xl ∧ { t.eng with reqs := s.eng.reqs } = s.eng
          ∧ { t.fab with out := s.fab.out } = s.fab ∧ t.fab.out.length = s.fab.out.length
          ∧ (∀ (i : Nat) (f : FabReq), s.fab.out[i]? = some f → ∃ b, t.fab.out[i]? = some { f with dropped := b } ∧ (b = true ↔
              f.dropped = true ∨ hits f.pasid f.at_.va 128))
          ∧ { t.mem with l1 := s.mem.l1, ic := s.mem.ic, prefetches := s.mem.prefetches } = (s.clearMarks g.gid .h).mem
          ∧ t.eng.reqs.length = s.eng.reqs.length
          ∧ (∀ (i : Nat) (r : Req), s.eng.reqs[i]? = some r → ∃ n, t.eng.reqs[i]? = some { r with noFill := n } ∧ (n = true ↔
              r.noFill = true ∨ ∃ q, of_ r q ∧ hits q r.va r.size))
          ∧ (∀ e, e ∈ t.xl.tlb ↔ e ∈ s.xl.tlb ∧ ¬ hits e.pasid e.va e.size)
          ∧ (∀ e, e ∈ t.xl.upper ↔ e ∈ s.xl.upper ∧ ¬ (all ∨ e.pasid = p))
          ∧ (∀ e, e ∈ t.mem.l1 ↔ e ∈ s.mem.l1 ∧ ¬ hits e.pasid (128 * e.vline) 128)
          ∧ (∀ e, e ∈ t.mem.prefetches ↔ e ∈ s.mem.prefetches ∧ ¬ hits e.pasid (128 * e.vline) 128)
          ∧ (∀ e ∈ t.mem.ic, e ∈ s.mem.ic ∧ ¬ hits e.pasid (128 * e.vline) 128)
          ∧ t.group? s.cur.gid = some g' ∧ OnlyLanes g g'
          ∧ (¬ waits → MovesOn s.cur 0 g g')
          ∧ (waits → ∀ L < 32, g'.lane L =
              if bitOf s.cur.lanes L then waitingLane s.cur (g.lane L) (.drop s.nextId named) else g.lane L)))

/-- R44, R335, R336, R338, R339: GROUP_HALT puts a group before its waiting words; GROUP_FRAME_WRITE and
TEAM_FRAME_WRITE write every field of a frame into the lowest run of free pages; without one the group waits and one
record says so; FRAME_RETRY tries again.
The model's own choices in it: logs 27, 39, 44, 58, 60. -/
def Obligations.FramesHoldGroupsAndTeams : Prop :=
  ∀ (s : State), s.Canonical →
    (∀ (g : Group) (c : HaltCause), s.group? s.cur.gid = some g → g.halt = .halting c →
      let calm := (∀ L < 32, (g.lane L).exited = false → (g.lane L).wait ≠ .lock ∧ (g.lane L).wait ≠ .unlock)
        ∧ (∀ r ∈ s.eng.reqs, r.gid = g.gid → r.kind ≠ .lock ∧ r.kind ≠ .unlock ∧ ∀ a b c, r.kind ≠ .drain a b c)
        ∧ (∀ o ∈ s.eng.ops, o.gid = g.gid → o.cls ≠ .M)
        ∧ (c = .step → g.trap.isSome = true) ∧ ∀ o ∈ g.outrider, ∀ q ∈ o.queue, q.done = false
      (¬ calm → exec .groupHalt s = .next s)
      ∧ (calm → ∃ t y, exec .groupHalt s = .next t ∧ t.group? g.gid = some y
        ∧ { t with groups := s.groups, teams := s.teams, eng := s.eng } = s ∧ t.eng.ops = s.eng.ops
        ∧ (∀ r, r ∈ t.eng.reqs ↔ r ∈ s.eng.reqs ∧ ¬ (r.gid = g.gid ∧ r.kind = .poll))
        ∧ (∀ tm ∈ t.teams, tm.id = g.team → ∀ q ∈ tm.acqQ, q.gid ≠ g.gid)
        ∧ (∀ k, k ≠ g.gid → t.group? k = s.group? k)
        ∧ { y with halt := g.halt, haltedAt := g.haltedAt, barriers := g.barriers, atBarrier := g.atBarrier, lanes := g.lanes
                   stash := g.stash, outrider := g.outrider, trap := g.trap, faultInfo := g.faultInfo } = g
        ∧ y.stash = [] ∧ y.outrider = g.outrider.map (fun o => { o with queue := [] })
        ∧ (let late : TrapInfo → Prop := fun ti => g.stepFrame ≠ none ∧ ti.code = 0x1A ∧ ti.info = 1 ∧ ∀ L < 32,
              (y.lane L).exited = true ∨ bitOf g.dbgHalt L = true ∨ (y.lane L).pc ≠ ti.pc ∨ ((y.lane L).cnt = 0 ∧ (y.lane L).k ≠ 0)
           (∀ ti, g.trap = some ti → late ti → y.trap = some { ti with info := 0 }
              ∧ y.faultInfo = BitVec.ofNat 5 0x1A ++ BitVec.ofNat 5 ti.lane ++ 0#54)
           ∧ ((∀ ti, g.trap = some ti → ¬ late ti) → y.trap = g.trap ∧ y.faultInfo = g.faultInfo))
        ∧ y.halt = .halted c ∧ y.haltedAt = s.ltick ∧ y.atBarrier = false
        ∧ y.barriers = (if g.atBarrier then g.barriers - 1 else g.barriers)
        ∧ ∀ L < 32, y.lane L = { g.lane L with
            wait := .none
            pc := match (g.lane L).wait with
              | .yield u => if (s.side (4 * g.core + g.side)).cycle < u then (g.lane L).pc - 8 else (g.lane L).pc
              | _ => (g.lane L).pc }))
    ∧ (∀ (g : Group) (c : HaltCause) (d : Grid) (live : List (Option (Nat × Nat))),
      s.group? s.cur.gid = some g → g.halt = .halted c → s.grid? g.grid = some d →
      s.liveLanes g d.kernel (List.range 32) = .ok live → (∀ L < 32, ∀ f, (g.lane L).wait ≠ .step f) →
      let rets := s.returnsOf g
      let pages := (groupFrameLen g rets.length + 4095) / 4096
      let due := fun (r : Req) => r.gid = g.gid ∧ r.returns.1 ≠ 0 ∧ (r.returns.2 = true ∨
        (g.regGen r.reg = r.gen ∧ ∀ i < (r.returns.1 + 3) / 4, regHeld g (.v (r.reg + i)) = true))
      (∀ r ∈ s.eng.reqs, due r → r.lane < 32 → ∃ e ∈ rets, e.req = r.seq ∧ bitOf e.mask r.lane = true)
      ∧ (∀ e ∈ rets, ∃ r ∈ s.eng.reqs, due r ∧ e.req = r.seq ∧ e.reg = r.reg ∧ e.width = r.returns.1 ∧ e.uni = r.returns.2)
      ∧ (∀ a, (match g.stepFrame with
          | some f => a = f
          | none => ∃ p, LowestRun (s.ctx g.ctx) pages p ∧ a = (s.ctx g.ctx).frameArea + 4096 * p) →
        Laid s a (groupFrameLen g rets.length) →
        let rec_ := if s.eng.ops.any (fun o => o.gid = g.gid) then some a else none
        ∃ t y, exec .groupFrameWrite s = .next t ∧ t.group? g.gid = some y
        ∧ { y with halt := g.halt, frame := g.frame, returns := g.returns, dead := g.dead, frameWait := g.frameWait
                   pend := g.pend, counterRec := g.counterRec } = g
        ∧ y.halt = .framed c ∧ y.frame = some a ∧ y.returns = rets ∧ y.frameWait = false ∧ y.pend = [] ∧ y.counterRec = rec_
        ∧ (∀ n < 64 + 32 * g.h, ∀ L < 32, bitOf (sget 0 y.dead n) L =
            ((match live[L]? with
              | some (some (base, blocks)) => if n < 64 then !natBit base n else !natBit blocks ((n - 64) / 32)
              | _ => false)
            && !rets.any fun e => !e.uni && bitOf e.mask L && decide (e.reg ≤ n) && decide (n < e.reg + (e.width + 3) / 4)))
        ∧ HoldsFields t a (groupFields g y.dead rets (rec_.getD 0))
        ∧ (∀ o ∈ t.eng.ops, o.gid = g.gid → o.moved = true)
        ∧ (g.stepFrame = none → (t.ctx g.ctx).frames = (s.ctx g.ctx).frames ++ [((a - (s.ctx g.ctx).frameArea) / 4096, pages)]))
      ∧ (g.stepFrame = none → (∀ p, ¬ FreeRun (s.ctx g.ctx) pages p) → ∃ t y, exec .groupFrameWrite s = .next t
        ∧ { t with groups := s.groups, sup := s.sup } = s ∧ t.group? g.gid = some y ∧ y = { g with frameWait := true }
        ∧ t.sup = (if g.frameWait then s.sup
            else { s.sup with waiting := s.sup.waiting ++ [(⟨0x19, 0, 0, 0, 0, s.ltick⟩, none, g.ctx)] }))
      ∧ (s.groups.filter (fun x => x.ctx = g.ctx && x.frameWait && !x.ended) = [g] →
          (∀ tm ∈ s.teams, tm.frameWait = false) →
          ∃ t, exec (.frameRetry g.ctx) s = .next t ∧ exec .groupFrameWrite s = .next t))
    ∧ ∀ (tm : Team) (d : Grid), s.team? s.cur.team = some tm → s.grid? tm.grid = some d →
      let ready := tm.state = .framing
        ∧ (∀ k ∈ tm.groups, ∀ g, s.group? k = some g → g.ended = true ∨ ∃ c, g.halt = .framed c)
        ∧ ∀ o ∈ s.eng.ops, o.team = tm.id → o.onScratch = false
      let len := 4416 + tm.spSize + tm.spSize / 16
      let pages := (len + 4095) / 4096
      (¬ ready → exec .teamFrameWrite s = .next s)
      ∧ (ready → ∀ p, LowestRun (s.ctx d.ctx) pages p → let a := (s.ctx d.ctx).frameArea + 4096 * p
        Laid s a len → tm.groups.length ≤ 16 → tm.spSize % 16 = 0 →
        ∃ t y, exec .teamFrameWrite s = .next t ∧ t.team? tm.id = some y ∧ y.state = .framed ∧ y.frame = some a
        ∧ y.since = s.ltick ∧ y.acqQ = [] ∧ y.frameWait = false ∧ t.groups = s.groups ∧ t.cores = s.cores
        ∧ HoldsFields t a (teamFields s tm)
        ∧ (t.ctx d.ctx).frames = (s.ctx d.ctx).frames ++ [(p, pages)]
        ∧ ((∀ x ∈ s.teams, x.core = tm.core → x.id = tm.id ∨ x.state ≠ .framing) →
            let n := (s.disp.supPreempts.countP (· = tm.core)) + s.disp.preempts.countP fun x => x.1 = tm.core
            t.sup = { s.sup with haltCnt := s.sup.haltCnt + BitVec.ofNat 32 n }))
      ∧ (ready → (∀ p, ¬ FreeRun (s.ctx d.ctx) pages p) → tm.frameWait = false →
        ∃ t, exec .teamFrameWrite s = .next t ∧ { t with teams := s.teams } =
            { s with sup := { s.sup with waiting := s.sup.waiting ++ [(⟨0x19, 0, 0, 0, 0, s.ltick⟩, none, d.ctx)] } }
          ∧ t.team? tm.id = some { tm with frameWait := true })
      ∧ ((∀ x ∈ s.groups, x.frameWait = false) → s.teams.filter (fun x => x.frameWait) = [tm] →
          ∃ t, exec (.frameRetry d.ctx) s = .next t ∧ exec .teamFrameWrite s = .next t)

/-- R327, R328, R330, R331, R342, R360: TRAP_DELIVERY and TRAP_RECORD_POST write a record into the next free entry of
the queue and place the vector's handler, or take the default disposition; the lowest pending imprecise code is raised
at a boundary; a group that stays on the pager for 20 µs has its team framed.
The model's own choices in it: logs 17, 21, 44, 61. -/
def Obligations.TrapsReachTheirHandlers : Prop :=
  ∀ (s : State), s.Canonical →
    let full := ∀ n < 4096, ∃ r ∈ s.sup.recs, r.addr = s.sup.trapQ.toNat + 64 * n
    let looked := fun (code : Nat) => s.devTouch (s.sup.vecBase.toNat + 16 * code) 16
    let readable := fun (s : State) (code : Nat) (k : Kernel) => vectorValid s code = true
      ∧ s.readKernel 0 (s.ctx 0).pasid (vectorKernel s code) true = .ok k
    (∀ (g : Group) (c : HaltCause) (ti : TrapInfo), s.group? s.cur.gid = some g → g.halt = .framed c → g.trap = some ti →
      (full → (vectorValid s ti.code = false ∨ (∃ k, readable s ti.code k) ∨ g.stepFrame.isSome) → exec .trapDelivery s = .next s)
      ∧ ∀ a, NextEntry s a →
        (g.stepFrame = none → Laid (looked ti.code) a 64 → ∀ k, readable (looked ti.code) ti.code k → ∃ t y, exec .trapDelivery s = .next t
          ∧ HoldsFields t a (recordFields s ti (some g) g.ctx 0xFF) ∧ HandlerPlaced s t a ti.code g.ctx k
          ∧ t.sup.trapNext = ((a - s.sup.trapQ.toNat) / 64 + 1) % 4096
          ∧ (∀ q, q ∈ s.sup.recs → q ∈ t.sup.recs) ∧ t.sup.recs.length = s.sup.recs.length + 1
          ∧ (∀ q ∈ t.sup.recs, q.addr = a → q.gid = some g.gid ∧ q.code = ti.code ∧ q.hold = false ∧ q.pc = ti.pc)
          ∧ (∀ j, j ≠ g.gid → t.group? j = s.group? j) ∧ t.group? g.gid = some y ∧ y = { g with trap := none })
        ∧ (g.stepFrame = none → Laid (looked ti.code) a 64 → vectorValid (looked ti.code) ti.code = false →
          ∀ f r u, g.frame = some f → (looked ti.code).writeRecord ti (some g) g.ctx = some (r, u) → ∃ t, exec .trapDelivery s = .next t ∧
          let inside := g.kclass ≠ 0 ∧ ∀ L < 32, (u.loadLane f L).exited = false → (u.loadLane f L).inRegion = true
          let dd := match ti.code with
            | 0x15 => if (s.ctx g.ctx).brkHold then 4 else 3
            | 0x19 | 0x1A => 4
            | 0x07 | 0x08 | 0x1B => if inside then 2 else 3
            | _ => 3
          (dd = 3 → (∀ q ∈ t.sup.recs, q.addr ≠ a) ∧ ∀ root, s.rootOf g.gid = some root → Killed s t root)
          ∧ (dd = 4 → (Laid u (f + 0x100) 1024 → HoldsFields t a (recordFields s ti (some g) g.ctx 4))
              ∧ (∃ q ∈ t.sup.recs, q.addr = a ∧ q.hold = true ∧ q.gid = some g.gid ∧ q.handler = none)
              ∧ ∃ y, t.group? g.gid = some y ∧ y.hold = true ∧ y.halt = .framed c ∧ y.frame = g.frame ∧ y.trap = none)
          ∧ (dd = 2 → ∀ q ∈ t.sup.recs, q.addr ≠ a))
        ∧ (g.stepFrame.isSome = true → Laid s a 64 → ∃ t y, exec .trapDelivery s = .next t
          ∧ HoldsFields t a (recordFields s ti (some g) g.ctx 4) ∧ t.disp = s.disp
          ∧ (∃ q ∈ t.sup.recs, q.addr = a ∧ q.hold = true ∧ q.gid = some g.gid ∧ q.handler = none)
          ∧ t.group? g.gid = some y ∧ y = { g with trap := none, stepFrame := none, hold := true }))
    ∧ (s.sup.waiting = [] → exec .trapRecordPost s = .next s)
    ∧ (∀ (ti : TrapInfo) (ctx : Nat) (rest : List (TrapInfo × Option Nat × Nat)), s.sup.waiting = (ti, none, ctx) :: rest →
      ∀ a k, NextEntry s a → Laid (looked ti.code) a 64 → readable (looked ti.code) ti.code k → ∃ t, exec .trapRecordPost s = .next t ∧ t.groups = s.groups
        ∧ t.sup.waiting = rest ∧ HoldsFields t a (recordFields s ti none ctx 0xFF) ∧ HandlerPlaced s t a ti.code ctx k)
    ∧ (∀ (ti : TrapInfo) (g : Group) (h : TrapRec) (rest : List (TrapInfo × Option Nat × Nat)),
      s.sup.waiting = (ti, some g.gid, g.ctx) :: rest → s.group? g.gid = some g →
      s.sup.recs.find? (fun r => r.gid = some g.gid && r.hold) = some h → s.rec? h.addr = some h →
      ∀ a k, NextEntry s a → Laid (looked ti.code) a 64 → readable (looked ti.code) ti.code k → ∃ t p q, exec .trapRecordPost s = .next t ∧ t.groups = s.groups
        ∧ t.sup.waiting = rest ∧ HoldsFields t a (recordFields s ti (some g) g.ctx 0xFF) ∧ HandlerPlaced s t a ti.code g.ctx k
        ∧ t.rec? a = some p ∧ p.twin = some h.addr ∧ t.rec? h.addr = some q ∧ q.twin = some a)
    ∧ (∀ (g : Group) (code : Nat), s.group? g.gid = some g → code < 32 →
      let may := (g.halt = .running ∨ ∃ n, g.halt = .window n) ∧ g.ended = false ∧ bitOf g.imprecise code = true
        ∧ ∀ c < code, bitOf g.imprecise c = false
      (¬ may → exec (.impreciseTrapTaken g.gid code) s = .next s)
      ∧ (may → g.trap = none → ∀ L < 32, (g.lane L).exited = false →
        (∀ K < L, (g.lane K).exited = false → (g.lane K).pc ≠ (g.lane L).pc) →
        (∀ K < 32, (g.lane K).exited = false → (g.lane K).pc ≠ (g.lane L).pc → pathBefore g (g.lane L).pc (g.lane K).pc) →
        let info := sget 0 g.impInfo code
        ∃ t y, exec (.impreciseTrapTaken g.gid code) s = .next t
          ∧ { t with groups := s.groups, cores := s.cores } = s ∧ { t.cores with sides := s.cores.sides } = s.cores
          ∧ (∀ k, k ≠ g.gid → t.group? k = s.group? k) ∧ t.group? g.gid = some y
          ∧ { y with impInfo := g.impInfo } =
            { g.trapped ⟨code, L, info % 2 ^ 54, info⟩ (g.lane L).pc s.ltick with imprecise := g.imprecise &&& ~~~(1#32 <<< code) }
          ∧ ∀ c, sget 0 y.impInfo c = if c = code then 0 else sget 0 g.impInfo c))
    ∧ ∀ (g : Group) (tm : Team), s.group? s.cur.gid = some g → s.team? g.team = some tm →
      let late := g.ended = false ∧ (g.parked = true ∨ g.halt = .halting .page ∨ g.halt = .halted .page ∨ g.halt = .framed .page)
        ∧ g.frame.isSome = true ∧ g.haltedAt + 20000 ≤ s.ltick ∧ tm.state = .running
        ∧ ∀ x ∈ s.disp.preempts, x.1 / 64 ≠ tm.core / 64
      (¬ late → exec .pageWaitReframe s = .next s)
      ∧ (late → ∃ t, exec .pageWaitReframe s = .next t
        ∧ { t with groups := s.groups, teams := s.teams } =
            { s with disp := { s.disp with preempts := s.disp.preempts ++ [(tm.core, tm.grid, tm.teamId)] } }
        ∧ t.team? tm.id = some { tm with state := .framing, waitFor := none }
        ∧ ∀ k x, s.group? k = some x → t.group? k = some (if x.team = tm.id ∧ x.ended = false ∧ x.halt = .running then
            { x with halt := if x.j + x.m = 0 then .halting .preempt else .window (s.ltick + 4000) } else x))

/-! Translation. -/

/-- R345, R346, R348 to R353, R358, R359, R361, R427: what a walk fills the TLB with is what its leaf entry says, and
allows the access; a walk that faults becomes a page request, or the trap or the status; the host's answers; and
invalidations by the host.
The model's own choices in it: logs 31, 46, 54. -/
def Obligations.WalksFillWhatTheirLeavesAllow : Prop :=
  ∀ (s : State), s.Canonical →
    (∀ (w : Walk) (c : Bool) (host : List (BitVec 64)) (e : TlbEntry) (u : State), Sound s → s.walk w c host = (.fill e, u) →
      ∃ en pf x n table base, s.pasidEntry w.pasid = some en ∧ s.xl.tb.profiles[en.profile]? = some pf
        ∧ (n ∈ if pf.granule = 0 then [12, 21, 30] else [16])
        ∧ s.xl.tb.devaddr table = some base
        ∧ (let b := if pf.granule = 0 then 9 else 13
           let cover := min ((if pf.granule = 0 then 12 else 16) + b * pf.levels) 57
           let idx := natBits w.va (min (n + b) cover - 1) n
           (∃ a, s.window (base + 8 * idx) = .local_ a ∧ x = s.devNat a 8)
            ∨ (∃ y ∈ host, x = y.toNat) ∨ ∃ k ∈ s.xl.upper, k.pasid = w.pasid ∧ k.table = table ∧ k.idx = idx ∧ x = k.word.toNat)
        ∧ e.cluster = w.cluster ∧ e.pasid = w.pasid ∧ e.size = 2 ^ n ∧ e.va = w.va / 2 ^ n * 2 ^ n ∧ e.victim = false
        ∧ natBit x pf.present = true ∧ natBit x (pf.attr + 3) = false
        ∧ s.xl.tb.devaddr (natBits x pf.frameHi n * 2 ^ n) = some e.pa ∧ e.write = natBit x pf.write
        ∧ e.exec = (decide (pf.noexec = 0xFF) || !natBit x pf.noexec) ∧ e.nc = natBit x (pf.attr + 2)
        ∧ e.res = natBits x (pf.attr + 1) pf.attr
        ∧ (w.kind = .write → e.write = true) ∧ (w.kind = .fetch → e.exec = true))
    ∧ (∀ (w : Walk) (host : List (BitVec 64)), s.xl.walks.find? (fun x => x.id = w.id) = some w →
      let step := exec (.pageWalkComplete w.id host) s
      let walked := fun r => ∃ u, s.walk w (s.walkCtx0 w) host = (r, u)
      (walked .stuck → ∃ t, step = .next t ∧ t.groups = s.groups ∧ t.eng = s.eng ∧ t.xl.walks = s.xl.walks ∧ t.xl.tlb = s.xl.tlb)
      ∧ (∀ e, walked (.fill e) → w.answered = false → (∀ g l, w.who ≠ .prefetch g l) → ∃ t, step = .next t
        ∧ (∀ x ∈ t.xl.walks, x.id ≠ w.id) ∧ e ∈ t.xl.tlb
        ∧ ∀ gid pc g, ((∃ L, w.who = .group gid pc L) ∨ w.who = .look gid pc) → s.group? gid = some g →
          let stands := fun K => decide ((g.lane K).wait = .walk) && decide ((g.lane K).pc = pc)
          (g.issues = true → t.group? gid = some g ∧ ∀ K < 32, stands K = true →
            .issue gid pc (maskOf fun L => stands L && decide ((g.lane L).k = (g.lane K).k)) ∈ t.agenda)
          ∧ (g.issues = false → ∃ y, t.group? gid = some y ∧ OnlyLanes g y
            ∧ ∀ K < 32, y.lane K = if stands K then { g.lane K with wait := .none } else g.lane K))
      ∧ (∀ r, Sound s → walked (.fault r) → w.answered = false →
        let may := r ∈ [3, 4, 5] ∧ (∃ en, s.pasidEntry w.pasid = some en ∧ en.pri = true) ∧ w.pasid ∉ s.xl.barred
        let asked := fun (t : State) => ∃ q ∈ t.xl.pageReqs, q.pasid = w.pasid ∧ q.page = w.va / 4096 * 4096 ∧ q.kind = w.kind
          ∧ { w with reason := r } ∈ q.walks
        (∀ gid pc L g, w.who = .group gid pc L → s.group? gid = some g → g.ended = false →
          (g.halt = .running ∨ (∃ n, g.halt = .window n) ∨ (g.halt = .halting .step ∧ g.stepFrame ≠ none ∧ g.trap = none)) →
          (∃ K < 32, (g.lane K).exited = false ∧ (g.lane K).pc = pc ∧ (g.lane K).wait = .walk) →
          ∃ t, step = .next t
            ∧ (may → g.stepFrame = none → asked t ∧ t.group? gid = some { g with halt := .halting .page })
            ∧ (¬ may ∨ g.stepFrame ≠ none → g.trap = none → t.group? gid =
                some (g.trapped ⟨0x0B, L, w.va % 2 ^ 54, w.va⟩ (if (g.lane L).cnt = 0 then pc else pc + 8) s.ltick)))
        ∧ (∀ k, w.who = .device k ∨ (w.who = .done k ∧ ¬ may) → ∃ t, step = .next t
          ∧ t.xl.denied = s.xl.denied ++ [⟨w.who, w.pasid, w.va, w.kind, r⟩])
        ∧ ∀ id o, w.who = .op id → s.op? id = some o → ∃ t, step = .next t
          ∧ (may → asked t ∧ t.eng = s.eng) ∧ (¬ may → t.op? id = some { o with fault := some (w.va, r) })))
    ∧ (∀ (q : PageReq) (ans : PageAnswer), s.xl.pageReqs.find? (fun x => x.id = q.id) = some q → q.sent.isSome = true →
      ∃ t, exec (.pageResponse q.id ans) s = .next t ∧ (∀ x ∈ t.xl.pageReqs, x.id ≠ q.id)
        ∧ (ans = .success → ∀ w ∈ q.walks, { w with answered := true } ∈ t.xl.walks)
        ∧ (ans = .failure → q.pasid ∈ t.xl.barred ∧ ∀ x ∈ t.xl.pageReqs, x.pasid = q.pasid → x.sent.isSome = true)
        ∧ (ans = .invalid → ∀ w, q.walks = [w] →
          (∀ id o, w.who = .op id → s.op? id = some o → t.op? id = some { o with fault := some (w.va, w.reason) })
          ∧ ∀ gid pc L g, w.who = .group gid pc L → s.group? gid = some g → g.trap = none →
              t.group? gid =
                some (g.trapped ⟨0x0B, L, w.va % 2 ^ 54, w.va⟩ (if (g.lane L).cnt = 0 then pc else pc + 8) s.ltick)
              ∧ ∀ a, g.frame = some a → Laid s (a + 0x18) 8 →
                  t.devNat (a + 0x18) 8 = 0x0B * 2 ^ 59 + L % 32 * 2 ^ 54 + w.va % 2 ^ 54))
    ∧ (∀ (q : PageReq) (at_ : Nat), s.xl.pageReqs.find? (fun x => x.id = q.id) = some q → q.sent = some at_ →
      (s.ltick < at_ + 1000000000 → exec (.pageRequestTimeout q.id) s = .next s)
      ∧ (at_ + 1000000000 ≤ s.ltick →
          ∃ t, exec (.pageRequestTimeout q.id) s = .next t ∧ exec (.pageResponse q.id .failure) s = .next t))
    ∧ ∀ (p base len : Nat),
      let hits := fun (q at_ n : Nat) => q = p ∧ (len = 0 ∨ (at_ < base + len ∧ base < at_ + n))
      let inval := fun t => exec (.atsInvalidate p base len) s = .next t
      let of_ := fun (r : Req) q => (r.gid = 0 ∧ r.reg = q + 1) ∨ (r.gid ≠ 0 ∧ ∃ x, s.group? r.gid = some x ∧ x.pasid = q)
      let done := fun (t : State) (x : Inval) =>
        (∀ r ∈ t.eng.reqs, r.id < x.before → r.noFill = true → of_ r x.pasid → r.accepted = true)
        ∧ ∀ f ∈ t.fab.out, f.dropped = true → f.work.parts = true → f.pasid ≠ x.pasid
      (s.yuren.ready = false ∨ s.yuren.recovery = true ∨ (∃ w ∈ s.xl.walks, w.pasid = p) → inval s)
      ∧ (s.yuren.ready = true → s.yuren.recovery = false → (∀ w ∈ s.xl.walks, w.pasid ≠ p) → ∃ t f, inval t
        ∧ { t with xl := s.xl, mem := s.mem, eng := s.eng, fab := s.fab, sent := s.sent } = s
        ∧ { t.xl with tlb := s.xl.tlb, upper := s.xl.upper, invals := s.xl.invals } = s.xl
        ∧ { t.mem with l1 := s.mem.l1, ic := s.mem.ic, prefetches := s.mem.prefetches } = s.mem
        ∧ { t.eng with reqs := s.eng.reqs } = s.eng ∧ { t.fab with out := s.fab.out } = s.fab
        ∧ (let pending := s.xl.invals ++ [⟨p, base, len, s.nextId⟩]
           (∀ x ∈ pending, f x = true ↔ done t x)
           ∧ t.xl.invals = pending.filter (fun x => !f x)
           ∧ t.sent = s.sent ++ (pending.filter f).map fun x => .invalidateDone x.pasid)
        ∧ t.eng.reqs.length = s.eng.reqs.length ∧ t.fab.out.length = s.fab.out.length
        ∧ (∀ (i : Nat) (r : Req), s.eng.reqs[i]? = some r → ∃ n, t.eng.reqs[i]? = some { r with noFill := n } ∧ (n = true ↔
            r.noFill = true ∨ ∃ q, of_ r q ∧ hits q r.va r.size))
        ∧ (∀ (i : Nat) (x : FabReq), s.fab.out[i]? = some x → ∃ b, t.fab.out[i]? = some { x with dropped := b } ∧ (b = true ↔
            x.dropped = true ∨ hits x.pasid x.at_.va 128))
        ∧ (∀ e, e ∈ t.xl.tlb ↔ e ∈ s.xl.tlb ∧ ¬ hits e.pasid e.va e.size)
        ∧ (∀ e, e ∈ t.xl.upper ↔ e ∈ s.xl.upper ∧ e.pasid ≠ p)
        ∧ (∀ e, e ∈ t.mem.prefetches ↔ e ∈ s.mem.prefetches ∧ ¬ hits e.pasid (128 * e.vline) 128)
        ∧ (∀ e, e ∈ t.mem.l1 ↔ e ∈ s.mem.l1 ∧ ¬ hits e.pasid (128 * e.vline) 128)
        ∧ (∀ e, e ∈ t.mem.ic ↔ e ∈ s.mem.ic ∧ ¬ hits e.pasid (128 * e.vline) 128))

/-! Reliability. -/

/-- R86, R87, R391, R392, R395 to R398, R403, R411: what is stored with a sector's code reads back, poison as poison;
the scrubber corrects and marks the sectors of the next row; a due row moves to the lowest free pool entry; an extent
changes its class through a format; counts are cleared by window; the error log's entry.
The model's own choices in it: logs 15, 32, 36. -/
def Obligations.RowsAreScrubbedAndStrengthened : Prop :=
  ∀ (s : State), s.Canonical →
    let found := fun (v : Verdict) => if v = .poison ∨ v = .uncorrectable then Verdict.poison else .clean
    (∀ (c : Code) (d : List Byte) (p : Bool), c ≠ .N → d.length = 64 →
      c.check d (c.stored d p) = (d, if p then .poison else .clean))
    ∧ (∀ (stack p : Nat), stack < 16 → s.rel.block.logSize = 0 → sget 0 s.rel.scrub stack ≤ p → p < 8192 * 4096 →
      let visits := fun q => let x := s.extent stack (q / 131072); x.busy = false ∧ (x.cls = .D ∨ x.cls = .P)
      visits p → (∀ q, sget 0 s.rel.scrub stack ≤ q → q < p → ¬ visits q) →
      let r : RowId := ⟨stack, p % 64, p / 64 % 16, p / 1024 % 4, p / 4096⟩
      (s.rowState r = .controller → s.bankHeld r = true → exec (.scrubVisit stack) s = .next s)
      ∧ (s.rowState r ≠ .controller ∨ s.bankHeld r = false →
        ∃ t, exec (.scrubVisit stack) s = .next t ∧ sget 0 t.rel.scrub stack = p + 1 ∧ t.ctxs = s.ctxs
        ∧ (s.rowState r ≠ .controller → t.mem = s.mem ∧ t.rel.skipped = s.rel.skipped ++ [r])
        ∧ (s.rowState r = .controller → (∀ e, s.strong? r = some e → e.1 ≠ r.row ∧ e.2 < 8) →
          (∀ i < (s.extent stack (p / 131072)).cls.sectors,
            t.peekSector r i = ((s.peekSector r i).1, found (s.peekSector r i).2))
          ∧ (bankKey r ∈ s.rel.reinforcing → s.rowCode r = .P → r ∈ t.rel.due))))
    ∧ (∀ stack < 16, (∀ q, sget 0 s.rel.scrub stack ≤ q → q < 8192 * 4096 →
        let x := s.extent stack (q / 131072); x.busy = true ∨ (x.cls ≠ .D ∧ x.cls ≠ .P)) →
      (∀ r ∈ s.rel.skipped, r.stack ≠ stack) → ∃ t, exec (.scrubVisit stack) s = .next t ∧ sget 0 t.rel.scrub stack = 0
        ∧ { t with rel := { t.rel with scrub := s.rel.scrub } } = s)
    ∧ (∀ (r : RowId),
      let free := fun (pr q : Nat) => pr < 8192 ∧ q < 8 ∧ (s.extent r.stack (pr / 32)).cls = .pool
        ∧ (s.extent r.stack (pr / 32)).busy = false ∧ ∀ y ∈ s.rel.strong, ¬ (bankKey y.1 = bankKey r ∧ y.2 = (pr, q))
      let wants := r ∈ s.rel.due ∧ s.rowState r = .controller ∧ s.bankHeld r = false ∧ s.rowCode r = .P
        ∧ bankKey r ∈ s.rel.reinforcing
      (r ∉ s.rel.due ∨ s.rowState r ≠ .controller ∨ s.bankHeld r = true → exec (.rowStrengthen r) s = .next s)
      ∧ (wants → ∀ pr q, free pr q → (∀ a b, free a b → pr < a ∨ (pr = a ∧ q ≤ b)) →
        ∃ t, exec (.rowStrengthen r) s = .next t ∧ r ∉ t.rel.due ∧ t.strong? r = some (pr, q) ∧ t.rowCode r = .PP
          ∧ (s.rel.block.logSize = 0 ∨ (∀ i < 28, (s.peekSector r i).2 = .clean ∨ (s.peekSector r i).2 = .poison) →
            (∀ i < 28, t.peekSector r i = ((s.peekSector r i).1, found (s.peekSector r i).2))
            ∧ ∀ i < 3, ∀ k < 4, (sget 0 t.mem.raw (rowBase r + 64 * 31 + 4 * i + k)).toNat = [pr % 256, pr / 256 % 256, q, 0xA5].getD k 0))
      ∧ (wants → (∀ pr q, ¬ free pr q) → bankKey r ∉ s.rel.capacity → s.rel.block.logSize = 0 →
        let a := match s.xl.slots.find? fun y => y.2.valid && y.2.stack = r.stack && y.2.ext = r.row / 32 with
          | none => 0
          | some (k, _) => (s.xl.tb.wins.getD (k / 4096) ⟨0, 0⟩).base + k % 4096 * (windowClass (k / 4096)).size
              + 64 * (28 * (((r.row % 32 * 4 + r.bank) * 16 + r.bg) * 64 + r.pch))
        ∃ t, exec (.rowStrengthen r) s = .next t ∧ t.mem = s.mem ∧ t.rel.capacity = s.rel.capacity ++ [bankKey r]
          ∧ t.sup.waiting = s.sup.waiting ++ [(⟨0x19, 0, a, a, 0, s.ltick⟩, none, 0)] ∧ t.sent = s.sent))
    ∧ (∀ (stack e : Nat), stack < 16 → e < 256 → s.rel.block.logSize = 0 →
      let x := s.extent stack e
      let at_ := s.xl.tb.slotList + 0x6000 + 256 * stack + e
      let c := match s.devNat at_ 1 % 4 with | 0 => ExtClass.N | 1 => .D | 2 => .P | _ => .pool
      let seen := Watch.ext stack e ∈ s.mem.watch
      let busy := ∃ k < 256, (s.extent stack k).busy = true
      let refused := (∃ y ∈ s.xl.slots, y.2.valid = true ∧ y.2.stack = stack ∧ y.2.ext = e)
        ∨ (x.cls = .pool ∧ ∃ y ∈ s.rel.strong, y.1.stack = stack ∧ y.2.1 / 32 = e)
      let code := fun (k : ExtClass) => match k with | .N => 0 | .D => 1 | .P => 2 | .pool => 3
      Laid s at_ 1 →
      (¬ seen ∨ (c ≠ x.cls ∧ busy) → exec (.extentClassWrite stack e) s = .next s)
      ∧ (seen → c ≠ x.cls → ¬ busy → ∃ t, exec (.extentClassWrite stack e) s = .next t
        ∧ (refused → t.extent stack e = x ∧ t.devNat at_ 1 = code x.cls)
        ∧ (¬ refused → t.extent stack e = ⟨c, true⟩ ∧ t.devNat at_ 1 = 0x80 + code c
            ∧ ∀ y, y ∈ t.rel.strong ↔ y ∈ s.rel.strong ∧ ¬ (y.1.stack = stack ∧ y.1.row / 32 = e))
        ∧ ∀ a b, (a < 16 ∧ b < 256 ∧ (a ≠ stack ∨ b ≠ e)) → t.extent a b = s.extent a b)
      ∧ (x.busy = false → exec (.extentFormatDone stack e) s = .next s)
      ∧ (x.busy = true → ∃ t, exec (.extentFormatDone stack e) s = .next t ∧ t.extent stack e = ⟨x.cls, false⟩
        ∧ t.devNat at_ 1 = s.devNat at_ 1 % 128
        ∧ ∀ r : RowId, ∀ k < 2048, r.pch < 64 → r.bg < 16 → r.bank < 4 → r.row < 8192 →
            sget 0 t.mem.raw (rowBase r + k) = if r.stack = stack ∧ r.row / 32 = e then 0 else sget 0 s.mem.raw (rowBase r + k)))
    ∧ (let w := if s.rel.block.ceWindow = 0 ∨ 86400 < s.rel.block.ceWindow then 3600 else s.rel.block.ceWindow
       let at_ := s.ltick / (w * 1000000000)
       exec .ceWindowClear s = .next
        (if at_ = s.rel.windowAt then s else { s with rel := { s.rel with ceCount := [], windowAt := at_ } }))
    ∧ ∀ (kind ctx : Nat) (x : LogAt),
      let rb := s.xl.tb.slotList + 0x7000
      let put := s.devNat (rb + 0x1C) 4
      let size := s.rel.block.logSize
      let at_ := s.rel.block.logBase + 32 * (put % size)
      0 < size → (put + 2 ^ 32 - s.devNat (rb + 0x20) 4) % 2 ^ 32 ≠ size → s.rel.newest = none →
      Laid s rb 64 → Laid s at_ 32 → (∀ i < 32, ∀ j < 64, s.decodeLocal (at_ + i) true ≠ s.decodeLocal (rb + j) true) →
      let t := s.log kind x ctx
      HoldsFields t at_ [(0, 1, kind), (1, 1, x.stack), (2, 1, x.pch), (3, 1, x.bank), (4, 2, x.row), (6, 1, x.slot),
        (8, 8, s.ltick), (16, 4, ctx), (20, 4, 1), (24, 8, x.addr)]
      ∧ t.devNat (rb + 0x1C) 4 = (put + 1) % 2 ^ 32
      ∧ t.sent = if kind = 3 ∨ kind = 6 ∨ kind = 8 then s.sent ++ [.msix] else s.sent

/-- R307, R308, R325, R346, R347, R349, R377, R393, R399, R417, R419: the units that watch their structures take up what
a write has left there; the power controller's level and average; the eligibility of a core from its samples.
The model's own choices in it: logs 14, 31. -/
def Obligations.UnitsTakeUpTheirStructures : Prop :=
  ∀ (s : State), s.Canonical →
    let block := s.sup.ctxTab.toNat
    let sl := s.xl.tb.slotList
    (∀ line : Nat,
      let met := fun (a n : Nat) => 128 * line < a + n ∧ a < 128 * line + 128
      let step := exec (.translationBlockReload line) s
      let seen := Watch.block line ∈ s.mem.watch
      let ready := Readable s (128 * line) 128
      (¬ seen → step = .next s)
      ∧ (seen → s.devAway (128 * line) 128 = true → ∃ t, step = .next t ∧ Watch.block line ∈ t.mem.watch ∧ t.xl = s.xl ∧ t.rel = s.rel)
      ∧ (seen → ready → met block 256 → (s.devRead block 256).2 = false → ∀ f : Nat → Nat → Nat,
          (∀ o n, f o n = leNat (((s.devRead block 256).1.drop o).take n)) → f 0x50 8 = sl →
          ¬ met sl 0x6000 → ¬ met (sl + 0x7000) 64 → ∃ t, step = .next t
          ∧ { t with xl := s.xl, mem := s.mem } = s ∧ { t.mem with watch := s.mem.watch } = s.mem
          ∧ { t.xl with tb := s.xl.tb } = s.xl
          ∧ t.xl.tb.pasidTab = f 0 8 ∧ t.xl.tb.pasidCount = f 8 4 ∧ t.xl.tb.hdmBase = f 0x10 8 ∧ t.xl.tb.peerBase = f 0x18 8
          ∧ t.xl.tb.slotList = sl ∧ t.xl.tb.wins = (List.range 3).map (fun c => ⟨f (0x20 + 16 * c) 8, f (0x28 + 16 * c) 4⟩)
          ∧ ∀ i < 4, t.xl.tb.profiles[i]? =
              let p := 0x58 + 32 * i
              some ⟨f p 1, f (p + 1) 1, f (p + 2) 1, f (p + 3) 1, f (p + 4) 1, f (p + 5) 1, f (p + 6) 1, f (p + 7) 1, f (p + 8) 1,
                f (p + 9) 1, f (p + 10) 1, decide (f (p + 11) 21 = 0)⟩)
      ∧ (seen → ready → ¬ met block 256 → met sl 0x6000 → ¬ met (sl + 0x7000) 64 → sl % 2 = 0 →
          (∀ i < 12288, met (sl + 2 * i) 2 → ∀ c < 3, ∀ w, s.xl.tb.wins[c]? = some w →
            ∀ j < 12288, met (sl + 2 * j) 2 → w.base ≤ sl + 2 * i → j ≠ 4096 * c + (sl + 2 * i - w.base) / (windowClass c).size) →
          ∃ t, step = .next t ∧ { t with xl := s.xl, mem := s.mem } = s ∧ { t.xl with slots := s.xl.slots } = s.xl
          ∧ ∀ i < 12288, let x := s.devNat (sl + 2 * i) 2
              sget emptySlot t.xl.slots i = if met (sl + 2 * i) 2 ∧ (s.devRead (sl + 2 * i) 2).2 = false then ⟨natBit x 15, natBit x 14, natBits x 11 8, natBits x 7 0⟩
                else sget emptySlot s.xl.slots i)
      ∧ (seen → ready → ¬ met block 256 → ¬ met sl 0x6000 → met (sl + 0x7000) 64 → (s.devRead (sl + 0x7000) 64).2 = false →
          ∃ t, step = .next t ∧ { t with rel := s.rel, mem := s.mem } = s ∧ { t.rel with block := s.rel.block } = s.rel
          ∧ ∀ f : Nat → Nat → Nat, (∀ o n, f o n = leNat (((s.devRead (sl + 0x7000) 64).1.drop o).take n)) →
            t.rel.block = ⟨f 0 4, f 4 4, f 8 4, f 0x10 8, f 0x18 4⟩))
    ∧ (∀ (n : Nat) (valid budget : Bool),
      let at_ := block + 256 * (n + 1)
      let b := s.devRead at_ 256
      let f := fun o k => leNat ((b.1.drop o).take k)
      s.mem.watch.find? (fun w => match w with | .ctx k .. => k = n | _ => false) = some (.ctx n valid budget) → b.2 = false → Readable s at_ 256 →
      (∀ g ∈ s.groups, g.frameWait = false) → (∀ t ∈ s.teams, t.frameWait = false) →
      ∃ t, exec (.contextRecordWrite n) s = .next t ∧ { t with ctxs := s.ctxs, mem := s.mem } = s
        ∧ (∀ k, k ≠ n → t.ctx k = s.ctx k)
        ∧ t.ctx n =
          { pasid := f 0 4, cntGrant := natBit (f 4 4) 0, brkHold := natBit (f 4 4) 1, valid := natBit (f 4 4) 31
            lease := f 8 4, budgetField := f 12 4, frameArea := f 0x10 8, frameLen := f 0x18 8, lateQ := f 0x20 8
            frames := if (s.ctx n).valid = false ∧ natBit (f 4 4) 31 = true then [] else (s.ctx n).frames
            ebudget := if (valid = true ∧ (s.ctx n).valid = false ∧ natBit (f 4 4) 31 = true) ∨ budget = true then f 12 4 else (s.ctx n).ebudget })
    ∧ (let b := s.devRead (sl + 0x7800) 2048
       let f := fun o k => leNat ((b.1.drop o).take k)
       (Watch.fabric ∉ s.mem.watch → exec .fabricBlockWrite s = .next s)
       ∧ (Watch.fabric ∈ s.mem.watch → b.2 = false → Readable s (sl + 0x7800) 2048 → ∃ t, exec .fabricBlockWrite s = .next t
        ∧ { t with fab := s.fab, mem := s.mem } = s
        ∧ { t.mem with watch := s.mem.watch, bankQ := s.mem.bankQ, holdQ := s.mem.holdQ, linkQ := s.mem.linkQ } = s.mem
        ∧ t.fab.self = f 0 4 ∧ t.fab.valid = natBit (f 0 4) 31 ∧ t.fab.fabgen = f 4 4 ∧ t.fab.porten = f 8 1
        ∧ (∀ k < 1024, sget false t.fab.reach k = natBit (f (0x40 + k / 8) 1) (k % 8) ∧ sget 0 t.fab.route k = f (0xC0 + k) 1)
        ∧ t.fab.out = s.fab.out ∧ t.fab.ports = s.fab.ports
        ∧ (f 4 4 = s.fab.fabgen → t.fab.filter = s.fab.filter ∧ t.fab.seqs = s.fab.seqs)
        ∧ (f 4 4 ≠ s.fab.fabgen → t.fab.filter = [] ∧ t.fab.seqs = [])))
    ∧ (∀ watts : Nat, ∃ t, exec (.powerEvaluation watts) s = .next t ∧ { t with power := s.power } = s ∧ t.power.pwrAvg = watts
        ∧ (3850 < watts → t.power.level = min 9 (s.power.level + 1) ∧ t.power.below = 0)
        ∧ (watts < 3600 → if s.power.below = 9 then t.power.level = s.power.level - 1 ∧ t.power.below = 0
            else t.power.level = s.power.level ∧ t.power.below = s.power.below + 1)
        ∧ (3600 ≤ watts → watts ≤ 3850 → t.power.level = s.power.level ∧ t.power.below = 0))
    ∧ ∀ (core temp droop : Nat),
      let field := s.devNat ((s.ctx 0).frameArea + 0x824) 4
      let limit := if 10 ≤ field ∧ field ≤ 200 then field else 50
      let e := s.elig core
      let good := temp ≤ 90 ∧ droop < limit
      (256 ≤ core → exec (.coreEligibilitySample core temp droop) s = .next s)
      ∧ (core < 256 → ∃ t, exec (.coreEligibilitySample core temp droop) s = .next t ∧ (∀ k, k ≠ core → t.elig k = s.elig k)
        ∧ { t with cores := { t.cores with elig := s.cores.elig } } = s
        ∧ (t.elig core).tempC = temp ∧ (t.elig core).droop = droop ∧ (t.elig core).badAt = (if good then e.badAt else s.ltick)
        ∧ (95 < temp ∨ limit < droop → (t.elig core).eligible = false)
        ∧ (temp ≤ 95 → droop ≤ limit →
            ((t.elig core).eligible = true ↔ e.eligible = true ∨ (good ∧ e.badAt + 1000000 ≤ s.ltick))))

/-! The fabric and the host link. -/

/-- R344, R402, R415, R416, R419 to R421, R425, R431: a peer's request is executed once, and answered; answers to this
package's requests; sending again; replays of flits; and the host's reads and writes of local space.
The model's own choices in it: logs 29, 35, 37, 55. -/
def Obligations.FabricAndHostAreServed : Prop :=
  ∀ (s : State), s.Canonical →
    let quiet := fun (t : State) => ∀ k, t.homeLine k = s.homeLine k
    let logged := s.log 7 LogAt.none 0
    (∀ r : Inbound,
      let step := exec (.fabricRequestReceive r) s
      let answer := fun (a : PeerAnswer) => s.sent ++ [HostMsg.response r.src r.seq a]
      let current := s.yuren.ready = true ∧ r.op ≠ .other ∧ r.fabgen = s.fab.fabgen
      let fresh := current ∧ s.filterEntry r.src r.seq = none ∧ s.tooOld r.src r.seq = false ∧ s.disp.serials = []
      (s.yuren.ready = false ∨ (r.op ≠ .other ∧ r.fabgen ≠ s.fab.fabgen) → step = .next { s with sent := answer .stale })
      ∧ (s.yuren.ready = true → r.op = .other → step = .next logged)
      ∧ (current → ∀ f, s.filterEntry r.src r.seq = some f →
          step = .next (match f.ans with | some a => { s with sent := answer a } | none => s))
      ∧ (current → s.filterEntry r.src r.seq = none → s.tooOld r.src r.seq = true → step = .next logged)
      ∧ (fresh → s.decodeLocal r.off false = .absent → (∃ n g, r.op = .read n g) ∨ (∃ bs ts g, r.op = .write bs ts g) →
          ∃ t, step = .next t ∧ t.sent = answer .absent ∧ t.mem = s.mem)
      ∧ ∀ st e d x, fresh → r.nc = false → s.decodeLocal r.off false = .ok st e d → s.line? ⟨st, e, d / 128⟩ = some x →
          x.bytes.length = 128 →
          let l : LineId := ⟨st, e, d / 128⟩
          (∀ n g, r.op = .read n g → d % 128 + n ≤ 128 → x.marks0 = [] → x.marks1 = [] → ∃ t, step = .next t ∧ quiet t
            ∧ t.sent = answer (.done (leNat ((x.bytes.drop (d % 128)).take n))
                (wordTags ((List.range n).map fun i => bitOf x.poison ((d % 128 + i) / 4))))
            ∧ (t.filterEntry r.src r.seq).isSome = true)
          ∧ (∀ bs ts g, r.op = .write bs ts g → true ∈ ts → (s.extent st e).cls = .N →
              ∃ t, step = .next t ∧ t.mem = s.mem ∧ t.sent = answer .poisonStore)
          ∧ (∀ bs ts g, r.op = .write bs ts g → (true ∉ ts ∨ (s.extent st e).cls ≠ .N) → bs ≠ [] → d % 128 + bs.length ≤ 128 →
              Open s l x → Writable s l (d % 128) bs → (∀ h ∈ s.mem.held, h.2.peer ≠ some r) →
              ∃ t, step = .next t ∧ Stored s t l (d % 128) bs ∧ t.sent = answer (.done 0 0)
              ∧ (t.filterEntry r.src r.seq).isSome = true))
    ∧ (∀ (tgt seq : Nat) (f : FabReq), s.fabReq? tgt seq = some f →
      (∃ t, exec (.fabricResponse tgt seq .retry) s = .next t ∧ { t with fab := s.fab } = s ∧ t.fab.out =
          s.fab.out.map fun x => if x = f then { x with retry := true, sent := s.ltick } else x)
      ∧ (∀ id r g v tag signed n, f.work = .req id → s.req? id = some r → r.kind = .load signed n → r.size = n →
          n ∈ [1, 2, 4, 8, 16] → r.replays ≤ 8 → s.group? r.gid = some g → g.Canonical → g.ended = false → g.frame = none →
          r.lane < 32 → (∀ i < (n + 3) / 4, regHeld g (.v (r.reg + i)) = true) → g.regGen r.reg = r.gen →
          let gives := fun (ans : PeerAnswer) (bs : List Byte) (tag : Word) =>
            ∃ t g', exec (.fabricResponse tgt seq ans) s = .next t ∧ t.req? id = none ∧ t.group? r.gid = some g'
              ∧ t.fab.out.length + 1 = s.fab.out.length
              ∧ ∀ i < (n + 3) / 4, rdV g' (r.reg + i) r.lane = ⟨loadMeaning signed bs i, bitOf tag i⟩
          (v < 256 ^ n → gives (.done v tag) (leBytes n v) tag)
          ∧ ∀ ans, (∀ v t, ans ≠ .done v t) → ans ≠ .retry → gives ans (List.replicate n 0) 0xFFFFFFFF#32)
      ∧ (∀ id r ans, f.work = .req id → s.req? id = some r → r.kind = .store → ans ≠ .retry →
          ∃ t, exec (.fabricResponse tgt seq ans) s = .next t ∧ t.req? id = none ∧ t.fab.out.length + 1 = s.fab.out.length
          ∧ (ans ≠ .absent → ans ≠ .poisonStore → quiet t)
          ∧ (ans = .absent →
              let q := (s.ctx r.ctx).lateQ
              let put := s.devNat q 4
              let at_ := q + 0x40 + 32 * (put % s.devNat (q + 8) 4)
              0 < s.devNat (q + 8) 4 → (put + 2 ^ 32 - s.devNat (q + 4) 4) % 2 ^ 32 ≠ s.devNat (q + 8) 4 → Laid s q 16 →
              Laid s at_ 32 → (∀ i < 32, ∀ j < 16, s.decodeLocal (at_ + i) true ≠ s.decodeLocal (q + j) true) →
              HoldsFields t at_ [(0, 8, r.va), (8, 8, s.ltick), (16, 4, (s.ctx r.ctx).pasid), (20, 1, 0x01), (21, 1, 3), (22, 1, 8)]
              ∧ t.devNat q 4 = (put + 1) % 2 ^ 32))
      ∧ (∀ id idx va o d so co gate, f.work = .op id idx va → s.op? id = some o → o.kind = .cpy true d so co gate →
          (∀ v tag, ∃ t, exec (.fabricResponse tgt seq (.done v tag)) s = .next t
            ∧ t.op? id = some { o with got := o.got ++ [⟨idx, v, tag, 0, va⟩] })
          ∧ (s.routePorts tgt = [] → ∀ n, f.noRoute = some n → n + 1000000 ≤ s.ltick → ∃ t, exec (.fabricNoRouteTimeout tgt seq) s = .next t
            ∧ t.op? id = some { o with got := o.got ++ [⟨idx, 0, 0, 0x04, va⟩] } ∧ t.fab.out.length + 1 = s.fab.out.length))
      ∧ ((s.routePorts tgt ≠ [] ∨ ∀ n, f.noRoute = some n → s.ltick < n + 1000000) → exec (.fabricNoRouteTimeout tgt seq) s = .next s))
    ∧ (∀ (tgt seq : Nat) (f : FabReq), s.fabReq? tgt seq = some f →
      let ports := s.routePorts tgt
      let gone := fun (x : FabReq) => match ports[seq % ports.length]? with
        | some k => { x with port := some k, sent := s.ltick, noRoute := none, live := true }
        | none => { x with port := none, sent := s.ltick, noRoute := if x.noRoute.isSome then x.noRoute else some s.ltick, live := true }
      let sends := fun (x : FabReq) => { s with
        fab := { s.fab with out := s.fab.out.map fun y => if y = f then gone x else y }
        sent := s.sent ++ match ports[seq % ports.length]? with
          | some k => [HostMsg.toPeer (s.fab.self % 1024) k (gone x)]
          | none => [] }
      let lost := match f.port with
        | some k => ∃ p, s.fab.ports[k]? = some p ∧ (p.retraining = true ∨ p.lanes < 16)
        | none => ports ≠ []
      let due := f.retry = false ∧ (f.sent + 50000 ≤ s.ltick ∨ lost)
      let again := f.retry = true ∧ f.sent + 1000 * 2 ^ min f.tries 6 ≤ s.ltick
      (∀ k, k ∈ ports ↔ k < 8 ∧ natBit (sget 0 s.fab.route tgt) k = true ∧ natBit s.fab.porten k = true
        ∧ ∃ p, s.fab.ports[k]? = some p ∧ 16 ≤ p.lanes ∧ p.retraining = false)
      ∧ ports.Pairwise (· < ·)
      ∧ (due → exec (.fabricResend tgt seq) s = .next (sends f))
      ∧ (¬ due → exec (.fabricResend tgt seq) s = .next s)
      ∧ ((∀ id, f.work ≠ .walk id) → again → exec (.fabricRetryResend tgt seq) s =
          .next (sends { f with retry := false, tries := f.tries + 1 }))
      ∧ (¬ again → exec (.fabricRetryResend tgt seq) s = .next s))
    ∧ (∀ (k : Nat) (p : Port), s.fab.ports[k]? = some p →
      let becomes := fun (i : Instr) (u : State) (q : Port) =>
        exec i s = .next { u with fab := { s.fab with ports := s.fab.ports.set k q } }
      (p.retraining = false → 16 ≤ p.lanes → p.replays ≠ 8 → becomes (.flitReplay k) logged { p with replays := p.replays + 1 })
      ∧ (p.retraining = false → 16 ≤ p.lanes → p.replays = 8 → becomes (.flitReplay k) s { p with retraining := true, replays := 0 })
      ∧ ∀ n, p.retraining = true → becomes (.portRetrainDone k n) s
          ⟨if 64 ≤ n then 64 else if 32 ≤ n then 32 else if 16 ≤ n then 16 else 0, false, 0⟩)
    ∧ (∀ (r : Req) (l : LineId) (o : Nat), s.req? r.id = some r → r.place = .line l o → homeSlice l / 64 ≠ r.core / 64 →
      r.accepted = false →
      (r.replays < 8 → ∃ t, exec (.d2dFlitReplay r.id) s = .next t ∧ t.req? r.id = some { r with replays := r.replays + 1 }
        ∧ { t with eng := s.eng } = s.log 7 { LogAt.none with addr := (s.addressOf l.stack l.ext (128 * l.line + o)).getD 0 } 0)
      ∧ (r.replays = 8 → ∃ t, exec (.d2dFlitReplay r.id) s = .next t
        ∧ t.req? r.id = some { r with replays := 9, tags := r.tags.map fun _ => true }
        ∧ ∀ g, r.gid ≠ 0 → s.group? r.gid = some g → g.ended = false →
            ∃ y, t.group? r.gid = some y ∧ bitOf y.imprecise 0x18 = true))
    ∧ ∀ (addr : Nat),
      let pa := addr - s.xl.tb.hdmBase
      let outside := addr < s.xl.tb.hdmBase ∨ s.xl.tb.hdmBase + 2 ^ 41 ≤ addr
      (∀ size,
        let bad := { s with sent := s.sent ++ [HostMsg.readData addr (List.replicate size 0) true] }
        (s.yuren.ready = false ∨ outside ∨ s.decodeLocal pa false = .absent → exec (.hostRead addr size) s = .next bad)
        ∧ (s.yuren.ready = true → ¬ outside → s.decodeLocal pa false = .changing → exec (.hostRead addr size) s = .next s)
        ∧ ∀ st e d x, s.yuren.ready = true → ¬ outside → s.decodeLocal pa false = .ok st e d →
          d % 128 + size ≤ 128 → s.line? ⟨st, e, d / 128⟩ = some x → ∃ t, exec (.hostRead addr size) s = .next t ∧ quiet t
            ∧ t.sent = s.sent ++ [.readData addr ((x.bytes.drop (d % 128)).take size)
                ((List.range size).any fun i => bitOf x.poison ((d % 128 + i) / 4))]
            ∧ (⟨st, e, d / 128⟩ : LineId) ∈ t.mem.hostLines)
      ∧ (∀ bs poison, s.yuren.ready = false ∨ outside → exec (.hostWrite addr bs poison) s = .next s)
      ∧ (∀ bs poison st e d x, s.yuren.ready = true → ¬ outside → bs ≠ [] → pa % 128 + bs.length ≤ 128 →
          s.decodeLocal pa false = .ok st e d → d % 128 + bs.length ≤ 128 →
          s.line? ⟨st, e, d / 128⟩ = some x → x.bytes.length = 128 → s.leased ⟨st, e, d / 128⟩ = false → s.heldOn ⟨st, e, d / 128⟩ = [] →
          Writable s ⟨st, e, d / 128⟩ (d % 128) bs →
          (poison = true → (s.extent st e).cls = .N →
            exec (.hostWrite addr bs poison) s = .next (s.log 3 { LogAt.none with addr := pa } 0))
          ∧ (poison = false ∨ (s.extent st e).cls ≠ .N → ∃ t, exec (.hostWrite addr bs poison) s = .next t
              ∧ Stored s t ⟨st, e, d / 128⟩ (d % 128) bs))
      ∧ ∀ l : LineId, exec (.backInvalidateAnswer l) s = .next (if l ∈ s.mem.snoops then
          { s with mem := { s.mem with
            snoops := s.mem.snoops.filter (· ≠ l), hostLines := s.mem.hostLines.filter (· ≠ l) } } else s)

/-! The Dispatcher. -/

/-- R34, R168, R280, R281, R367 to R372: GRID reads its task record at issue, and with it at hand the Dispatcher answers a
status or puts a grid into the task table; a post box is taken the same way and answered in POSTSTAT.
The model's own choices in it: logs 33, 59, 60. -/
def Obligations.TasksAreAccepted : Prop :=
  ∀ (s : State), s.Canonical →
    (∀ (addr : Nat) (b : List Byte), b.length = 128 →
      (KernelLegal addr b → Kernel.ofBytes addr b = some
        { addr := addr, entry := BitVec.ofNat 64 (fieldOf b 0 8), groups := fieldOf b 8 1, kclass := fieldOf b 9 1
          blocks := fieldOf b 10 1, optiles := fieldOf b 11 1, acctiles := fieldOf b 12 1, spbytes := fieldOf b 0x10 4
          liveCount := fieldOf b 0x14 4, liveTab := fieldOf b 0x18 8, regions := regionsOf b })
      ∧ (¬ KernelLegal addr b → Kernel.ofBytes addr b = none))
    ∧ (∀ (o : EForm) (g : Group) (d : Grid), s.grid? g.grid = some d →
      let act := activeOf g s.cur o.g
      let a := uniPair g o.e2
      let ok := GoesAhead (.grid o) o.g s g ∧ act = 1 ∧ g.groupId = 0
        ∧ ∀ n, RegName.s n ∈ (Instr.grid o).reads → (rdS g n).tag = false
      let full := 4096 ≤ s.disp.grids.countP fun d => !d.retired && d.sup.isNone
      (GoesAhead (.grid o) o.g s g → act ≠ 0 → ¬ (act = 1 ∧ g.groupId = 0) → g.trap = none →
        Traps (.grid o) s g ⟨0x05, lowest act, 0, 0⟩)
      ∧ (ok → full → exec (.grid o) s = .next s)
      ∧ (ok → ¬ full →
        (a % 128 ≠ 0 → g.trap = none → Traps (.grid o) s g ⟨0x09, 0, a % 2 ^ 54, a⟩)
        ∧ ∀ x, a % 128 = 0 → s.resolveAll g .read false (fun _ => a) [0] = .ok [x] →
          PutsInFlight (.grid o) s [{ baseReq g s.cur x .record 128 o.e1.toNat with id := s.nextId }] [] fun _ g' =>
            { g' with lanes := g.lanes, pend := g.pend } = { g with seq := g.seq + 1 } ∧ MovesOn s.cur 0 g g'
            ∧ ∀ i < 2, ⟨.s (o.e1.toNat + i), .req s.nextId, .global_⟩ ∈ g'.pend))
    ∧ (∀ (r : Req) (g : Group) (d : Grid) (ext : Option ExtVal), s.req? r.id = some r → r.kind = .record → r.gid ≠ 0 →
      s.group? r.gid = some g → g.Canonical → g.ended = false → g.frame = none → r.reg + 1 < 64 → s.grid? g.grid = some d →
      r.accepted = true →
        let full := 4096 ≤ s.disp.grids.countP fun d => !d.retired && d.sup.isNone
        let ready := s.performed r.gid r.lane r.seq .d = true ∧ ¬ full ∧ ∀ q ∈ s.earlier r, ¬ (q.gid = r.gid ∧ q.kind = .record)
        (¬ ready → exec (.loadReturn r.id ext) s = .next s)
        ∧ (ready →
          let b := r.bytes
          let legal := TaskLegal b 1 ∧ fieldOf b 0x0E 2 = 0 ∧ true ∉ r.tags
          let read := s.readKernel g.core g.pasid (fieldOf b 0 8) (decide (g.ctx = 0))
          let answers := fun (status id : Nat) (grids : List Grid) => ∃ t g', exec (.loadReturn r.id ext) s = .next t
            ∧ t.req? r.id = none ∧ t.disp.grids = grids ∧ t.group? r.gid = some g'
            ∧ { g' with s := g.s, pend := g.pend, outrider := g.outrider } = g
            ∧ (∀ p, p ∈ g'.pend ↔ p ∈ g.pend ∧ p.ready ≠ .req r.id)
            ∧ ∀ k, rdS g' k = if k = r.reg then ⟨BitVec.ofNat 32 status, false⟩
                else if k = r.reg + 1 then ⟨BitVec.ofNat 32 id, false⟩ else rdS g k
          (10 ≤ d.depth → answers 0x20 0 s.disp.grids)
          ∧ (d.depth < 10 → ¬ legal → answers 0x22 0 s.disp.grids)
          ∧ (d.depth < 10 → legal → ∀ u, read = .wait u → exec (.loadReturn r.id ext) s = .next u)
          ∧ (d.depth < 10 → legal → ∀ u, read = .bad u → answers 0x22 0 s.disp.grids)
          ∧ (d.depth < 10 → legal → ∀ k, read = .ok k → ¬ FitsEmpty k → answers 0x21 0 s.disp.grids)
          ∧ (d.depth < 10 → legal → ∀ k, read = .ok k → FitsEmpty k → ∃ e,
              answers 0 s.disp.nextGrid (s.disp.grids ++ [e])
              ∧ Accepted s e b k g.ctx (some d.id) (max (fieldOf b 0x0C 1) d.cls) (d.depth + 1)
              ∧ e.root = d.root ∧ e.parentTeam = some g.team ∧ e.mode = d.mode)))
    ∧ ∀ ctx : Nat,
      let page := (s.ctx ctx).frameArea
      let b := (s.devRead page 128).1
      let seen := Watch.post ctx ∈ s.mem.watch
      let posted := s.devNat (page + 0x0E) 1 = 0xFF
      let full := 4096 ≤ s.disp.grids.countP fun d => !d.retired && d.sup.isNone
      let step := exec (.postBoxTake ctx) s
      let status := fun (st : Nat) (grids : List Grid) => ∃ t, step = .next t ∧ t.devNat (page + 0x0E) 1 = st ∧ t.disp.grids = grids
      let flags := s.devNat (page + 0x0D) 1
      let context := s.sup.ctxTab.toNat + 256 * (ctx + 1)
      let rec_ := s.devRead context 256
      (¬ seen ∨ (posted ∧ full) → step = .next s)
      ∧ (seen → ¬ posted → ∃ t, step = .next t ∧ { t with mem := s.mem } = s ∧ { t.mem with watch := s.mem.watch } = s.mem)
      ∧ (seen → posted → ¬ full → s.devAway page 128 = true → step = .next (s.devAwait page 128))
      ∧ (seen → posted → ¬ full → Readable s page 128 → Readable s context 256 → Laid s (page + 0x0E) 1 → flags = fieldOf b 0x0D 1 →
        (natBit (fieldOf rec_.1 4 4) 31 = false ∨ 65534 < ctx ∨ 2 ^ 20 ≤ fieldOf rec_.1 0 4 ∨ fieldOf rec_.1 0x10 8 % 4096 ≠ 0
            ∨ fieldOf rec_.1 0x18 8 % 4096 ≠ 0 ∨ rec_.2 = true → status 0x23 s.disp.grids)
        ∧ (s.contextBad ctx = false → (s.devRead page 128).2 = true → status 0x22 s.disp.grids)
        ∧ (s.contextBad ctx = false → (s.devRead page 128).2 = false → flags ≤ 1 → fieldOf b 0x0F 1 = 0 →
          let read := s.readKernel 0 (s.ctx ctx).pasid (fieldOf b 0 8) (decide (ctx = 0))
          (¬ TaskLegal b 7 → status 0x22 s.disp.grids)
          ∧ (TaskLegal b 7 → ∀ u, read = .wait u → step = .next u)
          ∧ (TaskLegal b 7 → ∀ u, read = .bad u → status 0x22 s.disp.grids)
          ∧ (TaskLegal b 7 → ∀ k, read = .ok k →
            (¬ FitsEmpty k → status 0x21 s.disp.grids)
            ∧ (FitsEmpty k → ∃ e, status 0 (s.disp.grids ++ [e]) ∧ Accepted s e b k ctx none (fieldOf b 0x0C 1) 1 ∧ e.root = e.id
                ∧ e.mode = .plain))))

/-- R42, R281, R282, R372 to R376, R378, R384, R389, R443: teams are taken from the pool in order and placed on the
best core that they fit, with cleared scratchpad and fresh groups; reservations and pre-emptions for those that wait;
teams end, grids retire and make their completion writes.
The model's own choices in it: logs 34, 35, 56. -/
def Obligations.TeamsArePlacedAndRetire : Prop :=
  ∀ (s : State), s.Canonical →
    let fitting := fun (c : Cand) (k : Nat) => k < 256 ∧ (s.elig k).eligible = true ∧ (c.grid.cls ≠ 0 → s.reserved k = false)
      ∧ (s.fits c.grid.kernel k).isSome = true ∧ s.heldFor c k = false ∧ c.grid.mode ≠ .replay
    let near := fun (c : Cand) (k : Nat) => ∃ tm, c.grid.parentTeam.bind s.team? = some tm ∧ k / 64 = tm.core / 64
    let resident := fun (core : Nat) (tm : Team) => tm ∈ s.teams ∧ tm.core = core ∧ (tm.state = .clearing ∨ tm.state = .running ∨ tm.state = .framing)
    (s.pool.Pairwise fun x y => ¬ Precedes y x)
    ∧ (∀ c, c ∈ s.pool ↔
        (c.team = none ∧ c.grid ∈ s.disp.grids ∧ c.grid.retired = false ∧ c.grid.preds = [] ∧ c.grid.killed = none
          ∧ c.teamId = c.grid.nextTeam ∧ c.grid.nextTeam < c.grid.teams)
        ∨ ∃ tm ∈ s.teams, c.team = some tm ∧ c.teamId = tm.teamId ∧ s.grid? tm.grid = some c.grid ∧ tm.state = .framed
            ∧ tm.waitFor = none ∧ (∀ k ∈ tm.groups, ∀ g, s.group? k = some g → g.onPager = false)
            ∧ (∀ a, tm.frame = some a → s.devAway a (teamFrameSize tm) = false)
            ∧ ∃ k ∈ tm.groups, ∃ g, s.group? k = some g ∧ g.ended = false)
    ∧ (∀ (c : Cand) (k : Nat), c.grid.cls ≠ 0 → c.grid.mode ≠ .replay → s.chooseCore c = some k → fitting c k
        ∧ ∀ j, fitting c j → ¬ (near c j ∧ ¬ near c k) ∧ ((near c j ↔ near c k) → s.slotCount j ≤ s.slotCount k
            ∧ (s.slotCount j = s.slotCount k → k ≤ j)))
    ∧ (∀ (k : Kernel) (core : Nat) (slots : List (List Nat)) (sp : Nat), s.fits k core = some (slots, sp) →
        sp % 768 = 0 ∧ sp + k.spbytes ≤ 393216
        ∧ (∀ tm, resident core tm → sp + k.spbytes ≤ tm.spBase ∨ tm.spBase + tm.spSize ≤ sp)
        ∧ ∀ i < 4, ∃ ss, slots[i]? = some ss ∧ ss.length = groupsOn k.groups i ∧ ss.Nodup
          ∧ ∀ n ∈ ss, n < 8 ∧ ∀ tm g, resident core tm → g ∈ s.groups → g.team = tm.id → g.side = i →
              n ≠ g.slot ∧ (g.kclass = 2 → n ≠ g.slot + 1) ∧ (k.kclass = 2 → n + 1 ≠ g.slot))
    ∧ (∀ (c : Cand) (k : Nat) (slots : List (List Nat)) (sp : Nat), c ∈ s.pool → c.team = none → s.serialOf c.grid.id = none →
        s.pool.find? (fun x => (s.chooseCore x).isSome) = some c → s.chooseCore c = some k → s.fits c.grid.kernel k = some (slots, sp) →
        ∃ t tm, exec .teamPlacement s = .next t ∧ t.team? s.nextId = some tm ∧ tm.grid = c.grid.id ∧ tm.teamId = c.teamId
          ∧ tm.core = k ∧ tm.spBase = sp ∧ tm.spSize = c.grid.kernel.spbytes ∧ tm.state = .clearing ∧ tm.descs = []
          ∧ (∀ i < c.grid.kernel.groups, ∃ g, t.group? (s.nextId + 1 + i) = some g ∧ tm.groups[i]? = some g.gid ∧ g.team = tm.id
              ∧ g.grid = c.grid.id ∧ g.groupId = i ∧ g.core = k ∧ g.side = i % 4 ∧ (slots.getD (i % 4) [])[i / 4]? = some g.slot
              ∧ Starts c.grid g ∧ (i ≠ 0 ∨ (∀ x ∈ s.sup.late, x.1 ≠ (s.ctx c.grid.ctx).pasid) → g.errs = []))
          ∧ (∀ off < c.grid.kernel.spbytes, let x := spAddr k sp off
              spByte t.cores x = 0 ∧ spGate t.cores x = false ∧ spPoison t.cores x = false)
          ∧ (∀ j g, s.group? j = some g → t.group? j = some g)
          ∧ (∀ r ∈ t.disp.resv, ¬ (r.grid = c.grid.id ∧ r.teamId = c.teamId))
          ∧ ∀ d, t.grid? c.grid.id = some d → s.grid? c.grid.id = some c.grid → d = { c.grid with nextTeam := c.grid.nextTeam + 1 })
    ∧ (∀ tm, s.team? s.cur.team = some tm → ∃ t, exec .scratchpadClearDone s = .next t
        ∧ t.team? tm.id = some { tm with state := if tm.state = .clearing then .running else tm.state })
    ∧ (∀ (c : Cand) (k : Nat), s.pool = [c] → s.chooseCore c = none → k < 256 →
        let since := (c.team.map (·.since)).getD c.grid.readyAt
        let choosable := fun k => (s.elig k).eligible = true ∧ (c.grid.cls ≠ 0 → s.reserved k = false)
        let empties := fun k => k < 256 ∧ (s.elig k).eligible = true ∧ s.reserved k = false ∧ (∃ tm, resident k tm)
          ∧ (∀ tm, resident k tm → ∃ d, s.grid? tm.grid = some d ∧ c.grid.cls < d.cls) ∧ ∀ x ∈ s.disp.preempts, x.1 / 64 ≠ k / 64
        let high := s.config 0x28 4
        let normal := s.config 0x2C 4
        let patience := 1000 * if c.grid.cls = 1 then (if high = 0 then 200 else high) else if normal = 0 then 2000 else normal
        (since + 1000000 ≤ s.ltick → (∀ r ∈ s.disp.resv, ¬ (r.grid = c.grid.id ∧ r.teamId = c.teamId)) → choosable k →
          (∀ j < 256, choosable j → s.slotCount j < s.slotCount k ∨ (s.slotCount j = s.slotCount k ∧ k ≤ j)) →
          exec .placementReservation s = .next { s with disp := { s.disp with resv := s.disp.resv ++ [⟨c.grid.id, c.teamId, k⟩] } })
        ∧ (c.grid.cls = 1 ∨ c.grid.cls = 2 → since + patience ≤ s.ltick →
          (∀ x ∈ s.disp.preempts, x.2 ≠ (c.grid.id, c.teamId)) → (∀ tm ∈ s.teams, tm.waitFor ≠ some (c.grid.id, c.teamId)) →
          empties k → (∀ j < k, ¬ empties j) →
          ∃ t, exec .dispatcherPreempt s = .next t ∧ (∀ j tm, s.team? j = some tm → resident k tm → tm.state ≠ .framing →
            t.team? j = some { tm with state := .framing, waitFor := some (c.grid.id, c.teamId) })
            ∧ t.disp = { s.disp with preempts := s.disp.preempts ++ [(k, c.grid.id, c.teamId)] }))
    ∧ (∀ tm, s.team? s.cur.team = some tm →
        let gone := tm.state ≠ .ended ∧ (∀ k ∈ tm.groups, ∀ g, s.group? k = some g → g.ended = true)
          ∧ ∀ o ∈ s.eng.ops, o.team = tm.id → o.onScratch = false
        (¬ gone → exec .teamEnd s = .next s)
        ∧ (gone → ∃ t, exec .teamEnd s = .next t ∧ t.groups = s.groups
          ∧ t.team? tm.id = some { tm with state := .ended, frame := none, descs := [], acqQ := [], frameWait := false }))
    ∧ (∀ d, s.grid? s.cur.grid = some d →
        let mine := fun (gid : Nat) => ∃ g ∈ s.groups, g.gid = gid ∧ g.grid = d.id
        let gone := d.retired = false ∧ d.nextTeam = d.teams ∧ (∀ tm ∈ s.teams, tm.grid = d.id → tm.state = .ended)
          ∧ (∀ e ∈ s.disp.grids, e.parent = some d.id → e.retired = true)
          ∧ (∀ r ∈ s.eng.reqs, mine r.gid → r.kind.isStore = false ∧ r.kind.isRed = false ∧ r.kind ≠ .record) ∧ (∀ o ∈ s.eng.ops, ¬ mine o.gid)
          ∧ ∀ h ∈ s.mem.held, h.2.isLockWord = false ∧ ∀ m, h.2.marker = some m → ¬ mine m
        (¬ gone → exec .gridRetire s = .next s)
        ∧ (gone → s.disp.serials = [] → ∃ t, exec .gridRetire s = .next t
          ∧ (∀ g, g ∈ t.groups ↔ g ∈ s.groups ∧ g.grid ≠ d.id) ∧ (∀ tm, tm ∈ t.teams ↔ tm ∈ s.teams ∧ tm.grid ≠ d.id)
          ∧ (∀ e ∈ t.disp.grids, d.id ∉ e.preds)
          ∧ (if d.done = 0 then ∀ e ∈ t.disp.grids, e.id ≠ d.id else ∀ e ∈ t.disp.grids, e.id = d.id → e.retired = true ∧ e.regions = [])
          ∧ ∀ e ∈ s.disp.grids, e.id ≠ d.id → ∃ e' ∈ t.disp.grids, e'.id = e.id ∧ e'.preds = e.preds.filter (· ≠ d.id)
            ∧ (d.id ∈ e.preds → e'.preds = [] → e'.readyAt = s.ltick)))
    ∧ (∀ d, s.grid? s.cur.grid = some d → (d.retired = false → exec .doneWrite s = .next s)
        ∧ ∀ pa nc res l ofs cls x, d.retired = true → canonical d.done = true →
          s.translate 0 (s.ctx d.ctx).pasid d.done .write = .hit pa nc res →
          s.placeOf pa nc (decide (d.ctx = 0)) = .at (.line l ofs) cls → Open s l x → ofs + 4 ≤ 128 →
          Writable s l ofs (leBytes 4 0) → (∀ r ∈ s.eng.reqs, ¬ (r.gid = 0 ∧ r.lane = 32 ∧ r.op = some (2 ^ 140 + d.id))) →
          let old := leNat ((x.bytes.drop ofs).take 4)
          let add := match d.killed with | some code => code * 65536 + 1 | none => 1
          ∃ t, exec .doneWrite s = .next t ∧ Stored s t l ofs (leBytes 4 (old + add)) ∧ ∀ e ∈ t.disp.grids, e.id ≠ d.id)
    ∧ ∀ (root addr : Nat) (x : Serial), s.disp.serials.find? (fun y => y.root = root && y.mode = .replay) = some x →
        (s.logNext x = none ∨ ∃ e, s.logNext x = some e ∧ e.type = logEnd ∧ e.count < x.count) → let at_ := (s.ctx x.ctx).frameArea + 0x80 + 0x1C
        ∃ t, exec (.replayDivergence root addr) s = .next t ∧ Killed s t root ∧ (Laid s at_ 4 → t.devNat at_ 4 = 2)

/-! The issue stage. -/

/-- R26 to R29: what a ready path is, in what order ready paths stand, and what a cycle of a side issues. R34, R38, R91,
R171: words that cannot go ahead. The agenda and what it holds are the model's own (log 1).
The model's own choices in it: logs 1, 6, 24, 45. -/
def Obligations.IssueTakesReadyPathsAndTurnsBackWords : Prop :=
  ∀ (s : State), s.Canonical →
    (∀ (g : Group), ((s.readyPaths g).Pairwise fun p q => ¬ pickBefore g q p)
      ∧ ∀ p ∈ s.readyPaths g,
        g.ended = false ∧ g.trap = none
        ∧ ((g.halt = .running ∧ g.imprecise = 0) ∨ (∃ u, g.halt = .window u ∧ s.ltick < u ∧ g.imprecise = 0)
          ∨ (g.halt = .halting .step ∧ g.stepFrame ≠ none))
        ∧ (∃ tm, s.team? g.team = some tm ∧ (tm.state = .running ∨ tm.state = .framing))
        ∧ p.path ≠ 0
        ∧ (∀ L < 32, bitOf p.path L = true → (g.lane L).exited = false ∧ (g.lane L).pc = p.pc ∧ waitOver s g (g.lane L))
        ∧ (s.fetchWord g.core g.pasid p.pc).isSome = true
        ∧ ∀ i, p.word.instr? = some i → noPending s g i ∧ pipesTake (s.side (4 * g.core + g.side)) (demandOf i))
    ∧ (∀ (key : Nat),
      let u := s.onSide key fun d => { d with cycle := d.cycle + 1 }
      let d := u.side key
      let step := exec (.sideIssueCycle key) s
      let here := fun (g : Group) => g ∈ s.groups ∧ 4 * g.core + g.side = key
      let resident := fun (g : Group) => here g ∧ g.ended = false
        ∧ ∃ tm, s.team? g.team = some tm ∧ (tm.state = .running ∨ tm.state = .framing)
      let turn := fun (g : Group) => 8 * g.cls + (g.slot + 15 - d.last) % 8
      let counted := fun (t : State) => ∀ k < 8, let e := (sget 0 d.evsel k).toNat
        natBit e 31 = true → natBits e 7 0 = 1 → sget 0 (t.side key).evcnt k = sget 0 d.evcnt k + 1
      let plain := fun (g : Group) => g.frame = none ∧ g.outrider = none ∧ g.peerMarks = []
        ∧ (∀ ln ∈ g.lanes, ∀ n p, ln.wait ≠ .drop n p)
        ∧ ∀ r ∈ s.eng.reqs, r.gid = g.gid → r.sent = true ∨ ∀ k o n, r.place ≠ .peer k o n
      s.disp.serials = [] → s.xl.invals = [] → (∀ g, here g → plain g) → d.carried = none → d.hold < d.cycle →
      ((∀ g, resident g → u.readyPaths g = []) → ∃ t, step = .next t ∧ { t with cores := s.cores } = s
        ∧ { t.cores with sides := s.cores.sides } = s.cores ∧ (t.side key).cycle = d.cycle ∧ counted t)
      ∧ ∀ (g : Group) (p : Pick) (rest : List Pick), resident g → s.group? g.gid = some g → u.readyPaths g = p :: rest →
          (∀ h, resident h → h ≠ g → u.readyPaths h ≠ [] → turn g < turn h) →
          let wide := fun (x : Pick) => (List.range 32).countP fun L => bitOf x.path L
          let comes := fun (issued : List Pick) (carry : Option Pick) => ∃ t g', step = .next t
            ∧ t.agenda = (issued.map fun x => Turn.issue g.gid x.pc x.lanes) ++ s.agenda ∧ t.mem = s.mem
            ∧ (t.side key).last = g.slot ∧ (t.side key).carried = carry.map (fun x => (g.gid, x.pc)) ∧ counted t
            ∧ (∀ k, k ≠ g.gid → t.group? k = s.group? k) ∧ t.group? g.gid = some g'
            ∧ { g' with lanes := g.lanes, pend := g.pend } = g
            ∧ ∀ L < 32, g'.lane L =
                if (issued ++ carry.toList).any (fun x => bitOf x.path L) then { g.lane L with passed := 0 }
                else match (p :: rest).find? fun x => bitOf x.path L with
                  | some x =>
                    let top := (((List.range 32).filter fun K => bitOf x.path K).map fun K => (g.lane K).passed).foldl max 0
                    { g.lane L with passed := min 255 (top + 1) }
                  | none => g.lane L
          match rest with
          | [] => comes [p] none
          | q :: _ =>
            (¬ clash d p q → comes [p, q] none)
            ∧ (clash d p q → wide q < wide p ∨ (wide p = wide q ∧ p.pc.toNat < q.pc.toNat) → comes [p] (some q))
            ∧ (clash d p q → wide p < wide q ∨ (wide p = wide q ∧ q.pc.toNat < p.pc.toNat) → comes [q] (some p)))
    ∧ ∀ (i : Instr) (gd : Guard) (g : Group), i.wf = true → i.view.guard = some gd → s.group? s.cur.gid = some g →
      g.Canonical → g.trap = none →
      let act := activeOf g s.cur gd
      let L := lowest act
      let held := ∀ r ∈ i.writes ++ i.reads, regHeld g r = true
      let together := s.cur.lanes = 0xFFFFFFFF#32 ∧ act = 0xFFFFFFFF#32 ∧ g.running = 0xFFFFFFFF#32
      let bad := act &&& (rdP g gd.pg.toNat).tags
      (∀ r, checkedEarly i = false → ((i.writes ++ i.reads).find? fun r => !regHeld g r) = some r →
        Traps i s g ⟨0x03, L, match r with | .v n | .s n | .p n | .t n | .a n | .x n => n, 0⟩)
      ∧ (¬ held → ∃ x, Traps i s g x)
      ∧ (held → collective i = true → ¬ together → Traps i s g ⟨0x04, L, 0, 0⟩)
      ∧ (held → (collective i = true → together) → checkedEarly i = false → bad ≠ 0 → Traps i s g ⟨0x07, lowest bad, 0, 0⟩)
      ∧ (held → collective i = false → checkedEarly i = false → act = 0 →
          RunsTo i s fun g' => OnlyLanes g g' ∧ MovesOn s.cur 0 g g')

/-! Resets, bring-up and the mailbox. -/

/-- R430, R432 to R437, R440, R441: the two resets, bring-up to READY or to recovery, the management registers,
read and written, and the mailbox commands. The layout of images and the Yuren store are the model's own (logs 4, 19).
The model's own choices in it: logs 4, 19, 38. -/
def Obligations.ResetsBringUpAndTheMailbox : Prop :=
  ∀ (s : State), s.Canonical →
    let y := s.yuren
    let resets := fun (t : State) (kind : Nat) =>
      { t with free := 0, nextId := 1, sent := [], mem := State.reset.mem, rel := State.reset.rel, ctxs := [],
               fab := State.reset.fab, yuren := y } = { State.reset with yuren := y }
      ∧ { t.mem with raw := [] } = State.reset.mem ∧ t.fab.valid = false ∧ t.fab.fabgen = 0 ∧ natBit t.fab.self 31 = false
      ∧ t.fab.out = [] ∧ t.fab.filter = [] ∧ t.fab.seqs = []
      ∧ t.yuren.ready = false ∧ t.yuren.recovery = false ∧ t.yuren.lastReset = kind ∧ t.yuren.err = 0 ∧ t.yuren.stage = 0
      ∧ t.yuren.mr = List.replicate 4 (List.replicate 64 0) ∧ t.yuren.floor = y.floor ∧ t.yuren.secret = y.secret
      ∧ t.yuren.slotA = y.slotA ∧ t.yuren.slotB = y.slotB ∧ t.yuren.upload = [] ∧ t.yuren.outcome = 0 ∧ t.yuren.quotedAt = none
      ∧ t.yuren.slotANew = (y.slotANew && kind != 0) ∧ t.yuren.slotBNew = (y.slotBNew && kind != 0)
      ∧ t.yuren.mboxStat = (if y.mboxStat = 1 then 4 else y.mboxStat)
      ∧ (y.mboxStat = 1 → y.mboxCmd = 1 → if y.runsB then t.yuren.slotAOk = false else t.yuren.slotBOk = false)
    (∃ t, exec .coldReset s = .next t ∧ resets t 0 ∧ t.mem.raw = [] ∧ t.ctxs = [] ∧ t.rel = State.reset.rel ∧ t.fab.porten = 0
      ∧ t.fab.self = 0 ∧ t.fab.reach = [] ∧ t.fab.route = [])
    ∧ (∃ t, exec .packageReset s = .next t ∧ resets t 1 ∧ t.mem.raw = s.mem.raw
      ∧ (∀ n, t.ctx n = { s.ctx n with frames := [] })
      ∧ t.rel = { State.reset.rel with ext := s.rel.ext, strong := s.rel.strong }
      ∧ t.fab.self = s.fab.self % 2 ^ 31 ∧ t.fab.porten = s.fab.porten ∧ t.fab.reach = s.fab.reach ∧ t.fab.route = s.fab.route)
    ∧ (∀ (img : BootImages),
      let step := exec (.bringUp img) s
      let fresh := y.ready = false ∧ y.recovery = false ∧ y.stage = 0
      let failing := (bootChecks y img).find? fun c => !c.1
      let a := if y.slotA = [] then img.slotA else y.slotA
      let b := if y.slotB = [] then img.slotB else y.slotB
      let onA := y.slotAOk = true ∧ y.slotANew = false ∧ Signed a ∧ y.floor ≤ versionOf a
      let fw := fun x => (onA ∧ x = a) ∨ (¬ onA ∧ x = b)
      let body := (img.record.drop 2596).take (img.record.length - 2596 - 4627)
      (¬ fresh → step = .next s)
      ∧ (∀ c, fresh → failing = some c → ∃ t, step = .next t ∧ { t with yuren := y } = s ∧ t.yuren.recovery = true
          ∧ t.yuren.ready = false ∧ t.yuren.stage = c.2.1 ∧ t.yuren.err = c.2.2 ∧ t.yuren.mr = y.mr)
      ∧ (fresh → failing = none → ∃ t, step = .next t ∧ t.yuren.ready = true ∧ t.yuren.recovery = false ∧ t.yuren.stage = 7
          ∧ t.yuren.err = y.err ∧ t.groups = s.groups ∧ t.disp = s.disp ∧ t.sup = s.sup ∧ t.ltick = s.ltick
          ∧ (∀ x, fw x → t.yuren.version = versionOf x ∧ ∀ m0 m1 m2 m3, y.mr = [m0, m1, m2, m3] →
              t.yuren.mr = [extended m0 x, extended m1 img.record, extended (extended m2 img.die) img.dispatcher,
                ((List.range 16).map fun k => img.bases.getD k []).foldl extended m3])
          ∧ t.yuren.record.serial = body.take 16 ∧ t.yuren.record.poolDef = min 16 (leNat ((body.drop 21).take 1))
          ∧ (y.lastReset = 0 →
              (∀ st < 16, ∀ e < 256, sget Extent.reset t.rel.ext (256 * st + e) =
                ⟨if st = 0 ∧ e = 0 then .P else if 256 - t.yuren.record.poolDef ≤ e then .pool
                  else match t.yuren.record.defClass with | 0 => .N | 1 => .D | _ => .P, false⟩)
              ∧ (∀ n, t.ctx n = if n = 0 then { emptyCtx with valid := true, frameArea := 0x2000000, frameLen := 0x1000000, lateQ := 0x1F00000 }
                  else emptyCtx)
              ∧ t.xl.tb.wins = [⟨0, 0⟩, ⟨0, 0⟩, ⟨0, 1⟩] ∧ t.xl.tb.pasidTab = 0x1010000 ∧ t.xl.tb.pasidCount = 0
              ∧ t.xl.tb.hdmBase = 0 ∧ t.xl.tb.peerBase = 0 ∧ t.xl.tb.slotList = 0x1000000
              ∧ ∀ k, sget emptySlot t.xl.slots k = if k = 8192 then ⟨true, false, 0, 0⟩ else emptySlot)))
    ∧ (∀ (off : Nat) (x : Word),
      let step := exec (.registerWrite off x) s
      let starts := fun (e : Instr) (q : Yuren) => step = .next { s with yuren := q, agenda := .event s.cur e :: s.agenda }
      (off = 8 → x = 0x5A#32 → starts .packageReset y) ∧ (off = 8 → x = 0xC0#32 → starts .coldReset y)
      ∧ (off = 0x10 → y.mboxStat = 1 → step = .next s)
      ∧ (off = 0x10 → y.mboxStat ≠ 1 →
          let q := { y with mboxCmd := x, mboxStat := 1, outcome := 0 }
          (x = 1 → starts .mboxUpdate q) ∧ (x = 2 → starts .mboxFloor q) ∧ (x = 3 → starts .quote q)
          ∧ (x = 4 → starts .aliasCert q) ∧ (x = 5 → starts .dikcert q) ∧ (x = 6 → starts .idekey q)
          ∧ (x = 0 ∨ 6 < x.toNat → step = .next { s with yuren := { y with mboxCmd := x, mboxStat := 3 } }))
      ∧ (off = 0x18 → step = .next { s with yuren := { y with mboxLen := if x.toNat ≤ 8192 then x.toNat else y.mboxLen } })
      ∧ (0x2000 ≤ off → off < 0x4000 → off % 4 = 0 → ∃ t, step = .next t
          ∧ { t with yuren := { t.yuren with mboxBuf := y.mboxBuf } } = s
          ∧ ∀ k, sget 0 t.yuren.mboxBuf k = if off ≤ k + 0x2000 ∧ k + 0x2000 < off + 4 then x.extractLsb' (8 * (k + 0x2000 - off)) 8
              else sget 0 y.mboxBuf k)
      ∧ ((off = 8 ∧ x ≠ 0x5A#32 ∧ x ≠ 0xC0#32) ∨ (off ≠ 8 ∧ off ≠ 0x10 ∧ off ≠ 0x18 ∧ (off < 0x2000 ∨ 0x4000 ≤ off)) → step = .next s))
    ∧ (let bootstat := (if y.ready then 2 ^ 31 else 0) + (if y.recovery then 2 ^ 30 else 0) + 2 ^ 28 * y.lastReset + 2 ^ 8 * y.err
        + y.stage
      s.registerRead 0 = 0x4B4A0100#32 ∧ (s.registerRead 4).toNat = bootstat % 2 ^ 32 ∧ s.registerRead 8 = 0
      ∧ (s.registerRead 0xC).toNat = y.record.stepping % 2 ^ 32 ∧ s.registerRead 0x10 = y.mboxCmd
      ∧ (s.registerRead 0x14).toNat = y.mboxStat % 2 ^ 32 ∧ (s.registerRead 0x18).toNat = y.mboxLen % 2 ^ 32
      ∧ (∀ off, 0x2000 ≤ off → off < 0x4000 →
          s.registerRead off = sget 0 y.mboxBuf (off - 0x1FFD) ++ sget 0 y.mboxBuf (off - 0x1FFE) ++ sget 0 y.mboxBuf (off - 0x1FFF)
            ++ sget 0 y.mboxBuf (off - 0x2000))
      ∧ ∀ off, off ∉ [0, 4, 0xC, 0x10, 0x14, 0x18] → off < 0x2000 ∨ 0x4000 ≤ off → s.registerRead off = 0)
    ∧ (let runs := fun (c : Nat) => y.mboxStat = 1 ∧ y.mboxCmd.toNat = c ∧ y.outcome = 0
      let becomes := fun (e : Instr) (q : Yuren) => exec e s = .next { s with yuren := q }
      let refused := { y with outcome := 3 }
      let box := (List.range y.mboxLen).map fun i => sget 0 y.mboxBuf i
      let answers := fun (e : Instr) (b : List Byte) (quoted : Option Nat) => ∃ t, exec e s = .next t
        ∧ { t with yuren := { t.yuren with mboxBuf := y.mboxBuf, mboxLen := y.mboxLen } } =
            { s with yuren := { y with outcome := 2, quotedAt := quoted } }
        ∧ t.yuren.mboxLen = min 8192 b.length ∧ ∀ k < min 8192 b.length, some (sget 0 t.yuren.mboxBuf k) = b[k]?
      (∀ e c, (e, c) ∈ [(Instr.mboxUpdate, 1), (.mboxFloor, 2), (.quote, 3), (.aliasCert, 4), (.dikcert, 5), (.idekey, 6)] →
        ¬ runs c → exec e s = .next s)
      ∧ (runs 1 →
          let img := y.upload ++ box
          (y.mboxLen = 8192 → becomes .mboxUpdate { y with upload := img, outcome := 2 })
          ∧ (y.mboxLen ≠ 8192 → ¬ (Signed img ∧ y.floor ≤ versionOf img) → becomes .mboxUpdate { y with upload := [], outcome := 3 })
          ∧ (y.mboxLen ≠ 8192 → Signed img → y.floor ≤ versionOf img → becomes .mboxUpdate
              (if y.runsB then { y with upload := [], slotA := img, slotAOk := true, slotANew := true, outcome := 2 }
               else { y with upload := [], slotB := img, slotBOk := true, slotBNew := true, outcome := 2 })))
      ∧ (runs 2 → becomes .mboxFloor { y with floor := max y.floor y.version, outcome := 2 })
      ∧ (∀ e c, (e, c) ∈ [(Instr.quote, 3), (.aliasCert, 4), (.dikcert, 5), (.idekey, 6)] → runs c → y.stage < 3 → becomes e refused)
      ∧ (runs 3 → 3 ≤ y.stage →
          let q := ((List.range 64).map fun i => sget 0 y.mboxBuf i) ++ y.mr.flatten ++ leBytes 8 s.ltick ++ leBytes 4 s.fab.self
            ++ leBytes 4 s.fab.fabgen
          (y.quotedAt = some s.ltick → exec .quote s = .next s)
          ∧ (y.quotedAt ≠ some s.ltick →
              answers .quote (q ++ (Config.aliasSign y.secret y.mr (Config.sha3_512 q).toList).toList) (some s.ltick)))
      ∧ (runs 4 → 3 ≤ y.stage →
          let keys := (Config.aliasPublic y.secret y.mr).toList ++ Config.aliasEncap y.secret y.mr
          answers .aliasCert (keys ++ (Config.identitySign y.secret (Config.sha3_512 keys).toList).toList) y.quotedAt)
      ∧ (runs 5 → 3 ≤ y.stage → answers .dikcert y.record.dikCert y.quotedAt)
      ∧ (runs 6 → 3 ≤ y.stage → Config.mlkemDecap y.secret y.mr box = none → becomes .idekey refused)
      ∧ (∀ k, runs 6 → 3 ≤ y.stage → Config.mlkemDecap y.secret y.mr box = some k →
          becomes .idekey { y with ideKeys := y.ideKeys ++ [(Config.ideLink box, k)], outcome := 2 })
      ∧ (y.mboxStat = 1 → y.outcome ≠ 0 → becomes .mboxCommandDone { y with mboxStat := y.outcome, outcome := 0 })
      ∧ (y.mboxStat ≠ 1 ∨ y.outcome = 0 → exec .mboxCommandDone s = .next s))

/-! The machine. -/

/-- R23, R27, R48, R83, R430, R433, R435: the machine right after reset, which is canonical. That memory lists nothing (log 5),
that the power level is 0 (log 16) and that MBOXSTAT is 0 (log 19) are choices of the model.
The model's own choices in it: logs 5, 16, 19. -/
def Obligations.ResetStateIsCanonical : Prop :=
  State.reset.Canonical ∧ State.reset.ltick = 0 ∧ State.reset.groups = [] ∧ State.reset.teams = [] ∧ State.reset.disp.grids = []
    ∧ State.reset.eng = ⟨[], []⟩ ∧ State.reset.mem.depot = [] ∧ State.reset.mem.l1 = [] ∧ State.reset.mem.ic = []
    ∧ State.reset.xl.tlb = [] ∧ State.reset.mem.holdQ = [] ∧ State.reset.mem.locks = [] ∧ State.reset.mem.raw = []
    ∧ State.reset.fab.valid = false ∧ State.reset.fab.fabgen = 0 ∧ State.reset.fab.porten = 0
    ∧ (∀ k < 1024, sget false State.reset.fab.reach k = false)
    ∧ State.reset.sup.vecBase = 0x1800000 ∧ State.reset.sup.trapQ = 0x1C00000 ∧ State.reset.sup.ctxTab = 0
    ∧ State.reset.mem.dquota = 0x84210#32 ∧ State.reset.power.level = 0
    ∧ (∀ k, (State.reset.side k).last = 7 ∧ (State.reset.side k).carried = none
        ∧ ∀ n, sget 0 (State.reset.side k).evsel n = 0 ∧ sget 0 (State.reset.side k).evcnt n = 0)
    ∧ (∀ k, (State.reset.dray k).dstat.state = 0 ∧ (State.reset.dray k).owner = none)
    ∧ State.reset.yuren.ready = false ∧ State.reset.yuren.recovery = false ∧ State.reset.yuren.stage = 0
    ∧ State.reset.yuren.err = 0 ∧ State.reset.yuren.mboxStat = 0

/-- The canonical form is kept by every step, whatever the turn (R5, R17, R82, R168: memory, registers and every other
map hold one value for each place). -/
def Obligations.StepKeepsCanonical : Prop :=
  ∀ (s t : State), s.Canonical → step s = .next t → t.Canonical

/-- R26, R140, R154, R155, R287, R288, R332, R444: a turn of a path runs the instruction that the bytes at its program
counter decode to, with what it reads verified, or goes on with a word that waited for its translation, or holds a word of a
KP leader; a turn of a dray runs the command in its slot, an event its own, and a tick moves the lease clock from stage 3 on;
then what follows an issue.
The model's own choices in it: logs 1, 23, 30, 45, 63. -/
def Obligations.StepRunsTheDecodedWord : Prop :=
  (∀ (s : State) (gid : Nat) (pc : BitVec 64) (lanes : Word) (rest : List Turn) (g : Group) (x : ICLine) (i : Instr),
    s.agenda = .issue gid pc lanes :: rest → s.group? gid = some g →
    s.icFind g.core g.pasid pc.toNat = some x → bitOf x.poison (pc.toNat % 128 / 4) = false →
    bitOf x.poison (pc.toNat % 128 / 4 + 1) = false → decode ((x.bytes.drop (pc.toNat % 128)).take 8) = .ok (i, []) →
    let met := fun (j : Option Instr) (m : Word) => ({ s with agenda := rest } : State).meetWord g j m
    let enters := fun (u : State) (m : Word) (rep : Option (Nat × Nat)) => ({ u with
      groups := u.groups.map fun y => if y.gid = gid then
        { y with lanes := y.lanes.mapIdx fun L ln => if bitOf m L then { ln with wait := .none } else ln } else y
      cur := { Cur.none with gid := gid, pc := pc, lanes := m, rep := rep, team := g.team, grid := g.grid } } : State)
    let ending := fun (r : Out) (f : State → State) => match r with
      | .next t => Host.Outcome.next (f t)
      | .fault f => .fault f
      | .refused r => .refused r
    let chosen := fun (h : Group) => match i with
      | .faultackRetry o => (match (rdSs h o.b.toNat 1).n with
        | 1 => .faultackSkip o | 2 => .faultackRegion o | 3 => .faultackKill o | 4 => .faultackHold o | _ => i)
      | _ => i
    (s.rel.upsets = [] → ∀ j m, met j m = { s with agenda := rest })
    ∧ (∀ u h, (∀ o, i ≠ .rep o) → u = met (some i) lanes → u.group? gid = some h →
        ((∃ L < 32, bitOf lanes L = true ∧ (h.lane L).wait ≠ .walk) → (h.outrider = none ∨ kpWord i ≠ .held) →
          step s = ending (exec (chosen h) (enters u lanes none)) fun t => t.afterIssue h i)
        ∧ ((∃ L < 32, bitOf lanes L = true ∧ (h.lane L).wait ≠ .walk) → h.outrider.isSome = true → kpWord i = .held →
          step s = .next (((enters u lanes none).holdWord h i).countTurn h))
        ∧ ((∀ L < 32, bitOf lanes L = true → (h.lane L).wait = .walk) →
          let own := fun (x : Stash) => x.pc = pc ∧ x.lanes &&& lanes ≠ 0
          let b := h.putVals ((h.stash.filter fun x => own x).flatMap (·.seen))
          let w := (enters u lanes none).onGroup gid fun y =>
            { y.putVals ((h.stash.filter fun x => own x).flatMap (·.seen)) with stash := y.stash.filter fun x => ¬ own x }
          step s = ending (exec (chosen b) w) fun t =>
            t.afterWait b i (regVals h (i.reads.filter fun r => r ∉ i.writes) lanes (activeIn b i lanes))))
    ∧ ∀ o, i = .rep o →
        let k := ((List.range 32).filter fun L => bitOf lanes L).map (fun L => (g.lane L).k) |>.foldl min 64
        let m := maskOf fun L => bitOf lanes L && (g.lane L).k = k
        (s.icFind g.core g.pasid (pc + 8).toNat).isSome = true →
        (k = 0 → ∀ u h, u = met (some i) m → u.group? gid = some h → (∃ L < 32, bitOf m L = true ∧ (h.lane L).wait ≠ .walk) →
          step s = ending (exec i (enters u m none)) fun t => t.afterIssue h i)
        ∧ (k ≠ 0 → ∀ w tag, s.fetchWord g.core g.pasid (pc + 8) = some (w, tag) →
          let enter := fun u => enters u m (some (k, o.count))
          (tag = true ∨ stepWord o w k = none → step s = exec .repetition (enter (met none m)))
          ∧ ∀ j u h, tag = false → stepWord o w k = some j → u = met (some j) m → u.group? gid = some h →
              (∃ L < 32, bitOf m L = true ∧ (h.lane L).wait ≠ .walk) → (h.outrider = none ∨ kpWord j ≠ .held) →
              step s = ending (exec .repetition (enter u)) fun t => t.afterIssue h j))
  ∧ (∀ (s : State) (d : DrayId) (rest : List Turn), s.agenda = .dray d :: rest → d.ok = true →
      let x := s.dray (drayKey d)
      let u := { s with agenda := rest, cur := { Cur.none with dray := d } }
      s.rel.upsets = [] → step s = match decodeCommand (sget 0 x.store x.slot) with
        | .ok i => exec i u
        | .error _ => exec .drayIllegalCommand u)
  ∧ (∀ (s : State) (c : Cur) (i : Instr) (rest : List Turn), s.agenda = .event c i :: rest → isEvent i = true → i.wf = true →
      let u := { s with agenda := rest }
      s.rel.upsets = [] →
      (s.expShare = 0 → step s = exec i { u with cur := c })
      ∧ (∀ v, u.grantShare i = some v → step s = exec i { v with cur := c })
      ∧ (u.grantShare i = none → step s = .next u))
  ∧ (∀ (s : State) (n : Nat) (rest : List Turn), s.agenda = .tick n :: rest →
      step s = .next { s with agenda := rest, ltick := if 3 ≤ s.yuren.stage then s.ltick + n else s.ltick })
  ∧ decodeWord 0x01FFFFFFFB400000#64 = .ok (.bra ⟨BitVec.ofInt 32 (-5), ⟨2, false⟩, 0⟩)
  ∧ decodeWord 0x1114007012345678#64 = .ok (.movImm ⟨20, 0, ⟨0, false⟩, 0x12345678⟩)
  ∧ decodeWord 0x1103070BFFFFFFFF#64 = .ok (.addImm ⟨3, 7, ⟨5, true⟩, BitVec.ofInt 32 (-1)⟩)
  ∧ decodeWord 0x420409020E602088#64 = .ok (.ffma ⟨4, 9, 2, 14, ⟨3, false⟩, .f32, .rz, false, false, false, true, .lane, false⟩)
  ∧ decodeWord 0x50060AFFFE0002A4#64 = .ok (.ld ⟨6, 10, BitVec.ofInt 21 (-64), ⟨0, false⟩, false, 5, .d, .acq, false, false⟩)
  ∧ decodeWord 0xC02127000C70C0C8#64 = .ok (.pairWord ⟨.faddF32, 4, 9, 14 <<< 7⟩ ⟨.addI, 7, 3, 100⟩)
  ∧ decodeWord 0xC02127000C7140C8#64 = .error .illFormed
  ∧ decodeWord 0x7F11400000000000#64 = .ok (.rep ⟨4, 1, 1, 0, 0⟩)
  ∧ decodeWord 0x7D00040000000000#64 = .ok (.grid ⟨0, 4, 0, 0, ⟨0, false⟩, 0⟩)

/-- R140 to R161, R287, R288: what the encoder writes, the decoder reads back, for every well-formed kernel word and dray
command; the five dispositions of FAULTACK share one word (R332); and a word that the decoder reads is the one that the
encoder writes.
The model's own choices in it: log 30. -/
def Obligations.EncodedWordsDecodeBack : Prop :=
  (∀ i : Instr, i.view ≠ .other → i.wf = true → decodeWord (encode i) = .ok i.canon)
  ∧ (∀ i : Instr, isCommand i = true → i.wf = true → decodeCommand (encodeCommand i) = .ok i)
  ∧ (∀ (w : BitVec 64) (i : Instr), decodeWord w = .ok i → encode i = w ∧ i.wf = true ∧ i.view ≠ .other)
  ∧ ∀ (w : BitVec 32) (i : Instr), decodeCommand w = .ok i → encodeCommand i = w ∧ i.wf = true ∧ isCommand i = true
end

