-- ==== Sys2Proof/Laws/Maps.lean ====
section
/-! SUPPORT. Sparse maps: reading after writing, and the canonical form. -/

namespace Sys2Proof.Machine

variable {α : Type}

@[simp] theorem sget_nil (d : α) (k : Nat) : sget d [] k = d := rfl

/-- A key below every listed key reads the default. -/
theorem sget_below (d : α) (m : SMap α) (k : Nat) (h : ∀ x ∈ m, k < x.1) : sget d m k = d := by
  induction m with
  | nil => rfl
  | cons x m ih =>
    have := h x (by simp)
    simp only [sget]
    rw [if_neg (by omega)]
    exact ih fun y hy => h y (by simp [hy])

theorem swf_cons [DecidableEq α] (d : α) (x : Nat × α) (m : SMap α) :
    swf d (x :: m) = true ↔ x.2 ≠ d ∧ (∀ y ∈ m, x.1 < y.1) ∧ swf d m = true := by
  induction m generalizing x with
  | nil => simp [swf]
  | cons y m ih =>
    have hy := ih y
    simp only [swf, Bool.and_eq_true, decide_eq_true_eq, List.mem_cons, forall_eq_or_imp]
    constructor
    · rintro ⟨⟨h1, h2⟩, h3⟩
      exact ⟨h1, ⟨h2, fun z hz => lt_trans h2 ((hy.1 h3).2.1 z hz)⟩, h3⟩
    · rintro ⟨h1, ⟨h2, _⟩, h3⟩
      exact ⟨⟨h1, h2⟩, h3⟩

theorem mem_sset [DecidableEq α] (d : α) (m : SMap α) (k : Nat) (a : α) (x : Nat × α)
    (h : x ∈ sset d m k a) : x ∈ m ∨ x = (k, a) := by
  induction m with
  | nil =>
    simp only [sset] at h
    split at h <;> simp_all
  | cons y m ih =>
    simp only [sset] at h
    split at h
    · split at h <;> simp_all <;> tauto
    · split at h
      · split at h <;> simp_all <;> tauto
      · rcases List.mem_cons.1 h with h | h
        · simp [h]
        · rcases ih h with h | h <;> simp [h]

/-- A write keeps the canonical form. -/
theorem swf_sset [DecidableEq α] (d : α) (m : SMap α) (k : Nat) (a : α) (h : swf d m = true) :
    swf d (sset d m k a) = true := by
  induction m with
  | nil => simp only [sset]; split <;> simp_all [swf]
  | cons y m ih =>
    obtain ⟨h1, h2, h3⟩ := (swf_cons d y m).1 h
    simp only [sset]
    split
    · split
      · exact h
      · refine (swf_cons _ _ _).2 ⟨by simpa, ?_, h⟩
        intro z hz
        rcases List.mem_cons.1 hz with rfl | hz
        · assumption
        · exact lt_trans ‹_› (h2 z hz)
    · split
      · split
        · exact h3
        · refine (swf_cons _ _ _).2 ⟨by simpa, ?_, h3⟩
          intro z hz; have := h2 z hz; simp only; omega
      · refine (swf_cons _ _ _).2 ⟨h1, ?_, ih h3⟩
        intro z hz
        rcases mem_sset d m k a z hz with hz | rfl
        · exact h2 z hz
        · simp only; omega

theorem sget_sset [DecidableEq α] (d : α) (m : SMap α) (k j : Nat) (a : α) (h : swf d m = true) :
    sget d (sset d m k a) j = if j = k then a else sget d m j := by
  induction m with
  | nil =>
    simp only [sset]
    split
    · simp_all [sget]
    · simp [sget]
  | cons y m ih =>
    obtain ⟨h1, h2, h3⟩ := (swf_cons d y m).1 h
    have low : ∀ i, i < y.1 → sget d (y :: m) i = d := fun i hi =>
      sget_below d _ i fun z hz => by
        rcases List.mem_cons.1 hz with rfl | hz
        · exact hi
        · exact lt_trans hi (h2 z hz)
    have lowm : ∀ i, i ≤ y.1 → sget d m i = d := fun i hi =>
      sget_below d _ i fun z hz => lt_of_le_of_lt hi (h2 z hz)
    simp only [sset]
    split
    · rename_i hk
      split
      · rename_i ha
        by_cases hj : j = k
        · subst hj; rw [if_pos rfl, ha]; exact low _ hk
        · rw [if_neg hj]
      · simp only [sget]
    · split
      · rename_i hk
        subst hk
        split
        · rename_i ha
          by_cases hj : j = y.1
          · subst hj; rw [if_pos rfl, ha]; exact lowm _ le_rfl
          · simp [sget, hj]
        · simp only [sget]; split <;> rfl
      · simp only [sget, ih h3]
        by_cases hj : j = y.1
        · subst hj
          rw [if_pos rfl, if_neg (by omega), if_pos rfl]
        · simp [hj]

/-- Two canonical maps that read alike are the same list. -/
theorem smap_ext [DecidableEq α] (d : α) (m n : SMap α) (hm : swf d m = true) (hn : swf d n = true)
    (h : ∀ k, sget d m k = sget d n k) : m = n := by
  induction m generalizing n with
  | nil =>
    cases n with
    | nil => rfl
    | cons y n =>
      have := h y.1
      simp only [sget, if_true] at this
      exact absurd this.symm ((swf_cons d y n).1 hn).1
  | cons x m ih =>
    obtain ⟨x1, x2, x3⟩ := (swf_cons d x m).1 hm
    cases n with
    | nil =>
      have := h x.1
      simp only [sget, if_true] at this
      exact absurd this x1
    | cons y n =>
      obtain ⟨y1, y2, y3⟩ := (swf_cons d y n).1 hn
      have hx := h x.1
      have hy := h y.1
      have key : x.1 = y.1 := by
        rcases lt_trichotomy x.1 y.1 with hlt | heq | hgt
        · rw [sget_below d (y :: n) x.1 (by
            intro z hz
            rcases List.mem_cons.1 hz with rfl | hz
            · exact hlt
            · exact lt_trans hlt (y2 z hz))] at hx
          simp only [sget, if_true] at hx
          exact absurd hx x1
        · exact heq
        · rw [sget_below d (x :: m) y.1 (by
            intro z hz
            rcases List.mem_cons.1 hz with rfl | hz
            · exact hgt
            · exact lt_trans hgt (x2 z hz))] at hy
          simp only [sget, if_true] at hy
          exact absurd hy.symm y1
      have val : x.2 = y.2 := by
        simp only [sget, if_true] at hx
        rw [if_pos key] at hx
        exact hx
      have tail : m = n := by
        apply ih n x3 y3
        intro k
        by_cases hk : k = x.1
        · subst hk
          rw [sget_below d m _ x2, sget_below d n _ (fun z hz => key ▸ y2 z hz)]
        · have := h k
          simp only [sget] at this
          rwa [if_neg hk, if_neg (key ▸ hk)] at this
      rw [tail, Prod.ext key val]

/-- What is left of a canonical map is canonical. -/
theorem swf_filter [DecidableEq α] (d : α) (m : SMap α) (p : Nat × α → Bool) (h : swf d m = true) :
    swf d (m.filter p) = true := by
  induction m with
  | nil => rfl
  | cons x m ih =>
    obtain ⟨hx, hlt, hm⟩ := (swf_cons d x m).1 h
    rw [List.filter_cons]
    split
    · exact (swf_cons d x _).2 ⟨hx, fun y hy => hlt y (List.mem_of_mem_filter hy), ih hm⟩
    · exact ih hm

theorem Memory.wf_nil : Memory.wf [] = true := rfl

/-- A byte written keeps the canonical form of memory. -/
theorem Memory.wf_sset (m : List Host.Cell) (a : Nat) (b : Byte) (h : Memory.wf m = true) :
    Memory.wf (sset (0 : Byte) m a b) = true := swf_sset 0 m a b h

end Sys2Proof.Machine
end

