-- ==== Sys2Proof/Laws/Regs.lean ====
section
/-! SUPPORT. Registers: reading after writing, and what the effect of a register word can change. -/

namespace Sys2Proof.Machine

/-! Lane masks. -/

theorem mem_lanesOf {w : Word} {L : Nat} : L ∈ lanesOf w ↔ L < 32 ∧ bitOf w L = true := by simp [lanesOf]

theorem nodup_lanesOf (w : Word) : (lanesOf w).Nodup := List.nodup_range.filter _

/-- A fold over lanes keeps what each lane's part keeps. -/
theorem eachLane_keeps {α : Type} {w : Word} {f : α → Nat → α} {a : α} (P : α → Prop) (h0 : P a)
    (h : ∀ x L, L < 32 → bitOf w L = true → P x → P (f x L)) : P (eachLane w f a) := by
  have key : ∀ (ls : List Nat), (∀ L ∈ ls, L < 32 ∧ bitOf w L = true) → ∀ x, P x → P (ls.foldl f x) := by
    intro ls
    induction ls with
    | nil => intro _ x hx; exact hx
    | cons L ls ih =>
      intro hl x hx
      exact ih (fun K hK => hl K (by simp [hK])) _ (h x L (hl L (by simp)).1 (hl L (by simp)).2 hx)
  exact key _ (fun L hL => mem_lanesOf.1 hL) a h0

/-- What each lane's part establishes for its own lane, and the others' parts keep, holds at the end. -/
theorem eachLane_own {α : Type} {w : Word} {f : α → Nat → α} {a : α} (I : α → Prop) (Q : Nat → α → Prop) (h0 : I a)
    (hI : ∀ x L, L < 32 → bitOf w L = true → I x → I (f x L))
    (own : ∀ x L, L < 32 → bitOf w L = true → I x → Q L (f x L))
    (keep : ∀ x L K, L < 32 → K < 32 → K ≠ L → bitOf w L = true → I x → Q K x → Q K (f x L)) :
    ∀ L < 32, bitOf w L = true → Q L (eachLane w f a) := by
  have key : ∀ (ls : List Nat), ls.Nodup → (∀ L ∈ ls, L < 32 ∧ bitOf w L = true) → ∀ x, I x →
      (∀ L ∈ ls, Q L (ls.foldl f x)) ∧ ∀ K < 32, K ∉ ls → Q K x → Q K (ls.foldl f x) := by
    intro ls
    induction ls with
    | nil => intro _ _ x _; exact ⟨by simp, fun K _ _ h => h⟩
    | cons M ls ih =>
      intro nd hl x hx
      obtain ⟨nm, nd⟩ := List.nodup_cons.1 nd
      obtain ⟨hM, hb⟩ := hl M (by simp)
      obtain ⟨i1, i2⟩ := ih nd (fun K hK => hl K (by simp [hK])) _ (hI x M hM hb hx)
      refine ⟨fun L hL => ?_, fun K hK hn hq => ?_⟩
      · rcases List.mem_cons.1 hL with rfl | hL
        · exact i2 L hM nm (own x L hM hb hx)
        · exact i1 L hL
      · simp only [List.mem_cons, not_or] at hn
        exact i2 K hK hn.2 (keep x M K hM hK hn.1 hb hx hq)
  intro L hL hb
  exact (key _ (nodup_lanesOf w) (fun K hK => mem_lanesOf.1 hK) a h0).1 L (mem_lanesOf.2 ⟨hL, hb⟩)

/-! Reading after writing. -/

@[simp] theorem rdV_wrV {g : Group} (r L q K : Nat) (x : TW) (h : swf ⟨0, false⟩ g.v = true) (hL : L < 32)
    (hK : K < 32) : rdV (wrV g r L x) q K = if q = r ∧ K = L then x else rdV g q K := by
  simp only [rdV, wrV, sget_sset _ _ _ _ _ h]
  by_cases hq : q = r ∧ K = L
  · rw [if_pos hq, if_pos (by rw [hq.1, hq.2])]
  · rw [if_neg hq, if_neg (by omega)]

@[simp] theorem rdS_wrS {g : Group} (r q : Nat) (x : TW) (h : swf ⟨0, false⟩ g.s = true) :
    rdS (wrS g r x) q = if q = r then x else rdS g q := by
  simp only [rdS, wrS, sget_sset _ _ _ _ _ h]

@[simp] theorem rdP_wrP {g : Group} (r q : Nat) (x : PW) (h : swf ⟨0, 0⟩ g.p = true) :
    rdP (wrP g r x) q = if q = r ∧ r ≠ 0 then x else rdP g q := by
  unfold wrP rdP
  by_cases hr : r = 0
  · subst hr; simp
  · rw [if_neg hr]
    by_cases hq : q = 0
    · subst hq; simp; intro h0; exact absurd h0.symm hr
    · simp only [if_neg hq, sget_sset _ _ _ _ _ h]
      simp [hr]

@[simp] theorem rdS_wrV (g : Group) (r L q : Nat) (x : TW) : rdS (wrV g r L x) q = rdS g q := rfl
@[simp] theorem rdP_wrV (g : Group) (r L q : Nat) (x : TW) : rdP (wrV g r L x) q = rdP g q := rfl
@[simp] theorem rdV_wrS (g : Group) (r q K : Nat) (x : TW) : rdV (wrS g r x) q K = rdV g q K := rfl
@[simp] theorem rdP_wrS (g : Group) (r q : Nat) (x : TW) : rdP (wrS g r x) q = rdP g q := rfl
@[simp] theorem rdV_orFlags (g : Group) (f : Flags) (q K : Nat) : rdV (orFlags g f) q K = rdV g q K := rfl
@[simp] theorem rdS_orFlags (g : Group) (f : Flags) (q : Nat) : rdS (orFlags g f) q = rdS g q := rfl
@[simp] theorem rdP_orFlags (g : Group) (f : Flags) (q : Nat) : rdP (orFlags g f) q = rdP g q := rfl

@[simp] theorem rdV_wrP (g : Group) (r q K : Nat) (x : PW) : rdV (wrP g r x) q K = rdV g q K := by
  unfold wrP; split <;> rfl

@[simp] theorem rdS_wrP (g : Group) (r q : Nat) (x : PW) : rdS (wrP g r x) q = rdS g q := by
  unfold wrP; split <;> rfl

theorem bitOf_put (w : Word) (L K : Nat) (b : Bool) (hL : L < 32) :
    bitOf (if b then w ||| (1#32 <<< L) else w &&& ~~~(1#32 <<< L)) K = if K = L then b else bitOf w K := by
  have one : (1#32 <<< L).getLsbD K = decide (K = L) := by
    simp only [BitVec.getLsbD_shiftLeft, BitVec.getLsbD_one]
    by_cases h : K = L
    · subst h; simp [hL]
    · by_cases h2 : K < L
      · simp [h2, h]
      · simp [h, h2]; intro _; omega
  unfold bitOf
  cases b
  · simp only [Bool.false_eq_true, if_false, BitVec.getLsbD_and, BitVec.getLsbD_not, one]
    by_cases h : K = L
    · simp [h]
    · simp only [h, decide_false, Bool.not_false, Bool.and_true, if_false]
      by_cases hK : K < 32
      · simp [hK]
      · rw [BitVec.getLsbD_of_ge w K (by omega)]; simp
  · simp only [if_true, BitVec.getLsbD_or, one]
    by_cases h : K = L <;> simp [h]

/-- One bit of a predicate register written. -/
theorem rdP_wrPBit {g : Group} (n L q K : Nat) (b t : Bool) (h : swf ⟨0, 0⟩ g.p = true) (hL : L < 32) :
    (bitOf (rdP (wrPBit g n L b t) q).bits K = if q = n ∧ n ≠ 0 ∧ K = L then b else bitOf (rdP g q).bits K)
    ∧ (bitOf (rdP (wrPBit g n L b t) q).tags K = if q = n ∧ n ≠ 0 ∧ K = L then t else bitOf (rdP g q).tags K) := by
  unfold wrPBit
  simp only [rdP_wrP _ _ _ h]
  by_cases hq : q = n ∧ n ≠ 0
  · obtain ⟨rfl, hn⟩ := hq
    simp only [hn, ne_eq, not_false_eq_true, and_self, if_true, true_and]
    exact ⟨bitOf_put _ _ _ _ hL, bitOf_put _ _ _ _ hL⟩
  · have : ¬(q = n ∧ n ≠ 0 ∧ K = L) := fun x => hq ⟨x.1, x.2.1⟩
    rw [if_neg hq, if_neg this, if_neg this]
    exact ⟨rfl, rfl⟩

/-! What a register word's effect can change. -/

/-- `g'` differs from `g` in the registers `ws` alone, in lanes of `act` alone, and in flags that were set; where
`dr`, in the stochastic registers of these lanes as well. -/
structure RegStep (ws : List RegName) (act : Word) (dr : Bool) (g g' : Group) : Prop where
  canon : g.Canonical → g'.Canonical
  only : OnlyRegs g g'
  same : g.Canonical → ∀ r, r ∉ ws → SameReg g g' r
  lane : g.Canonical → ∀ n, ∀ L < 32, bitOf act L = false → rdV g' n L = rdV g n L
  bit : g.Canonical → ∀ n, ∀ L < 32, bitOf act L = false →
    bitOf (rdP g' n).bits L = bitOf (rdP g n).bits L ∧ bitOf (rdP g' n).tags L = bitOf (rdP g n).tags L
  flags : g.fpstat &&& g'.fpstat = g.fpstat
  stand : ∀ L < 32, { g'.lane L with rnd := (g.lane L).rnd } = g.lane L
  rnd : ∀ L < 32, (g'.lane L).rnd = (g.lane L).rnd ∨ (dr = true ∧ bitOf act L = true)

theorem RegStep.refl (ws : List RegName) (act : Word) (dr : Bool) (g : Group) : RegStep ws act dr g g where
  canon h := h
  only := rfl
  same _ r _ := by cases r <;> simp [SameReg]
  lane _ _ _ _ _ := rfl
  bit _ _ _ _ _ := ⟨rfl, rfl⟩
  flags := BitVec.and_self
  stand _ _ := rfl
  rnd _ _ := Or.inl rfl

theorem SameReg.trans {a b c : Group} {r : RegName} (h : SameReg a b r) (k : SameReg b c r) : SameReg a c r := by
  cases r with
  | v n => exact fun L hL => (k L hL).trans (h L hL)
  | s n => exact Eq.trans k h
  | p n => exact Eq.trans k h
  | t n => exact Eq.trans k h
  | a n => exact fun i hi j hj => (k i hi j hj).trans (h i hi j hj)
  | x n => trivial

theorem RegStep.trans {ws : List RegName} {act : Word} {dr : Bool} {a b c : Group} (h : RegStep ws act dr a b)
    (k : RegStep ws act dr b c) : RegStep ws act dr a c where
  canon x := k.canon (h.canon x)
  only := by
    have h1 := h.only
    have h2 := k.only
    simp only [OnlyRegs] at h1 h2 ⊢
    rw [← h2] at h1
    exact h1
  same x r hr := (h.same x r hr).trans (k.same (h.canon x) r hr)
  lane x n L hL hb := (k.lane (h.canon x) n L hL hb).trans (h.lane x n L hL hb)
  bit x n L hL hb := ⟨(k.bit (h.canon x) n L hL hb).1.trans (h.bit x n L hL hb).1,
    (k.bit (h.canon x) n L hL hb).2.trans (h.bit x n L hL hb).2⟩
  flags := by
    have h1 := h.flags
    have h2 := k.flags
    rw [← h1, BitVec.and_assoc, h2]
  stand L hL := by
    have h1 := h.stand L hL
    have h2 := k.stand L hL
    rw [← h2] at h1
    exact h1
  rnd L hL := by
    rcases k.rnd L hL with e | e
    · rcases h.rnd L hL with f | f
      · exact Or.inl (e.trans f)
      · exact Or.inr f
    · exact Or.inr e

theorem RegStep.wrV {ws : List RegName} {act : Word} {dr : Bool} (g : Group) (r L : Nat) (x : TW) (hr : .v r ∈ ws)
    (hL : L < 32) (hb : bitOf act L = true) : RegStep ws act dr g (wrV g r L x) where
  canon h := ⟨h.1, swf_sset _ _ _ _ h.2.1, h.2.2⟩
  only := rfl
  same h q hq := by
    cases q with
    | v n =>
      intro K hK
      rw [rdV_wrV _ _ _ _ _ h.2.1 hL hK, if_neg]
      rintro ⟨rfl, _⟩; exact hq hr
    | s m => rfl
    | p m => rfl
    | t m => rfl
    | a m => exact fun _ _ _ _ => rfl
    | x m => trivial
  lane h n K hK hk := by
    rw [rdV_wrV _ _ _ _ _ h.2.1 hL hK, if_neg]
    rintro ⟨_, rfl⟩; rw [hb] at hk; exact absurd hk (by decide)
  bit _ _ _ _ _ := ⟨rfl, rfl⟩
  flags := BitVec.and_self
  stand _ _ := rfl
  rnd _ _ := Or.inl rfl

theorem RegStep.wrS {ws : List RegName} {act : Word} {dr : Bool} (g : Group) (r : Nat) (x : TW) (hr : .s r ∈ ws) :
    RegStep ws act dr g (wrS g r x) where
  canon h := ⟨h.1, h.2.1, swf_sset _ _ _ _ h.2.2.1, h.2.2.2⟩
  only := rfl
  same h q hq := by
    cases q with
    | s n =>
      show rdS _ n = _
      rw [rdS_wrS _ _ _ h.2.2.1, if_neg]
      rintro rfl; exact hq hr
    | v m => exact fun _ _ => rfl
    | p m => rfl
    | t m => rfl
    | a m => exact fun _ _ _ _ => rfl
    | x m => trivial
  lane _ _ _ _ _ := rfl
  bit _ _ _ _ _ := ⟨rfl, rfl⟩
  flags := BitVec.and_self
  stand _ _ := rfl
  rnd _ _ := Or.inl rfl

theorem RegStep.orFlags {ws : List RegName} {act : Word} {dr : Bool} (g : Group) (f : Flags) :
    RegStep ws act dr g (orFlags g f) where
  canon h := h
  only := rfl
  same _ r _ := by
    cases r with
    | v m => exact fun _ _ => rfl
    | a m => exact fun _ _ _ _ => rfl
    | x m => trivial
    | _ => rfl
  lane _ _ _ _ _ := rfl
  bit _ _ _ _ _ := ⟨rfl, rfl⟩
  flags := by
    show g.fpstat &&& (g.fpstat ||| f) = g.fpstat
    ext i; simp; intro h; simp [h]
  stand _ _ := rfl
  rnd _ _ := Or.inl rfl

theorem wrP_only (g : Group) (n : Nat) (x : PW) :
    wrP g n x = { g with p := (wrP g n x).p } ∧ (g.Canonical → swf ⟨0, 0⟩ (wrP g n x).p = true) := by
  unfold wrP
  split
  · exact ⟨rfl, fun h => h.2.2.2.1⟩
  · exact ⟨rfl, fun h => swf_sset _ _ _ _ h.2.2.2.1⟩

/-- A predicate register written with a value that keeps the bits of every lane outside the mask. -/
theorem RegStep.wrP {ws : List RegName} {act : Word} {dr : Bool} (g : Group) (n : Nat) (x : PW)
    (hr : n ≠ 0 → .p n ∈ ws)
    (hb : ∀ L < 32, bitOf act L = false → bitOf x.bits L = bitOf (rdP g n).bits L ∧ bitOf x.tags L = bitOf (rdP g n).tags L) :
    RegStep ws act dr g (wrP g n x) := by
  obtain ⟨e, c⟩ := wrP_only g n x
  refine ⟨fun h => ?_, ?_, fun h q hq => ?_, fun _ m L _ _ => ?_, fun h m L hL hl => ?_, ?_, fun L _ => ?_, fun L _ => ?_⟩
  · rw [e]; exact ⟨h.1, h.2.1, h.2.2.1, c h, h.2.2.2.2⟩
  · rw [e]
  · cases q with
    | p m =>
      show rdP _ m = _
      rw [rdP_wrP _ _ _ h.2.2.2.1, if_neg]
      rintro ⟨rfl, h0⟩; exact hq (hr h0)
    | v m => intro L _; exact rdV_wrP _ _ _ _ _
    | s m => exact rdS_wrP _ _ _ _
    | t m => show rdT _ _ = _; rw [e]; rfl
    | a m => intro i _ j _; rw [e]; rfl
    | x m => trivial
  · exact rdV_wrP _ _ _ _ _
  · rw [rdP_wrP _ _ _ h.2.2.2.1]
    split
    · rename_i hm; rw [hm.1]; exact hb L hL hl
    · exact ⟨rfl, rfl⟩
  · rw [e]; exact BitVec.and_self
  · rw [e]; rfl
  · rw [e]; exact Or.inl rfl

theorem RegStep.wrPBit {ws : List RegName} {act : Word} {dr : Bool} (g : Group) (n L : Nat) (b t : Bool)
    (hr : n ≠ 0 → .p n ∈ ws) (hL : L < 32) (ha : bitOf act L = true) : RegStep ws act dr g (wrPBit g n L b t) := by
  refine RegStep.wrP g n _ hr fun K _ hk => ?_
  have hne : K ≠ L := by rintro rfl; rw [ha] at hk; exact absurd hk (by decide)
  constructor
  · show bitOf (if b then _ else _) K = _
    rw [bitOf_put _ _ _ _ hL, if_neg hne]
  · show bitOf (if t then _ else _) K = _
    rw [bitOf_put _ _ _ _ hL, if_neg hne]

theorem RegStep.fold {ws : List RegName} {act : Word} {dr : Bool} (f : Group → Nat → Group)
    (ls : List Nat) (h : ∀ x i, i ∈ ls → RegStep ws act dr x (f x i)) (g : Group) : RegStep ws act dr g (ls.foldl f g) := by
  induction ls generalizing g with
  | nil => exact RegStep.refl _ _ _ _
  | cons i ls ih => exact (h g i (by simp)).trans (ih (fun x j hj => h x j (by simp [hj])) _)

theorem RegStep.wrVs {ws : List RegName} {act : Word} {dr : Bool} (g : Group) (r w L n : Nat) (tag : Bool)
    (hr : ∀ i < w, .v (r + i) ∈ ws) (hL : L < 32) (hb : bitOf act L = true) :
    RegStep ws act dr g (wrVs g r w L n tag) :=
  RegStep.fold _ _ (fun x i hi => RegStep.wrV x _ _ _ (hr i (by simpa using hi)) hL hb) g

theorem RegStep.wrSs {ws : List RegName} {act : Word} {dr : Bool} (g : Group) (r w n : Nat) (tag : Bool)
    (hr : ∀ i < w, .s (r + i) ∈ ws) : RegStep ws act dr g (wrSs g r w n tag) :=
  RegStep.fold _ _ (fun x i hi => RegStep.wrS x _ _ (hr i (by simpa using hi))) g

theorem RegStep.eachLane {ws : List RegName} {act : Word} {dr : Bool} (f : Group → Nat → Group)
    (h : ∀ x L, L < 32 → bitOf act L = true → RegStep ws act dr x (f x L)) (g : Group) :
    RegStep ws act dr g (Machine.eachLane act f g) :=
  RegStep.fold _ _ (fun x L hL => h x L (mem_lanesOf.1 hL).1 (mem_lanesOf.1 hL).2) g

end Sys2Proof.Machine
end

