-- ==== Sys2Proof/Laws/State.lean ====
section
/-! SUPPORT. What each update of the state leaves and what it changes: one lemma for each field and update. -/

namespace Sys2Proof.Machine

/-! `State.onGroup`. -/

@[simp] theorem onGroup_agenda (s : State) (k : Nat) (f : Group → Group) : (s.onGroup k f).agenda = s.agenda := rfl
@[simp] theorem onGroup_cur (s : State) (k : Nat) (f : Group → Group) : (s.onGroup k f).cur = s.cur := rfl
@[simp] theorem onGroup_free (s : State) (k : Nat) (f : Group → Group) : (s.onGroup k f).free = s.free := rfl
@[simp] theorem onGroup_nextId (s : State) (k : Nat) (f : Group → Group) : (s.onGroup k f).nextId = s.nextId := rfl
@[simp] theorem onGroup_ltick (s : State) (k : Nat) (f : Group → Group) : (s.onGroup k f).ltick = s.ltick := rfl
@[simp] theorem onGroup_teams (s : State) (k : Nat) (f : Group → Group) : (s.onGroup k f).teams = s.teams := rfl
@[simp] theorem onGroup_cores (s : State) (k : Nat) (f : Group → Group) : (s.onGroup k f).cores = s.cores := rfl
@[simp] theorem onGroup_mem (s : State) (k : Nat) (f : Group → Group) : (s.onGroup k f).mem = s.mem := rfl
@[simp] theorem onGroup_xl (s : State) (k : Nat) (f : Group → Group) : (s.onGroup k f).xl = s.xl := rfl
@[simp] theorem onGroup_rel (s : State) (k : Nat) (f : Group → Group) : (s.onGroup k f).rel = s.rel := rfl
@[simp] theorem onGroup_ctxs (s : State) (k : Nat) (f : Group → Group) : (s.onGroup k f).ctxs = s.ctxs := rfl
@[simp] theorem onGroup_drays (s : State) (k : Nat) (f : Group → Group) : (s.onGroup k f).drays = s.drays := rfl
@[simp] theorem onGroup_eng (s : State) (k : Nat) (f : Group → Group) : (s.onGroup k f).eng = s.eng := rfl
@[simp] theorem onGroup_fab (s : State) (k : Nat) (f : Group → Group) : (s.onGroup k f).fab = s.fab := rfl
@[simp] theorem onGroup_disp (s : State) (k : Nat) (f : Group → Group) : (s.onGroup k f).disp = s.disp := rfl
@[simp] theorem onGroup_sup (s : State) (k : Nat) (f : Group → Group) : (s.onGroup k f).sup = s.sup := rfl
@[simp] theorem onGroup_power (s : State) (k : Nat) (f : Group → Group) : (s.onGroup k f).power = s.power := rfl
@[simp] theorem onGroup_yuren (s : State) (k : Nat) (f : Group → Group) : (s.onGroup k f).yuren = s.yuren := rfl
@[simp] theorem onGroup_sent (s : State) (k : Nat) (f : Group → Group) : (s.onGroup k f).sent = s.sent := rfl

/-! `State.onTeam`. -/

@[simp] theorem onTeam_agenda (s : State) (k : Nat) (f : Team → Team) : (s.onTeam k f).agenda = s.agenda := rfl
@[simp] theorem onTeam_cur (s : State) (k : Nat) (f : Team → Team) : (s.onTeam k f).cur = s.cur := rfl
@[simp] theorem onTeam_free (s : State) (k : Nat) (f : Team → Team) : (s.onTeam k f).free = s.free := rfl
@[simp] theorem onTeam_nextId (s : State) (k : Nat) (f : Team → Team) : (s.onTeam k f).nextId = s.nextId := rfl
@[simp] theorem onTeam_ltick (s : State) (k : Nat) (f : Team → Team) : (s.onTeam k f).ltick = s.ltick := rfl
@[simp] theorem onTeam_groups (s : State) (k : Nat) (f : Team → Team) : (s.onTeam k f).groups = s.groups := rfl
@[simp] theorem onTeam_cores (s : State) (k : Nat) (f : Team → Team) : (s.onTeam k f).cores = s.cores := rfl
@[simp] theorem onTeam_mem (s : State) (k : Nat) (f : Team → Team) : (s.onTeam k f).mem = s.mem := rfl
@[simp] theorem onTeam_xl (s : State) (k : Nat) (f : Team → Team) : (s.onTeam k f).xl = s.xl := rfl
@[simp] theorem onTeam_rel (s : State) (k : Nat) (f : Team → Team) : (s.onTeam k f).rel = s.rel := rfl
@[simp] theorem onTeam_ctxs (s : State) (k : Nat) (f : Team → Team) : (s.onTeam k f).ctxs = s.ctxs := rfl
@[simp] theorem onTeam_drays (s : State) (k : Nat) (f : Team → Team) : (s.onTeam k f).drays = s.drays := rfl
@[simp] theorem onTeam_eng (s : State) (k : Nat) (f : Team → Team) : (s.onTeam k f).eng = s.eng := rfl
@[simp] theorem onTeam_fab (s : State) (k : Nat) (f : Team → Team) : (s.onTeam k f).fab = s.fab := rfl
@[simp] theorem onTeam_disp (s : State) (k : Nat) (f : Team → Team) : (s.onTeam k f).disp = s.disp := rfl
@[simp] theorem onTeam_sup (s : State) (k : Nat) (f : Team → Team) : (s.onTeam k f).sup = s.sup := rfl
@[simp] theorem onTeam_power (s : State) (k : Nat) (f : Team → Team) : (s.onTeam k f).power = s.power := rfl
@[simp] theorem onTeam_yuren (s : State) (k : Nat) (f : Team → Team) : (s.onTeam k f).yuren = s.yuren := rfl
@[simp] theorem onTeam_sent (s : State) (k : Nat) (f : Team → Team) : (s.onTeam k f).sent = s.sent := rfl

/-! `State.onGrid`. -/

@[simp] theorem onGrid_agenda (s : State) (k : Nat) (f : Grid → Grid) : (s.onGrid k f).agenda = s.agenda := rfl
@[simp] theorem onGrid_cur (s : State) (k : Nat) (f : Grid → Grid) : (s.onGrid k f).cur = s.cur := rfl
@[simp] theorem onGrid_free (s : State) (k : Nat) (f : Grid → Grid) : (s.onGrid k f).free = s.free := rfl
@[simp] theorem onGrid_nextId (s : State) (k : Nat) (f : Grid → Grid) : (s.onGrid k f).nextId = s.nextId := rfl
@[simp] theorem onGrid_ltick (s : State) (k : Nat) (f : Grid → Grid) : (s.onGrid k f).ltick = s.ltick := rfl
@[simp] theorem onGrid_groups (s : State) (k : Nat) (f : Grid → Grid) : (s.onGrid k f).groups = s.groups := rfl
@[simp] theorem onGrid_teams (s : State) (k : Nat) (f : Grid → Grid) : (s.onGrid k f).teams = s.teams := rfl
@[simp] theorem onGrid_cores (s : State) (k : Nat) (f : Grid → Grid) : (s.onGrid k f).cores = s.cores := rfl
@[simp] theorem onGrid_mem (s : State) (k : Nat) (f : Grid → Grid) : (s.onGrid k f).mem = s.mem := rfl
@[simp] theorem onGrid_xl (s : State) (k : Nat) (f : Grid → Grid) : (s.onGrid k f).xl = s.xl := rfl
@[simp] theorem onGrid_rel (s : State) (k : Nat) (f : Grid → Grid) : (s.onGrid k f).rel = s.rel := rfl
@[simp] theorem onGrid_ctxs (s : State) (k : Nat) (f : Grid → Grid) : (s.onGrid k f).ctxs = s.ctxs := rfl
@[simp] theorem onGrid_drays (s : State) (k : Nat) (f : Grid → Grid) : (s.onGrid k f).drays = s.drays := rfl
@[simp] theorem onGrid_eng (s : State) (k : Nat) (f : Grid → Grid) : (s.onGrid k f).eng = s.eng := rfl
@[simp] theorem onGrid_fab (s : State) (k : Nat) (f : Grid → Grid) : (s.onGrid k f).fab = s.fab := rfl
@[simp] theorem onGrid_sup (s : State) (k : Nat) (f : Grid → Grid) : (s.onGrid k f).sup = s.sup := rfl
@[simp] theorem onGrid_power (s : State) (k : Nat) (f : Grid → Grid) : (s.onGrid k f).power = s.power := rfl
@[simp] theorem onGrid_yuren (s : State) (k : Nat) (f : Grid → Grid) : (s.onGrid k f).yuren = s.yuren := rfl
@[simp] theorem onGrid_sent (s : State) (k : Nat) (f : Grid → Grid) : (s.onGrid k f).sent = s.sent := rfl

/-! `State.onCtx`. -/

@[simp] theorem onCtx_agenda (s : State) (k : Nat) (f : Ctx → Ctx) : (s.onCtx k f).agenda = s.agenda := rfl
@[simp] theorem onCtx_cur (s : State) (k : Nat) (f : Ctx → Ctx) : (s.onCtx k f).cur = s.cur := rfl
@[simp] theorem onCtx_free (s : State) (k : Nat) (f : Ctx → Ctx) : (s.onCtx k f).free = s.free := rfl
@[simp] theorem onCtx_nextId (s : State) (k : Nat) (f : Ctx → Ctx) : (s.onCtx k f).nextId = s.nextId := rfl
@[simp] theorem onCtx_ltick (s : State) (k : Nat) (f : Ctx → Ctx) : (s.onCtx k f).ltick = s.ltick := rfl
@[simp] theorem onCtx_groups (s : State) (k : Nat) (f : Ctx → Ctx) : (s.onCtx k f).groups = s.groups := rfl
@[simp] theorem onCtx_teams (s : State) (k : Nat) (f : Ctx → Ctx) : (s.onCtx k f).teams = s.teams := rfl
@[simp] theorem onCtx_cores (s : State) (k : Nat) (f : Ctx → Ctx) : (s.onCtx k f).cores = s.cores := rfl
@[simp] theorem onCtx_mem (s : State) (k : Nat) (f : Ctx → Ctx) : (s.onCtx k f).mem = s.mem := rfl
@[simp] theorem onCtx_xl (s : State) (k : Nat) (f : Ctx → Ctx) : (s.onCtx k f).xl = s.xl := rfl
@[simp] theorem onCtx_rel (s : State) (k : Nat) (f : Ctx → Ctx) : (s.onCtx k f).rel = s.rel := rfl
@[simp] theorem onCtx_drays (s : State) (k : Nat) (f : Ctx → Ctx) : (s.onCtx k f).drays = s.drays := rfl
@[simp] theorem onCtx_eng (s : State) (k : Nat) (f : Ctx → Ctx) : (s.onCtx k f).eng = s.eng := rfl
@[simp] theorem onCtx_fab (s : State) (k : Nat) (f : Ctx → Ctx) : (s.onCtx k f).fab = s.fab := rfl
@[simp] theorem onCtx_disp (s : State) (k : Nat) (f : Ctx → Ctx) : (s.onCtx k f).disp = s.disp := rfl
@[simp] theorem onCtx_sup (s : State) (k : Nat) (f : Ctx → Ctx) : (s.onCtx k f).sup = s.sup := rfl
@[simp] theorem onCtx_power (s : State) (k : Nat) (f : Ctx → Ctx) : (s.onCtx k f).power = s.power := rfl
@[simp] theorem onCtx_yuren (s : State) (k : Nat) (f : Ctx → Ctx) : (s.onCtx k f).yuren = s.yuren := rfl
@[simp] theorem onCtx_sent (s : State) (k : Nat) (f : Ctx → Ctx) : (s.onCtx k f).sent = s.sent := rfl

/-! `State.onSide`. -/

@[simp] theorem onSide_agenda (s : State) (k : Nat) (f : Side → Side) : (s.onSide k f).agenda = s.agenda := rfl
@[simp] theorem onSide_cur (s : State) (k : Nat) (f : Side → Side) : (s.onSide k f).cur = s.cur := rfl
@[simp] theorem onSide_free (s : State) (k : Nat) (f : Side → Side) : (s.onSide k f).free = s.free := rfl
@[simp] theorem onSide_nextId (s : State) (k : Nat) (f : Side → Side) : (s.onSide k f).nextId = s.nextId := rfl
@[simp] theorem onSide_ltick (s : State) (k : Nat) (f : Side → Side) : (s.onSide k f).ltick = s.ltick := rfl
@[simp] theorem onSide_groups (s : State) (k : Nat) (f : Side → Side) : (s.onSide k f).groups = s.groups := rfl
@[simp] theorem onSide_teams (s : State) (k : Nat) (f : Side → Side) : (s.onSide k f).teams = s.teams := rfl
@[simp] theorem onSide_mem (s : State) (k : Nat) (f : Side → Side) : (s.onSide k f).mem = s.mem := rfl
@[simp] theorem onSide_xl (s : State) (k : Nat) (f : Side → Side) : (s.onSide k f).xl = s.xl := rfl
@[simp] theorem onSide_rel (s : State) (k : Nat) (f : Side → Side) : (s.onSide k f).rel = s.rel := rfl
@[simp] theorem onSide_ctxs (s : State) (k : Nat) (f : Side → Side) : (s.onSide k f).ctxs = s.ctxs := rfl
@[simp] theorem onSide_drays (s : State) (k : Nat) (f : Side → Side) : (s.onSide k f).drays = s.drays := rfl
@[simp] theorem onSide_eng (s : State) (k : Nat) (f : Side → Side) : (s.onSide k f).eng = s.eng := rfl
@[simp] theorem onSide_fab (s : State) (k : Nat) (f : Side → Side) : (s.onSide k f).fab = s.fab := rfl
@[simp] theorem onSide_disp (s : State) (k : Nat) (f : Side → Side) : (s.onSide k f).disp = s.disp := rfl
@[simp] theorem onSide_sup (s : State) (k : Nat) (f : Side → Side) : (s.onSide k f).sup = s.sup := rfl
@[simp] theorem onSide_power (s : State) (k : Nat) (f : Side → Side) : (s.onSide k f).power = s.power := rfl
@[simp] theorem onSide_yuren (s : State) (k : Nat) (f : Side → Side) : (s.onSide k f).yuren = s.yuren := rfl
@[simp] theorem onSide_sent (s : State) (k : Nat) (f : Side → Side) : (s.onSide k f).sent = s.sent := rfl

/-! `State.onDray`. -/

@[simp] theorem onDray_agenda (s : State) (k : Nat) (f : Dray → Dray) : (s.onDray k f).agenda = s.agenda := rfl
@[simp] theorem onDray_cur (s : State) (k : Nat) (f : Dray → Dray) : (s.onDray k f).cur = s.cur := rfl
@[simp] theorem onDray_free (s : State) (k : Nat) (f : Dray → Dray) : (s.onDray k f).free = s.free := rfl
@[simp] theorem onDray_nextId (s : State) (k : Nat) (f : Dray → Dray) : (s.onDray k f).nextId = s.nextId := rfl
@[simp] theorem onDray_ltick (s : State) (k : Nat) (f : Dray → Dray) : (s.onDray k f).ltick = s.ltick := rfl
@[simp] theorem onDray_groups (s : State) (k : Nat) (f : Dray → Dray) : (s.onDray k f).groups = s.groups := rfl
@[simp] theorem onDray_teams (s : State) (k : Nat) (f : Dray → Dray) : (s.onDray k f).teams = s.teams := rfl
@[simp] theorem onDray_cores (s : State) (k : Nat) (f : Dray → Dray) : (s.onDray k f).cores = s.cores := rfl
@[simp] theorem onDray_mem (s : State) (k : Nat) (f : Dray → Dray) : (s.onDray k f).mem = s.mem := rfl
@[simp] theorem onDray_xl (s : State) (k : Nat) (f : Dray → Dray) : (s.onDray k f).xl = s.xl := rfl
@[simp] theorem onDray_rel (s : State) (k : Nat) (f : Dray → Dray) : (s.onDray k f).rel = s.rel := rfl
@[simp] theorem onDray_ctxs (s : State) (k : Nat) (f : Dray → Dray) : (s.onDray k f).ctxs = s.ctxs := rfl
@[simp] theorem onDray_eng (s : State) (k : Nat) (f : Dray → Dray) : (s.onDray k f).eng = s.eng := rfl
@[simp] theorem onDray_fab (s : State) (k : Nat) (f : Dray → Dray) : (s.onDray k f).fab = s.fab := rfl
@[simp] theorem onDray_disp (s : State) (k : Nat) (f : Dray → Dray) : (s.onDray k f).disp = s.disp := rfl
@[simp] theorem onDray_sup (s : State) (k : Nat) (f : Dray → Dray) : (s.onDray k f).sup = s.sup := rfl
@[simp] theorem onDray_power (s : State) (k : Nat) (f : Dray → Dray) : (s.onDray k f).power = s.power := rfl
@[simp] theorem onDray_yuren (s : State) (k : Nat) (f : Dray → Dray) : (s.onDray k f).yuren = s.yuren := rfl
@[simp] theorem onDray_sent (s : State) (k : Nat) (f : Dray → Dray) : (s.onDray k f).sent = s.sent := rfl

/-! `State.onReq`. -/

@[simp] theorem onReq_agenda (s : State) (k : Nat) (f : Req → Req) : (s.onReq k f).agenda = s.agenda := rfl
@[simp] theorem onReq_cur (s : State) (k : Nat) (f : Req → Req) : (s.onReq k f).cur = s.cur := rfl
@[simp] theorem onReq_free (s : State) (k : Nat) (f : Req → Req) : (s.onReq k f).free = s.free := rfl
@[simp] theorem onReq_nextId (s : State) (k : Nat) (f : Req → Req) : (s.onReq k f).nextId = s.nextId := rfl
@[simp] theorem onReq_ltick (s : State) (k : Nat) (f : Req → Req) : (s.onReq k f).ltick = s.ltick := rfl
@[simp] theorem onReq_groups (s : State) (k : Nat) (f : Req → Req) : (s.onReq k f).groups = s.groups := rfl
@[simp] theorem onReq_teams (s : State) (k : Nat) (f : Req → Req) : (s.onReq k f).teams = s.teams := rfl
@[simp] theorem onReq_cores (s : State) (k : Nat) (f : Req → Req) : (s.onReq k f).cores = s.cores := rfl
@[simp] theorem onReq_mem (s : State) (k : Nat) (f : Req → Req) : (s.onReq k f).mem = s.mem := rfl
@[simp] theorem onReq_xl (s : State) (k : Nat) (f : Req → Req) : (s.onReq k f).xl = s.xl := rfl
@[simp] theorem onReq_rel (s : State) (k : Nat) (f : Req → Req) : (s.onReq k f).rel = s.rel := rfl
@[simp] theorem onReq_ctxs (s : State) (k : Nat) (f : Req → Req) : (s.onReq k f).ctxs = s.ctxs := rfl
@[simp] theorem onReq_drays (s : State) (k : Nat) (f : Req → Req) : (s.onReq k f).drays = s.drays := rfl
@[simp] theorem onReq_fab (s : State) (k : Nat) (f : Req → Req) : (s.onReq k f).fab = s.fab := rfl
@[simp] theorem onReq_disp (s : State) (k : Nat) (f : Req → Req) : (s.onReq k f).disp = s.disp := rfl
@[simp] theorem onReq_sup (s : State) (k : Nat) (f : Req → Req) : (s.onReq k f).sup = s.sup := rfl
@[simp] theorem onReq_power (s : State) (k : Nat) (f : Req → Req) : (s.onReq k f).power = s.power := rfl
@[simp] theorem onReq_yuren (s : State) (k : Nat) (f : Req → Req) : (s.onReq k f).yuren = s.yuren := rfl
@[simp] theorem onReq_sent (s : State) (k : Nat) (f : Req → Req) : (s.onReq k f).sent = s.sent := rfl

/-! `State.dropReq`. -/

@[simp] theorem dropReq_agenda (s : State) (k : Nat) : (s.dropReq k).agenda = s.agenda := rfl
@[simp] theorem dropReq_cur (s : State) (k : Nat) : (s.dropReq k).cur = s.cur := rfl
@[simp] theorem dropReq_free (s : State) (k : Nat) : (s.dropReq k).free = s.free := rfl
@[simp] theorem dropReq_nextId (s : State) (k : Nat) : (s.dropReq k).nextId = s.nextId := rfl
@[simp] theorem dropReq_ltick (s : State) (k : Nat) : (s.dropReq k).ltick = s.ltick := rfl
@[simp] theorem dropReq_groups (s : State) (k : Nat) : (s.dropReq k).groups = s.groups := rfl
@[simp] theorem dropReq_teams (s : State) (k : Nat) : (s.dropReq k).teams = s.teams := rfl
@[simp] theorem dropReq_cores (s : State) (k : Nat) : (s.dropReq k).cores = s.cores := rfl
@[simp] theorem dropReq_mem (s : State) (k : Nat) : (s.dropReq k).mem = s.mem := rfl
@[simp] theorem dropReq_xl (s : State) (k : Nat) : (s.dropReq k).xl = s.xl := rfl
@[simp] theorem dropReq_rel (s : State) (k : Nat) : (s.dropReq k).rel = s.rel := rfl
@[simp] theorem dropReq_ctxs (s : State) (k : Nat) : (s.dropReq k).ctxs = s.ctxs := rfl
@[simp] theorem dropReq_drays (s : State) (k : Nat) : (s.dropReq k).drays = s.drays := rfl
@[simp] theorem dropReq_fab (s : State) (k : Nat) : (s.dropReq k).fab = s.fab := rfl
@[simp] theorem dropReq_disp (s : State) (k : Nat) : (s.dropReq k).disp = s.disp := rfl
@[simp] theorem dropReq_sup (s : State) (k : Nat) : (s.dropReq k).sup = s.sup := rfl
@[simp] theorem dropReq_power (s : State) (k : Nat) : (s.dropReq k).power = s.power := rfl
@[simp] theorem dropReq_yuren (s : State) (k : Nat) : (s.dropReq k).yuren = s.yuren := rfl
@[simp] theorem dropReq_sent (s : State) (k : Nat) : (s.dropReq k).sent = s.sent := rfl

/-! `State.onOp`. -/

@[simp] theorem onOp_agenda (s : State) (k : Nat) (f : Op → Op) : (s.onOp k f).agenda = s.agenda := rfl
@[simp] theorem onOp_cur (s : State) (k : Nat) (f : Op → Op) : (s.onOp k f).cur = s.cur := rfl
@[simp] theorem onOp_free (s : State) (k : Nat) (f : Op → Op) : (s.onOp k f).free = s.free := rfl
@[simp] theorem onOp_nextId (s : State) (k : Nat) (f : Op → Op) : (s.onOp k f).nextId = s.nextId := rfl
@[simp] theorem onOp_ltick (s : State) (k : Nat) (f : Op → Op) : (s.onOp k f).ltick = s.ltick := rfl
@[simp] theorem onOp_groups (s : State) (k : Nat) (f : Op → Op) : (s.onOp k f).groups = s.groups := rfl
@[simp] theorem onOp_teams (s : State) (k : Nat) (f : Op → Op) : (s.onOp k f).teams = s.teams := rfl
@[simp] theorem onOp_cores (s : State) (k : Nat) (f : Op → Op) : (s.onOp k f).cores = s.cores := rfl
@[simp] theorem onOp_mem (s : State) (k : Nat) (f : Op → Op) : (s.onOp k f).mem = s.mem := rfl
@[simp] theorem onOp_xl (s : State) (k : Nat) (f : Op → Op) : (s.onOp k f).xl = s.xl := rfl
@[simp] theorem onOp_rel (s : State) (k : Nat) (f : Op → Op) : (s.onOp k f).rel = s.rel := rfl
@[simp] theorem onOp_ctxs (s : State) (k : Nat) (f : Op → Op) : (s.onOp k f).ctxs = s.ctxs := rfl
@[simp] theorem onOp_drays (s : State) (k : Nat) (f : Op → Op) : (s.onOp k f).drays = s.drays := rfl
@[simp] theorem onOp_fab (s : State) (k : Nat) (f : Op → Op) : (s.onOp k f).fab = s.fab := rfl
@[simp] theorem onOp_disp (s : State) (k : Nat) (f : Op → Op) : (s.onOp k f).disp = s.disp := rfl
@[simp] theorem onOp_sup (s : State) (k : Nat) (f : Op → Op) : (s.onOp k f).sup = s.sup := rfl
@[simp] theorem onOp_power (s : State) (k : Nat) (f : Op → Op) : (s.onOp k f).power = s.power := rfl
@[simp] theorem onOp_yuren (s : State) (k : Nat) (f : Op → Op) : (s.onOp k f).yuren = s.yuren := rfl
@[simp] theorem onOp_sent (s : State) (k : Nat) (f : Op → Op) : (s.onOp k f).sent = s.sent := rfl

/-! `State.send`. -/

@[simp] theorem send_agenda (s : State) (m : HostMsg) : (s.send m).agenda = s.agenda := rfl
@[simp] theorem send_cur (s : State) (m : HostMsg) : (s.send m).cur = s.cur := rfl
@[simp] theorem send_free (s : State) (m : HostMsg) : (s.send m).free = s.free := rfl
@[simp] theorem send_nextId (s : State) (m : HostMsg) : (s.send m).nextId = s.nextId := rfl
@[simp] theorem send_ltick (s : State) (m : HostMsg) : (s.send m).ltick = s.ltick := rfl
@[simp] theorem send_groups (s : State) (m : HostMsg) : (s.send m).groups = s.groups := rfl
@[simp] theorem send_teams (s : State) (m : HostMsg) : (s.send m).teams = s.teams := rfl
@[simp] theorem send_cores (s : State) (m : HostMsg) : (s.send m).cores = s.cores := rfl
@[simp] theorem send_mem (s : State) (m : HostMsg) : (s.send m).mem = s.mem := rfl
@[simp] theorem send_xl (s : State) (m : HostMsg) : (s.send m).xl = s.xl := rfl
@[simp] theorem send_rel (s : State) (m : HostMsg) : (s.send m).rel = s.rel := rfl
@[simp] theorem send_ctxs (s : State) (m : HostMsg) : (s.send m).ctxs = s.ctxs := rfl
@[simp] theorem send_drays (s : State) (m : HostMsg) : (s.send m).drays = s.drays := rfl
@[simp] theorem send_eng (s : State) (m : HostMsg) : (s.send m).eng = s.eng := rfl
@[simp] theorem send_fab (s : State) (m : HostMsg) : (s.send m).fab = s.fab := rfl
@[simp] theorem send_disp (s : State) (m : HostMsg) : (s.send m).disp = s.disp := rfl
@[simp] theorem send_sup (s : State) (m : HostMsg) : (s.send m).sup = s.sup := rfl
@[simp] theorem send_power (s : State) (m : HostMsg) : (s.send m).power = s.power := rfl
@[simp] theorem send_yuren (s : State) (m : HostMsg) : (s.send m).yuren = s.yuren := rfl

/-! `State.push`. -/

@[simp] theorem push_cur (s : State) (ts : List Turn) : (s.push ts).cur = s.cur := rfl
@[simp] theorem push_free (s : State) (ts : List Turn) : (s.push ts).free = s.free := rfl
@[simp] theorem push_nextId (s : State) (ts : List Turn) : (s.push ts).nextId = s.nextId := rfl
@[simp] theorem push_ltick (s : State) (ts : List Turn) : (s.push ts).ltick = s.ltick := rfl
@[simp] theorem push_groups (s : State) (ts : List Turn) : (s.push ts).groups = s.groups := rfl
@[simp] theorem push_teams (s : State) (ts : List Turn) : (s.push ts).teams = s.teams := rfl
@[simp] theorem push_cores (s : State) (ts : List Turn) : (s.push ts).cores = s.cores := rfl
@[simp] theorem push_mem (s : State) (ts : List Turn) : (s.push ts).mem = s.mem := rfl
@[simp] theorem push_xl (s : State) (ts : List Turn) : (s.push ts).xl = s.xl := rfl
@[simp] theorem push_rel (s : State) (ts : List Turn) : (s.push ts).rel = s.rel := rfl
@[simp] theorem push_ctxs (s : State) (ts : List Turn) : (s.push ts).ctxs = s.ctxs := rfl
@[simp] theorem push_drays (s : State) (ts : List Turn) : (s.push ts).drays = s.drays := rfl
@[simp] theorem push_eng (s : State) (ts : List Turn) : (s.push ts).eng = s.eng := rfl
@[simp] theorem push_fab (s : State) (ts : List Turn) : (s.push ts).fab = s.fab := rfl
@[simp] theorem push_disp (s : State) (ts : List Turn) : (s.push ts).disp = s.disp := rfl
@[simp] theorem push_sup (s : State) (ts : List Turn) : (s.push ts).sup = s.sup := rfl
@[simp] theorem push_power (s : State) (ts : List Turn) : (s.push ts).power = s.power := rfl
@[simp] theorem push_yuren (s : State) (ts : List Turn) : (s.push ts).yuren = s.yuren := rfl
@[simp] theorem push_sent (s : State) (ts : List Turn) : (s.push ts).sent = s.sent := rfl

/-! `State.go`. -/

@[simp] theorem go_agenda (s : State) (stay : Word) : (s.go stay).agenda = s.agenda := rfl
@[simp] theorem go_cur (s : State) (stay : Word) : (s.go stay).cur = s.cur := rfl
@[simp] theorem go_free (s : State) (stay : Word) : (s.go stay).free = s.free := rfl
@[simp] theorem go_nextId (s : State) (stay : Word) : (s.go stay).nextId = s.nextId := rfl
@[simp] theorem go_ltick (s : State) (stay : Word) : (s.go stay).ltick = s.ltick := rfl
@[simp] theorem go_teams (s : State) (stay : Word) : (s.go stay).teams = s.teams := rfl
@[simp] theorem go_cores (s : State) (stay : Word) : (s.go stay).cores = s.cores := rfl
@[simp] theorem go_mem (s : State) (stay : Word) : (s.go stay).mem = s.mem := rfl
@[simp] theorem go_xl (s : State) (stay : Word) : (s.go stay).xl = s.xl := rfl
@[simp] theorem go_rel (s : State) (stay : Word) : (s.go stay).rel = s.rel := rfl
@[simp] theorem go_ctxs (s : State) (stay : Word) : (s.go stay).ctxs = s.ctxs := rfl
@[simp] theorem go_drays (s : State) (stay : Word) : (s.go stay).drays = s.drays := rfl
@[simp] theorem go_eng (s : State) (stay : Word) : (s.go stay).eng = s.eng := rfl
@[simp] theorem go_fab (s : State) (stay : Word) : (s.go stay).fab = s.fab := rfl
@[simp] theorem go_disp (s : State) (stay : Word) : (s.go stay).disp = s.disp := rfl
@[simp] theorem go_sup (s : State) (stay : Word) : (s.go stay).sup = s.sup := rfl
@[simp] theorem go_power (s : State) (stay : Word) : (s.go stay).power = s.power := rfl
@[simp] theorem go_yuren (s : State) (stay : Word) : (s.go stay).yuren = s.yuren := rfl
@[simp] theorem go_sent (s : State) (stay : Word) : (s.go stay).sent = s.sent := rfl

/-! `State.fresh`. -/

@[simp] theorem fresh_fst (s : State) : s.fresh.1 = s.nextId := rfl
@[simp] theorem fresh_nextId (s : State) : s.fresh.2.nextId = s.nextId + 1 := rfl
@[simp] theorem fresh_agenda (s : State) : s.fresh.2.agenda = s.agenda := rfl
@[simp] theorem fresh_cur (s : State) : s.fresh.2.cur = s.cur := rfl
@[simp] theorem fresh_free (s : State) : s.fresh.2.free = s.free := rfl
@[simp] theorem fresh_ltick (s : State) : s.fresh.2.ltick = s.ltick := rfl
@[simp] theorem fresh_groups (s : State) : s.fresh.2.groups = s.groups := rfl
@[simp] theorem fresh_teams (s : State) : s.fresh.2.teams = s.teams := rfl
@[simp] theorem fresh_cores (s : State) : s.fresh.2.cores = s.cores := rfl
@[simp] theorem fresh_mem (s : State) : s.fresh.2.mem = s.mem := rfl
@[simp] theorem fresh_xl (s : State) : s.fresh.2.xl = s.xl := rfl
@[simp] theorem fresh_rel (s : State) : s.fresh.2.rel = s.rel := rfl
@[simp] theorem fresh_ctxs (s : State) : s.fresh.2.ctxs = s.ctxs := rfl
@[simp] theorem fresh_drays (s : State) : s.fresh.2.drays = s.drays := rfl
@[simp] theorem fresh_eng (s : State) : s.fresh.2.eng = s.eng := rfl
@[simp] theorem fresh_fab (s : State) : s.fresh.2.fab = s.fab := rfl
@[simp] theorem fresh_disp (s : State) : s.fresh.2.disp = s.disp := rfl
@[simp] theorem fresh_sup (s : State) : s.fresh.2.sup = s.sup := rfl
@[simp] theorem fresh_power (s : State) : s.fresh.2.power = s.power := rfl
@[simp] theorem fresh_yuren (s : State) : s.fresh.2.yuren = s.yuren := rfl
@[simp] theorem fresh_sent (s : State) : s.fresh.2.sent = s.sent := rfl

/-! `State.onFab`. -/

@[simp] theorem onFab_agenda (s : State) (x : FabReq) (f : FabReq → FabReq) : (s.onFab x f).agenda = s.agenda := rfl
@[simp] theorem onFab_cur (s : State) (x : FabReq) (f : FabReq → FabReq) : (s.onFab x f).cur = s.cur := rfl
@[simp] theorem onFab_free (s : State) (x : FabReq) (f : FabReq → FabReq) : (s.onFab x f).free = s.free := rfl
@[simp] theorem onFab_nextId (s : State) (x : FabReq) (f : FabReq → FabReq) : (s.onFab x f).nextId = s.nextId := rfl
@[simp] theorem onFab_ltick (s : State) (x : FabReq) (f : FabReq → FabReq) : (s.onFab x f).ltick = s.ltick := rfl
@[simp] theorem onFab_groups (s : State) (x : FabReq) (f : FabReq → FabReq) : (s.onFab x f).groups = s.groups := rfl
@[simp] theorem onFab_teams (s : State) (x : FabReq) (f : FabReq → FabReq) : (s.onFab x f).teams = s.teams := rfl
@[simp] theorem onFab_cores (s : State) (x : FabReq) (f : FabReq → FabReq) : (s.onFab x f).cores = s.cores := rfl
@[simp] theorem onFab_mem (s : State) (x : FabReq) (f : FabReq → FabReq) : (s.onFab x f).mem = s.mem := rfl
@[simp] theorem onFab_xl (s : State) (x : FabReq) (f : FabReq → FabReq) : (s.onFab x f).xl = s.xl := rfl
@[simp] theorem onFab_rel (s : State) (x : FabReq) (f : FabReq → FabReq) : (s.onFab x f).rel = s.rel := rfl
@[simp] theorem onFab_ctxs (s : State) (x : FabReq) (f : FabReq → FabReq) : (s.onFab x f).ctxs = s.ctxs := rfl
@[simp] theorem onFab_drays (s : State) (x : FabReq) (f : FabReq → FabReq) : (s.onFab x f).drays = s.drays := rfl
@[simp] theorem onFab_eng (s : State) (x : FabReq) (f : FabReq → FabReq) : (s.onFab x f).eng = s.eng := rfl
@[simp] theorem onFab_disp (s : State) (x : FabReq) (f : FabReq → FabReq) : (s.onFab x f).disp = s.disp := rfl
@[simp] theorem onFab_sup (s : State) (x : FabReq) (f : FabReq → FabReq) : (s.onFab x f).sup = s.sup := rfl
@[simp] theorem onFab_power (s : State) (x : FabReq) (f : FabReq → FabReq) : (s.onFab x f).power = s.power := rfl
@[simp] theorem onFab_yuren (s : State) (x : FabReq) (f : FabReq → FabReq) : (s.onFab x f).yuren = s.yuren := rfl
@[simp] theorem onFab_sent (s : State) (x : FabReq) (f : FabReq → FabReq) : (s.onFab x f).sent = s.sent := rfl

/-! `State.onSerial`. -/

@[simp] theorem onSerial_agenda (s : State) (k : Nat) (f : Serial → Serial) : (s.onSerial k f).agenda = s.agenda := rfl
@[simp] theorem onSerial_cur (s : State) (k : Nat) (f : Serial → Serial) : (s.onSerial k f).cur = s.cur := rfl
@[simp] theorem onSerial_free (s : State) (k : Nat) (f : Serial → Serial) : (s.onSerial k f).free = s.free := rfl
@[simp] theorem onSerial_nextId (s : State) (k : Nat) (f : Serial → Serial) : (s.onSerial k f).nextId = s.nextId := rfl
@[simp] theorem onSerial_ltick (s : State) (k : Nat) (f : Serial → Serial) : (s.onSerial k f).ltick = s.ltick := rfl
@[simp] theorem onSerial_groups (s : State) (k : Nat) (f : Serial → Serial) : (s.onSerial k f).groups = s.groups := rfl
@[simp] theorem onSerial_teams (s : State) (k : Nat) (f : Serial → Serial) : (s.onSerial k f).teams = s.teams := rfl
@[simp] theorem onSerial_cores (s : State) (k : Nat) (f : Serial → Serial) : (s.onSerial k f).cores = s.cores := rfl
@[simp] theorem onSerial_mem (s : State) (k : Nat) (f : Serial → Serial) : (s.onSerial k f).mem = s.mem := rfl
@[simp] theorem onSerial_xl (s : State) (k : Nat) (f : Serial → Serial) : (s.onSerial k f).xl = s.xl := rfl
@[simp] theorem onSerial_rel (s : State) (k : Nat) (f : Serial → Serial) : (s.onSerial k f).rel = s.rel := rfl
@[simp] theorem onSerial_ctxs (s : State) (k : Nat) (f : Serial → Serial) : (s.onSerial k f).ctxs = s.ctxs := rfl
@[simp] theorem onSerial_drays (s : State) (k : Nat) (f : Serial → Serial) : (s.onSerial k f).drays = s.drays := rfl
@[simp] theorem onSerial_eng (s : State) (k : Nat) (f : Serial → Serial) : (s.onSerial k f).eng = s.eng := rfl
@[simp] theorem onSerial_fab (s : State) (k : Nat) (f : Serial → Serial) : (s.onSerial k f).fab = s.fab := rfl
@[simp] theorem onSerial_sup (s : State) (k : Nat) (f : Serial → Serial) : (s.onSerial k f).sup = s.sup := rfl
@[simp] theorem onSerial_power (s : State) (k : Nat) (f : Serial → Serial) : (s.onSerial k f).power = s.power := rfl
@[simp] theorem onSerial_yuren (s : State) (k : Nat) (f : Serial → Serial) : (s.onSerial k f).yuren = s.yuren := rfl
@[simp] theorem onSerial_sent (s : State) (k : Nat) (f : Serial → Serial) : (s.onSerial k f).sent = s.sent := rfl

/-! `State.onPort`. -/

@[simp] theorem onPort_agenda (s : State) (k : Nat) (f : Port → Port) : (s.onPort k f).agenda = s.agenda := rfl
@[simp] theorem onPort_cur (s : State) (k : Nat) (f : Port → Port) : (s.onPort k f).cur = s.cur := rfl
@[simp] theorem onPort_free (s : State) (k : Nat) (f : Port → Port) : (s.onPort k f).free = s.free := rfl
@[simp] theorem onPort_nextId (s : State) (k : Nat) (f : Port → Port) : (s.onPort k f).nextId = s.nextId := rfl
@[simp] theorem onPort_ltick (s : State) (k : Nat) (f : Port → Port) : (s.onPort k f).ltick = s.ltick := rfl
@[simp] theorem onPort_groups (s : State) (k : Nat) (f : Port → Port) : (s.onPort k f).groups = s.groups := rfl
@[simp] theorem onPort_teams (s : State) (k : Nat) (f : Port → Port) : (s.onPort k f).teams = s.teams := rfl
@[simp] theorem onPort_cores (s : State) (k : Nat) (f : Port → Port) : (s.onPort k f).cores = s.cores := rfl
@[simp] theorem onPort_mem (s : State) (k : Nat) (f : Port → Port) : (s.onPort k f).mem = s.mem := rfl
@[simp] theorem onPort_xl (s : State) (k : Nat) (f : Port → Port) : (s.onPort k f).xl = s.xl := rfl
@[simp] theorem onPort_rel (s : State) (k : Nat) (f : Port → Port) : (s.onPort k f).rel = s.rel := rfl
@[simp] theorem onPort_ctxs (s : State) (k : Nat) (f : Port → Port) : (s.onPort k f).ctxs = s.ctxs := rfl
@[simp] theorem onPort_drays (s : State) (k : Nat) (f : Port → Port) : (s.onPort k f).drays = s.drays := rfl
@[simp] theorem onPort_eng (s : State) (k : Nat) (f : Port → Port) : (s.onPort k f).eng = s.eng := rfl
@[simp] theorem onPort_disp (s : State) (k : Nat) (f : Port → Port) : (s.onPort k f).disp = s.disp := rfl
@[simp] theorem onPort_sup (s : State) (k : Nat) (f : Port → Port) : (s.onPort k f).sup = s.sup := rfl
@[simp] theorem onPort_power (s : State) (k : Nat) (f : Port → Port) : (s.onPort k f).power = s.power := rfl
@[simp] theorem onPort_yuren (s : State) (k : Nat) (f : Port → Port) : (s.onPort k f).yuren = s.yuren := rfl
@[simp] theorem onPort_sent (s : State) (k : Nat) (f : Port → Port) : (s.onPort k f).sent = s.sent := rfl

/-! `State.onExtent`. -/

@[simp] theorem onExtent_agenda (s : State) (st e : Nat) (f : Extent → Extent) : (s.onExtent st e f).agenda = s.agenda := rfl
@[simp] theorem onExtent_cur (s : State) (st e : Nat) (f : Extent → Extent) : (s.onExtent st e f).cur = s.cur := rfl
@[simp] theorem onExtent_free (s : State) (st e : Nat) (f : Extent → Extent) : (s.onExtent st e f).free = s.free := rfl
@[simp] theorem onExtent_nextId (s : State) (st e : Nat) (f : Extent → Extent) : (s.onExtent st e f).nextId = s.nextId := rfl
@[simp] theorem onExtent_ltick (s : State) (st e : Nat) (f : Extent → Extent) : (s.onExtent st e f).ltick = s.ltick := rfl
@[simp] theorem onExtent_groups (s : State) (st e : Nat) (f : Extent → Extent) : (s.onExtent st e f).groups = s.groups := rfl
@[simp] theorem onExtent_teams (s : State) (st e : Nat) (f : Extent → Extent) : (s.onExtent st e f).teams = s.teams := rfl
@[simp] theorem onExtent_cores (s : State) (st e : Nat) (f : Extent → Extent) : (s.onExtent st e f).cores = s.cores := rfl
@[simp] theorem onExtent_mem (s : State) (st e : Nat) (f : Extent → Extent) : (s.onExtent st e f).mem = s.mem := rfl
@[simp] theorem onExtent_xl (s : State) (st e : Nat) (f : Extent → Extent) : (s.onExtent st e f).xl = s.xl := rfl
@[simp] theorem onExtent_ctxs (s : State) (st e : Nat) (f : Extent → Extent) : (s.onExtent st e f).ctxs = s.ctxs := rfl
@[simp] theorem onExtent_drays (s : State) (st e : Nat) (f : Extent → Extent) : (s.onExtent st e f).drays = s.drays := rfl
@[simp] theorem onExtent_eng (s : State) (st e : Nat) (f : Extent → Extent) : (s.onExtent st e f).eng = s.eng := rfl
@[simp] theorem onExtent_fab (s : State) (st e : Nat) (f : Extent → Extent) : (s.onExtent st e f).fab = s.fab := rfl
@[simp] theorem onExtent_disp (s : State) (st e : Nat) (f : Extent → Extent) : (s.onExtent st e f).disp = s.disp := rfl
@[simp] theorem onExtent_sup (s : State) (st e : Nat) (f : Extent → Extent) : (s.onExtent st e f).sup = s.sup := rfl
@[simp] theorem onExtent_power (s : State) (st e : Nat) (f : Extent → Extent) : (s.onExtent st e f).power = s.power := rfl
@[simp] theorem onExtent_yuren (s : State) (st e : Nat) (f : Extent → Extent) : (s.onExtent st e f).yuren = s.yuren := rfl
@[simp] theorem onExtent_sent (s : State) (st e : Nat) (f : Extent → Extent) : (s.onExtent st e f).sent = s.sent := rfl

/-! With no verification that fails, what is read leaves the state (log 23). -/

theorem meet_none {s : State} (h : s.rel.upsets = []) (w : Who) (p : Site → Bool) : s.meet w p = s := by
  simp [State.meet, h]

theorem meetWord_none {s : State} (h : s.rel.upsets = []) (g : Group) (i : Option Instr) (m : Word) : s.meetWord g i m = s := by
  cases i with
  | none => rfl
  | some i => exact meet_none h _ _

theorem meetCommand_none {s : State} (h : s.rel.upsets = []) (k : Nat) (i : Instr) : s.meetCommand k i = s := by
  unfold State.meetCommand; exact meet_none h _ _

theorem meetEvent_none {s : State} (h : s.rel.upsets = []) (c : Cur) (i : Instr) : s.meetEvent c i = s := meet_none h _ _

/-! The turn that a step takes. -/

/-- A step takes the agenda's first turn. -/
theorem step_agenda {s : State} {t : Turn} {ts : List Turn} (h : s.agenda = t :: ts) :
    step s = match ({ s with agenda := ts } : State).plan t with
      | .done t => .next t
      | .run i t a => match exec i t with
        | .next u => .next (a.apply u)
        | .fault f => .fault f
        | .refused r => .refused r := by
  unfold step State.takeTurn
  rw [h]
  all_goals rfl

/-! The changed fields. -/

@[simp] theorem push_agenda (s : State) (ts : List Turn) : (s.push ts).agenda = ts ++ s.agenda := rfl
@[simp] theorem send_sent (s : State) (m : HostMsg) : (s.send m).sent = s.sent ++ [m] := rfl
@[simp] theorem onSide_spad (s : State) (k : Nat) (f : Side → Side) : (s.onSide k f).cores.spad = s.cores.spad := rfl
@[simp] theorem onSide_gate (s : State) (k : Nat) (f : Side → Side) : (s.onSide k f).cores.gate = s.cores.gate := rfl
@[simp] theorem onSide_poison (s : State) (k : Nat) (f : Side → Side) : (s.onSide k f).cores.poison = s.cores.poison := rfl
@[simp] theorem onSide_reload (s : State) (k : Nat) (f : Side → Side) : (s.onSide k f).cores.reload = s.cores.reload := rfl
@[simp] theorem onSide_elig (s : State) (k : Nat) (f : Side → Side) : (s.onSide k f).cores.elig = s.cores.elig := rfl
@[simp] theorem onOp_reqs (s : State) (k : Nat) (f : Op → Op) : (s.onOp k f).eng.reqs = s.eng.reqs := rfl
@[simp] theorem onReq_ops (s : State) (k : Nat) (f : Req → Req) : (s.onReq k f).eng.ops = s.eng.ops := rfl
@[simp] theorem dropReq_ops (s : State) (k : Nat) : (s.dropReq k).eng.ops = s.eng.ops := rfl

end Sys2Proof.Machine
end

