-- ==== Sys2Proof/Laws/Words.lean ====
section
/-! SUPPORT. What the shared operations over groups and the shared meanings of kernel words can do. -/

namespace Sys2Proof.Machine

/-! Groups. -/

theorem group?_gid {s : State} {k : Nat} {g : Group} (h : s.group? k = some g) : g.gid = k := by
  have := List.find?_some h
  simpa using this

theorem find?_map_of_iff {α : Type} (p : α → Bool) (f : α → α) (l : List α) (h : ∀ x ∈ l, p (f x) = p x) :
    (l.map f).find? p = (l.find? p).map f := by
  induction l with
  | nil => rfl
  | cons a l ih =>
    simp only [List.map_cons, List.find?_cons]
    rw [h a (by simp)]
    cases p a
    · exact ih fun x hx => h x (by simp [hx])
    · rfl

/-- The groups after a change of one of them. -/
theorem group?_onGroup (s : State) (k : Nat) (f : Group → Group) (j : Nat) (h : ∀ x, (f x).gid = x.gid) :
    (s.onGroup k f).group? j = (s.group? j).map fun g => if g.gid = k then f g else g := by
  unfold State.group? State.onGroup
  apply find?_map_of_iff
  intro x _
  by_cases hx : x.gid = k <;> simp [hx, h]

theorem group?_onGroup_same {s : State} {k : Nat} {f : Group → Group} {g : Group} (hg : s.group? k = some g)
    (h : ∀ x, (f x).gid = x.gid) : (s.onGroup k f).group? k = some (f g) := by
  rw [group?_onGroup s k f k h, hg]
  simp [group?_gid hg]

theorem group?_onGroup_other {s : State} {k j : Nat} {f : Group → Group} (h : ∀ x, (f x).gid = x.gid) (hj : j ≠ k) :
    (s.onGroup k f).group? j = s.group? j := by
  rw [group?_onGroup s k f j h]
  cases hs : s.group? j with
  | none => rfl
  | some g => simp [group?_gid hs, hj]

theorem onlyIssuer_onGroup (s : State) (f : Group → Group) (h : ∀ x, (f x).gid = x.gid) :
    OnlyIssuer s (s.onGroup s.cur.gid f) :=
  ⟨rfl, fun _ hk => group?_onGroup_other h hk⟩


/-! Lanes. -/

theorem lane_mapLanes (g : Group) (f : Nat → Lane → Lane) (L : Nat) (h : L < g.lanes.length) :
    (mapLanes g f).lane L = f L (g.lane L) := by
  simp [mapLanes, Group.lane, List.getD_eq_getElem?_getD, h]

@[simp] theorem length_mapLanes (g : Group) (f : Nat → Lane → Lane) : (mapLanes g f).lanes.length = g.lanes.length := by
  simp [mapLanes]

/-- `advance` moves the lanes of the issue on and changes nothing else. -/
theorem advance_movesOn (g : Group) (c : Cur) (stay : Word) (h : g.lanes.length = 32) :
    MovesOn c stay g (g.advance c stay) := by
  intro L hL
  unfold Group.advance
  rw [lane_mapLanes _ _ _ (by omega)]
  rfl

@[simp] theorem advance_gid (g : Group) (c : Cur) (stay : Word) : (g.advance c stay).gid = g.gid := rfl
@[simp] theorem advance_v (g : Group) (c : Cur) (stay : Word) : (g.advance c stay).v = g.v := rfl
@[simp] theorem advance_s (g : Group) (c : Cur) (stay : Word) : (g.advance c stay).s = g.s := rfl
@[simp] theorem advance_p (g : Group) (c : Cur) (stay : Word) : (g.advance c stay).p = g.p := rfl
@[simp] theorem advance_t (g : Group) (c : Cur) (stay : Word) : (g.advance c stay).t = g.t := rfl
@[simp] theorem advance_a (g : Group) (c : Cur) (stay : Word) : (g.advance c stay).a = g.a := rfl
@[simp] theorem advance_fpstat (g : Group) (c : Cur) (stay : Word) : (g.advance c stay).fpstat = g.fpstat := rfl
@[simp] theorem rdV_advance (g : Group) (c : Cur) (stay : Word) (r L : Nat) : rdV (g.advance c stay) r L = rdV g r L := rfl
@[simp] theorem rdS_advance (g : Group) (c : Cur) (stay : Word) (r : Nat) : rdS (g.advance c stay) r = rdS g r := rfl
@[simp] theorem rdP_advance (g : Group) (c : Cur) (stay : Word) (r : Nat) : rdP (g.advance c stay) r = rdP g r := rfl

theorem Group.Canonical.advance {g : Group} (h : g.Canonical) (c : Cur) (stay : Word) : (g.advance c stay).Canonical :=
  ⟨by rw [Group.advance, length_mapLanes]; exact h.1, h.2⟩

/-! The shared meanings. -/

theorem mapTrap_none {i : Instr} {g : Group} {act : Word} (h : ∀ r ∈ i.writes ++ i.reads, regHeld g r = true) :
    mapTrap i g act = none := by
  unfold mapTrap
  rw [List.find?_eq_none.2]
  intro r hr
  simp [h r hr]

theorem wordTrap_none {i : Instr} {gd : Guard} {s : State} {g : Group} (h : GoesAhead i gd s g) :
    wordTrap i false g s.cur gd = none := by
  simp only [wordTrap, mapTrap_none h.2.2.2.1, Bool.false_eq_true, if_false, guardPoison]
  rw [if_pos h.2.2.2.2]

theorem wordTrap_none_together {i : Instr} {gd : Guard} {s : State} {g : Group} (h : GoesTogether i gd s g) :
    wordTrap i true g s.cur gd = none := by
  have c : convergeTrap g s.cur (activeOf g s.cur gd) = none := by
    unfold convergeTrap
    rw [h.2.1, h.2.2.1, h.2.2.2]
    rfl
  simp only [wordTrap, mapTrap_none h.1.2.2.2.1, if_true, c, guardPoison]
  rw [if_pos h.1.2.2.2.2]

/-- A register word that goes ahead has its effect on its group alone, and the group's lanes go on. -/
theorem execRegs_runs {i : Instr} {gd : Guard} {f : Group → Word → Group} {s : State} {g : Group}
    (h : GoesAhead i gd s g) (hf : ∀ x w, (f x w).gid = x.gid) :
    ∃ t, execRegs i gd f s = .next t ∧ OnlyIssuer s t ∧ t.group? s.cur.gid =
      some ((if activeOf g s.cur gd = 0 then g else f g (activeOf g s.cur gd)).advance s.cur 0) := by
  have gid : ∀ x : Group, ((if activeOf g s.cur gd = 0 then x else f x (activeOf g s.cur gd)).advance s.cur 0).gid = x.gid := by
    intro x; split <;> simp [hf]
  refine ⟨_, ?_, onlyIssuer_onGroup s _ gid, group?_onGroup_same h.2.1 gid⟩
  simp only [execRegs, onPath, h.2.1, wordTrap_none h]

/-- A word that goes ahead without an active lane only moves its lanes on; with one it has its effect. -/
theorem execWord_runs {i : Instr} {gd : Guard} {f : State → Group → Word → State} {s : State} {g : Group}
    (h : GoesAhead i gd s g) :
    execWord i false gd f s = .next (if activeOf g s.cur gd = 0 then s.go 0 else f s g (activeOf g s.cur gd)) := by
  simp only [execWord, onPath, h.2.1, wordTrap_none h]

theorem execWord_runs_together {i : Instr} {gd : Guard} {f : State → Group → Word → State} {s : State} {g : Group}
    (h : GoesTogether i gd s g) : execWord i true gd f s = .next (f s g 0xFFFFFFFF#32) := by
  simp only [execWord, onPath, h.1.2.1, wordTrap_none_together h, h.2.2.1]
  rfl

/-! Taking a trap (R328 to R331). -/

@[simp] theorem countEvent_groups (s : State) (sk slot code n : Nat) : (countEvent s sk slot code n).groups = s.groups := rfl

/-- FAULTINFO is its three fields side by side (R328). -/
theorem faultWord_eq (c L x : Nat) : faultWord c L x = BitVec.ofNat 5 c ++ BitVec.ofNat 5 L ++ BitVec.ofNat 54 x := by
  apply BitVec.eq_of_toNat_eq
  simp only [faultWord, BitVec.toNat_append, BitVec.toNat_ofNat]
  rw [← Nat.shiftLeft_add_eq_or_of_lt (Nat.mod_lt _ (by decide)), ← Nat.shiftLeft_add_eq_or_of_lt (Nat.mod_lt _ (by decide))]
  simp only [Nat.shiftLeft_eq]
  omega

/-- The halt state once a trap is taken, case by case. -/
theorem haltState_trapped (h : HaltState) : h.trapped = (match h with
    | .running | .window _ => .halting .trap
    | .halting c => .halting (if c = .step then .step else .trap)
    | .halted c => .halted (if c = .step then .step else .trap)
    | .framed c => .framed (if c = .step then .step else .trap)) := by
  rcases h with _ | _ | c | c | c <;> first | rfl | (cases c <;> rfl)

/-- Everything that taking a trap can do: its group is trapped, and its side counts the event. -/
theorem takeTrap_spec {s : State} {k : Nat} {g : Group} (t : TrapReq) (pc : BitVec 64) (hg : s.group? k = some g)
    (hn : g.trap = none) :
    (takeTrap s k t pc).group? k = some (g.trapped t pc s.ltick)
      ∧ { takeTrap s k t pc with groups := s.groups, cores := s.cores } = s
      ∧ { (takeTrap s k t pc).cores with sides := s.cores.sides } = s.cores
      ∧ ∀ j, j ≠ k → (takeTrap s k t pc).group? j = s.group? j := by
  have e : takeTrap s k t pc = (countEvent s (sideKey g.core g.side) g.slot 0x41 1).onGroup k
      fun g => g.trapped t pc s.ltick := by
    simp only [takeTrap, hg, hn, Option.isSome_none, Bool.false_eq_true, if_false, Group.trapped, faultWord_eq, haltState_trapped]
    rfl
  have hg' : (countEvent s (sideKey g.core g.side) g.slot 0x41 1).group? k = some g := hg
  rw [e]
  refine ⟨group?_onGroup_same hg' fun _ => rfl, rfl, rfl, fun j hj => ?_⟩
  exact group?_onGroup_other (s := countEvent s _ _ _ _) (fun _ => rfl) hj

/-- A group that has a trap to deliver takes no second one. -/
theorem takeTrap_again {s : State} {k : Nat} {g : Group} (t : TrapReq) (pc : BitVec 64) (hg : s.group? k = some g)
    (hn : g.trap.isSome = true) : takeTrap s k t pc = s := by
  simp only [takeTrap, hg, hn, if_true]

/-- A meaning that raises a trap in the issuing group. -/
theorem traps_of_raise {i : Instr} {s : State} {g : Group} {t : TrapReq} (h : exec i s = .next (raise s t))
    (hg : s.group? s.cur.gid = some g) (hn : g.trap = none) : Traps i s g t := by
  obtain ⟨a, b, c, d⟩ := takeTrap_spec t (if s.cur.rep.isSome then s.cur.pc + 8 else s.cur.pc) hg hn
  exact ⟨_, h, ⟨b, c, d⟩, a⟩

end Sys2Proof.Machine
end

