-- ==== Sys2Proof/Laws/Finds.lean ====
section
/-! SUPPORT. What the finding operations answer after an update of a team, grid, request, operation, context, side or
dray. -/

namespace Sys2Proof.Machine

/-! Teams, grids, requests and operations, by their numbers. -/

theorem team?_onTeam (s : State) (k : Nat) (f : Team → Team) (j : Nat) (h : ∀ x, (f x).id = x.id) :
    (s.onTeam k f).team? j = (s.team? j).map fun x => if x.id = k then f x else x := by
  unfold State.team? State.onTeam
  exact find?_map_of_iff (fun x : Team => decide (x.id = j)) (fun x => if x.id = k then f x else x) s.teams
    (fun x _ => by split <;> simp [h])

theorem grid?_onGrid (s : State) (k : Nat) (f : Grid → Grid) (j : Nat) (h : ∀ x, (f x).id = x.id) :
    (s.onGrid k f).grid? j = (s.grid? j).map fun x => if x.id = k then f x else x := by
  unfold State.grid? State.onGrid
  exact find?_map_of_iff (fun x : Grid => decide (x.id = j)) (fun x => if x.id = k then f x else x) s.disp.grids
    (fun x _ => by split <;> simp [h])

theorem req?_onReq (s : State) (k : Nat) (f : Req → Req) (j : Nat) (h : ∀ x, (f x).id = x.id) :
    (s.onReq k f).req? j = (s.req? j).map fun x => if x.id = k then f x else x := by
  unfold State.req? State.onReq
  exact find?_map_of_iff (fun x : Req => decide (x.id = j)) (fun x => if x.id = k then f x else x) s.eng.reqs
    (fun x _ => by split <;> simp [h])

theorem op?_onOp (s : State) (k : Nat) (f : Op → Op) (j : Nat) (h : ∀ x, (f x).id = x.id) :
    (s.onOp k f).op? j = (s.op? j).map fun x => if x.id = k then f x else x := by
  unfold State.op? State.onOp
  exact find?_map_of_iff (fun x : Op => decide (x.id = j)) (fun x => if x.id = k then f x else x) s.eng.ops
    (fun x _ => by split <;> simp [h])

theorem team?_id {s : State} {k : Nat} {x : Team} (h : s.team? k = some x) : x.id = k := by
  simpa using List.find?_some h

theorem grid?_id {s : State} {k : Nat} {x : Grid} (h : s.grid? k = some x) : x.id = k := by
  simpa using List.find?_some h

theorem req?_id {s : State} {k : Nat} {x : Req} (h : s.req? k = some x) : x.id = k := by
  simpa using List.find?_some h

theorem op?_id {s : State} {k : Nat} {x : Op} (h : s.op? k = some x) : x.id = k := by
  simpa using List.find?_some h

/-- A request that is dropped is found no more. -/
theorem req?_dropReq (s : State) (k : Nat) : (s.dropReq k).req? k = none := by
  simp [State.req?, State.dropReq, List.find?_eq_none]

/-! Contexts, sides and drays, by their keys. -/

theorem ctx_onCtx {s : State} (h : swf emptyCtx s.ctxs = true) (k j : Nat) (f : Ctx → Ctx) :
    (s.onCtx k f).ctx j = if j = k then f (s.ctx k) else s.ctx j := sget_sset _ _ _ _ _ h

theorem side_onSide {s : State} (h : swf Side.reset s.cores.sides = true) (k j : Nat) (f : Side → Side) :
    (s.onSide k f).side j = if j = k then f (s.side k) else s.side j := sget_sset _ _ _ _ _ h

theorem dray_onDray {s : State} (h : swf Dray.reset s.drays.drays = true) (k j : Nat) (f : Dray → Dray) :
    (s.onDray k f).dray j = if j = k then f (s.dray k) else s.dray j := sget_sset _ _ _ _ _ h

theorem extent_onExtent {s : State} (h : swf Extent.reset s.rel.ext = true) (st e : Nat) (f : Extent → Extent) :
    (s.onExtent st e f).extent st e = f (s.extent st e) := by
  simp [State.extent, State.onExtent, sget_sset _ _ _ _ _ h]

end Sys2Proof.Machine
end

