-- ==== Sys2Proof/Laws/Memory.lean ====
section
/-! SUPPORT. Every operation that writes a stack's bytes keeps the canonical form of memory. -/

namespace Sys2Proof.Machine

/-- Memory after reset lists nothing, and is canonical. -/
theorem reset_memory_wf : Memory.wf State.reset.mem.raw = true := rfl

/-- Canonical memory before an operation is canonical memory after it. -/
abbrev KeepsMemory (s t : State) : Prop := Memory.wf s.mem.raw = true → Memory.wf t.mem.raw = true

theorem rawPut_wf (m : Mem) (a : Nat) (bs : List Byte) (h : Memory.wf m.raw = true) : Memory.wf (rawPut m a bs).raw = true := by
  unfold rawPut
  generalize bs.zipIdx = l
  generalize hr : m.raw = r at h
  clear hr
  induction l generalizing r with
  | nil => exact h
  | cons x l ih => exact ih _ (Memory.wf_sset _ _ _ h)

theorem pokeSector_keeps (s : State) (r : RowId) (slot : Nat) (d : List Byte) (p : Bool) : KeepsMemory s (s.pokeSector r slot d p) :=
  fun h => rawPut_wf _ _ _ (rawPut_wf _ _ _ h)

theorem writeSector_keeps (s : State) (r : RowId) (slot ofs : Nat) (bs : List Byte) (t : Bool) :
    KeepsMemory s (s.writeSector r slot ofs bs t) := pokeSector_keeps _ _ _ _ _

/-- A fold of operations that keep memory keeps it. -/
theorem foldl_keeps {α : Type} (f : State → α → State) (hf : ∀ s a, KeepsMemory s (f s a)) (l : List α) (s : State) :
    KeepsMemory s (l.foldl f s) := by
  induction l generalizing s with
  | nil => exact id
  | cons a l ih => exact fun h => ih _ (hf s a h)

theorem stackWrite_keeps (s : State) (l : LineId) (ofs : Nat) (bs : List Byte) (tag : Nat → Bool) :
    KeepsMemory s (s.stackWrite l ofs bs tag) := by
  unfold State.stackWrite
  refine foldl_keeps _ (fun s h => ?_) _ s
  dsimp only
  split
  · exact writeSector_keeps _ _ _ _ _ _
  · exact id

theorem noticed_keeps (s : State) (l : LineId) (ofs n : Nat) : KeepsMemory s (s.noticed l ofs n) :=
  foldl_keeps (fun s pa => s.noticedAt n pa) (fun _ _ => id) _ s

theorem onLine_keeps (s : State) (l : LineId) (f : DepotLine → DepotLine) : KeepsMemory s (s.onLine l f) := by
  unfold State.onLine
  split <;> exact id

theorem applyLine_keeps (s : State) (l : LineId) (ofs : Nat) (bs : List Byte) (tag : Nat → Bool) :
    KeepsMemory s (s.applyLine l ofs bs tag) := by
  unfold State.applyLine
  intro h
  dsimp only
  apply noticed_keeps
  split
  · exact onLine_keeps _ _ _ h
  · exact stackWrite_keeps _ _ _ _ _ h

/-- A write of the device is applied or held. -/
theorem devArrive_keeps (s : State) (l : LineId) (ofs : Nat) (bs : List Byte) : KeepsMemory s (s.devArrive l ofs bs) := by
  unfold State.devArrive
  split
  · exact applyLine_keeps _ _ _ _ _
  · exact id

theorem devWrite_keeps (s : State) (pa : Nat) (bs : List Byte) : KeepsMemory s (s.devWrite pa bs) := by
  unfold State.devWrite
  refine foldl_keeps _ (fun s x => ?_) _ s
  obtain ⟨a, k⟩ := x
  dsimp only
  split
  · exact devArrive_keeps _ _ _ _
  · exact id

theorem devPut_keeps (s : State) (pa n x : Nat) : KeepsMemory s (s.devPut pa n x) := devWrite_keeps _ _ _

/-- Formatting an extent takes its bytes away. -/
theorem format_keeps (m : Mem) (stack e : Nat) (h : Memory.wf m.raw = true) : Memory.wf (m.format stack e).raw = true :=
  swf_filter _ _ _ h

end Sys2Proof.Machine
end

