-- ==== Sys2Proof/Laws/PerInstr.lean ====
section
/-! SUPPORT. Facts about every instruction as syntax, one lemma for each constructor. -/

/-- The representative that the decoder answers for an instruction's word (R332) has the same word and the same
fields, is as well formed, and stands for itself. -/
def Sys2Proof.Laws.Canon.Statement (i : Sys2Proof.Instr) : Prop :=
  Sys2Proof.encode i.canon = Sys2Proof.encode i ∧ i.canon.wf = i.wf ∧ i.canon.canon = i.canon

namespace Sys2Proof.Laws.Canon

theorem sideIssueCycle (side : Nat) : Statement (.sideIssueCycle side) := ⟨rfl, rfl, rfl⟩
theorem loadReturn (req : Nat) (ext : Option ExtVal) : Statement (.loadReturn req ext) := ⟨rfl, rfl, rfl⟩
theorem icacheFill (core pasid vline : Nat) : Statement (.icacheFill core pasid vline) := ⟨rfl, rfl, rfl⟩
theorem pageWalkComplete (walk : Nat) (host : List (BitVec 64)) : Statement (.pageWalkComplete walk host) := ⟨rfl, rfl, rfl⟩
theorem storeAtHome (req : Nat) : Statement (.storeAtHome req) := ⟨rfl, rfl, rfl⟩
theorem heldWriteApply (line : LineId) : Statement (.heldWriteApply line) := ⟨rfl, rfl, rfl⟩
theorem homeAtomic (req : Nat) (ext : Option ExtVal) : Statement (.homeAtomic req ext) := ⟨rfl, rfl, rfl⟩
theorem depotFill (line : LineId) : Statement (.depotFill line) := ⟨rfl, rfl, rfl⟩
theorem lineMaintenance (op : Nat) (line : LineId) : Statement (.lineMaintenance op line) := ⟨rfl, rfl, rfl⟩
theorem stackPortRequest (req : Nat) : Statement (.stackPortRequest req) := ⟨rfl, rfl, rfl⟩
theorem holdQueueRelease (row : RowId) : Statement (.holdQueueRelease row) := ⟨rfl, rfl, rfl⟩
theorem mswitchApply (op : Nat) : Statement (.mswitchApply op) := ⟨rfl, rfl, rfl⟩
theorem rowsControllerOwned (row : RowId) : Statement (.rowsControllerOwned row) := ⟨rfl, rfl, rfl⟩
theorem engineOpComplete (op : Nat) : Statement (.engineOpComplete op) := ⟨rfl, rfl, rfl⟩
theorem copyGranuleWritten (op : Nat) (ext : List ExtVal) : Statement (.copyGranuleWritten op ext) := ⟨rfl, rfl, rfl⟩
theorem lockRequest (req : Nat) : Statement (.lockRequest req) := ⟨rfl, rfl, rfl⟩
theorem unlockRequest (req : Nat) : Statement (.unlockRequest req) := ⟨rfl, rfl, rfl⟩
theorem acqGrant (team side : Nat) : Statement (.acqGrant team side) := ⟨rfl, rfl, rfl⟩
theorem drayLaunch (op : Nat) : Statement (.drayLaunch op) := ⟨rfl, rfl, rfl⟩
theorem drayOperationStart (op stack : Nat) : Statement (.drayOperationStart op stack) := ⟨rfl, rfl, rfl⟩
theorem bcastStep (stack : Nat) : Statement (.bcastStep stack) := ⟨rfl, rfl, rfl⟩
theorem powerEvaluation (watts : Nat) : Statement (.powerEvaluation watts) := ⟨rfl, rfl, rfl⟩
theorem coreEligibilitySample (core tempC droop : Nat) : Statement (.coreEligibilitySample core tempC droop) := ⟨rfl, rfl, rfl⟩
theorem frameRetry (ctx : Nat) : Statement (.frameRetry ctx) := ⟨rfl, rfl, rfl⟩
theorem impreciseTrapTaken (gid code : Nat) : Statement (.impreciseTrapTaken gid code) := ⟨rfl, rfl, rfl⟩
theorem scrubVisit (stack : Nat) : Statement (.scrubVisit stack) := ⟨rfl, rfl, rfl⟩
theorem rowStrengthen (row : RowId) : Statement (.rowStrengthen row) := ⟨rfl, rfl, rfl⟩
theorem extentClassWrite (stack ext : Nat) : Statement (.extentClassWrite stack ext) := ⟨rfl, rfl, rfl⟩
theorem extentFormatDone (stack ext : Nat) : Statement (.extentFormatDone stack ext) := ⟨rfl, rfl, rfl⟩
theorem translationBlockReload (line : Nat) : Statement (.translationBlockReload line) := ⟨rfl, rfl, rfl⟩
theorem contextRecordWrite (ctx : Nat) : Statement (.contextRecordWrite ctx) := ⟨rfl, rfl, rfl⟩
theorem fabricRequestReceive (r : Inbound) : Statement (.fabricRequestReceive r) := ⟨rfl, rfl, rfl⟩
theorem fabricResponse (tgt seq : Nat) (ans : PeerAnswer) : Statement (.fabricResponse tgt seq ans) := ⟨rfl, rfl, rfl⟩
theorem fabricResend (tgt seq : Nat) : Statement (.fabricResend tgt seq) := ⟨rfl, rfl, rfl⟩
theorem fabricRetryResend (tgt seq : Nat) : Statement (.fabricRetryResend tgt seq) := ⟨rfl, rfl, rfl⟩
theorem fabricNoRouteTimeout (tgt seq : Nat) : Statement (.fabricNoRouteTimeout tgt seq) := ⟨rfl, rfl, rfl⟩
theorem flitReplay (port : Nat) : Statement (.flitReplay port) := ⟨rfl, rfl, rfl⟩
theorem portRetrainDone (port lanes : Nat) : Statement (.portRetrainDone port lanes) := ⟨rfl, rfl, rfl⟩
theorem d2dFlitReplay (req : Nat) : Statement (.d2dFlitReplay req) := ⟨rfl, rfl, rfl⟩
theorem waybillHop (walk : Nat) : Statement (.waybillHop walk) := ⟨rfl, rfl, rfl⟩
theorem waybillReturn (op : Nat) (res : WalkResult) : Statement (.waybillReturn op res) := ⟨rfl, rfl, rfl⟩
theorem walkTimeout (op : Nat) : Statement (.walkTimeout op) := ⟨rfl, rfl, rfl⟩
theorem rstFlagAdd (op : Nat) : Statement (.rstFlagAdd op) := ⟨rfl, rfl, rfl⟩
theorem redxCommandApply (op idx : Nat) (ext : Option ExtVal) : Statement (.redxCommandApply op idx ext) := ⟨rfl, rfl, rfl⟩
theorem marshalSectorWrite (op : Nat) : Statement (.marshalSectorWrite op) := ⟨rfl, rfl, rfl⟩
theorem peerLockRelease (pkg grid : Nat) : Statement (.peerLockRelease pkg grid) := ⟨rfl, rfl, rfl⟩
theorem hostRead (addr size : Nat) : Statement (.hostRead addr size) := ⟨rfl, rfl, rfl⟩
theorem hostWrite (addr : Nat) (bytes : List (BitVec 8)) (poison : Bool) : Statement (.hostWrite addr bytes poison) := ⟨rfl, rfl, rfl⟩
theorem backInvalidateAnswer (line : LineId) : Statement (.backInvalidateAnswer line) := ⟨rfl, rfl, rfl⟩
theorem atsInvalidate (pasid base len : Nat) : Statement (.atsInvalidate pasid base len) := ⟨rfl, rfl, rfl⟩
theorem pageResponse (id : Nat) (ans : PageAnswer) : Statement (.pageResponse id ans) := ⟨rfl, rfl, rfl⟩
theorem pageRequestTimeout (id : Nat) : Statement (.pageRequestTimeout id) := ⟨rfl, rfl, rfl⟩
theorem postBoxTake (ctx : Nat) : Statement (.postBoxTake ctx) := ⟨rfl, rfl, rfl⟩
theorem replayDivergence (grid : Nat) (addr : Nat) : Statement (.replayDivergence grid addr) := ⟨rfl, rfl, rfl⟩
theorem bringUp (img : BootImages) : Statement (.bringUp img) := ⟨rfl, rfl, rfl⟩
theorem registerWrite (offset : Nat) (value : BitVec 32) : Statement (.registerWrite offset value) := ⟨rfl, rfl, rfl⟩
theorem pairWord (a b : Slot) : Statement (.pairWord a b) := ⟨rfl, rfl, rfl⟩
theorem rep (o : RepForm) : Statement (.rep o) := ⟨rfl, rfl, rfl⟩
theorem bra (o : BForm) : Statement (.bra o) := ⟨rfl, rfl, rfl⟩
theorem call (o : BForm) : Statement (.call o) := ⟨rfl, rfl, rfl⟩
theorem brx (o : RForm) : Statement (.brx o) := ⟨rfl, rfl, rfl⟩
theorem ret (o : RForm) : Statement (.ret o) := ⟨rfl, rfl, rfl⟩
theorem exit (o : RForm) : Statement (.exit o) := ⟨rfl, rfl, rfl⟩
theorem yield (o : RForm) : Statement (.yield o) := ⟨rfl, rfl, rfl⟩
theorem yieldW (o : MForm) : Statement (.yieldW o) := ⟨rfl, rfl, rfl⟩
theorem waitc (c : EClass) (o : RForm) : Statement (.waitc c o) := ⟨rfl, rfl, rfl⟩
theorem ppoint (o : IForm) : Statement (.ppoint o) := ⟨rfl, rfl, rfl⟩
theorem rgn (o : RForm) : Statement (.rgn o) := ⟨rfl, rfl, rfl⟩
theorem rgnEnd (o : RForm) : Statement (.rgnEnd o) := ⟨rfl, rfl, rfl⟩
theorem brk (o : IForm) : Statement (.brk o) := ⟨rfl, rfl, rfl⟩
theorem trap (o : IForm) : Statement (.trap o) := ⟨rfl, rfl, rfl⟩
theorem add (o : RForm) : Statement (.add o) := ⟨rfl, rfl, rfl⟩
theorem sub (o : RForm) : Statement (.sub o) := ⟨rfl, rfl, rfl⟩
theorem addc (o : RForm) : Statement (.addc o) := ⟨rfl, rfl, rfl⟩
theorem subc (o : RForm) : Statement (.subc o) := ⟨rfl, rfl, rfl⟩
theorem neg (o : RForm) : Statement (.neg o) := ⟨rfl, rfl, rfl⟩
theorem abs (o : RForm) : Statement (.abs o) := ⟨rfl, rfl, rfl⟩
theorem addImm (o : IForm) : Statement (.addImm o) := ⟨rfl, rfl, rfl⟩
theorem subImm (o : IForm) : Statement (.subImm o) := ⟨rfl, rfl, rfl⟩
theorem andImm (o : IForm) : Statement (.andImm o) := ⟨rfl, rfl, rfl⟩
theorem orImm (o : IForm) : Statement (.orImm o) := ⟨rfl, rfl, rfl⟩
theorem xorImm (o : IForm) : Statement (.xorImm o) := ⟨rfl, rfl, rfl⟩
theorem minImm (o : IForm) : Statement (.minImm o) := ⟨rfl, rfl, rfl⟩
theorem maxImm (o : IForm) : Statement (.maxImm o) := ⟨rfl, rfl, rfl⟩
theorem movImm (o : IForm) : Statement (.movImm o) := ⟨rfl, rfl, rfl⟩
theorem movI64Imm (o : IForm) : Statement (.movI64Imm o) := ⟨rfl, rfl, rfl⟩
theorem mul (o : RForm) : Statement (.mul o) := ⟨rfl, rfl, rfl⟩
theorem mulHi (o : RForm) : Statement (.mulHi o) := ⟨rfl, rfl, rfl⟩
theorem mulWide (o : RForm) : Statement (.mulWide o) := ⟨rfl, rfl, rfl⟩
theorem mad (o : RForm) : Statement (.mad o) := ⟨rfl, rfl, rfl⟩
theorem madHi (o : RForm) : Statement (.madHi o) := ⟨rfl, rfl, rfl⟩
theorem madWide (o : RForm) : Statement (.madWide o) := ⟨rfl, rfl, rfl⟩
theorem min (o : RForm) : Statement (.min o) := ⟨rfl, rfl, rfl⟩
theorem max (o : RForm) : Statement (.max o) := ⟨rfl, rfl, rfl⟩
theorem and (o : RForm) : Statement (.and o) := ⟨rfl, rfl, rfl⟩
theorem or (o : RForm) : Statement (.or o) := ⟨rfl, rfl, rfl⟩
theorem xor (o : RForm) : Statement (.xor o) := ⟨rfl, rfl, rfl⟩
theorem not (o : RForm) : Statement (.not o) := ⟨rfl, rfl, rfl⟩
theorem andn (o : RForm) : Statement (.andn o) := ⟨rfl, rfl, rfl⟩
theorem orn (o : RForm) : Statement (.orn o) := ⟨rfl, rfl, rfl⟩
theorem xnor (o : RForm) : Statement (.xnor o) := ⟨rfl, rfl, rfl⟩
theorem shl (o : RForm) : Statement (.shl o) := ⟨rfl, rfl, rfl⟩
theorem shr (o : RForm) : Statement (.shr o) := ⟨rfl, rfl, rfl⟩
theorem sar (o : RForm) : Statement (.sar o) := ⟨rfl, rfl, rfl⟩
theorem rol (o : RForm) : Statement (.rol o) := ⟨rfl, rfl, rfl⟩
theorem ror (o : RForm) : Statement (.ror o) := ⟨rfl, rfl, rfl⟩
theorem bfe (o : RForm) : Statement (.bfe o) := ⟨rfl, rfl, rfl⟩
theorem bfi (o : RForm) : Statement (.bfi o) := ⟨rfl, rfl, rfl⟩
theorem popc (o : RForm) : Statement (.popc o) := ⟨rfl, rfl, rfl⟩
theorem clz (o : RForm) : Statement (.clz o) := ⟨rfl, rfl, rfl⟩
theorem brev (o : RForm) : Statement (.brev o) := ⟨rfl, rfl, rfl⟩
theorem icmpp (cmp : ICmp) (o : RForm) : Statement (.icmpp cmp o) := ⟨rfl, rfl, rfl⟩
theorem sel (o : RForm) : Statement (.sel o) := ⟨rfl, rfl, rfl⟩
theorem mov (o : RForm) : Statement (.mov o) := ⟨rfl, rfl, rfl⟩
theorem movI64 (o : RForm) : Statement (.movI64 o) := ⟨rfl, rfl, rfl⟩
theorem lea (o : RForm) : Statement (.lea o) := ⟨rfl, rfl, rfl⟩
theorem leaN (o : RForm) : Statement (.leaN o) := ⟨rfl, rfl, rfl⟩
theorem leaS (o : RForm) : Statement (.leaS o) := ⟨rfl, rfl, rfl⟩
theorem dot4 (o : RForm) : Statement (.dot4 o) := ⟨rfl, rfl, rfl⟩
theorem uniformForm (u : UniForm) : Statement (.uniformForm u) := ⟨rfl, rfl, rfl⟩
theorem pand (o : RForm) : Statement (.pand o) := ⟨rfl, rfl, rfl⟩
theorem por (o : RForm) : Statement (.por o) := ⟨rfl, rfl, rfl⟩
theorem pxor (o : RForm) : Statement (.pxor o) := ⟨rfl, rfl, rfl⟩
theorem pandn (o : RForm) : Statement (.pandn o) := ⟨rfl, rfl, rfl⟩
theorem porn (o : RForm) : Statement (.porn o) := ⟨rfl, rfl, rfl⟩
theorem pnot (o : RForm) : Statement (.pnot o) := ⟨rfl, rfl, rfl⟩
theorem pmov (o : RForm) : Statement (.pmov o) := ⟨rfl, rfl, rfl⟩
theorem p2s (o : RForm) : Statement (.p2s o) := ⟨rfl, rfl, rfl⟩
theorem s2p (o : RForm) : Statement (.s2p o) := ⟨rfl, rfl, rfl⟩
theorem shfl (mode : ShflMode) (o : RForm) : Statement (.shfl mode o) := ⟨rfl, rfl, rfl⟩
theorem voteOr (o : RForm) : Statement (.voteOr o) := ⟨rfl, rfl, rfl⟩
theorem voteAnd (o : RForm) : Statement (.voteAnd o) := ⟨rfl, rfl, rfl⟩
theorem voteMask (o : RForm) : Statement (.voteMask o) := ⟨rfl, rfl, rfl⟩
theorem matchPeers (o : RForm) : Statement (.matchPeers o) := ⟨rfl, rfl, rfl⟩
theorem matchSame (o : RForm) : Statement (.matchSame o) := ⟨rfl, rfl, rfl⟩
theorem scan (op : ScanOp) (o : RForm) : Statement (.scan op o) := ⟨rfl, rfl, rfl⟩
theorem fadd (o : RForm) : Statement (.fadd o) := ⟨rfl, rfl, rfl⟩
theorem fsub (o : RForm) : Statement (.fsub o) := ⟨rfl, rfl, rfl⟩
theorem fmul (o : RForm) : Statement (.fmul o) := ⟨rfl, rfl, rfl⟩
theorem ffma (o : RForm) : Statement (.ffma o) := ⟨rfl, rfl, rfl⟩
theorem ffms (o : RForm) : Statement (.ffms o) := ⟨rfl, rfl, rfl⟩
theorem ffnma (o : RForm) : Statement (.ffnma o) := ⟨rfl, rfl, rfl⟩
theorem fmin (o : RForm) : Statement (.fmin o) := ⟨rfl, rfl, rfl⟩
theorem fmax (o : RForm) : Statement (.fmax o) := ⟨rfl, rfl, rfl⟩
theorem fcmpp (cmp : FCmp) (o : RForm) : Statement (.fcmpp cmp o) := ⟨rfl, rfl, rfl⟩
theorem fclass (o : RForm) : Statement (.fclass o) := ⟨rfl, rfl, rfl⟩
theorem cvt (src : Ty) (o : RForm) : Statement (.cvt src o) := ⟨rfl, rfl, rfl⟩
theorem padd (o : RForm) : Statement (.padd o) := ⟨rfl, rfl, rfl⟩
theorem pmul (o : RForm) : Statement (.pmul o) := ⟨rfl, rfl, rfl⟩
theorem pfma (o : RForm) : Statement (.pfma o) := ⟨rfl, rfl, rfl⟩
theorem pmin (o : RForm) : Statement (.pmin o) := ⟨rfl, rfl, rfl⟩
theorem pmax (o : RForm) : Statement (.pmax o) := ⟨rfl, rfl, rfl⟩
theorem fseed (fn : SeedFn) (o : RForm) : Statement (.fseed fn o) := ⟨rfl, rfl, rfl⟩
theorem frred (o : RForm) : Statement (.frred o) := ⟨rfl, rfl, rfl⟩
theorem fscale (o : RForm) : Statement (.fscale o) := ⟨rfl, rfl, rfl⟩
theorem fexp (o : RForm) : Statement (.fexp o) := ⟨rfl, rfl, rfl⟩
theorem fmant (o : RForm) : Statement (.fmant o) := ⟨rfl, rfl, rfl⟩
theorem cvtblk (src : Ty) (o : RForm) : Statement (.cvtblk src o) := ⟨rfl, rfl, rfl⟩
theorem ld (o : MForm) : Statement (.ld o) := ⟨rfl, rfl, rfl⟩
theorem st (o : MForm) : Statement (.st o) := ⟨rfl, rfl, rfl⟩
theorem ldu (o : MForm) : Statement (.ldu o) := ⟨rfl, rfl, rfl⟩
theorem prefetchL1 (o : MForm) : Statement (.prefetchL1 o) := ⟨rfl, rfl, rfl⟩
theorem prefetchDep (o : MForm) : Statement (.prefetchDep o) := ⟨rfl, rfl, rfl⟩
theorem atom (op : AtomOp) (o : MForm) : Statement (.atom op o) := ⟨rfl, rfl, rfl⟩
theorem red (op : AtomOp) (o : MForm) : Statement (.red op o) := ⟨rfl, rfl, rfl⟩
theorem cas (o : MForm) : Statement (.cas o) := ⟨rfl, rfl, rfl⟩
theorem gateInit (o : MForm) : Statement (.gateInit o) := ⟨rfl, rfl, rfl⟩
theorem gateExpect (o : MForm) : Statement (.gateExpect o) := ⟨rfl, rfl, rfl⟩
theorem gateArrive (o : MForm) : Statement (.gateArrive o) := ⟨rfl, rfl, rfl⟩
theorem gatePeek (o : MForm) : Statement (.gatePeek o) := ⟨rfl, rfl, rfl⟩
theorem gateWait (o : MForm) : Statement (.gateWait o) := ⟨rfl, rfl, rfl⟩
theorem gateWaitLim (o : MForm) : Statement (.gateWaitLim o) := ⟨rfl, rfl, rfl⟩
theorem lock (o : MForm) : Statement (.lock o) := ⟨rfl, rfl, rfl⟩
theorem unlock (o : MForm) : Statement (.unlock o) := ⟨rfl, rfl, rfl⟩
theorem barrier (o : RForm) : Statement (.barrier o) := ⟨rfl, rfl, rfl⟩
theorem acqBlk (o : RForm) : Statement (.acqBlk o) := ⟨rfl, rfl, rfl⟩
theorem acqOpt (o : RForm) : Statement (.acqOpt o) := ⟨rfl, rfl, rfl⟩
theorem acqAcc (o : RForm) : Statement (.acqAcc o) := ⟨rfl, rfl, rfl⟩
theorem relBlk (o : RForm) : Statement (.relBlk o) := ⟨rfl, rfl, rfl⟩
theorem relOpt (o : RForm) : Statement (.relOpt o) := ⟨rfl, rfl, rfl⟩
theorem relAcc (o : RForm) : Statement (.relAcc o) := ⟨rfl, rfl, rfl⟩
theorem clean (o : RForm) : Statement (.clean o) := ⟨rfl, rfl, rfl⟩
theorem inval (o : RForm) : Statement (.inval o) := ⟨rfl, rfl, rfl⟩
theorem fenceAcq (o : RForm) : Statement (.fenceAcq o) := ⟨rfl, rfl, rfl⟩
theorem fenceRel (o : RForm) : Statement (.fenceRel o) := ⟨rfl, rfl, rfl⟩
theorem fenceAr (o : RForm) : Statement (.fenceAr o) := ⟨rfl, rfl, rfl⟩
theorem fenceSc (o : RForm) : Statement (.fenceSc o) := ⟨rfl, rfl, rfl⟩
theorem mswitchBank (o : RForm) : Statement (.mswitchBank o) := ⟨rfl, rfl, rfl⟩
theorem mswitchCtl (o : RForm) : Statement (.mswitchCtl o) := ⟨rfl, rfl, rfl⟩
theorem tld (o : MForm) : Statement (.tld o) := ⟨rfl, rfl, rfl⟩
theorem tst (o : MForm) : Statement (.tst o) := ⟨rfl, rfl, rfl⟩
theorem tzero (o : RForm) : Statement (.tzero o) := ⟨rfl, rfl, rfl⟩
theorem mma (o : RForm) : Statement (.mma o) := ⟨rfl, rfl, rfl⟩
theorem mmag (o : RForm) : Statement (.mmag o) := ⟨rfl, rfl, rfl⟩
theorem tmask (o : MForm) : Statement (.tmask o) := ⟨rfl, rfl, rfl⟩
theorem tdrain (o : MForm) : Statement (.tdrain o) := ⟨rfl, rfl, rfl⟩
theorem tdrainAdd (o : MForm) : Statement (.tdrainAdd o) := ⟨rfl, rfl, rfl⟩
theorem tdrainAddSplit (o : MForm) : Statement (.tdrainAddSplit o) := ⟨rfl, rfl, rfl⟩
theorem tcvt (o : RForm) : Statement (.tcvt o) := ⟨rfl, rfl, rfl⟩
theorem cpyIn (o : EForm) : Statement (.cpyIn o) := ⟨rfl, rfl, rfl⟩
theorem cpyOut (o : EForm) : Statement (.cpyOut o) := ⟨rfl, rfl, rfl⟩
theorem tdesc (o : EForm) : Statement (.tdesc o) := ⟨rfl, rfl, rfl⟩
theorem tdescAlias (o : EForm) : Statement (.tdescAlias o) := ⟨rfl, rfl, rfl⟩
theorem mrs (o : EForm) : Statement (.mrs o) := ⟨rfl, rfl, rfl⟩
theorem rst (o : EForm) : Statement (.rst o) := ⟨rfl, rfl, rfl⟩
theorem wbl (o : EForm) : Statement (.wbl o) := ⟨rfl, rfl, rfl⟩
theorem wblAcq (o : EForm) : Statement (.wblAcq o) := ⟨rfl, rfl, rfl⟩
theorem redx (o : EForm) : Statement (.redx o) := ⟨rfl, rfl, rfl⟩
theorem imxLoad (o : EForm) : Statement (.imxLoad o) := ⟨rfl, rfl, rfl⟩
theorem imxVec (o : EForm) : Statement (.imxVec o) := ⟨rfl, rfl, rfl⟩
theorem imxRun (o : EForm) : Statement (.imxRun o) := ⟨rfl, rfl, rfl⟩
theorem imxBcast (o : EForm) : Statement (.imxBcast o) := ⟨rfl, rfl, rfl⟩
theorem imxCollect (o : EForm) : Statement (.imxCollect o) := ⟨rfl, rfl, rfl⟩
theorem imxStat (o : EForm) : Statement (.imxStat o) := ⟨rfl, rfl, rfl⟩
theorem grid (o : EForm) : Statement (.grid o) := ⟨rfl, rfl, rfl⟩
theorem sget (o : RForm) : Statement (.sget o) := ⟨rfl, rfl, rfl⟩
theorem sput (o : RForm) : Statement (.sput o) := ⟨rfl, rfl, rfl⟩
theorem eret (o : RForm) : Statement (.eret o) := ⟨rfl, rfl, rfl⟩
theorem faultackRetry (o : RForm) : Statement (.faultackRetry o) := ⟨rfl, rfl, rfl⟩
theorem faultackSkip (o : RForm) : Statement (.faultackSkip o) := ⟨rfl, rfl, rfl⟩
theorem faultackRegion (o : RForm) : Statement (.faultackRegion o) := ⟨rfl, rfl, rfl⟩
theorem faultackKill (o : RForm) : Statement (.faultackKill o) := ⟨rfl, rfl, rfl⟩
theorem faultackHold (o : RForm) : Statement (.faultackHold o) := ⟨rfl, rfl, rfl⟩
theorem dbgstep (o : RForm) : Statement (.dbgstep o) := ⟨rfl, rfl, rfl⟩
theorem preempt (o : RForm) : Statement (.preempt o) := ⟨rfl, rfl, rfl⟩
theorem kill (o : RForm) : Statement (.kill o) := ⟨rfl, rfl, rfl⟩
theorem resume (o : RForm) : Statement (.resume o) := ⟨rfl, rfl, rfl⟩
theorem tlbinv (o : RForm) : Statement (.tlbinv o) := ⟨rfl, rfl, rfl⟩
theorem dsel (k : Bool) (r : BitVec 13) (l h : BitVec 6) : Statement (.dsel k r l h) := ⟨rfl, rfl, rfl⟩
theorem dadv (k : Bool) (n : BitVec 16) : Statement (.dadv k n) := ⟨rfl, rfl, rfl⟩
theorem dvset (v : BitVec 6) (s : BitVec 11) : Statement (.dvset v s) := ⟨rfl, rfl, rfl⟩
theorem dlset (k a : Bool) (n : BitVec 16) : Statement (.dlset k a n) := ⟨rfl, rfl, rfl⟩
theorem dloop (k : Bool) (s : BitVec 6) : Statement (.dloop k s) := ⟨rfl, rfl, rfl⟩
theorem dwait (n : BitVec 16) : Statement (.dwait n) := ⟨rfl, rfl, rfl⟩
theorem dmac (c : BitVec 4) : Statement (.dmac c) := ⟨rfl, rfl, rfl⟩
theorem dmacx (c : BitVec 4) : Statement (.dmacx c) := ⟨rfl, rfl, rfl⟩
theorem dscol (n : BitVec 8) : Statement (.dscol n) := ⟨rfl, rfl, rfl⟩
theorem dvld (k : Bool) : Statement (.dvld k) := ⟨rfl, rfl, rfl⟩
theorem dvst (k : Bool) : Statement (.dvst k) := ⟨rfl, rfl, rfl⟩
theorem dadd (t d : Bool) : Statement (.dadd t d) := ⟨rfl, rfl, rfl⟩
theorem dscale (c : BitVec 4) (t y : Bool) : Statement (.dscale c t y) := ⟨rfl, rfl, rfl⟩
theorem dazero (m : BitVec 16) : Statement (.dazero m) := ⟨rfl, rfl, rfl⟩
theorem dald (h : Bool) : Statement (.dald h) := ⟨rfl, rfl, rfl⟩
theorem dstore (t h : Bool) : Statement (.dstore t h) := ⟨rfl, rfl, rfl⟩
theorem repetition : Statement (.repetition) := ⟨rfl, rfl, rfl⟩
theorem yieldBackoffExpiry : Statement (.yieldBackoffExpiry) := ⟨rfl, rfl, rfl⟩
theorem yieldWBackoffExpiry : Statement (.yieldWBackoffExpiry) := ⟨rfl, rfl, rfl⟩
theorem gateWaitDeadline : Statement (.gateWaitDeadline) := ⟨rfl, rfl, rfl⟩
theorem lockGrant : Statement (.lockGrant) := ⟨rfl, rfl, rfl⟩
theorem lockWithdrawalAnswer : Statement (.lockWithdrawalAnswer) := ⟨rfl, rfl, rfl⟩
theorem fencePerformed : Statement (.fencePerformed) := ⟨rfl, rfl, rfl⟩
theorem drayRowOpen : Statement (.drayRowOpen) := ⟨rfl, rfl, rfl⟩
theorem drayStopped : Statement (.drayStopped) := ⟨rfl, rfl, rfl⟩
theorem drayBankYield : Statement (.drayBankYield) := ⟨rfl, rfl, rfl⟩
theorem ppointWindowExpiry : Statement (.ppointWindowExpiry) := ⟨rfl, rfl, rfl⟩
theorem groupHalt : Statement (.groupHalt) := ⟨rfl, rfl, rfl⟩
theorem groupFrameWrite : Statement (.groupFrameWrite) := ⟨rfl, rfl, rfl⟩
theorem teamFrameWrite : Statement (.teamFrameWrite) := ⟨rfl, rfl, rfl⟩
theorem trapDelivery : Statement (.trapDelivery) := ⟨rfl, rfl, rfl⟩
theorem trapRecordPost : Statement (.trapRecordPost) := ⟨rfl, rfl, rfl⟩
theorem ceWindowClear : Statement (.ceWindowClear) := ⟨rfl, rfl, rfl⟩
theorem fabricBlockWrite : Statement (.fabricBlockWrite) := ⟨rfl, rfl, rfl⟩
theorem pageWaitReframe : Statement (.pageWaitReframe) := ⟨rfl, rfl, rfl⟩
theorem teamPlacement : Statement (.teamPlacement) := ⟨rfl, rfl, rfl⟩
theorem scratchpadClearDone : Statement (.scratchpadClearDone) := ⟨rfl, rfl, rfl⟩
theorem placementReservation : Statement (.placementReservation) := ⟨rfl, rfl, rfl⟩
theorem dispatcherPreempt : Statement (.dispatcherPreempt) := ⟨rfl, rfl, rfl⟩
theorem teamEnd : Statement (.teamEnd) := ⟨rfl, rfl, rfl⟩
theorem gridRetire : Statement (.gridRetire) := ⟨rfl, rfl, rfl⟩
theorem doneWrite : Statement (.doneWrite) := ⟨rfl, rfl, rfl⟩
theorem coldReset : Statement (.coldReset) := ⟨rfl, rfl, rfl⟩
theorem packageReset : Statement (.packageReset) := ⟨rfl, rfl, rfl⟩
theorem mboxUpdate : Statement (.mboxUpdate) := ⟨rfl, rfl, rfl⟩
theorem mboxFloor : Statement (.mboxFloor) := ⟨rfl, rfl, rfl⟩
theorem quote : Statement (.quote) := ⟨rfl, rfl, rfl⟩
theorem aliasCert : Statement (.aliasCert) := ⟨rfl, rfl, rfl⟩
theorem dikcert : Statement (.dikcert) := ⟨rfl, rfl, rfl⟩
theorem idekey : Statement (.idekey) := ⟨rfl, rfl, rfl⟩
theorem mboxCommandDone : Statement (.mboxCommandDone) := ⟨rfl, rfl, rfl⟩
theorem dend : Statement (.dend) := ⟨rfl, rfl, rfl⟩
theorem dacvt : Statement (.dacvt) := ⟨rfl, rfl, rfl⟩
theorem lockUnitAnswer : Statement (.lockUnitAnswer) := ⟨rfl, rfl, rfl⟩
theorem drayIllegalCommand : Statement (.drayIllegalCommand) := ⟨rfl, rfl, rfl⟩

end Sys2Proof.Laws.Canon
end

