-- ==== Sys2Proof/Tests/Slice0.lean ====
section
/-! SUPPORT. Words of the spec's own encodings, terms that are not well formed, single steps, and a witness for
the hypotheses of every statement. -/

namespace Sys2Proof.Tests

set_option Elab.async false

open Sys2Proof.Machine

/-! Forms with every field 0. -/

def rz : RForm := ⟨0, 0, 0, 0, ⟨0, false⟩, .i32, .rn, false, false, false, false, .lane, false⟩
def iz : IForm := ⟨0, 0, ⟨0, false⟩, 0⟩
def mz : MForm := ⟨0, 0, 0, ⟨0, false⟩, false, 0, .g, .relaxed, false, false⟩
def bz : BForm := ⟨0, ⟨0, false⟩, 0⟩
def ez : EForm := ⟨0, 0, 0, 0, ⟨0, false⟩, 0⟩

/-! Decoding: the words of the spec's examples. -/

/-- R144, R148, R154, R157: control, the prefix and the integer words. -/
theorem test_decode_integer :
    decodeTableWord 64 0x01FFFFFFFB400000 = some (.bra { bz with ofs := 0xFFFFFFFB, g := ⟨2, false⟩ })
    ∧ decodeTableWord 64 0x0700000000008004 = some (.waitc .A { rz with ck := .imm })
    ∧ decodeTableWord 64 0x7F11400000000000 = some (.rep ⟨4, 1, 1, 0, 0⟩)
    ∧ decodeTableWord 64 0x100A0B0D02008404 = some (.addc { rz with d := 10, a := 11, b := 13, c := 2, ty := .n32, ck := .imm })
    ∧ decodeTableWord 64 0x1504060028004C04 = some (.shr { rz with d := 4, a := 6, c := 40, ty := .n64, ck := .imm })
    ∧ decodeTableWord 64 0x1114007012345678 = some (.movImm { iz with d := 20, imm := 0x12345678 })
    ∧ decodeTableWord 64 0x1103070BFFFFFFFF = some (.addImm { iz with d := 3, a := 7, g := ⟨5, true⟩, imm := 0xFFFFFFFF })
    ∧ decodeTableWord 64 0x1A0C040303000014 = some (.lea { rz with d := 12, a := 4, b := 3, c := 3, ua := true, ck := .imm })
    ∧ decodeTableWord 64 0x3507060003000005 = some (.scan .add { rz with d := 7, a := 6, c := 3, ck := .imm, x := true }) := by
  decide +kernel

/-- R152: the pair word of the example, and the three beside it that are illegal. -/
theorem test_decode_pair :
    decodeTableWord 64 0xC02127000C70C0C8 = some (.pairWord ⟨.faddF32, 4, 9, 1792⟩ ⟨.addI, 7, 3, 100⟩)
    ∧ decodeTableWord 64 0xC02127000C7140C8 = none ∧ decodeTableWord 64 0xC02127000C40C0C8 = none
    ∧ decodeTableWord 64 0xC02127000C7100C8 = none ∧ decodeTableWord 64 0xC02127000C70C0C9 = none := by
  decide +kernel

/-- R200 to R214: floating-point words. -/
theorem test_decode_float :
    decodeTableWord 64 0x420409020E602088 = some (.ffma
      { rz with d := 4, a := 9, b := 2, c := 14, g := ⟨3, false⟩, ty := .f32, rm := .rz, ub := true })
    ∧ decodeTableWord 64 0x413E180500002008 = some (.fmul { rz with d := 62, a := 24, b := 5, ty := .f32, ub := true })
    ∧ decodeTableWord 64 0x420200010100A004 = some (.ffnma { rz with d := 2, b := 1, c := 1, ty := .f32, ck := .imm })
    ∧ decodeTableWord 64 0x440205000000A004 = some (.fcmpp .lt { rz with d := 2, a := 5, ty := .f32, ck := .imm })
    ∧ decodeTableWord 64 0x4604050610022404 = some (.cvt .f32 { rz with d := 4, a := 5, b := 6, c := 16, ty := .bf16, ck := .imm })
    ∧ decodeTableWord 64 0x480403000000E000 = some (.fseed .ex2 { rz with d := 4, a := 3, ty := .f32 }) := by
  decide +kernel

/-- R220 to R246: memory, gates, locks, the barrier, acquisition, fences and ranges. -/
theorem test_decode_memory :
    decodeTableWord 64 0x50060AFFFE0002A4 = some (.ld { mz with d := 6, a := 10, ofs := 0x1FFFC0, ac := 5, sc := .d, ord := .acq })
    ∧ decodeTableWord 64 0x51030A0002000228 = some (.st { mz with d := 3, a := 10, ofs := 64, ac := 4, sc := .d, ord := .rel })
    ∧ decodeTableWord 64 0x5004020008000202 = some (.ld { mz with d := 4, a := 2, ofs := 256, ac := 4, sp := true })
    ∧ decodeTableWord 64 0x52060A0000084280 = some (.ldu { mz with d := 6, a := 10, ofs := 16, ubase := true, ac := 5 })
    ∧ decodeTableWord 64 0x06050A0000080200 = some (.yieldW { mz with d := 5, a := 10, ofs := 16, ac := 4 })
    ∧ decodeTableWord 64 0x60050200100000A2 = some (.atom .add { mz with d := 5, a := 2, ofs := 512, ac := 1, sc := .d, sp := true })
    ∧ decodeTableWord 64 0x6307020008002200 = some (.gateWait { mz with d := 7, a := 2, ofs := 256, ac := 4 })
    ∧ decodeTableWord 64 0x64000A0000000220 = some (.lock { mz with a := 10, ac := 4, sc := .d })
    ∧ decodeTableWord 64 0x64000A0000000A20 = some (.unlock { mz with a := 10, ac := 4, sc := .d })
    ∧ decodeTableWord 64 0x6500000000000000 = some (.barrier rz)
    ∧ decodeTableWord 64 0x6600000002000004 = some (.acqBlk { rz with c := 2, ck := .imm })
    ∧ decodeTableWord 64 0x6600000001014004 = some (.relAcc { rz with c := 1, ck := .imm })
    ∧ decodeTableWord 64 0x6A00000002010004 = some (.fenceSc { rz with c := 2, ck := .imm })
    ∧ decodeTableWord 64 0x68000A0C00000000 = some (.clean { rz with a := 10, b := 12 })
    ∧ decodeTableWord 64 0x6B00040600000018 = some (.mswitchBank { rz with a := 4, b := 6, ua := true, ub := true }) := by
  decide +kernel

/-- R247 to R282: tiles, the matrix slice and the engines. -/
theorem test_decode_tiles_engines :
    decodeTableWord 64 0x7002040004004080 = some (.tld { mz with d := 2, a := 4, ofs := 128, ubase := true, ac := 1 })
    ∧ decodeTableWord 64 0x7002060000000800 = some (.tst { mz with d := 2, a := 6 })
    ∧ decodeTableWord 64 0x7103000000000000 = some (.tzero { rz with d := 3 })
    ∧ decodeTableWord 64 0x7201020300000000 = some (.mma { rz with d := 1, a := 2, b := 3 })
    ∧ decodeTableWord 64 0x7300140500002400 = some (.mmag { rz with a := 20, b := 5, ty := .bf16 })
    ∧ decodeTableWord 64 0x74000C0000004000 = some (.tmask { mz with a := 12, ubase := true })
    ∧ decodeTableWord 64 0x7501080000004A00 = some (.tdrainAdd { mz with d := 1, a := 8, ubase := true, ac := 4 })
    ∧ decodeTableWord 64 0x7502030080004202 = some (.tdrain { mz with d := 2, a := 3, ofs := 4096, ubase := true, ac := 4, sp := true })
    ∧ decodeTableWord 64 0x7606020001002CC4 = some (.tcvt
      { rz with d := 6, a := 2, c := 1, ty := .e4m3, rm := .rz, sat := true, ck := .imm })
    ∧ decodeTableWord 64 0x7802040306000000 = some (.cpyIn { ez with e1 := 2, e2 := 4, e3 := 3, e4 := 6 })
    ∧ decodeTableWord 64 0x7B04060500000020 = some (.redx { ez with e1 := 4, e2 := 6, e3 := 5, emod := 0x20 })
    ∧ decodeTableWord 64 0x7A02030406010000 = some (.wbl { ez with e1 := 2, e2 := 3, e3 := 4, e4 := 6 })
    ∧ decodeTableWord 64 0x7C0A0C0E0F030000 = some (.imxBcast { ez with e1 := 10, e2 := 12, e3 := 14, e4 := 15 })
    ∧ decodeTableWord 64 0x7D00040000000000 = some (.grid { ez with e2 := 4 }) := by
  decide +kernel

/-- R198, R199, R332 to R342, R354: state registers and the supervisor's words. -/
theorem test_decode_system :
    decodeTableWord 64 0x7E06070000000001 = some (.sget { rz with d := 6, a := 7, x := true })
    ∧ decodeTableWord 64 0x7E000A0900004008 = some (.sput { rz with a := 10, b := 9, ub := true })
    ∧ decodeTableWord 64 0x7E0004060000C018 = some (.faultackRetry { rz with a := 4, b := 6, ua := true, ub := true })
    ∧ decodeTableWord 64 0x7E00000000008000 = some (.eret rz)
    ∧ decodeTableWord 64 0x7E00050000080010 = some (.preempt { rz with a := 5, ua := true })
    ∧ decodeTableWord 64 0x7E00050000084010 = some (.kill { rz with a := 5, ua := true })
    ∧ decodeTableWord 64 0x7E00060000088010 = some (.resume { rz with a := 6, ua := true })
    ∧ decodeTableWord 64 0x7E0004060708C01A = some (.tlbinv { rz with a := 4, b := 6, c := 7, ua := true, ub := true, ck := .uni })
    ∧ decodeTableWord 64 0x7E00080000010010 = some (.dbgstep { rz with a := 8, ua := true }) := by
  decide +kernel

/-- R288: dray commands, written out from its table; an unassigned opcode and fields that have to be 0. -/
theorem test_decode_dray :
    decodeTableWord 32 0x00000000 = some .dend ∧ decodeTableWord 32 0x060050FC = some (.dsel true 5 3 60)
    ∧ decodeTableWord 32 0x08000007 = some (.dadv false 7) ∧ decodeTableWord 32 0x13000000 = some (.dlset true true 0)
    ∧ decodeTableWord 32 0x16000009 = some (.dloop true 9) ∧ decodeTableWord 32 0x20C00000 = some (.dmac 3)
    ∧ decodeTableWord 32 0x38B00000 = some (.dscale 2 true true) ∧ decodeTableWord 32 0x4F000000 = some (.dstore true true)
    ∧ decodeTableWord 32 0x1C000000 = none ∧ decodeTableWord 32 0x11000001 = none ∧ decodeTableWord 32 0x4D000000 = none := by
  decide +kernel

/-! Terms that are not well formed. -/

/-- R142 to R156: a register pair that is odd, a uniform number past 63, a destination that has to be 0, a type that
the word does not take, a predicate past p7, p0 negated, an immediate past its range, a B-form and an E-form likewise. -/
theorem test_wf_refuses_fields :
    (Instr.add { rz with d := 5, ty := .i64 }).wf = false ∧ (Instr.add { rz with a := 64, ua := true }).wf = false
    ∧ (Instr.exit { rz with d := 1 }).wf = false ∧ (Instr.fadd { rz with ty := .i32 }).wf = false
    ∧ (Instr.icmpp .eq { rz with d := 8 }).wf = false ∧ (Instr.add { rz with g := ⟨0, true⟩ }).wf = false
    ∧ (Instr.shl { rz with ck := .uni }).wf = false ∧ (Instr.add { rz with c := 1 }).wf = false
    ∧ (Instr.addImm { iz with g := ⟨0, true⟩ }).wf = false ∧ (Instr.ld { mz with ac := 9 }).wf = false
    ∧ (Instr.bra { bz with l := 2 }).wf = false ∧ (Instr.call { bz with l := 3 }).wf = false
    ∧ (Instr.cpyIn { ez with e1 := 64 }).wf = false ∧ (Instr.grid { ez with emod := 1 }).wf = false
    ∧ (Instr.mma { rz with d := 8 }).wf = false ∧ (Instr.mma { rz with a := 16 }).wf = false
    ∧ (Instr.pairWord ⟨.mov, 4, 9, 0⟩ ⟨.mov, 4, 6, 0⟩).wf = false := by
  decide +kernel

/-- R288: the fields of a dray command that a condition holds at 0; R2, R11, R12: agents that do not exist. -/
theorem test_wf_refuses_agents :
    (Instr.dlset true true 1).wf = false ∧ (Instr.dstore false true).wf = false
    ∧ (Instr.sideIssueCycle 1024).wf = false ∧ (Instr.icacheFill 256 0 0).wf = false
    ∧ (Instr.depotFill ⟨16, 0, 0⟩).wf = false ∧ (Instr.rowStrengthen ⟨0, 64, 0, 0, 0⟩).wf = false
    ∧ (Instr.acqGrant 0 4).wf = false ∧ (Instr.scrubVisit 16).wf = false ∧ (Instr.extentFormatDone 0 256).wf = false := by
  decide +kernel

/-! A machine to witness hypotheses with: one grid of one team of one group, whose path of 32 lanes issues. -/

def kern : Kernel :=
  { addr := 0, entry := 0x400, groups := 1, kclass := 0, blocks := 1, optiles := 2, acctiles := 2, spbytes := 9216
    liveCount := 0, liveTab := 0, regions := [] }

def task : Grid :=
  { id := 3, ctx := 0, parent := none, parentTeam := none, root := 3, depth := 1, cls := 2, mode := .plain, kernel := kern
    teams := 1, args := 0, done := 0, regions := [], accept := 0, preds := [], nextTeam := 1, peers := [], killed := none
    retired := false, readyAt := 0, sup := none }

def team : Team :=
  { id := 2, grid := 3, teamId := 0, core := 0, spBase := 0, spSize := 9216, groups := [1], state := .running, descs := []
    acqQ := [], barrier := 0, frame := none, savedReload := [], frameWait := false, waitFor := none, since := 0
    handler := false }

/-- The group, with a register block, an operand and two accumulator tiles. -/
def grp : Group := { startGroup task emptyCtx 1 2 0 0 0 0 with h := 1, j := 2, m := 2 }

/-- The machine at an issue of `lanes` of the group. -/
def at_ (lanes : Word) (g : Group) : State :=
  { State.reset with
    nextId := 10, groups := [g], teams := [team], disp := { State.reset.disp with grids := [task], nextGrid := 4 }
    cur := { Cur.none with gid := 1, pc := 0x400, lanes := lanes, team := 2, grid := 3 } }

def all32 : Word := 0xFFFFFFFF
def s0 : State := at_ all32 grp

/-- A line of the depot, and a page of it that the group may read, write and fetch. -/
def line0 : DepotLine :=
  { line := ⟨0, 0, 0⟩, bytes := List.replicate 128 0, dirty := false, res := 0, poison := 0, marks0 := [], marks1 := [] }
def page0 : TlbEntry :=
  { cluster := 0, pasid := 0, va := 0, size := 4096, pa := 0, write := true, exec := true, nc := false, res := 0
    victim := false }

/-- The machine over that page. -/
def onPage (s : State) : State :=
  { s.bootDecoder with
    xl := { s.bootDecoder.xl with tlb := [page0] }, rel := { s.rel with ext := [(0, ⟨.P, false⟩)] }
    mem := { s.mem with depot := [line0] } }
def sg : State := onPage s0

/-- No guard. -/
abbrev gz : Guard := ⟨0, false⟩

/-! Witnesses: registers. -/

theorem witness_RegisterWordsChangeOnlyTheirResults : regWord (.add rz) = true ∧ GoesAhead (.add rz) (guardOf (.add rz)) s0 grp := by
  decide +kernel

theorem witness_IntegerWordsWriteTheirResults :
    GoesAhead (intInstr .add rz) rz.g s0 grp ∧ GoesAhead (immInstr .mov iz) iz.g s0 grp ∧ active s0 grp rz.g 31 := by
  decide +kernel

theorem witness_UniformFormsComputeOnce :
    (∀ i ∈ [Instr.uniformForm (.r .add rz), .uniformForm (.i .mov iz)], GoesAhead i (guardOf i) s0 grp)
    ∧ activeOf grp s0.cur gz ≠ 0 := by
  decide +kernel

theorem witness_CarryCompareSelectDot :
    ∀ i ∈ [Instr.addc { rz with d := 4, c := 2, ck := .imm, ty := .n32 }, .subc { rz with d := 4, c := 2, ck := .imm, ty := .n32 },
      .icmpp .lt { rz with d := 1 }, .sel { rz with ck := .imm }, .dot4 { rz with ty := .i8 }], GoesAhead i gz s0 grp := by
  decide +kernel

theorem witness_PredicateWordsWriteTheirBits :
    ∀ i ∈ [Instr.pand { rz with d := 1 }, .por { rz with d := 1 }, .pxor { rz with d := 1 }, .pandn { rz with d := 1 },
      .porn { rz with d := 1 }, .pnot { rz with d := 1 }, .pmov { rz with d := 1 }, .p2s rz, .s2p { rz with d := 1 }],
    GoesAhead i gz s0 grp := by
  decide +kernel

theorem witness_LaneExchangeWordsCombineActiveLanes :
    ∀ i ∈ [Instr.shfl .below rz, .voteOr { rz with d := 1 }, .voteAnd { rz with d := 1 }, .voteMask rz, .matchPeers rz,
      .matchSame rz], GoesAhead i gz s0 grp := by
  decide +kernel

theorem witness_ScanFoldsFromTheHeadLane :
    ∀ i ∈ [Instr.scan .add { rz with c := 3, ck := .imm }, .scan .add { rz with c := 3, ck := .imm, ty := .f32 }],
    GoesAhead i gz s0 grp := by
  decide +kernel

theorem witness_PairSlotsReadBeforeEitherWrites :
    GoesAhead (.pairWord ⟨.faddF32, 4, 9, 1792⟩ ⟨.addI, 7, 3, 100⟩) gz s0 grp := by
  decide +kernel

/-- A register form of FP32. -/
def rf : RForm := { rz with ty := .f32 }

theorem witness_FloatWordsWriteTheirElements :
    ∀ i ∈ [Instr.fadd rf, .fsub rf, .fmul rf, .ffma rf, .ffms rf, .ffnma rf, .fmin rf, .fmax rf, .padd { rf with ty := .bf16 },
      .pmul { rf with ty := .bf16 }, .pfma { rf with ty := .f16 }, .pmin { rf with ty := .f16 }, .pmax { rf with ty := .f16 },
      .fcmpp .lt { rf with d := 1 }], GoesAhead i gz s0 grp := by
  decide +kernel

theorem witness_ConversionAndHelperWordsWriteTheirResults :
    (∀ i ∈ [Instr.fclass rf, .fseed .rcp rf, .fexp rf, .fmant rf, .frred rf, .fscale rf, .cvt .i32 { rf with ck := .imm },
      .cvt .f32 { rf with c := 16, ty := .bf16, ck := .imm }, .cvt .f32 { rf with c := 4, ty := .e4m3, rm := .rs, ck := .imm },
      .cvt .f32 { rf with ty := .i64, rm := .rz, ck := .imm }, .cvtblk .f32 { rf with ty := .mx4, ck := .imm }],
      GoesAhead i gz s0 grp) ∧ activeOf grp s0.cur gz ≠ 0 := by
  decide +kernel

theorem witness_RoundingGivesTheCodeOfItsMode :
    fF32 ∈ formats ∧ (0 : Nat) < 2 ^ 24 ∧ (∀ rm ∈ [Rm.rn, .rz, .ru, .rd, .rs], (roundMag fF32 rm 0 false 3 0 false).beyond = false
      ∧ (roundMag fF32 rm 0 false 1 129 false).beyond = true) ∧ fF32 ≠ fE2M1 := by
  decide +kernel

theorem witness_FloatArithmeticRoundsTheExactNumberOnce :
    fF32 ∈ formats ∧ (FVal.fin true 3 0).finite = true ∧ isNan (.nan true) = true ∧ isSubnormal fF32 1 = true := by
  decide +kernel

/-! Witnesses: control. -/

/-- The group with some lane registers (key 32 r + L), with other lanes, with other uniform registers. -/
def withV (v : SMap TW) : Group := { grp with v := v }
def withS (r : SMap TW) : Group := { grp with s := r }
def withLanes (f : Nat → Lane → Lane) : Group := { grp with lanes := grp.lanes.mapIdx f }

theorem witness_TransfersMoveTheActiveLanes :
    (∀ i ∈ [Instr.bra bz, .call bz, .ret rz, .brx rz], GoesAhead i gz s0 grp) ∧ grp.trap = none
    ∧ (∀ L < 32, (srcA false grp rz 2 L).tag = false ∧ (srcA false grp rz 2 L).n % 8 = 0)
    ∧ (let g := withV [(5, ⟨1, true⟩)]
       GoesAhead (.ret rz) gz (at_ all32 g) g ∧ FirstLane (at_ all32 g) g gz (fun L => (srcA false g rz 2 L).tag = true) 5)
    ∧ (let g := withV [(5, ⟨1, false⟩)]
       GoesAhead (.ret rz) gz (at_ all32 g) g ∧ (∀ K < 32, (srcA false g rz 2 K).tag = false)
       ∧ FirstLane (at_ all32 g) g gz (fun L => (srcA false g rz 2 L).n % 8 ≠ 0) 5) := by
  and_intros <;> decide +kernel

theorem witness_ExitEndsLanesThenTheGroup :
    GoesAhead (.exit rz) gz (at_ 1 grp) grp ∧ grp.sup = false
    ∧ grp.running &&& ~~~activeOf grp (at_ 1 grp).cur gz ≠ 0
    ∧ GoesAhead (.exit rz) gz s0 grp ∧ activeOf grp s0.cur gz ≠ 0 ∧ grp.running &&& ~~~activeOf grp s0.cur gz = 0 := by
  and_intros <;> decide +kernel

/-- An operation of the group, in class A. -/
def op0 : Op :=
  { id := 7, gid := 1, team := 2, core := 0, ctx := 0, pasid := 0, cls := .A, kind := .red, span := [], launched := false
    drays := [], rows := [], lost := [], started := [], pos := 0, left := 1, got := [], ahead := []
    complete := false, status := 0, addr := 0, failAt := 0, moved := false, fault := none, reason := 0, issued := 0, flits := 0 }
def withOps (s : State) (os : List Op) : State := { s with eng := { s.eng with ops := os } }

def withErr : Group := { grp with errs := [⟨.A, 5, 64⟩] }
def withHalt (h : HaltState) : Group := { grp with halt := h }

/-- The immediate form of a word's count. -/
def ri : RForm := { rz with ck := .imm }

theorem witness_WaitcRegionsAndBreaks :
    GoesAhead (.waitc .A ri) gz s0 grp ∧ activeOf grp s0.cur gz ≠ 0 ∧ s0.countOf grp.gid .A ≤ ri.c.toNat
    ∧ grp.heldError .A = none
    ∧ GoesAhead (.waitc .A ri) gz (withOps s0 [op0]) grp ∧ ri.c.toNat < (withOps s0 [op0]).countOf grp.gid .A
    ∧ withErr.heldError .A = some ⟨.A, 5, 64⟩
    ∧ (∀ i ∈ [Instr.rgn rz, .rgnEnd rz, .brk iz, .trap iz], GoesAhead i gz s0 grp) := by
  and_intros <;> decide +kernel

theorem witness_BackOffsAndWindowsExpire :
    GoesAhead (.yield rz) gz s0 grp ∧ activeOf grp s0.cur gz ≠ 0 ∧ s0.group? s0.cur.gid = some grp ∧ grp.lanes.length = 32
    ∧ (∀ u ∈ [0, 100], GoesAhead (.ppoint iz) gz (at_ all32 (withHalt (.window u))) (withHalt (.window u))
        ∧ (at_ all32 (withHalt (.window u))).group? 1 = some (withHalt (.window u)))
    ∧ s0.cur.lanes = (withHalt (.window 100)).running ∧ (s0.ltick < 100 ∧ 0 ≤ s0.ltick) := by
  and_intros <;> decide +kernel

/-- The issue with words in the core's instruction cache. -/
def fetching (s : State) (ws : List Nat) (poison : Word) : State :=
  { s with mem := { s.mem with
      ic := [⟨0, 0, 8, (ws.flatMap (leBytes 8)) ++ List.replicate (128 - 8 * ws.length) 0, poison, 1000⟩] } }

/-- `rep 4, +1, +1, 0, 0` before `fmul.f32 v62, v24, s5` (R155). -/
def rep4 : RepForm := ⟨4, 1, 1, 0, 0⟩
def repeats : List Nat := [0x7F11400000000000, 0x413E180500002008]
def inRepeat : Group := withLanes fun _ ln => { ln with k := 1 }

theorem witness_PrefixRepeatsTheSteppedWord :
    s0.group? s0.cur.gid = some grp ∧ grp.Canonical ∧ grp.trap = none
    ∧ (fetching s0 repeats 0).afterPrefix grp rep4 = .ok 0x413E180500002008#64
    ∧ (fetching s0 [0x7F11400000000000, 0x7F11400000000000] 0).afterPrefix grp rep4 = .illegal
    ∧ (fetching s0 repeats 4).afterPrefix grp rep4 = .poisoned
    ∧ leastK inRepeat all32 = 1 ∧ repeatable 0x413E180500002008#64 = true
    ∧ (fetching (at_ all32 inRepeat) repeats 0).fetchWord 0 0 0x400 = some (0x7F11400000000000#64, false)
    ∧ (fetching (at_ all32 inRepeat) repeats 0).fetchWord 0 0 0x408 = some (0x413E180500002008#64, false)
    ∧ (stepWord rep4 0x413E180500002008#64 4).isSome = true
    ∧ (stepWord rep4 0x413E180500002008#64 1).all (fun i => regWord i
        && decide (GoesAhead i (guardOf i) (fetching (at_ all32 inRepeat) repeats 0) inRepeat)) = true
    ∧ stepWord ⟨8, 1, 1, 0, 0⟩ 0x41FE180500002008#64 8 = none := by
  and_intros <;> decide +kernel

/-! Witnesses: memory. The accesses stand at the ends of the team's allocation and of the line. -/

/-- Scratchpad forms at the allocation's last word, and the forms' first lane in trouble. -/
def msp : MForm := { mz with sp := true, ac := 4, ofs := 9212 }
def mspA : MForm := { mz with sp := true, ac := 1, ofs := 9212 }

theorem witness_ScratchpadLoadsAndStores :
    msp.sp = true ∧ s0.cores.Canonical ∧ SpReaches s0 grp gz msp (acSize 4) ∧ acSize 4 = 4
    ∧ (∀ i ∈ [Instr.ld msp, .st msp], GoesAhead i gz s0 grp) ∧ NoGate s0 grp gz msp 4 ∧ msp.ord = .relaxed
    ∧ ∀ L < 32, s0.performed grp.gid L grp.seq .t = true := by
  and_intros <;> decide +kernel

theorem witness_ScratchpadAtomicsActInLaneOrder :
    (∀ i ∈ [Instr.atom .add mspA, .red .add mspA, .cas { mspA with ac := 0 }], GoesAhead i gz s0 grp)
    ∧ SpReaches s0 grp gz mspA (atomBytes 1) ∧ atomBytes 1 = 4 ∧ atomBytes 0 = 4 ∧ NoGate s0 grp gz mspA 4 ∧ mspA.ord = .relaxed
    ∧ s0.cores.Canonical := by
  and_intros <;> decide +kernel

def spoiled : Group := withV [(5, ⟨0, true⟩)]
def skewed : Group := withV [(5, ⟨2, false⟩)]
def beyond : Group := withV [(5, ⟨4, false⟩)]
def gated : State := { s0 with cores := { s0.cores with gate := [(2303, true)] } }

/-- Global forms at the line's last word. -/
def mgl : MForm := { mz with ac := 4, ofs := 124 }
def mglA : MForm := { mz with ac := 1, ofs := 124 }
def accs (Ls : List Nat) : List Acc := Ls.map fun L => ⟨L, 124, .line ⟨0, 0, 0⟩ 124, some .P, false, 0⟩
/-- Lane 5 reaches by another base; the machine with more pages. -/
def strayG (lo hi : Word) : Group :=
  withV (sset ⟨0, false⟩ (sset ⟨0, false⟩ [] 5 ⟨lo, false⟩) 37 ⟨hi, false⟩)
def pages (es : List TlbEntry) (g : Group) : State :=
  let s := onPage (at_ all32 g)
  { s with xl := { s.xl with tlb := page0 :: es } }
def page1 (pa : Nat) : TlbEntry := { page0 with va := 4096, pa := pa }
/-- The page is non-cacheable; its extent is of class N, and lane 5 stores a poisoned word. -/
def ncS : State := { sg with xl := { sg.xl with tlb := [{ page0 with nc := true }] } }
def spoiltG : Group := withV [(69, ⟨0, true⟩)]
def plainS : State := { pages [] spoiltG with rel := { sg.rel with ext := [] } }

theorem witness_MemoryChecksTrapInOrder :
    (∀ x ∈ [(at_ all32 spoiled, spoiled), (at_ all32 skewed, skewed), (at_ all32 beyond, beyond), (gated, grp)],
      GoesAhead (.st msp) gz x.1 x.2 ∧ x.2.trap = none)
    ∧ FirstLane (at_ all32 spoiled) spoiled gz (fun K => ¬ (mBaseVal spoiled msp false K).tag = false) 5
    ∧ (∀ K < 32, (mBaseVal skewed msp false K).tag = false)
    ∧ FirstLane (at_ all32 skewed) skewed gz (fun K => ¬ spOffset skewed msp K % 4 = 0) 5
    ∧ (∀ K < 32, (mBaseVal beyond msp false K).tag = false ∧ spOffset beyond msp K % 4 = 0)
    ∧ FirstLane (at_ all32 beyond) beyond gz
        (fun K => ¬ (0 ≤ spOffset beyond msp K ∧ spOffset beyond msp K + 4 ≤ teamSize (at_ all32 beyond) beyond)) 5
    ∧ (∀ K < 32, 0 ≤ spOffset grp msp K ∧ spOffset grp msp K + 4 ≤ teamSize gated grp)
    ∧ FirstLane gated grp gz (fun K => ∃ b < 4, spGate gated.cores (spPhys gated grp (offN grp msp K) + b) = true) 0
    ∧ (∀ x ∈ [(strayG 0 0x01000000, []), (strayG 4096 0, [page1 (2 ^ 40)]), (strayG 4096 0, [page1 (2 ^ 51 + 3 * 2 ^ 41)]),
        (strayG 8192 0, [])], GoesAhead (.st mgl) gz (pages x.2 x.1) x.1 ∧ active (pages x.2 x.1) x.1 gz 5
        ∧ (∀ K < 32, (mBaseVal x.1 mgl true K).tag = false ∧ globalAddr x.1 mgl K % 4 = 0)
        ∧ ∀ K < 5, canonical (globalAddr x.1 mgl K) = true ∧ (pages x.2 x.1).translate 0 0 (globalAddr x.1 mgl K) .write = .hit 124 false 0
          ∧ (pages x.2 x.1).placeOf 124 false true = .at (.line ⟨0, 0, 0⟩ 124) (some .P))
    ∧ canonical (globalAddr (strayG 0 0x01000000) mgl 5) = false
    ∧ (∀ x ∈ [strayG 4096 0, strayG 8192 0], canonical (globalAddr x mgl 5) = true)
    ∧ (let s := pages [page1 (2 ^ 40)] (strayG 4096 0)
       s.translate 0 0 4220 .write = .hit (2 ^ 40 + 124) false 0 ∧ s.placeOf (2 ^ 40 + 124) false true = .absent)
    ∧ (let s := pages [page1 (2 ^ 51 + 3 * 2 ^ 41)] (strayG 4096 0)
       s.translate 0 0 4220 .write = .hit (2 ^ 51 + 3 * 2 ^ 41 + 124) false 0
       ∧ s.placeOf (2 ^ 51 + 3 * 2 ^ 41 + 124) false true = .at (.peer 3 124 false) none ∧ s.reachable 3 = false)
    ∧ (pages [] (strayG 8192 0)).translate 0 0 8316 .write = .miss
    ∧ GoesAhead (.atom .add mglA) gz ncS grp ∧ mglA.far = false
    ∧ ncS.resolveAll grp .write false (globalAddr grp mglA) (List.range 32)
        = .ok ((List.range 32).map fun L => ⟨L, 124, .raw 0 0 124, some .P, true, 0⟩)
    ∧ GoesAhead (.st { mgl with d := 2 }) gz plainS spoiltG ∧ (rdV spoiltG 2 5).tag = true
    ∧ (∀ L < 5, (rdV spoiltG 2 L).tag = false)
    ∧ plainS.resolveAll spoiltG .write false (globalAddr spoiltG mgl) (List.range 32)
        = .ok ((accs (List.range 32)).map fun a => { a with cls := some .N }) := by
  and_intros <;> decide +kernel

theorem witness_GlobalLoadsAndStoresGoToTheirHomes :
    mgl.sp = false ∧ GlReaches sg grp gz mgl (acSize 4) ∧ activeOf grp sg.cur gz ≠ 0
    ∧ (∀ i ∈ [Instr.ld mgl, .st mgl, .ldu { mgl with ubase := true }], GoesAhead i gz sg grp)
    ∧ (∀ L < 32, sg.l1Hit grp mgl L 124 4 = none)
    ∧ sg.resolveAll grp .read false (globalAddr grp mgl) (List.range 32) = .ok (accs (List.range 32))
    ∧ sg.resolveAll grp .write false (globalAddr grp mgl) (List.range 32) = .ok (accs (List.range 32))
    ∧ sg.resolveAll grp .read false (globalAddr grp mgl) [0] = .ok (accs [0])
    ∧ poisonStore sg.free (accs (List.range 32)) (storeTag grp mgl) = none := by
  and_intros <;> decide +kernel

theorem witness_AtomicsPollsAndLocksGoToTheirHomes :
    mglA.sp = false ∧ activeOf grp sg.cur gz ≠ 0 ∧ GlReaches sg grp gz mglA (atomBytes 1)
    ∧ (∀ i ∈ [Instr.atom .add mglA, .red .add mglA, .cas { mglA with ac := 0 }, .yieldW mgl, .lock mgl, .unlock mgl],
        GoesAhead i gz sg grp)
    ∧ sg.resolveAll grp .write false (globalAddr grp mglA) (List.range 32) = .ok (accs (List.range 32))
    ∧ sg.resolveAll grp .write true (globalAddr grp mglA) (List.range 32) = .ok (accs (List.range 32))
    ∧ sg.resolveAll grp .read false (globalAddr grp mgl) (List.range 32) = .ok (accs (List.range 32))
    ∧ attributeTrap false (accs (List.range 32)) = none
    ∧ (∀ L < 32, (atomOperand grp (.atom .add 1) 0 L).2.any id = false)
    ∧ (∀ L < 32, (rdVs grp 0 1 L).tag = false) ∧ sg.countOf grp.gid .A < 255 ∧ (∀ x ∈ sg.eng.ops, x.id < sg.nextId)
    ∧ (∀ L < 32, sg.performed grp.gid L grp.seq .g = true) := by
  and_intros <;> decide +kernel

/-- A request of lane 4 for the line's last word. -/
def req0 : Req :=
  { id := 7, gid := 1, gen := 1, core := 0, side := 0, slot := 0, ctx := 0, lane := 4, pc := 0x400, kind := .store, place := .line ⟨0, 0, 0⟩ 124
    va := 124, size := 4, res := 0, reg := 0, bytes := [1, 2, 3, 4], tags := List.replicate 4 false, acq := false
    rel := false, scope := .g, seq := 0, op := none, accepted := false, queued := false, sent := false, noFill := false
    replays := 0, also := 0 }
def withReq (s : State) (r : Req) : State := { s with eng := { s.eng with reqs := [r] } }
def leased (s : State) : State := { s with mem := { s.mem with leases := [(⟨0, 0, 0⟩, 500)] } }
/-- The core holds the line under another tag. -/
def copied : State := { sg with mem := { sg.mem with l1 := [⟨0, 1, 5, ⟨0, 0, 0⟩, List.replicate 128 7, 0, 500⟩] } }
def holding (s : State) : State := { s with mem := { s.mem with held := [(⟨0, 0, 0⟩, { req0.write with req := none })] } }
def missing : State := { sg with mem := { sg.mem with depot := [] } }

theorem witness_LinesComeInAndTakeWrites :
    (∀ i ∈ [Instr.prefetchDep { mz with ofs := 124 }, .prefetchL1 { mz with ofs := 124 }],
        GoesAhead i gz sg grp ∧ GoesAhead i gz missing grp)
    ∧ (∀ L < 32, (mBaseVal grp mz true L).tag = false ∧ globalAddr grp { mz with ofs := 124 } L / 128 * 128 = 0)
    ∧ canonical 0 = true ∧ sg.translate 0 0 0 .read = .hit 0 false 0
    ∧ sg.placeOf 0 false true = .at (.line ⟨0, 0, 0⟩ 0) (some .P) ∧ sg.quota 0 ≠ 0
    ∧ missing.line? ⟨0, 0, 0⟩ = none ∧ missing.busyRow (missing.lineRows ⟨0, 0, 0⟩) = none
    ∧ sg.line? ⟨0, 0, 0⟩ = some line0 ∧ sg.heldOn ⟨0, 0, 0⟩ = [] ∧ line0.marked = false
    ∧ canStoreAtHome 7 (withReq sg req0) = some req0 ∧ (withReq sg req0).lineFree ⟨0, 0, 0⟩ = true
    ∧ canStoreAtHome 7 (leased (withReq sg req0)) = some req0 ∧ (leased (withReq sg req0)).lineFree ⟨0, 0, 0⟩ = false
    ∧ (∃ w, (holding sg).heldOn ⟨0, 0, 0⟩ = [w] ∧ w.place = .line ⟨0, 0, 0⟩ 124 ∧ w.bytes = [1, 2, 3, 4] ∧ w.req = none
        ∧ w.maint = none ∧ w.peer = none ∧ w.after = none ∧ w.res ≠ deviceRes)
    ∧ sg.l1Copy 0 ⟨0, 0, 0⟩ = none ∧ (copied.l1Copy 0 ⟨0, 0, 0⟩).isSome = true ∧ copied.line? ⟨0, 0, 0⟩ = some line0
    ∧ GoesAhead (.prefetchL1 { mz with ofs := 124 }) gz copied grp ∧ copied.translate 0 0 0 .read = .hit 0 false 0
    ∧ copied.placeOf 0 false true = .at (.line ⟨0, 0, 0⟩ 0) (some .P)
    ∧ (∀ s ∈ [withReq sg req0, leased (withReq sg req0), holding sg], Writable s ⟨0, 0, 0⟩ 124 [1, 2, 3, 4])
    ∧ (holding sg).lineFree ⟨0, 0, 0⟩ = true ∧ (∀ y ∈ sg.mem.l1, ¬ (y.core = 0 ∧ y.line = ⟨0, 0, 0⟩ ∧ sg.ltick < y.expiry)) := by
  and_intros
  all_goals first
    | decide +kernel
    | exact ⟨{ req0.write with req := none }, by decide +kernel⟩

theorem witness_ReturnsBringTheHomesBytes :
    let r : Req := { req0 with kind := .load false 4 }
    let a : Req := { req0 with kind := .atom .add 1 }
    (withReq sg r).req? 7 = some r ∧ sg.line? ⟨0, 0, 0⟩ = some line0 ∧ (withReq sg r).group? 1 = some grp ∧ grp.Canonical
    ∧ grp.ended = false ∧ grp.frame = none ∧ canLoadReturn 7 (withReq sg r) = some r
    ∧ canHomeAtomic 7 (withReq sg a) = some a ∧ (withReq sg a).lineFree ⟨0, 0, 0⟩ = true
    ∧ regHeld grp (.v 0) = true ∧ grp.regGen 0 = r.gen ∧ grp.regGen 0 ≠ { r with gen := 9 }.gen
    ∧ (withReq sg r).mem.l1.all (fun y => !(y.core = r.core && y.line = ⟨0, 0, 0⟩)) = true
    ∧ Writable (withReq sg a) ⟨0, 0, 0⟩ 124 a.bytes ∧ (withReq sg r).heldOn ⟨0, 0, 0⟩ = [] := by
  and_intros <;> decide +kernel

/-! Witnesses: stacks and synchronisation. -/

/-- Line ⟨0, 0, 0⟩ wanted, and no depot line. -/
def wanting : State := { missing with mem := { missing.mem with wants := [⟨⟨0, 0, 0⟩, 0, none, none, false⟩] } }
def reqRaw : Req := { req0 with place := .raw 0 0 60, va := 60 }
def heldBack : HoldEntry := ⟨⟨0, 0, 0, 0, 0⟩, .writeback ⟨0, 0, 0⟩ (List.replicate 128 7) 0 none none⟩
def releasing : State := { missing with mem := { missing.mem with holdQ := [heldBack] } }
/-- The line that the group's words stand in. -/
def codeLine : State := { sg with mem := { sg.mem with depot := [{ line0 with line := ⟨0, 0, 8⟩ }] } }

theorem witness_StacksServeFillsAndPortRequests :
    Memory.wf wanting.mem.raw = true ∧ (wanting.extent 0 0).cls ≠ .pool ∧ 0 < (wanting.extent 0 0).cls.size
    ∧ (∀ r ∈ wanting.lineRows ⟨0, 0, 0⟩, wanting.strong? r = none)
    ∧ (∀ h < 2, (wanting.peekSector (lineSector wanting ⟨0, 0, 0⟩ h).1 (lineSector wanting ⟨0, 0, 0⟩ h).2).2
        ∈ [Verdict.clean, .poison])
    ∧ wanting.wantOf ⟨0, 0, 0⟩ = some ⟨⟨0, 0, 0⟩, 0, none, none, false⟩
    ∧ wanting.rowsPass (wanting.lineRows ⟨0, 0, 0⟩) (.fill ⟨0, 0, 0⟩) = true ∧ wanting.victim ⟨0, 0, 0⟩ 0 = .free
    ∧ canStackPortRequest 7 (withReq missing reqRaw) = some (reqRaw, 0, 0, 60)
    ∧ canStackPortRequest 7 (withReq missing { reqRaw with kind := .load true 4 }) = some ({ reqRaw with kind := .load true 4 }, 0, 0, 60)
    ∧ missing.mem.hostLines = [] ∧ (withReq missing reqRaw).rowsPass (missing.lineRows ⟨0, 0, 0⟩) (.req 7) = true ∧ Writable (withReq missing reqRaw) ⟨0, 0, 0⟩ 60 reqRaw.bytes
    ∧ releasing.rowsPass (releasing.lineRows ⟨0, 0, 0⟩) heldBack.work = true ∧ releasing.rel.upsets = []
    ∧ ⟨0, 0, 0, 0, 0⟩ ∈ releasing.lineRows ⟨0, 0, 0⟩ ∧ releasing.rowState ⟨0, 0, 0, 0, 0⟩ = .controller
    ∧ (releasing.rowQueue ⟨0, 0, 0, 0, 0⟩).head? = some heldBack.work
    ∧ codeLine.fetcher 0 0 8 = some grp ∧ codeLine.icFind 0 0 1024 = none
    ∧ codeLine.translate 0 0 1024 .fetch = .hit 1024 false 0
    ∧ codeLine.placeOf 1024 false true = .at (.line ⟨0, 0, 8⟩ 0) (some .P) ∧ (codeLine.line? ⟨0, 0, 8⟩).isSome = true := by
  and_intros <;> decide +kernel

/-- Lane 0 alone at a gate at the allocation's end, which counts 3 in v1. -/
def mgt : MForm := { mz with d := 1, ac := 4, ofs := 9200 }
def gateG : Group := withV [(32, ⟨3, false⟩)]
def gateS (expect : Nat) : State := { at_ 1 gateG with cores := gateInitAt State.reset.cores 9200 expect }
/-- A group of the team that waits for the gate's phase to leave 0, beside lane 0 at the arrival that flips it. -/
def waiter : Group :=
  { grp with gid := 5, groupId := 4, slot := 1
             lanes := grp.lanes.mapIdx fun L ln => if L = 3 then { ln with wait := .gate 9200 false none } else ln }
def flipping : State := { gateS 3 with groups := [gateG, waiter] }

theorem witness_GateInitExpectArrive :
    (gateS 5).team? gateG.team = some team ∧ (gateS 5).cores.Canonical ∧ SpReaches (gateS 5) gateG gz mgt 16
    ∧ (rdV gateG 1 0).tag = false ∧ activeOf gateG (gateS 5).cur gz = 1#32 <<< 0 ∧ (gateG.lane 0).wait = .none
    ∧ (∀ i ∈ [Instr.gateInit mgt, .gateExpect mgt, .gateArrive mgt],
        ∀ s ∈ [gateS 2, gateS 3, gateS 5, gateS 0xFFFFFFFF, at_ 1 gateG], GoesAhead i gz s gateG)
    ∧ gateLive (gateS 5).cores 9200 = true ∧ (gateRead (gateS 5).cores 9200).expect + 3 < 2 ^ 32
    ∧ 2 ^ 32 ≤ (gateRead (gateS 0xFFFFFFFF).cores 9200).expect + 3
    ∧ (gateS 5).performed 1 0 gateG.seq .t = true
    ∧ (gateRead (gateS 3).cores 9200).arrived + 3 = (gateRead (gateS 3).cores 9200).expect
    ∧ (gateRead (gateS 2).cores 9200).expect < (gateRead (gateS 2).cores 9200).arrived + 3
    ∧ FirstLane (at_ 1 gateG) gateG gz (fun L => gateLive (at_ 1 gateG).cores (team.sp (offN gateG mgt L)) = false) 0
    ∧ GoesAhead (.gateArrive mgt) gz flipping gateG ∧ flipping.group? 5 = some waiter ∧ waiter.team = team.id ∧ waiter.Canonical
    ∧ flipping.serialOf waiter.grid = none ∧ (waiter.lane 3).exited = false
    ∧ (waiter.lane 3).wait = .gate (offN gateG mgt 0) (gateRead flipping.cores 9200).phase none
    ∧ (gateRead flipping.cores 9200).arrived + 3 = (gateRead flipping.cores 9200).expect := by
  and_intros <;> decide +kernel

def waiting : Group :=
  withLanes fun L ln => if L = 0 then { ln with wait := .gate 9200 false (some (0, 3)) } else ln

theorem witness_GatePeekAndWaits :
    (∀ i ∈ [Instr.gatePeek { mgt with d := 2 }, .gateWait { mgt with d := 2 }, .gateWaitLim { mgt with d := 2 }],
        GoesAhead i gz (gateS 5) gateG)
    ∧ SpReaches (gateS 5) gateG gz { mgt with d := 2 } 16 ∧ activeOf gateG (gateS 5).cur gz ≠ 0
    ∧ (∀ L < 32, active (gateS 5) gateG gz L → gateLive (gateS 5).cores (spPhys (gateS 5) gateG (offN gateG mgt L)) = true)
    ∧ (rdV gateG 2 0).tag = false ∧ (rdV gateG 3 0).tag = false
    ∧ (at_ 1 waiting).group? 1 = some waiting ∧ waiting.Canonical ∧ waiting.outrider = none
    ∧ (at_ 1 waiting).team? waiting.team = some team ∧ (at_ 1 waiting).serialOf waiting.grid = none := by
  and_intros <;> decide +kernel

/-- A second group of the team, on the same side. -/
def grp2 : Group := { grp with gid := 5, groupId := 4, slot := 1, h := 0 }
def two : State := { s0 with groups := [grp, grp2] }

theorem witness_BarrierCompletesWithTheLastGroup :
    GoesTogether (.barrier rz) gz s0 grp ∧ GoesTogether (.barrier rz) gz two grp ∧ s0.team? 2 = some team
    ∧ team.head grp.side = none ∧ grp.ended = false ∧ (∀ L < 32, s0.performed 1 L grp.seq .t = true)
    ∧ (∃ x ∈ (two.live 2).filter fun x => x.gid ≠ grp.gid, x.atBarrier = false) ∧ team.barrier ≤ grp.barriers
    ∧ (∀ x ∈ s0.groups, x.gid = grp.gid → x = grp) := by
  and_intros <;> decide +kernel

def oneUnit : RForm := { ri with c := 1 }
/-- The group's request for its register block, at the head of the queue. -/
def asking : State :=
  { at_ all32 { grp with h := 0 } with teams := [{ team with acqQ := [⟨1, 0, .blk, 1⟩] }] }

/-- A group whose lanes wait for two register blocks, at the head of the queue, beside the group that asks for one. -/
def waits2 : Group :=
  { grp with gid := 5, groupId := 4, slot := 1, h := 0, lanes := grp.lanes.map fun ln => { ln with wait := .acq } }
def pooled : Team := { team with groups := [1, 5], acqQ := [⟨5, 0, .blk, 2⟩] }
def crowded : State := { s0 with groups := [grp, waits2], teams := [pooled] }

theorem witness_AcquisitionGivesClearedUnits :
    two.team? 2 = some team ∧ GoesTogether (.acqBlk oneUnit) gz two grp
    ∧ (grp.holds .blk + 1 ≤ AcqKind.limit .blk ∧ 1 ≤ two.share team 0 .blk)
    ∧ (∃ x ∈ two.live 2, x.side = grp.side ∧ x.gid ≠ grp.gid ∧ x.inAcq = false ∧ x.atBarrier = false)
    ∧ GoesTogether (.acqBlk { ri with c := 6 }) gz s0 grp ∧ ¬ (6 ≤ s0.share team 0 .blk) ∧ grp.trap = none
    ∧ 0 < asking.nextId ∧ asking.serialOf team.grid = none ∧ asking.group? 1 = some { grp with h := 0 } ∧ canAcqGrant 2 0 asking = some ⟨1, 0, .blk, 1⟩
    ∧ GoesTogether (.acqBlk oneUnit) gz s0 grp ∧ (grp.holds .blk + 1 ≤ AcqKind.limit .blk ∧ 1 ≤ s0.share team 0 .blk)
    ∧ s0.cur.rep = none ∧ (∀ x ∈ s0.groups, x.gid = 1 → x = grp) ∧ (∀ x ∈ s0.live 2, x.gid = 1)
    ∧ team.acqQ = [] ∧ s0.freeUnits team 0 .blk < 1
    ∧ crowded.team? 2 = some pooled ∧ GoesTogether (.acqBlk oneUnit) gz crowded grp
    ∧ (grp.holds .blk + 1 ≤ AcqKind.limit .blk ∧ 1 ≤ crowded.share pooled 0 .blk)
    ∧ crowded.cur.rep = none ∧ (∀ x ∈ crowded.groups, x.gid = 1 → x = grp) ∧ (∀ x ∈ crowded.live 2, x.gid = 1 ∨ x.inAcq = true)
    ∧ crowded.freeUnits pooled 0 .blk < 2 ∧ crowded.group? 5 = some waits2 ∧ waits2.trap = none
    ∧ GoesTogether (.relBlk oneUnit) gz s0 grp ∧ 1 ≤ grp.holds .blk
    ∧ GoesTogether (.relBlk { ri with c := 2 }) gz s0 grp ∧ grp.holds .blk < 2
    ∧ GoesAhead (.relBlk oneUnit) gz (at_ 1 grp) grp ∧ (at_ 1 grp).cur.lanes ≠ 0xFFFFFFFF#32 := by
  and_intros <;> decide +kernel

/-- The machine at an event of a lane. -/
def atLane (L : Nat) (g : Group) : State := { at_ 0 g with cur := { Cur.none with gid := 1, lane := L, team := 2, grid := 3 } }
def fenced : Group := withLanes fun L ln => if L = 4 then { ln with wait := .fence true true true .d } else ln

theorem witness_FencesHoldUntilPerformed :
    (∀ i ∈ [Instr.fenceAcq { ri with c := 2 }, .fenceRel { ri with c := 2 }, .fenceAr { ri with c := 2 }, .fenceSc { ri with c := 2 }],
        GoesAhead i gz s0 grp) ∧ activeOf grp s0.cur gz ≠ 0
    ∧ (atLane 4 fenced).group? 1 = some fenced ∧ fenced.lanes.length = 32 ∧ (fenced.lane 4).wait = .fence true true true .d
    ∧ (atLane 4 fenced).eng.reqs = [] ∧ (atLane 4 fenced).performed 1 4 fenced.seq .d = true
    ∧ (withReq (atLane 4 fenced) { req0 with kind := .load false 4 }).group? 1 = some fenced
    ∧ (fenced.lane 4).exited = false ∧ (atLane 4 fenced).cur.lane < 32 ∧ bitOf (fenceLanes fenced 4) 4 = true
    ∧ req0.gid = fenced.gid ∧ req0.of 4 = true ∧ (atLane 4 fenced).serialOfGroup 1 = none := by
  and_intros <;> decide +kernel

/-- The line with a lock that another lane of the group holds, or the requesting lane itself. -/
def lockReq (k : ReqKind) : Req := { req0 with kind := k }
def locked (k : ReqKind) (rs : List LockRec) : State :=
  let s := withReq sg (lockReq k)
  { s with mem := { s.mem with locks := rs } }
def other : Locker := ⟨0, 0, 3, 1, 9⟩
def self_ : Locker := ⟨0, 0, 3, 1, 4⟩
def rec_ (h : Locker) (q : List Locker) : LockRec := ⟨⟨0, 0, 0⟩, 124, h, q⟩
def answered (a : LockAns) (g : Group) : State :=
  let s := onPage (atLane 4 g)
  { s with mem := { s.mem with lockAns := [⟨1, 4, a, 124⟩] } }
def lane4 (w : Wait) : Group := withLanes fun L ln => if L = 4 then { ln with wait := w } else ln
def withdrawing : Group := { lane4 .lock with halt := .halting .preempt }
def withdrawS : State :=
  let s := onPage (atLane 4 withdrawing)
  { s with mem := { s.mem with locks := [rec_ other [self_]] } }

theorem witness_LocksPassInArrivalOrder :
    sg.line? ⟨0, 0, 0⟩ = some line0 ∧ sg.lineFree ⟨0, 0, 0⟩ = true ∧ sg.heldOn ⟨0, 0, 0⟩ = [] ∧ sg.mem.lockWait = []
    ∧ canLockReq 7 (locked .lock []) false = some (lockReq .lock, ⟨0, 0, 0⟩, 124) ∧ (locked .lock []).locker (lockReq .lock) = self_
    ∧ (locked .lock []).lockRec ⟨0, 0, 0⟩ 124 = none ∧ ((locked .lock []).lockUse (homeSlice ⟨0, 0, 0⟩)).1 < 1024
    ∧ (locked .lock [rec_ other []]).lockRec ⟨0, 0, 0⟩ 124 = some (rec_ other []) ∧ other ≠ self_
    ∧ (locked .lock [rec_ self_ []]).lockRec ⟨0, 0, 0⟩ 124 = some (rec_ self_ [])
    ∧ canLockReq 7 (locked .unlock [rec_ self_ [other]]) true = some (lockReq .unlock, ⟨0, 0, 0⟩, 124)
    ∧ (locked .unlock [rec_ self_ [other]]).lockRec ⟨0, 0, 0⟩ 124 = some (rec_ self_ [other]) ∧ other.pkg = sg.fab.self % 1024
    ∧ (∀ a ∈ [LockAns.granted, .acked, .owner, .notOwner], ∀ g ∈ [lane4 .lock, lane4 .unlock],
        (answered a g).group? 1 = some g ∧ (answered a g).lockAnswer 1 4 = some ⟨1, 4, a, 124⟩
        ∧ (answered a g).serialOfGroup 1 = none)
    ∧ (∀ L < 32, L = 4 ∨ ((lane4 .lock).lane L).wait = .none) ∧ (answered .owner (lane4 .lock)).eng.reqs = []
    ∧ (∀ b ∈ (answered .acked (lane4 .unlock)).mem.lockAns, b.gid = 1 → b.ans ≠ .owner ∧ b.ans ≠ .notOwner)
    ∧ (withReq (answered .acked (lane4 .unlock)) (lockReq .unlock)).lockAnswer 1 4 = some ⟨1, 4, .acked, 124⟩
    ∧ (lockReq .unlock).pc = ((lane4 .unlock).lane 4).pc ∧ (lockReq .unlock).kind.isUnlock = true
    ∧ (∀ s ∈ [locked .lock [], locked .lock [rec_ other []], locked .lock [rec_ self_ []], locked .unlock [rec_ self_ [other]],
        locked .unlock [rec_ self_ []], locked .unlock [rec_ other []], answered .granted (lane4 .lock), withdrawS],
        Writable s ⟨0, 0, 0⟩ 124 (leBytes 4 0))
    ∧ withdrawS.group? 1 = some withdrawing ∧ (withdrawing.lane 4).wait = .lock ∧ withdrawS.lockAnswer 1 4 = none
    ∧ withdrawS.mem.locks = [rec_ other [self_]] ∧ (⟨5, 0, 0, 0, 0⟩ : Locker).pkg ≠ sg.fab.self % 1024 := by
  and_intros <;> decide +kernel

/-! Witnesses: tiles and the matrix slice. -/

/-- Tile forms at the allocation's end: 32 rows and a scale vector, a mask block, a whole tile. -/
def mtl : MForm := { mz with ubase := true, ac := 5, ofs := 7040 }
def mtr : MForm := { mz with ac := 1 }
def mmk : MForm := { mz with ubase := true, ofs := 8960 }
def mdr : MForm := { mz with ubase := true, ac := 4, sp := true, ofs := 5120 }
def tiled (f : Nat) : Group := { grp with t := [(0, { emptyTile with fmt := f }), (1, { emptyTile with fmt := f })] }
def badMask : State := { s0 with cores := { s0.cores with spad := [(9088, 3)] } }
def rowAt (x : Nat) (t : Bool) : Group := withV [(5, ⟨BitVec.ofNat 32 x, t⟩)]

theorem witness_TilesMoveThroughTheScratchpad :
    s0.cores.Canonical ∧ GoesTogether (.tld mtl) gz s0 grp ∧ RowsReach s0 grp mtl true ∧ mtl.ac = 5
    ∧ GoesTogether (.tst { mtl with ac := 0 }) gz (at_ all32 (tiled 5)) (tiled 5)
    ∧ RowsReach (at_ all32 (tiled 5)) (tiled 5) { mtl with ac := 0 } true
    ∧ (∀ i < 32, meetsGate s0.cores (spPhys s0 grp (tileRowOff grp mtl i).toNat) 64 = false) ∧ meetsGate s0.cores 9088 128 = false
    ∧ GoesTogether (.tst mz) gz (at_ all32 (tiled 5)) (tiled 5) ∧ RowsReach (at_ all32 (tiled 5)) (tiled 5) mz false
    ∧ (∀ g ∈ [rowAt 0 true, rowAt 2 false, rowAt 9216 false], GoesTogether (.tld mtr) gz (at_ all32 g) g)
    ∧ FirstOf (fun i => (mBaseVal (rowAt 0 true) mtr false i).tag = true) 5
    ∧ FirstOf (fun i => tileRowOff (rowAt 2 false) mtr i % 64 ≠ 0) 5
    ∧ FirstOf (fun i => tileRowOff (rowAt 9216 false) mtr i < 0 ∨ (9216 : Int) < tileRowOff (rowAt 9216 false) mtr i + 64) 5
    ∧ teamSize s0 (rowAt 9216 false) = 9216
    ∧ GoesTogether (.tmask mmk) gz s0 grp ∧ GoesTogether (.tmask mmk) gz badMask grp
    ∧ (mBaseVal grp mmk false 0).tag = false ∧ spOffset grp mmk 0 = 8960
    ∧ ¬ (BitVec.ofNat 32 (leNat (spBytes badMask.cores 9088 4)) &&& 3 ≠ 3)
    ∧ (List.range 64).any (fun k => spPoison s0.cores (8960 + 4 * k)) = false := by
  and_intros <;> decide +kernel

def upset (n : Nat) : State := { at_ all32 (tiled 1) with cores := { State.reset.cores with sides := [(0, { Side.reset with upsets := n })] } }

/-- `mma a1, t0, t1` and `mmag.bf16 a1, v0, t1`. -/
def mma1 : RForm := { rz with d := 1, b := 1 }
def mmag1 : RForm := { mma1 with ty := .bf16 }

theorem witness_MatrixWordsAddExactProducts :
    (∀ s ∈ [at_ all32 (tiled 1), upset 1, upset 2], ∀ i ∈ [Instr.tzero { rz with d := 1 }, .mma mma1, .mmag mmag1],
        GoesTogether i gz s (tiled 1))
    ∧ pairing (rdT (tiled 1) 0).fmt (rdT (tiled 1) 1).fmt = true ∧ ((at_ all32 (tiled 1)).side 0).upsets = 0
    ∧ ((upset 1).side 0).upsets = 1 ∧ 2 ≤ ((upset 2).side 0).upsets ∧ (upset 2).cores.Canonical
    ∧ (∀ L < 32, (rdV (tiled 1) 0 L).val.toNat + 64 ≤ teamSize (at_ all32 (tiled 1)) (tiled 1))
    ∧ (let A : Tile := { emptyTile with fmt := 1 }
       A.fmt = tagOf mmag1.ty ∧ ∀ i < 32, (∀ k < 64, sget 0 A.bytes (64 * i + k) = spByte (at_ all32 (tiled 1)).cores
            (spPhys (at_ all32 (tiled 1)) (tiled 1) (rdV (tiled 1) 0 i).val.toNat + k))
          ∧ bitOf A.rowTags i = (List.range 16).any fun k => spPoison (at_ all32 (tiled 1)).cores
            (spPhys (at_ all32 (tiled 1)) (tiled 1) (rdV (tiled 1) 0 i).val.toNat + 4 * k))
    ∧ GoesTogether (.mma mma1) gz s0 grp
    ∧ pairing (rdT grp 0).fmt (rdT grp 1).fmt = false ∧ grp.trap = none
    ∧ (∀ L < 32, (rdV (tiled 1) 0 L).tag = false ∧ (rdV (tiled 1) 0 L).val.toNat % 64 = 0)
    ∧ (∀ g ∈ [rowAt 0 true, rowAt 2 false, rowAt 9216 false], GoesTogether (.mmag mmag1) gz (at_ all32 g) g)
    ∧ FirstOf (fun L => (rdV (rowAt 0 true) 0 L).tag = true) 5
    ∧ FirstOf (fun L => (rdV (rowAt 2 false) 0 L).val.toNat % 64 ≠ 0) 5
    ∧ FirstOf (fun L => 9216 < (rdV (rowAt 9216 false) 0 L).val.toNat + 64) 5 := by
  and_intros <;> decide +kernel

theorem witness_DrainsWriteTheMaskedTile :
    s0.Canonical ∧ sg.Canonical ∧ (∀ i ∈ [Instr.tdrain mdr, .tdrainAdd mdr], GoesTogether i gz s0 grp)
    ∧ (mBaseVal grp mdr false 0).tag = false ∧ spOffset grp mdr 0 = 5120 ∧ spOffset grp mdr 0 + 4096 ≤ teamSize s0 grp
    ∧ meetsGate s0.cores 5120 4096 = false ∧ s0.countOf 1 .M < 255
    ∧ (∀ i ∈ [Instr.tdrain { mdr with sp := false, ofs := 0 }, .tdrainAdd { mdr with sp := false, ofs := 0 },
        .tdrainAddSplit { mdr with sp := false, ofs := 0 }], GoesTogether i gz sg grp)
    ∧ (∃ as, sg.resolveAll grp .write false (fun p => wrapNat ((0 : Int) + 4 * 16 * p) 64) (List.range 64) = .ok as
        ∧ as.all (fun a => a.cls = some .P && (match a.place with | .line .. => true | _ => false)) = true)
    ∧ (∃ as, sg.resolveAll grp .write false (fun p => wrapNat ((0 : Int) + 4 * 1024 * p) 64) (List.range 1) = .ok as
        ∧ as.all (fun a => a.cls = some .P && (match a.place with | .line .. => true | _ => false)) = true)
    ∧ GoesTogether (.tcvt { ri with ty := .bf16 }) gz s0 grp ∧ GoesTogether (.tcvt { ri with ty := .mx4, c := 3 }) gz s0 grp := by
  and_intros
  all_goals first
    | decide +kernel
    | exact ⟨(List.range 64).map fun p => ⟨p, 64 * p, .line ⟨0, 0, p / 2⟩ (64 * p % 128), some .P, false, 0⟩, by decide +kernel⟩
    | exact ⟨[⟨0, 0, .line ⟨0, 0, 0⟩ 0, some .P, false, 0⟩], by decide +kernel⟩

/-! Witnesses: engines. -/

/-- Uniform registers s4 = 4 and s5 = 32; a descriptor of rank 2 in slot 0; a waybill image at offset 0. -/
def engG : Group := withS [(4, ⟨4, false⟩), (5, ⟨32, false⟩)]
def desc0 : Desc :=
  { Desc.invalid with rank := 2, read := true, write := true, dims := [8, 2], strides := [8], box := [8, 2], padLo := [0, 0], padHi := [0, 0] }
def engS : State :=
  let s := onPage (at_ all32 engG)
  { s with teams := [{ team with descs := [(0, desc0)] }], cores := { s.cores with spad := [(0, 1), (1, 1), (3, 64), (0x44, 8)] } }
def ef : EForm := { ez with emod := 1 }
def rst0 : EForm := { ez with e4 := 4 }
def redx0 : EForm := { ez with e3 := 4, emod := 0x20 }
def imx0 : EForm := { ez with e3 := 4, e4 := 4 }

/-- No register of a list without poison reads as poisoned. -/
theorem sget_untagged (m : SMap TW) (h : ∀ x ∈ m, x.2.tag = false) (n : Nat) : (sget ⟨0, false⟩ m n).tag = false := by
  induction m with
  | nil => rfl
  | cons x m ih =>
    obtain ⟨k, v⟩ := x
    simp only [sget]
    split
    · exact h (k, v) (by simp)
    · exact ih fun y hy => h y (List.mem_cons_of_mem _ hy)

/-- An engine word of a group without poison, and of a state without operations, is in order where its values, ranges
and gate are. -/
theorem engineOk_of {i : Instr} {s : State} {g : Group} (h0 : s.eng.ops = []) (h1 : ∀ x ∈ g.s, x.2.tag = false)
    (h2 : (∀ x ∈ engineParams i s g, x.2 = false)
      ∧ (∀ x ∈ engineRanges i s g, x.1 % x.2.2 = 0 ∧ x.1 + x.2.1 ≤ teamSize s g)
      ∧ ∀ off ∈ engineGate i g, off % 16 = 0 ∧ off + 16 ≤ teamSize s g ∧ gateLive s.cores (spPhys s g off) = true) :
    EngineOk i s g :=
  ⟨fun c _ => by simp [State.countOf, h0], fun n _ => sget_untagged _ h1 n, h2⟩

/-- An RST whose flag lies in a peer's window, and one that reads past the allocation. -/
def splitG2 : Group := withS [(4, ⟨4, false⟩), (6, ⟨4096, false⟩)]
def splitS : State :=
  let s := pages [page1 (2 ^ 51 + 3 * 2 ^ 41)] splitG2
  { s with fab := { s.fab with valid := true, porten := 1, reach := [(3, true)], route := [(3, 1)], ports := [⟨64, false, 0⟩] } }
def rstFar : EForm := { rst0 with e3 := 6 }
def longG : Group := withS [(4, ⟨4, false⟩), (6, ⟨9216, false⟩)]
def longS : State := onPage (at_ all32 longG)
def rstLong : EForm := { rst0 with e1 := 6 }

/-- The engine words of the witness. -/
def engWords : List Instr :=
  [.tdesc ez, .tdescAlias ez, .cpyIn ef, .cpyOut ef, .mrs ez, .rst rst0, .redx redx0, .wbl ef, .wblAcq ef, .imxLoad imx0,
    .imxVec { imx0 with e4 := 5 }, .imxRun imx0, .imxBcast imx0, .imxCollect { ef with e3 := 4 }, .imxStat { ez with e3 := 4 }]

theorem engWords_ok : ∀ i ∈ engWords, EngineOk i engS engG := by
  have h : ∀ i ∈ engWords, (∀ x ∈ engineParams i engS engG, x.2 = false)
      ∧ (∀ x ∈ engineRanges i engS engG, x.1 % x.2.2 = 0 ∧ x.1 + x.2.1 ≤ teamSize engS engG)
      ∧ ∀ off ∈ engineGate i engG, off % 16 = 0 ∧ off + 16 ≤ teamSize engS engG ∧ gateLive engS.cores (spPhys engS engG off) = true := by
    decide +kernel
  exact fun i hi => engineOk_of rfl (by decide) (h i hi)

/-- A group looks at pages that translate to places whose slots do not change. -/
theorem looked_of {s : State} {g : Group} {k : AccKind} {pages : List Nat}
    (h : (pages.all fun a => !canonical a || match s.translate g.core g.pasid a k with
      | .hit pa nc _ => decide (s.placeOf pa nc (g.ctx = 0) ≠ .changing)
      | _ => false) = true) : LookedAt s g k pages := by
  intro a ha hc
  have := List.all_eq_true.1 h a ha
  rw [hc] at this
  cases ht : s.translate g.core g.pasid a k with
  | hit pa nc res => rw [ht] at this; exact .inl ⟨pa, nc, res, rfl, by simpa using this⟩
  | miss => rw [ht] at this; exact Bool.noConfusion this
  | fault r => rw [ht] at this; exact Bool.noConfusion this

theorem witness_EngineWordsIssueTheirOperations :
    engS.Canonical ∧ (∀ i ∈ engWords, GoesAhead i gz engS engG) ∧ activeOf engG engS.cur gz ≠ 0
    ∧ engS.team? 2 = some { team with descs := [(0, desc0)] } ∧ rstPages engG rst0 = [0, 0]
    ∧ LookedAt engS engG .write [0, 0] ∧ RstAdmits engS engG [0, 0] ∧ engS.undeny (.look 1 0x400) = engS
    ∧ (GoesAhead (.rst rstFar) gz splitS splitG2 ∧ EngineOk (.rst rstFar) splitS splitG2 ∧ rstPages splitG2 rstFar = [4096, 0]
        ∧ LookedAt splitS splitG2 .write [4096, 0] ∧ splitS.undeny (.look 1 0x400) = splitS ∧ splitG2.trap = none
        ∧ splitS.rstPlace 0 0 0 0 = .local_ ∧ splitS.rstPlace 0 0 0 4096 = .peer 3)
    ∧ waybillBad (spBytes engS.cores 0 192) = false ∧ waybillBad (spBytes s0.cores 0 192) = true
    ∧ GoesAhead (.wbl ef) gz s0 grp := by
  and_intros
  all_goals first
    | exact looked_of (by decide +kernel)
    | exact fun n _ => sget_untagged _ (by decide) n
    | exact .inl (by decide +kernel)
    | decide +kernel

/-- The words that turn back: a full class, a poisoned operand, an empty slot, an image out of its range and one out of
its alignment, and a gate that is not live. -/
def fullS : State := withOps engS (List.replicate 255 { op0 with cls := .K })
def taggedG : Group := withS [(0, ⟨0, true⟩)]
def farG (x : Nat) : Group := withS [(6, ⟨BitVec.ofNat 32 x, false⟩)]

theorem witness_EngineWordsCheckTheirOperands :
    engineForm (.cpyIn ez) = some (some .K, ez) ∧ GoesAhead (.cpyIn ef) gz fullS engG ∧ 255 ≤ fullS.countOf 1 .K
    ∧ GoesAhead (.cpyIn ez) gz (at_ all32 taggedG) taggedG ∧ RegName.s 0 ∈ (Instr.cpyIn ez).reads ∧ (rdS taggedG 0).tag = true
    ∧ (∀ c, (at_ all32 taggedG).countOf 1 c < 255)
    ∧ GoesAhead (.cpyIn ez) gz s0 grp ∧ ((engineParams (.cpyIn ez) s0 grp).find? (·.2)).map (·.1) = some 1
    ∧ (∀ x ∈ [9216, 64], GoesAhead (.tdesc { ez with e3 := 6 }) gz (at_ all32 (farG x)) (farG x)
        ∧ engineRanges (.tdesc { ez with e3 := 6 }) (at_ all32 (farG x)) (farG x) = [(x, 128, 128)]
        ∧ engineGate (.tdesc { ez with e3 := 6 }) (farG x) = none)
    ∧ (64 % 128 ≠ 0 ∧ 9216 % 128 = 0 ∧ teamSize (at_ all32 (farG 9216)) (farG 9216) < 9216 + 128)
    ∧ (∀ x ∈ engineRanges (.cpyIn ez) engS engG ++ [(0, 16, 16)], x.1 % x.2.2 = 0 ∧ x.1 + x.2.1 ≤ teamSize engS engG)
    ∧ GoesAhead (.cpyIn ez) gz engS engG ∧ (∀ x ∈ engineParams (.cpyIn ez) engS engG, x.2 = false)
    ∧ engineGate (.cpyIn ez) engG = some 0 ∧ gateLive engS.cores (spPhys engS engG 0) = false
    ∧ engineForm (.rst rstLong) = some (some .F, rstLong) ∧ GoesAhead (.rst rstLong) gz longS longG
    ∧ (∀ c, longS.countOf 1 c < 255) ∧ (∀ n, RegName.s n ∈ (Instr.rst rstLong).reads → (rdS longG n).tag = false)
    ∧ (∀ x ∈ engineParams (.rst rstLong) longS longG, x.2 = false) ∧ longS.undeny (.look 1 0x400) = longS
    ∧ rstPages longG rstLong = [0, 0] ∧ LookedAt longS longG .write [0, 0] ∧ RstAdmits longS longG [0, 0]
    ∧ teamSize longS longG < uniN longG rstLong.e1 + uniN longG rstLong.e4 := by
  and_intros
  all_goals first
    | exact looked_of (by decide +kernel)
    | exact fun n _ => sget_untagged _ (by decide) n
    | exact .inl (by decide +kernel)
    | decide +kernel
    | rfl
    | exact fun c => by cases c <;> decide +kernel

/-- An address that is not canonical in s0 and s1. -/
def statG : Group := withS [(1, ⟨0x01000000, false⟩), (4, ⟨4, false⟩)]

theorem witness_RangeAndDrayWordsIssue :
    sg.Canonical ∧ (∀ i ∈ [Instr.clean rz, .inval rz, .mswitchBank rz, .mswitchCtl rz], GoesAhead i gz sg grp)
    ∧ activeOf grp sg.cur gz ≠ 0 ∧ (∀ c, sg.countOf 1 c < 255)
    ∧ (∀ L < 32, (srcA false grp rz 2 L).tag = false ∧ (srcB false grp rz 1 L false).n = 0)
    ∧ (let g := withV [(5, ⟨0, true⟩)]; GoesAhead (.clean { rz with b := 2 }) gz (at_ all32 g) g
        ∧ FirstLane (at_ all32 g) g gz (fun L => (srcA false g rz 2 L).tag = true) 5)
    ∧ (let g := withV [(37, ⟨0x01000000, false⟩), (69, ⟨1, false⟩)]; GoesAhead (.clean { rz with b := 2 }) gz (at_ all32 g) g
        ∧ FirstLane (at_ all32 g) g gz (fun L => (srcB false g { rz with b := 2 } 1 L false).n ≠ 0
            ∧ canonical (srcA false g rz 2 L).n = false) 5)
    ∧ (∀ i ∈ engWords, GoesAhead i gz engS engG) ∧ engS.Canonical
    ∧ (let rows := statRows engS engG ⟨0, 4⟩
       ((rows.1.map fun r => drayKey ⟨r.stack, r.pch, r.bg⟩).eraseDups).length < 2 ^ 16)
    ∧ (statUnits ⟨0, 4⟩).map (·.2) = [0] ∧ LookedAt engS engG .read [0] ∧ 0 % 4096 + 4 ≤ 4096
    ∧ engS.translate 0 0 0 .read = .hit 0 false 0 ∧ engS.placeOf 0 false true = .at (.line ⟨0, 0, 0⟩ 0) (some .P)
    ∧ (let o : EForm := { ez with e3 := 4 }
       GoesAhead (.imxStat o) gz (onPage (at_ all32 statG)) statG ∧ EngineOk (.imxStat o) (onPage (at_ all32 statG)) statG
       ∧ canonical (uniPair statG o.e2) = false
       ∧ LookedAt (onPage (at_ all32 statG)) statG .read ((statUnits ⟨uniPair statG o.e2, 4⟩).map (·.2))) := by
  and_intros
  all_goals first
    | exact looked_of (by decide +kernel)
    | exact fun n _ => sget_untagged _ (by decide) n
    | decide +kernel
    | rfl
    | exact fun c => by cases c <;> decide +kernel

/-! Witnesses: operations at work. -/

def row0 : RowId := ⟨0, 0, 0, 0, 0⟩
def opk (k : OpKind) : Op := { op0 with kind := k, left := 0, span := [⟨0, 128⟩] }
def opS (o : Op) : State := withOps sg [o]
def doneOp : Op := { opk .red with complete := true }
def linesOp (inval : Bool) : Op := opk (.lines inval)
def dirtyS : State := { opS (linesOp false) with mem := { sg.mem with depot := [{ line0 with dirty := true }] } }
def switchOp (toBank : Bool) : Op := { opk (.mswitch toBank false) with launched := true, rows := [row0] }
def runOp : Op := { opk (.imxRun 0 0) with rows := [row0], pos := 1, cls := .B }
def loadOp : Op := { opk (.imxLoad [0#32] 63) with launched := true, rows := [row0], drays := [0], cls := .B }
def banked (s : State) (x : RowState) : State := { s with mem := { s.mem with rows := [(row0, x)] } }
def queued (s : State) : State := { s with drays := { s.drays with queue := [(0, [7])] } }

theorem row0_drays (k : Nat) : k ∈ [0] ↔ ∃ r ∈ runOp.rows, drayOfRow r = k := by
  rw [List.mem_singleton]
  constructor
  · rintro rfl
    exact ⟨row0, List.mem_singleton_self _, by decide⟩
  · rintro ⟨r, hr, rfl⟩
    cases List.mem_singleton.1 hr
    decide

theorem witness_OperationsActOnRowsAndRetire :
    canOpComplete 7 (opS doneOp) = some doneOp ∧ (opS doneOp).group? 1 = some grp ∧ (opS doneOp).kernelGone 1 = false
    ∧ doneOp.moved = false
    ∧ (opS (linesOp true)).Canonical ∧ (opS (linesOp false)).Canonical
    ∧ (∀ b ∈ [true, false], (opS (linesOp b)).op? 7 = some (linesOp b)
        ∧ ((linesOp b).unit 128).isSome = true ∧ (opS (linesOp b)).storeOut (linesOp b) ⟨0, 0, 0⟩ = false
        ∧ (opS (linesOp b)).leased ⟨0, 0, 0⟩ = false ∧ (opS (linesOp b)).heldOn ⟨0, 0, 0⟩ = [] ∧ (opS (linesOp b)).rel.upsets = [])
    ∧ dirtyS.Canonical ∧ dirtyS.op? 7 = some (linesOp false) ∧ dirtyS.line? ⟨0, 0, 0⟩ = some { line0 with dirty := true }
    ∧ (dirtyS.extent 0 0).cls ≠ .pool ∧ 0 < (dirtyS.extent 0 0).cls.size ∧ (∀ r ∈ dirtyS.lineRows ⟨0, 0, 0⟩, dirtyS.strong? r = none)
    ∧ dirtyS.busyRow (dirtyS.lineRows ⟨0, 0, 0⟩) = none ∧ dirtyS.leased ⟨0, 0, 0⟩ = false ∧ dirtyS.heldOn ⟨0, 0, 0⟩ = []
    ∧ dirtyS.storeOut (linesOp false) ⟨0, 0, 0⟩ = false
    ∧ dirtyS.opPlace (linesOp false) 0 .read = .at (.line ⟨0, 0, 0⟩ 0) (some .P) 0
    ∧ (opS (linesOp true)).opPlace (linesOp true) 0 .write = .at (.line ⟨0, 0, 0⟩ 0) (some .P) 0
    ∧ (opS (linesOp false)).opPlace (linesOp false) 0 .read = .at (.line ⟨0, 0, 0⟩ 0) (some .P) 0
    ∧ (∀ b ∈ [true, false], (opS (switchOp b)).op? 7 = some (switchOp b) ∧ (opS (switchOp b)).switchWaits (switchOp b) = false
        ∧ ∀ r ∈ (switchOp b).rows, (opS (switchOp b)).rowFree r = true)
    ∧ (banked sg .returning).rowState row0 = .returning ∧ sg.drays.drays = []
    ∧ (banked (opS runOp) .bank).op? 7 = some runOp ∧ runOp.kind.isImx = true ∧ (banked (opS runOp) .bank).launchWaits runOp = false
    ∧ runOp.unit 4096 = none ∧ (∀ k, k ∈ [0] ↔ ∃ r ∈ runOp.rows, drayOfRow r = k)
    ∧ (banked (opS runOp) .bank).launchStatus runOp [0] = 0
    ∧ (queued (opS loadOp)).op? 7 = some loadOp ∧ (queued (opS loadOp)).canStart loadOp 0 = true
    ∧ (let o : Op := { runOp with drays := [0], launched := true }
       (queued (banked (opS o) .bank)).canStart o 0 = true ∧ (o.draysIn 0).Nodup
       ∧ (∀ r ∈ o.rows, (queued (banked (opS o) .bank)).rowState r = .bank ∧ r ∉ o.lost)
       ∧ ∀ k ∈ o.draysIn 0, ∃ r ∈ o.rows, drayOfRow r = k) := by
  and_intros
  all_goals first
    | decide +kernel
    | rfl
    | exact row0_drays

/-- A descriptor of one byte; the copy, the train, the remote store and the reduction of it. -/
def desc1 : Desc := { desc0 with box := [1, 1] }
def cpyOp : Op := opk (.cpy true desc1 0 [0, 0] none)
def mrsOp : Op := { opk (.mrs desc1 none 0 0 0) with launched := true }
/-- A copy's second byte and a train's second chunk, whose sources the last word read holds. -/
def cpyMid : Op := { opk (.cpy true { desc0 with box := [2, 1] } 0 [0, 0] none) with pos := 1, ahead := [(5, false)] }
def descRow : Desc := { desc0 with dims := [64, 1], strides := [64], box := [64, 1] }
def mrsMid : Op := { opk (.mrs descRow none 0 0 0) with launched := true, pos := 1, ahead := List.replicate 32 (0, false) }
def rstOp (pos : Nat) : Op := { opk (.rst 0 124 [1, 2, 3, 4] (List.replicate 4 false) 1) with pos := pos }
def redxOp (itag : Bool) : Op := { opk (.redx .add 1 0 [⟨31, 5, itag, false, false⟩]) with left := 1 }

theorem witness_EngineStepsMoveTheirData :
    (opS cpyMid).Canonical ∧ (opS mrsMid).Canonical
    ∧ (∀ o ∈ [cpyOp, mrsOp, rstOp 0, rstOp 4, redxOp true, redxOp false, cpyMid, mrsMid], NoReplay (opS o) o ∧ o.gid ≠ 0
        ∧ ∀ x ∈ [(0, 32), (0, 4), (124, 4)], (opS o).accessBefore o (.line ⟨0, 0, 0⟩ x.1) x.2 true = false)
    ∧ 0 ≠ deviceRes
    ∧ (let d : Desc := { desc0 with box := [2, 1] }
       (opS cpyMid).op? 7 = some cpyMid ∧ (opS cpyMid).team? cpyMid.team = some team
       ∧ min d.count ((((0 + 1 * d.elem) / 64 + 1) * 64 - 0) / d.elem) = 2 ∧ d.elem = 1
       ∧ cpyMid.ahead.map (·.1) = (List.range 1).flatMap fun _ => ([5] : List Byte))
    ∧ (opS mrsMid).op? 7 = some mrsMid ∧ (opS mrsMid).trainBase mrsMid 0 = .ok 0 0 0 28 ∧ (marshalRow descRow none).2 = 2
    ∧ (let p := marshalElems descRow none 0 0 (1 / 2) (1 % 2)
       p.2.2.2.1 = 32 ∧ p.1.elem = 1 ∧ mrsMid.pos + 1 = descRow.boxOf 1 * 2 ∧ mrsMid.got = []
       ∧ mrsMid.ahead.map (·.1) = (List.range 32).flatMap fun _ => ([0] : List Byte))
    ∧ (opS mrsMid).opPlace mrsMid (wrapNat (0 + (marshalByte 28 0 2 0 1 : Int) - 0) 64) .write = .at (.line ⟨0, 0, 0⟩ 32) (some .P) 0
    ∧ (opS mrsMid).accessBefore mrsMid (.line ⟨0, 0, 0⟩ 32) 32 true = false
    ∧ Writable (opS mrsMid) ⟨0, 0, 0⟩ 32 (List.replicate 32 0)
    ∧ (opS cpyOp).Canonical ∧ (opS mrsOp).Canonical ∧ (opS (rstOp 0)).Canonical ∧ (opS (redxOp true)).Canonical
    ∧ (∀ o ∈ [cpyOp, mrsOp, rstOp 0, rstOp 4, redxOp true, redxOp false], (opS o).op? 7 = some o ∧ o.complete = false)
    ∧ (opS cpyOp).team? cpyOp.team = some team
    ∧ min desc1.count ((((0 + 0 * desc1.elem) / 64 + 1) * 64 - 0) / desc1.elem) = 1
    ∧ desc1.count = 1 ∧ desc1.joined [0, 0] 0 1 = 1 ∧ ElementsAre (opS cpyOp) cpyOp desc1 [0, 0] 0 1 [0]
    ∧ spGate (opS cpyOp).cores (team.sp 0) = false
    ∧ (opS mrsOp).trainBase mrsOp 0 = .ok 0 0 0 28 ∧ (marshalRow desc1 none).2 = 1
    ∧ (let p := marshalElems desc1 none 0 0 0 0
       (p.2.2.2.1 + p.1.elem - 1) / p.1.elem = 1 ∧ p.1.elem = 1 ∧ p.1 = desc1 ∧ p.2.1 = 0 ∧ p.2.2.1 = 0)
    ∧ ElementIs (opS mrsOp) mrsOp desc1 (fun k => if k = 0 then 0 + ((0 : Nat) : Int) else if k = 1 then 0 else 0) [0]
    ∧ Writable (opS mrsOp) ⟨0, 0, 0⟩ 0 (List.replicate 32 0)
    ∧ Writable (opS (rstOp 0)) ⟨0, 0, 0⟩ 0 [1, 2, 3, 4] ∧ Writable (opS (rstOp 4)) ⟨0, 0, 0⟩ 124 (leBytes 4 0)
    ∧ Writable (opS (redxOp false)) ⟨0, 0, 0⟩ 124 (leBytes 4 0)
    ∧ (opS mrsOp).opPlace mrsOp 0 .write = .at (.line ⟨0, 0, 0⟩ 0) (some .P) 0 ∧ Open (opS mrsOp) ⟨0, 0, 0⟩ line0
    ∧ (opS (rstOp 0)).opPlace (rstOp 0) 0 .write = .at (.line ⟨0, 0, 0⟩ 0) (some .P) 0
    ∧ (opS (rstOp 4)).opPlace (rstOp 4) 124 .write = .at (.line ⟨0, 0, 0⟩ 124) (some .P) 0
    ∧ (opS (redxOp false)).redxBefore (redxOp false) [⟨31, 5, false, false, false⟩] 0 0 124 (.line ⟨0, 0, 0⟩ 124) = false
    ∧ (opS (redxOp false)).opPlace (redxOp false) 124 .write = .at (.line ⟨0, 0, 0⟩ 124) (some .P) 0 := by
  and_intros
  all_goals first
    | decide +kernel
    | rfl
    | exact .inr ⟨by decide +kernel, ⟨0, 0, 0⟩, 0, some .P, 0, line0, rfl, by decide +kernel, by decide +kernel, rfl, by decide +kernel⟩

/-- A waybill of one step of 8 bytes and a final read of 64 bytes, at its step and at its end, and one of nine steps. -/
def billImage : List Byte := [1, 1, 0, 64] ++ List.replicate 64 0 ++ [8] ++ List.replicate 123 0
def bill (step : Nat) : Waybill := ⟨billImage, 0, 0, step, 0, false⟩
def wblOp (w : Waybill) : Op := { opk (.wbl w 256 none) with cls := .W }
def nine : Waybill := { bill 1 with image := 9 :: List.replicate 191 0 }
/-- The step at hand stands elsewhere. -/
def toward (p : Nat) (crossings : Nat) : Waybill := { bill 1 with ptr := BitVec.ofNat 64 p, crossings := crossings }
/-- The second page lies at `pa`; the peer is reached; the line is poisoned. -/
def walkS1 (pa : Nat) (w : Waybill) (reach : Bool) : State :=
  let s := opS (wblOp w)
  { s with
    xl := { s.xl with tlb := [page0, page1 pa] }
    fab := { s.fab with valid := reach, porten := 1, reach := [(3, true)], route := [(3, 1)], ports := [⟨64, false, 0⟩] } }
def spoiltS (w : Waybill) : State := { opS (wblOp w) with mem := { sg.mem with depot := [{ line0 with poison := 1 }] } }
def farPa : Nat := 2 ^ 51 + 3 * 2 ^ 41

theorem witness_WaybillsFollowTheirPointers :
    (∀ w ∈ [bill 1, bill 2, nine], (opS (wblOp w)).op? 7 = some (wblOp w)) ∧ (opS (wblOp (bill 1))).team? team.id = some team
    ∧ sg.cores.Canonical ∧ (∀ j < 20, spGate sg.cores (team.sp 256 + 4 * j) = false)
    ∧ (bill 1).last = false ∧ (bill 2).last = true ∧ (∀ n ∈ [1, 2], (bill n).misaligned = false ∧ (bill n).addr = 0 ∧ (bill n).width ≤ 64)
    ∧ (opS (wblOp (bill 1))).devPlace (billWalker 7) 0 0 0 .read true = .at (.line ⟨0, 0, 0⟩ 0) (some .P) 0
    ∧ (opS (wblOp (bill 2))).devPlace (billWalker 7) 0 0 0 .read true = .at (.line ⟨0, 0, 0⟩ 0) (some .P) 0
    ∧ (∀ w ∈ [bill 1, bill 2, toward 1 0, toward 4096 0, toward 4096 16], NoReplay (opS (wblOp w)) (wblOp w))
    ∧ imageField (bill 2).image 2 1 = 0
    ∧ (toward 1 0).misaligned = true ∧ (∀ p ∈ [4096, 2 ^ 60], ∀ c ∈ [0, 16], (toward p c).misaligned = false ∧ (toward p c).last = false)
    ∧ (opS (wblOp (toward (2 ^ 60) 0))).devPlace (billWalker 7) 0 0 (2 ^ 60) .read true = .fail 0x11
    ∧ (walkS1 (2 ^ 50) (toward 4096 0) false).devPlace (billWalker 7) 0 0 4096 .read true = .at (.host 0) none 0
    ∧ (walkS1 farPa (toward 4096 0) false).devPlace (billWalker 7) 0 0 4096 .read true = .at (.peer 3 0 false) none 0
    ∧ (walkS1 farPa (toward 4096 16) true).devPlace (billWalker 7) 0 0 4096 .read true = .at (.peer 3 0 false) none 0
    ∧ (∀ r ∈ [true, false], ∀ c ∈ [0, 16], (walkS1 farPa (toward 4096 c) r).reachable 3 = r
        ∧ (walkS1 farPa (toward 4096 c) r).op? 7 = some (wblOp (toward 4096 c)))
    ∧ (spoiltS (bill 1)).line? ⟨0, 0, 0⟩ = some { line0 with poison := 1 } ∧ bitOf ({ line0 with poison := 1 } : DepotLine).poison 0 = true
    ∧ (spoiltS (bill 1)).devPlace (billWalker 7) 0 0 0 .read true = .at (.line ⟨0, 0, 0⟩ 0) (some .P) 0
    ∧ sg.line? ⟨0, 0, 0⟩ = some line0 ∧ (∀ k < 64, bitOf line0.poison (k / 4) = false)
    ∧ 8 < (nine.image.getD 0 0).toNat
    ∧ (wblOp (bill 1)).issued + 10000000 ≤ { sg with ltick := 10000000 }.ltick ∧ sg.ltick < (wblOp (bill 1)).issued + 10000000 := by
  and_intros
  all_goals first
    | decide +kernel
    | rfl

/-! Witnesses: drays. -/

/-- Dray 0 in a run of one row, open, with its first sector verified, and the machine that it runs in. -/
def open0 : OpenRow := ⟨row0, [], 1, 0, 0⟩
def dray0 : Dray :=
  { Dray.reset with op := some 7, rows := [row0], open_ := [open0], owner := some 0, dstat := ⟨0, 0, false, false, 0, 1⟩ }
def atEnd : Dray := { dray0 with slot := 63 }
def looping : Dray := { dray0 with l0 := 2 }
def drayS (d : Dray) : State :=
  let s := queued (banked (opS { runOp with drays := [0], launched := true }) .bank)
  { s with drays := { s.drays with drays := [(0, d)], bcast := [(0, ⟨7, 2⟩)] } }

theorem witness_DrayCommandsWithoutAccess :
    (drayS dray0).Canonical ∧ drayKey (drayS dray0).cur.dray = 0 ∧ (drayS dray0).freeTurn 0 = true ∧ dray0.slot ≠ 63
    ∧ (drayS atEnd).freeTurn 0 = true ∧ atEnd.slot = 63 ∧ 1 < looping.l0 ∧ (drayS looping).freeTurn 0 = true
    ∧ dray0.l0 ≤ 1 ∧ atEnd.l0 ≤ 1
    ∧ (let d : Dray := { dray0 with bcast := true, free3 := 2 }
       (drayS d).Canonical ∧ (drayS d).freeTurn 0 = true ∧ 0 < (drayS d).stepsLeft 0 ∧ d.slot ≠ 63) := by
  and_intros <;> decide +kernel

theorem witness_BlocksAreCutBelowTheirLargestProduct :
    (unpack fF32 0).finite = true ∧ (∀ p ∈ [FVal.fin false 1 0], p.finite = true)
    ∧ (∃ p ∈ [FVal.fin false 1 0], (2 : ℚ) ^ (0 : Int) ≤ |p.rat|) ∧ (∀ p ∈ [FVal.fin false 1 0], |p.rat| < (2 : ℚ) ^ ((0 : Int) + 1)) := by
  refine ⟨by decide, by decide, ⟨_, List.mem_singleton_self _, ?_⟩, ?_⟩ <;> simp [FVal.rat]

theorem witness_DrayColumnCommands :
    (drayS dray0).Canonical ∧ (drayS dray0).drayRuns 0 = true ∧ dray0.bcast = false ∧ dray0.slot ≠ 63
    ∧ (∃ o, dray0.openRow? (dray0.rowOf dray0.x) = some o ∧ bitOf o.verified (dray0.x.col / 2) = true)
    ∧ (∀ i ∈ [Instr.dmac 0, .dmacx 0, .dscol 0, .dvld true, .dvst false, .dadd true true, .dscale 0 false true, .dald true, .dstore true true],
        (columnUse i).isSome = true ∧ (columnUse i).all (fun u => dray0.check (u.2 dray0) u.1 = none) = true)
    ∧ (drayS dray0).rowCode row0 ≠ .N
    ∧ (let s : State := { drayS dray0 with rel := { sg.rel with ext := [] } }
       s.Canonical ∧ s.rowCode row0 = .N ∧ s.drayRuns 0 = true)
    ∧ (let d : Dray := { dray0 with bcast := true }
       (drayS d).Canonical ∧ (drayS d).drayRuns 0 = true ∧ d.granted = false ∧ d.waitSteps = 0 ∧ 2 ≤ (drayS d).stepsLeft 0
       ∧ (drayS d).stepsLeft 0 < 3)
    ∧ (let d : Dray := { dray0 with bcast := true, waitSteps := 1 }
       (drayS d).Canonical ∧ (drayS d).drayRuns 0 = true ∧ d.granted = false ∧ 0 < d.waitSteps ∧ 0 < (drayS d).stepsLeft 0)
    ∧ (let d : Dray := { dray0 with open_ := [{ open0 with verified := 0 }] }
       (drayS d).Canonical ∧ (drayS d).drayRuns 0 = true ∧ d.check [d.x] 1 = none
       ∧ d.openRow? (d.rowOf d.x) = some { open0 with verified := 0 } ∧ bitOf (0 : Word) (d.x.col / 2) = false ∧ d.x.col / 2 < 32)
    ∧ (drayS atEnd).Canonical ∧ (drayS atEnd).drayRuns 0 = true ∧ atEnd.bcast = false ∧ atEnd.slot = 63 ∧ atEnd.check [atEnd.x] 1 = none
    ∧ (∃ o, atEnd.openRow? (atEnd.rowOf atEnd.x) = some o ∧ bitOf o.verified (atEnd.x.col / 2) = true)
    ∧ (({ dray0.x with beyond := true } : Cursor).beyond = true ∧ ({ dray0.x with lo := 1 } : Cursor).hi < 1
       ∧ 65536 < { dray0 with cc := 65536 }.cc + 1) := by
  and_intros <;> decide +kernel

/-- A dray whose row is still to be opened, one whose row was taken back, and one that waits for a step. -/
def shut : Dray := { dray0 with open_ := [], store := [(0, 0x20000000#32)] }
def stepping : Dray := { dray0 with bcast := true, atStep := true, dstat := { dray0.dstat with state := 2 }, store := [(0, 0x20000000#32)] }

/-- A dray whose open row's bank another request waits for, and one that opens a row there. -/
def open1 : OpenRow := { open0 with written := 1 }
def row1 : RowId := ⟨0, 0, 0, 0, 1⟩
def ask1 : BankEntry := ⟨row1, .fill ⟨0, 0, 1⟩, false, 64⟩
def ask2 : BankEntry := ⟨row1, .req 9, true, 0⟩
def asked (q : BankEntry) (d : Dray) : State := let s := drayS d; { s with mem := { s.mem with bankQ := [q] } }
def opening : Dray := { dray0 with open_ := [open1] }
def reopening : Dray := { dray0 with open_ := [], reopen := [row0] }

theorem witness_DraysOpenYieldStopAndStep :
    (drayS shut).Canonical ∧ (drayS dray0).Canonical ∧ (drayS stepping).Canonical ∧ (drayS shut).drayRuns 0 = true ∧ shut.rowToOpen = some row0
    ∧ (banked (drayS dray0) .returning).drayRuns 0 = false ∧ dray0.op ≠ none
    ∧ dray0.open_.find? (fun o => o.row.bank = (drayS dray0).cur.bank) = some open0 ∧ (drayS dray0).strong? row0 = none
    ∧ (drayS dray0).mem.bankQ = []
    ∧ (asked ask1 opening).Canonical ∧ (asked ask2 opening).Canonical ∧ (asked ask1 shut).Canonical
    ∧ (∀ q ∈ [ask1, ask2], sameBank q.row open1.row = true ∧ (q.express = true ∨ 64 ≤ q.count)
        ∧ opening.open_.find? (fun o => o.row.bank = (asked q opening).cur.bank) = some open1
        ∧ (asked q opening).strong? open1.row = none)
    ∧ open1.written = 1
    ∧ (∀ q ∈ [ask1, ask2], 0 < ((asked q opening).extent open1.row.stack (open1.row.row / 32)).cls.sectors
        ∧ (asked q shut).drayRuns 0 = true ∧ sameBank q.row row0 = true)
    ∧ (drayS reopening).Canonical ∧ reopening.reopen = row0 :: []
    ∧ (let o : OpenRow := { open0 with written := 1 }
       0 < ((drayS dray0).extent o.row.stack (o.row.row / 32)).cls.sectors ∧ bitOf o.written 0 = true)
    ∧ sget ⟨0, 0⟩ (drayS stepping).drays.bcast 0 = ⟨7, 1 + 1⟩ ∧ ((drayS stepping).op? 7).isSome = true
    ∧ (({ runOp with drays := [0], launched := true } : Op).draysIn 0).Nodup ∧ (drayS stepping).settled 7 0 = true := by
  and_intros <;> decide +kernel

/-! Witnesses: state registers, the supervisor's words. -/

def supG : Group := { grp with sup := true }
def supS : State := onPage (at_ all32 supG)
/-- The read of register `n`, and the write of register `n` by uniform register 3 with value `x`. -/
def sgetW (n : Nat) : RForm := { rz with a := BitVec.ofNat 8 n, d := 2 }
def sputW (n : Nat) : RForm := { sgetW n with d := 0, ub := true, b := 3 }
def poisonedS : Group := { supG with s := [(3, ⟨0, true⟩)] }

theorem witness_StateRegistersReadAndWrite :
    s0.Canonical ∧ supS.Canonical
    ∧ (∀ n ∈ [0x00, 0x0D, 0x15, 0x19], GoesAhead (.sget (sgetW n)) gz s0 grp)
    ∧ (∀ n ∈ [0x00, 0x0D, 0x15, 0x19, 0x20, 0x2F, 0x80, 0x88], GoesAhead (.sget (sgetW n)) gz supS supG)
    ∧ (∀ n ∈ [0x00, 0x0D, 0x10, 0x15, 0x18, 0x19, 0x20, 0x2F, 0x80, 0x88], StateNumber n)
    ∧ ¬ StateNumber 0x0E ∧ ¬ StateNumber 0x16 ∧ ¬ StateNumber 0x89
    ∧ grp.trap = none ∧ grp.sup = false ∧ grp.cntGrant = false
    ∧ (∀ n ∈ [0x0E, 0x20, 0x80], ∀ i ∈ [Instr.sget (sgetW n), .sput (sputW n)], s0.group? s0.cur.gid = some grp
        ∧ ∀ r ∈ i.writes ++ i.reads, regHeld grp r = true)
    ∧ (∀ n ∈ [0x09, 0x0A, 0x20, 0x27, 0x81, 0x82, 0x83, 0x88], GoesAhead (.sput (sputW n)) gz supS supG
        ∧ activeOf supG supS.cur gz ≠ 0 ∧ (rdS supG (sputW n).b.toNat).tag = false)
    ∧ (let s := at_ all32 poisonedS
       s.Canonical ∧ GoesAhead (.sput (sputW 0x09)) gz s poisonedS ∧ activeOf poisonedS s.cur gz ≠ 0
       ∧ (rdS poisonedS 3).tag = true ∧ poisonedS.trap = none) := by
  and_intros
  all_goals first
    | decide +kernel
    | (unfold StateNumber; decide +kernel)

/-- A record of the trap queue; a group that stands in a frame at address 0. -/
def tr (gid : Option Nat) : TrapRec := ⟨0, gid, 0x0B, false, none, none, 0x400, 0⟩
def framedG : Group := { grp2 with halt := .framed .trap, frame := some 0, kclass := 1 }
def framed0 : Group := { framedG with kclass := 0 }
def heldG : Group := { framedG with hold := true }
/-- A held group that makes a step, and one that the entry at hand has restarted 16 times. -/
def steppingG : Group := { heldG with halt := .halting .step, frame := none, stepFrame := some 0 }
def triedG : Group := { framedG with restarts := [(0, 16)] }
def supOf (x : Group) (tm : Team) (rs : List TrapRec) : State :=
  { supS with groups := [supG, x], teams := [tm], sup := { supS.sup with recs := rs } }
abbrev sysOf (i : Instr) (s : State) : Prop :=
  GoesAhead i gz s supG ∧ activeOf supG s.cur gz ≠ 0 ∧ supG.sup = true
    ∧ ∀ n < 64, RegName.s n ∈ i.reads → (rdS supG n).tag = false
/-- The operands of these words: one uniform, two, three. -/
def oneU : RForm := { rz with ua := true }
def twoU : RForm := { oneU with ub := true }
def threeU : RForm := { twoU with ck := .uni }
def ackWords : List Instr :=
  [.faultackRetry twoU, .faultackSkip twoU, .faultackRegion twoU, .faultackKill twoU, .faultackHold twoU]
def sysWords : List Instr :=
  [.exit rz, .eret rz, .dbgstep oneU, .preempt oneU, .kill oneU, .resume oneU, .tlbinv threeU]
def supPoisoned : Group := { supG with s := [(0, ⟨0, true⟩)] }
def supValue (n x : Nat) : Group := { supG with s := [(n, ⟨BitVec.ofNat 32 x, false⟩)] }
/-- Lines of the depot of ones, a frame with no lane left. -/
def spent (s : State) : State := { s with mem := { s.mem with depot := (List.range 10).map fun i =>
  { line0 with line := ⟨0, 0, i⟩, bytes := List.replicate 128 255 } } }

/-- A request to a peer. -/
def fr (w : FabWork) (retry : Bool) : FabReq :=
  { tgt := 3, seq := 9, work := w, pasid := 0, fabgen := 0, at_ := ⟨0, 0, false, 0⟩, port := some 0, sent := 100, noRoute := none
    tries := 0, retry := retry, live := true, dropped := false }
def supOut : State :=
  { supS with fab := { supS.fab with out := [{ fr (.op 7 0 0) false with dropped := true }] } }

def supLate : Group := { supG with seq := 1 }
def storing : State :=
  { withReq (supOf framedG team [tr (some 5)]) { req0 with lane := 0 } with groups := [supLate, framedG] }

theorem witness_SystemWordsActForTheSupervisor :
    s0.Canonical ∧ supS.Canonical
    ∧ (supervisorWord (.kill oneU) = some gz ∧ s0.group? s0.cur.gid = some grp ∧ grp.sup = false ∧ grp.trap = none
        ∧ ∀ r ∈ (Instr.kill oneU).writes ++ (Instr.kill oneU).reads, regHeld grp r = true)
    ∧ (let s := at_ all32 supPoisoned
       s.Canonical ∧ (∀ i ∈ ackWords ++ [.dbgstep oneU, .tlbinv threeU], GoesAhead i gz s supPoisoned
         ∧ RegName.s 0 ∈ i.reads ∧ (rdS supPoisoned 0).tag = true))
    ∧ (∀ x ∈ [framedG, heldG, framed0], (supOf x team [tr (some 5)]).rec? (uniPair supG rz.a) = some (tr (some 5)) ∧ uniN supG rz.b ≤ 4
        ∧ (supOf x team [tr (some 5)]).allPerformed supG all32 .d = true
        ∧ (supOf x team [tr (some 5)]).group? 5 = some x ∧ x.gid ≠ supG.gid ∧ x.halt = .framed .trap ∧ x.frame = some 0
        ∧ x.ended = false)
    ∧ (∀ i ∈ ackWords ++ sysWords, sysOf i (supOf framedG team [tr (some 5)]))
    ∧ (∀ i ∈ ackWords ++ sysWords, sysOf i (supOf framed0 team [tr (some 5)]))
    ∧ (∀ i ∈ ackWords ++ sysWords, sysOf i (supOf heldG team [tr (some 5)]))
    ∧ (supOf framedG team [tr (some 5)]).Canonical ∧ (supOf heldG team [tr (some 5)]).Canonical
    ∧ (supOf framed0 team [tr (some 5)]).Canonical
    ∧ (∀ r ∈ supS.sup.recs, r.addr ≠ uniPair supG rz.a) ∧ (∀ i ∈ ackWords, sysOf i supS)
    ∧ (sysOf (.faultackRetry twoU) (supOf grp2 team [tr none]) ∧ (supOf grp2 team [tr none]).rec? 0 = some (tr none)
        ∧ (tr none).gid = none)
    ∧ (let s := at_ all32 (supValue 2 5)
       GoesAhead (.faultackRetry { twoU with b := 2 }) gz s (supValue 2 5) ∧ 4 < uniN (supValue 2 5) 2)
    ∧ (GoesAhead (.faultackRetry twoU) gz storing supLate ∧ storing.Canonical
        ∧ storing.allPerformed supLate (activeOf supLate storing.cur gz) .d = false)
    ∧ ((supOf framedG team []).groups.all fun x => !(x.frame = some 0 && x.hold && !x.ended)) = true
    ∧ (supOf steppingG team [tr (some 5)]).Canonical ∧ (supOf steppingG team [tr (some 5)]).group? 5 = some steppingG
    ∧ steppingG.stepFrame ≠ none ∧ (supOf steppingG team []).heldFrame 0 = some steppingG ∧ (supOf steppingG team []).Canonical
    ∧ (∀ i ∈ ackWords ++ [.dbgstep oneU], sysOf i (supOf steppingG team [tr (some 5)]))
    ∧ sysOf (.dbgstep oneU) (supOf steppingG team [])
    ∧ (supOf triedG team [tr (some 5)]).Canonical ∧ sysOf (.faultackRegion twoU) (supOf triedG team [tr (some 5)])
    ∧ (((supOf triedG team []).loadLane 0 0).exited = false ∧ 16 ≤ triedG.restartsAt ((supOf triedG team []).loadLane 0 0).region)
    ∧ (∀ tm ∈ [team, { team with state := .framed }],
        (supOf heldG tm []).heldFrame 0 = some heldG
        ∧ (supOf heldG tm []).group? heldG.gid = some heldG ∧ (supOf heldG tm []).team? heldG.team = some tm)
    ∧ (((supOf heldG team []).loadLane 0 0).exited = false
        ∧ bitOf (BitVec.ofNat 32 ((supOf heldG team []).devNat (0 + 0x2C) 4)) 0 = false)
    ∧ (∀ L < 32, ((spent (supOf heldG team [])).loadLane 0 L).exited = true)
    ∧ heldG.returns = [] ∧ ({ heldG with returns := [⟨1, 2, false, 1, 4⟩] } : Group).returns ≠ []
    ∧ (let s := at_ all32 (supValue 2 256)
       GoesAhead (.preempt { oneU with a := 2 }) gz s (supValue 2 256) ∧ 255 < uniN (supValue 2 256) 2)
    ∧ uniN supG rz.a ≤ 255 ∧ supS.team? 2 = some team ∧ team.core = uniN supG rz.a ∧ team.state = .running
    ∧ (∀ tm ∈ ({ supS with teams := [] } : State).teams, tm.core ≠ 0) ∧ 0 ∉ supS.disp.supPreempts ∧ supS.disp.preempts = []
    ∧ (let s := at_ all32 (supValue 2 0x100000)
       GoesAhead (.tlbinv { threeU with c := 2 }) gz s (supValue 2 0x100000) ∧ 0xFFFFF < uniN (supValue 2 0x100000) 2
       ∧ uniN (supValue 2 0x100000) 2 ≠ 0xFFFFFFFF)
    ∧ supOut.Canonical ∧ (∀ w ∈ supOut.xl.walks, w.pasid ≠ 0) ∧ sysOf (.tlbinv threeU) supOut
    ∧ (∃ f ∈ supOut.fab.out, f.work.parts = true ∧ f.pasid = uniN supG rz.c ∧ f.dropped = true)
    ∧ uniN supG rz.c ≤ 0xFFFFF ∧ supS.xl.walks = [] ∧ supS.allPerformed supG (activeOf supG supS.cur gz) .h = true := by
  and_intros
  all_goals first
    | decide +kernel

/-! Witnesses: frames and traps. -/

/-- What stands where the bootstrap decoder puts the lowest slot of class P, in lines that the depot holds, is laid. -/
theorem laid_of (s : State) (N a n : Nat) (htb : s.xl.tb.wins = bootBlock.wins) (hs : s.xl.slot 2 0 = ⟨true, false, 0, 0⟩)
    (he : s.extent 0 0 = ⟨.P, false⟩) (hN : N ≤ 10000) (han : a + n ≤ 128 * N)
    (hl : ((List.range N).all fun k => (s.line? ⟨0, 0, k⟩).isSome) = true) : Laid s a n := by
  have hd : ∀ pa, pa < 128 * N → s.decodeLocal pa true = .ok 0 0 pa := by
    intro pa hpa
    have h0 : pa < 234881024 := by omega
    have h1 : pa < 268435456 := by omega
    have hf : ((List.range 3).find? fun c =>
        let w := bootBlock.wins.getD c ⟨0, 0⟩
        decide (w.base ≤ pa) && decide (pa < w.base + w.slots * (windowClass c).size)) = some 2 := by
      simp [List.range, List.range.loop, bootBlock, windowClass, ExtClass.size, h0]
    have hq : pa / 234881024 = 0 := Nat.div_eq_of_lt h0
    have hm : pa % 234881024 = pa := Nat.mod_eq_of_lt h0
    simp only [State.decodeLocal, htb]
    simp only [hf]
    simp [bootBlock, windowClass, ExtClass.size, hq, hm, hs, he, h0]
  intro i hi
  refine ⟨0, 0, a + i, hd _ (by omega), rfl, ?_, ?_⟩
  · exact List.all_eq_true.1 hl _ (List.mem_range.2 (by omega))
  · intro j hj st e d h
    rw [hd _ (by omega)] at h
    cases h
    simp

/-- The CRC16 of zeros is 0. -/
theorem crc_zeros : crc16 (List.replicate 64 0) = 0 := by
  have hb : ∀ n, codeBit (List.replicate 64 0) n = false := by
    intro n
    have : (List.replicate 64 (0 : Byte)).getD (4 * (n % 16) + n / 16 / 8) 0 = 0 := by
      rw [List.getD_eq_getElem?_getD, List.getElem?_replicate]
      split <;> rfl
    simp only [codeBit, this]
    simp
  unfold crc16
  simp only [hb]
  have : ∀ xs : List Nat, xs.foldl (fun r (_ : Nat) =>
      let top := (decide (r ≥ 2 ^ 15)) ^^ false
      let r := (2 * r) % 2 ^ 16
      if top then r ^^^ 0x8BB7 else r) 0 = 0 := by
    intro xs
    induction xs with
    | nil => rfl
    | cons x xs ih => exact ih
  exact this _

theorem zeros_clean : ∀ c : Code, (c.check (List.replicate 64 0) (List.replicate (codeBase c ⟨0, 0, 0, 0, 0⟩ 0).2 0)).2 = .clean := by
  intro c
  cases c
  · decide +kernel
  · simp only [Code.check, Code.of, crc_zeros]; decide +kernel
  · decide +kernel
  · decide +kernel

/-- What has never been written stands in its stack without an error, under every code. -/
theorem peek_clean (s : State) (h : s.mem.raw = []) (r : RowId) (k : Nat) : (s.peekSector r k).2 = .clean := by
  have hb : ∀ a n, rawBytes s.mem a n = List.replicate n 0 := by
    intro a n
    simp only [rawBytes, h, sget]
    exact List.map_const' ..|>.trans (by rw [List.length_range])
  have z := zeros_clean
  simp only [State.peekSector, hb]
  cases s.rowCode r with
  | N => exact z .N
  | D => exact z .D
  | P => exact z .P
  | PP => exact z .PP

theorem demand_clean (s : State) (h : s.mem.raw = []) (w : Who) (r : RowId) (k : Nat) : (s.demandSector w r k).2 = s := by
  have := peek_clean s h r k
  unfold State.demandSector
  revert this
  cases s.peekSector r k with
  | mk d v => rintro rfl; rfl

/-- A machine whose stacks nothing has written is sound, and can be read where no row is away. -/
theorem sound_of (s : State) (h : s.mem.raw = []) : Sound s := by
  intro a n
  have hl : ∀ l, (s.demandLine ⟨none, none⟩ l).2 = s := by
    intro l
    simp only [State.demandLine, demand_clean s h]
  have : ∀ xs : List (Nat × Nat), xs.foldl (fun s (x : Nat × Nat) => match s.decodeLocal x.1 true with
      | .ok st e d =>
        let l : LineId := ⟨st, e, d / 128⟩
        if (s.line? l).isSome then s else (s.demandLine ⟨none, none⟩ l).2
      | _ => s) s = s := by
    intro xs
    induction xs with
    | nil => rfl
    | cons x xs ih =>
      simp only [List.foldl_cons]
      split
      · simp only [hl, ite_self]; exact ih
      · exact ih
  exact this _
theorem readable_of (s : State) (h : s.mem.raw = []) (a n : Nat) (ha : s.devAway a n = false) : Readable s a n :=
  ⟨ha, sound_of s h a n⟩

/-- A context with nine pages of frames, of which the lowest is the post's, over lines that the depot holds; line 1 of
them may hold a valid vector of every code below 8 (R331), line 2 a kernel record of one group. -/
def ctxF : Ctx := { emptyCtx with frameArea := 0, frameLen := 36864 }
def vecLine (flags : Nat) : List Byte := (List.range 8).flatMap fun _ => leBytes 8 256 ++ leBytes 4 flags ++ leBytes 4 0
def recLine : List Byte := leBytes 8 0 ++ leBytes 4 1 ++ leBytes 4 0 ++ List.replicate 112 0
def laidS (flags : Nat) (g : Group) (tm : Team) : State :=
  let s := onPage (at_ all32 g)
  { s with
    teams := [tm], ctxs := [(0, ctxF)], sup := { s.sup with vecBase := 128, trapQ := 0 }
    mem := { s.mem with depot := (List.range 300).map fun k =>
      { line0 with line := ⟨0, 0, k⟩, bytes := if k = 1 then vecLine flags else if k = 2 then recLine else line0.bytes } } }

theorem laidS_laid (flags : Nat) (g : Group) (tm : Team) (a n : Nat) (h : a + n ≤ 38400) : Laid (laidS flags g tm) a n :=
  laid_of _ 300 a n rfl (by rfl) (by rfl) (by decide) h
    (List.all_eq_true.2 fun _ hk => List.find?_isSome.2 ⟨_, List.mem_map_of_mem hk, by simp⟩)

def haltedG : Group := { grp with halt := .halted .trap }
def framingT : Team := { team with state := .framing }
def endedG : Group := { grp with halt := .framed .preempt, frame := some 20480 }
def poor (s : State) : State := { s with ctxs := [] }
/-- A group halted after its one debug step, with a trap of the step; a load of a lane that is still out. -/
def lateG : Group := { haltedG with halt := .halting .step, stepFrame := some 4096, trap := some ⟨0x1A, 0, 1, 0, 0x400, 9⟩ }
def frameReq : Req := { req0 with kind := .load false 4, reg := 2, gen := haltedG.regGen 2, bytes := [], tags := [] }
def laidReq : State := withReq (laidS 1 haltedG team) frameReq

theorem witness_FramesHoldGroupsAndTeams :
    (laidS 1 haltedG team).Canonical ∧ (laidS 1 endedG framingT).Canonical ∧ (poor (laidS 1 haltedG team)).Canonical
    ∧ (let s := at_ all32 (withHalt (.halting .preempt))
       s.Canonical ∧ s.group? s.cur.gid = some (withHalt (.halting .preempt)) ∧ s.eng.reqs = []
       ∧ ((withHalt (.halting .preempt)).lanes.all fun l => l.wait = .none) = true)
    ∧ (at_ all32 withdrawing).group? 1 = some withdrawing ∧ (withdrawing.lane 4).wait = .lock ∧ withdrawing.halt = .halting .preempt
    ∧ (laidS 1 haltedG team).group? (laidS 1 haltedG team).cur.gid = some haltedG
    ∧ (laidS 1 haltedG team).grid? haltedG.grid = some task
    ∧ (laidS 1 haltedG team).liveLanes haltedG task.kernel (List.range 32) = .ok (List.replicate 32 none)
    ∧ (haltedG.lanes.all fun l => l.wait = .none) = true
    ∧ (at_ all32 lateG).Canonical ∧ (at_ all32 lateG).group? 1 = some lateG ∧ lateG.halt = .halting .step ∧ lateG.trap.isSome = true
    ∧ (at_ all32 lateG).eng.reqs = [] ∧ (at_ all32 lateG).eng.ops = [] ∧ lateG.outrider = none
    ∧ (lateG.lanes.all fun l => l.wait = .none) = true
    ∧ (laidReq.eng.reqs = [frameReq] ∧ frameReq.gid = haltedG.gid ∧ frameReq.returns = (4, false) ∧ frameReq.lane < 32
        ∧ haltedG.regGen frameReq.reg = frameReq.gen ∧ regHeld haltedG (.v frameReq.reg) = true ∧ laidReq.Canonical
        ∧ laidReq.group? 1 = some haltedG)
    ∧ haltedG.stepFrame = none ∧ (laidS 1 haltedG team).returnsOf haltedG = [] ∧ groupFrameLen haltedG 0 = 29696
    ∧ LowestRun ((laidS 1 haltedG team).ctx 0) 8 1 ∧ Laid (laidS 1 haltedG team) 4096 29696
    ∧ (let g := { haltedG with stepFrame := some 4096 }
       (laidS 1 g team).group? 1 = some g ∧ Laid (laidS 1 g team) 4096 29696)
    ∧ (poor (laidS 1 haltedG team)).group? 1 = some haltedG
    ∧ (poor (laidS 1 haltedG team)).liveLanes haltedG task.kernel (List.range 32) = .ok (List.replicate 32 none)
    ∧ (∀ p, ¬ FreeRun ((poor (laidS 1 haltedG team)).ctx 0) 8 p)
    ∧ (let g := { haltedG with frameWait := true }
       (laidS 1 g team).groups.filter (fun x => x.ctx = g.ctx && x.frameWait && !x.ended) = [g]
       ∧ ∀ tm ∈ (laidS 1 g team).teams, tm.frameWait = false)
    ∧ (laidS 1 grp team).team? (laidS 1 grp team).cur.team = some team ∧ team.state ≠ .framing
    ∧ (laidS 1 endedG framingT).team? 2 = some framingT ∧ (laidS 1 endedG framingT).grid? framingT.grid = some task
    ∧ (laidS 1 endedG framingT).groups = [endedG] ∧ endedG.halt = .framed .preempt ∧ (laidS 1 endedG framingT).eng.ops = []
    ∧ LowestRun ((laidS 1 endedG framingT).ctx 0) 4 1 ∧ Laid (laidS 1 endedG framingT) 4096 14208
    ∧ framingT.groups.length ≤ 16 ∧ framingT.spSize % 16 = 0
    ∧ (∀ x ∈ (laidS 1 endedG framingT).teams, x.core = framingT.core → x.id = framingT.id ∨ x.state ≠ .framing)
    ∧ (∀ p, ¬ FreeRun ((poor (laidS 1 endedG framingT)).ctx 0) 4 p) ∧ framingT.frameWait = false
    ∧ (∀ x ∈ (laidS 1 endedG framingT).groups, x.frameWait = false)
    ∧ (let tm := { framingT with frameWait := true }
       (laidS 1 endedG tm).teams.filter (fun x => x.frameWait) = [tm]) := by
  and_intros
  all_goals first
    | decide +kernel
    | rfl
    | exact laidS_laid 1 _ _ _ _ (by decide)
    | (rintro p ⟨h, h', -⟩; exact absurd (h'.trans (show _ ≤ 0 from by decide)) (by omega))

/-- A trap of code 5, a group that stands in its frame with it, and a record that waits. -/
def ti5 : TrapInfo := ⟨5, 3, 64, 64, 0x400, 9⟩
def trappedG : Group := { grp with halt := .framed .trap, frame := some 20480, trap := some ti5 }
def steppedG : Group := { trappedG with stepFrame := some 20480 }
def recK : Kernel := { kern with addr := 256, entry := 0, groups := 1, optiles := 0, acctiles := 0, spbytes := 0, blocks := 0 }
def recsFull : List TrapRec := (List.range 4096).map fun n => { tr none with addr := 64 * n }
def waitS (x : TrapInfo × Option Nat × Nat) (g : Group) (rs : List TrapRec) : State :=
  let s := laidS 1 g team
  { s with sup := { s.sup with waiting := [x], recs := rs } }
theorem waitS_recs (x : TrapInfo × Option Nat × Nat) (g : Group) (rs : List TrapRec) : (waitS x g rs).sup.recs = rs := rfl
theorem waitS_laid (x : TrapInfo × Option Nat × Nat) (g : Group) (rs : List TrapRec) (a n : Nat) (h : a + n ≤ 38400) :
    Laid (waitS x g rs) a n :=
  laid_of _ 300 a n rfl (by rfl) (by rfl) (by decide) h
    (List.all_eq_true.2 fun _ hk => List.find?_isSome.2 ⟨_, List.mem_map_of_mem hk, by simp⟩)
def impG : Group := { grp with imprecise := 0x100, impInfo := [(8, 64)] }
def pagerG : Group := { grp with parked := true, frame := some 4096, haltedAt := 5 }
def lateS (now : Nat) : State := { laidS 1 pagerG team with ltick := now }

theorem recsFull_all : ∀ n < 4096, ∃ r ∈ recsFull, r.addr = 64 * n :=
  fun n hn => ⟨_, List.mem_map.2 ⟨n, List.mem_range.2 hn, rfl⟩, rfl⟩

theorem next0 (s : State) (hq : s.sup.trapQ = 0) (hn : s.sup.trapNext = 0) (hr : s.sup.recs = []) : NextEntry s 0 := by
  refine ⟨0, by decide, ?_, ?_, fun m hm => absurd hm (Nat.not_lt_zero m)⟩
  · simp [hq, hn]
  · simp [hr]

/-- The vector's kernel record reads. -/
abbrev Reads (s : State) (code : Nat) : Prop :=
  ∃ k, vectorValid s code = true ∧ s.readKernel 0 (s.ctx 0).pasid (vectorKernel s code) true = .ok k
def isRead : KernelRead → Bool
  | .ok _ => true
  | _ => false

theorem reads_of (s : State) (code : Nat) (hv : vectorValid s code = true)
    (hk : isRead (s.readKernel 0 (s.ctx 0).pasid (vectorKernel s code) true) = true) : Reads s code := by
  cases h : s.readKernel 0 (s.ctx 0).pasid (vectorKernel s code) true with
  | ok k => exact ⟨k, hv, h⟩
  | wait _ => rw [h] at hk; exact Bool.noConfusion hk
  | bad _ => rw [h] at hk; exact Bool.noConfusion hk

theorem witness_TrapsReachTheirHandlers :
    ((∀ n < 4096, ∃ r ∈ recsFull, r.addr = 64 * n) ∧ (∀ x g, (waitS x g recsFull).sup.recs = recsFull)
      ∧ (∀ x g rs, Laid (waitS x g rs) 0 64 ∧ Laid (waitS x g rs) 64 64) ∧ (∀ f g, Laid (laidS f g team) 0 64)
      ∧ (∀ f g a n, (laidS f g team).devTouch a n = laidS f g team) ∧ ∀ x g rs a n, (waitS x g rs).devTouch a n = waitS x g rs) ∧
    (laidS 1 trappedG team).Canonical ∧ (laidS 0 trappedG team).Canonical ∧ (laidS 1 steppedG team).Canonical
    ∧ (laidS 1 trappedG team).group? (laidS 1 trappedG team).cur.gid = some trappedG
    ∧ trappedG.halt = .framed .trap ∧ trappedG.trap = some ti5 ∧ trappedG.frame.isSome = true
    ∧ Reads (laidS 1 trappedG team) 5 ∧ vectorValid (laidS 0 trappedG team) 5 = false
    ∧ NextEntry (laidS 1 trappedG team) 0
    ∧ NextEntry (laidS 0 trappedG team) 0
    ∧ trappedG.stepFrame = none ∧ steppedG.stepFrame.isSome = true
    ∧ (laidS 1 steppedG team).group? 1 = some steppedG ∧ NextEntry (laidS 1 steppedG team) 0
    ∧ (waitS (ti5, none, 0) trappedG recsFull).sup.trapQ.toNat = 0
    ∧ (waitS (ti5, none, 0) trappedG recsFull).group? 1 = some trappedG
    ∧ vectorValid (laidS 0 trappedG team) ti5.code = false
    ∧ (laidS 1 trappedG team).sup.waiting = []
    ∧ (waitS (ti5, none, 0) grp []).sup.waiting = [(ti5, none, 0)] ∧ NextEntry (waitS (ti5, none, 0) grp []) 0
    ∧ Reads (waitS (ti5, none, 0) grp []) 5
    ∧ (let r : TrapRec := { tr (some 1) with hold := true }
       let s := waitS (ti5, some 1, 0) trappedG [r]
       s.sup.waiting = [(ti5, some trappedG.gid, trappedG.ctx)] ∧ s.group? trappedG.gid = some trappedG
       ∧ s.sup.recs.find? (fun r => r.gid = some trappedG.gid && r.hold) = some r ∧ s.rec? r.addr = some r
       ∧ NextEntry s 64 ∧ Reads s 5)
    ∧ (laidS 1 impG team).group? impG.gid = some impG ∧ impG.halt = .running ∧ impG.ended = false
    ∧ bitOf impG.imprecise 8 = true ∧ (∀ c < 8, bitOf impG.imprecise c = false) ∧ impG.trap = none
    ∧ (impG.lane 0).exited = false ∧ (∀ K < 32, (impG.lane K).pc = (impG.lane 0).pc)
    ∧ (laidS 1 grp team).group? grp.gid = some grp ∧ bitOf grp.imprecise 8 = false
    ∧ (lateS 20005).group? (lateS 20005).cur.gid = some pagerG ∧ (lateS 20005).team? pagerG.team = some team
    ∧ ((laidS 0 trappedG team).writeRecord ti5 (some trappedG) 0).isSome = true ∧ (lateS 20005).disp.preempts = []
    ∧ pagerG.ended = false ∧ pagerG.parked = true ∧ pagerG.frame.isSome = true ∧ team.state = .running
    ∧ pagerG.haltedAt + 20000 ≤ (lateS 20005).ltick
    ∧ (lateS 20004).group? 1 = some pagerG ∧ ¬ pagerG.haltedAt + 20000 ≤ (lateS 20004).ltick := by
  refine ⟨⟨recsFull_all, fun x g => waitS_recs x g recsFull, fun x g rs =>
    ⟨waitS_laid x g rs _ _ (by decide), waitS_laid x g rs _ _ (by decide)⟩, fun f g => laidS_laid f g team _ _ (by decide),
    fun f g => sound_of _ rfl, fun x g rs => sound_of _ rfl⟩, ?_⟩
  and_intros
  all_goals first
    | exact next0 _ rfl rfl rfl
    | decide +kernel
    | exact reads_of _ _ (by decide +kernel) (by decide +kernel)
    | exact ⟨1, by decide, by decide +kernel, by decide +kernel, by decide +kernel⟩

/-! Witnesses: translation. -/

/-- A profile of pages of 4 KB: bit 0 is present, bit 1 write, bit 2 leaf; the table of PASID 0 is at `root`. Line 3
holds an entry that points to the table in line 0, whose entry is a leaf. -/
def pf0 : Profile := ⟨0, 4, 0, 1, 0xFF, 2, 0xFF, 0xFF, 8, 51, 0, true⟩
def lineOf (bs : List Byte) : List Byte := bs ++ List.replicate (128 - bs.length) 0
def walkS (g : Group) (root : Nat) (ws : List Walk) (qs : List PageReq) : State :=
  let s := laidS 1 g team
  { s with
    xl := { s.xl with tb := { bootBlock with pasidTab := 256, pasidCount := 1, profiles := [pf0] }, walks := ws, pageReqs := qs }
    mem := { s.mem with depot := (List.range 16).map fun k => { line0 with line := ⟨0, 0, k⟩, bytes := lineOf (match k with
      | 0 => leBytes 8 7
      | 2 => leBytes 8 root ++ [0, 3]
      | 3 => leBytes 8 1
      | _ => []) } } }
def walk0 (who : Walker) : Walk := ⟨5, 0, 0, 4096, .read, who, false, 0⟩
def wg : Walk := walk0 (.group 1 0x400 4)
def wo : Walk := walk0 (.op 7)
def walkingG : Group := withLanes fun L ln => if L = 4 then { ln with wait := .walk } else ln
def leafE : TlbEntry := { page0 with size := 2 ^ 30 }
def asks (w : Walk) : PageReq := ⟨6, 0, 4096, .read, [w], some 10⟩
def pagedG : Group := { walkingG with halt := .framed .page, frame := some 256 }

theorem walks_to (s : State) (w : Walk) (r : WalkOut) (h : (s.walk w (s.walkCtx0 w) []).1 = r) :
    ∃ u, s.walk w (s.walkCtx0 w) [] = (r, u) :=
  ⟨_, Prod.ext h rfl⟩

theorem witness_WalksFillWhatTheirLeavesAllow :
    (walkS walkingG 384 [wg] []).Canonical ∧ (walkS pagedG 384 [] [asks wg]).Canonical
    ∧ (withOps (walkS grp 512 [wo] []) [op0]).Canonical
    ∧ (∃ u, (walkS walkingG 384 [wg] []).walk wg ((walkS walkingG 384 [wg] []).walkCtx0 wg) [] = (.fill leafE, u))
    ∧ (∀ root ∈ [384, 512, 2 ^ 45], (walkS walkingG root [wg] []).xl.walks.find? (fun x => x.id = wg.id) = some wg)
    ∧ (∃ u, (walkS walkingG (2 ^ 45) [wg] []).walk wg ((walkS walkingG (2 ^ 45) [wg] []).walkCtx0 wg) [] = (.stuck, u))
    ∧ wg.answered = false ∧ (∀ g l, wg.who ≠ .prefetch g l)
    ∧ (∃ u, (walkS walkingG 512 [wg] []).walk wg ((walkS walkingG 512 [wg] []).walkCtx0 wg) [] = (.fault 3, u))
    ∧ (∃ u, (withOps (walkS grp 512 [wo] []) [op0]).walk wo ((withOps (walkS grp 512 [wo] []) [op0]).walkCtx0 wo) []
        = (.fault 3, u))
    ∧ ((walkS walkingG 512 [wg] []).pasidEntry 0).any (·.pri) = true ∧ 0 ∉ (walkS walkingG 512 [wg] []).xl.barred
    ∧ (let s := walkS walkingG 512 [wg] []
       let b := { s with xl := { s.xl with barred := [0] } }
       (b.walk wg (b.walkCtx0 wg) []).1 = .fault 3 ∧ 0 ∈ b.xl.barred ∧ b.group? 1 = some walkingG)
    ∧ (walkS walkingG 512 [wg] []).group? 1 = some walkingG ∧ walkingG.ended = false ∧ walkingG.halt = .running
    ∧ (walkingG.lane 4).exited = false ∧ (walkingG.lane 4).pc = 0x400 ∧ (walkingG.lane 4).wait = .walk
    ∧ walkingG.trap = none
    ∧ (withOps (walkS grp 512 [wo] []) [op0]).op? 7 = some op0 ∧ wo.who = .op 7 ∧ op0.id = 7
    ∧ (∀ w ∈ [wg, wo], (walkS pagedG 384 [] [asks w]).xl.pageReqs.find? (fun x => x.id = (asks w).id) = some (asks w)
        ∧ (asks w).sent = some 10 ∧ (asks w).walks = [w])
    ∧ (walkS pagedG 384 [] [asks wg]).group? 1 = some pagedG ∧ pagedG.trap = none ∧ pagedG.frame = some 256
    ∧ Laid (walkS pagedG 384 [] [asks wg]) (256 + 0x18) 8
    ∧ ((walkS pagedG 384 [] [asks wg]).ltick < 10 + 1000000000)
    ∧ (let s := { walkS pagedG 384 [] [asks wg] with ltick := 1000000010 }
       s.xl.pageReqs.find? (fun x => x.id = (asks wg).id) = some (asks wg) ∧ 10 + 1000000000 ≤ s.ltick)
    ∧ (∀ g root ws, Sound (walkS g root ws [])) ∧ Sound (withOps (walkS grp 512 [wo] []) [op0])
    ∧ (∀ w ∈ [walk0 (.look 1 0x400), wg],
        (∃ u, (walkS pagedG 384 [w] []).walk w ((walkS pagedG 384 [w] []).walkCtx0 w) [] = (.fill leafE, u)))
    ∧ (walkS pagedG 384 [wg] []).Canonical ∧ (walkS pagedG 384 [wg] []).group? 1 = some pagedG ∧ pagedG.issues = false
    ∧ walkingG.issues = true
    ∧ (∀ w ∈ [walk0 (.device 1), walk0 (.done 0)], ∃ u, (walkS grp 512 [w] []).walk w ((walkS grp 512 [w] []).walkCtx0 w) [] = (.fault 3, u))
    ∧ (walkS grp 512 [walk0 (.device 1)] []).Canonical ∧ (walkS grp 512 [walk0 (.done 0)] []).Canonical
    ∧ (let g := { walkingG with halt := .halting .step, stepFrame := some 4096 }
       (walkS g 512 [wg] []).Canonical ∧ (walkS g 512 [wg] []).group? 1 = some g ∧ g.trap = none)
    ∧ (∃ w ∈ (walkS walkingG 384 [wg] []).xl.walks, w.pasid = 0) ∧ (∀ w ∈ (walkS walkingG 384 [] []).xl.walks, w.pasid ≠ 0)
    ∧ (walkS walkingG 384 [] []).xl.invals = [] ∧ (walkS walkingG 384 [] []).eng.reqs = []
    ∧ (let s := withReq (walkS grp 384 [] []) req0
       let b := { s with xl := { s.xl with invals := [⟨0, 0, 0, 8⟩] } }
       s.Canonical ∧ req0 ∈ s.eng.reqs ∧ s.group? req0.gid = some grp ∧ grp.pasid = 0 ∧ req0.accepted = false
       ∧ b.Canonical ∧ b.xl.invals = [⟨0, 0, 0, 8⟩] ∧ ∀ w ∈ b.xl.walks, w.pasid ≠ 0)
    ∧ (let s := walkS grp 384 [] []
       let b := { s with yuren := { s.yuren with ready := true } }
       b.Canonical ∧ b.yuren.ready = true ∧ b.yuren.recovery = false ∧ b.xl.walks = [] ∧ s.yuren.ready = false) := by
  and_intros
  all_goals first
    | exact fun _ _ _ => sound_of _ rfl
    | exact sound_of _ rfl
    | decide +kernel
    | exact walks_to _ _ _ (by decide +kernel)
    | (intro w hw; exact walks_to _ _ _ (by revert w; decide +kernel))
    | exact fun _ _ h => nomatch h
    | (intro i hi; exact ⟨0, 0, 256 + 0x18 + i, by interval_cases i <;> rfl, rfl, by interval_cases i <;> rfl, by
        intro j hj st e d h
        have : (walkS pagedG 384 [] [asks wg]).decodeLocal (256 + 0x18 + j) true = .ok 0 0 (256 + 0x18 + j) := by
          interval_cases j <;> rfl
        rw [this] at h
        cases h
        simp⟩)

/-! Witnesses: reliability. -/

/-- The first row is due in a bank that is reinforced; extent 1 may be of the pool. -/
def dueS (pool : Bool) : State :=
  { sg with rel := { sg.rel with
    due := [row0], reinforcing := [bankKey row0]
    ext := [(0, ⟨.P, false⟩)] ++ if pool then [(1, ⟨.pool, false⟩)] else [] } }
/-- The slot list begins at 128, its extent classes in line 193; line 225 is the error log's block. -/
def relS (es : SMap Extent) (seen : Bool) (size : Nat) : State :=
  let s := laidS 1 grp team
  { s with
    xl := { s.xl with tb := { bootBlock with slotList := 128 } }
    rel := { s.rel with ext := es, block := { s.rel.block with logBase := 0, logSize := size } }
    mem := { s.mem with
      watch := if seen then [.ext 0 0, .ext 0 1] else []
      depot := (List.range 300).map fun k =>
        { line0 with line := ⟨0, 0, k⟩, bytes := lineOf (if k = 193 then [0, 1] else []) } } }
def relE : SMap Extent := [(0, ⟨.P, false⟩)]
def relBusy : SMap Extent := [(0, ⟨.P, false⟩), (1, ⟨.D, true⟩)]

theorem relS_laid (es : SMap Extent) (he : sget Extent.reset es 0 = ⟨.P, false⟩) (seen : Bool) (size a n : Nat)
    (h : a + n ≤ 38400) : Laid (relS es seen size) a n :=
  laid_of _ 300 a n rfl (by rfl) he (by decide) h
    (List.all_eq_true.2 fun _ hk => List.find?_isSome.2 ⟨_, List.mem_map_of_mem hk, by simp⟩)

/-- The lowest free entry of the pool is the first of extent 1. -/
theorem due_free (a b : Nat) (h : a < 8192 ∧ b < 8 ∧ ((dueS true).extent 0 (a / 32)).cls = .pool) : 32 < a ∨ (32 = a ∧ 0 ≤ b) := by
  have hk : ∀ k < 256, ((dueS true).extent 0 k).cls = .pool → k = 1 := by decide +kernel
  have := hk (a / 32) (by omega) h.2.2
  omega

theorem none_free (a : Nat) (h : a < 8192) : ((dueS false).extent 0 (a / 32)).cls ≠ .pool := by
  have hk : ∀ k < 256, ((dueS false).extent 0 k).cls ≠ .pool := by decide +kernel
  exact hk _ (by omega)

/-- Nothing of stack 1 is visited by the scrubber. -/
theorem none_visited (q : Nat) (h : q < 8192 * 4096) : (sg.extent 1 (q / 131072)).cls ≠ .D ∧ (sg.extent 1 (q / 131072)).cls ≠ .P := by
  have hk : ∀ k < 256, (sg.extent 1 k).cls ≠ .D ∧ (sg.extent 1 k).cls ≠ .P := by decide +kernel
  exact hk _ (by omega)

theorem witness_RowsAreScrubbedAndStrengthened :
    sg.Canonical ∧ (banked sg .bank).Canonical ∧ (dueS true).Canonical ∧ (dueS false).Canonical
    ∧ (relS relE true 4).Canonical ∧ (relS relBusy false 0).Canonical
    ∧ Code.P ≠ .N ∧ (List.replicate 64 (0 : Byte)).length = 64
    ∧ sg.rel.block.logSize = 0 ∧ sget 0 sg.rel.scrub 0 = 0 ∧ (sg.extent 0 (0 / 131072)).busy = false
    ∧ (sg.extent 0 (0 / 131072)).cls = .P ∧ sg.rowState row0 = .controller ∧ sg.strong? row0 = none
    ∧ (let s := { sg with drays := { sg.drays with drays := [(0, opening)] } }
       s.Canonical ∧ s.bankHeld row1 = true ∧ s.rowState row1 = .controller ∧ s.bankHeld row0 = false)
    ∧ (banked sg .bank).rowState row0 ≠ .controller ∧ sget 0 (banked sg .bank).rel.scrub 0 = 0
    ∧ ((banked sg .bank).extent 0 (0 / 131072)).cls = .P
    ∧ bankKey row0 ∈ (dueS true).rel.reinforcing ∧ (dueS true).rowCode row0 = .P
    ∧ (∀ q, q < 8192 * 4096 → (sg.extent 1 (q / 131072)).cls ≠ .D ∧ (sg.extent 1 (q / 131072)).cls ≠ .P)
    ∧ (∀ r ∈ sg.rel.skipped, r.stack ≠ 1)
    ∧ row0 ∉ sg.rel.due
    ∧ (∀ p ∈ [true, false], row0 ∈ (dueS p).rel.due ∧ (dueS p).rowState row0 = .controller ∧ (dueS p).rowCode row0 = .P
        ∧ bankKey row0 ∈ (dueS p).rel.reinforcing)
    ∧ ((dueS true).extent 0 (32 / 32) = ⟨.pool, false⟩ ∧ (dueS true).rel.strong = [])
    ∧ (∀ a b, a < 8192 ∧ b < 8 ∧ ((dueS true).extent 0 (a / 32)).cls = .pool → 32 < a ∨ (32 = a ∧ 0 ≤ b))
    ∧ (∀ a, a < 8192 → ((dueS false).extent 0 (a / 32)).cls ≠ .pool)
    ∧ bankKey row0 ∉ (dueS false).rel.capacity ∧ (dueS false).rel.block.logSize = 0
    ∧ (∀ e ∈ [0, 1], (relS relE true 0).xl.tb.slotList + 0x6000 + 256 * 0 + e = 24704 + e
        ∧ Watch.ext 0 e ∈ (relS relE true 0).mem.watch ∧ Watch.ext 0 e ∉ (relS relE false 0).mem.watch)
    ∧ Laid (relS relE true 0) 24704 1 ∧ Laid (relS relE true 0) 24705 1 ∧ Laid (relS relE false 0) 24704 1
    ∧ Laid (relS relBusy true 0) 24704 1 ∧ Laid (relS relBusy true 0) 24705 1
    ∧ (relS relE true 0).devNat 24704 1 % 4 = 0 ∧ (relS relE true 0).devNat 24705 1 % 4 = 1
    ∧ ((relS relE true 0).extent 0 0).cls = .P ∧ ((relS relE true 0).extent 0 1).cls = .N
    ∧ (∃ y ∈ (relS relE true 0).xl.slots, y.2.valid = true ∧ y.2.stack = 0 ∧ y.2.ext = 0)
    ∧ (∀ y ∈ (relS relE true 0).xl.slots, y.2.ext ≠ 1)
    ∧ (∀ k < 256, ((relS relE true 0).extent 0 k).busy = false) ∧ ((relS relBusy true 0).extent 0 1).busy = true
    ∧ (relS relBusy true 0).devNat 24704 1 % 4 = 0 ∧ ((relS relBusy true 0).extent 0 0).cls = .P
    ∧ (let s := relS relE true 4
       let rb := s.xl.tb.slotList + 0x7000
       rb = 28800 ∧ 0 < s.rel.block.logSize ∧ s.devNat (rb + 0x1C) 4 = 0 ∧ s.devNat (rb + 0x20) 4 = 0 ∧ s.rel.newest = none
       ∧ s.rel.block.logBase = 0
       ∧ ∀ i < 32, ∀ j < 64, s.decodeLocal (0 + i) true ≠ s.decodeLocal (28800 + j) true)
    ∧ Laid (relS relE true 4) 28800 64 ∧ Laid (relS relE true 4) 0 32 := by
  and_intros
  all_goals first
    | exact relS_laid relE rfl true 0 _ _ (by decide)
    | exact relS_laid relE rfl false 0 _ _ (by decide)
    | exact relS_laid relBusy rfl true 0 _ _ (by decide)
    | exact relS_laid relE rfl true 4 _ _ (by decide)
    | exact none_visited
    | exact due_free
    | exact none_free
    | decide +kernel

/-! Witnesses: the units' structures, the fabric, the host link. -/

/-- A written line of the translation block, of the slot list, of the reliability block; a context record, the fabric
block. -/
def unitS (ws : List Watch) : State :=
  let s := relS relE true 0
  { s with mem := { s.mem with
    watch := ws
    depot := (List.range 300).map fun k =>
      { line0 with line := ⟨0, 0, k⟩, bytes := lineOf (if k = 0 then List.replicate 0x50 0 ++ leBytes 8 128 else []) } } }

/-- The line of the slot list that holds entries 64 to 127 stands in no class window's entry there. -/
theorem slots_apart (i c j : Nat) (w : Window) (hi : 256 < (128 + 2 * i) + 2 ∧ 128 + 2 * i < 256 + 128) (hc : c < 3)
    (hw : (unitS [.block 2]).xl.tb.wins[c]? = some w) (hj : 256 < (128 + 2 * j) + 2 ∧ 128 + 2 * j < 256 + 128) :
    j ≠ 4096 * c + (128 + 2 * i - w.base) / (windowClass c).size := by
  have h : ∀ c < 3, ∀ w, (unitS [.block 2]).xl.tb.wins[c]? = some w → w.base = 0 := by
    intro c hc w hw
    interval_cases c <;> cases hw <;> rfl
  rw [h c hc w hw]
  have hd : (128 + 2 * i - 0) / (windowClass c).size = 0 := by
    interval_cases c <;> simp [windowClass, ExtClass.size] <;> omega
  rw [hd]
  omega

theorem witness_UnitsTakeUpTheirStructures :
    (unitS [.block 0]).Canonical ∧ (unitS []).Canonical ∧ (unitS [.block 2]).Canonical ∧ (unitS [.ctx 0 true true, .fabric]).Canonical
    ∧ (∀ x ∈ [0, 2, 225], Watch.block x ∈ (unitS [.block x]).mem.watch ∧ Watch.block x ∉ (unitS []).mem.watch
        ∧ (unitS [.block x]).sup.ctxTab.toNat = 0 ∧ (unitS [.block x]).xl.tb.slotList = 128)
    ∧ ((unitS [.block 0]).devRead 0 256).2 = false ∧ leNat ((((unitS [.block 0]).devRead 0 256).1.drop 0x50).take 8) = 128
    ∧ (128 * 0 < 0 + 256 ∧ 0 < 128 * 0 + 128 ∧ ¬ 128 < 128 * 0 + 128)
    ∧ (¬ 128 * 2 < 0 + 256 ∧ 128 * 2 < 128 + 0x6000 ∧ 128 < 128 * 2 + 128 ∧ ¬ 128 + 0x7000 < 128 * 2 + 128)
    ∧ (∀ i < 12288, (256 < (128 + 2 * i) + 2 ∧ 128 + 2 * i < 256 + 128) → ∀ c < 3, ∀ w,
        (unitS [.block 2]).xl.tb.wins[c]? = some w → ∀ j < 12288, (256 < (128 + 2 * j) + 2 ∧ 128 + 2 * j < 256 + 128) →
        j ≠ 4096 * c + (128 + 2 * i - w.base) / (windowClass c).size)
    ∧ (¬ 128 * 225 < 0 + 256 ∧ ¬ 128 * 225 < 128 + 0x6000 ∧ 128 * 225 < 128 + 0x7000 + 64 ∧ 128 + 0x7000 < 128 * 225 + 128)
    ∧ ((unitS [.block 225]).devRead (128 + 0x7000) 64).2 = false
    ∧ ((unitS [.ctx 0 true true, .fabric]).devRead 256 256).2 = false
    ∧ (unitS [.ctx 0 true true, .fabric]).mem.watch = [.ctx 0 true true, .fabric]
    ∧ (∀ g ∈ (unitS [.ctx 0 true true, .fabric]).groups, g.frameWait = false)
    ∧ (∀ t ∈ (unitS [.ctx 0 true true, .fabric]).teams, t.frameWait = false)
    ∧ ((unitS [.ctx 0 true true, .fabric]).devRead (128 + 0x7800) 2048).2 = false
    ∧ (∀ x ∈ [0, 2, 225], Readable (unitS [.block x]) (128 * x) 128)
    ∧ Readable (unitS [.ctx 0 true true, .fabric]) 256 256 ∧ Readable (unitS [.ctx 0 true true, .fabric]) (128 + 0x7800) 2048
    ∧ (let s := { banked (unitS [.block 0]) .bank with mem := { (banked (unitS [.block 0]) .bank).mem with depot := [] } }
       Watch.block 0 ∈ s.mem.watch ∧ s.devAway 0 128 = true ∧ s.Canonical)
    ∧ Watch.fabric ∉ (unitS []).mem.watch ∧ (3850 < 3851 ∧ 3599 < 3600) ∧ (255 < 256 ∧ 256 ≤ 256) := by
  and_intros
  all_goals first
    | exact fun i _ hi c hc w hw j _ hj => slots_apart i c j w hi hc hw hj
    | exact fun x hx => readable_of _ rfl _ _ (by revert x; decide +kernel)
    | exact readable_of _ rfl _ _ (by decide +kernel)
    | decide +kernel

def fabS (fs : List FabReq) (fl : List FilterEntry) : State :=
  { sg with
    yuren := { sg.yuren with ready := true }
    fab := { sg.fab with out := fs, filter := fl, porten := 1, route := [(3, 1)], ports := [⟨64, false, 0⟩] } }
def noRoute (f : FabReq) : State :=
  let s := fabS [f] []
  { s with ltick := 2000000, fab := { s.fab with route := [] } }
def inb (op : InboundOp) : Inbound := ⟨2, 1000, 0, 0, 4, false, 0, op⟩
def classN (s : State) : State := { s with rel := { s.rel with ext := [] } }
def loadReq : Req := { req0 with kind := .load false 4, reg := 2, place := .peer 3 0 false, bytes := [], tags := [] }
def storeReq : Req := { req0 with place := .peer 3 0 false }
def cpyFar : Op := { opk (.cpy true desc1 0 [0, 0] none) with left := 1 }
/-- The context's queue of late faults is at 256, with two entries. -/
def queueS (f : FabReq) : State :=
  let s := withReq (fabS [f] []) storeReq
  { s with
    ctxs := [(0, { emptyCtx with lateQ := 256 })]
    mem := { s.mem with depot := (List.range 300).map fun k =>
      { line0 with line := ⟨0, 0, k⟩, bytes := lineOf (if k = 2 then leBytes 8 0 ++ [2] else []) } } }
def port0 : Port := ⟨64, false, 0⟩

theorem queueS_laid (f : FabReq) (a n : Nat) (h : a + n ≤ 38400) : Laid (queueS f) a n :=
  laid_of _ 300 a n rfl (by rfl) (by rfl) (by decide) h
    (List.all_eq_true.2 fun _ hk => List.find?_isSome.2 ⟨_, List.mem_map_of_mem hk, by simp⟩)

theorem witness_FabricAndHostAreServed :
    (fabS [] []).Canonical ∧ (fabS [] []).rel.block.logSize = 0 ∧ (noRoute (fr (.req 7) false)).Canonical
    ∧ (classN (fabS [] [])).Canonical ∧ (queueS (fr (.req 7) false)).Canonical ∧ (withReq (fabS [fr (.req 7) true] []) loadReq).Canonical
    ∧ sg.yuren.ready = false ∧ sg.Canonical
    ∧ (fabS [] []).yuren.ready = true ∧ (inb .other).fabgen = (fabS [] []).fab.fabgen
    ∧ (fabS [] []).filterEntry 2 1000 = none ∧ (fabS [] []).tooOld 2 1000 = false ∧ (fabS [] []).disp.serials = []
    ∧ (∀ a ∈ [some PeerAnswer.stale, none], (fabS [] [⟨2, 1000, a, none⟩]).filterEntry 2 1000 = some ⟨2, 1000, a, none⟩)
    ∧ ((fabS [] [⟨2, 1300, none, none⟩]).filterEntry 2 1000 = none ∧ (fabS [] [⟨2, 1300, none, none⟩]).tooOld 2 1000 = true)
    ∧ (fabS [] []).decodeLocal (2 ^ 40) false = .absent
    ∧ (fabS [] []).decodeLocal (inb (.read 8 none)).off false = .ok 0 0 4 ∧ (fabS [] []).line? ⟨0, 0, 0⟩ = some line0
    ∧ line0.bytes.length = 128 ∧ line0.marks0 = [] ∧ line0.marks1 = [] ∧ 4 % 128 + 8 ≤ 128
    ∧ ((fabS [] []).extent 0 0).cls = .P ∧ ((classN (fabS [] [])).extent 0 0).cls = .N
    ∧ (classN (fabS [] [])).decodeLocal 4 false = .ok 0 0 4 ∧ (classN (fabS [] [])).line? ⟨0, 0, 0⟩ = some line0
    ∧ (classN (fabS [] [])).filterEntry 2 1000 = none ∧ (classN (fabS [] [])).yuren.ready = true
    ∧ Open (fabS [] []) ⟨0, 0, 0⟩ line0 ∧ Open (classN (fabS [] [])) ⟨0, 0, 0⟩ line0
    ∧ (∀ s ∈ [fabS [] [], classN (fabS [] [])], Writable s ⟨0, 0, 0⟩ 4 [1, 2, 3, 4] ∧ Writable s ⟨0, 0, 0⟩ 124 [1, 2, 3, 4]
        ∧ s.mem.held = [])
    ∧ (∀ r ∈ [loadReq, storeReq], (withReq (fabS [fr (.req 7) false] []) r).fabReq? 3 9 = some (fr (.req 7) false)
        ∧ (withReq (fabS [fr (.req 7) false] []) r).req? 7 = some r)
    ∧ loadReq.kind = .load false 4 ∧ loadReq.size = 4 ∧ loadReq.replays ≤ 8 ∧ loadReq.lane < 32 ∧ grp.Canonical
    ∧ (withReq (fabS [fr (.req 7) false] []) loadReq).group? loadReq.gid = some grp ∧ grp.ended = false ∧ grp.frame = none
    ∧ (∀ i < (4 + 3) / 4, regHeld grp (.v (loadReq.reg + i)) = true) ∧ grp.regGen loadReq.reg = loadReq.gen
    ∧ storeReq.kind = .store ∧ (queueS (fr (.req 7) false)).fabReq? 3 9 = some (fr (.req 7) false)
    ∧ (queueS (fr (.req 7) false)).req? 7 = some storeReq
    ∧ ((queueS (fr (.req 7) false)).ctx storeReq.ctx).lateQ = 256
    ∧ (queueS (fr (.req 7) false)).devNat 256 4 = 0 ∧ (queueS (fr (.req 7) false)).devNat (256 + 4) 4 = 0
    ∧ (queueS (fr (.req 7) false)).devNat (256 + 8) 4 = 2
    ∧ Laid (queueS (fr (.req 7) false)) 256 16 ∧ Laid (queueS (fr (.req 7) false)) (256 + 0x40 + 32 * (0 % 2)) 32
    ∧ (∀ i < 32, ∀ j < 16, (queueS (fr (.req 7) false)).decodeLocal (320 + i) true
        ≠ (queueS (fr (.req 7) false)).decodeLocal (256 + j) true)
    ∧ (let f := fr (.op 7 0 0) false
       (withOps (fabS [f] []) [cpyFar]).Canonical ∧ (withOps (fabS [f] []) [cpyFar]).fabReq? 3 9 = some f
       ∧ (withOps (fabS [f] []) [cpyFar]).op? 7 = some cpyFar)
    ∧ (let f := { fr (.op 7 0 0) false with noRoute := some 100, port := none }
       (withOps (noRoute f) [cpyFar]).Canonical ∧ (withOps (noRoute f) [cpyFar]).fabReq? 3 9 = some f
       ∧ (withOps (noRoute f) [cpyFar]).routePorts 3 = [] ∧ 100 + 1000000 ≤ (withOps (noRoute f) [cpyFar]).ltick
       ∧ (withOps (noRoute f) [cpyFar]).op? 7 = some cpyFar)
    ∧ (let s := { fabS [fr (.req 7) false] [] with fab := { (fabS [fr (.req 7) false] []).fab with ports := [⟨64, true, 0⟩] } }
       s.Canonical ∧ s.fabReq? 3 9 = some (fr (.req 7) false) ∧ s.routePorts 3 = [] ∧ s.fab.ports[0]? = some ⟨64, true, 0⟩)
    ∧ (let f := { fr (.req 7) false with port := none, noRoute := some 100 }
       (fabS [f] []).fabReq? 3 9 = some f ∧ (fabS [f] []).routePorts 3 = [0] ∧ (fabS [f] []).Canonical)
    ∧ ((fabS [fr (.req 7) false] []).routePorts 3 = [0] ∧ (fabS [fr (.req 7) false] []).ltick < 100 + 50000)
    ∧ (let s := { fabS [fr (.req 7) false] [] with ltick := 50100 }
       s.fabReq? 3 9 = some (fr (.req 7) false) ∧ s.routePorts 3 ≠ [] ∧ (fr (.req 7) false).sent + 50000 ≤ s.ltick)
    ∧ (let s := { fabS [fr (.req 7) true] [] with ltick := 1100 }
       s.fabReq? 3 9 = some (fr (.req 7) true) ∧ (fr (.req 7) true).retry = true
       ∧ (fr (.req 7) true).sent + 1000 * 2 ^ min (fr (.req 7) true).tries 6 ≤ s.ltick ∧ ∀ id, (fr (.req 7) true).work ≠ .walk id)
    ∧ (∀ p ∈ [port0, ⟨64, false, 8⟩, ⟨64, true, 0⟩],
        ({ fabS [] [] with fab := { (fabS [] []).fab with ports := [p] } } : State).fab.ports[0]? = some p)
    ∧ (let r := { req0 with core := 64 }
       (∀ n ∈ [0, 8], (withReq sg { r with replays := n }).req? 7 = some { r with replays := n }) ∧ r.place = .line ⟨0, 0, 0⟩ 124
       ∧ homeSlice ⟨0, 0, 0⟩ / 64 ≠ r.core / 64 ∧ r.accepted = false)
    ∧ (fabS [] []).xl.tb.hdmBase = 0 ∧ 124 % 128 + 4 ≤ 128
    ∧ (fabS [] []).decodeLocal (124 - 0) false = .ok 0 0 124 ∧ (classN (fabS [] [])).decodeLocal (124 - 0) false = .ok 0 0 124
    ∧ (let s := { fabS [] [] with xl := { (fabS [] []).xl with slots := [(8192, ⟨true, true, 0, 0⟩)] } }
       s.yuren.ready = true ∧ s.decodeLocal 124 false = .changing)
    ∧ (let s := { sg with mem := { sg.mem with snoops := [⟨0, 0, 0⟩] } }
       (⟨0, 0, 0⟩ : LineId) ∈ s.mem.snoops) := by
  and_intros
  all_goals first
    | exact queueS_laid _ _ _ (by decide)
    | decide +kernel
    | exact fun _ h => nomatch h

/-! Witnesses: the Dispatcher. -/

/-- The machine at an issue of lane 0, with lines of the depot that begin with the given bytes; the context table is at
8192, the PASID table at 8960. -/
def bookS (fs : List (Nat × List Byte)) (d : Grid) (rs : List Req) : State :=
  let s := onPage (at_ 1 grp)
  { s with
    ctxs := [(0, ctxF)], sup := { s.sup with ctxTab := 8192 }, eng := { s.eng with reqs := rs }
    xl := { s.xl with tb := { bootBlock with pasidTab := 8960, pasidCount := 1 } }
    disp := { s.disp with grids := [d] }
    mem := { s.mem with
      watch := [.post 0]
      depot := (List.range 300).map fun k =>
        { line0 with line := ⟨0, 0, k⟩, bytes := lineOf (((fs.find? fun x => x.1 = k).map (·.2)).getD []) } } }
theorem bookS_laid (fs : List (Nat × List Byte)) (d : Grid) (rs : List Req) (a n : Nat) (h : a + n ≤ 38400) :
    Laid (bookS fs d rs) a n :=
  laid_of _ 300 a n rfl (by rfl) (by rfl) (by decide) h
    (List.all_eq_true.2 fun _ hk => List.find?_isSome.2 ⟨_, List.mem_map_of_mem hk, by simp⟩)

/-- A task record whose kernel record is at 256; kernel records that fit a core and that do not. -/
def taskRec : List Byte := leBytes 8 256 ++ leBytes 4 1
def bigRec : List Byte := leBytes 8 0 ++ leBytes 8 1 ++ leBytes 4 393984
def posted (st : Nat) : List Byte := taskRec ++ [2, 0, BitVec.ofNat 8 st]
def ctxRec : List Byte := leBytes 7 0 ++ [0x80]
def pasidRec : List Byte := leBytes 9 0 ++ [3]
def post (k : List Byte) (st : Nat) (rec_ : List Byte) : State :=
  bookS [(0, posted st), (2, k), (66, rec_), (70, pasidRec)] task []
def recReq (b : List Byte) : Req :=
  { req0 with lane := 0, kind := .record, size := 128, bytes := lineOf b, tags := List.replicate 128 false, accepted := true }
def gridW : EForm := { ez with e1 := 2 }
def deep : Grid := { task with depth := 10 }
def fullTable (s : State) : State := { s with disp := { s.disp with grids := List.replicate 4096 task } }
def grpAt (x : Nat) : Group := { grp with s := [(0, ⟨BitVec.ofNat 32 x, false⟩)] }

theorem fullTable_count (s : State) : 4096 ≤ (fullTable s).disp.grids.countP fun d => !d.retired && d.sup.isNone := by
  show 4096 ≤ (List.replicate 4096 task).countP _
  rw [List.countP_replicate]
  decide
theorem fullTable_canonical (s : State) (h : s.Canonical) : (fullTable s).Canonical := by
  obtain ⟨h1, h2, h3, h4, h5, h6, h7, h8, h9, h10, h11, h12, h13, h14, h15, h16, h17, h18, -, h20⟩ := h
  exact ⟨h1, h2, h3, h4, h5, h6, h7, h8, h9, h10, h11, h12, h13, h14, h15, h16, h17, h18,
    fun d hd => by rw [List.eq_of_mem_replicate hd]; decide, h20⟩

def kernelIs (p : Kernel → Bool) : KernelRead → Bool
  | .ok k => p k
  | _ => false
def isBad : KernelRead → Bool
  | .bad _ => true
  | _ => false
theorem kernel_is (r : KernelRead) (P : Kernel → Prop) [DecidablePred P] (h : kernelIs (fun k => decide (P k)) r = true) :
    ∃ k, r = .ok k ∧ P k := by
  cases r with
  | ok k => exact ⟨k, rfl, of_decide_eq_true h⟩
  | wait _ => exact Bool.noConfusion h
  | bad _ => exact Bool.noConfusion h
theorem is_bad (r : KernelRead) (h : isBad r = true) : ∃ u, r = .bad u := by
  cases r with
  | bad u => exact ⟨u, rfl⟩
  | ok _ => exact Bool.noConfusion h
  | wait _ => exact Bool.noConfusion h

def isWait : KernelRead → Bool
  | .wait _ => true
  | _ => false
theorem is_wait (r : KernelRead) (h : isWait r = true) : ∃ u, r = .wait u := by
  cases r with
  | wait u => exact ⟨u, rfl⟩
  | ok _ => exact Bool.noConfusion h
  | bad _ => exact Bool.noConfusion h

/-- No page is translated, so that a read first waits for a walk; the first line tagged; rows that the bank owns. -/
def far (s : State) : State := { s with xl := { s.xl with tlb := [], walks := [walk0 (.op 7)] } }
def tagged (s : State) : State := { s with mem := { s.mem with depot := { line0 with bytes := lineOf (posted 0xFF), poison := 1 } :: s.mem.depot.tail } }
def away (s : State) : State := { s with mem := { s.mem with depot := [], rows := [(row0, .bank)] } }

theorem witness_TasksAreAccepted : (fullTable (bookS [] task [])).Canonical ∧
    (bookS [] task []).Canonical ∧ (bookS [(2, bigRec)] task [recReq taskRec]).Canonical ∧ (post recLine 0xFF ctxRec).Canonical
    ∧ recLine.length = 128 ∧ KernelLegal 256 recLine ∧ (lineOf []).length = 128 ∧ ¬ KernelLegal 256 (lineOf [])
    ∧ (bookS [] task []).grid? grp.grid = some task
    ∧ (GoesAhead (.grid gridW) gz (bookS [] task []) grp ∧ activeOf grp (bookS [] task []).cur gz = 1 ∧ grp.groupId = 0
        ∧ ∀ n < 64, RegName.s n ∈ (Instr.grid gridW).reads → (rdS grp n).tag = false)
    ∧ (GoesAhead (.grid gridW) gz sg grp ∧ activeOf grp sg.cur gz ≠ 0 ∧ activeOf grp sg.cur gz ≠ 1 ∧ sg.grid? grp.grid = some task
        ∧ grp.trap = none)
    ∧ (4096 ≤ (fullTable (bookS [] task [])).disp.grids.countP fun d => !d.retired && d.sup.isNone)
    ∧ GoesAhead (.grid gridW) gz (fullTable (bookS [] task [])) grp
    ∧ (bookS [] task []).disp.grids.length = 1
    ∧ uniPair (grpAt 1) 0 % 128 ≠ 0
    ∧ (let s := onPage (at_ 1 (grpAt 1))
       GoesAhead (.grid gridW) gz s (grpAt 1) ∧ s.grid? 3 = some task ∧ s.Canonical)
    ∧ uniPair grp gridW.e2 = 0
    ∧ (∃ x, (bookS [] task []).resolveAll grp .read false (fun _ => 0) [0] = .ok [x])
    ∧ (∀ b ∈ [taskRec, []], ∀ l ∈ [[], recLine], (bookS [(2, l)] task [recReq b]).req? 7 = some (recReq b)
        ∧ (recReq b).accepted = true ∧ (recReq b).kind = .record ∧ (recReq b).gid = 1 ∧ (recReq b).reg + 1 < 64
        ∧ (bookS [(2, l)] task [recReq b]).group? 1 = some grp
        ∧ (bookS [(2, l)] task [recReq b]).performed 1 (recReq b).lane (recReq b).seq .d = true
        ∧ (bookS [(2, l)] task [recReq b]).earlier (recReq b) = [])
    ∧ grp.Canonical ∧ grp.ended = false ∧ grp.frame = none
    ∧ (let s := bookS [(2, recLine)] task [{ req0 with id := 6, lane := 0 }, { recReq taskRec with seq := 1 }]
       s.Canonical ∧ s.req? 7 = some { recReq taskRec with seq := 1 } ∧ s.performed 1 0 1 .d = false)
    ∧ 10 ≤ deep.depth ∧ (bookS [(2, recLine)] deep [recReq taskRec]).grid? 3 = some deep ∧ task.depth < 10
    ∧ TaskLegal (lineOf taskRec) 1 ∧ Machine.fieldOf (lineOf taskRec) 0x0E 2 = 0 ∧ true ∉ (recReq taskRec).tags
    ∧ ¬ TaskLegal (lineOf []) 1 ∧ Machine.fieldOf (lineOf taskRec) 0 8 = 256
    ∧ (∃ k, (bookS [(2, recLine)] task [recReq taskRec]).readKernel 0 0 256 true = .ok k ∧ FitsEmpty k)
    ∧ (∃ k, (bookS [(2, bigRec)] task [recReq taskRec]).readKernel 0 0 256 true = .ok k ∧ ¬ FitsEmpty k)
    ∧ (post recLine 0xFF ctxRec).mem.watch = [.post 0] ∧ ((post recLine 0xFF ctxRec).ctx 0).frameArea = 0
    ∧ (post recLine 0xFF ctxRec).devNat 0x0E 1 = 0xFF ∧ (post recLine 0 ctxRec).devNat 0x0E 1 = 0
    ∧ Watch.post 0 ∉ sg.mem.watch
    ∧ (post recLine 0xFF ctxRec).devNat 0x0D 1 = Machine.fieldOf ((post recLine 0xFF ctxRec).devRead 0 128).1 0x0D 1
    ∧ Laid (post recLine 0xFF ctxRec) 0x0E 1 ∧ Laid (post bigRec 0xFF ctxRec) 0x0E 1 ∧ Laid (post recLine 0xFF []) 0x0E 1
    ∧ natBit (Machine.fieldOf ((post recLine 0xFF []).devRead (8192 + 256) 256).1 4 4) 31 = false
    ∧ (post recLine 0xFF ctxRec).contextBad 0 = false ∧ (post bigRec 0xFF ctxRec).contextBad 0 = false
    ∧ (post recLine 0xFF ctxRec).devNat 0x0D 1 ≤ 1 ∧ Machine.fieldOf ((post recLine 0xFF ctxRec).devRead 0 128).1 0x0F 1 = 0
    ∧ TaskLegal ((post recLine 0xFF ctxRec).devRead 0 128).1 7
    ∧ (∃ k, (post recLine 0xFF ctxRec).readKernel 0 0 256 true = .ok k ∧ FitsEmpty k)
    ∧ (∃ k, (post bigRec 0xFF ctxRec).readKernel 0 0 256 true = .ok k ∧ ¬ FitsEmpty k)
    ∧ (∃ u, (post [] 0xFF ctxRec).readKernel 0 0 256 true = .bad u) ∧ (post [] 0xFF ctxRec).contextBad 0 = false
    ∧ (∃ u, (bookS [] task [recReq taskRec]).readKernel 0 0 256 true = .bad u)
    ∧ (∃ u, (far (bookS [(2, recLine)] task [recReq taskRec])).readKernel 0 0 256 true = .wait u)
    ∧ (far (bookS [(2, recLine)] task [recReq taskRec])).req? 7 = some (recReq taskRec)
    ∧ (post recLine 0xFF ctxRec).mem.depot.all (fun x => x.poison = 0) = true ∧ ((post recLine 0xFF ctxRec).devRead 0 128).2 = false
    ∧ ((tagged (post recLine 0xFF ctxRec)).devRead 0 128).2 = true ∧ (tagged (post recLine 0xFF ctxRec)).contextBad 0 = false
    ∧ (tagged (post recLine 0xFF ctxRec)).devNat 0x0E 1 = 0xFF
    ∧ (∀ s ∈ [post recLine 0xFF ctxRec, post bigRec 0xFF ctxRec, post recLine 0xFF [], post [] 0xFF ctxRec,
        tagged (post recLine 0xFF ctxRec)], Readable s 0 128 ∧ Readable s 8448 256)
    ∧ ((away (post recLine 0xFF ctxRec)).devAway 0 128 = true ∧ (away (post recLine 0xFF ctxRec)).Canonical
        ∧ (away (post recLine 0xFF ctxRec)).mem.watch = [.post 0] ∧ ((away (post recLine 0xFF ctxRec)).ctx 0).frameArea = 0) := by
  refine ⟨fullTable_canonical _ (by decide +kernel), ?_⟩
  and_intros
  all_goals first
    | exact fullTable_count _
    | exact bookS_laid _ _ _ _ _ (by decide)
    | exact kernel_is _ _ (by decide +kernel)
    | exact is_bad _ (by decide +kernel)
    | exact is_wait _ (by decide +kernel)
    | exact fun s hs => ⟨readable_of s (by revert s; decide +kernel) _ _ (by revert s; decide +kernel),
        readable_of s (by revert s; decide +kernel) _ _ (by revert s; decide +kernel)⟩
    | decide +kernel
    | exact ⟨⟨0, 0, .line ⟨0, 0, 0⟩ 0, some .P, false, 0⟩, by decide +kernel⟩

/-! Witnesses: teams and grids. -/

def newTask : Grid := { task with nextTeam := 0 }
def cand : Cand := ⟨newTask, 0, none⟩
/-- Core 0 alone is eligible. -/
def oneCore : Cores := { State.reset.cores with elig := (List.range 255).map fun k => (k + 1, { Elig.reset with eligible := false }) }
/-- No team, and one grid whose only team waits. -/
def poolS (d : Grid) (ts : List Team) (ds : List Grid) (now : Nat) : State :=
  let s := bookS [] task []
  { s with ltick := now, groups := [], teams := ts, cores := oneCore
           mem := { s.mem with depot := [{ line0 with line := ⟨0, 0, 16⟩ }] }, disp := { s.disp with grids := ds ++ [d] } }
/-- A kernel that no core takes, of class 1, and the low task whose team is on core 0. -/
def big : Grid := { newTask with id := 4, root := 4, cls := 1, kernel := { kern with spbytes := 393984 } }
def bigCand : Cand := ⟨big, 0, none⟩
def low : Grid := { task with cls := 3 }
def retiredTask : Grid := { task with retired := true, done := 4 }
def doneS : State := { bookS [] retiredTask [] with cur := { Cur.none with grid := 3 } }
def endedTeam : Team := { team with state := .ended }
def goneG : Group := { grp with ended := true }
def retireS (tm : Team) : State := { poolS { task with done := 4 } [tm] [] 9 with cur := { Cur.none with team := 2, grid := 3 }, groups := [goneG] }
def replayX : Serial := { root := 3, ctx := 0, mode := .replay, turn := 0, count := 0, head := 0, full := false, grids := [] }
def replayS : State :=
  let s := bookS [] task []
  { s with disp := { s.disp with serials := [replayX] } }

theorem witness_TeamsArePlacedAndRetire :
    (poolS newTask [] [] 0).Canonical ∧ (poolS big [team] [low] 2000000).Canonical ∧ doneS.Canonical ∧ replayS.Canonical
    ∧ (retireS endedTeam).Canonical ∧ sg.Canonical
    ∧ (poolS newTask [] [] 0).pool = [cand] ∧ cand.grid.cls ≠ 0 ∧ cand.grid.mode ≠ .replay ∧ cand.team = none
    ∧ (poolS newTask [] [] 0).chooseCore cand = some 0 ∧ (poolS newTask [] [] 0).serialOf cand.grid.id = none
    ∧ (poolS newTask [] [] 0).fits cand.grid.kernel 0 = some ([[0], [], [], []], 0)
    ∧ ((poolS newTask [] [] 0).pool.find? fun x => ((poolS newTask [] [] 0).chooseCore x).isSome) = some cand
    ∧ sg.team? 2 = some team ∧ sg.cur.team = 2
    ∧ (poolS big [team] [low] 2000000).pool = [bigCand] ∧ (poolS big [team] [low] 2000000).chooseCore bigCand = none
    ∧ bigCand.grid.readyAt + 1000000 ≤ (poolS big [team] [low] 2000000).ltick
    ∧ (poolS big [team] [low] 2000000).disp.resv = []
    ∧ (∀ k < 256, (((poolS big [team] [low] 2000000).elig k).eligible = true ↔ k = 0))
    ∧ (poolS big [team] [low] 2000000).reserved 0 = false
    ∧ bigCand.grid.cls = 1 ∧ (poolS big [team] [low] 2000000).config 0x28 4 = 0 ∧ 0 + 1000 * 200 ≤ 2000000
    ∧ (poolS big [team] [low] 2000000).disp.preempts = []
    ∧ (∀ tm ∈ (poolS big [team] [low] 2000000).teams, tm.waitFor ≠ some (bigCand.grid.id, bigCand.teamId) ∧ tm.core = 0
        ∧ tm.state = .running ∧ (poolS big [team] [low] 2000000).grid? tm.grid = some low)
    ∧ team ∈ (poolS big [team] [low] 2000000).teams ∧ bigCand.grid.cls < low.cls
    ∧ sg.group? 1 = some grp ∧ grp.ended = false ∧ 1 ∈ team.groups
    ∧ (retireS team).team? (retireS team).cur.team = some team ∧ team.state ≠ .ended
    ∧ (∀ k ∈ team.groups, ∀ g ∈ (retireS team).groups, g.ended = true) ∧ (retireS team).eng = ⟨[], []⟩
    ∧ sg.grid? 3 = some task ∧ (retireS endedTeam).grid? (retireS endedTeam).cur.grid = some { task with done := 4 }
    ∧ task.retired = false ∧ task.nextTeam = task.teams ∧ (∀ tm ∈ (retireS endedTeam).teams, tm.grid = 3 → tm.state = .ended)
    ∧ (∀ e ∈ (retireS endedTeam).disp.grids, e.parent ≠ some 3) ∧ (retireS endedTeam).mem.held = []
    ∧ (retireS endedTeam).eng = ⟨[], []⟩ ∧ (retireS endedTeam).disp.serials = []
    ∧ doneS.grid? doneS.cur.grid = some retiredTask ∧ retiredTask.retired = true ∧ canonical retiredTask.done = true
    ∧ doneS.translate 0 (doneS.ctx retiredTask.ctx).pasid retiredTask.done .write = .hit 4 false 0
    ∧ doneS.placeOf 4 false true = .at (.line ⟨0, 0, 0⟩ 4) (some .P) ∧ Open doneS ⟨0, 0, 0⟩ line0 ∧ 4 + 4 ≤ 128
    ∧ (poolS newTask [] [] 0).sup.late = [] ∧ Writable doneS ⟨0, 0, 0⟩ 4 (leBytes 4 0)
    ∧ doneS.eng.reqs = []
    ∧ (let s := bookS [] task []
       let x := { replayX with count := 1 }
       let t := { s with disp := { s.disp with serials := [x] }, mem := { s.mem with depot := (List.range 300).map fun k =>
         { line0 with line := ⟨0, 0, k⟩, bytes := lineOf (if k = 1 then leBytes 8 8192 ++ leBytes 8 0 ++ leBytes 8 32 else if k = 64 then [logEnd] else []) } } }
       t.Canonical ∧ (t.logNext x).any (fun e => e.type = logEnd && decide (e.count < 1)) = true)
    ∧ replayS.disp.serials.find? (fun y => y.root = 3 && y.mode = .replay) = some replayX ∧ replayS.logNext replayX = none
    ∧ Laid replayS (0 + 0x80 + 0x1C) 4 := by
  and_intros
  all_goals first
    | decide +kernel
    | exact laid_of _ 300 _ _ rfl (by rfl) (by rfl) (by decide) (by decide)
        (List.all_eq_true.2 fun _ hk => List.find?_isSome.2 ⟨_, List.mem_map_of_mem hk, by simp⟩)

/-! Witnesses: the issue stage. -/

/-- A group whose first `n` lanes stand at the next word. -/
def splitG (n : Nat) : Group := withLanes fun L ln => if L < n then { ln with pc := 0x408 } else ln
/-- Two words at 0x400 and 0x408 of the group's core. -/
def issueS (g : Group) (a b : Instr) : State := fetching (onPage (at_ 0 g)) [(encode a).toNat, (encode b).toNat] 0
def cyc (s : State) : State := s.onSide 0 fun d => { d with cycle := d.cycle + 1 }
def addW : Instr := .add { rz with d := 1, a := 4, b := 5 }
def faddW : Instr := .fadd { rf with d := 2, a := 6, b := 7 }

def pk (pc : BitVec 64) (lanes : Word) (i : Instr) : Pick := ⟨pc, lanes, lanes, .word i⟩
def low16 : Word := 0xFFFF
def high16 : Word := 0xFFFF0000
def picksOf (n : Nat) (b : Instr) : List Pick := (cyc (issueS (splitG n) addW b)).readyPaths (splitG n)
def side0 : Side := { Side.reset with cycle := 1 }

theorem clashes (a b : BitVec 64) (m n : Word) : clash side0 (pk a m addW) (pk b n addW) := by
  refine .inr (.inl ?_)
  unfold pipesTake
  simp only [pk]
  decide +kernel

theorem no_clash : ¬ clash side0 (pk 0x400 high16 addW) (pk 0x408 low16 faddW) := by
  have ha : addW.reads = [.v 4, .v 5] := by decide +kernel
  have hf : faddW.reads = [.v 6, .v 7] := by decide +kernel
  have reads : ∀ r, (∃ i, (pk 0x400 high16 addW).word.instr? = some i ∧ RegName.v r ∈ i.reads)
      ∨ (∃ i, (pk 0x408 low16 faddW).word.instr? = some i ∧ RegName.v r ∈ i.reads) → 4 ≤ r ∧ r ≤ 7 := by
    rintro r (⟨i, hi, h⟩ | ⟨i, hi, h⟩) <;> cases hi
    · rw [ha] at h; simp at h; omega
    · rw [hf] at h; simp at h; omega
  rintro (⟨r, k, hrk, hm, h1, h2⟩ | h | ⟨i, hi, h⟩ | ⟨i, hi, h⟩)
  · have := reads r h1
    have := reads k h2
    omega
  · refine h ?_
    unfold pipesTake
    decide +kernel
  · cases hi
    exact absurd h (by decide +kernel)
  · cases hi
    exact absurd h (by decide +kernel)

/-- As `splitG 10`, where the smaller path has been passed over 40 times. -/
def passedG : Group := withLanes fun L ln => if L < 10 then { ln with pc := 0x408, passed := 40 } else ln
/-- A group of which predicate 1 is poisoned in lane 3. -/
def poisonedP : Group := { grp with p := [(1, ⟨8, 8⟩)] }
def g1 : Guard := ⟨1, false⟩

theorem witness_IssueTakesReadyPathsAndTurnsBackWords :
    (issueS grp addW addW).Canonical ∧ (issueS (splitG 16) addW faddW).Canonical ∧ sg.Canonical ∧ (at_ all32 poisonedP).Canonical
    ∧ (issueS grp addW addW).readyPaths grp = [pk 0x400 all32 addW]
    ∧ (∀ n ∈ [10, 16], ∀ s ∈ [issueS (splitG n) addW addW, issueS (splitG n) addW faddW], s.disp.serials = []
        ∧ s.groups = [splitG n] ∧ s.group? 1 = some (splitG n) ∧ (splitG n).frame = none ∧ (splitG n).outrider = none
        ∧ ((cyc s).side 0).carried = none ∧ ((cyc s).side 0).hold < ((cyc s).side 0).cycle
        ∧ s.xl.invals = [] ∧ (splitG n).peerMarks = [] ∧ (splitG n).lanes.all (fun ln => ln.wait = .none) = true)
    ∧ (∀ h ∈ [HaltState.window 5, .halting .step], let g := { grp with halt := h, stepFrame := some 4096 }
       ((issueS g addW addW).readyPaths g).map (·.pc) = [0x400])
    ∧ ((cyc sg).side 0 = side0 ∧ sg.groups = [grp] ∧ (cyc sg).readyPaths grp = [])
    ∧ 4 * grp.core + grp.side = 0 ∧ grp.ended = false ∧ sg.team? grp.team = some team ∧ team.state = .running
    ∧ (cyc (issueS grp addW addW)).readyPaths grp = [pk 0x400 all32 addW]
    ∧ (cyc (issueS (splitG 16) addW faddW)).readyPaths (splitG 16) = [pk 0x400 high16 addW, pk 0x408 low16 faddW]
    ∧ (cyc (issueS (splitG 16) addW faddW)).side 0 = side0
    ∧ ¬ clash side0 (pk 0x400 high16 addW) (pk 0x408 low16 faddW)
    ∧ (cyc (issueS (splitG 16) addW addW)).readyPaths (splitG 16) = [pk 0x400 high16 addW, pk 0x408 low16 addW]
    ∧ clash side0 (pk 0x400 high16 addW) (pk 0x408 low16 addW)
    ∧ (cyc (issueS passedG addW addW)).readyPaths passedG = [pk 0x408 0x3FF addW, pk 0x400 0xFFFFFC00 addW]
    ∧ clash side0 (pk 0x408 0x3FF addW) (pk 0x400 0xFFFFFC00 addW)
    ∧ (List.range 32).countP (fun L => bitOf 0x3FF#32 L) < (List.range 32).countP (fun L => bitOf 0xFFFFFC00#32 L)
    ∧ (0x400 : BitVec 64).toNat < (0x408 : BitVec 64).toNat
    ∧ (List.range 32).countP (fun L => bitOf high16 L) = (List.range 32).countP (fun L => bitOf low16 L)
    ∧ (let i := Instr.add { rz with d := 200 }
       i.wf = true ∧ i.view.guard = some gz ∧ (i.writes ++ i.reads).find? (fun r => !regHeld grp r) = some (.v 200))
    ∧ s0.group? s0.cur.gid = some grp ∧ grp.Canonical ∧ grp.trap = none
    ∧ ((Instr.tzero rz).wf = true ∧ (Instr.tzero rz).view.guard = some gz ∧ collective (.tzero rz) = true
        ∧ (∀ r ∈ (Instr.tzero rz).writes ++ (Instr.tzero rz).reads, regHeld grp r = true)
        ∧ (at_ 1 grp).cur.lanes ≠ 0xFFFFFFFF#32 ∧ (at_ 1 grp).group? 1 = some grp)
    ∧ (let i := Instr.add { rz with g := g1 }
       i.wf = true ∧ i.view.guard = some g1 ∧ collective i = false ∧ checkedEarly i = false
       ∧ (∀ r ∈ i.writes ++ i.reads, regHeld poisonedP r = true ∧ regHeld grp r = true)
       ∧ (at_ all32 poisonedP).group? 1 = some poisonedP ∧ poisonedP.Canonical ∧ poisonedP.trap = none
       ∧ activeOf poisonedP (at_ all32 poisonedP).cur g1 &&& (rdP poisonedP 1).tags ≠ 0
       ∧ activeOf grp s0.cur g1 = 0) := by
  and_intros
  all_goals first
    | exact clashes _ _ _ _
    | exact no_clash
    | decide +kernel

/-! Witnesses: resets, the mailbox, the step. -/

def mbox (cmd stat stage len : Nat) : State :=
  { State.reset with yuren := { State.reset.yuren with
    mboxCmd := BitVec.ofNat 32 cmd, mboxStat := stat, stage := stage, mboxLen := len, ready := stage = 7 } }
def noImages : BootImages := ⟨[], [], [], [], [], [], true, true⟩

/-- Where an image must pass the signature's verification or an encapsulation, whether one does is Config's to say. -/
theorem witness_ResetsBringUpAndTheMailbox :
    State.reset.Canonical ∧ (mbox 1 1 7 8192).Canonical
    ∧ State.reset.yuren.ready = false ∧ State.reset.yuren.recovery = false ∧ State.reset.yuren.stage = 0
    ∧ (mbox 1 1 7 8192).yuren.ready = true
    ∧ (bootChecks State.reset.yuren noImages).find? (fun c => !c.1) = some (false, 1, 1)
    ∧ (mbox 0 1 7 0).yuren.mboxStat = 1 ∧ State.reset.yuren.mboxStat ≠ 1
    ∧ (∀ c ∈ [1, 2, 3, 4, 5, 6], ∀ st ∈ [1, 7], (mbox c 1 st 8192).yuren.mboxStat = 1 ∧ (mbox c 1 st 8192).yuren.mboxCmd.toNat = c
        ∧ (mbox c 1 st 8192).yuren.outcome = 0)
    ∧ (mbox 1 1 7 8192).yuren.mboxLen = 8192 ∧ (mbox 1 1 7 100).yuren.mboxLen ≠ 8192
    ∧ ¬ Signed ((mbox 1 1 7 100).yuren.upload ++ (List.range 100).map fun i => sget 0 (mbox 1 1 7 100).yuren.mboxBuf i)
    ∧ (mbox 3 1 1 0).yuren.stage < 3 ∧ 3 ≤ (mbox 3 1 7 0).yuren.stage
    ∧ (mbox 3 1 7 0).yuren.quotedAt ≠ some (mbox 3 1 7 0).ltick
    ∧ (let s := mbox 3 1 7 0
       let t := { s with yuren := { s.yuren with quotedAt := some 0 } }
       t.Canonical ∧ t.yuren.quotedAt = some t.ltick ∧ t.yuren.outcome = 0)
    ∧ (let s := mbox 3 1 7 0
       let t := { s with yuren := { s.yuren with outcome := 2 } }
       t.yuren.mboxStat = 1 ∧ t.yuren.outcome ≠ 0) := by
  and_intros <;> decide +kernel

theorem witness_StepKeepsCanonical :
    sg.Canonical ∧ ∃ t, step { sg with agenda := [.tick 1] } = .next t :=
  ⟨by decide +kernel, _, rfl⟩

/-- The turn of the group's path at 0x400, where the words stand. -/
def turnS (ws : List Nat) (g : Group) : State :=
  { fetching (onPage (at_ 0 g)) ws 0 with agenda := [.issue 1 0x400 all32] }
def ackW : Instr := .faultackRetry twoU
/-- The leader of a checked pair before an atomic, and a group whose lanes have walked for the word at 0x400. -/
def leaderG : Group := { grp with outrider := some ⟨[], [], [], [], []⟩ }
def walkedG : Group := withLanes fun _ ln => { ln with wait := .walk }
def lockW : Instr := .lock { mz with ac := 4, sc := .d }

theorem witness_StepRunsTheDecodedWord :
    (∀ ws ∈ [[(encode addW).toNat], [(encode ackW).toNat], repeats], (turnS ws grp).agenda = [.issue 1 0x400 all32]
      ∧ (turnS ws grp).group? 1 = some grp ∧ grp.outrider = none
      ∧ ((turnS ws grp).icFind grp.core grp.pasid 0x400).isSome = true ∧ (turnS ws grp).rel.upsets = []
      ∧ (grp.lane 0).wait ≠ .walk)
    ∧ (∀ g ∈ [grp, leaderG, walkedG], (turnS [(encode addW).toNat] g).group? 1 = some g
      ∧ (({ turnS [(encode addW).toNat] g with agenda := [] } : State).meetWord g (some addW) all32).group? 1 = some g)
    ∧ leaderG.outrider.isSome = true ∧ (leaderG.lane 0).wait ≠ .walk ∧ kpWord lockW = .held
    ∧ (∀ x, (turnS [(encode lockW).toNat] leaderG).icFind 0 0 0x400 = some x → bitOf x.poison 0 = false
        ∧ bitOf x.poison 1 = false ∧ decode ((x.bytes.drop 0).take 8) = .ok (lockW, []))
    ∧ ((turnS [(encode lockW).toNat] leaderG).icFind 0 0 0x400).isSome = true
    ∧ (∀ L < 32, (walkedG.lane L).wait = .walk)
    ∧ (∀ x, (turnS [(encode addW).toNat] grp).icFind grp.core grp.pasid 0x400 = some x → bitOf x.poison 0 = false
        ∧ bitOf x.poison 1 = false ∧ decode ((x.bytes.drop 0).take 8) = .ok (addW, []))
    ∧ (∀ x, (turnS [(encode ackW).toNat] grp).icFind grp.core grp.pasid 0x400 = some x → bitOf x.poison 0 = false
        ∧ bitOf x.poison 1 = false ∧ decode ((x.bytes.drop 0).take 8) = .ok (ackW, []))
    ∧ (∀ x, (turnS repeats grp).icFind grp.core grp.pasid 0x400 = some x → bitOf x.poison 0 = false
        ∧ bitOf x.poison 1 = false ∧ decode ((x.bytes.drop 0).take 8) = .ok (.rep rep4, []))
    ∧ ((turnS repeats grp).icFind grp.core grp.pasid 0x408).isSome = true
    ∧ ((turnS repeats inRepeat).icFind inRepeat.core inRepeat.pasid 0x408).isSome = true
    ∧ (turnS repeats inRepeat).fetchWord 0 0 (0x400 + 8) = some (0x413E180500002008, false)
    ∧ ((List.range 32).filter fun L => bitOf all32 L).foldl (fun m L => min m (inRepeat.lane L).k) 64 = 1
    ∧ sg.expShare = 0 ∧ (sg.grantShare .mboxCommandDone).isSome = true
    ∧ (⟨15, 63, 15⟩ : DrayId).ok = true ∧ isEvent .coldReset = true ∧ Instr.wf .coldReset = true := by
  and_intros <;> decide +kernel

theorem witness_EncodedWordsDecodeBack :
    addW.view ≠ .other ∧ addW.wf = true ∧ ackW.canon = ackW ∧ isCommand (.dlset false false 7) = true
    ∧ (Instr.dlset false false 7).wf = true
    ∧ decodeWord 0x1114007012345678#64 = .ok (.movImm ⟨20, 0, ⟨0, false⟩, 0x12345678⟩)
    ∧ decodeCommand (encodeCommand (.dlset false false 7)) = .ok (.dlset false false 7) := by
  and_intros <;> decide +kernel

/-! Single steps, with results worked out by hand from R174, R182 and R202. -/

/-- The group after a word. -/
def after (i : Instr) (g : Group) : Group :=
  match exec i (at_ all32 g) with
  | .next t => (t.group? 1).getD grp
  | _ => grp
/-- Lane 2 of v4 and of v5. -/
def lanes2 (a b : Word) : Group := withV [(4 * 32 + 2, ⟨a, false⟩), (5 * 32 + 2, ⟨b, false⟩)]

theorem test_add_wraps :
    rdV (after (.add { rz with d := 6, a := 4, b := 5 }) (lanes2 0xFFFFFFFF 2)) 6 2 = ⟨1, false⟩ := by decide +kernel
theorem test_sub_onto_its_source :
    rdV (after (.sub { rz with d := 5, a := 4, b := 5 }) (lanes2 7 9)) 5 2 = ⟨0xFFFFFFFE, false⟩ := by decide +kernel
theorem test_fadd_ties_to_even :
    rdV (after (.fadd { rf with d := 6, a := 4, b := 5 }) (lanes2 0x3F800000 0x33800000)) 6 2 = ⟨0x3F800000, false⟩ := by
  decide +kernel
theorem test_fmul_ties_to_even :
    rdV (after (.fmul { rf with d := 6, a := 4, b := 5 }) (lanes2 0x3F800003 0x3FC00000)) 6 2 = ⟨0x3FC00004, false⟩ := by
  decide +kernel
theorem test_exit_ends_the_group : (after (.exit rz) grp).ended = true := by decide +kernel

end Sys2Proof.Tests
end

