-- ==== Sys2Proof/Proofs/CanonForm.lean ====
section
/-! SUPPORT. The canonical form with its parts by name, and that it is the statement's. -/

namespace Sys2Proof.Machine

/-! The form of each part. `n` bounds the numbers that have been given out. -/

/-- An operand tile in canonical form. -/
structure Tile.Canon (t : Tile) : Prop where
  bytes : swf 0 t.bytes = true
  scales : swf 0 t.scales = true

/-- An outrider whose register maps are canonical. -/
structure Outrider.Canon (o : Outrider) : Prop where
  v : swf ⟨0, false⟩ o.v = true
  s : swf ⟨0, false⟩ o.s = true
  p : swf ⟨0, 0⟩ o.p = true

/-- A group of 32 lanes in canonical form. -/
structure Group.Canon (n : Nat) (g : Group) : Prop where
  gid : g.gid < n
  lanes : g.lanes.length = 32
  v : swf ⟨0, false⟩ g.v = true
  s : swf ⟨0, false⟩ g.s = true
  p : swf ⟨0, 0⟩ g.p = true
  outrider : ∀ o ∈ g.outrider, o.Canon
  a : swf ⟨0, false⟩ g.a = true
  t : swf emptyTile g.t = true
  tiles : ∀ x ∈ g.t, x.2.Canon
  maskRows : swf 0 g.maskRows = true
  impInfo : swf 0 g.impInfo = true
  blkGen : swf 0 g.blkGen = true

structure Team.Canon (n : Nat) (t : Team) : Prop where
  id : t.id < n
  descs : swf Desc.invalid t.descs = true

structure Side.Canon (d : Side) : Prop where
  evsel : swf 0 d.evsel = true
  evcnt : swf 0 d.evcnt = true

structure Cores.Canon (c : Cores) : Prop where
  spad : swf 0 c.spad = true
  gate : swf false c.gate = true
  poison : swf false c.poison = true
  reload : swf 0 c.reload = true
  sides : swf Side.reset c.sides = true
  side : ∀ x ∈ c.sides, x.2.Canon
  elig : swf Elig.reset c.elig = true

/-- A depot line with its 128 bytes (R82). -/
structure DepotLine.Canon (x : DepotLine) : Prop where
  bytes : x.bytes.length = 128

structure Mem.Canon (m : Mem) : Prop where
  raw : swf 0 m.raw = true
  depot : ∀ x ∈ m.depot, x.Canon
  grants : swf 0 m.grants = true

structure Req.Canon (n : Nat) (r : Req) : Prop where
  id : r.id < n

structure Op.Canon (n : Nat) (o : Op) : Prop where
  id : o.id < n

structure Eng.Canon (n : Nat) (e : Eng) : Prop where
  reqs : ∀ r ∈ e.reqs, r.Canon n
  ops : ∀ o ∈ e.ops, o.Canon n

structure Rel.Canon (r : Rel) : Prop where
  ext : swf Extent.reset r.ext = true
  scrub : swf 0 r.scrub = true

structure OpenRow.Canon (o : OpenRow) : Prop where
  bytes : swf 0 o.bytes = true

structure Dray.Canon (d : Dray) : Prop where
  store : swf 0 d.store = true
  vb : swf 0 d.vb = true
  vbTag : swf false d.vbTag = true
  acc : swf ⟨0, false⟩ d.acc = true
  latch : swf [] d.latch = true
  rows : ∀ x ∈ d.open_, x.Canon

structure Drays.Canon (d : Drays) : Prop where
  drays : swf Dray.reset d.drays = true
  dray : ∀ x ∈ d.drays, x.2.Canon
  queue : swf [] d.queue = true
  bcast : swf ⟨0, 0⟩ d.bcast = true

/-- A kernel whose scratchpad size is a multiple of 768 bytes (R168). -/
structure Kernel.Canon (k : Kernel) : Prop where
  spbytes : k.spbytes % 768 = 0

structure Grid.Canon (d : Grid) : Prop where
  kernel : d.kernel.Canon

structure Yuren.Canon (y : Yuren) : Prop where
  mboxBuf : swf 0 y.mboxBuf = true

/-- The canonical form of the machine. -/
structure State.Canon (s : State) : Prop where
  mem : s.mem.Canon
  cores : s.cores.Canon
  groups : ∀ g ∈ s.groups, g.Canon s.nextId
  pos : 0 < s.nextId
  eng : s.eng.Canon s.nextId
  ctxs : swf emptyCtx s.ctxs = true
  rel : s.rel.Canon
  teams : ∀ t ∈ s.teams, t.Canon s.nextId
  drays : s.drays.Canon
  slots : swf emptySlot s.xl.slots = true
  grids : ∀ d ∈ s.disp.grids, d.Canon
  yuren : s.yuren.Canon

/-! It is the form of the statements. -/

theorem Tile.canon_iff {t : Tile} : t.Canon ↔ t.Canonical := ⟨fun h => ⟨h.bytes, h.scales⟩, fun ⟨a, b⟩ => ⟨a, b⟩⟩

theorem Group.canon_iff {n : Nat} {g : Group} : g.Canon n ↔ g.Canonical ∧ g.gid < n := by
  constructor
  · intro h
    exact ⟨⟨h.lanes, h.v, h.s, h.p, fun o ho => ⟨(h.outrider o ho).v, (h.outrider o ho).s, (h.outrider o ho).p⟩, h.a, h.t,
      fun x hx => Tile.canon_iff.1 (h.tiles x hx), h.maskRows, h.impInfo, h.blkGen⟩, h.gid⟩
  · rintro ⟨⟨lanes, v, s, p, out, a, t, tiles, maskRows, impInfo, blkGen⟩, gid⟩
    exact ⟨gid, lanes, v, s, p, fun o ho => ⟨(out o ho).1, (out o ho).2.1, (out o ho).2.2⟩, a, t,
      fun x hx => Tile.canon_iff.2 (tiles x hx), maskRows, impInfo, blkGen⟩

theorem Cores.canon_iff {c : Cores} : c.Canon ↔ c.Canonical :=
  ⟨fun h => ⟨h.spad, h.gate, h.poison, h.reload, h.sides, fun x hx => ⟨(h.side x hx).evsel, (h.side x hx).evcnt⟩, h.elig⟩,
    fun ⟨spad, gate, poison, reload, sides, side, elig⟩ =>
      ⟨spad, gate, poison, reload, sides, fun x hx => ⟨(side x hx).1, (side x hx).2⟩, elig⟩⟩

theorem Dray.canon_iff {d : Dray} : d.Canon ↔ d.Canonical :=
  ⟨fun h => ⟨h.store, h.vb, h.vbTag, h.acc, h.latch, fun x hx => (h.rows x hx).bytes⟩,
    fun ⟨a, b, c, d, e, f⟩ => ⟨a, b, c, d, e, fun x hx => ⟨f x hx⟩⟩⟩

theorem State.canon_iff {s : State} : s.Canon ↔ s.Canonical := by
  constructor
  · intro h
    exact ⟨h.mem.raw, Cores.canon_iff.1 h.cores, fun g hg => (Group.canon_iff.1 (h.groups g hg)).1,
      fun x hx => (h.mem.depot x hx).bytes, h.pos,
      fun o ho => (h.eng.ops o ho).id, fun r hr => (h.eng.reqs r hr).id, h.ctxs, h.rel.ext,
      fun t ht => (h.teams t ht).descs, h.drays.drays, fun x hx => Dray.canon_iff.1 (h.drays.dray x hx), h.drays.queue,
      h.drays.bcast, h.rel.scrub, h.slots,
      fun t ht => (h.teams t ht).id, fun g hg => (h.groups g hg).gid,
      fun d hd => (h.grids d hd).kernel.spbytes, h.yuren.mboxBuf, h.mem.grants⟩
  · rintro ⟨raw, cores, groups, depot, pos, ops, reqs, ctxs, ext, descs, drays, dray, queue, bcast, scrub, slots, tid, gid,
      grids, mbox, grants⟩
    exact
      { mem := ⟨raw, fun x hx => ⟨depot x hx⟩, grants⟩
        cores := Cores.canon_iff.2 cores
        groups := fun g hg => Group.canon_iff.2 ⟨groups g hg, gid g hg⟩
        pos := pos
        eng := ⟨fun r hr => ⟨reqs r hr⟩, fun o ho => ⟨ops o ho⟩⟩
        ctxs := ctxs
        rel := ⟨ext, scrub⟩
        teams := fun t ht => ⟨tid t ht, descs t ht⟩
        drays := ⟨drays, fun x hx => Dray.canon_iff.2 (dray x hx), queue, bcast⟩
        slots := slots
        grids := fun d hd => ⟨⟨grids d hd⟩⟩
        yuren := ⟨mbox⟩ }

/-! The form of what a function answers beside a state. -/

/-- What stands in an option has a property. -/
inductive IfSome {α : Type} (P : α → Prop) : Option α → Prop
  | none : IfSome P .none
  | some {a : α} (h : P a) : IfSome P (.some a)

theorem IfSome.of_some {α : Type} {P : α → Prop} {x : Option α} {a : α} (h : IfSome P x) (e : x = .some a) : P a := by
  subst e; cases h; assumption

theorem IfSome.map {α β : Type} {P : β → Prop} {x : Option α} {f : α → β} (h : ∀ a, P (f a)) :
    IfSome P (x.map f) := by
  cases x with
  | none => exact .none
  | some a => exact .some (h a)

theorem IfSome.map_of {α β : Type} {Q : α → Prop} {P : β → Prop} {x : Option α} {f : α → β} (h : IfSome Q x)
    (hf : ∀ a, Q a → P (f a)) : IfSome P (x.map f) := by
  cases h with
  | none => exact .none
  | some h => exact .some (hf _ h)

theorem IfSome.find {α : Type} {P : α → Prop} {l : List α} {p : α → Bool} (h : ∀ x ∈ l, P x) :
    IfSome P (l.find? p) := by
  cases e : l.find? p with
  | none => exact .none
  | some a => exact .some (h a (List.mem_of_find?_eq_some e))

/-- What stands on either side has its property. -/
inductive IfEither {ε α : Type} (P : ε → Prop) (Q : α → Prop) : Except ε α → Prop
  | error {e : ε} (h : P e) : IfEither P Q (.error e)
  | ok {a : α} (h : Q a) : IfEither P Q (.ok a)

theorem IfEither.of_error {ε α : Type} {P : ε → Prop} {Q : α → Prop} {x : Except ε α} {a : ε} (h : IfEither P Q x)
    (e : x = .error a) : P a := by subst e; cases h; assumption

theorem IfEither.of_ok {ε α : Type} {P : ε → Prop} {Q : α → Prop} {x : Except ε α} {a : α} (h : IfEither P Q x)
    (e : x = .ok a) : Q a := by subst e; cases h; assumption

theorem IfEither.map {ε α β : Type} {P : ε → Prop} {Q : α → Prop} {R : β → Prop} {x : Except ε α} {f : α → β}
    (h : IfEither P Q x) (hf : ∀ a, Q a → R (f a)) : IfEither P R (x.map f) := by
  cases h with
  | error h => exact .error h
  | ok h => exact .ok (hf _ h)

theorem State.Canon.snd {α : Type} {p : α × State} {a : α} {t : State} (h : p.2.Canon) (e : p = (a, t)) :
    t.Canon := by
  subst e; exact h

theorem State.Canon.fst {α : Type} {p : State × α} {a : α} {t : State} (h : p.1.Canon) (e : p = (t, a)) :
    t.Canon := by
  subst e; exact h

theorem Cores.Canon.fst {α : Type} {p : Cores × α} {c : Cores} {a : α} (h : p.1.Canon) (e : p = (c, a)) :
    c.Canon := by
  subst e; exact h

theorem Group.Canon.fst {α : Type} {n : Nat} {p : Group × α} {g : Group} {a : α} (h : p.1.Canon n) (e : p = (g, a)) :
    g.Canon n := by
  subst e; exact h

/-- The state that an outcome goes on to, if any, is canonical. -/
inductive OutCanon : Out → Prop
  | next {s : State} (h : s.Canon) : OutCanon (.next s)
  | fault {r : Fault} : OutCanon (.fault r)
  | refused {r : Refusal} : OutCanon (.refused r)

theorem OutCanon.of_next {o : Out} {s : State} (h : OutCanon o) (e : o = .next s) : s.Canon := by
  subst e; cases h; assumption

/-! What the reads and the steps of the units come to: the states that stand in it are canonical. -/

inductive Served.Canon : Served → Prop
  | wait {s : State} (h : s.Canon) : Served.Canon (.wait s)
  | done {bs : List Byte} {tags : List Bool} {s : State} (h : s.Canon) : Served.Canon (.done bs tags s)

theorem Served.Canon.of_wait {x : Served} {s : State} (h : x.Canon) (e : x = .wait s) : s.Canon := by
  subst e; cases h; assumption

theorem Served.Canon.of_done {x : Served} {bs : List Byte} {tags : List Bool} {s : State} (h : x.Canon)
    (e : x = .done bs tags s) : s.Canon := by
  subst e; cases h; assumption

inductive OpPlace.Canon : OpPlace → Prop
  | at {p : Place} {cls : Option ExtClass} {n : Nat} : OpPlace.Canon (.at p cls n)
  | fail {n : Nat} : OpPlace.Canon (.fail n)
  | wait {s : State} (h : s.Canon) : OpPlace.Canon (.wait s)

theorem OpPlace.Canon.of_wait {x : OpPlace} {s : State} (h : x.Canon) (e : x = .wait s) : s.Canon := by
  subst e; cases h; assumption

inductive OpAcc.Canon : OpAcc → Prop
  | done {bs : List Byte} {tags : List Bool} {s : State} (h : s.Canon) : OpAcc.Canon (.done bs tags s)
  | fail {n : Nat} : OpAcc.Canon (.fail n)
  | wait {s : State} (h : s.Canon) : OpAcc.Canon (.wait s)

theorem OpAcc.Canon.of_done {x : OpAcc} {bs : List Byte} {tags : List Bool} {s : State} (h : x.Canon)
    (e : x = .done bs tags s) : s.Canon := by
  subst e; cases h; assumption

theorem OpAcc.Canon.of_wait {x : OpAcc} {s : State} (h : x.Canon) (e : x = .wait s) : s.Canon := by
  subst e; cases h; assumption

inductive Part.Canon : Part → Prop
  | ok {n : Nat} {ext : List ExtVal} {s : State} (h : s.Canon) : Part.Canon (.ok s n ext)
  | fail {n : Nat} {m : Nat} : Part.Canon (.fail n m)
  | wait {s : State} (h : s.Canon) : Part.Canon (.wait s)

theorem Part.Canon.of_ok {x : Part} {n : Nat} {ext : List ExtVal} {s : State} (h : x.Canon)
    (e : x = .ok s n ext) : s.Canon := by
  subst e; cases h; assumption

theorem Part.Canon.of_wait {x : Part} {s : State} (h : x.Canon) (e : x = .wait s) : s.Canon := by
  subst e; cases h; assumption

inductive TrainBase.Canon : TrainBase → Prop
  | ok {n : Nat} {m : Nat} {k : Nat} {l : Nat} : TrainBase.Canon (.ok n m k l)
  | fail {n : Nat} : TrainBase.Canon (.fail n)
  | wait {s : State} (h : s.Canon) : TrainBase.Canon (.wait s)

theorem TrainBase.Canon.of_wait {x : TrainBase} {s : State} (h : x.Canon) (e : x = .wait s) : s.Canon := by
  subst e; cases h; assumption

inductive Hop.Canon : Hop → Prop
  | wait {s : State} (h : s.Canon) : Hop.Canon (.wait s)
  | go {w : Waybill} {s : State} (h : s.Canon) : Hop.Canon (.go s w)
  | forward {n : Nat} {w : Waybill} {pl : FabPlace} {s : State} (h : s.Canon) : Hop.Canon (.forward s n w pl)
  | done {r : WalkResult} {s : State} (h : s.Canon) : Hop.Canon (.done s r)

theorem Hop.Canon.of_wait {x : Hop} {s : State} (h : x.Canon) (e : x = .wait s) : s.Canon := by
  subst e; cases h; assumption

theorem Hop.Canon.of_go {x : Hop} {w : Waybill} {s : State} (h : x.Canon) (e : x = .go s w) : s.Canon := by
  subst e; cases h; assumption

theorem Hop.Canon.of_forward {x : Hop} {n : Nat} {w : Waybill} {pl : FabPlace} {s : State} (h : x.Canon)
    (e : x = .forward s n w pl) : s.Canon := by
  subst e; cases h; assumption

theorem Hop.Canon.of_done {x : Hop} {r : WalkResult} {s : State} (h : x.Canon) (e : x = .done s r) : s.Canon := by
  subst e; cases h; assumption

inductive VirtRead.Canon : VirtRead → Prop
  | done {bs : List Byte} : VirtRead.Canon (.done bs)
  | bad {s : State} (h : s.Canon) : VirtRead.Canon (.bad s)
  | wait {s : State} (h : s.Canon) : VirtRead.Canon (.wait s)

theorem VirtRead.Canon.of_bad {x : VirtRead} {s : State} (h : x.Canon) (e : x = .bad s) : s.Canon := by
  subst e; cases h; assumption

theorem VirtRead.Canon.of_wait {x : VirtRead} {s : State} (h : x.Canon) (e : x = .wait s) : s.Canon := by
  subst e; cases h; assumption

inductive Live.Canon : Live → Prop
  | all : Live.Canon (.all)
  | some_ {n : Nat} {m : Nat} : Live.Canon (.some_ n m)
  | wait {s : State} (h : s.Canon) : Live.Canon (.wait s)

theorem Live.Canon.of_wait {x : Live} {s : State} (h : x.Canon) (e : x = .wait s) : s.Canon := by
  subst e; cases h; assumption

inductive KernelRead.Canon : KernelRead → Prop
  | ok {k : Kernel} (h : k.Canon) : KernelRead.Canon (.ok k)
  | bad {s : State} (h : s.Canon) : KernelRead.Canon (.bad s)
  | wait {s : State} (h : s.Canon) : KernelRead.Canon (.wait s)

theorem KernelRead.Canon.of_ok {x : KernelRead} {k : Kernel} (h : x.Canon) (e : x = .ok k) : k.Canon := by
  subst e; cases h; assumption

theorem KernelRead.Canon.of_bad {x : KernelRead} {s : State} (h : x.Canon) (e : x = .bad s) : s.Canon := by
  subst e; cases h; assumption

theorem KernelRead.Canon.of_wait {x : KernelRead} {s : State} (h : x.Canon) (e : x = .wait s) : s.Canon := by
  subst e; cases h; assumption

inductive Inb.Canon : Inb → Prop
  | wait {s : State} (h : s.Canon) : Inb.Canon (.wait s)
  | retry {s : State} (h : s.Canon) : Inb.Canon (.retry s)
  | done {ans : PeerAnswer} {s : State} (h : s.Canon) : Inb.Canon (.done ans s)
  | pending {s : State} (h : s.Canon) : Inb.Canon (.pending s)

theorem Inb.Canon.of_wait {x : Inb} {s : State} (h : x.Canon) (e : x = .wait s) : s.Canon := by
  subst e; cases h; assumption

theorem Inb.Canon.of_retry {x : Inb} {s : State} (h : x.Canon) (e : x = .retry s) : s.Canon := by
  subst e; cases h; assumption

theorem Inb.Canon.of_done {x : Inb} {ans : PeerAnswer} {s : State} (h : x.Canon) (e : x = .done ans s) : s.Canon := by
  subst e; cases h; assumption

theorem Inb.Canon.of_pending {x : Inb} {s : State} (h : x.Canon) (e : x = .pending s) : s.Canon := by
  subst e; cases h; assumption

/-- What follows a turn's instruction: a state that stands in it is canonical. -/
inductive After.Canon : After → Prop
  | nothing : After.Canon .nothing
  | word {g : Group} {i : Instr} : After.Canon (.word g i)
  | resumed {g : Group} {i : Instr} {back : RegVals} : After.Canon (.resumed g i back)
  | outrider {s : State} {k : Nat} {e : OutEntry} (h : s.Canon) : After.Canon (.outrider s k e)

/-- A plan whose states are canonical. -/
inductive Plan.Canon : Plan → Prop
  | done {s : State} (h : s.Canon) : Plan.Canon (.done s)
  | run {i : Instr} {s : State} {a : After} (h : s.Canon) (ha : a.Canon) : Plan.Canon (.run i s a)

theorem Plan.Canon.of_done {x : Plan} {s : State} (h : x.Canon) (e : x = .done s) : s.Canon := by
  subst e; cases h; assumption

theorem Plan.Canon.of_run {x : Plan} {i : Instr} {s : State} {a : After} (h : x.Canon) (e : x = .run i s a) :
    s.Canon ∧ a.Canon := by
  subst e
  cases h with
  | run h ha => exact ⟨h, ha⟩

/-! Lists and maps. -/

theorem forall_mem_keep {α : Type} {P : α → Prop} {l : List α} {p : α → Bool} (h : ∀ x ∈ l, P x) :
    ∀ x ∈ l.filter p, P x :=
  fun x hx => h x (List.mem_of_mem_filter hx)

theorem forall_mem_change {α : Type} {P : α → Prop} {l : List α} {f : α → α} (h : ∀ x ∈ l, P x) (hf :
    ∀ x, P x → P (f x)) :
    ∀ x ∈ l.map f, P x := by
  intro x hx
  obtain ⟨y, hy, rfl⟩ := List.mem_map.1 hx
  exact hf y (h y hy)

theorem forall_mem_snoc {α : Type} {P : α → Prop} {l : List α} {a : α} (h : ∀ x ∈ l, P x) (ha : P a) :
    ∀ x ∈ l ++ [a], P x := by
  intro x hx
  rcases List.mem_append.1 hx with hx | hx
  · exact h x hx
  · rw [List.mem_singleton.1 hx]; exact ha

/-- What every step of a fold keeps, the fold keeps. -/
theorem foldl_keep {α β : Type} {P : β → Prop} {f : β → α → β} {l : List α} {b : β} (h : P b) (hf :
    ∀ b a, P b → P (f b a)) :
    P (l.foldl f b) := by
  induction l generalizing b with
  | nil => exact h
  | cons a l ih => exact ih (hf b a h)

section
variable {α : Type} [DecidableEq α] {d : α} {m : SMap α}

theorem swf_set {k : Nat} {a : α} (h : swf d m = true) : swf d (sset d m k a) = true := swf_sset d m k a h

theorem swf_keep {p : Nat × α → Bool} (h : swf d m = true) : swf d (m.filter p) = true := swf_filter d m p h

theorem swf_empty : swf d ([] : SMap α) = true := rfl

theorem forall_mem_set {P : Nat × α → Prop} {k : Nat} {a : α} (h : ∀ x ∈ m, P x) (ha : P (k, a)) :
    ∀ x ∈ sset d m k a, P x := by
  intro x hx
  rcases mem_sset d m k a x hx with hx | rfl
  · exact h x hx
  · exact ha

omit [DecidableEq α] in
theorem mem_of_sget_ne {k : Nat} (h : sget d m k ≠ d) : (k, sget d m k) ∈ m := by
  induction m with
  | nil => exact absurd rfl h
  | cons x m ih =>
    simp only [sget] at h ⊢
    split
    · rename_i hk; rw [hk]; exact List.mem_cons_self ..
    · rename_i hk; rw [if_neg hk] at h; exact List.mem_cons_of_mem _ (ih h)

/-- A value that is read has what every listed value and the default have. -/
theorem sget_has {P : α → Prop} {k : Nat} (h : ∀ x ∈ m, P x.2) (hd : P d) : P (sget d m k) := by
  by_cases hk : sget d m k = d
  · rw [hk]; exact hd
  · exact h _ (mem_of_sget_ne hk)
end

theorem swf_fold {α β : Type} [DecidableEq α] {d : α} {f : SMap α → β → SMap α} {l : List β} {m : SMap α}
    (h : swf d m = true) (hf : ∀ m b, swf d m = true → swf d (f m b) = true) : swf d (l.foldl f m) = true :=
  foldl_keep (P := fun m => swf d m = true) h hf

theorem length_keep_map {α β : Type} {l : List α} {f : α → β} {n : Nat} (h : l.length = n) : (l.map f).length = n :=
  (List.length_map f).trans h

/-! Parts of a canonical state. -/

theorem State.Canon.group? {s : State} {k : Nat} {g : Group} (h : s.Canon) (e : s.group? k = some g) :
    g.Canon s.nextId :=
  h.groups g (List.mem_of_find?_eq_some e)

theorem Side.Canon.reset : Side.reset.Canon := ⟨rfl, rfl⟩

theorem Dray.Canon.reset : Dray.reset.Canon := ⟨rfl, rfl, rfl, rfl, rfl, by simp [Dray.reset]⟩

theorem Tile.Canon.empty : emptyTile.Canon := ⟨rfl, rfl⟩

theorem State.Canon.line? {s : State} {l : LineId} {x : DepotLine} (h : s.Canon) (e : s.line? l = some x) : x.Canon :=
  h.mem.depot x (List.mem_of_find?_eq_some e)

theorem State.Canon.side {s : State} {k : Nat} (h : s.Canon) :
    (s.side k).Canon := sget_has h.cores.side Side.Canon.reset

theorem State.Canon.dray {s : State} {k : Nat} (h : s.Canon) :
    (s.dray k).Canon := sget_has h.drays.dray Dray.Canon.reset

theorem Group.Canon.rdT {n : Nat} {g : Group} {k : Nat} (h : g.Canon n) : (Machine.rdT g k).Canon :=
  sget_has h.tiles Tile.Canon.empty

/-! The updates of a part. -/

theorem State.Canon.onGroup {s : State} {k : Nat} {f : Group → Group} (h : s.Canon)
    (hf : ∀ g, g.Canon s.nextId → (f g).Canon s.nextId) : (s.onGroup k f).Canon :=
  { h with groups := forall_mem_change h.groups fun g hg => by split; exacts [hf g hg, hg] }

theorem State.Canon.onTeam {s : State} {k : Nat} {f : Team → Team} (h : s.Canon)
    (hf : ∀ t, t.Canon s.nextId → (f t).Canon s.nextId) : (s.onTeam k f).Canon :=
  { h with teams := forall_mem_change h.teams fun t ht => by split; exacts [hf t ht, ht] }

theorem State.Canon.onGrid {s : State} {k : Nat} {f : Grid → Grid} (h : s.Canon)
    (hf : ∀ d, d.Canon → (f d).Canon) : (s.onGrid k f).Canon :=
  { h with grids := forall_mem_change h.grids fun d hd => by split; exacts [hf d hd, hd] }

theorem State.Canon.onCtx {s : State} {k : Nat} {f : Ctx → Ctx} (h : s.Canon) : (s.onCtx k f).Canon :=
  { h with ctxs := swf_set h.ctxs }

theorem State.Canon.onSide {s : State} {k : Nat} {f : Side → Side} (h : s.Canon)
    (hf : ∀ d, d.Canon → (f d).Canon) : (s.onSide k f).Canon :=
  { h with cores := { h.cores with sides := swf_set h.cores.sides, side := forall_mem_set h.cores.side (hf _ h.side) } }

theorem State.Canon.onDray {s : State} {k : Nat} {f : Dray → Dray} (h : s.Canon)
    (hf : ∀ d, d.Canon → (f d).Canon) : (s.onDray k f).Canon :=
  { h with drays := { h.drays with drays := swf_set h.drays.drays, dray := forall_mem_set h.drays.dray (hf _ h.dray) } }

theorem State.Canon.onReq {s : State} {k : Nat} {f : Req → Req} (h : s.Canon)
    (hf : ∀ r, r.Canon s.nextId → (f r).Canon s.nextId) : (s.onReq k f).Canon :=
  { h with eng := { h.eng with reqs := forall_mem_change h.eng.reqs fun r hr => by split; exacts [hf r hr, hr] } }

theorem State.Canon.onOp {s : State} {k : Nat} {f : Op → Op} (h : s.Canon)
    (hf : ∀ o, o.Canon s.nextId → (f o).Canon s.nextId) : (s.onOp k f).Canon :=
  { h with eng := { h.eng with ops := forall_mem_change h.eng.ops fun o ho => by split; exacts [hf o ho, ho] } }

theorem State.Canon.dropReq {s : State} {k : Nat} (h : s.Canon) : (s.dropReq k).Canon :=
  { h with eng := { h.eng with reqs := forall_mem_keep h.eng.reqs } }

theorem Group.Canon.more {n m : Nat} {g : Group} (h : g.Canon n) (hn : n ≤ m) : g.Canon m :=
  { h with gid := lt_of_lt_of_le h.gid hn }

/-- Numbers may be given out without use. -/
theorem State.Canon.more {s : State} {m : Nat} (h : s.Canon) (hm : s.nextId ≤ m) : ({ s with nextId := m } :
    State).Canon :=
  { h with
    groups := fun g hg => (h.groups g hg).more hm
    pos := lt_of_lt_of_le h.pos hm
    eng := ⟨fun r hr => ⟨lt_of_lt_of_le (h.eng.reqs r hr).id hm⟩, fun o ho => ⟨lt_of_lt_of_le (h.eng.ops o ho).id hm⟩⟩
    teams := fun t ht => { h.teams t ht with id := lt_of_lt_of_le (h.teams t ht).id hm } }

theorem State.Canon.fresh {s : State} (h : s.Canon) : s.fresh.2.Canon := h.more (Nat.le_succ _)

theorem fresh_lt {s t : State} {k : Nat} (e : s.fresh = (k, t)) : k < t.nextId := by
  cases e; exact Nat.lt_succ_self _

/-- The machine's numbers go on from one that has been reached: none is given out again. -/
structure State.From (n : Nat) (s : State) : Prop where
  le : n ≤ s.nextId

theorem State.From.snd {α : Type} {n : Nat} {p : α × State} {a : α} {t : State} (h : p.2.From n) (e : p = (a, t)) :
    t.From n := by
  subst e; exact h

theorem Group.Canon.mapLanes {n : Nat} {g : Group} {f : Nat → Lane → Lane} (h : g.Canon n) :
    (Machine.mapLanes g f).Canon n :=
  { h with lanes := (length_mapLanes g f).trans h.lanes }

theorem Group.Canon.wrP {n k : Nat} {g : Group} {x : PW} (h : g.Canon n) : (Machine.wrP g k x).Canon n := by
  unfold Machine.wrP
  split
  · exact h
  · exact { h with p := swf_set h.p }

theorem Group.Canon.wrT {n k : Nat} {g : Group} {x : Tile} (h : g.Canon n) (hx : x.Canon) :
    (Machine.wrT g k x).Canon n :=
  { h with t := swf_set h.t, tiles := forall_mem_set h.tiles hx }

end Sys2Proof.Machine
end

