-- ==== Sys2Proof/Proofs/CanonWords.lean ====
section
/-! SUPPORT. The canonical form is kept: the registers, the arithmetic and the predicate words. -/

namespace Sys2Proof.Machine

theorem Group.Canon.wrV {N : Nat} {g : Group} {r L : Nat} {x : TW} (hg : g.Canon N) : Group.Canon N (wrV g r L x) :=
  { hg with v := swf_set hg.v }

theorem Group.Canon.wrS {N : Nat} {g : Group} {r : Nat} {x : TW} (hg : g.Canon N) : Group.Canon N (wrS g r x) :=
  { hg with s := swf_set hg.s }

theorem Group.Canon.wrPBit {N : Nat} {g : Group} {n L : Nat} {b t : Bool} (hg : g.Canon N) :
    Group.Canon N (wrPBit g n L b t) := by
  unfold Machine.wrPBit
  extract_lets _ _
  exact hg.wrP

theorem Group.Canon.wrVs {N : Nat} {g : Group} {r w L n : Nat} {tag : Bool} (hg : g.Canon N) :
    Group.Canon N (wrVs g r w L n tag) :=
  foldl_keep hg fun _ _ h => h.wrV

theorem Group.Canon.wrSs {N : Nat} {g : Group} {r w n : Nat} {tag : Bool} (hg : g.Canon N) :
    Group.Canon N (wrSs g r w n tag) :=
  foldl_keep hg fun _ _ h => h.wrS

theorem Tile.Canon.emptyTile  : emptyTile.Canon := { bytes := swf_empty, scales := swf_empty }

theorem Group.Canon.wrA {N : Nat} {g : Group} {n i j : Nat} {x : TW} (hg : g.Canon N) :
    Group.Canon N (wrA g n i j x) :=
  { hg with a := swf_set hg.a }

theorem Group.Canon.advance {N : Nat} {g : Group} {c : Cur} {stay : Word} (hg : g.Canon N) :
    Group.Canon N (g.advance c stay) :=
  hg.mapLanes

theorem Group.Canon.leave {N : Nat} {g : Group} {lanes : Word} (hg : g.Canon N) : Group.Canon N (g.leave lanes) :=
  hg.mapLanes

theorem Group.Canon.goOn {N : Nat} {g : Group} {lanes : Word} {cycle : Nat} (hg : g.Canon N) :
    Group.Canon N (g.goOn lanes cycle) :=
  hg.leave.mapLanes

theorem Group.Canon.await {N : Nat} {g : Group} {c : Cur} {lanes : Word} {w : Nat → Wait} (hg : g.Canon N) :
    Group.Canon N (g.await c lanes w) :=
  hg.mapLanes

theorem Group.Canon.setWait {N : Nat} {g : Group} {lanes : Word} {w : Wait} (hg : g.Canon N) :
    Group.Canon N (g.setWait lanes w) :=
  hg.mapLanes

theorem State.Canon.send {s : State} {m : HostMsg} (h : s.Canon) : (s.send m).Canon := { h with }

theorem State.Canon.push {s : State} {ts : List Turn} (h : s.Canon) : (s.push ts).Canon := { h with }

theorem Cores.Canon.spPutByte {c : Cores} {a : Nat} {b : Byte} (hc : c.Canon) : (spPutByte c a b).Canon :=
  { hc with spad := swf_set hc.spad }

theorem Cores.Canon.spPutPoison {c : Cores} {a : Nat} {t : Bool} (hc : c.Canon) : (spPutPoison c a t).Canon :=
  { hc with poison := swf_set hc.poison }

theorem Cores.Canon.spPut {c : Cores} {a : Nat} {bs : List Byte} {tag : Nat → Bool} (hc : c.Canon) :
    (spPut c a bs tag).Canon := by
  unfold Machine.spPut
  extract_lets c1 _ _
  have hc1 : c1.Canon := by
    unfold c1
    refine foldl_keep hc fun _ _ h => ?_
    dsimp only
    exact h.spPutByte
  clear_value c1
  refine foldl_keep hc1 fun _ _ h => ?_
  extract_lets _ _
  split
  · exact h.spPutPoison
  · split
    · exact h.spPutPoison
    · exact h

theorem Cores.Canon.gateWrite {c : Cores} {a : Nat} {g : Gate} (hc : c.Canon) : (gateWrite c a g).Canon := by
  unfold Machine.gateWrite
  extract_lets _
  refine foldl_keep hc fun _ _ h => ?_
  dsimp only
  exact h.spPutByte

theorem Cores.Canon.gateInitAt {c : Cores} {a n : Nat} (hc : c.Canon) : (gateInitAt c a n).Canon := by
  unfold Machine.gateInitAt
  extract_lets c1 c2
  have hc1 : c1.Canon := hc.gateWrite
  clear_value c1
  have hc2 : c2.Canon := foldl_keep hc1 fun _ _ h => { h with gate := swf_set h.gate, poison := swf_set h.poison }
  clear_value c2
  exact { hc2 with reload := swf_set hc2.reload }

theorem Cores.Canon.gateArriveAt {c : Cores} {a n : Nat} (hc : c.Canon) : (gateArriveAt c a n).1.Canon := by
  unfold Machine.gateArriveAt
  extract_lets _
  split <;> exact hc.gateWrite

theorem Group.Canon.putVals {N : Nat} {g : Group} {vs : RegVals} (hg : g.Canon N) : Group.Canon N (g.putVals vs) := by
  unfold Machine.Group.putVals
  refine foldl_keep hg fun _ _ h => ?_
  dsimp only
  split
  · exact h.wrV
  · exact h.wrS
  · exact h.wrPBit
  · exact h
  · exact h
  · exact h

/-- An outrider's registers stand in for its group's. -/
theorem Group.Canon.asOutrider {N : Nat} {g : Group} {o : Outrider} (hg : g.Canon N) (ho : o.Canon) :
    ({ g with v := o.v, s := o.s, p := o.p } : Group).Canon N :=
  { hg with v := ho.v, s := ho.s, p := ho.p }

theorem forall_mem_optionMap {α β : Type} {P : α → Prop} {Q : β → Prop} {o : Option α} {f : α → β} (h : ∀ x ∈ o, P x)
    (hf : ∀ x, P x → Q (f x)) : ∀ y ∈ o.map f, Q y := by
  intro y hy
  obtain ⟨x, hx, rfl⟩ := Option.map_eq_some_iff.1 hy
  exact hf x (h x hx)

theorem Group.Canon.returned {N : Nat} {g : Group} {r : Req} {vs : RegVals} (hg : g.Canon N) : (g.returned r vs).Canon N := by
  unfold Group.returned
  extract_lets others
  refine { hg.putVals with outrider := forall_mem_optionMap hg.outrider fun o ho => ?_ }
  split
  · exact { ho with }
  · have hq := (hg.asOutrider ho).putVals (vs := vs)
    exact { v := hq.v, s := hq.s, p := hq.p }

theorem Group.Canon.forget {N : Nat} {g : Group} {r : Req} (hg : g.Canon N) : (g.forget r).Canon N :=
  { hg with outrider := forall_mem_optionMap hg.outrider fun _ ho => { ho with } }

theorem Group.Canon.both {N : Nat} {g : Group} {f : Group → Group} (hg : g.Canon N) (hf : ∀ g, g.Canon N → (f g).Canon N) :
    (g.both f).Canon N := by
  unfold Group.both
  split
  · exact hf g hg
  · rename_i o e
    have hq := hf _ (hg.asOutrider (hg.outrider o e))
    refine { hf g hg with outrider := fun x hx => ?_ }
    obtain rfl := Option.some.inj hx
    exact { v := hq.v, s := hq.s, p := hq.p }

theorem Group.Canon.testGates {N : Nat} {s : State} {t : Team} {x : Group} (hx : x.Canon N) :
    Group.Canon N (s.testGates t x) := by
  unfold State.testGates
  extract_lets _ _ _ _
  refine Group.Canon.goOn (eachLane_keeps _ hx fun _ _ _ _ h3 => ?_)
  split
  · exact h3.both fun _ h4 => h4.wrV
  · exact h3

theorem State.Canon.wakeGate {s : State} {t : Team} (h : s.Canon) : (wakeGate s t).Canon := by
  unfold Machine.wakeGate
  refine { h with groups := forall_mem_change h.groups fun _ h1 => ?_ }
  split
  · exact h1.testGates
  · exact h1

theorem State.Canon.countEvent {s : State} {sk slot code n : Nat} (h : s.Canon) :
    (countEvent s sk slot code n).Canon := by
  unfold Machine.countEvent
  refine h.onSide fun _ h1 => { h1 with evcnt := swf_fold h1.evcnt fun _ _ h2 => ?_ }
  extract_lets _ _
  split
  · exact swf_set h2
  · exact h2

theorem State.Canon.takeTrap {s : State} {gid : Nat} {t : TrapReq} {pc : BitVec 64} (h : s.Canon) :
    (takeTrap s gid t pc).Canon := by
  unfold Machine.takeTrap
  split
  · exact h
  · split
    · exact h
    · extract_lets s1
      have hs1 : s1.Canon := h.countEvent
      clear_value s1
      exact hs1.onGroup fun _ h1 => { h1 with }

theorem State.Canon.raise {s : State} {t : TrapReq} (h : s.Canon) : (raise s t).Canon := h.takeTrap

theorem State.Canon.raiseRecord {s : State} {ctx code info full : Nat} (h : s.Canon) :
    (raiseRecord s ctx code info full).Canon :=
  { h with }

theorem Group.Canon.resumeRun {N : Nat} {g : Group} (hg : g.Canon N) : Group.Canon N g.resumeRun :=
  { hg with lanes := length_keep_map hg.lanes }

theorem State.Canon.onPath {s : State} {k : Group → State} (h : s.Canon) (hk : ∀ g, g.Canon s.nextId → (k g).Canon) :
    OutCanon (onPath s k) := by
  unfold Machine.onPath
  split
  · rename_i e
    exact .next (hk _ (h.group? e))
  · exact .fault

theorem State.Canon.execRegs {i : Instr} {gd : Guard} {f : Group → Word → Group} {s : State} (h : s.Canon)
    (hf : ∀ g w, g.Canon s.nextId → (f g w).Canon s.nextId) : OutCanon (execRegs i gd f s) := by
  unfold Machine.execRegs
  refine h.onPath fun _ _ => ?_
  split
  · exact h.raise
  · extract_lets _
    refine h.onGroup fun _ h2 => Group.Canon.advance ?_
    split
    · exact h2
    · exact hf _ _ h2

theorem State.Canon.go {s : State} {stay : Word} (h : s.Canon) : (s.go stay).Canon := h.onGroup fun _ h1 => h1.advance

theorem State.Canon.execWord {i : Instr} {coll : Bool} {gd : Guard} {f : State → Group → Word → State} {s : State}
    (h : s.Canon) (hf : ∀ s g w, s.Canon → g.Canon s.nextId → (f s g w).Canon) :
    OutCanon (execWord i coll gd f s) := by
  unfold Machine.execWord
  refine h.onPath fun _ h1 => ?_
  split
  · exact h.raise
  · extract_lets _
    split
    · exact h.go
    · exact hf _ _ _ h h1

theorem Group.Canon.orFlags {N : Nat} {g : Group} {f : Flags} (hg : g.Canon N) : Group.Canon N (orFlags g f) :=
  { hg with }

theorem Group.Canon.fBody {N : Nat} {op : FOp} {packed three : Bool} {o : RForm} {g : Group} {act : Word}
    (hg : g.Canon N) : Group.Canon N (fBody op packed three o g act) := by
  unfold Machine.fBody
  refine eachLane_keeps _ hg fun _ _ _ _ h2 => ?_
  extract_lets _ _ _
  dsimp only
  exact h2.wrVs.orFlags

theorem State.Canon.execFadd {o : RForm} {s : State} (h : s.Canon) : OutCanon (execFadd o s) :=
  h.execRegs fun _ _ h1 => h1.fBody

theorem State.Canon.execFsub {o : RForm} {s : State} (h : s.Canon) : OutCanon (execFsub o s) :=
  h.execRegs fun _ _ h1 => h1.fBody

theorem State.Canon.execFmul {o : RForm} {s : State} (h : s.Canon) : OutCanon (execFmul o s) :=
  h.execRegs fun _ _ h1 => h1.fBody

theorem State.Canon.execFfma {o : RForm} {s : State} (h : s.Canon) : OutCanon (execFfma o s) :=
  h.execRegs fun _ _ h1 => h1.fBody

theorem State.Canon.execFfms {o : RForm} {s : State} (h : s.Canon) : OutCanon (execFfms o s) :=
  h.execRegs fun _ _ h1 => h1.fBody

theorem State.Canon.execFfnma {o : RForm} {s : State} (h : s.Canon) : OutCanon (execFfnma o s) :=
  h.execRegs fun _ _ h1 => h1.fBody

theorem State.Canon.execFmin {o : RForm} {s : State} (h : s.Canon) : OutCanon (execFmin o s) :=
  h.execRegs fun _ _ h1 => h1.fBody

theorem State.Canon.execFmax {o : RForm} {s : State} (h : s.Canon) : OutCanon (execFmax o s) :=
  h.execRegs fun _ _ h1 => h1.fBody

theorem State.Canon.execPadd {o : RForm} {s : State} (h : s.Canon) : OutCanon (execPadd o s) :=
  h.execRegs fun _ _ h1 => h1.fBody

theorem State.Canon.execPmul {o : RForm} {s : State} (h : s.Canon) : OutCanon (execPmul o s) :=
  h.execRegs fun _ _ h1 => h1.fBody

theorem State.Canon.execPfma {o : RForm} {s : State} (h : s.Canon) : OutCanon (execPfma o s) :=
  h.execRegs fun _ _ h1 => h1.fBody

theorem State.Canon.execPmin {o : RForm} {s : State} (h : s.Canon) : OutCanon (execPmin o s) :=
  h.execRegs fun _ _ h1 => h1.fBody

theorem State.Canon.execPmax {o : RForm} {s : State} (h : s.Canon) : OutCanon (execPmax o s) :=
  h.execRegs fun _ _ h1 => h1.fBody

theorem Group.Canon.fcmpBody {N : Nat} {k : FCmp} {o : RForm} {g : Group} {act : Word} (hg : g.Canon N) :
    Group.Canon N (fcmpBody k o g act) := by
  unfold Machine.fcmpBody
  refine eachLane_keeps _ hg fun _ _ _ _ h2 => ?_
  extract_lets _ _
  dsimp only
  exact h2.wrPBit.orFlags

theorem State.Canon.execFcmpp {k : FCmp} {o : RForm} {s : State} (h : s.Canon) : OutCanon (execFcmpp k o s) :=
  h.execRegs fun _ _ h1 => h1.fcmpBody

theorem Group.Canon.oneBody {N : Nat} {f : Nat → Nat × Flags} {nd : Nat} {o : RForm} {g : Group} {act : Word}
    (hg : g.Canon N) : Group.Canon N (oneBody f nd o g act) := by
  unfold Machine.oneBody
  refine eachLane_keeps _ hg fun _ _ _ _ h2 => ?_
  extract_lets _
  dsimp only
  exact h2.wrVs.orFlags

theorem State.Canon.execFclass {o : RForm} {s : State} (h : s.Canon) : OutCanon (execFclass o s) :=
  h.execRegs fun _ _ h1 => h1.oneBody

theorem State.Canon.execFseed {k : SeedFn} {o : RForm} {s : State} (h : s.Canon) : OutCanon (execFseed k o s) :=
  h.execRegs fun _ _ h1 => h1.oneBody

theorem State.Canon.execFrred {o : RForm} {s : State} (h : s.Canon) : OutCanon (execFrred o s) :=
  h.execRegs fun _ _ h1 => h1.oneBody

theorem Group.Canon.fscaleBody {N : Nat} {o : RForm} {g : Group} {act : Word} (hg : g.Canon N) :
    Group.Canon N (fscaleBody o g act) := by
  unfold Machine.fscaleBody
  refine eachLane_keeps _ hg fun _ _ _ _ h2 => ?_
  extract_lets _ _
  dsimp only
  exact h2.wrVs.orFlags

theorem State.Canon.execFscale {o : RForm} {s : State} (h : s.Canon) : OutCanon (execFscale o s) :=
  h.execRegs fun _ _ h1 => h1.fscaleBody

theorem State.Canon.execFexp {o : RForm} {s : State} (h : s.Canon) : OutCanon (execFexp o s) :=
  h.execRegs fun _ _ h1 => h1.oneBody

theorem State.Canon.execFmant {o : RForm} {s : State} (h : s.Canon) : OutCanon (execFmant o s) :=
  h.execRegs fun _ _ h1 => h1.oneBody

theorem Group.Canon.drawLane {N : Nat} {rm : Rm} {g : Group} {L : Nat} (hg : g.Canon N) :
    Group.Canon N (drawLane rm g L).1 := by
  unfold Machine.drawLane
  split
  · extract_lets _
    exact hg.mapLanes
  · exact hg

theorem Group.Canon.cvtBody {N : Nat} {src : Ty} {o : RForm} {g : Group} {act : Word} (hg : g.Canon N) :
    Group.Canon N (cvtBody src o g act) := by
  unfold Machine.cvtBody
  extract_lets _ _ _ _ _ _ _
  refine eachLane_keeps _ hg fun _ _ _ _ h2 => ?_
  extract_lets _ _ _ _
  split
  rename_i x2 _ e
  have hx2 : Group.Canon N x2 := h2.drawLane.fst e
  split
  split
  · dsimp only
    exact hx2.drawLane.wrVs.orFlags
  · split
    · extract_lets _
      exact hx2.wrVs.orFlags
    · exact hx2.wrVs.orFlags

theorem State.Canon.execCvt {src : Ty} {o : RForm} {s : State} (h : s.Canon) : OutCanon (execCvt src o s) :=
  h.execRegs fun _ _ h1 => h1.cvtBody

theorem Group.Canon.cvtblkBody {N : Nat} {src : Ty} {o : RForm} {g : Group} {act : Word} (hg : g.Canon N) :
    Group.Canon N (cvtblkBody src o g act) := by
  unfold Machine.cvtblkBody
  extract_lets _ _
  dsimp only
  refine eachLane_keeps _ (Group.Canon.orFlags (foldl_keep
    (P := fun b : Group × List (FVal × Nat) × Bool => Group.Canon N b.1) hg fun _ _ h => ?_)) fun _ _ _ _ h2 =>
    h2.wrVs
  split
  · exact h.drawLane
  · exact h

theorem State.Canon.execCvtblk {src : Ty} {o : RForm} {s : State} (h : s.Canon) : OutCanon (execCvtblk src o s) :=
  h.execRegs fun _ _ h1 => h1.cvtblkBody

theorem Group.Canon.intBody {N : Nat} {uni : Bool} {op : IntOp} {o : RForm} {g : Group} {act : Word} (hg : g.Canon N)
    : Group.Canon N (intBody uni op o g act) := by
  unfold Machine.intBody
  split
  extract_lets _
  split
  · dsimp only
    exact hg.wrSs.orFlags
  · refine eachLane_keeps _ hg fun _ _ _ _ h2 => ?_
    dsimp only
    exact h2.wrVs.orFlags

theorem State.Canon.execInt {op : IntOp} {i : Instr} {o : RForm} {s : State} (h : s.Canon) :
    OutCanon (execInt op i o s) :=
  h.execRegs fun _ _ h1 => h1.intBody

theorem State.Canon.execAdd {o : RForm} {s : State} (h : s.Canon) : OutCanon (execAdd o s) := h.execInt

theorem State.Canon.execSub {o : RForm} {s : State} (h : s.Canon) : OutCanon (execSub o s) := h.execInt

theorem State.Canon.execNeg {o : RForm} {s : State} (h : s.Canon) : OutCanon (execNeg o s) := h.execInt

theorem State.Canon.execAbs {o : RForm} {s : State} (h : s.Canon) : OutCanon (execAbs o s) := h.execInt

theorem State.Canon.execMul {o : RForm} {s : State} (h : s.Canon) : OutCanon (execMul o s) := h.execInt

theorem State.Canon.execMulHi {o : RForm} {s : State} (h : s.Canon) : OutCanon (execMulHi o s) := h.execInt

theorem State.Canon.execMulWide {o : RForm} {s : State} (h : s.Canon) : OutCanon (execMulWide o s) := h.execInt

theorem State.Canon.execMad {o : RForm} {s : State} (h : s.Canon) : OutCanon (execMad o s) := h.execInt

theorem State.Canon.execMadHi {o : RForm} {s : State} (h : s.Canon) : OutCanon (execMadHi o s) := h.execInt

theorem State.Canon.execMadWide {o : RForm} {s : State} (h : s.Canon) : OutCanon (execMadWide o s) := h.execInt

theorem State.Canon.execMin {o : RForm} {s : State} (h : s.Canon) : OutCanon (execMin o s) := h.execInt

theorem State.Canon.execMax {o : RForm} {s : State} (h : s.Canon) : OutCanon (execMax o s) := h.execInt

theorem State.Canon.execAnd {o : RForm} {s : State} (h : s.Canon) : OutCanon (execAnd o s) := h.execInt

theorem State.Canon.execOr {o : RForm} {s : State} (h : s.Canon) : OutCanon (execOr o s) := h.execInt

theorem State.Canon.execXor {o : RForm} {s : State} (h : s.Canon) : OutCanon (execXor o s) := h.execInt

theorem State.Canon.execNot {o : RForm} {s : State} (h : s.Canon) : OutCanon (execNot o s) := h.execInt

theorem State.Canon.execAndn {o : RForm} {s : State} (h : s.Canon) : OutCanon (execAndn o s) := h.execInt

theorem State.Canon.execOrn {o : RForm} {s : State} (h : s.Canon) : OutCanon (execOrn o s) := h.execInt

theorem State.Canon.execXnor {o : RForm} {s : State} (h : s.Canon) : OutCanon (execXnor o s) := h.execInt

theorem State.Canon.execShl {o : RForm} {s : State} (h : s.Canon) : OutCanon (execShl o s) := h.execInt

theorem State.Canon.execShr {o : RForm} {s : State} (h : s.Canon) : OutCanon (execShr o s) := h.execInt

theorem State.Canon.execSar {o : RForm} {s : State} (h : s.Canon) : OutCanon (execSar o s) := h.execInt

theorem State.Canon.execRol {o : RForm} {s : State} (h : s.Canon) : OutCanon (execRol o s) := h.execInt

theorem State.Canon.execRor {o : RForm} {s : State} (h : s.Canon) : OutCanon (execRor o s) := h.execInt

theorem State.Canon.execBfe {o : RForm} {s : State} (h : s.Canon) : OutCanon (execBfe o s) := h.execInt

theorem State.Canon.execBfi {o : RForm} {s : State} (h : s.Canon) : OutCanon (execBfi o s) := h.execInt

theorem State.Canon.execPopc {o : RForm} {s : State} (h : s.Canon) : OutCanon (execPopc o s) := h.execInt

theorem State.Canon.execClz {o : RForm} {s : State} (h : s.Canon) : OutCanon (execClz o s) := h.execInt

theorem State.Canon.execBrev {o : RForm} {s : State} (h : s.Canon) : OutCanon (execBrev o s) := h.execInt

theorem State.Canon.execMov {o : RForm} {s : State} (h : s.Canon) : OutCanon (execMov o s) := h.execInt

theorem State.Canon.execMovI64 {o : RForm} {s : State} (h : s.Canon) : OutCanon (execMovI64 o s) := h.execInt

theorem State.Canon.execLea {o : RForm} {s : State} (h : s.Canon) : OutCanon (execLea o s) := h.execInt

theorem State.Canon.execLeaN {o : RForm} {s : State} (h : s.Canon) : OutCanon (execLeaN o s) := h.execInt

theorem State.Canon.execLeaS {o : RForm} {s : State} (h : s.Canon) : OutCanon (execLeaS o s) := h.execInt

theorem Group.Canon.immBody {N : Nat} {uni : Bool} {op : IntImmOp} {o : IForm} {g : Group} {act : Word}
    (hg : g.Canon N) : Group.Canon N (immBody uni op o g act) := by
  unfold Machine.immBody
  extract_lets _ _ _
  split
  · dsimp only
    exact hg.wrSs
  · refine eachLane_keeps _ hg fun _ _ _ _ h2 => ?_
    dsimp only
    exact h2.wrVs

theorem State.Canon.execImm {op : IntImmOp} {i : Instr} {o : IForm} {s : State} (h : s.Canon) :
    OutCanon (execImm op i o s) :=
  h.execRegs fun _ _ h1 => h1.immBody

theorem State.Canon.execAddImm {o : IForm} {s : State} (h : s.Canon) : OutCanon (execAddImm o s) := h.execImm

theorem State.Canon.execSubImm {o : IForm} {s : State} (h : s.Canon) : OutCanon (execSubImm o s) := h.execImm

theorem State.Canon.execAndImm {o : IForm} {s : State} (h : s.Canon) : OutCanon (execAndImm o s) := h.execImm

theorem State.Canon.execOrImm {o : IForm} {s : State} (h : s.Canon) : OutCanon (execOrImm o s) := h.execImm

theorem State.Canon.execXorImm {o : IForm} {s : State} (h : s.Canon) : OutCanon (execXorImm o s) := h.execImm

theorem State.Canon.execMinImm {o : IForm} {s : State} (h : s.Canon) : OutCanon (execMinImm o s) := h.execImm

theorem State.Canon.execMaxImm {o : IForm} {s : State} (h : s.Canon) : OutCanon (execMaxImm o s) := h.execImm

theorem State.Canon.execMovImm {o : IForm} {s : State} (h : s.Canon) : OutCanon (execMovImm o s) := h.execImm

theorem State.Canon.execMovI64Imm {o : IForm} {s : State} (h : s.Canon) : OutCanon (execMovI64Imm o s) := h.execImm

theorem State.Canon.execUniformForm {u : UniForm} {s : State} (h : s.Canon) : OutCanon (execUniformForm u s) := by
  unfold Machine.execUniformForm
  split
  · exact h.execRegs fun _ _ h1 => h1.intBody
  · exact h.execRegs fun _ _ h1 => h1.immBody

theorem Group.Canon.carryBody {N : Nat} {sub : Bool} {o : RForm} {g : Group} {act : Word} (hg : g.Canon N) :
    Group.Canon N (carryBody sub o g act) := by
  unfold Machine.carryBody
  refine eachLane_keeps _ hg fun _ _ _ _ h2 => ?_
  extract_lets _ _ _ _ _ _ _
  exact h2.wrVs.wrPBit

theorem State.Canon.execAddc {o : RForm} {s : State} (h : s.Canon) : OutCanon (execAddc o s) :=
  h.execRegs fun _ _ h1 => h1.carryBody

theorem State.Canon.execSubc {o : RForm} {s : State} (h : s.Canon) : OutCanon (execSubc o s) :=
  h.execRegs fun _ _ h1 => h1.carryBody

theorem Group.Canon.icmpBody {N : Nat} {k : ICmp} {o : RForm} {g : Group} {act : Word} (hg : g.Canon N) :
    Group.Canon N (icmpBody k o g act) := by
  unfold Machine.icmpBody
  refine eachLane_keeps _ hg fun _ _ _ _ h2 => ?_
  extract_lets _ _
  exact h2.wrPBit

theorem State.Canon.execIcmpp {k : ICmp} {o : RForm} {s : State} (h : s.Canon) : OutCanon (execIcmpp k o s) :=
  h.execRegs fun _ _ h1 => h1.icmpBody

theorem Group.Canon.selBody {N : Nat} {o : RForm} {g : Group} {act : Word} (hg : g.Canon N) :
    Group.Canon N (selBody o g act) := by
  unfold Machine.selBody
  extract_lets _ _
  refine eachLane_keeps _ hg fun _ _ _ _ h2 => ?_
  extract_lets _
  exact h2.wrVs

theorem State.Canon.execSel {o : RForm} {s : State} (h : s.Canon) : OutCanon (execSel o s) :=
  h.execRegs fun _ _ h1 => h1.selBody

theorem Group.Canon.dot4Body {N : Nat} {o : RForm} {g : Group} {act : Word} (hg : g.Canon N) :
    Group.Canon N (dot4Body o g act) := by
  unfold Machine.dot4Body
  refine eachLane_keeps _ hg fun _ _ _ _ h2 => ?_
  extract_lets _ _ _
  dsimp only
  exact h2.wrVs.orFlags

theorem State.Canon.execDot4 {o : RForm} {s : State} (h : s.Canon) : OutCanon (execDot4 o s) :=
  h.execRegs fun _ _ h1 => h1.dot4Body

theorem Group.Canon.predBody {N : Nat} {f : Word → Word → Word} {two : Bool} {o : RForm} {g : Group} {act : Word}
    (hg : g.Canon N) : Group.Canon N (predBody f two o g act) := by
  unfold Machine.predBody
  extract_lets _ _ _ _ _
  exact hg.wrP

theorem State.Canon.execPand {o : RForm} {s : State} (h : s.Canon) : OutCanon (execPand o s) :=
  h.execRegs fun _ _ h1 => h1.predBody

theorem State.Canon.execPor {o : RForm} {s : State} (h : s.Canon) : OutCanon (execPor o s) :=
  h.execRegs fun _ _ h1 => h1.predBody

theorem State.Canon.execPxor {o : RForm} {s : State} (h : s.Canon) : OutCanon (execPxor o s) :=
  h.execRegs fun _ _ h1 => h1.predBody

theorem State.Canon.execPandn {o : RForm} {s : State} (h : s.Canon) : OutCanon (execPandn o s) :=
  h.execRegs fun _ _ h1 => h1.predBody

theorem State.Canon.execPorn {o : RForm} {s : State} (h : s.Canon) : OutCanon (execPorn o s) :=
  h.execRegs fun _ _ h1 => h1.predBody

theorem State.Canon.execPnot {o : RForm} {s : State} (h : s.Canon) : OutCanon (execPnot o s) :=
  h.execRegs fun _ _ h1 => h1.predBody

theorem State.Canon.execPmov {o : RForm} {s : State} (h : s.Canon) : OutCanon (execPmov o s) :=
  h.execRegs fun _ _ h1 => h1.predBody

theorem State.Canon.execP2s {o : RForm} {s : State} (h : s.Canon) : OutCanon (execP2s o s) := by
  unfold Machine.execP2s
  refine h.execRegs fun _ _ h1 => ?_
  extract_lets _
  exact h1.wrS

theorem State.Canon.execS2p {o : RForm} {s : State} (h : s.Canon) : OutCanon (execS2p o s) := by
  unfold Machine.execS2p
  refine h.execRegs fun _ _ h1 => ?_
  extract_lets _
  exact eachLane_keeps _ h1 fun _ _ _ _ h4 => h4.wrPBit

end Sys2Proof.Machine
end

