-- ==== Sys2Proof/Proofs/CanonRows.lean ====
section
/-! SUPPORT. The canonical form is kept: rows, records and the translation. -/

namespace Sys2Proof.Machine

/-- Bytes put over bytes are as many. -/
theorem length_keep_putBytes {d bs : List Byte} {ofs n : Nat} (h : d.length = n) : (putBytes d ofs bs).length = n :=
  List.length_mapIdx.trans h

theorem Mem.Canon.rawPut {m : Mem} {a : Nat} {bs : List Byte} (hm : m.Canon) : (rawPut m a bs).Canon :=
  { hm with raw := rawPut_wf m a bs hm.raw }

theorem State.Canon.onExtent {s : State} {stack e : Nat} {f : Extent → Extent} (h : s.Canon) :
    (s.onExtent stack e f).Canon :=
  { h with rel := { h.rel with ext := swf_set h.rel.ext } }

theorem State.Canon.pokeSector {s : State} {r : RowId} {slot : Nat} {d : List Byte} {poison : Bool} (h : s.Canon) :
    (s.pokeSector r slot d poison).Canon := by
  unfold State.pokeSector
  extract_lets _ m
  have hm : m.Canon := h.mem.rawPut
  clear_value m
  exact { h with mem := hm.rawPut }

theorem State.Canon.onLine {s : State} {l : LineId} {f : DepotLine → DepotLine} (h : s.Canon)
    (hf : ∀ x, x.Canon → (f x).Canon) : (s.onLine l f).Canon := by
  unfold State.onLine
  split
  · exact h
  · rename_i x e
    exact { h with mem := { h.mem with depot := forall_mem_snoc (forall_mem_keep h.mem.depot) (hf x (h.line? e)) } }

theorem State.Canon.writeSector {s : State} {r : RowId} {slot ofs : Nat} {bs : List Byte} {tag : Bool} (h : s.Canon) :
    (s.writeSector r slot ofs bs tag).Canon := by
  unfold State.writeSector
  dsimp only
  exact h.pokeSector

theorem State.Canon.stackWrite {s : State} {l : LineId} {ofs : Nat} {bs : List Byte} {tag : Nat → Bool} (h : s.Canon)
    : (s.stackWrite l ofs bs tag).Canon := by
  unfold State.stackWrite
  refine foldl_keep h fun _ _ h1 => ?_
  extract_lets _ _
  split
  · dsimp only
    exact h1.writeSector
  · exact h1

theorem State.Canon.unbar {s : State} {pa n : Nat} (h : s.Canon) : (s.unbar pa n).Canon := { h with }

theorem State.Canon.noticedAt {s : State} {n pa : Nat} (h : s.Canon) : (s.noticedAt n pa).Canon := by
  unfold State.noticedAt
  extract_lets _ s1 _
  have hs1 : s1.Canon := h.unbar
  clear_value s1
  exact { hs1 with mem := { hs1.mem with } }

theorem State.Canon.noticed {s : State} {l : LineId} {ofs n : Nat} (h : s.Canon) : (s.noticed l ofs n).Canon :=
  foldl_keep h fun _ _ h1 => h1.noticedAt

theorem State.Canon.applyLine {s : State} {l : LineId} {ofs : Nat} {bs : List Byte} {tag : Nat → Bool} (h : s.Canon) :
    (s.applyLine l ofs bs tag).Canon := by
  unfold State.applyLine
  extract_lets s1
  have hs1 : s1.Canon := by
    unfold s1
    split
    · exact h.onLine fun _ h1 => { bytes := length_keep_putBytes h1.bytes }
    · exact h.stackWrite
  clear_value s1
  exact hs1.noticed

theorem State.Canon.setRow {s : State} {r : RowId} {x : RowState} (h : s.Canon) : (s.setRow r x).Canon := by
  unfold State.setRow
  extract_lets _ _
  exact { h with mem := { h.mem with } }

theorem State.Canon.devArrive {s : State} {l : LineId} {ofs : Nat} {bs : List Byte} {after : Option LineId}
    (h : s.Canon) : (s.devArrive l ofs bs after).Canon := by
  unfold State.devArrive
  split
  · exact h.applyLine
  · extract_lets _ _
    exact { h with mem := { h.mem with } }

theorem State.Canon.devMend {s : State} {pa n : Nat} (h : s.Canon) : (s.devMend pa n).Canon := by
  unfold State.devMend
  refine foldl_keep h fun _ _ h1 => ?_
  split
  split
  · extract_lets _
    split
    · exact h1
    · refine foldl_keep h1 fun _ _ h2 => ?_
      dsimp only
      split
      · exact h2.pokeSector
      · exact h2
  · exact h1

theorem State.Canon.devWrite {s : State} {pa : Nat} {bs : List Byte} {after : Option LineId} (h : s.Canon) :
    (s.devWrite pa bs after).Canon := by
  unfold State.devWrite
  refine foldl_keep h fun _ _ h1 => ?_
  dsimp only
  split
  · exact h1.devArrive
  · exact h1

theorem State.Canon.devPut {s : State} {pa n x : Nat} (h : s.Canon) : (s.devPut pa n x).Canon := h.devWrite

theorem State.Canon.raiseImprecise {s : State} {gid code info : Nat} (h : s.Canon) :
    (raiseImprecise s gid code info).Canon := by
  unfold Machine.raiseImprecise
  extract_lets s1
  have hs1 : s1.Canon := h.onGroup fun _ h1 => { h1 with impInfo := swf_set h1.impInfo }
  clear_value s1
  split
  · exact hs1.devPut
  · exact hs1

theorem State.Canon.imprecise {s : State} {w : Who} {code info full : Nat} (h : s.Canon) :
    (s.imprecise w code info full).Canon := by
  unfold State.imprecise
  split
  · split
    · exact h.raiseImprecise
    · exact h.raiseRecord
  · exact h.raiseRecord

theorem State.Canon.charge {s : State} {w : Who} {c : Nat} (h : s.Canon) : (s.charge w c).Canon := by
  unfold State.charge
  split
  · exact h
  · extract_lets _ _ s1
    have hs1 : s1.Canon := h.onCtx
    clear_value s1
    split
    · exact h
    · split
      · exact hs1.imprecise
      · exact hs1

theorem State.Canon.log_write {kind : Nat} {at_ : LogAt} {ctx : Nat} {s : State} {rb : Nat} {b : RelBlock}
    {put used sector : Nat} (h : s.Canon) : (State.log.write kind at_ ctx s rb b put used sector).Canon := by
  unfold State.log.write
  split
  · exact h.devPut
  · extract_lets _ s1 s2 s3 _
    have hs1 : s1.Canon := by
      unfold s1
      split
      · exact h.send
      · exact h
    clear_value s1
    have hs2 : s2.Canon := hs1.devWrite
    clear_value s2
    have hs3 : s3.Canon := hs2.devWrite
    clear_value s3
    exact { hs3 with rel := { hs3.rel with } }

theorem State.Canon.log {s : State} {kind : Nat} {at_ : LogAt} {ctx : Nat} (h : s.Canon) :
    (s.log kind at_ ctx).Canon := by
  unfold State.log
  extract_lets _ _ s1 _ _ _ _
  have hs1 : s1.Canon := h.devMend
  clear_value s1
  split
  · exact h
  · split
    · split
      · extract_lets _ s2
        have hs2 : s2.Canon := hs1.devMend
        clear_value s2
        exact hs2.devPut
      · exact hs1.log_write
    · exact hs1.log_write

theorem State.Canon.machineCheck {s : State} {w : Who} {info : Nat} {at_ : LogAt} (h : s.Canon) :
    (s.machineCheck w info at_).Canon :=
  h.imprecise.log

theorem State.Canon.clearWindow {s : State} (h : s.Canon) : s.clearWindow.Canon := by
  unfold State.clearWindow
  split
  · exact h
  · exact { h with rel := { h.rel with } }

theorem State.Canon.dueRow {s : State} {r : RowId} (h : s.Canon) : (s.dueRow r).Canon :=
  { h with rel := { h.rel with } }

/-- The counts of corrected errors hold no map of the canonical form. -/
theorem State.Canon.withCounts {s : State} {m : SMap Nat} {bs : List Nat} (h : s.Canon) :
    ({ s with rel := { s.rel with ceCount := m, reinforcing := bs } } : State).Canon :=
  { h with rel := { h.rel with } }

theorem State.Canon.countCorrected {s : State} {r : RowId} (h : s.Canon) : (s.countCorrected r).Canon := by
  unfold State.countCorrected
  extract_lets s1 k n _ s2 _ _ s3
  have hs1 : s1.Canon := h.clearWindow
  clear_value s1 k n
  have hs2 : s2.Canon := hs1.withCounts
  clear_value s2
  have hs3 : s3.Canon := by
    unfold s3
    split
    · exact hs2.withCounts.log
    · exact hs2
  clear_value s3
  split
  · exact hs3.dueRow
  · exact hs3

theorem State.Canon.demandSector {s : State} {w : Who} {r : RowId} {slot : Nat} (h : s.Canon) :
    (s.demandSector w r slot).2.Canon := by
  unfold State.demandSector
  split
  split
  · exact h
  · exact h
  · extract_lets s1 s2
    have hs1 : s1.Canon := h.pokeSector
    clear_value s1
    have hs2 : s2.Canon := hs1.charge.log
    clear_value s2
    exact hs2.countCorrected
  · exact h.charge.log

theorem State.Canon.meetSector {s : State} {w : Who} {r : RowId} {slot n : Nat} (h : s.Canon) :
    (s.meetSector w r slot n).Canon := by
  unfold State.meetSector
  split
  · exact h
  · exact h.demandSector

theorem State.Canon.meetLine {s : State} {w : Who} {l : LineId} {ofs n : Nat} (h : s.Canon) :
    (s.meetLine w l ofs n).Canon := by
  unfold State.meetLine
  split
  · exact h
  · refine foldl_keep h fun _ _ h1 => ?_
    extract_lets _ _
    dsimp only
    split
    · exact h1.meetSector
    · exact h1

theorem State.Canon.demandLine {s : State} {w : Who} {l : LineId} (h : s.Canon) : (s.demandLine w l).2.Canon := by
  unfold State.demandLine
  dsimp only
  exact h.demandSector.demandSector

theorem State.Canon.devTouch {s : State} {pa n : Nat} (h : s.Canon) : (s.devTouch pa n).Canon := by
  unfold State.devTouch
  refine foldl_keep h fun _ _ h1 => ?_
  split
  split
  · extract_lets _
    split
    · exact h1
    · exact h1.demandLine
  · exact h1

theorem State.Canon.homeDemand {s : State} {w : Who} {l : LineId} (h : s.Canon) : (s.homeDemand w l).2.Canon := by
  unfold State.homeDemand
  split
  · exact h
  · exact h.demandLine

theorem State.Canon.verifyLine {s : State} {l : LineId} {poison : Word} (h : s.Canon) :
    (s.verifyLine l poison).2.Canon := by
  unfold State.verifyLine
  extract_lets _ _
  split
  · exact h
  · refine foldl_keep (P := fun b : Word × State => b.2.Canon) { h with rel := { h.rel with } } fun _ _ h1 => ?_
    dsimp only
    split
    · exact h1.log
    · exact h1

theorem State.Canon.writeBack {s : State} {w : Who} {l : LineId} {bytes : List Byte} {poison : Word} (h : s.Canon) :
    (s.writeBack w l bytes poison).Canon := by
  unfold State.writeBack
  split
  rename_i s1 e
  have hs1 : s1.Canon := h.verifyLine.snd e
  refine foldl_keep hs1 fun _ _ h1 => ?_
  split
  extract_lets _ _ _
  split
  · exact h1.pokeSector.machineCheck
  · exact h1.pokeSector

theorem State.Canon.holdBank {s : State} {r : RowId} {w : HeldWork} (h : s.Canon) : (s.holdBank r w).Canon :=
  { h with mem := { h.mem with } }

theorem State.Canon.hold {s : State} {r : RowId} {w : HeldWork} (h : s.Canon) : (s.hold r w).Canon := by
  unfold State.hold
  split
  · exact h.holdBank
  · split <;> exact { h with mem := { h.mem with } }

theorem State.Canon.unhold {s : State} {h : HoldEntry} (hs : s.Canon) : (s.unhold h).Canon := by
  unfold State.unhold
  extract_lets _ _ _
  split <;> exact { hs with mem := { hs.mem with } }

theorem State.Canon.dropHold {s : State} {rs : List RowId} {w : HeldWork} (h : s.Canon) :
    (s.dropHold rs w).Canon := by
  unfold State.dropHold
  extract_lets _ s1
  have hs1 : s1.Canon := { h with mem := { h.mem with } }
  clear_value s1
  exact foldl_keep hs1 fun _ _ h1 => h1.unhold

theorem State.Canon.awaitRow {s : State} {r : RowId} {w : HeldWork} (h : s.Canon) : (s.awaitRow r w).Canon := by
  unfold State.awaitRow
  split
  · exact h.hold
  · split
    · exact h.unhold.holdBank
    · exact h

theorem State.Canon.passRows {s : State} {rs : List RowId} {w : HeldWork} (h : s.Canon) :
    IfEither State.Canon State.Canon (s.passRows rs w) := by
  unfold State.passRows
  split
  · exact .error h.awaitRow
  · exact .ok h.dropHold

theorem State.Canon.awaitRows {s : State} {l : LineId} (h : s.Canon) : (s.awaitRows l).Canon := by
  unfold State.awaitRows
  split
  · rename_i s1 e
    have hs1 : s1.Canon := h.passRows.of_error e
    exact hs1
  · exact h

theorem State.Canon.devAwait {s : State} {pa n : Nat} (h : s.Canon) : (s.devAwait pa n).Canon := by
  unfold State.devAwait
  refine foldl_keep h fun _ _ h1 => ?_
  split
  split
  · extract_lets _
    split
    · exact h1.awaitRows
    · exact h1
  · exact h1

theorem State.Canon.devFetch {s : State} {pa n : Nat} (h : s.Canon) :
    IfEither State.Canon (fun a => a.2.Canon) (s.devFetch pa n) := by
  unfold State.devFetch
  split
  · exact .error h.devAwait
  · exact .ok h.devTouch

theorem State.Canon.onSerial {s : State} {root : Nat} {f : Serial → Serial} (h : s.Canon) :
    (s.onSerial root f).Canon :=
  { h with }

theorem State.Canon.logAppend {s : State} {x : Serial} {type addr : Nat} {payload : List Byte} (h : s.Canon) :
    (s.logAppend x type addr payload).Canon := by
  unfold State.logAppend
  split
  · exact h
  · extract_lets _ s1 _ s2
    have hs1 : s1.Canon := h.devTouch
    clear_value s1
    have hs2 : s2.Canon := hs1.devWrite
    clear_value s2
    split
    · exact hs1.devPut.onSerial
    · exact hs2.devPut.onSerial

theorem State.Canon.logTake {s : State} {x : Serial} {e : LogEntry} (h : s.Canon) : (s.logTake x e).Canon := by
  unfold State.logTake
  extract_lets _
  exact h.devTouch.devTouch.onSerial

theorem State.Canon.hostValue {s : State} {gid va n : Nat} {ext : Option ExtVal} (h : s.Canon) :
    IfSome (fun a => a.2.2.Canon) (s.hostValue gid va n ext) := by
  unfold State.hostValue
  split
  · split
    · split
      · split
        · exact .some h.logTake
        · exact .none
      · exact .none
    · exact IfSome.map fun _ => h.logAppend
  · exact IfSome.map fun _ => h

theorem State.Canon.logInbound {s : State} {r : Inbound} {result : PeerAnswer} (h : s.Canon) :
    (s.logInbound r result).Canon := by
  unfold State.logInbound
  split
  · exact h.logAppend
  · exact h

theorem State.Canon.devOr {s : State} {a bits : Nat} (h : s.Canon) : (s.devOr a bits).Canon := by
  unfold State.devOr
  split
  · extract_lets _
    split
    rename_i s1 e2
    have hs1 : s1.Canon := h.fresh.snd e2
    have hk := fresh_lt e2
    extract_lets r _ _ _
    have hr : Req.Canon s1.nextId r := { id := hk }
    clear_value r
    exact State.Canon.push { hs1 with
        mem := { hs1.mem with }
        eng := { hs1.eng with reqs := forall_mem_snoc hs1.eng.reqs hr } }
  · exact h

theorem State.Canon.tableOr {s : State} {pa x bits : Nat} (h : s.Canon) : (s.tableOr pa x bits).Canon := by
  unfold State.tableOr
  split
  · exact h
  · split
    · exact h.devOr
    · exact h.send
    · exact h

theorem State.Canon.tableAwait {s : State} {pa : Nat} (h : s.Canon) : (s.tableAwait pa).Canon := by
  unfold State.tableAwait
  split
  · exact h.devAwait
  · exact h

theorem State.Canon.tableTouch {s : State} {pa : Nat} (h : s.Canon) : (s.tableTouch pa).Canon := by
  unfold State.tableTouch
  split
  · exact h.devTouch
  · exact h

theorem State.Canon.keepUpper {s : State} {pasid table idx word : Nat} (h : s.Canon) :
    (s.keepUpper pasid table idx word).Canon := by
  unfold State.keepUpper
  extract_lets _ _ _
  split
  · exact h
  · exact { h with slots := h.slots }

theorem State.Canon.walkLevels {w : Walk} {pf : Profile} {ctx0 : Bool} {n t : Nat} {host : List (BitVec 64)}
    {s : State} (h : s.Canon) : (walkLevels w pf ctx0 n t host s).2.Canon := by
  induction n generalizing t host s with
  | zero =>
    unfold Machine.walkLevels
    exact h
  | succ _ ih =>
    unfold Machine.walkLevels
    extract_lets _ _ _ _ _ _ _ _
    split
    · exact h
    · extract_lets _ rd s1
      have hs1 : s1.Canon := by
        unfold s1
        split
        · exact h
        · exact h.tableTouch
      clear_value s1 rd
      split
      · exact h
      · exact h.tableAwait
      · split
        · exact hs1
        · extract_lets _ _ s2
          have hs2 : s2.Canon := hs1.tableOr
          clear_value s2
          split
          · split
            · exact hs1
            · split
              · exact hs1
              · split
                · exact hs1
                · split
                  · exact hs1
                  · split
                    · exact hs1
                    · exact hs2
          · exact ih hs1.keepUpper

theorem State.Canon.walk {s : State} {w : Walk} {ctx0 : Bool} {host : List (BitVec 64)} (h : s.Canon) :
    (s.walk w ctx0 host).2.Canon := by
  unfold State.walk
  extract_lets _ s1
  have hs1 : s1.Canon := h.devTouch
  clear_value s1
  split
  · exact h
  · split
    · exact h.devAwait
    · split
      · exact h
      · extract_lets _ _ _ _ _
        split
        · exact hs1
        · split
          · exact hs1
          · exact hs1.walkLevels

theorem State.Canon.trimVictims {s : State} {cluster : Nat} (h : s.Canon) : (s.trimVictims cluster).Canon := by
  unfold State.trimVictims
  extract_lets _ _ _
  split
  · exact h
  · exact { h with slots := h.slots }

theorem State.Canon.tlbFill {s : State} {e : TlbEntry} (h : s.Canon) : (s.tlbFill e).Canon := by
  unfold State.tlbFill
  extract_lets _ _ _ _ _
  exact State.Canon.trimVictims { h with slots := h.slots }

theorem State.Canon.askWalk {s : State} {cluster pasid va : Nat} {kind : AccKind} {who : Walker} (h : s.Canon) :
    (s.askWalk cluster pasid va kind who).Canon := by
  unfold State.askWalk
  extract_lets _
  split
  · exact h
  · split
    rename_i s1 e
    have hs1 : s1.Canon := h.fresh.snd e
    exact { hs1 with }

theorem State.Canon.dropTranslations {s : State} {pasid : Option Nat} {base len : Nat} (h : s.Canon) :
    (s.dropTranslations pasid base len).Canon := by
  unfold State.dropTranslations
  extract_lets _ _ _ _ _ _
  refine { h with
      mem := { h.mem with }
      eng := { h.eng with reqs := forall_mem_change h.eng.reqs fun _ h1 => ?_ }
      slots := h.slots }
  split
  · exact { h1 with }
  · exact h1

end Sys2Proof.Machine
end

