-- ==== Sys2Proof/Proofs/CanonMemory.lean ====
section
/-! SUPPORT. The canonical form is kept: the memory system and its accesses. -/

namespace Sys2Proof.Machine

/-- A correction changes no byte's place. -/
theorem length_rsCorrect {r t : Nat} {d d' : List Byte} {diff : List Nat} (h : rsCorrect r t d diff = some d') :
    d'.length = d.length := by
  unfold rsCorrect at h
  extract_lets syn at h
  split at h
  · exact absurd h (by simp)
  · obtain rfl := Option.some.inj h
    refine foldl_keep (P := fun x : List Byte => x.length = d.length) rfl fun x a hx => ?_
    dsimp only
    split
    · exact hx
    · exact (List.length_set.trans List.length_set).trans hx

theorem length_check (c : Code) (d code : List Byte) : (c.check d code).1.length = d.length := by
  unfold Code.check
  extract_lets diff sym
  split
  · rfl
  split
  · rfl
  cases c with
  | N => rfl
  | D => rfl
  | P =>
    dsimp only
    split
    · rename_i e; exact length_rsCorrect e
    · rfl
  | PP =>
    dsimp only
    split
    · rename_i e; exact length_rsCorrect e
    · rfl

theorem length_peekSector (s : State) (r : RowId) (n : Nat) : (s.peekSector r n).1.length = 64 := by
  unfold State.peekSector
  exact (length_check ..).trans (by simp [rawBytes])

theorem length_demandSector (s : State) (w : Who) (r : RowId) (n : Nat) : (s.demandSector w r n).1.1.length = 64 := by
  have h := length_peekSector s r n
  unfold State.demandSector
  dsimp only
  split <;> exact h

/-- A line that is read has its 128 bytes (R82). -/
theorem length_keep_demandLine (s : State) (w : Who) (l : LineId) : (s.demandLine w l).1.1.length = 128 :=
  List.length_append.trans (congrArg₂ (· + ·) (length_demandSector ..) (length_demandSector ..))

theorem State.Canon.devBit {s : State} {a L : Nat} {b : Bool} (h : s.Canon) : (s.devBit a L b).Canon := by
  unfold State.devBit
  extract_lets _
  exact h.devPut

theorem State.Canon.frameWord {s : State} {a : Nat} {uni : Bool} {n L : Nat} {x : TW} (h : s.Canon) :
    (s.frameWord a uni n L x).Canon := by
  unfold State.frameWord
  split <;> exact h.devPut.devBit

theorem State.Canon.frameReturn {s : State} {g : Group} {a : Nat} {r : Req} {uni : Bool} {ws : List TW} (h : s.Canon)
    : (s.frameReturn g a r uni ws).Canon := by
  unfold State.frameReturn
  extract_lets s1 _ _ s2
  have hs1 : s1.Canon := by
    unfold s1
    refine foldl_keep h fun _ _ h1 => ?_
    dsimp only
    exact h1.frameWord
  clear_value s1
  have hs2 : s2.Canon := by
    unfold s2
    split
    · exact hs1.devPut
    · exact hs1
  clear_value s2
  exact hs2.onGroup fun _ h1 => { h1 with }

theorem State.Canon.freshFetch {s : State} {core pasid : Nat} (h : s.Canon) : (s.freshFetch core pasid).Canon :=
  { h with mem := { h.mem with } }

theorem State.Canon.dropReturn {s : State} {r : Req} (h : s.Canon) : (s.dropReturn r).Canon := by
  unfold State.dropReturn
  refine State.Canon.countEvent (h.onGroup fun _ h1 => ?_)
  extract_lets _
  exact { h1.forget with }

theorem State.Canon.dropFramed {s : State} {gid a : Nat} (h : s.Canon) : (s.dropFramed gid a).Canon := by
  unfold State.dropFramed
  split
  · exact h.devPut
  · exact h

theorem State.Canon.deliver {s : State} {r : Req} {uni : Bool} {ws : List TW} (h : s.Canon) :
    (s.deliver r uni ws).Canon := by
  unfold State.deliver
  extract_lets s1
  have hs1 : s1.Canon := h.dropReq
  clear_value s1
  split
  · exact hs1.countEvent
  · extract_lets s2
    have hs2 : s2.Canon := by
      unfold s2
      split
      · exact hs1.freshFetch
      · exact hs1
    clear_value s2
    split
    · exact hs2.dropReturn
    · split
      · split
        · exact hs2.frameReturn
        · exact hs2.dropReturn.dropFramed
      · split
        · exact hs2.dropReturn
        · exact hs2.onGroup fun _ h1 => h1.returned

theorem State.Canon.grant {s : State} {l : LineId} {x : Nat} (h : s.Canon) : (s.grant l x).Canon := by
  unfold State.grant
  extract_lets _ _
  exact { h with mem := { h.mem with } }

theorem DepotLine.Canon.setMarks {x : DepotLine} {h : Nat} {m : List Mark} (hx : x.Canon) :
    (x.setMarks h m).Canon := by
  unfold Machine.DepotLine.setMarks
  split <;> exact { hx with }

theorem DepotLine.Canon.mark {x : DepotLine} {gid ofs n : Nat} {cl : Option Scope} (hx : x.Canon) :
    (x.mark gid ofs n cl).Canon := by
  unfold Machine.DepotLine.mark
  refine foldl_keep hx fun _ _ h => ?_
  extract_lets _
  split
  · exact h
  · exact h.setMarks

theorem State.Canon.mark {s : State} {l : LineId} {gid ofs n : Nat} {cl : Option Scope} (h : s.Canon) :
    (s.mark l gid ofs n cl).Canon :=
  { h with mem := { h.mem with depot := forall_mem_change h.mem.depot fun x hx => by split; exacts [hx.mark, hx] } }

theorem State.Canon.clearMarks {s : State} {gid : Nat} {sc : Scope} (h : s.Canon) : (s.clearMarks gid sc).Canon :=
  { h with mem := { h.mem with depot := forall_mem_change h.mem.depot fun _ h1 => { h1 with } } }

theorem State.Canon.freeMarks {s : State} {p : Nat → Bool} (h : s.Canon) : (s.freeMarks p).Canon :=
  { h with mem := { h.mem with depot := forall_mem_change h.mem.depot fun _ h1 => { h1 with } } }

theorem State.Canon.release {s : State} {r : Req} (h : s.Canon) : (s.release r).Canon := by
  unfold State.release
  split
  · exact h.clearMarks
  · exact h

theorem State.Canon.want {s : State} {l : LineId} {res : Nat} {w : Who} (h : s.Canon) : (s.want l res w).Canon := by
  unfold State.want
  split <;> exact { h with mem := { h.mem with } }

theorem State.Canon.wish {s : State} {l : LineId} {res : Nat} {w : Who} (h : s.Canon) : (s.wish l res w).Canon := by
  unfold State.wish
  split
  · exact h
  · exact { h with mem := { h.mem with } }

theorem State.Canon.dropWish {s : State} {l : LineId} (h : s.Canon) : (s.dropWish l).Canon :=
  { h with mem := { h.mem with } }

theorem State.Canon.l1Fill {s : State} {n : L1Line} (h : s.Canon) : (s.l1Fill n).Canon := by
  unfold State.l1Fill
  extract_lets _ _ _ _ _
  exact { h with mem := { h.mem with } }

theorem State.Canon.l1Grant {s : State} {ctx core pasid vline : Nat} {l : LineId} {d : List Byte} {p : Word}
    (h : s.Canon) : (s.l1Grant ctx core pasid vline l d p).Canon := by
  unfold State.l1Grant
  extract_lets _
  dsimp only
  exact h.grant.l1Fill

theorem State.Canon.servePrefetch {s : State} {l : LineId} (h : s.Canon) : (s.servePrefetch l).Canon := by
  unfold State.servePrefetch
  split
  · split
    · exact h
    · refine foldl_keep { h with mem := { h.mem with } } fun _ _ h1 => ?_
      split
      · exact h1.l1Fill
      · exact h1.l1Grant
  · exact h

theorem State.Canon.evict {s : State} {l : LineId} (h : s.Canon) : (s.evict l).Canon := by
  unfold State.evict
  split
  · exact h
  · extract_lets _ s1
    have hs1 : s1.Canon := { h with mem := { h.mem with depot := forall_mem_keep h.mem.depot } }
    clear_value s1
    split
    · exact hs1
    · split
      · exact hs1.hold
      · exact hs1.writeBack

theorem State.Canon.fill {s : State} {w : Want} (h : s.Canon) : (s.fill w).Canon := by
  unfold State.fill
  extract_lets fillNow
  have hfillNow : ∀ (s : State), s.Canon → (fillNow s).Canon := by
    intro _ h1
    unfold fillNow
    dsimp only
    exact State.Canon.servePrefetch { h1.demandLine with
        mem := { h1.demandLine.mem with
            depot := forall_mem_snoc h1.demandLine.mem.depot { bytes := length_keep_demandLine _ _ _ } } }
  clear_value fillNow
  split
  · exact hfillNow _ h
  · exact hfillNow _ h.evict
  · exact h

theorem State.Canon.fillWanted {s : State} {w : Want} (h : s.Canon) : (s.fillWanted w).Canon := by
  unfold State.fillWanted
  split
  · exact h
  · split
    · exact h.dropWish
    · split
      · rename_i s1 e
        have hs1 : s1.Canon := h.passRows.of_error e
        exact hs1
      · rename_i a e
        have ha : a.Canon := h.passRows.of_ok e
        exact ha.fill

theorem State.Canon.doDepotFill {l : LineId} {s : State} (h : s.Canon) : (doDepotFill l s).Canon := by
  unfold Machine.doDepotFill
  split
  · exact h
  · exact h.fillWanted

theorem State.Canon.execDepotFill {l : LineId} {s : State} (h : s.Canon) : OutCanon (execDepotFill l s) :=
  .next h.doDepotFill

theorem State.Canon.opFail {s : State} {id key status addr : Nat} (h : s.Canon) :
    (s.opFail id key status addr).Canon := by
  unfold State.opFail
  refine h.onOp fun _ h1 => ?_
  split
  · exact { h1 with }
  · exact h1

theorem State.Canon.opDue {s : State} {id : Nat} (h : s.Canon) : (s.opDue id).Canon := by
  unfold State.opDue
  split
  · exact h.push
  · exact h

theorem State.Canon.opDone {s : State} {id : Nat} (h : s.Canon) : (s.opDone id).Canon :=
  State.Canon.opDue (h.onOp fun _ h1 => { h1 with })

theorem State.Canon.atomDone {s : State} {r : Req} {m : List Byte} {mt : Bool} (h : s.Canon) :
    (s.atomDone r m mt).Canon := by
  unfold State.atomDone
  split
  · split
    · exact h.onReq fun _ h1 => { h1 with }
    · exact h.dropReq
  · split
    · split
      · exact h.dropReq.opDone
      · exact h.dropReq
    · exact h.deliver

theorem State.Canon.drainDone {s : State} {r : Req} (h : s.Canon) : (s.drainDone r).Canon := by
  unfold State.drainDone
  split
  · exact h.dropReq.opDone
  · exact h.dropReq

theorem State.Canon.applyHome {s : State} {l : LineId} {ofs : Nat} {bs : List Byte} {tag : Nat → Bool} (h : s.Canon) :
    (s.applyHome l ofs bs tag).Canon :=
  h.applyLine

theorem State.Canon.applyStore {s : State} {who : Who} {l : LineId} {ofs : Nat} {bs : List Byte} {tag : Nat → Bool}
    (h : s.Canon) : (s.applyStore who l ofs bs tag).Canon :=
  h.meetLine.applyHome

theorem State.Canon.markFor {s : State} {w : WriteOp} {l : LineId} {ofs n : Nat} (h : s.Canon) :
    (s.markFor w l ofs n).Canon := by
  unfold State.markFor
  split
  · split
    · exact h
    · exact h.mark
  · exact h

theorem State.Canon.drainLines {s : State} {who : Who} {w : WriteOp} {add : Bool} {ac mask : Nat} {l : LineId}
    {ofs : Nat} (h : s.Canon) : (s.drainLines who w add ac mask l ofs).Canon := by
  unfold State.drainLines
  refine foldl_keep h fun _ _ h1 => ?_
  split
  · exact h1
  · extract_lets _ _ _ _
    split
    · split
      rename_i s1 e1
      have hs1 : s1.Canon := h1.homeDemand.snd e1
      extract_lets _
      exact hs1.applyHome
    · exact h1.applyStore.markFor

theorem State.Canon.atomLine {s : State} {who : Who} {w : WriteOp} {k : ReqKind} {l : LineId} {ofs : Nat}
    (h : s.Canon) : (s.atomLine who w k l ofs).2.2.Canon := by
  unfold State.atomLine
  extract_lets _
  split
  rename_i s1 e
  have hs1 : s1.Canon := h.homeDemand.snd e
  extract_lets _ _
  split
  · exact hs1.applyHome
  · exact hs1

theorem State.Canon.peerEffect {s : State} {who : Who} {r : Inbound} {w : WriteOp} {l : LineId} {ofs : Nat}
    (h : s.Canon) : (s.peerEffect who r w l ofs).2.Canon := by
  unfold State.peerEffect
  split
  · dsimp only
    exact h.atomLine
  · exact h.drainLines
  · exact h.applyStore.markFor

theorem State.Canon.answerPeer {s : State} {src seq : Nat} {ans : PeerAnswer} (h : s.Canon) :
    (s.answerPeer src seq ans).Canon := by
  unfold State.answerPeer
  split
  · extract_lets s1 _ _ s2
    have hs1 : s1.Canon := by
      unfold s1
      split
      · exact h.logInbound
      · exact h
    clear_value s1
    have hs2 : s2.Canon := { hs1 with }
    clear_value s2
    split
    · exact hs2
    · exact hs2.send
  · exact h

theorem State.Canon.peerApplied {s : State} {r : Inbound} {ans : PeerAnswer} (h : s.Canon) :
    (s.peerApplied r ans).Canon := by
  unfold State.peerApplied
  split
  · exact h
  · exact h.answerPeer

theorem State.Canon.opDone? {s : State} {id : Option Nat} (h : s.Canon) : (s.opDone? id).Canon := by
  unfold State.opDone?
  split
  · exact h.opDone
  · exact h

theorem State.Canon.maintained {s : State} {op : Option Nat} {peer : Option Inbound} (h : s.Canon) :
    (s.maintained op peer).Canon := by
  unfold State.maintained
  split
  · exact h.peerApplied
  · exact h.opDone?

theorem State.Canon.maintain {s : State} {who : Who} {l : LineId} {inval : Bool} {op : Option Nat}
    {peer : Option Inbound} (h : s.Canon) : (s.maintain who l inval op peer).Canon := by
  unfold State.maintain
  split
  · exact h.maintained
  · split
    · exact State.Canon.maintained { h with mem := { h.mem with depot := forall_mem_keep h.mem.depot } }
    · split
      · exact h.maintained
      · extract_lets d _ s1
        have hs1 : s1.Canon := by
          unfold s1
          refine { h with mem := { h.mem with depot := ?_ } }
          unfold d
          refine forall_mem_change h.mem.depot fun _ h1 => ?_
          split
          · exact { h1 with }
          · exact h1
        clear_value s1
        split
        · exact hs1.hold
        · exact hs1.writeBack.maintained

theorem State.Canon.applyWrite {s : State} {l : LineId} {w : WriteOp} (h : s.Canon) : (s.applyWrite l w).Canon := by
  unfold State.applyWrite
  split
  · exact h.maintain
  · extract_lets _
    split
    · extract_lets s1
      have hs1 : s1.Canon := h.release
      clear_value s1
      split
      · exact hs1.drainLines.drainDone
      · split
        · exact hs1.applyStore.markFor.dropReq
        · dsimp only
          exact hs1.atomLine.atomDone
    · split
      · dsimp only
        exact h.peerEffect.peerApplied
      · split
        · exact h.applyLine
        · exact h.applyStore.markFor.opDone?

theorem State.Canon.snoop {s : State} {l : LineId} (h : s.Canon) : (s.snoop l).Canon := by
  unfold State.snoop
  split
  · extract_lets x x1
    exact { (h.send : x.Canon) with mem := { (h.mem : x1.Canon) with } }
  · exact h

theorem State.Canon.prepareLine {s : State} {l : LineId} {res : Nat} {w : Who} (h : s.Canon) :
    (s.prepareLine l res w).Canon := by
  unfold State.prepareLine
  split
  · exact h
  · split
    · exact h.awaitRows
    · exact h.want

theorem State.Canon.prepare {s : State} {l : LineId} {w : WriteOp} {who : Who} (h : s.Canon) :
    (s.prepare l w who).Canon := by
  unfold State.prepare
  split
  · exact h
  · refine State.Canon.prepareLine ?_
    split
    · exact h
    · exact h.snoop

theorem State.Canon.arrive {s : State} {l : LineId} {w : WriteOp} {who : Who} (h : s.Canon) :
    (s.arrive l w who).Canon := by
  unfold State.arrive
  extract_lets _ s1 _
  have hs1 : s1.Canon := foldl_keep h fun _ _ h1 => h1.prepare
  clear_value s1
  split
  · exact h.applyWrite
  · exact { hs1 with mem := { hs1.mem with } }

theorem State.Canon.doHeldWriteApply {l : LineId} {s : State} (h : s.Canon) : (doHeldWriteApply l s).Canon := by
  unfold Machine.doHeldWriteApply
  split
  · exact h
  · extract_lets _ _ _
    split
    · exact State.Canon.servePrefetch (State.Canon.applyWrite { h with mem := { h.mem with } })
    · exact foldl_keep h fun _ _ h1 => h1.prepare

theorem State.Canon.execHeldWriteApply {l : LineId} {s : State} (h : s.Canon) : OutCanon (execHeldWriteApply l s) :=
  .next h.doHeldWriteApply

theorem State.Canon.drainHost {s : State} {r : Req} {mask a : Nat} (h : s.Canon) : (s.drainHost r mask a).Canon := by
  unfold State.drainHost
  refine foldl_keep h fun _ _ h1 => ?_
  split
  · exact h1.send
  · exact h1

theorem State.Canon.doStoreAtHome {id : Nat} {s : State} (h : s.Canon) : (doStoreAtHome id s).Canon := by
  unfold Machine.doStoreAtHome
  split
  · exact h
  · split
    · exact State.Canon.arrive (h.onReq fun _ h1 => { h1 with })
    · split
      · exact h.drainHost.drainDone
      · exact h.release.send.dropReq
    · exact h

theorem State.Canon.execStoreAtHome {id : Nat} {s : State} (h : s.Canon) : OutCanon (execStoreAtHome id s) :=
  .next h.doStoreAtHome

theorem State.Canon.doHomeAtomic {id : Nat} {ext : Option ExtVal} {s : State} (h : s.Canon) :
    (doHomeAtomic id ext s).Canon := by
  unfold Machine.doHomeAtomic
  split
  · exact h
  · split
    · exact State.Canon.arrive (h.onReq fun _ h1 => { h1 with })
    · split
      · exact h
      · rename_i s1 e2
        have hs1 : s1.Canon := h.hostValue.of_some e2
        extract_lets s2 s3
        have hs2 : s2.Canon := hs1.release
        clear_value s2
        have hs3 : s3.Canon := by
          unfold s3
          split
          · exact hs2.send
          · exact hs2
        clear_value s3
        exact hs3.atomDone
    · exact h

theorem State.Canon.execHomeAtomic {id : Nat} {ext : Option ExtVal} {s : State} (h : s.Canon) :
    OutCanon (execHomeAtomic id ext s) :=
  .next h.doHomeAtomic

theorem State.Canon.serveLine {s : State} {r : Req} {l : LineId} {ofs : Nat} (h : s.Canon) :
    (s.serveLine r l ofs).Canon := by
  unfold State.serveLine
  extract_lets _ _ body
  split
  · extract_lets s1
    have hs1 : s1.Canon := h.l1Fill
    clear_value s1
    exact .done hs1
  · split
    · split
      · exact .wait h
      · split
        · unfold body
          extract_lets _ _ _ _
          split
          · exact .done (h.onLine fun _ h1 => h1)
          · split
            · exact .done (h.onLine fun _ h1 => h1)
            · exact .done (State.Canon.l1Grant (h.onLine fun _ h1 => h1))
        · split
          · exact .wait h.want
          · split
            · rename_i s1 e2
              have hs1 : s1.Canon := h.passRows.of_error e2
              exact .wait hs1
            · rename_i a e2
              have ha : a.Canon := h.passRows.of_ok e2
              dsimp only
              unfold body
              extract_lets _ _ _ _
              split
              · exact .done ha.demandLine
              · split
                · exact .done ha.demandLine
                · exact .done ha.demandLine.l1Grant
    · split
      · exact .wait h
      · split
        · unfold body
          extract_lets _ _ _ _
          split
          · exact .done (h.onLine fun _ h1 => h1)
          · split
            · exact .done (h.onLine fun _ h1 => h1)
            · exact .done (State.Canon.l1Grant (h.onLine fun _ h1 => h1))
        · split
          · exact .wait h.want
          · split
            · rename_i s1 e1
              have hs1 : s1.Canon := h.passRows.of_error e1
              exact .wait hs1
            · rename_i a e1
              have ha : a.Canon := h.passRows.of_ok e1
              dsimp only
              unfold body
              extract_lets _ _ _ _
              split
              · exact .done ha.demandLine
              · split
                · exact .done ha.demandLine
                · exact .done ha.demandLine.l1Grant

theorem State.Canon.pollsBack {s : State} {r : Req} {rs : List Req} (h : s.Canon) : (s.pollsBack r rs).Canon := by
  unfold State.pollsBack
  split
  · exact h
  · extract_lets s1 _ _ _ _ _ _ _
    have hs1 : s1.Canon := foldl_keep h fun _ _ h1 => h1.dropReq
    clear_value s1
    split
    · exact State.Canon.takeTrap (hs1.onGroup fun _ h1 => h1.setWait)
    · refine hs1.onGroup fun _ h1 => ?_
      extract_lets g2
      have hg2 : Group.Canon s1.nextId g2 := by
        unfold g2
        refine foldl_keep h1 fun _ _ h2 => ?_
        extract_lets g3
        have hg3 : Group.Canon s1.nextId g3 := h2.returned
        clear_value g3
        exact hg3.mapLanes
      clear_value g2
      exact hg2.leave.mapLanes

theorem State.Canon.loaded {s : State} {r : Req} {bs : List Byte} {tags0 : List Bool} (h : s.Canon) :
    (s.loaded r bs tags0).Canon := by
  unfold State.loaded
  extract_lets _ s1 _
  have hs1 : s1.Canon := h.onReq fun _ h1 => { h1 with }
  clear_value s1
  split
  · exact h.deliver
  · exact h.deliver
  · split
    · exact hs1.pollsBack
    · exact hs1
  · exact h.onReq fun _ h1 => { h1 with }
  · exact h

theorem State.Canon.doLoadReturn {id : Nat} {ext : Option ExtVal} {s : State} (h : s.Canon) :
    (doLoadReturn id ext s).Canon := by
  unfold Machine.doLoadReturn
  split
  · exact h
  · split
    · split
      · rename_i s1 e2
        have hs1 : s1.Canon := h.serveLine.of_wait e2
        exact hs1
      · rename_i s1 e2
        have hs1 : s1.Canon := h.serveLine.of_done e2
        exact hs1.loaded
    · split
      · rename_i s1 e2
        have hs1 : s1.Canon := h.hostValue.of_some e2
        exact hs1.loaded
      · exact h
    · exact h

theorem State.Canon.portPut {s : State} {st e d : Nat} {bs : List Byte} {t : Bool} (h : s.Canon) :
    (s.portPut st e d bs t).Canon := by
  unfold State.portPut
  extract_lets _
  dsimp only
  exact h.writeSector.noticed

theorem State.Canon.portStore {s : State} {who : Who} {st e d : Nat} {bs : List Byte} {t : Bool} (h : s.Canon) :
    (s.portStore who st e d bs t).Canon := by
  unfold State.portStore
  dsimp only
  exact h.meetSector.portPut

theorem State.Canon.portServe {s : State} {r : Req} {st e ofs : Nat} (h : s.Canon) :
    (s.portServe r st e ofs).Canon := by
  unfold State.portServe
  extract_lets _ _ s1 _
  have hs1 : s1.Canon := h.release
  clear_value s1
  split
  split
  · dsimp only
    exact h.demandLine.loaded
  · dsimp only
    exact h.demandSector.loaded
  · dsimp only
    exact h.demandSector.loaded
  · dsimp only
    exact h.demandSector.loaded
  · exact h.release.portStore.dropReq
  · refine State.Canon.drainDone (foldl_keep h fun _ _ h1 => ?_)
    split
    · exact h1.portStore
    · exact h1
  · split
    rename_i s2 e3
    have hs2 : s2.Canon := hs1.demandSector.snd e3
    extract_lets _ s3
    have hs3 : s3.Canon := by
      unfold s3
      split
      · exact hs2.portPut
      · exact hs2
    clear_value s3
    exact hs3.atomDone
  · split
    rename_i s2 e3
    have hs2 : s2.Canon := hs1.demandSector.snd e3
    extract_lets _ s3
    have hs3 : s3.Canon := by
      unfold s3
      split
      · exact hs2.portPut
      · exact hs2
    clear_value s3
    exact hs3.atomDone
  · split
    rename_i s2 e3
    have hs2 : s2.Canon := hs1.demandSector.snd e3
    extract_lets _ s3
    have hs3 : s3.Canon := by
      unfold s3
      split
      · exact hs2.portPut
      · exact hs2
    clear_value s3
    exact hs3.atomDone
  · exact h

theorem State.Canon.portGo {s : State} {r : Req} {st e ofs : Nat} (h : s.Canon) : (s.portGo r st e ofs).Canon := by
  unfold State.portGo
  extract_lets _
  split
  · exact State.Canon.snoop (h.onReq fun _ h1 => { h1 with })
  · split
    · rename_i s1 e1
      have hs1 : s1.Canon := h.passRows.of_error e1
      exact hs1.onReq fun _ h1 => { h1 with }
    · rename_i a e1
      have ha : a.Canon := h.passRows.of_ok e1
      exact ha.portServe

theorem State.Canon.doStackPortRequest {id : Nat} {s : State} (h : s.Canon) : (doStackPortRequest id s).Canon := by
  unfold Machine.doStackPortRequest
  split
  · exact h
  · exact h.portGo

theorem State.Canon.execStackPortRequest {id : Nat} {s : State} (h : s.Canon) :
    OutCanon (execStackPortRequest id s) :=
  .next h.doStackPortRequest

theorem State.Canon.runHeld {s : State} {row : RowId} {w : HeldWork} (h : s.Canon) : (s.runHeld row w).Canon := by
  unfold State.runHeld
  split
  · exact h.dropHold
  · split
    · split
      · split
        · exact h.portGo
        · split
          · rename_i s1 e2
            have hs1 : s1.Canon := h.serveLine.of_wait e2
            exact hs1
          · rename_i s1 e2
            have hs1 : s1.Canon := h.serveLine.of_done e2
            exact hs1.dropHold.loaded
        · exact h
      · exact h
    · split
      · exact h.fillWanted
      · split
        · exact h.doHeldWriteApply.dropHold
        · split
          · rename_i s1 e1
            have hs1 : s1.Canon := h.passRows.of_error e1
            exact hs1
          · rename_i a1 e1
            have ha1 : a1.Canon := h.passRows.of_ok e1
            exact ha1
    · split
      · rename_i s1 e
        have hs1 : s1.Canon := h.passRows.of_error e
        exact hs1
      · rename_i a5 e
        have ha5 : a5.Canon := h.passRows.of_ok e
        extract_lets _
        exact ha5.writeBack.maintained
    · split
      · exact h.awaitRow
      · exact h
    · split
      · exact h.awaitRow
      · exact h

theorem State.Canon.doHoldQueueRelease {row : RowId} {s : State} (h : s.Canon) :
    (doHoldQueueRelease row s).Canon := by
  unfold Machine.doHoldQueueRelease
  split
  · exact h
  · split
    · exact h
    · exact h.runHeld

theorem State.Canon.execHoldQueueRelease {row : RowId} {s : State} (h : s.Canon) :
    OutCanon (execHoldQueueRelease row s) :=
  .next h.doHoldQueueRelease

theorem State.Canon.icFill {s : State} {n : ICLine} (h : s.Canon) : (s.icFill n).Canon := by
  unfold State.icFill
  extract_lets _ _ _ _
  exact State.Canon.trimVictims { h with mem := { h.mem with } }

theorem State.Canon.fetchTrap {s : State} {g : Group} {vline : Nat} (h : s.Canon) : (s.fetchTrap g vline).Canon := by
  unfold State.fetchTrap
  split
  · exact h.takeTrap
  · exact h

theorem State.Canon.doIcacheFill {core pasid vline : Nat} {s : State} (h : s.Canon) :
    (doIcacheFill core pasid vline s).Canon := by
  unfold Machine.doIcacheFill
  split
  · exact h
  · split
    · exact h
    · split
      · exact h.fetchTrap
      · split
        · exact h.askWalk
        · exact h.askWalk
        · split
          · split
            · exact h
            · extract_lets put
              split
              · unfold put
                extract_lets _
                exact State.Canon.icFill (State.Canon.grant (h.onLine fun _ h1 => h1))
              · split
                · exact h.want
                · split
                  · exact h.awaitRows
                  · dsimp only
                    unfold put
                    extract_lets _
                    exact h.demandLine.grant.icFill
          · extract_lets _
            split
            · exact h.awaitRows
            · dsimp only
              exact h.demandLine.icFill
          · exact h
          · exact h.fetchTrap

theorem State.Canon.execIcacheFill {core pasid vline : Nat} {s : State} (h : s.Canon) :
    OutCanon (execIcacheFill core pasid vline s) :=
  .next h.doIcacheFill

theorem State.Canon.depart {s : State} {f : FabReq} (h : s.Canon) : (s.depart f).2.Canon := by
  unfold State.depart
  extract_lets _
  split
  · extract_lets _
    exact h.send
  · exact h

theorem State.Canon.sendPeer {s : State} {n : Nat} {w : FabWork} {at_ : FabPlace} (h : s.Canon) :
    (s.sendPeer n w at_).Canon := by
  unfold State.sendPeer
  extract_lets _ f
  dsimp only
  have hb : (if s.unacked n < 256 then s.depart f else (f, s)).2.Canon := by
    split
    · exact h.depart
    · exact h
  exact { hb with }

theorem State.Canon.newOp {s : State} {g : Group} {c : EClass} {k : OpKind} {spans : List Span} (h : s.Canon) :
    (s.newOp g c k spans).2.Canon := by
  unfold State.newOp
  split
  rename_i s1 e
  have hs1 : s1.Canon := h.fresh.snd e
  have hk := fresh_lt e
  exact { hs1 with eng := { hs1.eng with ops := forall_mem_snoc hs1.eng.ops { id := hk } } }

theorem State.Canon.opLeft {s : State} {id n : Nat} (h : s.Canon) : (s.opLeft id n).Canon :=
  State.Canon.opDue (h.onOp fun _ h1 => { h1 with })

theorem State.Canon.waitWalk {s : State} {g : Group} {L va : Nat} {k : AccKind} (h : s.Canon) :
    (s.waitWalk g L va k).Canon :=
  h.askWalk.onGroup fun _ h1 => h1.await

theorem State.Canon.withAccess {s : State} {g : Group} {act : Word} {k : AccKind} {red : Bool} {va : Nat → Nat}
    {f : List Acc → State} (h : s.Canon) (hf : ∀ l, (f l).Canon) : (s.withAccess g act k red va f).Canon := by
  unfold State.withAccess
  split
  · exact hf _
  · exact h.raise
  · exact h.waitWalk
  · exact h

theorem Group.Canon.markPeer {N : Nat} {g : Group} {k : Nat} (hg : g.Canon N) : Group.Canon N (g.markPeer k) := by
  unfold Machine.Group.markPeer
  extract_lets _
  exact { hg with }

theorem State.Canon.sendReq {s : State} {r : Req} (h : s.Canon) : (s.sendReq r).Canon := by
  unfold State.sendReq
  split
  · split
    · exact h
    · exact State.Canon.sendPeer (h.onReq fun _ h1 => { h1 with })
  · exact h

theorem State.Canon.sendDue {s : State} {gid : Nat} (h : s.Canon) : (s.sendDue gid).Canon :=
  foldl_keep h fun _ _ h1 => h1.sendReq

theorem State.Canon.putReq {s : State} {g : Group} {a : Acc} {r : Req} {regs : List RegName} (h : s.Canon) :
    (s.putReq g a r regs).Canon := by
  unfold State.putReq
  split
  rename_i s1 e
  have hs1 : s1.Canon := h.fresh.snd e
  have hk := fresh_lt e
  extract_lets _ s2 s3
  have hs2 : s2.Canon := { hs1 with eng := { hs1.eng with reqs := forall_mem_snoc hs1.eng.reqs { id := hk } } }
  clear_value s2
  have hs3 : s3.Canon := hs2.onGroup fun _ h1 => { h1 with }
  clear_value s3
  split
  · extract_lets s4
    have hs4 : s4.Canon := by
      unfold s4
      split
      · exact hs3.onGroup fun _ h1 => h1.markPeer
      · exact hs3
    clear_value s4
    exact hs4.sendReq
  · exact hs3

theorem State.Canon.clearPeers {s : State} {g : Group} {seq : Nat} {sc : Scope} (h : s.Canon) :
    (s.clearPeers g seq sc).Canon := by
  unfold State.clearPeers
  refine foldl_keep h fun _ _ h1 => ?_
  extract_lets _ _ _
  split
  · exact h1
  · exact h1.sendPeer

theorem State.Canon.bumpSeq {s : State} {gid : Nat} (h : s.Canon) : (s.bumpSeq gid).Canon :=
  h.onGroup fun _ h1 => { h1 with }

theorem State.Canon.l1Store {s : State} {core : Nat} {l : LineId} {ofs : Nat} {bs : List Byte} {tag : Nat → Bool}
    (h : s.Canon) : (s.l1Store core l ofs bs tag).Canon :=
  { h with mem := { h.mem with } }

theorem State.Canon.l1Drop {s : State} {core : Nat} {l : LineId} (h : s.Canon) : (s.l1Drop core l).Canon :=
  { h with mem := { h.mem with } }

end Sys2Proof.Machine
end

