-- ==== Sys2Proof/Proofs/CanonControl.lean ====
section
/-! SUPPORT. The canonical form is kept: control words, loads, stores and the words of synchronisation. -/

namespace Sys2Proof.Machine

theorem Group.Canon.jump {N : Nat} {g : Group} {c : Cur} {act : Word} {t : Nat → BitVec 64} (hg : g.Canon N) :
    Group.Canon N (g.jump c act t) :=
  hg.advance.mapLanes

theorem State.Canon.execBra {o : BForm} {s : State} (h : s.Canon) : OutCanon (execBra o s) :=
  h.execWord fun _ _ _ h1 _ => h1.onGroup fun _ h3 => h3.jump

theorem Group.Canon.linkPair {N : Nat} {g : Group} {c : Cur} {act : Word} {l : Nat} (hg : g.Canon N) :
    Group.Canon N (linkPair g c act l) :=
  eachLane_keeps _ hg fun _ _ _ _ h2 => h2.wrVs

theorem State.Canon.execCall {o : BForm} {s : State} (h : s.Canon) : OutCanon (execCall o s) :=
  h.execWord fun _ _ _ h1 _ => h1.onGroup fun _ h3 => h3.linkPair.jump

theorem State.Canon.indexedJump {o : RForm} {s : State} {g : Group} {act : Word} (h : s.Canon) :
    (indexedJump o s g act).Canon := by
  unfold Machine.indexedJump
  extract_lets _
  split
  · exact h.raise
  · split
    · exact h.raise
    · exact h.onGroup fun _ h1 => h1.jump

theorem State.Canon.execBrx {o : RForm} {s : State} (h : s.Canon) : OutCanon (execBrx o s) :=
  h.execWord fun _ _ _ h1 _ => h1.indexedJump

theorem State.Canon.execRet {o : RForm} {s : State} (h : s.Canon) : OutCanon (execRet o s) :=
  h.execWord fun _ _ _ h1 _ => h1.indexedJump

theorem State.Canon.yieldEffect {s : State} {g : Group} {w : Word} (h : s.Canon) : (yieldEffect s g w).Canon := by
  unfold Machine.yieldEffect
  extract_lets _
  exact h.onGroup fun _ h1 => h1.advance.setWait

theorem State.Canon.execYield {o : RForm} {s : State} (h : s.Canon) : OutCanon (execYield o s) :=
  h.execWord fun _ _ _ h1 _ => h1.yieldEffect

theorem State.Canon.doYieldBackoffExpiry {s : State} (h : s.Canon) : (doYieldBackoffExpiry s).Canon := by
  unfold Machine.doYieldBackoffExpiry
  split
  · exact h
  · exact h.onGroup fun _ h1 => h1.mapLanes

theorem State.Canon.execYieldBackoffExpiry {s : State} (h : s.Canon) : OutCanon (execYieldBackoffExpiry s) :=
  .next h.doYieldBackoffExpiry

theorem State.Canon.doYieldWBackoffExpiry {s : State} (h : s.Canon) : (doYieldWBackoffExpiry s).Canon := by
  unfold Machine.doYieldWBackoffExpiry
  split
  · exact h
  · exact h.onGroup fun _ h1 => h1.mapLanes

theorem State.Canon.execYieldWBackoffExpiry {s : State} (h : s.Canon) : OutCanon (execYieldWBackoffExpiry s) :=
  .next h.doYieldWBackoffExpiry

theorem State.Canon.waitcEffect {c : EClass} {o : RForm} {s : State} {g : Group} {act : Word} (h : s.Canon) :
    (waitcEffect c o s g act).Canon := by
  unfold Machine.waitcEffect
  split
  · split
    · split
      · exact h
      · extract_lets _
        exact h.raise.onGroup fun _ h1 => { h1 with }
    · exact h.go
  · exact h.onGroup fun _ h1 => h1.advance.await

theorem State.Canon.execWaitc {c : EClass} {o : RForm} {s : State} (h : s.Canon) : OutCanon (execWaitc c o s) :=
  h.execWord fun _ _ _ h1 _ => h1.waitcEffect

theorem State.Canon.ppointEffect {o : IForm} {s : State} {g : Group} {w : Word} (h : s.Canon) :
    (ppointEffect o s g w).Canon := by
  unfold Machine.ppointEffect
  split
  · refine h.onGroup fun _ h1 => ?_
    extract_lets _
    exact { h1.advance with }
  · exact h.go

theorem State.Canon.execPpoint {o : IForm} {s : State} (h : s.Canon) : OutCanon (execPpoint o s) :=
  h.execWord fun _ _ _ h1 _ => h1.ppointEffect

theorem State.Canon.doPpointWindowExpiry {s : State} (h : s.Canon) : (doPpointWindowExpiry s).Canon := by
  unfold Machine.doPpointWindowExpiry
  refine h.onGroup fun _ h1 => ?_
  split
  · split
    · exact { h1 with }
    · exact h1
  · exact h1

theorem State.Canon.execPpointWindowExpiry {s : State} (h : s.Canon) : OutCanon (execPpointWindowExpiry s) :=
  .next h.doPpointWindowExpiry

theorem State.Canon.execRgn {o : RForm} {s : State} (h : s.Canon) : OutCanon (execRgn o s) := by
  unfold Machine.execRgn
  refine h.execWord fun s1 _ _ h1 _ => h1.onGroup fun _ h3 => ?_
  extract_lets g2 _
  have hg2 : Group.Canon s1.nextId g2 := h3.mapLanes
  clear_value g2
  exact { hg2.advance with }

theorem State.Canon.execRgnEnd {o : RForm} {s : State} (h : s.Canon) : OutCanon (execRgnEnd o s) := by
  unfold Machine.execRgnEnd
  refine h.execWord fun s1 _ _ h1 _ => h1.onGroup fun _ h3 => ?_
  extract_lets g2 _
  have hg2 : Group.Canon s1.nextId g2 := h3.mapLanes
  clear_value g2
  exact { hg2.advance with }

theorem State.Canon.execBrk {o : IForm} {s : State} (h : s.Canon) : OutCanon (execBrk o s) :=
  h.execWord fun _ _ _ h1 _ => h1.raise

theorem State.Canon.execTrap {o : IForm} {s : State} (h : s.Canon) : OutCanon (execTrap o s) := by
  unfold Machine.execTrap
  refine h.execWord fun _ _ _ h1 _ => ?_
  split
  · exact h1
  · exact h1.raise.onGroup fun _ h3 => h3.advance

theorem State.Canon.repEffect {o : RepForm} {s : State} {g : Group} (h : s.Canon) : (repEffect o s g).Canon := by
  unfold Machine.repEffect
  split
  · exact h
  · exact h.raise
  · exact h.raise
  · exact h.onGroup fun _ h1 => h1.mapLanes

theorem State.Canon.execRep {o : RepForm} {s : State} (h : s.Canon) : OutCanon (execRep o s) :=
  h.onPath fun _ _ => h.repEffect

theorem State.Canon.spRelease {s : State} {g : Group} {act : Word} {rel : Bool} {k : State → State} (h : s.Canon)
    (hk : ∀ t, t.Canon → t.nextId = s.nextId → (k t).Canon) : (s.spRelease g act rel k).Canon := by
  unfold State.spRelease
  split
  · split
    · exact hk _ h.clearMarks rfl
    · exact h
  · exact hk s h rfl

theorem State.Canon.spLoad {o : MForm} {s : State} {g : Group} {act : Word} (h : s.Canon) :
    (spLoad o s g act).Canon := by
  unfold Machine.spLoad
  extract_lets _
  split
  · exact h.raise
  · refine h.onGroup fun _ h1 => Group.Canon.advance (eachLane_keeps _ h1 fun _ _ _ _ h4 => ?_)
    extract_lets _ _
    refine foldl_keep h4 fun _ _ h5 => ?_
    dsimp only
    exact h5.wrV

theorem State.Canon.putLoads {o : MForm} {s : State} {g : Group} {as : List Acc} (h : s.Canon) :
    (putLoads o s g as).Canon := by
  unfold Machine.putLoads
  extract_lets _
  refine foldl_keep h fun _ _ h1 => ?_
  extract_lets _
  exact h1.putReq

theorem State.Canon.glLoad {o : MForm} {s : State} {g : Group} {act : Word} (h : s.Canon) :
    (glLoad o s g act).Canon := by
  unfold Machine.glLoad
  extract_lets _ _ s'
  have hs' : s'.Canon := by
    unfold s'
    refine h.onGroup fun _ h1 => eachLane_keeps _ h1 fun _ _ _ _ h4 => ?_
    split
    · refine foldl_keep h4 fun _ _ h5 => ?_
      dsimp only
      exact h5.wrV
    · exact h4
  clear_value s'
  split
  · exact h.raise
  · exact h.withAccess fun _ => hs'.putLoads.bumpSeq.go

theorem State.Canon.execLd {o : MForm} {s : State} (h : s.Canon) : OutCanon (execLd o s) := by
  unfold Machine.execLd
  refine h.execWord fun _ _ _ h1 _ => ?_
  split
  · exact h1.spLoad
  · exact h1.glLoad

theorem State.Canon.lduEffect {o : MForm} {s : State} {g : Group} {act : Word} (h : s.Canon) :
    (lduEffect o s g act).Canon := by
  unfold Machine.lduEffect
  extract_lets _ _ _ _
  split
  · exact h.raise
  · split
    · refine h.onGroup fun _ h1 => Group.Canon.advance (foldl_keep h1 fun _ _ h2 => ?_)
      dsimp only
      exact h2.wrS
    · refine h.withAccess fun _ => ?_
      extract_lets s'
      have hs' : s'.Canon := by
        unfold s'
        refine foldl_keep h fun _ _ h1 => ?_
        extract_lets _
        exact h1.putReq
      clear_value s'
      exact hs'.bumpSeq.go

theorem State.Canon.execLdu {o : MForm} {s : State} (h : s.Canon) : OutCanon (execLdu o s) :=
  h.execWord fun _ _ _ h1 _ => h1.lduEffect

theorem State.Canon.prefetchLine {s : State} {g : Group} {va : Nat} {l1 : Bool} (h : s.Canon) :
    (s.prefetchLine g va l1).Canon := by
  unfold State.prefetchLine
  split
  · split
    · split
      · exact h
      · extract_lets _ ask copy move s1
        have hmove : ∀ (s : State) (y : L1Line), s.Canon → (move s y).Canon := by
          intro _ _ h1
          unfold move
          split
          · exact h1.l1Fill
          · exact h1
        clear_value move
        have hs1 : s1.Canon := h.wish
        clear_value s1
        split
        · split
          · exact h
          · clear_value copy
            split
            · exact hmove _ _ hs1
            · unfold ask
              split
              · exact hs1
              · exact { hs1 with mem := { hs1.mem with } }
        · exact hmove _ _ h
        · split
          · exact h
          · split
            · unfold ask
              split
              · exact h
              · exact { h with mem := { h.mem with } }
            · exact h.l1Grant
    · exact h
  · exact h.askWalk
  · exact h

theorem State.Canon.prefetchEffect {l1 : Bool} {o : MForm} {s : State} {g : Group} {act : Word} (h : s.Canon) :
    (prefetchEffect l1 o s g act).Canon := by
  unfold Machine.prefetchEffect
  split
  · exact h.raise
  · extract_lets _
    refine State.Canon.go (foldl_keep h fun _ _ h1 => ?_)
    split
    · exact h1.prefetchLine
    · exact h1

theorem State.Canon.execPrefetchL1 {o : MForm} {s : State} (h : s.Canon) : OutCanon (execPrefetchL1 o s) :=
  h.execWord fun _ _ _ h1 _ => h1.prefetchEffect

theorem State.Canon.execPrefetchDep {o : MForm} {s : State} (h : s.Canon) : OutCanon (execPrefetchDep o s) :=
  h.execWord fun _ _ _ h1 _ => h1.prefetchEffect

theorem State.Canon.spStore {o : MForm} {s : State} {g : Group} {act : Word} (h : s.Canon) :
    (spStore o s g act).Canon := by
  unfold Machine.spStore
  extract_lets _
  split
  · exact h.raise
  · exact h.spRelease fun _ h1 _ => State.Canon.go { h1 with
        cores := eachLane_keeps _ h1.cores fun _ _ _ _ h5 => h5.spPut }

theorem State.Canon.putStores {o : MForm} {s : State} {g : Group} {as : List Acc} (h : s.Canon) :
    (putStores o s g as).Canon := by
  unfold Machine.putStores
  refine foldl_keep h fun _ _ h1 => ?_
  extract_lets _ _ s1 _
  have hs1 : s1.Canon := by
    unfold s1
    split
    · exact h1.l1Store
    · exact h1
  clear_value s1
  exact hs1.putReq

theorem State.Canon.glStore {o : MForm} {s : State} {g : Group} {act : Word} (h : s.Canon) :
    (glStore o s g act).Canon := by
  unfold Machine.glStore
  split
  · exact h.raise
  · refine h.withAccess fun _ => ?_
    split
    · exact h.raise
    · exact h.putStores.bumpSeq.go

theorem State.Canon.execSt {o : MForm} {s : State} (h : s.Canon) : OutCanon (execSt o s) := by
  unfold Machine.execSt
  refine h.execWord fun _ _ _ h1 _ => ?_
  split
  · exact h1.spStore
  · exact h1.glStore

theorem Cores.Canon.spAtomLane {s : State} {g : Group} {o : MForm} {k : ReqKind} {acc : Cores × Group} {L : Nat}
    (h : acc.1.Canon) : (spAtomLane s g o k acc L).1.Canon := by
  unfold Machine.spAtomLane
  dsimp only
  split
  · exact h.spPut
  · exact h

theorem Group.Canon.spAtomLane {N : Nat} {s : State} {g : Group} {o : MForm} {k : ReqKind} {acc : Cores × Group} {L : Nat}
    (h : acc.2.Canon N) : (spAtomLane s g o k acc L).2.Canon N := by
  unfold Machine.spAtomLane
  dsimp only
  split
  · exact h
  · exact foldl_keep h fun _ _ h1 => h1.wrV

theorem State.Canon.spAtom {k : ReqKind} {o : MForm} {s : State} {g : Group} {act : Word} (h : s.Canon)
    (hg : g.Canon s.nextId) : (spAtom k o s g act).Canon := by
  unfold Machine.spAtom
  extract_lets _
  split
  · exact h.raise
  · refine h.spRelease fun t h1 h2 => ?_
    dsimp only
    exact State.Canon.onGroup { h1 with
        cores := eachLane_keeps (fun b : Cores × Group => b.1.Canon) h1.cores fun _ _ _ _ h5 => h5.spAtomLane }
      fun _ _ => Group.Canon.advance (eachLane_keeps (fun b : Cores × Group => Group.Canon t.nextId b.2)
      (hg.more h2.ge) fun _ _ _ _ h6 => h6.spAtomLane)

theorem State.Canon.putAtoms {k : ReqKind} {o : MForm} {ops : EClass → Option Nat} {s : State} {g : Group}
    {as : List Acc} (h : s.Canon) : (putAtoms k o ops s g as).Canon := by
  unfold Machine.putAtoms
  refine foldl_keep h fun _ _ h1 => ?_
  split
  extract_lets s1 op _ _
  have hs1 : s1.Canon := by
    unfold s1
    split
    · exact h1.l1Drop
    · exact h1
  clear_value s1
  split
  · clear_value op
    split
    · exact hs1.opFail.opDone
    · exact hs1
  · exact hs1.putReq

theorem State.Canon.glAtom {k : ReqKind} {o : MForm} {s : State} {g : Group} {act : Word} (h : s.Canon) :
    (glAtom k o s g act).Canon := by
  unfold Machine.glAtom
  split
  · exact h.raise
  · refine h.withAccess fun _ => ?_
    split
    · exact h.raise
    · exact h.putAtoms.bumpSeq.go

theorem State.Canon.glRed {k : ReqKind} {o : MForm} {s : State} {g : Group} {act : Word} (h : s.Canon) :
    (glRed k o s g act).Canon := by
  unfold Machine.glRed
  split
  · exact h.raise
  · refine h.withAccess fun _ => ?_
    split
    · exact h.raise
    · extract_lets _ _
      split
      · exact h
      · dsimp only
        refine ((State.Canon.putAtoms ?_).bumpSeq).go
        split
        · split
          · exact h
          · exact h.newOp.opLeft
        · refine (State.Canon.newOp ?_).opLeft
          split
          · exact h
          · exact h.newOp.opLeft

theorem State.Canon.execAtom {op : AtomOp} {o : MForm} {s : State} (h : s.Canon) : OutCanon (execAtom op o s) := by
  unfold Machine.execAtom
  refine h.execWord fun _ _ _ h1 h2 => ?_
  split
  · exact h1.spAtom h2
  · exact h1.glAtom

theorem State.Canon.execRed {op : AtomOp} {o : MForm} {s : State} (h : s.Canon) : OutCanon (execRed op o s) := by
  unfold Machine.execRed
  refine h.execWord fun _ _ _ h1 h2 => ?_
  split
  · exact h1.spAtom h2
  · exact h1.glRed

theorem State.Canon.execCas {o : MForm} {s : State} (h : s.Canon) : OutCanon (execCas o s) := by
  unfold Machine.execCas
  refine h.execWord fun _ _ _ h1 h2 => ?_
  split
  · exact h1.spAtom h2
  · exact h1.glAtom

theorem State.Canon.yieldWEffect {o : MForm} {s : State} {g : Group} {act : Word} (h : s.Canon) :
    (yieldWEffect o s g act).Canon := by
  unfold Machine.yieldWEffect
  extract_lets _
  split
  · exact h.raise
  · refine h.withAccess fun _ => ?_
    split
    · exact h.raise
    · extract_lets s'
      have hs' : s'.Canon := foldl_keep h fun _ _ h1 => h1.putReq
      clear_value s'
      exact hs'.bumpSeq.onGroup fun _ h1 => h1.mapLanes

theorem State.Canon.execYieldW {o : MForm} {s : State} (h : s.Canon) : OutCanon (execYieldW o s) :=
  h.execWord fun _ _ _ h1 _ => h1.yieldWEffect

theorem State.Canon.wakeLanes {s : State} {g : Group} (h : s.Canon) : (wakeLanes s g).Canon := by
  unfold Machine.wakeLanes
  split
  · exact h.wakeGate
  · exact h

theorem State.Canon.gateInitEffect {o : MForm} {s : State} {g : Group} {act : Word} (h : s.Canon) :
    (gateInitEffect o s g act).Canon := by
  unfold Machine.gateInitEffect
  split
  · exact h.raise
  · extract_lets c
    have hc : c.Canon := eachLane_keeps _ h.cores fun _ _ _ _ h3 => h3.gateInitAt
    clear_value c
    exact State.Canon.wakeLanes (State.Canon.go { h with cores := hc })

theorem State.Canon.execGateInit {o : MForm} {s : State} (h : s.Canon) : OutCanon (execGateInit o s) :=
  h.execWord fun _ _ _ h1 _ => h1.gateInitEffect

theorem Cores.Canon.gateLanes {s : State} {g : Group} {o : MForm} {f : Cores → Nat → Nat → Option Cores} {Ls : List Nat}
    {c : Cores} (h : c.Canon) (hf : ∀ c a n, c.Canon → IfSome Cores.Canon (f c a n)) :
    IfEither (fun _ => True) Cores.Canon (gateLanes s g o f Ls c) := by
  induction Ls generalizing c with
  | nil => exact .ok h
  | cons L Ls ih =>
    unfold Machine.gateLanes
    extract_lets a
    split
    · rename_i c1 e
      split at e
      · exact ih ((hf _ _ _ h).of_some e)
      · exact absurd e (by simp)
    · exact .error trivial

theorem Cores.Canon.expectLane {c : Cores} {a n : Nat} (hc : c.Canon) : IfSome Cores.Canon (expectLane c a n) := by
  unfold Machine.expectLane
  extract_lets _
  split
  · exact .none
  · exact .some hc.gateWrite

theorem Cores.Canon.arriveLane {c : Cores} {a n : Nat} (hc : c.Canon) : IfSome Cores.Canon (arriveLane c a n) := by
  unfold Machine.arriveLane
  extract_lets _
  split
  · exact .none
  · exact .some hc.gateArriveAt

theorem State.Canon.gateExpectEffect {o : MForm} {s : State} {g : Group} {act : Word} (h : s.Canon) :
    (gateExpectEffect o s g act).Canon := by
  unfold Machine.gateExpectEffect
  split
  · exact h.raise
  · split
    · exact h.raise
    · rename_i c e1
      have hc : c.Canon := (h.cores.gateLanes fun _ _ _ h1 => h1.expectLane).of_ok e1
      exact State.Canon.go { h with cores := hc }

theorem State.Canon.execGateExpect {o : MForm} {s : State} (h : s.Canon) : OutCanon (execGateExpect o s) :=
  h.execWord fun _ _ _ h1 _ => h1.gateExpectEffect

theorem State.Canon.gateArriveEffect {o : MForm} {s : State} {g : Group} {act : Word} (h : s.Canon) :
    (gateArriveEffect o s g act).Canon := by
  unfold Machine.gateArriveEffect
  split
  · exact h.raise
  · split
    · exact h.raise
    · rename_i c e1
      have hc : c.Canon := (h.cores.gateLanes fun _ _ _ h1 => h1.arriveLane).of_ok e1
      exact h.spRelease fun _ h1 _ => State.Canon.wakeLanes (State.Canon.go { h1 with cores := hc })

theorem State.Canon.execGateArrive {o : MForm} {s : State} (h : s.Canon) : OutCanon (execGateArrive o s) :=
  h.execWord fun _ _ _ h1 _ => h1.gateArriveEffect

theorem State.Canon.gatePeekEffect {o : MForm} {s : State} {g : Group} {act : Word} (h : s.Canon) :
    (gatePeekEffect o s g act).Canon := by
  unfold Machine.gatePeekEffect
  split
  · exact h.raise
  · refine h.onGroup fun _ h1 => Group.Canon.advance (eachLane_keeps _ h1 fun _ _ _ _ h4 => ?_)
    extract_lets _
    exact h4.wrV.wrV

theorem State.Canon.execGatePeek {o : MForm} {s : State} (h : s.Canon) : OutCanon (execGatePeek o s) :=
  h.execWord fun _ _ _ h1 _ => h1.gatePeekEffect

theorem State.Canon.gateWaitEffect {o : MForm} {s : State} {g : Group} {act : Word} (h : s.Canon) :
    (gateWaitEffect o s g act).Canon := by
  unfold Machine.gateWaitEffect
  split
  · exact h.raise
  · extract_lets _
    exact h.onGroup fun _ h1 => h1.advance.await

theorem State.Canon.execGateWait {o : MForm} {s : State} (h : s.Canon) : OutCanon (execGateWait o s) :=
  h.execWord fun _ _ _ h1 _ => h1.gateWaitEffect

theorem State.Canon.gateWaitLimEffect {o : MForm} {s : State} {g : Group} {act : Word} (h : s.Canon) :
    (gateWaitLimEffect o s g act).Canon := by
  unfold Machine.gateWaitLimEffect
  split
  · exact h.raise
  · extract_lets _ _ _
    refine h.onGroup fun _ h1 => ?_
    extract_lets x1
    have hx1 : Group.Canon s.nextId x1 := eachLane_keeps _ h1 fun _ _ _ _ h4 => h4.wrV
    clear_value x1
    exact hx1.advance.await

theorem State.Canon.execGateWaitLim {o : MForm} {s : State} (h : s.Canon) : OutCanon (execGateWaitLim o s) :=
  h.execWord fun _ _ _ h1 _ => h1.gateWaitLimEffect

theorem State.Canon.doGateWaitDeadline {s : State} (h : s.Canon) : (doGateWaitDeadline s).Canon := by
  unfold Machine.doGateWaitDeadline
  split
  · exact h
  · split
    · exact h.onGroup fun _ h1 => h1.testGates
    · exact h

theorem State.Canon.execGateWaitDeadline {s : State} (h : s.Canon) : OutCanon (execGateWaitDeadline s) :=
  .next h.doGateWaitDeadline

theorem State.Canon.putLocks {k : ReqKind} {w : Wait} {o : MForm} {s : State} {g : Group} {stay : Word}
    {as : List Acc} (h : s.Canon) : (putLocks k w o s g stay as).Canon := by
  unfold Machine.putLocks
  extract_lets s'
  have hs' : s'.Canon := foldl_keep h fun _ _ h1 => h1.putReq
  clear_value s'
  exact hs'.bumpSeq.onGroup fun _ h1 => h1.advance.await

theorem State.Canon.lockEffect {o : MForm} {s : State} {g : Group} {act : Word} (h : s.Canon) :
    (lockEffect o s g act).Canon := by
  unfold Machine.lockEffect
  split
  · exact h.raise
  · refine h.withAccess fun _ => ?_
    split
    · exact h.raise
    · exact h.putLocks

theorem State.Canon.execLock {o : MForm} {s : State} (h : s.Canon) : OutCanon (execLock o s) :=
  h.execWord fun _ _ _ h1 _ => h1.lockEffect

theorem State.Canon.unlockEffect {o : MForm} {s : State} {g : Group} {act : Word} (h : s.Canon) :
    (unlockEffect o s g act).Canon := by
  unfold Machine.unlockEffect
  split
  · exact h.raise
  · refine h.withAccess fun _ => ?_
    split
    · exact h.raise
    · split
      · exact h.clearMarks.putLocks
      · exact h

theorem State.Canon.execUnlock {o : MForm} {s : State} (h : s.Canon) : OutCanon (execUnlock o s) :=
  h.execWord fun _ _ _ h1 _ => h1.unlockEffect

theorem State.Canon.answerLocker {s : State} {w : Locker} {ans : PeerAnswer} (h : s.Canon) :
    (s.answerLocker w ans).Canon := by
  unfold State.answerLocker
  split
  · exact h.answerPeer
  · exact h

theorem State.Canon.answerLock {s : State} {w : Locker} {a : LockAns} {va : Nat} (h : s.Canon) :
    (s.answerLock w a va).Canon := by
  unfold State.answerLock
  split
  · exact { h with mem := { h.mem with } }
  · exact h.answerLocker

theorem State.Canon.lockWord {s : State} {l : LineId} {ofs x : Nat} (h : s.Canon) : (s.lockWord l ofs x).Canon := by
  unfold State.lockWord
  extract_lets _
  exact h.arrive

theorem State.Canon.onLock {s : State} {l : LineId} {ofs : Nat} {f : LockRec → LockRec} (h : s.Canon) :
    (s.onLock l ofs f).Canon := by
  unfold State.onLock
  extract_lets _ _
  exact { h with mem := { h.mem with } }

theorem State.Canon.lockAt {s : State} {l : LineId} {ofs : Nat} {w : Locker} {va : Nat} (h : s.Canon) :
    (s.lockAt l ofs w va).Canon := by
  unfold State.lockAt
  split
  split
  · split
    · extract_lets _ _ s1
      have hs1 : s1.Canon := { h with mem := { h.mem with } }
      clear_value s1
      exact hs1.lockWord.answerLock
    · exact { h with mem := { h.mem with } }
  · split
    · exact h.answerLock
    · split
      · exact h.onLock
      · exact { h with mem := { h.mem with } }

theorem State.Canon.lockFreed {s : State} {slice : Nat} (h : s.Canon) : (s.lockFreed slice).Canon := by
  unfold State.lockFreed
  refine foldl_keep h fun _ _ h1 => ?_
  split
  · exact State.Canon.lockAt { h1 with mem := { h1.mem with } }
  · exact h1

theorem State.Canon.lockPass {s : State} {l : LineId} {ofs : Nat} (h : s.Canon) : (s.lockPass l ofs).Canon := by
  unfold State.lockPass
  split
  · exact h
  · split
    · extract_lets _ s1
      have hs1 : s1.Canon := { h with mem := { h.mem with } }
      clear_value s1
      exact hs1.lockWord.lockFreed
    · extract_lets s1
      have hs1 : s1.Canon := h.onLock
      clear_value s1
      exact hs1.lockWord.answerLock.lockFreed

theorem State.Canon.unlockAt {s : State} {l : LineId} {ofs : Nat} {w : Locker} {va : Nat} (h : s.Canon) :
    (s.unlockAt l ofs w va).Canon := by
  unfold State.unlockAt
  split
  · split
    · exact h.answerLock.lockPass
    · exact h.answerLock
  · exact h.answerLock

theorem State.Canon.doLockRequest {id : Nat} {s : State} (h : s.Canon) : (doLockRequest id s).Canon := by
  unfold Machine.doLockRequest
  split
  · exact h.dropReq.lockAt
  · exact h

theorem State.Canon.execLockRequest {id : Nat} {s : State} (h : s.Canon) : OutCanon (execLockRequest id s) :=
  .next h.doLockRequest

theorem State.Canon.doUnlockRequest {id : Nat} {s : State} (h : s.Canon) : (doUnlockRequest id s).Canon := by
  unfold Machine.doUnlockRequest
  split
  · exact h.dropReq.unlockAt
  · exact h

theorem State.Canon.execUnlockRequest {id : Nat} {s : State} (h : s.Canon) : OutCanon (execUnlockRequest id s) :=
  .next h.doUnlockRequest

theorem State.Canon.dropAnswer {s : State} {a : LockAnswer} (h : s.Canon) : (s.dropAnswer a).Canon :=
  { h with mem := { h.mem with } }

theorem State.Canon.doLockGrant {s : State} (h : s.Canon) : (doLockGrant s).Canon := by
  unfold Machine.doLockGrant
  split
  · split
    · extract_lets s1
      have hs1 : s1.Canon := h.dropAnswer.freshFetch
      clear_value s1
      split
      · exact hs1.onGroup fun _ h1 => h1.leave
      · exact hs1
    · exact h
  · exact h

theorem State.Canon.execLockGrant {s : State} (h : s.Canon) : OutCanon (execLockGrant s) := by
  unfold Machine.execLockGrant
  refine .next ?_
  split
  · exact h
  · exact h.doLockGrant

theorem State.Canon.withdrawEntries {s : State} {mine : Locker → Bool} (h : s.Canon) :
    (s.withdrawEntries mine).Canon := by
  unfold State.withdrawEntries
  extract_lets _ s1
  have hs1 : s1.Canon := { h with mem := { h.mem with } }
  clear_value s1
  exact foldl_keep hs1 fun _ _ h1 => h1.lockFreed

theorem State.Canon.withdrawLane {s : State} {gid L : Nat} (h : s.Canon) : (s.withdrawLane gid L).Canon :=
  h.withdrawEntries

theorem State.Canon.withdrawQueued {s : State} {g : Group} {pc : BitVec 64} (h : s.Canon) :
    (s.withdrawQueued g pc).Canon := by
  unfold State.withdrawQueued
  extract_lets _ s1
  have hs1 : s1.Canon := foldl_keep h fun _ _ h1 => h1.withdrawLane
  clear_value s1
  exact hs1.onGroup fun _ h1 => h1.setWait

theorem State.Canon.lockOwnerTrap {s : State} {g : Group} {pc : BitVec 64} (h : s.Canon) :
    (s.lockOwnerTrap g pc).Canon := by
  unfold State.lockOwnerTrap
  extract_lets _ _ _ _ s1 s2
  have hs1 : s1.Canon := { h with mem := { h.mem with } }
  clear_value s1
  have hs2 : s2.Canon := hs1.onGroup fun _ h1 => h1.setWait
  clear_value s2
  split
  · exact h
  · exact hs2.withdrawQueued.takeTrap

theorem State.Canon.unlockDone {s : State} {g : Group} {pc : BitVec 64} (h : s.Canon) :
    (s.unlockDone g pc).Canon := by
  unfold State.unlockDone
  split
  · exact h
  · extract_lets _ _ _ _ _ s1 s2
    have hs1 : s1.Canon := { h with mem := { h.mem with } }
    clear_value s1
    have hs2 : s2.Canon := hs1.onGroup fun _ h1 => h1.leave.setWait
    clear_value s2
    exact hs2.lockOwnerTrap

theorem State.Canon.doLockUnitAnswer {s : State} (h : s.Canon) : (doLockUnitAnswer s).Canon := by
  unfold Machine.doLockUnitAnswer
  split
  · extract_lets _
    split
    · exact h.unlockDone
    · exact h.unlockDone
    · split
      · exact h
      · exact h.lockOwnerTrap
    · exact h
  · exact h

theorem State.Canon.execLockUnitAnswer {s : State} (h : s.Canon) : OutCanon (execLockUnitAnswer s) :=
  .next h.doLockUnitAnswer

theorem State.Canon.withdrawAway {s : State} {r : Req} (h : s.Canon) : (s.withdrawAway r).Canon := by
  unfold State.withdrawAway
  split
  · split
    · exact h
    · exact h.sendPeer
  · exact h

theorem State.Canon.doLockWithdrawalAnswer {s : State} (h : s.Canon) : (doLockWithdrawalAnswer s).Canon := by
  unfold Machine.doLockWithdrawalAnswer
  extract_lets _
  split
  · exact h
  · extract_lets _
    split
    · exact h
    · split
      · split
        · exact h.dropAnswer.freshFetch.onGroup fun _ h1 => h1.leave
        · exact h
      · split
        · split
          · exact h.withdrawAway
          · exact h.dropReq.onGroup fun _ h1 => h1.setWait
        · exact h.withdrawLane.onGroup fun _ h1 => h1.setWait

theorem State.Canon.execLockWithdrawalAnswer {s : State} (h : s.Canon) : OutCanon (execLockWithdrawalAnswer s) :=
  .next h.doLockWithdrawalAnswer

theorem State.Canon.freeLocks {s : State} {p : Locker → Bool} (h : s.Canon) : (s.freeLocks p).Canon :=
  foldl_keep h fun _ _ h1 => h1.lockPass

theorem State.Canon.doPeerLockRelease {pkg grid : Nat} {s : State} (h : s.Canon) :
    (doPeerLockRelease pkg grid s).Canon :=
  h.freeLocks

theorem State.Canon.execPeerLockRelease {pkg grid : Nat} {s : State} (h : s.Canon) :
    OutCanon (execPeerLockRelease pkg grid s) :=
  .next h.doPeerLockRelease

theorem State.Canon.checkBarrier {s : State} {team : Nat} (h : s.Canon) : (s.checkBarrier team).Canon := by
  unfold State.checkBarrier
  split
  · exact h
  · extract_lets _ s1
    have hs1 : s1.Canon := h.onTeam fun _ h1 => { h1 with }
    clear_value s1
    split
    · exact h
    · refine { hs1 with groups := forall_mem_change hs1.groups fun _ h1 => ?_ }
      split
      · exact { h1.goOn with }
      · exact h1

theorem Group.Canon.gain {N : Nat} {g : Group} {k : AcqKind} {n fresh : Nat} (hg : g.Canon N) :
    Group.Canon N (g.gain k n fresh) := by
  unfold Machine.Group.gain
  split
  · extract_lets _ _ x1
    exact { (hg.both fun _ h => { h with v := swf_keep h.v } : Group.Canon N x1) with
        blkGen := swf_fold hg.blkGen fun _ _ h => swf_set h }
  · exact { hg with t := swf_keep hg.t, tiles := forall_mem_keep hg.tiles }
  · exact { hg with a := swf_keep hg.a }

theorem Group.Canon.lose {N : Nat} {g : Group} {k : AcqKind} {n : Nat} (hg : g.Canon N) :
    Group.Canon N (g.lose k n) := by
  unfold Machine.Group.lose
  split <;> exact { hg with }

theorem State.Canon.checkDeadlock {s : State} {team side : Nat} (h : s.Canon) :
    (s.checkDeadlock team side).Canon := by
  unfold State.checkDeadlock
  split
  · exact h
  · extract_lets _ _ _
    split
    · split
      · extract_lets s1
        have hs1 : s1.Canon := h.onTeam fun _ h1 => { h1 with }
        clear_value s1
        split
        · extract_lets _
          exact State.Canon.takeTrap (hs1.onGroup fun _ h1 => h1.setWait)
        · exact hs1
      · exact h
    · exact h

theorem State.Canon.barrierEffect {s : State} {g : Group} {act : Word} (h : s.Canon) :
    (barrierEffect s g act).Canon := by
  unfold Machine.barrierEffect
  refine h.spRelease fun _ h1 _ => ?_
  extract_lets s1
  have hs1 : s1.Canon := by
    unfold s1
    refine h1.onGroup fun _ h3 => ?_
    extract_lets _
    exact { h3.await with }
  clear_value s1
  exact hs1.checkBarrier.checkDeadlock

theorem State.Canon.execBarrier {o : RForm} {s : State} (h : s.Canon) : OutCanon (execBarrier o s) :=
  h.execWord fun _ _ _ h1 _ => h1.barrierEffect

theorem State.Canon.acqEffect {k : AcqKind} {n : Nat} {s : State} {g : Group} {act : Word} (h : s.Canon) :
    (acqEffect k n s g act).Canon := by
  unfold Machine.acqEffect
  split
  · exact h
  · split
    · exact h.raise
    · extract_lets s1
      have hs1 : s1.Canon := h.onTeam fun _ h1 => { h1 with }
      clear_value s1
      exact State.Canon.checkDeadlock (hs1.onGroup fun _ h1 => h1.await)

theorem State.Canon.execAcqBlk {o : RForm} {s : State} (h : s.Canon) : OutCanon (execAcqBlk o s) :=
  h.execWord fun _ _ _ h1 _ => h1.acqEffect

theorem State.Canon.execAcqOpt {o : RForm} {s : State} (h : s.Canon) : OutCanon (execAcqOpt o s) :=
  h.execWord fun _ _ _ h1 _ => h1.acqEffect

theorem State.Canon.execAcqAcc {o : RForm} {s : State} (h : s.Canon) : OutCanon (execAcqAcc o s) :=
  h.execWord fun _ _ _ h1 _ => h1.acqEffect

theorem State.Canon.acqGrant {s : State} {team side : Nat} (h : s.Canon) : (s.acqGrant team side).Canon := by
  unfold State.acqGrant
  split
  · extract_lets s1
    have hs1 : s1.Canon := h.onTeam fun _ h1 => { h1 with }
    clear_value s1
    split
    rename_i s2 e1
    have hs2 : s2.Canon := hs1.fresh.snd e1
    exact hs2.onGroup fun _ h1 => h1.gain.leave
  · exact h

theorem State.Canon.doAcqGrant {team side : Nat} {s : State} (h : s.Canon) : (doAcqGrant team side s).Canon := by
  unfold Machine.doAcqGrant
  split
  · exact h
  · exact h.acqGrant

theorem State.Canon.execAcqGrant {team side : Nat} {s : State} (h : s.Canon) : OutCanon (execAcqGrant team side s) :=
  .next h.doAcqGrant

theorem State.Canon.relEffect {k : AcqKind} {n : Nat} {s : State} {g : Group} {act : Word} (h : s.Canon) :
    (relEffect k n s g act).Canon := by
  unfold Machine.relEffect
  split
  · exact h.raise
  · exact h.onGroup fun _ h1 => h1.lose.advance

theorem State.Canon.execRelBlk {o : RForm} {s : State} (h : s.Canon) : OutCanon (execRelBlk o s) :=
  h.execWord fun _ _ _ h1 _ => h1.relEffect

theorem State.Canon.execRelOpt {o : RForm} {s : State} (h : s.Canon) : OutCanon (execRelOpt o s) :=
  h.execWord fun _ _ _ h1 _ => h1.relEffect

theorem State.Canon.execRelAcc {o : RForm} {s : State} (h : s.Canon) : OutCanon (execRelAcc o s) :=
  h.execWord fun _ _ _ h1 _ => h1.relEffect

theorem State.Canon.fenceEffect {acq rel sc : Bool} {c : BitVec 8} {s : State} {g : Group} {act : Word} (h : s.Canon)
    : (fenceEffect acq rel sc c s g act).Canon := by
  unfold Machine.fenceEffect
  extract_lets _
  exact h.onGroup fun _ h1 => h1.await

theorem State.Canon.execFenceAcq {o : RForm} {s : State} (h : s.Canon) : OutCanon (execFenceAcq o s) :=
  h.execWord fun _ _ _ h1 _ => h1.fenceEffect

theorem State.Canon.execFenceRel {o : RForm} {s : State} (h : s.Canon) : OutCanon (execFenceRel o s) :=
  h.execWord fun _ _ _ h1 _ => h1.fenceEffect

theorem State.Canon.execFenceAr {o : RForm} {s : State} (h : s.Canon) : OutCanon (execFenceAr o s) :=
  h.execWord fun _ _ _ h1 _ => h1.fenceEffect

theorem State.Canon.execFenceSc {o : RForm} {s : State} (h : s.Canon) : OutCanon (execFenceSc o s) :=
  h.execWord fun _ _ _ h1 _ => h1.fenceEffect

theorem State.Canon.doFencePerformed {s : State} (h : s.Canon) : (doFencePerformed s).Canon := by
  unfold Machine.doFencePerformed
  split
  · exact h
  · extract_lets s1 s2
    have hs1 : s1.Canon := by
      unfold s1
      split
      · exact h.clearMarks
      · exact h
    clear_value s1
    have hs2 : s2.Canon := by
      unfold s2
      split
      · exact hs1.freshFetch
      · exact hs1
    clear_value s2
    exact hs2.onGroup fun _ h1 => h1.leave

theorem State.Canon.execFencePerformed {s : State} (h : s.Canon) : OutCanon (execFencePerformed s) := by
  unfold Machine.execFencePerformed
  refine .next ?_
  split
  · exact h
  · exact h.doFencePerformed

end Sys2Proof.Machine
end

