-- ==== Sys2Proof/Proofs/CanonTiles.lean ====
section
/-! SUPPORT. The canonical form is kept: tiles and drays. -/

namespace Sys2Proof.Machine

theorem Tile.Canon.put {t : Tile} {a : Nat} {bs : List Byte} (ht : t.Canon) : (t.put a bs).Canon := by
  unfold Machine.Tile.put
  refine { ht with bytes := swf_fold ht.bytes fun _ _ h => ?_ }
  dsimp only
  exact swf_set h

theorem Tile.Canon.putScales {t : Tile} {a : Nat} {bs : List Byte} (ht : t.Canon) : (t.putScales a bs).Canon := by
  unfold Machine.Tile.putScales
  refine { ht with scales := swf_fold ht.scales fun _ _ h => ?_ }
  dsimp only
  exact swf_set h

theorem Tile.Canon.tagRow {t : Tile} {i : Nat} {b : Bool} (ht : t.Canon) : (t.tagRow i b).Canon := { ht with }

theorem Tile.Canon.tldTile {s : State} {g : Group} {o : MForm} : (tldTile s g o).Canon := by
  unfold Machine.tldTile
  extract_lets _ _ _ _ t t1
  have ht : t.Canon := { Tile.Canon.emptyTile with }
  clear_value t
  have ht1 : t1.Canon := by
    unfold t1
    split
    · exact ht.putScales
    · exact ht
  clear_value t1
  refine foldl_keep ht1 fun _ _ h1 => ?_
  extract_lets _ _
  exact h1.put.tagRow

theorem State.Canon.tldEffect {o : MForm} {s : State} {g : Group} {w : Word} (h : s.Canon) :
    (tldEffect o s g w).Canon := by
  unfold Machine.tldEffect
  split
  · exact h.raise
  · exact h.onGroup fun _ h1 => (h1.wrT Tile.Canon.tldTile).advance

theorem State.Canon.execTld {o : MForm} {s : State} (h : s.Canon) : OutCanon (execTld o s) :=
  h.execWord fun _ _ _ h1 _ => h1.tldEffect

theorem State.Canon.tstCores {s : State} {g : Group} {o : MForm} {t : Tile} (h : s.Canon) :
    (tstCores s g o t).Canon := by
  unfold Machine.tstCores
  extract_lets _ _ c
  have hc : c.Canon := by
    unfold c
    refine foldl_keep h.cores fun _ _ h1 => ?_
    extract_lets _
    split <;> exact h1.spPut
  clear_value c
  split
  · exact hc.spPut
  · exact hc

theorem State.Canon.tstEffect {o : MForm} {s : State} {g : Group} {w : Word} (h : s.Canon) :
    (tstEffect o s g w).Canon := by
  unfold Machine.tstEffect
  extract_lets _ _
  split
  · exact h.raise
  · split
    · exact h.raise
    · exact State.Canon.go { h with cores := h.tstCores }

theorem State.Canon.execTst {o : MForm} {s : State} (h : s.Canon) : OutCanon (execTst o s) :=
  h.execWord fun _ _ _ h1 _ => h1.tstEffect

theorem Group.Canon.zeroA {N : Nat} {g : Group} {n : Nat} (hg : g.Canon N) : Group.Canon N (zeroA g n) :=
  { hg with a := swf_keep hg.a }

theorem State.Canon.execTzero {o : RForm} {s : State} (h : s.Canon) : OutCanon (execTzero o s) :=
  h.execWord fun _ _ _ h1 _ => h1.onGroup fun _ h3 => h3.zeroA.advance

theorem Group.Canon.mmaResult {N : Nat} {g : Group} {d : Nat} {a b : AOperand} (hg : g.Canon N) :
    Group.Canon N (mmaResult g d a b) := by
  unfold Machine.mmaResult
  extract_lets _ _ _ _ _ _
  split <;> exact foldl_keep hg fun _ _ h => h.wrA

theorem State.Canon.mmaChecked {s : State} {g : Group} {f : Group → Group} (h : s.Canon)
    (hf : ∀ N g, g.Canon N → (f g).Canon N) : (mmaChecked s g f).Canon := by
  unfold Machine.mmaChecked
  extract_lets _ _ s1 s2 _
  have hs1 : s1.Canon := h.onSide fun _ h1 => { h1 with }
  clear_value s1
  have hs2 : s2.Canon := by
    unfold s2
    split
    · exact hs1
    · exact hs1.countEvent.log
  clear_value s2
  split
  · exact hs2.onGroup fun _ h1 => (hf _ _ h1).advance
  · exact hs2.log.machineCheck.charge.go

theorem State.Canon.execMma {o : RForm} {s : State} (h : s.Canon) : OutCanon (execMma o s) := by
  unfold Machine.execMma
  refine h.execWord fun _ _ _ h1 _ => ?_
  extract_lets _ _
  split
  · exact h1.mmaChecked fun _ _ h3 => h3.mmaResult
  · exact h1.raise

theorem State.Canon.execMmag {o : RForm} {s : State} (h : s.Canon) : OutCanon (execMmag o s) := by
  unfold Machine.execMmag
  refine h.execWord fun _ _ _ h1 _ => ?_
  split
  · exact h1.raise
  · extract_lets _ _
    split
    · exact h1.mmaChecked fun _ _ h3 => h3.mmaResult
    · exact h1.raise

theorem State.Canon.tmaskEffect {o : MForm} {s : State} {g : Group} {act : Word} (h : s.Canon) :
    (tmaskEffect o s g act).Canon := by
  unfold Machine.tmaskEffect
  extract_lets _ _ _ _ _ _
  split
  · exact h.raise
  split
  · exact h.raise
  split
  · exact h.raise
  split
  · exact h.raise
  split
  · exact h.raise
  refine h.onGroup fun x h1 => ?_
  extract_lets rows
  have hrows : swf 0 rows = true := swf_fold h1.maskRows fun _ _ h2 => swf_set h2
  clear_value rows
  exact Group.Canon.advance { h1 with maskRows := hrows }

theorem State.Canon.execTmask {o : MForm} {s : State} (h : s.Canon) : OutCanon (execTmask o s) :=
  h.execWord fun _ _ _ h1 _ => h1.tmaskEffect

theorem Group.Canon.maskOnce {N : Nat} {g : Group} (hg : g.Canon N) : Group.Canon N (maskOnce g) := by
  unfold Machine.maskOnce
  split
  · exact { hg with }
  · exact hg

theorem Cores.Canon.drainSp {g : Group} {d : Nat} {add : Bool} {ac a : Nat} {c : Cores} (hc : c.Canon) :
    (drainSp g d add ac a c).Canon := by
  unfold Machine.drainSp
  refine foldl_keep hc fun _ _ h => ?_
  split
  · exact h
  · extract_lets _
    split <;> exact h.spPut

theorem State.Canon.drainCopy {s : State} {core : Nat} {r : Req} {add : Bool} {mask : Nat} (h : s.Canon) :
    (s.drainCopy core r add mask).Canon := by
  unfold State.drainCopy
  split
  · refine foldl_keep h fun _ _ h1 => ?_
    extract_lets _
    split
    · exact h1
    · split
      · exact h1.l1Drop
      · exact h1.l1Store
  · exact h

theorem State.Canon.putDrain {s : State} {g : Group} {a : Acc} {r : Req} (h : s.Canon) :
    (s.putDrain g a r).Canon := by
  unfold State.putDrain
  extract_lets s1
  have hs1 : s1.Canon := by
    unfold s1
    split
    · exact h.drainCopy
    · exact h
  clear_value s1
  exact hs1.putReq

theorem State.Canon.drainGlobal {add split : Bool} {o : MForm} {s : State} {g : Group} {act : Word} (h : s.Canon) :
    (drainGlobal add split o s g act).Canon := by
  unfold Machine.drainGlobal
  extract_lets _ _ _
  split
  · exact h.raise
  · split
    · split
      · exact h.raise
      · split
        · exact h.raise
        · exact h.waitWalk
        · exact h
        · split
          · exact h.raise
          · split
            · exact h
            · split
              rename_i s1 e3
              have hs1 : s1.Canon := h.newOp.snd e3
              extract_lets s2 s3
              have hs2 : s2.Canon := hs1.opLeft
              clear_value s2
              have hs3 : s3.Canon := foldl_keep hs2 fun _ _ h1 => h1.putDrain
              clear_value s3
              exact hs3.bumpSeq.onGroup fun _ h1 => h1.maskOnce.advance
    · split
      · exact h.raise
      · split
        · exact h.raise
        · exact h.waitWalk
        · exact h
        · split
          · exact h.raise
          · split
            · exact h
            · split
              rename_i s1 e2
              have hs1 : s1.Canon := h.newOp.snd e2
              extract_lets s2 s3
              have hs2 : s2.Canon := hs1.opLeft
              clear_value s2
              have hs3 : s3.Canon := foldl_keep hs2 fun _ _ h1 => h1.putDrain
              clear_value s3
              exact hs3.bumpSeq.onGroup fun _ h1 => h1.maskOnce.advance

theorem State.Canon.drainScratch {add : Bool} {o : MForm} {s : State} {g : Group} {act : Word} (h : s.Canon) :
    (drainScratch add o s g act).Canon := by
  unfold Machine.drainScratch
  split
  · exact h.raise
  · split
    · exact h
    · extract_lets c
      have hc1 : c.Canon := h.cores.drainSp
      clear_value c
      dsimp only
      exact State.Canon.onGroup (State.Canon.opLeft (State.Canon.newOp { h with cores := hc1 })) fun _ h1 =>
        h1.maskOnce.advance

theorem State.Canon.execTdrain {o : MForm} {s : State} (h : s.Canon) : OutCanon (execTdrain o s) := by
  unfold Machine.execTdrain
  refine h.execWord fun _ _ _ h1 _ => ?_
  split
  · exact h1.drainScratch
  · exact h1.drainGlobal

theorem State.Canon.execTdrainAdd {o : MForm} {s : State} (h : s.Canon) : OutCanon (execTdrainAdd o s) := by
  unfold Machine.execTdrainAdd
  refine h.execWord fun _ _ _ h1 _ => ?_
  split
  · exact h1.drainScratch
  · exact h1.drainGlobal

theorem State.Canon.execTdrainAddSplit {o : MForm} {s : State} (h : s.Canon) : OutCanon (execTdrainAddSplit o s) :=
  h.execWord fun _ _ _ h1 _ => h1.drainGlobal

theorem Tile.Canon.tcvtRow {g : Group} {o : RForm} {acc : Tile × Flags} {i : Nat} (hacc : acc.1.Canon) :
    (tcvtRow g o acc i).1.Canon := by
  unfold Machine.tcvtRow
  extract_lets _ _ _ _ _
  dsimp only
  refine Tile.Canon.tagRow ?_
  split
  · exact hacc.put.putScales
  · exact hacc.put

theorem Group.Canon.tcvtTile {N : Nat} {g : Group} {o : RForm} (hg : g.Canon N) : (tcvtTile g o).1.Canon := by
  unfold Machine.tcvtTile
  extract_lets t0 _ t
  have ht0 : t0.Canon := hg.rdT
  clear_value t0
  have ht : t.Canon := by
    unfold t
    split
    · exact ht0
    · exact { Tile.Canon.emptyTile with }
  clear_value t
  exact foldl_keep (P := fun b : Tile × Flags => b.1.Canon) ht fun _ _ h => h.tcvtRow

theorem State.Canon.execTcvt {o : RForm} {s : State} (h : s.Canon) : OutCanon (execTcvt o s) := by
  unfold Machine.execTcvt
  refine h.execWord fun _ _ _ h1 h2 => ?_
  dsimp only
  exact h1.onGroup fun _ h3 => ((h3.wrT h2.tcvtTile).orFlags).advance

/-- The status of a dray holds no map of the canonical form. -/
theorem Dray.Canon.withStat {d : Dray} {x : DStat} (h : d.Canon) : ({ d with dstat := x } : Dray).Canon := { h with }

theorem Dray.Canon.withVp {d : Dray} {n : Nat} (h : d.Canon) : ({ d with vp := n } : Dray).Canon := { h with }

theorem Dray.Canon.setCursor {d : Dray} {k : Bool} {c : Cursor} (hd : d.Canon) : (d.setCursor k c).Canon := by
  unfold Machine.Dray.setCursor
  split <;> exact { hd with }

theorem Dray.Canon.bump {d : Dray} {k : Bool} (hd : d.Canon) : (d.bump k).Canon := hd.setCursor

theorem Dray.Canon.onRow {d : Dray} {r : RowId} {f : OpenRow → OpenRow} (hd : d.Canon)
    (hf : ∀ o, o.Canon → (f o).Canon) : (d.onRow r f).Canon := by
  unfold Machine.Dray.onRow
  refine { hd with rows := forall_mem_change hd.rows fun _ h => ?_ }
  split
  · exact hf _ h
  · exact h

theorem State.Canon.closeRow {s : State} {key : Nat} {r : RowId} (h : s.Canon) : (s.closeRow key r).Canon := by
  unfold State.closeRow
  split
  · exact h
  · extract_lets s1
    have hs1 : s1.Canon := foldl_keep h fun _ _ h1 => h1.pokeSector
    clear_value s1
    exact hs1.onDray fun _ h1 => { h1 with rows := forall_mem_keep h1.rows }

theorem State.Canon.bankOpen {s : State} {r : RowId} (h : s.Canon) : (s.bankOpen r).Canon := by
  unfold State.bankOpen
  extract_lets _ _ _
  exact State.Canon.push { h with mem := { h.mem with } }

theorem State.Canon.bankUsed {s : State} {r : RowId} (h : s.Canon) : (s.bankUsed r).Canon :=
  { h with mem := { h.mem with } }

theorem State.Canon.shutRow {s : State} {key : Nat} {r : RowId} (h : s.Canon) : (s.shutRow key r).Canon :=
  h.closeRow.bankOpen

theorem State.Canon.openRow {s : State} {key : Nat} {r : RowId} (h : s.Canon) : (s.openRow key r).Canon := by
  unfold State.openRow
  split
  · exact h
  · extract_lets s1
    have hs1 : s1.Canon := by
      unfold s1
      split
      · exact h.shutRow
      · exact h
    clear_value s1
    exact hs1.onDray fun _ h1 => { h1 with rows := forall_mem_snoc h1.rows { bytes := swf_empty } }

theorem State.Canon.verify {s : State} {key : Nat} {r : RowId} {n : Nat} (h : s.Canon) : (s.verify key r n).Canon := by
  unfold State.verify
  split
  · exact h
  split
  · exact h
  split
  extract_lets bad mark s1 w
  have hs1 : s1.Canon := h.onDray fun _ h1 => Dray.Canon.withStat (h1.onRow fun _ ho =>
    { bytes := swf_fold ho.bytes fun _ _ h3 => swf_set h3 })
  clear_value s1
  split
  · exact hs1.charge.log.countCorrected
  · exact hs1.charge.log
  · exact hs1

theorem State.Canon.readCol {s : State} {key : Nat} {r : RowId} {c : Nat} (h : s.Canon) :
    (s.readCol key r c).2.Canon := by
  unfold State.readCol
  extract_lets s1
  have hs1 : s1.Canon := h.openRow.verify
  clear_value s1
  split
  · exact hs1
  · extract_lets _ s2
    have hs2 : s2.Canon := hs1.bankUsed.onDray fun _ h1 => { h1 with }
    clear_value s2
    exact hs2

theorem State.Canon.writeCol {s : State} {key : Nat} {r : RowId} {c : Nat} {bs : List Byte} {tag : Nat → Bool}
    (h : s.Canon) : (s.writeCol key r c bs tag).Canon := by
  unfold State.writeCol
  extract_lets s1
  have hs1 : s1.Canon := h.openRow.verify
  clear_value s1
  refine hs1.bankUsed.onDray fun _ h1 => ?_
  extract_lets x _
  have hx : x.Canon := by
    unfold x
    refine h1.onRow fun _ h2 => { bytes := swf_fold h2.bytes fun _ _ h3 => ?_ }
    dsimp only
    exact swf_set h3
  clear_value x
  exact { hx with }

theorem Dray.Canon.setAcc {d : Dray} {c : Nat} {x : TW} (hd : d.Canon) : (d.setAcc c x).Canon :=
  { hd with acc := swf_set hd.acc }

theorem Dray.Canon.block {d : Dray} {c : Nat} {prods : List FVal} {scales : Option (Nat × Nat)} (hd : d.Canon) :
    (d.block c prods scales).Canon := by
  unfold Machine.Dray.block
  split
  extract_lets _ d1 _
  have hd1 : d1.Canon := hd.setAcc
  clear_value d1
  exact { hd1 with }

theorem Dray.Canon.closeLatch {d : Dray} {c : Nat} (hd : d.Canon) : (d.closeLatch c).Canon := by
  unfold Machine.Dray.closeLatch
  split
  · exact hd
  · extract_lets x1
    exact { (hd.block : x1.Canon) with latch := swf_set hd.latch }

theorem Dray.Canon.closeAll {d : Dray} (hd : d.Canon) : d.closeAll.Canon := foldl_keep hd fun _ _ h => h.closeLatch

theorem Dray.Canon.vbPut {d : Dray} {a : Nat} {bs : List Byte} {tag : Nat → Bool} (hd : d.Canon) :
    (d.vbPut a bs tag).Canon := by
  unfold Machine.Dray.vbPut
  refine { hd with vb := swf_fold hd.vb fun _ _ h => ?_, vbTag := swf_fold hd.vbTag fun _ _ h => swf_set h }
  dsimp only
  exact swf_set h

theorem Dray.Canon.readTag {d : Dray} {t : Bool} (hd : d.Canon) : (d.readTag t).Canon := { hd with }

theorem State.Canon.leaveStack {s : State} {id stack : Nat} (h : s.Canon) : (s.leaveStack id stack).Canon := by
  unfold State.leaveStack
  extract_lets _ _ s1 _ s2
  have hs1 : s1.Canon := { h with drays := { h.drays with queue := swf_set h.drays.queue } }
  clear_value s1
  have hs2 : s2.Canon := by
    unfold s2
    split
    · exact { hs1 with drays := { hs1.drays with bcast := swf_set hs1.drays.bcast } }
    · exact hs1
  clear_value s2
  split
  · exact hs2
  · refine hs2.onOp fun _ h1 => ?_
    split
    · exact h1
    · exact { h1 with }

theorem State.Canon.drayEnd {s : State} {key err : Nat} (h : s.Canon) : (s.drayEnd key err).Canon := by
  unfold State.drayEnd
  extract_lets _ s1 s2 s3
  have hs1 : s1.Canon := h.onDray fun _ h1 => h1.closeAll
  clear_value s1
  have hs2 : s2.Canon := foldl_keep hs1 fun _ _ h1 => h1.shutRow
  clear_value s2
  have hs3 : s3.Canon := hs2.onDray fun _ h1 => { h1 with }
  clear_value s3
  split
  · exact h
  · extract_lets s4 s5
    have hs4 : s4.Canon := hs3.opFail
    clear_value s4
    have hs5 : s5.Canon := by
      unfold s5
      split
      · split
        · exact hs4
        · exact hs4.leaveStack
      · exact hs4
    clear_value s5
    exact hs5.onDray fun _ h1 => { h1 with }

theorem State.Canon.nextSlot {s : State} {key : Nat} (h : s.Canon) : (s.nextSlot key).Canon := by
  unfold State.nextSlot
  split
  · exact h.drayEnd
  · exact h.onDray fun _ h1 => { h1 with }

theorem Dray.Canon.freeDone {d : Dray} {left : Nat} (hd : d.Canon) : (d.freeDone left).Canon := by
  unfold Machine.Dray.freeDone
  extract_lets _ _
  exact { hd with }

theorem State.Canon.drayFree {f : Dray → Dray} {s : State} (h : s.Canon) (hf : ∀ d, d.Canon → (f d).Canon) :
    (drayFree f s).Canon := by
  unfold Machine.drayFree
  extract_lets _
  split
  · exact h
  · exact State.Canon.nextSlot (h.onDray fun _ h1 => (hf _ h1).freeDone)

theorem State.Canon.drayColumn {k : Nat} {use : Dray → List Cursor} {f : ColEffect} {s : State} (h : s.Canon)
    (hf : ∀ s n, s.Canon → IfEither (fun _ => True) State.Canon (f s n)) : (drayColumn k use f s).Canon := by
  unfold Machine.drayColumn
  extract_lets _ _ _ s0
  have hs0 : s0.Canon := h.onDray fun _ h1 => { h1 with }
  clear_value s0
  split
  · exact h
  · split
    · split
      · exact h
      · split
        · exact h.drayEnd
        · exact h.onDray fun _ h1 => { h1 with }
    · split
      · exact h.drayEnd
      · split
        · exact h
        · split
          · exact h.drayEnd
          · rename_i t e1
            have ht : t.Canon := (hf _ _ hs0).of_ok e1
            exact ht.nextSlot

theorem State.Canon.execDsel {k : Bool} {r : BitVec 13} {l h : BitVec 6} {s : State} (hs : s.Canon) :
    OutCanon (execDsel k r l h s) :=
  .next (hs.drayFree fun _ h1 => h1.setCursor)

theorem State.Canon.execDadv {k : Bool} {n : BitVec 16} {s : State} (h : s.Canon) : OutCanon (execDadv k n s) :=
  .next (h.drayFree fun _ h1 => h1.setCursor)

theorem State.Canon.execDvset {v : BitVec 6} {vs : BitVec 11} {s : State} (h : s.Canon) :
    OutCanon (execDvset v vs s) :=
  .next (h.drayFree fun _ h1 => { h1 with })

theorem Dray.Canon.dlsetDray {k a : Bool} {n : BitVec 16} {d : Dray} (hd : d.Canon) : (dlsetDray k a n d).Canon := by
  unfold Machine.dlsetDray
  extract_lets _
  split <;> exact { hd with }

theorem State.Canon.execDlset {k a : Bool} {n : BitVec 16} {s : State} (h : s.Canon) : OutCanon (execDlset k a n s) :=
  .next (h.drayFree fun _ h1 => h1.dlsetDray)

theorem State.Canon.doDloop {k : Bool} {t : BitVec 6} {s : State} (h : s.Canon) : (doDloop k t s).Canon := by
  unfold Machine.doDloop
  extract_lets key d n put
  have hput : ∀ d v, d.Canon → (put d v).Canon := by
    intro d v hd
    unfold put
    split <;> exact { hd with }
  clear_value put
  split
  · exact h
  split
  · refine h.onDray fun x h1 => ?_
    have hx := (hput x (n - 1) h1).freeDone (left := s.stepsLeft (key / 1024))
    exact { hx with }
  · exact h.drayFree fun _ h1 => hput _ _ h1

theorem State.Canon.execDloop {k : Bool} {t : BitVec 6} {s : State} (h : s.Canon) : OutCanon (execDloop k t s) :=
  .next h.doDloop

theorem State.Canon.execDwait {n : BitVec 16} {s : State} (h : s.Canon) : OutCanon (execDwait n s) := by
  unfold Machine.execDwait
  refine .next (h.drayFree fun _ h1 => ?_)
  split
  · exact { h1 with }
  · exact h1

theorem State.Canon.execDazero {m : BitVec 16} {s : State} (h : s.Canon) : OutCanon (execDazero m s) := by
  unfold Machine.execDazero
  refine .next (h.drayFree fun _ h1 => foldl_keep h1 fun _ _ h2 => ?_)
  split
  · extract_lets _
    exact { h2.setAcc with latch := swf_set h2.latch }
  · exact h2

theorem State.Canon.execDacvt {s : State} (h : s.Canon) : OutCanon (execDacvt s) :=
  .next <| h.drayFree fun _ h1 => h1.closeAll.readTag.vbPut.withVp

theorem State.Canon.doDend {s : State} (h : s.Canon) : (doDend s).Canon := by
  unfold Machine.doDend
  extract_lets _
  split
  · exact h.drayEnd
  · exact h

theorem State.Canon.execDend {s : State} (h : s.Canon) : OutCanon (execDend s) := .next h.doDend

theorem State.Canon.doDrayIllegal {s : State} (h : s.Canon) : (doDrayIllegal s).Canon := by
  unfold Machine.doDrayIllegal
  extract_lets _
  split
  · exact h.drayEnd
  · exact h

theorem State.Canon.execDrayIllegalCommand {s : State} (h : s.Canon) : OutCanon (execDrayIllegalCommand s) :=
  .next h.doDrayIllegal

theorem State.Canon.atCursor {s : State} {key : Nat} {c : Cursor} (h : s.Canon) : (s.atCursor key c).2.Canon :=
  h.readCol

theorem State.Canon.dmacEffect {c : Nat} {s : State} {key : Nat} (h : s.Canon) : (dmacEffect c s key).Canon := by
  unfold Machine.dmacEffect
  split
  rename_i s1 e
  have hs1 : s1.Canon := h.atCursor.snd e
  refine hs1.onDray fun _ h1 => ?_
  extract_lets _ _ d1 _ d2 x1
  have hd1 : d1.Canon := by
    unfold d1
    split
    · exact { h1 with latch := swf_set h1.latch }
    · extract_lets x3
      exact { (h1.block : x3.Canon) with latch := swf_set h1.latch }
  clear_value d1
  have hd2 : d2.Canon := hd1.setAcc.readTag
  clear_value d2
  exact { (hd2.bump : x1.Canon) with }

theorem State.Canon.execDmac {c : BitVec 4} {s : State} (h : s.Canon) : OutCanon (execDmac c s) :=
  .next (h.drayColumn fun _ _ h1 => .ok h1.dmacEffect)

theorem State.Canon.dmacxEffect {c : Nat} {s : State} {key : Nat} (h : s.Canon) : (dmacxEffect c s key).Canon := by
  unfold Machine.dmacxEffect
  split
  rename_i s1 e
  have hs1 : s1.Canon := h.atCursor.snd e
  refine hs1.onDray fun _ h1 => ?_
  extract_lets d1 _ _ _ _ d2 d3 _ d4 _
  have hd1 : d1.Canon := h1.closeLatch
  clear_value d1
  have hd2 : d2.Canon := hd1.block
  clear_value d2
  have hd3 : d3.Canon := hd2.block
  clear_value d3
  have hd4 : d4.Canon := hd3.setAcc.readTag
  clear_value d4
  exact { hd4.bump with }

theorem State.Canon.execDmacx {c : BitVec 4} {s : State} (h : s.Canon) : OutCanon (execDmacx c s) :=
  .next (h.drayColumn fun _ _ h1 => .ok h1.dmacxEffect)

theorem State.Canon.dscolEffect {n : Nat} {s : State} {key : Nat} (h : s.Canon) : (dscolEffect n s key).Canon := by
  unfold Machine.dscolEffect
  dsimp only
  exact h.atCursor.onDray fun _ h1 => { h1 with }

theorem State.Canon.execDscol {n : BitVec 8} {s : State} (h : s.Canon) : OutCanon (execDscol n s) :=
  .next (h.drayColumn fun _ _ h1 => .ok h1.dscolEffect)

theorem State.Canon.dvldEffect {k : Bool} {s : State} {key : Nat} (h : s.Canon) : (dvldEffect k s key).Canon := by
  unfold Machine.dvldEffect
  dsimp only
  exact h.atCursor.onDray fun _ h1 => { h1.vbPut.bump with }

theorem State.Canon.execDvld {k : Bool} {s : State} (h : s.Canon) : OutCanon (execDvld k s) :=
  .next (h.drayColumn fun _ _ h1 => .ok h1.dvldEffect)

theorem State.Canon.dvstEffect {k : Bool} {s : State} {key : Nat} (h : s.Canon) :
    IfEither (fun _ => True) State.Canon (dvstEffect k s key) := by
  unfold Machine.dvstEffect
  extract_lets _ _ _ s1
  have hs1 : s1.Canon := h.writeCol
  clear_value s1
  split
  · exact .error trivial
  · refine .ok (hs1.onDray fun _ h1 => ?_)
    extract_lets _
    exact { h1.bump with }

theorem State.Canon.execDvst {k : Bool} {s : State} (h : s.Canon) : OutCanon (execDvst k s) :=
  .next (h.drayColumn fun _ _ h1 => h1.dvstEffect)

theorem State.Canon.daddEffect {f32 toY : Bool} {s : State} {key : Nat} (h : s.Canon) :
    IfEither (fun _ => True) State.Canon (daddEffect f32 toY s key) := by
  unfold Machine.daddEffect
  extract_lets d
  split
  rename_i s1 e1
  have hs1 : s1.Canon := h.atCursor.snd e1
  split
  rename_i s2 e2
  have hs2 : s2.Canon := hs1.atCursor.snd e2
  extract_lets r c tag
  split
  · exact .error trivial
  · exact .ok (hs2.writeCol.onDray fun _ h1 => h1.bump.bump)

theorem State.Canon.execDadd {t d : Bool} {s : State} (h : s.Canon) : OutCanon (execDadd t d s) := by
  unfold Machine.execDadd
  exact .next (h.drayColumn fun _ _ h1 => h1.daddEffect)

theorem State.Canon.dscaleEffect {c : Nat} {f32 ya : Bool} {s0 : State} {key : Nat} (hs0 : s0.Canon) :
    IfEither (fun _ => True) State.Canon (dscaleEffect c f32 ya s0 key) := by
  unfold Machine.dscaleEffect
  extract_lets s d _ _ _
  have hs : s.Canon := hs0.onDray fun _ h => h.closeLatch
  clear_value s
  split
  rename_i s1 e
  have hs1 : s1.Canon := hs.atCursor.snd e
  split
  rename_i s2 e1
  have hp : (if ya = true then s1.atCursor key d.y else (([], []), s1)).2.Canon := by
    split
    · exact hs1.atCursor
    · exact hs1
  have hs2 : s2.Canon := hp.snd e1
  extract_lets _ _ s3
  have hs3 : s3.Canon := hs2.writeCol
  clear_value s3
  split
  · exact .error trivial
  · refine .ok (hs3.onDray fun _ h => ?_)
    extract_lets e2
    have he2 : e2.Canon := h.bump
    clear_value e2
    split
    · exact he2.bump
    · exact he2

theorem State.Canon.execDscale {c : BitVec 4} {t y : Bool} {s : State} (h : s.Canon) :
    OutCanon (execDscale c t y s) :=
  .next (h.drayColumn fun _ _ h1 => h1.dscaleEffect)

theorem State.Canon.daldEffect {h : Bool} {s : State} {key : Nat} (hs : s.Canon) : (daldEffect h s key).Canon := by
  unfold Machine.daldEffect
  split
  rename_i s1 e
  have hs1 : s1.Canon := hs.atCursor.snd e
  refine hs1.onDray fun _ h1 => ?_
  extract_lets _ d1
  have hd1 : d1.Canon := foldl_keep h1 fun _ _ h2 => h2.closeLatch.setAcc
  clear_value d1
  exact hd1.bump

theorem State.Canon.execDald {h : Bool} {s : State} (hs : s.Canon) : OutCanon (execDald h s) :=
  .next (hs.drayColumn fun _ _ h1 => .ok h1.daldEffect)

theorem State.Canon.dstoreEffect {f32 h : Bool} {s : State} {key : Nat} (hs : s.Canon) :
    IfEither (fun _ => True) State.Canon (dstoreEffect f32 h s key) := by
  unfold Machine.dstoreEffect
  extract_lets _ s1 _ _ _ s2
  have hs1 : s1.Canon := by
    unfold s1
    refine hs.onDray fun _ h1 => ?_
    split
    · exact foldl_keep h1 fun _ _ h2 => h2.closeLatch
    · exact h1.closeAll
  clear_value s1
  have hs2 : s2.Canon := hs1.writeCol
  clear_value s2
  split
  · exact .error trivial
  · exact .ok (hs2.onDray fun _ h1 => h1.bump)

theorem State.Canon.execDstore {t h : Bool} {s : State} (hs : s.Canon) : OutCanon (execDstore t h s) :=
  .next (hs.drayColumn fun _ _ h1 => h1.dstoreEffect)

theorem State.Canon.doDrayRowOpen {s : State} (h : s.Canon) : (doDrayRowOpen s).Canon := by
  unfold Machine.doDrayRowOpen
  extract_lets _
  split
  · exact h
  · split
    · split
      · exact h
      · split
        · split
          · exact h.shutRow
          · exact h.openRow
        · exact h.openRow
    · exact h

theorem State.Canon.execDrayRowOpen {s : State} (h : s.Canon) : OutCanon (execDrayRowOpen s) := .next h.doDrayRowOpen

theorem State.Canon.doDrayStopped {s : State} (h : s.Canon) : (doDrayStopped s).Canon := by
  unfold Machine.doDrayStopped
  extract_lets _
  split
  · exact h.drayEnd
  · exact h

theorem State.Canon.execDrayStopped {s : State} (h : s.Canon) : OutCanon (execDrayStopped s) := .next h.doDrayStopped

theorem State.Canon.doDrayBankYield {s : State} (h : s.Canon) : (doDrayBankYield s).Canon := by
  unfold Machine.doDrayBankYield
  extract_lets _
  split
  · split
    · exact h.shutRow.onDray fun _ h1 => { h1 with }
    · exact h
  · exact h

theorem State.Canon.execDrayBankYield {s : State} (h : s.Canon) : OutCanon (execDrayBankYield s) :=
  .next h.doDrayBankYield

theorem State.Canon.doBcastStep {stack : Nat} {s : State} (h : s.Canon) : (doBcastStep stack s).Canon := by
  unfold Machine.doBcastStep
  extract_lets _ _ s1
  have hs1 : s1.Canon := { h with drays := { h.drays with bcast := swf_set h.drays.bcast } }
  clear_value s1
  split
  · exact h
  · extract_lets _ _ s2
    have hs2 : s2.Canon := by
      unfold s2
      refine foldl_keep hs1 fun _ _ h1 => h1.onDray fun _ h2 => ?_
      split
      · exact { h2 with }
      · exact h2
    clear_value s2
    split
    · exact h
    · exact hs2.push

theorem State.Canon.execBcastStep {stack : Nat} {s : State} (h : s.Canon) : OutCanon (execBcastStep stack s) :=
  .next h.doBcastStep

end Sys2Proof.Machine
end

