-- ==== Sys2Proof/Proofs/CanonEngines.lean ====
section
/-! SUPPORT. The canonical form is kept: the engines, waybills and the image words. -/

namespace Sys2Proof.Machine

theorem State.From.onCtx {N : Nat} {s : State} {n : Nat} {f : Ctx → Ctx} (h : State.From N s) :
    State.From N (s.onCtx n f) :=
  { h with }

theorem State.From.onOp {N : Nat} {s : State} {id : Nat} {f : Op → Op} (h : State.From N s) :
    State.From N (s.onOp id f) :=
  { h with }

theorem State.From.onGroup {N : Nat} {s : State} {gid : Nat} {f : Group → Group} (h : State.From N s) :
    State.From N (s.onGroup gid f) :=
  { h with }

theorem State.From.send {N : Nat} {s : State} {m : HostMsg} (h : State.From N s) : State.From N (s.send m) :=
  { h with }

theorem State.From.pokeSector {N : Nat} {s : State} {r : RowId} {slot : Nat} {d : List Byte} {poison : Bool}
    (h : State.From N s) : State.From N (s.pokeSector r slot d poison) := by
  unfold State.pokeSector
  extract_lets _ _
  exact { h with }

theorem State.From.devMend {N : Nat} {s : State} {pa n : Nat} (h : State.From N s) :
    State.From N (s.devMend pa n) := by
  unfold State.devMend
  refine foldl_keep h fun _ _ h1 => ?_
  split
  split
  · extract_lets _
    split
    · exact h1
    · refine foldl_keep h1 fun _ _ h2 => ?_
      dsimp only
      split
      · exact State.From.pokeSector h2
      · exact h2
  · exact h1

theorem State.From.onLine {N : Nat} {s : State} {l : LineId} {f : DepotLine → DepotLine} (h : State.From N s) :
    State.From N (s.onLine l f) := by
  unfold State.onLine
  split
  · exact h
  · exact { h with }

theorem State.From.writeSector {N : Nat} {s : State} {r : RowId} {slot ofs : Nat} {bs : List Byte} {tag : Bool}
    (h : State.From N s) : State.From N (s.writeSector r slot ofs bs tag) := by
  unfold State.writeSector
  dsimp only
  exact State.From.pokeSector h

theorem State.From.stackWrite {N : Nat} {s : State} {l : LineId} {ofs : Nat} {bs : List Byte} {tag : Nat → Bool}
    (h : State.From N s) : State.From N (s.stackWrite l ofs bs tag) := by
  unfold State.stackWrite
  refine foldl_keep h fun _ _ h1 => ?_
  extract_lets _ _
  split
  · dsimp only
    exact State.From.writeSector h1
  · exact h1

theorem State.From.unbar {N : Nat} {s : State} {pa n : Nat} (h : State.From N s) : State.From N (s.unbar pa n) :=
  { h with }

theorem State.From.noticedAt {N : Nat} {s : State} {n pa : Nat} (h : State.From N s) :
    State.From N (s.noticedAt n pa) := by
  unfold State.noticedAt
  extract_lets _ s1 _
  have hs1 : State.From N s1 := State.From.unbar h
  clear_value s1
  exact { hs1 with }

theorem State.From.noticed {N : Nat} {s : State} {l : LineId} {ofs n : Nat} (h : State.From N s) :
    State.From N (s.noticed l ofs n) :=
  foldl_keep h fun _ _ h1 => State.From.noticedAt h1

theorem State.From.applyLine {N : Nat} {s : State} {l : LineId} {ofs : Nat} {bs : List Byte} {tag : Nat → Bool}
    (h : State.From N s) : State.From N (s.applyLine l ofs bs tag) := by
  unfold State.applyLine
  extract_lets s1
  have hs1 : State.From N s1 := by
    unfold s1
    split
    · exact State.From.onLine h
    · exact State.From.stackWrite h
  clear_value s1
  exact State.From.noticed hs1

theorem State.From.devArrive {N : Nat} {s : State} {l : LineId} {ofs : Nat} {bs : List Byte} {after : Option LineId}
    (h : State.From N s) : State.From N (s.devArrive l ofs bs after) := by
  unfold State.devArrive
  split
  · exact State.From.applyLine h
  · extract_lets _ _
    exact { h with }

theorem State.From.devWrite {N : Nat} {s : State} {pa : Nat} {bs : List Byte} {after : Option LineId}
    (h : State.From N s) : State.From N (s.devWrite pa bs after) := by
  unfold State.devWrite
  refine foldl_keep h fun _ _ h1 => ?_
  dsimp only
  split
  · exact State.From.devArrive h1
  · exact h1

theorem State.From.devPut {N : Nat} {s : State} {pa n x : Nat} (h : State.From N s) :
    State.From N (s.devPut pa n x) :=
  State.From.devWrite h

theorem State.From.raiseRecord {N : Nat} {s : State} {ctx code info full : Nat} (h : State.From N s) :
    State.From N (raiseRecord s ctx code info full) :=
  { h with }

theorem State.From.raiseImprecise {N : Nat} {s : State} {gid code info : Nat} (h : State.From N s) :
    State.From N (raiseImprecise s gid code info) := by
  unfold Machine.raiseImprecise
  extract_lets s1
  have hs1 : State.From N s1 := State.From.onGroup h
  clear_value s1
  split
  · exact State.From.devPut hs1
  · exact hs1

theorem State.From.imprecise {N : Nat} {s : State} {w : Who} {code info full : Nat} (h : State.From N s) :
    State.From N (s.imprecise w code info full) := by
  unfold State.imprecise
  split
  · split
    · exact State.From.raiseImprecise h
    · exact State.From.raiseRecord h
  · exact State.From.raiseRecord h

theorem State.From.log_write {N kind : Nat} {at_ : LogAt} {ctx : Nat} {s : State} {rb : Nat} {b : RelBlock}
    {put used sector : Nat} (h : State.From N s) :
    State.From N (State.log.write kind at_ ctx s rb b put used sector) := by
  unfold State.log.write
  split
  · exact State.From.devPut h
  · extract_lets _ s1 s2 s3 _
    have hs1 : State.From N s1 := by
      unfold s1
      split
      · exact State.From.send h
      · exact h
    clear_value s1
    have hs2 : State.From N s2 := State.From.devWrite hs1
    clear_value s2
    have hs3 : State.From N s3 := State.From.devWrite hs2
    clear_value s3
    exact { hs3 with }

theorem State.From.log {N : Nat} {s : State} {kind : Nat} {at_ : LogAt} {ctx : Nat} (h : State.From N s) :
    State.From N (s.log kind at_ ctx) := by
  unfold State.log
  extract_lets _ _ s1 _ _ _ _
  have hs1 : State.From N s1 := State.From.devMend h
  clear_value s1
  split
  · exact h
  · split
    · split
      · extract_lets _ s2
        have hs2 : State.From N s2 := State.From.devMend hs1
        clear_value s2
        exact State.From.devPut hs2
      · exact State.From.log_write hs1
    · exact State.From.log_write hs1

theorem State.From.charge {N : Nat} {s : State} {w : Who} {c : Nat} (h : State.From N s) :
    State.From N (s.charge w c) := by
  unfold State.charge
  split
  · exact h
  · extract_lets _ _ s1
    have hs1 : State.From N s1 := State.From.onCtx h
    clear_value s1
    split
    · exact h
    · split
      · exact State.From.imprecise hs1
      · exact hs1

theorem State.From.machineCheck {N : Nat} {s : State} {w : Who} {info : Nat} {at_ : LogAt} (h : State.From N s) :
    State.From N (s.machineCheck w info at_) :=
  State.From.log (State.From.imprecise h)

theorem State.From.opFlit {N : Nat} {s : State} {id core : Nat} {who : Who} {p : Place} {tags : List Bool}
    (h : State.From N s) : State.From N (s.opFlit id core who p tags).2 := by
  unfold State.opFlit
  split
  · extract_lets s1
    have hs1 : State.From N s1 := State.From.onOp h
    clear_value s1
    split
    · exact hs1
    · exact State.From.machineCheck (State.From.charge hs1)
  · exact h

theorem State.Canon.execEngine {i : Instr} {coll : Bool} {c : Option EClass} {gd : Guard}
    {f : State → Group → Word → State} {s : State} (h : s.Canon)
    (hf : ∀ s g w, s.Canon → g.Canon s.nextId → (f s g w).Canon) : OutCanon (execEngine i coll c gd f s) := by
  unfold Machine.execEngine
  refine h.execWord fun _ _ _ h1 h2 => ?_
  split
  · exact h1
  · split
    · exact h1.raise
    · exact hf _ _ _ h1 h2

theorem State.Canon.issueOp {c : EClass} {k : OpKind} {spans : List Span} {s : State} {g : Group} (h : s.Canon) :
    (issueOp c k spans s g).Canon :=
  h.newOp.bumpSeq.go

theorem State.Canon.opPlace_look {s : State} {o : Op} {va : Nat} {k : AccKind} (h : s.Canon) :
    (State.opPlace.look s o va k).Canon := by
  unfold State.opPlace.look
  split
  · exact .wait h.askWalk
  · exact .wait h.askWalk
  · split
    · split
      · split
        · exact .at
        · exact .fail
      · exact .at
    · exact .fail
    · exact .wait h

theorem State.Canon.opPlace {s : State} {o : Op} {va : Nat} {k : AccKind} (h : s.Canon) :
    (s.opPlace o va k).Canon := by
  unfold State.opPlace
  split
  · exact .fail
  · split
    · split
      · exact .fail
      · exact h.opPlace_look
    · exact h.opPlace_look

theorem State.Canon.partFail {s : State} {id key status addr : Nat} (h : s.Canon) :
    (s.partFail id key status addr).Canon :=
  h.opFail.onOp fun _ h1 => { h1 with }

theorem State.Canon.opEnd {s : State} {id : Nat} (h : s.Canon) : (s.opEnd id).Canon :=
  State.Canon.opDue (h.onOp fun _ h1 => { h1 with })

theorem State.Canon.opFlit {s : State} {id core : Nat} {who : Who} {p : Place} {tags : List Bool} (h : s.Canon) :
    (s.opFlit id core who p tags).2.Canon := by
  unfold State.opFlit
  split
  · extract_lets s1
    have hs1 : s1.Canon := h.onOp fun _ h1 => { h1 with }
    clear_value s1
    split
    · exact hs1
    · exact hs1.charge.machineCheck
  · exact h

theorem OpAcc.Canon.flit {x : OpAcc} {id core : Nat} {who : Who} {p : Place} (hx : x.Canon) :
    (x.flit id core who p).Canon := by
  unfold Machine.OpAcc.flit
  split
  · dsimp only
    exact .done (((hx.of_done rfl)).opFlit)
  · exact hx

theorem State.Canon.askPeer {s : State} {o : Op} {n idx : Nat} {at_ : FabPlace} (h : s.Canon) :
    (s.askPeer o n idx at_).Canon := by
  unfold State.askPeer
  split
  · exact h
  · exact h.sendPeer

theorem State.Canon.opEnter {s : State} {o : Op} {p : Place} {va n : Nat} (h : s.Canon) :
    IfEither State.Canon State.Canon (s.opEnter o p va n) := by
  unfold State.opEnter
  split
  · exact .error h
  · split
    · split
      · exact .error h
      · exact .ok h
    · split
      · exact .error h
      · split
        · exact .error h.snoop
        · exact h.passRows
    · exact .ok h

theorem State.Canon.opRead {s : State} {o : Op} {idx va n : Nat} {ext : Option ExtVal} (h : s.Canon) :
    (s.opRead o idx va n ext).Canon := by
  unfold State.opRead
  split
  · exact .fail
  · rename_i e
    exact .wait (h.opPlace.of_wait e)
  split
  · exact .wait h
  refine OpAcc.Canon.flit ?_
  split
  · extract_lets word
    split
    · exact .done (h.onLine fun _ hx => hx)
    split
    · exact .wait h
    split
    · exact .wait h.want
    split
    · rename_i e
      exact .wait (h.passRows.of_error e)
    · rename_i e
      exact .done (h.passRows.of_ok e).demandLine
  · split
    split
    · exact .wait h
    split
    · rename_i e
      exact .wait (h.passRows.of_error e)
    · rename_i e
      exact .done (h.passRows.of_ok e).demandSector
  · split
    · rename_i e
      exact .done (h.hostValue.of_some e)
    · exact .wait h
  · split
    · extract_lets s1
      have hs1 : s1.Canon := h.onOp fun _ ho => { ho with }
      clear_value s1
      split
      · exact .fail
      · exact .done hs1
    · exact .wait h.askPeer

theorem State.Canon.opWrite {s : State} {o : Op} {idx va : Nat} {bs : List Byte} {tags : List Bool} {mark : Bool}
    (h : s.Canon) : (s.opWrite o idx va bs tags mark).Canon := by
  unfold State.opWrite
  split
  · exact .fail
  · rename_i s1 e
    have hs1 : s1.Canon := h.opPlace.of_wait e
    exact .wait hs1
  · split
    · exact .fail
    · split
      · rename_i s1 e1
        have hs1 : s1.Canon := h.opEnter.of_error e1
        exact .wait hs1
      · rename_i a e1
        have ha : a.Canon := h.opEnter.of_ok e1
        split
        rename_i s1 e2
        have hs1 : s1.Canon := ha.opFlit.snd e2
        split
        · extract_lets _ s2
          have hs2 : s2.Canon := by
            unfold s2
            split
            · exact hs1.l1Store
            · exact hs1
          clear_value s2
          exact .done (State.Canon.arrive (hs2.onOp fun _ h1 => { h1 with }))
        · exact .done hs1.portStore
        · exact .done hs1.send
        · exact .done (State.Canon.sendPeer (hs1.onOp fun _ h1 => { h1 with }))

theorem State.Canon.engineArrive {s : State} {o : Op} {gate : Option Nat} {n : Nat} (h : s.Canon) :
    (s.engineArrive o gate n).Canon := by
  unfold State.engineArrive
  split
  · split
    rename_i c _ _ e1
    have hc : c.Canon := h.cores.gateArriveAt.fst e1
    extract_lets s1 s2
    have hs1 : s1.Canon := { h with cores := hc }
    clear_value s1
    have hs2 : s2.Canon := by
      unfold s2
      split
      · exact hs1.wakeGate
      · exact hs1
    clear_value s2
    split
    · exact hs2.opFail
    · exact hs2
  · exact h

theorem State.Canon.lateFault {s : State} {ctx addr status cls reason : Nat} (h : s.Canon) :
    (s.lateFault ctx addr status cls reason).Canon := by
  unfold State.lateFault
  extract_lets _ s1 _ _ _ s2
  have hs1 : s1.Canon := h.devTouch
  clear_value s1
  have hs2 : s2.Canon := hs1.devWrite
  clear_value s2
  split
  · exact hs1.devPut
  · exact hs2.devPut

theorem State.Canon.wakeWaitc {s : State} {gid : Nat} (h : s.Canon) : (s.wakeWaitc gid).Canon := by
  unfold State.wakeWaitc
  refine h.onGroup fun _ h1 => ?_
  extract_lets _ _
  exact h1.setWait.leave

theorem Group.Canon.keepError {N : Nat} {g : Group} {moved : Bool} {e : EngErr} (hg : g.Canon N) :
    Group.Canon N (g.keepError moved e) := by
  unfold Machine.Group.keepError
  split
  · extract_lets _
    exact { hg with }
  · extract_lets _
    exact { hg with }

theorem State.Canon.lateStatus {s : State} {o : Op} (h : s.Canon) : (s.lateStatus o).Canon := by
  unfold State.lateStatus
  extract_lets _ _
  split
  · exact State.Canon.wakeWaitc (h.onGroup fun _ h1 => h1.keepError)
  · exact { h with }

theorem Group.Canon.joinRecord {N : Nat} {g : Group} (hg : g.Canon N) : Group.Canon N g.joinRecord := by
  unfold Machine.Group.joinRecord
  extract_lets _
  exact { hg with }

theorem State.Canon.retireOp {s : State} {o : Op} (h : s.Canon) : (s.retireOp o).Canon := by
  unfold State.retireOp
  extract_lets _ s1 _ _ s2 s3
  have hs1 : s1.Canon := { h with eng := { h.eng with ops := forall_mem_keep h.eng.ops } }
  clear_value s1
  have hs2 : s2.Canon := by
    unfold s2
    refine hs1.onGroup fun _ h1 => ?_
    split
    · exact h1
    · exact h1.keepError
  clear_value s2
  have hs3 : s3.Canon := by
    unfold s3
    split
    · exact hs2.onGroup fun _ h1 => h1.joinRecord
    · exact hs2
  clear_value s3
  split
  · exact hs1.lateFault.lateStatus
  · exact hs3.wakeWaitc

theorem State.Canon.nextDue {s : State} {gid : Nat} {c : EClass} (h : s.Canon) : (s.nextDue gid c).Canon := by
  unfold State.nextDue
  split
  · exact h.opDue
  · exact h

theorem State.Canon.doEngineOpComplete {id : Nat} {s : State} (h : s.Canon) : (doEngineOpComplete id s).Canon := by
  unfold Machine.doEngineOpComplete
  split
  · exact h.retireOp.nextDue
  · exact h

theorem State.Canon.execEngineOpComplete {id : Nat} {s : State} (h : s.Canon) :
    OutCanon (execEngineOpComplete id s) :=
  .next h.doEngineOpComplete

theorem State.Canon.undeny {s : State} {who : Walker} (h : s.Canon) : (s.undeny who).Canon := { h with }

theorem State.Canon.devPlace {s : State} {who : Walker} {core pasid va : Nat} {k : AccKind} {ctx0 : Bool}
    (h : s.Canon) : (s.devPlace who core pasid va k ctx0).Canon := by
  unfold State.devPlace
  split
  · exact .fail
  · split
    · split
      · exact .at
      · exact .fail
      · exact .wait h
    · split
      · exact .fail
      · exact .wait h.askWalk

theorem State.Canon.afterLook {s : State} {g : Group} {k : AccKind} {vas : List Nat} {f : State → State} (h : s.Canon)
    (hf : ∀ s, s.Canon → (f s).Canon) : (s.afterLook g k vas f).Canon := by
  unfold State.afterLook
  extract_lets _
  split
  · exact h.askWalk.onGroup fun _ h1 => h1.await
  · exact h
  · exact hf _ h.undeny

theorem State.Canon.allocTouch {s : State} {pasid : Nat} (h : s.Canon) : (s.allocTouch pasid).Canon := by
  unfold State.allocTouch
  split
  · exact h
  · exact h.devTouch.devTouch

theorem State.Canon.tdescEffect {alias_ : Bool} {o : EForm} {s : State} {g : Group} {act : Word} (h : s.Canon) :
    (tdescEffect alias_ o s g act).Canon := by
  unfold Machine.tdescEffect
  extract_lets _ _ _ _ _ s1 s2
  have hs1 : s1.Canon := by
    unfold s1
    split
    · exact h
    · exact h.allocTouch
  clear_value s1
  have hs2 : s2.Canon := hs1.onTeam fun _ h1 => { h1 with descs := swf_set h1.descs }
  clear_value s2
  split
  · exact h.raise
  · exact hs2.onGroup fun _ h1 => h1.wrS.advance

theorem State.Canon.execTdesc {o : EForm} {s : State} (h : s.Canon) : OutCanon (execTdesc o s) :=
  h.execEngine fun _ _ _ h1 _ => h1.tdescEffect

theorem State.Canon.execTdescAlias {o : EForm} {s : State} (h : s.Canon) : OutCanon (execTdescAlias o s) :=
  h.execEngine fun _ _ _ h1 _ => h1.tdescEffect

theorem State.Canon.cpyEffect {isIn : Bool} {o : EForm} {s : State} {g : Group} {act : Word} (h : s.Canon) :
    (cpyEffect isIn o s g act).Canon := by
  unfold Machine.cpyEffect
  extract_lets _ _ _ _ _
  split
  · exact h.raise
  · exact h.issueOp

theorem State.Canon.execCpyIn {o : EForm} {s : State} (h : s.Canon) : OutCanon (execCpyIn o s) :=
  h.execEngine fun _ _ _ h1 _ => h1.cpyEffect

theorem State.Canon.execCpyOut {o : EForm} {s : State} (h : s.Canon) : OutCanon (execCpyOut o s) :=
  h.execEngine fun _ _ _ h1 _ => h1.cpyEffect

theorem Cores.Canon.spCopy {c : Cores} {a : Nat} {bs : List Byte} {tags : List Bool} (hc : c.Canon) :
    (spCopy c a bs tags).1.Canon := by
  unfold Machine.spCopy
  refine foldl_keep (P := fun b : Cores × Bool => b.1.Canon) hc fun _ _ h => ?_
  split
  · exact h
  · dsimp only
    exact h.spPut

theorem State.Canon.cpyRead {o : Op} {d : Desc} {coord : List Int} {fuel e m : Nat} {ext : List ExtVal} {s : State}
    (h : s.Canon) :
    IfEither (Sum.elim State.Canon fun _ => True) (fun a => a.2.2.Canon) (cpyRead o d coord fuel e m ext s) := by
  induction fuel generalizing e m ext s with
  | zero =>
    unfold Machine.cpyRead
    exact .ok h
  | succ _ ih =>
    unfold Machine.cpyRead
    split
    · exact .ok h
    · extract_lets _
      split
      extract_lets one
      have hone : one.Canon := by
        unfold one
        split
        · exact h.opRead
        · exact .done h
      clear_value one
      split
      · exact .error trivial
      · exact .error (hone.of_wait rfl)
      · split
        · rename_i s2 e2
          have hs2 : s2.Canon := (ih (hone.of_done rfl)).of_ok e2
          exact .ok hs2
        · rename_i x2 e2
          have hx2 : Sum.elim State.Canon (fun _ => True) x2 := (ih (hone.of_done rfl)).of_error e2
          exact .error hx2

theorem State.Canon.cpyTake {o : Op} {d : Desc} {coord : List Int} {e m : Nat} {ext : List ExtVal} {s : State}
    (h : s.Canon) :
    IfEither (Sum.elim State.Canon fun _ => True) (fun a => a.2.2.2.Canon) (cpyTake o d coord e m ext s) := by
  unfold Machine.cpyTake
  extract_lets _ _
  exact IfEither.map h.cpyRead fun _ h2 => h2

theorem State.Canon.cpyInElem {s : State} {o : Op} {t : Team} {d : Desc} {so : Nat} {coord : List Int} {e e1 : Nat}
    {ext : List ExtVal} (h : s.Canon) : (cpyInElem s o t d so coord e e1 ext).Canon := by
  unfold Machine.cpyInElem
  extract_lets _ m _ put
  have hput : ∀ (m : Nat) (bs rest : List (Byte × Bool)) (ext : List ExtVal) (s : State), s.Canon →
    (put m bs rest ext s).Canon := by
    intro _ _ _ _ _ h1
    unfold put
    dsimp only
    refine .ok ?_
    split
    · exact State.Canon.opFail (State.Canon.onOp { h1 with cores := h1.cores.spCopy } fun _ h2 => { h2 with })
    · exact State.Canon.onOp { h1 with cores := h1.cores.spCopy } fun _ h2 => { h2 with }
  clear_value put
  split
  · rename_i s1 e2
    have hs1 : s1.Canon := h.cpyTake.of_ok e2
    exact hput _ _ _ _ _ hs1
  · rename_i s1 e2
    have hs1 : s1.Canon := h.cpyTake.of_error e2
    exact .wait (State.Canon.onOp { hs1 with grids := h.grids } fun _ h1 => { h1 with })
  · split
    · rename_i s1 e3
      have hs1 : s1.Canon := h.cpyTake.of_ok e3
      exact hput _ _ _ _ _ hs1
    · rename_i s1 e3
      have hs1 : s1.Canon := h.cpyTake.of_error e3
      exact .wait hs1
    · exact .fail

theorem State.Canon.cpyOutElem {s : State} {o : Op} {t : Team} {d : Desc} {so : Nat} {coord : List Int} {e : Nat}
    (h : s.Canon) : (cpyOutElem s o t d so coord e).Canon := by
  unfold Machine.cpyOutElem
  split
  · exact .wait h
  · split
    · exact .fail
    · extract_lets _
      split
      split
      extract_lets keep
      have hkeep : ∀ (s : State), s.Canon → (keep s).Canon := fun _ h1 => h1.onOp fun _ h2 => { h2 with }
      clear_value keep
      split
      · split
        · rename_i s1 e5
          have hs1 : s1.Canon := h.opWrite.of_done e5
          exact .ok (hkeep _ hs1)
        · exact .fail
        · rename_i s1 e5
          have hs1 : s1.Canon := h.opWrite.of_wait e5
          exact .wait hs1
      · exact .ok (hkeep _ h)

theorem State.Canon.stepOp {s : State} {id n : Nat} (h : s.Canon) : (s.stepOp id n).Canon :=
  h.onOp fun _ h1 => { h1 with }

theorem State.Canon.runParts {f : State → Nat → List ExtVal → Part} {id e1 fuel e : Nat} {ext : List ExtVal}
    {s : State} (h : s.Canon) (hf : ∀ s n l, s.Canon → (f s n l).Canon) :
    (runParts f id e1 fuel e ext s).1.Canon := by
  induction fuel generalizing e ext s with
  | zero =>
    unfold Machine.runParts
    exact h
  | succ _ ih =>
    unfold Machine.runParts
    split
    · exact h
    · split
      · rename_i s1 _ _ e2
        have hs1 : s1.Canon := (hf _ _ _ h).of_ok e2
        exact ih hs1.stepOp
      · exact h.partFail.opEnd
      · rename_i s1 e2
        have hs1 : s1.Canon := (hf _ _ _ h).of_wait e2
        exact hs1

theorem State.Canon.cpyGranule {s : State} {o : Op} {t : Team} {isIn : Bool} {d : Desc} {so : Nat} {coord : List Int}
    {gate : Option Nat} {ext : List ExtVal} (h : s.Canon) : (cpyGranule s o t isIn d so coord gate ext).Canon := by
  unfold Machine.cpyGranule
  extract_lets _ arrive _ f
  have hf : ∀ (s : State) (e : Nat) (x : List ExtVal), s.Canon → (f s e x).Canon := by
    intro _ _ _ h1
    unfold f
    split
    · exact h1.cpyInElem
    · exact h1.cpyOutElem
  clear_value f
  split
  · split
    · exact h
    · split
      · exact h.opEnd
      · unfold arrive
        extract_lets s1
        have hs1 : s1.Canon := State.Canon.engineArrive (h.onOp fun _ h1 => { h1 with })
        clear_value s1
        split
        · exact hs1.opEnd
        · exact hs1
  · split
    · rename_i s1 e
      have hs1 : s1.Canon := (h.runParts hf).fst e
      split
      · unfold arrive
        extract_lets s2
        have hs2 : s2.Canon := hs1.engineArrive
        clear_value s2
        split
        · exact hs2.opEnd
        · exact hs2
      · exact hs1.onOp fun _ h1 => { h1 with }
    · rename_i s1 e
      have hs1 : s1.Canon := (h.runParts hf).fst e
      exact hs1

theorem State.Canon.collectGranule {s : State} {o : Op} {t : Team} {dest : Nat} {gate : Option Nat}
    {data : List (Nat × List TW)} (h : s.Canon) : (collectGranule s o t dest gate data).Canon := by
  unfold Machine.collectGranule
  split
  · exact h
  · rename_i fst _ _
    extract_lets _
    split
    rename_i c _ e1
    have hc : c.Canon := h.cores.spCopy.fst e1
    extract_lets s1 s2 s3
    have hs1 : s1.Canon := { h with cores := hc }
    clear_value s1
    have hs2 : s2.Canon := by
      unfold s2
      split
      · exact hs1.opFail
      · exact hs1
    clear_value s2
    have hs3 : s3.Canon := hs2.stepOp.engineArrive
    clear_value s3
    split
    · exact hs3.opEnd
    · exact hs3

theorem State.Canon.doCopyGranuleWritten {id : Nat} {ext : List ExtVal} {s : State} (h : s.Canon) :
    (doCopyGranuleWritten id ext s).Canon := by
  unfold Machine.doCopyGranuleWritten
  split
  · exact h
  · split
    · exact h
    · split
      · exact h
      · split
        · exact h.cpyGranule
        · exact h.collectGranule
        · exact h

theorem State.Canon.execCopyGranuleWritten {id : Nat} {ext : List ExtVal} {s : State} (h : s.Canon) :
    OutCanon (execCopyGranuleWritten id ext s) :=
  .next h.doCopyGranuleWritten

theorem State.Canon.mrsEffect {o : EForm} {s : State} {g : Group} {act : Word} (h : s.Canon) :
    (mrsEffect o s g act).Canon := by
  unfold Machine.mrsEffect
  extract_lets _ _ _ _ _
  split
  · exact h.raise
  · exact h.issueOp

theorem State.Canon.execMrs {o : EForm} {s : State} (h : s.Canon) : OutCanon (execMrs o s) :=
  h.execEngine fun _ _ _ h1 _ => h1.mrsEffect

theorem State.Canon.marshalSource {s : State} {o : Op} {va : Nat} (h : s.Canon) : (s.marshalSource o va).Canon := by
  unfold State.marshalSource
  split
  · exact .fail
  · exact .fail
  · exact .fail
  · exact h.opPlace

theorem State.Canon.marshalRead {o : Op} {d : Desc} {x0 x1 : Int} {idx : Nat} {bs : List Nat} {s : State}
    (h : s.Canon) : (marshalRead o d x0 x1 idx bs s).Canon := by
  induction bs generalizing s with
  | nil =>
    unfold Machine.marshalRead
    exact .done h
  | cons _ _ ih =>
    unfold Machine.marshalRead
    split
    extract_lets one
    have hone : one.Canon := by
      unfold one
      split
      · split
        · exact h.opRead
        · exact .fail
        · rename_i s1 e2
          have hs1 : s1.Canon := h.marshalSource.of_wait e2
          exact .wait hs1
      · exact .done h
    clear_value one
    split
    · split
      · rename_i s2 e1
        have hs2 : s2.Canon := (ih (hone.of_done rfl)).of_done e1
        exact .done hs2
      · exact ih (hone.of_done rfl)
    · exact .fail
    · exact .wait (hone.of_wait rfl)

theorem State.Canon.trainBase {s : State} {o : Op} {dest : Nat} (h : s.Canon) : (s.trainBase o dest).Canon := by
  unfold State.trainBase
  split
  · rename_i s1 e
    have hs1 : s1.Canon := h.opPlace.of_wait e
    exact .wait hs1
  · exact .fail
  · exact .fail
  · extract_lets _ at_
    split
    · unfold at_
      split
      · exact .ok
      · exact .fail
    · unfold at_
      split
      · exact .ok
      · exact .fail
    · exact .fail

theorem State.Canon.marshalPlace {s : State} {o : Op} {dest st e d0 sec jj k : Nat} (h : s.Canon) :
    (marshalPlace s o dest st e d0 sec jj k).Canon := by
  unfold Machine.marshalPlace
  extract_lets _ _ same
  split
  · rename_i s1 e1
    have hs1 : s1.Canon := h.opPlace.of_wait e1
    exact .wait hs1
  · exact .fail
  · unfold same
    split
    · exact .ok h
    · exact .fail
  · unfold same
    split
    · exact .ok h
    · exact .fail
  · exact .fail

theorem State.Canon.marshalScan {o : Op} {dest st e d0 sec jj : Nat} {ks : List Nat} {s : State} (h : s.Canon) :
    (marshalScan o dest st e d0 sec jj ks s).Canon := by
  induction ks generalizing s with
  | nil =>
    unfold Machine.marshalScan
    exact h.onOp fun _ h1 => { h1 with }
  | cons _ _ ih =>
    unfold Machine.marshalScan
    split
    · rename_i s1 _ _ e1
      have hs1 : s1.Canon := h.marshalPlace.of_ok e1
      exact ih hs1.stepOp
    · rename_i s1 e1
      have hs1 : s1.Canon := h.marshalPlace.of_wait e1
      exact hs1
    · split
      · exact h.partFail.opEnd
      · exact h.onOp fun _ h1 => { h1 with }

theorem State.Canon.marshalChunk {s : State} {o : Op} {d : Desc} {sc : Option Desc} {c0 c1 : Int}
    {dest d0 sec jj k : Nat} (h : s.Canon) : (marshalChunk s o d sc c0 c1 dest d0 sec jj k).Canon := by
  unfold Machine.marshalChunk
  split
  extract_lets _ _ _ _ _
  split
  · rename_i s1 e1
    have hs1 : s1.Canon := h.marshalRead.of_wait e1
    exact .wait hs1
  · exact .fail
  · rename_i s1 e1
    have hs1 : s1.Canon := h.marshalRead.of_done e1
    extract_lets _ _
    split
    · rename_i s2 e2
      have hs2 : s2.Canon := hs1.opWrite.of_done e2
      exact .ok (hs2.onOp fun _ h2 => { h2 with })
    · exact .fail
    · rename_i s2 e2
      have hs2 : s2.Canon := hs1.opWrite.of_wait e2
      exact .wait hs2

theorem State.Canon.doMarshalSectorWrite_go {s : State} {o : Op} {d : Desc} {sc : Option Desc} {c0 c1 : Int}
    {dest d0 sec jj n : Nat} (h : s.Canon) : (doMarshalSectorWrite.go s o d sc c0 c1 dest d0 sec jj n).Canon := by
  unfold Machine.doMarshalSectorWrite.go
  extract_lets _ _ _ _
  split
  · rename_i s1 e
    have hs1 : s1.Canon := (h.runParts fun _ _ _ h1 => h1.marshalChunk).fst e
    split
    · exact hs1.opEnd
    · exact hs1
  · rename_i s1 e
    have hs1 : s1.Canon := (h.runParts fun _ _ _ h1 => h1.marshalChunk).fst e
    exact hs1

theorem State.Canon.doMarshalSectorWrite {id : Nat} {s : State} (h : s.Canon) :
    (doMarshalSectorWrite id s).Canon := by
  unfold Machine.doMarshalSectorWrite
  split
  · exact h
  · split
    · exact h
    · split
      · extract_lets _ _
        split
        · rename_i s1 e2
          have hs1 : s1.Canon := h.trainBase.of_wait e2
          exact hs1
        · exact h.partFail.opEnd
        · split
          · exact h.marshalScan
          · split
            · split
              · exact State.Canon.opEnd (h.partFail.onOp fun _ h1 => { h1 with })
              · exact h.doMarshalSectorWrite_go
            · exact h.doMarshalSectorWrite_go
      · exact h

theorem State.Canon.execMarshalSectorWrite {id : Nat} {s : State} (h : s.Canon) :
    OutCanon (execMarshalSectorWrite id s) :=
  .next h.doMarshalSectorWrite

theorem State.Canon.rstEffect {o : EForm} {s : State} {g : Group} {act : Word} (h : s.Canon) :
    (rstEffect o s g act).Canon := by
  unfold Machine.rstEffect
  extract_lets _ _ _ _ _
  split
  · exact h.raise
  · refine h.afterLook fun _ h1 => ?_
    extract_lets _
    split
    · exact h1.raise
    · split
      · exact h1
      · dsimp only
        exact h1.issueOp

theorem State.Canon.execRst {o : EForm} {s : State} (h : s.Canon) : OutCanon (execRst o s) :=
  h.execEngine fun _ _ _ h1 _ => h1.rstEffect

theorem State.Canon.rstPhase {s : State} {id n : Nat} (h : s.Canon) : (s.rstPhase id n).Canon :=
  h.onOp fun _ h1 => { h1 with }

theorem State.Canon.rstLook {o : Op} {as : List Nat} {s : State} (h : s.Canon) : (rstLook o as s).Canon := by
  induction as generalizing s with
  | nil =>
    unfold Machine.rstLook
    exact .done h
  | cons _ _ ih =>
    unfold Machine.rstLook
    split
    · exact ih h
    · exact .fail
    · rename_i s1 e
      have hs1 : s1.Canon := h.opPlace.of_wait e
      exact .wait hs1

theorem State.Canon.opRed {s : State} {o : Op} {p : Place} {va res : Nat} {op : AtomOp} {ac x : Nat} {tag : Bool}
    (h : s.Canon) : (s.opRed o p va res op ac x tag).Canon := by
  unfold State.opRed
  split
  rename_i s1 e
  have hs1 : s1.Canon := h.fresh.snd e
  have hk := fresh_lt e
  split
  rename_i s2 e2
  have hs2 : s2.Canon := hs1.opFlit.snd e2
  have hn := lt_of_lt_of_le hk (State.From.snd (State.From.opFlit ⟨le_rfl⟩) e2).le
  extract_lets r _ s3
  have hs3 : s3.Canon := { hs2 with eng := { hs2.eng with reqs := forall_mem_snoc hs2.eng.reqs { id := hn } } }
  clear_value s3
  split
  · exact hs3.arrive
  · exact hs3.portServe
  · exact hs3

theorem State.Canon.rstData {s : State} {o : Op} {dst : Nat} {data : List Byte} {tags : List Bool} {p : Nat}
    (h : s.Canon) : (rstData s o dst data tags p).Canon := by
  unfold Machine.rstData
  extract_lets _ _
  split
  · rename_i s1 e
    have hs1 : s1.Canon := h.opWrite.of_done e
    exact .ok (hs1.onOp fun _ h1 => { h1 with })
  · exact .fail
  · rename_i s1 e
    have hs1 : s1.Canon := h.opWrite.of_wait e
    exact .wait hs1

theorem State.Canon.doRstFlagAdd {id : Nat} {s : State} (h : s.Canon) : (doRstFlagAdd id s).Canon := by
  unfold Machine.doRstFlagAdd
  split
  · exact h
  · split
    · exact h
    · split
      · extract_lets _
        split
        · rename_i s1 e2
          have hs1 : s1.Canon := h.rstLook.of_wait e2
          exact hs1
        · exact h.partFail.opEnd
        · rename_i s1 e2
          have hs1 : s1.Canon := h.rstLook.of_done e2
          extract_lets _
          split
          · exact hs1.partFail.opEnd
          · exact hs1.rstPhase
      · split
        · split
          · rename_i s1 _ _ e2
            have hs1 : s1.Canon := h.rstData.of_ok e2
            exact hs1
          · exact h.partFail.opEnd
          · rename_i s1 e2
            have hs1 : s1.Canon := h.rstData.of_wait e2
            exact hs1
        · split
          · exact h
          · split
            · exact h.opEnd
            · split
              · rename_i s1 e2
                have hs1 : s1.Canon := h.opPlace.of_wait e2
                exact hs1
              · exact h.partFail.opEnd
              · split
                · split
                  · rename_i s1 e3
                    have hs1 : s1.Canon := h.opEnter.of_error e3
                    exact hs1
                  · rename_i a e3
                    have ha : a.Canon := h.opEnter.of_ok e3
                    extract_lets s1
                    have hs1 : s1.Canon := ha.rstPhase.onOp fun _ h1 => { h1 with }
                    clear_value s1
                    exact hs1.opRed
                · extract_lets s1
                  have hs1 : s1.Canon := h.rstPhase.onOp fun _ h1 => { h1 with }
                  clear_value s1
                  exact hs1.sendPeer
                · exact h.partFail.opEnd
      · exact h

theorem State.Canon.execRstFlagAdd {id : Nat} {s : State} (h : s.Canon) : OutCanon (execRstFlagAdd id s) :=
  .next h.doRstFlagAdd

theorem State.Canon.redxEffect {o : EForm} {s : State} {g : Group} {act : Word} (h : s.Canon) :
    (redxEffect o s g act).Canon := by
  unfold Machine.redxEffect
  extract_lets _ _ _
  split
  · exact h.raise
  · split
    · exact h
    · split
      extract_lets _
      dsimp only
      exact h.newOp.opLeft.bumpSeq.go

theorem State.Canon.execRedx {o : EForm} {s : State} (h : s.Canon) : OutCanon (execRedx o s) :=
  h.execEngine fun _ _ _ h1 _ => h1.redxEffect

theorem State.Canon.redxDone {s : State} {id idx : Nat} (h : s.Canon) : (s.redxDone id idx).Canon :=
  h.onOp fun _ h1 => { h1 with }

theorem State.Canon.doRedxCommandApply {id idx : Nat} {o : Option ExtVal} {s : State} (h : s.Canon) :
    (doRedxCommandApply id idx o s).Canon := by
  unfold Machine.doRedxCommandApply
  split
  · exact h
  · split
    · split
      · exact h
      · extract_lets _ drop
        have hdrop : ∀ (s : State) (st : Nat), s.Canon → (drop s st).Canon := fun _ _ h1 =>
          h1.partFail.redxDone.opDone
        clear_value drop
        split
        · exact h
        · split
          · exact hdrop _ _ h
          · split
            · rename_i s1 e3
              have hs1 : s1.Canon := h.opPlace.of_wait e3
              exact hs1
            · exact hdrop _ _ h
            · split
              · exact h
              · split
                · split
                  · exact hdrop _ _ h
                  · split
                    · exact hdrop _ _ h
                    · split
                      · rename_i s1 e4
                        have hs1 : s1.Canon := h.opEnter.of_error e4
                        exact hs1
                      · rename_i a2 e4
                        have ha2 : a2.Canon := h.opEnter.of_ok e4
                        exact ha2.redxDone.opRed
                · split
                  · exact hdrop _ _ h
                  · split
                    · exact hdrop _ _ h
                    · split
                      · rename_i s1 e4
                        have hs1 : s1.Canon := h.opEnter.of_error e4
                        exact hs1
                      · rename_i a1 e4
                        have ha1 : a1.Canon := h.opEnter.of_ok e4
                        exact ha1.redxDone.opRed
                · split
                  · exact hdrop _ _ h
                  · split
                    · exact hdrop _ _ h
                    · split
                      · rename_i s1 e4
                        have hs1 : s1.Canon := h.opEnter.of_error e4
                        exact hs1
                      · rename_i a1 e4
                        have ha1 : a1.Canon := h.opEnter.of_ok e4
                        exact ha1.redxDone.opRed
    · exact h

theorem State.Canon.execRedxCommandApply {id idx : Nat} {ext : Option ExtVal} {s : State} (h : s.Canon) :
    OutCanon (execRedxCommandApply id idx ext s) :=
  .next h.doRedxCommandApply

theorem State.Canon.execRange {i : Instr} {c : EClass} {k : OpKind} {o : RForm} {s : State} (h : s.Canon) :
    OutCanon (execRange i c k o s) := by
  unfold Machine.execRange
  refine h.execWord fun _ _ _ h1 _ => ?_
  split
  · exact h1
  · split
    · exact h1.raise
    · extract_lets _
      exact h1.issueOp

theorem State.Canon.execClean {o : RForm} {s : State} (h : s.Canon) : OutCanon (execClean o s) := h.execRange

theorem State.Canon.execInval {o : RForm} {s : State} (h : s.Canon) : OutCanon (execInval o s) := h.execRange

theorem State.Canon.execMswitchBank {o : RForm} {s : State} (h : s.Canon) : OutCanon (execMswitchBank o s) :=
  h.execRange

theorem State.Canon.execMswitchCtl {o : RForm} {s : State} (h : s.Canon) : OutCanon (execMswitchCtl o s) :=
  h.execRange

theorem State.Canon.doLineMaintenance {id : Nat} {line : LineId} {s : State} (h : s.Canon) :
    (doLineMaintenance id line s).Canon := by
  unfold Machine.doLineMaintenance
  split
  · exact h
  · split
    · exact h
    · split
      · split
        · exact h.opEnd
        · extract_lets _ next
          split
          · rename_i s1 e3
            have hs1 : s1.Canon := h.opPlace.of_wait e3
            exact hs1
          · extract_lets s1
            have hs1 : s1.Canon := h.partFail.onOp fun _ h1 => { h1 with }
            clear_value s1
            split
            · exact hs1.opEnd
            · exact hs1
          · split
            · split
              · exact h
              · extract_lets _
                unfold next
                extract_lets s1
                have hs1 : s1.Canon := State.Canon.stepOp (State.Canon.arrive (h.onOp fun _ h1 => { h1 with }))
                clear_value s1
                split
                · exact hs1.opEnd
                · exact hs1
            · split
              · exact h
              · unfold next
                extract_lets s1
                have hs1 : s1.Canon := State.Canon.stepOp (State.Canon.sendPeer (h.onOp fun _ h1 => { h1 with }))
                clear_value s1
                split
                · exact hs1.opEnd
                · exact hs1
            · unfold next
              extract_lets s1
              have hs1 : s1.Canon := h.stepOp
              clear_value s1
              split
              · exact hs1.opEnd
              · exact hs1
      · exact h

theorem State.Canon.execLineMaintenance {id : Nat} {line : LineId} {s : State} (h : s.Canon) :
    OutCanon (execLineMaintenance id line s) :=
  .next h.doLineMaintenance

theorem State.Canon.rangeScan {id : Nat} {k : AccKind} {n : Nat} {s : State} (h : s.Canon) :
    IfEither State.Canon State.Canon (rangeScan id k n s) := by
  induction n generalizing s with
  | zero =>
    unfold Machine.rangeScan
    exact .ok h
  | succ _ ih =>
    unfold Machine.rangeScan
    split
    · exact .error h
    · split
      · exact .ok h
      · split
        · exact .error (State.Canon.opEnd (State.Canon.partFail (h.onOp fun _ h1 => { h1 with })))
        · split
          · rename_i s1 e2
            have hs1 : s1.Canon := h.opPlace.of_wait e2
            exact .error hs1
          · exact ih (h.partFail.onOp fun _ h1 => { h1 with })
          · extract_lets _
            exact ih (State.Canon.stepOp (h.onOp fun _ h1 => { h1 with }))

theorem State.Canon.snoopRows {s : State} {rs : List RowId} (h : s.Canon) : (s.snoopRows rs).Canon := by
  unfold State.snoopRows
  refine foldl_keep h fun _ _ h1 => ?_
  extract_lets x x1
  exact { (h1.send : x.Canon) with mem := { (h1.mem : x1.Canon) with } }

theorem State.Canon.rowReturns {s : State} {r : RowId} (h : s.Canon) : (s.rowReturns r).Canon := by
  unfold State.rowReturns
  extract_lets gone s1 _
  have hs1 : s1.Canon := h.setRow
  clear_value s1
  refine { hs1 with eng := { hs1.eng with ops := forall_mem_change hs1.eng.ops fun _ h1 => ?_ } }
  unfold gone
  split
  · exact { h1 with }
  · exact h1

theorem State.Canon.doMswitchApply {id : Nat} {s : State} (h : s.Canon) : (doMswitchApply id s).Canon := by
  unfold Machine.doMswitchApply
  split
  · exact h
  · rename_i o _
    split
    · exact h
    · split
      · split
        · rename_i s1 e2
          have hp : IfEither State.Canon State.Canon (if o.launched = true then Except.ok s else Machine.rangeScan id
            AccKind.write o.pagesLeft s) := by
            split
            · exact .ok h
            · exact h.rangeScan
          have hs1 : s1.Canon := hp.of_error e2
          exact hs1
        · rename_i a e2
          have hp : IfEither State.Canon State.Canon (if o.launched = true then Except.ok s else Machine.rangeScan id
            AccKind.write o.pagesLeft s) := by
            split
            · exact .ok h
            · exact h.rangeScan
          have ha : a.Canon := hp.of_ok e2
          extract_lets s1
          have hs1 : s1.Canon := ha.onOp fun _ h1 => { h1 with }
          clear_value s1
          split
          · exact hs1
          · split
            · exact hs1
            · extract_lets s2 s3
              have hs2 : s2.Canon := by
                unfold s2
                refine foldl_keep hs1 fun _ _ h1 => ?_
                split
                · exact h1.setRow
                · split
                  · exact h1.rowReturns
                  · exact h1
              clear_value s2
              have hs3 : s3.Canon := by
                unfold s3
                split
                · exact hs2.snoopRows
                · exact hs2
              clear_value s3
              exact State.Canon.opEnd (hs3.onOp fun _ h1 => { h1 with })
      · exact h

theorem State.Canon.execMswitchApply {id : Nat} {s : State} (h : s.Canon) : OutCanon (execMswitchApply id s) :=
  .next h.doMswitchApply

theorem State.Canon.doRowsControllerOwned {row : RowId} {s : State} (h : s.Canon) :
    (doRowsControllerOwned row s).Canon := by
  unfold Machine.doRowsControllerOwned
  split
  · exact h.setRow
  · exact h

theorem State.Canon.execRowsControllerOwned {row : RowId} {s : State} (h : s.Canon) :
    OutCanon (execRowsControllerOwned row s) :=
  .next h.doRowsControllerOwned

theorem State.Canon.wblEffect {acq : Bool} {o : EForm} {s : State} {g : Group} {act : Word} (h : s.Canon) :
    (wblEffect acq o s g act).Canon := by
  unfold Machine.wblEffect
  extract_lets _ _ _ _ _
  split
  · exact h.raise
  · split
    · exact h.raise
    · exact h.issueOp

theorem State.Canon.execWbl {o : EForm} {s : State} (h : s.Canon) : OutCanon (execWbl o s) :=
  h.execEngine fun _ _ _ h1 _ => h1.wblEffect

theorem State.Canon.execWblAcq {o : EForm} {s : State} (h : s.Canon) : OutCanon (execWblAcq o s) :=
  h.execEngine fun _ _ _ h1 _ => h1.wblEffect

theorem State.Canon.walkRead {s : State} {y : WalkBy} {p : Place} {res n : Nat} (h : s.Canon) :
    (s.walkRead y p res n).Canon := by
  unfold State.walkRead
  split
  · extract_lets out
    have hout : ∀ (d : List Byte) (t : Word) (s : State), s.Canon → (out d t s).Canon := fun _ _ _ h1 => .done h1
    clear_value out
    split
    · exact hout _ _ _ (h.onLine fun _ h1 => h1)
    · split
      · exact .wait h.want
      · split
        · rename_i s1 e1
          have hs1 : s1.Canon := h.passRows.of_error e1
          exact .wait hs1
        · rename_i a e1
          have ha : a.Canon := h.passRows.of_ok e1
          dsimp only
          exact hout _ _ _ ha.demandLine
  · dsimp only
    split
    · rename_i s1 e
      have hs1 : s1.Canon := h.passRows.of_error e
      exact .wait hs1
    · rename_i a e
      have ha : a.Canon := h.passRows.of_ok e
      exact .done ha.demandSector
  · exact .wait h

theorem State.Canon.placeAsk {s : State} {p : Place} {res : Nat} {w : Who} (h : s.Canon) :
    (s.placeAsk p res w).Canon := by
  unfold State.placeAsk
  split
  · exact h.prepareLine
  · exact h.snoop
  · exact h

theorem State.Canon.lineAtom {s : State} {y : WalkBy} {l : LineId} {ofs va res : Nat} {op : AtomOp} {ac x : Nat}
    (h : s.Canon) : (s.lineAtom y l ofs va res op ac x).Canon := by
  unfold State.lineAtom
  extract_lets _ take _
  split
  · unfold take
    split
    · split
      · exact .done h.dropReq
      · exact .wait h
    · exact .wait h
  · split
    rename_i s1 e
    have hs1 : s1.Canon := h.fresh.snd e
    have hk := fresh_lt e
    extract_lets r _
    have hr : Req.Canon s1.nextId r := { id := hk }
    clear_value r
    unfold take
    split
    · split
      · exact .done (State.Canon.dropReq (State.Canon.arrive { hs1 with
            eng := { hs1.eng with reqs := forall_mem_snoc hs1.eng.reqs hr } }))
      · exact .wait (State.Canon.arrive { hs1 with eng := { hs1.eng with reqs := forall_mem_snoc hs1.eng.reqs hr } })
    · exact .wait (State.Canon.arrive { hs1 with eng := { hs1.eng with reqs := forall_mem_snoc hs1.eng.reqs hr } })

theorem State.Canon.walkAtom {s : State} {y : WalkBy} {p : Place} {va res : Nat} {op : AtomOp} {ac x : Nat}
    (h : s.Canon) : (s.walkAtom y p va res op ac x).Canon := by
  unfold State.walkAtom
  extract_lets _
  split
  · exact h.lineAtom
  · split
    · exact .wait h.placeAsk
    · split
      · rename_i s1 e
        have hs1 : s1.Canon := h.walkRead.of_done e
        extract_lets _
        exact .done hs1.portPut
      · exact h.walkRead
  · exact .wait h

theorem State.Canon.walkHere {s : State} {y : WalkBy} {w : Waybill} {p : Place} {res : Nat} (h : s.Canon) :
    (walkHere s y w p res).Canon := by
  unfold Machine.walkHere
  split
  · split
    · rename_i s1 e1
      have hs1 : s1.Canon := h.walkRead.flit.of_done e1
      split
      · exact .done hs1
      · extract_lets _
        exact .go hs1
    · rename_i s1 e1
      have hs1 : s1.Canon := h.walkRead.flit.of_wait e1
      exact .wait hs1
    · exact .done h
  · split
    · split
      · rename_i s1 e1
        have hs1 : s1.Canon := h.walkRead.flit.of_done e1
        exact .done hs1
      · rename_i s1 e1
        have hs1 : s1.Canon := h.walkRead.flit.of_wait e1
        exact .wait hs1
      · exact .done h
    · split
      · rename_i s1 e
        have hs1 : s1.Canon := h.walkAtom.of_done e
        exact .done hs1
      · rename_i s1 e
        have hs1 : s1.Canon := h.walkAtom.of_wait e
        exact .wait hs1
      · exact .done h

theorem State.Canon.walkAt {s : State} {y : WalkBy} {w : Waybill} {p : Place} {res : Nat} (h : s.Canon) :
    (walkAt s y w p res).Canon := by
  unfold Machine.walkAt
  split
  · exact .done h
  · split
    · exact .done h
    · extract_lets _
      split
      · exact .done h
      · exact .forward h
  · exact h.walkHere

theorem State.Canon.walkPermit {s : State} {y : WalkBy} {w : Waybill} {p : Place} {res : Nat} {ctx0 : Bool}
    (h : s.Canon) : (walkPermit s y w p res ctx0).Canon := by
  unfold Machine.walkPermit
  split
  · rename_i s1 e
    have hs1 : s1.Canon := h.devPlace.of_wait e
    exact .wait hs1
  · split <;> exact .done h.undeny
  · exact h.walkAt

theorem State.Canon.walkStep {s : State} {y : WalkBy} {w : Waybill} (h : s.Canon) : (walkStep s y w).Canon := by
  unfold Machine.walkStep
  extract_lets _
  split
  · exact .done h
  · split
    · rename_i s1 e
      have hs1 : s1.Canon := h.devPlace.of_wait e
      exact .wait hs1
    · exact .done h.undeny
    · split
      · exact h.walkPermit
      · exact h.walkAt

theorem State.Canon.walkBack {s : State} {o : Op} {result : Nat} {gate : Option Nat} {r : WalkResult} (h : s.Canon) :
    (s.walkBack o result gate r).Canon := by
  unfold State.walkBack
  split
  · exact h.opEnd
  · extract_lets _ c s1
    have hc : c.Canon := by
      unfold c
      refine foldl_keep h.cores fun _ _ h1 => ?_
      extract_lets _
      split
      · exact h1
      · exact h1.spPut
    clear_value c
    have hs1 : s1.Canon := State.Canon.opFail { h with cores := hc }
    clear_value s1
    exact hs1.engineArrive.opEnd

theorem State.Canon.setBill {s : State} {id : Nat} {w : Waybill} (h : s.Canon) : (s.setBill id w).Canon :=
  h.onOp fun _ h1 => { h1 with }

theorem State.Canon.ownHop {s : State} {o : Op} {w : Waybill} {result : Nat} {gate : Option Nat} (h : s.Canon) :
    (ownHop s o w result gate).Canon := by
  unfold Machine.ownHop
  split
  · exact h.walkBack
  · split
    · rename_i s1 e
      have hs1 : s1.Canon := h.walkStep.of_wait e
      exact hs1
    · rename_i s1 _ e
      have hs1 : s1.Canon := h.walkStep.of_go e
      exact hs1.setBill
    · rename_i s1 _ _ _ e
      have hs1 : s1.Canon := h.walkStep.of_forward e
      exact State.Canon.sendPeer (hs1.setBill.onOp fun _ h1 => { h1 with })
    · rename_i s1 _ e
      have hs1 : s1.Canon := h.walkStep.of_done e
      exact hs1.walkBack

theorem State.Canon.dropWalk {s : State} {id : Nat} (h : s.Canon) : (s.dropWalk id).Canon := { h with }

theorem State.Canon.onWalk {s : State} {id : Nat} {f : HeldWalk → HeldWalk} (h : s.Canon) : (s.onWalk id f).Canon :=
  { h with }

theorem State.Canon.guestHop {s : State} {h : HeldWalk} (hs : s.Canon) : (guestHop s h).Canon := by
  unfold Machine.guestHop
  split
  · exact hs
  · split
    · rename_i s1 e
      have hs1 : s1.Canon := hs.walkStep.of_wait e
      exact hs1
    · rename_i s1 _ e
      have hs1 : s1.Canon := hs.walkStep.of_go e
      exact hs1.onWalk
    · rename_i s1 _ _ _ e
      have hs1 : s1.Canon := hs.walkStep.of_forward e
      exact hs1.onWalk.sendPeer
    · rename_i s1 _ e
      have hs1 : s1.Canon := hs.walkStep.of_done e
      exact hs1.dropWalk.send

theorem State.Canon.doWaybillHop {walk : Nat} {s : State} (h : s.Canon) : (doWaybillHop walk s).Canon := by
  unfold Machine.doWaybillHop
  split
  · split
    · exact h
    · split
      · exact h.ownHop
      · exact h
  · split
    · exact h.guestHop
    · exact h

theorem State.Canon.execWaybillHop {walk : Nat} {s : State} (h : s.Canon) : OutCanon (execWaybillHop walk s) :=
  .next h.doWaybillHop

theorem State.Canon.doWaybillReturn {op : Nat} {res : WalkResult} {s : State} (h : s.Canon) :
    (doWaybillReturn op res s).Canon := by
  unfold Machine.doWaybillReturn
  split
  · split
    · exact h
    · split
      · exact h.walkBack
      · exact h
  · exact h

theorem State.Canon.execWaybillReturn {op : Nat} {res : WalkResult} {s : State} (h : s.Canon) :
    OutCanon (execWaybillReturn op res s) :=
  .next h.doWaybillReturn

theorem State.Canon.doWalkTimeout {op : Nat} {s : State} (h : s.Canon) : (doWalkTimeout op s).Canon := by
  unfold Machine.doWalkTimeout
  split
  · split
    · exact h
    · split
      · exact h.walkBack
      · exact h
  · exact h

theorem State.Canon.execWalkTimeout {op : Nat} {s : State} (h : s.Canon) : OutCanon (execWalkTimeout op s) :=
  .next h.doWalkTimeout

theorem State.Canon.imxIssue {efn : Nat} {o : EForm} {trap : State → Group → Word → Option TrapReq}
    {k : State → Group → OpKind} {s : State} {g : Group} {act : Word} (h : s.Canon) :
    (imxIssue efn o trap k s g act).Canon := by
  unfold Machine.imxIssue
  extract_lets _
  split
  · exact h.raise
  · exact h.issueOp

theorem State.Canon.execImxLoad {o : EForm} {s : State} (h : s.Canon) : OutCanon (execImxLoad o s) :=
  h.execEngine fun _ _ _ h1 _ => h1.imxIssue

theorem State.Canon.execImxVec {o : EForm} {s : State} (h : s.Canon) : OutCanon (execImxVec o s) :=
  h.execEngine fun _ _ _ h1 _ => h1.imxIssue

theorem State.Canon.execImxRun {o : EForm} {s : State} (h : s.Canon) : OutCanon (execImxRun o s) :=
  h.execEngine fun _ _ _ h1 _ => h1.imxIssue

theorem State.Canon.execImxBcast {o : EForm} {s : State} (h : s.Canon) : OutCanon (execImxBcast o s) :=
  h.execEngine fun _ _ _ h1 _ => h1.imxIssue

theorem State.Canon.execImxCollect {o : EForm} {s : State} (h : s.Canon) : OutCanon (execImxCollect o s) :=
  h.execEngine fun _ _ _ h1 _ => h1.imxIssue

theorem State.Canon.imxStatEffect {o : EForm} {s : State} {g : Group} {act : Word} (h : s.Canon) :
    (imxStatEffect o s g act).Canon := by
  unfold Machine.imxStatEffect
  split
  · exact h.raise
  · extract_lets _
    refine h.afterLook fun _ h1 => ?_
    split
    extract_lets _
    exact h1.onGroup fun _ h2 => h2.wrSs.advance

theorem State.Canon.execImxStat {o : EForm} {s : State} (h : s.Canon) : OutCanon (execImxStat o s) :=
  h.execEngine fun _ _ _ h1 _ => h1.imxStatEffect

theorem State.Canon.enqueue {s : State} {id : Nat} {keys : List Nat} (h : s.Canon) : (s.enqueue id keys).Canon := by
  unfold State.enqueue
  extract_lets _ s1
  have hs1 : s1.Canon := foldl_keep h fun _ _ h1 => { h1 with
      drays := { h1.drays with queue := swf_set h1.drays.queue } }
  clear_value s1
  refine foldl_keep hs1 fun _ _ h1 => h1.onDray fun _ h2 => ?_
  split
  · exact { h2 with }
  · exact h2

theorem State.Canon.doDrayLaunch {id : Nat} {s : State} (h : s.Canon) : (doDrayLaunch id s).Canon := by
  unfold Machine.doDrayLaunch
  split
  · exact h
  · split
    · exact h
    · split
      · rename_i s1 e1
        have hs1 : s1.Canon := h.rangeScan.of_error e1
        exact hs1
      · rename_i a e1
        have ha : a.Canon := h.rangeScan.of_ok e1
        split
        · exact ha
        · split
          · exact ha.opEnd
          · extract_lets _ _
            split
            · exact ha.opFail.opEnd
            · exact State.Canon.enqueue (ha.onOp fun _ h1 => { h1 with })

theorem State.Canon.execDrayLaunch {op : Nat} {s : State} (h : s.Canon) : OutCanon (execDrayLaunch op s) :=
  .next h.doDrayLaunch

theorem Dray.Canon.ownBy {d : Dray} {pasid : Nat} (hd : d.Canon) : (d.ownBy pasid).Canon := by
  unfold Machine.Dray.ownBy
  split
  · exact { hd with }
  · extract_lets _ _
    exact { Dray.Canon.reset with }

theorem Dray.Canon.launch {d : Dray} {id : Nat} {rows : List RowId} {sectors slot arg : Nat} {bc : Bool}
    (hd : d.Canon) : (d.launch id rows sectors slot arg bc).Canon := by
  unfold Machine.Dray.launch
  extract_lets _
  exact { hd with }

theorem State.Canon.startRun {s : State} {o : Op} {stack slot arg : Nat} {bc : Bool} (h : s.Canon) :
    (s.startRun o stack slot arg bc).Canon := by
  unfold State.startRun
  extract_lets _ s1
  have hs1 : s1.Canon := by
    unfold s1
    refine foldl_keep h fun _ _ h1 => ?_
    extract_lets _ _
    exact h1.onDray fun _ h2 => h2.launch
  clear_value s1
  dsimp only
  exact State.Canon.push (foldl_keep hs1 fun _ _ h1 => h1.drayEnd)

theorem State.Canon.idleDrays {s : State} {ks : List Nat} (h : s.Canon) : (s.idleDrays ks).Canon := by
  unfold State.idleDrays
  refine foldl_keep h fun _ _ h1 => ?_
  extract_lets _
  exact h1.onDray fun _ h2 => { h2 with }

theorem State.Canon.doDrayOperationStart {id stack : Nat} {s : State} (h : s.Canon) :
    (doDrayOperationStart id stack s).Canon := by
  unfold Machine.doDrayOperationStart
  split
  · exact h
  · split
    · exact h
    · extract_lets _ s1 s2 atOnce _ _
      have hs1 : s1.Canon := h.onOp fun _ h1 => { h1 with }
      clear_value s1
      have hs2 : s2.Canon := foldl_keep hs1 fun _ _ h1 => h1.onDray fun _ h2 => h2.ownBy
      clear_value s2
      split
      · unfold atOnce
        refine State.Canon.idleDrays (State.Canon.leaveStack (foldl_keep hs2 fun _ _ h1 => h1.onDray fun _ h2 => { h2 with
            store := swf_fold h2.store fun _ _ h3 => ?_ }))
        dsimp only
        exact swf_set h3
      · exact State.Canon.idleDrays
          (State.Canon.leaveStack (foldl_keep hs2 fun _ _ h1 => h1.onDray fun _ h2 => h2.vbPut))
      · exact hs2.startRun
      · exact State.Canon.startRun { hs2 with drays := { hs2.drays with bcast := swf_set hs2.drays.bcast } }
      · extract_lets s3
        have hs3 : s3.Canon := hs2.onOp fun _ h1 => { h1 with }
        clear_value s3
        exact hs3.leaveStack.idleDrays
      · exact hs2

theorem State.Canon.execDrayOperationStart {op stack : Nat} {s : State} (h : s.Canon) :
    OutCanon (execDrayOperationStart op stack s) :=
  .next h.doDrayOperationStart

end Sys2Proof.Machine
end

