-- ==== Sys2Proof/Proofs/CanonSupervisor.lean ====
section
/-! SUPPORT. The canonical form is kept: frames, supervisor words, traps and page walks. -/

namespace Sys2Proof.Machine

theorem State.Canon.lineBytes {s : State} {d : List Byte} {t : Word} {ofs n : Nat} (h : s.Canon) :
    (lineBytes s d t ofs n).Canon := by
  unfold Machine.lineBytes
  split
  · exact .bad h
  · exact .done

theorem State.Canon.virtStack {s : State} {l : LineId} {ofs n : Nat} (h : s.Canon) : (s.virtStack l ofs n).Canon := by
  unfold State.virtStack
  split
  · exact .wait h.awaitRows
  · dsimp only
    split
    · exact .wait h.demandLine
    · exact h.demandLine.lineBytes

theorem State.Canon.putDeviceRead {s : State} {pasid va n res : Nat} {p : Place} (h : s.Canon) :
    (s.putDeviceRead pasid va n res p).Canon := by
  unfold State.putDeviceRead
  split
  rename_i s1 e
  have hs1 : s1.Canon := h.fresh.snd e
  have hk := fresh_lt e
  extract_lets r _ s2
  have hr : Req.Canon s2.nextId r := { id := hk }
  clear_value r
  have hs2 : s2.Canon := { hs1 with eng := { hs1.eng with reqs := forall_mem_snoc hs1.eng.reqs hr } }
  clear_value s2
  split
  · exact State.Canon.sendPeer (hs2.onReq fun _ h1 => { h1 with })
  · exact hs2

theorem State.Canon.readsDone {s : State} {pasid : Nat} (h : s.Canon) : (s.readsDone pasid).Canon :=
  { h with eng := { h.eng with reqs := forall_mem_keep h.eng.reqs } }

theorem State.Canon.virtChunk {s : State} {core pasid va n : Nat} {ctx0 : Bool} (h : s.Canon) :
    (s.virtChunk core pasid va n ctx0).Canon := by
  unfold State.virtChunk
  split
  · rename_i s1 e
    have hs1 : s1.Canon := h.devPlace.of_wait e
    exact .wait hs1
  · exact .bad h.undeny
  · extract_lets away
    have haway : away.Canon := by
      unfold away
      split
      · exact .wait h.putDeviceRead
      · split
        · exact .wait h
        · split
          · exact .bad h
          · exact .done
    clear_value away
    split
    · split
      · exact h.lineBytes
      · exact h.virtStack
    · exact h.virtStack
    · exact haway
    · split
      · exact haway
      · exact .bad h

theorem State.Canon.virtChunks {s : State} {core pasid : Nat} {ctx0 : Bool} {l : List (Nat × Nat)} (h : s.Canon) :
    (s.virtChunks core pasid ctx0 l).Canon := by
  induction l with
  | nil =>
    unfold State.virtChunks
    exact .done
  | cons _ _ ih =>
    unfold State.virtChunks
    split
    · split
      · exact .done
      · exact ih
    · exact h.virtChunk

theorem State.Canon.virtRead {s : State} {core pasid va n : Nat} {ctx0 : Bool} (h : s.Canon) :
    (s.virtRead core pasid va n ctx0).Canon :=
  h.virtChunks

theorem State.Canon.withdraw {s : State} {g : Group} (h : s.Canon) : (s.withdraw g).Canon := by
  unfold State.withdraw
  extract_lets s1 _ _
  have hs1 : s1.Canon := h.onTeam fun _ h1 => { h1 with }
  clear_value s1
  exact { hs1 with eng := { hs1.eng with reqs := forall_mem_keep hs1.eng.reqs } }

theorem Group.Canon.stepInfo {N : Nat} {g : Group} (hg : g.Canon N) : Group.Canon N g.stepInfo := by
  unfold Machine.Group.stepInfo
  extract_lets _
  split
  · split
    · exact { hg with }
    · exact hg
  · exact hg

theorem State.Canon.doGroupHalt {s : State} (h : s.Canon) : (doGroupHalt s).Canon := by
  unfold Machine.doGroupHalt
  split
  · exact h
  · split
    · exact h
    · exact h.withdraw.onGroup fun _ h1 => Group.Canon.stepInfo { h1 with
          lanes := length_keep_map h1.lanes
          outrider := forall_mem_optionMap h1.outrider fun _ h2 => { h2 with } }

theorem State.Canon.execGroupHalt {s : State} (h : s.Canon) : OutCanon (execGroupHalt s) := .next h.doGroupHalt

theorem State.Canon.liveAt {s : State} {g : Group} {k : Kernel} {ofs n : Nat} (h : s.Canon) :
    (s.liveAt g k ofs n).Canon := by
  induction n with
  | zero =>
    unfold State.liveAt
    exact .all
  | succ _ ih =>
    unfold State.liveAt
    split
    · rename_i s1 e
      have hs1 : s1.Canon := h.virtRead.of_wait e
      exact .wait hs1
    · exact .all
    · split
      · exact .some_
      · exact ih

theorem State.Canon.liveLanes {s : State} {g : Group} {k : Kernel} {l : List Nat} (h : s.Canon) :
    IfEither State.Canon (fun _ => True) (s.liveLanes g k l) := by
  induction l with
  | nil =>
    unfold State.liveLanes
    exact .ok trivial
  | cons _ _ ih =>
    unfold State.liveLanes
    split
    · rename_i s1 e
      have hs1 : s1.Canon := h.liveAt.of_wait e
      exact .error hs1
    · exact IfEither.map ih fun _ _ => trivial
    · exact IfEither.map ih fun _ _ => trivial

theorem State.Canon.saveRegs {s : State} {g : Group} {a : Nat} {dead : SMap Word} (h : s.Canon) :
    (s.saveRegs g a dead).Canon := by
  unfold State.saveRegs
  extract_lets _ s1
  have hs1 : s1.Canon := by
    unfold s1
    refine foldl_keep h fun _ _ h1 => foldl_keep h1 fun _ _ h2 => ?_
    split
    · exact h2
    · exact h2.devPut
  clear_value s1
  exact hs1.devWrite

theorem State.Canon.saveTiles {s : State} {g : Group} {a : Nat} (h : s.Canon) : (s.saveTiles g a).Canon := by
  unfold State.saveTiles
  extract_lets _ s1
  have hs1 : s1.Canon := by
    unfold s1
    refine foldl_keep h fun _ _ h1 => ?_
    split
    · exact h1.devWrite
    · exact h1
  clear_value s1
  refine foldl_keep hs1 fun _ _ h1 => ?_
  split
  · exact h1.devWrite
  · exact h1

theorem State.Canon.saveGroup {s : State} {g : Group} {a : Nat} {dead : SMap Word} {rets : List RetEntry}
    (h : s.Canon) : (s.saveGroup g a dead rets).Canon := by
  unfold State.saveGroup
  extract_lets s1 s2 s3 s4
  have hs1 : s1.Canon := h.devWrite
  clear_value s1
  have hs2 : s2.Canon := hs1.devWrite
  clear_value s2
  have hs3 : s3.Canon := hs2.saveRegs.devWrite
  clear_value s3
  have hs4 : s4.Canon := hs3.saveTiles
  clear_value s4
  exact hs4.devWrite

theorem State.Canon.takePages {s : State} {ctx bytes : Nat} (h : s.Canon) :
    IfSome (fun a => a.2.Canon) (s.takePages ctx bytes) := by
  unfold State.takePages
  refine IfSome.map fun _ => ?_
  dsimp only
  exact h.onCtx

theorem State.Canon.freePages {s : State} {ctx a : Nat} (h : s.Canon) : (s.freePages ctx a).Canon := h.onCtx

theorem State.Canon.noRoom {s : State} {g : Group} (h : s.Canon) : (s.noRoom g).Canon := by
  unfold State.noRoom
  split
  · exact h
  · exact h.raiseRecord.onGroup fun _ h1 => { h1 with }

theorem State.Canon.framed {s : State} {g : Group} {a : Nat} {c : HaltCause} {dead : SMap Word} {rets : List RetEntry}
    (h : s.Canon) : (s.framed g a c dead rets).Canon := by
  unfold State.framed
  extract_lets _ _ s1 ops _ s2 s3
  have hs1 : s1.Canon := h.saveGroup
  clear_value s1
  have hs2 : s2.Canon := by
    unfold s2
    refine { hs1 with eng := { hs1.eng with ops := ?_ } }
    unfold ops
    refine forall_mem_change hs1.eng.ops fun _ h1 => ?_
    split
    · exact { h1 with }
    · exact h1
  clear_value s2
  have hs3 : s3.Canon := hs2.onGroup fun _ h1 => { h1 with }
  clear_value s3
  split
  · exact { hs3 with groups := forall_mem_change hs3.groups fun _ h1 => h1.leave }
  · exact hs3

theorem State.Canon.frameGroup {s : State} {g : Group} (h : s.Canon) : (s.frameGroup g).Canon := by
  unfold State.frameGroup
  split
  · split
    · rename_i s1 e2
      have hs1 : s1.Canon := h.liveLanes.of_error e2
      exact hs1
    · extract_lets _ _
      split
      · exact h.framed.readsDone
      · split
        · rename_i s1 e4
          have hs1 : s1.Canon := h.takePages.of_some e4
          exact hs1.framed.readsDone
        · exact h.noRoom
  · exact h

theorem State.Canon.doGroupFrameWrite {s : State} (h : s.Canon) : (doGroupFrameWrite s).Canon := by
  unfold Machine.doGroupFrameWrite
  split
  · exact h.frameGroup
  · exact h

theorem State.Canon.execGroupFrameWrite {s : State} (h : s.Canon) : OutCanon (execGroupFrameWrite s) :=
  .next h.doGroupFrameWrite

theorem Group.Canon.loadRegs {N : Nat} {s : State} {g : Group} {a : Nat} (hg : g.Canon N) :
    Group.Canon N (s.loadRegs g a) := by
  unfold State.loadRegs
  extract_lets _ g1 _ g2
  have hg1 : Group.Canon N g1 := by
    unfold g1
    refine foldl_keep hg fun _ _ h1 => ?_
    extract_lets _
    exact foldl_keep h1 fun _ _ h2 => h2.wrV
  clear_value g1
  have hg2 : Group.Canon N g2 := foldl_keep hg1 fun _ _ h1 => h1.wrS
  clear_value g2
  exact foldl_keep hg2 fun _ _ h1 => h1.wrP

theorem Group.Canon.loadTiles {N : Nat} {s : State} {g : Group} {a : Nat} (hg : g.Canon N) :
    Group.Canon N (s.loadTiles g a) := by
  unfold State.loadTiles
  extract_lets _ bytes fill g1
  have hg1 : Group.Canon N g1 := by
    unfold g1
    refine foldl_keep hg fun _ _ h1 => ?_
    extract_lets _
    refine h1.wrT ?_
    split
    · refine { bytes := ?_, scales := ?_ }
      · unfold fill
        refine swf_fold swf_empty fun _ _ h2 => ?_
        dsimp only
        exact swf_set h2
      · unfold fill
        refine swf_fold swf_empty fun _ _ h2 => ?_
        dsimp only
        exact swf_set h2
    · exact Tile.Canon.emptyTile
  clear_value g1
  refine foldl_keep hg1 fun _ _ h1 => ?_
  extract_lets _ _
  exact foldl_keep h1 fun _ _ h2 => h2.wrA

theorem Group.Canon.loadGroup {N : Nat} {s : State} {g : Group} {a : Nat} (hg : g.Canon N) :
    (s.loadGroup g a).Canon N := by
  unfold State.loadGroup
  extract_lets word g1 es g2 g3
  have hg1 : g1.Canon N := hg.loadRegs.loadTiles
  clear_value g1
  have hg2 : g2.Canon N := by
    refine { hg1 with lanes := length_keep_map List.length_range, maskRows := ?_ }
    dsimp only [g2]
    exact swf_fold swf_empty fun _ _ h1 => swf_set h1
  clear_value g2
  have hg3 : g3.Canon N :=
    { hg2 with outrider := forall_mem_optionMap hg2.outrider fun _ _ => { v := hg2.v, s := hg2.s, p := hg2.p } }
  clear_value g3
  split
  · exact hg3.joinRecord
  · exact hg3

theorem State.Canon.tryResume {s : State} {gid : Nat} (h : s.Canon) : (s.tryResume gid).Canon := by
  unfold State.tryResume
  split
  · exact h
  · split
    · split
      · split
        · rename_i s1 e5
          have hs1 : s1.Canon := h.devFetch.of_error e5
          exact hs1
        · rename_i u e5
          have hu : u.Canon := h.devFetch.of_ok e5
          exact hu.freePages.onGroup fun _ h1 => h1.loadGroup.resumeRun
      · exact h
    · exact h

theorem State.Canon.release_ {s : State} {gid : Nat} (h : s.Canon) : (s.release_ gid).Canon := by
  unfold State.release_
  refine State.Canon.tryResume (h.onGroup fun _ h1 => ?_)
  split
  · exact { h1 with }
  · exact h1

theorem State.Canon.saveTeam {s : State} {t : Team} {a : Nat} (h : s.Canon) : (s.saveTeam t a).Canon := by
  unfold State.saveTeam
  extract_lets _ s1 s2 s3 s4
  have hs1 : s1.Canon := h.devWrite
  clear_value s1
  have hs2 : s2.Canon := hs1.devWrite
  clear_value s2
  have hs3 : s3.Canon := hs2.devWrite
  clear_value s3
  have hs4 : s4.Canon := hs3.devWrite
  clear_value s4
  exact hs4.devWrite

theorem State.Canon.preemptDone {s : State} {core : Nat} (h : s.Canon) : (s.preemptDone core).Canon := by
  unfold State.preemptDone
  split
  · exact h
  · extract_lets _ _ _
    exact { h with grids := h.grids }

theorem State.Canon.frameTeam {s : State} {t : Team} (h : s.Canon) : (s.frameTeam t).Canon := by
  unfold State.frameTeam
  split
  · exact h
  · split
    · exact h
    · split
      · split
        · exact h
        · exact h.raiseRecord.onTeam fun _ h1 => { h1 with }
      · rename_i s1 e1
        have hs1 : s1.Canon := h.takePages.of_some e1
        extract_lets _ _ s2
        have hs2 : s2.Canon := hs1.saveTeam.onTeam fun _ h1 => { h1 with }
        clear_value s2
        exact hs2.preemptDone

theorem State.Canon.doTeamFrameWrite {s : State} (h : s.Canon) : (doTeamFrameWrite s).Canon := by
  unfold Machine.doTeamFrameWrite
  split
  · exact h.frameTeam
  · exact h

theorem State.Canon.execTeamFrameWrite {s : State} (h : s.Canon) : OutCanon (execTeamFrameWrite s) :=
  .next h.doTeamFrameWrite

theorem State.Canon.doFrameRetry {ctx : Nat} {s : State} (h : s.Canon) : (doFrameRetry ctx s).Canon := by
  unfold Machine.doFrameRetry
  extract_lets s1
  have hs1 : s1.Canon := foldl_keep h fun _ _ h1 => h1.frameGroup
  clear_value s1
  exact foldl_keep hs1 fun _ _ h1 => h1.frameTeam

theorem State.Canon.execFrameRetry {ctx : Nat} {s : State} (h : s.Canon) : OutCanon (execFrameRetry ctx s) :=
  .next h.doFrameRetry

theorem State.Canon.loadTeam {s : State} {t : Team} {a : Nat} (h : s.Canon) : (s.loadTeam t a).Canon := by
  unfold State.loadTeam
  extract_lets base bytes tags words c c1 descs s1 s2
  have hc : c1.Canon :=
    { h.cores with
      spad := swf_fold h.cores.spad fun _ _ h1 => swf_set h1
      gate := swf_fold h.cores.gate fun _ _ h1 => swf_set h1
      poison := swf_fold h.cores.poison fun _ _ h1 => swf_set h1
      reload := swf_fold h.cores.reload fun _ _ h1 => swf_set h1 }
  clear_value c1
  have hd : swf Desc.invalid descs = true := by
    refine swf_fold swf_empty fun _ _ h1 => ?_
    exact swf_set h1
  clear_value descs
  have hs2 : s2.Canon := State.Canon.onTeam { h with cores := hc } fun _ h1 => { h1 with descs := hd }
  clear_value s2
  exact foldl_keep hs2 fun _ _ h1 => h1.onGroup fun _ h2 => { h2 with }

theorem State.Canon.endGroup {s : State} {gid : Nat} (h : s.Canon) : (s.endGroup gid).Canon := by
  unfold State.endGroup
  split
  · exact h
  · extract_lets s1 s2 s3
    have hs1 : s1.Canon := by
      unfold s1
      refine foldl_keep h.withdraw fun _ _ h1 => ?_
      split
      · exact h1.withdrawLane
      · exact h1
    clear_value s1
    have hs2 : s2.Canon := by
      unfold s2
      split
      · exact hs1.freePages
      · exact hs1
    clear_value s2
    have hs3 : s3.Canon := hs2.onGroup fun _ h1 => { h1 with
        lanes := length_keep_map h1.lanes
        a := swf_empty
        t := swf_empty
        tiles := List.forall_mem_nil _ }
    clear_value s3
    exact hs3.checkBarrier

theorem State.Canon.dropRecords {s : State} {mine : Nat → Bool} (h : s.Canon) : (s.dropRecords mine).Canon :=
  { h with eng := { h.eng with reqs := forall_mem_keep h.eng.reqs } }

theorem State.Canon.killRoot {s : State} {root code : Nat} (h : s.Canon) : (s.killRoot root code).Canon := by
  unfold State.killRoot
  extract_lets _ s1 _ s2 s3
  have hs1 : s1.Canon := by
    unfold s1
    refine foldl_keep h fun _ _ h1 => h1.onGrid fun _ h2 => ?_
    split
    · exact h2
    · exact { h2 with }
  clear_value s1
  have hs2 : s2.Canon := hs1.dropRecords
  clear_value s2
  have hs3 : s3.Canon := foldl_keep hs2 fun _ _ h1 => h1.endGroup
  clear_value s3
  refine foldl_keep hs3 fun _ _ h1 => ?_
  split
  · exact h1.freePages.onTeam fun _ h2 => { h2 with }
  · exact h1

theorem State.Canon.execChecked {i : Instr} {gd : Guard} {chk : Group → Word → Option TrapReq}
    {f : State → Group → Word → State} {s : State} (h : s.Canon)
    (hf : ∀ s g w, s.Canon → g.Canon s.nextId → (f s g w).Canon) : OutCanon (execChecked i gd chk f s) := by
  unfold Machine.execChecked
  refine h.onPath fun _ h1 => ?_
  extract_lets _
  split
  · exact h.raise
  · split
    · exact h.go
    · exact hf _ _ _ h h1

theorem State.Canon.sgetEffect {o : RForm} {s : State} {g : Group} {act : Word} (h : s.Canon) :
    (sgetEffect o s g act).Canon := by
  unfold Machine.sgetEffect
  extract_lets _ _
  refine h.onGroup fun _ h1 => Group.Canon.advance ?_
  split
  · exact h1.wrSs
  · exact eachLane_keeps _ h1 fun _ _ _ _ h4 => h4.wrVs

theorem State.Canon.execSget {o : RForm} {s : State} (h : s.Canon) : OutCanon (execSget o s) :=
  h.execChecked fun _ _ _ h1 _ => h1.sgetEffect

theorem State.Canon.putState {s : State} {g : Group} {n : Nat} {x : Word} (h : s.Canon) :
    (putState s g n x).Canon := by
  unfold Machine.putState
  extract_lets _ _ _ _
  split
  · exact h.onGroup fun _ h1 => { h1 with }
  · split
    · refine h.onGroup fun _ h1 => ?_
      extract_lets _
      exact { h1.mapLanes with }
    · split
      · exact h.onSide fun _ h1 => { h1 with evsel := swf_set h1.evsel }
      · split
        · exact { h with }
        · split
          · exact { h with }
          · split
            · exact { h with mem := { h.mem with } }
            · split
              · exact { h with mem := { h.mem with } }
              · exact h

theorem State.Canon.sputEffect {o : RForm} {s : State} {g : Group} {act : Word} (h : s.Canon) :
    (sputEffect o s g act).Canon := by
  unfold Machine.sputEffect
  extract_lets _
  split
  · exact h.raise
  · exact h.putState.go

theorem State.Canon.execSput {o : RForm} {s : State} (h : s.Canon) : OutCanon (execSput o s) :=
  h.execChecked fun _ _ _ h1 _ => h1.sputEffect

/-- A kernel record is taken up only with a scratchpad size that is a multiple of 768 bytes (R168). -/
theorem Kernel.Canon.ofBytes {addr : Nat} {b : List Byte} : IfSome Kernel.Canon (Kernel.ofBytes addr b) := by
  unfold Kernel.ofBytes
  extract_lets f
  split
  · exact .none
  · rename_i hc
    refine .some ⟨?_⟩
    simp only [Bool.or_eq_true, decide_eq_true_eq, not_or, not_not] at hc
    simp [hc]

theorem State.Canon.readKernel {s : State} {core pasid addr : Nat} {ctx0 : Bool} (h : s.Canon) :
    (s.readKernel core pasid addr ctx0).Canon := by
  unfold State.readKernel
  split
  · rename_i s1 e
    have hs1 : s1.Canon := h.virtRead.of_wait e
    exact .wait hs1
  · rename_i s1 e
    have hs1 : s1.Canon := h.virtRead.of_bad e
    exact .bad hs1
  · split
    · rename_i k e1
      have hk : k.Canon := Kernel.Canon.ofBytes.of_some e1
      exact .ok hk
    · exact .bad h

theorem State.Canon.writeRecord {s : State} {t : TrapInfo} {g : Option Group} {ctx : Nat} (h : s.Canon) :
    IfSome (fun a => a.2.Canon) (s.writeRecord t g ctx) := by
  unfold State.writeRecord
  refine IfSome.map fun _ => ?_
  extract_lets _ _ _ s1 _ _
  have hs1 : s1.Canon := h.devWrite
  clear_value s1
  exact { hs1 with }

theorem State.Canon.onRec {s : State} {a : Nat} {f : TrapRec → TrapRec} (h : s.Canon) : (s.onRec a f).Canon :=
  { h with }

theorem State.Canon.setDisp {s : State} {a d : Nat} (h : s.Canon) : (s.setDisp a d).Canon := by
  unfold State.setDisp
  extract_lets s1 _
  have hs1 : s1.Canon := h.devPut
  clear_value s1
  split
  · exact hs1.onRec
  · exact { hs1 with }

theorem State.Canon.editLanes {s : State} {a : Nat} {f : Lane → Lane} (h : s.Canon) : (s.editLanes a f).Canon := by
  unfold State.editLanes
  refine foldl_keep h fun _ _ h1 => ?_
  extract_lets _
  split
  · exact h1
  · exact h1.devWrite

theorem State.Canon.killRec {s : State} {r : TrapRec} (h : s.Canon) : (s.killRec r).Canon := by
  unfold State.killRec
  split
  · exact h.killRoot
  · split
    · exact h
    · exact foldl_keep h fun _ _ h1 => h1.killRoot

theorem Group.Canon.countRestart {N : Nat} {g : Group} {entries : List (BitVec 64)} (hg : g.Canon N) :
    Group.Canon N (g.countRestart entries) :=
  { hg with }

theorem State.Canon.restart {s : State} {r : TrapRec} {g : Group} {a : Nat} (h : s.Canon) :
    (s.restart r g a).Canon := by
  unfold State.restart
  extract_lets _ _ s1
  have hs1 : s1.Canon := h.editLanes
  clear_value s1
  split
  · exact h.killRec
  · exact State.Canon.release_ (hs1.onGroup fun _ h1 => h1.countRestart)

theorem State.Canon.park {s : State} {r : TrapRec} {g : Group} (h : s.Canon) : (s.park r g).Canon := by
  unfold State.park
  extract_lets _ s1 _ _
  have hs1 : s1.Canon := h.onGroup fun _ h1 => { h1 with }
  clear_value s1
  split
  · exact hs1
  · exact { hs1 with }

theorem State.Canon.actOn {s : State} {r : TrapRec} {d : Nat} (h : s.Canon) : (s.actOn r d).Canon := by
  unfold State.actOn
  split
  · split
    · exact h.killRec
    · exact h
  · split
    · split
      · exact h.killRec
      · exact h
    · extract_lets s1 s2
      have hs1 : s1.Canon := h.devTouch
      clear_value s1
      have hs2 : s2.Canon := hs1.onGroup fun _ h1 => { h1 with }
      clear_value s2
      split
      · exact hs1.release_
      · split
        · split
          · exact hs1.release_
          · exact hs1.editLanes.release_
        · split
          · exact hs1.restart
          · split
            · exact hs1.killRec
            · split
              · exact hs2.park
              · exact hs2

theorem State.Canon.dispose {s : State} {r : TrapRec} {d : Nat} (h : s.Canon) : (s.dispose r d).Canon := by
  unfold State.dispose
  extract_lets s1 s2
  have hs1 : s1.Canon := h.setDisp
  clear_value s1
  have hs2 : s2.Canon := by
    unfold s2
    split
    · split
      · exact hs1
      · exact hs1.setDisp
    · exact hs1
  clear_value s2
  exact hs2.actOn

theorem State.Canon.placeHandler {s : State} {k : Kernel} {r : TrapRec} (h : s.Canon) (hk : k.Canon) :
    (s.placeHandler k r).Canon := by
  unfold State.placeHandler
  extract_lets _ d _ s1
  have hd : d.Canon := { kernel := { hk with } }
  clear_value d
  have hs1 : s1.Canon := { h with grids := forall_mem_snoc h.grids hd }
  clear_value s1
  exact hs1.onRec

theorem State.Canon.vector {s : State} {code : Nat} (h : s.Canon) : (s.vector code).Canon := by
  unfold State.vector
  extract_lets _
  split
  · exact h.readKernel
  · exact .bad h

theorem State.Canon.deliverTrap {s : State} {t : TrapInfo} {g : Option Group} {ctx : Nat} (h : s.Canon) :
    IfSome (fun a => a.1.Canon) (s.deliverTrap t g ctx) := by
  unfold State.deliverTrap
  extract_lets s1
  have hs1 : s1.Canon := h.devTouch
  clear_value s1
  split
  · exact .none
  · rename_i k e
    have hk : k.Canon := hs1.vector.of_ok e
    refine IfSome.map_of hs1.writeRecord fun _ h1 => ?_
    dsimp only
    exact (h1.placeHandler hk).readsDone
  · rename_i s2 e
    have hs2 : s2.Canon := hs1.vector.of_bad e
    refine IfSome.map_of hs2.writeRecord fun _ h1 => ?_
    dsimp only
    exact h1.dispose

theorem State.Canon.vectorWait {s : State} {code : Nat} (h : s.Canon) : (s.vectorWait code).Canon := by
  unfold State.vectorWait
  split
  · rename_i s1 e
    have hs1 : s1.Canon := h.vector.of_wait e
    exact hs1
  · exact h

theorem State.Canon.stepRecord {s : State} {t : TrapInfo} {g : Group} (h : s.Canon) : (s.stepRecord t g).Canon := by
  unfold State.stepRecord
  split
  · exact h
  · rename_i r s1 e
    have hs1 : s1.Canon := h.writeRecord.of_some e
    exact hs1.setDisp.onGroup fun _ h1 => { h1 with }

theorem State.Canon.doTrapDelivery {s : State} (h : s.Canon) : (doTrapDelivery s).Canon := by
  unfold Machine.doTrapDelivery
  split
  · exact h
  · split
    · split
      · exact h.stepRecord
      · extract_lets s'
        have hs' : s'.Canon := h.onGroup fun _ h1 => { h1 with }
        clear_value s'
        split
        · rename_i s1 _ e3
          have hs1 : s1.Canon := hs'.deliverTrap.of_some e3
          exact hs1
        · exact h.vectorWait
    · exact h

theorem State.Canon.execTrapDelivery {s : State} (h : s.Canon) : OutCanon (execTrapDelivery s) :=
  .next h.doTrapDelivery

theorem State.Canon.doTrapRecordPost {s : State} (h : s.Canon) : (doTrapRecordPost s).Canon := by
  unfold Machine.doTrapRecordPost
  split
  · exact h
  · extract_lets held _ s'
    have hs' : s'.Canon := { h with }
    clear_value s'
    split
    · exact hs'
    · split
      · exact h.vectorWait
      · rename_i s1 _ e1
        have hs1 : s1.Canon := hs'.deliverTrap.of_some e1
        clear_value held
        split
        · exact hs1.onRec.onRec
        · exact hs1

theorem State.Canon.execTrapRecordPost {s : State} (h : s.Canon) : OutCanon (execTrapRecordPost s) :=
  .next h.doTrapRecordPost

theorem State.Canon.doImpreciseTrapTaken {gid code : Nat} {s : State} (h : s.Canon) :
    (doImpreciseTrapTaken gid code s).Canon := by
  unfold Machine.doImpreciseTrapTaken
  split
  · exact h
  · extract_lets _ _ _ _
    split
    · exact h
    · exact State.Canon.takeTrap (h.onGroup fun _ h1 => { h1 with impInfo := swf_set h1.impInfo })

theorem State.Canon.execImpreciseTrapTaken {gid code : Nat} {s : State} (h : s.Canon) :
    OutCanon (execImpreciseTrapTaken gid code s) :=
  .next h.doImpreciseTrapTaken

theorem State.Canon.endHandler {s : State} {g : Group} (h : s.Canon) : (s.endHandler g).Canon := by
  unfold State.endHandler
  extract_lets s1
  have hs1 : s1.Canon := h.endGroup
  clear_value s1
  refine foldl_keep hs1 fun _ _ h1 => ?_
  split
  · exact h1.dispose
  · exact h1

theorem State.Canon.exitEffect {s : State} {g : Group} {act : Word} (h : s.Canon) : (exitEffect s g act).Canon := by
  unfold Machine.exitEffect
  split
  · exact h.endHandler
  · extract_lets s1
    have hs1 : s1.Canon := h.onGroup fun _ h1 => h1.advance.mapLanes
    clear_value s1
    split
    · split
      · exact hs1.endGroup.checkDeadlock
      · exact hs1
    · exact hs1

theorem State.Canon.execExit {o : RForm} {s : State} (h : s.Canon) : OutCanon (execExit o s) :=
  h.execWord fun _ _ _ h1 _ => h1.exitEffect

theorem State.Canon.execSystem {i : Instr} {gd : Guard} {early : Group → Word → Option TrapReq}
    {f : State → Group → Word → State} {s : State} (h : s.Canon)
    (hf : ∀ s g w, s.Canon → g.Canon s.nextId → (f s g w).Canon) : OutCanon (execSystem i gd early f s) :=
  h.execChecked hf

theorem State.Canon.execOperands {i : Instr} {gd : Guard} {f : State → Group → Word → State} {s : State} (h : s.Canon)
    (hf : ∀ s g w, s.Canon → g.Canon s.nextId → (f s g w).Canon) : OutCanon (execOperands i gd f s) := by
  unfold Machine.execOperands
  refine h.execSystem fun _ _ _ h1 h2 => ?_
  split
  · exact h1.raise
  · exact hf _ _ _ h1 h2

theorem State.Canon.execPoisonFirst {i : Instr} {gd : Guard} {f : State → Group → Word → State} {s : State}
    (h : s.Canon) (hf : ∀ s g w, s.Canon → g.Canon s.nextId → (f s g w).Canon) :
    OutCanon (execPoisonFirst i gd f s) :=
  h.execSystem hf

theorem State.Canon.execEret {o : RForm} {s : State} (h : s.Canon) : OutCanon (execEret o s) :=
  h.execOperands fun _ _ _ h1 _ => h1.endHandler

theorem State.Canon.faultackEffect {d : Nat} {o : RForm} {s : State} {g : Group} {act : Word} (h : s.Canon) :
    (faultackEffect d o s g act).Canon := by
  unfold Machine.faultackEffect
  split
  · exact h.raise
  · split
    · exact h.raise
    · split
      · exact h
      · exact h.clearMarks.go.dispose

theorem State.Canon.execFaultackRetry {o : RForm} {s : State} (h : s.Canon) : OutCanon (execFaultackRetry o s) :=
  h.execPoisonFirst fun _ _ _ h1 _ => h1.faultackEffect

theorem State.Canon.execFaultackSkip {o : RForm} {s : State} (h : s.Canon) : OutCanon (execFaultackSkip o s) :=
  h.execPoisonFirst fun _ _ _ h1 _ => h1.faultackEffect

theorem State.Canon.execFaultackRegion {o : RForm} {s : State} (h : s.Canon) : OutCanon (execFaultackRegion o s) :=
  h.execPoisonFirst fun _ _ _ h1 _ => h1.faultackEffect

theorem State.Canon.execFaultackKill {o : RForm} {s : State} (h : s.Canon) : OutCanon (execFaultackKill o s) :=
  h.execPoisonFirst fun _ _ _ h1 _ => h1.faultackEffect

theorem State.Canon.execFaultackHold {o : RForm} {s : State} (h : s.Canon) : OutCanon (execFaultackHold o s) :=
  h.execPoisonFirst fun _ _ _ h1 _ => h1.faultackEffect

theorem State.Canon.heldFrame {s : State} {a : Nat} (h : s.Canon) : IfSome (Group.Canon s.nextId) (s.heldFrame a) :=
  IfSome.find h.groups

theorem State.Canon.dbgstepEffect {o : RForm} {s : State} {g : Group} {act : Word} (h : s.Canon) :
    (dbgstepEffect o s g act).Canon := by
  unfold Machine.dbgstepEffect
  extract_lets _ put
  have hput : ∀ (info : Nat), (put info).Canon := fun _ => h.devPut.go
  clear_value put
  split
  · exact h.raise
  · rename_i g1 e
    have hg1 : Group.Canon s.nextId g1 := h.heldFrame.of_some e
    extract_lets y _ s1
    have hy : Group.Canon s.nextId y := hg1.loadGroup
    clear_value y
    have hs1 : s1.Canon := h.onGroup fun _ _ => { hy.resumeRun with }
    clear_value s1
    split
    · exact h
    · split
      · exact hput _
      · split
        · exact hput _
        · split
          · exact h
          · exact hs1.onGroup fun _ h1 => h1.setWait

theorem State.Canon.execDbgstep {o : RForm} {s : State} (h : s.Canon) : OutCanon (execDbgstep o s) :=
  h.execPoisonFirst fun _ _ _ h1 _ => h1.dbgstepEffect

theorem State.Canon.preemptTeam {s : State} {t : Team} {waiter : Option (Nat × Nat)} (h : s.Canon) :
    (s.preemptTeam t waiter).Canon := by
  unfold State.preemptTeam
  extract_lets s1
  have hs1 : s1.Canon := h.onTeam fun _ h1 => { h1 with }
  clear_value s1
  refine { hs1 with groups := forall_mem_change hs1.groups fun _ h1 => ?_ }
  split
  · split
    · split <;> exact { h1 with }
    · exact h1
  · exact h1

theorem State.Canon.preemptCore {s : State} {core : Nat} {waiter : Option (Nat × Nat)} (h : s.Canon) :
    (s.preemptCore core waiter).Canon :=
  State.Canon.preemptDone (foldl_keep h fun _ _ h1 => h1.preemptTeam)

theorem State.Canon.preemptEffect {o : RForm} {s : State} {g : Group} {act : Word} (h : s.Canon) :
    (preemptEffect o s g act).Canon := by
  unfold Machine.preemptEffect
  extract_lets _ s1 _
  have hs1 : s1.Canon := h.go
  clear_value s1
  split
  · exact h.raise
  · exact State.Canon.preemptCore { hs1 with grids := hs1.grids }

theorem State.Canon.execPreempt {o : RForm} {s : State} (h : s.Canon) : OutCanon (execPreempt o s) :=
  h.execOperands fun _ _ _ h1 _ => h1.preemptEffect

theorem State.Canon.killEffect {o : RForm} {s : State} {g : Group} {w : Word} (h : s.Canon) :
    (killEffect o s g w).Canon := by
  unfold Machine.killEffect
  extract_lets _
  exact foldl_keep h.go fun _ _ h1 => h1.killRoot

theorem State.Canon.execKill {o : RForm} {s : State} (h : s.Canon) : OutCanon (execKill o s) :=
  h.execOperands fun _ _ _ h1 _ => h1.killEffect

theorem State.Canon.resumeEffect {o : RForm} {s : State} {g : Group} {w : Word} (h : s.Canon) :
    (resumeEffect o s g w).Canon := by
  unfold Machine.resumeEffect
  extract_lets _ s1
  have hs1 : s1.Canon := h.go
  clear_value s1
  refine { hs1 with teams := forall_mem_change hs1.teams fun _ h1 => ?_ }
  split
  · exact { h1 with }
  · exact h1

theorem State.Canon.execResume {o : RForm} {s : State} (h : s.Canon) : OutCanon (execResume o s) :=
  h.execOperands fun _ _ _ h1 _ => h1.resumeEffect

theorem State.Canon.tlbinvEffect {o : RForm} {s : State} {g : Group} {act : Word} (h : s.Canon) :
    (tlbinvEffect o s g act).Canon := by
  unfold Machine.tlbinvEffect
  extract_lets _ _ _ _ s1
  have hs1 : s1.Canon := h.clearMarks.dropTranslations
  clear_value s1
  split
  · exact h
  · split
    · exact hs1.freshFetch.go
    · exact hs1.onGroup fun _ h1 => h1.await

theorem State.Canon.wakeDrop {s : State} {g : Group} (h : s.Canon) : (s.wakeDrop g).Canon := by
  unfold State.wakeDrop
  extract_lets _
  split
  · exact h
  · exact h.freshFetch.onGroup fun _ h1 => h1.leave

theorem State.Canon.execTlbinv {o : RForm} {s : State} (h : s.Canon) : OutCanon (execTlbinv o s) :=
  h.execSystem fun _ _ _ h1 _ => h1.tlbinvEffect

theorem State.Canon.dropWalkOf {s : State} {id : Nat} (h : s.Canon) : (s.dropWalkOf id).Canon := { h with }

theorem State.Canon.wakeWalk {s : State} {gid : Nat} {pc : BitVec 64} (h : s.Canon) : (s.wakeWalk gid pc).Canon := by
  unfold State.wakeWalk
  split
  · exact h
  · extract_lets _
    split
    · exact h.push
    · exact h.undeny.onGroup fun _ h1 => h1.setWait

theorem State.Canon.walkTrap {s : State} {w : Walk} (h : s.Canon) : (s.walkTrap w).Canon := by
  unfold State.walkTrap
  split
  · exact h.takeTrap
  · split
    · exact h.fetchTrap
    · exact h
  · exact h

theorem State.Canon.frameFault {s : State} {gid : Nat} (h : s.Canon) : (s.frameFault gid).Canon := by
  unfold State.frameFault
  split
  · split
    · exact h.devPut
    · exact h
  · exact h

theorem State.Canon.deny {s : State} {w : Walk} (h : s.Canon) : (s.deny w).Canon := { h with }

theorem State.Canon.walkFailed {s : State} {w : Walk} (h : s.Canon) : (s.walkFailed w).Canon := by
  unfold State.walkFailed
  split
  · exact h.walkTrap.frameFault
  · exact h.walkTrap.frameFault
  · exact h.onOp fun _ h1 => { h1 with }
  · exact h
  · exact h.deny.wakeWalk
  · exact h.deny
  · exact h.deny

theorem State.Canon.sendRequests {s : State} (h : s.Canon) : s.sendRequests.Canon := by
  unfold State.sendRequests
  refine foldl_keep h fun _ _ h1 => ?_
  extract_lets _ _ _
  split
  · exact h1
  · exact State.Canon.send { h1 with slots := h1.slots }

theorem State.Canon.pageRequest {s : State} {w : Walk} (h : s.Canon) : (s.pageRequest w).Canon := by
  unfold State.pageRequest
  extract_lets _ _ _ _
  split
  · exact { h with slots := h.slots }
  · split
    rename_i s1 e
    have hs1 : s1.Canon := h.fresh.snd e
    extract_lets _ _
    exact State.Canon.sendRequests { hs1 with slots := hs1.slots }

theorem State.Canon.haltForPage {s : State} {gid : Nat} (h : s.Canon) : (s.haltForPage gid).Canon := by
  unfold State.haltForPage
  refine h.onGroup fun _ h1 => ?_
  split
  · exact { h1 with }
  · exact { h1 with }
  · exact h1

theorem State.Canon.walkFault {s : State} {w : Walk} (h : s.Canon) : (s.walkFault w).Canon := by
  unfold State.walkFault
  split
  · split
    · split
      · exact h.wakeWalk
      · exact h
    · split
      · exact h.pageRequest.haltForPage
      · exact h.walkTrap
  · split
    · split
      · exact h.wakeWalk
      · exact h
    · split
      · exact h.pageRequest.haltForPage
      · exact h.walkTrap
  · split
    · exact h.pageRequest
    · exact h.walkFailed
  · split
    · exact h.pageRequest
    · exact h.walkFailed
  · exact h.walkFailed

theorem State.Canon.walkFilled {s : State} {w : Walk} (h : s.Canon) : (s.walkFilled w).Canon := by
  unfold State.walkFilled
  split
  · split
    · exact h.release_
    · exact h.wakeWalk
  · split
    · exact h.release_
    · exact h
  · exact h.wakeWalk
  · split
    · split
      · exact h
      · exact h.prefetchLine
    · exact h
  · exact h

theorem State.Canon.doPageWalkComplete {id : Nat} {host : List (BitVec 64)} {s : State} (h : s.Canon) :
    (doPageWalkComplete id host s).Canon := by
  unfold Machine.doPageWalkComplete
  split
  · exact h
  · split
    · exact h
    · split
      · rename_i s1 e1
        have hs1 : s1.Canon := h.walk.snd e1
        exact hs1
      · rename_i s1 e2
        have hs1 : s1.Canon := h.walk.snd e2
        exact hs1.dropWalkOf.tlbFill.walkFilled
      · rename_i s1 e1
        have hs1 : s1.Canon := h.walk.snd e1
        extract_lets _
        split
        · exact hs1.dropWalkOf.walkFailed
        · exact hs1.dropWalkOf.walkFault

theorem State.Canon.execPageWalkComplete {walk : Nat} {host : List (BitVec 64)} {s : State} (h : s.Canon) :
    OutCanon (execPageWalkComplete walk host s) :=
  .next h.doPageWalkComplete

theorem State.Canon.dropRequest {s : State} {id : Nat} (h : s.Canon) : (s.dropRequest id).Canon := { h with }

theorem State.Canon.failRequest {s : State} {q : PageReq} (h : s.Canon) : (s.failRequest q).Canon :=
  foldl_keep h.dropRequest fun _ _ h1 => h1.walkFailed

theorem State.Canon.barRequest {s : State} {q : PageReq} (h : s.Canon) : (s.barRequest q).Canon := by
  unfold State.barRequest
  extract_lets s1 _ s2
  have hs1 : s1.Canon := h.failRequest
  clear_value s1
  have hs2 : s2.Canon := { hs1 with slots := hs1.slots }
  clear_value s2
  exact State.Canon.sendRequests (foldl_keep hs2 fun _ _ h1 => h1.failRequest)

theorem State.Canon.doPageResponse {id : Nat} {ans : PageAnswer} {s : State} (h : s.Canon) :
    (doPageResponse id ans s).Canon := by
  unfold Machine.doPageResponse
  split
  · exact h
  · split
    · extract_lets _ _
      exact State.Canon.sendRequests (State.Canon.dropRequest { h with slots := h.slots })
    · exact h.failRequest.sendRequests
    · exact h.barRequest

theorem State.Canon.execPageResponse {id : Nat} {ans : PageAnswer} {s : State} (h : s.Canon) :
    OutCanon (execPageResponse id ans s) :=
  .next h.doPageResponse

theorem State.Canon.doPageRequestTimeout {id : Nat} {s : State} (h : s.Canon) :
    (doPageRequestTimeout id s).Canon := by
  unfold Machine.doPageRequestTimeout
  split
  · split
    · split
      · exact h
      · exact h.barRequest
    · exact h
  · exact h

theorem State.Canon.execPageRequestTimeout {id : Nat} {s : State} (h : s.Canon) :
    OutCanon (execPageRequestTimeout id s) :=
  .next h.doPageRequestTimeout

theorem State.Canon.doPageWaitReframe {s : State} (h : s.Canon) : (doPageWaitReframe s).Canon := by
  unfold Machine.doPageWaitReframe
  split
  · exact h
  · split
    · exact h
    · split
      · split
        · exact State.Canon.preemptTeam { h with }
        · exact h
      · exact h

theorem State.Canon.execPageWaitReframe {s : State} (h : s.Canon) : OutCanon (execPageWaitReframe s) :=
  .next h.doPageWaitReframe

theorem State.Canon.finishInvals {s : State} (h : s.Canon) : s.finishInvals.Canon := by
  unfold State.finishInvals
  extract_lets _ _
  exact foldl_keep { h with slots := h.slots } fun _ _ h1 => h1.send

theorem State.Canon.doAtsInvalidate {pasid base len : Nat} {s : State} (h : s.Canon) :
    (doAtsInvalidate pasid base len s).Canon := by
  unfold Machine.doAtsInvalidate
  split
  · exact h
  · extract_lets s1 _ _
    have hs1 : s1.Canon := h.dropTranslations
    clear_value s1
    exact State.Canon.finishInvals { hs1 with slots := hs1.slots }

theorem State.Canon.execAtsInvalidate {pasid base len : Nat} {s : State} (h : s.Canon) :
    OutCanon (execAtsInvalidate pasid base len s) :=
  .next h.doAtsInvalidate

theorem State.Canon.unwatch {s : State} {w : Watch} (h : s.Canon) : (s.unwatch w).Canon :=
  { h with mem := { h.mem with } }

theorem State.Canon.loadSlots {s : State} {lo n : Nat} (h : s.Canon) : (s.loadSlots lo n).Canon := by
  unfold State.loadSlots
  extract_lets _ _
  refine foldl_keep h fun _ _ h1 => ?_
  split
  · exact h1
  · exact { h1 with slots := swf_set h1.slots }

theorem Rel.Canon.withBlock {r : Rel} {b : RelBlock} (h : r.Canon) : ({ r with block := b } : Rel).Canon := { h with }

theorem State.Canon.loadRel {s : State} (h : s.Canon) : s.loadRel.Canon := by
  unfold State.loadRel
  split
  split
  · exact h
  · exact { h with rel := h.rel.withBlock }

theorem State.Canon.loadBlock {s : State} (h : s.Canon) : s.loadBlock.Canon := by
  unfold State.loadBlock
  extract_lets _ _ s1
  have hs1 : s1.Canon := { h with slots := h.slots }
  clear_value s1
  split
  · exact hs1
  · exact hs1.loadSlots.loadRel

theorem State.Canon.doTranslationBlockReload {line : Nat} {s : State} (h : s.Canon) :
    (doTranslationBlockReload line s).Canon := by
  unfold Machine.doTranslationBlockReload
  split
  · exact h
  · split
    · rename_i s1 e1
      have hs1 : s1.Canon := h.devFetch.of_error e1
      exact hs1
    · rename_i u e1
      have hu : u.Canon := h.devFetch.of_ok e1
      extract_lets s1 _ s2 s3
      have hs1 : s1.Canon := hu.unwatch
      clear_value s1
      have hs2 : s2.Canon := by
        unfold s2
        split
        · exact hs1.loadBlock
        · exact hs1
      clear_value s2
      have hs3 : s3.Canon := foldl_keep hs2 fun _ _ h1 => h1.loadSlots
      clear_value s3
      split
      · exact hs3.loadRel
      · exact hs3

theorem State.Canon.execTranslationBlockReload {line : Nat} {s : State} (h : s.Canon) :
    OutCanon (execTranslationBlockReload line s) :=
  .next h.doTranslationBlockReload

theorem State.Canon.doContextRecordWrite {ctx : Nat} {s : State} (h : s.Canon) :
    (doContextRecordWrite ctx s).Canon := by
  unfold Machine.doContextRecordWrite
  split
  · split
    · rename_i s1 e1
      have hs1 : s1.Canon := h.devFetch.of_error e1
      exact hs1
    · rename_i s1 e1
      have hs1 : s1.Canon := h.devFetch.of_ok e1
      extract_lets s2 s3
      have hs2 : s2.Canon := hs1.unwatch
      clear_value s2
      have hs3 : s3.Canon := hs2.onCtx
      clear_value s3
      split
      · exact hs2
      · exact hs3.doFrameRetry
  · exact h

theorem State.Canon.execContextRecordWrite {ctx : Nat} {s : State} (h : s.Canon) :
    OutCanon (execContextRecordWrite ctx s) :=
  .next h.doContextRecordWrite

theorem State.Canon.dropInbound {s : State} (h : s.Canon) : s.dropInbound.Canon := by
  unfold State.dropInbound
  extract_lets _ _
  exact { h with mem := { h.mem with } }

theorem State.Canon.doFabricBlockWrite {s : State} (h : s.Canon) : (doFabricBlockWrite s).Canon := by
  unfold Machine.doFabricBlockWrite
  split
  · exact h
  · split
    · rename_i s1 e1
      have hs1 : s1.Canon := h.devFetch.of_error e1
      exact hs1
    · rename_i s1 e1
      have hs1 : s1.Canon := h.devFetch.of_ok e1
      extract_lets s2 _ _
      have hs2 : s2.Canon := hs1.unwatch
      clear_value s2
      split
      · exact hs2
      · split
        · exact { hs2 with }
        · exact { hs2.dropInbound with }

theorem State.Canon.execFabricBlockWrite {s : State} (h : s.Canon) : OutCanon (execFabricBlockWrite s) :=
  .next h.doFabricBlockWrite

end Sys2Proof.Machine
end

