-- ==== Sys2Proof/Proofs/CanonDispatcher.lean ====
section
/-! SUPPORT. The canonical form is kept: the dispatcher and the reliability events. -/

namespace Sys2Proof.Machine

theorem State.Canon.accept {s : State} {a : Accept} {t : TaskRec} {k : Kernel} (h : s.Canon) (hk : k.Canon) :
    (s.accept a t k).2.Canon := by
  unfold State.accept
  extract_lets _ _ _ d _ s1
  have hd : d.Canon := { kernel := hk }
  clear_value d
  have hs1 : s1.Canon := { h with grids := forall_mem_snoc h.grids hd }
  clear_value s1
  exact hs1.onSerial

theorem State.Canon.gridEffect {o : EForm} {s : State} {g : Group} {act : Word} (h : s.Canon) :
    (gridEffect o s g act).Canon := by
  unfold Machine.gridEffect
  extract_lets _ _
  split
  · exact h
  · split
    · exact h.raise
    · split
      · exact h.raise
      · refine h.withAccess fun _ => ?_
        split
        · exact h.putReq.bumpSeq.go
        · exact h

theorem State.Canon.gridDone {s : State} {g : Group} {r : Req} {status id : Nat} (h : s.Canon) :
    (gridDone s g r status id).Canon :=
  h.readsDone.deliver

theorem State.Canon.gridLaunch {s : State} {r : Req} (h : s.Canon) : (s.gridLaunch r).Canon := by
  unfold State.gridLaunch
  split
  · exact h
  · split
    · exact h
    · extract_lets go _ _ _
      have hgo : ∀ (s : State), s.Canon → (go s).Canon := fun _ h1 => h1.clearMarks
      clear_value go
      split
      · exact h
      · split
        · exact (hgo _ h).gridDone
        · split
          · exact (hgo _ h).gridDone
          · split
            · rename_i s1 e2
              have hs1 : s1.Canon := h.readKernel.of_wait e2
              exact hs1
            · rename_i s1 e2
              have hs1 : s1.Canon := h.readKernel.of_bad e2
              exact (hgo _ hs1).gridDone
            · rename_i k e2
              have hk : k.Canon := h.readKernel.of_ok e2
              split
              · exact (hgo _ h).gridDone
              · dsimp only
                exact ((hgo _ h).accept hk).gridDone

theorem State.Canon.returnRecord {s : State} {id : Nat} (h : s.Canon) : (s.returnRecord id).Canon := by
  unfold State.returnRecord
  split
  · split
    · exact h.gridLaunch
    · exact h
  · exact h

theorem State.Canon.execLoadReturn {id : Nat} {ext : Option ExtVal} {s : State} (h : s.Canon) :
    OutCanon (execLoadReturn id ext s) :=
  .next h.doLoadReturn.returnRecord

theorem State.Canon.execGrid {o : EForm} {s : State} (h : s.Canon) : OutCanon (execGrid o s) :=
  h.execChecked fun _ _ _ h1 _ => h1.gridEffect

theorem State.Canon.postStat {s : State} {ctx st : Nat} (h : s.Canon) : (s.postStat ctx st).Canon := h.devPut

theorem State.Canon.virtWrite {s : State} {core pasid : Nat} {ctx0 : Bool} {l : List (Nat × List Byte)} (h : s.Canon)
    : IfEither State.Canon State.Canon (s.virtWrite core pasid ctx0 l) := by
  induction l generalizing s with
  | nil =>
    unfold State.virtWrite
    exact .ok h
  | cons _ _ ih =>
    unfold State.virtWrite
    split
    · rename_i s1 e
      have hs1 : s1.Canon := h.devPlace.of_wait e
      exact .error hs1
    · exact ih h.undeny
    · split
      · extract_lets _
        split
        · exact .error h.awaitRows
        · exact ih h.stackWrite
      · exact ih h.devArrive
      · exact ih h.send
      · exact ih h

theorem State.Canon.argBytes {s : State} {ctx : Nat} {args : BitVec 64} (h : s.Canon) :
    IfEither State.Canon (fun _ => True) (s.argBytes ctx args) := by
  unfold State.argBytes
  extract_lets n
  clear_value n
  split
  · rename_i e
    exact .error (h.virtRead.of_wait e)
  · exact .ok trivial
  · exact .ok trivial

theorem State.Canon.acceptRoot {s : State} {ctx : Nat} {mode : TaskMode} {b : List Byte} {e : Option LogEntry}
    {t : TaskRec} {k : Kernel} (h : s.Canon) (hk : k.Canon) : (s.acceptRoot ctx mode b e t k).Canon := by
  unfold State.acceptRoot
  extract_lets a start
  have hstart : ∀ s n, s.Canon → (start s n).2.Canon := by
    intro s n h1
    unfold start
    split
    rename_i s1 e1
    have hs1 : s1.Canon := (h1.accept hk).snd e1
    exact { hs1 with }
  clear_value start
  split
  · exact (h.accept hk).postStat
  · split
    · rename_i e1
      exact h.argBytes.of_error e1
    · split
      rename_i e2
      exact ((hstart _ _ h).snd e2).devPut.devPut.logAppend.postStat
  · split
    · rename_i e1
      exact h.virtWrite.of_error e1
    · rename_i e1
      exact (hstart _ _ (h.virtWrite.of_ok e1)).postStat

theorem State.Canon.takePost {s : State} {ctx : Nat} (h : s.Canon) : (s.takePost ctx).Canon := by
  unfold State.takePost
  extract_lets _ _ _ s1
  have hs1 : s1.Canon := h.readsDone
  clear_value s1
  split
  · exact h.postStat
  · split
    · exact h.postStat
    · extract_lets _
      split
      · exact h.postStat
      · split
        · rename_i s2 e2
          have hs2 : s2.Canon := h.readKernel.of_wait e2
          exact hs2
        · rename_i s2 e2
          have hs2 : s2.Canon := h.readKernel.of_bad e2
          exact hs2.readsDone.postStat
        · rename_i k e2
          have hk : k.Canon := h.readKernel.of_ok e2
          split
          · exact hs1.acceptRoot hk
          · exact hs1.postStat

theorem State.Canon.readPost {s : State} {ctx : Nat} (h : s.Canon) :
    IfEither State.Canon State.Canon (s.readPost ctx) := by
  unfold State.readPost
  split
  · rename_i s1 e
    have hs1 : s1.Canon := h.devFetch.of_error e
    exact .error hs1
  · rename_i u e
    have hu : u.Canon := h.devFetch.of_ok e
    exact IfEither.map hu.devFetch fun _ h1 => h1

theorem State.Canon.doPostBoxTake {ctx : Nat} {s : State} (h : s.Canon) : (doPostBoxTake ctx s).Canon := by
  unfold Machine.doPostBoxTake
  split
  · exact h
  · extract_lets _
    split
    · exact h.unwatch
    · split
      · exact h
      · split
        · rename_i s1 e1
          have hs1 : s1.Canon := h.readPost.of_error e1
          exact hs1
        · rename_i a e1
          have ha : a.Canon := h.readPost.of_ok e1
          exact ha.takePost

theorem State.Canon.execPostBoxTake {ctx : Nat} {s : State} (h : s.Canon) : OutCanon (execPostBoxTake ctx s) :=
  .next h.doPostBoxTake

theorem State.Canon.granted {s : State} {k : Nat} {express : Bool} (h : s.Canon) : (s.granted k express).Canon := by
  unfold State.granted
  split
  · exact h
  · exact { h with mem := { h.mem with grants := swf_set h.mem.grants } }

theorem State.Canon.doCoreEligibilitySample {core temp droop : Nat} {s : State} (h : s.Canon) :
    (doCoreEligibilitySample core temp droop s).Canon := by
  unfold Machine.doCoreEligibilitySample
  split
  · exact h
  · exact { h with cores := { h.cores with elig := swf_set h.cores.elig } }

theorem State.Canon.execCoreEligibilitySample {core tempC droop : Nat} {s : State} (h : s.Canon) :
    OutCanon (execCoreEligibilitySample core tempC droop s) :=
  .next h.doCoreEligibilitySample

theorem swf_startRegs {d : Grid} : swf ⟨0, false⟩ (startRegs d) = true := swf_set (swf_set (swf_set swf_empty))

theorem Group.Canon.startGroup {N gid team teamId i core slot : Nat} {d : Grid} {x : Ctx} (hg : gid < N) :
    (startGroup d x gid team teamId i core slot).Canon N where
  gid := hg
  lanes := length_keep_map List.length_range
  v := swf_empty
  s := swf_startRegs
  p := swf_empty
  outrider := by
    unfold Machine.startGroup
    dsimp only
    split
    · intro o ho
      obtain rfl := Option.some.inj ho
      exact { v := swf_empty, s := swf_startRegs, p := swf_empty }
    · intro o ho
      exact absurd ho (by simp)
  a := swf_empty
  t := swf_empty
  tiles := List.forall_mem_nil _
  maskRows := swf_empty
  impInfo := swf_empty
  blkGen := swf_empty

theorem Cores.Canon.clear {c : Cores} {a n : Nat} (hc : c.Canon) : (c.clear a n).Canon := by
  unfold Machine.Cores.clear
  extract_lets _
  exact { hc with
      spad := swf_keep hc.spad
      gate := swf_keep hc.gate
      poison := swf_keep hc.poison
      reload := swf_keep hc.reload }

theorem Group.Canon.takeLate {N : Nat} {s : State} {g : Group} (hg : g.Canon N) : Group.Canon N (s.takeLate g) := by
  unfold State.takeLate
  extract_lets _
  exact { hg with }

theorem State.Canon.placeNew {s : State} {d : Grid} {core sp : Nat} {slots : List (List Nat)} (h : s.Canon) :
    (s.placeNew d core slots sp).Canon := by
  unfold State.placeNew
  split
  rename_i tid s1 e
  have hs1 : s1.Canon := h.fresh.snd e
  have hk := fresh_lt e
  extract_lets n gids gs t gs1 _ s2
  have hgs : ∀ g ∈ gs, g.Canon (s1.nextId + n) := by
    intro g hg
    obtain ⟨i, hi, rfl⟩ := List.mem_map.1 hg
    exact .startGroup (Nat.add_lt_add_left (List.mem_range.1 hi) _)
  clear_value gs
  have hgs1 : ∀ g ∈ gs1, g.Canon (s1.nextId + n) := by
    unfold gs1
    cases gs with
    | nil => exact List.forall_mem_nil _
    | cons g rest =>
      intro x hx
      rcases List.mem_cons.1 hx with rfl | hx
      · exact (hgs g List.mem_cons_self).takeLate
      · exact hgs x (List.mem_cons_of_mem _ hx)
  have hm := hs1.more (Nat.le_add_right _ n)
  have hs2 : s2.Canon :=
    { hm with
      cores := hs1.cores.clear
      groups := fun g hg => (List.mem_append.1 hg).elim (hm.groups g) (hgs1 g)
      teams := forall_mem_snoc hm.teams { id := Nat.lt_add_right _ hk, descs := swf_empty } }
  clear_value s2
  exact State.Canon.trimVictims (hs2.onGrid fun _ hd => { hd with })

theorem State.Canon.placeFramed {s : State} {t : Team} {core : Nat} {slots : List (List Nat)} {sp : Nat} (h : s.Canon)
    : (s.placeFramed t core slots sp).Canon := by
  unfold State.placeFramed
  extract_lets s1 _ s2 s3 s4
  have hs1 : s1.Canon := h.onTeam fun _ h1 => { h1 with }
  clear_value s1
  have hs2 : s2.Canon := by
    unfold s2
    refine foldl_keep hs1 fun _ _ h1 => ?_
    split
    rename_i s5 e
    have hs5 : s5.Canon := h1.fresh.snd e
    exact hs5.onGroup fun _ h2 => { h2 with blkGen := swf_fold swf_empty fun _ _ h3 => swf_set h3 }
  clear_value s2
  have hs3 : s3.Canon := foldl_keep hs2 fun _ _ h1 => h1.freshFetch
  clear_value s3
  have hs4 : s4.Canon := by
    unfold s4
    split
    · extract_lets s5
      have hs5 : s5.Canon := hs3.devTouch.loadTeam
      clear_value s5
      split
      · exact hs5.freePages
      · exact hs5
    · exact hs3
  clear_value s4
  exact State.Canon.trimVictims (foldl_keep hs4 fun _ _ h1 => h1.tryResume)

theorem State.Canon.placed {s : State} {grid teamId : Nat} (h : s.Canon) : (s.placed grid teamId).Canon := by
  unfold State.placed
  refine { h with teams := forall_mem_change h.teams fun _ h1 => ?_ }
  split
  · exact { h1 with }
  · exact h1

theorem State.Canon.logPlaced {s : State} {c : Cand} {core : Nat} (h : s.Canon) : (s.logPlaced c core).Canon := by
  unfold State.logPlaced
  split
  · split
    · split
      · exact h.logTake
      · exact h
    · exact h.logAppend
  · exact h

theorem State.Canon.placeOn {s : State} {c : Cand} {core : Nat} (h : s.Canon) : (s.placeOn c core).Canon := by
  unfold State.placeOn
  split
  · exact h
  · extract_lets s1 s2
    have hs1 : s1.Canon := h.logPlaced
    clear_value s1
    have hs2 : s2.Canon := by
      unfold s2
      split
      · exact hs1.placeFramed
      · exact hs1.placeNew
    clear_value s2
    exact hs2.placed

theorem State.Canon.doTeamPlacement {s : State} (h : s.Canon) : (doTeamPlacement s).Canon := by
  unfold Machine.doTeamPlacement
  split
  · exact h.placeOn
  · exact h

theorem State.Canon.execTeamPlacement {s : State} (h : s.Canon) : OutCanon (execTeamPlacement s) :=
  .next h.doTeamPlacement

theorem State.Canon.doScratchpadClearDone {s : State} (h : s.Canon) : (doScratchpadClearDone s).Canon := by
  unfold Machine.doScratchpadClearDone
  refine h.onTeam fun _ h1 => ?_
  split
  · exact { h1 with }
  · exact h1

theorem State.Canon.execScratchpadClearDone {s : State} (h : s.Canon) : OutCanon (execScratchpadClearDone s) :=
  .next h.doScratchpadClearDone

theorem State.Canon.doPlacementReservation {s : State} (h : s.Canon) : (doPlacementReservation s).Canon := by
  unfold Machine.doPlacementReservation
  split
  · exact h
  · extract_lets _ _
    split
    · exact { h with grids := h.grids }
    · exact h

theorem State.Canon.execPlacementReservation {s : State} (h : s.Canon) : OutCanon (execPlacementReservation s) :=
  .next h.doPlacementReservation

theorem State.Canon.doDispatcherPreempt {s : State} (h : s.Canon) : (doDispatcherPreempt s).Canon := by
  unfold Machine.doDispatcherPreempt
  extract_lets _ _
  split
  · exact h
  · extract_lets _
    exact State.Canon.preemptCore { h with grids := h.grids }

theorem State.Canon.execDispatcherPreempt {s : State} (h : s.Canon) : OutCanon (execDispatcherPreempt s) :=
  .next h.doDispatcherPreempt

theorem State.Canon.doTeamEnd {s : State} (h : s.Canon) : (doTeamEnd s).Canon := by
  unfold Machine.doTeamEnd
  split
  · exact h
  · split
    · exact h
    · extract_lets s1 s2
      have hs1 : s1.Canon := by
        unfold s1
        split
        · exact h.freePages
        · exact h
      clear_value s1
      have hs2 : s2.Canon := hs1.onTeam fun _ h1 => { h1 with descs := swf_empty }
      clear_value s2
      exact hs2.preemptDone

theorem State.Canon.execTeamEnd {s : State} (h : s.Canon) : OutCanon (execTeamEnd s) := .next h.doTeamEnd

theorem State.Canon.freeSuccessors {s : State} {id : Nat} (h : s.Canon) : (s.freeSuccessors id).Canon := by
  unfold State.freeSuccessors
  extract_lets grids _
  refine { h with grids := ?_ }
  unfold grids
  refine forall_mem_change h.grids fun _ h1 => ?_
  split
  · extract_lets _
    exact { h1 with }
  · exact h1

theorem State.Canon.dropGrid {s : State} {id : Nat} (h : s.Canon) : (s.dropGrid id).Canon :=
  { h with grids := forall_mem_keep h.grids }

theorem State.Canon.endSerial {s : State} {d : Grid} (h : s.Canon) : (s.endSerial d).Canon := by
  unfold State.endSerial
  split
  · extract_lets s1 _
    have hs1 : s1.Canon := h.logAppend
    clear_value s1
    exact { hs1 with grids := hs1.grids }
  · exact h

theorem State.Canon.doGridRetire {s : State} (h : s.Canon) : (doGridRetire s).Canon := by
  unfold Machine.doGridRetire
  split
  · exact h
  · split
    · exact h
    · extract_lets s1 _ s2 s3 s4 s5 s6
      have hs1 : s1.Canon := h.endSerial
      clear_value s1
      have hs2 : s2.Canon := hs1.freeLocks
      clear_value s2
      have hs3 : s3.Canon := foldl_keep hs2 fun _ _ h1 => h1.sendPeer
      clear_value s3
      have hs4 : s4.Canon := foldl_keep hs3 fun _ _ h1 => foldl_keep h1 fun _ _ h2 => h2.sendPeer
      clear_value s4
      have hs5 : s5.Canon := hs4.freeMarks.freeSuccessors
      clear_value s5
      have hs6 : s6.Canon := { hs5 with groups := forall_mem_keep hs5.groups, teams := forall_mem_keep hs5.teams }
      clear_value s6
      split
      · exact hs6.dropGrid
      · exact hs6.onGrid fun _ h1 => { h1 with }

theorem State.Canon.execGridRetire {s : State} (h : s.Canon) : OutCanon (execGridRetire s) := .next h.doGridRetire

theorem State.Canon.doneLate {s : State} {d : Grid} {reason : Nat} (h : s.Canon) : (s.doneLate d reason).Canon :=
  h.lateFault.dropGrid

theorem State.Canon.doDoneWrite {s : State} (h : s.Canon) : (doDoneWrite s).Canon := by
  unfold Machine.doDoneWrite
  split
  · exact h
  · split
    · exact h
    · extract_lets _ _
      split
      · exact h.doneLate
      · split
        · split
          · exact h.undeny.doneLate
          · exact h.askWalk
        · split
          · exact h.undeny.doneLate
          · exact h.askWalk
        · split
          · split
            · rename_i s1 e3
              have hs1 : s1.Canon := h.lineAtom.of_wait e3
              exact hs1
            · rename_i s1 e3
              have hs1 : s1.Canon := h.lineAtom.of_done e3
              exact hs1.dropGrid
            · exact h.doneLate
          · split
            · exact h.sendPeer.dropGrid
            · exact h.doneLate
          · exact h.doneLate
          · exact h.doneLate
          · exact h

theorem State.Canon.execDoneWrite {s : State} (h : s.Canon) : OutCanon (execDoneWrite s) := .next h.doDoneWrite

theorem State.Canon.doReplayDivergence {grid addr : Nat} {s : State} (h : s.Canon) :
    (doReplayDivergence grid addr s).Canon := by
  unfold Machine.doReplayDivergence
  split
  · exact h
  · split
    · exact h.devPut.killRoot
    · exact h

theorem State.Canon.execReplayDivergence {grid addr : Nat} {s : State} (h : s.Canon) :
    OutCanon (execReplayDivergence grid addr s) :=
  .next h.doReplayDivergence

theorem State.Canon.logMet {s : State} {r : RowId} {slot : Nat} {v : Verdict} (h : s.Canon) :
    (s.logMet r slot v).Canon := by
  unfold State.logMet
  split
  · exact h.log
  · exact h.log
  · exact h

theorem State.Canon.strengthen {s : State} {r : RowId} {e : Nat × Nat} (h : s.Canon) : (s.strengthen r e).Canon := by
  unfold State.strengthen
  extract_lets _ _ _ s1 s2
  have hs1 : s1.Canon := { h with mem := h.mem.rawPut, rel := { h.rel with } }
  clear_value s1
  have hs2 : s2.Canon := by
    unfold s2
    refine foldl_keep hs1 fun _ _ h1 => ?_
    dsimp only
    exact h1.pokeSector
  clear_value s2
  refine foldl_keep hs2 fun _ _ h1 => ?_
  dsimp only
  exact h1.logMet

theorem State.Canon.noEntry {s : State} {r : RowId} (h : s.Canon) : (s.noEntry r).Canon := by
  unfold State.noEntry
  split
  · exact h
  · extract_lets _ _ s1
    have hs1 : s1.Canon := { h with rel := { h.rel with } }
    clear_value s1
    exact hs1.raiseRecord.log

theorem State.Canon.doRowStrengthen {r : RowId} {s : State} (h : s.Canon) : (doRowStrengthen r s).Canon := by
  unfold Machine.doRowStrengthen
  split
  · exact h
  · extract_lets _ s1
    have hs1 : s1.Canon := { h with rel := { h.rel with } }
    clear_value s1
    split
    · exact hs1
    · split
      · exact hs1.strengthen
      · exact hs1.noEntry

theorem State.Canon.execRowStrengthen {row : RowId} {s : State} (h : s.Canon) : OutCanon (execRowStrengthen row s) :=
  .next h.doRowStrengthen

theorem State.Canon.doCeWindowClear {s : State} (h : s.Canon) : (doCeWindowClear s).Canon := h.clearWindow

theorem State.Canon.execCeWindowClear {s : State} (h : s.Canon) : OutCanon (execCeWindowClear s) :=
  .next h.doCeWindowClear

theorem State.Canon.scrubSector {s : State} {r : RowId} {slot : Nat} (h : s.Canon) :
    (s.scrubSector r slot).Canon := by
  unfold State.scrubSector
  dsimp only
  split
  · exact h.pokeSector.log.countCorrected
  · exact h.pokeSector.log
  · exact h

theorem State.Canon.scrubVisit {s : State} {r : RowId} (h : s.Canon) : (s.scrubVisit r).Canon := by
  unfold State.scrubVisit
  extract_lets _ s1
  have hs1 : s1.Canon := foldl_keep h fun _ _ h1 => h1.scrubSector
  clear_value s1
  split
  · exact hs1.dueRow
  · exact hs1

theorem State.Canon.setScrub {s : State} {stack p : Nat} (h : s.Canon) : (s.setScrub stack p).Canon :=
  { h with rel := { h.rel with scrub := swf_set h.rel.scrub } }

theorem State.Canon.doScrubVisit {stack : Nat} {s : State} (h : s.Canon) : (doScrubVisit stack s).Canon := by
  unfold Machine.doScrubVisit
  split
  · exact h
  · split
    · extract_lets _ s1 _
      have hs1 : s1.Canon := h.setScrub
      clear_value s1
      split
      · exact h
      · split
        · exact hs1.scrubVisit
        · exact { hs1 with rel := { hs1.rel with } }
    · split
      · exact h.setScrub
      · split
        · exact h
        · extract_lets _ s1 s2
          have hs1 : s1.Canon := { h with rel := { h.rel with } }
          clear_value s1
          have hs2 : s2.Canon := hs1.setScrub
          clear_value s2
          split
          · exact hs2.scrubVisit
          · exact hs2

theorem State.Canon.execScrubVisit {stack : Nat} {s : State} (h : s.Canon) : OutCanon (execScrubVisit stack s) :=
  .next h.doScrubVisit

theorem State.Canon.doExtentClassWrite {stack e : Nat} {s : State} (h : s.Canon) :
    (doExtentClassWrite stack e s).Canon := by
  unfold Machine.doExtentClassWrite
  split
  · exact h
  · extract_lets _ _ s1 s2 _ _ s3
    have hs1 : s1.Canon := h.unwatch
    clear_value s1
    have hs2 : s2.Canon := hs1.onExtent
    clear_value s2
    have hs3 : s3.Canon := { hs2 with rel := { hs2.rel with } }
    clear_value s3
    split
    · exact h.unwatch
    · split
      · exact h
      · split
        · exact hs1.devPut.log
        · exact hs3.devPut

theorem State.Canon.execExtentClassWrite {stack ext : Nat} {s : State} (h : s.Canon) :
    OutCanon (execExtentClassWrite stack ext s) :=
  .next h.doExtentClassWrite

theorem Mem.Canon.format {m : Mem} {stack e : Nat} (hm : m.Canon) : (m.format stack e).Canon :=
  { hm with raw := swf_keep hm.raw }

theorem State.Canon.doExtentFormatDone {stack e : Nat} {s : State} (h : s.Canon) :
    (doExtentFormatDone stack e s).Canon := by
  unfold Machine.doExtentFormatDone
  extract_lets _ s1 s2 _ s3 _
  have hs1 : s1.Canon := { h with mem := h.mem.format }
  clear_value s1
  have hs2 : s2.Canon := hs1.onExtent
  clear_value s2
  have hs3 : s3.Canon := by
    unfold s3
    split
    · exact { hs2 with rel := { hs2.rel with } }
    · exact hs2
  clear_value s3
  split
  · exact h
  · exact hs3.devPut.log.push

theorem State.Canon.execExtentFormatDone {stack ext : Nat} {s : State} (h : s.Canon) :
    OutCanon (execExtentFormatDone stack ext s) :=
  .next h.doExtentFormatDone

theorem State.Canon.doPowerEvaluation {watts : Nat} {s : State} (h : s.Canon) :
    (doPowerEvaluation watts s).Canon := by
  unfold Machine.doPowerEvaluation
  extract_lets _ _
  exact { h with }

theorem State.Canon.execPowerEvaluation {watts : Nat} {s : State} (h : s.Canon) :
    OutCanon (execPowerEvaluation watts s) :=
  .next h.doPowerEvaluation

end Sys2Proof.Machine
end

