-- ==== Sys2Proof/Proofs/CanonFabric.lean ====
section
/-! SUPPORT. The canonical form is kept: the fabric, the host and bring-up. -/

namespace Sys2Proof.Machine

theorem State.Canon.inboundRead {s : State} {r : Inbound} {p : Place} {n : Nat}
    {f : List Byte → List Bool → State → Inb} (h : s.Canon) (hf : ∀ l l2 s, s.Canon → (f l l2 s).Canon) :
    (s.inboundRead r p n f).Canon := by
  unfold State.inboundRead
  split
  · exact .retry h
  · split
    · rename_i s1 e
      have hs1 : s1.Canon := h.walkRead.of_wait e
      exact .wait hs1
    · exact .done h
    · rename_i s1 e
      have hs1 : s1.Canon := h.walkRead.of_done e
      exact hf _ _ _ hs1

theorem State.Canon.inboundArrive {s : State} {r : Inbound} {parts : List (LineId × WriteOp)} (h : s.Canon) :
    (s.inboundArrive r parts).Canon := by
  unfold State.inboundArrive
  split
  · exact .retry h
  · exact .pending (foldl_keep h fun _ _ h1 => h1.arrive)

theorem State.Canon.portWrite {s : State} {who : Who} {st e d : Nat} {bs : List Byte} {ts : List Bool} (h : s.Canon) :
    (s.portWrite who st e d bs ts).Canon := by
  unfold State.portWrite
  refine foldl_keep h fun _ _ h1 => ?_
  extract_lets _ _
  exact h1.portStore

theorem State.Canon.inboundRaw {s : State} {r : Inbound} {st e d : Nat} {bs : List Byte} {ts : List Bool}
    (h : s.Canon) : (s.inboundRaw r st e d bs ts).Canon := by
  unfold State.inboundRaw
  extract_lets _ _ _
  split
  · exact .wait (foldl_keep h fun _ _ h1 => h1.snoop)
  · split
    · exact .retry h
    · split
      · rename_i s1 e1
        have hs1 : s1.Canon := h.passRows.of_error e1
        exact .wait hs1
      · rename_i a e1
        have ha : a.Canon := h.passRows.of_ok e1
        exact .done ha.portWrite

theorem State.Canon.inboundWrite {s : State} {r : Inbound} {p : Place} {cls : ExtClass} {bs : List Byte}
    {ts : List Bool} {group : Option Nat} (h : s.Canon) : (s.inboundWrite r p cls bs ts group).Canon := by
  unfold State.inboundWrite
  split
  · exact .done h
  · split
    · exact h.inboundArrive
    · exact h.inboundRaw
    · exact .done h

theorem State.Canon.inboundAtom {s : State} {r : Inbound} {p : Place} {cls : ExtClass} {k : ReqKind} {ob : List Byte}
    {tag : Bool} (h : s.Canon) : (s.inboundAtom r p cls k ob tag).Canon := by
  unfold State.inboundAtom
  split
  · exact .done h
  · split
    · exact h.inboundArrive
    · split
      · exact .wait h.placeAsk
      · refine h.inboundRead fun _ _ _ h1 => .done ?_
        split
        · exact h1.portPut
        · exact h1
    · exact .done h

theorem State.Canon.inboundMaint {s : State} {r : Inbound} {l : LineId} {inval : Bool} (h : s.Canon) :
    (s.inboundMaint r l inval).Canon := by
  unfold State.inboundMaint
  extract_lets _ _
  split
  · exact .retry h
  · exact .pending h.arrive

theorem State.Canon.inboundWalk {s : State} {w : Waybill} {pkg op pasid : Nat} (h : s.Canon) :
    (s.inboundWalk w pkg op pasid).Canon := by
  unfold State.inboundWalk
  split
  · exact .retry h
  · split
    rename_i s1 e
    have hs1 : s1.Canon := h.fresh.snd e
    exact .done { hs1 with }

theorem State.Canon.inboundDo {s : State} {r : Inbound} {p : Place} {cls : ExtClass} (h : s.Canon) :
    (s.inboundDo r p cls).Canon := by
  unfold State.inboundDo
  split
  · exact h.inboundRead fun _ _ _ h1 => .done h1
  · exact h.inboundWrite
  · exact h.inboundWrite
  · split
    · exact h.inboundAtom
    · exact .done h
  · exact h.inboundAtom
  · exact h.inboundAtom
  · split
    · split
      · exact .done h
      · exact h.inboundArrive
    · exact .done h
  · split
    · exact .pending h.lockAt
    · exact .done h
  · split
    · exact .pending h.unlockAt
    · exact .done h
  · split
    · exact h.inboundMaint
    · exact .done h
  · split
    · exact h.inboundMaint
    · exact .done h
  · exact h.inboundWalk
  · exact .done h.clearMarks
  · exact .done h.freeMarks
  · extract_lets _
    split
    · exact .done h
    · exact .done h.withdrawEntries.answerLocker
  · exact .done h

theorem State.Canon.inbound {s : State} {r : Inbound} (h : s.Canon) : (s.inbound r).Canon := by
  unfold State.inbound
  split
  · exact h.inboundDo
  · split
    · exact .done h
    · exact .wait h
    · exact h.inboundDo

theorem State.Canon.marked {s : State} {r : Inbound} {ans : Option PeerAnswer} (h : s.Canon) :
    (s.marked r ans).Canon := by
  unfold State.marked
  extract_lets _ _ _
  exact { h with }

theorem State.Canon.unmarked {s : State} {r : Inbound} (h : s.Canon) : (s.unmarked r).Canon := { h with }

theorem State.Canon.applyLogged {s : State} {x : Serial} (h : s.Canon) : (s.applyLogged x).Canon := by
  unfold State.applyLogged
  split
  · exact h
  · split
    · exact h.logTake
    · split
      · split
        · exact h.unmarked.logTake
        · exact h
      · split
        · rename_i s1 e4
          have hs1 : s1.Canon := h.marked.inbound.of_wait e4
          exact hs1.unmarked
        · rename_i s1 e4
          have hs1 : s1.Canon := h.marked.inbound.of_retry e4
          exact hs1.unmarked
        · rename_i s1 e4
          have hs1 : s1.Canon := h.marked.inbound.of_done e4
          exact hs1.unmarked.logTake
        · rename_i s1 e4
          have hs1 : s1.Canon := h.marked.inbound.of_pending e4
          exact hs1

theorem State.Canon.receive {s : State} {r : Inbound} (h : s.Canon) : (s.receive r).Canon := by
  unfold State.receive
  split
  · rename_i s1 e
    have hs1 : s1.Canon := h.marked.inbound.of_wait e
    exact hs1.unmarked
  · rename_i s1 e
    have hs1 : s1.Canon := h.marked.inbound.of_retry e
    exact hs1.unmarked.send
  · rename_i s1 e
    have hs1 : s1.Canon := h.marked.inbound.of_done e
    exact hs1.unmarked.logInbound.marked.send
  · rename_i s1 e
    have hs1 : s1.Canon := h.marked.inbound.of_pending e
    exact hs1

theorem State.Canon.filtered {s : State} {r : Inbound} (h : s.Canon) : (s.filtered r).Canon := by
  unfold State.filtered
  split
  · split
    · exact h.send
    · exact h
  · split
    · exact h.log
    · split
      · exact h
      · exact h.receive

theorem State.Canon.doFabricRequestReceive {r : Inbound} {s : State} (h : s.Canon) :
    (doFabricRequestReceive r s).Canon := by
  unfold Machine.doFabricRequestReceive
  split
  · exact h.send
  · split
    · exact h.log
    · split
      · exact h.send
      · exact h.filtered

theorem State.Canon.execFabricRequestReceive {r : Inbound} {s : State} (h : s.Canon) :
    OutCanon (execFabricRequestReceive r s) :=
  .next h.doFabricRequestReceive

theorem State.Canon.onFab {s : State} {f : FabReq} {k : FabReq → FabReq} (h : s.Canon) : (s.onFab f k).Canon :=
  { h with }

theorem State.Canon.redepart {s : State} {f : FabReq} (h : s.Canon) : (s.redepart f).Canon := by
  unfold State.redepart
  dsimp only
  exact h.depart.onFab

theorem State.Canon.firstDepart {s : State} {f : FabReq} (h : s.Canon) : (s.firstDepart f).Canon := by
  unfold State.firstDepart
  split
  · exact h.onFab.push
  · exact h.redepart

theorem State.Canon.fabOver {s : State} {f : FabReq} (h : s.Canon) : (s.fabOver f).Canon := by
  unfold State.fabOver
  extract_lets out _ s1 ws first
  have hs1 : s1.Canon := { h with }
  clear_value s1 ws first
  split
  · exact hs1.granted.firstDepart
  · exact hs1

theorem State.Canon.peerLoaded {s : State} {r : Req} {ans : PeerAnswer} (h : s.Canon) :
    (s.peerLoaded r ans).Canon := by
  unfold State.peerLoaded
  split <;> exact h.loaded

theorem State.Canon.peerStored {s : State} {r : Req} {ans : PeerAnswer} (h : s.Canon) :
    (s.peerStored r ans).Canon := by
  unfold State.peerStored
  extract_lets s1
  have hs1 : s1.Canon := h.release.dropReq
  clear_value s1
  split
  · exact hs1.lateFault
  · exact hs1.lateFault
  · exact hs1

theorem State.Canon.peerLocked {s : State} {r : Req} {unlock : Bool} {tgt : Nat} {ans : PeerAnswer} (h : s.Canon) :
    (s.peerLocked r unlock tgt ans).Canon := by
  unfold State.peerLocked
  extract_lets s1 s2 _
  have hs1 : s1.Canon := h.dropReq
  clear_value s1
  have hs2 : s2.Canon := by
    unfold s2
    split
    · exact hs1.onGrid fun _ h1 => { h1 with }
    · exact hs1
  clear_value s2
  split
  · exact { hs2 with mem := { hs2.mem with } }
  · exact hs2.onGroup fun _ h1 => h1.setWait

theorem State.Canon.reqAnswered {s : State} {r : Req} {tgt : Nat} {ans : PeerAnswer} (h : s.Canon) :
    (s.reqAnswered r tgt ans).Canon := by
  unfold State.reqAnswered
  split
  · exact h.peerLoaded
  · exact h.peerLoaded
  · exact h.peerLoaded
  · exact h.peerLoaded
  · exact h.peerStored
  · extract_lets _ s1
    have hs1 : s1.Canon := h.release
    clear_value s1
    split <;> exact hs1.atomDone
  · extract_lets _ s1
    have hs1 : s1.Canon := h.release
    clear_value s1
    split <;> exact hs1.atomDone
  · extract_lets s1
    have hs1 : s1.Canon := by
      unfold s1
      split
      · exact h.opFail.opDone
      · exact h
    clear_value s1
    exact hs1.release.dropReq
  · extract_lets s1
    have hs1 : s1.Canon := by
      unfold s1
      split
      · exact h.opFail.opDone
      · exact h
    clear_value s1
    exact hs1.release.dropReq
  · exact h.peerLocked
  · exact h.peerLocked

theorem State.Canon.opAnswered {s : State} {o : Op} {tgt idx va : Nat} {ans : PeerAnswer} (h : s.Canon) :
    (s.opAnswered o tgt idx va ans).Canon := by
  unfold State.opAnswered
  extract_lets _ _ s1
  have hs1 : s1.Canon := by
    unfold s1
    split
    · refine h.onGroup fun _ h1 => ?_
      extract_lets x
      exact { (h1.markPeer : Group.Canon s.nextId x) with }
    · exact h
  clear_value s1
  split
  · exact h.onOp fun _ h1 => { h1 with }
  · exact hs1.opFail.opDone

theorem State.Canon.walkAnswered {s : State} {id : Nat} {ans : PeerAnswer} (h : s.Canon) :
    (s.walkAnswered id ans).Canon := by
  unfold State.walkAnswered
  extract_lets _
  split
  · split
    · split
      · exact h
      · exact h.walkBack
    · exact h
  · split
    · split
      · exact h.dropWalk
      · exact h.dropWalk.send
    · exact h

theorem State.Canon.fabAnswered {s : State} {f : FabReq} {ans : PeerAnswer} (h : s.Canon) :
    (s.fabAnswered f ans).Canon := by
  unfold State.fabAnswered
  extract_lets s1
  have hs1 : s1.Canon := h.fabOver
  clear_value s1
  split
  · split
    · exact hs1.reqAnswered
    · exact hs1
  · split
    · exact hs1.opAnswered
    · exact hs1
  · split
    · split
      · exact hs1.opFail.opDone
      · exact hs1
    · exact hs1
  · exact hs1.walkAnswered
  · exact hs1
  · exact hs1
  · exact hs1
  · extract_lets _
    exact hs1.onGroup fun _ h1 => { h1 with }
  · split
    · exact hs1
    · exact hs1.lateFault

theorem State.Canon.flitPassed {s : State} (h : s.Canon) : s.flitPassed.Canon := { h with }

theorem State.Canon.doFabricResponse {tgt seq : Nat} {ans : PeerAnswer} {s : State} (h : s.Canon) :
    (doFabricResponse tgt seq ans s).Canon := by
  unfold Machine.doFabricResponse
  split
  · exact h
  · split
    · exact h.flitPassed.onFab
    · exact h.flitPassed.fabAnswered

theorem State.Canon.execFabricResponse {tgt seq : Nat} {ans : PeerAnswer} {s : State} (h : s.Canon) :
    OutCanon (execFabricResponse tgt seq ans s) :=
  .next h.doFabricResponse

theorem State.Canon.doFabricResend {tgt seq : Nat} {s : State} (h : s.Canon) : (doFabricResend tgt seq s).Canon := by
  unfold Machine.doFabricResend
  split
  · exact h
  · split
    · exact h
    · exact h.redepart

theorem State.Canon.execFabricResend {tgt seq : Nat} {s : State} (h : s.Canon) :
    OutCanon (execFabricResend tgt seq s) :=
  .next h.doFabricResend

theorem State.Canon.recross {s : State} {f : FabReq} (h : s.Canon) : IfSome State.Canon (s.recross f) := by
  unfold State.recross
  extract_lets _
  split
  · split
    · split
      · split
        · exact .some h.fabOver.walkBack
        · exact .none
      · exact .none
    · split
      · split
        · exact .some h.fabOver.dropWalk.send
        · exact .none
      · exact .none
  · exact .none

theorem State.Canon.crossed {s : State} {f : FabReq} (h : s.Canon) : (s.crossed f).Canon := by
  unfold State.crossed
  split
  · extract_lets s1
    have hs1 : s1.Canon := h.onOp fun _ h1 => { h1 with }
    clear_value s1
    exact hs1.onWalk
  · exact h

theorem State.Canon.doFabricRetryResend {tgt seq : Nat} {s : State} (h : s.Canon) :
    (doFabricRetryResend tgt seq s).Canon := by
  unfold Machine.doFabricRetryResend
  split
  · exact h
  · split
    · exact h
    · split
      · rename_i s1 e1
        have hs1 : s1.Canon := h.recross.of_some e1
        exact hs1
      · dsimp only
        exact h.depart.onFab.crossed

theorem State.Canon.execFabricRetryResend {tgt seq : Nat} {s : State} (h : s.Canon) :
    OutCanon (execFabricRetryResend tgt seq s) :=
  .next h.doFabricRetryResend

theorem State.Canon.doFabricNoRouteTimeout {tgt seq : Nat} {s : State} (h : s.Canon) :
    (doFabricNoRouteTimeout tgt seq s).Canon := by
  unfold Machine.doFabricNoRouteTimeout
  split
  · exact h
  · split
    · exact h.log.fabAnswered
    · exact h

theorem State.Canon.execFabricNoRouteTimeout {tgt seq : Nat} {s : State} (h : s.Canon) :
    OutCanon (execFabricNoRouteTimeout tgt seq s) :=
  .next h.doFabricNoRouteTimeout

theorem State.Canon.onPort {s : State} {k : Nat} {f : Port → Port} (h : s.Canon) : (s.onPort k f).Canon := { h with }

theorem State.Canon.doFlitReplay {port : Nat} {s : State} (h : s.Canon) : (doFlitReplay port s).Canon := by
  unfold Machine.doFlitReplay
  split
  · exact h
  · split
    · exact h
    · split
      · exact h.onPort
      · exact h.log.onPort

theorem State.Canon.execFlitReplay {port : Nat} {s : State} (h : s.Canon) : OutCanon (execFlitReplay port s) :=
  .next h.doFlitReplay

theorem State.Canon.doPortRetrainDone {port lanes : Nat} {s : State} (h : s.Canon) :
    (doPortRetrainDone port lanes s).Canon :=
  h.onPort

theorem State.Canon.execPortRetrainDone {port lanes : Nat} {s : State} (h : s.Canon) :
    OutCanon (execPortRetrainDone port lanes s) :=
  .next h.doPortRetrainDone

theorem State.Canon.reqFlit {s : State} {r : Req} (h : s.Canon) : (s.reqFlit r).Canon := by
  unfold State.reqFlit
  extract_lets _ s1
  have hs1 : s1.Canon := h.onReq fun _ h1 => { h1 with }
  clear_value s1
  split
  · exact h
  · split
    · exact h.log.onReq fun _ h1 => { h1 with }
    · exact hs1.charge.machineCheck

theorem State.Canon.opReplay {s : State} {o : Op} (h : s.Canon) : (s.opReplay o).Canon := by
  unfold State.opReplay
  split
  · exact h
  · refine State.Canon.onOp ?_ fun _ h1 => { h1 with }
    split
    · exact h.log
    · exact h

theorem State.Canon.doD2dFlitReplay {id : Nat} {s : State} (h : s.Canon) : (doD2dFlitReplay id s).Canon := by
  unfold Machine.doD2dFlitReplay
  split
  · exact h.reqFlit
  · exact h.opReplay
  · exact h

theorem State.Canon.execD2dFlitReplay {req : Nat} {s : State} (h : s.Canon) : OutCanon (execD2dFlitReplay req s) :=
  .next h.doD2dFlitReplay

theorem State.Canon.hostGets {s : State} {addr size : Nat} {l : LineId} {ofs : Nat} {b : List Byte} {t : Word}
    (h : s.Canon) : (s.hostGets addr size l ofs b t).Canon := by
  unfold State.hostGets
  extract_lets _ s1
  have hs1 : s1.Canon := by
    unfold s1
    split
    · exact h
    · exact { h with mem := { h.mem with } }
  clear_value s1
  exact hs1.send

theorem State.Canon.doHostRead {addr size : Nat} {s : State} (h : s.Canon) : (doHostRead addr size s).Canon := by
  unfold Machine.doHostRead
  extract_lets _
  split
  · exact h.send
  · split
    · exact h.send
    · exact h
    · extract_lets _
      split
      · exact h.send
      · split
        · exact State.Canon.hostGets (h.onLine fun _ h1 => h1)
        · split
          · rename_i s1 e4
            have hs1 : s1.Canon := h.passRows.of_error e4
            exact hs1
          · rename_i a e4
            have ha : a.Canon := h.passRows.of_ok e4
            dsimp only
            exact ha.demandLine.hostGets

theorem State.Canon.execHostRead {addr size : Nat} {s : State} (h : s.Canon) : OutCanon (execHostRead addr size s) :=
  .next h.doHostRead

theorem State.Canon.doHostWrite {addr : Nat} {bytes : List Byte} {poison : Bool} {s : State} (h : s.Canon) :
    (doHostWrite addr bytes poison s).Canon := by
  unfold Machine.doHostWrite
  split
  · exact h
  · refine foldl_keep h fun _ _ h1 => ?_
    split
    split
    · split
      · exact h1.log
      · extract_lets _ _
        exact h1.arrive
    · exact h1

theorem State.Canon.execHostWrite {addr : Nat} {bytes : List Byte} {poison : Bool} {s : State} (h : s.Canon) :
    OutCanon (execHostWrite addr bytes poison s) := by
  unfold Machine.execHostWrite
  refine .next ?_
  split
  · exact h
  · exact h.doHostWrite

theorem State.Canon.doBackInvalidateAnswer {l : LineId} {s : State} (h : s.Canon) :
    (doBackInvalidateAnswer l s).Canon := by
  unfold Machine.doBackInvalidateAnswer
  split
  · exact { h with mem := { h.mem with } }
  · exact h

theorem State.Canon.execBackInvalidateAnswer {line : LineId} {s : State} (h : s.Canon) :
    OutCanon (execBackInvalidateAnswer line s) :=
  .next h.doBackInvalidateAnswer

section
variable {α : Type} [DecidableEq α] {d : α} {m : SMap α}

theorem swf_iff : swf d m = true ↔ m.Pairwise (fun x y => x.1 < y.1) ∧ ∀ x ∈ m, x.2 ≠ d := by
  induction m with
  | nil => simp [swf]
  | cons x m ih => rw [swf_cons, ih, List.pairwise_cons, List.forall_mem_cons]; tauto

/-- Changed values keep their places; the defaults among them are left out. -/
theorem swf_map_filter {f : Nat × α → α} (h : swf d m = true) :
    swf d ((m.map fun x => (x.1, f x)).filter fun x => x.2 ≠ d) = true := by
  have hm : (m.map fun x => (x.1, f x)).Pairwise fun x y => x.1 < y.1 := List.pairwise_map.2 (swf_iff.1 h).1
  refine swf_iff.2 ⟨hm.filter _, fun x hx => ?_⟩
  simpa using (List.mem_filter.1 hx).2
end

theorem swf_bootExtents {r : DevRecord} : swf Extent.reset (bootExtents r) = true := by
  have key : ∀ i x, (if (⟨bootClass r (i / 256) (i % 256), false⟩ : Extent) = Extent.reset then none
      else some (i, ⟨bootClass r (i / 256) (i % 256), false⟩)) = some x → x.1 = i ∧ x.2 ≠ Extent.reset := by
    intro i x e
    split at e
    · cases e
    · cases e
      exact ⟨rfl, ‹_›⟩
  refine swf_iff.2 ⟨List.pairwise_lt_range.filterMap _ fun i j hij x hx y hy => ?_, fun x hx => ?_⟩
  · rw [(key i x hx).1, (key j y hy).1]
    exact hij
  · obtain ⟨i, -, hi⟩ := List.mem_filterMap.1 hx
    exact (key i x hi).2

theorem Yuren.Canon.afterReset {y : Yuren} {kind : Nat} (hy : y.Canon) : (y.afterReset kind).Canon := { hy with }

theorem State.Canon.afterReset {s : State} {kind : Nat} (h : s.Canon) : (s.afterReset kind).Canon where
  mem := ⟨swf_empty, List.forall_mem_nil _, swf_empty⟩
  cores := ⟨swf_empty, swf_empty, swf_empty, swf_empty, swf_empty, List.forall_mem_nil _, swf_empty⟩
  groups := List.forall_mem_nil _
  pos := h.pos
  eng := ⟨List.forall_mem_nil _, List.forall_mem_nil _⟩
  ctxs := swf_empty
  rel := ⟨swf_empty, swf_empty⟩
  teams := List.forall_mem_nil _
  drays := ⟨swf_empty, List.forall_mem_nil _, swf_empty, swf_empty⟩
  slots := swf_empty
  grids := List.forall_mem_nil _
  yuren := h.yuren.afterReset

theorem State.Canon.execColdReset {s : State} (h : s.Canon) : OutCanon (execColdReset s) := .next h.afterReset

theorem State.Canon.doPackageReset {s : State} (h : s.Canon) : (doPackageReset s).Canon := by
  unfold Machine.doPackageReset
  extract_lets r
  have hr : r.Canon := h.afterReset
  clear_value r
  exact { hr with
    mem := { hr.mem with raw := h.mem.raw }
    rel := { hr.rel with ext := h.rel.ext }
    ctxs := swf_map_filter h.ctxs }

theorem State.Canon.execPackageReset {s : State} (h : s.Canon) : OutCanon (execPackageReset s) :=
  .next h.doPackageReset

theorem Yuren.Canon.stop {y : Yuren} {stage err : Nat} (hy : y.Canon) : (y.stop stage err).Canon := { hy with }

theorem Yuren.Canon.bootStage1 {y : Yuren} {img : BootImages} (hy : y.Canon) : (bootStage1 y img).Canon := by
  unfold Machine.bootStage1
  extract_lets a b run
  have hrun : ∀ x c, (run x c).Canon := fun _ _ => { hy with }
  clear_value run
  split
  · exact hrun _ _
  split
  · exact hrun _ _
  · exact { hy with }

theorem Yuren.Canon.bootStage2 {y : Yuren} {img : BootImages} (hy : y.Canon) : (bootStage2 y img).Canon := by
  unfold Machine.bootStage2
  split
  · exact hy
  extract_lets r bad
  clear_value r bad
  split
  · exact ⟨hy.mboxBuf⟩
  generalize (img.die :: img.dispatcher :: baseImages img).findSome? _ = o
  cases o with
  | none => exact ⟨hy.mboxBuf⟩
  | some e => exact ⟨hy.mboxBuf⟩

theorem Yuren.Canon.bootStage3 {y : Yuren} {img : BootImages} (hy : y.Canon) : (bootStage3 y img).Canon := by
  unfold Machine.bootStage3
  split
  · exact hy
  · split
    · exact hy.stop
    · split
      · exact hy.stop
      · exact { hy with }

theorem State.Canon.bootDecoder {s : State} (h : s.Canon) : s.bootDecoder.Canon := { h with slots := swf_set swf_empty }

/-- The stacks are cleared and their extents set. -/
theorem State.Canon.withExtents {s : State} {m : SMap Extent} (h : s.Canon) (hm : swf Extent.reset m = true) :
    ({ s with mem := { s.mem with raw := [] }, rel := { s.rel with ext := m } } : State).Canon :=
  { h with mem := { h.mem with raw := swf_empty }, rel := { h.rel with ext := hm } }

theorem State.Canon.bootCold {s : State} (h : s.Canon) : s.bootCold.Canon := by
  unfold State.bootCold
  extract_lets r _ _ s1 s2 s3 s4 s5 s6
  have hs1 : s1.Canon := h.withExtents swf_bootExtents
  clear_value s1
  have hs2 : s2.Canon := hs1.bootDecoder
  clear_value s2
  have hs3 : s3.Canon := hs2.devWrite
  clear_value s3
  have hs4 : s4.Canon := hs3.devWrite
  clear_value s4
  have hs5 : s5.Canon := hs4.devPut
  clear_value s5
  have hs6 : s6.Canon := hs5.devWrite
  clear_value s6
  generalize emptyCtx.ofBytes bootContextBytes = x
  exact { hs6 with ctxs := swf_set swf_empty }

theorem State.Canon.loadExtents {s : State} (h : s.Canon) : s.loadExtents.Canon := by
  unfold State.loadExtents
  refine foldl_keep h fun s i h1 => ?_
  generalize s.devRead _ _ = p
  obtain ⟨b, t⟩ := p
  dsimp only
  split
  · exact h1
  · refine foldl_keep h1 fun s j h2 => ?_
    exact h2.onExtent

/-- The registers of the fabric are free. -/
theorem State.Canon.withFab {s : State} {x : Fab} (h : s.Canon) : ({ s with fab := x } : State).Canon := { h with }

theorem State.Canon.bootKept {s : State} (h : s.Canon) : s.bootKept.Canon := by
  -- an equation between functions: unfolding under a state, the kernel would evaluate the read of 2048 bytes
  suffices key : ∀ f, f = State.bootKept → (f s).Canon from key _ rfl
  unfold State.bootKept
  rintro _ rfl
  beta_reduce
  extract_lets s1 s2 s3 f s4
  have hs1 : s1.Canon := h.bootDecoder
  clear_value s1
  have hs2 : s2.Canon := hs1.loadSlots.loadBlock.loadRel.loadExtents
  clear_value s2
  have hs3 : s3.Canon := by
    refine foldl_keep hs2 fun s n h1 => ?_
    generalize s.devRead _ _ = p
    obtain ⟨b, t⟩ := p
    dsimp only
    split
    · exact h1
    · exact h1.onCtx
  clear_value s3
  have hs4 : s4.Canon := hs3.devPut.devPut
  clear_value s4 f
  generalize s4.devRead _ _ = p
  obtain ⟨b, t⟩ := p
  dsimp only
  split
  · exact hs4
  · exact hs4.withFab

theorem State.Canon.doBringUp {img : BootImages} {s : State} (h : s.Canon) : (doBringUp img s).Canon := by
  unfold Machine.doBringUp
  split
  · exact h
  · extract_lets y s1 t _
    have hy : y.Canon := h.yuren.bootStage1.bootStage2.bootStage3
    clear_value y
    have hs1 : s1.Canon := { h with yuren := hy }
    clear_value s1
    have ht : t.Canon := by
      unfold t
      split
      · exact hs1.bootCold
      · exact hs1.bootKept
    clear_value t
    split
    · exact hs1
    · exact { ht with mem := { ht.mem with }, yuren := { hy with } }

theorem State.Canon.execBringUp {img : BootImages} {s : State} (h : s.Canon) : OutCanon (execBringUp img s) :=
  .next h.doBringUp

theorem State.Canon.mboxStart {s : State} {x : Word} (h : s.Canon) : (s.mboxStart x).Canon := by
  unfold State.mboxStart
  split
  · exact h
  · split
    · exact State.Canon.push { h with yuren := { h.yuren with } }
    · exact { h with yuren := { h.yuren with } }

theorem State.Canon.doRegisterWrite {off : Nat} {x : Word} {s : State} (h : s.Canon) :
    (doRegisterWrite off x s).Canon := by
  unfold Machine.doRegisterWrite
  split
  · split
    · exact h.push
    · split
      · exact h.push
      · exact h
  · split
    · exact h.mboxStart
    · split
      · split
        · exact { h with yuren := { h.yuren with } }
        · exact h
      · split
        · exact { h with yuren := { mboxBuf := swf_fold h.yuren.mboxBuf fun _ _ h1 => swf_set h1 } }
        · exact h

theorem State.Canon.execRegisterWrite {offset : Nat} {value : Word} {s : State} (h : s.Canon) :
    OutCanon (execRegisterWrite offset value s) :=
  .next h.doRegisterWrite

theorem Yuren.Canon.answer {y : Yuren} {b : List Byte} : (y.answer b).Canon := by
  unfold Machine.Yuren.answer
  extract_lets _
  refine { mboxBuf := swf_fold swf_empty fun _ _ h => ?_ }
  dsimp only
  exact swf_set h

theorem State.Canon.onMbox {s : State} {cmd : Nat} {f : Yuren → Yuren} (h : s.Canon) (hf : ∀ y, y.Canon → (f y).Canon)
    : (s.onMbox cmd f).Canon := by
  unfold State.onMbox
  extract_lets y
  have hy : y.Canon := h.yuren
  clear_value y
  split
  · exact { h with yuren := hf _ hy }
  · exact h

theorem Yuren.Canon.updateWork {y : Yuren} (hy : y.Canon) : (updateWork y).Canon := by
  unfold Machine.updateWork
  extract_lets _ y1
  have hy1 : y1.Canon := { hy with }
  clear_value y1
  split
  · exact { hy with }
  · split
    · exact { hy1 with }
    · split <;> exact { hy1 with }

theorem State.Canon.execMboxUpdate {s : State} (h : s.Canon) : OutCanon (execMboxUpdate s) :=
  .next (h.onMbox fun _ h1 => h1.updateWork)

theorem State.Canon.execMboxFloor {s : State} (h : s.Canon) : OutCanon (execMboxFloor s) :=
  .next (h.onMbox fun _ h1 => { h1 with })

theorem Yuren.Canon.quoted {y : Yuren} {n : Option Nat} (hy : y.Canon) : ({ y with quotedAt := n } : Yuren).Canon := ⟨hy.mboxBuf⟩

theorem State.Canon.execQuote {s : State} (h : s.Canon) : OutCanon (execQuote s) := by
  unfold Machine.execQuote
  refine .next (h.onMbox fun y h1 => ?_)
  split
  · exact { h1 with }
  split
  · exact h1
  · exact Yuren.Canon.answer.quoted

theorem State.Canon.execAliasCert {s : State} (h : s.Canon) : OutCanon (execAliasCert s) := by
  unfold Machine.execAliasCert
  refine .next (h.onMbox fun _ h1 => ?_)
  split
  · exact { h1 with }
  · exact Yuren.Canon.answer

theorem State.Canon.execDikcert {s : State} (h : s.Canon) : OutCanon (execDikcert s) := by
  unfold Machine.execDikcert
  refine .next (h.onMbox fun _ h1 => ?_)
  split
  · exact { h1 with }
  · exact Yuren.Canon.answer

theorem State.Canon.execIdekey {s : State} (h : s.Canon) : OutCanon (execIdekey s) := by
  unfold Machine.execIdekey
  refine .next (h.onMbox fun _ h1 => ?_)
  split <;> exact { h1 with }

theorem State.Canon.doMboxCommandDone {s : State} (h : s.Canon) : (doMboxCommandDone s).Canon := by
  unfold Machine.doMboxCommandDone
  extract_lets y
  have hy : y.Canon := h.yuren
  clear_value y
  split
  · exact { h with yuren := { hy with } }
  · exact h

theorem State.Canon.execMboxCommandDone {s : State} (h : s.Canon) : OutCanon (execMboxCommandDone s) :=
  .next h.doMboxCommandDone

end Sys2Proof.Machine
end

