-- ==== Sys2Proof/Proofs/CanonIssue.lean ====
section
/-! SUPPORT. The canonical form is kept: issue, outriders and the repetition. -/

namespace Sys2Proof.Machine

theorem Group.Canon.enqueue {N : Nat} {g : Group} {e : OutEntry} (hg : g.Canon N) : Group.Canon N (g.enqueue e) :=
  { hg with outrider := forall_mem_optionMap hg.outrider fun _ h => { h with } }

theorem State.Canon.outQueue {s : State} {before : Group} {i : Instr} (h : s.Canon) :
    (s.outQueue before i).Canon := by
  unfold State.outQueue
  extract_lets _
  exact h.onGroup fun _ h1 => h1.enqueue

theorem State.Canon.holdWord {s : State} {g : Group} {i : Instr} (h : s.Canon) : (s.holdWord g i).Canon := by
  unfold State.holdWord
  refine h.onGroup fun _ h1 => Group.Canon.enqueue ?_
  extract_lets _
  exact { h1.setWait with }

theorem State.Canon.leadQueue {s : State} {before : Group} {i : Instr} {again : Bool} (h : s.Canon) :
    (s.leadQueue before i again).Canon := by
  unfold State.leadQueue
  refine h.onGroup fun _ h1 => ?_
  split
  · exact { h1 with outrider := forall_mem_optionMap h1.outrider fun _ h2 => { h2 with } }
  · exact h1.enqueue

theorem Group.Canon.outHead {N : Nat} {g : Group} (hg : g.Canon N) : IfSome (fun a => a.1.Canon) g.outHead := by
  unfold Group.outHead
  cases e : g.outrider with
  | none => exact .none
  | some o =>
    dsimp only [Option.bind_some]
    split
    · split
      · exact .some (hg.outrider o e)
      · exact .none
    · exact .none

theorem Group.Canon.shadowGroup {N : Nat} {g : Group} {o : Outrider} {e : OutEntry} (hg : g.Canon N) (ho : o.Canon) :
    Group.Canon N (shadowGroup g o e) := by
  unfold Machine.shadowGroup
  extract_lets g'
  have hg' : g'.Canon N := hg.mapLanes
  clear_value g'
  exact { hg' with v := ho.v, s := ho.s, p := ho.p, outrider := nofun }

theorem State.Canon.shadow {s : State} {g : Group} {o : Outrider} {e : OutEntry} (h : s.Canon) (hg : g.Canon s.nextId)
    (ho : o.Canon) : (s.shadow g o e).Canon :=
  { h.onGroup (k := g.gid) fun _ _ => hg.shadowGroup (e := e) ho with }

theorem State.Canon.mismatch {s : State} {g : Group} (h : s.Canon) : (s.mismatch g).Canon := by
  unfold State.mismatch
  extract_lets _ s1 s2
  have hs1 : s1.Canon := by
    unfold s1
    refine h.onGroup fun _ h1 => ?_
    extract_lets _ _
    exact { h1.setWait with outrider := forall_mem_optionMap h1.outrider fun _ h2 => { h2 with } }
  clear_value s1
  have hs2 : s2.Canon := by
    unfold s2
    split
    · dsimp only
      exact State.Canon.takeTrap (hs1.onGroup fun _ h1 => { h1 with })
    · exact hs1.raiseImprecise
  clear_value s2
  exact hs2.charge.log

theorem Group.Canon.outReg {N : Nat} {g : Group} {o : Outrider} (hg : g.Canon N) (ho : o.Canon) :
    Group.Canon N (outReg g o) :=
  { hg with v := ho.v, s := ho.s, p := ho.p }

theorem Outrider.Canon.next {N : Nat} {o : Outrider} {x : Group} {rest : List OutEntry} (hx : x.Canon N) :
    (o.next x rest).Canon :=
  { v := hx.v, s := hx.s, p := hx.p }

/-- Another outrider takes a group's place. -/
theorem Group.Canon.withOutrider {N : Nat} {g : Group} {o : Outrider} (hg : g.Canon N) (ho : o.Canon) :
    ({ g with outrider := some o } : Group).Canon N :=
  { hg with outrider := fun _ e => Option.some.inj e ▸ ho }

theorem State.Canon.outriderDone {s t : State} {gid : Nat} {e : OutEntry} (h : s.Canon) (ht : t.Canon) :
    (s.outriderDone t gid e).Canon := by
  unfold State.outriderDone
  split
  · next g x _ hx =>
    extract_lets agree rest
    split
    · exact h.onGroup fun y hy => { hy with outrider := forall_mem_optionMap hy.outrider fun o _ => .next (ht.group? hx) }
    · exact h.mismatch
  · exact h

theorem State.Canon.outriderTakes {s : State} {g : Group} {o : Outrider} {e : OutEntry} {rest : List OutEntry} (h : s.Canon)
    (hg : g.Canon s.nextId) (ho : o.Canon) : (s.outriderTakes g o e rest).Canon := by
  unfold State.outriderTakes
  split
  · extract_lets out pend src o'
    have hx : ((outReg g o).putVals e.took).Canon s.nextId := (hg.outReg ho).putVals
    have ho' : o'.Canon := ⟨hx.v, hx.s, hx.p⟩
    exact h.onGroup fun y hy => hy.withOutrider ho'
  · exact h.mismatch

theorem Group.Canon.takeWritten {N : Nat} {before g : Group} {i : Instr} {lanes : Word} (hg : g.Canon N) :
    Group.Canon N (takeWritten before g i lanes) :=
  { hg with
    outrider := forall_mem_optionMap hg.outrider fun _ ho =>
      have hx := (hg.outReg ho).putVals
      ⟨hx.v, hx.s, hx.p⟩ }

theorem State.Canon.testTurn {s : State} {h : Group} (hs : s.Canon) : (s.testTurn h).Canon := by
  unfold State.testTurn
  extract_lets s1 s2 _ s3
  have hs1 : s1.Canon := by
    unfold s1
    split
    · exact hs.onGroup fun _ h1 => h1.testGates
    · exact hs
  clear_value s1
  have hs2 : s2.Canon := by
    unfold s2
    split
    · split
      · exact hs1.acqGrant
      · exact hs1
    · exact hs1
  clear_value s2
  have hs3 : s3.Canon := foldl_keep hs2 fun _ _ h1 => State.Canon.doFencePerformed
    (State.Canon.doLockGrant { h1 with })
  clear_value s3
  exact { hs3 with }

theorem State.Canon.testTurns {s : State} {l : List Group} (h : s.Canon) : (s.testTurns l).Canon := by
  induction l generalizing s with
  | nil =>
    unfold State.testTurns
    exact h
  | cons _ _ ih =>
    unfold State.testTurns
    extract_lets s1
    have hs1 : s1.Canon := h.testTurn
    clear_value s1
    split
    · exact hs1
    · exact ih hs1

theorem State.Canon.serialTurns {s : State} (h : s.Canon) : s.serialTurns.Canon := by
  unfold State.serialTurns
  refine foldl_keep h fun _ _ h1 => ?_
  split
  · exact h1.testTurns
  · exact h1

theorem State.Canon.countIssue {s : State} {key slot : Nat} {g : Group} {i : Option Instr} {lanes : Word}
    {rep promoted : Bool} (h : s.Canon) : (s.countIssue key slot g i lanes rep promoted).Canon := by
  unfold State.countIssue
  extract_lets n _ _ s1 s2 s3 s4 s5
  have hs1 : s1.Canon := by
    unfold s1
    unfold n
    split
    · exact h
    · exact h.countEvent
  clear_value s1
  have hs2 : s2.Canon := by
    unfold s2
    unfold n
    split
    · exact hs1
    · exact hs1.countEvent
  clear_value s2
  have hs3 : s3.Canon := by
    unfold s3
    unfold n
    split
    · exact hs2
    · exact hs2.countEvent
  clear_value s3
  have hs4 : s4.Canon := by
    unfold s4
    unfold n
    split
    · exact hs3
    · exact hs3.countEvent
  clear_value s4
  have hs5 : s5.Canon := by
    unfold s5
    unfold n
    split
    · exact hs4
    · exact hs4.countEvent
  clear_value s5
  unfold n
  split
  · exact hs5
  · exact hs5.countEvent

theorem Side.Canon.take {d : Side} {g : Group} {slot : Nat} {i : Instr} {act : Word} (hd : d.Canon) :
    (d.take g slot i act).Canon := by
  unfold Side.take
  extract_lets x t c d1 fma d2 d3 d4
  clear_value x t c
  have h1 : d1.Canon := by
    unfold d1
    split
    · exact { hd with }
    · exact hd
  clear_value d1
  have hf : ∀ d, d.Canon → (fma d).Canon := by
    intro d h
    unfold fma
    split <;> exact { h with }
  clear_value fma
  have h2 : d2.Canon := by
    unfold d2
    split
    · exact h1
    · split
      · exact hf _ h1
      · exact hf _ (hf _ h1)
  clear_value d2
  have h3 : d3.Canon := by
    unfold d3
    split
    · exact { h2 with }
    · exact h2
  clear_value d3
  have h4 : d4.Canon := by
    unfold d4
    split
    · exact { h3 with }
    · exact h3
  clear_value d4
  split
  · exact h4
  · exact { h4 with }

theorem State.Canon.takeWord {s : State} {key : Nat} {g : Group} {p : Pick} (h : s.Canon) :
    (s.takeWord key g p).Canon := by
  unfold State.takeWord
  extract_lets _ s1 _
  have hs1 : s1.Canon := h.countIssue
  clear_value s1
  split
  · exact hs1
  · extract_lets _
    exact State.Canon.onGroup (hs1.onSide fun _ h1 => h1.take) fun _ h1 => { h1 with }

theorem State.Canon.takeEntry {s : State} {key slot : Nat} {g : Group} {o : Outrider} {e : OutEntry} (h : s.Canon) :
    (s.takeEntry key slot g o e).Canon := by
  unfold State.takeEntry
  extract_lets _ _ _ s1
  have hs1 : s1.Canon := h.countIssue.countEvent
  clear_value s1
  refine State.Canon.onGroup (hs1.onSide fun _ h1 => ?_) fun _ h1 => { h1 with
      outrider := forall_mem_optionMap h1.outrider fun _ h2 => { h2 with } }
  extract_lets _
  exact { h1.take with }

theorem Group.Canon.passOver {N : Nat} {g : Group} {ready issued : List Pick} (hg : g.Canon N) :
    Group.Canon N (passOver g ready issued) := by
  unfold Machine.passOver
  extract_lets _
  refine foldl_keep hg.mapLanes fun _ _ h => ?_
  split
  · exact h
  · extract_lets _
    exact h.mapLanes

theorem State.Canon.issueChoice {s : State} {key slot : Nat} {ch : Choice} (h : s.Canon) :
    (s.issueChoice key slot ch).Canon := by
  unfold State.issueChoice
  split
  · exact h
  · extract_lets s1 _ s2 s3 s4 s5 s6
    have hs1 : s1.Canon := h.countEvent
    clear_value s1
    have hs2 : s2.Canon := by
      unfold s2
      split
      · exact hs1.countEvent
      · exact hs1
    clear_value s2
    have hs3 : s3.Canon := by
      unfold s3
      split
      · exact hs2.countEvent
      · exact hs2
    clear_value s3
    have hs4 : s4.Canon := foldl_keep hs3 fun _ _ h1 => h1.takeWord
    clear_value s4
    have hs5 : s5.Canon := hs4.onSide fun _ h1 => { h1 with }
    clear_value s5
    have hs6 : s6.Canon := hs5.onGroup fun _ h1 => h1.passOver
    clear_value s6
    split
    · exact hs1.takeEntry.push
    · exact hs1
    · exact hs6.push

theorem State.Canon.idleCycle {s : State} {key : Nat} {gs : List Group} (h : s.Canon) :
    (s.idleCycle key gs).Canon := by
  unfold State.idleCycle
  extract_lets _ s1
  have hs1 : s1.Canon := h.onSide fun _ h1 => { h1 with }
  clear_value s1
  split
  · exact h.countEvent.countEvent
  · split
    · exact hs1.countEvent.countEvent
    · exact hs1

theorem State.Canon.applyDue {s : State} (h : s.Canon) : s.applyDue.Canon := by
  unfold State.applyDue
  refine foldl_keep h fun _ _ h1 => ?_
  split
  · exact h1.applyLogged
  · exact h1

theorem State.Canon.attend {s : State} {g : Group} (h : s.Canon) : (s.attend g).Canon :=
  State.Canon.tryResume (State.Canon.wakeDrop (State.Canon.sendDue (foldl_keep h fun _ _ h1 => h1.clearPeers)))

theorem State.Canon.doSideIssueCycle {key : Nat} {s : State} (h : s.Canon) : (doSideIssueCycle key s).Canon := by
  unfold Machine.doSideIssueCycle
  extract_lets s1 s2 s3 _
  have hs1 : s1.Canon := h.onSide fun _ h1 => { h1 with }
  clear_value s1
  have hs2 : s2.Canon := hs1.finishInvals.applyDue.serialTurns.countEvent
  clear_value s2
  have hs3 : s3.Canon := foldl_keep hs2 fun _ _ h1 => h1.attend
  clear_value s3
  split
  · exact State.Canon.countEvent (hs3.onSide fun _ h1 => { h1 with })
  · split
    · exact hs3.idleCycle
    · split
      · exact hs3.issueChoice
      · exact hs3.idleCycle

theorem State.Canon.execSideIssueCycle {side : Nat} {s : State} (h : s.Canon) :
    OutCanon (execSideIssueCycle side s) :=
  .next h.doSideIssueCycle

theorem Group.Canon.shflBody {N : Nat} {m : ShflMode} {o : RForm} {g : Group} {act : Word} (hg : g.Canon N) :
    Group.Canon N (shflBody m o g act) := by
  unfold Machine.shflBody
  extract_lets _
  refine eachLane_keeps _ hg fun _ _ _ _ h2 => ?_
  extract_lets _ _ _
  exact h2.wrVs

theorem State.Canon.execShfl {m : ShflMode} {o : RForm} {s : State} (h : s.Canon) : OutCanon (execShfl m o s) :=
  h.execRegs fun _ _ h1 => h1.shflBody

theorem Group.Canon.voteBody {N : Nat} {isAnd : Bool} {o : RForm} {g : Group} {act : Word} (hg : g.Canon N) :
    Group.Canon N (voteBody isAnd o g act) := by
  unfold Machine.voteBody
  extract_lets _ _ _
  exact eachLane_keeps _ hg fun _ _ _ _ h2 => h2.wrPBit

theorem State.Canon.execVoteOr {o : RForm} {s : State} (h : s.Canon) : OutCanon (execVoteOr o s) :=
  h.execRegs fun _ _ h1 => h1.voteBody

theorem State.Canon.execVoteAnd {o : RForm} {s : State} (h : s.Canon) : OutCanon (execVoteAnd o s) :=
  h.execRegs fun _ _ h1 => h1.voteBody

theorem State.Canon.execVoteMask {o : RForm} {s : State} (h : s.Canon) : OutCanon (execVoteMask o s) := by
  unfold Machine.execVoteMask
  refine h.execRegs fun _ _ h1 => ?_
  extract_lets _
  exact h1.wrS

theorem Group.Canon.matchBody {N : Nat} {same : Bool} {o : RForm} {g : Group} {act : Word} (hg : g.Canon N) :
    Group.Canon N (matchBody same o g act) := by
  unfold Machine.matchBody
  extract_lets _ _ _ _
  refine eachLane_keeps _ hg fun _ _ _ _ h2 => ?_
  extract_lets _
  exact h2.wrVs

theorem State.Canon.execMatchPeers {o : RForm} {s : State} (h : s.Canon) : OutCanon (execMatchPeers o s) :=
  h.execRegs fun _ _ h1 => h1.matchBody

theorem State.Canon.execMatchSame {o : RForm} {s : State} (h : s.Canon) : OutCanon (execMatchSame o s) :=
  h.execRegs fun _ _ h1 => h1.matchBody

theorem Group.Canon.scanBody {N : Nat} {op : ScanOp} {o : RForm} {g : Group} {act : Word} (hg : g.Canon N) :
    Group.Canon N (scanBody op o g act) := by
  unfold Machine.scanBody
  extract_lets _ _ _ _ _
  split
  refine Group.Canon.orFlags (eachLane_keeps _ hg fun _ _ _ _ h2 => ?_)
  extract_lets _
  exact h2.wrVs

theorem State.Canon.execScan {op : ScanOp} {o : RForm} {s : State} (h : s.Canon) : OutCanon (execScan op o s) :=
  h.execRegs fun _ _ h1 => h1.scanBody

theorem Group.Canon.pairBody {N : Nat} {x y : Slot} {g : Group} {act : Word} (hg : g.Canon N) :
    Group.Canon N (pairBody x y g act) := by
  unfold Machine.pairBody
  refine eachLane_keeps _ hg fun _ _ _ _ h2 => ?_
  dsimp only
  exact h2.wrVs.wrVs.orFlags

theorem State.Canon.execPairWord {x y : Slot} {s : State} (h : s.Canon) : OutCanon (execPairWord x y s) :=
  h.execRegs fun _ _ h1 => h1.pairBody

theorem State.Canon.runWord {i : Instr} {s : State} (h : s.Canon) : OutCanon (runWord i s) := by
  unfold Machine.runWord
  split
  · exact h.execAdd
  · exact h.execSub
  · exact h.execAddc
  · exact h.execSubc
  · exact h.execNeg
  · exact h.execAbs
  · exact h.execAddImm
  · exact h.execSubImm
  · exact h.execAndImm
  · exact h.execOrImm
  · exact h.execXorImm
  · exact h.execMinImm
  · exact h.execMaxImm
  · exact h.execMovImm
  · exact h.execMovI64Imm
  · exact h.execMul
  · exact h.execMulHi
  · exact h.execMulWide
  · exact h.execMad
  · exact h.execMadHi
  · exact h.execMadWide
  · exact h.execMin
  · exact h.execMax
  · exact h.execAnd
  · exact h.execOr
  · exact h.execXor
  · exact h.execNot
  · exact h.execAndn
  · exact h.execOrn
  · exact h.execXnor
  · exact h.execShl
  · exact h.execShr
  · exact h.execSar
  · exact h.execRol
  · exact h.execRor
  · exact h.execBfe
  · exact h.execBfi
  · exact h.execPopc
  · exact h.execClz
  · exact h.execBrev
  · exact h.execIcmpp
  · exact h.execSel
  · exact h.execMov
  · exact h.execMovI64
  · exact h.execLea
  · exact h.execLeaN
  · exact h.execLeaS
  · exact h.execDot4
  · exact h.execUniformForm
  · exact h.execPand
  · exact h.execPor
  · exact h.execPxor
  · exact h.execPandn
  · exact h.execPorn
  · exact h.execPnot
  · exact h.execPmov
  · exact h.execP2s
  · exact h.execS2p
  · exact h.execShfl
  · exact h.execVoteOr
  · exact h.execVoteAnd
  · exact h.execVoteMask
  · exact h.execMatchPeers
  · exact h.execMatchSame
  · exact h.execScan
  · exact h.execFadd
  · exact h.execFsub
  · exact h.execFmul
  · exact h.execFfma
  · exact h.execFfms
  · exact h.execFfnma
  · exact h.execFmin
  · exact h.execFmax
  · exact h.execFcmpp
  · exact h.execFclass
  · exact h.execCvt
  · exact h.execPadd
  · exact h.execPmul
  · exact h.execPfma
  · exact h.execPmin
  · exact h.execPmax
  · exact h.execFseed
  · exact h.execFrred
  · exact h.execFscale
  · exact h.execFexp
  · exact h.execFmant
  · exact h.execCvtblk
  · exact h.execLd
  · exact h.execSt
  · exact h.execLdu
  · exact h.execPrefetchL1
  · exact h.execPrefetchDep
  · exact h.execAtom
  · exact h.execRed
  · exact h.execCas
  · exact h.execGateInit
  · exact h.execGateExpect
  · exact h.execGateArrive
  · exact h.execGatePeek
  · exact h.execGateWait
  · exact h.execGateWaitLim
  · exact h.execLock
  · exact h.execUnlock
  · exact h.execBarrier
  · exact h.execAcqBlk
  · exact h.execAcqOpt
  · exact h.execAcqAcc
  · exact h.execRelBlk
  · exact h.execRelOpt
  · exact h.execRelAcc
  · exact h.execClean
  · exact h.execInval
  · exact h.execFenceAcq
  · exact h.execFenceRel
  · exact h.execFenceAr
  · exact h.execFenceSc
  · exact h.execMswitchBank
  · exact h.execMswitchCtl
  · exact h.execTld
  · exact h.execTst
  · exact h.execTzero
  · exact h.execMma
  · exact h.execMmag
  · exact h.execTmask
  · exact h.execTdrain
  · exact h.execTdrainAdd
  · exact h.execTdrainAddSplit
  · exact h.execTcvt
  · exact h.execCpyIn
  · exact h.execCpyOut
  · exact h.execTdesc
  · exact h.execTdescAlias
  · exact h.execMrs
  · exact h.execRst
  · exact h.execWbl
  · exact h.execWblAcq
  · exact h.execRedx
  · exact h.execImxLoad
  · exact h.execImxVec
  · exact h.execImxRun
  · exact h.execImxBcast
  · exact h.execImxCollect
  · exact h.execImxStat
  · exact h.execGrid
  all_goals exact .next h

theorem State.Canon.execRepetition {s : State} (h : s.Canon) : OutCanon (execRepetition s) := by
  unfold Machine.execRepetition
  split
  · exact .fault
  · split
    · exact h.runWord
    · exact .next h.raise
    · exact .next h.raise
    · exact .next h

end Sys2Proof.Machine
end

