-- ==== Sys2Proof/Proofs/CanonStep.lean ====
section
/-! SUPPORT. The canonical form is kept: the instructions, the turns and the step. -/

namespace Sys2Proof.Machine

/-- Every instruction keeps the canonical form. -/
theorem State.Canon.exec {i : Instr} {s : State} (h : s.Canon) : OutCanon (exec i s) := by
  unfold Machine.exec
  split
  exacts [h.execSideIssueCycle, h.execLoadReturn, h.execIcacheFill, h.execPageWalkComplete, h.execStoreAtHome,
    h.execHeldWriteApply, h.execHomeAtomic, h.execDepotFill, h.execLineMaintenance, h.execStackPortRequest,
    h.execHoldQueueRelease, h.execMswitchApply, h.execRowsControllerOwned, h.execEngineOpComplete,
    h.execCopyGranuleWritten, h.execLockRequest, h.execUnlockRequest, h.execAcqGrant, h.execDrayLaunch,
    h.execDrayOperationStart, h.execBcastStep, h.execPowerEvaluation, h.execCoreEligibilitySample, h.execFrameRetry,
    h.execImpreciseTrapTaken, h.execScrubVisit, h.execRowStrengthen, h.execExtentClassWrite, h.execExtentFormatDone,
    h.execTranslationBlockReload, h.execContextRecordWrite, h.execFabricRequestReceive, h.execFabricResponse,
    h.execFabricResend, h.execFabricRetryResend, h.execFabricNoRouteTimeout, h.execFlitReplay, h.execPortRetrainDone,
    h.execD2dFlitReplay, h.execWaybillHop, h.execWaybillReturn, h.execWalkTimeout, h.execRstFlagAdd,
    h.execRedxCommandApply, h.execMarshalSectorWrite, h.execPeerLockRelease, h.execHostRead, h.execHostWrite,
    h.execBackInvalidateAnswer, h.execAtsInvalidate, h.execPageResponse, h.execPageRequestTimeout, h.execPostBoxTake,
    h.execReplayDivergence, h.execBringUp, h.execRegisterWrite, h.execPairWord, h.execRep, h.execBra, h.execCall,
    h.execBrx, h.execRet, h.execExit, h.execYield, h.execYieldW, h.execWaitc, h.execPpoint, h.execRgn, h.execRgnEnd,
    h.execBrk, h.execTrap, h.execAdd, h.execSub, h.execAddc, h.execSubc, h.execNeg, h.execAbs, h.execAddImm,
    h.execSubImm, h.execAndImm, h.execOrImm, h.execXorImm, h.execMinImm, h.execMaxImm, h.execMovImm, h.execMovI64Imm,
    h.execMul, h.execMulHi, h.execMulWide, h.execMad, h.execMadHi, h.execMadWide, h.execMin, h.execMax, h.execAnd,
    h.execOr, h.execXor, h.execNot, h.execAndn, h.execOrn, h.execXnor, h.execShl, h.execShr, h.execSar, h.execRol,
    h.execRor, h.execBfe, h.execBfi, h.execPopc, h.execClz, h.execBrev, h.execIcmpp, h.execSel, h.execMov,
    h.execMovI64, h.execLea, h.execLeaN, h.execLeaS, h.execDot4, h.execUniformForm, h.execPand, h.execPor,
    h.execPxor, h.execPandn, h.execPorn, h.execPnot, h.execPmov, h.execP2s, h.execS2p, h.execShfl, h.execVoteOr,
    h.execVoteAnd, h.execVoteMask, h.execMatchPeers, h.execMatchSame, h.execScan, h.execFadd, h.execFsub, h.execFmul,
    h.execFfma, h.execFfms, h.execFfnma, h.execFmin, h.execFmax, h.execFcmpp, h.execFclass, h.execCvt, h.execPadd,
    h.execPmul, h.execPfma, h.execPmin, h.execPmax, h.execFseed, h.execFrred, h.execFscale, h.execFexp, h.execFmant,
    h.execCvtblk, h.execLd, h.execSt, h.execLdu, h.execPrefetchL1, h.execPrefetchDep, h.execAtom, h.execRed,
    h.execCas, h.execGateInit, h.execGateExpect, h.execGateArrive, h.execGatePeek, h.execGateWait, h.execGateWaitLim,
    h.execLock, h.execUnlock, h.execBarrier, h.execAcqBlk, h.execAcqOpt, h.execAcqAcc, h.execRelBlk, h.execRelOpt,
    h.execRelAcc, h.execClean, h.execInval, h.execFenceAcq, h.execFenceRel, h.execFenceAr, h.execFenceSc,
    h.execMswitchBank, h.execMswitchCtl, h.execTld, h.execTst, h.execTzero, h.execMma, h.execMmag, h.execTmask,
    h.execTdrain, h.execTdrainAdd, h.execTdrainAddSplit, h.execTcvt, h.execCpyIn, h.execCpyOut, h.execTdesc,
    h.execTdescAlias, h.execMrs, h.execRst, h.execWbl, h.execWblAcq, h.execRedx, h.execImxLoad, h.execImxVec,
    h.execImxRun, h.execImxBcast, h.execImxCollect, h.execImxStat, h.execGrid, h.execSget, h.execSput, h.execEret,
    h.execFaultackRetry, h.execFaultackSkip, h.execFaultackRegion, h.execFaultackKill, h.execFaultackHold,
    h.execDbgstep, h.execPreempt, h.execKill, h.execResume, h.execTlbinv, h.execDsel, h.execDadv, h.execDvset,
    h.execDlset, h.execDloop, h.execDwait, h.execDmac, h.execDmacx, h.execDscol, h.execDvld, h.execDvst, h.execDadd,
    h.execDscale, h.execDazero, h.execDald, h.execDstore, h.execRepetition, h.execYieldBackoffExpiry,
    h.execYieldWBackoffExpiry, h.execGateWaitDeadline, h.execLockGrant, h.execLockWithdrawalAnswer,
    h.execFencePerformed, h.execDrayRowOpen, h.execDrayStopped, h.execDrayBankYield, h.execPpointWindowExpiry,
    h.execGroupHalt, h.execGroupFrameWrite, h.execTeamFrameWrite, h.execTrapDelivery, h.execTrapRecordPost,
    h.execCeWindowClear, h.execFabricBlockWrite, h.execPageWaitReframe, h.execTeamPlacement,
    h.execScratchpadClearDone, h.execPlacementReservation, h.execDispatcherPreempt, h.execTeamEnd, h.execGridRetire,
    h.execDoneWrite, h.execColdReset, h.execPackageReset, h.execMboxUpdate, h.execMboxFloor, h.execQuote,
    h.execAliasCert, h.execDikcert, h.execIdekey, h.execMboxCommandDone, h.execDend, h.execDacvt,
    h.execLockUnitAnswer, h.execDrayIllegalCommand]

theorem State.Canon.spoil {s : State} {x : Site} (h : s.Canon) : (s.spoil x).Canon := by
  unfold State.spoil
  split
  · refine h.onGroup fun _ h1 => ?_
    split
    · exact h1.wrV
    · exact h1.wrS
    · refine h1.wrT ?_
      extract_lets _
      exact { h1.rdT with }
    · exact h1.wrA
    · exact h1
    · exact h1
  · exact { h with cores := h.cores.spPutPoison }
  · extract_lets d _
    refine { h with mem := { h.mem with depot := ?_ } }
    unfold d
    refine forall_mem_change h.mem.depot fun _ h1 => ?_
    split
    · exact { h1 with }
    · exact h1
  · exact h.onDray fun _ h1 => { h1 with vbTag := swf_set h1.vbTag }
  · exact h.onDray fun _ h1 => h1.setAcc
  · exact h
  · exact h

theorem State.Canon.fails {s : State} {who : Who} {u : Upset} (h : s.Canon) : (s.fails who u).Canon := by
  unfold State.fails
  split
  · exact h.charge.l1Drop
  · exact h.machineCheck
  · split
    · exact h.spoil.charge
    · exact h.charge

theorem State.Canon.meet {s : State} {who : Who} {p : Site → Bool} (h : s.Canon) : (s.meet who p).Canon := by
  unfold State.meet
  split
  · exact h
  · exact foldl_keep { h with rel := { h.rel with } } fun _ _ h1 => h1.fails

theorem State.Canon.meetWord {s : State} {g : Group} {i : Option Instr} {lanes : Word} (h : s.Canon) :
    (s.meetWord g i lanes).Canon := by
  unfold State.meetWord
  split
  · exact h
  · exact h.meet

theorem State.Canon.meetCommand {s : State} {key : Nat} {i : Instr} (h : s.Canon) : (s.meetCommand key i).Canon := by
  unfold State.meetCommand
  extract_lets _
  exact h.meet

theorem State.Canon.meetEvent {s : State} {c : Cur} {i : Instr} (h : s.Canon) : (s.meetEvent c i).Canon := h.meet

theorem Group.Canon.startWord {N : Nat} {g : Group} {lanes : Word} (hg : g.Canon N) :
    Group.Canon N (g.startWord lanes) :=
  hg.mapLanes

theorem State.Canon.planResumed {t : State} {g : Group} {i : Instr} (ht : t.Canon) : (t.planResumed g i).Canon := by
  unfold State.planResumed
  extract_lets _ _ _
  refine .run (ht.onGroup fun _ h => ?_) .resumed
  extract_lets _
  exact { h.putVals with }

theorem State.Canon.countTurn {s : State} {g : Group} (h : s.Canon) : (s.countTurn g).Canon := by
  unfold State.countTurn
  split
  · exact h.onSerial
  · exact h

theorem State.Canon.planWord {t : State} {g : Group} {i : Instr} (ht : t.Canon) : (t.planWord g i).Canon := by
  unfold State.planWord
  split
  · exact ht.planResumed
  · split
    · exact .done ht.holdWord.countTurn
    · exact .run ht .word

theorem State.Canon.planIssue {s : State} {gid : Nat} {pc : BitVec 64} {lanes : Word} (h : s.Canon) :
    (s.planIssue gid pc lanes).Canon := by
  unfold State.planIssue
  split
  · exact .done h
  · extract_lets w m s1 g1 s2 _ at_
    have hs1 : s1.Canon := h.meetWord
    clear_value s1
    have hs2 : s2.Canon := hs1.onGroup fun _ h1 => h1.startWord
    clear_value s2
    have hat : ∀ rep, (at_ rep).Canon := fun rep => { hs2 with }
    clear_value at_ w
    split
    · exact .done (hat _)
    · exact .done (hat _).raise
    · exact .done (hat _).raise
    · exact (hat _).planWord
    · exact .run (hat _) .nothing
    · exact .run (hat _) .nothing
    · exact (hat _).planWord

theorem State.Canon.stepped {s : State} {before : Group} {i : Instr} (h : s.Canon) : (s.stepped before i).Canon := by
  unfold State.stepped
  refine h.onGroup fun _ h1 => ?_
  split
  · extract_lets _ _ _ _ _ _
    split
    · exact h1
    · exact { h1 with }
  · exact h1

theorem State.Canon.settleWord {s : State} {before : Group} {i : Instr} {again : Bool} (h : s.Canon) :
    (s.settleWord before i again).Canon := by
  unfold State.settleWord
  extract_lets _ _ _ s1 s2
  have hs1 : s1.Canon := h.onGroup fun _ h1 => h1.mapLanes
  clear_value s1
  have hs2 : s2.Canon := by
    unfold s2
    split
    · exact hs1
    · split
      · exact hs1.outQueue
      · exact hs1.leadQueue
      · exact hs1.onGroup fun _ h1 => h1.takeWritten
  clear_value s2
  refine hs2.onGroup fun _ h1 => ?_
  split
  · exact { h1 with }
  · exact h1

theorem State.Canon.afterIssue {s : State} {before : Group} {i : Instr} (h : s.Canon) :
    (s.afterIssue before i).Canon :=
  h.settleWord.countTurn.stepped

theorem State.Canon.afterWait {s : State} {before : Group} {i : Instr} {back : RegVals} (h : s.Canon) :
    (s.afterWait before i back).Canon :=
  State.Canon.stepped (State.Canon.settleWord (h.onGroup fun _ h1 => h1.putVals))

theorem After.Canon.apply {a : After} {t : State} (ha : a.Canon) (ht : t.Canon) : (a.apply t).Canon := by
  cases ha with
  | nothing => exact ht
  | word => exact ht.afterIssue
  | resumed => exact ht.afterWait
  | outrider h => exact h.outriderDone ht

theorem State.Canon.planHeld {s : State} {g : Group} {o : Outrider} {e : OutEntry} {rest : List OutEntry} (h : s.Canon)
    (ho : o.Canon) : (s.planHeld g o e rest).Canon := by
  unfold State.planHeld
  extract_lets s1 src t
  have hs1 : s1.Canon := h.onGroup fun _ h1 => h1.setWait.withOutrider { ho with }
  clear_value s1
  have ht : t.Canon := { hs1 with }
  clear_value t
  split
  · exact ht.planResumed
  · exact .done h.mismatch

theorem State.Canon.planOutrider {s : State} {gid : Nat} (h : s.Canon) : (s.planOutrider gid).Canon := by
  unfold State.planOutrider
  split
  · exact .done h
  · rename_i e
    split
    · exact .done h
    · rename_i o _ _ e2
      have ho : o.Canon := ((h.group? e).outHead).of_some e2
      split
      · exact .run (h.shadow (h.group? e) ho) (.outrider h)
      · exact .done (h.outriderTakes (h.group? e) ho)
      · exact h.planHeld ho

theorem State.Canon.planDray {s : State} {d : DrayId} (h : s.Canon) : (s.planDray d).Canon := by
  unfold State.planDray
  extract_lets _ _ s1
  have hs1 : s1.Canon := { h with }
  clear_value s1
  split
  · exact .run hs1.meetCommand .nothing
  · exact .run hs1 .nothing

theorem State.Canon.grantShare {s : State} {i : Instr} (h : s.Canon) : IfSome State.Canon (s.grantShare i) := by
  unfold State.grantShare
  split
  · exact .some h
  · split
    · exact .none
    · exact .some (foldl_keep h fun _ _ h1 => h1.granted)

theorem State.Canon.planEvent {s : State} {c : Cur} {i : Instr} (h : s.Canon) : (s.planEvent c i).Canon := by
  unfold State.planEvent
  split
  · exact .done h
  · split
    · exact .done h
    · rename_i s1 e
      have hs1 : s1.Canon := h.grantShare.of_some e
      refine .run ?_ .nothing
      extract_lets _
      exact { hs1.meetEvent with }

theorem State.Canon.plan {s : State} {t : Turn} (h : s.Canon) : (s.plan t).Canon := by
  unfold State.plan
  split
  · refine .done ?_
    split
    · exact { h with }
    · exact h
  · exact h.planEvent
  · split
    · exact h.planDray
    · exact .done h
  · exact h.planIssue
  · exact h.planOutrider

theorem State.Canon.takeTurn {s : State} (h : s.Canon) : s.takeTurn.2.Canon := by
  unfold State.takeTurn
  split
  · exact { h with }
  · extract_lets _
    exact { h with }

/-- A step keeps the form: the turn's plan is canonical, and so are what its instruction goes on to and what follows it. -/
theorem State.Canon.step {s t : State} (h : s.Canon) (e : step s = .next t) : t.Canon := by
  have hp : (s.takeTurn.2.plan s.takeTurn.1).Canon := h.takeTurn.plan
  unfold Machine.step at e
  split at e
  · next hd =>
    cases e
    exact hp.of_done hd
  · next i u a hr =>
    obtain ⟨hu, ha⟩ := hp.of_run hr
    split at e
    · next v hv =>
      cases e
      exact ha.apply (hu.exec.of_next hv)
    · cases e
    · cases e

/-- Settles O58: every function of the machine keeps the canonical form (`State.Canon`), so a step does. -/
theorem stepKeepsCanonical : Obligations.StepKeepsCanonical :=
  fun _ _ h e => State.canon_iff.1 ((State.canon_iff.2 h).step e)

end Sys2Proof.Machine
end

