-- ==== Sys2Proof/Proofs/HomeWrites.lean ====
section
/-! SUPPORT. Home lines: what a write at its home slice does to them, and what leaves them as they are. -/

namespace Sys2Proof.Machine

/-! What leaves every home line as it is. -/

/-- The bytes and the tags that a depot line holds. -/
def DepotLine.content (x : DepotLine) : List Byte × Word := (x.bytes, x.poison)

/-- The stacks, the depot lines' content, and what gives local space its addresses are the same. -/
structure SameHome (s t : State) : Prop where
  raw : t.mem.raw = s.mem.raw
  rel : t.rel = s.rel
  slots : t.xl.slots = s.xl.slots
  tb : t.xl.tb = s.xl.tb
  line : ∀ k, (t.line? k).map DepotLine.content = (s.line? k).map DepotLine.content

theorem SameHome.refl {s : State} : SameHome s s := ⟨rfl, rfl, rfl, rfl, fun _ => rfl⟩

theorem SameHome.trans {s t u : State} (h : SameHome s t) (k : SameHome t u) : SameHome s u :=
  ⟨k.raw.trans h.raw, k.rel.trans h.rel, k.slots.trans h.slots, k.tb.trans h.tb, fun l => (k.line l).trans (h.line l)⟩

/-- A line at its stack rests on the stacks' bytes and on the codes of their rows alone. -/
theorem stackLine_congr {s t : State} (hraw : t.mem.raw = s.mem.raw) (hrel : t.rel = s.rel) (k : LineId) :
    t.stackLine k = s.stackLine k := by
  have key (u : State) : u.stackLine k =
      ({ State.reset with mem := { State.reset.mem with raw := u.mem.raw }, rel := u.rel } : State).stackLine k := rfl
  rw [key t, key s, hraw, hrel]

theorem SameHome.homeLine {s t : State} (h : SameHome s t) (k : LineId) : t.homeLine k = s.homeLine k := by
  have hk := h.line k
  have hs := stackLine_congr h.raw h.rel k
  unfold State.homeLine
  cases ht : t.line? k <;> cases hx : s.line? k <;> rw [ht, hx] at hk
  · exact hs
  · cases hk
  · cases hk
  · exact Option.some.inj hk

/-- A depot line stands there still, with the same content. -/
theorem SameHome.line_some {s t : State} {k : LineId} {x : DepotLine} (h : SameHome s t) (hx : s.line? k = some x) :
    ∃ y, t.line? k = some y ∧ y.bytes = x.bytes := by
  have hk := h.line k
  rw [hx] at hk
  obtain ⟨y, hy, e⟩ := Option.map_eq_some_iff.1 hk
  exact ⟨y, hy, congrArg Prod.fst e⟩

theorem SameHome.roBits {s t : State} (h : SameHome s t) (l : LineId) (i : Nat) : roBits t l i = roBits s l i := by
  have key (u : State) : Machine.roBits u l i =
      Machine.roBits { State.reset with xl := { State.reset.xl with slots := u.xl.slots, tb := u.xl.tb } } l i := rfl
  rw [key t, key s, h.slots, h.tb]

/-- What every step of a fold leaves, the fold leaves. -/
theorem SameHome.foldl {α : Type} {f : State → α → State} {l : List α} {s : State} (hf : ∀ s a, SameHome s (f s a)) :
    SameHome s (l.foldl f s) :=
  foldl_keep (P := SameHome s) .refl fun t a h => h.trans (hf t a)

theorem sameHome_onReq {s : State} {k : Nat} {f : Req → Req} : SameHome s (s.onReq k f) := ⟨rfl, rfl, rfl, rfl, fun _ => rfl⟩

theorem sameHome_dropReq {s : State} {k : Nat} : SameHome s (s.dropReq k) := ⟨rfl, rfl, rfl, rfl, fun _ => rfl⟩

theorem sameHome_held {s : State} {m : List (LineId × WriteOp)} :
    SameHome s { s with mem := { s.mem with held := m } } := ⟨rfl, rfl, rfl, rfl, fun _ => rfl⟩

/-- A depot whose lines change beside their content. -/
theorem sameHome_depot {s : State} {f : DepotLine → DepotLine} (hl : ∀ x, (f x).line = x.line)
    (hc : ∀ x, (f x).content = x.content) : SameHome s { s with mem := { s.mem with depot := s.mem.depot.map f } } where
  raw := rfl
  rel := rfl
  slots := rfl
  tb := rfl
  line k := by
    have e : (s.mem.depot.map f).find? (fun x => x.line = k) = (s.mem.depot.find? fun x => x.line = k).map f :=
      find?_map_of_iff _ f _ fun x _ => by rw [hl]
    unfold State.line?
    rw [e, Option.map_map]
    exact congrArg (Option.map · _) (funext hc)

theorem sameHome_clearMarks {s : State} {gid : Nat} {sc : Scope} : SameHome s (s.clearMarks gid sc) :=
  (sameHome_depot (f := fun x => { x with marks0 := clearMark gid sc x.marks0, marks1 := clearMark gid sc x.marks1 })
    (fun _ => rfl) fun _ => rfl).trans sameHome_held

theorem sameHome_release {s : State} {r : Req} : SameHome s (s.release r) := by
  unfold State.release
  split
  · exact sameHome_clearMarks
  · exact .refl

/-- A mark changes nothing of a line but its marks. -/
theorem DepotLine.mark_same {x : DepotLine} {gid ofs n : Nat} {cl : Option Scope} :
    (x.mark gid ofs n cl).line = x.line ∧ (x.mark gid ofs n cl).content = x.content := by
  unfold DepotLine.mark
  refine foldl_keep (P := fun y : DepotLine => y.line = x.line ∧ y.content = x.content) ⟨rfl, rfl⟩ fun y h hy => ?_
  dsimp only
  split
  · exact hy
  · unfold DepotLine.setMarks
    split <;> exact hy

theorem sameHome_mark {s : State} {l : LineId} {gid ofs n : Nat} {cl : Option Scope} : SameHome s (s.mark l gid ofs n cl) :=
  sameHome_depot (fun x => by split; exacts [DepotLine.mark_same.1, rfl]) fun x => by
    split
    exacts [DepotLine.mark_same.2, rfl]

theorem sameHome_markFor {s : State} {w : WriteOp} {l : LineId} {ofs n : Nat} : SameHome s (s.markFor w l ofs n) := by
  unfold State.markFor
  split
  · split
    · exact .refl
    · exact sameHome_mark
  · exact .refl

theorem sameHome_opDone? {s : State} {id : Option Nat} : SameHome s (s.opDone? id) := by
  unfold State.opDone? State.opDone State.opDue
  split
  · split <;> exact ⟨rfl, rfl, rfl, rfl, fun _ => rfl⟩
  · exact .refl

theorem sameHome_snoop {s : State} {l : LineId} : SameHome s (s.snoop l) := by
  unfold State.snoop
  split
  · exact ⟨rfl, rfl, rfl, rfl, fun _ => rfl⟩
  · exact .refl

/-- Asking for the host's copy leaves the waiting writes and the requests. -/
theorem snoop_held {s : State} {l : LineId} : (s.snoop l).mem.held = s.mem.held ∧ (s.snoop l).eng = s.eng := by
  unfold State.snoop
  split <;> exact ⟨rfl, rfl⟩

theorem markFor_held {s : State} {w : WriteOp} {l : LineId} {ofs n : Nat} :
    (s.markFor w l ofs n).mem.held = s.mem.held := by
  unfold State.markFor
  split
  · split <;> rfl
  · rfl

theorem opDone?_held {s : State} {id : Option Nat} : (s.opDone? id).mem.held = s.mem.held := by
  unfold State.opDone? State.opDone State.opDue
  split
  · split <;> rfl
  · rfl

theorem applyHome_held {s : State} {l : LineId} {x : DepotLine} {ofs : Nat} {bs : List Byte} {tag : Nat → Bool}
    (hx : s.line? l = some x) : (s.applyHome l ofs bs tag).mem.held = s.mem.held := by
  unfold State.applyHome State.applyLine State.noticed
  rw [hx]
  refine foldl_keep (P := fun t : State => t.mem.held = s.mem.held) ?_ fun t pa ht => ht
  unfold State.onLine
  rw [hx]

theorem sameHome_noticed {s : State} {l : LineId} {ofs n : Nat} : SameHome s (s.noticed l ofs n) :=
  .foldl fun _ _ => ⟨rfl, rfl, rfl, rfl, fun _ => rfl⟩

theorem sameHome_l1Fill {s : State} {n : L1Line} : SameHome s (s.l1Fill n) := ⟨rfl, rfl, rfl, rfl, fun _ => rfl⟩

theorem l1Grant_eq (s : State) (ctx core pasid vline : Nat) (l : LineId) (d : List Byte) (p : Word) :
    s.l1Grant ctx core pasid vline l d p = (s.grant l (s.ltick + leaseOf (s.ctx ctx))).l1Fill
      ⟨core, pasid, vline, l, (s.ownCopy core l d p).1, (s.ownCopy core l d p).2, s.ltick + leaseOf (s.ctx ctx)⟩ := rfl

theorem sameHome_l1Grant {s : State} {ctx core pasid vline : Nat} {l : LineId} {d : List Byte} {p : Word} :
    SameHome s (s.l1Grant ctx core pasid vline l d p) := by
  rw [l1Grant_eq]
  exact ⟨rfl, rfl, rfl, rfl, fun _ => rfl⟩

theorem sameHome_servePrefetch {s : State} {l : LineId} : SameHome s (s.servePrefetch l) := by
  unfold State.servePrefetch
  split
  · split
    · exact .refl
    · refine foldl_keep (P := SameHome s) ⟨rfl, rfl, rfl, rfl, fun _ => rfl⟩ fun t p h => h.trans ?_
      split
      · exact sameHome_l1Fill
      · exact sameHome_l1Grant
  · exact .refl

theorem servePrefetch_held {s : State} {l : LineId} : (s.servePrefetch l).mem.held = s.mem.held := by
  unfold State.servePrefetch
  split
  · split
    · rfl
    · refine foldl_keep (P := fun t : State => t.mem.held = s.mem.held) rfl fun t p ht => ?_
      split
      · exact ht
      · rw [l1Grant_eq]
        exact ht
  · rfl

/-! A write of bytes at a depot line. -/

/-- The bytes over a line whose bytes were `d`, at `ofs`, but for the bits that only the device writes; every other line as
before (R7). -/
def LineTakes (s t : State) (l : LineId) (d : List Byte) (ofs : Nat) (bs : List Byte) : Prop :=
  (∀ i < 128, (t.homeLine l).1[i]? = if ofs ≤ i ∧ i < ofs + bs.length
      then some ((bs.getD (i - ofs) 0 &&& ~~~roBits s l i) ||| (d.getD i 0 &&& roBits s l i)) else d[i]?)
    ∧ ∀ k, k ≠ l → t.homeLine k = s.homeLine k

theorem LineTakes.after {s t u : State} {l : LineId} {d : List Byte} {ofs : Nat} {bs : List Byte}
    (h : LineTakes s t l d ofs bs) (k : SameHome t u) : LineTakes s u l d ofs bs :=
  ⟨fun i hi => by rw [k.homeLine]; exact h.1 i hi, fun j hj => (k.homeLine j).trans (h.2 j hj)⟩

theorem LineTakes.before {s t u : State} {l : LineId} {d : List Byte} {ofs : Nat} {bs : List Byte} (k : SameHome s t)
    (h : LineTakes t u l d ofs bs) : LineTakes s u l d ofs bs :=
  ⟨fun i hi => by rw [← k.roBits]; exact h.1 i hi, fun j hj => (h.2 j hj).trans (k.homeLine j)⟩

theorem line?_onLine {s : State} {l k : LineId} {f : DepotLine → DepotLine} {x : DepotLine} (hx : s.line? l = some x)
    (hl : (f x).line = l) : (s.onLine l f).line? k = if k = l then some (f x) else s.line? k := by
  unfold State.onLine
  rw [hx]
  by_cases hk : k = l
  · subst hk
    have none : (s.mem.depot.filter fun y => y.line ≠ k).find? (fun y => y.line = k) = none := by
      simp [List.find?_eq_none]
    simp only [State.line?, List.find?_append, none, if_pos, List.find?_singleton, hl, decide_true, Option.none_or]
  · have keep : (s.mem.depot.filter fun y => y.line ≠ l).find? (fun y => y.line = k) =
        s.mem.depot.find? (fun y => y.line = k) := by
      rw [List.find?_filter]
      congr
      funext y
      by_cases hy : y.line = k <;> simp [hy, hk]
    simp only [State.line?, List.find?_append, keep, List.find?_singleton, hl, decide_eq_true_eq, if_neg hk,
      if_neg (Ne.symm hk), Option.or_none]

theorem homeLine_onLine {s : State} {l : LineId} {f : DepotLine → DepotLine} {x : DepotLine} (hx : s.line? l = some x)
    (hl : (f x).line = l) :
    (s.onLine l f).homeLine l = (f x).content ∧ ∀ k, k ≠ l → (s.onLine l f).homeLine k = s.homeLine k := by
  have hs : ∀ k, (s.onLine l f).stackLine k = s.stackLine k := by
    refine stackLine_congr ?_ ?_ <;> unfold State.onLine <;> rw [hx]
  refine ⟨?_, fun k hk => ?_⟩
  · unfold State.homeLine
    rw [line?_onLine hx hl, if_pos rfl]
    rfl
  · unfold State.homeLine
    rw [line?_onLine hx hl, if_neg hk, hs]

theorem getElem?_putBytes {d bs : List Byte} {ofs i : Nat} (hd : d.length = 128) (hi : i < 128) :
    (putBytes d ofs bs)[i]? = if ofs ≤ i ∧ i < ofs + bs.length then some (bs.getD (i - ofs) 0) else d[i]? := by
  have hi' : i < d.length := hd ▸ hi
  simp only [putBytes, List.getElem?_mapIdx, List.getElem?_eq_getElem hi', Option.map_some, Bool.and_eq_true,
    decide_eq_true_eq]
  split <;> rfl

theorem length_writableBytes {s : State} {l : LineId} {ofs : Nat} {bs : List Byte} :
    (s.writableBytes l ofs bs).length = bs.length := by
  simp [State.writableBytes, State.keepOnly]

/-- Byte `j` of what a write writes: its own bits where the device alone does not write them. -/
theorem getD_writableBytes {s : State} {l : LineId} {x : DepotLine} {ofs j : Nat} {bs : List Byte}
    (hx : s.line? l = some x) (hj : j < bs.length) :
    (s.writableBytes l ofs bs).getD j 0
      = (bs.getD j 0 &&& ~~~roBits s l (ofs + j)) ||| (x.bytes.getD (ofs + j) 0 &&& roBits s l (ofs + j)) := by
  have hro : ((s.addressesOf l.stack l.ext (128 * l.line + ofs)).map fun pa => s.readOnlyBits (pa + j)) =
      (s.addressesOf l.stack l.ext (128 * l.line + (ofs + j))).map s.readOnlyBits := by
    simp only [State.addressesOf, List.map_map]
    refine List.map_congr_left fun p _ => ?_
    simp only [Function.comp_apply, Nat.add_assoc]
  have hold : (((s.homeLine l).1.drop ofs).take bs.length).getD j 0 = x.bytes.getD (ofs + j) 0 := by
    unfold State.homeLine
    rw [hx]
    simp [List.getD_eq_getElem?_getD, hj]
  simp only [State.writableBytes, State.keepOnly, List.getD_eq_getElem?_getD, List.getElem?_mapIdx,
    List.getElem?_eq_getElem hj, Option.map_some, Option.getD_some] at hold ⊢
  rw [hro, hold]
  rfl

/-- A program's write of a depot line is applied there, but for what only the device writes (R7). -/
theorem applyHome_takes {s : State} {l : LineId} {x : DepotLine} {ofs : Nat} {bs : List Byte} {tag : Nat → Bool}
    (hx : s.line? l = some x) (hd : x.bytes.length = 128) : LineTakes s (s.applyHome l ofs bs tag) l x.bytes ofs bs := by
  have hl : x.line = l := by simpa using List.find?_some hx
  unfold State.applyHome State.applyLine
  rw [hx]
  refine LineTakes.after ?_ sameHome_noticed
  obtain ⟨hself, hother⟩ := homeLine_onLine (f := fun x => { x with
    bytes := putBytes x.bytes ofs (s.writableBytes l ofs bs), dirty := true
    poison := putTags x.poison ofs (s.writableBytes l ofs bs).length tag }) hx hl
  refine ⟨fun i hi => ?_, hother⟩
  rw [hself]
  simp only [DepotLine.content, getElem?_putBytes hd hi, length_writableBytes]
  split
  · next hr =>
    rw [getD_writableBytes hx (by omega), Nat.add_sub_cancel' hr.1]
  · rfl

/-! Writes at their home slice. -/

theorem meetLine_depot {s : State} {who : Who} {l : LineId} {x : DepotLine} {ofs n : Nat} (hx : s.line? l = some x) :
    s.meetLine who l ofs n = s := by
  unfold State.meetLine
  rw [hx]
  rfl

theorem applyStore_depot {s : State} {who : Who} {l : LineId} {x : DepotLine} {ofs : Nat} {bs : List Byte}
    {tag : Nat → Bool} (hx : s.line? l = some x) : s.applyStore who l ofs bs tag = s.applyHome l ofs bs tag := by
  unfold State.applyStore
  rw [meetLine_depot hx]

/-- A write of up to 128 bytes meets one line. -/
theorem writeLines_one {l : LineId} {w : WriteOp} (h0 : 0 < w.bytes.length) (h1 : w.bytes.length ≤ 128) :
    writeLines l w = [l] := by
  unfold writeLines
  rw [show (w.bytes.length + 127) / 128 = 1 by omega]
  rfl

/-- A write that waits for no device and clears no line is applied at a depot line once no lease and no host copy holds it. -/
theorem canApply_depot {s : State} {l : LineId} {w : WriteOp} {x : DepotLine} (hx : s.line? l = some x)
    (hm : w.maint = none) (ha : w.after = none) (hf : s.lineFree l = true) : s.canApply l w = true := by
  obtain ⟨hl, hh⟩ : s.leased l = false ∧ l ∉ s.mem.hostLines := by simpa [State.lineFree] using hf
  simp [State.canApply, State.lineReady, hm, ha, hl, hh, hx]

/-- A store's write waits where a lease or a host copy holds its line. -/
theorem canApply_req {s : State} {l : LineId} {w : WriteOp} {id : Nat} (hm : w.maint = none) (hr : w.req = some id)
    (hf : s.lineFree l = false) : s.canApply l w = false := by
  have hh : w.isHost = false := by simp [WriteOp.isHost, hr]
  cases hl : s.leased l <;> simp_all [State.canApply, State.lineFree]

theorem arrive_applied {s : State} {l : LineId} {w : WriteOp} {who : Who} (hls : writeLines l w = [l])
    (hc : s.canApply l w = true) (hh : s.heldOn l = []) : s.arrive l w who = s.applyWrite l w := by
  unfold State.arrive
  simp [hls, hc, hh]

/-- A store whose line stands in the depot asks for nothing but the host's copy. -/
theorem prepare_depot {s : State} {l : LineId} {w : WriteOp} {who : Who} {x : DepotLine} {id : Nat}
    (hx : s.line? l = some x) (hm : w.maint = none) (hr : w.req = some id) : s.prepare l w who = s.snoop l := by
  have hh : w.isHost = false := by simp [WriteOp.isHost, hr]
  obtain ⟨y, hy, -⟩ := (sameHome_snoop (l := l)).line_some hx
  simp [State.prepare, State.prepareLine, hm, hh, hy]

/-- A store that cannot be applied waits at its line, and nothing else that is named here changes (R80). -/
theorem arrive_waits {s : State} {l : LineId} {w : WriteOp} {who : Who} {x : DepotLine} {id : Nat}
    (hls : writeLines l w = [l]) (hx : s.line? l = some x) (hm : w.maint = none) (hr : w.req = some id)
    (hf : s.lineFree l = false) :
    SameHome s (s.arrive l w who) ∧ (s.arrive l w who).mem.held = s.mem.held ++ [(l, w)]
      ∧ (s.arrive l w who).eng = s.eng := by
  obtain ⟨hheld, heng⟩ := snoop_held (s := s) (l := l)
  unfold State.arrive
  simp only [hls, List.all_cons, canApply_req hm hr hf, Bool.false_and, Bool.false_eq_true, if_false, List.foldl_cons,
    List.foldl_nil, prepare_depot hx hm hr, List.map_cons, List.map_nil, hheld]
  exact ⟨sameHome_snoop.trans sameHome_held, trivial, heng⟩

/-- What a store at its home comes to (R80). -/
theorem applyWrite_store {s : State} {l : LineId} {w : WriteOp} {r : Req} {ofs : Nat} (hm : w.maint = none)
    (hp : w.place = .line l ofs) (hr : w.req.bind s.req? = some r) (hk : r.kind = .store) :
    s.applyWrite l w = (((s.release r).applyStore r.who l ofs w.bytes fun i => w.tags.getD i false).markFor w l ofs
      w.bytes.length).dropReq r.id := by
  unfold State.applyWrite
  simp [hm, hp, hr, hk, ReqKind.isStore]

/-- What a write of an engine, or of the host, at its home comes to. -/
theorem applyWrite_plain {s : State} {l : LineId} {w : WriteOp} {ofs : Nat} (hm : w.maint = none)
    (hp : w.place = .line l ofs) (hr : w.req = none) (hpe : w.peer = none) (hres : w.res ≠ deviceRes) :
    s.applyWrite l w = ((s.applyStore (s.writeWho w) l ofs w.bytes fun i => w.tags.getD i false).markFor w l ofs
      w.bytes.length).opDone? w.op := by
  unfold State.applyWrite
  simp [hm, hp, hr, hpe, hres]

/-- A store that arrives at a free depot line is applied there. -/
theorem applyWrite_store_takes {s : State} {l : LineId} {w : WriteOp} {r : Req} {x : DepotLine} {ofs : Nat} (hm : w.maint = none)
    (hp : w.place = .line l ofs) (hr : w.req.bind s.req? = some r) (hk : r.kind = .store) (hx : s.line? l = some x)
    (hd : x.bytes.length = 128) : LineTakes s (s.applyWrite l w) l x.bytes ofs w.bytes := by
  obtain ⟨y, hy, hb⟩ := (sameHome_release (r := r)).line_some hx
  rw [applyWrite_store hm hp hr hk, applyStore_depot hy, ← hb]
  exact .before sameHome_release (((applyHome_takes hy (by rw [hb, hd])).after sameHome_markFor).after sameHome_dropReq)

theorem applyWrite_plain_takes {s : State} {l : LineId} {w : WriteOp} {x : DepotLine} {ofs : Nat} (hm : w.maint = none)
    (hp : w.place = .line l ofs) (hr : w.req = none) (hpe : w.peer = none) (hres : w.res ≠ deviceRes)
    (hx : s.line? l = some x) (hd : x.bytes.length = 128) : LineTakes s (s.applyWrite l w) l x.bytes ofs w.bytes := by
  rw [applyWrite_plain hm hp hr hpe hres, applyStore_depot hx]
  exact ((applyHome_takes hx hd).after sameHome_markFor).after sameHome_opDone?

/-! STORE_AT_HOME and HELD_WRITE_APPLY. -/

theorem canStoreAtHome_some {id : Nat} {s : State} {r : Req} (h : canStoreAtHome id s = some r) : s.req? id = some r := by
  unfold canStoreAtHome at h
  cases hq : s.req? id with
  | none =>
    rw [hq] at h
    cases h
  | some q =>
    rw [hq] at h
    dsimp only at h
    rw [(Option.ite_none_right_eq_some.1 h).2]

/-- The state in which a store has been accepted. -/
def State.acceptStore (s : State) (id : Nat) : State := s.onReq id fun r => { r with accepted := true }

theorem doStoreAtHome_line {id : Nat} {s : State} {r : Req} {l : LineId} {ofs : Nat} (hc : canStoreAtHome id s = some r)
    (hp : r.place = .line l ofs) : doStoreAtHome id s = (s.acceptStore id).arrive l r.write r.who := by
  unfold doStoreAtHome
  simp [hc, hp, State.acceptStore]

theorem sameHome_acceptStore {s : State} {id : Nat} : SameHome s (s.acceptStore id) := sameHome_onReq

/-- The request that arrives is the one that is accepted. -/
theorem req?_acceptStore {id : Nat} {s : State} {r : Req} (hr : s.req? id = some r) :
    (s.acceptStore id).req? id = some { r with accepted := true } := by
  have e := req?_onReq s id (fun r => { r with accepted := true }) id fun _ => rfl
  rw [hr, Option.map_some, if_pos (req?_id hr)] at e
  exact e

/-- A store whose line is free is applied at once, and its request ends (R80). -/
theorem storeAtHome_free {id : Nat} {s : State} {r : Req} {l : LineId} {x : DepotLine} {ofs : Nat}
    (hc : canStoreAtHome id s = some r) (hk : r.kind = .store) (hp : r.place = .line l ofs) (hx : s.line? l = some x)
    (hd : x.bytes.length = 128) (h0 : 0 < r.bytes.length) (h1 : r.bytes.length ≤ 128) (hh : s.heldOn l = [])
    (hf : s.lineFree l = true) :
    LineTakes s (doStoreAtHome id s) l x.bytes ofs r.bytes ∧ (doStoreAtHome id s).req? id = none := by
  have hr := canStoreAtHome_some hc
  have hid := req?_id hr
  subst hid
  have hreq : r.write.req.bind (s.acceptStore r.id).req? = some { r with accepted := true } := req?_acceptStore hr
  have hap : doStoreAtHome r.id s = (s.acceptStore r.id).applyWrite l r.write := by
    rw [doStoreAtHome_line hc hp]
    exact arrive_applied (writeLines_one h0 h1) (canApply_depot (s := s.acceptStore r.id) (x := x) hx rfl rfl hf) hh
  rw [hap]
  refine ⟨.before sameHome_acceptStore (applyWrite_store_takes rfl hp hreq hk hx hd), ?_⟩
  rw [applyWrite_store rfl hp hreq hk]
  exact req?_dropReq _ _

/-- A store whose line is not free is accepted and waits (R80). -/
theorem storeAtHome_waits {id : Nat} {s : State} {r : Req} {l : LineId} {x : DepotLine} {ofs : Nat}
    (hc : canStoreAtHome id s = some r) (hp : r.place = .line l ofs) (hx : s.line? l = some x)
    (h0 : 0 < r.bytes.length) (h1 : r.bytes.length ≤ 128) (hh : s.heldOn l = []) (hf : s.lineFree l = false) :
    (∀ k, (doStoreAtHome id s).homeLine k = s.homeLine k) ∧ (doStoreAtHome id s).heldOn l = [r.write]
      ∧ (doStoreAtHome id s).req? id = some { r with accepted := true } := by
  obtain ⟨hhome, hheld, heng⟩ := arrive_waits (s := s.acceptStore id) (who := r.who) (id := r.id) (writeLines_one h0 h1)
    (w := r.write) hx rfl rfl hf
  rw [doStoreAtHome_line hc hp]
  refine ⟨(sameHome_acceptStore.trans hhome).homeLine, ?_, ?_⟩
  · have hs : (s.acceptStore id).heldOn l = [] := hh
    unfold State.heldOn at hs ⊢
    rw [hheld, List.filter_append, List.map_append, hs]
    simp
  · rw [← req?_acceptStore (canStoreAtHome_some hc)]
    unfold State.req?
    rw [heng]

theorem heldOn_dropHeld {l : LineId} {m : List (LineId × WriteOp)} {w : WriteOp} {ws : List WriteOp}
    (h : (m.filter fun x => x.1 = l).map (·.2) = w :: ws) : ((dropHeld l m).filter fun x => x.1 = l).map (·.2) = ws := by
  induction m with
  | nil => cases h
  | cons y m ih =>
    unfold dropHeld
    by_cases hy : y.1 = l
    · simp only [List.filter_cons, hy, decide_true, if_true, List.map_cons, List.cons.injEq] at h
      rw [if_pos hy]
      exact h.2
    · simp only [List.filter_cons, hy, decide_false, Bool.false_eq_true, if_false] at h ⊢
      exact ih h

/-- The steps that an applied write makes leave what waits. -/
theorem applyWrite_plain_held {s : State} {l : LineId} {w : WriteOp} {ofs : Nat} {x : DepotLine} (hm : w.maint = none)
    (hp : w.place = .line l ofs) (hr : w.req = none) (hpe : w.peer = none) (hres : w.res ≠ deviceRes)
    (hx : s.line? l = some x) : (s.applyWrite l w).mem.held = s.mem.held := by
  rw [applyWrite_plain hm hp hr hpe hres, applyStore_depot hx, opDone?_held, markFor_held, applyHome_held hx]

/-- The state in which the oldest write of a line no longer waits. -/
def State.unwait (s : State) (l : LineId) : State := { s with mem := { s.mem with held := dropHeld l s.mem.held } }

/-- The oldest write of a line that is free is applied, and the others wait on (R80). -/
theorem heldWriteApply_free {s : State} {l : LineId} {x : DepotLine} {w : WriteOp} {ws : List WriteOp} {ofs : Nat}
    (hh : s.heldOn l = w :: ws) (hp : w.place = .line l ofs) (hr : w.req = none) (hm : w.maint = none) (hpe : w.peer = none)
    (ha : w.after = none) (hres : w.res ≠ deviceRes) (hx : s.line? l = some x) (hd : x.bytes.length = 128)
    (h0 : 0 < w.bytes.length) (h1 : w.bytes.length ≤ 128) (hf : s.lineFree l = true) :
    LineTakes s (doHeldWriteApply l s) l x.bytes ofs w.bytes ∧ (doHeldWriteApply l s).heldOn l = ws := by
  have hb : w.base l = l := by simp [WriteOp.base, hp]
  have hap : doHeldWriteApply l s =
      ((s.unwait l).applyWrite l w).servePrefetch l := by
    unfold doHeldWriteApply
    simp [hh, hb, writeLines_one h0 h1, canApply_depot hx hm ha hf, State.unwait]
  rw [hap]
  refine ⟨.before (t := s.unwait l) sameHome_held
    ((applyWrite_plain_takes (s := s.unwait l) hm hp hr hpe hres hx hd).after sameHome_servePrefetch), ?_⟩
  unfold State.heldOn
  rw [servePrefetch_held, applyWrite_plain_held (s := s.unwait l) hm hp hr hpe hres hx]
  exact heldOn_dropHeld hh

end Sys2Proof.Machine
end

