-- ==== Sys2Proof/Proofs/LinesIn.lean ====
section
/-! SUPPORT. Prefetches: what one changes, and the line that it brings in. -/

namespace Sys2Proof.Machine

/-! What a prefetch changes (R227). -/

/-- The stacks and the depot stand as before, and so does every part of the machine but the memory system, the walks and the
numbers given out. -/
structure Brings (s t : State) : Prop where
  rest : { t with mem := s.mem, xl := s.xl, free := s.free, nextId := s.nextId } = s
  raw : t.mem.raw = s.mem.raw
  depot : t.mem.depot = s.mem.depot

theorem Brings.refl {s : State} : Brings s s := ⟨rfl, rfl, rfl⟩

theorem Brings.trans {s t u : State} (h : Brings s t) (k : Brings t u) : Brings s u where
  rest := by
    have hs := h.rest
    rw [← k.rest] at hs
    exact hs
  raw := k.raw.trans h.raw
  depot := k.depot.trans h.depot

theorem Brings.cur {s t : State} (h : Brings s t) : t.cur = s.cur :=
  have e := congrArg State.cur h.rest
  e

theorem Brings.groups {s t : State} (h : Brings s t) : t.groups = s.groups :=
  have e := congrArg State.groups h.rest
  e

theorem brings_wish {s : State} {l : LineId} {res : Nat} {w : Who} : Brings s (s.wish l res w) := by
  unfold State.wish
  split <;> exact ⟨rfl, rfl, rfl⟩

theorem brings_askWalk {s : State} {cl pasid va : Nat} {k : AccKind} {w : Walker} : Brings s (s.askWalk cl pasid va k w) := by
  unfold State.askWalk
  extract_lets same
  split
  · exact .refl
  · exact ⟨rfl, rfl, rfl⟩

theorem brings_l1Fill {s : State} {n : L1Line} : Brings s (s.l1Fill n) := ⟨rfl, rfl, rfl⟩

theorem brings_l1Grant {s : State} {ctx core pasid vline : Nat} {l : LineId} {d : List Byte} {p : Word} :
    Brings s (s.l1Grant ctx core pasid vline l d p) := ⟨rfl, rfl, rfl⟩

theorem brings_prefetchLine {s : State} {g : Group} {va : Nat} {l1 : Bool} : Brings s (s.prefetchLine g va l1) := by
  unfold State.prefetchLine
  split
  · split
    · split
      · exact .refl
      · extract_lets p ask copy move
        have hask : ∀ s, Brings s (ask s) := by
          intro s
          unfold ask
          split <;> exact ⟨rfl, rfl, rfl⟩
        have hmove : ∀ s y, Brings s (move s y) := by
          intro s y
          unfold move
          split
          · exact brings_l1Fill
          · exact .refl
        clear_value ask move copy
        split
        · split
          · exact .refl
          · split
            · exact brings_wish.trans (hmove _ _)
            · exact brings_wish.trans (hask _)
        · exact hmove _ _
        · split
          · exact .refl
          · split
            · exact hask _
            · exact brings_l1Grant
    · exact .refl
  · exact brings_askWalk
  · exact .refl

/-! The line that comes in. -/

/-- A line that is filled under a tag is the one that the tag finds while its lease runs. -/
theorem l1Find_l1Fill {s : State} {n : L1Line} {va : Nat} (hv : n.vline = va / 128) (he : s.ltick < n.expiry) :
    (s.l1Fill n).l1Find n.core n.pasid va = some n := by
  unfold State.l1Find State.l1Fill
  extract_lets keep kept set rest
  have hkept : ∀ y ∈ kept, ¬ (y.core = n.core ∧ y.pasid = n.pasid ∧ y.vline = n.vline) := by
    intro y hy hn
    have := (List.mem_filter.1 (List.mem_filter.1 hy).1).2
    simp [hn] at this
  have hrest : ∀ y ∈ rest, y ∈ kept := by
    intro y hy
    unfold rest at hy
    split at hy
    · exact hy
    · split at hy
      · exact (List.mem_filter.1 hy).1
      · exact hy
  rw [List.find?_append, List.find?_eq_none.2, Option.none_or, List.find?_singleton]
  · simp [hv, he]
  · intro y hy
    have := hkept y (hrest y hy)
    rw [hv] at this
    simpa using fun hc hp hl => absurd ⟨hc, hp, hl⟩ this

theorem leaseOf_pos {c : Ctx} : 0 < leaseOf c := by
  unfold leaseOf
  split
  · decide
  · omega

/-- A granted line is found with its core's own copy, and the line's lease does not end sooner (R79). -/
theorem l1Grant_found {s : State} {ctx core pasid va : Nat} {l : LineId} {d : List Byte} {p : Word} :
    (∃ y, (s.l1Grant ctx core pasid (va / 128) l d p).l1Find core pasid va = some y
        ∧ (y.bytes, y.poison) = s.ownCopy core l d p)
      ∧ s.leaseEnd l ≤ (s.l1Grant ctx core pasid (va / 128) l d p).leaseEnd l := by
  rw [l1Grant_eq]
  refine ⟨⟨_, l1Find_l1Fill rfl (Nat.lt_add_of_pos_right leaseOf_pos), rfl⟩, ?_⟩
  have e : (s.grant l (s.ltick + leaseOf (s.ctx ctx))).leaseEnd l = max (s.ltick + leaseOf (s.ctx ctx)) (s.leaseEnd l) := by
    unfold State.grant
    simp only [State.leaseEnd, List.find?_append]
    simp [List.find?_eq_none.2]
  exact e ▸ Nat.le_max_right _ _

theorem wish_wants {s : State} {l : LineId} {res : Nat} {w : Who} : ∃ x ∈ (s.wish l res w).mem.wants, x.line = l := by
  unfold State.wish
  split
  · next h => simpa using h
  · exact ⟨_, List.mem_append_right _ (List.mem_singleton_self _), rfl⟩

/-- One line of a prefetch, in the state that it starts from (R227, R355). -/
theorem prefetchLine_hit {s : State} {g : Group} {va pa res ofs : Nat} {l1 nc : Bool} {l : LineId} {cls : Option ExtClass}
    (ht : s.translate g.core g.pasid va .read = .hit pa nc res) (hp : s.placeOf pa nc (g.ctx = 0) = .at (.line l ofs) cls)
    (hq : s.quota res ≠ 0) :
    (s.line? l = none → s.busyRow (s.lineRows l) = none → ∃ w ∈ (s.prefetchLine g va l1).mem.wants, w.line = l)
      ∧ (∀ x, l1 = true → s.line? l = some x → s.heldOn l = [] → s.l1Copy g.core l = none →
          s.prefetchLine g va l1 = s.l1Grant g.ctx g.core g.pasid (va / 128) l x.bytes x.poison)
      ∧ ∀ x y, l1 = true → s.line? l = some x → s.l1Copy g.core l = some y →
          s.prefetchLine g va l1 = s.l1Fill { y with pasid := g.pasid, vline := va / 128 } := by
  unfold State.prefetchLine
  rw [ht]
  dsimp only
  rw [hp]
  dsimp only
  rw [if_neg hq]
  refine ⟨fun hx hb => ?_, fun x h1 hx hh hc => ?_, fun x y h1 hx hc => ?_⟩
  · rw [hx, hb]
    obtain ⟨w, hw, hl⟩ := wish_wants (s := s) (l := l) (res := res) (w := ⟨some g.ctx, some g.gid⟩)
    refine ⟨w, ?_, hl⟩
    simp only [Option.isSome_none, Bool.false_eq_true, if_false]
    split
    · split <;> exact hw
    · split <;> exact hw
  · unfold State.l1Copy at hc
    simp [hx, hc, h1, hh]
  · unfold State.l1Copy at hc
    simp [hx, hc, h1]

/-- A copy that moves is found under its new tag (R355). -/
theorem l1Copy_moved {s : State} {core pasid va : Nat} {l : LineId} {y : L1Line} (hc : s.l1Copy core l = some y) :
    (s.l1Fill { y with pasid := pasid, vline := va / 128 }).l1Find core pasid va =
      some { y with pasid := pasid, vline := va / 128 } := by
  obtain ⟨⟨hcore, -⟩, he⟩ : (y.core = core ∧ y.line = l) ∧ s.ltick < y.expiry := by
    simpa using List.find?_some hc
  subst hcore
  exact l1Find_l1Fill (n := { y with pasid := pasid, vline := va / 128 }) rfl he

/-! The word. -/

theorem firstTrap_none {act : Word} {f : Nat → Option TrapReq} (h : ∀ L < 32, bitOf act L = true → f L = none) :
    firstTrap act f = none := by
  unfold firstTrap
  rw [List.filterMap_eq_nil_iff.2 fun L hL => h L (mem_lanesOf.1 hL).1 (mem_lanesOf.1 hL).2]
  rfl

theorem lanesOf_ne_nil {w : Word} (h : w ≠ 0) : lanesOf w ≠ [] := by
  intro e
  refine h (BitVec.eq_of_getLsbD_eq fun L hL => ?_)
  have hn : L ∉ lanesOf w := by simp [e]
  have hb : bitOf w L ≠ true := fun hb => hn (mem_lanesOf.2 ⟨hL, hb⟩)
  simpa [bitOf] using hb

theorem eraseDups_same {α : Type} [DecidableEq α] {l : List α} {a : α} (hn : l ≠ []) (h : ∀ x ∈ l, x = a) :
    l.eraseDups = [a] := by
  obtain ⟨b, l, rfl⟩ := List.exists_cons_of_ne_nil hn
  have hb : b = a := h b (List.mem_cons_self ..)
  have hl : l.filter (fun x => !x == b) = [] := by
    rw [List.filter_eq_nil_iff]
    intro x hx
    simp [h x (List.mem_cons_of_mem _ hx), hb]
  rw [List.eraseDups_cons, hl, hb]
  rfl

/-- The prefetches of the lanes' lines, before the lanes move on. -/
def prefetched (l1 : Bool) (o : MForm) (s : State) (g : Group) (act : Word) : State :=
  (((lanesOf act).map fun L => globalAddr g o L / 128 * 128).eraseDups).foldl
    (fun s va => if canonical va then s.prefetchLine g va l1 else s) s

theorem brings_prefetched {l1 : Bool} {o : MForm} {s : State} {g : Group} {act : Word} :
    Brings s (prefetched l1 o s g act) :=
  foldl_keep (P := Brings s) .refl fun t va h => by
    split
    · exact h.trans brings_prefetchLine
    · exact h

/-- Lanes of one line make one request. -/
theorem prefetched_one {l1 : Bool} {o : MForm} {s : State} {g : Group} {act : Word} {va : Nat} (hact : act ≠ 0)
    (hva : ∀ L < 32, bitOf act L = true → globalAddr g o L / 128 * 128 = va) (hc : canonical va = true) :
    prefetched l1 o s g act = s.prefetchLine g va l1 := by
  have hl : ((lanesOf act).map fun L => globalAddr g o L / 128 * 128).eraseDups = [va] :=
    eraseDups_same (fun h => lanesOf_ne_nil hact (List.map_eq_nil_iff.1 h)) fun x hx => by
      obtain ⟨L, hL, rfl⟩ := List.mem_map.1 hx
      exact hva L (mem_lanesOf.1 hL).1 (mem_lanesOf.1 hL).2
  unfold prefetched
  rw [hl]
  simp [hc]

theorem prefetched_none {l1 : Bool} {o : MForm} {s : State} {g : Group} : prefetched l1 o s g 0 = s := by
  have e : lanesOf 0 = [] := by decide
  unfold prefetched
  rw [e]
  rfl

/-- What a prefetch that goes ahead comes to: its lines, and its lanes move on (R227). -/
theorem exec_prefetch {l1 : Bool} {o : MForm} {s : State} {g : Group}
    (h : GoesAhead (if l1 then .prefetchL1 o else .prefetchDep o) o.g s g)
    (ht : ∀ L < 32, active s g o.g L → (mBaseVal g o true L).tag = false) :
    exec (if l1 then .prefetchL1 o else .prefetchDep o) s = .next ((prefetched l1 o s g (activeOf g s.cur o.g)).go 0) := by
  have hp : poisonBase g o true (activeOf g s.cur o.g) = none := firstTrap_none fun L hL hb => by rw [ht L hL hb]; rfl
  have he : (if activeOf g s.cur o.g = 0 then s.go 0 else prefetchEffect l1 o s g (activeOf g s.cur o.g)) =
      (prefetched l1 o s g (activeOf g s.cur o.g)).go 0 := by
    split
    · next h0 => rw [h0, prefetched_none]
    · unfold prefetchEffect
      rw [hp]
      rfl
  rw [← he]
  cases l1
  · exact execWord_runs h
  · exact execWord_runs h

/-- The lanes of a group move on in a state that has its groups, and in its group alone. -/
theorem go_frame {s t : State} {g : Group} (hb : Brings s t) (hg : s.group? s.cur.gid = some g) (hc : g.Canonical) :
    { t.go 0 with groups := s.groups, mem := s.mem, xl := s.xl, free := s.free, nextId := s.nextId } = s
      ∧ (∀ k, k ≠ s.cur.gid → (t.go 0).group? k = s.group? k)
      ∧ (t.go 0).group? s.cur.gid = some (g.advance s.cur 0)
      ∧ OnlyLanes g (g.advance s.cur 0) ∧ MovesOn s.cur 0 g (g.advance s.cur 0) := by
  have hfind : ∀ k, t.group? k = s.group? k := fun k => by
    unfold State.group?
    rw [hb.groups]
  have hgo : t.go 0 = t.onGroup s.cur.gid fun x => x.advance s.cur 0 := by
    unfold State.go
    rw [hb.cur]
  rw [hgo]
  refine ⟨?_, fun k hk => ?_, ?_, rfl, advance_movesOn g s.cur 0 hc.1⟩
  · have e := congrArg (fun u : State => { u with groups := s.groups }) hb.rest
    exact e
  · exact (group?_onGroup_other (fun x => advance_gid x s.cur 0) hk).trans (hfind k)
  · exact group?_onGroup_same ((hfind _).trans hg) fun x => advance_gid x s.cur 0

theorem go_l1Find (s : State) (w : Word) (core pasid va : Nat) : (s.go w).l1Find core pasid va = s.l1Find core pasid va := rfl

theorem go_leaseEnd (s : State) (w : Word) (l : LineId) : (s.go w).leaseEnd l = s.leaseEnd l := rfl

/-- Settles O23: a prefetch changes what its lines' requests and fills change, and its lanes (`exec_prefetch`); a store's
write of a depot line that is free is applied there, and else waits (`storeAtHome_free`, `storeAtHome_waits`,
`heldWriteApply_free`). -/
theorem linesComeInAndTakeWrites : Obligations.LinesComeInAndTakeWrites := by
  refine ⟨?_, ?_⟩
  · intro l1 o s g i h ht
    obtain ⟨-, hg, hc, -, -⟩ := id h
    obtain ⟨hrest, hother, hown, honly, hmove⟩ := go_frame brings_prefetched hg hc
    refine ⟨_, _, exec_prefetch h ht, hrest, brings_prefetched.raw, brings_prefetched.depot, hother, hown, honly, hmove, ?_⟩
    intro va pa nc res l ofs cls hact hva hcan htr hpl hq
    rw [prefetched_one hact hva hcan]
    obtain ⟨hwant, hgrant, hcopy⟩ := prefetchLine_hit (l1 := l1) htr hpl hq
    refine ⟨hwant, fun x h1 hx hh hn => ?_, fun x y h1 hx hy => ?_⟩
    · obtain ⟨⟨y, hy, hbytes⟩, hlease⟩ := l1Grant_found (s := s) (ctx := g.ctx) (core := g.core) (pasid := g.pasid)
        (va := va) (l := l) (d := x.bytes) (p := x.poison)
      rw [hgrant x h1 hx hh hn, go_l1Find, go_leaseEnd]
      exact ⟨y, hy, hbytes, hlease⟩
    · rw [hcopy x y h1 hx hy, go_l1Find]
      exact l1Copy_moved hy
  · intro s l x ofs bs hx hd h0 h1 applied
    refine ⟨fun id r hc hk hp hb hh => ⟨fun hf => ?_, fun hf => ?_⟩, ?_⟩
    · subst hb
      exact ⟨doStoreAtHome id s, rfl, storeAtHome_free hc hk hp hx hd h0 (by omega) hh hf⟩
    · subst hb
      exact ⟨doStoreAtHome id s, rfl, storeAtHome_waits hc hp hx h0 (by omega) hh hf⟩
    · intro w ws hh hp hb hr hm hpe ha hres hf
      subst hb
      exact ⟨doHeldWriteApply l s, rfl, heldWriteApply_free hh hp hr hm hpe ha hres hx hd h0 (by omega) hf⟩

end Sys2Proof.Machine
end

