-- ==== Sys2Proof/Proofs/ResetState.lean ====
section
/-! SUPPORT. The machine right after reset (R430). -/

namespace Sys2Proof.Machine

theorem reset_cores_canonical : State.reset.cores.Canonical := by
  refine ⟨rfl, rfl, rfl, rfl, rfl, fun x hx => ?_, rfl⟩
  cases hx

/-- After reset nothing is listed, so that every map is canonical (R430). -/
theorem reset_canonical : State.reset.Canonical := by
  refine ⟨reset_memory_wf, reset_cores_canonical, ?_⟩
  simp [State.reset, Yuren.reset, swf]

theorem side_reset (k : Nat) : State.reset.side k = Side.reset := rfl

theorem dray_reset (k : Nat) : State.reset.dray k = Dray.reset := rfl

/-- Settles O57: each part of the reset state is the value that is stated, and the state is canonical (`reset_canonical`). -/
theorem resetStateIsCanonical : Obligations.ResetStateIsCanonical := by
  unfold Obligations.ResetStateIsCanonical
  refine ⟨reset_canonical, rfl, rfl, rfl, rfl, rfl, rfl, rfl, rfl, rfl, rfl, rfl, rfl, rfl, rfl, rfl, fun k _ => rfl,
    rfl, rfl, rfl, rfl, rfl, fun k => ?_, fun k => ?_, rfl, rfl, rfl, rfl, rfl⟩
  · rw [side_reset]
    exact ⟨rfl, rfl, fun _ => ⟨rfl, rfl⟩⟩
  · rw [dray_reset]
    exact ⟨rfl, rfl⟩

end Sys2Proof.Machine
end

