-- ==== Sys2Proof/Proofs/FirstChecks.lean ====
section
/-! SUPPORT. The lanes of a mask in order, and the checks of a memory word before its accesses (R221 checks 3 to 5, 7). -/

namespace Sys2Proof.Machine

/-! Lanes of a mask, in order. -/

theorem bitOf_maskOf {f : Nat → Bool} {L : Nat} (hL : L < 32) : bitOf (maskOf f) L = f L := by
  have key : ∀ n ≤ 32, bitOf ((List.range n).foldl (fun w L => if f L then w ||| (1#32 <<< L) else w) 0#32) L
      = (decide (L < n) && f L) := by
    intro n
    induction n with
    | zero => intro _; simp [bitOf]
    | succ n ih =>
      intro hn
      rw [List.range_succ, List.foldl_append, List.foldl_cons, List.foldl_nil]
      have hput := fun w => bitOf_put w n L true (by omega)
      simp only [if_true] at hput
      by_cases hnL : L = n
      · subst hnL
        split
        · next h => simp [hput, h]
        · next h => rw [ih (by omega)]; simp [h]
      · have e : decide (L < n + 1) = decide (L < n) := by
          congr 1
          exact propext ⟨fun h => by omega, fun h => by omega⟩
        rw [e, ← ih (by omega)]
        split
        · rw [hput, if_neg hnL]
        · rfl
  have h := key 32 (Nat.le_refl _)
  rwa [decide_eq_true hL, Bool.true_and] at h

/-- What comes before a lane of a mask are the mask's lower lanes. -/
theorem lanesOf_split {w : Word} {L : Nat} (hL : L < 32) (hw : bitOf w L = true) :
    ∃ l₁ l₂, lanesOf w = l₁ ++ L :: l₂ ∧ ∀ K ∈ l₁, K < L ∧ bitOf w K = true := by
  obtain ⟨l₁, l₂, e⟩ := List.append_of_mem (mem_lanesOf.2 ⟨hL, hw⟩)
  have hs : (lanesOf w).Pairwise (· < ·) := List.Pairwise.filter _ List.pairwise_lt_range
  rw [e, List.pairwise_append] at hs
  exact ⟨l₁, l₂, e, fun K hK => ⟨hs.2.2 K hK L (List.mem_cons_self ..),
    (mem_lanesOf.1 (e ▸ List.mem_append_left _ hK : K ∈ lanesOf w)).2⟩⟩

theorem ne_zero_of_bitOf {w : Word} {L : Nat} (h : bitOf w L = true) : w ≠ 0 := by
  rintro rfl
  simp [bitOf] at h

/-- The lowest lane that a check fails gives the check's trap (R221). -/
theorem firstTrap_first {act : Word} {f : Nat → Option TrapReq} {L : Nat} {t : TrapReq} (hL : L < 32)
    (hact : bitOf act L = true) (ht : f L = some t) (hlow : ∀ K < L, bitOf act K = true → f K = none) :
    firstTrap act f = some t := by
  obtain ⟨l₁, l₂, e, h⟩ := lanesOf_split hL hact
  unfold firstTrap
  rw [List.head?_filterMap, List.findSome?_eq_some_iff]
  exact ⟨l₁, L, l₂, e, ht, fun K hK => hlow K (h K hK).1 (h K hK).2⟩

section
variable {o : MForm} {s : State} {g : Group} {gd : Guard} {size L : Nat}

theorem FirstLane.congr {p q : Nat → Prop} (h : FirstLane s g gd p L) (e : ∀ K, p K ↔ q K) : FirstLane s g gd q L := by
  obtain ⟨hL, hact, hp, hlow⟩ := h
  exact ⟨hL, hact, (e L).1 hp, fun K hK hb hq => hlow K hK hb ((e K).2 hq)⟩

/-- A check of the active lanes names the first lane that fails it. -/
theorem firstTrap_firstLane {p : Nat → Prop} [DecidablePred p] {tr : Nat → TrapReq} (h : FirstLane s g gd p L) :
    firstTrap (activeOf g s.cur gd) (fun K => if p K then some (tr K) else none) = some (tr L) := by
  obtain ⟨hL, hact, hp, hlow⟩ := h
  exact firstTrap_first hL hact (if_pos hp) fun K hK hb => if_neg (hlow K hK hb)

/-- A check that no active lane fails finds nothing. -/
theorem firstTrap_allLanes {p : Nat → Prop} [DecidablePred p] {tr : Nat → TrapReq}
    (h : ∀ K < 32, active s g gd K → ¬ p K) :
    firstTrap (activeOf g s.cur gd) (fun K => if p K then some (tr K) else none) = none :=
  firstTrap_none fun K hK hb => if_neg (h K hK hb)

/-! The checks of R221 that come before an access, each by the first lane that fails it. -/

/-- A lane's address operand carries no poison. -/
abbrev cleanBase (g : Group) (o : MForm) (K : Nat) : Prop := (mBaseVal g o (!o.sp) K).tag = false

/-- The address that a memory word's trap names for a lane. -/
abbrev checkAddr (g : Group) (o : MForm) (K : Nat) : Nat :=
  if o.sp then wrapNat (spOffset g o K) 64 else globalAddr g o K

/-- A lane's access is aligned to the word's size. -/
abbrev alignedAt (g : Group) (o : MForm) (size K : Nat) : Prop :=
  if o.sp then spOffset g o K % (size : Int) = 0 else globalAddr g o K % size = 0

/-- A lane's scratchpad access is within its team's allocation. -/
abbrev insideTeam (s : State) (g : Group) (o : MForm) (size K : Nat) : Prop :=
  0 ≤ spOffset g o K ∧ spOffset g o K + size ≤ teamSize s g

/-- Check 3 of R221. -/
def baseCheck (g : Group) (o : MForm) (act : Word) : Option TrapReq :=
  firstTrap act fun K => if ¬ cleanBase g o K then some (addrTrap 0x07 K (checkAddr g o K)) else none

/-- Check 4 of R221. -/
def alignCheck (g : Group) (o : MForm) (size : Nat) (act : Word) : Option TrapReq :=
  firstTrap act fun K => if ¬ alignedAt g o size K then some (addrTrap 0x09 K (checkAddr g o K)) else none

/-- Check 5 of R221 for the scratchpad. -/
def boundsCheck (s : State) (g : Group) (o : MForm) (size : Nat) (act : Word) : Option TrapReq :=
  firstTrap act fun K => if ¬ insideTeam s g o size K then some (addrTrap 0x0A K (checkAddr g o K)) else none

/-- The checks before any access: poison, alignment, and for the scratchpad bounds (R221). -/
def firstChecks (s : State) (g : Group) (o : MForm) (size : Nat) (act : Word) : Option TrapReq :=
  baseCheck g o act <|> alignCheck g o size act <|> if o.sp then boundsCheck s g o size act else none

theorem poisonBase_eq {act : Word} : poisonBase g o (!o.sp) act = baseCheck g o act := by
  unfold poisonBase baseCheck
  congr
  funext K
  simp only [cleanBase, checkAddr, Bool.not_eq_false]
  congr 2
  cases o.sp <;> rfl

theorem misalignedGlobal_eq {act : Word} (hsp : o.sp = false) : misalignedGlobal g o size act = alignCheck g o size act := by
  unfold misalignedGlobal alignCheck
  simp [alignedAt, checkAddr, hsp]

theorem scratchTrap_eq {act : Word} (hsp : o.sp = true) :
    scratchTrap g o size (teamSize s g) act = (alignCheck g o size act <|> boundsCheck s g o size act) := by
  have hout : ∀ x : Int, (x < 0 ∨ x + size > teamSize s g) ↔ ¬ (0 ≤ x ∧ x + size ≤ teamSize s g) := by
    intro x
    omega
  unfold scratchTrap alignCheck boundsCheck
  simp only [alignedAt, checkAddr, insideTeam, hsp, if_true, hout, ne_eq]

theorem spTrap_eq {act : Word} (hsp : o.sp = true) : spTrap s g o size act = firstChecks s g o size act := by
  unfold spTrap firstChecks
  rw [scratchTrap_eq hsp, ← poisonBase_eq, hsp]
  rfl

theorem glTrap_eq {act : Word} (hsp : o.sp = false) : glTrap g o size act = firstChecks s g o size act := by
  unfold glTrap firstChecks
  rw [misalignedGlobal_eq hsp, ← poisonBase_eq, hsp]
  simp

theorem firstChecks_poison (h : FirstLane s g o.g (fun K => ¬ cleanBase g o K) L) :
    firstChecks s g o size (activeOf g s.cur o.g) = some (addrTrap 0x07 L (checkAddr g o L)) := by
  unfold firstChecks baseCheck
  rw [firstTrap_firstLane h]
  rfl

theorem firstChecks_align (hc : ∀ K < 32, active s g o.g K → cleanBase g o K)
    (h : FirstLane s g o.g (fun K => ¬ alignedAt g o size K) L) :
    firstChecks s g o size (activeOf g s.cur o.g) = some (addrTrap 0x09 L (checkAddr g o L)) := by
  unfold firstChecks baseCheck alignCheck
  rw [firstTrap_allLanes fun K hK hb => not_not_intro (hc K hK hb), firstTrap_firstLane h]
  rfl

theorem firstChecks_bounds (hsp : o.sp = true) (hc : ∀ K < 32, active s g o.g K → cleanBase g o K)
    (ha : ∀ K < 32, active s g o.g K → alignedAt g o size K) (h : FirstLane s g o.g (fun K => ¬ insideTeam s g o size K) L) :
    firstChecks s g o size (activeOf g s.cur o.g) = some (addrTrap 0x0A L (checkAddr g o L)) := by
  unfold firstChecks baseCheck alignCheck boundsCheck
  rw [firstTrap_allLanes fun K hK hb => not_not_intro (hc K hK hb),
    firstTrap_allLanes fun K hK hb => not_not_intro (ha K hK hb), firstTrap_firstLane h, if_pos hsp]
  rfl

theorem firstChecks_none (hc : ∀ K < 32, active s g o.g K → cleanBase g o K)
    (ha : ∀ K < 32, active s g o.g K → alignedAt g o size K)
    (hi : o.sp = true → ∀ K < 32, active s g o.g K → insideTeam s g o size K) :
    firstChecks s g o size (activeOf g s.cur o.g) = none := by
  unfold firstChecks baseCheck alignCheck boundsCheck
  rw [firstTrap_allLanes fun K hK hb => not_not_intro (hc K hK hb),
    firstTrap_allLanes fun K hK hb => not_not_intro (ha K hK hb)]
  split
  · next hsp => rw [firstTrap_allLanes fun K hK hb => not_not_intro (hi hsp K hK hb)]; rfl
  · rfl

/-- Check 7 of R221 names the first lane that meets a live gate (R77). -/
theorem clobberTrap_first
    (h : FirstLane s g o.g (fun K => ∃ b < size, spGate s.cores (spPhys s g (offN g o K) + b) = true) L) :
    clobberTrap s g o size (activeOf g s.cur o.g) = some (addrTrap 0x0F L (offN g o L)) :=
  firstTrap_firstLane (h.congr fun K => by simp [meetsGate])

end
end Sys2Proof.Machine
end

