-- ==== Sys2Proof/Proofs/AccessChecks.lean ====
section
/-! SUPPORT. The checks of a memory word's accesses (R221 checks 5 to 8), and its words' meanings up to them. -/

namespace Sys2Proof.Machine

/-! Where a lane's access goes (R221 check 5). -/

section
variable {s : State} {g : Group} {L va : Nat} {k : AccKind} {red : Bool}

/-- The access of a lane is translated, and its place meets `p`. -/
abbrev GoesTo (s : State) (g : Group) (va : Nat) (k : AccKind) (p : Placed → Prop) : Prop :=
  ∃ pa nc res, s.translate g.core g.pasid va k = .hit pa nc res ∧ p (s.placeOf pa nc (g.ctx = 0))

/-- A place at a peer that is not reached; a RED goes to it all the same (R221). -/
abbrev awayPlace (s : State) (red : Bool) (x : Placed) : Prop :=
  ∃ p q b c, x = .at (.peer p q b) c ∧ s.reachable p = false ∧ red = false

/-- Nothing stops a lane's access. -/
abbrev Arrives (s : State) (g : Group) (va : Nat) (k : AccKind) (red : Bool) : Prop :=
  canonical va = true ∧ GoesTo s g va k fun x => (∃ p c, x = .at p c) ∧ ¬ awayPlace s red x

theorem resolve_arrives (h : Arrives s g va k red) : ∃ p c nc res, s.resolve g L va k red = .ok p c nc res := by
  obtain ⟨hc, pa, nc, res, ht, ⟨p, c, hp⟩, haway⟩ := h
  refine ⟨p, c, nc, res, ?_⟩
  unfold State.resolve
  rw [hc, ht]
  dsimp only
  rw [hp]
  cases p with
  | peer n q b =>
    have hr : red || s.reachable n := by
      cases hred : red
      · cases hn : s.reachable n
        · exact absurd ⟨n, q, b, c, hp, hn, hred⟩ haway
        · rfl
      · rfl
    simp [hr]
  | _ => rfl

theorem resolve_noncanonical (h : canonical va = false) : s.resolve g L va k red = .trap (addrTrap 0x0B L va) := by
  unfold State.resolve
  rw [h]
  rfl

theorem resolve_absent (hc : canonical va = true) (h : GoesTo s g va k (· = .absent)) :
    s.resolve g L va k red = .trap (addrTrap 0x0B L va) := by
  obtain ⟨pa, nc, res, ht, hp⟩ := h
  unfold State.resolve
  rw [hc, ht]
  dsimp only
  rw [hp]
  rfl

theorem resolve_away (hc : canonical va = true) (h : GoesTo s g va k (awayPlace s red)) :
    s.resolve g L va k red = .trap (addrTrap 0x0D L va) := by
  obtain ⟨pa, nc, res, ht, p, q, b, c, hp, hn, hr⟩ := h
  unfold State.resolve
  rw [hc, ht]
  dsimp only
  rw [hp]
  simp [hn, hr]

theorem resolve_missed (hc : canonical va = true) (h : ∀ pa nc res, s.translate g.core g.pasid va k ≠ .hit pa nc res) :
    s.resolve g L va k red = .walk va := by
  unfold State.resolve
  rw [hc]
  cases ht : s.translate g.core g.pasid va k with
  | hit pa nc res => exact absurd ht (h pa nc res)
  | miss => rfl
  | fault r => rfl

/-- An access that goes to a peer meets no extent of this package. -/
theorem resolve_peer_class {p q : Nat} {b nc : Bool} {cls : Option ExtClass} {res : Nat}
    (h : s.resolve g L va k red = .ok (.peer p q b) cls nc res) : cls = none := by
  have hplace : ∀ pa nc c, s.placeOf pa nc c = .at (.peer p q b) cls → cls = none := by
    intro pa nc c hp
    unfold State.placeOf at hp
    split at hp
    · split at hp
      · cases nc <;> simp at hp
      · cases hp
      · cases hp
    · cases hp
    · cases hp
      rfl
    · cases hp
  unfold State.resolve at h
  split at h
  · cases h
  · split at h
    · cases h
    · cases h
    · split at h
      · next hp =>
        split at h
        · split at h
          · cases h
            exact hplace _ _ _ hp
          · cases h
        · cases h
          exact hplace _ _ _ hp
      · cases h
      · cases h

end

/-! The first lane whose access fails decides for the word. -/

section
variable {s : State} {g : Group} {k : AccKind} {red : Bool} {va : Nat → Nat}

theorem resolveAll_skip {l₁ l₂ : List Nat} {r : AllResolved} (hr : ∀ as, r ≠ .ok as)
    (h : ∀ K ∈ l₁, ∃ p c nc res, s.resolve g K (va K) k red = .ok p c nc res) (h₂ : s.resolveAll g k red va l₂ = r) :
    s.resolveAll g k red va (l₁ ++ l₂) = r := by
  induction l₁ with
  | nil => exact h₂
  | cons K l₁ ih =>
    obtain ⟨p, c, nc, res, hK⟩ := h K (List.mem_cons_self ..)
    have ih := ih fun J hJ => h J (List.mem_cons_of_mem _ hJ)
    rw [List.cons_append, State.resolveAll, hK]
    dsimp only
    rw [ih]
    cases r with
    | ok as => exact absurd rfl (hr as)
    | _ => rfl

/-- The lanes of a mask below the first one that fails are served elsewhere or arrive. -/
theorem resolveAll_trap {w : Word} {L : Nat} {t : TrapReq} (hL : L < 32) (hw : bitOf w L = true)
    (h : ∀ K < L, bitOf w K = true → ∃ p c nc res, s.resolve g K (va K) k red = .ok p c nc res)
    (ht : s.resolve g L (va L) k red = .trap t) : s.resolveAll g k red va (lanesOf w) = .trap t := by
  obtain ⟨l₁, l₂, e, hlow⟩ := lanesOf_split hL hw
  rw [e]
  refine resolveAll_skip (fun _ => by simp) (fun K hK => h K (hlow K hK).1 (hlow K hK).2) ?_
  rw [State.resolveAll, ht]

theorem resolveAll_walk {w : Word} {L : Nat} (hL : L < 32) (hw : bitOf w L = true)
    (h : ∀ K < L, bitOf w K = true → ∃ p c nc res, s.resolve g K (va K) k red = .ok p c nc res)
    (ht : s.resolve g L (va L) k red = .walk (va L)) : s.resolveAll g k red va (lanesOf w) = .walk L (va L) := by
  obtain ⟨l₁, l₂, e, hlow⟩ := lanesOf_split hL hw
  rw [e]
  refine resolveAll_skip (fun _ => by simp) (fun K hK => h K (hlow K hK).1 (hlow K hK).2) ?_
  rw [State.resolveAll, ht]

/-- The accesses of some lanes are those lanes', in their order, and one to a peer has no extent class. -/
theorem resolveAll_ok {ls : List Nat} {as : List Acc} (h : s.resolveAll g k red va ls = .ok as) :
    as.map (·.lane) = ls ∧ ∀ a ∈ as, ∀ p q b, a.place = .peer p q b → a.cls = none := by
  induction ls generalizing as with
  | nil =>
    cases h
    exact ⟨rfl, by simp⟩
  | cons L ls ih =>
    rw [State.resolveAll] at h
    split at h
    · cases h
    · cases h
    · cases h
    · next p cls nc res hres =>
      split at h
      · next bs hbs =>
        cases h
        obtain ⟨hl, hp⟩ := ih hbs
        refine ⟨by rw [List.map_cons, hl], fun a ha => ?_⟩
        rcases List.mem_cons.1 ha with rfl | ha
        · rintro n q b rfl
          exact resolve_peer_class hres
        · exact hp a ha
      · next hne => exact absurd h (hne as)

/-- Of accesses in ascending lane order, the first that meets a test is the one below which no lane's meets it. -/
theorem find?_firstAcc {as : List Acc} {p : Acc → Bool} {a : Acc} (hs : (as.map (·.lane)).Pairwise (· < ·)) (ha : a ∈ as)
    (hp : p a = true) (hlow : ∀ b ∈ as, b.lane < a.lane → p b = false) : as.find? p = some a := by
  obtain ⟨l₁, l₂, rfl⟩ := List.append_of_mem ha
  rw [List.map_append, List.map_cons, List.pairwise_append] at hs
  refine List.find?_eq_some_iff_append.2 ⟨hp, l₁, l₂, rfl, fun b hb => ?_⟩
  rw [hlow b (List.mem_append_left _ hb)
    (hs.2.2 _ (List.mem_map_of_mem hb) _ (List.mem_cons_self ..))]
  rfl

/-- Check 6 of R221 names the first lane that meets non-cacheable memory. -/
theorem attributeTrap_first {as : List Acc} {far : Bool} {a : Acc} (hs : (as.map (·.lane)).Pairwise (· < ·)) (ha : a ∈ as)
    (hf : far = false) (hu : a.place.uncached = true) (hlow : ∀ b ∈ as, b.lane < a.lane → b.place.uncached = false) :
    attributeTrap far as = some (addrTrap 0x0E a.lane a.va) := by
  unfold attributeTrap
  rw [find?_firstAcc hs ha (by simp [hf, hu]) fun b hb hl => by simp [hlow b hb hl]]
  rfl

theorem attributeTrap_none {as : List Acc} {far : Bool} (h : far = true ∨ ∀ b ∈ as, b.place.uncached = false) :
    attributeTrap far as = none := by
  unfold attributeTrap
  rw [Option.map_eq_none_iff, List.find?_eq_none]
  intro b hb
  rcases h with h | h
  · simp [h]
  · simp [h b hb]

/-- The place of an access may hold poisoned data (R91). -/
abbrev keepsPoison (n : Nat) (a : Acc) : Prop :=
  a.cls ≠ some .N ∧ (∀ x, a.place ≠ .host x) ∧ ∀ p q b, a.place = .peer p q b → Config.peerHoldsN n p q = false

/-- The place of an access cannot hold poison: the host's, class N, or such a place of a peer's. -/
def Acc.shedsPoison (n : Nat) (a : Acc) : Bool :=
  match a.place with
  | .host _ => true
  | .peer p o _ => Config.peerHoldsN n p o
  | _ => a.cls = some .N

theorem shedsPoison_iff {n : Nat} {a : Acc} (hp : ∀ p q b, a.place = .peer p q b → a.cls = none) :
    a.shedsPoison n = true ↔ ¬ keepsPoison n a := by
  unfold Acc.shedsPoison keepsPoison
  cases h : a.place with
  | host x => simp
  | peer p q b => simp [hp p q b h]
  | line l o => simp
  | raw st e o => simp

theorem poisonStore_eq {n : Nat} {as : List Acc} {tag : Nat → Bool} :
    poisonStore n as tag = (as.find? fun a => tag a.lane && a.shedsPoison n).map fun a => addrTrap 0x08 a.lane a.va := rfl

/-- Check 8 of R221 names the first lane whose poisoned data goes where poison cannot stand. -/
theorem poisonStore_first {n : Nat} {as : List Acc} {tag : Nat → Bool} {a : Acc} (hs : (as.map (·.lane)).Pairwise (· < ·))
    (hp : ∀ a ∈ as, ∀ p q b, a.place = .peer p q b → a.cls = none) (ha : a ∈ as) (hk : ¬ keepsPoison n a)
    (ht : tag a.lane = true) (hlow : ∀ b ∈ as, b.lane < a.lane → ¬ (¬ keepsPoison n b ∧ tag b.lane = true)) :
    poisonStore n as tag = some (addrTrap 0x08 a.lane a.va) := by
  rw [poisonStore_eq, find?_firstAcc hs ha]
  · rfl
  · rw [ht, (shedsPoison_iff (hp a ha)).2 hk]
    rfl
  · intro b hb hl
    have h := hlow b hb hl
    rw [← shedsPoison_iff (hp b hb)] at h
    simpa [and_comm, Bool.and_eq_false_imp] using h

end

/-! A lane without a translation asks for its walk, and the path waits (R350). -/

/-- A walk that is out, or that waits for the pager, is not asked for again. -/
theorem askWalk_cases (s : State) (cl pasid va : Nat) (k : AccKind) (w : Walker) :
    (s.askWalk cl pasid va k w = s
        ∧ ∃ x ∈ s.xl.walks ++ s.xl.pageReqs.flatMap (·.walks), x.pasid = pasid ∧ x.va = va ∧ x.kind = k)
      ∨ s.askWalk cl pasid va k w = { s with
          nextId := s.nextId + 1, xl := { s.xl with walks := s.xl.walks ++ [⟨s.nextId, cl, pasid, va, k, w, false, 0⟩] } } := by
  unfold State.askWalk
  extract_lets same
  have hsame : ∀ x, same x = true → x.pasid = pasid ∧ x.va = va ∧ x.kind = k := by
    intro x hx
    simp only [same, Bool.and_eq_true, decide_eq_true_eq] at hx
    obtain ⟨⟨⟨⟨-, hpasid⟩, hva⟩, hkind⟩, -⟩ := hx
    exact ⟨hpasid, hva, hkind⟩
  split
  · next h =>
    refine .inl ⟨rfl, ?_⟩
    rw [Bool.or_eq_true, List.any_eq_true, List.any_eq_true] at h
    rcases h with ⟨x, hx, hs⟩ | ⟨q, hq, hs⟩
    · exact ⟨x, List.mem_append_left _ hx, hsame x hs⟩
    · obtain ⟨x, hx, hs⟩ := List.any_eq_true.1 hs
      exact ⟨x, List.mem_append_right _ (List.mem_flatMap.2 ⟨q, hq, hx⟩), hsame x hs⟩
  · exact .inr rfl

theorem askWalk_frame {s : State} {cl pasid va : Nat} {k : AccKind} {w : Walker} :
    { s.askWalk cl pasid va k w with xl := s.xl, nextId := s.nextId } = s
      ∧ { (s.askWalk cl pasid va k w).xl with walks := s.xl.walks } = s.xl := by
  rcases askWalk_cases s cl pasid va k w with ⟨e, -⟩ | e <;> rw [e] <;> exact ⟨rfl, rfl⟩

theorem askWalk_asks {s : State} {cl pasid va : Nat} {k : AccKind} {w : Walker} :
    ∃ x ∈ (s.askWalk cl pasid va k w).xl.walks ++ (s.askWalk cl pasid va k w).xl.pageReqs.flatMap (·.walks),
      x.pasid = pasid ∧ x.va = va ∧ x.kind = k := by
  rcases askWalk_cases s cl pasid va k w with ⟨e, h⟩ | e
  · rw [e]
    exact h
  · rw [e]
    exact ⟨_, List.mem_append_left _ (List.mem_append_right _ (List.mem_singleton_self _)), rfl, rfl, rfl⟩

theorem await_gid (g : Group) (c : Cur) (lanes : Word) (w : Nat → Wait) : (g.await c lanes w).gid = g.gid := rfl

theorem lane_await {g : Group} {c : Cur} {w : Wait} {K : Nat} (hc : g.Canonical) (hK : K < 32) :
    (g.await c c.lanes fun _ => w).lane K = if bitOf c.lanes K then waitingLane c (g.lane K) w else g.lane K := by
  unfold Group.await
  rw [lane_mapLanes _ _ _ (by rw [hc.1]; exact hK)]
  unfold waitingLane
  cases c.rep <;> rfl

end Sys2Proof.Machine
end

