-- ==== Sys2Proof/Proofs/MemoryChecks.lean ====
section
/-! SUPPORT. The loads, stores and atomics up to the end of their checks (R221). -/

namespace Sys2Proof.Machine

section
variable {o : MForm} {s : State} {g : Group} {i : Instr} {size regs L : Nat} {red : Bool}

/-! Poison in data registers. -/

/-- Bytes cover the words of `n` registers. -/
theorem any_tag_words {f : Nat → Bool} {m n : Nat} (hle : m ≤ 4 * n) (hlt : ∀ r < n, 4 * r < m) :
    ((List.range m).map fun i => f (i / 4)).any id = true ↔ ∃ r < n, f r = true := by
  simp only [List.any_map, List.any_eq_true, List.mem_range, Function.comp_apply, id_eq]
  refine ⟨fun ⟨i, hi, h⟩ => ⟨i / 4, by omega, h⟩, fun ⟨r, hr, h⟩ => ⟨4 * r, hlt r hr, ?_⟩⟩
  rwa [Nat.mul_div_cancel_left r (by decide)]

/-- The access sizes of R147 fill their registers. -/
theorem acSize_fills : ∀ n ≤ 6, acSize n ≤ 4 * memRegs n ∧ ∀ r < memRegs n, 4 * r < acSize n := by decide

theorem storeTag_iff (h : o.ac.toNat ≤ 6) :
    storeTag g o L = true ↔ ∃ r < memRegs o.ac.toNat, (rdV g (o.d.toNat + r) L).tag = true :=
  any_tag_words (f := fun r => (rdV g (o.d.toNat + r) L).tag) (acSize_fills _ h).1 (acSize_fills _ h).2

/-- A legal store has one of the access sizes of R147. -/
theorem storable (h : (Instr.st o).wf = true) : o.ac.toNat ≤ 6 := by
  change MDesc.ok _ o = true at h
  unfold MDesc.ok at h
  simp only [Bool.and_eq_true, decide_eq_true_eq] at h
  obtain ⟨⟨⟨-, ⟨⟨hac, -⟩, -⟩, -⟩, -⟩, -⟩ := h
  exact hac

theorem atomOperand_tag_iff {k : ReqKind} {d : Nat} :
    (atomOperand g k d L).2.any id = true ↔ ∃ r < atomData k, (rdV g (d + r) L).tag = true :=
  any_tag_words (f := fun r => (rdV g (d + r) L).tag) (Nat.le_refl _) fun r hr => by omega

/-! The words. -/

theorem execWord_active {gd : Guard} {f : State → Group → Word → State} (h : GoesAhead i gd s g)
    (hact : activeOf g s.cur gd ≠ 0) : execWord i false gd f s = .next (f s g (activeOf g s.cur gd)) := by
  rw [execWord_runs h, if_neg hact]

/-- The lanes whose access goes to its home: of a load those that the first level does not serve. -/
def homeLanes (i : Instr) (s : State) (g : Group) (o : MForm) (act : Word) : Word :=
  if i = .ld o then s.loadMiss g o act else act

/-- What a memory word's meaning makes of its checks: `regs` are the data registers of a word that writes. -/
structure Checked (i : Instr) (o : MForm) (s : State) (g : Group) (size : Nat) (red : Bool) (regs : Nat) : Prop where
  first : ∀ t, activeOf g s.cur o.g ≠ 0 → firstChecks s g o size (activeOf g s.cur o.g) = some t →
    exec i s = .next (raise s t)
  gate : ∀ t, o.sp = true → i ≠ .ld o → activeOf g s.cur o.g ≠ 0 →
    firstChecks s g o size (activeOf g s.cur o.g) = none → clobberTrap s g o size (activeOf g s.cur o.g) = some t →
    exec i s = .next (raise s t)
  access : o.sp = false → activeOf g s.cur o.g ≠ 0 → firstChecks s g o size (activeOf g s.cur o.g) = none →
    ∃ f : List Acc → State,
      exec i s = .next (s.withAccess g (homeLanes i s g o (activeOf g s.cur o.g)) (if i = .ld o then .read else .write) red
        (globalAddr g o) f)
      ∧ (i ≠ .ld o → ∃ (far : Bool) (tag : Nat → Bool), (i ≠ .st o → far = o.far) ∧ (i = .st o → far = true)
          ∧ (∀ L, tag L = true ↔ ∃ r < regs, (rdV g (o.d.toNat + r) L).tag = true)
          ∧ ∀ as t, (attributeTrap far as <|> poisonStore s.free as tag) = some t → f as = raise s t)

end

section
variable {o : MForm} {s : State} {g : Group} {act : Word} {t : TrapReq}

/-! Where the first checks find nothing, a word for global memory goes on to its accesses. -/

theorem glLoad_first (hsp : o.sp = false) (ht : firstChecks s g o (acSize o.ac.toNat) act = some t) :
    glLoad o s g act = raise s t := by
  unfold glLoad
  dsimp only
  rw [glTrap_eq (s := s) hsp, ht]

theorem glLoad_access (hsp : o.sp = false) (hn : firstChecks s g o (acSize o.ac.toNat) act = none) :
    ∃ f, glLoad o s g act = s.withAccess g (s.loadMiss g o act) .read false (globalAddr g o) f := by
  unfold glLoad
  dsimp only
  rw [glTrap_eq (s := s) hsp, hn]
  exact ⟨_, rfl⟩

theorem glStore_first (hsp : o.sp = false) (ht : firstChecks s g o (acSize o.ac.toNat) act = some t) :
    glStore o s g act = raise s t := by
  unfold glStore
  rw [glTrap_eq (s := s) hsp, ht]

theorem glStore_access (hsp : o.sp = false) (hn : firstChecks s g o (acSize o.ac.toNat) act = none) :
    ∃ f, glStore o s g act = s.withAccess g act .write false (globalAddr g o) f
      ∧ ∀ as t, poisonStore s.free as (storeTag g o) = some t → f as = raise s t := by
  unfold glStore
  rw [glTrap_eq (s := s) hsp, hn]
  exact ⟨_, rfl, fun as t ht => by rw [ht]⟩

/-- The last checks of an atomic: attributes, then poisoned data (R221 checks 6 and 8). -/
def atomChecks (k : ReqKind) (o : MForm) (s : State) (g : Group) (as : List Acc) : Option TrapReq :=
  attributeTrap o.far as <|> poisonStore s.free as fun L => (atomOperand g k o.d.toNat L).2.any id

theorem glAtom_first {k : ReqKind} (hsp : o.sp = false) (ht : firstChecks s g o (atomBytes k.ac) act = some t) :
    glAtom k o s g act = raise s t := by
  unfold glAtom
  rw [glTrap_eq (s := s) hsp, ht]

theorem glAtom_access {k : ReqKind} (hsp : o.sp = false) (hn : firstChecks s g o (atomBytes k.ac) act = none) :
    ∃ f, glAtom k o s g act = s.withAccess g act .write false (globalAddr g o) f
      ∧ ∀ as t, atomChecks k o s g as = some t → f as = raise s t := by
  unfold glAtom atomChecks
  rw [glTrap_eq (s := s) hsp, hn]
  exact ⟨_, rfl, fun as t ht => by rw [ht]⟩

theorem glRed_first {k : ReqKind} (hsp : o.sp = false) (ht : firstChecks s g o (atomBytes k.ac) act = some t) :
    glRed k o s g act = raise s t := by
  unfold glRed
  rw [glTrap_eq (s := s) hsp, ht]

theorem glRed_access {k : ReqKind} (hsp : o.sp = false) (hn : firstChecks s g o (atomBytes k.ac) act = none) :
    ∃ f, glRed k o s g act = s.withAccess g act .write true (globalAddr g o) f
      ∧ ∀ as t, atomChecks k o s g as = some t → f as = raise s t := by
  unfold glRed atomChecks
  rw [glTrap_eq (s := s) hsp, hn]
  exact ⟨_, rfl, fun as t ht => by rw [ht]⟩

/-! A word for the scratchpad that writes meets the gates after the first checks. -/

theorem spLoad_first (hsp : o.sp = true) (ht : firstChecks s g o (acSize o.ac.toNat) act = some t) :
    spLoad o s g act = raise s t := by
  unfold spLoad
  dsimp only
  rw [spTrap_eq hsp, ht]

theorem spStore_first (hsp : o.sp = true)
    (ht : (firstChecks s g o (acSize o.ac.toNat) act <|> clobberTrap s g o (acSize o.ac.toNat) act) = some t) :
    spStore o s g act = raise s t := by
  unfold spStore
  dsimp only
  rw [spTrap_eq hsp, ht]

theorem spAtom_first {k : ReqKind} (hsp : o.sp = true)
    (ht : (firstChecks s g o (atomBytes k.ac) act <|> clobberTrap s g o (atomBytes k.ac) act) = some t) :
    spAtom k o s g act = raise s t := by
  unfold spAtom
  dsimp only
  rw [spTrap_eq hsp, ht]

end

section
variable {o : MForm} {s : State} {g : Group} {size regs : Nat} {red : Bool}

theorem checked_ld (h : GoesAhead (.ld o) o.g s g) : Checked (.ld o) o s g (acSize o.ac.toNat) false regs where
  first t hact ht := by
    refine (execWord_active h hact).trans (congrArg _ ?_)
    cases hsp : o.sp
    · exact glLoad_first hsp ht
    · exact spLoad_first hsp ht
  gate t _ hne := absurd rfl hne
  access hsp hact hn := by
    obtain ⟨f, hf⟩ := glLoad_access hsp hn
    refine ⟨f, (execWord_active h hact).trans (congrArg _ ?_), fun hne => absurd rfl hne⟩
    rw [hsp, homeLanes, if_pos rfl, if_pos rfl]
    exact hf

theorem checked_st (h : GoesAhead (.st o) o.g s g) : Checked (.st o) o s g (acSize o.ac.toNat) false (memRegs o.ac.toNat) where
  first t hact ht := by
    refine (execWord_active h hact).trans (congrArg _ ?_)
    cases hsp : o.sp
    · exact glStore_first hsp ht
    · exact spStore_first hsp (by rw [ht]; rfl)
  gate t hsp _ hact hn ht := by
    refine (execWord_active h hact).trans (congrArg _ ?_)
    rw [hsp]
    exact spStore_first hsp (by rw [hn, ht]; rfl)
  access hsp hact hn := by
    obtain ⟨f, hf, htrap⟩ := glStore_access hsp hn
    refine ⟨f, (execWord_active h hact).trans (congrArg _ ?_), fun _ => ⟨true, storeTag g o, fun hne => absurd rfl hne,
      fun _ => rfl, fun L => storeTag_iff (storable h.1), fun as t ht => htrap as t ?_⟩⟩
    · rw [hsp, homeLanes, if_neg (by simp), if_neg (by simp)]
      exact hf
    · rw [attributeTrap_none (.inl rfl)] at ht
      exact ht

/-- ATOM, CAS and RED share their checks; of their global forms RED alone goes to a peer that is not reached. -/
theorem checked_atom {i : Instr} {k : ReqKind} {gl : MForm → State → Group → Word → State} (h : GoesAhead i o.g s g)
    (he : exec i s = execWord i false o.g (if o.sp then spAtom k o else gl o) s) (hld : i ≠ .ld o) (hst : i ≠ .st o)
    (hfirst : ∀ act t, o.sp = false → firstChecks s g o (atomBytes k.ac) act = some t → gl o s g act = raise s t)
    (haccess : ∀ act, o.sp = false → firstChecks s g o (atomBytes k.ac) act = none →
      ∃ f, gl o s g act = s.withAccess g act .write red (globalAddr g o) f
        ∧ ∀ as t, atomChecks k o s g as = some t → f as = raise s t) :
    Checked i o s g (atomBytes k.ac) red (atomData k) where
  first t hact ht := by
    refine (he.trans (execWord_active h hact)).trans (congrArg _ ?_)
    cases hsp : o.sp
    · exact hfirst _ _ hsp ht
    · exact spAtom_first hsp (by rw [ht]; rfl)
  gate t hsp _ hact hn ht := by
    refine (he.trans (execWord_active h hact)).trans (congrArg _ ?_)
    rw [hsp]
    exact spAtom_first hsp (by rw [hn, ht]; rfl)
  access hsp hact hn := by
    obtain ⟨f, hf, htrap⟩ := haccess _ hsp hn
    refine ⟨f, (he.trans (execWord_active h hact)).trans (congrArg _ ?_), fun _ => ⟨o.far, _, fun _ => rfl,
      fun e => absurd e hst, fun L => atomOperand_tag_iff, htrap⟩⟩
    rw [hsp, homeLanes, if_neg hld, if_neg hld]
    exact hf

end

section
variable {i : Instr} {o : MForm} {s : State} {g : Group} {size regs L : Nat} {red : Bool}

/-- A lane of a load that the first level serves. -/
abbrev servedAt (i : Instr) (o : MForm) (s : State) (g : Group) (size K : Nat) : Prop :=
  i = .ld o ∧ canonical (globalAddr g o K) = true ∧ (s.l1Hit g o K (globalAddr g o K) size).isSome = true

theorem bitOf_homeLanes {act : Word} {K : Nat} (hK : K < 32) (hs : i = .ld o → size = acSize o.ac.toNat) :
    bitOf (homeLanes i s g o act) K = true ↔ bitOf act K = true ∧ ¬ servedAt i o s g size K := by
  unfold homeLanes servedAt
  split
  · next hi =>
    rw [State.loadMiss, bitOf_maskOf hK, hs hi, Bool.and_eq_true]
    unfold State.loadHit
    split
    · next hc => simp [hi, hc]
    · next hc => simp [hc]
  · next hi => simp [hi]

/-- The kind of access that a memory word is translated for. -/
abbrev accessKind (i : Instr) (o : MForm) : AccKind := if i = .ld o then .read else .write

section
variable (hc : Checked i o s g size red regs) (hg : s.group? s.cur.gid = some g) (hn : g.trap = none)
include hc hg hn

theorem traps_first {t : TrapReq} (hact : active s g o.g L)
    (ht : firstChecks s g o size (activeOf g s.cur o.g) = some t) : Traps i s g t :=
  traps_of_raise (hc.first t (ne_zero_of_bitOf hact) ht) hg hn

theorem traps_gate {t : TrapReq} (hsp : o.sp = true) (hi : i ≠ .ld o) (hact : active s g o.g L)
    (h0 : firstChecks s g o size (activeOf g s.cur o.g) = none)
    (ht : clobberTrap s g o size (activeOf g s.cur o.g) = some t) : Traps i s g t :=
  traps_of_raise (hc.gate t hsp hi (ne_zero_of_bitOf hact) h0 ht) hg hn

/-- The first lane that is not served and does not arrive traps the word (R221 check 5). -/
theorem traps_home {t : TrapReq} (hs : i = .ld o → size = acSize o.ac.toNat) (hsp : o.sp = false)
    (h0 : firstChecks s g o size (activeOf g s.cur o.g) = none) (hL : L < 32) (hact : active s g o.g L)
    (hmiss : ¬ servedAt i o s g size L)
    (hlow : ∀ K < L, active s g o.g K → servedAt i o s g size K ∨ Arrives s g (globalAddr g o K) (accessKind i o) red)
    (ht : s.resolve g L (globalAddr g o L) (accessKind i o) red = .trap t) : Traps i s g t := by
  obtain ⟨f, hf, -⟩ := hc.access hsp (ne_zero_of_bitOf hact) h0
  refine traps_of_raise (hf.trans (congrArg _ ?_)) hg hn
  unfold State.withAccess
  rw [resolveAll_trap hL ((bitOf_homeLanes hL hs).2 ⟨hact, hmiss⟩) (fun K hK hb => ?_) ht]
  obtain ⟨hb, hk⟩ := (bitOf_homeLanes (by omega) hs).1 hb
  exact resolve_arrives ((hlow K hK hb).resolve_left hk)

omit hn in
/-- The first lane that is not served and has no translation makes the path wait for its walk (R350). -/
theorem waits_home (hs : i = .ld o → size = acSize o.ac.toNat) (hsp : o.sp = false) (hcan : g.Canonical)
    (h0 : firstChecks s g o size (activeOf g s.cur o.g) = none) (hL : L < 32) (hact : active s g o.g L)
    (hmiss : ¬ servedAt i o s g size L)
    (hlow : ∀ K < L, active s g o.g K → servedAt i o s g size K ∨ Arrives s g (globalAddr g o K) (accessKind i o) red)
    (ht : s.resolve g L (globalAddr g o L) (accessKind i o) red = .walk (globalAddr g o L)) :
    ∃ t g', exec i s = .next t ∧ { t with groups := s.groups, xl := s.xl, nextId := s.nextId } = s
      ∧ { t.xl with walks := s.xl.walks } = s.xl
      ∧ (∀ k, k ≠ s.cur.gid → t.group? k = s.group? k) ∧ t.group? s.cur.gid = some g' ∧ OnlyLanes g g'
      ∧ (∀ K < 32, g'.lane K = if bitOf s.cur.lanes K then waitingLane s.cur (g.lane K) .walk else g.lane K)
      ∧ ∃ w ∈ t.xl.walks ++ t.xl.pageReqs.flatMap (·.walks),
          w.pasid = g.pasid ∧ w.va = globalAddr g o L ∧ w.kind = accessKind i o := by
  obtain ⟨f, hf, -⟩ := hc.access hsp (ne_zero_of_bitOf hact) h0
  have hwait : exec i s = .next (s.waitWalk g L (globalAddr g o L) (accessKind i o)) := by
    refine hf.trans (congrArg _ ?_)
    unfold State.withAccess
    rw [resolveAll_walk hL ((bitOf_homeLanes hL hs).2 ⟨hact, hmiss⟩) (fun K hK hb => ?_) ht]
    obtain ⟨hb, hk⟩ := (bitOf_homeLanes (by omega) hs).1 hb
    exact resolve_arrives ((hlow K hK hb).resolve_left hk)
  have hgid := group?_gid hg
  obtain ⟨hrest, hxl⟩ := askWalk_frame (s := s) (cl := clusterOf g.core) (pasid := g.pasid) (va := globalAddr g o L)
    (k := accessKind i o) (w := .group g.gid s.cur.pc L)
  have hgroups : ∀ k, (s.askWalk (clusterOf g.core) g.pasid (globalAddr g o L) (accessKind i o)
      (.group g.gid s.cur.pc L)).group? k = s.group? k := fun k => by
    have e := congrArg State.groups hrest
    exact congrArg (fun l : List Group => l.find? fun g => g.gid = k) e
  unfold State.waitWalk at hwait
  rw [hgid] at hwait hrest hxl hgroups
  refine ⟨_, _, hwait, ?_, hxl, fun k hk => ?_, group?_onGroup_same ((hgroups _).trans hg) fun _ => rfl, rfl,
    fun K hK => ?_, askWalk_asks⟩
  · exact congrArg (fun u : State => { u with groups := s.groups }) hrest
  · exact (group?_onGroup_other (fun x => await_gid x _ _ _) hk).trans (hgroups k)
  · exact lane_await hcan hK

/-- What the last checks of a word that writes find, it raises (R221 checks 6 to 8). -/
theorem traps_late {as : List Acc} {a : Acc} (hsp : o.sp = false) (hi : i ≠ .ld o)
    (h0 : firstChecks s g o size (activeOf g s.cur o.g) = none)
    (has : s.resolveAll g .write red (globalAddr g o) (lanesOf (activeOf g s.cur o.g)) = .ok as) (ha : a ∈ as) :
    (i ≠ .st o → o.far = false → a.place.uncached = true → (∀ b ∈ as, b.lane < a.lane → b.place.uncached = false) →
        Traps i s g ⟨0x0E, a.lane, a.va % 2 ^ 54, a.va⟩)
      ∧ ((i ≠ .st o → o.far = true ∨ ∀ b ∈ as, b.place.uncached = false) →
        (¬ keepsPoison s.free a ∧ ∃ r < regs, (rdV g (o.d.toNat + r) a.lane).tag = true) →
        (∀ b ∈ as, b.lane < a.lane →
          ¬ (¬ keepsPoison s.free b ∧ ∃ r < regs, (rdV g (o.d.toNat + r) b.lane).tag = true)) →
        Traps i s g ⟨0x08, a.lane, a.va % 2 ^ 54, a.va⟩) := by
  obtain ⟨hlanes, hpeer⟩ := resolveAll_ok has
  have hsort : (as.map (·.lane)).Pairwise (· < ·) := hlanes ▸ List.Pairwise.filter _ List.pairwise_lt_range
  have hact : activeOf g s.cur o.g ≠ 0 := by
    have hm : a.lane ∈ lanesOf (activeOf g s.cur o.g) := hlanes ▸ List.mem_map_of_mem ha
    exact ne_zero_of_bitOf (mem_lanesOf.1 hm).2
  obtain ⟨f, hf, hlate⟩ := hc.access hsp hact h0
  obtain ⟨far, tag, hfar, hst, htag, hraise⟩ := hlate hi
  have hexec : exec i s = .next (f as) := by
    refine hf.trans (congrArg _ ?_)
    unfold State.withAccess
    rw [homeLanes, if_neg hi, if_neg hi, has]
  refine ⟨fun hne hf0 hu hlow => ?_, fun hatt hspoilt hlow => ?_⟩
  · refine traps_of_raise (hexec.trans (congrArg _ (hraise as _ ?_))) hg hn
    rw [attributeTrap_first hsort ha ((hfar hne).trans hf0) hu hlow]
    rfl
  · refine traps_of_raise (hexec.trans (congrArg _ (hraise as _ ?_))) hg hn
    have hnone : attributeTrap far as = none := by
      by_cases e : i = .st o
      · exact attributeTrap_none (.inl (hst e))
      · exact attributeTrap_none ((hatt e).imp (hfar e).trans id)
    rw [hnone, poisonStore_first hsort hpeer ha hspoilt.1 ((htag _).2 hspoilt.2) fun b hb hl h =>
      hlow b hb hl ⟨h.1, (htag _).1 h.2⟩]
    rfl

end
end

/-- A RED, whose checks let an access to a peer that is not reached pass (R231). -/
def isRed : Instr → Bool
  | .red .. => true
  | _ => false

/-- The data registers of a memory word that writes (R225, R229, R230). -/
def dataRegs (i : Instr) (o : MForm) : Nat :=
  match i with
  | .cas _ => 2 * atomRegs o.ac.toNat
  | .st _ => memRegs o.ac.toNat
  | _ => atomRegs o.ac.toNat

/-- The memory words whose checks are stated, with the bytes of an access. -/
theorem checked_memoryWord {o : MForm} {s : State} {g : Group} {i : Instr} {size : Nat} (h : GoesAhead i o.g s g)
    (hw : (i = .ld o ∨ i = .st o) ∧ size = acSize o.ac.toNat
      ∨ ((∃ op, i = .atom op o ∨ i = .red op o) ∨ i = .cas o) ∧ size = atomBytes o.ac.toNat) :
    Checked i o s g size (isRed i) (dataRegs i o) := by
  obtain ⟨rfl | rfl, rfl⟩ | ⟨⟨op, rfl | rfl⟩ | rfl, rfl⟩ := hw
  · exact checked_ld h
  · exact checked_st h
  · exact checked_atom (k := .atom op o.ac.toNat) h rfl (by simp) (by simp) (fun _ _ => glAtom_first) fun _ => glAtom_access
  · exact checked_atom (k := .red op o.ac.toNat) h rfl (by simp) (by simp) (fun _ _ => glRed_first) fun _ => glRed_access
  · exact checked_atom (k := .cas o.ac.toNat) h rfl (by simp) (by simp) (fun _ _ => glAtom_first) fun _ => glAtom_access

/-- Settles O20: each check names the first lane that fails it (`firstChecks_poison` to `clobberTrap_first`,
`traps_home`, `traps_late`), and a lane without a translation makes its path wait for the walk (`waits_home`). -/
theorem memoryChecksTrapInOrder : Obligations.MemoryChecksTrapInOrder := by
  intro o s g i L size hn h atomic hw ga sa addr clean aligned inside all kind red served goesTo away arrives regs keeps
  have hc := checked_memoryWord h hw
  obtain ⟨-, hg, hcan, -, -⟩ := id h
  have hs : i = .ld o → size = acSize o.ac.toNat := by
    rintro rfl
    obtain ⟨-, e⟩ | ⟨⟨op, e | e⟩ | e, -⟩ := hw
    · exact e
    all_goals cases e
  have hatomic : i ≠ .ld o → (i ≠ .st o ↔ atomic) := by
    intro hi
    obtain ⟨e | rfl, -⟩ | ⟨⟨op, rfl | rfl⟩ | rfl, -⟩ := hw
    · exact absurd e hi
    all_goals simp [atomic]
  refine ⟨fun hf => ?_, fun hcl hf => ?_, fun hsp hcl hal hf => ?_, fun hsp hi hcl hal hin hf => ?_,
    fun hsp hcl hal hL hact hmiss hlow => ?_, fun as hsp hi hcl hal has a ha => ?_⟩
  · exact traps_first hc hg hn hf.2.1 (firstChecks_poison hf)
  · exact traps_first hc hg hn hf.2.1 (firstChecks_align hcl hf)
  · have ht := firstChecks_bounds hsp hcl hal hf
    rw [checkAddr, if_pos hsp] at ht
    exact traps_first hc hg hn hf.2.1 ht
  · exact traps_gate hc hg hn hsp hi hf.2.1 (firstChecks_none hcl hal fun _ => hin) (clobberTrap_first hf)
  · have h0 := firstChecks_none hcl hal fun e => absurd (hsp.symm.trans e) (by decide)
    have htrap := fun {t} => traps_home hc hg hn (t := t) hs hsp h0 hL hact hmiss hlow
    refine ⟨?_, fun hcn haw => htrap (resolve_away hcn haw), fun hcn hno =>
      waits_home hc hg hs hsp hcan h0 hL hact hmiss hlow (resolve_missed hcn hno)⟩
    rintro (hnc | ⟨hcn, hab⟩)
    · exact htrap (resolve_noncanonical hnc)
    · exact htrap (resolve_absent hcn hab)
  · have h0 := firstChecks_none hcl hal fun e => absurd (hsp.symm.trans e) (by decide)
    obtain ⟨hatt, hdata⟩ := traps_late hc hg hn hsp hi h0 has ha
    exact ⟨fun hat => hatt ((hatomic hi).2 hat), fun hat => hdata fun hne => hat ((hatomic hi).1 hne)⟩

end Sys2Proof.Machine
end

