-- ==== Sys2Proof/Proofs/StackSectors.lean ====
section
/-! SUPPORT. Sectors in the stacks: what a sector that is written reads as, and which others it leaves (R85, R86, R390, R392). -/

namespace Sys2Proof.Machine

/-! Raw bytes. -/

theorem length_leBytes (n w : Nat) : (leBytes n w).length = n := by simp [leBytes]

/-- A byte of the stacks after a write of bytes. -/
theorem sget_rawPut {m : Mem} {a k : Nat} {bs : List Byte} (h : Memory.wf m.raw = true) :
    sget 0 (rawPut m a bs).raw k = if a ≤ k ∧ k < a + bs.length then bs.getD (k - a) 0 else sget 0 m.raw k := by
  have key : ∀ (bs : List Byte) (j : Nat) (r : List Host.Cell), Memory.wf r = true →
      sget 0 ((bs.zipIdx j).foldl (fun r (x : Byte × Nat) => sset 0 r (a + x.2) x.1) r) k =
        if a + j ≤ k ∧ k < a + j + bs.length then bs.getD (k - (a + j)) 0 else sget 0 r k := by
    intro bs
    induction bs with
    | nil =>
      intro j r _
      rw [if_neg (by simp)]
      rfl
    | cons b bs ih =>
      intro j r hr
      rw [List.zipIdx_cons, List.foldl_cons, ih (j + 1) _ (Memory.wf_sset r (a + j) b hr), sget_sset _ _ _ _ _ hr,
        List.length_cons]
      by_cases hk : k = a + j
      · rw [if_neg (by omega), if_pos hk, if_pos (by omega), hk, Nat.sub_self]
        rfl
      · by_cases hin : a + (j + 1) ≤ k ∧ k < a + (j + 1) + bs.length
        · rw [if_pos hin, if_pos (by omega), show k - (a + j) = k - (a + (j + 1)) + 1 by omega]
          rfl
        · rw [if_neg hin, if_neg hk, if_neg (by omega)]
  exact key bs 0 m.raw h

theorem rawBytes_congr {m m' : Mem} {a n : Nat} (h : ∀ k, a ≤ k → k < a + n → sget 0 m'.raw k = sget 0 m.raw k) :
    rawBytes m' a n = rawBytes m a n :=
  List.map_congr_left fun i hi => h _ (by omega) (by have := List.mem_range.1 hi; omega)

/-- Bytes that stand at consecutive places. -/
theorem rawBytes_eq {m : Mem} {a : Nat} {bs : List Byte}
    (h : ∀ k, a ≤ k → k < a + bs.length → sget 0 m.raw k = bs.getD (k - a) 0) : rawBytes m a bs.length = bs := by
  refine List.ext_getElem (by simp [rawBytes]) fun i h1 h2 => ?_
  have hi := h (a + i) (by omega) (by omega)
  rw [Nat.add_sub_cancel_left, List.getD_eq_getElem?_getD, List.getElem?_eq_getElem h2] at hi
  simpa [rawBytes] using hi

/-! Codes (R390 to R392). -/

theorem length_rsCheck (r : Nat) (d : List Byte) : (rsCheck r d).length = r := by
  unfold rsCheck
  exact foldl_keep (P := fun l : List Nat => l.length = r) (by simp) fun l x _ => by simp

theorem length_codeBytes (l : List Nat) : (l.flatMap (leBytes 2)).length = 2 * l.length := by
  induction l with
  | nil => rfl
  | cons x l ih =>
    rw [List.flatMap_cons, List.length_append, ih, length_leBytes, List.length_cons]
    omega

theorem length_codeOf (c : Code) (d : List Byte) : (c.of d).length = c.pattern.length := by
  cases c
  · rfl
  · simp [Code.of, Code.pattern, length_leBytes]
  · simp only [Code.of, Code.pattern, length_codeBytes, length_rsCheck, List.length_cons, List.length_nil]
  · simp only [Code.of, Code.pattern, length_codeBytes, length_rsCheck, List.length_cons, List.length_nil]

theorem length_stored (c : Code) (d : List Byte) (p : Bool) : (c.stored d p).length = c.pattern.length := by
  unfold Code.stored
  split
  · rw [List.length_zipWith, length_codeOf, Nat.min_self]
  · exact length_codeOf c d

/-- What is written under its code reads as it was written (R392). -/
theorem check_stored (c : Code) (d : List Byte) (p : Bool) : (c.check d (c.stored d p)).1 = d := by
  have hself : ∀ a b : List Byte, a.length = b.length → a.zipWith (· ^^^ ·) (a.zipWith (· ^^^ ·) b) = b := by
    intro a
    induction a with
    | nil => intro b hb; cases b <;> simp_all
    | cons x a ih =>
      intro b hb
      cases b with
      | nil => simp at hb
      | cons y b =>
        rw [List.zipWith_cons_cons, List.zipWith_cons_cons, ih b (by simpa using hb), ← BitVec.xor_assoc, BitVec.xor_self,
          BitVec.zero_xor]
  have hzero : ∀ a : List Byte, (a.zipWith (· ^^^ ·) a).all (· = 0) = true := by
    intro a
    induction a with
    | nil => rfl
    | cons x a ih => rw [List.zipWith_cons_cons, List.all_cons, ih, BitVec.xor_self]; rfl
  unfold Code.check Code.stored
  cases p
  · simp only [Bool.false_eq_true, if_false, hzero, if_true]
  · simp only [if_true, hself _ _ (length_codeOf c d)]
    split <;> rfl

/-! Slots of rows (R85, R390). -/

/-- A data slot of a row that is not strengthened. -/
structure DataSlot (s : State) (r : RowId) (n : Nat) : Prop where
  plain : s.strong? r = none
  slot : n < (s.extent r.stack (r.row / 32)).cls.sectors

/-- Where the code of a slot stands in its row, and how many bytes it has. -/
def codeSpan : ExtClass → Nat × Nat
  | .D => (1984, 2)
  | .P => (1792, 8)
  | _ => (0, 0)

/-- The bytes of the stacks that a slot's data and code have. -/
def SlotBytes (c : ExtClass) (r : RowId) (n k : Nat) : Prop :=
  rowBase r + 64 * n ≤ k ∧ k < rowBase r + 64 * n + 64
    ∨ rowBase r + (codeSpan c).1 + (codeSpan c).2 * n ≤ k ∧ k < rowBase r + (codeSpan c).1 + (codeSpan c).2 * n + (codeSpan c).2

theorem DataSlot.slotBase {s : State} {r : RowId} {n : Nat} (h : DataSlot s r n) : s.slotBase r n = rowBase r + 64 * n := by
  unfold State.slotBase
  rw [h.plain]
  rfl

theorem DataSlot.codeBase {s : State} {r : RowId} {n : Nat} (h : DataSlot s r n) :
    codeBase (s.rowCode r) r n = (rowBase r + (codeSpan (s.extent r.stack (r.row / 32)).cls).1
        + (codeSpan (s.extent r.stack (r.row / 32)).cls).2 * n, (codeSpan (s.extent r.stack (r.row / 32)).cls).2)
      ∧ (s.rowCode r).pattern.length = (codeSpan (s.extent r.stack (r.row / 32)).cls).2 := by
  unfold State.rowCode
  rw [h.plain]
  cases (s.extent r.stack (r.row / 32)).cls with
  | N => exact ⟨by simp [Machine.codeBase, codeSpan], rfl⟩
  | D => exact ⟨rfl, rfl⟩
  | P =>
    refine ⟨?_, rfl⟩
    simp only [Option.isSome_none, Bool.false_eq_true, if_false, Machine.codeBase, codeSpan, Prod.mk.injEq, and_true]
    omega
  | pool => exact ⟨by simp [Machine.codeBase, codeSpan], rfl⟩

/-- The places of data and code of a slot share no byte (R85, R390). -/
theorem slotBytes_data_code {c : ExtClass} {r : RowId} {n k : Nat} (h : n < c.sectors)
    (hd : rowBase r + 64 * n ≤ k ∧ k < rowBase r + 64 * n + 64) :
    ¬ (rowBase r + (codeSpan c).1 + (codeSpan c).2 * n ≤ k
      ∧ k < rowBase r + (codeSpan c).1 + (codeSpan c).2 * n + (codeSpan c).2) := by
  cases c <;> simp only [ExtClass.sectors] at h <;> simp only [codeSpan] <;> omega

/-- Two slots of one row share no byte, and a row ends before the next begins (R85, R390). -/
theorem slotBytes_apart {c : ExtClass} {r r' : RowId} {n n' k : Nat} (h : n < c.sectors) (h' : n' < c.sectors)
    (ha : (r = r' ∧ n ≠ n') ∨ rowBase r + 2048 ≤ rowBase r' ∨ rowBase r' + 2048 ≤ rowBase r) (hk : SlotBytes c r n k) :
    ¬ SlotBytes c r' n' k := by
  unfold SlotBytes at hk ⊢
  obtain ⟨rfl, hne⟩ | hrow := ha
  · cases c <;> simp only [ExtClass.sectors] at h h' <;> simp only [codeSpan] at hk ⊢ <;> omega
  · cases c <;> simp only [ExtClass.sectors] at h h' <;> simp only [codeSpan] at hk ⊢ <;> omega

section
variable {s t : State} {r r' : RowId} {n n' : Nat} {d : List Byte} {p : Bool}

/-- A sector rests on the bytes of its slot. -/
theorem peekSector_congr (h : DataSlot s r n) (hrel : t.rel = s.rel)
    (hraw : ∀ k, SlotBytes (s.extent r.stack (r.row / 32)).cls r n k → sget 0 t.mem.raw k = sget 0 s.mem.raw k) :
    t.peekSector r n = s.peekSector r n := by
  have ht : DataSlot t r n := by
    constructor
    · have e := h.plain
      unfold State.strong? at e ⊢
      rw [hrel]
      exact e
    · have e := h.slot
      unfold State.extent at e ⊢
      rw [hrel]
      exact e
  have hcode : t.rowCode r = s.rowCode r := by
    unfold State.rowCode State.strong? State.extent
    rw [hrel]
  unfold State.peekSector
  dsimp only
  rw [ht.slotBase, h.slotBase, hcode, h.codeBase.1]
  dsimp only
  rw [rawBytes_congr fun k h1 h2 => hraw k (.inl ⟨h1, h2⟩), rawBytes_congr fun k h1 h2 => hraw k (.inr ⟨h1, h2⟩)]

/-- The bytes that a sector's write leaves. -/
theorem sget_pokeSector_apart (h : DataSlot s r n) (hwf : Memory.wf s.mem.raw = true) (hd : d.length = 64) {k : Nat}
    (hk : ¬ SlotBytes (s.extent r.stack (r.row / 32)).cls r n k) :
    sget 0 (s.pokeSector r n d p).mem.raw k = sget 0 s.mem.raw k := by
  unfold SlotBytes at hk
  obtain ⟨hbase, hlen⟩ := h.codeBase
  unfold State.pokeSector
  dsimp only
  rw [sget_rawPut (rawPut_wf _ _ _ hwf), sget_rawPut hwf, h.slotBase, hbase, hd, length_stored, hlen]
  dsimp only
  rw [if_neg fun e => hk (.inr e), if_neg fun e => hk (.inl e)]

/-- A sector that is written reads as it was written (R90, R392). -/
theorem peekSector_pokeSector (h : DataSlot s r n) (hwf : Memory.wf s.mem.raw = true) (hd : d.length = 64) :
    ((s.pokeSector r n d p).peekSector r n).1 = d := by
  have ht : DataSlot (s.pokeSector r n d p) r n := ⟨h.plain, h.slot⟩
  obtain ⟨hbase, hlen⟩ := h.codeBase
  have hraw : ∀ k, sget 0 (s.pokeSector r n d p).mem.raw k =
      sget 0 (rawPut (rawPut s.mem (rowBase r + 64 * n) d) (Machine.codeBase (s.rowCode r) r n).1
        ((s.rowCode r).stored d p)).raw k := by
    intro k
    unfold State.pokeSector
    rw [h.slotBase]
  have hdata : rawBytes (s.pokeSector r n d p).mem (rowBase r + 64 * n) 64 = d := by
    have e := rawBytes_eq (m := (s.pokeSector r n d p).mem) (a := rowBase r + 64 * n) (bs := d) fun k h1 h2 => by
      rw [hraw, sget_rawPut (rawPut_wf _ _ _ hwf), sget_rawPut hwf, hbase, length_stored, hlen,
        if_neg (slotBytes_data_code h.slot ⟨h1, hd ▸ h2⟩), if_pos ⟨h1, h2⟩]
    rwa [hd] at e
  have hcode : rawBytes (s.pokeSector r n d p).mem (Machine.codeBase (s.rowCode r) r n).1
      (Machine.codeBase (s.rowCode r) r n).2 = (s.rowCode r).stored d p := by
    have e : (Machine.codeBase (s.rowCode r) r n).2 = ((s.rowCode r).stored d p).length := by rw [length_stored, hlen, hbase]
    rw [e]
    refine rawBytes_eq fun k h1 h2 => ?_
    rw [hraw, sget_rawPut (rawPut_wf _ _ _ hwf), if_pos ⟨h1, h2⟩]
  have hrc : (s.pokeSector r n d p).rowCode r = s.rowCode r := rfl
  unfold State.peekSector
  rw [ht.slotBase, hrc]
  dsimp only
  rw [hdata, hcode]
  exact check_stored _ _ _

/-- A sector's write leaves the sectors of other slots and rows of its extent (R85, R390). -/
theorem peekSector_pokeSector_apart (h : DataSlot s r n) (h' : DataSlot s r' n') (hwf : Memory.wf s.mem.raw = true)
    (hd : d.length = 64) (hcls : (s.extent r'.stack (r'.row / 32)).cls = (s.extent r.stack (r.row / 32)).cls)
    (ha : (r = r' ∧ n ≠ n') ∨ rowBase r + 2048 ≤ rowBase r' ∨ rowBase r' + 2048 ≤ rowBase r) :
    (s.pokeSector r n d p).peekSector r' n' = s.peekSector r' n' :=
  peekSector_congr h' rfl fun _ hk => sget_pokeSector_apart h hwf hd fun hk' =>
    slotBytes_apart h.slot (hcls ▸ h'.slot) ha hk' (hcls ▸ hk)

end

/-! The two sectors of a line. -/

/-- The line stands in its extent, in rows that are not strengthened. -/
structure PlainLine (s : State) (l : LineId) : Prop where
  cls : (s.extent l.stack l.ext).cls ≠ .pool
  size : 128 * l.line < (s.extent l.stack l.ext).cls.size
  plain : ∀ r ∈ s.lineRows l, s.strong? r = none

theorem mem_lineRows {s : State} {l : LineId} {r : RowId} :
    r ∈ s.lineRows l ↔ r = (lineSector s l 0).1 ∨ r = (lineSector s l 1).1 := by
  unfold State.lineRows
  rw [List.mem_eraseDups]
  simp

/-- The row of an extent that holds its `k`-th row's worth of sectors (R86). -/
def extentRow (st e k : Nat) : RowId :=
  { stack := st, pch := k % 64, bg := k / 64 % 16, bank := k / 1024 % 4, row := 32 * e + k / 4096 }

/-- Different rows of an extent do not meet. -/
theorem rowBase_apart {st e k k' : Nat} (hk : k < 131072) (hk' : k' < 131072) (hne : k ≠ k') :
    rowBase (extentRow st e k) + 2048 ≤ rowBase (extentRow st e k')
      ∨ rowBase (extentRow st e k') + 2048 ≤ rowBase (extentRow st e k) := by
  have hbase : ∀ k, rowBase (extentRow st e k) =
      ((st * 4096 + (k % 64 * 64 + k / 64 % 16 * 4 + k / 1024 % 4)) * 8192 + (32 * e + k / 4096)) * 2048 := by
    intro k
    unfold rowBase extentRow
    dsimp only
    omega
  have hdigits : k % 64 * 64 + k / 64 % 16 * 4 + k / 1024 % 4 = k' % 64 * 64 + k' / 64 % 16 * 4 + k' / 1024 % 4 →
      k / 4096 ≠ k' / 4096 := by
    intro h h4
    have : k % 64 = k' % 64 := by omega
    have : k / 64 % 16 = k' / 64 % 16 := by omega
    omega
  rw [hbase, hbase]
  generalize k % 64 * 64 + k / 64 % 16 * 4 + k / 1024 % 4 = u at hdigits
  generalize k' % 64 * 64 + k' / 64 % 16 * 4 + k' / 1024 % 4 = u' at hdigits
  rcases Nat.lt_trichotomy u u' with h | h | h <;> omega

/-- The two sectors of a line stand in different slots or rows of their extent (R86). -/
theorem sectorPlace_apart {c : ExtClass} {st e n n' : Nat} (hc : c ≠ .pool) (hn : 64 * n < c.size) (hn' : 64 * n' < c.size)
    (hne : n ≠ n') :
    let x := sectorPlace c st e n
    let y := sectorPlace c st e n'
    (x.1 = y.1 ∧ x.2 ≠ y.2) ∨ rowBase x.1 + 2048 ≤ rowBase y.1 ∨ rowBase y.1 + 2048 ≤ rowBase x.1 := by
  intro x y
  by_cases hk : n / c.sectors = n' / c.sectors
  · refine .inl ⟨by unfold x y sectorPlace; rw [hk], fun hm => hne ?_⟩
    have h1 := Nat.div_add_mod n c.sectors
    have h2 := Nat.div_add_mod n' c.sectors
    have hm' : n % c.sectors = n' % c.sectors := hm
    rw [← h1, ← h2, hk, hm']
  · right
    have hrow : ∀ m, 64 * m < c.size → m / c.sectors < 131072 := by
      intro m hm
      cases c <;> simp only [ExtClass.size, ExtClass.sectors] at hm ⊢ <;> omega
    exact rowBase_apart (hrow n hn) (hrow n' hn') hk

theorem PlainLine.dataSlot {s : State} {l : LineId} (h : PlainLine s l) {i : Nat} (hi : i < 2) :
    DataSlot s (lineSector s l i).1 (lineSector s l i).2
      ∧ (lineSector s l i).1.stack = l.stack ∧ (lineSector s l i).1.row / 32 = l.ext := by
  have hrow : (lineSector s l i).1.row / 32 = l.ext := by
    have hsize := h.size
    have hcls := h.cls
    unfold lineSector sectorPlace
    dsimp only
    cases hc : (s.extent l.stack l.ext).cls with
    | pool => exact absurd hc hcls
    | _ =>
      rw [hc] at hsize
      simp only [ExtClass.size, ExtClass.sectors] at hsize ⊢
      omega
  refine ⟨⟨h.plain _ (mem_lineRows.2 ?_), ?_⟩, rfl, hrow⟩
  · interval_cases i
    · exact .inl rfl
    · exact .inr rfl
  · rw [hrow]
    refine Nat.mod_lt _ ?_
    have hcls := h.cls
    show 0 < (s.extent l.stack l.ext).cls.sectors
    cases hc : (s.extent l.stack l.ext).cls with
    | pool => exact absurd hc hcls
    | _ => decide

/-- The bytes of a line are those of its two sectors. -/
theorem stackLine_fst (s : State) (l : LineId) : (s.stackLine l).1 =
    (s.peekSector (lineSector s l 0).1 (lineSector s l 0).2).1 ++ (s.peekSector (lineSector s l 1).1 (lineSector s l 1).2).1 := rfl

section
variable {s : State} {l : LineId} {d : List Byte} {p : Bool}

theorem PlainLine.poke (h : PlainLine s l) {i j : Nat} (hi : i < 2) (hj : j < 2) (hwf : Memory.wf s.mem.raw = true)
    (hd : d.length = 64) :
    ((s.pokeSector (lineSector s l i).1 (lineSector s l i).2 d p).peekSector (lineSector s l j).1 (lineSector s l j).2).1 =
      if i = j then d else (s.peekSector (lineSector s l j).1 (lineSector s l j).2).1 := by
  obtain ⟨si, ei, ri⟩ := h.dataSlot hi
  obtain ⟨sj, ej, rj⟩ := h.dataSlot hj
  split
  · next hij =>
    subst hij
    exact peekSector_pokeSector si hwf hd
  · next hij =>
    have hsize : ∀ i < 2, 64 * (2 * l.line + i) < (s.extent l.stack l.ext).cls.size := by
      intro i hi
      have hs := h.size
      cases hc : (s.extent l.stack l.ext).cls <;> rw [hc] at hs <;> simp only [ExtClass.size] at hs ⊢ <;> omega
    exact congrArg Prod.fst (peekSector_pokeSector_apart si sj hwf hd (by rw [ei, ri, ej, rj])
      (sectorPlace_apart h.cls (hsize i hi) (hsize j hj) (by omega)))

/-- A line after one of its sectors has been written. -/
theorem PlainLine.stackLine_poke (h : PlainLine s l) (hwf : Memory.wf s.mem.raw = true) (hd : d.length = 64) :
    ((s.pokeSector (lineSector s l 0).1 (lineSector s l 0).2 d p).stackLine l).1 =
        d ++ (s.peekSector (lineSector s l 1).1 (lineSector s l 1).2).1
      ∧ ((s.pokeSector (lineSector s l 1).1 (lineSector s l 1).2 d p).stackLine l).1 =
        (s.peekSector (lineSector s l 0).1 (lineSector s l 0).2).1 ++ d := by
  have key := fun {i j} hi hj => h.poke (p := p) (i := i) (j := j) hi hj hwf hd
  rw [stackLine_fst, stackLine_fst]
  constructor
  · exact congrArg₂ _ (key (i := 0) (j := 0) (by decide) (by decide)) (key (i := 0) (j := 1) (by decide) (by decide))
  · exact congrArg₂ _ (key (i := 1) (j := 0) (by decide) (by decide)) (key (i := 1) (j := 1) (by decide) (by decide))

end

end Sys2Proof.Machine
end

