-- ==== Sys2Proof/Proofs/Returns.lean ====
section
/-! SUPPORT. A load's value and its way to the registers of a resident group (R40, R147, R224). -/

namespace Sys2Proof.Machine

/-! The words of a loaded value. -/

theorem append_toNat_two (a b : Byte) : (b ++ a).toNat = a.toNat + 256 * b.toNat := by
  rw [BitVec.toNat_append, ← Nat.shiftLeft_add_eq_or_of_lt a.isLt, Nat.shiftLeft_eq]
  omega

/-- Four bytes, the lowest first, as a word. -/
theorem append_toNat_four (a b c d : Byte) :
    (d ++ c ++ b ++ a).toNat = a.toNat + 256 * (b.toNat + 256 * (c.toNat + 256 * d.toNat)) := by
  rw [BitVec.toNat_append, ← Nat.shiftLeft_add_eq_or_of_lt a.isLt, BitVec.toNat_append,
    ← Nat.shiftLeft_add_eq_or_of_lt b.isLt, append_toNat_two]
  simp only [Nat.shiftLeft_eq]
  omega

/-- Sign extension of a narrow value to a register (R147). -/
theorem ofNat_wrapNat_natSext {w : Nat} (x : BitVec w) (hw : 0 < w) :
    BitVec.ofNat 32 (wrapNat (natSext x.toNat w) 32) = x.signExtend 32 := by
  have e : natSext x.toNat w = x.toInt := by
    unfold natSext
    rw [if_neg (by omega), Nat.mod_eq_of_lt x.isLt, BitVec.toInt_eq_toNat_cond]
    have hpow : 2 ^ w = 2 * 2 ^ (w - 1) := by
      rw [← Nat.pow_succ', Nat.succ_eq_add_one, Nat.sub_add_cancel hw]
    by_cases h : x.toNat < 2 ^ (w - 1)
    · rw [if_pos h, if_pos (by omega)]
    · rw [if_neg h, if_neg (by omega)]
  rw [e]
  refine BitVec.eq_of_toInt_eq ?_
  unfold BitVec.signExtend wrapNat
  apply congrArg
  apply BitVec.eq_of_toNat_eq
  rw [BitVec.toNat_ofNat, BitVec.toNat_ofInt, Nat.mod_eq_of_lt]
  omega

theorem length_loadWords {bs : List Byte} {tags : List Bool} {signed : Bool} (h : bs.length ∈ [1, 2, 4, 8, 16]) :
    (loadWords bs tags signed).length = (bs.length + 3) / 4 := by
  unfold loadWords
  simp only [List.mem_cons, List.not_mem_nil, or_false] at h
  split
  · simp only [List.length_cons, List.length_nil]
    omega
  · simp only [List.length_map, List.length_range]
    omega

/-- Each register word of a load (R147, R224). -/
theorem loadWords_val {bs : List Byte} {tags : List Bool} {signed : Bool} (h : bs.length ∈ [1, 2, 4, 8, 16]) {i : Nat}
    (hi : i < (bs.length + 3) / 4) : ((loadWords bs tags signed)[i]?.map (·.val)) = some (loadMeaning signed bs i) := by
  simp only [List.mem_cons, List.not_mem_nil, or_false] at h
  by_cases h4 : bs.length < 4
  · obtain rfl : i = 0 := by omega
    rcases h with h | h | h | h | h
    · obtain ⟨a, rfl⟩ := List.length_eq_one_iff.1 h
      have e : leNat [a] = a.toNat := by simp [leNat]
      cases signed
      · simp [loadWords, loadMeaning, e]
      · simp [loadWords, loadMeaning, e, ofNat_wrapNat_natSext a (by decide)]
    · obtain ⟨a, b, rfl⟩ := List.length_eq_two.1 h
      have e : leNat [a, b] = (b ++ a).toNat := by
        rw [append_toNat_two]
        rfl
      cases signed
      · simp [loadWords, loadMeaning, e]
      · simp [loadWords, loadMeaning, e, ofNat_wrapNat_natSext (b ++ a) (by decide)]
    all_goals omega
  · have hword : (bs.drop (4 * i)).take 4 = [bs.getD (4 * i) 0, bs.getD (4 * i + 1) 0, bs.getD (4 * i + 2) 0,
        bs.getD (4 * i + 3) 0] := by
      have hb : ∀ j < 4, 4 * i + j < bs.length := by omega
      refine List.ext_getElem (by simp; omega) fun j h1 h2 => ?_
      have hj : j < 4 := by simpa using h2
      have h0 : 4 * i < bs.length := hb 0 (by decide)
      have := hb j hj
      interval_cases j <;> simp [List.getD_eq_getElem?_getD, *]
    have hval : BitVec.ofNat 32 (leNat ((bs.drop (4 * i)).take 4)) =
        bs.getD (4 * i + 3) 0 ++ bs.getD (4 * i + 2) 0 ++ bs.getD (4 * i + 1) 0 ++ bs.getD (4 * i) 0 := by
      rw [hword]
      apply BitVec.eq_of_toNat_eq
      rw [append_toNat_four, BitVec.toNat_ofNat]
      generalize bs.getD (4 * i) 0 = a, bs.getD (4 * i + 1) 0 = b, bs.getD (4 * i + 2) 0 = c, bs.getD (4 * i + 3) 0 = d
      simp only [leNat]
      omega
    have hmeaning : loadMeaning signed bs i =
        bs.getD (4 * i + 3) 0 ++ bs.getD (4 * i + 2) 0 ++ bs.getD (4 * i + 1) 0 ++ bs.getD (4 * i) 0 := by
      unfold loadMeaning
      split
      · omega
      · omega
      · rfl
    unfold loadWords
    rw [if_neg h4, hmeaning, ← hval, List.getElem?_map, List.getElem?_range (by omega)]
    rfl

/-! The registers that a return reaches. -/

/-- Words written to consecutive registers of a lane. -/
theorem rdV_putVals_words {lane reg : Nat} (hL : lane < 32) (ws : List TW) :
    ∀ (k : Nat) (g : Group), swf ⟨0, false⟩ g.v = true → ∀ j,
      rdV (g.putVals ((ws.zipIdx k).map fun x => (.v (reg + x.2), lane, x.1))) (reg + j) lane =
        if k ≤ j ∧ j < k + ws.length then ws.getD (j - k) ⟨0, false⟩ else rdV g (reg + j) lane := by
  induction ws with
  | nil =>
    intro k g _ j
    rw [if_neg (by simp)]
    rfl
  | cons w ws ih =>
    intro k g hg j
    have hstep : g.putVals (((w :: ws).zipIdx k).map fun x => (.v (reg + x.2), lane, x.1)) =
        (wrV g (reg + k) lane w).putVals ((ws.zipIdx (k + 1)).map fun x => (.v (reg + x.2), lane, x.1)) := rfl
    rw [hstep, ih (k + 1) _ (swf_sset _ _ _ _ hg), rdV_wrV _ _ _ _ _ hg hL hL, List.length_cons]
    by_cases hj : j = k
    · rw [if_neg (by omega), if_pos (by omega), if_pos (by omega), hj, Nat.sub_self]
      rfl
    · by_cases hin : k + 1 ≤ j ∧ j < k + 1 + ws.length
      · rw [if_pos hin, if_pos (by omega), show j - k = j - (k + 1) + 1 by omega]
        rfl
      · rw [if_neg hin, if_neg (by omega), if_neg (by omega)]

theorem rdV_returned {g : Group} {r : Req} {ws : List TW} {i : Nat} (hg : g.Canonical) (hL : r.lane < 32) (hi : i < ws.length) :
    rdV (g.returned r (returnVals r false ws)) (r.reg + i) r.lane = ws.getD i ⟨0, false⟩ := by
  obtain ⟨-, hv, -⟩ := hg
  have h := rdV_putVals_words (reg := r.reg) hL ws 0 g hv i
  rw [if_pos (by omega)] at h
  exact h

theorem putVals_gid (g : Group) (vs : RegVals) : (g.putVals vs).gid = g.gid := by
  unfold Group.putVals
  refine foldl_keep (P := fun x : Group => x.gid = g.gid) rfl fun x v hx => ?_
  dsimp only
  split
  · exact hx
  · exact hx
  · unfold wrPBit wrP
    dsimp only
    split <;> exact hx
  · exact hx
  · exact hx
  · exact hx

/-- A return to a resident group that still has the registers reaches them, and its request ends (R40). -/
theorem deliver_resident {s : State} {r : Req} {g : Group} {ws : List TW} (hg : s.group? r.gid = some g)
    (he : g.ended = false) (hf : g.frame = none) (hgen : g.regGen r.reg = r.gen)
    (hheld : ∀ i < ws.length, regHeld g (.v (r.reg + i)) = true) :
    (s.deliver r false ws).mem.raw = s.mem.raw ∧ (s.deliver r false ws).req? r.id = none
      ∧ (s.deliver r false ws).group? r.gid = some (g.returned r (returnVals r false ws)) := by
  have hlost : lostReturn g r false ws.length = false := by
    simpa [lostReturn, hgen] using hheld
  have hgid : ∀ x : Group, (x.returned r (returnVals r false ws)).gid = x.gid := fun x => putVals_gid x _
  have hgd : (s.dropReq r.id).group? r.gid = some g := hg
  unfold State.deliver
  dsimp only
  rw [hgd]
  dsimp only
  rw [he, hf, hlost]
  simp only [Bool.false_eq_true, if_false]
  split
  · exact ⟨rfl, req?_dropReq s r.id, group?_onGroup_same (s := (s.dropReq r.id).freshFetch g.core g.pasid) hgd hgid⟩
  · exact ⟨rfl, req?_dropReq s r.id, group?_onGroup_same hgd hgid⟩

end Sys2Proof.Machine
end

