-- ==== Sys2Proof/Proofs/HeldWork.lean ====
section
/-! SUPPORT. Work that passes its rows, and demand reads of sectors without an error (R89, R93, R306). -/

namespace Sys2Proof.Machine

/-! Work that passes. -/

/-- The state with other work at its rows and banks. -/
def State.withWaits (s : State) (b : List BankEntry) (h q : List HoldEntry) : State :=
  { s with mem := { s.mem with bankQ := b, holdQ := h, linkQ := q } }

/-- Work that passes its rows changes nothing but what waits for rows and banks. -/
theorem dropHold_frame (s : State) (rs : List RowId) (w : HeldWork) :
    ∃ b h q, s.dropHold rs w = s.withWaits b h q := by
  unfold State.dropHold
  refine foldl_keep (P := fun t : State => ∃ b h q, t = s.withWaits b h q) ⟨_, _, _, rfl⟩ fun t e ⟨b, h, q, ht⟩ => ?_
  subst ht
  unfold State.unhold
  dsimp only
  split <;> exact ⟨_, _, _, rfl⟩

theorem passRows_passes {s : State} {rs : List RowId} {w : HeldWork} (h : ∀ r ∈ rs, s.rowStops w r = false) :
    s.passRows rs w = .ok (s.dropHold rs w) := by
  unfold State.passRows
  rw [List.find?_eq_none.2 fun r hr => by simp [h r hr]]

theorem rowsPass_iff {s : State} {rs : List RowId} {w : HeldWork} :
    s.rowsPass rs w = true ↔ ∀ r ∈ rs, s.rowStops w r = false := by
  unfold State.rowsPass
  simp

/-- The first of a list's elements that meet a test goes from them when it is erased. -/
theorem filter_erase_head {α : Type} [DecidableEq α] {p : α → Bool} {l rest : List α} {a : α}
    (h : l.filter p = a :: rest) : (l.erase a).filter p = rest := by
  have ha : p a = true := (List.mem_filter.1 (h ▸ List.mem_cons_self .. : a ∈ l.filter p)).2
  induction l with
  | nil => cases h
  | cons x l ih =>
    by_cases hx : p x = true
    · rw [List.filter_cons_of_pos hx] at h
      obtain ⟨rfl, hrest⟩ := List.cons.inj h
      rw [List.erase_cons_head, hrest]
    · rw [List.filter_cons_of_neg hx] at h
      have hne : x ≠ a := fun e => hx (e ▸ ha)
      rw [List.erase_cons_tail (by simpa using hne), List.filter_cons_of_neg hx, ih h]

/-- An entry of a hold queue is some work's at one of some rows. -/
def HoldEntry.isAt (w : HeldWork) (rs : List RowId) (x : HoldEntry) : Bool := x.work = w && rs.contains x.row

/-- The entries of the work at the rows that remain, as they leave one by one. -/
theorem unhold_all {rs : List RowId} {w : HeldWork} (es : List HoldEntry) : ∀ t : State,
    t.mem.holdQ.filter (HoldEntry.isAt w rs) = es → t.mem.linkQ.filter (HoldEntry.isAt w rs) = [] →
    (es.foldl (fun s h => s.unhold h) t).mem.holdQ.filter (HoldEntry.isAt w rs) = []
      ∧ (es.foldl (fun s h => s.unhold h) t).mem.linkQ.filter (HoldEntry.isAt w rs) = []
      ∧ (es.foldl (fun s h => s.unhold h) t).mem.bankQ = t.mem.bankQ := by
  induction es with
  | nil => exact fun t hq hl => ⟨hq, hl, rfl⟩
  | cons e es ih =>
    intro t hq hl
    have herase := filter_erase_head hq
    rw [List.foldl_cons]
    have hstep : (t.unhold e).mem.holdQ.filter (HoldEntry.isAt w rs) = es
        ∧ (t.unhold e).mem.linkQ.filter (HoldEntry.isAt w rs) = [] ∧ (t.unhold e).mem.bankQ = t.mem.bankQ := by
      unfold State.unhold
      dsimp only
      split
      · next x hx =>
        have hnot := List.filter_eq_nil_iff.1 hl
        refine ⟨?_, List.filter_eq_nil_iff.2 fun y hy => hnot y (List.mem_of_mem_erase hy), rfl⟩
        rw [List.filter_append, herase, List.filter_cons_of_neg (hnot x (List.mem_of_find?_eq_some hx)), List.filter_nil,
          List.append_nil]
      · exact ⟨herase, hl, rfl⟩
    obtain ⟨h1, h2, h3⟩ := hstep
    obtain ⟨i1, i2, i3⟩ := ih _ h1 h2
    exact ⟨i1, i2, i3.trans h3⟩

/-- Work that has passed its rows waits at none of them (R93, R306). -/
theorem dropHold_heldAt {s : State} {rs : List RowId} {w : HeldWork} {r : RowId} (hr : r ∈ rs) :
    (s.dropHold rs w).heldAt w r = false := by
  obtain ⟨hhold, hlink, hbank⟩ := unhold_all (rs := rs) (w := w) (s.mem.holdQ.filter (HoldEntry.isAt w rs))
    { s with mem := { s.mem with
      bankQ := s.mem.bankQ.filter fun x => !(x.work = w && rs.contains x.row)
      linkQ := s.mem.linkQ.filter fun x => !(x.work = w && rs.contains x.row) } } rfl
    (by
      rw [List.filter_filter, List.filter_eq_nil_iff]
      intro x _
      simp [HoldEntry.isAt])
  have hgone : ∀ q : List HoldEntry, q.filter (HoldEntry.isAt w rs) = [] → w ∉ (q.filter fun x => x.row = r).map (·.work) := by
    intro q hq hm
    obtain ⟨x, hx, hw⟩ := List.mem_map.1 hm
    obtain ⟨hx, hrow⟩ := List.mem_filter.1 hx
    have hrow : x.row = r := by simpa using hrow
    refine List.filter_eq_nil_iff.1 hq x hx ?_
    simp [HoldEntry.isAt, hw, hrow, hr]
  unfold State.heldAt State.rowQueue
  rw [← Bool.not_eq_true, List.contains_iff_mem, List.mem_append, List.mem_append]
  rintro ((hm | hm) | hm)
  · obtain ⟨x, hx, hw⟩ := List.mem_map.1 hm
    obtain ⟨hx, hrow⟩ := List.mem_filter.1 hx
    have hrow : x.row = r := by simpa using hrow
    rw [show (s.dropHold rs w).mem.bankQ = _ from hbank] at hx
    have := (List.mem_filter.1 hx).2
    simp [hw, hrow, hr] at this
  · exact hgone _ hhold hm
  · exact hgone _ hlink hm

/-! Demand reads that meet no error (R89). -/

/-- A sector stands clean or poisoned. -/
abbrev SoundSector (s : State) (r : RowId) (n : Nat) : Prop := (s.peekSector r n).2 ∈ [Verdict.clean, .poison]

theorem demandSector_sound {s : State} {who : Who} {r : RowId} {n : Nat} (h : SoundSector s r n) :
    s.demandSector who r n = (((s.peekSector r n).1, (s.peekSector r n).2.tagged), s) := by
  unfold SoundSector at h
  unfold State.demandSector
  generalize s.peekSector r n = x at h
  obtain ⟨d, v⟩ := x
  cases v with
  | clean => rfl
  | poison => rfl
  | corrected => simp at h
  | uncorrectable => simp at h

theorem demandLine_sound {s : State} {who : Who} {l : LineId}
    (h : ∀ i < 2, SoundSector s (lineSector s l i).1 (lineSector s l i).2) : s.demandLine who l = (s.stackLine l, s) := by
  have h0 := demandSector_sound (who := who) (h 0 (by decide))
  have h1 := demandSector_sound (who := who) (h 1 (by decide))
  unfold State.demandLine
  dsimp only
  rw [h0]
  dsimp only
  rw [h1]
  rfl

end Sys2Proof.Machine
end

