-- ==== Sys2Proof/Proofs/StackPort.lean ====
section
/-! SUPPORT. Fills from a stack, accesses of the stack port, held write-backs and instruction lines (R13, R83, R92, R93,
R444). -/

namespace Sys2Proof.Machine

/-! Fills (R83). -/

theorem servePrefetch_depot {s : State} {l : LineId} : (s.servePrefetch l).mem.depot = s.mem.depot := by
  unfold State.servePrefetch
  split
  · split
    · rfl
    · refine foldl_keep (P := fun t : State => t.mem.depot = s.mem.depot) rfl fun t p ht => ?_
      split
      · exact ht
      · rw [l1Grant_eq]
        exact ht
  · rfl

theorem wantOf_some {s : State} {l : LineId} {w : Want} (h : s.wantOf l = some w) : s.line? l = none ∧ w.line = l := by
  unfold State.wantOf at h
  split at h
  · cases h
  · next hx => exact ⟨by simpa using hx, by simpa using List.find?_some h⟩

/-- The state in which a wanted line has come into the depot. -/
def State.lineIn (s : State) (w : Want) (x : List Byte × Word) : State :=
  { s with mem := { s.mem with
    wants := s.mem.wants.filter fun x => x.line ≠ w.line
    depot := s.mem.depot ++ [⟨w.line, x.1, false, w.res, x.2, [], []⟩] } }

theorem line?_lineIn {s : State} {w : Want} {x : List Byte × Word} (h : s.line? w.line = none) (k : LineId) :
    (s.lineIn w x).line? k = if k = w.line then some ⟨w.line, x.1, false, w.res, x.2, [], []⟩ else s.line? k := by
  unfold State.line? State.lineIn at *
  dsimp only
  rw [List.find?_append, List.find?_singleton]
  by_cases hk : k = w.line
  · rw [hk, h]
    simp
  · rw [if_neg hk]
    simp [Ne.symm hk]

/-- A wanted line whose set has room and whose rows can be passed comes in from its stack (R83). -/
theorem doDepotFill_free {s : State} {l : LineId} {w : Want}
    (hsound : ∀ i < 2, SoundSector s (lineSector s l i).1 (lineSector s l i).2) (hw : s.wantOf l = some w)
    (hpass : s.rowsPass (s.lineRows l) (.fill l) = true) (hv : s.victim l w.res = .free) :
    doDepotFill l s = ((s.dropHold (s.lineRows l) (.fill l)).lineIn w (s.stackLine l)).servePrefetch l := by
  obtain ⟨-, hl⟩ := wantOf_some hw
  subst hl
  rw [rowsPass_iff] at hpass
  have hdrop : (w.drop && (s.lineRows w.line).any fun r => s.rowStops (.fill w.line) r && !s.waitsBank r) = false := by
    have : ((s.lineRows w.line).any fun r => s.rowStops (.fill w.line) r && !s.waitsBank r) = false := by
      rw [List.any_eq_false]
      intro r hr
      simp [hpass r hr]
    rw [this, Bool.and_false]
  unfold doDepotFill State.fillWanted
  rw [hw]
  dsimp only
  rw [hv, hdrop, passRows_passes hpass]
  obtain ⟨b, h, q, e⟩ := dropHold_frame s (s.lineRows w.line) (.fill w.line)
  have hv' : (s.dropHold (s.lineRows w.line) (.fill w.line)).victim w.line w.res = .free := by rw [e]; exact hv
  have hd : (s.dropHold (s.lineRows w.line) (.fill w.line)).demandLine ⟨w.ctx, w.gid⟩ w.line =
      (s.stackLine w.line, s.dropHold (s.lineRows w.line) (.fill w.line)) := by
    rw [e]
    exact demandLine_sound (s := s.withWaits b h q) hsound
  simp only [reduceCtorEq, if_false, Bool.false_eq_true]
  unfold State.fill
  dsimp only
  rw [hv']
  dsimp only
  rw [hd]
  rfl

/-! Instruction lines (R444). -/

theorem trimVictims_frame {s : State} {c : Nat} : (s.trimVictims c).mem = s.mem ∧ (s.trimVictims c).ltick = s.ltick := by
  unfold State.trimVictims
  extract_lets vs gone
  split <;> exact ⟨rfl, rfl⟩

/-- An instruction line that is filled is the one found there while its lease runs. -/
theorem icFind_icFill {s : State} {n : ICLine} (he : s.ltick < n.expiry) :
    (s.icFill n).icFind n.core n.pasid (128 * n.vline) = some n ∧ (s.icFill n).mem.leases = s.mem.leases := by
  unfold State.icFill
  extract_lets keep mine kept
  have hkeep : ∀ y ∈ keep, ¬ (y.core = n.core ∧ y.pasid = n.pasid ∧ y.vline = n.vline) := by
    intro y hy hn
    have := (List.mem_filter.1 hy).2
    simp [hn] at this
  have hkept : ∀ y ∈ kept, y ∈ keep := by
    intro y hy
    unfold kept at hy
    split at hy
    · exact hy
    · split at hy
      · exact (List.mem_filter.1 hy).1
      · exact hy
  clear_value kept
  unfold State.icFind
  rw [trimVictims_frame.1, trimVictims_frame.2]
  refine ⟨?_, rfl⟩
  dsimp only
  rw [List.find?_append, List.find?_eq_none.2, Option.none_or, List.find?_singleton]
  · simp [he]
  · intro y hy
    have := hkeep y (hkept y hy)
    simpa using fun hc hp hl => absurd ⟨hc, hp, hl⟩ this

theorem leaseEnd_grant (s : State) (l : LineId) (x : Nat) : (s.grant l x).leaseEnd l = max x (s.leaseEnd l) := by
  unfold State.grant
  simp only [State.leaseEnd, List.find?_append]
  simp [List.find?_eq_none.2]

theorem onLine_frame (s : State) (l : LineId) (f : DepotLine → DepotLine) : { s.onLine l f with mem := s.mem } = s := by
  unfold State.onLine
  split <;> rfl

/-- An instruction line whose home slice holds it, with no write waiting there, comes in with a lease (R444). -/
theorem doIcacheFill_depot {s : State} {core pasid vline pa res ofs : Nat} {nc : Bool} {g : Group} {l : LineId}
    {cls : Option ExtClass} {x : DepotLine} (hf : s.fetcher core pasid vline = some g)
    (hi : s.icFind core pasid (128 * vline) = none) (hc : canonical (128 * vline) = true)
    (ht : s.translate core pasid (128 * vline) .fetch = .hit pa nc res) (hp : s.placeOf pa nc (g.ctx = 0) = .at (.line l ofs) cls)
    (hh : s.heldOn l = []) (hx : s.line? l = some x) :
    doIcacheFill core pasid vline s = ((s.onLine l id).grant l (s.ltick + leaseOf (s.ctx g.ctx))).icFill
      ⟨core, pasid, vline, x.bytes, x.poison, s.ltick + leaseOf (s.ctx g.ctx)⟩ := by
  have hl : (s.onLine l id).ltick = s.ltick := by
    have e := congrArg State.ltick (onLine_frame s l id)
    exact e
  have hctx : (s.onLine l id).ctx g.ctx = s.ctx g.ctx := by
    have e := congrArg (fun u : State => u.ctx g.ctx) (onLine_frame s l id)
    exact e
  unfold doIcacheFill
  rw [hf]
  dsimp only
  rw [hi, hc, ht]
  dsimp only
  rw [hp]
  dsimp only
  rw [hh, hx]
  dsimp only
  rw [hl, hctx]
  rfl

/-! Bytes of a line and of its sectors. -/

theorem putBytes_append_left {a b bs : List Byte} {o : Nat} (h : o + bs.length ≤ a.length) :
    putBytes (a ++ b) o bs = putBytes a o bs ++ b := by
  unfold putBytes
  rw [List.mapIdx_append]
  congr 1
  refine List.ext_getElem (by simp) fun i h1 h2 => ?_
  rw [List.getElem_mapIdx, if_neg]
  simp only [Bool.and_eq_true, decide_eq_true_eq]
  omega

theorem putBytes_append_right {a b bs : List Byte} {o : Nat} : putBytes (a ++ b) (a.length + o) bs = a ++ putBytes b o bs := by
  unfold putBytes
  rw [List.mapIdx_append]
  congr 1
  · refine List.ext_getElem (by simp) fun i h1 h2 => ?_
    rw [List.getElem_mapIdx, if_neg]
    simp only [Bool.and_eq_true, decide_eq_true_eq]
    omega
  · congr
    funext i x
    have e : (decide (a.length + o ≤ i + a.length) && decide (i + a.length < a.length + o + bs.length)) =
        (decide (o ≤ i) && decide (i < o + bs.length)) := by
      congr 1 <;> exact decide_eq_decide.2 (by omega)
    rw [e, show i + a.length - (a.length + o) = i - o by omega]

theorem length_putBytes {d bs : List Byte} {o : Nat} : (putBytes d o bs).length = d.length := List.length_mapIdx

theorem length_stackLine (s : State) (l : LineId) : (s.stackLine l).1.length = 128 := by
  rw [stackLine_fst, List.length_append, length_peekSector, length_peekSector]

/-- Bytes of a line that stand in one of its sectors. -/
theorem stackLine_slice {s : State} {l : LineId} {ofs n : Nat} (h : ofs < 128) (hn : ofs % 64 + n ≤ 64) :
    ((s.stackLine l).1.drop ofs).take n =
      ((s.peekSector (lineSector s l (ofs / 64)).1 (lineSector s l (ofs / 64)).2).1.drop (ofs % 64)).take n := by
  have hlen := fun i => length_peekSector s (lineSector s l i).1 (lineSector s l i).2
  rw [stackLine_fst]
  by_cases ho : ofs < 64
  · rw [Nat.div_eq_of_lt ho, Nat.mod_eq_of_lt ho] at *
    rw [List.drop_append_of_le_length (by rw [hlen]; omega), List.take_append_of_le_length (by rw [List.length_drop, hlen]; omega)]
  · obtain ⟨o, rfl⟩ : ∃ o, ofs = 64 + o := ⟨ofs - 64, by omega⟩
    rw [show (64 + o) / 64 = 1 by omega, show (64 + o) % 64 = o by omega, ← List.drop_drop]
    have e := List.drop_left' (l₂ := (s.peekSector (lineSector s l 1).1 (lineSector s l 1).2).1) (hlen 0)
    rw [e]

theorem sectorPlace_line {s : State} {l : LineId} {ofs : Nat} :
    sectorPlace (s.extent l.stack l.ext).cls l.stack l.ext ((128 * l.line + ofs) / 64) = lineSector s l (ofs / 64) := by
  unfold lineSector
  rw [show (128 * l.line + ofs) / 64 = 2 * l.line + ofs / 64 by omega]

/-- A line after bytes within one of its sectors have been written. -/
theorem PlainLine.stackLine_put {s : State} {l : LineId} {ofs : Nat} {bs : List Byte} {p : Bool} (h : PlainLine s l)
    (hwf : Memory.wf s.mem.raw = true) (ho : ofs < 128) (hfit : ofs % 64 + bs.length ≤ 64) :
    ((s.pokeSector (lineSector s l (ofs / 64)).1 (lineSector s l (ofs / 64)).2
      (putBytes (s.peekSector (lineSector s l (ofs / 64)).1 (lineSector s l (ofs / 64)).2).1 (ofs % 64) bs) p).stackLine l).1 =
      putBytes (s.stackLine l).1 ofs bs := by
  have hlen := fun i => length_peekSector s (lineSector s l i).1 (lineSector s l i).2
  obtain ⟨h0, h1⟩ := h.stackLine_poke (p := p) (d := putBytes (s.peekSector (lineSector s l (ofs / 64)).1
    (lineSector s l (ofs / 64)).2).1 (ofs % 64) bs) hwf (length_putBytes.trans (hlen _))
  rw [stackLine_fst s]
  by_cases hlow : ofs < 64
  · rw [Nat.div_eq_of_lt hlow, Nat.mod_eq_of_lt hlow] at *
    rw [h0, putBytes_append_left (by rw [hlen]; omega)]
  · obtain ⟨o, rfl⟩ : ∃ o, ofs = 64 + o := ⟨ofs - 64, by omega⟩
    rw [show (64 + o) / 64 = 1 by omega, show (64 + o) % 64 = o by omega] at *
    have e := putBytes_append_right (a := (s.peekSector (lineSector s l 0).1 (lineSector s l 0).2).1)
      (b := (s.peekSector (lineSector s l 1).1 (lineSector s l 1).2).1) (bs := bs) (o := o)
    rw [hlen] at e
    rw [h1, e]

/-! The stack port (R13, R92). -/

theorem canStackPortRequest_some {id st e ofs : Nat} {s : State} {r : Req}
    (h : canStackPortRequest id s = some (r, st, e, ofs)) : s.req? id = some r := by
  unfold canStackPortRequest at h
  split at h
  · next q hq =>
    split at h
    · rw [Option.ite_none_right_eq_some, Option.some.injEq, Prod.mk.injEq] at h
      rw [hq, h.2.1]
    · cases h
  · cases h

/-- A request of the stack port that nothing holds is served there. -/
theorem doStackPortRequest_passes {id : Nat} {s : State} {r : Req} {l : LineId} {ofs : Nat}
    (h : canStackPortRequest id s = some (r, l.stack, l.ext, 128 * l.line + ofs)) (ho : ofs < 128)
    (hh : s.hostHolds r l.stack l.ext (128 * l.line + ofs) = false) (hpass : s.rowsPass (s.lineRows l) (.req id) = true) :
    ∃ row, doStackPortRequest id s = (s.dropHold [row] (.req id)).portServe r l.stack l.ext (128 * l.line + ofs) := by
  have hid := req?_id (canStackPortRequest_some h)
  have hrow : (lineSector s l (ofs / 64)).1 ∈ s.lineRows l := by
    rw [mem_lineRows]
    have hi : ofs / 64 < 2 := by omega
    interval_cases ofs / 64
    · exact .inl rfl
    · exact .inr rfl
  have hgo := passRows_passes (s := s) (rs := [(lineSector s l (ofs / 64)).1]) (w := .req id) fun x hx => by
    rw [List.mem_singleton.1 hx]
    exact rowsPass_iff.1 hpass _ hrow
  refine ⟨(lineSector s l (ofs / 64)).1, ?_⟩
  unfold doStackPortRequest State.portGo
  rw [h]
  dsimp only
  rw [hh, sectorPlace_line, hid, hgo]
  rfl

/-- A load at the stack port has the bytes of its line there. -/
theorem portServe_load {s : State} {r : Req} {l : LineId} {ofs : Nat} {signed : Bool} {n : Nat} (hk : r.kind = .load signed n)
    (hsound : ∀ i < 2, SoundSector s (lineSector s l i).1 (lineSector s l i).2) (ho : ofs < 128) (hfit : ofs % 64 + r.size ≤ 64) :
    ∃ tag, s.portServe r l.stack l.ext (128 * l.line + ofs) =
      s.loaded r (((s.stackLine l).1.drop ofs).take r.size) (List.replicate r.size tag) := by
  unfold State.portServe
  dsimp only
  rw [hk]
  dsimp only
  rw [sectorPlace_line, demandSector_sound (hsound (ofs / 64) (by omega)), show (128 * l.line + ofs) % 64 = ofs % 64 by omega,
    stackLine_slice ho hfit]
  exact ⟨_, rfl⟩

/-- A write that meets no bits that only the device writes stands as it is (R7). -/
theorem writableBytes_eq {s : State} {l : LineId} {ofs : Nat} {bs : List Byte} (h : Writable s l ofs bs) :
    s.writableBytes l ofs bs = bs := by
  unfold State.writableBytes State.keepOnly
  refine List.ext_getElem (by simp) fun i h1 h2 => ?_
  have hro : ((s.addressesOf l.stack l.ext (128 * l.line + ofs)).map fun pa => s.readOnlyBits (pa + i)).foldl (· ||| ·) 0 = 0 := by
    have : ((s.addressesOf l.stack l.ext (128 * l.line + ofs)).map fun pa => s.readOnlyBits (pa + i)) =
        (s.addressesOf l.stack l.ext (128 * l.line + ofs)).map fun _ => 0 := List.map_congr_left fun pa hpa => h pa hpa i h2
    rw [this]
    refine List.foldlRecOn (motive := fun b : Byte => b = 0) _ _ rfl fun b hb a ha => ?_
    obtain ⟨-, -, rfl⟩ := List.mem_map.1 ha
    rw [hb]
    rfl
  rw [List.getElem_mapIdx]
  dsimp only
  rw [hro, show ~~~(0 : Byte) = BitVec.allOnes 8 from rfl, BitVec.and_allOnes]
  simp

theorem meetSector_sound {s : State} {who : Who} {r : RowId} {k n : Nat} (h : SoundSector s r k) : s.meetSector who r k n = s := by
  unfold State.meetSector
  rw [demandSector_sound h]
  exact ite_self s

/-- A store at the stack port puts its bytes over its line there, and its request ends. -/
theorem portServe_store {s : State} {r : Req} {l : LineId} {ofs : Nat} (hp : PlainLine s l) (hwf : Memory.wf s.mem.raw = true)
    (hsound : ∀ i < 2, SoundSector s (lineSector s l i).1 (lineSector s l i).2) (ho : ofs < 128)
    (hfit : ofs % 64 + r.bytes.length ≤ 64) (hrel : r.rel = false) (hk : r.kind = .store) (hw : Writable s l ofs r.bytes) :
    ((s.portServe r l.stack l.ext (128 * l.line + ofs)).stackLine l).1 = putBytes (s.stackLine l).1 ofs r.bytes
      ∧ (s.portServe r l.stack l.ext (128 * l.line + ofs)).req? r.id = none := by
  have hline : (⟨l.stack, l.ext, (128 * l.line + ofs) / 128⟩ : LineId) = l := by
    rw [show (128 * l.line + ofs) / 128 = l.line by omega]
  have hserve : ∃ p, s.portServe r l.stack l.ext (128 * l.line + ofs) =
      ((s.pokeSector (lineSector s l (ofs / 64)).1 (lineSector s l (ofs / 64)).2
        (putBytes (s.peekSector (lineSector s l (ofs / 64)).1 (lineSector s l (ofs / 64)).2).1 (ofs % 64) r.bytes) p).noticed l ofs
          r.bytes.length).dropReq r.id := by
    unfold State.portServe State.release State.portStore
    dsimp only
    rw [hk]
    dsimp only
    rw [hrel, sectorPlace_line]
    simp only [Bool.false_eq_true, if_false]
    rw [meetSector_sound (hsound (ofs / 64) (by omega))]
    unfold State.portPut
    dsimp only
    rw [hline, sectorPlace_line, show (128 * l.line + ofs) % 128 = ofs by omega, show (128 * l.line + ofs) % 64 = ofs % 64 by omega,
      writableBytes_eq hw]
    exact ⟨_, rfl⟩
  obtain ⟨p, e⟩ := hserve
  rw [e]
  have hsame := (sameHome_noticed (l := l) (ofs := ofs) (n := r.bytes.length)).trans (sameHome_dropReq (k := r.id))
    (s := s.pokeSector (lineSector s l (ofs / 64)).1 (lineSector s l (ofs / 64)).2
      (putBytes (s.peekSector (lineSector s l (ofs / 64)).1 (lineSector s l (ofs / 64)).2).1 (ofs % 64) r.bytes) p)
  exact ⟨(congrArg Prod.fst (stackLine_congr hsame.raw hsame.rel l)).trans (hp.stackLine_put hwf ho hfit), req?_dropReq _ _⟩

/-! Write-backs (R82, R93). -/

/-- A line without upsets is verified as it stands (R401). -/
theorem verifyLine_sound {s : State} {l : LineId} {p : Word} (h : ∀ u ∈ s.rel.upsets, ∀ k, u.site ≠ .depot l k) :
    s.verifyLine l p = (p, s) := by
  unfold State.verifyLine
  extract_lets wordOf
  have hnone : ∀ u ∈ s.rel.upsets, wordOf u = none := by
    intro u hu
    unfold wordOf
    split
    · next k w hk => exact if_neg fun e => h u hu w (hk.trans (by rw [e]))
    · rfl
  have hall : s.rel.upsets.filter (fun u => (wordOf u).isNone) = s.rel.upsets :=
    List.filter_eq_self.2 fun u hu => by rw [hnone u hu]; rfl
  split
  · rfl
  · rw [hall]
    refine List.foldlRecOn (motive := fun x : Word × State => x = (p, s)) _ _ rfl fun x hx u hu => ?_
    subst hx
    dsimp only
    rw [hnone u hu]

/-- A line without poison that is written back stands in its stack as it was; nothing that waits for a row changes. -/
theorem writeBack_sound {s : State} {who : Who} {l : LineId} {bs : List Byte} (hp : PlainLine s l)
    (hwf : Memory.wf s.mem.raw = true) (hb : bs.length = 128) (h : ∀ u ∈ s.rel.upsets, ∀ k, u.site ≠ .depot l k) :
    ((s.writeBack who l bs 0).stackLine l).1 = bs ∧ ∀ w r, (s.writeBack who l bs 0).heldAt w r = s.heldAt w r := by
  have e : s.writeBack who l bs 0 = (s.pokeSector (lineSector s l 0).1 (lineSector s l 0).2 (bs.take 64) false).pokeSector
      (lineSector s l 1).1 (lineSector s l 1).2 ((bs.drop 64).take 64) false := by
    have hclean : ∀ h, ((List.range 16).any fun k => bitOf 0 (16 * h + k)) = false := by simp [bitOf]
    unfold State.writeBack
    rw [verifyLine_sound h]
    simp only [show List.range 2 = [0, 1] from rfl, List.foldl_cons, List.foldl_nil, hclean, Bool.false_and, Bool.false_eq_true,
      if_false]
    rfl
  have hp' : PlainLine (s.pokeSector (lineSector s l 0).1 (lineSector s l 0).2 (bs.take 64) false) l := ⟨hp.cls, hp.size, hp.plain⟩
  rw [e]
  refine ⟨?_, fun _ _ => rfl⟩
  have h1 := (hp'.stackLine_poke (p := false) (d := (bs.drop 64).take 64) (pokeSector_keeps _ _ _ _ _ hwf) (by simp; omega)).2
  have h0 := hp.poke (p := false) (d := bs.take 64) (i := 0) (j := 0) (by decide) (by decide) hwf (by simp; omega)
  refine h1.trans ?_
  rw [if_pos rfl] at h0
  calc _ = bs.take 64 ++ (bs.drop 64).take 64 := congrArg (· ++ _) h0
    _ = bs.take 64 ++ bs.drop 64 := by rw [List.take_of_length_le (l := bs.drop 64) (by simp; omega)]
    _ = bs := List.take_append_drop 64 bs

end Sys2Proof.Machine
end

