-- ==== Sys2Proof/Proofs/StackEvents.lean ====
section
/-! The events of a stack: fills, the stack port, held write-backs and instruction lines (R13, R83, R92, R93, R444). -/

namespace Sys2Proof.Machine

section
variable {s : State} {l : LineId}

/-- DEPOT_FILL brings the bytes and the poison of its line in clean, and no other line changes (R83). -/
theorem doDepotFill_line {w : Want} (hsound : ∀ i < 2, SoundSector s (lineSector s l i).1 (lineSector s l i).2)
    (hw : s.wantOf l = some w) (hpass : s.rowsPass (s.lineRows l) (.fill l) = true) (hv : s.victim l w.res = .free) :
    ∃ x, (doDepotFill l s).line? l = some x ∧ (x.bytes, x.poison) = s.stackLine l ∧ x.dirty = false ∧ x.res = w.res
      ∧ (∀ k, k ≠ l → (doDepotFill l s).line? k = s.line? k) ∧ (doDepotFill l s).mem.raw = s.mem.raw := by
  obtain ⟨hnone, rfl⟩ := wantOf_some hw
  rw [doDepotFill_free hsound hw hpass hv]
  obtain ⟨b, h, q, e⟩ := dropHold_frame s (s.lineRows w.line) (.fill w.line)
  rw [e]
  have hserve : ∀ k, (((s.withWaits b h q).lineIn w (s.stackLine w.line)).servePrefetch w.line).line? k =
      if k = w.line then some ⟨w.line, (s.stackLine w.line).1, false, w.res, (s.stackLine w.line).2, [], []⟩ else s.line? k := by
    intro k
    have hd := servePrefetch_depot (l := w.line) (s := (s.withWaits b h q).lineIn w (s.stackLine w.line))
    have := congrArg (fun d : List DepotLine => d.find? fun y => y.line = k) hd
    exact this.trans (line?_lineIn (s := s.withWaits b h q) hnone k)
  refine ⟨_, (hserve _).trans (if_pos rfl), rfl, rfl, rfl, fun k hk => (hserve k).trans (if_neg hk), ?_⟩
  exact sameHome_servePrefetch.raw

/-- A load of the stack port brings the bytes of its line's stack to its registers (R13, R92). -/
theorem doStackPortRequest_load {id ofs : Nat} {r : Req} {g : Group} {signed : Bool}
    (hsound : ∀ i < 2, SoundSector s (lineSector s l i).1 (lineSector s l i).2)
    (hcan : canStackPortRequest id s = some (r, l.stack, l.ext, 128 * l.line + ofs)) (ho : ofs < 128)
    (hpass : s.rowsPass (s.lineRows l) (.req id) = true) (hfit : ofs % 64 + r.size ≤ 64) (hk : r.kind = .load signed r.size)
    (hsize : r.size ∈ [1, 2, 4, 8, 16]) (hg : s.group? r.gid = some g) (hc : g.Canonical) (he : g.ended = false)
    (hf : g.frame = none) (hgen : g.regGen r.reg = r.gen) (hL : r.lane < 32) (hrep : r.replays ≤ 8)
    (hheld : ∀ i < (r.size + 3) / 4, regHeld g (.v (r.reg + i)) = true) :
    (doStackPortRequest id s).mem.raw = s.mem.raw ∧ (doStackPortRequest id s).req? id = none
      ∧ ∃ g', (doStackPortRequest id s).group? r.gid = some g' ∧ ∀ i < (r.size + 3) / 4,
        (rdV g' (r.reg + i) r.lane).val = loadMeaning signed (((s.stackLine l).1.drop ofs).take r.size) i := by
  have hid := req?_id (canStackPortRequest_some hcan)
  have hholds : s.hostHolds r l.stack l.ext (128 * l.line + ofs) = false := by
    unfold State.hostHolds
    rw [hk]
    rfl
  obtain ⟨row, hdo⟩ := doStackPortRequest_passes hcan ho hholds hpass
  obtain ⟨b, h, q, e⟩ := dropHold_frame s [row] (.req id)
  rw [e] at hdo
  obtain ⟨tag, hserve⟩ := portServe_load (s := s.withWaits b h q) hk hsound ho hfit
  set bs := ((s.stackLine l).1.drop ofs).take r.size with hbs
  have hlen : bs.length = r.size := by
    rw [hbs, List.length_take, List.length_drop, length_stackLine]
    omega
  have hmem : bs.length ∈ [1, 2, 4, 8, 16] := hlen ▸ hsize
  set ws := loadWords bs (List.replicate r.size tag) signed with hws
  have hwlen : ws.length = (r.size + 3) / 4 := by rw [hws, length_loadWords hmem, hlen]
  have hload : doStackPortRequest id s = (s.withWaits b h q).deliver r false ws := by
    rw [hdo]
    refine hserve.trans ?_
    unfold State.loaded
    rw [if_neg (by omega), hk]
    rfl
  obtain ⟨hraw, hreq, hgrp⟩ := deliver_resident (s := s.withWaits b h q) hg he hf
    hgen (ws := ws) (hwlen ▸ hheld)
  rw [hload]
  refine ⟨hraw, hid ▸ hreq, _, hgrp, fun i hi => ?_⟩
  have hi' : i < ws.length := hwlen ▸ hi
  have hval := loadWords_val (tags := List.replicate r.size tag) (signed := signed) hmem (hlen ▸ hi)
  rw [← hws, List.getElem?_eq_getElem hi', Option.map_some, Option.some.injEq] at hval
  rw [rdV_returned hc hL hi', List.getD_eq_getElem?_getD, List.getElem?_eq_getElem hi', Option.getD_some, hval]

/-- A store of the stack port replaces its bytes in its line's stack, and no other byte of the line (R13, R92). -/
theorem doStackPortRequest_store {id ofs : Nat} {r : Req} (hp : PlainLine s l) (hwf : Memory.wf s.mem.raw = true)
    (hsound : ∀ i < 2, SoundSector s (lineSector s l i).1 (lineSector s l i).2)
    (hcan : canStackPortRequest id s = some (r, l.stack, l.ext, 128 * l.line + ofs)) (ho : ofs < 128)
    (hpass : s.rowsPass (s.lineRows l) (.req id) = true) (hhost : s.mem.hostLines = []) (hfit : ofs % 64 + r.size ≤ 64)
    (hrel : r.rel = false) (hk : r.kind = .store) (hlen : r.bytes.length = r.size) (hw : Writable s l ofs r.bytes) :
    (doStackPortRequest id s).req? id = none ∧ ∀ i < 128, ((doStackPortRequest id s).stackLine l).1[i]? =
      if ofs ≤ i ∧ i < ofs + r.size then r.bytes[i - ofs]? else (s.stackLine l).1[i]? := by
  have hid := req?_id (canStackPortRequest_some hcan)
  have hholds : s.hostHolds r l.stack l.ext (128 * l.line + ofs) = false := by
    unfold State.hostHolds
    rw [hhost]
    exact Bool.and_false _
  obtain ⟨row, hdo⟩ := doStackPortRequest_passes hcan ho hholds hpass
  obtain ⟨b, h, q, e⟩ := dropHold_frame s [row] (.req id)
  rw [e] at hdo
  obtain ⟨hline, hreq⟩ := portServe_store (s := s.withWaits b h q)
    ⟨hp.cls, hp.size, hp.plain⟩ hwf hsound ho (hlen ▸ hfit) hrel hk hw
  rw [hdo]
  refine ⟨hid ▸ hreq, fun i hi => ?_⟩
  have hput := (congrArg (·[i]?) hline).trans (getElem?_putBytes (length_stackLine _ l) hi)
  rw [hlen] at hput
  refine hput.trans ?_
  split
  · next hin =>
    have hb : i - ofs < r.bytes.length := by omega
    rw [List.getD_eq_getElem?_getD, List.getElem?_eq_getElem hb, Option.getD_some]
  · rfl

/-- A held write-back that is first at its row brings its bytes to its line's stack and waits nowhere any more (R93). -/
theorem doHoldQueueRelease_writeback {row : RowId} {bs : List Byte} (hp : PlainLine s l) (hwf : Memory.wf s.mem.raw = true)
    (hown : s.rowState row = .controller) (hb : bs.length = 128) (hup : ∀ u ∈ s.rel.upsets, ∀ k, u.site ≠ .depot l k)
    (hq : (s.rowQueue row).head? = some (.writeback l bs 0 none none))
    (hpass : s.rowsPass (s.lineRows l) (.writeback l bs 0 none none) = true) :
    ((doHoldQueueRelease row s).stackLine l).1 = bs
      ∧ ∀ r ∈ s.lineRows l, (doHoldQueueRelease row s).heldAt (.writeback l bs 0 none none) r = false := by
  have hdo : doHoldQueueRelease row s =
      (s.dropHold (s.lineRows l) (.writeback l bs 0 none none)).writeBack ⟨none, none⟩ l bs 0 := by
    unfold doHoldQueueRelease
    rw [if_neg (by simpa using hown), hq]
    dsimp only
    unfold State.runHeld
    rw [show s.workGone (.writeback l bs 0 none none) = false from rfl, if_neg Bool.false_ne_true]
    dsimp only
    rw [passRows_passes (rowsPass_iff.1 hpass)]
    rfl
  have hheld := fun r hr => dropHold_heldAt (s := s) (rs := s.lineRows l) (w := .writeback l bs 0 none none) (r := r) hr
  rw [hdo]
  obtain ⟨b, h, q, e⟩ := dropHold_frame s (s.lineRows l) (.writeback l bs 0 none none)
  rw [e] at hheld ⊢
  obtain ⟨hline, hsame⟩ := writeBack_sound (s := s.withWaits b h q)
    (who := ⟨none, none⟩) ⟨hp.cls, hp.size, hp.plain⟩ hwf hb hup
  exact ⟨hline, fun r hr => (hsame _ _).trans (hheld r hr)⟩

end

/-- An instruction line that its home slice holds is filled with its bytes and poison, under a lease there (R444). -/
theorem doIcacheFill_found {s : State} {core pasid vline pa res ofs : Nat} {nc : Bool} {g : Group} {l : LineId}
    {cls : Option ExtClass} {x : DepotLine} (hf : s.fetcher core pasid vline = some g)
    (hi : s.icFind core pasid (128 * vline) = none) (hc : canonical (128 * vline) = true)
    (ht : s.translate core pasid (128 * vline) .fetch = .hit pa nc res) (hp : s.placeOf pa nc (g.ctx = 0) = .at (.line l ofs) cls)
    (hh : s.heldOn l = []) (hx : s.line? l = some x) :
    ∃ y, (doIcacheFill core pasid vline s).icFind core pasid (128 * vline) = some y ∧ y.bytes = x.bytes ∧ y.poison = x.poison
      ∧ y.expiry ≤ (doIcacheFill core pasid vline s).leaseEnd l := by
  rw [doIcacheFill_depot hf hi hc ht hp hh hx]
  set e := s.ltick + leaseOf (s.ctx g.ctx) with he
  have hline : (s.onLine l id).ltick = s.ltick := by
    have hframe := congrArg State.ltick (onLine_frame s l id)
    exact hframe
  have htick : ((s.onLine l id).grant l e).ltick = s.ltick := hline
  obtain ⟨hfound, hleases⟩ := icFind_icFill (s := (s.onLine l id).grant l e) (n := ⟨core, pasid, vline, x.bytes, x.poison, e⟩) (by
    rw [htick, he]
    exact Nat.lt_add_of_pos_right leaseOf_pos)
  refine ⟨_, hfound, rfl, rfl, ?_⟩
  have hend : ∀ {t u : State}, u.mem.leases = t.mem.leases → u.leaseEnd l = t.leaseEnd l := by
    intro t u h
    unfold State.leaseEnd
    rw [h]
  rw [hend hleases, leaseEnd_grant]
  exact Nat.le_max_left ..

/-- Settles O25, event by event: each runs through its rows, and a sector that is written reads as it was written. -/
theorem stacksServeFillsAndPortRequests : Obligations.StacksServeFillsAndPortRequests := by
  intro s l hwf plain sound
  refine ⟨fun w _ hsound hw hpass hv => ?_, fun id r ofs hplain hcan ho hpass hhost hfit hrel =>
    ⟨fun signed hsound hk hsize g hg hc he hf hgen hL hrep hheld => ?_, fun hsound hk hlen hw => ?_⟩,
    fun row bs => ?_, fun core pasid vline g x pa nc res ofs cls hf hi hc ht hp hh hx => ?_⟩
  · obtain ⟨x, hline⟩ := doDepotFill_line hsound hw hpass hv
    exact ⟨_, x, rfl, hline⟩
  · obtain ⟨hraw, hreq, g', hgrp⟩ :=
      doStackPortRequest_load hsound hcan ho hpass hfit hk hsize hg hc he hf hgen hL hrep hheld
    exact ⟨_, g', rfl, hraw, hreq, hgrp⟩
  · obtain ⟨hcls, hsize, hrows⟩ := hplain
    exact ⟨_, rfl, doStackPortRequest_store ⟨hcls, hsize, hrows⟩ hwf hsound hcan ho hpass hhost hfit hrel hk hlen hw⟩
  · rintro w ⟨hcls, hsize, hrows⟩ - hown hb hup hq hpass
    exact ⟨_, rfl, doHoldQueueRelease_writeback ⟨hcls, hsize, hrows⟩ hwf hown hb hup hq hpass⟩
  · obtain ⟨y, hy⟩ := doIcacheFill_found hf hi hc ht hp hh hx
    exact ⟨_, y, rfl, hy⟩

end Sys2Proof.Machine
end

