-- ==== Sys2Proof/Proofs/DeviceWrites.lean ====
section
/-! SUPPORT. What a write of the device's leaves as it is, and what an upset leaves of the groups (R401, R402, R404). -/

namespace Sys2Proof.Machine

/-! Writes of the device. -/

/-- The states differ at most in what a write of the device's changes: bytes and what waits for them, and what watches them. -/
def DevWrites (s t : State) : Prop :=
  ∃ raw depot held watch barred agenda, t = { s with
    agenda := agenda
    mem := { s.mem with raw := raw, depot := depot, held := held, watch := watch }
    xl := { s.xl with barred := barred } }

theorem DevWrites.refl {s : State} : DevWrites s s := ⟨_, _, _, _, _, _, rfl⟩

theorem DevWrites.trans {s t u : State} (h : DevWrites s t) (k : DevWrites t u) : DevWrites s u := by
  obtain ⟨_, _, _, _, _, _, rfl⟩ := h
  obtain ⟨_, _, _, _, _, _, rfl⟩ := k
  exact ⟨_, _, _, _, _, _, rfl⟩

theorem DevWrites.foldl {α : Type} {f : State → α → State} {l : List α} {s : State} (hf : ∀ s a, DevWrites s (f s a)) :
    DevWrites s (l.foldl f s) :=
  foldl_keep (P := DevWrites s) .refl fun t a h => h.trans (hf t a)

theorem rawPut_raw (m : Mem) (a : Nat) (bs : List Byte) : ∃ r, rawPut m a bs = { m with raw := r } := by
  unfold rawPut
  exact ⟨_, rfl⟩

theorem devWrites_pokeSector {s : State} {r : RowId} {k : Nat} {d : List Byte} {p : Bool} :
    DevWrites s (s.pokeSector r k d p) := by
  unfold State.pokeSector
  obtain ⟨r1, h1⟩ := rawPut_raw s.mem (s.slotBase r k) d
  obtain ⟨r2, h2⟩ := rawPut_raw { s.mem with raw := r1 } (codeBase (s.rowCode r) r k).1 ((s.rowCode r).stored d p)
  dsimp only
  rw [h1, h2]
  exact ⟨_, _, _, _, _, _, rfl⟩

theorem devWrites_writeSector {s : State} {r : RowId} {k ofs : Nat} {bs : List Byte} {t : Bool} :
    DevWrites s (s.writeSector r k ofs bs t) := devWrites_pokeSector

theorem devWrites_stackWrite {s : State} {l : LineId} {ofs : Nat} {bs : List Byte} {tag : Nat → Bool} :
    DevWrites s (s.stackWrite l ofs bs tag) := by
  refine DevWrites.foldl fun t h => ?_
  dsimp only
  split
  · exact devWrites_writeSector
  · exact .refl

theorem devWrites_noticed {s : State} {l : LineId} {ofs n : Nat} : DevWrites s (s.noticed l ofs n) :=
  DevWrites.foldl fun _ _ => ⟨_, _, _, _, _, _, rfl⟩

theorem devWrites_onLine {s : State} {l : LineId} {f : DepotLine → DepotLine} : DevWrites s (s.onLine l f) := by
  unfold State.onLine
  split
  · exact ⟨_, _, _, _, _, _, rfl⟩
  · exact .refl

theorem devWrites_applyLine {s : State} {l : LineId} {ofs : Nat} {bs : List Byte} {tag : Nat → Bool} :
    DevWrites s (s.applyLine l ofs bs tag) := by
  unfold State.applyLine
  dsimp only
  refine DevWrites.trans ?_ devWrites_noticed
  split
  · exact devWrites_onLine
  · exact devWrites_stackWrite

theorem devWrites_devArrive {s : State} {l : LineId} {ofs : Nat} {bs : List Byte} {after : Option LineId} :
    DevWrites s (s.devArrive l ofs bs after) := by
  unfold State.devArrive
  split
  · exact devWrites_applyLine
  · exact ⟨_, _, _, _, _, _, rfl⟩

theorem devWrites_devWrite {s : State} {pa : Nat} {bs : List Byte} {after : Option LineId} :
    DevWrites s (s.devWrite pa bs after) := by
  refine DevWrites.foldl fun t a => ?_
  obtain ⟨a, k⟩ := a
  dsimp only
  split
  · exact devWrites_devArrive
  · exact .refl

theorem devWrites_devPut {s : State} {pa n x : Nat} : DevWrites s (s.devPut pa n x) := devWrites_devWrite

theorem devWrites_devMend {s : State} {pa n : Nat} : DevWrites s (s.devMend pa n) := by
  refine DevWrites.foldl fun t a => ?_
  obtain ⟨a, k⟩ := a
  dsimp only
  split
  · split
    · exact .refl
    · refine DevWrites.foldl fun t h => ?_
      split
      · exact devWrites_pokeSector
      · exact .refl
  · exact .refl

/-! Groups keep their number, team and grid. -/

/-- Where a group belongs. -/
def Group.place (g : Group) : Nat × Nat × Nat := (g.gid, g.team, g.grid)

/-- Every group stands where it stood, in the same team and grid. -/
def SamePlaces (s t : State) : Prop := t.groups.map Group.place = s.groups.map Group.place

theorem SamePlaces.refl {s : State} : SamePlaces s s := rfl

theorem SamePlaces.trans {s t u : State} (h : SamePlaces s t) (k : SamePlaces t u) : SamePlaces s u := Eq.trans k h

theorem SamePlaces.of_groups {s t : State} (h : t.groups = s.groups) : SamePlaces s t := by
  unfold SamePlaces
  rw [h]

theorem SamePlaces.of_devWrites {s t : State} (h : DevWrites s t) : SamePlaces s t := by
  obtain ⟨_, _, _, _, _, _, rfl⟩ := h
  exact .refl

theorem SamePlaces.foldl {α : Type} {f : State → α → State} {l : List α} {s : State} (hf : ∀ s a, SamePlaces s (f s a)) :
    SamePlaces s (l.foldl f s) :=
  foldl_keep (P := SamePlaces s) .refl fun t a h => h.trans (hf t a)

theorem samePlaces_onGroup {s : State} {k : Nat} {f : Group → Group} (hf : ∀ g, (f g).place = g.place) :
    SamePlaces s (s.onGroup k f) := by
  unfold SamePlaces State.onGroup
  rw [List.map_map]
  refine List.map_congr_left fun g _ => ?_
  rw [Function.comp_apply]
  split
  · exact hf g
  · rfl

/-- The group of a number is still of the team and the grid that it was of. -/
theorem SamePlaces.group? {s t : State} (h : SamePlaces s t) {k : Nat} {g x : Group} (hs : s.group? k = some g)
    (ht : t.group? k = some x) : x.team = g.team ∧ x.grid = g.grid := by
  have find : ∀ u : State, (u.group? k).map Group.place = (u.groups.map Group.place).find? fun p => p.1 = k := fun u => by
    rw [List.find?_map]
    rfl
  have e : (t.group? k).map Group.place = (s.group? k).map Group.place := by rw [find, find, h]
  rw [hs, ht, Option.map_some, Option.map_some, Option.some.injEq] at e
  simp only [Group.place, Prod.mk.injEq] at e
  exact e.2

theorem samePlaces_raiseImprecise {s : State} {gid code info : Nat} : SamePlaces s (raiseImprecise s gid code info) := by
  unfold raiseImprecise
  extract_lets u
  have hu : SamePlaces s u := samePlaces_onGroup fun _ => rfl
  split
  · exact hu.trans (.of_devWrites devWrites_devPut)
  · exact hu

theorem samePlaces_imprecise {s : State} {w : Who} {code info full : Nat} : SamePlaces s (s.imprecise w code info full) := by
  unfold State.imprecise
  split
  · split
    · exact samePlaces_raiseImprecise
    · exact .of_groups rfl
  · exact .of_groups rfl

theorem samePlaces_charge {s : State} {w : Who} {c : Nat} : SamePlaces s (s.charge w c) := by
  unfold State.charge
  split
  · exact .refl
  · extract_lets _ _ u
    have hu : SamePlaces s u := .of_groups rfl
    split
    · exact .refl
    · split
      · exact hu.trans samePlaces_imprecise
      · exact hu

theorem samePlaces_logWrite {kind ctx : Nat} {at_ : LogAt} {s : State} {rb put used sector : Nat} {b : RelBlock} :
    SamePlaces s (State.log.write kind at_ ctx s rb b put used sector) := by
  unfold State.log.write
  split
  · exact .of_devWrites devWrites_devPut
  · extract_lets _ u v w _
    have hu : SamePlaces s u := by
      unfold u
      split <;> exact .of_groups rfl
    have hv : SamePlaces u v := .of_devWrites devWrites_devWrite
    have hw : SamePlaces v w := .of_devWrites devWrites_devWrite
    exact ((hu.trans hv).trans hw).trans (.of_groups rfl)

theorem samePlaces_log {s : State} {kind ctx : Nat} {at_ : LogAt} : SamePlaces s (s.log kind at_ ctx) := by
  unfold State.log
  extract_lets _ _ u _ _ _ _
  have hu : SamePlaces s u := .of_devWrites devWrites_devMend
  clear_value u
  split
  · exact .refl
  · split
    · split
      · exact hu.trans (.of_devWrites (devWrites_devMend.trans devWrites_devPut))
      · exact hu.trans samePlaces_logWrite
    · exact hu.trans samePlaces_logWrite

theorem samePlaces_spoil {s : State} {x : Site} : SamePlaces s (s.spoil x) := by
  unfold State.spoil
  cases x with
  | reg gid r k => exact samePlaces_onGroup fun g => by cases r <;> rfl
  | _ => exact .of_groups rfl

theorem samePlaces_fails {s : State} {w : Who} {u : Upset} : SamePlaces s (s.fails w u) := by
  unfold State.fails
  split
  · exact samePlaces_charge.trans (.of_groups rfl)
  · exact samePlaces_imprecise.trans samePlaces_log
  · split
    · exact samePlaces_spoil.trans samePlaces_charge
    · exact samePlaces_charge

/-- What is verified leaves every group in its team and grid. -/
theorem samePlaces_meet {s : State} {w : Who} {p : Site → Bool} : SamePlaces s (s.meet w p) := by
  unfold State.meet
  split
  · exact .refl
  · exact SamePlaces.trans (.of_groups rfl) (.foldl fun _ _ => samePlaces_fails)

theorem samePlaces_meetWord {s : State} {g : Group} {i : Option Instr} {m : Word} : SamePlaces s (s.meetWord g i m) := by
  cases i with
  | none => exact .refl
  | some i => exact samePlaces_meet

end Sys2Proof.Machine
end

