-- ==== Sys2Proof/Proofs/Steps.lean ====
section
/-! What a step comes to: the word that a path finds, the command at a dray's slot, an event, and the passing of ticks
(R26, R140, R154, R155, R287, R288, R332, R444). -/

namespace Sys2Proof.Machine

/-! What a plan comes to. -/

/-- An outcome with what follows it. -/
def Out.followed (r : Out) (f : State → State) : Out :=
  match r with
  | .next t => .next (f t)
  | .fault x => .fault x
  | .refused x => .refused x

/-- What a turn's plan comes to. -/
def Plan.outcome : Plan → Out
  | .done t => .next t
  | .run i t a => Out.followed (exec i t) a.apply

theorem step_plan {s : State} {t : Turn} {ts : List Turn} (h : s.agenda = t :: ts) :
    step s = (({ s with agenda := ts } : State).plan t).outcome := by
  rw [step_agenda h]
  rfl

theorem outcome_run_nothing (i : Instr) (t : State) : (Plan.run i t .nothing).outcome = exec i t := by
  show Out.followed (exec i t) _ = exec i t
  cases exec i t <;> rfl

/-! The word at a path's program counter. -/

section
variable {s : State} {g : Group} {pc : BitVec 64} {lanes : Word} {x : ICLine} {i : Instr}

/-- Eight bytes that decode to an instruction and nothing else are a kernel word. -/
theorem decodeWord_of_decode {bs : List Byte} (h : decode (bs.take 8) = .ok (i, [])) :
    decodeWord (BitVec.ofNat 64 (leNat (bs.take 8))) = .ok i := by
  unfold decode at h
  rw [List.take_take, min_self] at h
  split at h
  · cases h
  · split at h
    · next j hj =>
      rw [hj]
      injection h with h
      rw [(Prod.mk.inj h).1]
    · cases h

theorem fetchWord_clean {core pasid : Nat} (hx : s.icFind core pasid pc.toNat = some x)
    (h0 : bitOf x.poison (pc.toNat % 128 / 4) = false) (h1 : bitOf x.poison (pc.toNat % 128 / 4 + 1) = false) :
    s.fetchWord core pasid pc = some (BitVec.ofNat 64 (leNat ((x.bytes.drop (pc.toNat % 128)).take 8)), false) := by
  unfold State.fetchWord
  rw [hx, Option.map_some]
  dsimp only
  rw [h0, h1]
  rfl

/-- A word that is no prefix is found as it decodes (R140). -/
theorem wordAt_word {w : BitVec 64} (hw : s.fetchWord g.core g.pasid pc = some (w, false)) (hd : decodeWord w = .ok i)
    (hi : ∀ o, i ≠ .rep o) : s.wordAt g pc lanes = .word i := by
  unfold State.wordAt
  rw [hw]
  dsimp only
  rw [hd]
  cases i with
  | rep o => exact absurd rfl (hi o)
  | _ => rfl

/-- A prefix is found as its lanes' least progress has it (R155). -/
theorem wordAt_rep {w : BitVec 64} {o : RepForm} (hw : s.fetchWord g.core g.pasid pc = some (w, false))
    (hd : decodeWord w = .ok (.rep o)) : s.wordAt g pc lanes = if leastK g lanes = 0 then
      (if (s.fetchWord g.core g.pasid (pc + 8)).isNone then .missing else .word (.rep o))
      else s.repetitionAt g pc o (leastK g lanes) := by
  unfold State.wordAt
  rw [hw]
  dsimp only
  rw [hd]
  rfl

end

/-! The turn of a path. -/

/-- The state in which some lanes of a group issue. -/
def State.entered (u : State) (g : Group) (gid : Nat) (pc : BitVec 64) (m : Word) (rep : Option (Nat × Nat)) : State :=
  { u.onGroup gid fun y => y.startWord m with
    cur := { Cur.none with gid := gid, pc := pc, lanes := m, rep := rep, team := g.team, grid := g.grid } }

theorem entered_congr {u : State} {g h : Group} {gid : Nat} {pc : BitVec 64} {m : Word} {rep : Option (Nat × Nat)}
    (e : h.team = g.team ∧ h.grid = g.grid) : u.entered h gid pc m rep = u.entered g gid pc m rep := by
  unfold State.entered
  rw [e.1, e.2]

section
variable {s : State} {gid : Nat} {pc : BitVec 64} {lanes m : Word} {g h : Group} {i : Instr}

theorem planIssue_word (hg : s.group? gid = some g) (hw : s.wordAt g pc lanes = .word i)
    (hm : issueLanes g lanes (.word i) = m) (hh : (s.meetWord g (some i) m).group? gid = some h) :
    s.planIssue gid pc lanes = ((s.meetWord g (some i) m).entered g gid pc m none).planWord h i := by
  rw [← entered_congr (samePlaces_meetWord.group? hg hh)]
  unfold State.planIssue
  rw [hg]
  dsimp only
  rw [hw, hm]
  simp only [Fetched.instr?]
  rw [hh]
  rfl

theorem planIssue_repeated {n cnt : Nat} (hg : s.group? gid = some g) (hw : s.wordAt g pc lanes = .repeated (some i) n cnt)
    (hm : issueLanes g lanes (.repeated (some i) n cnt) = m) (hh : (s.meetWord g (some i) m).group? gid = some h) :
    s.planIssue gid pc lanes = ((s.meetWord g (some i) m).entered g gid pc m (some (n, cnt))).planWord h i := by
  rw [← entered_congr (samePlaces_meetWord.group? hg hh)]
  unfold State.planIssue
  rw [hg]
  dsimp only
  rw [hw, hm]
  simp only [Fetched.instr?]
  rw [hh]
  rfl

/-- A repetition that is none, or that carries poison, only traps. -/
theorem planIssue_noRepetition {n cnt : Nat} {w : Fetched} (hg : s.group? gid = some g) (hw : s.wordAt g pc lanes = w)
    (hcase : w = .repeated none n cnt ∨ w = .spoiled n cnt) (hm : issueLanes g lanes w = m) :
    s.planIssue gid pc lanes = .run .repetition (s.entered g gid pc m (some (n, cnt))) .nothing := by
  unfold State.planIssue
  rw [hg]
  dsimp only
  rw [hw, hm]
  have hnone : s.meetWord g w.instr? m = s := by rcases hcase with rfl | rfl <;> rfl
  rw [hnone, hg]
  rcases hcase with rfl | rfl <;> rfl

end

/-! The word that its path has found. -/

section
variable {t : State} {g : Group} {i : Instr}

/-- Every lane of a mask meets a test where each of its 32 bits that is set does. -/
theorem all_lanesOf {w : Word} {p : Nat → Bool} : (lanesOf w).all p = true ↔ ∀ L < 32, bitOf w L = true → p L = true := by
  simp only [List.all_eq_true, mem_lanesOf, and_imp]

/-- A lane of the issue that does not wait for a translation: the word does not go on from a wait. -/
theorem not_resumed (h : ∃ L < 32, bitOf t.cur.lanes L = true ∧ (g.lane L).wait ≠ .walk) :
    ((lanesOf t.cur.lanes).all fun L => decide ((g.lane L).wait = .walk)) = false := by
  obtain ⟨L, hL, hb, hw⟩ := h
  rw [Bool.eq_false_iff]
  intro hall
  exact hw (of_decide_eq_true (all_lanesOf.1 hall L hL hb))

theorem planWord_runs (h : ∃ L < 32, bitOf t.cur.lanes L = true ∧ (g.lane L).wait ≠ .walk)
    (hk : g.outrider = none ∨ kpWord i ≠ .held) :
    t.planWord g i = .run (if t.cur.rep.isSome then .repetition else chooseAck g i) t (.word g i) := by
  unfold State.planWord
  rw [not_resumed h, if_neg Bool.false_ne_true, if_neg]
  rcases hk with hk | hk <;> simp [hk]

theorem planWord_holds (h : ∃ L < 32, bitOf t.cur.lanes L = true ∧ (g.lane L).wait ≠ .walk)
    (ho : g.outrider.isSome = true) (hk : kpWord i = .held) : t.planWord g i = .done ((t.holdWord g i).countTurn g) := by
  unfold State.planWord
  rw [not_resumed h, if_neg Bool.false_ne_true, if_pos]
  simp [ho, hk]

theorem planWord_resumes (h : ∀ L < 32, bitOf t.cur.lanes L = true → (g.lane L).wait = .walk) :
    t.planWord g i = t.planResumed g i := by
  unfold State.planWord
  rw [if_pos]
  exact all_lanesOf.2 fun L hL hb => decide_eq_true (h L hL hb)

end

/-- The lanes of least progress at a prefix. -/
theorem leastK_eq (g : Group) (lanes : Word) :
    leastK g lanes = (((List.range 32).filter fun L => bitOf lanes L).map fun L => (g.lane L).k).foldl min 64 := rfl

/-! FAULTACK's dispositions, and a word that goes on. -/

/-- The word that runs: FAULTACK as its register chooses (R332). -/
theorem chooseAck_eq (h : Group) (i : Instr) : chooseAck h i = (match i with
    | .faultackRetry o => (match (rdSs h o.b.toNat 1).n with
      | 1 => .faultackSkip o | 2 => .faultackRegion o | 3 => .faultackKill o | 4 => .faultackHold o | _ => i)
    | _ => i) := by
  have one : ∀ r : Nat, (rdSs h r 1).n = (rdS h r).val.toNat := fun r => by
    show (rdS h (r + 0)).val.toNat + 2 ^ 32 * 0 = _
    rw [Nat.mul_zero, Nat.add_zero, Nat.add_zero]
  cases i with
  | faultackRetry o =>
    dsimp only
    rw [one]
    rfl
  | _ => rfl

/-- The state in which a word that waited goes on with what it read at its issue (R332). -/
def State.resumed (t : State) (g : Group) (gid : Nat) (own : Stash → Bool) : State :=
  t.onGroup gid fun y =>
    { y.putVals ((g.stash.filter own).flatMap (·.seen)) with stash := y.stash.filter fun x => !own x }

theorem planResumed_own {t : State} {g : Group} {i : Instr} {own : Stash → Bool} (hrep : t.cur.rep = none)
    (hown : ∀ x : Stash, x.of t.cur = own x) : t.planResumed g i =
      .run (chooseAck (g.putVals ((g.stash.filter own).flatMap (·.seen))) i) (t.resumed g g.gid own)
        (.resumed (g.putVals ((g.stash.filter own).flatMap (·.seen))) i
          (regVals g (i.reads.filter fun r => !i.writes.contains r) t.cur.lanes
            (activeIn (g.putVals ((g.stash.filter own).flatMap (·.seen))) i t.cur.lanes))) := by
  obtain rfl : (fun x : Stash => x.of t.cur) = own := funext hown
  unfold State.planResumed
  dsimp only
  rw [hrep]
  rfl

end Sys2Proof.Machine
end

