-- ==== Sys2Proof/Proofs/StepRuns.lean ====
section
/-! A step, by the kind of its turn (R26, R140, R154, R155, R287, R288, R332, R432, R444). -/

namespace Sys2Proof.Machine

section
variable {s : State} {gid : Nat} {pc : BitVec 64} {lanes : Word} {rest : List Turn} {g h : Group} {i : Instr}

theorem step_issue_word (ha : s.agenda = .issue gid pc lanes :: rest) (hg : s.group? gid = some g)
    (hw : ({ s with agenda := rest } : State).wordAt g pc lanes = .word i) {m : Word} (hm : issueLanes g lanes (.word i) = m)
    (hh : (({ s with agenda := rest } : State).meetWord g (some i) m).group? gid = some h) :
    step s = (((({ s with agenda := rest } : State).meetWord g (some i) m).entered g gid pc m none).planWord h i).outcome := by
  rw [step_plan ha]
  exact congrArg Plan.outcome (planIssue_word (s := { s with agenda := rest }) hg hw hm hh)

end

/-- A word that is no prefix issues in all the lanes of its path. -/
theorem issueLanes_word {g : Group} {lanes : Word} {i : Instr} (hi : ∀ o, i ≠ .rep o) : issueLanes g lanes (.word i) = lanes := by
  cases i with
  | rep o => exact absurd rfl (hi o)
  | _ => rfl

/-! Events. -/

theorem rel_granted {s : State} {k : Nat} {e : Bool} : (s.granted k e).rel = s.rel := by
  unfold State.granted
  split <;> rfl

/-- Counting a grant leaves what the verifications are to meet. -/
theorem rel_grantShare {s v : State} {i : Instr} (h : s.grantShare i = some v) : v.rel = s.rel := by
  unfold State.grantShare at h
  split at h
  · cases h
    rfl
  · split at h
    · cases h
    · cases h
      exact foldl_keep (P := fun t : State => t.rel = s.rel) rfl fun t k ht => rel_granted.trans ht

theorem grantShare_none {s : State} {i : Instr} (h : s.expShare = 0) : s.grantShare i = some s := by
  unfold State.grantShare
  rw [if_pos h]

section
variable {s : State} {c : Cur} {i : Instr} {rest : List Turn}

theorem planEvent_granted {v : State} (he : isEvent i = true) (hw : i.wf = true) (hv : s.grantShare i = some v) :
    s.planEvent c i = .run i { v.meetEvent c i with cur := c } .nothing := by
  unfold State.planEvent
  rw [he, hw, hv]
  rfl

theorem planEvent_refused (he : isEvent i = true) (hw : i.wf = true) (hv : s.grantShare i = none) :
    s.planEvent c i = .done s := by
  unfold State.planEvent
  rw [he, hw, hv]
  rfl

theorem plan_event (s : State) (c : Cur) (i : Instr) : s.plan (.event c i) = s.planEvent c i := rfl

theorem step_event_granted {v : State} (ha : s.agenda = .event c i :: rest) (he : isEvent i = true) (hw : i.wf = true)
    (hu : s.rel.upsets = []) (hv : ({ s with agenda := rest } : State).grantShare i = some v) :
    step s = exec i { v with cur := c } := by
  have hrel : v.rel = s.rel := rel_grantShare (s := { s with agenda := rest }) hv
  have hnone : v.meetEvent c i = v := meetEvent_none (by rw [hrel]; exact hu) c i
  rw [step_plan ha, plan_event, planEvent_granted he hw hv, outcome_run_nothing, hnone]

theorem step_event_refused (ha : s.agenda = .event c i :: rest) (he : isEvent i = true) (hw : i.wf = true)
    (hv : ({ s with agenda := rest } : State).grantShare i = none) : step s = .next { s with agenda := rest } := by
  rw [step_plan ha, plan_event, planEvent_refused he hw hv]
  rfl

end

/-! Drays and ticks. -/

theorem step_dray {s : State} {d : DrayId} {rest : List Turn} (ha : s.agenda = .dray d :: rest) (hd : d.ok = true)
    (hu : s.rel.upsets = []) :
    step s = match decodeCommand (sget 0 (s.dray (drayKey d)).store (s.dray (drayKey d)).slot) with
      | .ok i => exec i { s with agenda := rest, cur := { Cur.none with dray := d } }
      | .error _ => exec .drayIllegalCommand { s with agenda := rest, cur := { Cur.none with dray := d } } := by
  have hplan : ({ s with agenda := rest } : State).plan (.dray d) = ({ s with agenda := rest } : State).planDray d := if_pos hd
  rw [step_plan ha, hplan]
  unfold State.planDray
  have hx : ({ s with agenda := rest } : State).dray (drayKey d) = s.dray (drayKey d) := rfl
  dsimp only
  rw [hx]
  unfold Dray.command
  cases decodeCommand (sget 0 (s.dray (drayKey d)).store (s.dray (drayKey d)).slot) with
  | error e => exact outcome_run_nothing _ _
  | ok i =>
    dsimp only
    rw [meetCommand_none (by exact hu)]
    exact outcome_run_nothing _ _

theorem step_tick {s : State} {n : Nat} {rest : List Turn} (ha : s.agenda = .tick n :: rest) :
    step s = .next { s with agenda := rest, ltick := if 3 ≤ s.yuren.stage then s.ltick + n else s.ltick } := by
  rw [step_plan ha]
  show Plan.outcome (.done (if 3 ≤ s.yuren.stage then _ else _)) = _
  split <;> rfl

end Sys2Proof.Machine
end

