-- ==== Sys2Proof/Proofs/StepDecoded.lean ====
section
/-! A step runs the word that the bytes at the program counter decode to (R26, R140, R154, R155, R332). -/

namespace Sys2Proof.Machine

section
variable {s : State} {gid : Nat} {pc : BitVec 64} {lanes m : Word} {rest : List Turn} {g h : Group} {i : Instr}

/-- The state in which the lanes of a turn's word issue, with what it reads verified. -/
def State.issued (s : State) (g : Group) (i : Option Instr) (gid : Nat) (pc : BitVec 64) (m : Word)
    (rep : Option (Nat × Nat)) : State := (s.meetWord g i m).entered g gid pc m rep

theorem step_word_runs (ha : s.agenda = .issue gid pc lanes :: rest) (hg : s.group? gid = some g)
    (hw : ({ s with agenda := rest } : State).wordAt g pc lanes = .word i) (hm : issueLanes g lanes (.word i) = m)
    (hh : (({ s with agenda := rest } : State).meetWord g (some i) m).group? gid = some h)
    (hwait : ∃ L < 32, bitOf m L = true ∧ (h.lane L).wait ≠ .walk) (hk : h.outrider = none ∨ kpWord i ≠ .held) :
    step s = Out.followed (exec (chooseAck h i) (({ s with agenda := rest } : State).issued g (some i) gid pc m none))
      fun t => t.afterIssue h i := by
  rw [step_issue_word ha hg hw hm hh, planWord_runs hwait hk]
  rfl

theorem step_word_held (ha : s.agenda = .issue gid pc lanes :: rest) (hg : s.group? gid = some g)
    (hw : ({ s with agenda := rest } : State).wordAt g pc lanes = .word i) (hm : issueLanes g lanes (.word i) = m)
    (hh : (({ s with agenda := rest } : State).meetWord g (some i) m).group? gid = some h)
    (hwait : ∃ L < 32, bitOf m L = true ∧ (h.lane L).wait ≠ .walk) (ho : h.outrider.isSome = true) (hk : kpWord i = .held) :
    step s = .next (((({ s with agenda := rest } : State).issued g (some i) gid pc m none).holdWord h i).countTurn h) := by
  rw [step_issue_word ha hg hw hm hh, planWord_holds hwait ho hk]
  rfl

theorem step_word_resumes {own : Stash → Bool} (ha : s.agenda = .issue gid pc lanes :: rest) (hg : s.group? gid = some g)
    (hw : ({ s with agenda := rest } : State).wordAt g pc lanes = .word i) (hm : issueLanes g lanes (.word i) = m)
    (hh : (({ s with agenda := rest } : State).meetWord g (some i) m).group? gid = some h)
    (hwait : ∀ L < 32, bitOf m L = true → (h.lane L).wait = .walk)
    (hown : ∀ x : Stash, own x = (decide (x.pc = pc) && decide (x.lanes &&& m ≠ 0))) :
    step s = Out.followed
      (exec (chooseAck (h.putVals ((h.stash.filter own).flatMap (·.seen))) i)
        ((({ s with agenda := rest } : State).issued g (some i) gid pc m none).resumed h gid own))
      fun t => t.afterWait (h.putVals ((h.stash.filter own).flatMap (·.seen))) i
        (regVals h (i.reads.filter fun r => !i.writes.contains r) m
          (activeIn (h.putVals ((h.stash.filter own).flatMap (·.seen))) i m)) := by
  have hplan := planResumed_own (t := ({ s with agenda := rest } : State).issued g (some i) gid pc m none) (g := h) (i := i)
    (own := own) rfl fun x => (hown x).symm
  rw [group?_gid hh] at hplan
  rw [step_issue_word ha hg hw hm hh, planWord_resumes hwait]
  exact congrArg Plan.outcome hplan

/-- A repetition of a legal word runs REPETITION and what follows the stepped word (R154, R155). -/
theorem step_repetition {n cnt : Nat} (ha : s.agenda = .issue gid pc lanes :: rest) (hg : s.group? gid = some g)
    (hw : ({ s with agenda := rest } : State).wordAt g pc lanes = .repeated (some i) n cnt)
    (hm : issueLanes g lanes (.repeated (some i) n cnt) = m)
    (hh : (({ s with agenda := rest } : State).meetWord g (some i) m).group? gid = some h)
    (hwait : ∃ L < 32, bitOf m L = true ∧ (h.lane L).wait ≠ .walk) (hk : h.outrider = none ∨ kpWord i ≠ .held) :
    step s = Out.followed (exec .repetition (({ s with agenda := rest } : State).issued g (some i) gid pc m (some (n, cnt))))
      fun t => t.afterIssue h i := by
  have hplan := congrArg Plan.outcome (planIssue_repeated (s := { s with agenda := rest }) hg hw hm hh)
  rw [planWord_runs hwait hk] at hplan
  rw [step_plan ha]
  exact hplan

theorem step_noRepetition {n cnt : Nat} {w : Fetched} (ha : s.agenda = .issue gid pc lanes :: rest) (hg : s.group? gid = some g)
    (hw : ({ s with agenda := rest } : State).wordAt g pc lanes = w) (hcase : w = .repeated none n cnt ∨ w = .spoiled n cnt)
    (hm : issueLanes g lanes w = m) :
    step s = exec .repetition (({ s with agenda := rest } : State).issued g none gid pc m (some (n, cnt))) := by
  have hplan := congrArg Plan.outcome (planIssue_noRepetition (s := { s with agenda := rest }) hg hw hcase hm)
  rw [step_plan ha]
  exact hplan.trans (outcome_run_nothing _ _)

end

/-- Repetition `k` of a word that a clean line holds. -/
theorem repetitionAt_some {s : State} {g : Group} {pc w : BitVec 64} {tag : Bool} {o : RepForm} {k : Nat}
    (hw : s.fetchWord g.core g.pasid (pc + 8) = some (w, tag)) :
    s.repetitionAt g pc o k = if tag then .spoiled k o.count else .repeated (stepWord o w k) k o.count := by
  unfold State.repetitionAt
  rw [hw]

/-- A word is at hand where its line is (R444). -/
theorem fetchWord_at_hand {s : State} {core pasid : Nat} {pc : BitVec 64} (h : (s.icFind core pasid pc.toNat).isSome = true) :
    (s.fetchWord core pasid pc).isNone = false := by
  unfold State.fetchWord
  rw [Option.isNone_map, Option.isNone_eq_false_iff]
  exact h

/-- Settles O59: by the kind of the turn, and for a path by the word that it finds. -/
theorem stepRunsTheDecodedWord : Obligations.StepRunsTheDecodedWord := by
  refine ⟨?_, fun s d rest ha hd hu => step_dray ha hd hu,
    fun s c i rest ha he hw hu => ⟨fun h => step_event_granted ha he hw hu (grantShare_none h),
      fun v hv => step_event_granted ha he hw hu hv, fun hv => step_event_refused ha he hw hv⟩,
    fun s n rest ha => step_tick ha, ?_⟩
  · intro s gid pc lanes rest g x i ha hg hx h0 h1 hd met enters ending chosen
    have hfetch := fetchWord_clean (s := { s with agenda := rest }) (core := g.core) (pasid := g.pasid) hx h0 h1
    have hdec := decodeWord_of_decode hd
    have hend : ∀ r f, ending r f = Out.followed r f := fun r f => by cases r <;> rfl
    have hchosen : ∀ h, chosen h = chooseAck h i := fun h => (chooseAck_eq h i).symm
    refine ⟨fun hu j m => meetWord_none (by exact hu) g j m, fun u h hi hu hh => ?_, ?_⟩
    · subst hu
      have hw := wordAt_word (lanes := lanes) hfetch hdec hi
      have hm := issueLanes_word (g := g) (lanes := lanes) hi
      refine ⟨fun hwait hk => ?_, fun hwait ho hk => step_word_held ha hg hw hm hh hwait ho hk, fun hwait => ?_⟩
      · rw [hend, hchosen]
        exact step_word_runs ha hg hw hm hh hwait hk
      · intro own b w
        have hown : ∀ x, decide (own x) = (decide (x.pc = pc) && decide (x.lanes &&& lanes ≠ 0)) := fun x => Bool.decide_and ..
        have hstep := step_word_resumes ha hg hw hm hh hwait hown
        have hw' : w = ((({ s with agenda := rest } : State).issued g (some i) gid pc lanes none).resumed h gid
            fun x => decide (own x)) := by
          unfold w State.resumed
          simp only [decide_not]
          rfl
        have hback : (i.reads.filter fun r => decide (r ∉ i.writes)) = i.reads.filter fun r => !i.writes.contains r :=
          List.filter_congr fun r _ => by rw [decide_not, List.contains_eq_mem]
        rw [hend, hw', hback]
        exact hstep.trans (by rw [show chosen b = chooseAck b i from hchosen b])
    · rintro o rfl k m hnext
      have hw := wordAt_rep (lanes := lanes) hfetch hdec
      have hk : leastK g lanes = k := rfl
      rw [hk] at hw
      refine ⟨fun hk0 u h hu hh hwait => ?_, fun hk0 w tag hsecond => ?_⟩
      · subst hu
        rw [hk0, if_pos rfl, fetchWord_at_hand (s := { s with agenda := rest }) hnext, if_neg Bool.false_ne_true] at hw
        rw [hend]
        exact step_word_runs ha hg hw rfl hh hwait (.inr nofun)
      · intro enter
        rw [if_neg hk0, repetitionAt_some (s := { s with agenda := rest }) hsecond] at hw
        refine ⟨fun hcase => ?_, fun j u h htag hj hu hh hwait hkp => ?_⟩
        · refine step_noRepetition (lanes := lanes) (n := k) (cnt := o.count) ha hg hw ?_ ?_
          · rcases hcase with rfl | hnone
            · exact .inr rfl
            · rw [hnone]
              cases tag
              · exact .inl rfl
              · exact .inr rfl
          · cases tag <;> rfl
        · subst hu htag
          rw [if_neg Bool.false_ne_true, hj] at hw
          rw [hend]
          exact step_repetition ha hg hw rfl hh hwait hkp
  · and_intros <;> decide +kernel

end Sys2Proof.Machine
end

