-- ==== Sys2Proof/Proofs/FloatMeaning.lean ====
section
/-! SUPPORT. The floating-point elements mean what the rules' arithmetic says: comparison over the rationals, the least and
greatest of two patterns, and `.ftz` before and after (R59, R202, R203, R206). -/

namespace Sys2Proof.Machine

/-! Comparison. -/

/-- The integer over a common unit stands for the value (R52). -/
theorem alignTo_rat {neg : Bool} {m : Nat} {e b : Int} (h : b ≤ e) :
    (alignTo neg m e b : ℚ) * 2 ^ b = (FVal.fin neg m e).rat := by
  have hpow : (2 : ℚ) ^ (e - b).toNat * 2 ^ b = 2 ^ e := by
    rw [← zpow_natCast, Int.toNat_of_nonneg (by omega), ← zpow_add₀ two_ne_zero]
    congr 1
    omega
  cases neg
  · show (((m * 2 ^ (e - b).toNat : Nat) : Int) : ℚ) * 2 ^ b = 1 * m * 2 ^ e
    push_cast
    rw [← hpow]
    ring
  · show ((-((m * 2 ^ (e - b).toNat : Nat) : Int) : Int) : ℚ) * 2 ^ b = -1 * m * 2 ^ e
    push_cast
    rw [← hpow]
    ring

theorem alignTo_lt {n1 n2 : Bool} {m1 m2 : Nat} {e1 e2 : Int} :
    alignTo n1 m1 e1 (min e1 e2) < alignTo n2 m2 e2 (min e1 e2) ↔ (FVal.fin n1 m1 e1).rat < (FVal.fin n2 m2 e2).rat := by
  rw [← alignTo_rat (min_le_left e1 e2), ← alignTo_rat (min_le_right e1 e2),
    mul_lt_mul_iff_of_pos_right (zpow_pos two_pos _), Int.cast_lt]

section
variable {x y : FVal}

/-- A value that is no NaN is less than another, as the rationals and the infinities are ordered. -/
theorem fCmpV_neg (hx : isNan x = false) (hy : isNan y = false) : fCmpV x y < 0 ↔ x.below y = true := by
  cases x with
  | nan s => cases hx
  | inf a =>
    cases y with
    | nan s => cases hy
    | inf b => cases a <;> cases b <;> decide
    | fin b m e => cases a <;> simp [fCmpV, FVal.below]
  | fin a m e =>
    cases y with
    | nan s => cases hy
    | inf b => cases b <;> simp [fCmpV, FVal.below]
    | fin b n f =>
      simp only [FVal.below, decide_eq_true_eq, ← alignTo_lt, fCmpV]
      split
      · omega
      · split <;> omega

theorem fCmpV_pos (hx : isNan x = false) (hy : isNan y = false) : 0 < fCmpV x y ↔ y.below x = true := by
  cases x with
  | nan s => cases hx
  | inf a =>
    cases y with
    | nan s => cases hy
    | inf b => cases a <;> cases b <;> decide
    | fin b m e => cases a <;> simp [fCmpV, FVal.below]
  | fin a m e =>
    cases y with
    | nan s => cases hy
    | inf b => cases b <;> simp [fCmpV, FVal.below]
    | fin b n f =>
      simp only [FVal.below, decide_eq_true_eq, ← alignTo_lt, fCmpV, min_comm f e]
      split
      · omega
      · split <;> omega

/-- One value is less than another, with −0 less than +0 (R203). -/
theorem smaller_eq (hx : isNan x = false) (hy : isNan y = false) :
    x.smaller y = (decide (fCmpV x y < 0) || (decide (fCmpV x y = 0) && isNegZero x && !isNegZero y)) := by
  have hlt := fCmpV_neg hx hy
  have hgt := fCmpV_pos hx hy
  unfold FVal.smaller
  rcases lt_trichotomy (fCmpV x y) 0 with h | h | h
  · rw [hlt.1 h, decide_eq_true h]
    rfl
  · have hn : x.below y = false := Bool.eq_false_iff.2 fun e => by have := hlt.2 e; omega
    have hm : y.below x = false := Bool.eq_false_iff.2 fun e => by have := hgt.2 e; omega
    rw [hn, hm, h]
    rfl
  · have hn : x.below y = false := Bool.eq_false_iff.2 fun e => by have := hlt.2 e; omega
    rw [hn, hgt.1 h, decide_eq_false (by omega), decide_eq_false (by omega)]
    rfl

theorem smaller_eq_swap (hx : isNan x = false) (hy : isNan y = false) :
    y.smaller x = (decide (0 < fCmpV x y) || (decide (fCmpV x y = 0) && isNegZero y && !isNegZero x)) := by
  have hlt := fCmpV_neg hx hy
  have hgt := fCmpV_pos hx hy
  unfold FVal.smaller
  rcases lt_trichotomy (fCmpV x y) 0 with h | h | h
  · have hn : y.below x = false := Bool.eq_false_iff.2 fun e => by have := hgt.2 e; omega
    rw [hn, hlt.1 h, decide_eq_false (by omega), decide_eq_false (by omega)]
    rfl
  · have hn : x.below y = false := Bool.eq_false_iff.2 fun e => by have := hlt.2 e; omega
    have hm : y.below x = false := Bool.eq_false_iff.2 fun e => by have := hgt.2 e; omega
    rw [hn, hm, h]
    rfl
  · rw [hgt.1 h, decide_eq_true h]
    rfl

end

/-- FMIN and FMAX choose by the order of the values (R203). -/
theorem fMinMax_eq (t : Fmt) (isMax : Bool) (a b : Nat) : fMinMax t isMax a b = minMaxMeaning t isMax a b := by
  unfold fMinMax minMaxMeaning flagIf
  dsimp only
  cases hx : isNan (unpack t a) <;> cases hy : isNan (unpack t b)
  · rw [smaller_eq hx hy, smaller_eq_swap hx hy]
    cases isMax
    · simp only [Bool.and_false, Bool.false_eq_true, if_false, gt_iff_lt]
    · simp only [Bool.and_false, Bool.false_eq_true, if_false, if_true]
  all_goals rfl

/-! `.ftz`. -/

theorem flushIn_eq (t : Fmt) (ftz : Bool) (n : Nat) :
    flushIn t ftz n = (flushed t ftz n, if ftz && isSubnormal t n then fDEN else 0) := by
  unfold flushIn flushed
  split <;> rfl

theorem flushOut_eq (t : Fmt) (ftz : Bool) (r : Nat × Flags) :
    flushOut t ftz r = (flushed t ftz r.1, r.2 ||| if ftz && isSubnormal t r.1 then fUNF ||| fINX else 0) := by
  unfold flushOut flushed
  split
  · rw [BitVec.or_assoc]
  · exact congrArg (r.1, ·) BitVec.or_zero.symm

/-- DEN is set where one of the operands is a subnormal (R59). -/
theorem denFlags_eq (t : Fmt) (ftz : Bool) (ns : List Nat) :
    (if ftz && ns.any (isSubnormal t) then fDEN else 0) = ns.foldr (fun n f => (if ftz && isSubnormal t n then fDEN else 0) ||| f) 0 := by
  induction ns with
  | nil => simp
  | cons n ns ih =>
    rw [List.foldr_cons, ← ih, List.any_cons]
    cases ftz <;> cases isSubnormal t n <;> cases ns.any (isSubnormal t) <;> decide

/-- An element is computed as R202, R203 and R59 say. -/
theorem fCompute_eq (op : FOp) (t : Fmt) (rm : Rm) (ftz : Bool) (a b c : Nat) :
    fCompute op t rm ftz a b c = arithMeaning op t rm ftz a b c := by
  unfold fCompute arithMeaning
  simp only [flushIn_eq, flushOut_eq, denFlags_eq, fMinMax_eq]
  cases op <;> simp [BitVec.or_assoc]

theorem natBits_half (n k : Nat) : natBits n (16 * k + 15) (16 * k) = n / 2 ^ (16 * k) % 2 ^ 16 := by
  unfold natBits
  rw [Nat.shiftRight_eq_div_pow, show 16 * k + 15 + 1 - 16 * k = 16 by omega]

theorem pCompute_eq (op : FOp) (t : Fmt) (rm : Rm) (ftz : Bool) (a b c : Nat) :
    pCompute op t rm ftz a b c = packMeaning op t rm ftz a b c := by
  unfold pCompute packMeaning
  simp only [fCompute_eq, natBits_half]

end Sys2Proof.Machine
end

