-- ==== Sys2Proof/Proofs/IntMeaning.lean ====
section
/-! SUPPORT. Integer results in the arithmetic of bit vectors (R51, R170, R182, R185 to R188). -/

namespace Sys2Proof.Machine

theorem wrapNat_eq (x : Int) (w : Nat) : wrapNat x w = (BitVec.ofInt w x).toNat := (BitVec.toNat_ofInt ..).symm

theorem natSext_eq {x w : Nat} (h : 0 < w) : natSext x w = (BitVec.ofNat w x).toInt := by
  have hpow : 2 ^ w = 2 * 2 ^ (w - 1) := by
    rw [← Nat.pow_succ', Nat.succ_eq_add_one, Nat.sub_add_cancel h]
  rw [BitVec.toInt_eq_toNat_cond, BitVec.toNat_ofNat]
  unfold natSext
  rw [if_neg (by omega)]
  dsimp only
  by_cases hy : x % 2 ^ w < 2 ^ (w - 1)
  · rw [if_pos hy, if_pos (by omega)]
  · rw [if_neg hy, if_neg (by omega)]

theorem bits_pos (ty : Ty) : 0 < ty.bits := by cases ty <;> decide

/-- `num(x)` of R170 is the number of a bit vector. -/
theorem numOf_eq (ty : Ty) (n : Nat) : numOf ty n = numBV ty.signed (BitVec.ofNat ty.bits n) := by
  unfold numOf numBV
  split
  · exact natSext_eq (bits_pos ty)
  · rw [BitVec.toNat_ofNat]

theorem intMin_eq (ty : Ty) : intMin ty = tyMin ty := by cases ty <;> decide

theorem intMax_eq (ty : Ty) : intMax ty = tyMax ty := by cases ty <;> decide

theorem tyMin_le_tyMax (ty : Ty) : tyMin ty ≤ tyMax ty := by cases ty <;> decide

/-- `.sat` clamps to the nearest bound of the type (R170). -/
theorem satTo_value (sat : Bool) (ty : Ty) (x : Int) :
    (satTo sat ty x).1 = if sat then max (tyMin ty) (min (tyMax ty) x) else x := by
  have hle := tyMin_le_tyMax ty
  unfold satTo inRange clampTo
  rw [intMin_eq, intMax_eq]
  cases sat
  · rfl
  · rw [if_pos rfl, Bool.true_and]
    by_cases h1 : tyMin ty ≤ x <;> by_cases h2 : x ≤ tyMax ty
    · rw [decide_eq_true h1, decide_eq_true h2]
      exact (by omega : x = max (tyMin ty) (min (tyMax ty) x))
    · rw [decide_eq_false h2, Bool.and_false, if_pos Bool.not_false, if_neg (not_lt.2 h1), if_pos (not_le.1 h2)]
      exact (by omega : tyMax ty = max (tyMin ty) (min (tyMax ty) x))
    · rw [decide_eq_false h1, Bool.false_and, if_pos Bool.not_false, if_pos (not_le.1 h1)]
      exact (by omega : tyMin ty = max (tyMin ty) (min (tyMax ty) x))
    · rw [decide_eq_false h1, Bool.false_and, if_pos Bool.not_false, if_pos (not_le.1 h1)]
      exact (by omega : tyMin ty = max (tyMin ty) (min (tyMax ty) x))

/-- An operation with an exact result wraps or clamps it (R182, R184). -/
theorem intCompute_exact {op : IntOp} {ty : Ty} {a b c : Nat} {x : Int} (sat : Bool) (sh : Nat)
    (h : exactInt op ty a b c = some x) : (intCompute op ty sat sh a b c).1 = intMeaning op ty sat sh a b c := by
  have hfin : ∀ y, y = x → wrapNat (satTo sat ty y).1 ty.bits = intMeaning op ty sat sh a b c := by
    rintro y rfl
    unfold intMeaning
    rw [h, wrapNat_eq, satTo_value]
  unfold exactInt at h
  simp only [← numOf_eq] at h
  cases op with
  | add | sub | neg | mul | mad => exact hfin _ (Option.some.inj h)
  | abs => exact hfin _ ((Int.natCast_natAbs _).trans (Option.some.inj h))
  | _ => cases h

/-- The number of a bit vector, wrapped again, is the bit vector. -/
theorem wrapNat_numOf (ty : Ty) (n : Nat) : wrapNat (numOf ty n) ty.bits = (BitVec.ofNat ty.bits n).toNat := by
  rw [wrapNat_eq, numOf_eq]
  unfold numBV
  split
  · rw [BitVec.ofInt_toInt]
  · rw [BitVec.ofInt_natCast, BitVec.ofNat_toNat, BitVec.setWidth_eq]

theorem intCompute_min (ty : Ty) (sat : Bool) (sh a b c : Nat) :
    (intCompute .min ty sat sh a b c).1 = intMeaning .min ty sat sh a b c := by
  show wrapNat (min (numOf ty a) (numOf ty b)) ty.bits
    = if numBV ty.signed (BitVec.ofNat ty.bits a) ≤ numBV ty.signed (BitVec.ofNat ty.bits b) then _ else _
  rw [← numOf_eq, ← numOf_eq, ← wrapNat_numOf, ← wrapNat_numOf, min_def]
  split <;> rfl

theorem intCompute_max (ty : Ty) (sat : Bool) (sh a b c : Nat) :
    (intCompute .max ty sat sh a b c).1 = intMeaning .max ty sat sh a b c := by
  show wrapNat (max (numOf ty a) (numOf ty b)) ty.bits
    = if numBV ty.signed (BitVec.ofNat ty.bits a) ≤ numBV ty.signed (BitVec.ofNat ty.bits b) then _ else _
  rw [← numOf_eq, ← numOf_eq, ← wrapNat_numOf, ← wrapNat_numOf, max_def]
  split <;> rfl

/-- Past all bits of a number, a power of two leaves its sign. -/
theorem ediv_pow_sign {x : Int} {k : Nat} (h0 : -2 ^ k ≤ x) (h1 : x < 2 ^ k) : x / 2 ^ k = if x < 0 then -1 else 0 := by
  split
  · next hx => exact Int.ediv_eq_neg_one_of_neg_of_le hx (by omega)
  · next hx => exact Int.ediv_eq_zero_of_lt (not_lt.1 hx) h1

/-- An arithmetic shift is a division, and past the top bit no more than a shift by the top bit (R187). -/
theorem toInt_shiftRight {w n : Nat} {A : BitVec w} : A.toInt >>> n = A.toInt / (2 ^ min n (w - 1) : Nat) := by
  rw [Int.shiftRight_eq_div_pow]
  by_cases hn : n ≤ w - 1
  · rw [min_eq_left hn]
  · rw [min_eq_right (by omega)]
    have hlo := BitVec.le_toInt A
    have hhi := BitVec.toInt_lt (x := A)
    have hpow : (2 : Int) ^ (w - 1) ≤ 2 ^ n := pow_le_pow_right₀ (by decide) (by omega)
    push_cast
    rw [ediv_pow_sign (by omega) (by omega), ediv_pow_sign (by omega) (by omega)]

section
variable {ty : Ty} {a b : Nat} (ha : a < 2 ^ ty.bits) (hb : b < 2 ^ ty.bits) (sat : Bool) (sh c : Nat)
include ha

theorem intCompute_shl : (intCompute .shl ty sat sh a b c).1 = intMeaning .shl ty sat sh a b c := by
  show shlN ty.bits a (b % 256) = (BitVec.ofNat ty.bits a <<< (b % 256)).toNat
  rw [BitVec.toNat_shiftLeft, BitVec.toNat_ofNat, Nat.mod_eq_of_lt ha]
  unfold shlN
  split
  · rfl
  · next hn =>
    have hdvd : 2 ^ ty.bits ∣ a <<< (b % 256) := by
      rw [Nat.shiftLeft_eq]
      exact Dvd.dvd.mul_left (Nat.pow_dvd_pow 2 (not_lt.1 hn)) a
    exact (Nat.mod_eq_zero_of_dvd hdvd).symm

theorem intCompute_shr : (intCompute .shr ty sat sh a b c).1 = intMeaning .shr ty sat sh a b c := by
  show shrN ty.bits a (b % 256) = (BitVec.ofNat ty.bits a >>> (b % 256)).toNat
  rw [BitVec.toNat_ushiftRight, BitVec.toNat_ofNat]
  unfold shrN
  split
  · rfl
  · next hn =>
    rw [Nat.mod_eq_of_lt ha, Nat.shiftRight_eq_div_pow]
    exact (Nat.div_eq_of_lt (lt_of_lt_of_le ha (Nat.pow_le_pow_right (by decide) (not_lt.1 hn)))).symm

omit ha in
theorem intCompute_sar : (intCompute .sar ty sat sh a b c).1 = intMeaning .sar ty sat sh a b c := by
  show wrapNat (natSext a ty.bits / (2 ^ min (b % 256) (ty.bits - 1) : Nat)) ty.bits
    = ((BitVec.ofNat ty.bits a).sshiftRight (b % 256)).toNat
  rw [natSext_eq (bits_pos ty), wrapNat_eq]
  unfold BitVec.sshiftRight
  rw [toInt_shiftRight]

include hb

theorem intCompute_and : (intCompute .and ty sat sh a b c).1 = intMeaning .and ty sat sh a b c := by
  show a &&& b = (BitVec.ofNat ty.bits a &&& BitVec.ofNat ty.bits b).toNat
  rw [BitVec.toNat_and, BitVec.toNat_ofNat, BitVec.toNat_ofNat, Nat.mod_eq_of_lt ha, Nat.mod_eq_of_lt hb]

theorem intCompute_or : (intCompute .or ty sat sh a b c).1 = intMeaning .or ty sat sh a b c := by
  show a ||| b = (BitVec.ofNat ty.bits a ||| BitVec.ofNat ty.bits b).toNat
  rw [BitVec.toNat_or, BitVec.toNat_ofNat, BitVec.toNat_ofNat, Nat.mod_eq_of_lt ha, Nat.mod_eq_of_lt hb]

theorem intCompute_xor : (intCompute .xor ty sat sh a b c).1 = intMeaning .xor ty sat sh a b c := by
  show a ^^^ b = (BitVec.ofNat ty.bits a ^^^ BitVec.ofNat ty.bits b).toNat
  rw [BitVec.toNat_xor, BitVec.toNat_ofNat, BitVec.toNat_ofNat, Nat.mod_eq_of_lt ha, Nat.mod_eq_of_lt hb]

end

theorem intCompute_leaS (ty : Ty) (sat : Bool) (sh a b c : Nat) :
    (intCompute .leaS ty sat sh a b c).1 = intMeaning .leaS ty sat sh a b c := by
  show (a + b <<< sh) % 2 ^ 32 = (BitVec.ofNat 32 a + (BitVec.ofNat 32 b <<< sh)).toNat
  rw [BitVec.toNat_add, BitVec.toNat_shiftLeft, BitVec.toNat_ofNat, BitVec.toNat_ofNat, Nat.shiftLeft_eq, Nat.shiftLeft_eq,
    Nat.mod_mul_mod, Nat.add_mod_mod, Nat.mod_add_mod]

end Sys2Proof.Machine
end

