-- ==== Sys2Proof/Proofs/Pairs.lean ====
section
/-! Pair words: each slot's result is that of its full-format word, on the registers as they were before (R32, R152, R153). -/

namespace Sys2Proof.Machine

/-! One register. -/

theorem rdVs_one (g : Group) (r L : Nat) : rdVs g r 1 L = ⟨(rdV g r L).val.toNat, (rdV g r L).tag⟩ := by
  show Val.mk ((rdV g (r + 0) L).val.toNat + 2 ^ 32 * 0) ((rdV g (r + 0) L).tag || false) = _
  rw [Nat.mul_zero, Nat.add_zero, Nat.add_zero, Bool.or_false]

theorem wrVs_one (g : Group) (r L n : Nat) (t : Bool) : wrVs g r 1 L n t = wrV g r L ⟨BitVec.ofNat 32 n, t⟩ := rfl

/-! One slot. -/

section
variable (x : Slot) (g : Group) (L : Nat)

/-- A slot's operation is that of its full-format word (R153). -/
theorem slotCompute_value : (slotCompute x g L).1.n
    = slotMeaning x (rdV g x.pa.toNat L).val.toNat (rdV g x.pb L).val.toNat (rdV g x.pd.toNat L).val.toNat := by
  have hlt : ∀ r, (rdV g r L).val.toNat < 2 ^ 32 := fun r => BitVec.isLt _
  have himm : wrapNat (natSext x.pi.toNat 13) 32 = (x.pi.signExtend 32).toNat := by
    rw [wrapNat_eq, natSext_eq (by decide), BitVec.ofNat_toNat, BitVec.setWidth_eq]
    rfl
  have himmlt : (x.pi.signExtend 32).toNat < 2 ^ 32 := BitVec.isLt _
  unfold slotCompute slotMeaning
  simp only [rdVs_one, himm, fCompute_eq, pCompute_eq]
  cases x.pop with
  | add | sub | addI => exact intCompute_exact _ _ rfl
  | and => exact intCompute_and (ty := .i32) (hlt _) (hlt _) _ _ _
  | or => exact intCompute_or (ty := .i32) (hlt _) (hlt _) _ _ _
  | xor => exact intCompute_xor (ty := .i32) (hlt _) (hlt _) _ _ _
  | andI => exact intCompute_and (ty := .i32) (hlt _) himmlt _ _ _
  | orI => exact intCompute_or (ty := .i32) (hlt _) himmlt _ _ _
  | xorI => exact intCompute_xor (ty := .i32) (hlt _) himmlt _ _ _
  | shl => exact intCompute_shl (ty := .i32) (hlt _) _ _ _
  | shr => exact intCompute_shr (ty := .i32) (hlt _) _ _ _
  | sar => exact intCompute_sar _ _ _
  | minI32 | minN32 => exact intCompute_min ..
  | maxI32 | maxN32 => exact intCompute_max ..
  | leaS => exact intCompute_leaS ..
  | _ => rfl

/-- A result carries the poison of what its slot reads (R90, R152). -/
theorem slotCompute_tag : (slotCompute x g L).1.tag = x.reads.any fun r => (rdV g r L).tag := by
  unfold slotCompute Slot.reads
  simp only [rdVs_one]
  cases x.pop <;> simp [PairOp.kind, Bool.or_assoc]

end

/-! Both slots, over the lanes. -/

/-- What a lane's two slots write, from their results. -/
def pairLane (x y : Slot) (p q : Val × Flags) (h : Group) (L : Nat) : Group :=
  orFlags (wrV (wrV h x.pd.toNat L ⟨BitVec.ofNat 32 p.1.n, p.1.tag⟩) y.pd.toNat L ⟨BitVec.ofNat 32 q.1.n, q.1.tag⟩) (p.2 ||| q.2)

theorem pairBody_eq (x y : Slot) (g : Group) (act : Word) :
    pairBody x y g act = eachLane act (fun h L => pairLane x y (slotCompute x g L) (slotCompute y g L) h L) g := by
  unfold pairBody
  congr 1

section
variable {x y : Slot} {p q : Nat → Val × Flags} {g : Group} {act : Word}

theorem rdV_pairLane {p q : Val × Flags} {h : Group} {L K r : Nat} (hh : swf ⟨0, false⟩ h.v = true) (hL : L < 32) (hK : K < 32) :
    rdV (pairLane x y p q h L) r K
      = if r = y.pd.toNat ∧ K = L then ⟨BitVec.ofNat 32 q.1.n, q.1.tag⟩
        else if r = x.pd.toNat ∧ K = L then ⟨BitVec.ofNat 32 p.1.n, p.1.tag⟩ else rdV h r K := by
  unfold pairLane
  rw [rdV_orFlags, rdV_wrV _ _ _ _ _ (swf_sset _ _ _ _ hh) hL hK, rdV_wrV _ _ _ _ _ hh hL hK]

theorem swf_pairLane {p q : Val × Flags} {h : Group} {L : Nat} (hh : swf ⟨0, false⟩ h.v = true) :
    swf ⟨0, false⟩ (pairLane x y p q h L).v = true := swf_sset _ _ _ _ (swf_sset _ _ _ _ hh)

/-- Each lane's destinations hold its slots' results (R32, R152). -/
theorem pairLanes_dest (hv : swf ⟨0, false⟩ g.v = true) (hne : x.pd ≠ y.pd) : ∀ L < 32, bitOf act L = true →
    rdV (eachLane act (fun h L => pairLane x y (p L) (q L) h L) g) x.pd.toNat L = ⟨BitVec.ofNat 32 (p L).1.n, (p L).1.tag⟩
      ∧ rdV (eachLane act (fun h L => pairLane x y (p L) (q L) h L) g) y.pd.toNat L
        = ⟨BitVec.ofNat 32 (q L).1.n, (q L).1.tag⟩ := by
  have hne' : x.pd.toNat ≠ y.pd.toNat := fun e => hne (BitVec.eq_of_toNat_eq e)
  refine eachLane_own (fun h => swf ⟨0, false⟩ h.v = true) (fun L h =>
    rdV h x.pd.toNat L = ⟨BitVec.ofNat 32 (p L).1.n, (p L).1.tag⟩
      ∧ rdV h y.pd.toNat L = ⟨BitVec.ofNat 32 (q L).1.n, (q L).1.tag⟩) hv (fun _ _ _ _ => swf_pairLane) ?_ ?_
  · intro h L hL _ hh
    rw [rdV_pairLane hh hL hL, rdV_pairLane hh hL hL, if_neg (fun e => hne' e.1), if_pos ⟨rfl, rfl⟩, if_pos ⟨rfl, rfl⟩]
    exact ⟨rfl, rfl⟩
  · intro h L K hL hK hKL _ hh hq
    have keep : ∀ r, rdV (pairLane x y (p L) (q L) h L) r K = rdV h r K := fun r => by
      rw [rdV_pairLane hh hL hK, if_neg (fun e => hKL e.2), if_neg (fun e => hKL e.2)]
    rw [keep, keep]
    exact hq

/-- FPSTAT gains both slots' flags in every lane (R60). -/
theorem pairLanes_fpstat : (eachLane act (fun h L => pairLane x y (p L) (q L) h L) g).fpstat
    = (lanesOf act).foldl (fun f L => f ||| (p L).2 ||| (q L).2) g.fpstat := by
  unfold eachLane
  generalize lanesOf act = ls
  induction ls generalizing g with
  | nil => rfl
  | cons L ls ih =>
    rw [List.foldl_cons, List.foldl_cons, ih, BitVec.or_assoc]
    rfl

end

theorem pairBody_gid (x y : Slot) (g : Group) (act : Word) : (pairBody x y g act).gid = g.gid := by
  rw [pairBody_eq]
  exact eachLane_keeps (fun h : Group => h.gid = g.gid) rfl fun _ _ _ _ h => h

/-- The slots of a legal pair word write different registers (R152). -/
theorem pairWord_dest_ne {x y : Slot} (h : (Instr.pairWord x y).wf = true) : x.pd ≠ y.pd := by
  have hok : pairOk x y = true := h
  unfold pairOk at hok
  simp only [Bool.and_eq_true, decide_eq_true_eq] at hok
  exact hok.1.2

/-- With no guard every lane of the path is active (R150). -/
theorem activeOf_unguarded (g : Group) (c : Cur) : activeOf g c ⟨0, false⟩ = c.lanes := by
  show c.lanes &&& 0xFFFFFFFF#32 = c.lanes
  exact BitVec.and_allOnes

/-- Settles O8, slot by slot. -/
theorem pairSlotsReadBeforeEitherWrites : Obligations.PairSlotsReadBeforeEitherWrites := by
  intro x y s g h reg res
  obtain ⟨t, hrun, honly, hg⟩ := execRegs_runs h (pairBody_gid x y)
  refine ⟨t, _, hrun, honly, hg, ?_⟩
  rw [activeOf_unguarded, pairBody_eq]
  have hres : ∀ (z : Slot) (L : Nat), res z L = ⟨BitVec.ofNat 32 (slotCompute z g L).1.n, (slotCompute z g L).1.tag⟩ :=
    fun z L => by rw [slotCompute_value, slotCompute_tag]
  by_cases h0 : s.cur.lanes = 0
  · rw [if_pos h0, h0]
    exact ⟨fun L _ hb => absurd hb (by simp [bitOf]), rfl⟩
  · rw [if_neg h0]
    refine ⟨fun L hL hb => ?_, pairLanes_fpstat⟩
    rw [hres, hres, rdV_advance, rdV_advance]
    exact pairLanes_dest h.2.2.1.2.1 (pairWord_dest_ne h.1) L hL hb

end Sys2Proof.Machine
end

