-- ==== Sys2Proof/Proofs/RegisterWords.lean ====
section
/-! The frame of the register words (R25, R56, R60, R71, R140, R150, R171): each word's effect is a step of registers. -/

namespace Sys2Proof.Machine

/-! What a word's destination field names. -/

section
variable {i : Instr}

theorem mem_writes_r {d : RDesc} {o : RForm} {r : RegName} (hv : i.view = .r d o) (hr : r ∈ d.d.names false o.d.toNat) :
    r ∈ i.writes := by
  unfold Instr.writes
  rw [hv]
  exact List.mem_append_left _ hr

theorem mem_writes_i {d : IDesc} {o : IForm} {r : RegName} (hv : i.view = .i d o) (hr : r ∈ d.d.names false o.d.toNat) :
    r ∈ i.writes := by
  unfold Instr.writes
  rw [hv]
  exact List.mem_append_left _ hr

theorem mem_names_lane {u : Bool} {f w k : Nat} (h : k < w) : RegName.v (f + k) ∈ (FK.lane w).names u f :=
  List.mem_map.2 ⟨k, List.mem_range.2 h, rfl⟩

theorem mem_names_uni {u : Bool} {f w k : Nat} (h : k < w) : RegName.s (f + k) ∈ (FK.uni w).names u f :=
  List.mem_map.2 ⟨k, List.mem_range.2 h, rfl⟩

theorem mem_names_pred {u : Bool} {f : Nat} (h : f ≠ 0) : RegName.p f ∈ FK.pred.names u f := by
  unfold FK.names
  rw [if_neg h]
  exact List.mem_singleton_self _

/-- A word whose destination is `w` lane registers writes them. -/
theorem lane_dest {d : RDesc} {o : RForm} {w : Nat} (hv : i.view = .r d o) (hd : d.d = .lane w) :
    ∀ k < w, RegName.v (o.d.toNat + k) ∈ i.writes := fun _ hk => mem_writes_r hv (by rw [hd]; exact mem_names_lane hk)

theorem uni_dest {d : RDesc} {o : RForm} {w : Nat} (hv : i.view = .r d o) (hd : d.d = .uni w) :
    ∀ k < w, RegName.s (o.d.toNat + k) ∈ i.writes := fun _ hk => mem_writes_r hv (by rw [hd]; exact mem_names_uni hk)

theorem pred_dest {d : RDesc} {o : RForm} (hv : i.view = .r d o) (hd : d.d = .pred) :
    o.d.toNat ≠ 0 → RegName.p o.d.toNat ∈ i.writes := fun h => mem_writes_r hv (by rw [hd]; exact mem_names_pred h)

theorem imm_lane_dest {d : IDesc} {o : IForm} {w : Nat} (hv : i.view = .i d o) (hd : d.d = .lane w) :
    ∀ k < w, RegName.v (o.d.toNat + k) ∈ i.writes := fun _ hk => mem_writes_i hv (by rw [hd]; exact mem_names_lane hk)

theorem imm_uni_dest {d : IDesc} {o : IForm} {w : Nat} (hv : i.view = .i d o) (hd : d.d = .uni w) :
    ∀ k < w, RegName.s (o.d.toNat + k) ∈ i.writes := fun _ hk => mem_writes_i hv (by rw [hd]; exact mem_names_uni hk)

end

/-- The destination of an integer word is as wide as its result (R181). -/
theorem intDesc_dest (op : IntOp) (o : RForm) : (intDesc op o).d = .lane (intWidths op o.ty).2.2.2.1 := by cases op <;> rfl

theorem uniDesc_dest (op : IntOp) (o : RForm) : (uniDesc op o).d = .uni (intWidths op o.ty).2.2.2.1 :=
  congrArg FK.toUni (intDesc_dest op o)

theorem immDesc_dest (op : IntImmOp) : (immDesc op).d = .lane (if op = .movI64 then 2 else 1) := by cases op <;> rfl

theorem uniImmDesc_dest (op : IntImmOp) : (uniImmDesc op).d = .uni (if op = .movI64 then 2 else 1) :=
  congrArg FK.toUni (immDesc_dest op)

theorem intInstr_view (op : IntOp) (o : RForm) : (intInstr op o).view = .r (intDesc op o) o := by cases op <;> rfl

theorem immInstr_view (op : IntImmOp) (o : IForm) : (immInstr op o).view = .i (immDesc op) o := by cases op <;> rfl

/-! What each body can change. -/

section
variable {ws : List RegName} {act : Word} {dr : Bool} {g : Group}

/-- A lane's destination registers written, and flags gained. -/
theorem RegStep.lane_flags {r w : Nat} (hr : ∀ k < w, .v (r + k) ∈ ws) (g : Group) (L n : Nat) (t : Bool) (f : Flags)
    (hL : L < 32) (hb : bitOf act L = true) : RegStep ws act dr g (Machine.orFlags (Machine.wrVs g r w L n t) f) :=
  (RegStep.wrVs g r w L n t hr hL hb).trans (.orFlags _ f)

theorem RegStep.intBody {op : IntOp} {o : RForm} (hr : ∀ k < (intWidths op o.ty).2.2.2.1, .v (o.d.toNat + k) ∈ ws) :
    RegStep ws act dr g (intBody false op o g act) := by
  unfold Machine.intBody
  exact RegStep.eachLane _ (fun x L hL hb => .lane_flags hr _ _ _ _ _ hL hb) g

theorem RegStep.intBody_uniform {op : IntOp} {o : RForm} (hr : ∀ k < (intWidths op o.ty).2.2.2.1, .s (o.d.toNat + k) ∈ ws) :
    RegStep ws act dr g (Machine.intBody true op o g act) := by
  unfold Machine.intBody
  exact (RegStep.wrSs g _ _ _ _ hr).trans (.orFlags _ _)

theorem RegStep.immBody {op : IntImmOp} {o : IForm} (hr : ∀ k < if op = .movI64 then 2 else 1, .v (o.d.toNat + k) ∈ ws) :
    RegStep ws act dr g (immBody false op o g act) := by
  unfold Machine.immBody
  exact RegStep.eachLane _ (fun x L hL hb => .wrVs x _ _ _ _ _ hr hL hb) g

theorem RegStep.immBody_uniform {op : IntImmOp} {o : IForm} (hr : ∀ k < if op = .movI64 then 2 else 1, .s (o.d.toNat + k) ∈ ws) :
    RegStep ws act dr g (Machine.immBody true op o g act) := by
  unfold Machine.immBody
  exact RegStep.wrSs g _ _ _ _ hr

theorem RegStep.carryBody {sub : Bool} {o : RForm} (hr : ∀ k < 1, .v (o.d.toNat + k) ∈ ws)
    (hp : o.c.toNat ≠ 0 → .p o.c.toNat ∈ ws) : RegStep ws act dr g (carryBody sub o g act) :=
  RegStep.eachLane _ (fun x _ hL hb => (RegStep.wrVs x _ _ _ _ _ hr hL hb).trans (.wrPBit _ _ _ _ _ hp hL hb)) g

theorem RegStep.icmpBody {k : ICmp} {o : RForm} (hp : o.d.toNat ≠ 0 → .p o.d.toNat ∈ ws) :
    RegStep ws act dr g (icmpBody k o g act) :=
  RegStep.eachLane _ (fun x _ hL hb => .wrPBit x _ _ _ _ hp hL hb) g

theorem RegStep.selBody {o : RForm} (hr : ∀ k < 1, .v (o.d.toNat + k) ∈ ws) : RegStep ws act dr g (selBody o g act) :=
  RegStep.eachLane _ (fun x _ hL hb => .wrVs x _ _ _ _ _ hr hL hb) g

theorem RegStep.dot4Body {o : RForm} (hr : ∀ k < 1, .v (o.d.toNat + k) ∈ ws) : RegStep ws act dr g (dot4Body o g act) :=
  RegStep.eachLane _ (fun _ _ hL hb => .lane_flags hr _ _ _ _ _ hL hb) g

/-- Outside the active lanes a merged predicate keeps its bits. -/
theorem bitOf_merge_off {r old act : Word} {L : Nat} (hL : L < 32) (h : bitOf act L = false) :
    bitOf ((r &&& act) ||| (old &&& ~~~act)) L = bitOf old L := by
  unfold bitOf at h ⊢
  rw [BitVec.getLsbD_or, BitVec.getLsbD_and, BitVec.getLsbD_and, BitVec.getLsbD_not, h]
  simp [hL]

theorem RegStep.predBody {f : Word → Word → Word} {two : Bool} {o : RForm} (hp : o.d.toNat ≠ 0 → .p o.d.toNat ∈ ws) :
    RegStep ws act dr g (predBody f two o g act) :=
  RegStep.wrP g _ _ hp fun _ hL hb => ⟨bitOf_merge_off hL hb, bitOf_merge_off hL hb⟩

theorem RegStep.shflBody {m : ShflMode} {o : RForm} (hr : ∀ k < o.ty.regs, .v (o.d.toNat + k) ∈ ws) :
    RegStep ws act dr g (shflBody m o g act) :=
  RegStep.eachLane _ (fun x _ hL hb => .wrVs x _ _ _ _ _ hr hL hb) g

theorem RegStep.voteBody {isAnd : Bool} {o : RForm} (hp : o.d.toNat ≠ 0 → .p o.d.toNat ∈ ws) :
    RegStep ws act dr g (voteBody isAnd o g act) :=
  RegStep.eachLane _ (fun x _ hL hb => .wrPBit x _ _ _ _ hp hL hb) g

theorem RegStep.matchBody {same : Bool} {o : RForm} (hr : ∀ k < 1, .v (o.d.toNat + k) ∈ ws) :
    RegStep ws act dr g (matchBody same o g act) :=
  RegStep.eachLane _ (fun x _ hL hb => .wrVs x _ _ _ _ _ hr hL hb) g

theorem RegStep.scanBody {op : ScanOp} {o : RForm} (hr : ∀ k < 1, .v (o.d.toNat + k) ∈ ws) :
    RegStep ws act dr g (scanBody op o g act) := by
  unfold Machine.scanBody
  exact (RegStep.eachLane _ (fun x _ hL hb => .wrVs x _ _ _ _ _ hr hL hb) g).trans (.orFlags _ _)

theorem RegStep.fBody {op : FOp} {packed three : Bool} {o : RForm} (hr : ∀ k < 1, .v (o.d.toNat + k) ∈ ws) :
    RegStep ws act dr g (fBody op packed three o g act) :=
  RegStep.eachLane _ (fun _ _ hL hb => .lane_flags hr _ _ _ _ _ hL hb) g

theorem RegStep.fcmpBody {k : FCmp} {o : RForm} (hp : o.d.toNat ≠ 0 → .p o.d.toNat ∈ ws) :
    RegStep ws act dr g (fcmpBody k o g act) :=
  RegStep.eachLane _ (fun x _ hL hb => (RegStep.wrPBit x _ _ _ _ hp hL hb).trans (.orFlags _ _)) g

theorem RegStep.oneBody {f : Nat → Nat × Flags} {nd : Nat} {o : RForm} (hr : ∀ k < nd, .v (o.d.toNat + k) ∈ ws) :
    RegStep ws act dr g (oneBody f nd o g act) :=
  RegStep.eachLane _ (fun _ _ hL hb => .lane_flags hr _ _ _ _ _ hL hb) g

theorem RegStep.fscaleBody {o : RForm} (hr : ∀ k < 1, .v (o.d.toNat + k) ∈ ws) : RegStep ws act dr g (fscaleBody o g act) :=
  RegStep.eachLane _ (fun _ _ hL hb => .lane_flags hr _ _ _ _ _ hL hb) g

theorem RegStep.pairBody {x y : Slot} (hx : .v x.pd.toNat ∈ ws) (hy : .v y.pd.toNat ∈ ws) :
    RegStep ws act dr g (pairBody x y g act) := by
  rw [pairBody_eq]
  exact RegStep.eachLane _ (fun h L hL hb =>
    ((RegStep.wrV h _ _ _ hx hL hb).trans (.wrV _ _ _ _ hy hL hb)).trans (.orFlags _ _)) g

/-- A draw steps the stochastic register of its own lane, and of no lane where the mode is another (R56). -/
theorem RegStep.drawLane {rm : Rm} {L : Nat} (hdr : rm = .rs → dr = true) (hb : bitOf act L = true) :
    RegStep ws act dr g (drawLane rm g L).1 := by
  unfold Machine.drawLane
  split
  · next hrm =>
    have hlane : ∀ K, (mapLanes g fun K ln => if K = L then { ln with rnd := lfsr (g.lane L).rnd } else ln).lane K
        = if K < g.lanes.length ∧ K = L then { g.lane K with rnd := lfsr (g.lane L).rnd } else g.lane K := fun K => by
      by_cases hK : K < g.lanes.length
      · rw [lane_mapLanes _ _ _ hK]
        by_cases hKL : K = L
        · rw [if_pos hKL, if_pos ⟨hK, hKL⟩]
        · rw [if_neg hKL, if_neg fun e => hKL e.2]
      · rw [if_neg fun e => hK e.1]
        simp [mapLanes, Group.lane, List.getD_eq_getElem?_getD, List.getElem?_eq_none (not_lt.1 hK)]
    refine ⟨fun h => ⟨(length_mapLanes ..).trans h.1, h.2⟩, rfl, fun _ r _ => ?_, fun _ _ _ _ _ => rfl,
      fun _ _ _ _ _ => ⟨rfl, rfl⟩, BitVec.and_self, fun K _ => ?_, fun K _ => ?_⟩
    · cases r with
      | v n => exact fun _ _ => rfl
      | a n => exact fun _ _ _ _ => rfl
      | x n => trivial
      | _ => rfl
    · dsimp only
      rw [hlane]
      split <;> rfl
    · dsimp only
      rw [hlane]
      split
      · next e => exact .inr ⟨hdr hrm, e.2 ▸ hb⟩
      · exact .inl rfl
  · exact .refl _ _ _ _

theorem RegStep.cvtBody {src : Ty} {o : RForm} (hr : ∀ k < o.ty.regs, .v (o.d.toNat + k) ∈ ws) (hdr : o.rm = .rs → dr = true) :
    RegStep ws act dr g (cvtBody src o g act) := by
  have h0 : ∀ k < 1, .v (o.d.toNat + k) ∈ ws := fun k hk => hr k (by unfold Ty.regs; split <;> omega)
  unfold Machine.cvtBody
  extract_lets c sel ins pk dst
  refine RegStep.eachLane _ (fun x L hL hb => ?_) g
  extract_lets a b sb x0
  dsimp only
  have hdraw : ∀ y, RegStep ws act dr y (Machine.drawLane o.rm y L).1 := fun y => .drawLane hdr hb
  split
  · exact (hdraw x).trans ((hdraw _).trans (.lane_flags h0 _ _ _ _ _ hL hb))
  · split
    · exact (hdraw x).trans (.lane_flags h0 _ _ _ _ _ hL hb)
    · exact (hdraw x).trans (.lane_flags hr _ _ _ _ _ hL hb)

/-- Steps of registers that a fold makes beside what it gathers. -/
theorem RegStep.foldl_fst {α β : Type} (f : Group × α → β → Group × α) (ls : List β)
    (h : ∀ acc L, RegStep ws act dr acc.1 (f acc L).1) (acc : Group × α) : RegStep ws act dr acc.1 (ls.foldl f acc).1 := by
  induction ls generalizing acc with
  | nil => exact .refl _ _ _ _
  | cons L ls ih => exact (h acc L).trans (ih _)

theorem RegStep.cvtblkBody {src : Ty} {o : RForm} (hr : ∀ k < 1, .v (o.d.toNat + k) ∈ ws) (hdr : o.rm = .rs → dr = true) :
    RegStep ws act dr g (cvtblkBody src o g act) := by
  unfold Machine.cvtblkBody
  extract_lets sel sb
  generalize List.range 32 = ls
  split
  next g' xs tag hg' =>
  have hfold : RegStep ws act dr g g' := by
    have e : g' = _ := (congrArg Prod.fst hg').symm
    rw [e]
    refine RegStep.foldl_fst _ ls (fun acc L => ?_) (g, [], false)
    dsimp only
    split
    · next hb => exact .drawLane hdr hb
    · exact .refl _ _ _ _
  split
  exact (hfold.trans (.orFlags _ _)).trans (.eachLane _ (fun x L hL hb => .wrVs x _ _ _ _ _ hr hL hb) _)

end

end Sys2Proof.Machine
end

