-- ==== Sys2Proof/Proofs/RegisterFrames.lean ====
section
/-! The frame of every register word (R25, R56, R60, R71, R140, R150, R171): O1. -/

namespace Sys2Proof.Machine

/-- What O1 says of one word at one issue. -/
abbrev RegFrame (i : Instr) (s : State) (g : Group) : Prop :=
  RunsTo i s fun g' =>
    OnlyRegs g g' ∧ g'.Canonical
    ∧ (∀ r, r ∉ i.writes → SameReg g g' r)
    ∧ (∀ n, ∀ L < 32, ¬ active s g (guardOf i) L →
        rdV g' n L = rdV g n L ∧ bitOf (rdP g' n).bits L = bitOf (rdP g n).bits L
          ∧ bitOf (rdP g' n).tags L = bitOf (rdP g n).tags L)
    ∧ g.fpstat &&& g'.fpstat = g.fpstat
    ∧ MovesOn s.cur 0 { g with lanes := g.lanes.mapIdx fun L ln => { ln with rnd := (g'.lane L).rnd } } g'
    ∧ ∀ L < 32, (g'.lane L).rnd = (g.lane L).rnd ∨ (draws i = true ∧ active s g (guardOf i) L)

theorem nextLane_rnd (c : Cur) (ln : Lane) : (nextLane c ln).rnd = ln.rnd := by
  unfold nextLane
  repeat' split
  all_goals rfl

theorem MovesOn.lane_rnd {c : Cur} {stay : Word} {g g' : Group} (h : MovesOn c stay g g') {L : Nat} (hL : L < 32) :
    (g'.lane L).rnd = (g.lane L).rnd := by
  rw [h L hL]
  split
  · exact nextLane_rnd ..
  · rfl

theorem lane_withRnd (g g' : Group) {L : Nat} (hL : L < g.lanes.length) :
    ({ g with lanes := g.lanes.mapIdx fun L ln => { ln with rnd := (g'.lane L).rnd } } : Group).lane L
      = { g.lane L with rnd := (g'.lane L).rnd } :=
  lane_mapLanes g (fun L ln => { ln with rnd := (g'.lane L).rnd }) L hL

theorem RegStep.gid {ws : List RegName} {act : Word} {dr : Bool} {x y : Group} (h : RegStep ws act dr x y) : y.gid = x.gid := by
  have e := congrArg Group.gid h.only
  exact e

/-- A word whose effect is a step of registers has their frame. -/
theorem execRegs_frame {i : Instr} {f : Group → Word → Group} {s : State} {g : Group} (h : GoesAhead i (guardOf i) s g)
    (hx : exec i s = execRegs i (guardOf i) f s) (hf : ∀ x act, RegStep i.writes act (draws i) x (f x act)) :
    RegFrame i s g := by
  obtain ⟨t, ht, honly, hg⟩ := execRegs_runs (f := f) h fun x w => (hf x w).gid
  have hc : g.Canonical := h.2.2.1
  generalize hx' : (if activeOf g s.cur (guardOf i) = 0 then g else f g (activeOf g s.cur (guardOf i))) = x at hg
  have hs : RegStep i.writes (activeOf g s.cur (guardOf i)) (draws i) g x := by
    rw [← hx']
    split
    · exact .refl _ _ _ _
    · exact hf _ _
  have hxc := hs.canon hc
  have hmove := advance_movesOn x s.cur 0 hxc.1
  refine ⟨t, _, hx.trans ht, honly, hg, ?_, hxc.advance _ _, fun r hr => hs.same hc r hr, fun n L hL hn => ?_,
    hs.flags, fun L hL => ?_, fun L hL => ?_⟩
  · exact hs.only
  · have hb : bitOf (activeOf g s.cur (guardOf i)) L = false := by simpa using hn
    exact ⟨hs.lane hc n L hL hb, hs.bit hc n L hL hb⟩
  · have e : ({ g.lane L with rnd := ((x.advance s.cur 0).lane L).rnd } : Lane) = x.lane L := by
      rw [hmove.lane_rnd hL, ← hs.stand L hL]
    rw [lane_withRnd _ _ (hc.1 ▸ hL), e]
    exact hmove L hL
  · rw [hmove.lane_rnd hL]
    exact hs.rnd L hL

theorem pair_dest (x y : Slot) :
    .v x.pd.toNat ∈ (Instr.pairWord x y).writes ∧ .v y.pd.toNat ∈ (Instr.pairWord x y).writes :=
  ⟨.head _, .tail _ (.head _)⟩

/-- The effect of P2S on its group (R197). -/
def p2sBody (o : RForm) (g : Group) (_ : Word) : Group :=
  wrS g o.d.toNat ⟨(rdP g o.a.toNat).bits, (rdP g o.a.toNat).tags ≠ 0⟩

/-- The effect of S2P on its group (R197). -/
def s2pBody (o : RForm) (g : Group) (act : Word) : Group :=
  eachLane act (fun h L => wrPBit h o.d.toNat L (bitOf (rdS g o.a.toNat).val L) (rdS g o.a.toNat).tag) g

/-- The effect of VOTE.MASK on its group (R217). -/
def voteMaskBody (o : RForm) (g : Group) (act : Word) : Group :=
  wrS g o.d.toNat ⟨(rdP g o.a.toNat).bits &&& act, ((rdP g o.a.toNat).tags &&& act) ≠ 0⟩

theorem exec_p2s (o : RForm) (s : State) : exec (.p2s o) s = execRegs (.p2s o) o.g (p2sBody o) s := rfl
theorem exec_s2p (o : RForm) (s : State) : exec (.s2p o) s = execRegs (.s2p o) o.g (s2pBody o) s := rfl
theorem exec_voteMask (o : RForm) (s : State) : exec (.voteMask o) s = execRegs (.voteMask o) o.g (voteMaskBody o) s := rfl

section
variable {i : Instr} {s : State} {g : Group} (h : GoesAhead i (guardOf i) s g)
include h

theorem intWord_frame {op : IntOp} {o : RForm} (hv : i.view = .r (intDesc op o) o)
    (hx : exec i s = execRegs i (guardOf i) (intBody false op o) s) : RegFrame i s g :=
  execRegs_frame h hx fun _ _ => .intBody (lane_dest hv (intDesc_dest op o))

theorem immWord_frame {op : IntImmOp} {o : IForm} (hv : i.view = .i (immDesc op) o)
    (hx : exec i s = execRegs i (guardOf i) (immBody false op o) s) : RegFrame i s g :=
  execRegs_frame h hx fun _ _ => .immBody (imm_lane_dest hv (immDesc_dest op))

theorem predWord_frame {f : Word → Word → Word} {two : Bool} {d : RDesc} {o : RForm} (hv : i.view = .r d o)
    (hd : d.d = .pred) (hx : exec i s = execRegs i (guardOf i) (predBody f two o) s) : RegFrame i s g :=
  execRegs_frame h hx fun _ _ => .predBody (pred_dest hv hd)

theorem floatWord_frame {op : FOp} {packed three : Bool} {d : RDesc} {o : RForm} (hv : i.view = .r d o)
    (hd : d.d = .lane 1) (hx : exec i s = execRegs i (guardOf i) (fBody op packed three o) s) : RegFrame i s g :=
  execRegs_frame h hx fun _ _ => .fBody (lane_dest hv hd)

theorem oneWord_frame {f : Nat → Nat × Flags} {nd : Nat} {d : RDesc} {o : RForm} (hv : i.view = .r d o)
    (hd : d.d = .lane nd) (hx : exec i s = execRegs i (guardOf i) (oneBody f nd o) s) : RegFrame i s g :=
  execRegs_frame h hx fun _ _ => .oneBody (lane_dest hv hd)

theorem carryWord_frame {sub : Bool} {d : RDesc} {o : RForm} (hv : i.view = .r d o) (hd : d.d = .lane 1)
    (hp : o.c.toNat ≠ 0 → .p o.c.toNat ∈ i.writes) (hx : exec i s = execRegs i (guardOf i) (carryBody sub o) s) :
    RegFrame i s g :=
  execRegs_frame h hx fun _ _ => .carryBody (lane_dest hv hd) hp

end

/-- Settles O1: each register word's effect is a step of its result registers in the active lanes. -/
theorem registerWordsChangeOnlyTheirResults : Obligations.RegisterWordsChangeOnlyTheirResults := by
  intro i s g hreg h
  change RegFrame i s g
  cases i
  case add o | sub o | neg o | abs o | mul o | mulHi o | mulWide o | mad o | madHi o | madWide o | min o | max o
      | and o | or o | xor o | not o | andn o | orn o | xnor o | shl o | shr o | sar o | rol o | ror o | bfe o | bfi o
      | popc o | clz o | brev o | mov o | movI64 o | lea o | leaN o | leaS o => exact intWord_frame h rfl rfl
  case addImm o | subImm o | andImm o | orImm o | xorImm o | minImm o | maxImm o | movImm o | movI64Imm o =>
    exact immWord_frame h rfl rfl
  case pand o | por o | pxor o | pandn o | porn o | pnot o | pmov o => exact predWord_frame h rfl rfl rfl
  case fadd o | fsub o | fmul o | ffma o | ffms o | ffnma o | fmin o | fmax o | padd o | pmul o | pfma o | pmin o | pmax o =>
    exact floatWord_frame h rfl rfl rfl
  case fclass o | fexp o | fmant o | frred o => exact oneWord_frame h rfl rfl rfl
  case fseed k o => exact oneWord_frame h rfl rfl rfl
  case addc o | subc o => exact carryWord_frame h rfl rfl (fun _ => List.mem_append_right _ (List.mem_singleton_self _)) rfl
  case uniformForm u =>
    cases u with
    | r op o => exact execRegs_frame h rfl fun _ _ => .intBody_uniform (uni_dest rfl (uniDesc_dest op o))
    | i op o => exact execRegs_frame h rfl fun _ _ => .immBody_uniform (imm_uni_dest rfl (uniImmDesc_dest op))
  case pairWord x y => exact execRegs_frame h rfl fun _ _ => .pairBody (pair_dest x y).1 (pair_dest x y).2
  case icmpp k o => exact execRegs_frame h rfl fun _ _ => .icmpBody (pred_dest rfl rfl)
  case sel o => exact execRegs_frame h rfl fun _ _ => .selBody (lane_dest rfl rfl)
  case dot4 o => exact execRegs_frame h rfl fun _ _ => .dot4Body (lane_dest rfl rfl)
  case p2s o => exact execRegs_frame h (exec_p2s o s) fun _ _ => .wrS _ _ _ (uni_dest (w := 1) rfl rfl 0 Nat.one_pos)
  case s2p o =>
    exact execRegs_frame h (exec_s2p o s) fun _ _ => .eachLane _ (fun x _ hL hb => .wrPBit x _ _ _ _ (pred_dest rfl rfl) hL hb) _
  case shfl m o => exact execRegs_frame h rfl fun _ _ => .shflBody (lane_dest rfl rfl)
  case voteOr o | voteAnd o => exact execRegs_frame h rfl fun _ _ => .voteBody (pred_dest rfl rfl)
  case voteMask o => exact execRegs_frame h (exec_voteMask o s) fun _ _ => .wrS _ _ _ (uni_dest (w := 1) rfl rfl 0 Nat.one_pos)
  case matchPeers o | matchSame o => exact execRegs_frame h rfl fun _ _ => .matchBody (lane_dest rfl rfl)
  case scan op o => exact execRegs_frame h rfl fun _ _ => .scanBody (lane_dest rfl rfl)
  case fcmpp k o => exact execRegs_frame h rfl fun _ _ => .fcmpBody (pred_dest rfl rfl)
  case fscale o => exact execRegs_frame h rfl fun _ _ => .fscaleBody (lane_dest rfl rfl)
  case cvt src o => exact execRegs_frame h rfl fun _ _ => .cvtBody (lane_dest rfl rfl) decide_eq_true
  case cvtblk src o => exact execRegs_frame h rfl fun _ _ => .cvtblkBody (lane_dest rfl rfl) decide_eq_true
  all_goals cases hreg

end Sys2Proof.Machine
end

