-- ==== Sys2Proof/Proofs/BackOffs.lean ====
section
/-! Back-offs and pre-emption windows (R44, R175, R176, R178): O16. -/

namespace Sys2Proof.Machine

/-- An instruction whose step is a change of the issuing group. -/
theorem runsTo_onGroup {i : Instr} {s : State} {g : Group} {f : Group → Group} {P : Group → Prop}
    (hx : exec i s = .next (s.onGroup s.cur.gid f)) (hg : s.group? s.cur.gid = some g) (hf : ∀ x, (f x).gid = x.gid)
    (hP : P (f g)) : RunsTo i s P :=
  ⟨_, _, hx, onlyIssuer_onGroup s f hf, group?_onGroup_same hg hf, hP⟩

/-- A word that has no effect but on its lanes' places runs to the group moved on. -/
theorem runsTo_go {i : Instr} {s : State} {g : Group} {P : Group → Prop} (hx : exec i s = .next (s.go 0))
    (hg : s.group? s.cur.gid = some g) (hP : P (g.advance s.cur 0)) : RunsTo i s P :=
  runsTo_onGroup hx hg (fun _ => rfl) hP

theorem runsTo_mapLanes {i : Instr} {s : State} {g : Group} {f : Nat → Lane → Lane}
    (hx : exec i s = .next (s.onGroup s.cur.gid fun x => mapLanes x f)) (hg : s.group? s.cur.gid = some g)
    (h32 : g.lanes.length = 32) :
    RunsTo i s fun g' => OnlyLanes g g' ∧ ∀ L < 32, g'.lane L = f L (g.lane L) :=
  runsTo_onGroup hx hg (fun _ => rfl) ⟨rfl, fun _ hL => lane_mapLanes _ _ _ (h32 ▸ hL)⟩

theorem lane_setWait {g : Group} (h32 : g.lanes.length = 32) (lanes : Word) (w : Wait) {L : Nat} (hL : L < 32) :
    (g.setWait lanes w).lane L = if bitOf lanes L then { g.lane L with wait := w } else g.lane L :=
  lane_mapLanes _ _ _ (h32 ▸ hL)

/-- YIELD moves its path on and makes it wait (R175). -/
theorem yield_runs {o : RForm} {s : State} {g : Group} (h : GoesAhead (.yield o) o.g s g) (ha : activeOf g s.cur o.g ≠ 0) :
    RunsTo (.yield o) s fun g' => OnlyLanes g g' ∧ ∀ L < 32, g'.lane L =
      if bitOf s.cur.lanes L then
        { nextLane s.cur (g.lane L) with wait := .yield ((s.side (sideKey g.core g.side)).cycle + 33) }
      else g.lane L := by
  have hx : exec (.yield o) s = .next (yieldEffect s g (activeOf g s.cur o.g)) :=
    (execWord_runs h).trans (by rw [if_neg ha])
  refine runsTo_onGroup hx h.2.1 (fun _ => rfl) ⟨rfl, fun L hL => ?_⟩
  have h32 : (g.advance s.cur 0).lanes.length = 32 := (h.2.2.1.advance s.cur 0).1
  rw [lane_setWait h32 _ _ hL, advance_movesOn g s.cur 0 h.2.2.1.1 L hL]
  cases bitOf s.cur.lanes L <;> simp [bitOf]

theorem yieldBackoffExpiry_runs {s : State} {g : Group} (hg : s.group? s.cur.gid = some g) (h32 : g.lanes.length = 32) :
    RunsTo .yieldBackoffExpiry s fun g' => OnlyLanes g g' ∧ ∀ L < 32, g'.lane L =
      match (g.lane L).wait with
      | .yield u => if u ≤ (s.side (sideKey g.core g.side)).cycle then { g.lane L with wait := .none } else g.lane L
      | _ => g.lane L := by
  have hx : exec .yieldBackoffExpiry s = .next (s.onGroup s.cur.gid fun x => mapLanes x fun _ ln =>
      match ln.wait with
      | .yield _ => if backoffOver s ln g then { ln with wait := .none } else ln
      | _ => ln) := by
    refine congrArg Host.Outcome.next (?_ : doYieldBackoffExpiry s = _)
    unfold doYieldBackoffExpiry
    split
    · next h0 => exact absurd (h0.symm.trans hg) nofun
    · next g0 h0 =>
      obtain rfl := Option.some.inj (h0.symm.trans hg)
      exact rfl
  obtain ⟨t, g', ht, honly, hg', hl, hlanes⟩ := runsTo_mapLanes hx hg h32
  refine ⟨t, g', ht, honly, hg', hl, fun L hL => (hlanes L hL).trans ?_⟩
  cases hw : (g.lane L).wait <;> simp [backoffOver, hw]

theorem yieldWBackoffExpiry_runs {s : State} {g : Group} (hg : s.group? s.cur.gid = some g) (h32 : g.lanes.length = 32) :
    RunsTo .yieldWBackoffExpiry s fun g' => OnlyLanes g g' ∧ ∀ L < 32, g'.lane L =
      match (g.lane L).wait with
      | .backoff u => if u ≤ (s.side (sideKey g.core g.side)).cycle then { g.lane L with wait := .none } else g.lane L
      | _ => g.lane L := by
  have hx : exec .yieldWBackoffExpiry s = .next (s.onGroup s.cur.gid fun x => mapLanes x fun _ ln =>
      match ln.wait with
      | .backoff _ => if backoffOver s ln g then { ln with wait := .none } else ln
      | _ => ln) := by
    refine congrArg Host.Outcome.next (?_ : doYieldWBackoffExpiry s = _)
    unfold doYieldWBackoffExpiry
    split
    · next h0 => exact absurd (h0.symm.trans hg) nofun
    · next g0 h0 =>
      obtain rfl := Option.some.inj (h0.symm.trans hg)
      exact rfl
  obtain ⟨t, g', ht, honly, hg', hl, hlanes⟩ := runsTo_mapLanes hx hg h32
  refine ⟨t, g', ht, honly, hg', hl, fun L hL => (hlanes L hL).trans ?_⟩
  cases hw : (g.lane L).wait <;> simp [backoffOver, hw]

theorem inWindow_iff {g : Group} {now : Nat} : g.inWindow now = true ↔ ∃ u, g.halt = .window u ∧ now < u := by
  unfold Group.inWindow
  cases g.halt <;> simp

theorem exec_ppoint {o : IForm} {s : State} {g : Group} (h : GoesAhead (.ppoint o) o.g s g) :
    exec (.ppoint o) s = .next (if activeOf g s.cur o.g = 0 then s.go 0 else ppointEffect o s g (activeOf g s.cur o.g)) :=
  execWord_runs h

/-- PPOINT in the window of its group, which has one path, halts the group after the word (R178). -/
theorem ppoint_halts {o : IForm} {s : State} {g : Group} (h : GoesAhead (.ppoint o) o.g s g)
    (hw : ∃ u, g.halt = .window u ∧ s.ltick < u) (hr : s.cur.lanes = g.running) (ha : activeOf g s.cur o.g ≠ 0) :
    RunsTo (.ppoint o) s fun g' =>
      { g' with lanes := g.lanes } = { g with halt := .halting .preempt, ppoint := some o.imm } ∧ MovesOn s.cur 0 g g' := by
  have hx := exec_ppoint h
  rw [if_neg ha, ppointEffect, inWindow_iff.2 hw, decide_eq_true hr, Bool.and_self, if_pos rfl] at hx
  exact runsTo_onGroup hx h.2.1 (fun _ => rfl) ⟨rfl, advance_movesOn g s.cur 0 h.2.2.1.1⟩

/-- Elsewhere it only moves its lanes on. -/
theorem ppoint_goes {o : IForm} {s : State} {g : Group} (h : GoesAhead (.ppoint o) o.g s g)
    (hn : (∀ u, g.halt = .window u → u ≤ s.ltick) ∨ s.cur.lanes ≠ g.running ∨ activeOf g s.cur o.g = 0) :
    RunsTo (.ppoint o) s fun g' => OnlyLanes g g' ∧ MovesOn s.cur 0 g g' := by
  have hx : exec (.ppoint o) s = .next (s.go 0) := by
    rw [exec_ppoint h]
    split
    · rfl
    · next ha =>
      rw [ppointEffect, if_neg]
      rw [Bool.and_eq_true, inWindow_iff, decide_eq_true_eq]
      rintro ⟨⟨u, hu, hlt⟩, hr⟩
      rcases hn with hn | hn | hn
      · exact absurd (hn u hu) (by omega)
      · exact hn hr
      · exact ha hn
  exact runsTo_go hx h.2.1 ⟨rfl, advance_movesOn g s.cur 0 h.2.2.1.1⟩

theorem ppointWindowExpiry_runs {s : State} {g : Group} {u : Nat} (hg : s.group? s.cur.gid = some g)
    (hw : g.halt = .window u) : RunsTo .ppointWindowExpiry s fun g' =>
      g' = { g with halt := if u ≤ s.ltick then .halting .preempt else .window u } := by
  have hgid : ∀ x : Group, (match x.halt with
      | .window u => if u ≤ s.ltick then { x with halt := .halting .preempt } else x
      | _ => x).gid = x.gid := fun x => by
    split
    · split <;> rfl
    · rfl
  refine runsTo_onGroup rfl hg hgid ?_
  simp only [hw]
  split
  · rfl
  · rw [← hw]

/-- Settles O16: the waits and halts of a group, word by word and event by event. -/
theorem backOffsAndWindowsExpire : Obligations.BackOffsAndWindowsExpire := by
  refine ⟨fun s g => ⟨fun o h ha => yield_runs h ha, yieldBackoffExpiry_runs, yieldWBackoffExpiry_runs⟩,
    fun s g => ⟨fun o h => ⟨ppoint_halts h, ppoint_goes h⟩, fun u => ppointWindowExpiry_runs⟩⟩

end Sys2Proof.Machine
end

