-- ==== Sys2Proof/Proofs/Barrier.lean ====
section
/-! The team barrier (R34, R228, R241): O28 fails, since the lanes that go on have a new first cycle. -/

namespace Sys2Proof.Machine

open Sys2Proof.Tests

/-- The first cycle of lane 0 of group 1 after a step. -/
def readyAfter : Out → Option Nat
  | .next t => (t.group? 1).map fun g => (g.lane 0).readyAt
  | _ => none

/-- The only group of a team completes the barrier, and its lanes' next word is from cycle 32 of their side (R228). -/
theorem barrier_readyAt : readyAfter (exec (.barrier rz) s0) = some 32 := by decide +kernel

/-- Refutes O28: the lanes that the barrier lets go on have their next word 32 cycles later (R228), which the statement's
`leftLane` leaves as it was. -/
theorem not_barrierCompletesWithTheLastGroup : ¬ Obligations.BarrierCompletesWithTheLastGroup := by
  intro h
  obtain ⟨hgo, -, hteam, hhead, hended, hperf, -, hcount, hown⟩ := witness_BarrierCompletesWithTheLastGroup
  obtain ⟨t, g', ht, hg', -, -, -, -, -, -, hlast⟩ := h rz s0 grp team hgo hteam hhead hended hperf
  obtain ⟨hlanes, -⟩ := hlast hcount hown (by decide +kernel)
  have hready := barrier_readyAt
  rw [ht] at hready
  have hready : (g'.lane 0).readyAt = 32 := by
    have e : t.group? 1 = some g' := hg'
    simpa [readyAfter, e] using hready
  rw [hlanes 0 (by decide)] at hready
  exact absurd hready (by decide +kernel)

end Sys2Proof.Machine
end

