-- ==== Sys2Proof/Proofs/Deadlock.lean ====
section
/-! The pool-deadlock check of a side (R39), and lanes that wait and leave. -/

namespace Sys2Proof.Machine

/-! Lanes. -/

theorem bitOf_all {L : Nat} (hL : L < 32) : bitOf 0xFFFFFFFF#32 L = true := by
  revert hL L
  decide

theorem maskOf_all {f : Nat → Bool} (h : ∀ L < 32, f L = true) : maskOf f = 0xFFFFFFFF#32 :=
  BitVec.eq_of_getLsbD_eq fun L hL => (bitOf_maskOf hL).trans ((h L hL).trans (bitOf_all hL).symm)

theorem lowest_all : lowest 0xFFFFFFFF#32 = 0 := by decide

/-- Lanes that begin to wait at the word of the issue. -/
theorem lane_awaits {g : Group} (h32 : g.lanes.length = 32) (c : Cur) (lanes : Word) (w : Nat → Wait) {L : Nat} (hL : L < 32) :
    (g.await c lanes w).lane L = if bitOf lanes L then waitingLane c (g.lane L) (w L) else g.lane L := by
  rw [Group.await, lane_mapLanes _ _ _ (h32 ▸ hL)]
  unfold waitingLane
  cases c.rep <;> rfl

/-- What `Group.leave` makes of a lane is `leftLane`. -/
theorem past_eq_leftLane (ln : Lane) :
    { ln.past ln.pc (if ln.cnt = 0 then none else some (ln.k, ln.cnt)) with wait := .none, polls := 0, cnt := 0 } = leftLane ln := by
  unfold leftLane
  by_cases hc : ln.cnt = 0
  · rw [if_pos hc, if_pos hc]
    rfl
  · rw [if_neg hc, if_neg hc]
    by_cases hk : ln.k < ln.cnt
    · simp only [Lane.past, if_pos hk]
    · simp only [Lane.past, if_neg hk]

/-- Lanes that go on from the word at which they waited. -/
theorem lane_leaves {g : Group} (h32 : g.lanes.length = 32) (lanes : Word) {L : Nat} (hL : L < 32) :
    (g.leave lanes).lane L = if bitOf lanes L then leftLane (g.lane L) else g.lane L := by
  rw [Group.leave, lane_mapLanes _ _ _ (h32 ▸ hL), past_eq_leftLane]

/-- A lane whose wait is set, in the list or past its end. -/
theorem setWait_lane (g : Group) (m : Word) (hm : ∀ L, bitOf m L = true → L < g.lanes.length) (w : Wait) (L : Nat) :
    ((g.setWait m w).lane L).wait = (if bitOf m L then w else (g.lane L).wait)
      ∧ ((g.setWait m w).lane L).pc = (g.lane L).pc := by
  by_cases hL : L < g.lanes.length
  · rw [Group.setWait, lane_mapLanes _ _ _ hL]
    split <;> exact ⟨rfl, rfl⟩
  · have hb : bitOf m L = false := by
      cases hb : bitOf m L with
      | false => rfl
      | true => exact absurd (hm L hb) hL
    have e : (g.setWait m w).lane L = g.lane L := by
      simp [Group.setWait, mapLanes, Group.lane, List.getD_eq_getElem?_getD, List.getElem?_eq_none (not_lt.1 hL)]
    rw [e, hb]
    exact ⟨rfl, rfl⟩

theorem lane_past_end {g : Group} {L : Nat} (h : g.lanes.length ≤ L) : g.lane L = defaultLane := by
  simp [Group.lane, List.getD_eq_getElem?_getD, List.getElem?_eq_none h]

/-! Taking a trap, whatever the group. -/

theorem takeTrap_teams (s : State) (k : Nat) (t : TrapReq) (pc : BitVec 64) : (takeTrap s k t pc).teams = s.teams := by
  unfold takeTrap
  split
  · rfl
  · split <;> rfl

theorem takeTrap_other (s : State) (k : Nat) (t : TrapReq) (pc : BitVec 64) {j : Nat} (hj : j ≠ k) :
    (takeTrap s k t pc).group? j = s.group? j := by
  unfold takeTrap
  split
  · rfl
  · split
    · rfl
    · exact group?_onGroup_other (s := countEvent s _ _ _ _) (fun _ => rfl) hj

/-! The check. -/

/-- The lanes of a group that wait in ACQ. -/
def Group.acqLanes (g : Group) : Word := maskOf fun L => (g.lane L).wait = .acq

/-- Every group of a side is blocked in ACQ, or at a barrier behind one that is (R39). -/
def State.SideStuck (s : State) (team side : Nat) : Prop :=
  ∀ x ∈ s.live team, x.side = side → x.inAcq = true
    ∨ (x.atBarrier = true ∧ ∃ y ∈ s.live team, y.side = side ∧ y.inAcq = true ∧ y.barriers < x.barriers)

/-- The state in which the group of a request has taken the pool-deadlock trap, and the request is gone (R39). -/
def State.deadlocked (s : State) (team : Nat) (q : AcqReq) : State :=
  let s := s.onTeam team fun t => { t with acqQ := t.acqQ.filter (· ≠ q) }
  match s.group? q.gid with
  | some g =>
    takeTrap (s.onGroup q.gid fun x => x.setWait g.acqLanes .none) q.gid
      ⟨0x06, lowest g.acqLanes, 0, 0⟩ ((g.lane (lowest g.acqLanes)).wordPc (g.lane (lowest g.acqLanes)).pc)
  | none => s

section
variable {s : State} {team side : Nat} {t : Team}

/-- The check's own test of a side is `SideStuck`. -/
theorem sideStuck_iff : s.SideStuck team side ↔
    (((s.live team).filter fun g => g.side = side).all fun g =>
      g.inAcq || (g.atBarrier && ((s.live team).filter fun g => g.side = side).any fun x =>
        x.inAcq && decide (x.barriers < g.barriers))) = true := by
  simp only [State.SideStuck, List.all_eq_true, List.any_eq_true, List.mem_filter, Bool.or_eq_true, Bool.and_eq_true,
    decide_eq_true_eq, and_imp, and_assoc]

/-- A side with a group that is not blocked has no deadlock. -/
theorem checkDeadlock_unstuck (h : ¬ s.SideStuck team side) : s.checkDeadlock team side = s := by
  rw [sideStuck_iff, Bool.not_eq_true] at h
  unfold State.checkDeadlock
  split
  · rfl
  · dsimp only
    rw [h]
    split <;> rfl

/-- A stuck side whose first request does not fit is the deadlock of its group. -/
theorem checkDeadlock_stuck {q : AcqReq} (ht : s.team? team = some t) (h : s.SideStuck team side)
    (hq : t.head side = some q) (hn : s.freeUnits t side q.kind < q.n) :
    s.checkDeadlock team side = s.deadlocked team q := by
  have hg : s.grantable t side = false := by
    unfold State.grantable
    rw [hq]
    exact decide_eq_false (by omega)
  unfold State.checkDeadlock
  rw [ht]
  dsimp only
  rw [hq, sideStuck_iff.1 h, hg]
  rfl

end

section
variable {s : State} {team : Nat} {q : AcqReq}

theorem deadlocked_teams : (s.deadlocked team q).teams = (s.onTeam team fun t => { t with acqQ := t.acqQ.filter (· ≠ q) }).teams := by
  unfold State.deadlocked
  dsimp only
  split
  · exact takeTrap_teams _ _ _ _
  · rfl

theorem deadlocked_other {j : Nat} (hj : j ≠ q.gid) : (s.deadlocked team q).group? j = s.group? j := by
  unfold State.deadlocked
  dsimp only
  split
  · rw [takeTrap_other _ _ _ _ hj]
    exact group?_onGroup_other (s := s.onTeam team _) (fun _ => rfl) hj
  · rfl

/-- The group of the request: its waiting lanes wait no more, and it has the trap. -/
theorem deadlocked_group {x : Group} (hx : s.group? q.gid = some x) (hn : x.trap = none) :
    (s.deadlocked team q).group? q.gid = some ((x.setWait x.acqLanes .none).trapped ⟨0x06, lowest x.acqLanes, 0, 0⟩
      ((x.lane (lowest x.acqLanes)).wordPc (x.lane (lowest x.acqLanes)).pc) s.ltick) := by
  have e : s.deadlocked team q = takeTrap
      ((s.onTeam team fun t => { t with acqQ := t.acqQ.filter (· ≠ q) }).onGroup q.gid fun g =>
        g.setWait x.acqLanes .none) q.gid
      ⟨0x06, lowest x.acqLanes, 0, 0⟩ ((x.lane (lowest x.acqLanes)).wordPc (x.lane (lowest x.acqLanes)).pc) := by
    unfold State.deadlocked
    dsimp only
    rw [show (s.onTeam team fun t => { t with acqQ := t.acqQ.filter (· ≠ q) }).group? q.gid = some x from hx]
  rw [e]
  exact (takeTrap_spec _ _ (group?_onGroup_same (s := s.onTeam team _) (f := fun g => g.setWait x.acqLanes .none) hx
    fun _ => rfl) hn).1

end

end Sys2Proof.Machine
end

