-- ==== Sys2Proof/Proofs/Grants.lean ====
section
/-! What a grant of ACQ gives (R37, R40): cleared units with a new generation, and nothing else. -/

namespace Sys2Proof.Machine

/-! Maps from which some keys are taken. -/

section
variable {α : Type} {d : α}

theorem sget_filter_keys (m : SMap α) (p : Nat → Bool) (k : Nat) :
    sget d (m.filter fun x => p x.1) k = if p k then sget d m k else d := by
  induction m with
  | nil => simp [sget]
  | cons x m ih =>
    obtain ⟨j, a⟩ := x
    rw [List.filter_cons]
    by_cases hkj : k = j
    · subst hkj
      cases hp : p k with
      | true => simp [sget]
      | false => simpa [hp] using ih
    · cases hp : p j with
      | true => simpa [sget, hkj] using ih
      | false => simpa [sget, hkj] using ih

/-- A value other than the default reads back, whatever the map. -/
theorem sget_sset_of_ne [DecidableEq α] (m : SMap α) (k j : Nat) {a : α} (ha : a ≠ d) :
    sget d (sset d m k a) j = if j = k then a else sget d m j := by
  induction m with
  | nil => simp [sset, ha, sget]
  | cons x m ih =>
    obtain ⟨i, b⟩ := x
    unfold sset
    by_cases hki : k < i
    · simp only [if_pos hki, if_neg ha, sget]
    · rw [if_neg hki]
      by_cases hk : k = i
      · subst hk
        simp only [if_neg ha, if_true, sget]
        split <;> rfl
      · rw [if_neg hk]
        by_cases hj : j = i
        · subst hj
          simp [sget, Ne.symm hk]
        · simpa [sget, hj] using ih

end

/-- A run of keys that all get one value. -/
theorem sget_foldl_sset {f : Nat} (hf : f ≠ 0) (m : SMap Nat) (b n k : Nat) (hb : b ≤ k) (hk : k < b + n) :
    sget 0 ((List.range n).foldl (fun m i => sset 0 m (b + i) f) m) k = f := by
  induction n with
  | zero => omega
  | succ n ih =>
    rw [List.range_succ, List.foldl_append]
    simp only [List.foldl_cons, List.foldl_nil]
    rw [sget_sset_of_ne _ _ _ hf]
    split
    · rfl
    · exact ih (by omega)

/-! The same effect on a leader and its outrider. -/

section
variable (g : Group) (f : Group → Group)

/-- Of its own state the leader has the effect, whatever its outrider. -/
theorem both_leader : ∃ o, g.both f = { f g with outrider := o } := by
  unfold Group.both
  split
  · exact ⟨_, rfl⟩
  · exact ⟨_, rfl⟩

end

/-! The gain of units. -/

section
variable (g : Group) (k : AcqKind) (n f : Nat)

/-- A group with blocks gained differs in its registers and their generation alone, its outrider apart. -/
theorem gain_blk : ∃ o, g.gain .blk n f =
    { g with
      v := g.v.filter fun x => !(decide (32 * (64 + 32 * g.h) ≤ x.1) && decide (x.1 < 32 * (64 + 32 * (g.h + n))))
      h := g.h + n
      blkGen := (List.range n).foldl (fun m i => sset 0 m (g.h + i) f) g.blkGen
      outrider := o } := by
  obtain ⟨o, ho⟩ := both_leader g fun x =>
    { x with v := x.v.filter fun (r, _) => !(decide (32 * (64 + 32 * g.h) ≤ r) && decide (r < 32 * (64 + 32 * (g.h + n)))) }
  refine ⟨o, ?_⟩
  unfold Group.gain
  dsimp only
  rw [ho]

theorem gain_gid : (g.gain k n f).gid = g.gid := by
  cases k with
  | blk =>
    obtain ⟨o, e⟩ := gain_blk g n f
    rw [e]
  | opt => rfl
  | acc => rfl

theorem gain_lanes : (g.gain k n f).lanes = g.lanes := by
  cases k with
  | blk =>
    obtain ⟨o, e⟩ := gain_blk g n f
    rw [e]
  | opt => rfl
  | acc => rfl

theorem gain_holds (j : AcqKind) : (g.gain k n f).holds j = g.holds j + if j = k then n else 0 := by
  cases k with
  | blk =>
    obtain ⟨o, e⟩ := gain_blk g n f
    rw [e]
    cases j <;> rfl
  | opt => cases j <;> rfl
  | acc => cases j <;> rfl

theorem rdV_gain_blk (r L : Nat) : rdV (g.gain .blk n f) r L =
    if 32 * (64 + 32 * g.h) ≤ 32 * r + L ∧ 32 * r + L < 32 * (64 + 32 * (g.h + n)) then ⟨0, false⟩ else rdV g r L := by
  obtain ⟨o, e⟩ := gain_blk g n f
  rw [e]
  refine (sget_filter_keys _ (fun k => !(decide (32 * (64 + 32 * g.h) ≤ k) && decide (k < 32 * (64 + 32 * (g.h + n))))) _).trans ?_
  unfold rdV
  split <;> split <;> simp_all

theorem rdT_gain_opt (i : Nat) : rdT (g.gain .opt n f) i = if g.j ≤ i ∧ i < g.j + n then emptyTile else rdT g i := by
  refine (sget_filter_keys _ (fun k => !(decide (g.j ≤ k) && decide (k < g.j + n))) _).trans ?_
  unfold rdT
  split <;> split <;> simp_all

theorem rdA_gain_acc (i a b : Nat) : rdA (g.gain .acc n f) i a b =
    if 1024 * g.m ≤ 1024 * i + 32 * a + b ∧ 1024 * i + 32 * a + b < 1024 * (g.m + n) then ⟨0, false⟩ else rdA g i a b := by
  refine (sget_filter_keys _ (fun k => !(decide (1024 * g.m ≤ k) && decide (k < 1024 * (g.m + n)))) _).trans ?_
  unfold rdA
  split <;> split <;> simp_all

/-- New registers are 0, of the new generation (R40). -/
theorem gain_registers (hf : f ≠ 0) {r L : Nat} (hL : L < 32) (hlo : 64 + 32 * g.h ≤ r) (hhi : r < 64 + 32 * (g.gain k n f).h) :
    rdV (g.gain k n f) r L = ⟨0, false⟩ ∧ (g.gain k n f).regGen r = f := by
  cases k with
  | blk =>
    have hh : (g.gain .blk n f).holds .blk = g.h + n := gain_holds g .blk n f .blk
    have hhi : r < 64 + 32 * (g.h + n) := hh ▸ hhi
    refine ⟨(rdV_gain_blk g n f r L).trans (if_pos (by omega)), ?_⟩
    obtain ⟨o, e⟩ := gain_blk g n f
    rw [Group.regGen, if_neg (by omega), e]
    exact sget_foldl_sset hf _ _ _ _ (by omega) (by omega)
  | opt => exact absurd hhi (by simp only [Group.gain]; omega)
  | acc => exact absurd hhi (by simp only [Group.gain]; omega)

theorem gain_tiles {i : Nat} (hlo : g.j ≤ i) (hhi : i < (g.gain k n f).j) : rdT (g.gain k n f) i = emptyTile := by
  cases k with
  | blk =>
    have e : (g.gain .blk n f).j = g.j := gain_holds g .blk n f .opt
    omega
  | opt => exact (rdT_gain_opt g n f i).trans (if_pos ⟨hlo, hhi⟩)
  | acc => exact absurd hhi (by simp only [Group.gain]; omega)

theorem gain_accumulators {i a b : Nat} (ha : a < 32) (hb : b < 32) (hlo : g.m ≤ i) (hhi : i < (g.gain k n f).m) :
    rdA (g.gain k n f) i a b = ⟨0, false⟩ := by
  cases k with
  | blk =>
    have e : (g.gain .blk n f).m = g.m := gain_holds g .blk n f .acc
    omega
  | opt => exact absurd hhi (by simp only [Group.gain]; omega)
  | acc =>
    have hhi : i < g.m + n := hhi
    exact (rdA_gain_acc g n f i a b).trans (if_pos (by omega))

/-- What the group held already reads as before. -/
theorem gain_same (r : RegName)
    (hr : match r with | .v i => i < 64 + 32 * g.h | .t i => i < g.j | .a i => i < g.m | _ => True) :
    SameReg g (g.gain k n f) r := by
  cases k with
  | blk =>
    have hv := rdV_gain_blk g n f
    obtain ⟨o, e⟩ := gain_blk g n f
    rw [e] at hv ⊢
    cases r with
    | v i => exact fun L hL => (hv i L).trans (if_neg (by omega))
    | a i => exact fun _ _ _ _ => rfl
    | x i => trivial
    | _ => rfl
  | opt =>
    cases r with
    | t i => exact (rdT_gain_opt g n f i).trans (if_neg (by omega))
    | v i => exact fun _ _ => rfl
    | a i => exact fun _ _ _ _ => rfl
    | x i => trivial
    | _ => rfl
  | acc =>
    cases r with
    | a i => exact fun x hx y hy => (rdA_gain_acc g n f i x y).trans (if_neg (by omega))
    | v i => exact fun _ _ => rfl
    | x i => trivial
    | _ => rfl

end

/-! ACQ_GRANT. -/

/-- The step of ACQ_GRANT outside a recorded or replayed task. -/
theorem exec_acqGrant {s : State} {tm : Team} {side : Nat} {q : AcqReq} (ht : s.team? tm.id = some tm)
    (hs : s.serialOf tm.grid = none) (hq : canAcqGrant tm.id side s = some q) :
    exec (.acqGrant tm.id side) s = .next
      (((s.onTeam tm.id fun t => { t with acqQ := t.acqQ.filter (· ≠ q) }).fresh.2).onGroup q.gid fun g =>
        (g.gain q.kind q.n s.nextId).leave g.acqLanes) := by
  refine congrArg Host.Outcome.next (?_ : doAcqGrant tm.id side s = _)
  rw [doAcqGrant, ht, if_neg (by simp [hs]), State.acqGrant, hq]
  rfl

end Sys2Proof.Machine
end

