-- ==== Sys2Proof/Proofs/Acquisition.lean ====
section
/-! ACQ, its grant and REL (R36 to R40, R242): O29. -/

namespace Sys2Proof.Machine

/-! Groups and teams after a change of one of them. -/

section
variable {s : State} {k : Nat} {f : Group → Group}

/-- One group of a list changed. -/
abbrev changedAt (k : Nat) (f : Group → Group) (g : Group) : Group := if g.gid = k then f g else g

theorem live_onGroup (ht : ∀ x, (f x).team = x.team) (he : ∀ x, (f x).ended = x.ended) (team : Nat) :
    (s.onGroup k f).live team = (s.live team).map (changedAt k f) := by
  unfold State.live State.onGroup
  rw [List.filter_map]
  congr 2
  funext x
  dsimp only [Function.comp, changedAt]
  split <;> simp [ht, he]

theorem freeUnits_onGroup {kd : AcqKind} (ht : ∀ x, (f x).team = x.team) (he : ∀ x, (f x).ended = x.ended)
    (hs : ∀ x, (f x).side = x.side) (hh : ∀ x, (f x).holds kd = x.holds kd) (t : Team) (side : Nat) :
    (s.onGroup k f).freeUnits t side kd = s.freeUnits t side kd := by
  have hcount : ((s.onGroup k f).groups.filter fun g => g.team = t.id && g.side = side)
      = (s.groups.filter fun g => g.team = t.id && g.side = side).map (changedAt k f) := by
    unfold State.onGroup
    rw [List.filter_map]
    congr 2
    funext x
    dsimp only [Function.comp, changedAt]
    split <;> simp [ht, hs]
  have hlive : ((s.onGroup k f).groups.filter fun g => g.team = t.id && g.side = side && !g.ended)
      = (s.groups.filter fun g => g.team = t.id && g.side = side && !g.ended).map (changedAt k f) := by
    unfold State.onGroup
    rw [List.filter_map]
    congr 2
    funext x
    dsimp only [Function.comp, changedAt]
    split <;> simp [ht, hs, he]
  have hheld : (fun g : Group => g.holds kd) ∘ changedAt k f = fun g => g.holds kd := by
    funext x
    dsimp only [Function.comp, changedAt]
    split <;> simp [hh]
  unfold State.freeUnits State.share
  rw [hcount, hlive, List.length_map, List.map_map, hheld]
  rfl

end

/-! Words that act for the whole group. -/

/-- A word that needs every lane of its group traps where one is elsewhere (R34). -/
theorem traps_unconverged {i : Instr} {gd : Guard} {f : State → Group → Word → State} {s : State} {g : Group}
    (hx : exec i s = execWord i true gd f s) (h : GoesAhead i gd s g) (hn : g.trap = none)
    (hc : s.cur.lanes ≠ 0xFFFFFFFF#32 ∨ activeOf g s.cur gd ≠ 0xFFFFFFFF#32 ∨ g.running ≠ 0xFFFFFFFF#32) :
    Traps i s g ⟨0x04, lowest (activeOf g s.cur gd), 0, 0⟩ := by
  have hconv : convergeTrap g s.cur (activeOf g s.cur gd) = some ⟨0x04, lowest (activeOf g s.cur gd), 0, 0⟩ := by
    unfold convergeTrap
    rw [if_neg]
    simp only [Bool.and_eq_true, decide_eq_true_eq, and_assoc]
    rintro ⟨h1, h2, h3⟩
    simp_all
  refine traps_of_raise (hx.trans ?_) h.2.1 hn
  simp only [execWord, onPath, h.2.1, wordTrap, mapTrap_none h.2.2.2.1, if_true, hconv]

/-! The request. -/

/-- Every lane of the issue waits in ACQ. -/
def Group.asking (c : Cur) (g : Group) : Group := g.await c 0xFFFFFFFF#32 fun _ => .acq

/-- A request at the end of a team's queue. -/
def Team.withReq (q : AcqReq) (t : Team) : Team := { t with acqQ := t.acqQ ++ [q] }

/-- The state with the request of ACQ queued and the group waiting, before the check for a deadlock. -/
def State.asked (s : State) (team : Nat) (q : AcqReq) : State :=
  (s.onTeam team (Team.withReq q)).onGroup s.cur.gid (Group.asking s.cur)

section
variable {k : AcqKind} {n : Nat} {i : Instr} {gd : Guard} {s : State} {g : Group} {tm : Team}

/-- The team's queue after the request. -/
theorem team?_asked (ht : s.team? g.team = some tm) (q : AcqReq) :
    (s.asked g.team q).team? g.team = some (tm.withReq q) := by
  have e : (s.asked g.team q).team? g.team = (s.onTeam g.team (Team.withReq q)).team? g.team := rfl
  rw [e, team?_onTeam s g.team (Team.withReq q) g.team fun _ => rfl, ht]
  simp [team?_id ht, Team.withReq]

theorem group?_asked (hg : s.group? s.cur.gid = some g) (team : Nat) (q : AcqReq) :
    (s.asked team q).group? s.cur.gid = some (g.asking s.cur) :=
  group?_onGroup_same (s := s.onTeam team (Team.withReq q)) (f := Group.asking s.cur) hg fun _ => rfl

theorem group?_asked_other (team : Nat) (q : AcqReq) {j : Nat} (hj : j ≠ s.cur.gid) :
    (s.asked team q).group? j = s.group? j :=
  group?_onGroup_other (s := s.onTeam team (Team.withReq q)) (f := Group.asking s.cur) (fun _ => rfl) hj

theorem live_asked (team : Nat) (q : AcqReq) : (s.asked team q).live team =
    (s.live team).map (changedAt s.cur.gid (Group.asking s.cur)) :=
  live_onGroup (s := s.onTeam team (Team.withReq q)) (f := Group.asking s.cur) (fun _ => rfl) (fun _ => rfl) team

theorem freeUnits_asked (team : Nat) (q : AcqReq) (side : Nat) (kd : AcqKind) :
    (s.asked team q).freeUnits (tm.withReq q) side kd = s.freeUnits tm side kd :=
  freeUnits_onGroup (s := s.onTeam team (Team.withReq q)) (f := Group.asking s.cur) (fun _ => rfl) (fun _ => rfl) (fun _ => rfl)
    (fun x => by cases kd <;> rfl) _ side

/-- ACQ that its share admits queues its request and looks for a deadlock. -/
theorem acq_asks (hx : exec i s = execWord i true gd (acqEffect k n) s) (h : GoesTogether i gd s g)
    (ht : s.team? g.team = some tm) (hf : g.holds k + n ≤ k.limit ∧ n ≤ s.share tm g.side k) :
    exec i s = .next ((s.asked g.team ⟨g.gid, g.side, k, n⟩).checkDeadlock g.team g.side) := by
  rw [hx, execWord_runs_together h, acqEffect, ht]
  dsimp only
  rw [if_neg (by simpa using hf)]
  rfl

theorem acq_refused (hx : exec i s = execWord i true gd (acqEffect k n) s) (h : GoesTogether i gd s g)
    (ht : s.team? g.team = some tm) (hf : ¬ (g.holds k + n ≤ k.limit ∧ n ≤ s.share tm g.side k)) (hn : g.trap = none) :
    Traps i s g ⟨0x03, 0, n, 0⟩ := by
  refine traps_of_raise ?_ h.1.2.1 hn
  rw [hx, execWord_runs_together h, acqEffect, ht]
  dsimp only
  rw [if_pos (by simp only [Bool.or_eq_true, decide_eq_true_eq]; omega), lowest_all]

/-- Every lane of a group that acts together waits in ACQ. -/
theorem lane_asked (h : GoesTogether i gd s g) {L : Nat} (hL : L < 32) :
    (g.asking s.cur).lane L = waitingLane s.cur (g.lane L) .acq :=
  (lane_awaits h.1.2.2.1.1 _ _ _ hL).trans (if_pos (bitOf_all hL))

theorem acqLanes_asked (h : GoesTogether i gd s g) :
    (g.asking s.cur).acqLanes = 0xFFFFFFFF#32 :=
  maskOf_all fun L hL => by rw [lane_asked h hL]; rfl

theorem inAcq_asked (h : GoesTogether i gd s g) : (g.asking s.cur).inAcq = true := by
  have h32 : (g.asking s.cur).lanes.length = 32 := (length_mapLanes ..).trans h.1.2.2.1.1
  have hmem : (g.asking s.cur).lane 0 ∈ (g.asking s.cur).lanes := by
    rw [Group.lane, List.getD_eq_getElem _ _ (by omega)]
    exact List.getElem_mem _
  have hrun : (g.lane 0).exited = false := by
    have e := bitOf_maskOf (f := fun L => !(g.lane L).exited) (L := 0) (by decide)
    rw [show maskOf (fun L => !(g.lane L).exited) = 0xFFFFFFFF#32 from h.2.2.2, bitOf_all (by decide)] at e
    simpa using e.symm
  refine List.any_eq_true.2 ⟨_, hmem, ?_⟩
  rw [lane_asked h (by decide)]
  simp [waitingLane, hrun]

/-- A request that leaves a group of its side free to act waits in its queue. -/
theorem acq_waits (hx : exec i s = execWord i true gd (acqEffect k n) s) (h : GoesTogether i gd s g)
    (ht : s.team? g.team = some tm) (hf : g.holds k + n ≤ k.limit ∧ n ≤ s.share tm g.side k)
    (hfree : ∃ x ∈ s.live g.team, x.side = g.side ∧ x.gid ≠ g.gid ∧ x.inAcq = false ∧ x.atBarrier = false) :
    RunsTo' i s g fun t g' => OnlyLanes g g' ∧ (∀ L < 32, g'.lane L = waitingLane s.cur (g.lane L) .acq)
      ∧ (t.team? g.team).map (·.acqQ) = some (tm.acqQ ++ [⟨g.gid, g.side, k, n⟩]) := by
  have hgid := group?_gid h.1.2.1
  have hstuck : ¬ (s.asked g.team ⟨g.gid, g.side, k, n⟩).SideStuck g.team g.side := by
    obtain ⟨x, hxl, hside, hne, hacq, hbar⟩ := hfree
    intro hall
    have hmem : x ∈ (s.asked g.team ⟨g.gid, g.side, k, n⟩).live g.team := by
      rw [live_asked]
      exact List.mem_map.2 ⟨x, hxl, if_neg (hgid ▸ hne)⟩
    rcases hall x hmem hside with h1 | ⟨h1, -⟩
    · exact absurd (hacq.symm.trans h1) nofun
    · exact absurd (hbar.symm.trans h1) nofun
  refine ⟨s.asked g.team ⟨g.gid, g.side, k, n⟩, g.asking s.cur, ?_, rfl, fun j hj => group?_asked_other _ _ hj,
    (congrArg (State.group? _) hgid).trans (group?_asked h.1.2.1 _ _), rfl, fun L hL => lane_asked h hL, ?_⟩
  · rw [acq_asks hx h ht hf, checkDeadlock_unstuck hstuck]
  · rw [team?_asked ht]
    rfl

/-! The deadlock. -/

theorem acqLanes_lt (x : Group) : ∀ L, bitOf x.acqLanes L = true → L < x.lanes.length := by
  intro L hb
  by_contra hL
  have h32 : L < 32 := BitVec.lt_of_getLsbD hb
  rw [Group.acqLanes, bitOf_maskOf h32, lane_past_end (not_lt.1 hL)] at hb
  exact absurd hb (by decide)

/-- A side all of whose groups ask, or wait behind one that asks, is stuck once the request is queued (R39). -/
theorem sideStuck_asked (h : GoesTogether i gd s g) (q : AcqReq) (hown : ∀ x ∈ s.groups, x.gid = g.gid → x = g)
    (hall : ∀ x ∈ (s.live g.team).filter fun x => x.side = g.side, (x.gid = g.gid ∨ x.inAcq = true)
      ∨ (x.atBarrier = true ∧ ∃ y ∈ (s.live g.team).filter fun x => x.side = g.side,
          (y.gid = g.gid ∨ y.inAcq = true) ∧ y.barriers < x.barriers)) :
    (s.asked g.team q).SideStuck g.team g.side := by
  have hgid := group?_gid h.1.2.1
  have hasks : ∀ x ∈ s.live g.team, x.gid = g.gid ∨ x.inAcq = true →
      (changedAt s.cur.gid (Group.asking s.cur) x).inAcq = true := by
    intro x hx hask
    unfold changedAt
    split
    · next hk =>
      rw [hown x (List.mem_filter.1 hx).1 (hk.trans hgid.symm)]
      exact inAcq_asked h
    · next hk => exact hask.resolve_left fun e => hk (e.trans hgid)
  have hkeeps : ∀ x : Group, (changedAt s.cur.gid (Group.asking s.cur) x).barriers = x.barriers
      ∧ (changedAt s.cur.gid (Group.asking s.cur) x).atBarrier = x.atBarrier
      ∧ (changedAt s.cur.gid (Group.asking s.cur) x).side = x.side := by
    intro x
    unfold changedAt
    split <;> exact ⟨rfl, rfl, rfl⟩
  unfold State.SideStuck
  rw [live_asked]
  simp only [List.mem_map, forall_exists_index, and_imp, forall_apply_eq_imp_iff₂]
  intro x hx hside
  obtain ⟨hb, ha, hs⟩ := hkeeps x
  rw [hs] at hside
  rcases hall x (List.mem_filter.2 ⟨hx, by simpa using hside⟩) with hask | ⟨hbar, y, hy, hask, hlt⟩
  · exact .inl (hasks x hx hask)
  · obtain ⟨hyl, hys⟩ := List.mem_filter.1 hy
    obtain ⟨hyb, -, hysd⟩ := hkeeps y
    exact .inr ⟨ha.trans hbar, _, ⟨y, hyl, rfl⟩, hysd.trans (by simpa using hys), hasks y hyl hask, by omega⟩

/-- A group `x` has become `x'` by the pool-deadlock trap, its lanes `m` no longer waiting (R39). -/
abbrev Caught (s : State) (x x' : Group) (m : Word) (pc : BitVec 64) : Prop :=
  { x' with lanes := x.lanes } = x.trapped ⟨0x06, lowest m, 0, 0⟩ pc s.ltick
    ∧ ∀ L < 32, ((x'.lane L).wait = if bitOf m L then .none else (x.lane L).wait) ∧ (x'.lane L).pc = (x.lane L).pc

theorem caught_deadlocked {team : Nat} {q : AcqReq} {x : Group} (hx : s.group? q.gid = some x) (hn : x.trap = none) :
    ∃ x', (s.deadlocked team q).group? q.gid = some x'
      ∧ Caught s x x' x.acqLanes ((x.lane (lowest x.acqLanes)).wordPc (x.lane (lowest x.acqLanes)).pc) :=
  ⟨_, deadlocked_group hx hn, rfl, fun L _ => setWait_lane x x.acqLanes (acqLanes_lt x) .none L⟩

/-- The request that makes the deadlock: the group at the head of the queue takes the trap (R39). -/
theorem acq_deadlocks (hx : exec i s = execWord i true gd (acqEffect k n) s) (h : GoesTogether i gd s g)
    (ht : s.team? g.team = some tm) (hf : g.holds k + n ≤ k.limit ∧ n ≤ s.share tm g.side k) (hn : g.trap = none)
    (hrep : s.cur.rep = none) (hstuck : (s.asked g.team ⟨g.gid, g.side, k, n⟩).SideStuck g.team g.side) {q : AcqReq}
    (hq : (tm.acqQ ++ [(⟨g.gid, g.side, k, n⟩ : AcqReq)]).find? (fun y => y.side = g.side) = some q)
    (hfree : s.freeUnits tm g.side q.kind < q.n) :
    ∃ t g', exec i s = .next t ∧ t.group? g.gid = some g'
      ∧ (t.team? g.team).map (·.acqQ) = some ((tm.acqQ ++ [(⟨g.gid, g.side, k, n⟩ : AcqReq)]).filter (· ≠ q))
      ∧ (q = ⟨g.gid, g.side, k, n⟩ → Caught s g g' 0xFFFFFFFF#32 (g.lane 0).pc)
      ∧ (q.gid ≠ g.gid → (∀ L < 32, g'.lane L = waitingLane s.cur (g.lane L) .acq)
        ∧ ∀ x, s.group? q.gid = some x → x.trap = none →
          ∃ x', t.group? q.gid = some x'
            ∧ Caught s x x' x.acqLanes ((x.lane (lowest x.acqLanes)).wordPc (x.lane (lowest x.acqLanes)).pc)) := by
  have hgid := group?_gid h.1.2.1
  have hg' := group?_asked h.1.2.1 g.team ⟨g.gid, g.side, k, n⟩
  have hexec : exec i s = .next ((s.asked g.team ⟨g.gid, g.side, k, n⟩).deadlocked g.team q) := by
    rw [acq_asks hx h ht hf, checkDeadlock_stuck (team?_asked ht _) hstuck hq]
    rwa [freeUnits_asked]
  have hteam : (((s.asked g.team ⟨g.gid, g.side, k, n⟩).deadlocked g.team q).team? g.team).map (·.acqQ)
      = some ((tm.acqQ ++ [(⟨g.gid, g.side, k, n⟩ : AcqReq)]).filter (· ≠ q)) := by
    unfold State.team?
    rw [deadlocked_teams]
    have e := team?_onTeam (s.asked g.team ⟨g.gid, g.side, k, n⟩) g.team
      (fun t => { t with acqQ := t.acqQ.filter (· ≠ q) }) g.team fun _ => rfl
    unfold State.team? at e
    rw [e]
    have e' := team?_asked ht ⟨g.gid, g.side, k, n⟩
    unfold State.team? at e'
    rw [e']
    simp [team?_id ht, Team.withReq]
  by_cases hqg : q.gid = g.gid
  · obtain ⟨g', hfound, hcaught⟩ := caught_deadlocked (team := g.team) (q := q)
      ((congrArg (State.group? _) (hqg.trans hgid)).trans hg') hn
    refine ⟨_, g', hexec, (congrArg (State.group? _) hqg.symm).trans hfound, hteam, fun _ => ?_, fun hne => absurd hqg hne⟩
    obtain ⟨hrest, hlanes⟩ := hcaught
    rw [acqLanes_asked h, lowest_all, lane_asked h (by decide)] at hrest
    rw [acqLanes_asked h] at hlanes
    have hpc : (waitingLane s.cur (g.lane 0) .acq).wordPc (waitingLane s.cur (g.lane 0) .acq).pc = (g.lane 0).pc := by
      simp [waitingLane, Lane.wordPc, hrep]
    rw [hpc] at hrest
    refine ⟨?_, fun L hL => ?_⟩
    · rw [lowest_all]
      have e := congrArg (fun x : Group => { x with lanes := g.lanes }) hrest
      exact e
    · obtain ⟨hw, hp⟩ := hlanes L hL
      rw [lane_asked h hL] at hp
      rw [if_pos (bitOf_all hL)] at hw ⊢
      exact ⟨hw, hp⟩
  · refine ⟨_, _, hexec, ?_, hteam, fun e => absurd (congrArg AcqReq.gid e) hqg,
      fun _ => ⟨fun L hL => lane_asked h hL, fun x hx hxn => ?_⟩⟩
    · rw [deadlocked_other (Ne.symm hqg)]
      exact (congrArg (State.group? _) hgid).trans hg'
    · exact caught_deadlocked ((group?_asked_other _ _ (hgid ▸ hqg)).trans hx) hxn

/-! The grant and the release. -/

theorem acqGrant_runs {side : Nat} {q : AcqReq} {x : Group} (hid : 0 < s.nextId) (hq : canAcqGrant tm.id side s = some q)
    (ht : s.team? tm.id = some tm) (hx : s.group? q.gid = some x) (h32 : x.lanes.length = 32)
    (hser : s.serialOf tm.grid = none) :
    ∃ t x', exec (.acqGrant tm.id side) s = .next t ∧ t.group? q.gid = some x'
      ∧ (∀ j, x'.holds j = x.holds j + if j = q.kind then q.n else 0)
      ∧ (∀ r, 64 + 32 * x.h ≤ r → r < 64 + 32 * x'.h → ∀ L < 32, rdV x' r L = ⟨0, false⟩ ∧ x'.regGen r = s.nextId)
      ∧ (∀ i, x.j ≤ i → i < x'.j → rdT x' i = emptyTile)
      ∧ (∀ i, x.m ≤ i → i < x'.m → ∀ a < 32, ∀ b < 32, rdA x' i a b = ⟨0, false⟩)
      ∧ (∀ L < 32, x'.lane L = if (x.lane L).wait = .acq then leftLane (x.lane L) else x.lane L)
      ∧ (∀ r, (match r with | .v i => i < 64 + 32 * x.h | .t i => i < x.j | .a i => i < x.m | _ => True) → SameReg x x' r)
      ∧ (t.team? tm.id).map (·.acqQ) = some (tm.acqQ.filter (· ≠ q)) := by
  have hlanes : (x.gain q.kind q.n s.nextId).lanes.length = 32 := by rw [gain_lanes, h32]
  refine ⟨_, (x.gain q.kind q.n s.nextId).leave x.acqLanes, exec_acqGrant ht hser hq,
    group?_onGroup_same (s := (s.onTeam tm.id _).fresh.2)
      (f := fun g => (g.gain q.kind q.n s.nextId).leave g.acqLanes) hx fun x => gain_gid x _ _ _,
    fun j => ?_, fun r hlo hhi L hL => gain_registers x q.kind q.n s.nextId (by omega) hL hlo hhi,
    fun i hlo hhi => gain_tiles x q.kind q.n s.nextId hlo hhi,
    fun i hlo hhi a ha b hb => gain_accumulators x q.kind q.n s.nextId ha hb hlo hhi, fun L hL => ?_,
    fun r hr => gain_same x q.kind q.n s.nextId r hr, ?_⟩
  · rw [← gain_holds x q.kind q.n s.nextId j]
    cases j <;> rfl
  · have hlane : (x.gain q.kind q.n s.nextId).lane L = x.lane L := by rw [Group.lane, gain_lanes, Group.lane]
    rw [lane_leaves hlanes _ hL, hlane, Group.acqLanes, bitOf_maskOf hL]
    simp only [decide_eq_true_eq]
  · have e := team?_onTeam s tm.id (fun t => { t with acqQ := t.acqQ.filter (· ≠ q) }) tm.id fun _ => rfl
    rw [ht] at e
    refine (congrArg (Option.map _) e).trans ?_
    simp

theorem lose_holds (g : Group) (k : AcqKind) (n : Nat) (j : AcqKind) :
    (g.lose k n).holds j = g.holds j - if j = k then n else 0 := by
  cases k <;> cases j <;> rfl

theorem rel_runs (hx : exec i s = execWord i true gd (relEffect k n) s) (h : GoesTogether i gd s g) (hn : n ≤ g.holds k) :
    RunsTo i s fun g' => { g' with lanes := g.lanes, h := g.h, j := g.j, m := g.m } = g ∧ MovesOn s.cur 0 g g'
      ∧ ∀ j, g'.holds j = g.holds j - if j = k then n else 0 := by
  have hgid : ∀ x : Group, ((x.lose k n).advance s.cur 0).gid = x.gid := fun x => by cases k <;> rfl
  refine runsTo_onGroup ?_ h.1.2.1 hgid ⟨?_, ?_, fun j => ?_⟩
  · rw [hx, execWord_runs_together h, relEffect, if_neg (by omega)]
  · cases k <;> rfl
  · have hl : (g.lose k n).lanes = g.lanes := by cases k <;> rfl
    have hm := advance_movesOn (g.lose k n) s.cur 0 (by rw [hl]; exact h.1.2.2.1.1)
    intro L hL
    rw [hm L hL, Group.lane, hl, Group.lane]
  · rw [← lose_holds]
    cases j <;> rfl

theorem rel_refused (hx : exec i s = execWord i true gd (relEffect k n) s) (h : GoesTogether i gd s g)
    (hk : g.holds k < n) (hn : g.trap = none) : Traps i s g ⟨0x03, 0, n, 0⟩ := by
  refine traps_of_raise ?_ h.1.2.1 hn
  rw [hx, execWord_runs_together h, relEffect, if_pos hk, lowest_all]

end

/-- Settles O29: the requests, their grant and their release, kind by kind. -/
theorem acquisitionGivesClearedUnits : Obligations.AcquisitionGivesClearedUnits := by
  intro k o s g tm ht acq rel n fits
  have hacq : exec acq s = execWord acq true o.g (acqEffect k n) s := by cases k <;> exact rfl
  have hrel : exec rel s = execWord rel true o.g (relEffect k n) s := by cases k <;> exact rfl
  refine ⟨fun h hf hfree => acq_waits hacq h ht hf hfree, fun h hf hn => acq_refused hacq h ht hf hn, ?_, ?_,
    fun h hn => rel_runs hrel h hn, fun h hk hn => rel_refused hrel h hk hn, ?_⟩
  · intro h hf hn hrep hown q mine asks hall hd hq hfree caught
    exact acq_deadlocks hacq h ht hf hn hrep (sideStuck_asked h _ hown hall) hq hfree
  · intro q side x hid hq hk ht' hx h32 hser
    subst hk
    exact acqGrant_runs hid hq ht' hx h32 hser
  · rintro i gd ⟨hi, rfl⟩ h hn hc
    rcases hi with rfl | rfl | rfl
    · exact traps_unconverged hacq h hn hc
    · exact traps_unconverged hrel h hn hc
    · exact traps_unconverged rfl h hn hc

end Sys2Proof.Machine
end

