-- ==== Sys2Proof/Proofs/StateRegs.lean ====
section
/-! SGET and SPUT (R48, R60, R73, R198, R199, R326): O45. -/

namespace Sys2Proof.Machine

/-! Numbers and values of state registers. -/

theorem stateWide_iff (n : Nat) : WideNumber n ↔ stateWide n = true := by
  simp [WideNumber, stateWide]
  omega

theorem stateNumber_iff (n : Nat) : StateNumber n ↔ stateNumber n = true := by
  simp [StateNumber, stateNumber]
  omega

theorem counterReg_iff (n : Nat) : CounterNumber n ↔ counterReg n = true := by
  simp [CounterNumber, counterReg]

theorem counterWord_eq (s : State) (g : Group) (c : EClass) : counterWord s g c = counter s g c := by
  have h : (g.heldError c).isSome = g.errs.any fun e => e.cls = c := by
    unfold Group.heldError
    rw [Bool.eq_iff_iff, List.find?_isSome, List.any_eq_true]
  unfold counterWord counter State.countOf
  rw [h, List.countP_eq_length_filter]

/-- A state register reads as R73 and R326 say. -/
theorem stateValue_eq (s : State) (g : Group) (n L : Nat) : stateValue s g n L = stateReads s g n L := by
  unfold stateReads
  dsimp only
  split
  case h_14 | h_15 | h_16 | h_17 | h_18 | h_19 => exact counterWord_eq s g _
  case h_31 =>
    simp only [imp_false] at *
    have hclass : ¬ (0x10 ≤ n ∧ n ≤ 0x15) := by omega
    unfold stateValue
    by_cases hlo : n < 0x20 ∨ 0x30 ≤ n
    · have hsel : ¬ (0x20 ≤ n ∧ n ≤ 0x27) := by omega
      have hcnt : ¬ (0x28 ≤ n ∧ n ≤ 0x2F) := by omega
      simp only [*, if_false, if_true]
    · by_cases hsel : n < 0x28
      · have hin : 0x20 ≤ n ∧ n ≤ 0x27 := by omega
        simp only [*, if_false, if_true, and_self]
        rfl
      · have hout : ¬ (0x20 ≤ n ∧ n ≤ 0x27) := by omega
        have hin : 0x28 ≤ n ∧ n ≤ 0x2F := by omega
        simp only [*, if_false, if_true, and_self]
        rfl
  all_goals rfl

/-! One or two registers written. -/

/-- The result of SGET in the lane registers from `d` on, lane by lane. -/
theorem rdV_wrVs_wide {y : Group} (hy : swf ⟨0, false⟩ y.v = true) (wide : Bool) (d n r : Nat) {L K : Nat} (hL : L < 32)
    (hK : K < 32) : rdV (wrVs y d (if wide then 2 else 1) L n false) r K =
      if K = L then (landsIn wide d n r).getD (rdV y r K) else rdV y r K := by
  have hy1 : swf ⟨0, false⟩ (wrV y d L ⟨BitVec.ofNat 32 n, false⟩).v = true := swf_sset _ _ _ _ hy
  unfold landsIn
  cases wide with
  | false =>
    have e : wrVs y d 1 L n false = wrV y d L ⟨BitVec.ofNat 32 n, false⟩ := rfl
    simp only [Bool.false_eq_true, if_false, Bool.false_and, e, rdV_wrV _ _ _ _ _ hy hL hK]
    by_cases hr : r = d <;> by_cases hKL : K = L <;> simp [hr, hKL]
  | true =>
    have e : wrVs y d 2 L n false =
        wrV (wrV y d L ⟨BitVec.ofNat 32 n, false⟩) (d + 1) L ⟨BitVec.ofNat 32 (n / 2 ^ 32), false⟩ := by
      simp [wrVs, List.range_succ, Nat.shiftRight_eq_div_pow]
    simp only [if_true, Bool.true_and, e, rdV_wrV _ _ _ _ _ hy1 hL hK, rdV_wrV _ _ _ _ _ hy hL hK]
    by_cases hr : r = d
    · by_cases hKL : K = L <;> simp [hr, hKL]
    · by_cases hKL : K = L <;> by_cases hr1 : r = d + 1 <;> simp [hr, hKL, hr1]

/-- The result of SGET in the uniform registers from `d` on. -/
theorem rdS_wrSs_wide {y : Group} (hy : swf ⟨0, false⟩ y.s = true) (wide : Bool) (d n r : Nat) :
    rdS (wrSs y d (if wide then 2 else 1) n false) r = (landsIn wide d n r).getD (rdS y r) := by
  have hy1 : swf ⟨0, false⟩ (wrS y d ⟨BitVec.ofNat 32 n, false⟩).s = true := swf_sset _ _ _ _ hy
  unfold landsIn
  cases wide with
  | false =>
    have e : wrSs y d 1 n false = wrS y d ⟨BitVec.ofNat 32 n, false⟩ := rfl
    simp only [Bool.false_eq_true, if_false, Bool.false_and, e, rdS_wrS _ _ _ hy]
    by_cases hr : r = d <;> simp [hr]
  | true =>
    have e : wrSs y d 2 n false =
        wrS (wrS y d ⟨BitVec.ofNat 32 n, false⟩) (d + 1) ⟨BitVec.ofNat 32 (n / 2 ^ 32), false⟩ := by
      simp [wrSs, List.range_succ, Nat.shiftRight_eq_div_pow]
    simp only [if_true, Bool.true_and, e, rdS_wrS _ _ _ hy1, rdS_wrS _ _ _ hy]
    by_cases hr : r = d
    · simp [hr]
    · by_cases hr1 : r = d + 1 <;> simp [hr, hr1]

/-- Lane registers written lane by lane: each active lane's registers read as its own part leaves them. -/
theorem rdV_eachLane {act : Word} {f : Group → Nat → Group} {e : Nat → Nat → Option TW}
    (hwf : ∀ y L, L < 32 → swf ⟨0, false⟩ y.v = true → swf ⟨0, false⟩ (f y L).v = true)
    (hf : ∀ y L K r, L < 32 → K < 32 → swf ⟨0, false⟩ y.v = true →
      rdV (f y L) r K = if K = L then (e L r).getD (rdV y r K) else rdV y r K)
    {g : Group} (hg : swf ⟨0, false⟩ g.v = true) (r : Nat) {K : Nat} (hK : K < 32) :
    rdV (eachLane act f g) r K = if bitOf act K then (e K r).getD (rdV g r K) else rdV g r K := by
  have key : ∀ (ls : List Nat), ls.Nodup → (∀ L ∈ ls, L < 32) → ∀ y : Group, swf ⟨0, false⟩ y.v = true →
      rdV (ls.foldl f y) r K = if K ∈ ls then (e K r).getD (rdV y r K) else rdV y r K := by
    intro ls
    induction ls with
    | nil => exact fun _ _ y _ => rfl
    | cons L ls ih =>
      intro hnd hlt y hy
      obtain ⟨hL, hnd⟩ := List.nodup_cons.1 hnd
      have hL32 := hlt L (List.mem_cons_self ..)
      rw [List.foldl_cons, ih hnd (fun M hM => hlt M (List.mem_cons_of_mem _ hM)) _ (hwf y L hL32 hy), hf y L K r hL32 hK hy]
      by_cases hKL : K = L
      · subst hKL
        simp [hL]
      · simp [hKL]
  unfold eachLane
  rw [key _ (nodup_lanesOf act) (fun L hL => (mem_lanesOf.1 hL).1) g hg]
  simp only [mem_lanesOf, hK, true_and]

theorem wrVs_others (y : Group) (r w L n : Nat) (t : Bool) : ∃ m, wrVs y r w L n t = { y with v := m } := by
  have key : ∀ (ls : List Nat) (m : SMap TW), ∃ m', ls.foldl (fun g i => wrV g (r + i) L ⟨BitVec.ofNat 32 (n >>> (32 * i)), t⟩)
      { y with v := m } = { y with v := m' } := by
    intro ls
    induction ls with
    | nil => exact fun m => ⟨m, rfl⟩
    | cons i ls ih => exact fun m => ih _
  exact key _ y.v

theorem wrSs_others (y : Group) (r w n : Nat) (t : Bool) : ∃ m, wrSs y r w n t = { y with s := m } := by
  have key : ∀ (ls : List Nat) (m : SMap TW), ∃ m', ls.foldl (fun g i => wrS g (r + i) ⟨BitVec.ofNat 32 (n >>> (32 * i)), t⟩)
      { y with s := m } = { y with s := m' } := by
    intro ls
    induction ls with
    | nil => exact fun m => ⟨m, rfl⟩
    | cons i ls ih => exact fun m => ih _
  exact key _ y.s

theorem swf_wrVs {y : Group} (hy : swf ⟨0, false⟩ y.v = true) (r w L n : Nat) (t : Bool) :
    swf ⟨0, false⟩ (wrVs y r w L n t).v = true := by
  have key : ∀ (ls : List Nat) (x : Group), swf ⟨0, false⟩ x.v = true →
      swf ⟨0, false⟩ (ls.foldl (fun g i => wrV g (r + i) L ⟨BitVec.ofNat 32 (n >>> (32 * i)), t⟩) x).v = true := by
    intro ls
    induction ls with
    | nil => exact fun _ h => h
    | cons i ls ih => exact fun x h => ih _ (swf_sset _ _ _ _ h)
  exact key _ y hy

end Sys2Proof.Machine
end

