-- ==== Sys2Proof/Proofs/StateWords.lean ====
section
/-! The words SGET and SPUT: what is turned back, and what goes ahead (R198, R199, R329): O45. -/

namespace Sys2Proof.Machine

/-- The group may read the state register of a number (R198). -/
abbrev MayRead (g : Group) (n : Nat) : Prop :=
  StateNumber n ∧ (0x80 ≤ n → g.sup = true) ∧ (CounterNumber n → g.sup = true ∨ g.cntGrant = true)

/-- The state registers that have an access code for writing (R73, R326). -/
abbrev writableNumbers : List Nat :=
  [0x09, 0x0A, 0x20, 0x21, 0x22, 0x23, 0x24, 0x25, 0x26, 0x27, 0x81, 0x82, 0x83, 0x88]

section
variable {g : Group} {n : Nat} {act : Word}

theorem sgetTrap_none (h : MayRead g n) : sgetTrap g n act = none := by
  obtain ⟨hnum, hsup, hcnt⟩ := h
  unfold sgetTrap
  rw [if_neg, if_neg, if_neg]
  · simp only [Bool.and_eq_true, ← counterReg_iff, Bool.not_eq_true', and_assoc]
    rintro ⟨hc, h1, h2⟩
    simp_all
  · simp [(stateNumber_iff n).1 hnum]
  · simp only [Bool.and_eq_true, decide_eq_true_eq, Bool.not_eq_true', not_and]
    intro hn
    simp [hsup hn]

/-- A task may not read the supervisor's registers. -/
theorem sgetTrap_supervisor (hn : 0x80 ≤ n) (hs : g.sup = false) : sgetTrap g n act = some ⟨0x02, lowest act, n, 0⟩ := by
  unfold sgetTrap
  rw [if_pos (by simp [hn, hs])]

theorem sgetTrap_number (hs : 0x80 ≤ n → g.sup = true) (hn : ¬ StateNumber n) :
    sgetTrap g n act = some ⟨0x01, lowest act, 0, 0⟩ := by
  have hnum : stateNumber n = false := by simpa [stateNumber_iff] using hn
  unfold sgetTrap
  rw [if_neg, if_pos (by simp [hnum])]
  simp only [Bool.and_eq_true, decide_eq_true_eq, Bool.not_eq_true', not_and]
  intro h
  simp [hs h]

theorem sgetTrap_counter (hn : StateNumber n) (hc : CounterNumber n) (hs : g.sup = false) (hg : g.cntGrant = false) :
    sgetTrap g n act = some ⟨0x02, lowest act, n, 0⟩ := by
  have hlt : ¬ 0x80 ≤ n := by
    obtain ⟨-, hhi⟩ := hc
    omega
  unfold sgetTrap
  rw [if_neg (by simp [hlt]), if_neg (by simp [(stateNumber_iff n).1 hn]), if_pos (by simp [(counterReg_iff n).1 hc, hs, hg])]

theorem writable_iff (h : MayRead g n) : writable g n = true ↔ n ∈ writableNumbers := by
  obtain ⟨-, hsup, -⟩ := h
  by_cases hn : 0x80 ≤ n
  · simp [writable, hsup hn]
    omega
  · simp [writable]
    omega

end

section
variable {i : Instr} {gd : Guard} {chk : Group → Word → Option TrapReq} {f : State → Group → Word → State} {s : State}
  {g : Group}

/-- A word whose own check refuses it traps, whatever its registers and its guard. -/
theorem execChecked_traps {t : TrapReq} (hx : exec i s = execChecked i gd chk f s) (hg : s.group? s.cur.gid = some g)
    (hn : g.trap = none) (hc : chk g (activeOf g s.cur gd) = some t) : Traps i s g t := by
  refine traps_of_raise (hx.trans ?_) hg hn
  simp only [execChecked, onPath, hg, hc]
  rfl

/-- A word that its own check admits, and that goes ahead, has its effect. -/
theorem execChecked_runs (h : GoesAhead i gd s g) (hc : chk g (activeOf g s.cur gd) = none) :
    execChecked i gd chk f s = .next (if activeOf g s.cur gd = 0 then s.go 0 else f s g (activeOf g s.cur gd)) := by
  have hguard : guardPoison g (activeOf g s.cur gd) gd = none := by
    unfold guardPoison
    exact if_pos h.2.2.2.2
  simp only [execChecked, onPath, h.2.1, hc, mapTrap_none h.2.2.2.1, hguard]
  rfl

end

section
variable {o : RForm} {s : State} {g : Group}

theorem activeOf_bits {L : Nat} (h : activeOf g s.cur o.g = 0) : ¬ active s g o.g L := by
  unfold active
  rw [h]
  simp [bitOf]

/-- What SGET makes of its group. -/
def sgetResult (o : RForm) (s : State) (act : Word) (g : Group) : Group :=
  if o.x then wrSs g o.d.toNat (if stateWide o.a.toNat then 2 else 1) (stateValue s g o.a.toNat 0) false
  else eachLane act (fun y L => wrVs y o.d.toNat (if stateWide o.a.toNat then 2 else 1) L (stateValue s g o.a.toNat L) false) g

/-- The lane registers written lane by lane are all that changes. -/
theorem eachLane_wrVs_others (g : Group) (act : Word) (d w : Nat) (f : Nat → Nat) :
    ∃ m, eachLane act (fun y L => wrVs y d w L (f L) false) g = { g with v := m } :=
  eachLane_keeps (fun x : Group => ∃ m, x = { g with v := m }) ⟨g.v, rfl⟩ fun x L _ _ hx => by
    obtain ⟨m, rfl⟩ := hx
    exact wrVs_others { g with v := m } d w L (f L) false

theorem sgetResult_others (o : RForm) (s : State) (act : Word) (g : Group) :
    ∃ v u, sgetResult o s act g = { g with v := v, s := u } := by
  unfold sgetResult
  split
  · obtain ⟨u, e⟩ := wrSs_others g o.d.toNat (if stateWide o.a.toNat then 2 else 1) (stateValue s g o.a.toNat 0) false
    exact ⟨g.v, u, e⟩
  · obtain ⟨v, e⟩ := eachLane_wrVs_others g act o.d.toNat (if stateWide o.a.toNat then 2 else 1) (stateValue s g o.a.toNat)
    exact ⟨v, g.s, e⟩

theorem rdV_sgetResult (hc : g.Canonical) (act : Word) (r : Nat) {L : Nat} (hL : L < 32) :
    rdV (sgetResult o s act g) r L = if o.x = false ∧ bitOf act L = true then
      (landsIn (stateWide o.a.toNat) o.d.toNat (stateReads s g o.a.toNat L) r).getD (rdV g r L) else rdV g r L := by
  unfold sgetResult
  cases hx : o.x with
  | true =>
    obtain ⟨u, e⟩ := wrSs_others g o.d.toNat (if stateWide o.a.toNat then 2 else 1) (stateValue s g o.a.toNat 0) false
    rw [if_pos rfl, e, if_neg (by simp)]
    rfl
  | false =>
    simp only [Bool.false_eq_true, if_false, true_and]
    rw [rdV_eachLane (e := fun L r => landsIn (stateWide o.a.toNat) o.d.toNat (stateReads s g o.a.toNat L) r)
      (fun y K _ hy => swf_wrVs hy ..) (fun y K M q hK hM hy => ?_) hc.2.1 r hL]
    rw [rdV_wrVs_wide hy _ _ _ _ hK hM, stateValue_eq]

theorem rdS_sgetResult (hc : g.Canonical) (act : Word) (r : Nat) : rdS (sgetResult o s act g) r =
    if o.x = true then (landsIn (stateWide o.a.toNat) o.d.toNat (stateReads s g o.a.toNat 0) r).getD (rdS g r)
    else rdS g r := by
  unfold sgetResult
  cases hx : o.x with
  | true =>
    simp only [if_true]
    rw [rdS_wrSs_wide hc.2.2.1, stateValue_eq]
  | false =>
    obtain ⟨v, e⟩ := eachLane_wrVs_others g act o.d.toNat (if stateWide o.a.toNat then 2 else 1) (stateValue s g o.a.toNat)
    simp only [Bool.false_eq_true, if_false, e]
    rfl

/-- SGET reads the state register into lane or uniform registers (R198). -/
theorem sget_runs (h : GoesAhead (.sget o) o.g s g) (hm : MayRead g o.a.toNat) : RunsTo (.sget o) s fun g' =>
    { g' with v := g.v, s := g.s, lanes := g.lanes } = g ∧ MovesOn s.cur 0 g g'
    ∧ (∀ r, ∀ L < 32, rdV g' r L = if o.x = false ∧ active s g o.g L then
        (landsIn (stateWide o.a.toNat) o.d.toNat (stateReads s g o.a.toNat L) r).getD (rdV g r L) else rdV g r L)
    ∧ ∀ r, rdS g' r = if o.x = true ∧ activeOf g s.cur o.g ≠ 0 then
        (landsIn (stateWide o.a.toNat) o.d.toNat (stateReads s g o.a.toNat 0) r).getD (rdS g r) else rdS g r := by
  have hx : exec (.sget o) s = .next (if activeOf g s.cur o.g = 0 then s.go 0 else sgetEffect o s g (activeOf g s.cur o.g)) :=
    execChecked_runs h (sgetTrap_none hm)
  have h32 := h.2.2.1.1
  by_cases ha : activeOf g s.cur o.g = 0
  · rw [if_pos ha] at hx
    refine runsTo_go hx h.2.1 ⟨rfl, advance_movesOn g s.cur 0 h32, fun r L hL => ?_, fun r => ?_⟩
    · rw [if_neg fun e => activeOf_bits ha e.2]
      rfl
    · rw [if_neg fun e => e.2 ha]
      rfl
  · rw [if_neg ha] at hx
    have hgid : ∀ x : Group, ((sgetResult o s (activeOf g s.cur o.g) x).advance s.cur 0).gid = x.gid := fun x => by
      obtain ⟨v, u, e⟩ := sgetResult_others o s (activeOf g s.cur o.g) x
      rw [e]
      rfl
    refine runsTo_onGroup (f := fun x => (sgetResult o s (activeOf g s.cur o.g) x).advance s.cur 0) hx h.2.1 hgid
      ⟨?_, ?_, fun r L hL => rdV_sgetResult h.2.2.1 _ r hL, fun r => ?_⟩
    · obtain ⟨v, u, e⟩ := sgetResult_others o s (activeOf g s.cur o.g) g
      rw [e]
      rfl
    · obtain ⟨v, u, e⟩ := sgetResult_others o s (activeOf g s.cur o.g) g
      rw [e]
      exact advance_movesOn { g with v := v, s := u } s.cur 0 h32
    · rw [rdS_advance, rdS_sgetResult h.2.2.1]
      by_cases hx : o.x = true
      · rw [if_pos hx, if_pos ⟨hx, ha⟩]
      · rw [if_neg hx, if_neg fun e => hx e.1]

/-! SPUT. -/

/-- The word that SPUT writes: a uniform register's, or the lowest active lane's (R199). -/
def sputSource (o : RForm) (s : State) (g : Group) : TW :=
  if o.ub then rdS g o.b.toNat else rdV g o.b.toNat (lowest (activeOf g s.cur o.g))

theorem sputTrap_none {n : Nat} {act : Word} (hm : MayRead g n) (hw : n ∈ writableNumbers) : sputTrap g n act = none := by
  unfold sputTrap
  rw [sgetTrap_none hm]
  exact if_pos ((writable_iff hm).2 hw)

theorem sputTrap_readOnly {n : Nat} {act : Word} (hm : MayRead g n) (hw : n ∉ writableNumbers) :
    sputTrap g n act = some ⟨0x02, lowest act, n, 0⟩ := by
  unfold sputTrap
  rw [sgetTrap_none hm]
  exact if_neg fun e => hw ((writable_iff hm).1 e)

theorem sputTrap_of_sgetTrap {n : Nat} {act : Word} {t : TrapReq} (h : sgetTrap g n act = some t) :
    sputTrap g n act = some t := by
  unfold sputTrap
  rw [h]

section
variable (h : GoesAhead (.sput o) o.g s g) (ha : activeOf g s.cur o.g ≠ 0) (hm : MayRead g o.a.toNat)
include h ha hm

theorem exec_sput (hw : o.a.toNat ∈ writableNumbers) :
    exec (.sput o) s = .next (sputEffect o s g (activeOf g s.cur o.g)) := by
  have hx : exec (.sput o) s = .next (if activeOf g s.cur o.g = 0 then s.go 0 else sputEffect o s g (activeOf g s.cur o.g)) :=
    execChecked_runs h (sputTrap_none hm hw)
  rwa [if_neg ha] at hx

theorem sput_poisoned (hw : o.a.toNat ∈ writableNumbers) (ht : (sputSource o s g).tag = true) (hn : g.trap = none) :
    Traps (.sput o) s g ⟨0x07, lowest (activeOf g s.cur o.g), 0, 0⟩ := by
  refine traps_of_raise ((exec_sput h ha hm hw).trans ?_) h.2.1 hn
  exact congrArg Host.Outcome.next (if_pos ht)

theorem sput_puts (hw : o.a.toNat ∈ writableNumbers) (ht : (sputSource o s g).tag = false) :
    exec (.sput o) s = .next ((putState s g o.a.toNat (sputSource o s g).val).go 0) := by
  refine (exec_sput h ha hm hw).trans (congrArg Host.Outcome.next (if_neg ?_))
  have e : (sputSource o s g).tag ≠ true := by simp [ht]
  exact e

/-- A write outside the groups: the issuing group only moves on. -/
theorem sput_outside (hw : o.a.toNat ∈ writableNumbers) (ht : (sputSource o s g).tag = false) {u : State} {P : State → Prop}
    (hu : putState s g o.a.toNat (sputSource o s g).val = u) (hgroups : u.groups = s.groups) (hcur : u.cur = s.cur)
    (hP : P (u.go 0)) :
    ∃ t g', exec (.sput o) s = .next t ∧ P t ∧ (∀ k, k ≠ s.cur.gid → t.group? k = s.group? k)
      ∧ t.group? s.cur.gid = some g' ∧ MovesOn s.cur 0 g g' := by
  have hgroup : ∀ k, u.group? k = s.group? k := fun k => by rw [State.group?, hgroups, State.group?]
  refine ⟨u.go 0, g.advance s.cur 0, by rw [sput_puts h ha hm hw ht, hu], hP, fun k hk => ?_, ?_,
    advance_movesOn g s.cur 0 h.2.2.1.1⟩
  · refine Eq.trans ?_ (hgroup k)
    exact group?_onGroup_other (f := fun x => x.advance u.cur 0) (fun _ => rfl) (hcur ▸ hk)
  · have e := group?_onGroup_same (s := u) (k := u.cur.gid) (f := fun x => x.advance u.cur 0) (g := g)
      ((hgroup _).trans (hcur ▸ h.2.1)) fun _ => rfl
    rw [hcur] at e
    refine Eq.trans ?_ e
    rw [State.go, hcur]

end

end

/-- A change of the issuing group and then its lanes on is one change of it. -/
theorem onGroup_go (s : State) (f : Group → Group) (hf : ∀ x, (f x).gid = x.gid) :
    (s.onGroup s.cur.gid f).go 0 = s.onGroup s.cur.gid fun x => (f x).advance s.cur 0 := by
  unfold State.go State.onGroup
  dsimp only
  rw [List.map_map]
  congr 2
  funext x
  dsimp only [Function.comp]
  by_cases hx : x.gid = s.cur.gid
  · simp [hx, hf]
  · simp [hx]

/-- FPSTAT's bits are cleared (R60). -/
def Group.clearFlags (x : Word) (g : Group) : Group := { g with fpstat := g.fpstat &&& ~~~(x.setWidth 7) }

/-- Every lane's stochastic register is seeded (R56). -/
def Group.reseed (x : Word) (g : Group) : Group :=
  { mapLanes g fun L ln => { ln with rnd := seedLane x L } with srseed := x }

theorem putState_flags (s : State) (g : Group) (x : Word) : putState s g 0x09 x = s.onGroup g.gid (Group.clearFlags x) := rfl
theorem putState_seed (s : State) (g : Group) (x : Word) : putState s g 0x0A x = s.onGroup g.gid (Group.reseed x) := rfl

theorem putState_event {s : State} {g : Group} {n : Nat} (h : 0x20 ≤ n ∧ n ≤ 0x27) (x : Word) :
    putState s g n x = s.onSide (sideKey g.core g.side) fun d =>
      { d with evsel := sset 0 d.evsel (n - 0x20) (x &&& 0xC00007FF#32) } := by
  unfold putState
  rw [if_neg (by omega), if_neg (by omega), if_pos h]

/-- The word that seeds a lane's stochastic register (R56). -/
theorem seedLane_eq (x : Word) (L : Nat) :
    seedLane x L = if x ^^^ BitVec.ofNat 32 L * 0x9E3779B9#32 = 0 then 1 else x ^^^ BitVec.ofNat 32 L * 0x9E3779B9#32 := by
  unfold seedLane
  rw [BitVec.ofNat_mul]

section
variable {o : RForm} {s : State} {g : Group} (h : GoesAhead (.sput o) o.g s g) (ha : activeOf g s.cur o.g ≠ 0)
  (hm : MayRead g o.a.toNat) (ht : (sputSource o s g).tag = false)
include h ha hm ht

/-- A write of the issuing group's own state. -/
theorem sput_inside {f : Group → Group} {P : Group → Prop} (hw : o.a.toNat ∈ writableNumbers)
    (hu : putState s g o.a.toNat (sputSource o s g).val = s.onGroup g.gid f) (hf : ∀ x, (f x).gid = x.gid)
    (hP : P ((f g).advance s.cur 0)) : RunsTo (.sput o) s P := by
  have hx := sput_puts h ha hm hw ht
  rw [hu, group?_gid h.2.1, onGroup_go s f hf] at hx
  exact runsTo_onGroup hx h.2.1 hf hP

theorem sput_flags (hn : o.a.toNat = 0x09) : RunsTo (.sput o) s fun g' => MovesOn s.cur 0 g g'
    ∧ { g' with lanes := g.lanes } = { g with fpstat := g.fpstat &&& ~~~((sputSource o s g).val.extractLsb' 0 7) } := by
  refine sput_inside (f := Group.clearFlags (sputSource o s g).val) h ha hm ht (by rw [hn]; decide)
    (by rw [hn]; exact putState_flags ..) (fun _ => rfl) ⟨advance_movesOn (g.clearFlags (sputSource o s g).val) s.cur 0 h.2.2.1.1, ?_⟩
  rw [← BitVec.setWidth_eq_extractLsb' (by decide)]
  rfl

theorem sput_seed (hn : o.a.toNat = 0x0A) : RunsTo (.sput o) s fun g' =>
    { g' with lanes := g.lanes } = { g with srseed := (sputSource o s g).val }
    ∧ ∀ L < 32, g'.lane L =
      let r := (sputSource o s g).val ^^^ BitVec.ofNat 32 L * 0x9E3779B9#32
      let ln := { g.lane L with rnd := if r = 0 then 1 else r }
      if bitOf s.cur.lanes L then nextLane s.cur ln else ln := by
  have h32 := h.2.2.1.1
  refine sput_inside (f := Group.reseed (sputSource o s g).val) h ha hm ht (by rw [hn]; decide)
    (by rw [hn]; exact putState_seed ..) (fun _ => rfl) ⟨rfl, fun L hL => ?_⟩
  have hseeded : (g.reseed (sputSource o s g).val).lanes.length = 32 := (length_mapLanes ..).trans h32
  have hlane : (g.reseed (sputSource o s g).val).lane L = { g.lane L with rnd := seedLane (sputSource o s g).val L } :=
    lane_mapLanes g (fun L ln => { ln with rnd := seedLane (sputSource o s g).val L }) L (h32 ▸ hL)
  rw [advance_movesOn _ s.cur 0 hseeded L hL, hlane, seedLane_eq]
  simp [bitOf]

end

/-! The registers outside the groups. -/

/-- An event selection of one side written (R48): no other side, and nothing else of this one, changes. -/
theorem event_written {s : State} (hs : s.Canonical) (key n : Nat) (x : Word) :
    let t := (s.onSide key fun d => { d with evsel := sset 0 d.evsel n x }).go 0
    { t with groups := s.groups, cores := s.cores } = s ∧ { t.cores with sides := s.cores.sides } = s.cores
      ∧ (∀ k, k ≠ key → t.side k = s.side k) ∧ { t.side key with evsel := (s.side key).evsel } = s.side key
      ∧ ∀ k, sget 0 (t.side key).evsel k = if k = n then x else sget 0 (s.side key).evsel k := by
  intro t
  obtain ⟨-, ⟨-, -, -, -, hsides, hevents, -⟩, -⟩ := hs
  have hside : ∀ k, t.side k = if k = key then { s.side key with evsel := sset 0 (s.side key).evsel n x } else s.side k :=
    fun k => side_onSide hsides key k fun d => { d with evsel := sset 0 d.evsel n x }
  have hwf : swf 0 (s.side key).evsel = true :=
    sget_has (P := fun d : Side => swf 0 d.evsel = true) (fun y hy => (hevents y hy).1) rfl
  refine ⟨rfl, rfl, fun k hk => (hside k).trans (if_neg hk), ?_, fun k => ?_⟩
  · rw [hside, if_pos rfl]
  · rw [hside, if_pos rfl]
    exact sget_sset _ _ _ _ _ hwf

theorem putState_vecBase (s : State) (g : Group) (x : Word) : putState s g 0x81 x =
    { s with sup := { s.sup with vecBase := x.setWidth 64 &&& 0xFFFFFFFFFFFFFE00#64 } } := rfl

theorem putState_trapQ (s : State) (g : Group) (x : Word) : putState s g 0x82 x =
    { s with sup := { s.sup with trapQ := x.setWidth 64 &&& 0xFFFFFFFFFFFC0000#64 } } := rfl

/-- A new CTXTAB has its records taken up by later steps. -/
theorem putState_ctxTab (s : State) (g : Group) (x : Word) : putState s g 0x83 x =
    { s with
      sup := { s.sup with ctxTab := x.setWidth 64 &&& 0xFFFFFFFFFFFFFF00#64 }
      mem := { s.mem with watch := (putState s g 0x83 x).mem.watch }
      agenda := (putState s g 0x83 x).agenda } := rfl

theorem putState_dquota (s : State) (g : Group) (x : Word) : putState s g 0x88 x =
    { s with mem := { s.mem with dquota := x &&& 0xFFFFF#32 } } := rfl

theorem mem_writable {n k : Nat} (hn : n = k) (hk : k ∈ writableNumbers) : n ∈ writableNumbers := hn ▸ hk

/-- Settles O45: the checks of R198, R199 in their order, and each register's own write. -/
theorem stateRegistersReadAndWrite : Obligations.StateRegistersReadAndWrite := by
  intro o s g hs n d act allowed wide key x puts ready writables
  refine ⟨stateWide_iff n, fun h hm => sget_runs h hm, ?_, ?_, ?_, ?_, ?_, ?_, ?_, ?_, ?_⟩
  · intro i hi hg hn trap
    have hx : ∀ t, sgetTrap g n act = some t → Traps i s g t := by
      intro t ht
      rcases hi with rfl | rfl
      · exact execChecked_traps rfl hg hn ht
      · exact execChecked_traps rfl hg hn (sputTrap_of_sgetTrap ht)
    refine ⟨fun h1 h2 => hx _ (sgetTrap_supervisor h1 h2), fun h1 h2 => hx _ (sgetTrap_number h1 h2),
      fun h1 h2 h3 h4 => hx _ (sgetTrap_counter h1 h2 h3 h4), ?_⟩
    rintro rfl hm hw
    exact execChecked_traps rfl hg hn (sputTrap_readOnly hm hw)
  · exact fun h ha hm hw ht hn => sput_poisoned h ha hm hw ht hn
  · rintro ⟨h, ha, hm, ht⟩ hn
    exact sput_flags h ha hm ht hn
  · rintro ⟨h, ha, hm, ht⟩ hn
    exact sput_seed h ha hm ht hn
  · rintro ⟨h, ha, hm, ht⟩ hlo hhi
    have hw : n ∈ writableNumbers := by simp; omega
    exact sput_outside h ha hm hw ht (putState_event ⟨hlo, hhi⟩ _) rfl rfl (event_written hs key (n - 0x20) _)
  · rintro ⟨h, ha, hm, ht⟩ hn
    exact sput_outside h ha hm (mem_writable hn (by decide)) ht
      ((congrArg (putState s g · _) hn).trans (putState_vecBase s g _)) rfl rfl rfl
  · rintro ⟨h, ha, hm, ht⟩ hn
    exact sput_outside h ha hm (mem_writable hn (by decide)) ht
      ((congrArg (putState s g · _) hn).trans (putState_trapQ s g _)) rfl rfl rfl
  · rintro ⟨h, ha, hm, ht⟩ hn
    exact sput_outside h ha hm (mem_writable hn (by decide)) ht
      ((congrArg (putState s g · _) hn).trans (putState_ctxTab s g _)) rfl rfl ⟨rfl, rfl⟩
  · rintro ⟨h, ha, hm, ht⟩ hn
    exact sput_outside h ha hm (mem_writable hn (by decide)) ht
      ((congrArg (putState s g · _) hn).trans (putState_dquota s g _)) rfl rfl rfl

end Sys2Proof.Machine
end

