-- ==== Sys2Proof/Proofs/Issue.lean ====
section
/-! The issue cycle (R27, R332): O55 fails where two groups have one number, of which the cycle resumes the other. -/

namespace Sys2Proof.Machine

open Sys2Proof.Tests

/-- A framed group of side 1 that may resume, and an ended group of side 0 that has its number. -/
def twins : State :=
  { s0 with groups := [{ grp with side := 1, halt := .framed .preempt, frame := some 0 }, { grp with ended := true }] }

/-- The halts of all groups after a step. -/
def haltsAfter : Out → Option (List HaltState)
  | .next t => some (t.groups.map (·.halt))
  | _ => none

theorem twins_canonical : twins.Canonical := by decide +kernel

/-- A cycle of side 0 attends to the number of its own group, and so resumes the group of side 1. -/
theorem twins_resume : haltsAfter (exec (.sideIssueCycle 0) twins) = some [.running, .running] := by decide +kernel

/-- The only group of side 0 has ended, and nothing of it waits. -/
theorem twins_here {g : Group} (hg : g ∈ twins.groups) (hk : 4 * g.core + g.side = 0) : g = { grp with ended := true } := by
  have hmem : g = { grp with side := 1, halt := .framed .preempt, frame := some 0 } ∨ g = { grp with ended := true } := by
    simpa [twins] using hg
  rcases hmem with rfl | rfl
  · exact absurd hk (by decide)
  · rfl

/-- Refutes O55: a cycle of a side with nothing to issue changes a group of another side, which has the number of one of
its own; no rule of `Canonical` keeps numbers apart. -/
theorem not_issueTakesReadyPathsAndTurnsBackWords : ¬ Obligations.IssueTakesReadyPathsAndTurnsBackWords := by
  intro h
  obtain ⟨-, hcycle, -⟩ := h twins twins_canonical
  obtain ⟨hidle, -⟩ := hcycle 0 rfl rfl (by
    rintro g ⟨hg, hk⟩
    rw [twins_here hg hk]
    refine ⟨rfl, rfl, rfl, fun ln hln n p hw => ?_, fun r hr => absurd hr (List.not_mem_nil)⟩
    have hnone : ∀ ln ∈ grp.lanes, ln.wait = .none := by decide +kernel
    exact absurd ((hnone ln hln).symm.trans hw) nofun) rfl (by decide +kernel)
  obtain ⟨t, ht, hsame, -⟩ := hidle (by
    rintro g ⟨⟨hg, hk⟩, hended, -⟩
    rw [twins_here hg hk] at hended
    exact absurd hended (by decide))
  have hresume := twins_resume
  rw [ht] at hresume
  have hgroups := congrArg State.groups hsame
  dsimp only at hgroups
  rw [haltsAfter, hgroups] at hresume
  exact absurd hresume (by decide +kernel)

end Sys2Proof.Machine
end

