-- ==== Sys2Proof/Proofs/Homecoming.lean ====
section
/-! O24: returns of loads and atomics bring what their home holds (R40, R80, R84, R224, R230). -/

namespace Sys2Proof.Machine

/-! Registers that a return reaches, and those that it leaves. -/

/-- Words written to consecutive registers of a lane leave every other register, and every other lane. -/
theorem rdV_putVals_others {lane reg k L : Nat} (hL : lane < 32) (hL' : L < 32) (ws : List TW) :
    ∀ (b : Nat) (g : Group), swf ⟨0, false⟩ g.v = true → ¬(L = lane ∧ reg + b ≤ k ∧ k < reg + b + ws.length) →
      rdV (g.putVals ((ws.zipIdx b).map fun x => (.v (reg + x.2), lane, x.1))) k L = rdV g k L := by
  induction ws with
  | nil => exact fun _ _ _ _ => rfl
  | cons w ws ih =>
    intro b g hg hk
    rw [List.length_cons] at hk
    have hstep : g.putVals (((w :: ws).zipIdx b).map fun x => (.v (reg + x.2), lane, x.1)) =
        (wrV g (reg + b) lane w).putVals ((ws.zipIdx (b + 1)).map fun x => (.v (reg + x.2), lane, x.1)) := rfl
    rw [hstep, ih (b + 1) _ (swf_sset _ _ _ _ hg) (by omega), rdV_wrV _ _ _ _ _ hg hL hL', if_neg (by omega)]

theorem rdV_returned_others {g : Group} {r : Req} {ws : List TW} {k L : Nat} (hg : g.Canonical) (hL : r.lane < 32)
    (hL' : L < 32) (hk : ¬(L = r.lane ∧ r.reg ≤ k ∧ k < r.reg + ws.length)) :
    rdV (g.returned r (returnVals r false ws)) k L = rdV g k L := by
  obtain ⟨-, hv, -⟩ := hg
  exact rdV_putVals_others hL hL' ws 0 g hv hk

/-- The return `r` of `n` words still has its registers, and of the allocation that it was issued for (R40). -/
def Reaches (g : Group) (r : Req) (n : Nat) : Prop := (∀ i < n, regHeld g (.v (r.reg + i)) = true) ∧ g.regGen r.reg = r.gen

theorem lostReturn_iff {g : Group} {r : Req} {n : Nat} : lostReturn g r false n = true ↔ ¬Reaches g r n := by
  simp only [lostReturn, Reaches, Bool.not_false, Bool.true_and, Bool.or_eq_true, Bool.not_eq_true', decide_eq_true_eq,
    ← Bool.not_eq_true, List.all_eq_true, List.mem_range, ne_eq]
  tauto

/-- A return whose registers are released, or have another allocation, is dropped and counted (R40). -/
theorem deliver_dropped {s : State} {r : Req} {g : Group} {ws : List TW} (hg : s.group? r.gid = some g) (he : g.ended = false)
    (hf : g.frame = none) (hl : ¬Reaches g r ws.length) :
    (s.deliver r false ws).req? r.id = none
      ∧ (s.deliver r false ws).group? r.gid = some { g.forget r with dropret := g.dropret + 1 } := by
  have hgd : (s.dropReq r.id).group? r.gid = some g := hg
  unfold State.deliver
  dsimp only
  rw [hgd]
  dsimp only
  rw [he, hf, lostReturn_iff.2 hl]
  simp only [Bool.false_eq_true, if_false, if_true]
  have hgid : ∀ x : Group, ({ x.forget r with dropret := x.dropret + 1 } : Group).gid = x.gid := fun _ => rfl
  split
  · exact ⟨req?_dropReq s r.id, group?_onGroup_same (s := (s.dropReq r.id).freshFetch g.core g.pasid)
      (f := fun x => { x.forget r with dropret := x.dropret + 1 }) hgd hgid⟩
  · exact ⟨req?_dropReq s r.id, group?_onGroup_same (s := s.dropReq r.id)
      (f := fun x => { x.forget r with dropret := x.dropret + 1 }) hgd hgid⟩

theorem sameHome_freshFetch {s : State} {core pasid : Nat} : SameHome s (s.freshFetch core pasid) :=
  ⟨rfl, rfl, rfl, rfl, fun _ => rfl⟩

theorem sameHome_dropReturn {s : State} {r : Req} : SameHome s (s.dropReturn r) := ⟨rfl, rfl, rfl, rfl, fun _ => rfl⟩

/-- A return to a group that is resident changes no line. -/
theorem sameHome_deliver {s : State} {r : Req} {g : Group} {ws : List TW} (hg : s.group? r.gid = some g)
    (he : g.ended = false) (hf : g.frame = none) : SameHome s (s.deliver r false ws) := by
  have hgd : (s.dropReq r.id).group? r.gid = some g := hg
  have fresh : SameHome s (if r.acq && decide (2 ≤ r.scope.code) then (s.dropReq r.id).freshFetch g.core g.pasid
      else s.dropReq r.id) := by
    split
    · exact sameHome_dropReq.trans sameHome_freshFetch
    · exact sameHome_dropReq
  unfold State.deliver
  dsimp only
  rw [hgd]
  dsimp only
  rw [he, hf]
  simp only [Bool.false_eq_true, if_false]
  split
  · exact fresh.trans sameHome_dropReturn
  · exact fresh.trans ⟨rfl, rfl, rfl, rfl, fun _ => rfl⟩

/-! A load at its home slice. -/

theorem eq_of_guard {b : Bool} {q r : Req} (h : (if b then some q else none) = some r) : some q = some r := by
  rw [(Option.ite_none_right_eq_some.1 h).2]

theorem canLoadReturn_req {id : Nat} {s : State} {r : Req} (h : canLoadReturn id s = some r) : s.req? id = some r := by
  unfold canLoadReturn at h
  cases hq : s.req? id with
  | none =>
    rw [hq] at h
    cases h
  | some q =>
    rw [hq] at h
    dsimp only at h
    split at h
    exacts [eq_of_guard h, eq_of_guard h, eq_of_guard h, eq_of_guard h, nomatch h]

theorem l1Copy_none {s : State} {core : Nat} {l : LineId}
    (h : s.mem.l1.all (fun y => !(y.core = core && y.line = l)) = true) : s.l1Copy core l = none := by
  unfold State.l1Copy
  refine List.find?_eq_none.2 fun y hy => ?_
  have := List.all_eq_true.1 h y hy
  simp only [Bool.not_eq_true', Bool.and_eq_false_iff, decide_eq_false_iff_not] at this
  simp only [Bool.and_eq_true, decide_eq_true_eq]
  tauto

/-- Making a line the most recently used leaves every line as it is. -/
theorem sameHome_use {s : State} {l : LineId} {x : DepotLine} (hx : s.line? l = some x) : SameHome s (s.onLine l id) where
  raw := by simp only [State.onLine, hx]
  rel := by simp only [State.onLine, hx]
  slots := by simp only [State.onLine, hx]
  tb := by simp only [State.onLine, hx]
  line k := by
    have hl : x.line = l := by simpa using List.find?_some hx
    rw [line?_onLine (f := id) hx hl]
    split
    · next hk => rw [hk, hx]; rfl
    · rfl

theorem onLine_groups (s : State) (l : LineId) (f : DepotLine → DepotLine) : (s.onLine l f).groups = s.groups := by
  unfold State.onLine
  split <;> rfl

/-- A read that meets its line in the depot, with no copy in its core's first level and no write that waits there, is served the
line's bytes (R80). -/
theorem serveLine_depot {s : State} {r : Req} {l : LineId} {ofs : Nat} {x : DepotLine} (hx : s.line? l = some x)
    (hc : s.l1Copy r.core l = none) (hh : s.heldOn l = []) :
    ∃ tags t, s.serveLine r l ofs = .done ((x.bytes.drop ofs).take r.size) tags t ∧ SameHome s t ∧ t.groups = s.groups := by
  have hheld : s.coreHeld r.core l = false := by
    unfold State.coreHeld
    rw [hh]
    rfl
  have huse := sameHome_use hx
  have hgroups := onLine_groups s l id
  unfold State.serveLine
  simp only [hc, ite_self, hh, hheld, hx, List.isEmpty_nil, Bool.not_true, Bool.false_eq_true, if_false]
  split
  · exact ⟨_, _, rfl, huse, hgroups⟩
  · split
    · exact ⟨_, _, rfl, huse, hgroups⟩
    · exact ⟨_, _, rfl, huse.trans sameHome_l1Grant, hgroups⟩

/-- A load returns its line's bytes, as register words, to where its return goes. -/
theorem doLoadReturn_depot {s : State} {id : Nat} {r : Req} {l : LineId} {ofs n : Nat} {x : DepotLine} {signed : Bool}
    (hc : canLoadReturn id s = some r) (hk : r.kind = .load signed n) (hp : r.place = .line l ofs) (hx : s.line? l = some x)
    (h1 : s.l1Copy r.core l = none) (hh : s.heldOn l = []) :
    ∃ tags t, doLoadReturn id none s = t.deliver r false (loadWords ((x.bytes.drop ofs).take r.size) tags signed)
      ∧ SameHome s t ∧ t.groups = s.groups := by
  obtain ⟨tags, t, hserve, hsame, hgroups⟩ := serveLine_depot (ofs := ofs) hx h1 hh
  refine ⟨if 8 < r.replays then tags.map fun _ => true else tags, t, ?_, hsame, hgroups⟩
  unfold doLoadReturn
  simp only [hc, hp, hserve, State.loaded, hk]

theorem returnRecord_gone {s : State} {id : Nat} (h : s.req? id = none) : s.returnRecord id = s := by
  unfold State.returnRecord
  rw [h]

/-- What a return of the bytes `old` leaves of the group, where its registers are held: their words, and every other register. -/
theorem rdV_returned_load {g : Group} {r : Req} {old : List Byte} {tags : List Bool} {signed : Bool} (hg : g.Canonical)
    (hL : r.lane < 32) (hn : old.length ∈ [1, 2, 4, 8, 16]) {i : Nat} (hi : i < (old.length + 3) / 4) :
    (rdV (g.returned r (returnVals r false (loadWords old tags signed))) (r.reg + i) r.lane).val = loadMeaning signed old i := by
  have hlen := length_loadWords (tags := tags) (signed := signed) hn
  rw [rdV_returned hg hL (by omega)]
  have hw := loadWords_val (tags := tags) (signed := signed) hn hi
  obtain ⟨w, hw, e⟩ := Option.map_eq_some_iff.1 hw
  rw [List.getD_eq_getElem?_getD, hw]
  exact e

/-! An atomic at its home slice. -/

theorem canHomeAtomic_req {id : Nat} {s : State} {r : Req} (h : canHomeAtomic id s = some r) : s.req? id = some r := by
  unfold canHomeAtomic at h
  cases hq : s.req? id with
  | none =>
    rw [hq] at h
    cases h
  | some q =>
    rw [hq] at h
    dsimp only at h
    split at h
    exacts [eq_of_guard h, eq_of_guard h, eq_of_guard h, eq_of_guard h, nomatch h]

theorem getD_leBytes {n w j : Nat} (h : j < n) : (leBytes n w).getD j 0 = BitVec.ofNat 8 (w / 2 ^ (8 * j)) := by
  simp [leBytes, List.getD_eq_getElem?_getD, h, Nat.shiftRight_eq_div_pow]

theorem atomBytes_cases (ac : Nat) : atomBytes ac = 4 ∨ atomBytes ac = 8 := by
  unfold atomBytes
  split <;> simp

/-- A write that meets no bits that only the device writes puts its bytes over the line (R7). -/
theorem applyHome_writable {s : State} {l : LineId} {x : DepotLine} {ofs : Nat} {bs : List Byte} {tag : Nat → Bool}
    (hx : s.line? l = some x) (hd : x.bytes.length = 128) (hw : Writable s l ofs bs) :
    (∀ i < 128, ((s.applyHome l ofs bs tag).homeLine l).1[i]? =
        if ofs ≤ i ∧ i < ofs + bs.length then some (bs.getD (i - ofs) 0) else x.bytes[i]?)
      ∧ ∀ k, k ≠ l → (s.applyHome l ofs bs tag).homeLine k = s.homeLine k := by
  have hl : x.line = l := by simpa using List.find?_some hx
  unfold State.applyHome State.applyLine
  rw [hx, writableBytes_eq hw]
  dsimp only
  obtain ⟨hself, hother⟩ := homeLine_onLine (f := fun x => { x with
    bytes := putBytes x.bytes ofs bs, dirty := true, poison := putTags x.poison ofs bs.length tag }) hx hl
  refine ⟨fun i hi => ?_, fun k hk => ?_⟩
  · rw [sameHome_noticed.homeLine, hself]
    exact getElem?_putBytes hd hi
  · rw [sameHome_noticed.homeLine, hother k hk]

theorem applyHome_groups {s : State} {l : LineId} {x : DepotLine} {ofs : Nat} {bs : List Byte} {tag : Nat → Bool}
    (hx : s.line? l = some x) : (s.applyHome l ofs bs tag).groups = s.groups := by
  unfold State.applyHome State.applyLine State.noticed
  rw [hx]
  exact foldl_keep (P := fun t : State => t.groups = s.groups) (onLine_groups _ _ _) fun t pa ht => ht

theorem release_groups (s : State) (r : Req) : (s.release r).groups = s.groups := by
  unfold State.release
  split <;> rfl

/-- Whether only the device writes a byte rests on the slot list and on the extents' states alone. -/
theorem SameHome.writable {s t : State} {l : LineId} {ofs : Nat} {bs : List Byte} (h : SameHome s t) (hw : Writable s l ofs bs) :
    Writable t l ofs bs := by
  have ha (u : State) : u.addressesOf l.stack l.ext (128 * l.line + ofs) =
      ({ State.reset with xl := { State.reset.xl with slots := u.xl.slots, tb := u.xl.tb } } : State).addressesOf l.stack l.ext
        (128 * l.line + ofs) := rfl
  have hr (u : State) (pa : Nat) : u.readOnlyBits pa =
      ({ State.reset with xl := { State.reset.xl with slots := u.xl.slots, tb := u.xl.tb } } : State).readOnlyBits pa := rfl
  intro pa hpa i hi
  rw [ha t, h.slots, h.tb, ← ha s] at hpa
  rw [hr t, h.slots, h.tb, ← hr s]
  exact hw pa hpa i hi

/-- What an atomic on a depot line comes to: the word that it met, and the line with the operator's result (R84, R230). -/
theorem atomLine_depot {s : State} {who : Who} {w : WriteOp} {op : AtomOp} {ac : Nat} {l : LineId} {ofs : Nat} {x : DepotLine}
    (hx : s.line? l = some x) :
    ∃ mt tag, s.atomLine who w (.atom op ac) l ofs = ((x.bytes.drop ofs).take (atomBytes ac), mt,
      s.applyHome l ofs (leBytes (atomBytes ac) (atomCompute op ac (leNat ((x.bytes.drop ofs).take (atomBytes ac)))
        (leNat w.bytes))) tag) := by
  unfold State.atomLine State.homeDemand
  rw [hx]
  exact ⟨_, _, rfl⟩

theorem atomDone_atom {s : State} {r : Req} {op : AtomOp} {ac : Nat} {m : List Byte} {mt : Bool} (hk : r.kind = .atom op ac)
    (hL : r.lane < 32) : s.atomDone r m mt = s.deliver r false (loadWords m (m.map fun _ => mt) false) := by
  unfold State.atomDone
  simp [hk, Nat.ne_of_lt hL]

/-- What an atomic at its home comes to (R84, R230). -/
theorem applyWrite_atom {s : State} {l : LineId} {w : WriteOp} {r : Req} {op : AtomOp} {ac ofs : Nat} {x : DepotLine}
    (hm : w.maint = none) (hp : w.place = .line l ofs) (hr : w.req.bind s.req? = some r) (hk : r.kind = .atom op ac)
    (hL : r.lane < 32) (hx : (s.release r).line? l = some x) :
    ∃ tag tags, s.applyWrite l w = ((s.release r).applyHome l ofs (leBytes (atomBytes ac) (atomCompute op ac
        (leNat ((x.bytes.drop ofs).take (atomBytes ac))) (leNat w.bytes))) tag).deliver r false
          (loadWords ((x.bytes.drop ofs).take (atomBytes ac)) tags false) := by
  obtain ⟨mt, tag, hatom⟩ := atomLine_depot (who := (s.release r).reqWho r) (w := w) (op := op) (ac := ac) (ofs := ofs) hx
  refine ⟨tag, ((x.bytes.drop ofs).take (atomBytes ac)).map fun _ => mt, ?_⟩
  rw [← atomDone_atom hk hL]
  unfold State.applyWrite
  simp only [hm, hp, hr, hk, ReqKind.isStore, Bool.false_eq_true, if_false, hatom]

/-- An atomic that may act at a depot line that nothing holds: it returns the word that it met, from the state in which the line
has its result. -/
theorem doHomeAtomic_depot {s : State} {id : Nat} {r : Req} {op : AtomOp} {ac : Nat} {l : LineId} {ofs : Nat} {x : DepotLine}
    (hc : canHomeAtomic id s = some r) (hk : r.kind = .atom op ac) (hp : r.place = .line l ofs) (hx : s.line? l = some x)
    (hn : r.bytes.length = atomBytes ac) (hL : r.lane < 32) (hh : s.heldOn l = []) (hf : s.lineFree l = true) :
    ∃ t y tag tags, SameHome s t ∧ t.groups = s.groups ∧ t.line? l = some y ∧ y.bytes = x.bytes
      ∧ doHomeAtomic id none s = (t.applyHome l ofs (leBytes (atomBytes ac) (atomCompute op ac
          (leNat ((x.bytes.drop ofs).take (atomBytes ac))) (leNat r.bytes))) tag).deliver { r with accepted := true } false
          (loadWords ((x.bytes.drop ofs).take (atomBytes ac)) tags false) := by
  have hr := canHomeAtomic_req hc
  have hid := req?_id hr
  subst hid
  have h48 := atomBytes_cases ac
  have hreq : r.write.req.bind (s.acceptStore r.id).req? = some { r with accepted := true } := req?_acceptStore hr
  have harrive : doHomeAtomic r.id none s = (s.acceptStore r.id).applyWrite l r.write := by
    unfold doHomeAtomic
    simp only [hc, hp]
    exact arrive_applied (writeLines_one (w := r.write) (by show 0 < r.bytes.length; omega) (by show r.bytes.length ≤ 128; omega))
      (canApply_depot (s := s.acceptStore r.id) (x := x) hx rfl rfl hf) hh
  have hsame : SameHome s ((s.acceptStore r.id).release { r with accepted := true }) := sameHome_acceptStore.trans sameHome_release
  obtain ⟨y, hy, hb⟩ := hsame.line_some hx
  obtain ⟨tag, tags, e⟩ := applyWrite_atom (r := { r with accepted := true }) (w := r.write) rfl hp hreq hk hL hy
  rw [hb] at e
  exact ⟨_, y, tag, tags, hsame, release_groups _ _, hy, hb, harrive.trans e⟩

/-- Settles O24: a load is served the bytes that its home holds and an atomic the word that it meets there; a resident group's
registers take them, and a return that they are lost to is dropped. -/
theorem returnsBringTheHomesBytes : Obligations.ReturnsBringTheHomesBytes := by
  unfold Obligations.ReturnsBringTheHomesBytes
  intro s id r l ofs n x g hr hp hx hd hfit hg hcan he hfr hL hrep hl1 hh
  have hid := req?_id hr
  subst hid
  have hlen : ((x.bytes.drop ofs).take n).length = n := by
    rw [List.length_take, List.length_drop]
    omega
  refine ⟨fun signed hc hk hsize hn hmark => ?_, fun op ac hc hk hac hb hf hreg hreg' hgen hw => ?_⟩
  · obtain ⟨tags, t, hload, hsame, hgroups⟩ := doLoadReturn_depot hc hk hp hx (l1Copy_none hl1) hh
    rw [hsize] at hload
    have hgt : t.group? r.gid = some g := by
      unfold State.group? at hg ⊢
      rw [hgroups]
      exact hg
    have hn' : ((x.bytes.drop ofs).take n).length ∈ [1, 2, 4, 8, 16] := hlen.symm ▸ hn
    have hws := length_loadWords (tags := tags) (signed := signed) hn'
    rw [hlen] at hws
    have hnext : exec (.loadReturn r.id none) s = .next ((doLoadReturn r.id none s).returnRecord r.id) := rfl
    have hhome := hsame.trans (sameHome_deliver (ws := loadWords ((x.bytes.drop ofs).take n) tags signed) hgt he hfr)
    rw [← hload] at hhome
    by_cases hreach : Reaches g r ((n + 3) / 4)
    · obtain ⟨hheld, hgen⟩ := hreach
      obtain ⟨-, hreq, hg'⟩ := deliver_resident hgt he hfr hgen (ws := loadWords ((x.bytes.drop ofs).take n) tags signed)
        (by rw [hws]; exact hheld)
      rw [← hload] at hreq hg'
      rw [returnRecord_gone hreq] at hnext
      refine ⟨_, _, hnext, hreq, hhome.homeLine, hg', fun _ _ => ⟨fun i hi => ?_, fun k L hK hk => ?_⟩, fun hlost => ?_⟩
      · exact rdV_returned_load hcan hL hn' (by rw [hlen]; exact hi)
      · exact rdV_returned_others hcan hL hK (by rw [hws]; exact hk)
      · rcases hlost with hlost | ⟨i, hi, hlost⟩
        · exact absurd hgen hlost
        · exact absurd (hheld i hi) (by simp [hlost])
    · obtain ⟨hreq, hg'⟩ := deliver_dropped hgt he hfr (ws := loadWords ((x.bytes.drop ofs).take n) tags signed)
        (by rw [hws]; exact hreach)
      rw [← hload] at hreq hg'
      rw [returnRecord_gone hreq] at hnext
      exact ⟨_, _, hnext, hreq, hhome.homeLine, hg', fun hheld hgen => absurd ⟨hheld, hgen⟩ hreach, fun _ => ⟨rfl, rfl⟩⟩
  · subst hac
    obtain ⟨t, y, tag, tags, hsame, hgroups, hy, hyb, hdo⟩ := doHomeAtomic_depot hc hk hp hx hb hL hh hf
    have h48 := atomBytes_cases ac
    have hn' : ((x.bytes.drop ofs).take (atomBytes ac)).length ∈ [1, 2, 4, 8, 16] := by
      rw [hlen]
      rcases h48 with h | h <;> simp [h]
    have hws := length_loadWords (tags := tags) (signed := false) hn'
    rw [hlen] at hws
    generalize hv : atomCompute op ac (leNat ((x.bytes.drop ofs).take (atomBytes ac))) (leNat r.bytes) = v at hdo ⊢
    have hlb : (leBytes (atomBytes ac) v).length = atomBytes ac := length_leBytes _ _
    have hwt : Writable t l ofs (leBytes (atomBytes ac) v) := by
      intro pa hpa i hi
      exact hsame.writable hw pa hpa i (by omega)
    obtain ⟨hself, hother⟩ := applyHome_writable (tag := tag) hy (by rw [hyb, hd]) hwt
    have hgt : (t.applyHome l ofs (leBytes (atomBytes ac) v) tag).group? r.gid = some g := by
      unfold State.group? at hg ⊢
      rw [applyHome_groups hy, hgroups]
      exact hg
    have hheld : ∀ i < (loadWords ((x.bytes.drop ofs).take (atomBytes ac)) tags false).length,
        regHeld g (.v (r.reg + i)) = true := by
      intro i hi
      rw [hws] at hi
      obtain rfl | rfl : i = 0 ∨ i = atomBytes ac / 4 - 1 := by omega
      · exact hreg
      · rw [← Nat.add_sub_assoc (by omega)]
        exact hreg'
    obtain ⟨-, hreq, hg'⟩ := deliver_resident (r := { r with accepted := true }) hgt he hfr hgen hheld
    have hhome := sameHome_deliver (r := { r with accepted := true })
      (ws := loadWords ((x.bytes.drop ofs).take (atomBytes ac)) tags false) hgt he hfr
    rw [← hdo] at hreq hg' hhome
    refine ⟨_, _, rfl, hreq, hg', fun i hi => ?_, fun i hi => ?_, fun k hk => ?_⟩
    · exact rdV_returned_load (r := { r with accepted := true }) hcan hL hn' (by rw [hlen]; omega)
    · rw [hhome.homeLine, hself i hi, hlb, hyb]
      by_cases hin : ofs ≤ i ∧ i < ofs + atomBytes ac
      · rw [if_pos hin, if_pos hin, getD_leBytes (by omega)]
      · rw [if_neg hin, if_neg hin]
    · rw [hhome.homeLine, hother k hk, hsame.homeLine]

end Sys2Proof.Machine
end

