-- ==== Sys2Proof/Proofs/PageMap.lean ====
section
/-! The page map (R339): O47 fails where a context's map has an empty entry at page 0, the context's post page. -/

namespace Sys2Proof.Machine

open Sys2Proof.Tests

/-- A team to be framed, in a context whose frame area is as long as the team's frame and has an empty entry at page 0. -/
def framingOver0 : State :=
  { at_ all32 endedG with
    teams := [framingT], ctxs := [(0, { emptyCtx with frameLen := 4 * 4096, frames := [(0, 0)] })] }

/-- The states of all teams after a step. -/
def teamsAfter : Out → Option (List TeamState)
  | .next t => some (t.teams.map (·.state))
  | _ => none

theorem framingOver0_canonical : framingOver0.Canonical := by decide +kernel

/-- The frame goes over page 0. -/
theorem framingOver0_framed : teamsAfter (exec .teamFrameWrite framingOver0) = some [.framed] := by decide +kernel

/-- No free run past page 0 is as long as the frame. -/
theorem framingOver0_full (p : Nat) : ¬ FreeRun (framingOver0.ctx 0) 4 p := by
  rintro ⟨h1, hlen, -⟩
  have : (framingOver0.ctx 0).frameLen / 4096 = 4 := by decide +kernel
  omega

/-- Refutes O47: the frame writer offers every entry's end as the beginning of a run, page 0 too where the map has an empty entry
there, and so frames a team that no run of free pages past the post page can hold. -/
theorem not_framesHoldGroupsAndTeams : ¬ Obligations.FramesHoldGroupsAndTeams := by
  intro h
  obtain ⟨-, -, hteam⟩ := h framingOver0 framingOver0_canonical
  obtain ⟨-, -, hfull, -⟩ := hteam framingT task rfl rfl
  obtain ⟨t, hnext, -, hwaits⟩ := hfull ⟨rfl, by
    intro k hk g hg
    obtain rfl : k = 1 := List.mem_singleton.1 hk
    cases hg
    exact .inr ⟨_, rfl⟩, fun o ho => absurd ho List.not_mem_nil⟩ framingOver0_full rfl
  have hframed := framingOver0_framed
  rw [hnext] at hframed
  have hmem := List.mem_of_find?_eq_some hwaits
  have hall : ∀ x ∈ t.teams, x.state = .framed := by
    intro x hx
    have := List.mem_map_of_mem (f := Team.state) hx
    rw [Option.some.inj hframed] at this
    exact List.mem_singleton.1 this
  exact absurd (hall _ hmem) (by decide)

end Sys2Proof.Machine
end

