-- ==== Sys2Proof/Proofs/LockWords.lean ====
section
/-! O54 fails where a lock word that is asked for stands in the log header of the task that is killed (R237, R240, R389). -/

namespace Sys2Proof.Machine

open Sys2Proof.Tests

/-- A lane of the replayed task that waits for a lock. -/
def lockingG : Group := { grp with lanes := grp.lanes.map fun ln => { ln with wait := .lock } }

/-- A replayed task whose log has ended, and beside it a LOCK that waits for a record at its unit, of the word that the log's
header holds at 0x1C. -/
def lockedLog : State :=
  { replayS with
    groups := [lockingG]
    mem := { replayS.mem with lockWait := [(⟨0, 0, 1⟩, 28, ⟨0, 0, 0, 9, 0⟩)] } }

/-- The word of the log's header at 0x1C after a step. -/
def headerAfter : Out → Option Nat
  | .next t => some (t.devNat 0x9C 4)
  | _ => none

theorem lockedLog_canonical : lockedLog.Canonical := by decide +kernel

theorem lockedLog_laid : Laid lockedLog 0x9C 4 :=
  laid_of _ 300 _ _ rfl (by rfl) (by rfl) (by decide) (by decide)
    (List.all_eq_true.2 fun _ hk => List.find?_isSome.2 ⟨_, List.mem_map_of_mem hk, by simp⟩)

/-- The killed group's lane is withdrawn, the LOCK that waits is granted, and its unit writes 1 over the status. -/
theorem lockedLog_header : headerAfter (exec (.replayDivergence 3 0) lockedLog) = some 1 := by decide +kernel

/-- Refutes O54: a divergence writes 2 into the log's header and then kills the task, which may grant a waiting LOCK whose word
stands there; no rule of the statement keeps lock words out of the header. -/
theorem not_teamsArePlacedAndRetire : ¬ Obligations.TeamsArePlacedAndRetire := by
  intro h
  obtain ⟨-, -, -, -, -, -, -, -, -, -, hdiverges⟩ := h lockedLog lockedLog_canonical
  obtain ⟨t, hnext, -, hheader⟩ := hdiverges 3 0 replayX rfl (.inl (by decide +kernel))
  have hone := lockedLog_header
  rw [hnext] at hone
  exact absurd ((Option.some.inj hone).symm.trans (hheader lockedLog_laid)) (by decide)

end Sys2Proof.Machine
end

