-- ==== Sys2Proof/Proofs/KernelReads.lean ====
section
/-! SUPPORT. What a read of the device's leaves as it is where it finds no record (R392, R399). -/

namespace Sys2Proof.Machine

/-- The groups, the task table, the contexts and the map of local space are the same, and every line that the depot held it
holds. -/
structure OnlyReads (s u : State) : Prop where
  groups : u.groups = s.groups
  disp : u.disp = s.disp
  ctxs : u.ctxs = s.ctxs
  slots : u.xl.slots = s.xl.slots
  tb : u.xl.tb = s.xl.tb
  ext : u.rel.ext = s.rel.ext
  line : ∀ l, (s.line? l).isSome = true → (u.line? l).isSome = true

theorem OnlyReads.refl {s : State} : OnlyReads s s := ⟨rfl, rfl, rfl, rfl, rfl, rfl, fun _ h => h⟩

theorem OnlyReads.trans {s t u : State} (h : OnlyReads s t) (k : OnlyReads t u) : OnlyReads s u :=
  ⟨k.groups.trans h.groups, k.disp.trans h.disp, k.ctxs.trans h.ctxs, k.slots.trans h.slots, k.tb.trans h.tb, k.ext.trans h.ext,
    fun l hl => k.line l (h.line l hl)⟩

theorem OnlyReads.foldl {α : Type} {f : State → α → State} {l : List α} {s : State} (hf : ∀ s a, OnlyReads s (f s a)) :
    OnlyReads s (l.foldl f s) :=
  foldl_keep (P := OnlyReads s) .refl fun t a h => h.trans (hf t a)

theorem OnlyReads.ctx {s u : State} (h : OnlyReads s u) (n : Nat) : u.ctx n = s.ctx n := by
  unfold State.ctx
  rw [h.ctxs]

theorem OnlyReads.group? {s u : State} (h : OnlyReads s u) (k : Nat) : u.group? k = s.group? k := by
  unfold State.group?
  rw [h.groups]

/-- Where an address lies rests on the decoder's windows and slots and on the extents alone. -/
theorem decodeLocal_congr {s u : State} (hslots : u.xl.slots = s.xl.slots) (htb : u.xl.tb = s.xl.tb) (hext : u.rel.ext = s.rel.ext)
    (pa : Nat) (c : Bool) : u.decodeLocal pa c = s.decodeLocal pa c := by
  have key (v : State) : v.decodeLocal pa c = ({ State.reset with
      xl := { State.reset.xl with slots := v.xl.slots, tb := v.xl.tb }, rel := { State.reset.rel with ext := v.rel.ext } }
        : State).decodeLocal pa c := rfl
  rw [key u, key s, hslots, htb, hext]

/-- A write of the device's that keeps the depot's lines. -/
theorem OnlyReads.of_devWrites {s u : State} (h : DevWrites s u) (hl : ∀ l, (s.line? l).isSome = true → (u.line? l).isSome = true) :
    OnlyReads s u := by
  obtain ⟨_, _, _, _, _, _, rfl⟩ := h
  exact ⟨rfl, rfl, rfl, rfl, rfl, rfl, hl⟩

theorem onlyReads_rel {s : State} {rel : Rel} (h : rel.ext = s.rel.ext) : OnlyReads s { s with rel := rel } :=
  ⟨rfl, rfl, rfl, rfl, rfl, h, fun _ h => h⟩

theorem onlyReads_pokeSector {s : State} {r : RowId} {k : Nat} {d : List Byte} {p : Bool} : OnlyReads s (s.pokeSector r k d p) := by
  unfold State.pokeSector
  obtain ⟨r1, h1⟩ := rawPut_raw s.mem (s.slotBase r k) d
  obtain ⟨r2, h2⟩ := rawPut_raw { s.mem with raw := r1 } (codeBase (s.rowCode r) r k).1 ((s.rowCode r).stored d p)
  dsimp only
  rw [h1, h2]
  exact ⟨rfl, rfl, rfl, rfl, rfl, rfl, fun _ h => h⟩

theorem onlyReads_onLine {s : State} {l : LineId} {f : DepotLine → DepotLine} (hf : ∀ x, (f x).line = x.line) :
    OnlyReads s (s.onLine l f) := by
  refine .of_devWrites devWrites_onLine fun k hk => ?_
  cases hx : s.line? l with
  | none =>
    unfold State.onLine
    rw [hx]
    exact hk
  | some x =>
    have hl : x.line = l := by simpa using List.find?_some hx
    rw [line?_onLine hx (by rw [hf, hl])]
    split
    · rfl
    · exact hk

theorem onlyReads_applyLine {s : State} {l : LineId} {ofs : Nat} {bs : List Byte} {tag : Nat → Bool} :
    OnlyReads s (s.applyLine l ofs bs tag) := by
  unfold State.applyLine
  dsimp only
  refine OnlyReads.trans ?_ (.foldl fun _ _ => ⟨rfl, rfl, rfl, rfl, rfl, rfl, fun _ h => h⟩)
  split
  · exact onlyReads_onLine fun _ => rfl
  · refine .foldl fun t h => ?_
    dsimp only
    split
    · exact onlyReads_pokeSector
    · exact .refl

theorem onlyReads_devWrite {s : State} {pa : Nat} {bs : List Byte} {after : Option LineId} :
    OnlyReads s (s.devWrite pa bs after) := by
  refine .foldl fun t a => ?_
  obtain ⟨a, k⟩ := a
  dsimp only
  split
  · unfold State.devArrive
    split
    · exact onlyReads_applyLine
    · exact ⟨rfl, rfl, rfl, rfl, rfl, rfl, fun _ h => h⟩
  · exact .refl

theorem onlyReads_devPut {s : State} {pa n x : Nat} : OnlyReads s (s.devPut pa n x) := onlyReads_devWrite

theorem onlyReads_devMend {s : State} {pa n : Nat} : OnlyReads s (s.devMend pa n) := by
  refine .foldl fun t a => ?_
  obtain ⟨a, k⟩ := a
  dsimp only
  split
  · split
    · exact .refl
    · refine .foldl fun t h => ?_
      split
      · exact onlyReads_pokeSector
      · exact .refl
  · exact .refl

theorem onlyReads_logWrite {kind ctx : Nat} {at_ : LogAt} {s : State} {rb put used sector : Nat} {b : RelBlock} :
    OnlyReads s (State.log.write kind at_ ctx s rb b put used sector) := by
  unfold State.log.write
  split
  · exact onlyReads_devPut
  · extract_lets _ u v w _
    have hu : OnlyReads s u := by
      unfold u
      split <;> exact ⟨rfl, rfl, rfl, rfl, rfl, rfl, fun _ h => h⟩
    have hv : OnlyReads u v := onlyReads_devWrite
    have hw : OnlyReads v w := onlyReads_devWrite
    refine ((hu.trans hv).trans hw).trans ?_
    clear_value w
    exact onlyReads_rel rfl

theorem onlyReads_log {s : State} {kind ctx : Nat} {at_ : LogAt} : OnlyReads s (s.log kind at_ ctx) := by
  unfold State.log
  extract_lets _ _ u _ _ _ _
  have hu : OnlyReads s u := onlyReads_devMend
  clear_value u
  split
  · exact .refl
  · split
    · split
      · exact hu.trans (onlyReads_devMend.trans onlyReads_devPut)
      · exact hu.trans onlyReads_logWrite
    · exact hu.trans onlyReads_logWrite

theorem onlyReads_counts {s : State} {m : SMap Nat} {bs : List Nat} :
    OnlyReads s { s with rel := { s.rel with ceCount := m, reinforcing := bs } } := onlyReads_rel rfl

theorem onlyReads_dueRow {s : State} {r : RowId} : OnlyReads s (s.dueRow r) := ⟨rfl, rfl, rfl, rfl, rfl, rfl, fun _ h => h⟩

theorem onlyReads_clearWindow {s : State} : OnlyReads s s.clearWindow := by
  unfold State.clearWindow
  split
  · exact .refl
  · exact onlyReads_rel rfl

theorem onlyReads_countCorrected {s : State} {r : RowId} : OnlyReads s (s.countCorrected r) := by
  unfold State.countCorrected
  extract_lets u k n _ v _ _ w
  have hu : OnlyReads s u := onlyReads_clearWindow
  clear_value u k n
  have hv : OnlyReads u v := onlyReads_counts
  clear_value v
  have hw : OnlyReads v w := by
    unfold w
    split
    · refine OnlyReads.trans ?_ onlyReads_log
      exact onlyReads_counts
    · exact .refl
  clear_value w
  refine (hu.trans hv).trans (hw.trans ?_)
  split
  · exact onlyReads_dueRow
  · exact .refl

/-- A demand read that is charged to none. -/
theorem onlyReads_demandSector {s : State} {r : RowId} {k : Nat} : OnlyReads s (s.demandSector ⟨none, none⟩ r k).2 := by
  unfold State.demandSector State.charge
  dsimp only
  split
  · exact .refl
  · exact .refl
  · exact (onlyReads_pokeSector.trans onlyReads_log).trans onlyReads_countCorrected
  · exact onlyReads_log

theorem onlyReads_demandLine {s : State} {l : LineId} : OnlyReads s (s.demandLine ⟨none, none⟩ l).2 :=
  onlyReads_demandSector.trans onlyReads_demandSector

/-! Reads of an address space. -/

/-- The state that a read leaves where it finds nothing. -/
def VirtRead.OnlyReads (s : State) : VirtRead → Prop
  | .bad u => Machine.OnlyReads s u
  | _ => True

theorem lineBytes_onlyReads {s u : State} {d : List Byte} {t : Word} {ofs n : Nat} (h : OnlyReads s u) :
    (lineBytes u d t ofs n).OnlyReads s := by
  unfold lineBytes
  split
  · exact h
  · trivial

theorem virtStack_onlyReads {s : State} {l : LineId} {ofs n : Nat} : (s.virtStack l ofs n).OnlyReads s := by
  unfold State.virtStack
  split
  · trivial
  · dsimp only
    split
    · trivial
    · exact lineBytes_onlyReads onlyReads_demandLine

theorem virtChunk_onlyReads {s : State} {core pasid va n : Nat} {ctx0 : Bool} :
    (s.virtChunk core pasid va n ctx0).OnlyReads s := by
  unfold State.virtChunk
  split
  · trivial
  · exact (⟨rfl, rfl, rfl, rfl, rfl, rfl, fun _ h => h⟩ : Machine.OnlyReads s (s.undeny (deviceWalker pasid)))
  · extract_lets away
    have haway : away.OnlyReads s := by
      unfold away
      split
      · trivial
      · split
        · trivial
        · split
          · exact OnlyReads.refl
          · trivial
    clear_value away
    split
    · split
      · exact lineBytes_onlyReads .refl
      · exact virtStack_onlyReads
    · exact virtStack_onlyReads
    · exact haway
    · split
      · exact haway
      · exact OnlyReads.refl

theorem virtChunks_onlyReads {s : State} {core pasid : Nat} {ctx0 : Bool} {l : List (Nat × Nat)} :
    (s.virtChunks core pasid ctx0 l).OnlyReads s := by
  induction l with
  | nil => trivial
  | cons _ _ ih =>
    unfold State.virtChunks
    split
    · split
      · trivial
      · exact ih
    · exact virtChunk_onlyReads

/-- A kernel record that cannot be taken up leaves what a read leaves. -/
theorem readKernel_bad {s u : State} {core pasid addr : Nat} {ctx0 : Bool} (h : s.readKernel core pasid addr ctx0 = .bad u) :
    OnlyReads s u := by
  have hv : (s.virtRead core pasid addr 128 ctx0).OnlyReads s := virtChunks_onlyReads
  unfold State.readKernel at h
  split at h
  · cases h
  · next hu =>
    cases h
    rw [hu] at hv
    exact hv
  · split at h
    · cases h
    · cases h
      exact .refl

end Sys2Proof.Machine
end

