-- ==== Sys2Proof/Proofs/PostStatus.lean ====
section
/-! SUPPORT. A byte that the device writes, as it reads it (R80, R368). -/

namespace Sys2Proof.Machine

theorem length_devLine {s : State} {l : LineId} {x : DepotLine} (hx : s.line? l = some x) :
    (s.devLine l).1.length = x.bytes.length := by
  unfold State.devLine
  refine foldl_keep (P := fun a : List Byte × Word => a.1.length = x.bytes.length) ?_ fun a w ha => ?_
  · unfold State.homeLine
    rw [hx]
  · split
    · split
      · rw [length_putBytes, ha]
      · exact ha
    · exact ha

/-- A write of the device's is what the device reads of its line from then on, held or applied. -/
theorem devLine_devArrive {s : State} {l : LineId} {x : DepotLine} {ofs : Nat} {bs : List Byte} (hx : s.line? l = some x) :
    ((s.devArrive l ofs bs).devLine l).1 = putBytes (s.devLine l).1 ofs bs := by
  have hl : x.line = l := by simpa using List.find?_some hx
  unfold State.devArrive
  split
  · next hc =>
    simp only [Bool.and_eq_true, List.isEmpty_iff] at hc
    obtain ⟨⟨⟨-, hheld⟩, -⟩, -⟩ := hc
    have hplain : s.devLine l = s.homeLine l := by
      unfold State.devLine
      rw [hheld]
      rfl
    have hkeep : (s.applyLine l ofs bs fun _ => false).mem.held = s.mem.held := by
      unfold State.applyLine State.noticed
      rw [hx]
      refine foldl_keep (P := fun t : State => t.mem.held = s.mem.held) ?_ fun t pa ht => ht
      unfold State.onLine
      rw [hx]
    have hplain' : (s.applyLine l ofs bs fun _ => false).devLine l = (s.applyLine l ofs bs fun _ => false).homeLine l := by
      unfold State.devLine State.heldOn
      unfold State.heldOn at hheld
      rw [hkeep, hheld]
      rfl
    rw [hplain, hplain']
    unfold State.applyLine
    rw [hx]
    dsimp only
    rw [sameHome_noticed.homeLine, (homeLine_onLine hx hl).1]
    unfold State.homeLine
    rw [hx]
    rfl
  · unfold State.devLine State.heldOn
    dsimp only
    rw [List.filter_append, List.map_append, List.foldl_append]
    simp only [List.filter_singleton, decide_true, cond_true, List.map_cons, List.map_nil, List.foldl_cons, List.foldl_nil, if_true]
    rfl

theorem lineChunks_one (pa : Nat) : lineChunks pa 1 = [(pa, 1)] := by
  have h : min 1 (128 - pa % 128) = 1 := by omega
  simp [lineChunks, chunks, h]

/-- A byte that the device writes to a line of the depot reads back. -/
theorem devNat_devPut_byte {s : State} {pa v st e d : Nat} {x : DepotLine} (hd : s.decodeLocal pa true = .ok st e d)
    (hx : s.line? ⟨st, e, d / 128⟩ = some x) (hlen : x.bytes.length = 128) : (s.devPut pa 1 v).devNat pa 1 = v % 256 := by
  have hput : s.devPut pa 1 v = s.devArrive ⟨st, e, d / 128⟩ (d % 128) [BitVec.ofNat 8 v] := by
    unfold State.devPut State.devWrite
    rw [length_leBytes, lineChunks_one]
    simp [hd, leBytes]
  have hd' : (s.devPut pa 1 v).decodeLocal pa true = .ok st e d := by
    have h := onlyReads_devPut (s := s) (pa := pa) (n := 1) (x := v)
    rw [decodeLocal_congr h.slots h.tb h.ext, hd]
  unfold State.devNat State.devRead
  rw [lineChunks_one]
  simp only [List.foldl_cons, List.foldl_nil, hd', List.nil_append]
  rw [hput]
  have hline := length_devLine hx
  rw [hlen] at hline
  have hget : (putBytes (s.devLine ⟨st, e, d / 128⟩).1 (d % 128) [BitVec.ofNat 8 v])[d % 128]? = some (BitVec.ofNat 8 v) := by
    rw [getElem?_putBytes hline (Nat.mod_lt _ (by decide)), if_pos ⟨Nat.le_refl _, by simp⟩]
    simp
  have hone : ((putBytes (s.devLine ⟨st, e, d / 128⟩).1 (d % 128) [BitVec.ofNat 8 v]).drop (d % 128)).take 1
      = [BitVec.ofNat 8 v] := by
    rw [List.take_one, List.head?_drop, hget]
    rfl
  rw [devLine_devArrive hx, hone]
  simp [leNat]

end Sys2Proof.Machine
end

