-- ==== Sys2Proof/Proofs/TaskRecords.lean ====
section
/-! SUPPORT. Kernel and task records, and the grids that stand for them (R168, R280, R370 to R372). -/

namespace Sys2Proof.Machine

/-! Records. -/

theorem regionsBad_iff {b : List Byte} : regionsBad b 0x20 = true ↔ ¬ RegionsLegal b := by
  simp [regionsBad, RegionsLegal, fieldOf]

theorem regionsAt_eq (b : List Byte) : regionsAt b 0x20 = regionsOf b := rfl

/-- A kernel record is taken up as it stands exactly where it is legal (R168). -/
theorem ofBytes_legal {addr : Nat} {b : List Byte} (h : KernelLegal addr b) : Kernel.ofBytes addr b = some
    { addr := addr, entry := BitVec.ofNat 64 (fieldOf b 0 8), groups := fieldOf b 8 1, kclass := fieldOf b 9 1
      blocks := fieldOf b 10 1, optiles := fieldOf b 11 1, acctiles := fieldOf b 12 1, spbytes := fieldOf b 0x10 4
      liveCount := fieldOf b 0x14 4, liveTab := fieldOf b 0x18 8, regions := regionsOf b } := by
  obtain ⟨haddr, hg, hg', hk, hb, ho, hac, hz, hsp, hr⟩ := h
  have hreg : regionsBad b 0x20 = false := by
    rw [← Bool.not_eq_true, regionsBad_iff, not_not]
    exact hr
  unfold Kernel.ofBytes
  rw [if_neg]
  · rfl
  · unfold fieldOf at hg hg' hk hb ho hac hz hsp
    simp only [hreg, Bool.or_false, Bool.or_eq_true, decide_eq_true_eq, ne_eq, decide_not, Bool.not_eq_true', decide_eq_false_iff_not]
    omega

theorem ofBytes_illegal {addr : Nat} {b : List Byte} (h : ¬ KernelLegal addr b) : Kernel.ofBytes addr b = none := by
  unfold Kernel.ofBytes
  rw [if_pos]
  by_contra hc
  refine h ?_
  have hreg := regionsBad_iff (b := b)
  simp only [Bool.or_eq_true, decide_eq_true_eq, ne_eq, decide_not, Bool.not_eq_true', decide_eq_false_iff_not, not_or, not_not,
    hreg] at hc
  obtain ⟨⟨⟨⟨⟨⟨⟨⟨⟨haddr, hg⟩, hg'⟩, hk⟩, hb⟩, ho⟩, hac⟩, hz⟩, hsp⟩, hr⟩ := hc
  unfold KernelLegal fieldOf
  exact ⟨haddr, by omega, by omega, by omega, by omega, by omega, by omega, hz, hsp, hr⟩

/-- A task record is judged by R280. -/
theorem taskBad_iff {b : List Byte} {flags : Nat} : (TaskRec.ofBytes b flags).bad = true ↔ ¬ TaskLegal b flags := by
  have hreg := regionsBad_iff (b := b)
  have hbit : natBit (fieldOf b 0x0D 1) 0 = false ↔ fieldOf b 0x0D 1 % 2 = 0 := by
    simp [natBit]
  unfold TaskRec.ofBytes TaskLegal
  simp only [Bool.or_eq_true, Bool.and_eq_true, decide_eq_true_eq, ne_eq, decide_not, Bool.not_eq_true', decide_eq_false_iff_not,
    hreg, hbit]
  generalize RegionsLegal b = legal
  by_cases hr : legal
  · simp only [hr, not_true, and_false, or_false, implies_true, and_true]
    omega
  · simp only [hr, not_false_iff, and_true, imp_false]
    omega

/-! What fits an empty core (R19). -/

/-- Groups go round the sides (R375). -/
theorem sideGroups_eq (n side : Nat) (h : side < 4) : sideGroups n side = groupsOn n side := by
  unfold sideGroups groupsOn
  induction n with
  | zero => simp; omega
  | succ n ih =>
    rw [List.range_succ, List.countP_append, ← ih, List.countP_singleton]
    by_cases hn : n % 4 = side
    · simp only [hn, decide_true, if_true]
      omega
    · simp only [hn, decide_false, Bool.false_eq_true, if_false]
      omega

theorem fitsEmpty_iff {k : Kernel} : k.fitsEmpty = true ↔ FitsEmpty k := by
  unfold Kernel.fitsEmpty FitsEmpty
  simp only [Bool.and_eq_true, decide_eq_true_eq, List.all_eq_true, List.mem_range]
  refine and_congr_right fun _ => forall₂_congr fun i hi => ?_
  rw [sideGroups_eq _ _ hi, ite_mul, one_mul, and_assoc, and_assoc]

/-! Grids in the task table (R370 to R372). -/

theorem regionsMeet_iff {r q : Region} : regionsMeet r q = true ↔ Meet r q := by
  unfold regionsMeet Meet
  simp only [Bool.and_eq_true, Bool.or_eq_true, decide_eq_true_eq, ne_eq, decide_not, Bool.not_eq_true', decide_eq_false_iff_not]
  have (n : Nat) : ¬ n = 0 ↔ 0 < n := by omega
  rw [this, this]
  tauto

theorem mem_graph {s : State} {ctx : Nat} {parent : Option Nat} {u : Grid} : u ∈ s.graph ctx parent ↔
    u ∈ s.disp.grids ∧ u.retired = false ∧ u.sup = none ∧ u.parent = parent ∧ (parent = none → u.ctx = ctx) := by
  unfold State.graph
  simp only [List.mem_filter, Bool.and_eq_true, Bool.not_eq_true', Option.isNone_iff_eq_none, decide_eq_true_eq, Bool.or_eq_true]
  refine and_congr_right fun _ => ?_
  cases parent <;> simp [and_assoc]

/-- A grid stands in the task table as its task record asks. -/
theorem accept_accepted {s : State} {a : Accept} {b : List Byte} {flags : Nat} {k : Kernel} :
    ∃ e D, s.accept a (TaskRec.ofBytes b flags) k = (s.disp.nextGrid, { s with disp := D }) ∧ D.grids = s.disp.grids ++ [e]
      ∧ Accepted s e b k a.ctx a.parent a.cls a.depth ∧ e.root = a.root.getD e.id ∧ e.parentTeam = a.parentTeam
      ∧ e.mode = a.mode := by
  refine ⟨_, _, rfl, rfl, ⟨rfl, rfl, rfl, rfl, rfl, rfl, rfl, rfl, rfl, ?_, rfl, rfl, rfl, rfl, fun n => ?_⟩, rfl, rfl, rfl⟩
  · simp only [TaskRec.declared, TaskRec.ofBytes, natBit, regionsAt_eq, Nat.shiftRight_zero, beq_iff_eq]
  · simp only [List.mem_map, List.mem_filter, mem_graph, List.any_eq_true, regionsMeet_iff]
    constructor
    · rintro ⟨u, ⟨⟨hu, hret, hsup, hparent, hctx⟩, q, hq, r, hr, hmeet⟩, rfl⟩
      exact ⟨u, hu, rfl, hret, hsup, hparent, hctx, q, hq, r, hr, hmeet⟩
    · rintro ⟨u, hu, rfl, hret, hsup, hparent, hctx, q, hq, r, hr, hmeet⟩
      exact ⟨u, ⟨⟨hu, hret, hsup, hparent, hctx⟩, q, hq, r, hr, hmeet⟩, rfl⟩

end Sys2Proof.Machine
end

