-- ==== Sys2Proof/Proofs/GridAnswers.lean ====
section
/-! SUPPORT. GRID's turn at the Dispatcher, and the status pair that it answers (R281, R370). -/

namespace Sys2Proof.Machine

/-! The answer. -/

/-- GRID is answered `status` and `id`: its request has ended, the task table is `grids`, and of its group nothing differs but the
pair's registers and what waited for them. -/
def AnswersGrid (t : State) (g : Group) (r : Req) (status id : Nat) (grids : List Grid) : Prop :=
  ∃ g', t.req? r.id = none ∧ t.disp.grids = grids ∧ t.group? r.gid = some g'
    ∧ { g' with s := g.s, pend := g.pend, outrider := g.outrider } = g
    ∧ (∀ p, p ∈ g'.pend ↔ p ∈ g.pend ∧ p.ready ≠ .req r.id)
    ∧ ∀ k, rdS g' k = if k = r.reg then ⟨BitVec.ofNat 32 status, false⟩
        else if k = r.reg + 1 then ⟨BitVec.ofNat 32 id, false⟩ else rdS g k

/-- A return to uniform registers reaches its group wherever they are (R40). -/
theorem deliver_uniform {s : State} {r : Req} {g : Group} {ws : List TW} (hg : s.group? r.gid = some g) (he : g.ended = false)
    (hf : g.frame = none) :
    (s.deliver r true ws).req? r.id = none ∧ (s.deliver r true ws).disp = s.disp
      ∧ (s.deliver r true ws).group? r.gid = some (g.returned r (returnVals r true ws)) := by
  have hgid : ∀ x : Group, (x.returned r (returnVals r true ws)).gid = x.gid := fun x => putVals_gid x _
  have hgd : (s.dropReq r.id).group? r.gid = some g := hg
  unfold State.deliver
  dsimp only
  rw [hgd]
  dsimp only
  rw [he, hf]
  simp only [Bool.false_eq_true, if_false, lostReturn, Bool.not_true, Bool.false_and]
  split
  · exact ⟨req?_dropReq s r.id, rfl, group?_onGroup_same (s := (s.dropReq r.id).freshFetch g.core g.pasid) hgd hgid⟩
  · exact ⟨req?_dropReq s r.id, rfl, group?_onGroup_same hgd hgid⟩

/-- A pair of uniform registers that a return reaches. -/
theorem returned_pair (g : Group) (r : Req) (x y : TW) : ∃ o, g.returned r (returnVals r true [x, y]) = { g with
    s := (wrS (wrS g r.reg x) (r.reg + 1) y).s, pend := g.pend.filter fun p => p.ready ≠ .req r.id, outrider := o } :=
  ⟨_, rfl⟩

theorem gridDone_answers {s : State} {g : Group} {r : Req} {status id : Nat} (hg : s.group? r.gid = some g) (hcan : g.Canonical)
    (he : g.ended = false) (hf : g.frame = none) : AnswersGrid (gridDone s g r status id) g r status id s.disp.grids := by
  obtain ⟨hreq, hdisp, hgroup⟩ := deliver_uniform (s := s.readsDone g.pasid) (r := r)
    (ws := [⟨BitVec.ofNat 32 status, false⟩, ⟨BitVec.ofNat 32 id, false⟩]) hg he hf
  obtain ⟨-, -, hs, -⟩ := hcan
  obtain ⟨o, e⟩ := returned_pair g r ⟨BitVec.ofNat 32 status, false⟩ ⟨BitVec.ofNat 32 id, false⟩
  rw [e] at hgroup
  refine ⟨_, hreq, ?_, hgroup, rfl, fun p => by simp, fun k => ?_⟩
  · exact congrArg Disp.grids hdisp
  · have hpair : rdS (wrS (wrS g r.reg ⟨BitVec.ofNat 32 status, false⟩) (r.reg + 1) ⟨BitVec.ofNat 32 id, false⟩) k
        = if k = r.reg then ⟨BitVec.ofNat 32 status, false⟩
          else if k = r.reg + 1 then ⟨BitVec.ofNat 32 id, false⟩ else rdS g k := by
      rw [rdS_wrS _ _ _ (swf_sset _ _ _ _ hs), rdS_wrS _ _ _ hs]
      by_cases h0 : k = r.reg
      · rw [if_neg (by omega), if_pos h0, if_pos h0]
      · rw [if_neg h0, if_neg h0]
    exact hpair

/-! The turn. -/

theorem tableFull_iff {s : State} : s.tableFull = true ↔ 4096 ≤ s.disp.grids.countP fun d => !d.retired && d.sup.isNone := by
  unfold State.tableFull
  rw [decide_eq_true_eq, List.countP_eq_length_filter]

theorem gridReady_iff {s : State} {r : Req} : s.gridReady r = true ↔ s.performed r.gid r.lane r.seq .d = true
    ∧ ¬ 4096 ≤ (s.disp.grids.countP fun d => !d.retired && d.sup.isNone)
    ∧ ∀ q ∈ s.earlier r, ¬ (q.gid = r.gid ∧ q.kind = .record) := by
  unfold State.gridReady
  rw [Bool.and_eq_true, Bool.and_eq_true, Bool.not_eq_true', Bool.not_eq_true', ← Bool.not_eq_true, tableFull_iff,
    ← Bool.not_eq_true, List.any_eq_true, and_assoc]
  simp only [Bool.and_eq_true, decide_eq_true_eq, not_exists, not_and]

/-- The turn of a record that has come. -/
theorem loadReturn_record {s : State} {r : Req} {ext : Option ExtVal} (hr : s.req? r.id = some r) (hk : r.kind = .record)
    (hg : r.gid ≠ 0) (ha : r.accepted = true) : exec (.loadReturn r.id ext) s = .next (s.gridLaunch r) := by
  have hnone : canLoadReturn r.id s = none := by
    unfold canLoadReturn
    simp [hr, hk, ha]
  have hdo : doLoadReturn r.id ext s = s := by
    unfold doLoadReturn
    rw [hnone]
  have hrec : s.returnRecord r.id = s.gridLaunch r := by
    unfold State.returnRecord
    simp [hr, hk, hg, ha]
  have hnext : exec (.loadReturn r.id ext) s = .next ((doLoadReturn r.id ext s).returnRecord r.id) := rfl
  rw [hnext, hdo, hrec]

section
variable {s : State} {r : Req} {g : Group} {d : Grid} (hg : s.group? r.gid = some g) (hd : s.grid? g.grid = some d)
include hg hd

theorem gridLaunch_waits (h : s.gridReady r = false) : s.gridLaunch r = s := by
  unfold State.gridLaunch
  simp only [hg, hd, h, Bool.not_false, if_true]

/-- A task record that breaks R280, or has a tagged word. -/
def recordBad (r : Req) : Bool := (TaskRec.ofBytes r.bytes 1).bad || r.tags.any id || fieldOf r.bytes 0x0E 2 ≠ 0

omit hg hd in
theorem recordBad_iff : recordBad r = true ↔ ¬ (TaskLegal r.bytes 1 ∧ fieldOf r.bytes 0x0E 2 = 0 ∧ true ∉ r.tags) := by
  unfold recordBad
  rw [Bool.or_eq_true, Bool.or_eq_true, taskBad_iff]
  simp only [List.any_eq_true, id_eq, exists_eq_right, ne_eq, decide_not, Bool.not_eq_true', decide_eq_false_iff_not]
  tauto

/-- The record that names a kernel which a Dispatcher reads, in a state in which the group's release has been made. -/
theorem gridLaunch_eq (h : s.gridReady r = true) : s.gridLaunch r =
    if 10 ≤ d.depth then gridDone (s.clearMarks g.gid .d) g r 0x20 0
    else if recordBad r then gridDone (s.clearMarks g.gid .d) g r 0x22 0
    else match s.readKernel g.core g.pasid (fieldOf r.bytes 0 8) (g.ctx = 0) with
      | .wait u => u
      | .bad u => gridDone (u.clearMarks g.gid .d) g r 0x22 0
      | .ok k =>
        if !k.fitsEmpty then gridDone (s.clearMarks g.gid .d) g r 0x21 0
        else
          let x := (s.clearMarks g.gid .d).accept
            { ctx := g.ctx, parent := some d.id, parentTeam := some g.team, root := some d.root, depth := d.depth + 1
              cls := max (fieldOf r.bytes 0x0C 1) d.cls, mode := d.mode } (TaskRec.ofBytes r.bytes 1) k
          gridDone x.2 g r 0 x.1 := by
  unfold State.gridLaunch
  simp only [hg, hd, h, Bool.not_true, Bool.false_eq_true, if_false]
  rfl

variable (hcan : g.Canonical) (he : g.ended = false) (hf : g.frame = none) (hready : s.gridReady r = true)
include hcan he hf hready

theorem gridLaunch_deep (h : 10 ≤ d.depth) : AnswersGrid (s.gridLaunch r) g r 0x20 0 s.disp.grids := by
  rw [gridLaunch_eq hg hd hready, if_pos h]
  exact gridDone_answers (s := s.clearMarks g.gid .d) hg hcan he hf

variable (hdepth : d.depth < 10)
include hdepth

theorem gridLaunch_bad (h : recordBad r = true) : AnswersGrid (s.gridLaunch r) g r 0x22 0 s.disp.grids := by
  rw [gridLaunch_eq hg hd hready, if_neg (by omega), if_pos h]
  exact gridDone_answers (s := s.clearMarks g.gid .d) hg hcan he hf

variable (hgood : ¬ recordBad r = true)
include hgood

omit hcan he hf in
theorem gridLaunch_reads {u : State} (h : s.readKernel g.core g.pasid (fieldOf r.bytes 0 8) (g.ctx = 0) = .wait u) :
    s.gridLaunch r = u := by
  rw [gridLaunch_eq hg hd hready, if_neg (by omega), if_neg hgood, h]

theorem gridLaunch_unread {u : State} (h : s.readKernel g.core g.pasid (fieldOf r.bytes 0 8) (g.ctx = 0) = .bad u) :
    AnswersGrid (s.gridLaunch r) g r 0x22 0 s.disp.grids := by
  have hu := readKernel_bad h
  rw [gridLaunch_eq hg hd hready, if_neg (by omega), if_neg hgood, h, ← hu.disp]
  exact gridDone_answers (s := u.clearMarks g.gid .d) ((hu.group? _).trans hg) hcan he hf

variable {k : Kernel} (hread : s.readKernel g.core g.pasid (fieldOf r.bytes 0 8) (g.ctx = 0) = .ok k)
include hread

theorem gridLaunch_large (h : ¬ FitsEmpty k) : AnswersGrid (s.gridLaunch r) g r 0x21 0 s.disp.grids := by
  have hfits : k.fitsEmpty = false := by
    rw [← Bool.not_eq_true, fitsEmpty_iff]
    exact h
  rw [gridLaunch_eq hg hd hready, if_neg (by omega), if_neg hgood, hread]
  dsimp only
  rw [hfits]
  exact gridDone_answers (s := s.clearMarks g.gid .d) hg hcan he hf

/-- A GRID that is accepted puts its grid into the task table and is answered 0 and the grid's number. -/
theorem gridLaunch_accepted (h : FitsEmpty k) : ∃ e, AnswersGrid (s.gridLaunch r) g r 0 s.disp.nextGrid (s.disp.grids ++ [e])
    ∧ Accepted s e r.bytes k g.ctx (some d.id) (max (fieldOf r.bytes 0x0C 1) d.cls) (d.depth + 1) ∧ e.root = d.root
    ∧ e.parentTeam = some g.team ∧ e.mode = d.mode := by
  obtain ⟨e, D, hacc, hgrids, hasked, hroot, hteam, hmode⟩ := accept_accepted (s := s.clearMarks g.gid .d)
    (a := { ctx := g.ctx, parent := some d.id, parentTeam := some g.team, root := some d.root, depth := d.depth + 1
            cls := max (fieldOf r.bytes 0x0C 1) d.cls, mode := d.mode }) (b := r.bytes) (flags := 1) (k := k)
  refine ⟨e, ?_, hasked, hroot, hteam, hmode⟩
  rw [gridLaunch_eq hg hd hready, if_neg (by omega), if_neg hgood, hread]
  dsimp only
  rw [fitsEmpty_iff.2 h, hacc]
  have hans := gridDone_answers (s := { s.clearMarks g.gid .d with disp := D }) (status := 0) (id := s.disp.nextGrid) hg hcan he hf
  rw [show ({ s.clearMarks g.gid .d with disp := D } : State).disp.grids = s.disp.grids ++ [e] from hgrids] at hans
  exact hans

end

end Sys2Proof.Machine
end

