-- ==== Sys2Proof/Proofs/GridWord.lean ====
section
/-! SUPPORT. A request of a word's in flight, at a peer too (R26, R281, R418, R420). -/

namespace Sys2Proof.Machine

/-! What waits for an earlier request. -/

section
variable {l : List Req} {n : Nat} (hl : ∀ q ∈ l, q.id < n)
include hl

/-- The requests before a newest one are all the others. -/
theorem takeWhile_newest {q : Req} (hq : q.id = n) : (l ++ [q]).takeWhile (fun x => decide (x.id ≠ n)) = l := by
  have hall : ∀ x ∈ l, decide (x.id ≠ n) = true := fun x hx => by simpa using Nat.ne_of_lt (hl x hx)
  rw [List.takeWhile_append_of_pos hall]
  simp [hq]

omit hl in
/-- The requests before one of a list are not what stands after the list. -/
theorem takeWhile_among {x q : Req} (hx : x ∈ l) :
    (l ++ [q]).takeWhile (fun y => decide (y.id ≠ x.id)) = l.takeWhile fun y => decide (y.id ≠ x.id) := by
  induction l with
  | nil => cases hx
  | cons y l ih =>
    rw [List.cons_append, List.takeWhile_cons, List.takeWhile_cons]
    by_cases hy : y.id = x.id
    · simp [hy]
    · simp only [ne_eq, hy, not_false_iff, decide_true, if_true]
      rcases List.mem_cons.1 hx with rfl | hx
      · exact absurd rfl hy
      · rw [ih hx]

/-- Whether a newest request to a peer waits rests on the requests before it alone. -/
theorem reqWaits_newest {s t : State} {q : Req} {k ofs : Nat} {nc b b' : Bool} (hq : q.id = n) (hp : q.place = .peer k ofs nc)
    (hrel : q.rel = false) (hs : s.eng.reqs = l ++ [{ q with sent := b }]) (ht : t.eng.reqs = l ++ [{ q with sent := b' }]) :
    t.reqWaits q = s.reqWaits q := by
  subst hq
  have hes : s.earlier q = l := by
    unfold State.earlier
    rw [hs]
    exact takeWhile_newest hl rfl
  have het : t.earlier q = l := by
    unfold State.earlier
    rw [ht]
    exact takeWhile_newest hl rfl
  have hx : ∀ x ∈ l, t.earlier x = s.earlier x := by
    intro x hx
    unfold State.earlier
    rw [hs, ht, takeWhile_among hx, takeWhile_among hx]
  have hbehind : t.behindRelease q = s.behindRelease q := by
    unfold State.behindRelease
    rw [hp, hes, het]
    dsimp only
    rw [Bool.eq_iff_iff, List.any_eq_true, List.any_eq_true]
    refine exists_congr fun x => and_congr_right fun hxl => ?_
    rw [hx x hxl]
  have hswitch (u : State) : u.behindSwitch q = false := by
    unfold State.behindSwitch
    rw [hp]
    rfl
  unfold State.reqWaits
  rw [hes, het, hrel, hbehind, hswitch, hswitch]
  rfl

end

/-! A request goes out. -/

/-- A request to a peer changes what the fabric's interface has out, and what has been sent. -/
theorem sendPeer_frame (s : State) (n : Nat) (w : FabWork) (p : FabPlace) : ∃ seqs out sent,
    s.sendPeer n w p = { s with fab := { s.fab with seqs := seqs, out := out }, sent := sent } := by
  unfold State.sendPeer State.depart
  dsimp only
  split
  · split <;> exact ⟨_, _, _, rfl⟩
  · exact ⟨_, _, _, rfl⟩

/-- The state in which `q` is in flight, the newest of the requests, its group changed by `f`. -/
def State.flies (s : State) (q : Req) (f : Group → Group) (seqs : SMap Nat) (out : List FabReq) (sent : List HostMsg) : State :=
  { s.onGroup s.cur.gid f with
    nextId := s.nextId + 1, eng := { s.eng with reqs := s.eng.reqs ++ [q] }
    fab := { s.fab with seqs := seqs, out := out }, sent := sent }

/-- The registers of a request wait for it. -/
def Group.pends (n : Nat) (regs : List RegName) (g : Group) : Group :=
  { g with pend := g.pend ++ regs.map fun x => ⟨x, .req n, .global_⟩ }

/-- A read that a word puts in flight: it has gone out if it goes to a peer and nothing holds it back (R99, R100, R126). -/
theorem putReq_flies {s : State} {g : Group} {a : Acc} {r : Req} {regs : List RegName} (hg : g.gid = s.cur.gid)
    (hids : ∀ q ∈ s.eng.reqs, q.id < s.nextId) (hm : r.kind.marks = false) (hp : r.place = a.place) (hrel : r.rel = false)
    (hsent : r.sent = false) : ∃ b seqs out sent,
      s.putReq g a r regs = s.flies { r with id := s.nextId, sent := b } (Group.pends s.nextId regs) seqs out sent
        ∧ (b = true ↔ (∃ k ofs nc, r.place = .peer k ofs nc)
          ∧ (s.putReq g a r regs).reqWaits { r with id := s.nextId, sent := b } = false) := by
  have hplain : s.flies { r with id := s.nextId } (Group.pends s.nextId regs) s.fab.seqs s.fab.out s.sent =
      { s.onGroup g.gid (Group.pends s.nextId regs) with
        nextId := s.nextId + 1, eng := { s.eng with reqs := s.eng.reqs ++ [{ r with id := s.nextId }] } } := by
    rw [hg]
    rfl
  have hown : ({ r with id := s.nextId } : Req) = { r with id := s.nextId, sent := false } := by rw [← hsent]
  by_cases hpeer : ∃ k ofs nc, r.place = .peer k ofs nc
  · obtain ⟨k, ofs, nc, hpl⟩ := hpeer
    generalize hv : ({ s.onGroup g.gid (Group.pends s.nextId regs) with
        nextId := s.nextId + 1, eng := { s.eng with reqs := s.eng.reqs ++ [{ r with id := s.nextId }] } } : State) = v at hplain
    have hreqs : v.eng.reqs = s.eng.reqs ++ [{ r with id := s.nextId, sent := false }] := by rw [← hv, ← hown]
    have hput : s.putReq g a r regs = v.sendReq { r with id := s.nextId } := by
      unfold State.putReq
      dsimp only
      rw [hp.symm.trans hpl, hm, ← hv]
      rfl
    have hsend : v.sendReq { r with id := s.nextId } = if v.reqWaits { r with id := s.nextId } then v
        else (v.onReq s.nextId fun q => { q with sent := true }).sendPeer k (.req s.nextId) ⟨r.va, ofs, nc, r.res⟩ := by
      unfold State.sendReq
      simp only [hpl, hsent, Bool.false_or]
    cases hw : v.reqWaits { r with id := s.nextId }
    · rw [hw, if_neg Bool.false_ne_true] at hsend
      obtain ⟨seqs, out, sent, e⟩ := sendPeer_frame (v.onReq s.nextId fun q => { q with sent := true }) k (.req s.nextId)
        ⟨r.va, ofs, nc, r.res⟩
      have hmark : (v.onReq s.nextId fun q => { q with sent := true }).eng.reqs =
          s.eng.reqs ++ [{ r with id := s.nextId, sent := true }] := by
        unfold State.onReq
        dsimp only
        rw [hreqs, List.map_append]
        congr 1
        · refine (List.map_congr_left fun q hq => if_neg (Nat.ne_of_lt (hids q hq))).trans (List.map_id' _)
        · simp
      have hfly : s.putReq g a r regs =
          s.flies { r with id := s.nextId, sent := true } (Group.pends s.nextId regs) seqs out sent := by
        rw [hput, hsend, e]
        unfold State.flies
        rw [← hmark, ← hg, ← hv]
        rfl
      refine ⟨true, seqs, out, sent, hfly, ?_⟩
      simp only [true_iff]
      refine ⟨⟨k, ofs, nc, hpl⟩, ?_⟩
      rw [hfly]
      exact (reqWaits_newest hids (q := { r with id := s.nextId }) rfl hpl hrel hreqs rfl).trans hw
    · rw [hw, if_pos rfl] at hsend
      have hfly : s.putReq g a r regs =
          s.flies { r with id := s.nextId, sent := false } (Group.pends s.nextId regs) s.fab.seqs s.fab.out s.sent := by
        rw [← hown, hplain, hput, hsend]
      refine ⟨false, _, _, _, hfly, ?_⟩
      simp only [Bool.false_eq_true, false_iff, not_and, Bool.not_eq_false]
      intro _
      rw [hput, hsend, ← hown]
      exact hw
  · have hput : s.putReq g a r regs = s.flies { r with id := s.nextId } (Group.pends s.nextId regs) s.fab.seqs s.fab.out s.sent := by
      rw [hplain]
      unfold State.putReq
      dsimp only
      rw [← hp]
      split
      · next k ofs nc h => exact absurd ⟨k, ofs, nc, h⟩ hpeer
      · rfl
    refine ⟨false, _, _, _, hput.trans (by rw [← hown]), ?_⟩
    simp only [Bool.false_eq_true, false_iff, not_and]
    exact fun h => absurd h hpeer

/-- The next issue's number, and the lanes on. -/
def Group.issued (c : Cur) (g : Group) : Group := ({ g with seq := g.seq + 1 } : Group).advance c 0

theorem flies_goes {s : State} {q : Req} {f : Group → Group} {seqs : SMap Nat} {out : List FabReq} {sent : List HostMsg}
    (hf : ∀ x, (f x).gid = x.gid) : ((s.flies q f seqs out sent).bumpSeq s.cur.gid).go 0 =
      s.flies q (fun x => (f x).issued s.cur) seqs out sent := by
  unfold State.go State.bumpSeq State.flies State.onGroup
  dsimp only
  rw [List.map_map, List.map_map]
  congr 2
  funext x
  dsimp only [Function.comp]
  by_cases hx : x.gid = s.cur.gid
  · simp [hx, hf, Group.issued]
  · simp [hx]

/-- A word that puts one read in flight and goes on does nothing else. -/
theorem putsInFlight_one {i : Instr} {s : State} {g : Group} {x : Acc} {r : Req} {regs : List RegName}
    (hg : s.group? s.cur.gid = some g) (hlen : g.lanes.length = 32)
    (hexec : exec i s = .next (((s.putReq g x r regs).bumpSeq g.gid).go 0)) (hm : r.kind.marks = false)
    (hp : r.place = x.place) (hrel : r.rel = false) (hsent : r.sent = false) :
    PutsInFlight i s [{ r with id := s.nextId }] [] fun _ g' =>
      { g' with lanes := g.lanes, pend := g.pend } = { g with seq := g.seq + 1 } ∧ MovesOn s.cur 0 g g'
        ∧ ∀ n ∈ regs, ⟨n, .req s.nextId, .global_⟩ ∈ g'.pend := by
  intro hids
  have hgid := group?_gid hg
  obtain ⟨b, seqs, out, sent, hfly, hb⟩ := putReq_flies (regs := regs) hgid hids hm hp hrel hsent
  have hgoes := flies_goes (s := s) (q := { r with id := s.nextId, sent := b }) (f := Group.pends s.nextId regs) (seqs := seqs)
    (out := out) (sent := sent) fun _ => rfl
  rw [hgid, hfly, hgoes] at hexec
  refine ⟨_, ((g.pends s.nextId regs).issued s.cur), hexec, rfl, rfl, rfl, fun _ _ => rfl,
    ⟨[{ r with id := s.nextId, sent := b }], rfl, ?_, ?_⟩, (List.append_nil _).symm, fun k hk => ?_, ?_, rfl, ?_, ?_⟩
  · rw [List.map_singleton, ← hsent]
  · intro q hq
    obtain rfl := List.mem_singleton.1 hq
    refine hb.trans (and_congr_right fun ⟨k, ofs, nc, hpl⟩ => ?_)
    rw [hfly]
    have hnew := reqWaits_newest (s := s.flies { r with id := s.nextId, sent := b } (Group.pends s.nextId regs) seqs out sent)
      (t := s.flies { r with id := s.nextId, sent := b } (fun x => (Group.pends s.nextId regs x).issued s.cur) seqs out sent)
      (q := { r with id := s.nextId, sent := b }) hids rfl hpl hrel rfl rfl
    rw [hnew]
  · exact group?_onGroup_other (f := fun x => (Group.pends s.nextId regs x).issued s.cur) (fun _ => rfl) hk
  · exact group?_onGroup_same (f := fun x => (Group.pends s.nextId regs x).issued s.cur) hg fun _ => rfl
  · exact advance_movesOn ({ g.pends s.nextId regs with seq := g.seq + 1 } : Group) s.cur 0 hlen
  · intro n hn
    exact List.mem_append_right _ (List.mem_map_of_mem hn)

theorem PutsInFlight.imp {i : Instr} {s : State} {rs : List Req} {ops : List Op} {P Q : State → Group → Prop}
    (h : PutsInFlight i s rs ops P) (hpq : ∀ t g, P t g → Q t g) : PutsInFlight i s rs ops Q := by
  intro hids
  obtain ⟨t, g', hnext, hrest, hmem, hfab, hl1, hout, hops, hother, hself, hP⟩ := h hids
  exact ⟨t, g', hnext, hrest, hmem, hfab, hl1, hout, hops, hother, hself, hpq t g' hP⟩

/-! GRID (R34, R281, R370). -/

section
variable {o : EForm} {s : State} {g : Group}

theorem grid_unleading (hg : GoesAhead (.grid o) o.g s g) (ha : activeOf g s.cur o.g ≠ 0)
    (hn : ¬ (activeOf g s.cur o.g = 1 ∧ g.groupId = 0)) (ht : g.trap = none) :
    Traps (.grid o) s g ⟨0x05, lowest (activeOf g s.cur o.g), 0, 0⟩ := by
  obtain ⟨-, hcur, -⟩ := hg
  refine execChecked_traps (chk := launchTrap) (f := gridEffect o) rfl hcur ht ?_
  unfold launchTrap
  rw [if_neg]
  simp only [Bool.or_eq_true, Bool.and_eq_true, decide_eq_true_eq, not_or]
  exact ⟨ha, hn⟩

/-- GRID of lane 0 of a team's leader has its effect. -/
theorem grid_runs (hg : GoesAhead (.grid o) o.g s g) (ha : activeOf g s.cur o.g = 1) (hl : g.groupId = 0) :
    exec (.grid o) s = .next (gridEffect o s g 1) := by
  have hchk : launchTrap g (activeOf g s.cur o.g) = none := by
    simp [launchTrap, ha, hl]
  have h := execChecked_runs (f := gridEffect o) hg hchk
  rw [ha, if_neg (by decide)] at h
  exact h

theorem gridEffect_full (h : s.tableFull = true) (act : Word) : gridEffect o s g act = s := by
  unfold gridEffect
  simp [h]

variable (hroom : s.tableFull = false) (htags : ∀ n, RegName.s n ∈ (Instr.grid o).reads → (rdS g n).tag = false)
include hroom htags

/-- GRID with room in the task table and no poison reads its record, which is aligned to 128 bytes. -/
theorem gridEffect_reads : gridEffect o s g 1 =
    if uniPair g o.e2 % 128 ≠ 0 then raise s (addrTrap 0x09 0 (uniPair g o.e2))
    else s.withAccess g 1 .read false (fun _ => uniPair g o.e2) fun as => match as with
      | x :: _ => ((s.putReq g x (baseReq g s.cur x .record 128 o.e1.toNat) [.s o.e1.toNat, .s (o.e1.toNat + 1)]).bumpSeq g.gid).go 0
      | [] => s := by
  have hpoison : (Instr.grid o).reads.any (regPoison g) = false := by
    refine List.any_eq_false.2 fun r hr => ?_
    cases r with
    | s n =>
      have hn : regPoison g (.s n) = false := htags n hr
      simp [hn]
    | _ => simp [regPoison]
  unfold gridEffect
  simp only [hroom, hpoison, Bool.false_eq_true, if_false] <;> rfl

theorem grid_misaligned (hg : GoesAhead (.grid o) o.g s g) (ha : activeOf g s.cur o.g = 1) (hl : g.groupId = 0)
    (hmis : uniPair g o.e2 % 128 ≠ 0) (ht : g.trap = none) :
    Traps (.grid o) s g ⟨0x09, 0, uniPair g o.e2 % 2 ^ 54, uniPair g o.e2⟩ := by
  have hrun := grid_runs hg ha hl
  obtain ⟨-, hcur, -⟩ := hg
  rw [gridEffect_reads hroom htags, if_pos hmis] at hrun
  exact traps_of_raise hrun hcur ht

theorem grid_putsInFlight {x : Acc} (hg : GoesAhead (.grid o) o.g s g) (ha : activeOf g s.cur o.g = 1) (hl : g.groupId = 0)
    (haligned : uniPair g o.e2 % 128 = 0) (hx : s.resolveAll g .read false (fun _ => uniPair g o.e2) [0] = .ok [x]) :
    PutsInFlight (.grid o) s [{ baseReq g s.cur x .record 128 o.e1.toNat with id := s.nextId }] [] fun _ g' =>
      { g' with lanes := g.lanes, pend := g.pend } = { g with seq := g.seq + 1 } ∧ MovesOn s.cur 0 g g'
        ∧ ∀ i < 2, ⟨.s (o.e1.toNat + i), .req s.nextId, .global_⟩ ∈ g'.pend := by
  have hrun := grid_runs hg ha hl
  obtain ⟨-, hcur, ⟨hlen, -⟩, -⟩ := hg
  have hlane : lanesOf 1#32 = [0] := by decide
  have hread : s.withAccess g 1 .read false (fun _ => uniPair g o.e2) (fun as => match as with
      | x :: _ => ((s.putReq g x (baseReq g s.cur x .record 128 o.e1.toNat) [.s o.e1.toNat, .s (o.e1.toNat + 1)]).bumpSeq g.gid).go 0
      | [] => s) = ((s.putReq g x (baseReq g s.cur x .record 128 o.e1.toNat) [.s o.e1.toNat, .s (o.e1.toNat + 1)]).bumpSeq
        g.gid).go 0 := by
    unfold State.withAccess
    rw [show lanesOf 1 = [0] from hlane, hx]
  rw [gridEffect_reads hroom htags, if_neg (not_not.2 haligned), hread] at hrun
  refine (putsInFlight_one hcur hlen hrun rfl rfl rfl rfl).imp fun t g' ⟨hrest, hmoves, hpend⟩ => ⟨hrest, hmoves, fun i hi => ?_⟩
  refine hpend _ ?_
  obtain rfl | rfl : i = 0 ∨ i = 1 := by omega
  · simp
  · simp

end

end Sys2Proof.Machine
end

