-- ==== Sys2Proof/Proofs/PostBox.lean ====
section
/-! O53: posts, and the tasks that become grids (R34, R168, R280, R281, R367 to R372). -/

namespace Sys2Proof.Machine

/-! POSTSTAT (R368). -/

/-- POSTSTAT of a context stands in a line of the depot. -/
def StatLaid (s : State) (ctx : Nat) : Prop :=
  ∃ st e d x, s.decodeLocal (s.postPage ctx + 0x0E) true = .ok st e d ∧ s.line? ⟨st, e, d / 128⟩ = some x ∧ x.bytes.length = 128

/-- A status that is written into POSTSTAT is read there, and the task table is as it was. -/
theorem postStat_status {s : State} {ctx v : Nat} (h : StatLaid s ctx) (hv : v < 256) :
    (s.postStat ctx v).devNat (s.postPage ctx + 0x0E) 1 = v ∧ (s.postStat ctx v).disp = s.disp := by
  obtain ⟨st, e, d, x, hd, hx, hlen⟩ := h
  refine ⟨?_, onlyReads_devPut.disp⟩
  unfold State.postStat
  rw [devNat_devPut_byte hd hx hlen, Nat.mod_eq_of_lt hv]

theorem StatLaid.of_laid {s : State} {ctx : Nat} (hs : s.Canonical) (h : Laid s ((s.ctx ctx).frameArea + 0x0E) 1) :
    StatLaid s ctx := by
  obtain ⟨-, -, -, hdepot, -⟩ := hs
  obtain ⟨st, e, d, hd, -, hline, -⟩ := h 0 (by decide)
  obtain ⟨x, hx⟩ := Option.isSome_iff_exists.1 hline
  exact ⟨st, e, d, x, hd, hx, hdepot x (List.mem_of_find?_eq_some hx)⟩

theorem StatLaid.of_reads {s u : State} {ctx : Nat} (h : StatLaid s ctx) (hu : OnlyReads s u) (hc : u.Canonical) :
    StatLaid u ctx := by
  obtain ⟨-, -, -, hdepot, -⟩ := hc
  obtain ⟨st, e, d, x, hd, hx, -⟩ := h
  obtain ⟨y, hy⟩ := Option.isSome_iff_exists.1 (hu.line ⟨st, e, d / 128⟩ (by rw [hx]; rfl))
  refine ⟨st, e, d, y, ?_, hy, hdepot y (List.mem_of_find?_eq_some hy)⟩
  unfold State.postPage at hd ⊢
  rw [hu.ctx, decodeLocal_congr hu.slots hu.tb hu.ext]
  exact hd

/-! POST_BOX_TAKE (R368, R369). -/

section
variable {s : State} {ctx : Nat}

theorem postBox_unseen (h : Watch.post ctx ∉ s.mem.watch) : exec (.postBoxTake ctx) s = .next s := by
  have hnone : s.watches (fun w => w = .post ctx) = none := by
    refine List.find?_eq_none.2 fun w hw hc => ?_
    rw [of_decide_eq_true hc] at hw
    exact h hw
  have hdo : doPostBoxTake ctx s = s := by
    unfold doPostBoxTake
    rw [hnone]
  have hnext : exec (.postBoxTake ctx) s = .next (doPostBoxTake ctx s) := rfl
  rw [hnext, hdo]

variable (hseen : Watch.post ctx ∈ s.mem.watch)
include hseen

/-- What a write into a post box comes to. -/
theorem postBox_seen : exec (.postBoxTake ctx) s = .next (
    if s.devNat (s.postPage ctx + 0x0E) 1 ≠ 0xFF then s.unwatch (.post ctx)
    else if s.tableFull then s
    else match s.readPost ctx with
      | .error u => u
      | .ok u => u.takePost ctx) := by
  have hsome : s.watches (fun w => w = .post ctx) = some (.post ctx) := by
    obtain ⟨w, hw⟩ := Option.isSome_iff_exists.1 (List.find?_isSome.2 ⟨_, hseen, decide_eq_true rfl⟩ :
      (s.mem.watch.find? fun w => decide (w = .post ctx)).isSome = true)
    have hpost : w = .post ctx := by simpa using List.find?_some hw
    exact hw.trans (congrArg some hpost)
  have hnext : exec (.postBoxTake ctx) s = .next (doPostBoxTake ctx s) := rfl
  rw [hnext]
  unfold doPostBoxTake
  rw [hsome] <;> rfl

theorem postBox_empty (h : s.devNat (s.postPage ctx + 0x0E) 1 ≠ 0xFF) :
    exec (.postBoxTake ctx) s = .next (s.unwatch (.post ctx)) := by
  rw [postBox_seen hseen, if_pos h]

variable (hposted : s.devNat (s.postPage ctx + 0x0E) 1 = 0xFF)
include hposted

theorem postBox_full (hfull : s.tableFull = true) : exec (.postBoxTake ctx) s = .next s := by
  rw [postBox_seen hseen, if_neg (not_not.2 hposted), if_pos hfull]

variable (hroom : ¬ s.tableFull = true)
include hroom

theorem postBox_away (h : s.devAway (s.postPage ctx) 128 = true) :
    exec (.postBoxTake ctx) s = .next (s.devAwait (s.postPage ctx) 128) := by
  have hread : s.readPost ctx = .error (s.devAwait (s.postPage ctx) 128) := by
    simp only [State.readPost, State.devFetch, h, if_true]
  rw [postBox_seen hseen, if_neg (not_not.2 hposted), if_neg hroom, hread]

/-- A post that can be read is judged. -/
theorem postBox_takes (hpage : Readable s (s.postPage ctx) 128) (hctx : Readable s (s.sup.ctxTab.toNat + 256 * (ctx + 1)) 256) :
    exec (.postBoxTake ctx) s = .next (s.takePost ctx) := by
  obtain ⟨haway, htouch⟩ := hpage
  obtain ⟨haway', htouch'⟩ := hctx
  have hread : s.readPost ctx = .ok s := by
    simp only [State.readPost, State.devFetch, haway, haway', htouch, htouch', Bool.false_eq_true, if_false]
    rfl
  rw [postBox_seen hseen, if_neg (not_not.2 hposted), if_neg hroom, hread]

end

/-! A post is judged. -/

section
variable {s : State} {ctx : Nat}

theorem contextBad_of {rec_ : List Byte × Bool} (hrec : s.devRead (s.sup.ctxTab.toNat + 256 * (ctx + 1)) 256 = rec_)
    (h : natBit (fieldOf rec_.1 4 4) 31 = false ∨ 65534 < ctx ∨ 2 ^ 20 ≤ fieldOf rec_.1 0 4 ∨ fieldOf rec_.1 0x10 8 % 4096 ≠ 0
      ∨ fieldOf rec_.1 0x18 8 % 4096 ≠ 0 ∨ rec_.2 = true) : s.contextBad ctx = true := by
  unfold State.contextBad
  rw [hrec]
  obtain ⟨b, t⟩ := rec_
  dsimp only at h ⊢
  rcases h with h | h | h | h | h | h
  · simp [h]
  · simp [h]
  · have h' : 1048576 ≤ fieldOf b 0 4 := h
    simp [h']
  · simp [h]
  · simp [h]
  · simp [h]

theorem takePost_badContext (h : s.contextBad ctx = true) : s.takePost ctx = s.postStat ctx 0x23 := by
  unfold State.takePost
  simp only [h, if_true]

theorem takePost_tagged (h : s.contextBad ctx = false) (ht : (s.devRead (s.postPage ctx) 128).2 = true) :
    s.takePost ctx = s.postStat ctx 0x22 := by
  have hrec : s.postRecord ctx = (none, none) := by
    unfold State.postRecord
    simp only [ht, if_true]
  unfold State.takePost
  simp only [h, Bool.false_eq_true, if_false, hrec]

theorem postMode_plain {flags : Nat} (h : flags ≤ 1) : postMode flags = .plain := by
  obtain rfl | rfl : flags = 0 ∨ flags = 1 := by omega
  · rfl
  · rfl

theorem acceptRoot_plain (b : List Byte) (e : Option LogEntry) (t : TaskRec) (k : Kernel) : s.acceptRoot ctx .plain b e t k =
    ((s.accept { ctx := ctx, parent := none, parentTeam := none, root := none, depth := 1, cls := t.cls, mode := .plain } t
      k).2).postStat ctx 0 := rfl

/-- A plain post of a context that stands: its task record is judged, and its kernel record then. -/
theorem takePost_plain (h : s.contextBad ctx = false) (ht : (s.devRead (s.postPage ctx) 128).2 = false)
    (hflags : s.devNat (s.postPage ctx + 0x0D) 1 = fieldOf (s.devRead (s.postPage ctx) 128).1 0x0D 1)
    (hplain : s.devNat (s.postPage ctx + 0x0D) 1 ≤ 1) (hzero : fieldOf (s.devRead (s.postPage ctx) 128).1 0x0F 1 = 0) :
    s.takePost ctx =
      let t := TaskRec.ofBytes (s.devRead (s.postPage ctx) 128).1 7
      if t.bad then s.postStat ctx 0x22
      else match s.readKernel 0 (s.ctx ctx).pasid t.kernel (ctx = 0) with
        | .wait u => u
        | .bad u => (u.readsDone (u.ctx ctx).pasid).postStat ctx 0x22
        | .ok k =>
          if k.fitsEmpty then (((s.readsDone (s.ctx ctx).pasid).accept
            { ctx := ctx, parent := none, parentTeam := none, root := none, depth := 1, cls := t.cls, mode := .plain } t
              k).2).postStat ctx 0
          else (s.readsDone (s.ctx ctx).pasid).postStat ctx 0x21 := by
  have hmode : postMode (fieldOf (s.devRead (s.postPage ctx) 128).1 0x0D 1) = .plain := postMode_plain (by omega)
  have hrec : s.postRecord ctx = (some (s.devRead (s.postPage ctx) 128).1, none) := by
    unfold State.postRecord
    simp only [ht, Bool.false_eq_true, if_false, hmode]
    rfl
  have hlow : decide (6 ≤ s.devNat (s.postPage ctx + 0x0D) 1) = false := decide_eq_false (by omega)
  unfold State.takePost
  simp only [h, Bool.false_eq_true, if_false, hrec, postMode_plain hplain, hlow, hzero, Bool.or_false, ne_eq, not_true,
    decide_false, Bool.false_and, Bool.and_false, acceptRoot_plain] <;> rfl

end

/-! The statuses of a plain post. -/

/-- A post is answered `v`, and the task table is `grids`. -/
def Posts (t : State) (s : State) (ctx v : Nat) (grids : List Grid) : Prop :=
  t.devNat (s.postPage ctx + 0x0E) 1 = v ∧ t.disp.grids = grids

theorem posts_of_postStat {s u : State} {ctx v : Nat} (hu : StatLaid u ctx) (hpage : u.postPage ctx = s.postPage ctx)
    (hv : v < 256) : Posts (u.postStat ctx v) s ctx v u.disp.grids := by
  obtain ⟨hstat, hdisp⟩ := postStat_status hu hv
  rw [hpage] at hstat
  exact ⟨hstat, congrArg Disp.grids hdisp⟩

section
variable {s : State} {ctx : Nat} (hs : s.Canonical) (hlaid : StatLaid s ctx) (hbad : s.contextBad ctx = false)
  (htag : (s.devRead (s.postPage ctx) 128).2 = false)
  (hflags : s.devNat (s.postPage ctx + 0x0D) 1 = fieldOf (s.devRead (s.postPage ctx) 128).1 0x0D 1)
  (hplain : s.devNat (s.postPage ctx + 0x0D) 1 ≤ 1) (hzero : fieldOf (s.devRead (s.postPage ctx) 128).1 0x0F 1 = 0)
include hlaid hbad htag hflags hplain hzero

theorem takePost_illegal (h : ¬ TaskLegal (s.devRead (s.postPage ctx) 128).1 7) :
    Posts (s.takePost ctx) s ctx 0x22 s.disp.grids := by
  rw [takePost_plain hbad htag hflags hplain hzero]
  dsimp only
  rw [if_pos (taskBad_iff.2 h)]
  exact posts_of_postStat hlaid rfl (by decide)

variable (hlegal : TaskLegal (s.devRead (s.postPage ctx) 128).1 7)
include hlegal

omit hlaid in
theorem takePost_legal : s.takePost ctx =
    match s.readKernel 0 (s.ctx ctx).pasid (fieldOf (s.devRead (s.postPage ctx) 128).1 0 8) (ctx = 0) with
    | .wait u => u
    | .bad u => (u.readsDone (u.ctx ctx).pasid).postStat ctx 0x22
    | .ok k =>
      if k.fitsEmpty then (((s.readsDone (s.ctx ctx).pasid).accept
        { ctx := ctx, parent := none, parentTeam := none, root := none, depth := 1
          cls := fieldOf (s.devRead (s.postPage ctx) 128).1 0x0C 1, mode := .plain }
        (TaskRec.ofBytes (s.devRead (s.postPage ctx) 128).1 7) k).2).postStat ctx 0
      else (s.readsDone (s.ctx ctx).pasid).postStat ctx 0x21 := by
  rw [takePost_plain hbad htag hflags hplain hzero]
  dsimp only
  rw [if_neg fun h => taskBad_iff.1 h hlegal]
  rfl

omit hlaid in
theorem takePost_waits {u : State}
    (h : s.readKernel 0 (s.ctx ctx).pasid (fieldOf (s.devRead (s.postPage ctx) 128).1 0 8) (ctx = 0) = .wait u) :
    s.takePost ctx = u := by
  rw [takePost_legal hbad htag hflags hplain hzero hlegal, h]

include hs in
theorem takePost_unread {u : State}
    (h : s.readKernel 0 (s.ctx ctx).pasid (fieldOf (s.devRead (s.postPage ctx) 128).1 0 8) (ctx = 0) = .bad u) :
    Posts (s.takePost ctx) s ctx 0x22 s.disp.grids := by
  have hu := readKernel_bad h
  have hcan : u.Canonical := State.canon_iff.1 ((State.canon_iff.2 hs).readKernel.of_bad h)
  rw [takePost_legal hbad htag hflags hplain hzero hlegal, h, ← hu.disp]
  have hstat : StatLaid u ctx := hlaid.of_reads hu hcan
  refine posts_of_postStat (u := u.readsDone (u.ctx ctx).pasid) hstat ?_ (by decide)
  exact congrArg Ctx.frameArea (hu.ctx ctx)

variable {k : Kernel}
  (hread : s.readKernel 0 (s.ctx ctx).pasid (fieldOf (s.devRead (s.postPage ctx) 128).1 0 8) (ctx = 0) = .ok k)
include hread

theorem takePost_large (h : ¬ FitsEmpty k) : Posts (s.takePost ctx) s ctx 0x21 s.disp.grids := by
  rw [takePost_legal hbad htag hflags hplain hzero hlegal, hread]
  dsimp only
  rw [if_neg fun hk => h (fitsEmpty_iff.1 hk)]
  exact posts_of_postStat (u := s.readsDone (s.ctx ctx).pasid) hlaid rfl (by decide)

/-- A post that is accepted puts a root task's grid into the task table (R370). -/
theorem takePost_accepted (h : FitsEmpty k) : ∃ e, Posts (s.takePost ctx) s ctx 0 (s.disp.grids ++ [e])
    ∧ Accepted s e (s.devRead (s.postPage ctx) 128).1 k ctx none (fieldOf (s.devRead (s.postPage ctx) 128).1 0x0C 1) 1
    ∧ e.root = e.id ∧ e.mode = .plain := by
  obtain ⟨e, D, hacc, hgrids, hasked, hroot, -, hmode⟩ := accept_accepted (s := s.readsDone (s.ctx ctx).pasid)
    (a := { ctx := ctx, parent := none, parentTeam := none, root := none, depth := 1
            cls := fieldOf (s.devRead (s.postPage ctx) 128).1 0x0C 1, mode := .plain })
    (b := (s.devRead (s.postPage ctx) 128).1) (flags := 7) (k := k)
  refine ⟨e, ?_, hasked, hroot, hmode⟩
  rw [takePost_legal hbad htag hflags hplain hzero hlegal, hread]
  dsimp only
  rw [if_pos (fitsEmpty_iff.2 h), hacc]
  have hposts := posts_of_postStat (s := s) (u := { s.readsDone (s.ctx ctx).pasid with disp := D }) (v := 0) hlaid rfl (by decide)
  rw [show ({ s.readsDone (s.ctx ctx).pasid with disp := D } : State).disp.grids = s.disp.grids ++ [e] from hgrids] at hposts
  exact hposts

end

/-- Settles O53: records are taken up as R168 and R280 judge them; a GRID's turn and a post each answer a status or put the grid that
they ask for into the task table. -/
theorem tasksAreAccepted : Obligations.TasksAreAccepted := by
  unfold Obligations.TasksAreAccepted
  intro s hs
  refine ⟨fun addr b _ => ⟨ofBytes_legal, ofBytes_illegal⟩, fun o g d _ => ⟨grid_unleading, ?_, ?_⟩, ?_, ?_⟩
  · rintro ⟨hgo, hact, hlead, -⟩ hfull
    rw [grid_runs hgo hact hlead, gridEffect_full (tableFull_iff.2 hfull)]
  · rintro ⟨hgo, hact, hlead, htags⟩ hroom
    have hroom' : s.tableFull = false := by
      rw [← Bool.not_eq_true, tableFull_iff]
      exact hroom
    exact ⟨fun hmis ht => grid_misaligned hroom' htags hgo hact hlead hmis ht,
      fun x hal hx => grid_putsInFlight hroom' htags hgo hact hlead hal hx⟩
  · intro r g d ext hr hk hgid hg hcan he hf _ hd hacc
    have hnext := loadReturn_record (ext := ext) hr hk hgid hacc
    refine ⟨fun hwait => ?_, fun hready => ?_⟩
    · rw [hnext, gridLaunch_waits hg hd]
      rw [← Bool.not_eq_true, gridReady_iff]
      exact hwait
    have hready' := gridReady_iff.2 hready
    have hbad (h : d.depth < 10) := gridLaunch_bad hg hd hcan he hf hready' h
    have answer {status id : Nat} {grids : List Grid} (h : AnswersGrid (s.gridLaunch r) g r status id grids) :
        ∃ t g', exec (.loadReturn r.id ext) s = .next t ∧ t.req? r.id = none ∧ t.disp.grids = grids ∧ t.group? r.gid = some g'
          ∧ { g' with s := g.s, pend := g.pend, outrider := g.outrider } = g
          ∧ (∀ p, p ∈ g'.pend ↔ p ∈ g.pend ∧ p.ready ≠ .req r.id)
          ∧ ∀ k, rdS g' k = if k = r.reg then ⟨BitVec.ofNat 32 status, false⟩
              else if k = r.reg + 1 then ⟨BitVec.ofNat 32 id, false⟩ else rdS g k := by
      obtain ⟨g', hrest⟩ := h
      exact ⟨_, g', hnext, hrest⟩
    have good (hl : TaskLegal r.bytes 1 ∧ fieldOf r.bytes 0x0E 2 = 0 ∧ true ∉ r.tags) : ¬ recordBad r = true :=
      fun h => recordBad_iff.1 h hl
    refine ⟨fun h => answer (gridLaunch_deep hg hd hcan he hf hready' h), fun h hl => answer (hbad h (recordBad_iff.2 hl)),
      fun h hl u hu => ?_, fun h hl u hu => ?_, fun h hl k hread hfit => ?_, fun h hl k hread hfit => ?_⟩
    · rw [hnext, gridLaunch_reads hg hd hready' h (good hl) hu]
    · exact answer (gridLaunch_unread hg hd hcan he hf hready' h (good hl) hu)
    · exact answer (gridLaunch_large hg hd hcan he hf hready' h (good hl) hread hfit)
    · obtain ⟨e, hans, hasked, hroot, hteam, hmode⟩ :=
        gridLaunch_accepted hg hd hcan he hf hready' h (good hl) hread hfit
      exact ⟨e, answer hans, hasked, hroot, hteam, hmode⟩
  · intro ctx
    refine ⟨?_, fun hseen hun => ?_, fun hseen hposted hroom haway => ?_, fun hseen hposted hroom hpage hctx hstat hflags => ?_⟩
    · rintro (hun | ⟨hposted, hfull⟩)
      · exact postBox_unseen hun
      · by_cases hseen : Watch.post ctx ∈ s.mem.watch
        · exact postBox_full hseen hposted (tableFull_iff.2 hfull)
        · exact postBox_unseen hseen
    · exact ⟨_, postBox_empty hseen hun, rfl, rfl⟩
    · exact postBox_away hseen hposted (fun h => hroom (tableFull_iff.1 h)) haway
    · have hnext := postBox_takes hseen hposted (fun h => hroom (tableFull_iff.1 h)) hpage hctx
      have hlaid := StatLaid.of_laid hs hstat
      have posts {v : Nat} {grids : List Grid} (h : Posts (s.takePost ctx) s ctx v grids) :
          ∃ t, exec (.postBoxTake ctx) s = .next t ∧ t.devNat ((s.ctx ctx).frameArea + 0x0E) 1 = v ∧ t.disp.grids = grids :=
        ⟨_, hnext, h⟩
      refine ⟨fun hrec => posts ?_, fun hgood htag => posts ?_, fun hgood htag hplain hzero => ⟨fun hl => posts ?_,
        fun hl u hu => ?_, fun hl u hu => posts ?_, fun hl k hread => ⟨fun hfit => posts ?_, fun hfit => ?_⟩⟩⟩
      · rw [takePost_badContext (contextBad_of rfl hrec)]
        exact posts_of_postStat hlaid rfl (by decide)
      · rw [takePost_tagged hgood htag]
        exact posts_of_postStat hlaid rfl (by decide)
      · exact takePost_illegal hlaid hgood htag hflags hplain hzero hl
      · rw [hnext, takePost_waits hgood htag hflags hplain hzero hl hu]
      · exact takePost_unread hs hlaid hgood htag hflags hplain hzero hl hu
      · exact takePost_large hlaid hgood htag hflags hplain hzero hl hread hfit
      · obtain ⟨e, hp, hasked, hroot, hmode⟩ := takePost_accepted hlaid hgood htag hflags hplain hzero hl hread hfit
        exact ⟨e, posts hp, hasked, hroot, hmode⟩

end Sys2Proof.Machine
end

