-- ==== Sys2Proof/Proofs/ExactSums.lean ====
section
/-! Sums, products and fused multiply-adds are exact numbers rounded once (R57 to R59, R202): O12. -/

namespace Sys2Proof.Machine

/-! Exact numbers. -/

/-- A result is the rounding of a number that some sign, magnitude and exponent stand for. -/
def RoundsOnce (t : Fmt) (rm : Rm) (q : ℚ) (r : Nat × Flags) : Prop :=
  ∃ (neg : Bool) (m : Nat) (e : Int), (FVal.fin neg m e).rat = q ∧ r = roundTo t rm neg m e false

/-- A signed integer over a unit stands for its product with the unit. -/
theorem rat_ofInt (x b : Int) : (FVal.fin (decide (x < 0)) x.natAbs b).rat = x * (2 : ℚ) ^ b := by
  rcases lt_or_ge x 0 with h | h
  · simp [FVal.rat, h, abs_of_neg h]
  · simp [FVal.rat, not_lt.2 h, abs_of_nonneg h]

@[simp] theorem rat_zero (n : Bool) (e : Int) : (FVal.fin n 0 e).rat = 0 := by simp [FVal.rat]

theorem rat_negate (x : FVal) : x.negate.rat = -x.rat := by
  cases x with
  | fin n m e => cases n <;> simp [FVal.negate, FVal.rat]
  | _ => simp [FVal.negate, FVal.rat]

@[simp] theorem finite_negate (x : FVal) : x.negate.finite = x.finite := by cases x <;> rfl

/-- `addFin` answers the exact sum (R202). -/
theorem addFin_rat {rm : Rm} {n1 n2 : Bool} {m1 m2 : Nat} {e1 e2 : Int} :
    (FVal.fin (addFin rm n1 m1 e1 n2 m2 e2).1 (addFin rm n1 m1 e1 n2 m2 e2).2.1 (addFin rm n1 m1 e1 n2 m2 e2).2.2).rat
      = (FVal.fin n1 m1 e1).rat + (FVal.fin n2 m2 e2).rat := by
  rw [← alignTo_rat (min_le_left e1 e2), ← alignTo_rat (min_le_right e1 e2), ← add_mul, ← Int.cast_add]
  unfold addFin
  extract_lets b s
  split
  · next h =>
    change (FVal.fin _ 0 b).rat = (s : ℚ) * 2 ^ b
    rw [rat_zero, h, Int.cast_zero, zero_mul]
  · exact rat_ofInt s b

theorem fAddV_fin (t : Fmt) (rm : Rm) (n1 n2 : Bool) (m1 m2 : Nat) (e1 e2 : Int) :
    fAddV t rm (.fin n1 m1 e1) (.fin n2 m2 e2) = roundTo t rm (addFin rm n1 m1 e1 n2 m2 e2).1
      (addFin rm n1 m1 e1 n2 m2 e2).2.1 (addFin rm n1 m1 e1 n2 m2 e2).2.2 false := rfl

theorem fAddV_rounds {t : Fmt} {rm : Rm} {x y : FVal} (hx : x.finite = true) (hy : y.finite = true) :
    RoundsOnce t rm (x.rat + y.rat) (fAddV t rm x y) := by
  cases x with
  | fin n1 m1 e1 =>
    cases y with
    | fin n2 m2 e2 => exact ⟨_, _, _, addFin_rat, fAddV_fin ..⟩
    | _ => cases hy
  | _ => cases hx

/-- The product of two finite values is exact and sets no flag (R202). -/
theorem mulV_finite {x y : FVal} (hx : x.finite = true) (hy : y.finite = true) :
    ∃ n m e, mulV x y = (.fin n m e, 0) ∧ (FVal.fin n m e).rat = x.rat * y.rat := by
  cases x with
  | fin a m e =>
    cases y with
    | fin b n f =>
      refine ⟨_, _, _, rfl, ?_⟩
      have hpow : (2 : ℚ) ^ (e + f) = 2 ^ e * 2 ^ f := zpow_add₀ two_ne_zero e f
      cases a <;> cases b <;> simp [FVal.rat, hpow] <;> ring
    | _ => cases hy
  | _ => cases hx

theorem fMulV_rounds {t : Fmt} {rm : Rm} {x y : FVal} (hx : x.finite = true) (hy : y.finite = true) :
    RoundsOnce t rm (x.rat * y.rat) (fMulV t rm x y) := by
  obtain ⟨n, m, e, hp, hr⟩ := mulV_finite hx hy
  refine ⟨n, m, e, hr, ?_⟩
  unfold fMulV
  rw [hp]
  exact Prod.ext rfl BitVec.zero_or

theorem fFmaV_rounds {t : Fmt} {rm : Rm} {x y z : FVal} (hx : x.finite = true) (hy : y.finite = true)
    (hz : z.finite = true) : RoundsOnce t rm (x.rat * y.rat + z.rat) (fFmaV t rm x y z) := by
  obtain ⟨n, m, e, hp, hr⟩ := mulV_finite hx hy
  obtain ⟨n', m', e', hr', hs⟩ := fAddV_rounds (t := t) (rm := rm) (x := .fin n m e) rfl hz
  refine ⟨n', m', e', by rw [hr', hr], ?_⟩
  unfold fFmaV
  rw [hp, ← hs]
  exact Prod.ext rfl BitVec.zero_or

/-! NaNs and infinities (R58). -/

theorem fAddV_nan {t : Fmt} {rm : Rm} {x y : FVal} (h : isNan x = true ∨ isNan y = true) :
    fAddV t rm x y = (t.nan, if isSnan x || isSnan y then fINV else 0) := by
  unfold fAddV
  rw [if_pos (by simpa using h)]
  rfl

/-- A product of a NaN is a quiet NaN, with INV where an operand signals. -/
theorem mulV_nan {x y : FVal} (h : isNan x = true ∨ isNan y = true) :
    mulV x y = (.nan false, if isSnan x || isSnan y then fINV else 0) := by
  cases x with
  | nan a => cases y <;> simp [mulV, flagIf, isSnan]
  | _ =>
    cases y with
    | nan b => simp [mulV, flagIf, isSnan]
    | _ => simp [isNan] at h

theorem fMulV_nan {t : Fmt} {rm : Rm} {x y : FVal} (h : isNan x = true ∨ isNan y = true) :
    fMulV t rm x y = (t.nan, if isSnan x || isSnan y then fINV else 0) := by
  unfold fMulV
  rw [mulV_nan h]
  exact Prod.ext rfl BitVec.or_zero

theorem fFmaV_nan {t : Fmt} {rm : Rm} {x y z : FVal} (h : isNan x = true ∨ isNan y = true ∨ isNan z = true) :
    (fFmaV t rm x y z).1 = t.nan := by
  unfold fFmaV
  have hp : isNan (mulV x y).1 = true ∨ isNan z = true := by
    rcases h with h | h | h
    · exact .inl (by rw [mulV_nan (.inl h)]; rfl)
    · exact .inl (by rw [mulV_nan (.inr h)]; rfl)
    · exact .inr h
  exact congrArg Prod.fst (fAddV_nan hp)

/-- An addend that does not signal adds no flag to the INV of 0 × ∞. -/
theorem fFmaV_zero_inf {t : Fmt} {rm : Rm} {x y z : FVal} (hp : mulV x y = (.nan false, fINV)) (hz : isSnan z = false) :
    fFmaV t rm x y z = (t.nan, fINV) := by
  unfold fFmaV
  rw [hp]
  dsimp only
  rw [fAddV_nan (.inl rfl), hz]
  exact Prod.ext rfl BitVec.or_zero

theorem fMulV_inf_fin (t : Fmt) (rm : Rm) (a n : Bool) (m : Nat) (e : Int) :
    fMulV t rm (.inf a) (.fin n m e) = if m = 0 then (t.nan, fINV) else (t.sign (a ≠ n) + t.infCode, 0) := by
  unfold fMulV mulV
  dsimp only
  split <;> exact Prod.ext rfl BitVec.or_zero

/-! Zeros (R58). -/

theorem roundTo_zero (t : Fmt) (rm : Rm) (n : Bool) (e : Int) : roundTo t rm n 0 e false = (t.sign n, 0) := rfl

theorem alignTo_not (n : Bool) (m : Nat) (e b : Int) : alignTo (!n) m e b = -alignTo n m e b := by
  cases n <;> simp [alignTo]

theorem fAddV_cancel (t : Fmt) (rm : Rm) (n : Bool) {m : Nat} (e : Int) (h : m ≠ 0) :
    fAddV t rm (.fin n m e) (.fin (!n) m e) = (t.sign (decide (rm = .rd)), 0) := by
  have hs : addFin rm n m e (!n) m e = (decide (rm = .rd), 0, e) := by
    simp [addFin, alignTo_not, h]
  rw [fAddV_fin, hs, roundTo_zero]

theorem fAddV_zeros (t : Fmt) (rm : Rm) (n : Bool) (e f : Int) : fAddV t rm (.fin n 0 e) (.fin n 0 f) = (t.sign n, 0) := by
  have hs : addFin rm n 0 e n 0 f = (n, 0, min e f) := by simp [addFin, alignTo]
  rw [fAddV_fin, hs, roundTo_zero]

/-! `.ftz` (R59). -/

/-- A zero of either sign is not subnormal. -/
theorem isSubnormal_sign (t : Fmt) (b : Bool) : isSubnormal t (t.sign b) = false := by
  have h : t.sign b % 2 ^ t.f = 0 := by
    unfold Fmt.sign
    split
    · exact Nat.mod_eq_zero_of_dvd (pow_dvd_pow 2 (Nat.le_add_left _ _))
    · exact Nat.zero_mod _
  simp [isSubnormal, h]

theorem or_den_last (f x y : Flags) : f ||| fDEN ||| x ||| y = (f ||| 0 ||| x ||| y) ||| fDEN := by
  rw [show f ||| 0 = f from BitVec.or_zero]
  ac_rfl

/-- Under `.ftz` a subnormal first operand counts as the zero of its sign, and sets DEN. -/
theorem fCompute_flush (op : FOp) (t : Fmt) (rm : Rm) (a b c : Nat) (h : isSubnormal t a = true) :
    fCompute op t rm true a b c =
      ((fCompute op t rm true (t.sign (natBit a (t.e + t.f))) b c).1,
        (fCompute op t rm true (t.sign (natBit a (t.e + t.f))) b c).2 ||| fDEN) := by
  have ha : flushIn t true a = (t.sign (natBit a (t.e + t.f)), fDEN) := by simp [flushIn, h]
  have hz : flushIn t true (t.sign (natBit a (t.e + t.f))) = (t.sign (natBit a (t.e + t.f)), 0) := by
    simp [flushIn, isSubnormal_sign]
  unfold fCompute
  rw [ha, hz]
  exact Prod.ext rfl (or_den_last _ _ _)

/-- Settles O12: the exact number is rounded once, and each special case is a branch of the operation. -/
theorem floatArithmeticRoundsTheExactNumberOnce : Obligations.FloatArithmeticRoundsTheExactNumberOnce := by
  refine ⟨fun t rm x y z _ hx hy hz => ?_, fun t rm x y _ => ?_⟩
  · have hsub := fAddV_rounds (t := t) (rm := rm) hx (y := y.negate) (by rwa [finite_negate])
    rw [rat_negate, ← sub_eq_add_neg] at hsub
    exact ⟨fAddV_rounds hx hy, hsub, fMulV_rounds hx hy, fFmaV_rounds hx hy hz⟩
  · refine ⟨fun h => ?_, fun z n e hz => ⟨fFmaV_zero_inf rfl hz, fFmaV_zero_inf rfl hz⟩, fun z h => fFmaV_nan h,
      fun a b => rfl, fun a n m e => ⟨rfl, fMulV_inf_fin t rm a n m e⟩, fun n m e h => fAddV_cancel t rm n e h,
      fun n e f => fAddV_zeros t rm n e f, fun op a b c h => fCompute_flush op t rm a b c h⟩
    rw [fAddV_nan h, fMulV_nan h]
    exact ⟨rfl, rfl, rfl, rfl⟩

end Sys2Proof.Machine
end

