-- ==== Sys2Proof/Proofs/BlockSums.lean ====
section
/-! A dray's block of finite products is cut 24 binades below its largest and added with one rounding (R68): O42. -/

namespace Sys2Proof.Machine

/-! Finite values. -/

theorem exists_fin_of_finite {x : FVal} (h : x.finite = true) : ∃ n m e, x = .fin n m e := by
  cases x with
  | fin n m e => exact ⟨n, m, e, rfl⟩
  | _ => cases h

theorem any_isNan_finite {xs : List FVal} (h : ∀ x ∈ xs, x.finite = true) : xs.any isNan = false := by
  rw [List.any_eq_false]
  intro x hx
  obtain ⟨n, m, e, rfl⟩ := exists_fin_of_finite (h x hx)
  exact Bool.false_ne_true

theorem filterMap_signOf_finite {xs : List FVal} (h : ∀ x ∈ xs, x.finite = true) : xs.filterMap signOf = [] := by
  rw [List.filterMap_eq_nil_iff]
  intro x hx
  obtain ⟨n, m, e, rfl⟩ := exists_fin_of_finite (h x hx)
  rfl

/-- The magnitude of a finite value. -/
theorem abs_rat (n : Bool) (m : Nat) (e : Int) : |(FVal.fin n m e).rat| = m * (2 : ℚ) ^ e := by
  have h : (0 : ℚ) ≤ m * 2 ^ e := by positivity
  cases n <;> simp [FVal.rat, abs_of_nonneg h]

/-- A value is its magnitude under its sign. -/
theorem rat_signed (n : Bool) (m : Nat) (e : Int) :
    (FVal.fin n m e).rat = if n then -(m * (2 : ℚ) ^ e) else m * 2 ^ e := by
  cases n <;> simp [FVal.rat]

/-! The highest bit of a product (R68). -/

theorem topBit_eq_some {n : Bool} {m : Nat} {e k : Int} :
    topBit (.fin n m e) = some k ↔ m ≠ 0 ∧ (Nat.log2 m : Int) + e = k := by
  unfold topBit
  by_cases h : m = 0 <;> simp [h]

/-- `topBit` is the binade of a product that is not 0. -/
theorem topBit_binade {p : FVal} {k : Int} (h : topBit p = some k) :
    (2 : ℚ) ^ k ≤ |p.rat| ∧ |p.rat| < (2 : ℚ) ^ (k + 1) := by
  cases p with
  | fin n m e =>
    obtain ⟨hm, rfl⟩ := topBit_eq_some.1 h
    have hlow : (2 : ℚ) ^ m.log2 ≤ m := by exact_mod_cast Nat.log2_self_le hm
    have hhigh : (m : ℚ) < 2 ^ (m.log2 + 1) := by exact_mod_cast Nat.lt_log2_self
    have hpos : (0 : ℚ) < 2 ^ e := by positivity
    rw [abs_rat, add_right_comm, zpow_add₀ two_ne_zero, zpow_add₀ two_ne_zero]
    exact ⟨mul_le_mul_of_nonneg_right (by exact_mod_cast hlow) hpos.le,
      mul_lt_mul_of_pos_right (by exact_mod_cast hhigh) hpos⟩
  | _ => cases h

theorem topBit_le {p : FVal} {k E : Int} (h : topBit p = some k) (hp : |p.rat| < (2 : ℚ) ^ (E + 1)) : k ≤ E := by
  have := (zpow_lt_zpow_iff_right₀ (one_lt_two : (1 : ℚ) < 2)).1 ((topBit_binade h).1.trans_lt hp)
  omega

/-- A finite product in the binade of `E` has its highest bit there. -/
theorem topBit_of_binade {p : FVal} {E : Int} (hf : p.finite = true) (hlow : (2 : ℚ) ^ E ≤ |p.rat|)
    (hhigh : |p.rat| < (2 : ℚ) ^ (E + 1)) : topBit p = some E := by
  obtain ⟨n, m, e, rfl⟩ := exists_fin_of_finite hf
  have hm : m ≠ 0 := by
    rintro rfl
    rw [rat_zero, abs_zero] at hlow
    exact absurd hlow (not_le.2 (by positivity))
  have h : topBit (.fin n m e) = some ((Nat.log2 m : Int) + e) := topBit_eq_some.2 ⟨hm, rfl⟩
  have hge := (zpow_lt_zpow_iff_right₀ (one_lt_two : (1 : ℚ) < 2)).1 (hlow.trans_lt (topBit_binade h).2)
  have hle := topBit_le h hhigh
  rw [h, show (Nat.log2 m : Int) + e = E by omega]

/-- Where the largest product of a block lies in the binade of `E`, `E` is the largest of the highest bits. -/
theorem topBits_max {ps : List FVal} {E : Int} (hf : ∀ p ∈ ps, p.finite = true) (hlow : ∃ p ∈ ps, (2 : ℚ) ^ E ≤ |p.rat|)
    (hhigh : ∀ p ∈ ps, |p.rat| < (2 : ℚ) ^ (E + 1)) : ∃ e es, ps.filterMap topBit = e :: es ∧ es.foldl max e = E := by
  have hmax : (ps.filterMap topBit).max? = some E := by
    rw [List.max?_eq_some_iff]
    obtain ⟨p, hp, hpE⟩ := hlow
    refine ⟨List.mem_filterMap.2 ⟨p, hp, topBit_of_binade (hf p hp) hpE (hhigh p hp)⟩, fun k hk => ?_⟩
    obtain ⟨p, hp, hk⟩ := List.mem_filterMap.1 hk
    exact topBit_le hk (hhigh p hp)
  cases hl : ps.filterMap topBit with
  | nil => rw [hl] at hmax; cases hmax
  | cons e es =>
    rw [hl, List.max?_cons'] at hmax
    exact ⟨e, es, rfl, Option.some.inj hmax⟩

/-! Cutting (R68). -/

/-- A magnitude in units of 2^q, cut. -/
def cutMag (q : Int) (m : Nat) (e : Int) : Nat := if e ≥ q then m * 2 ^ (e - q).toNat else m / 2 ^ (q - e).toNat

/-- A product in units of 2^q, cut toward zero. -/
def cutUnits (q : Int) : FVal → Int
  | .fin n m e => if n then -(cutMag q m e : Int) else (cutMag q m e : Int)
  | _ => 0

/-- The cut of a product loses something. -/
def cutLoses (q : Int) : FVal → Bool
  | .fin _ m e => decide (e < q) && decide (m % 2 ^ (q - e).toNat ≠ 0)
  | _ => false

/-- The scale of a block: the product of its two block scales (R54, R68). -/
def scaleExp : Option (Nat × Nat) → Int
  | some (a, b) => a + b - 254
  | none => 0

/-- A block of finite products, not all 0, in the terms above. -/
theorem blockApply_finite {c : Nat} {ps : List FVal} {scales : Option (Nat × Nat)} {E : Int}
    (hc : (unpack fF32 c).finite = true) (hf : ∀ p ∈ ps, p.finite = true)
    (hs : ∀ a b, scales = some (a, b) → a ≠ 255 ∧ b ≠ 255)
    (hE : ∃ e es, ps.filterMap topBit = e :: es ∧ es.foldl max e = E) :
    blockApply c ps scales =
      ((fAddV fF32 .rn (unpack fF32 c) (.fin (decide ((ps.map (cutUnits (E - 24))).sum < 0))
        (ps.map (cutUnits (E - 24))).sum.natAbs (E - 24 + scaleExp scales))).1, ps.any (cutLoses (E - 24))) := by
  obtain ⟨e, es, htop, rfl⟩ := hE
  have hall : ∀ x ∈ unpack fF32 c :: ps, x.finite = true := List.forall_mem_cons.2 ⟨hc, hf⟩
  unfold blockApply
  extract_lets ps' all
  have hps : ps' = ps := by
    cases scales with
    | none => rfl
    | some ab =>
      obtain ⟨ha, hb⟩ := hs ab.1 ab.2 rfl
      simp [ps', ha, hb]
  have hl : all = unpack fF32 c :: ps := congrArg _ hps
  rw [hl, hps, any_isNan_finite hall, filterMap_signOf_finite hall, htop, List.sum_eq_foldl]
  cases scales <;> rfl

theorem towardZero_neg (x : ℚ) : towardZero (-x) = -towardZero x := by
  unfold towardZero
  rcases lt_trichotomy x 0 with h | rfl | h
  · rw [if_pos (by linarith), if_neg (not_le.2 h), Int.floor_neg]
  · simp
  · rw [if_neg (by linarith), if_pos h.le, Int.ceil_neg]

/-- A magnitude in units of 2^q, as a whole number or over a power of two. -/
theorem units_eq (q : Int) (m : Nat) (e : Int) : (m : ℚ) * 2 ^ e / 2 ^ q =
    if e ≥ q then ((m * 2 ^ (e - q).toNat : Nat) : ℚ) else (m : ℚ) / (2 ^ (q - e).toNat : Nat) := by
  split
  · next h =>
    rw [mul_div_assoc, ← zpow_sub₀ two_ne_zero, ← Int.toNat_of_nonneg (sub_nonneg.2 h), zpow_natCast]
    push_cast
    rfl
  · next h =>
    have hk : (2 : ℚ) ^ (q - e).toNat = 2 ^ (q - e) := by
      rw [← zpow_natCast, Int.toNat_of_nonneg (by omega)]
    push_cast
    rw [hk, zpow_sub₀ two_ne_zero]
    field_simp

/-- The kept magnitude is the greatest whole number of units that is not beyond. -/
theorem cutMag_eq (q : Int) (m : Nat) (e : Int) : (cutMag q m e : Int) = ⌊(m : ℚ) * 2 ^ e / 2 ^ q⌋ := by
  rw [units_eq]
  unfold cutMag
  split
  · rw [Int.floor_natCast]
  · rw [← Int.natCast_floor_eq_floor (by positivity), Nat.floor_div_eq_div]

theorem cutUnits_eq {q : Int} {p : FVal} (hp : p.finite = true) : cutUnits q p = towardZero (p.rat / 2 ^ q) := by
  obtain ⟨n, m, e, rfl⟩ := exists_fin_of_finite hp
  have hpos : towardZero ((m : ℚ) * 2 ^ e / 2 ^ q) = cutMag q m e := by
    unfold towardZero
    rw [if_pos (by positivity), cutMag_eq]
  cases n
  · rw [rat_signed]
    exact hpos.symm
  · rw [rat_signed, if_pos rfl, neg_div, towardZero_neg, hpos]
    rfl

/-- The cut loses something where units do not make up the product. -/
theorem cutLoses_iff {q : Int} {p : FVal} (hp : p.finite = true) :
    cutLoses q p = true ↔ (towardZero (p.rat / 2 ^ q) : ℚ) * 2 ^ q ≠ p.rat := by
  obtain ⟨n, m, e, rfl⟩ := exists_fin_of_finite hp
  have hmag : (cutUnits q (.fin n m e) : ℚ) * 2 ^ q = (FVal.fin n m e).rat ↔ (cutMag q m e : ℚ) * 2 ^ q = m * 2 ^ e := by
    cases n
    · rw [rat_signed]
      exact Iff.rfl
    · rw [rat_signed, if_pos rfl, ← neg_inj, neg_neg, ← neg_mul]
      simp [cutUnits]
  rw [← cutUnits_eq rfl, ne_eq, hmag]
  have hq : (0 : ℚ) < 2 ^ q := by positivity
  unfold cutMag
  split
  · next h =>
    have hx : ((m * 2 ^ (e - q).toNat : Nat) : ℚ) * 2 ^ q = m * 2 ^ e := by
      have := alignTo_rat (neg := false) (m := m) h
      simpa [alignTo, FVal.rat] using this
    rw [hx]
    simp [cutLoses, not_lt.2 h]
  · next h =>
    have hk : (2 : ℚ) ^ q = 2 ^ (q - e).toNat * 2 ^ e := by
      rw [← zpow_natCast, Int.toNat_of_nonneg (by omega), ← zpow_add₀ two_ne_zero, sub_add_cancel]
    have he : (2 : ℚ) ^ e ≠ 0 := by positivity
    have hdvd : ((m / 2 ^ (q - e).toNat : Nat) : ℚ) * 2 ^ (q - e).toNat = m ↔ m % 2 ^ (q - e).toNat = 0 := by
      rw [← Nat.dvd_iff_mod_eq_zero, Nat.dvd_iff_div_mul_eq]
      exact_mod_cast Iff.rfl
    rw [hk, ← mul_assoc, mul_left_inj' he, hdvd]
    simp [cutLoses, not_le.1 h]

/-! The block (R68). -/

/-- The cut products of a block add up to a whole number of units. -/
theorem cutUnits_sum {q : Int} {ps : List FVal} (hf : ∀ p ∈ ps, p.finite = true) :
    ((ps.map (cutUnits q)).sum : ℚ) * 2 ^ q = (ps.map fun p => (towardZero (p.rat / 2 ^ q) : ℚ) * 2 ^ q).sum := by
  induction ps with
  | nil => simp
  | cons p ps ih =>
    obtain ⟨hp, hps⟩ := List.forall_mem_cons.1 hf
    simp only [List.map_cons, List.sum_cons, Int.cast_add, add_mul, cutUnits_eq hp, ih hps]

/-- A sum of two values that is 0, of which the second is no −0, is +0 to the nearest (R58). -/
theorem fAddV_rn_zero {t : Fmt} {x : FVal} {n : Bool} {m : Nat} {e : Int} (hx : x.finite = true) (hn : m = 0 → n = false)
    (h : x.rat + (FVal.fin n m e).rat = 0) : fAddV t .rn x (.fin n m e) = (0, 0) := by
  obtain ⟨n1, m1, e1, rfl⟩ := exists_fin_of_finite hx
  have hs : alignTo n1 m1 e1 (min e1 e) + alignTo n m e (min e1 e) = 0 := by
    rw [← alignTo_rat (min_le_left e1 e), ← alignTo_rat (min_le_right e1 e), ← add_mul] at h
    have hpos : (2 : ℚ) ^ min e1 e ≠ 0 := by positivity
    exact_mod_cast (mul_eq_zero.1 h).resolve_right hpos
  have hadd : addFin .rn n1 m1 e1 n m e = (false, 0, min e1 e) := by
    unfold addFin
    rw [if_pos hs]
    by_cases h0 : m1 = 0 ∧ m = 0 ∧ n1 = n
    · obtain ⟨h1, h2, h3⟩ := h0
      simp [h1, h2, h3, hn h2]
    · have hb : (decide (m1 = 0) && decide (m = 0) && decide (n1 = n)) = false := by simpa using h0
      simp [hb]
  rw [fAddV_fin, hadd, roundTo_zero]
  rfl

/-- The scale of a block as a rational number. -/
theorem scaleExp_rat (scales : Option (Nat × Nat)) : (2 : ℚ) ^ scaleExp scales = match scales with
    | some (a, b) => (2 : ℚ) ^ ((a : Int) + b - 254)
    | none => 1 := by
  cases scales with
  | none => exact zpow_zero _
  | some ab => rfl

/-- Settles O42: the cut block is one finite value, a whole number of units under its scale, and is added once. -/
theorem blocksAreCutBelowTheirLargestProduct : Obligations.BlocksAreCutBelowTheirLargestProduct := by
  intro c ps scales E hc hf hs hlow hhigh unit cut scale q r
  have hr : r = _ := blockApply_finite hc hf hs (topBits_max hf hlow hhigh)
  have hscale : (2 : ℚ) ^ scaleExp scales = scale := scaleExp_rat scales
  generalize hT : (ps.map (cutUnits (E - 24))).sum = T at hr
  have hv : (FVal.fin (decide (T < 0)) T.natAbs (E - 24 + scaleExp scales)).rat = (ps.map cut).sum * scale := by
    rw [rat_ofInt, zpow_add₀ two_ne_zero, ← mul_assoc, hscale, ← hT, cutUnits_sum hf]
  have hq : q = (unpack fF32 c).rat + (FVal.fin (decide (T < 0)) T.natAbs (E - 24 + scaleExp scales)).rat := by
    rw [hv]
  refine ⟨?_, fun _ => ?_, fun h0 => ?_⟩
  · rw [hr, List.any_eq_true]
    exact exists_congr fun p => and_congr_right fun hp => cutLoses_iff (hf p hp)
  · obtain ⟨neg, m, e, hm, hround⟩ := fAddV_rounds (t := fF32) (rm := .rn) hc
      (y := .fin (decide (T < 0)) T.natAbs (E - 24 + scaleExp scales)) rfl
    exact ⟨neg, m, e, hm.trans hq.symm, by rw [hr, hround]⟩
  · rw [hr, fAddV_rn_zero hc (fun h => by simp [Int.natAbs_eq_zero.1 h]) (hq.symm.trans h0)]

end Sys2Proof.Machine
end

