-- ==== Sys2Proof/Proofs/Rounding.lean ====
section
/-! A finite rounding gives the code that its mode asks for (R52, R55 to R57): O11. The codes of a format in their order
are the numbers of R52 in their order; a number lies between two codes that follow each other, and its mode takes one. -/

namespace Sys2Proof.Machine

/-! The codes of a format, in order (R52). -/

/-- The exponent field of a code over that of the subnormals, which the least normal numbers share. -/
def binadeOf (t : Fmt) (c : Nat) : Nat := c / 2 ^ t.f - 1

/-- The number that R52 gives a code without a sign, were every exponent field a number's. -/
def codeVal (t : Fmt) (c : Nat) : ℚ := ((c : ℚ) - binadeOf t c * 2 ^ t.f) * 2 ^ (binadeOf t c + t.qmin)

/-- What the formats of R52 have in common. -/
theorem formats_bounds {t : Fmt} (ht : t ∈ formats) :
    1 ≤ t.f ∧ 1 ≤ t.maxCode ∧ t.maxCode < 2 ^ (t.e + t.f) ∧ (t.inf = true → t.maxCode < (2 ^ t.e - 1) * 2 ^ t.f)
      ∧ (t = fE4M3 → t.maxCode < 127) ∧ (t ≠ fE4M3 → t ≠ fE2M1 → t.inf = true)
      ∧ binadeOf t (t.maxCode - 1) = binadeOf t t.maxCode := by
  revert ht t
  decide +kernel

/-- A significand of a binade, or the number that follows its last, by its code. -/
theorem codeVal_add {t : Fmt} {k mag : Nat} (hhigh : mag ≤ 2 ^ (t.f + 1)) (hlow : k = 0 ∨ 2 ^ t.f ≤ mag) :
    codeVal t (mag + k * 2 ^ t.f) = mag * 2 ^ (k + t.qmin) := by
  have hpos : 0 < 2 ^ t.f := by positivity
  have hdiv : (mag + k * 2 ^ t.f) / 2 ^ t.f = mag / 2 ^ t.f + k := Nat.add_mul_div_right _ _ hpos
  rw [pow_succ] at hhigh
  unfold codeVal binadeOf
  rw [hdiv]
  rcases lt_or_ge mag (2 ^ t.f) with h | h
  · have hk : k = 0 := hlow.resolve_right (by omega)
    simp [hk, Nat.div_eq_of_lt h]
  · rcases hhigh.lt_or_eq with h2 | rfl
    · rw [show mag / 2 ^ t.f = 1 from Nat.div_eq_of_lt_le (by omega) (by omega), Nat.add_sub_cancel_left]
      push_cast
      ring
    · rw [Nat.mul_div_cancel_left _ hpos, show 2 + k - 1 = k + 1 by omega]
      push_cast
      rw [add_right_comm, zpow_add_one₀ two_ne_zero]
      ring

/-- A code is a significand of its binade. -/
theorem code_eq (t : Fmt) (c : Nat) : ∃ mag, c = mag + binadeOf t c * 2 ^ t.f ∧ mag < 2 ^ (t.f + 1)
    ∧ (binadeOf t c = 0 ∨ 2 ^ t.f ≤ mag) := by
  have hpos : 0 < 2 ^ t.f := by positivity
  have hdiv := Nat.div_add_mod' c (2 ^ t.f)
  have hmod := Nat.mod_lt c hpos
  unfold binadeOf
  rw [pow_succ]
  rcases hE : c / 2 ^ t.f with _ | k
  · rw [hE] at hdiv
    exact ⟨c, by simp, by omega, .inl rfl⟩
  · rw [hE, add_mul, one_mul] at hdiv
    exact ⟨2 ^ t.f + c % 2 ^ t.f, by rw [Nat.add_sub_cancel]; omega, by omega, .inr (by omega)⟩

/-- From a code to the next the number grows by the unit of its binade. -/
theorem codeVal_succ (t : Fmt) (c : Nat) : codeVal t (c + 1) = codeVal t c + 2 ^ (binadeOf t c + t.qmin) := by
  obtain ⟨mag, hc, hhigh, hlow⟩ := code_eq t c
  have h := codeVal_add (t := t) hhigh.le hlow
  have h1 := codeVal_add (t := t) (mag := mag + 1) hhigh (hlow.imp id Nat.le_succ_of_le)
  rw [add_right_comm, ← hc] at h1
  rw [← hc] at h
  rw [h1, h]
  push_cast
  ring

theorem codeVal_strictMono (t : Fmt) : StrictMono (codeVal t) :=
  strictMono_nat_of_lt_succ fun c => by
    rw [codeVal_succ]
    exact lt_add_of_pos_right _ (by positivity)

section
variable {t : Fmt} (ht : t ∈ formats)
include ht

/-- Up to the largest finite code, a code reads as its number (R52). -/
theorem codeRat_eq {c : Nat} (hc : c ≤ t.maxCode) : codeRat t c = codeVal t c := by
  obtain ⟨hf, -, hmax, hinf, h4, -, -⟩ := formats_bounds ht
  have hlt : c / 2 ^ t.f < 2 ^ t.e := Nat.div_lt_of_lt_mul (by rw [← pow_add, add_comm]; omega)
  have hmod : c % 2 ^ t.f < 2 ^ t.f := Nat.mod_lt c (by positivity)
  have hneg : natBit c (t.e + t.f) = false := by
    simp [natBit, Nat.shiftRight_eq_div_pow, Nat.div_eq_of_lt (hc.trans_lt hmax)]
  have hE : natBits c (t.e + t.f - 1) t.f = c / 2 ^ t.f := by
    unfold natBits
    rw [Nat.shiftRight_eq_div_pow, show t.e + t.f - 1 + 1 - t.f = t.e by omega, Nat.mod_eq_of_lt hlt]
  have hnoInf : ¬ (t.inf && decide (c / 2 ^ t.f = 2 ^ t.e - 1)) = true := by
    simp only [Bool.and_eq_true, decide_eq_true_eq, not_and]
    exact fun hi => (Nat.div_lt_of_lt_mul (by rw [mul_comm]; exact hc.trans_lt (hinf hi))).ne
  have hnoNan : ¬ (decide (t = fE4M3) && decide (c / 2 ^ t.f = 15) && decide (c % 2 ^ t.f = 7)) = true := by
    simp only [Bool.and_eq_true, decide_eq_true_eq, not_and]
    rintro ⟨rfl, hq⟩ hr
    have := h4 rfl
    have : fE4M3.f = 3 := rfl
    rw [this] at hq hr
    omega
  unfold codeRat unpack
  dsimp only
  rw [hneg, hE, if_neg hnoInf, if_neg hnoNan]
  have hdiv := Nat.div_add_mod' c (2 ^ t.f)
  rcases hk : c / 2 ^ t.f with _ | k
  · have hcode := codeVal_add (t := t) (k := 0) (mag := c % 2 ^ t.f) (by rw [pow_succ]; omega) (.inl rfl)
    rw [hk] at hdiv
    rw [if_pos rfl, rat_signed, show c = c % 2 ^ t.f + 0 * 2 ^ t.f by omega, hcode]
    simp
  · have hcode := codeVal_add (t := t) (k := k) (mag := 2 ^ t.f + c % 2 ^ t.f) (by rw [pow_succ]; omega)
      (.inr (Nat.le_add_right _ _))
    rw [hk, add_mul] at hdiv
    rw [if_neg k.succ_ne_zero, rat_signed, show codeVal t c = _ from (congrArg _ (by omega)).trans hcode]
    simp

/-- The number after the largest finite one, would it be one. -/
theorem top_add_gap : codeRat t t.maxCode + (codeRat t t.maxCode - codeRat t (t.maxCode - 1)) = codeVal t (t.maxCode + 1) := by
  obtain ⟨-, h1, -, -, -, -, hbin⟩ := formats_bounds ht
  have h := codeVal_succ t (t.maxCode - 1)
  rw [Nat.sub_add_cancel h1, hbin] at h
  rw [codeRat_eq ht le_rfl, codeRat_eq ht (Nat.sub_le _ _), codeVal_succ, h]
  ring

end

/-! A magnitude in units (R56). -/

/-- The exponent of the unit that a magnitude is rounded to (R56). -/
def roundExp (t : Fmt) (m : Nat) (e : Int) : Int :=
  if m = 0 then t.qmin else max ((Nat.log2 m : Int) + e - t.f) t.qmin

/-- The code of the last number that is not beyond a magnitude. -/
def lowCode (t : Fmt) (m : Nat) (e : Int) : Nat :=
  cutMag (roundExp t m e) m e + (roundExp t m e - t.qmin).toNat * 2 ^ t.f

/-- A mode goes on to the next number, from a magnitude in units (R55, R56). -/
def goesUp (rm : Rm) (draw : Nat) (neg : Bool) (y : ℚ) : Bool :=
  match rm with
  | .rn => decide (1 / 2 < Int.fract y) || (decide (Int.fract y = 1 / 2) && decide (⌊y⌋ % 2 = 1))
  | .rz => false
  | .ru => decide (Int.fract y ≠ 0) && !neg
  | .rd => decide (Int.fract y ≠ 0) && neg
  | .rs => decide (Int.fract y ≠ 0) && decide (2 ^ 24 ≤ ⌊Int.fract y * 2 ^ 24⌋ + (draw : Int))

theorem qmin_le_roundExp (t : Fmt) (m : Nat) (e : Int) : t.qmin ≤ roundExp t m e := by
  unfold roundExp
  split
  · exact le_rfl
  · exact le_max_right _ _

/-- The whole units of a magnitude are a significand: of the first binade, or of full length. -/
theorem cutMag_bounds (t : Fmt) (m : Nat) (e : Int) :
    cutMag (roundExp t m e) m e < 2 ^ (t.f + 1)
      ∧ ((roundExp t m e - t.qmin).toNat = 0 ∨ 2 ^ t.f ≤ cutMag (roundExp t m e) m e) := by
  have hcut := cutMag_eq (roundExp t m e) m e
  by_cases hm : m = 0
  · subst hm
    refine ⟨?_, .inl (by simp [roundExp])⟩
    have hzero : cutMag (roundExp t 0 e) 0 e = 0 := by simpa using hcut
    rw [hzero]
    positivity
  · obtain ⟨hlow, hhigh⟩ := topBit_binade (p := .fin false m e) (topBit_eq_some.2 ⟨hm, rfl⟩)
    rw [abs_rat] at hlow hhigh
    have hexp : roundExp t m e = max ((Nat.log2 m : Int) + e - t.f) t.qmin := if_neg hm
    generalize roundExp t m e = q at *
    have hq : (0 : ℚ) < 2 ^ q := by positivity
    refine ⟨?_, ?_⟩
    · have hlt : (m : ℚ) * 2 ^ e / 2 ^ q < ((2 ^ (t.f + 1) : Nat) : Int) := by
        rw [div_lt_iff₀ hq]
        refine hhigh.trans_le ?_
        push_cast
        rw [← zpow_natCast, ← zpow_add₀ two_ne_zero]
        exact zpow_le_zpow_right₀ one_le_two (by push_cast; omega)
      have := hcut.trans_lt (Int.floor_lt.2 hlt)
      exact_mod_cast this
    · refine or_iff_not_imp_left.2 fun hk => ?_
      have hle : (((2 ^ t.f : Nat) : Int) : ℚ) ≤ (m : ℚ) * 2 ^ e / 2 ^ q := by
        rw [le_div_iff₀ hq]
        refine le_trans ?_ hlow
        push_cast
        rw [← zpow_natCast, ← zpow_add₀ two_ne_zero]
        exact zpow_le_zpow_right₀ one_le_two (by omega)
      have := (Int.le_floor.2 hle).trans_eq hcut.symm
      exact_mod_cast this

/-- A magnitude `x` lies at or after the number of the code `lo`, in whole units of `u`, and before the next. -/
structure Between (t : Fmt) (x u : ℚ) (lo : Nat) : Prop where
  pos : 0 < u
  low : codeVal t lo = ⌊x / u⌋ * u
  next : codeVal t (lo + 1) = codeVal t lo + u
  parity : (lo : Int) % 2 = ⌊x / u⌋ % 2

theorem between_lowCode {t : Fmt} (ht : t ∈ formats) (m : Nat) (e : Int) :
    Between t (m * 2 ^ e) (2 ^ roundExp t m e) (lowCode t m e) := by
  obtain ⟨hhigh, hlow⟩ := cutMag_bounds t m e
  have hexp : ((roundExp t m e - t.qmin).toNat : Int) + t.qmin = roundExp t m e := by
    have := qmin_le_roundExp t m e
    omega
  have hval := codeVal_add (t := t) hhigh.le hlow
  have hnext := codeVal_add (t := t) (mag := cutMag (roundExp t m e) m e + 1) hhigh (hlow.imp id Nat.le_succ_of_le)
  rw [hexp] at hval hnext
  refine ⟨by positivity, ?_, ?_, ?_⟩
  · rw [lowCode, hval, ← cutMag_eq, Int.cast_natCast]
  · rw [lowCode, hval, add_right_comm, hnext]
    push_cast
    ring
  · have heven : 2 ^ t.f % 2 = 0 := Nat.mod_eq_zero_of_dvd (dvd_pow_self 2 (Nat.one_le_iff_ne_zero.1 (formats_bounds ht).1))
    rw [← cutMag_eq, lowCode]
    have : (roundExp t m e - t.qmin).toNat * 2 ^ t.f % 2 = 0 := by rw [Nat.mul_mod, heven, mul_zero, Nat.zero_mod]
    omega

/-! What `roundMag` does with a magnitude in units (R55 to R57). -/

/-- The part of a magnitude that its whole units leave. -/
theorem fract_units (q : Int) (m : Nat) (e : Int) : Int.fract ((m : ℚ) * 2 ^ e / 2 ^ q) =
    ((if e ≥ q then 0 else m % 2 ^ (q - e).toNat : Nat) : ℚ) / (2 ^ (q - e).toNat : Nat) := by
  rw [units_eq]
  split
  · rw [Int.fract_natCast, Nat.cast_zero, zero_div]
  · exact Int.fract_div_natCast_eq_div_natCast_mod

theorem goesUp_exact {rm : Rm} {draw : Nat} {neg : Bool} {y : ℚ} (h : Int.fract y = 0) : goesUp rm draw neg y = false := by
  cases rm <;> simp [goesUp, h]

/-- What a result past the largest finite value becomes (R57). -/
def beyondCode (t : Fmt) (rm : Rm) (neg up : Bool) : Nat :=
  if t = fE4M3 then t.nan
  else if t.inf && (decide (rm = .rn) || decide (rm = .ru) && !neg || decide (rm = .rd) && neg || decide (rm = .rs) && up)
    then t.infCode else t.maxCode

/-- To the nearest, by the rest below a power of two (R55). -/
theorem goesUp_rn {draw : Nat} {neg : Bool} {y : ℚ} {rem k kept : Nat} (hy : Int.fract y = rem / (2 ^ (k + 1) : Nat))
    (hkept : (kept : Int) = ⌊y⌋) :
    goesUp .rn draw neg y = if rem > 2 ^ k then true else if rem = 2 ^ k then decide (kept % 2 = 1) else false := by
  have hpos : (0 : ℚ) < (2 ^ (k + 1) : Nat) := by positivity
  have hhalf : 1 / 2 * ((2 ^ (k + 1) : Nat) : ℚ) = (2 ^ k : Nat) := by
    push_cast
    rw [pow_succ]
    ring
  have hlt : 1 / 2 < Int.fract y ↔ 2 ^ k < rem := by rw [hy, lt_div_iff₀ hpos, hhalf, Nat.cast_lt]
  have heq : Int.fract y = 1 / 2 ↔ rem = 2 ^ k := by rw [hy, div_eq_iff hpos.ne', hhalf, Nat.cast_inj]
  have hodd : ⌊y⌋ % 2 = 1 ↔ kept % 2 = 1 := by omega
  unfold goesUp
  simp only [hlt, heq, hodd]
  rcases lt_trichotomy rem (2 ^ k) with h | h | h
  · simp [h.ne, h.not_gt]
  · simp [h]
  · simp [h]

/-- The draw goes up where it carries out of 24 bits (R56). -/
theorem goesUp_rs {draw : Nat} {neg : Bool} {y : ℚ} {rem n : Nat} (hy : Int.fract y = rem / (2 ^ n : Nat)) :
    goesUp .rs draw neg y = (decide (rem ≠ 0) && decide ((rem <<< 24) >>> n + draw ≥ 2 ^ 24)) := by
  have hpos : ((2 ^ n : Nat) : ℚ) ≠ 0 := by positivity
  have hne : Int.fract y ≠ 0 ↔ rem ≠ 0 := by
    rw [hy, ne_eq, div_eq_zero_iff, or_iff_left hpos, Nat.cast_eq_zero]
  have hfloor : ⌊Int.fract y * 2 ^ 24⌋ = ((rem <<< 24) >>> n : Nat) := by
    rw [Nat.shiftLeft_eq, Nat.shiftRight_eq_div_pow, ← Nat.floor_div_eq_div (K := ℚ), Int.natCast_floor_eq_floor (by positivity), hy]
    rw [div_mul_eq_mul_div]
    push_cast
    rfl
  unfold goesUp
  rw [hfloor]
  simp only [hne, ge_iff_le]
  congr 2
  exact_mod_cast rfl

/-- How `roundMag` goes up from a kept part, in its own words with nothing lost below: by the rest of 2^sh, its half,
and `whole` where no unit is cut off. -/
def restUp (rm : Rm) (draw : Nat) (neg whole : Bool) (kept rem half sh : Nat) : Bool :=
  match rm with
  | .rn => if whole || half = 0 then false
           else if rem > half then true
           else if rem = half then false || kept % 2 = 1 else false
  | .rz => false
  | .ru => (rem ≠ 0 || false) && !neg
  | .rd => (rem ≠ 0 || false) && neg
  | .rs => (rem ≠ 0 || false) && decide ((rem <<< 24) >>> sh + draw ≥ 2 ^ 24)

/-- `roundMag` goes up where the mode does (R55, R56). -/
theorem restUp_eq (rm : Rm) (draw : Nat) (neg : Bool) {q e : Int} {m kept rem : Nat} {y : ℚ}
    (hrem : rem = if e ≥ q then 0 else m % 2 ^ (q - e).toNat) (hfract : Int.fract y = rem / (2 ^ (q - e).toNat : Nat))
    (hkept : (kept : Int) = ⌊y⌋) :
    restUp rm draw neg (decide (e ≥ q)) kept rem (if e ≥ q then 0 else 2 ^ (q - e).toNat / 2) (q - e).toNat
      = goesUp rm draw neg y := by
  by_cases hge : e ≥ q
  · rw [if_pos hge] at hrem
    rw [goesUp_exact (by rw [hfract, hrem, Nat.cast_zero, zero_div])]
    cases rm <;> simp [restUp, hge, hrem]
  · obtain ⟨k, hk⟩ : ∃ k, (q - e).toNat = k + 1 := ⟨(q - e).toNat - 1, by omega⟩
    rw [hk] at hfract ⊢
    have hne : Int.fract y ≠ 0 ↔ rem ≠ 0 := by
      rw [hfract, ne_eq, div_eq_zero_iff, or_iff_left (by positivity), Nat.cast_eq_zero]
    cases rm with
    | rn => simp [restUp, goesUp_rn hfract hkept, hge, pow_succ]
    | rz => rfl
    | ru => simp [restUp, goesUp, hne]
    | rd => simp [restUp, goesUp, hne]
    | rs => simp [restUp, goesUp_rs hfract]

/-- The code that a mode takes of the two around a magnitude. -/
def takenCode (t : Fmt) (rm : Rm) (draw : Nat) (neg : Bool) (m : Nat) (e : Int) : Nat :=
  lowCode t m e + (goesUp rm draw neg (m * 2 ^ e / 2 ^ roundExp t m e)).toNat

theorem roundMag_eq (t : Fmt) (rm : Rm) (draw : Nat) (neg : Bool) (m : Nat) (e : Int) :
    roundMag t rm draw neg m e false =
      let y : ℚ := m * 2 ^ e / 2 ^ roundExp t m e
      let up := goesUp rm draw neg y
      let code := takenCode t rm draw neg m e
      let inexact := decide (Int.fract y ≠ 0)
      if t.maxCode < code then ⟨beyondCode t rm neg up, fOVF ||| fINX, up, true⟩
      else ⟨code, flagIf inexact fINX ||| flagIf (inexact && (decide (code ≠ 0) && decide (code < 2 ^ t.f))) fUNF, up, false⟩ := by
  extract_lets y up code inexact
  by_cases hm : m = 0
  · subst hm
    have hy : y = 0 := by simp [y]
    have hup : up = false := goesUp_exact (by rw [hy, Int.fract_zero])
    have hcode : code = 0 := by simp [code, takenCode, lowCode, roundExp, cutMag, goesUp_exact]
    have hinexact : inexact = false := by simp [inexact, hy]
    rw [hcode, hup, hinexact, if_neg (Nat.not_lt_zero _)]
    simp [roundMag, flagIf]
  · unfold roundMag
    rw [if_neg (by simp [hm])]
    extract_lets q sh kept rem half inexact' up' mag code' toInf c
    have hq : q = roundExp t m e := (if_neg hm).symm
    have hkept : kept = cutMag (roundExp t m e) m e := by
      rw [← hq]
      simp only [kept, cutMag, Nat.shiftLeft_eq, Nat.shiftRight_eq_div_pow]
      rfl
    have hfract : Int.fract y = (rem : ℚ) / (2 ^ sh : Nat) := by
      rw [show y = m * 2 ^ e / 2 ^ q by rw [hq], fract_units]
    have hinexact : inexact' = inexact := by
      have hpos : ((2 ^ sh : Nat) : ℚ) ≠ 0 := by positivity
      have hne : Int.fract y ≠ 0 ↔ rem ≠ 0 := by rw [hfract, ne_eq, div_eq_zero_iff, or_iff_left hpos, Nat.cast_eq_zero]
      simp only [inexact', inexact, hne, Bool.or_false]
    have hfloor : (kept : Int) = ⌊y⌋ := by rw [hkept, cutMag_eq]
    have hup : up' = up := restUp_eq rm draw neg rfl hfract hfloor
    have hmag : mag = kept + up.toNat := by
      simp only [mag, hup]
      cases up <;> rfl
    have hlow := (cutMag_bounds t m e).2
    have hpow : 0 < 2 ^ t.f := by positivity
    have hsum : code = mag + (q - t.qmin).toNat * 2 ^ t.f := by
      rw [hmag, hkept, hq]
      exact Nat.add_right_comm _ _ _
    have hcode : code' = code := by
      rw [hsum]
      simp only [code']
      split
      · next h0 =>
        rw [hq, hlow.resolve_right (by omega), h0]
        simp
      · rfl
    have hunf : (decide (mag ≠ 0) && decide (mag < 2 ^ t.f)) = (decide (code ≠ 0) && decide (code < 2 ^ t.f)) := by
      rcases hlow with h | h
      · rw [hsum, hq, h, Nat.zero_mul, Nat.add_zero]
      · simp [show ¬ mag < 2 ^ t.f by omega, show ¬ code < 2 ^ t.f by omega]
    have hc : c = beyondCode t rm neg up := by
      rw [← hup]
      cases rm <;> simp [c, toInf, beyondCode]
    rw [hcode, hc, hup, hinexact, Bool.and_assoc, hunf]

section
variable {t : Fmt} {rm : Rm} {draw : Nat} {neg : Bool} {m : Nat} {e : Int}

theorem roundMag_beyond_iff :
    (roundMag t rm draw neg m e false).beyond = true ↔ t.maxCode < takenCode t rm draw neg m e := by
  rw [roundMag_eq]
  dsimp only
  split
  · next h => exact iff_of_true rfl h
  · next h => exact iff_of_false Bool.false_ne_true h

theorem roundMag_within (h : takenCode t rm draw neg m e ≤ t.maxCode) :
    let r := roundMag t rm draw neg m e false
    let inexact := decide (Int.fract ((m : ℚ) * 2 ^ e / 2 ^ roundExp t m e) ≠ 0)
    r.code = takenCode t rm draw neg m e
      ∧ r.flags = flagIf inexact fINX ||| flagIf (inexact && (decide (r.code ≠ 0) && decide (r.code < 2 ^ t.f))) fUNF := by
  intro r inexact
  have hr : r = _ := (roundMag_eq t rm draw neg m e).trans (if_neg (not_lt.2 h))
  rw [hr]
  exact ⟨rfl, rfl⟩

theorem roundMag_past (h : t.maxCode < takenCode t rm draw neg m e) :
    (roundMag t rm draw neg m e false).flags = fOVF ||| fINX ∧ (roundMag t rm draw neg m e false).code
      = beyondCode t rm neg (goesUp rm draw neg ((m : ℚ) * 2 ^ e / 2 ^ roundExp t m e)) := by
  rw [roundMag_eq]
  dsimp only
  rw [if_pos h]
  exact ⟨rfl, rfl⟩

end

/-! The codes around a number, in their order (R55). -/

namespace Between

variable {t : Fmt} {x u : ℚ} {lo : Nat} (h : Between t x u lo)
include h

theorem eq_add_fract : x = codeVal t lo + Int.fract (x / u) * u := by
  rw [h.low, ← add_mul, Int.floor_add_fract, div_mul_cancel₀ _ h.pos.ne']

/-- A number lies from its lower code on, and before the next. -/
theorem bounds : codeVal t lo ≤ x ∧ x < codeVal t (lo + 1) := by
  have hx := h.eq_add_fract
  have hnonneg := mul_nonneg (Int.fract_nonneg (x / u)) h.pos.le
  have hlt := mul_lt_mul_of_pos_right (Int.fract_lt_one (x / u)) h.pos
  rw [h.next]
  exact ⟨by linarith, by linarith⟩

theorem exact_iff : Int.fract (x / u) = 0 ↔ codeVal t lo = x := by
  conv_rhs => rw [h.eq_add_fract]
  rw [left_eq_add, mul_eq_zero, or_iff_left h.pos.ne']

/-- The lower code is the greatest of those that are not greater. -/
theorem le_iff {c : Nat} : codeVal t c ≤ x ↔ c ≤ lo := by
  obtain ⟨hlow, hhigh⟩ := h.bounds
  refine ⟨fun hc => ?_, fun hc => ((codeVal_strictMono t).monotone hc).trans hlow⟩
  exact Nat.le_of_lt_succ ((codeVal_strictMono t).lt_iff_lt.1 (hc.trans_lt hhigh))

/-- The code after it, where the number is not exact, is the least of those that are not less. -/
theorem ge_iff {c : Nat} : x ≤ codeVal t c ↔ lo + (decide (Int.fract (x / u) ≠ 0)).toNat ≤ c := by
  obtain ⟨hlow, hhigh⟩ := h.bounds
  by_cases hf : Int.fract (x / u) = 0
  · have hx := h.exact_iff.1 hf
    conv_lhs => rw [← hx]
    simp [hf, (codeVal_strictMono t).le_iff_le]
  · have hx : codeVal t lo ≠ x := fun e => hf (h.exact_iff.2 e)
    rw [decide_eq_true hf, Bool.toNat_true, Nat.succ_le_iff]
    refine ⟨fun hc => (codeVal_strictMono t).lt_iff_lt.1 ((lt_of_le_of_ne hlow hx).trans_le hc), fun hc => ?_⟩
    exact hhigh.le.trans ((codeVal_strictMono t).monotone hc)

/-- The code that a mode takes is exact where the number is. -/
theorem code_ne_iff {rm : Rm} {draw : Nat} {neg : Bool} :
    codeVal t (lo + (goesUp rm draw neg (x / u)).toNat) ≠ x ↔ Int.fract (x / u) ≠ 0 := by
  refine not_congr ⟨fun hx => ?_, fun hf => ?_⟩
  · cases hup : goesUp rm draw neg (x / u) with
    | false =>
      rw [hup] at hx
      exact h.exact_iff.2 hx
    | true =>
      rw [hup] at hx
      exact absurd hx h.bounds.2.ne'
  · rw [goesUp_exact hf]
    exact h.exact_iff.1 hf

/-- The number of the code that is taken, in whole units. -/
theorem codeVal_up (b : Bool) : codeVal t (lo + b.toNat) = if b then (⌊x / u⌋ + 1) * u else ⌊x / u⌋ * u := by
  cases b
  · exact h.low
  · rw [Bool.toNat_true, h.next, h.low]
    exact (add_one_mul _ _).symm

/-- To the nearest: at most half a unit is added or left, and half a unit goes to the even code (R55). -/
theorem nearest_cases (draw : Nat) (neg : Bool) :
    let d := x - codeVal t lo
    (goesUp .rn draw neg (x / u) = false ∧ d ≤ u / 2 ∧ (d = u / 2 → lo % 2 = 0))
      ∨ (goesUp .rn draw neg (x / u) = true ∧ u / 2 ≤ d ∧ (d = u / 2 → lo % 2 = 1)) := by
  intro d
  have hd : d = Int.fract (x / u) * u := by
    have := h.eq_add_fract
    simp only [d]
    linarith
  have hpos := h.pos
  have hpar := h.parity
  have hhalf : d = u / 2 ↔ Int.fract (x / u) = 1 / 2 := by
    rw [hd, div_eq_mul_one_div u, mul_comm u, mul_left_inj' hpos.ne']
  have hlt : u / 2 < d ↔ 1 / 2 < Int.fract (x / u) := by
    rw [hd, div_eq_mul_one_div u, mul_comm u, mul_lt_mul_iff_left₀ hpos]
  rw [hhalf]
  rcases lt_trichotomy d (u / 2) with hc | hc | hc
  · have hne := mt hhalf.2 hc.ne
    refine .inl ⟨?_, hc.le, fun e => absurd e hne⟩
    unfold goesUp
    rw [decide_eq_false (mt hlt.2 hc.not_gt), decide_eq_false hne]
    rfl
  · have heq := hhalf.1 hc
    rcases Int.emod_two_eq_zero_or_one ⌊x / u⌋ with h2 | h2
    · exact .inl ⟨by simp [goesUp, heq, h2], hc.le, fun _ => by omega⟩
    · exact .inr ⟨by simp [goesUp, heq, h2], hc.ge, fun _ => by omega⟩
  · refine .inr ⟨?_, hc.le, fun e => absurd (hhalf.2 e) hc.ne'⟩
    unfold goesUp
    rw [decide_eq_true (hlt.1 hc)]
    rfl

/-- To the nearest, no code is nearer, and another as near leaves the even one (R55). -/
theorem nearest (draw : Nat) (neg : Bool) (c : Nat) :
    let code := lo + (goesUp .rn draw neg (x / u)).toNat
    |codeVal t code - x| ≤ |codeVal t c - x|
      ∧ (c ≠ code → |codeVal t code - x| = |codeVal t c - x| → code % 2 = 0) := by
  intro code
  obtain ⟨hlow, hhigh⟩ := h.bounds
  have hnext := h.next
  have hmono := codeVal_strictMono t
  have hat : |codeVal t lo - x| = x - codeVal t lo := by rw [abs_sub_comm, abs_of_nonneg (sub_nonneg.2 hlow)]
  have hafter : |codeVal t (lo + 1) - x| = codeVal t (lo + 1) - x := abs_of_pos (sub_pos.2 hhigh)
  have hbelow : c < lo → x - codeVal t lo < |codeVal t c - x| := fun hc => by
    have := hmono hc
    rw [abs_sub_comm]
    exact lt_of_lt_of_le (by linarith) (le_abs_self _)
  have habove : lo + 1 < c → codeVal t (lo + 1) - x < |codeVal t c - x| := fun hc =>
    lt_of_lt_of_le (sub_lt_sub_right (hmono hc) x) (le_abs_self _)
  have hplace : c < lo ∨ c = lo ∨ c = lo + 1 ∨ lo + 1 < c := by omega
  rcases h.nearest_cases draw neg with ⟨hup, hd, heven⟩ | ⟨hup, hd, hodd⟩
  · have hcode : code = lo := by simp [code, hup]
    rw [hcode, hat]
    rcases hplace with hc | rfl | rfl | hc
    · exact ⟨(hbelow hc).le, fun _ e => absurd e (hbelow hc).ne⟩
    · exact ⟨hat.ge, fun hne => absurd rfl hne⟩
    · rw [hafter]
      exact ⟨by linarith, fun _ e => heven (by linarith)⟩
    · exact ⟨by linarith [habove hc], fun _ e => absurd e (by linarith [habove hc] : _ < _).ne⟩
  · have hcode : code = lo + 1 := by simp [code, hup]
    rw [hcode, hafter]
    rcases hplace with hc | rfl | rfl | hc
    · exact ⟨by linarith [hbelow hc], fun _ e => absurd e (by linarith [hbelow hc] : _ < _).ne⟩
    · rw [hat]
      refine ⟨by linarith, fun _ e => ?_⟩
      have := hodd (by linarith)
      omega
    · exact ⟨hafter.ge, fun hne => absurd rfl hne⟩
    · exact ⟨(habove hc).le, fun _ e => absurd e (habove hc).ne⟩

/-- To the nearest, a number passes a code where it passes half way to the next, or reaches it from an odd code. -/
theorem nearest_beyond (draw : Nat) (neg : Bool) (c : Nat) :
    let gap := codeVal t (c + 1) - codeVal t c
    c < lo + (goesUp .rn draw neg (x / u)).toNat ↔
      codeVal t c + gap / 2 < x ∨ (codeVal t c + gap / 2 = x ∧ c % 2 = 1) := by
  intro gap
  obtain ⟨hlow, hhigh⟩ := h.bounds
  have hmono := codeVal_strictMono t
  have hgap : 0 < gap := sub_pos.2 (hmono c.lt_succ_self)
  have hle := (goesUp .rn draw neg (x / u)).toNat_le
  rcases lt_trichotomy lo c with hc | rfl | hc
  · have := hmono.monotone (Nat.succ_le_of_lt hc)
    refine iff_of_false (by omega) ?_
    rintro (hx | ⟨hx, -⟩) <;> linarith
  · have hu : gap = u := by simp only [gap, h.next, add_sub_cancel_left]
    rw [hu]
    rcases h.nearest_cases draw neg with ⟨hup, hd, heven⟩ | ⟨hup, hd, hodd⟩
    · refine iff_of_false (by simp [hup]) ?_
      rintro (hx | ⟨hx, h1⟩)
      · linarith
      · have := heven (by linarith)
        omega
    · refine iff_of_true (by simp [hup]) ?_
      rcases hd.lt_or_eq with hx | hx
      · exact .inl (by linarith)
      · exact .inr ⟨by linarith, hodd hx.symm⟩
  · have := hmono.monotone (Nat.succ_le_of_lt hc)
    exact iff_of_true (by omega) (.inl (by linarith))

end Between

/-! The modes (R55, R57). -/

theorem goesUp_toward {rm : Rm} {draw : Nat} {neg : Bool} {y : ℚ}
    (h : rm = .rz ∨ (rm = .rd ∧ neg = false) ∨ (rm = .ru ∧ neg = true)) : goesUp rm draw neg y = false := by
  rcases h with rfl | ⟨rfl, rfl⟩ | ⟨rfl, rfl⟩
  · rfl
  · exact Bool.and_false _
  · exact Bool.and_false _

theorem goesUp_away {rm : Rm} {draw : Nat} {neg : Bool} {y : ℚ} (h : (rm = .ru ∧ neg = false) ∨ (rm = .rd ∧ neg = true)) :
    goesUp rm draw neg y = decide (Int.fract y ≠ 0) := by
  rcases h with ⟨rfl, rfl⟩ | ⟨rfl, rfl⟩
  · exact Bool.and_true _
  · exact Bool.and_true _

theorem goesUp_drawn {draw : Nat} {neg : Bool} {y : ℚ} : goesUp .rs draw neg y = true ↔
    Int.fract y ≠ 0 ∧ 2 ^ 24 ≤ ⌊Int.fract y * 2 ^ 24⌋ + (draw : Int) := by
  unfold goesUp
  rw [Bool.and_eq_true, decide_eq_true_eq, decide_eq_true_eq]

/-- The binade of a magnitude that is not 0. -/
theorem log_magnitude {m : Nat} (hm : m ≠ 0) (e : Int) : Int.log 2 ((m : ℚ) * 2 ^ e) = Nat.log2 m + e := by
  obtain ⟨hlow, hhigh⟩ := topBit_binade (p := .fin false m e) (topBit_eq_some.2 ⟨hm, rfl⟩)
  rw [abs_rat] at hlow hhigh
  have hpos : (0 : ℚ) < m * 2 ^ e := lt_of_lt_of_le (by positivity) hlow
  refine le_antisymm (Int.lt_add_one_iff.1 ?_) ?_
  · exact (Int.lt_zpow_iff_log_lt one_lt_two hpos).1 (by exact_mod_cast hhigh)
  · exact (Int.zpow_le_iff_le_log one_lt_two hpos).1 (by exact_mod_cast hlow)

theorem inx_flag (a b : Bool) : fINX &&& (flagIf a fINX ||| flagIf b fUNF) ≠ 0 ↔ a = true := by
  cases a <;> cases b <;> decide

theorem unf_flag (a b : Bool) : fUNF &&& (flagIf a fINX ||| flagIf b fUNF) ≠ 0 ↔ b = true := by
  cases a <;> cases b <;> decide

/-- Past the largest finite value: E4M3's NaN, an infinity where the mode goes away from zero, or that value (R57). -/
theorem beyondCode_eq {t : Fmt} (ht : t ∈ formats) (h2 : t ≠ fE2M1) (rm : Rm) (neg up : Bool) :
    beyondCode t rm neg up = if t = fE4M3 then 0x7F
      else if rm = .rn ∨ ((rm = .ru ∧ neg = false) ∨ (rm = .rd ∧ neg = true)) ∨ (rm = .rs ∧ up = true) then t.infCode
      else t.maxCode := by
  obtain ⟨-, -, -, -, -, hinf, -⟩ := formats_bounds ht
  unfold beyondCode
  by_cases h4 : t = fE4M3
  · rw [if_pos h4, if_pos h4, h4]
    rfl
  · rw [if_neg h4, if_neg h4, hinf h4 h2]
    cases rm <;> simp

section
variable {t : Fmt} {rm : Rm} {draw : Nat} {neg : Bool} {m : Nat} {e : Int} (ht : t ∈ formats)
include ht

/-- The code of a rounding whose result is not beyond the format (R55 to R57). -/
theorem roundMag_code (h : takenCode t rm draw neg m e ≤ t.maxCode) :
    let r := roundMag t rm draw neg m e false
    let x : ℚ := m * 2 ^ e
    r.code = takenCode t rm draw neg m e ∧ codeRat t r.code = codeVal t (takenCode t rm draw neg m e)
      ∧ (fINX &&& r.flags ≠ 0 ↔ codeRat t r.code ≠ x)
      ∧ (fUNF &&& r.flags ≠ 0 ↔ codeRat t r.code ≠ x ∧ 0 < r.code ∧ r.code < 2 ^ t.f) := by
  intro r x
  obtain ⟨hcode, hflags⟩ := roundMag_within h
  have hrat : codeRat t r.code = codeVal t (takenCode t rm draw neg m e) := by rw [hcode, codeRat_eq ht h]
  have hne : codeRat t r.code ≠ x ↔ Int.fract (x / 2 ^ roundExp t m e) ≠ 0 := by
    rw [hrat]
    exact (between_lowCode ht m e).code_ne_iff
  refine ⟨hcode, hrat, ?_, ?_⟩
  · rw [hflags, inx_flag, decide_eq_true_eq, hne]
  · rw [hflags, unf_flag, Bool.and_eq_true, Bool.and_eq_true, decide_eq_true_eq, decide_eq_true_eq, decide_eq_true_eq, hne,
      Nat.pos_iff_ne_zero]

/-- Toward zero: the greatest code that is not greater (R55). -/
theorem takenCode_toward (hd : rm = .rz ∨ (rm = .rd ∧ neg = false) ∨ (rm = .ru ∧ neg = true)) (c : Nat) :
    codeVal t c ≤ m * 2 ^ e ↔ c ≤ takenCode t rm draw neg m e := by
  rw [takenCode, goesUp_toward hd]
  exact (between_lowCode ht m e).le_iff

/-- Away from zero: the least code that is not less (R55). -/
theorem takenCode_away (hd : (rm = .ru ∧ neg = false) ∨ (rm = .rd ∧ neg = true)) (c : Nat) :
    m * 2 ^ e ≤ codeVal t c ↔ takenCode t rm draw neg m e ≤ c := by
  rw [takenCode, goesUp_away hd]
  exact (between_lowCode ht m e).ge_iff

end

/-- Settles O11: the magnitude lies between two codes that follow each other, and `goesUp` takes one of them by the mode.
UNF is the model's reading of log 7. -/
theorem roundingGivesTheCodeOfItsMode : Obligations.RoundingGivesTheCodeOfItsMode := by
  intro t rm neg m e draw ht _ r x top gap away toward u up drawn
  have hb : Between t x (2 ^ roundExp t m e) (lowCode t m e) := between_lowCode ht m e
  have hmono := codeVal_strictMono t
  have hnext : top + gap = codeVal t (t.maxCode + 1) := top_add_gap ht
  have htop : top = codeVal t t.maxCode := codeRat_eq ht le_rfl
  have hgap : gap = codeVal t (t.maxCode + 1) - codeVal t t.maxCode := by linarith
  have hu : 0 < m → u = 2 ^ roundExp t m e := fun hm => by
    simp only [u, x, roundExp, log_magnitude hm.ne', if_neg hm.ne']
  have hdrawn : rm = .rs → 0 < m → drawn = codeVal t (takenCode t rm draw neg m e) := by
    rintro rfl hm
    rw [takenCode, hb.codeVal_up]
    simp only [drawn, up, hu hm, goesUp_drawn]
    rfl
  have hbeyond : r.beyond = true ↔ t.maxCode < takenCode t rm draw neg m e := roundMag_beyond_iff
  refine ⟨fun hin => ?_, fun hd => ?_, fun hd => ?_, ?_, fun hrs hm => ?_, fun hout h2 => ?_⟩
  · have hle : takenCode t rm draw neg m e ≤ t.maxCode := by
      rw [← not_lt, ← hbeyond, hin]
      exact Bool.false_ne_true
    obtain ⟨hcode, hrat, hinx, hunf⟩ := roundMag_code ht hle
    refine ⟨hcode.trans_le hle, hinx, hunf, fun hd => ?_, fun hd => ?_, ?_, fun hrs hm => hrat.trans (hdrawn hrs hm).symm⟩
    · refine ⟨hrat.trans_le ((takenCode_toward ht hd _).2 le_rfl), fun c hc hx => ?_⟩
      rw [codeRat_eq ht hc] at hx ⊢
      exact (hmono.monotone ((takenCode_toward ht hd c).1 hx)).trans_eq hrat.symm
    · refine ⟨((takenCode_away ht hd _).2 le_rfl).trans_eq hrat.symm, fun c hc hx => ?_⟩
      rw [codeRat_eq ht hc] at hx ⊢
      exact hrat.trans_le (hmono.monotone ((takenCode_away ht hd c).1 hx))
    · rintro rfl c hc
      rw [hrat, codeRat_eq ht hc, hcode]
      exact hb.nearest draw neg c
  · rw [hbeyond, hnext]
    exact (takenCode_toward ht hd _).symm
  · rw [hbeyond, htop, ← not_le, ← takenCode_away ht hd, not_le]
  · rintro rfl
    rw [hbeyond, htop, hgap]
    exact hb.nearest_beyond draw neg t.maxCode
  · rw [hbeyond, htop, hdrawn hrs hm, hmono.lt_iff_lt]
  · have hm : 0 < m := by
      rw [Nat.pos_iff_ne_zero]
      rintro rfl
      simp [r, roundMag] at hout
    have hup : (rm = .rs ∧ goesUp rm draw neg (x / 2 ^ roundExp t m e) = true) ↔ (rm = .rs ∧ up) :=
      and_congr_right fun hrs => by rw [hrs, goesUp_drawn, ← hu hm]
    obtain ⟨hflags, hcode⟩ := roundMag_past (hbeyond.1 hout)
    refine ⟨hflags, (hcode.trans (beyondCode_eq ht h2 rm neg _)).trans ?_⟩
    simp only [x] at hup
    simp only [hup]
    rfl

end Sys2Proof.Machine
end

