-- ==== Sys2Proof/Proofs/MatrixTotals.lean ====
section
/-! SUPPORT. An element of a matrix word is the exact total of its products, rounded once (R64 to R66, R251). -/

namespace Sys2Proof.Machine

/-! Products (R66). -/

theorem isNegZero_fin (s : Bool) (k : Nat) (e : Int) : isNegZero (.fin s k e) = (decide (k = 0) && s) := by
  cases s <;> cases k <;> rfl

/-- What kind of value a product is: a NaN, an infinity, −0, or finite. -/
theorem mulV_kind (x y : FVal) : isNan (mulV x y).1 = (isNan x || isNan y || zeroTimesInf x y)
    ∧ (signOf (mulV x y).1).toList = infOf x y ∧ isNegZero (mulV x y).1 = negZeroProduct x y
    ∧ (mulV x y).1.finite = (x.finite && y.finite) := by
  cases x with
  | nan a => cases y <;> exact ⟨rfl, rfl, rfl, rfl⟩
  | inf a =>
    cases y with
    | nan b => exact ⟨rfl, rfl, rfl, rfl⟩
    | inf b => cases a <;> cases b <;> exact ⟨rfl, rfl, rfl, rfl⟩
    | fin b n f =>
      by_cases hn : n = 0
      · simp [mulV, isNan, zeroTimesInf, signOf, infOf, isNegZero, negZeroProduct, FVal.finite, hn]
      · cases a <;> cases b <;> simp [mulV, isNan, zeroTimesInf, signOf, infOf, isNegZero, negZeroProduct, FVal.finite, hn]
  | fin a m e =>
    cases y with
    | nan b => exact ⟨rfl, rfl, rfl, rfl⟩
    | inf b =>
      by_cases hm : m = 0
      · simp [mulV, isNan, zeroTimesInf, signOf, infOf, isNegZero, negZeroProduct, FVal.finite, hm]
      · cases a <;> cases b <;> simp [mulV, isNan, zeroTimesInf, signOf, infOf, isNegZero, negZeroProduct, FVal.finite, hm]
    | fin b n f =>
      refine ⟨rfl, rfl, (isNegZero_fin ..).trans ?_, rfl⟩
      cases a <;> cases b <;> simp [negZeroProduct]

theorem finite_iff (x : FVal) : x.finite = true ↔ isNan x = false ∧ signOf x = none := by
  cases x <;> simp [FVal.finite, isNan, signOf]

/-! The exact total of finite values (R65). -/

/-- A finite value over the exponent `b`. -/
def overExp (b : Int) : FVal → Int
  | .fin n m e => alignTo n m e b
  | _ => 0

theorem sumOver_eq (b : Int) (xs : List FVal) : sumOver b xs = (xs.map (overExp b)).sum := by
  rw [List.sum_eq_foldl]
  rfl

/-- The lower of an exponent and that of a finite value. -/
def lowerExp (b : Int) : FVal → Int
  | .fin _ _ e => min b e
  | _ => b

theorem foldl_lowerExp_le (xs : List FVal) (b : Int) :
    xs.foldl lowerExp b ≤ b ∧ ∀ n m e, .fin n m e ∈ xs → xs.foldl lowerExp b ≤ e := by
  induction xs generalizing b with
  | nil => exact ⟨le_rfl, fun _ _ _ h => absurd h List.not_mem_nil⟩
  | cons x xs ih =>
    obtain ⟨hb, he⟩ := ih (lowerExp b x)
    have hle : lowerExp b x ≤ b := by cases x <;> simp [lowerExp]
    refine ⟨hb.trans hle, fun n m e hx => ?_⟩
    rcases List.mem_cons.1 hx with rfl | hx
    · exact hb.trans (min_le_right _ _)
    · exact he n m e hx

/-- `lowExp` is a common exponent of finite values. -/
theorem lowExp_le (xs : List FVal) : ∀ n m e, .fin n m e ∈ xs → lowExp xs ≤ e := (foldl_lowerExp_le xs 0).2

theorem sumOver_rat {b : Int} {xs : List FVal} (hf : ∀ x ∈ xs, x.finite = true) (hb : ∀ n m e, .fin n m e ∈ xs → b ≤ e) :
    (sumOver b xs : ℚ) * 2 ^ b = (xs.map FVal.rat).sum := by
  rw [sumOver_eq]
  induction xs with
  | nil => simp
  | cons x xs ih =>
    obtain ⟨hx, hxs⟩ := List.forall_mem_cons.1 hf
    obtain ⟨n, m, e, rfl⟩ := exists_fin_of_finite hx
    have hterm : (overExp b (.fin n m e) : ℚ) * 2 ^ b = (FVal.fin n m e).rat := alignTo_rat (hb n m e (List.mem_cons_self ..))
    rw [List.map_cons, List.sum_cons, List.map_cons, List.sum_cons, Int.cast_add, add_mul, hterm,
      ih hxs fun n m e h => hb n m e (List.mem_cons_of_mem _ h)]

/-! An accumulator word and its products (R65, R66). -/

section
variable {c : Nat} {ps : List FVal}

theorem mmaTotal_nan (h : (unpack fF32 c :: ps).any isNan = true) : mmaTotal c ps = fF32.nan := by
  unfold mmaTotal
  rw [if_pos h]

/-- Infinities of both signs make a NaN. -/
theorem mmaTotal_opposed (ht : true ∈ (unpack fF32 c :: ps).filterMap signOf)
    (hf : false ∈ (unpack fF32 c :: ps).filterMap signOf) : mmaTotal c ps = fF32.nan := by
  unfold mmaTotal
  dsimp only
  split
  · rfl
  · cases hs : (unpack fF32 c :: ps).filterMap signOf with
    | nil => rw [hs] at ht; cases ht
    | cons n ns =>
      rw [hs] at ht hf
      refine if_neg fun hall => ?_
      simp only [List.all_eq_true, decide_eq_true_eq] at hall
      have hn : ∀ b ∈ n :: ns, b = n := List.forall_mem_cons.2 ⟨rfl, hall⟩
      exact absurd ((hn true ht).trans (hn false hf).symm) (by decide)

/-- Infinities of one sign make that infinity. -/
theorem mmaTotal_inf {b : Bool} (hn : (unpack fF32 c :: ps).any isNan = false)
    (hb : b ∈ (unpack fF32 c :: ps).filterMap signOf) (hno : (!b) ∉ (unpack fF32 c :: ps).filterMap signOf) :
    mmaTotal c ps = fF32.sign b + fF32.infCode := by
  have hall : ∀ x ∈ (unpack fF32 c :: ps).filterMap signOf, x = b := fun x hx =>
    by_contra fun e => hno (Bool.eq_not_of_ne e ▸ hx)
  unfold mmaTotal
  dsimp only
  rw [hn, if_neg Bool.false_ne_true]
  cases hs : (unpack fF32 c :: ps).filterMap signOf with
  | nil => rw [hs] at hb; cases hb
  | cons n ns =>
    rw [hs] at hall
    obtain ⟨rfl, hns⟩ := List.forall_mem_cons.1 hall
    refine if_pos ?_
    simpa using hns

/-- Finite values add up to their exact total, rounded once; a total of 0 is −0 where every one is (R65). -/
theorem mmaTotal_finite (hf : ∀ x ∈ unpack fF32 c :: ps, x.finite = true) :
    let q := ((unpack fF32 c :: ps).map FVal.rat).sum
    (q = 0 → mmaTotal c ps = fF32.sign ((unpack fF32 c :: ps).all isNegZero))
      ∧ (q ≠ 0 → ∃ (neg : Bool) (m : Nat) (e : Int), (FVal.fin neg m e).rat = q
          ∧ mmaTotal c ps = (roundTo fF32 .rn neg m e false).1) := by
  intro q
  have hsum : (sumOver (lowExp (unpack fF32 c :: ps)) (unpack fF32 c :: ps) : ℚ) * 2 ^ lowExp (unpack fF32 c :: ps) = q :=
    sumOver_rat hf (lowExp_le _)
  have htotal : mmaTotal c ps = if sumOver (lowExp (unpack fF32 c :: ps)) (unpack fF32 c :: ps) = 0
      then fF32.sign ((unpack fF32 c :: ps).all isNegZero)
      else (roundTo fF32 .rn (decide (sumOver (lowExp (unpack fF32 c :: ps)) (unpack fF32 c :: ps) < 0))
        (sumOver (lowExp (unpack fF32 c :: ps)) (unpack fF32 c :: ps)).natAbs (lowExp (unpack fF32 c :: ps)) false).1 := by
    unfold mmaTotal
    dsimp only
    rw [any_isNan_finite hf, filterMap_signOf_finite hf]
    rfl
  generalize lowExp (unpack fF32 c :: ps) = b at hsum htotal
  generalize sumOver b (unpack fF32 c :: ps) = x at hsum htotal
  have hb : (2 : ℚ) ^ b ≠ 0 := by positivity
  refine ⟨fun hq => ?_, fun hq => ⟨decide (x < 0), x.natAbs, b, (rat_ofInt x b).trans hsum, ?_⟩⟩
  · rw [← hsum, mul_eq_zero, or_iff_left hb, Int.cast_eq_zero] at hq
    rw [htotal, if_pos hq]
  · rw [htotal, if_neg]
    rintro rfl
    exact hq (by rw [← hsum, Int.cast_zero, zero_mul])

end

/-! The products of pairs of elements. -/

/-- The values that a total is of: an accumulator word and the products of pairs. -/
def totalOf (c : Nat) (xs : List (FVal × FVal)) : List FVal := unpack fF32 c :: xs.map fun x => (mulV x.1 x.2).1

section
variable {c : Nat} {xs : List (FVal × FVal)}

theorem any_isNan_total : (totalOf c xs).any isNan =
    (isNan (unpack fF32 c) || xs.any fun x => isNan x.1 || isNan x.2 || zeroTimesInf x.1 x.2) := by
  rw [totalOf, List.any_cons, List.any_map]
  congr 2
  exact funext fun x => (mulV_kind x.1 x.2).1

theorem signs_total : (totalOf c xs).filterMap signOf =
    (signOf (unpack fF32 c)).toList ++ xs.flatMap fun x => infOf x.1 x.2 := by
  have hflat : ∀ l : List FVal, l.filterMap signOf = l.flatMap fun x => (signOf x).toList := fun l =>
    List.filterMap_eq_flatMap_toList signOf l
  rw [totalOf, hflat, List.flatMap_cons, List.flatMap_map]
  congr 2
  exact funext fun x => (mulV_kind x.1 x.2).2.1

theorem all_isNegZero_total : (totalOf c xs).all isNegZero =
    (isNegZero (unpack fF32 c) && xs.all fun x => negZeroProduct x.1 x.2) := by
  rw [totalOf, List.all_cons, List.all_map]
  congr 2
  funext x
  obtain ⟨-, -, hneg, -⟩ := mulV_kind x.1 x.2
  exact hneg

/-- With no NaN and no infinity every value is finite, and the products are exact. -/
theorem finite_total (hn : (totalOf c xs).any isNan = false) (hs : (totalOf c xs).filterMap signOf = []) :
    (∀ v ∈ totalOf c xs, v.finite = true)
      ∧ ((totalOf c xs).map FVal.rat).sum = (unpack fF32 c).rat + (xs.map fun x => x.1.rat * x.2.rat).sum := by
  have hfin : ∀ v ∈ totalOf c xs, v.finite = true := fun v hv =>
    (finite_iff v).2 ⟨by simpa using List.any_eq_false.1 hn v hv, List.filterMap_eq_nil_iff.1 hs v hv⟩
  refine ⟨hfin, ?_⟩
  rw [totalOf, List.map_cons, List.sum_cons, List.map_map]
  refine congrArg (_ + ·) (congrArg List.sum (List.map_congr_left fun x hx => ?_))
  have hv := hfin _ (List.mem_cons_of_mem _ (List.mem_map.2 ⟨x, hx, rfl⟩))
  obtain ⟨-, -, -, hfinite⟩ := mulV_kind x.1 x.2
  rw [hfinite, Bool.and_eq_true] at hv
  obtain ⟨n, m, e, hp, hr⟩ := mulV_finite hv.1 hv.2
  rw [Function.comp_apply, hp, hr]

end

/-- A rounded FP32 value is a word. -/
theorem roundTo_lt (rm : Rm) (neg : Bool) (m : Nat) (e : Int) : (roundTo fF32 rm neg m e false).1 < 2 ^ 32 := by
  have hsign : fF32.sign neg ≤ 2 ^ 31 := by cases neg <;> decide
  have hcode : (roundMag fF32 rm 0 neg m e false).code < 2 ^ 31 := by
    rcases le_or_gt (takenCode fF32 rm 0 neg m e) fF32.maxCode with h | h
    · rw [(roundMag_within h).1]
      exact h.trans_lt (by decide)
    · rw [(roundMag_past h).2]
      unfold beyondCode
      split
      · decide
      · split <;> decide
  unfold roundTo
  dsimp only
  omega

/-- The infinity that a word is, if it is one. -/
theorem infOf_word (v : FVal) : (match v with | .inf n => [n] | _ => []) = (signOf v).toList := by cases v <;> rfl

/-- R65 and R66 for an accumulator word and the products of pairs. -/
theorem total_spec (c : Word) (xs : List (FVal × FVal)) :
    let r := BitVec.ofNat 32 (mmaTotal c.toNat (xs.map fun x => (mulV x.1 x.2).1))
    let signs := (totalOf c.toNat xs).filterMap signOf
    let nan := (totalOf c.toNat xs).any isNan || (signs.contains true && signs.contains false)
    let q := (unpack fF32 c.toNat).rat + (xs.map fun x => x.1.rat * x.2.rat).sum
    (nan = true → r = 0x7FC00000#32)
      ∧ (nan = false → true ∈ signs → r = 0xFF800000#32)
      ∧ (nan = false → false ∈ signs → r = 0x7F800000#32)
      ∧ (nan = false → signs = [] →
          (q = 0 → r = if isNegZero (unpack fF32 c.toNat) && xs.all (fun x => negZeroProduct x.1 x.2) then 0x80000000#32 else 0)
          ∧ (q ≠ 0 → ∃ (neg : Bool) (m : Nat) (e : Int), (FVal.fin neg m e).rat = q
              ∧ r.toNat = (roundTo fF32 .rn neg m e false).1)) := by
  intro r signs nan q
  have hnan : nan = false ↔ (totalOf c.toNat xs).any isNan = false ∧ ¬ (true ∈ signs ∧ false ∈ signs) := by
    rw [← Bool.not_eq_true, ← Bool.not_eq_true, ← not_or]
    simp only [nan, Bool.or_eq_true, Bool.and_eq_true, List.contains_iff_mem]
  refine ⟨fun h => ?_, fun h ht => ?_, fun h hf => ?_, fun h hs => ?_⟩
  · have htotal : mmaTotal c.toNat (xs.map fun x => (mulV x.1 x.2).1) = fF32.nan := by
      by_cases hall : (totalOf c.toNat xs).any isNan = true
      · exact mmaTotal_nan hall
      · obtain ⟨ht, hf⟩ : true ∈ signs ∧ false ∈ signs := by
          by_contra hno
          rw [hnan.2 ⟨Bool.eq_false_iff.2 hall, hno⟩] at h
          cases h
        exact mmaTotal_opposed ht hf
    simp only [r, htotal]
    decide
  · obtain ⟨hall, hno⟩ := hnan.1 h
    simp only [r, mmaTotal_inf hall ht fun hf => hno ⟨ht, hf⟩]
    decide
  · obtain ⟨hall, hno⟩ := hnan.1 h
    simp only [r, mmaTotal_inf hall hf fun ht => hno ⟨ht, hf⟩]
    decide
  · obtain ⟨hall, -⟩ := hnan.1 h
    obtain ⟨hfin, hsum⟩ := finite_total hall hs
    have htotal := mmaTotal_finite hfin
    rw [show ((unpack fF32 c.toNat :: xs.map fun x => (mulV x.1 x.2).1).map FVal.rat).sum = q from hsum] at htotal
    obtain ⟨hzero, hround⟩ := htotal
    refine ⟨fun hq => ?_, fun hq => ?_⟩
    · have hneg := all_isNegZero_total (c := c.toNat) (xs := xs)
      rw [totalOf] at hneg
      simp only [r, hzero hq, hneg]
      cases isNegZero (unpack fF32 c.toNat) && xs.all fun x => negZeroProduct x.1 x.2 <;> decide
    · obtain ⟨neg, m, e, hm, hr⟩ := hround hq
      refine ⟨neg, m, e, hm, ?_⟩
      simp only [r, hr, BitVec.toNat_ofNat]
      exact Nat.mod_eq_of_lt (roundTo_lt ..)

end Sys2Proof.Machine
end

