-- ==== Sys2Proof/Proofs/MatrixTiles.lean ====
section
/-! SUPPORT. An accumulator tile after the products of two operand tiles, element by element (R64 to R66, R90, R251). -/

namespace Sys2Proof.Machine

/-! Elements of operand tiles (R251). -/

theorem getD_row (A : Tile) (i : Nat) {k : Nat} (hk : k < 64) : (A.row i).getD k 0 = sget 0 A.bytes (64 * i + k) := by
  simp [Tile.row, List.getD_eq_getElem?_getD, hk]

theorem getD_scaleVec (A : Tile) {k : Nat} (hk : k < 128) : A.scaleVec.getD k 0 = sget 0 A.scales k := by
  simp [Tile.scaleVec, List.getD_eq_getElem?_getD, hk]

/-- A row of a tile of a floating-point format is read element by element. -/
theorem floatRow_eq {A : Tile} (h : 1 ≤ A.fmt ∧ A.fmt ≤ 5) {i : Nat} (hi : i < 32) :
    floatRow A.fmt (A.row i) A.scaleVec i = (List.range (innerOf A.fmt)).map (tileElem A i) := by
  have hrow := fun k hk => getD_row A i (k := k) hk
  have hscale := fun k hk => getD_scaleVec A (k := k) hk
  unfold floatRow
  refine List.map_congr_left fun k hk => ?_
  rw [List.mem_range] at hk
  unfold tileElem
  dsimp only
  obtain hf | hf | hf | hf | hf : A.fmt = 1 ∨ A.fmt = 2 ∨ A.fmt = 3 ∨ A.fmt = 4 ∨ A.fmt = 5 := by omega
  · have hk : k < 32 := by simpa [innerOf, hf] using hk
    simp only [hf, hrow (2 * k) (by omega), hrow (2 * k + 1) (by omega)]
  · have hk : k < 32 := by simpa [innerOf, hf] using hk
    simp only [hf, hrow (2 * k) (by omega), hrow (2 * k + 1) (by omega)]
  · have hk : k < 64 := by simpa [innerOf, hf] using hk
    simp only [hf, hrow k hk]
  · have hk : k < 64 := by simpa [innerOf, hf] using hk
    simp only [hf, hrow k hk]
  · have hk : k < 128 := by simpa [innerOf, hf] using hk
    simp only [hf, hrow (k / 2) (by omega), hscale (4 * i + k / 32) (by omega), Nat.shiftRight_eq_div_pow, pow_mul]
    rfl

/-- What a pairing of R64 has in common. -/
theorem pairing_formats {a b : Nat} (h : pairing a b = true) :
    (a = 6 ∧ b = 6) ∨ ((1 ≤ a ∧ a ≤ 5) ∧ (1 ≤ b ∧ b ≤ 5) ∧ innerOf a = innerOf b) := by
  unfold pairing at h
  split at h
  case h_9 => cases h
  all_goals decide

/-! Filling an accumulator tile. -/

/-- The elements of an accumulator tile written in order, element `n` = 32 i + j. -/
def fillA (g : Group) (d : Nat) (v : Nat → TW) : Group :=
  (List.range 1024).foldl (fun x n => wrA x d (n / 32) (n % 32) (v n)) g

theorem foldl_wrA {g : Group} (hg : swf ⟨0, false⟩ g.a = true) (d : Nat) (v : Nat → TW) {N : Nat} (hN : N ≤ 1024) :
    ∃ m, (List.range N).foldl (fun x n => wrA x d (n / 32) (n % 32) (v n)) g = { g with a := m } ∧ swf ⟨0, false⟩ m = true
      ∧ ∀ k, sget ⟨0, false⟩ m k = if 1024 * d ≤ k ∧ k < 1024 * d + N then v (k - 1024 * d) else sget ⟨0, false⟩ g.a k := by
  induction N with
  | zero => exact ⟨g.a, rfl, hg, fun k => (if_neg (by omega)).symm⟩
  | succ N ih =>
    obtain ⟨m, hm, hwf, hget⟩ := ih (by omega)
    rw [List.range_succ, List.foldl_append, hm]
    refine ⟨_, rfl, swf_sset _ _ _ _ hwf, fun k => ?_⟩
    rw [sget_sset _ _ _ _ _ hwf, hget, show 1024 * d + 32 * (N / 32) + N % 32 = 1024 * d + N by omega]
    by_cases hk : k = 1024 * d + N
    · rw [if_pos hk, if_pos (by omega), hk, Nat.add_sub_cancel_left]
    · rw [if_neg hk]
      exact if_congr (by omega) rfl rfl

theorem fillA_only {g : Group} (hg : swf ⟨0, false⟩ g.a = true) (d : Nat) (v : Nat → TW) :
    ∃ m, fillA g d v = { g with a := m } :=
  (foldl_wrA hg d v le_rfl).imp fun _ h => h.1

theorem rdA_fillA {g : Group} (hg : swf ⟨0, false⟩ g.a = true) (d : Nat) (v : Nat → TW) (e : Nat) {i j : Nat} (hi : i < 32)
    (hj : j < 32) : rdA (fillA g d v) e i j = if e = d then v (32 * i + j) else rdA g e i j := by
  obtain ⟨m, hm, -, hget⟩ := foldl_wrA hg d v le_rfl
  rw [fillA, hm]
  refine (hget _).trans ?_
  by_cases he : e = d
  · rw [if_pos (by omega), if_pos he, he]
    exact congrArg v (by omega)
  · rw [if_neg (by omega), if_neg he]
    rfl

/-! The result of a matrix word. -/

/-- Element (i, j) of the result as the slice forms it (R64 to R66). -/
def mmaElem (c : Nat) (a b : AOperand) (i j : Nat) : Nat :=
  if a.fmt = 6 then mmaInt c ((a.rows.map intRow).getD i []) ((b.rows.map intRow).getD j [])
  else mmaFloat c (((a.rows.zipIdx).map fun (r, i) => floatRow a.fmt r a.scales i).getD i [])
    (((b.rows.zipIdx).map fun (r, i) => floatRow b.fmt r b.scales i).getD j [])

/-- Element (i, j) of the result with its tag (R90). -/
def mmaWord (g : Group) (d : Nat) (a b : AOperand) (i j : Nat) : TW :=
  ⟨BitVec.ofNat 32 (mmaElem (rdA g d i j).val.toNat a b i j), (rdA g d i j).tag || bitOf a.tags i || decide (b.tags ≠ 0)⟩

theorem mmaResult_eq (g : Group) (d : Nat) (a b : AOperand) :
    mmaResult g d a b = fillA g d fun n => mmaWord g d a b (n / 32) (n % 32) := by
  unfold mmaResult mmaWord mmaElem fillA
  dsimp only
  split <;> rfl

/-- The pairs of elements whose products element (i, j) adds (R65). -/
def elemPairs (A B : Tile) (i j : Nat) : List (FVal × FVal) :=
  (List.range (innerOf A.fmt)).map fun k => (tileElem A i k, tileElem B j k)

theorem mmaElem_float {A B : Tile} (hA : 1 ≤ A.fmt ∧ A.fmt ≤ 5) (hB : 1 ≤ B.fmt ∧ B.fmt ≤ 5)
    (hinner : innerOf A.fmt = innerOf B.fmt) (c : Nat) {i j : Nat} (hi : i < 32) (hj : j < 32) :
    mmaElem c A.operand B.operand i j = mmaTotal c ((elemPairs A B i j).map fun x => (mulV x.1 x.2).1) := by
  have hrow : ∀ (T : Tile) (k : Nat), k < 32 →
      ((T.operand.rows.zipIdx).map fun (r, i) => floatRow T.operand.fmt r T.operand.scales i).getD k []
        = floatRow T.fmt (T.row k) T.scaleVec k := by
    intro T k hk
    simp [Tile.operand, List.getD_eq_getElem?_getD, hk]
  have hfmt : A.operand.fmt ≠ 6 := by
    change A.fmt ≠ 6
    omega
  rw [mmaElem, if_neg hfmt, hrow A i hi, hrow B j hj, floatRow_eq hA hi, floatRow_eq hB hj, ← hinner, mmaFloat, elemPairs,
    List.zipWith_map, List.zipWith_self, List.map_map]
  rfl

theorem natSext_byte (b : Byte) : natSext b.toNat 8 = b.toInt := by
  rw [natSext_eq (by decide), BitVec.ofNat_toNat, BitVec.setWidth_eq]

/-- An integer element is the wrapped sum of its products (R64, R65). -/
theorem mmaElem_int {A B : Tile} (hA : A.fmt = 6) (c : Word) {i j : Nat} (hi : i < 32) (hj : j < 32) :
    BitVec.ofNat 32 (mmaElem c.toNat A.operand B.operand i j) = c + BitVec.ofInt 32
      ((List.range 64).map fun k => (sget 0 A.bytes (64 * i + k)).toInt * (sget 0 B.bytes (64 * j + k)).toInt).sum := by
  have hfmt : A.operand.fmt = 6 := hA
  have hrow : ∀ (T : Tile) (k : Nat), k < 32 → (T.operand.rows.map intRow).getD k []
      = (List.range 64).map fun n => (sget 0 T.bytes (64 * k + n)).toInt := by
    intro T k hk
    simp [Tile.operand, List.getD_eq_getElem?_getD, hk, Tile.row, intRow, natSext_byte]
  rw [mmaElem, if_pos hfmt, hrow A i hi, hrow B j hj, mmaInt, List.zipWith_map, List.zipWith_self, ← List.sum_eq_foldl]
  rw [wrapNat_eq, BitVec.ofNat_toNat, BitVec.setWidth_eq, BitVec.ofInt_add, BitVec.ofInt_natCast, BitVec.ofNat_toNat,
    BitVec.setWidth_eq]

/-- A matrix word's result is that of R65 and R66, element by element. -/
theorem mmaResult_multiplied {g : Group} (hg : swf ⟨0, false⟩ g.a = true) (d : Nat) {A B : Tile}
    (hp : pairing A.fmt B.fmt = true) : Multiplied g (mmaResult g d A.operand B.operand) d A B := by
  intro i hi j hj c r xs cv infs nan q
  have helem : rdA (mmaResult g d A.operand B.operand) d i j = mmaWord g d A.operand B.operand i j := by
    rw [mmaResult_eq, rdA_fillA hg _ _ _ hi hj, if_pos rfl, show (32 * i + j) / 32 = i by omega,
      show (32 * i + j) % 32 = j by omega]
  have hr : r = BitVec.ofNat 32 (mmaElem c.toNat A.operand B.operand i j) := congrArg TW.val helem
  refine ⟨congrArg TW.tag helem, fun h6 => hr.trans (mmaElem_int h6 c hi hj), fun h6 => ?_⟩
  rcases pairing_formats hp with h | ⟨hA, hB, hinner⟩
  · exact absurd h.1 h6
  rw [mmaElem_float hA hB hinner _ hi hj] at hr
  have hinfs : infs = (totalOf c.toNat xs).filterMap signOf :=
    (congrArg (· ++ xs.flatMap fun x => infOf x.1 x.2) (infOf_word cv)).trans signs_total.symm
  have hnan : nan = ((totalOf c.toNat xs).any isNan || (infs.contains true && infs.contains false)) := by
    rw [any_isNan_total]
  rw [hinfs] at hnan ⊢
  rw [hnan, hr]
  exact total_spec c xs

end Sys2Proof.Machine
end

