-- ==== Sys2Proof/Proofs/MatrixWords.lean ====
section
/-! The matrix words (R64 to R67, R90, R250 to R252): O33. TZERO clears; MMA and MMAG write the result of the products where
the checksum passes, and leave the accumulator where it fails twice. -/

namespace Sys2Proof.Machine

/-! What the error log and imprecise events leave (R330, R403, R404). -/

/-- The states differ at most in what the error log changes: no group, no context and nothing of a core. -/
def LogsOnly (s t : State) : Prop :=
  { t with agenda := s.agenda, mem := s.mem, xl := s.xl, rel := s.rel, sent := s.sent } = s

theorem LogsOnly.refl {s : State} : LogsOnly s s := rfl

theorem LogsOnly.trans {s t u : State} (h : LogsOnly s t) (k : LogsOnly t u) : LogsOnly s u := by
  unfold LogsOnly at h k ⊢
  rw [← k] at h
  exact h

theorem LogsOnly.of_devWrites {s t : State} (h : DevWrites s t) : LogsOnly s t := by
  obtain ⟨_, _, _, _, _, _, rfl⟩ := h
  rfl

theorem logsOnly_logWrite {kind ctx : Nat} {at_ : LogAt} {s : State} {rb put used sector : Nat} {b : RelBlock} :
    LogsOnly s (State.log.write kind at_ ctx s rb b put used sector) := by
  unfold State.log.write
  split
  · exact .of_devWrites devWrites_devPut
  · extract_lets _ u v w _
    have hu : LogsOnly s u := by
      unfold u
      split <;> rfl
    have hv : LogsOnly u v := .of_devWrites devWrites_devWrite
    have hw : LogsOnly v w := .of_devWrites devWrites_devWrite
    refine ((hu.trans hv).trans hw).trans ?_
    clear_value w
    rfl

theorem logsOnly_log {s : State} {kind ctx : Nat} {at_ : LogAt} : LogsOnly s (s.log kind at_ ctx) := by
  unfold State.log
  extract_lets _ _ u _ _ _ _
  have hu : LogsOnly s u := .of_devWrites devWrites_devMend
  clear_value u
  split
  · exact .refl
  · split
    · split
      · exact hu.trans (.of_devWrites (devWrites_devMend.trans devWrites_devPut))
      · exact hu.trans logsOnly_logWrite
    · exact hu.trans logsOnly_logWrite

theorem LogsOnly.fields {s t : State} (h : LogsOnly s t) :
    t.cur = s.cur ∧ t.groups = s.groups ∧ t.ctxs = s.ctxs ∧ t.cores = s.cores := by
  unfold LogsOnly at h
  rw [← h]
  exact ⟨rfl, rfl, rfl, rfl⟩

/-- A group has gained pending events and nothing else. -/
def GainsEvents (g g' : Group) : Prop :=
  { g' with imprecise := g.imprecise, impInfo := g.impInfo } = g ∧ g.imprecise &&& g'.imprecise = g.imprecise

theorem GainsEvents.refl {g : Group} : GainsEvents g g := ⟨rfl, BitVec.and_self⟩

theorem GainsEvents.trans {x y z : Group} (h : GainsEvents x y) (k : GainsEvents y z) : GainsEvents x z := by
  obtain ⟨h1, h2⟩ := h
  obtain ⟨k1, k2⟩ := k
  refine ⟨?_, by rw [← h2, BitVec.and_assoc, k2]⟩
  rw [← k1] at h1
  exact h1

/-- The states differ at most in the error log, in records that wait, and in pending events of groups. -/
structure RaisesOnly (s t : State) : Prop where
  cur : t.cur = s.cur
  cores : t.cores = s.cores
  ctxs : t.ctxs = s.ctxs
  group : ∀ k g, s.group? k = some g → ∃ g', t.group? k = some g' ∧ GainsEvents g g'

theorem RaisesOnly.trans {s t u : State} (h : RaisesOnly s t) (k : RaisesOnly t u) : RaisesOnly s u where
  cur := k.cur.trans h.cur
  cores := k.cores.trans h.cores
  ctxs := k.ctxs.trans h.ctxs
  group n g hg := by
    obtain ⟨x, hx, hgx⟩ := h.group n g hg
    obtain ⟨y, hy, hxy⟩ := k.group n x hx
    exact ⟨y, hy, hgx.trans hxy⟩

theorem RaisesOnly.of_groups {s t : State} (hcur : t.cur = s.cur) (hcores : t.cores = s.cores) (hctxs : t.ctxs = s.ctxs)
    (hgroups : t.groups = s.groups) : RaisesOnly s t :=
  ⟨hcur, hcores, hctxs, fun k g hg => ⟨g, by unfold State.group? at hg ⊢; rwa [hgroups], .refl⟩⟩

theorem RaisesOnly.refl {s : State} : RaisesOnly s s := .of_groups rfl rfl rfl rfl

theorem RaisesOnly.of_logs {s t : State} (h : LogsOnly s t) : RaisesOnly s t := by
  obtain ⟨hcur, hgroups, hctxs, hcores⟩ := h.fields
  exact .of_groups hcur hcores hctxs hgroups

theorem and_or_self_word (x y : Word) : x &&& (x ||| y) = x := by
  ext i hi
  simp +contextual

/-- A group with an imprecise event pending. -/
def Group.withEvent (code info : Nat) (g : Group) : Group :=
  { g with imprecise := g.imprecise ||| (1#32 <<< code), impInfo := sset 0 g.impInfo code info }

theorem withEvent_gid (code info : Nat) (g : Group) : (g.withEvent code info).gid = g.gid := rfl

theorem gainsEvents_withEvent (g : Group) (code info : Nat) : GainsEvents g (g.withEvent code info) := ⟨rfl, and_or_self_word _ _⟩

theorem LogsOnly.group? {s t : State} (h : LogsOnly s t) (k : Nat) : t.group? k = s.group? k := by
  unfold LogsOnly at h
  rw [← h]
  rfl

theorem LogsOnly.side {s t : State} (h : LogsOnly s t) (k : Nat) : t.side k = s.side k := by
  unfold LogsOnly at h
  rw [← h]
  rfl

/-- An imprecise event of a resident group is pending in it, and in its frame where it has one (R330, R335). -/
theorem logsOnly_raiseImprecise (s : State) (gid code info : Nat) :
    LogsOnly (s.onGroup gid (Group.withEvent code info)) (raiseImprecise s gid code info) := by
  unfold raiseImprecise
  extract_lets u
  change LogsOnly u _
  split
  · exact .of_devWrites devWrites_devPut
  · exact .refl

theorem raisesOnly_withEvent (s : State) (gid code info : Nat) : RaisesOnly s (s.onGroup gid (Group.withEvent code info)) := by
  refine ⟨rfl, rfl, rfl, fun k g hg => ?_⟩
  by_cases hk : k = gid
  · subst hk
    exact ⟨_, group?_onGroup_same hg (withEvent_gid code info), gainsEvents_withEvent g code info⟩
  · exact ⟨g, (group?_onGroup_other (withEvent_gid code info) hk).trans hg, .refl⟩

theorem raisesOnly_imprecise {s : State} {w : Who} {code info full : Nat} :
    RaisesOnly s (s.imprecise w code info full) := by
  unfold State.imprecise
  split
  · split
    · exact (raisesOnly_withEvent s _ code info).trans (.of_logs (logsOnly_raiseImprecise ..))
    · exact .of_groups rfl rfl rfl rfl
  · exact .of_groups rfl rfl rfl rfl

theorem raisesOnly_machineCheck {s : State} {w : Who} {info : Nat} {at_ : LogAt} :
    RaisesOnly s (s.machineCheck w info at_) :=
  raisesOnly_imprecise.trans (.of_logs logsOnly_log)

/-- A machine check is pending in a resident group that has not ended (R404). -/
theorem machineCheck_pends {s : State} {c : Option Nat} {k info : Nat} {at_ : LogAt} {g : Group} (hg : s.group? k = some g)
    (hend : g.ended = false) : (s.machineCheck ⟨c, some k⟩ info at_).group? k = some (g.withEvent 0x18 info) := by
  have himp : s.imprecise ⟨c, some k⟩ 0x18 info info = raiseImprecise s k 0x18 info := by
    unfold State.imprecise
    refine if_pos ?_
    simp [hg, hend]
  unfold State.machineCheck
  rw [logsOnly_log.group?, himp, (logsOnly_raiseImprecise ..).group?, group?_onGroup_same hg (withEvent_gid 0x18 info)]

/-- The state of a context's charge before the event that it may raise (R399, R400). -/
def State.charged (s : State) (n c : Nat) : State :=
  if (s.ctx n).budgetField = 0 then s else s.onCtx n fun x => { x with ebudget := (s.ctx n).ebudget - c }

theorem raisesOnly_charge {s : State} {n c : Nat} {k : Option Nat} (hc : c ≠ 0) :
    RaisesOnly (s.charged n c) (s.charge ⟨some n, k⟩ c) := by
  unfold State.charge State.charged
  simp only [hc, decide_false, Bool.or_false, decide_eq_true_eq]
  split
  · exact .refl
  · split
    · exact raisesOnly_imprecise
    · exact .refl

/-- A context that is not empty after a change reads back changed, whatever the map. -/
theorem ctx_onCtx_of_ne {s : State} {n : Nat} {f : Ctx → Ctx} (h : f (s.ctx n) ≠ emptyCtx) :
    (s.onCtx n f).ctx n = f (s.ctx n) := (sget_sset_of_ne _ _ _ h).trans (if_pos rfl)

/-- A context with a budget pays; the others do not (R399). -/
theorem charged_ebudget (s : State) (n c : Nat) : ((s.charged n c).ctx n).ebudget =
    if (s.ctx n).budgetField = 0 then (s.ctx n).ebudget else (s.ctx n).ebudget - c := by
  unfold State.charged
  split
  · rfl
  · next h =>
    rw [ctx_onCtx_of_ne fun e => h (congrArg Ctx.budgetField e)]

theorem charged_same (s : State) (n c : Nat) :
    (s.charged n c).cur = s.cur ∧ (s.charged n c).cores = s.cores ∧ (s.charged n c).groups = s.groups := by
  unfold State.charged
  split <;> exact ⟨rfl, rfl, rfl⟩

theorem natBit_toNat (w : Word) (i : Nat) : natBit w.toNat i = w.getLsbD i := by
  unfold natBit
  rw [BitVec.getLsbD, Nat.testBit_eq_decide_div_mod_eq, Nat.shiftRight_eq_div_pow]
  rfl

/-- An event that is pending stays pending. -/
theorem GainsEvents.natBit {g g' : Group} (h : GainsEvents g g') {k : Nat} (hb : natBit g.imprecise.toNat k = true) :
    natBit g'.imprecise.toNat k = true := by
  rw [natBit_toNat] at hb ⊢
  rw [← h.2, BitVec.getLsbD_and, Bool.and_eq_true] at hb
  exact hb.2

theorem GainsEvents.sameReg {g g' : Group} (h : GainsEvents g g') (r : RegName) : SameReg g g' r := by
  obtain ⟨h, -⟩ := h
  rw [← h]
  cases r with
  | v n => exact fun _ _ => rfl
  | a n => exact fun _ _ _ _ => rfl
  | x n => trivial
  | _ => rfl

theorem GainsEvents.lanes {g g' : Group} (h : GainsEvents g g') : g'.lanes = g.lanes := by
  obtain ⟨h, -⟩ := h
  rw [← h]

/-! The checksum of a matrix word (R67). -/

/-- A matrix word's side once it has met the upsets that it can: two at most, the first with 32 cycles more (R67). -/
def Side.checked (d : Side) : Side :=
  { d with upsets := d.upsets - 2, matBusy := if d.upsets = 0 then d.matBusy else max d.matBusy d.cycle + 32 }

/-- The state after the checksum: the side's part, and the event and the log entry of a first mismatch (R67, R403). -/
def checkState (s : State) (g : Group) : State :=
  let u := s.onSide (sideKey g.core g.side) Side.checked
  if (s.side (sideKey g.core g.side)).upsets = 0 then u
  else (countEvent u (sideKey g.core g.side) g.slot 0x0B 1).log 10 LogAt.none 0

section
variable {s : State} {g : Group} {f : Group → Group}

/-- The word passes the check at once or at the second time. -/
theorem mmaChecked_pass (h : (s.side (sideKey g.core g.side)).upsets < 2) :
    mmaChecked s g f = (checkState s g).onGroup g.gid fun x => (f x).advance (checkState s g).cur 0 := by
  unfold mmaChecked
  exact if_pos h

/-- The word fails the check twice. -/
theorem mmaChecked_fail (h : 2 ≤ (s.side (sideKey g.core g.side)).upsets) :
    mmaChecked s g f = ((((checkState s g).log 10 LogAt.none g.ctx).machineCheck ⟨some g.ctx, some g.gid⟩ 0 LogAt.none).charge
      ⟨some g.ctx, some g.gid⟩ 256).go 0 := by
  unfold mmaChecked
  exact if_neg (not_lt.2 h)

end

/-- A map with a value written where it stands is the same map. -/
theorem sset_sget_self {α : Type} [DecidableEq α] {d : α} {m : SMap α} (h : swf d m = true) (k : Nat) :
    sset d m k (sget d m k) = m := by
  refine smap_ext d _ _ (swf_sset _ _ _ _ h) h fun j => ?_
  rw [sget_sset _ _ _ _ _ h]
  split
  · next e => rw [e]
  · rfl

section
variable {s : State} {g : Group} (hc : s.cores.Canonical)
include hc

/-- Without an upset the check leaves the state as it is. -/
theorem checkState_none (h : (s.side (sideKey g.core g.side)).upsets = 0) : checkState s g = s := by
  have hd : ∀ d : Side, d.upsets = 0 → d.checked = d := fun d h0 => by
    cases d
    cases h0
    rfl
  have hsides : sset Side.reset s.cores.sides (sideKey g.core g.side) (s.side (sideKey g.core g.side)).checked = s.cores.sides := by
    rw [hd _ h]
    exact sset_sget_self (Cores.canon_iff.2 hc).sides _
  unfold checkState
  refine (if_pos h).trans ?_
  unfold State.onSide
  rw [hsides]

/-- The check changes its own side, and what the error log does. -/
theorem checkState_spec : (checkState s g).cur = s.cur ∧ (checkState s g).groups = s.groups ∧ (checkState s g).ctxs = s.ctxs
    ∧ { (checkState s g).cores with sides := s.cores.sides } = s.cores
    ∧ ((checkState s g).side (sideKey g.core g.side)).upsets = (s.side (sideKey g.core g.side)).checked.upsets
    ∧ ((checkState s g).side (sideKey g.core g.side)).matBusy = (s.side (sideKey g.core g.side)).checked.matBusy
    ∧ ∀ k, k ≠ sideKey g.core g.side → (checkState s g).side k = s.side k := by
  have hsides := (Cores.canon_iff.2 hc).sides
  have hu := fun k => side_onSide hsides (sideKey g.core g.side) k Side.checked
  by_cases h : (s.side (sideKey g.core g.side)).upsets = 0
  · rw [show checkState s g = s.onSide (sideKey g.core g.side) Side.checked from if_pos h]
    refine ⟨rfl, rfl, rfl, rfl, ?_, ?_, fun k hk => (hu k).trans (if_neg hk)⟩
    · rw [hu, if_pos rfl]
    · rw [hu, if_pos rfl]
  · have hv := fun k => side_onSide (s := s.onSide (sideKey g.core g.side) Side.checked) (swf_sset _ _ _ _ hsides)
      (sideKey g.core g.side) k
    have hlog : LogsOnly (countEvent (s.onSide (sideKey g.core g.side) Side.checked) (sideKey g.core g.side) g.slot 0x0B 1)
        (checkState s g) := by
      rw [show checkState s g = _ from if_neg h]
      exact logsOnly_log
    obtain ⟨hcur, hgroups, hctxs, hcores⟩ := hlog.fields
    refine ⟨hcur, hgroups, hctxs, by rw [hcores]; rfl, ?_, ?_, fun k hk => ?_⟩
    · rw [hlog.side, countEvent, hv, if_pos rfl, hu, if_pos rfl]
    · rw [hlog.side, countEvent, hv, if_pos rfl, hu, if_pos rfl]
    · rw [hlog.side, countEvent, hv, if_neg hk, hu, if_neg hk]

end

/-! A matrix word on its group. -/

/-- Of a group only accumulator tile `d` differs, and the lanes have gone on. -/
abbrev OnlyTile (c : Cur) (d : Nat) (g g' : Group) : Prop :=
  { g' with a := g.a, lanes := g.lanes } = g ∧ MovesOn c 0 g g' ∧ ∀ n, n ≠ d → SameReg g g' (.a n)

theorem fillA_gid (g : Group) (d : Nat) (v : Nat → TW) : (fillA g d v).gid = g.gid := by
  unfold fillA
  exact foldl_keep (P := fun x : Group => x.gid = g.gid) rfl fun _ _ h => h

theorem Group.Canonical.accumulators {g : Group} (h : g.Canonical) : swf ⟨0, false⟩ g.a = true :=
  (Group.canon_iff.2 ⟨h, g.gid.lt_succ_self⟩).a

theorem onlyTile_fillA {g : Group} (h : g.Canonical) (c : Cur) (d : Nat) (v : Nat → TW) :
    OnlyTile c d g ((fillA g d v).advance c 0) := by
  have ha := h.accumulators
  have hreg : ∀ n, n ≠ d → SameReg g (fillA g d v) (.a n) := fun n hn i hi j hj =>
    (rdA_fillA ha d v n hi hj).trans (if_neg hn)
  obtain ⟨m, hm⟩ := fillA_only ha d v
  rw [hm] at hreg ⊢
  exact ⟨rfl, advance_movesOn { g with a := m } c 0 h.1, hreg⟩

section
variable {i : Instr} {s : State} {g : Group}

/-- TZERO clears an accumulator tile and no other (R250). -/
theorem rdA_zeroA (g : Group) (d n : Nat) {i j : Nat} (hi : i < 32) (hj : j < 32) :
    rdA (zeroA g d) n i j = if n = d then ⟨0, false⟩ else rdA g n i j := by
  refine (sget_filter_keys _ (fun k => !(decide (1024 * d ≤ k) && decide (k < 1024 * (d + 1)))) _).trans ?_
  by_cases h : n = d
  · rw [if_pos h, if_neg]
    simp only [Bool.not_eq_true', Bool.not_eq_false, Bool.and_eq_true, decide_eq_true_eq]
    omega
  · rw [if_neg h, if_pos]
    · rfl
    · simp only [Bool.not_eq_true', Bool.and_eq_false_iff, decide_eq_false_iff_not]
      omega

theorem exec_tzero (o : RForm) (s : State) : exec (.tzero o) s =
    execWord (.tzero o) true o.g (fun s _ _ => s.onGroup s.cur.gid fun g => (zeroA g o.d.toNat).advance s.cur 0) s := rfl

theorem tzero_clears {o : RForm} (h : GoesTogether (.tzero o) o.g s g) :
    ∃ t g', exec (.tzero o) s = .next t ∧ OnlyIssuer s t ∧ t.group? s.cur.gid = some g' ∧ OnlyTile s.cur o.d.toNat g g'
      ∧ ∀ i < 32, ∀ j < 32, rdA g' o.d.toNat i j = ⟨0, false⟩ := by
  have hgid : ∀ x : Group, ((zeroA x o.d.toNat).advance s.cur 0).gid = x.gid := fun _ => rfl
  have ⟨⟨_, hg, hcan, _⟩, _⟩ := h
  refine ⟨_, _, (exec_tzero o s).trans (execWord_runs_together h), onlyIssuer_onGroup s _ hgid,
    group?_onGroup_same hg hgid, ⟨rfl, ?_, ?_⟩, ?_⟩
  · exact advance_movesOn (zeroA g o.d.toNat) s.cur 0 hcan.1
  · exact fun n hn i hi j hj => (rdA_zeroA g _ n hi hj).trans (if_neg hn)
  · exact fun i hi j hj => (rdA_zeroA g _ _ hi hj).trans (if_pos rfl)

variable {f : Group → Group} (hc : s.cores.Canonical) (hg : s.group? s.cur.gid = some g) (hx : exec i s = .next (mmaChecked s g f))
include hc hg hx

/-- A checksum that mismatches at most once lets the word have its effect (R67). -/
theorem mmaChecked_passes (hgid : ∀ x, (f x).gid = x.gid) (hup : (s.side (sideKey g.core g.side)).upsets < 2) :
    ∃ t, exec i s = .next t ∧ ((s.side (sideKey g.core g.side)).upsets = 0 → OnlyIssuer s t)
      ∧ { t.cores with sides := s.cores.sides } = s.cores ∧ (∀ k, k ≠ s.cur.gid → t.group? k = s.group? k)
      ∧ t.group? s.cur.gid = some ((f g).advance s.cur 0) ∧ (t.side (sideKey g.core g.side)).upsets = 0
      ∧ (∀ k, k ≠ sideKey g.core g.side → t.side k = s.side k)
      ∧ ((s.side (sideKey g.core g.side)).upsets = 1 → (t.side (sideKey g.core g.side)).matBusy
          = max (s.side (sideKey g.core g.side)).matBusy (s.side (sideKey g.core g.side)).cycle + 32) := by
  obtain ⟨hcur, hgroups, -, hcores, hups, hbusy, hother⟩ := checkState_spec (g := g) hc
  have hadv : ∀ x, ((f x).advance s.cur 0).gid = x.gid := hgid
  have hsame : ∀ k, (checkState s g).group? k = s.group? k := fun k => by unfold State.group?; rw [hgroups]
  rw [mmaChecked_pass hup, hcur, group?_gid hg] at hx
  refine ⟨_, hx, fun h0 => ?_, hcores, fun k hk => ?_, ?_, hups.trans ?_, hother, fun h1 => hbusy.trans ?_⟩
  · rw [checkState_none hc h0]
    exact onlyIssuer_onGroup s _ hadv
  · exact (group?_onGroup_other hadv hk).trans (hsame k)
  · exact group?_onGroup_same ((hsame _).trans hg) hadv
  · exact Nat.sub_eq_zero_of_le (by omega)
  · exact if_neg (by omega)

/-- A checksum that mismatches twice leaves the accumulator, raises a machine check and charges 256 (R67, R403, R404). -/
theorem mmaChecked_fails (hlanes : g.lanes.length = 32) (hup : 2 ≤ (s.side (sideKey g.core g.side)).upsets) :
    ∃ t g', exec i s = .next t ∧ t.group? s.cur.gid = some g' ∧ (∀ n, SameReg g g' (.a n)) ∧ MovesOn s.cur 0 g g'
      ∧ (t.side (sideKey g.core g.side)).upsets = (s.side (sideKey g.core g.side)).upsets - 2
      ∧ (g.ended = false → natBit g'.imprecise.toNat 0x18 = true)
      ∧ (t.ctx g.ctx).ebudget =
          (if (s.ctx g.ctx).budgetField = 0 then (s.ctx g.ctx).ebudget else (s.ctx g.ctx).ebudget - 256) := by
  obtain ⟨hcur, hgroups, hctxs, hcores, hups, -, -⟩ := checkState_spec (g := g) hc
  have hgid := group?_gid hg
  rw [mmaChecked_fail hup, hgid] at hx
  generalize checkState s g = u at hx hcur hgroups hctxs hcores hups
  have hug : u.group? s.cur.gid = some g := by
    unfold State.group? at hg ⊢
    rwa [hgroups]
  have hlog : LogsOnly u (u.log 10 .none g.ctx) := logsOnly_log
  have hcheck : RaisesOnly u ((u.log 10 .none g.ctx).machineCheck ⟨some g.ctx, some s.cur.gid⟩ 0 .none) :=
    (RaisesOnly.of_logs hlog).trans raisesOnly_machineCheck
  have hpends := machineCheck_pends (c := some g.ctx) (info := 0) (at_ := .none) ((hlog.group? _).trans hug)
  generalize (u.log 10 .none g.ctx).machineCheck ⟨some g.ctx, some s.cur.gid⟩ 0 .none = v at hx hcheck hpends
  obtain ⟨hccur, hccores, hcgroups⟩ := charged_same v g.ctx 256
  have hcharge : RaisesOnly (v.charged g.ctx 256) (v.charge ⟨some g.ctx, some s.cur.gid⟩ 256) := raisesOnly_charge (by decide)
  have hpaid := charged_ebudget v g.ctx 256
  have hvctx : v.ctx g.ctx = s.ctx g.ctx := by
    unfold State.ctx
    rw [hcheck.ctxs, hctxs]
  obtain ⟨x, hvx, hgx⟩ := hcheck.group _ g hug
  have hwx : (v.charged g.ctx 256).group? s.cur.gid = some x := by
    unfold State.group? at hvx ⊢
    rwa [hcgroups]
  obtain ⟨y, hwy, hxy⟩ := hcharge.group _ x hwx
  generalize v.charged g.ctx 256 = w at hccur hccores hcharge hpaid
  generalize v.charge ⟨some g.ctx, some s.cur.gid⟩ 256 = t at hx hcharge hwy
  have htcur : t.cur = s.cur := hcharge.cur.trans (hccur.trans (hcheck.cur.trans hcur))
  have hgy := hgx.trans hxy
  rw [State.go, htcur] at hx
  refine ⟨_, y.advance s.cur 0, hx, group?_onGroup_same hwy fun _ => rfl, fun n => hgy.sameReg (.a n), ?_, ?_, fun hend => ?_, ?_⟩
  · have hmove := advance_movesOn y s.cur 0 (hgy.lanes ▸ hlanes)
    intro L hL
    rw [hmove L hL, Group.lane, Group.lane, hgy.lanes]
  · have hside : t.cores = u.cores := hcharge.cores.trans (hccores.trans hcheck.cores)
    refine Eq.trans ?_ hups
    unfold State.side State.onGroup
    rw [hside]
  · rw [hpends hend, Option.some.injEq] at hvx
    refine hxy.natBit ?_
    rw [← hvx, natBit_toNat, Group.withEvent, BitVec.getLsbD_or]
    exact Bool.or_eq_true_iff.2 (.inr (by decide))
  · have hctx : t.ctx g.ctx = w.ctx g.ctx := by
      unfold State.ctx
      rw [hcharge.ctxs]
    rw [hvctx, ← hctx] at hpaid
    exact hpaid

end

/-! MMA and MMAG (R251, R252). -/

/-- What O33 says of a word that multiplies the tiles `A` and `B` into accumulator tile `d`. -/
abbrev MultipliesTiles (i : Instr) (s : State) (g : Group) (d : Nat) (A B : Tile) : Prop :=
  let key := sideKey g.core g.side
  (pairing A.fmt B.fmt = true → (s.side key).upsets < 2 → ∃ t g', exec i s = .next t
      ∧ ((s.side key).upsets = 0 → OnlyIssuer s t) ∧ { t.cores with sides := s.cores.sides } = s.cores
      ∧ (∀ k, k ≠ s.cur.gid → t.group? k = s.group? k)
      ∧ t.group? s.cur.gid = some g' ∧ OnlyTile s.cur d g g' ∧ Multiplied g g' d A B
      ∧ (t.side key).upsets = 0 ∧ (∀ k, k ≠ key → t.side k = s.side k)
      ∧ ((s.side key).upsets = 1 → (t.side key).matBusy = max (s.side key).matBusy (s.side key).cycle + 32))
  ∧ (pairing A.fmt B.fmt = false → g.trap = none → Traps i s g ⟨0x14, 0, 0, 0⟩)
  ∧ (pairing A.fmt B.fmt = true → 2 ≤ (s.side key).upsets → ∃ t g', exec i s = .next t ∧ t.group? s.cur.gid = some g'
      ∧ (∀ n, SameReg g g' (.a n)) ∧ MovesOn s.cur 0 g g'
      ∧ (t.side key).upsets = (s.side key).upsets - 2
      ∧ (g.ended = false → natBit g'.imprecise.toNat 0x18 = true)
      ∧ (t.ctx g.ctx).ebudget = (if (s.ctx g.ctx).budgetField = 0 then (s.ctx g.ctx).ebudget else (s.ctx g.ctx).ebudget - 256))

/-- What a word does that multiplies two tiles: the check of its result, or the format trap (R64, R67). -/
def multiplyEffect (s : State) (g : Group) (d : Nat) (A B : Tile) : State :=
  if pairing A.fmt B.fmt then mmaChecked s g fun x => mmaResult x d A.operand B.operand else raise s ⟨0x14, 0, 0, 0⟩

theorem mmaResult_gid (g : Group) (d : Nat) (a b : AOperand) : (mmaResult g d a b).gid = g.gid := by
  rw [mmaResult_eq, fillA_gid]

theorem multipliesTiles_of_exec {i : Instr} {s : State} {g : Group} {d : Nat} {A B : Tile} (hc : s.cores.Canonical)
    (hg : s.group? s.cur.gid = some g) (hcan : g.Canonical) (hx : exec i s = .next (multiplyEffect s g d A B)) :
    MultipliesTiles i s g d A B := by
  have ha := hcan.accumulators
  unfold multiplyEffect at hx
  refine ⟨fun hp hup => ?_, fun hp hn => ?_, fun hp hup => ?_⟩
  · rw [if_pos hp] at hx
    obtain ⟨t, ht, hissuer, hcores, hother, hgroup, hups, hsides, hbusy⟩ :=
      mmaChecked_passes hc hg hx (fun x => mmaResult_gid x ..) hup
    refine ⟨t, _, ht, hissuer, hcores, hother, hgroup, ?_, mmaResult_multiplied ha d hp, hups, hsides, hbusy⟩
    rw [mmaResult_eq]
    exact onlyTile_fillA hcan s.cur d _
  · rw [if_neg (by rw [hp]; exact Bool.false_ne_true)] at hx
    exact traps_of_raise hx hg hn
  · rw [if_pos hp] at hx
    exact mmaChecked_fails hc hg hx hcan.1 hup

theorem exec_mma (o : RForm) (s : State) : exec (.mma o) s = execWord (.mma o) true o.g
    (fun s g _ => multiplyEffect s g o.d.toNat (rdT g o.a.toNat) (rdT g o.b.toNat)) s := rfl

/-- A legal word's type is one that its row of the acceptance tables admits (R181, R201). -/
theorem ty_mem_of_ok {d : RDesc} {o : RForm} (h : d.ok o = true) : o.ty ∈ d.tys := by
  unfold RDesc.ok at h
  simp only [Bool.and_eq_true, List.contains_iff_mem] at h
  obtain ⟨⟨⟨⟨⟨⟨⟨⟨⟨-, hty⟩, -⟩, -⟩, -⟩, -⟩, -⟩, -⟩, -⟩, -⟩ := h
  exact hty

/-- The types that MMAG admits (R252) have no block scales. -/
theorem mmag_fmt {o : RForm} (h : (Instr.mmag o).wf = true) : tagOf o.ty ∈ [1, 2, 3, 4, 6] := by
  have hty : o.ty ∈ [Ty.bf16, .f16, .e4m3, .e5m2, .i8] := ty_mem_of_ok h
  revert hty
  generalize o.ty = y
  revert y
  decide

/-- Without block scales the scale vector does not matter. -/
theorem floatRow_scales {fmt : Nat} (h : fmt ∈ [1, 2, 3, 4, 6]) (h6 : fmt ≠ 6) (row sc sc' : List Byte) (i : Nat) :
    floatRow fmt row sc i = floatRow fmt row sc' i := by
  simp only [List.mem_cons, List.not_mem_nil, or_false] at h
  rcases h with rfl | rfl | rfl | rfl | rfl
  · rfl
  · rfl
  · rfl
  · rfl
  · exact absurd rfl h6

theorem mmaResult_scales (g : Group) (d : Nat) (a b : AOperand) (scales : List Byte) (h : a.fmt ∈ [1, 2, 3, 4, 6]) :
    mmaResult g d { a with scales := scales } b = mmaResult g d a b := by
  have helem : ∀ c i j, mmaElem c { a with scales := scales } b i j = mmaElem c a b i j := by
    intro c i j
    unfold mmaElem
    dsimp only
    split
    · rfl
    · next h6 => simp only [floatRow_scales h h6 _ scales a.scales]
  simp only [mmaResult_eq, mmaWord, helem]

/-- A tile that holds what MMAG gathers: the bytes of each row with the poison of its words (R252). -/
def Gathered (s : State) (g : Group) (r : Nat) (A : Tile) : Prop :=
  ∀ i < 32, (∀ k < 64, sget 0 A.bytes (64 * i + k) = spByte s.cores (spPhys s g (rdV g r i).val.toNat + k))
    ∧ bitOf A.rowTags i = (List.range 16).any fun k => spPoison s.cores (spPhys s g (rdV g r i).val.toNat + 4 * k)

theorem gatherOperand_eq {s : State} {g : Group} {r : Nat} {A : Tile} (h : Gathered s g r A) :
    gatherOperand s g A.fmt r = { A.operand with scales := [] } := by
  have hrows : (List.range 32).map (fun i => spBytes s.cores (spPhys s g (rdV g r i).val.toNat) 64) = (List.range 32).map A.row :=
    List.map_congr_left fun i hi => List.map_congr_left fun k hk =>
      ((h i (List.mem_range.1 hi)).1 k (List.mem_range.1 hk)).symm
  have htags : (maskOf fun i => (List.range 16).any fun k => spPoison s.cores (spPhys s g (rdV g r i).val.toNat + 4 * k))
      = A.rowTags := BitVec.eq_of_getLsbD_eq fun i hi => (bitOf_maskOf hi).trans (h i hi).2.symm
  unfold gatherOperand
  dsimp only
  rw [hrows, htags]
  rfl

section
variable {p : Nat → Prop} [DecidablePred p] {tr : Nat → TrapReq}

theorem firstTrap_firstOf {L : Nat} (h : FirstOf p L) :
    firstTrap 0xFFFFFFFF#32 (fun K => if p K then some (tr K) else none) = some (tr L) := by
  obtain ⟨hL, hp, hlow⟩ := h
  exact firstTrap_first hL (bitOf_all hL) (if_pos hp) fun K hK _ => if_neg (hlow K hK)

theorem firstTrap_noLane (h : ∀ K < 32, ¬ p K) : firstTrap 0xFFFFFFFF#32 (fun K => if p K then some (tr K) else none) = none :=
  firstTrap_none fun K hK _ => if_neg (h K hK)

end

/-- What MMAG does once its index operand has passed the checks, or the trap of the first that fails. -/
def mmagEffect (o : RForm) (s : State) (g : Group) (act : Word) : State :=
  match gatherTrap s g o.a.toNat act with
  | some t => raise s t
  | none =>
    if pairing (tagOf o.ty) (rdT g o.b.toNat).fmt then
      mmaChecked s g fun x => mmaResult x o.d.toNat (gatherOperand s g (tagOf o.ty) o.a.toNat) (rdT g o.b.toNat).operand
    else raise s ⟨0x14, 0, 0, 0⟩

theorem exec_mmag (o : RForm) (s : State) : exec (.mmag o) s = execWord (.mmag o) true o.g (mmagEffect o) s := rfl

section
variable {o : RForm} {s : State} {g : Group} (h : GoesTogether (.mmag o) o.g s g)
include h

theorem mmag_traps {t : TrapReq} (ht : gatherTrap s g o.a.toNat 0xFFFFFFFF#32 = some t) (hn : g.trap = none) :
    Traps (.mmag o) s g t := by
  have ⟨⟨_, hg, _⟩, _⟩ := h
  refine traps_of_raise ?_ hg hn
  rw [exec_mmag, execWord_runs_together h, mmagEffect, ht]

/-- A gathered operand multiplies as the tile that holds it would. -/
theorem mmag_multiplies {A : Tile} (ht : gatherTrap s g o.a.toNat 0xFFFFFFFF#32 = none) (hfmt : A.fmt = tagOf o.ty)
    (hA : Gathered s g o.a.toNat A) : exec (.mmag o) s = .next (multiplyEffect s g o.d.toNat A (rdT g o.b.toNat)) := by
  have hmem : A.operand.fmt ∈ [1, 2, 3, 4, 6] := by
    change A.fmt ∈ _
    rw [hfmt]
    exact mmag_fmt h.1.1
  have hres : ∀ x, mmaResult x o.d.toNat (gatherOperand s g A.fmt o.a.toNat) (rdT g o.b.toNat).operand
      = mmaResult x o.d.toNat A.operand (rdT g o.b.toNat).operand := fun x => by
    rw [gatherOperand_eq hA]
    exact mmaResult_scales _ _ A.operand _ _ hmem
  rw [exec_mmag, execWord_runs_together h, mmagEffect, ht, multiplyEffect, ← hfmt]
  simp only [hres]

end

/-- Settles O33: the result of the products is written where the checksum passes, and the gathered rows are a tile. -/
theorem matrixWordsAddExactProducts : Obligations.MatrixWordsAddExactProducts := by
  intro o s g hc
  refine ⟨fun h => tzero_clears h, fun h => ?_, fun h => ?_⟩
  · have ⟨⟨_, hg, hcan, _⟩, _⟩ := h
    exact multipliesTiles_of_exec hc hg hcan ((exec_mma o s).trans (execWord_runs_together h))
  · have ⟨⟨_, hg, hcan, _⟩, _⟩ := h
    intro x off clean aligned
    have hfull : ∀ L, off L % 2 ^ 54 = off L := fun L => Nat.mod_eq_of_lt ((x L).val.isLt.trans (by decide))
    have hnotag : clean → ∀ L < 32, ¬ (x L).tag = true := fun hclean L hL => by rw [hclean L hL]; exact Bool.false_ne_true
    have hnoskew : aligned → ∀ L < 32, ¬ off L % 64 ≠ 0 := fun haligned L hL => not_not_intro (haligned L hL)
    refine ⟨fun hclean haligned hin A hfmt hA => ?_, fun L hn => ⟨fun hL => ?_, fun hclean hL => ?_, fun hclean haligned hL => ?_⟩⟩
    · refine multipliesTiles_of_exec hc hg hcan (mmag_multiplies h ?_ hfmt hA)
      unfold gatherTrap
      dsimp only
      rw [firstTrap_noLane (hnotag hclean), firstTrap_noLane (hnoskew haligned),
        firstTrap_noLane fun L hL => not_lt.2 (hin L hL)]
      rfl
    · refine mmag_traps h ?_ hn
      unfold gatherTrap
      dsimp only
      rw [firstTrap_firstOf hL]
      rfl
    · refine mmag_traps h ?_ hn
      unfold gatherTrap
      dsimp only
      rw [firstTrap_noLane (hnotag hclean), firstTrap_firstOf hL, addrTrap, hfull]
      rfl
    · refine mmag_traps h ?_ hn
      unfold gatherTrap
      dsimp only
      rw [firstTrap_noLane (hnotag hclean), firstTrap_noLane (hnoskew haligned), firstTrap_firstOf hL, addrTrap, hfull]
      rfl

end Sys2Proof.Machine
end
